-- ==== Sys2Proof/Word.lean ====
section
/-! DEFINITION. The plain words of the Delig Mladcy (R8, R9, R13) and the records that the wordless rows of the
opcode table carry: a Sahgiuk message (R315), context commands (R330), firmware images (R332). -/

namespace Sys2Proof

/-- A byte (R9). -/
abbrev Byte := BitVec 8
/-- A word, and one vector lane (R9, R117). -/
abbrev Word := BitVec 32
/-- A doubleword, and one scalar register (R9, R13). -/
abbrev DWord := BitVec 64
/-- A virtual address without its tag: 57 significant bits (R6). -/
abbrev Va := BitVec 57
/-- A vector register: lane l stands in bits [32l+31:32l] (R13). -/
abbrev Vec := BitVec 1024
/-- A set of lanes: a strand mask or a mask register (R13). -/
abbrev Mask := BitVec 32

/-- A pour-permit request (R215): from a strand that waits to issue, from the copy at the head of a copy queue, or from
the follow-on MMA of the copy at the head of a copy queue. -/
inductive PermitFor where
  | strand (w e : Nat)
  | copyHead (core q : Nat)
  | followOn (core q : Nat)
deriving DecidableEq, Repr

/-- A Sahgiuk message with the link facts of R314 and the header of R315. The payload is given by its contents as
R316 lists them (length, operation and operands, data), since the spec gives those payloads no byte layout. -/
structure Msg where
  /-- fabric port of the die by which it arrives or leaves, 0 to 3; 4 for the die-to-die link -/
  inPort : Nat
  /-- whether the physical and framing options are those of R314 -/
  phyOk : Bool
  /-- bytes of the Ethernet frame's payload (MTU), number of 802.1Q tags -/
  bytes : Nat
  tags : Nat
  /-- IPv6, extension headers present, DSCP (R317) -/
  ipv6 : Bool
  extHdr : Bool
  dscp : BitVec 6
  /-- UDP, its destination port, its checksum present and right -/
  udp : Bool
  port : BitVec 16
  csumOk : Bool
  /-- payload length in bytes (R315: 0 to 8,192) -/
  plen : Nat
  ver : BitVec 4
  cls : BitVec 2
  kind : BitVec 8
  conn : BitVec 32
  psn : BitVec 32
  apsn : BitVec 32
  ctx : BitVec 6
  die : BitVec 2
  ackReq : Bool
  coded : Bool
  fence : Bool
  /-- the res0 bits of bytes 0 and 17 and of bytes 36 to 39; those of the status field stand in it -/
  resClass : BitVec 2
  resFlags : BitVec 5
  resTail : BitVec 32
  status : BitVec 16
  addr : DWord
  akey : DWord
  /-- the sender's fabric endpoint (IPv6, R328) -/
  src : BitVec 128
  /-- payload contents: length of a read request, operation code, operands, data bytes (R316) -/
  len : Nat
  op : Nat
  opnds : List DWord
  data : List Byte
deriving DecidableEq, Repr

/-- The header of a context command (kind 0x0F): target die, system access key carried, the sender, connection and
sequence number, whether an ack is asked for, and the port by which it arrives (R315, R330). -/
structure Cmd where
  die : Nat
  key : DWord
  src : BitVec 128
  conn : BitVec 32
  psn : BitVec 32
  ackReq : Bool
  inPort : Nat
deriving DecidableEq, Repr

/-- What the set-state command writes (R327, R330). -/
structure CtxSet where
  ctx : Nat
  asid : BitVec 16
  root : BitVec 52
  rootkey : BitVec 12
  akey : DWord
  host : BitVec 128
  hconn : BitVec 32
  save : DWord
deriving DecidableEq, Repr

/-- A peer-table entry (R328). `res0` says whether a reserved bit is set. -/
structure PeerEntry where
  pkg : BitVec 16
  die : BitVec 2
  ctx : BitVec 6
  valid : Bool
  res0 : Bool
  cbase : BitVec 32
  akey : DWord
  addr : BitVec 128
deriving DecidableEq, Repr

/-- A firmware image (R332): its boot stages in order, its version, its public key and its signature. -/
structure Image where
  stages : List (List Byte)
  version : Nat
  pubkey : List Byte
  signature : List Byte
deriving DecidableEq, Repr

/-- A halo leaf on its way to the receiving die's Runner (R237, R238). -/
structure HaloLeaf where
  ctx : Nat
  dtree : DWord
  lx : BitVec 16
  ly : BitVec 16
  lz : BitVec 16
  vmask : List Byte
  vals : List Byte
  rrec : DWord
  bit : Nat
  step : Nat
  /-- the message that brought it, which awaits its ack -/
  reply : Option Msg
deriving DecidableEq, Repr

end Sys2Proof
end

