-- ==== Sys2Proof/Syntax.lean ====
section
/-! DEFINITION. The instructions of the Delig Mladcy: one constructor per row of spec/opcode_table.json.
The first 288 are the opcodes of R97 to R104 with the operand fields of R85 (fields that are res0 are left out; R95).
The other 80 are the device's own indivisible steps (spec/95_what_each_step_holds.md): they have no word, and their
operands name the warp and split-table entry, core, queue, die, block or message concerned. -/

namespace Sys2Proof

/-- One row of the opcode table. -/
inductive Instr where
  /-- NOP, opcode 0x001 (R376): Does nothing except advance the PC and the logical clock. -/
  | nop
  /-- XIMM, opcode 0x002 (R87): Prefix word that supplies 21 immediate bits to the instruction word of its chain. -/
  | ximm (imm : BitVec 21)
  /-- KSEL, opcode 0x003 (R88): Prefix word that restricts the active lanes of its chain's instruction by mask km or its inverse. -/
  | ksel (n : BitVec 1) (m : BitVec 3)
  /-- BRA, opcode 0x004 (R347): Unconditionally branches the issuing strand to pc plus a word offset. -/
  | bra (imm : BitVec 21)
  /-- BSC_Z, opcode 0x005 (R347): Branches the strand when the scalar s[d] is zero. -/
  | bscZ (d : BitVec 7) (imm : BitVec 14)
  /-- BSC_NZ, opcode 0x006 (R347): Branches the strand when the scalar s[d] is nonzero. -/
  | bscNz (d : BitVec 7) (imm : BitVec 14)
  /-- BRV_T, opcode 0x007 (R348): Divergent branch on lanes where mask km is set, splitting or serialising the strand under R23. -/
  | brvT (d : BitVec 7) (imm : BitVec 14)
  /-- BRV_F, opcode 0x008 (R348): Divergent branch on lanes where mask km is clear, splitting or serialising the strand under R23. -/
  | brvF (d : BitVec 7) (imm : BitVec 14)
  /-- CONV, opcode 0x009 (R24): Reconverges a strand: runs a pending path, pops the mask stack, or waits to join its split group. -/
  | conv
  /-- EXIT, opcode 0x00A (R360): Removes the active lanes from the warp and, when none remain, drains and releases or frees the warp. -/
  | exit
  /-- YIELD, opcode 0x00B (R409): Suspends the warp until its earlier copies complete, then resumes at the continuation. -/
  | yield (imm : BitVec 21)
  /-- WAIT, opcode 0x00C (R408): Waits for earlier memory instructions, pending writes and/or a number of clocks. -/
  | wait (imm : BitVec 14)
  /-- MWAIT, opcode 0x00D (R375): Waits until a receive record's step counter reaches the awaited step or shows an error, then acquires. -/
  | mwait (a : BitVec 7) (b : BitVec 7)
  /-- IDEM, opcode 0x00E (R297): Opens an idempotent region for the issuing strand's split-table entry. -/
  | idem
  /-- BAR, opcode 0x00F (R344): Block barrier n: the strand waits until every warp of the block has arrived. -/
  | bar (imm : BitVec 7)
  /-- CALL, opcode 0x010 (R67): Pushes a caller record, slides the register window and parks other strands, then jumps to the target. -/
  | call (imm : BitVec 21)
  /-- CALLI, opcode 0x011 (R67): Indirect call through a scalar target, sliding the window as CALL does. -/
  | calli (a : BitVec 7)
  /-- RET, opcode 0x012 (R69): Waits for all unparked strands at a RET, merges them, pops the caller record and restores the window. -/
  | ret
  /-- FRAME, opcode 0x013 (R66): Declares the current frame sizes, spilling caller frames through the Ladle as needed. -/
  | frame (imm : BitVec 14)
  /-- WBASE, opcode 0x014 (R70): Discards every caller record and sets the window bases from a scalar. -/
  | wbase (a : BitVec 7)
  /-- RGROW, opcode 0x015 (R62): Takes an extended block of 64 registers from the quarter's pool and rebases the window. -/
  | rgrow (d : BitVec 7)
  /-- RSHRINK, opcode 0x016 (R62): Returns the extended block to the pool and rebases the window. -/
  | rshrink (d : BitVec 7)
  /-- BARG, opcode 0x017 (R345): Gang barrier n: waits until every block of the gang has arrived. -/
  | barg (imm : BitVec 7)
  /-- LCLK, opcode 0x018 (R308): Reads the warp's logical clock and advances it by a scalar amount plus one. -/
  | lclk (d : BitVec 7) (a : BitVec 7)
  /-- TRAP, opcode 0x019 (R293): Retires and raises SYS with its code. -/
  | trap (imm : BitVec 14)
  /-- ERET, opcode 0x01A (R294): Leaves a handler, resuming, skipping, redirecting or stopping the trapped strand. -/
  | eret (a : BitVec 7) (b : BitVec 7)
  /-- BRKP, opcode 0x01B (R293): Retires and raises BRKP with subcode 0 and its code. -/
  | brkp (imm : BitVec 14)
  /-- CTLR, opcode 0x01C (R357): Reads a control register of the warp into a scalar. -/
  | ctlr (d : BitVec 7) (imm : BitVec 7)
  /-- CTLW, opcode 0x01D (R357): Writes a control register of the warp, subject to ignore rules and R77. -/
  | ctlw (a : BitVec 7) (imm : BitVec 7)
  /-- SADD, opcode 0x040 (R390): Scalar 64-bit add of two registers. -/
  | sadd (d : BitVec 7) (a : BitVec 7) (b : BitVec 7)
  /-- SADD_IMM, opcode 0x041 (R390): Scalar add of a register and a signed immediate. -/
  | saddImm (d : BitVec 7) (a : BitVec 7) (imm : BitVec 7)
  /-- SSUB, opcode 0x042 (R390): Scalar 64-bit subtract. -/
  | ssub (d : BitVec 7) (a : BitVec 7) (b : BitVec 7)
  /-- SMUL, opcode 0x043 (R390): Scalar multiply, low 64 bits. -/
  | smul (d : BitVec 7) (a : BitVec 7) (b : BitVec 7)
  /-- SMULH_S, opcode 0x044 (R390): Scalar signed multiply, high 64 bits. -/
  | smulhS (d : BitVec 7) (a : BitVec 7) (b : BitVec 7)
  /-- SMULH_U, opcode 0x045 (R390): Scalar unsigned multiply, high 64 bits. -/
  | smulhU (d : BitVec 7) (a : BitVec 7) (b : BitVec 7)
  /-- SAND, opcode 0x046 (R390): Scalar bitwise and. -/
  | sand (d : BitVec 7) (a : BitVec 7) (b : BitVec 7)
  /-- SOR, opcode 0x047 (R390): Scalar bitwise or. -/
  | sor (d : BitVec 7) (a : BitVec 7) (b : BitVec 7)
  /-- SXOR, opcode 0x048 (R390): Scalar bitwise exclusive or. -/
  | sxor (d : BitVec 7) (a : BitVec 7) (b : BitVec 7)
  /-- SSHL, opcode 0x049 (R390): Scalar shift left by a register amount. -/
  | sshl (d : BitVec 7) (a : BitVec 7) (b : BitVec 7)
  /-- SSHL_IMM, opcode 0x04A (R390): Scalar shift left by an immediate. -/
  | sshlImm (d : BitVec 7) (a : BitVec 7) (imm : BitVec 7)
  /-- SSHR, opcode 0x04B (R390): Scalar logical shift right by a register amount. -/
  | sshr (d : BitVec 7) (a : BitVec 7) (b : BitVec 7)
  /-- SSHR_IMM, opcode 0x04C (R390): Scalar logical shift right by an immediate. -/
  | sshrImm (d : BitVec 7) (a : BitVec 7) (imm : BitVec 7)
  /-- SSRA, opcode 0x04D (R390): Scalar arithmetic shift right by a register amount. -/
  | ssra (d : BitVec 7) (a : BitVec 7) (b : BitVec 7)
  /-- SSRA_IMM, opcode 0x04E (R390): Scalar arithmetic shift right by an immediate. -/
  | ssraImm (d : BitVec 7) (a : BitVec 7) (imm : BitVec 7)
  /-- SMIN_S, opcode 0x04F (R390): Scalar signed minimum. -/
  | sminS (d : BitVec 7) (a : BitVec 7) (b : BitVec 7)
  /-- SMIN_U, opcode 0x050 (R390): Scalar unsigned minimum. -/
  | sminU (d : BitVec 7) (a : BitVec 7) (b : BitVec 7)
  /-- SMAX_S, opcode 0x051 (R390): Scalar signed maximum. -/
  | smaxS (d : BitVec 7) (a : BitVec 7) (b : BitVec 7)
  /-- SMAX_U, opcode 0x052 (R390): Scalar unsigned maximum. -/
  | smaxU (d : BitVec 7) (a : BitVec 7) (b : BitVec 7)
  /-- SCMP_EQ, opcode 0x053 (R390): Scalar compare equal, writing 1 or 0. -/
  | scmpEq (d : BitVec 7) (a : BitVec 7) (b : BitVec 7)
  /-- SCMP_NE, opcode 0x054 (R390): Scalar compare not equal. -/
  | scmpNe (d : BitVec 7) (a : BitVec 7) (b : BitVec 7)
  /-- SCMP_LT, opcode 0x055 (R390): Scalar signed compare less than. -/
  | scmpLt (d : BitVec 7) (a : BitVec 7) (b : BitVec 7)
  /-- SCMP_LE, opcode 0x056 (R390): Scalar signed compare less or equal. -/
  | scmpLe (d : BitVec 7) (a : BitVec 7) (b : BitVec 7)
  /-- SCMP_LTU, opcode 0x057 (R390): Scalar unsigned compare less than. -/
  | scmpLtu (d : BitVec 7) (a : BitVec 7) (b : BitVec 7)
  /-- SCMP_LEU, opcode 0x058 (R390): Scalar unsigned compare less or equal. -/
  | scmpLeu (d : BitVec 7) (a : BitVec 7) (b : BitVec 7)
  /-- SSEL, opcode 0x059 (R390): Selects s[a] or s[b] by the old value of s[d]. -/
  | ssel (d : BitVec 7) (a : BitVec 7) (b : BitVec 7)
  /-- SMOV, opcode 0x05A (R390): Copies a scalar or special register. -/
  | smov (d : BitVec 7) (a : BitVec 7)
  /-- SLI, opcode 0x05B (R391): Loads a sign-extended immediate into a scalar. -/
  | sli (d : BitVec 7) (imm : BitVec 14)
  /-- SADR, opcode 0x05C (R391): Writes pc plus a byte offset into a scalar. -/
  | sadr (d : BitVec 7) (imm : BitVec 14)
  /-- SPOPC, opcode 0x05D (R390): Counts the set bits of a scalar. -/
  | spopc (d : BitVec 7) (a : BitVec 7)
  /-- SCLZ, opcode 0x05E (R390): Counts the leading zero bits of a scalar. -/
  | sclz (d : BitVec 7) (a : BitVec 7)
  /-- SLD_B, opcode 0x05F (R393): Scalar load of one byte, zero-extended. -/
  | sldB (d : BitVec 7) (a : BitVec 7) (imm : BitVec 7)
  /-- SLD_H, opcode 0x060 (R393): Scalar load of a half, zero-extended. -/
  | sldH (d : BitVec 7) (a : BitVec 7) (imm : BitVec 7)
  /-- SLD_W, opcode 0x061 (R393): Scalar load of a word, zero-extended. -/
  | sldW (d : BitVec 7) (a : BitVec 7) (imm : BitVec 7)
  /-- SLD_D, opcode 0x062 (R393): Scalar load of a doubleword. -/
  | sldD (d : BitVec 7) (a : BitVec 7) (imm : BitVec 7)
  /-- SST_B, opcode 0x063 (R393): Scalar store of one byte. -/
  | sstB (d : BitVec 7) (a : BitVec 7) (imm : BitVec 7)
  /-- SST_H, opcode 0x064 (R393): Scalar store of a half. -/
  | sstH (d : BitVec 7) (a : BitVec 7) (imm : BitVec 7)
  /-- SST_W, opcode 0x065 (R393): Scalar store of a word. -/
  | sstW (d : BitVec 7) (a : BitVec 7) (imm : BitVec 7)
  /-- SST_D, opcode 0x066 (R393): Scalar store of a doubleword. -/
  | sstD (d : BitVec 7) (a : BitVec 7) (imm : BitVec 7)
  /-- VADD, opcode 0x080 (R395): Vector 32-bit wrapping add. -/
  | vadd (d : BitVec 7) (a : BitVec 7) (b : BitVec 7)
  /-- VADD_SAT, opcode 0x081 (R395): Vector signed saturating add. -/
  | vaddSat (d : BitVec 7) (a : BitVec 7) (b : BitVec 7)
  /-- VSUB, opcode 0x082 (R395): Vector wrapping subtract. -/
  | vsub (d : BitVec 7) (a : BitVec 7) (b : BitVec 7)
  /-- VSUB_SAT, opcode 0x083 (R395): Vector signed saturating subtract. -/
  | vsubSat (d : BitVec 7) (a : BitVec 7) (b : BitVec 7)
  /-- VMUL_LO, opcode 0x084 (R395): Vector multiply, low 32 bits. -/
  | vmulLo (d : BitVec 7) (a : BitVec 7) (b : BitVec 7)
  /-- VMUL_HI_S, opcode 0x085 (R395): Vector signed multiply, high 32 bits. -/
  | vmulHiS (d : BitVec 7) (a : BitVec 7) (b : BitVec 7)
  /-- VMUL_HI_U, opcode 0x086 (R395): Vector unsigned multiply, high 32 bits. -/
  | vmulHiU (d : BitVec 7) (a : BitVec 7) (b : BitVec 7)
  /-- VMAD, opcode 0x087 (R395): Vector multiply-add into vd, low 32 bits. -/
  | vmad (d : BitVec 7) (a : BitVec 7) (b : BitVec 7)
  /-- VAND, opcode 0x088 (R395): Vector bitwise and. -/
  | vand (d : BitVec 7) (a : BitVec 7) (b : BitVec 7)
  /-- VOR, opcode 0x089 (R395): Vector bitwise or. -/
  | vor (d : BitVec 7) (a : BitVec 7) (b : BitVec 7)
  /-- VXOR, opcode 0x08A (R395): Vector bitwise exclusive or. -/
  | vxor (d : BitVec 7) (a : BitVec 7) (b : BitVec 7)
  /-- VSHL, opcode 0x08B (R395): Vector shift left. -/
  | vshl (d : BitVec 7) (a : BitVec 7) (b : BitVec 7)
  /-- VSHR, opcode 0x08C (R395): Vector logical shift right. -/
  | vshr (d : BitVec 7) (a : BitVec 7) (b : BitVec 7)
  /-- VSRA, opcode 0x08D (R395): Vector arithmetic shift right. -/
  | vsra (d : BitVec 7) (a : BitVec 7) (b : BitVec 7)
  /-- VMIN_S, opcode 0x08E (R395): Vector signed minimum. -/
  | vminS (d : BitVec 7) (a : BitVec 7) (b : BitVec 7)
  /-- VMIN_U, opcode 0x08F (R395): Vector unsigned minimum. -/
  | vminU (d : BitVec 7) (a : BitVec 7) (b : BitVec 7)
  /-- VMAX_S, opcode 0x090 (R395): Vector signed maximum. -/
  | vmaxS (d : BitVec 7) (a : BitVec 7) (b : BitVec 7)
  /-- VMAX_U, opcode 0x091 (R395): Vector unsigned maximum. -/
  | vmaxU (d : BitVec 7) (a : BitVec 7) (b : BitVec 7)
  /-- VCMP_EQ, opcode 0x092 (R395): Vector compare equal into mask kd. -/
  | vcmpEq (d : BitVec 7) (a : BitVec 7) (b : BitVec 7)
  /-- VCMP_NE, opcode 0x093 (R395): Vector compare not equal into mask kd. -/
  | vcmpNe (d : BitVec 7) (a : BitVec 7) (b : BitVec 7)
  /-- VCMP_LT, opcode 0x094 (R395): Vector signed compare less than into mask kd. -/
  | vcmpLt (d : BitVec 7) (a : BitVec 7) (b : BitVec 7)
  /-- VCMP_LE, opcode 0x095 (R395): Vector signed compare less or equal into mask kd. -/
  | vcmpLe (d : BitVec 7) (a : BitVec 7) (b : BitVec 7)
  /-- VCMP_LTU, opcode 0x096 (R395): Vector unsigned compare less than into mask kd. -/
  | vcmpLtu (d : BitVec 7) (a : BitVec 7) (b : BitVec 7)
  /-- VCMP_LEU, opcode 0x097 (R395): Vector unsigned compare less or equal into mask kd. -/
  | vcmpLeu (d : BitVec 7) (a : BitVec 7) (b : BitVec 7)
  /-- VSEL, opcode 0x098 (R395): Selects va or vb per lane by the old vd. -/
  | vsel (d : BitVec 7) (a : BitVec 7) (b : BitVec 7)
  /-- VMOV, opcode 0x099 (R395): Copies a vector register unchanged. -/
  | vmov (d : BitVec 7) (a : BitVec 7)
  /-- VMOV_BC, opcode 0x09A (R395): Broadcasts s[a][31:0] to every active lane. -/
  | vmovBc (d : BitVec 7) (a : BitVec 7)
  /-- VMOV_RD, opcode 0x09B (R396): Reads one lane of a vector register into a scalar. -/
  | vmovRd (d : BitVec 7) (a : BitVec 7) (b : BitVec 7)
  /-- VPOPC, opcode 0x09C (R395): Vector population count. -/
  | vpopc (d : BitVec 7) (a : BitVec 7)
  /-- VCLZ, opcode 0x09D (R395): Vector count of leading zeros. -/
  | vclz (d : BitVec 7) (a : BitVec 7)
  /-- VBFE_S, opcode 0x09E (R397): Vector signed bit-field extract. -/
  | vbfeS (d : BitVec 7) (a : BitVec 7) (b : BitVec 7)
  /-- VBFE_U, opcode 0x09F (R397): Vector unsigned bit-field extract. -/
  | vbfeU (d : BitVec 7) (a : BitVec 7) (b : BitVec 7)
  /-- VBFI, opcode 0x0A0 (R397): Vector bit-field insert. -/
  | vbfi (d : BitVec 7) (a : BitVec 7) (b : BitVec 7)
  /-- FADD, opcode 0x0C0 (R362): FP32 add rounded under ctl.fpm. -/
  | fadd (d : BitVec 7) (a : BitVec 7) (b : BitVec 7)
  /-- FADD_RN, opcode 0x0C1 (R362): FP32 add rounded to nearest even. -/
  | faddRn (d : BitVec 7) (a : BitVec 7) (b : BitVec 7)
  /-- FADD_RZ, opcode 0x0C2 (R362): FP32 add rounded towards zero. -/
  | faddRz (d : BitVec 7) (a : BitVec 7) (b : BitVec 7)
  /-- FSUB, opcode 0x0C3 (R362): FP32 subtract rounded under ctl.fpm. -/
  | fsub (d : BitVec 7) (a : BitVec 7) (b : BitVec 7)
  /-- FSUB_RN, opcode 0x0C4 (R362): FP32 subtract rounded to nearest even. -/
  | fsubRn (d : BitVec 7) (a : BitVec 7) (b : BitVec 7)
  /-- FSUB_RZ, opcode 0x0C5 (R362): FP32 subtract rounded towards zero. -/
  | fsubRz (d : BitVec 7) (a : BitVec 7) (b : BitVec 7)
  /-- FMUL, opcode 0x0C6 (R362): FP32 multiply rounded under ctl.fpm. -/
  | fmul (d : BitVec 7) (a : BitVec 7) (b : BitVec 7)
  /-- FMUL_RN, opcode 0x0C7 (R362): FP32 multiply rounded to nearest even. -/
  | fmulRn (d : BitVec 7) (a : BitVec 7) (b : BitVec 7)
  /-- FMUL_RZ, opcode 0x0C8 (R362): FP32 multiply rounded towards zero. -/
  | fmulRz (d : BitVec 7) (a : BitVec 7) (b : BitVec 7)
  /-- FFMA, opcode 0x0C9 (R362): FP32 fused multiply-add rounded once under ctl.fpm. -/
  | ffma (d : BitVec 7) (a : BitVec 7) (b : BitVec 7)
  /-- FFMA_RN, opcode 0x0CA (R362): FP32 fused multiply-add rounded to nearest even. -/
  | ffmaRn (d : BitVec 7) (a : BitVec 7) (b : BitVec 7)
  /-- FFMA_RZ, opcode 0x0CB (R362): FP32 fused multiply-add rounded towards zero. -/
  | ffmaRz (d : BitVec 7) (a : BitVec 7) (b : BitVec 7)
  /-- FMIN, opcode 0x0CC (R362): FP32 minimumNumber. -/
  | fmin (d : BitVec 7) (a : BitVec 7) (b : BitVec 7)
  /-- FMAX, opcode 0x0CD (R362): FP32 maximumNumber. -/
  | fmax (d : BitVec 7) (a : BitVec 7) (b : BitVec 7)
  /-- FCMP_EQ, opcode 0x0CE (R363): FP32 compare equal into mask kd. -/
  | fcmpEq (d : BitVec 7) (a : BitVec 7) (b : BitVec 7)
  /-- FCMP_NE, opcode 0x0CF (R363): FP32 compare not equal into mask kd. -/
  | fcmpNe (d : BitVec 7) (a : BitVec 7) (b : BitVec 7)
  /-- FCMP_LT, opcode 0x0D0 (R363): FP32 compare less than into mask kd, raising nv on NaN. -/
  | fcmpLt (d : BitVec 7) (a : BitVec 7) (b : BitVec 7)
  /-- FCMP_LE, opcode 0x0D1 (R363): FP32 compare less or equal into mask kd, raising nv on NaN. -/
  | fcmpLe (d : BitVec 7) (a : BitVec 7) (b : BitVec 7)
  /-- FCMP_UN, opcode 0x0D2 (R363): FP32 unordered test into mask kd. -/
  | fcmpUn (d : BitVec 7) (a : BitVec 7) (b : BitVec 7)
  /-- FCMP_ORD, opcode 0x0D3 (R363): FP32 ordered test into mask kd. -/
  | fcmpOrd (d : BitVec 7) (a : BitVec 7) (b : BitVec 7)
  /-- FRCP, opcode 0x0D4 (R362): FP32 reciprocal, exact function rounded to nearest even. -/
  | frcp (d : BitVec 7) (a : BitVec 7)
  /-- FRSQ, opcode 0x0D5 (R362): FP32 reciprocal square root, rounded to nearest even. -/
  | frsq (d : BitVec 7) (a : BitVec 7)
  /-- FSQRT, opcode 0x0D6 (R362): FP32 square root rounded under ctl.fpm. -/
  | fsqrt (d : BitVec 7) (a : BitVec 7)
  /-- FDIV, opcode 0x0D7 (R362): FP32 divide rounded under ctl.fpm. -/
  | fdiv (d : BitVec 7) (a : BitVec 7) (b : BitVec 7)
  /-- FEXP2, opcode 0x0D8 (R362): FP32 base-2 exponential, rounded to nearest even. -/
  | fexp2 (d : BitVec 7) (a : BitVec 7)
  /-- FLOG2, opcode 0x0D9 (R362): FP32 base-2 logarithm, rounded to nearest even. -/
  | flog2 (d : BitVec 7) (a : BitVec 7)
  /-- FSIN, opcode 0x0DA (R362): FP32 sine in radians, rounded to nearest even. -/
  | fsin (d : BitVec 7) (a : BitVec 7)
  /-- FCOS, opcode 0x0DB (R362): FP32 cosine in radians, rounded to nearest even. -/
  | fcos (d : BitVec 7) (a : BitVec 7)
  /-- FCVT_F32_F16, opcode 0x100 (R132): Converts FP16 to FP32 exactly. -/
  | fcvtF32F16 (d : BitVec 7) (a : BitVec 7)
  /-- FCVT_F32_BF16, opcode 0x101 (R132): Converts BF16 to FP32 exactly. -/
  | fcvtF32Bf16 (d : BitVec 7) (a : BitVec 7)
  /-- FCVT_F16_F32, opcode 0x102 (R132): Converts FP32 to FP16 with rounding. -/
  | fcvtF16F32 (d : BitVec 7) (a : BitVec 7)
  /-- FCVT_BF16_F32, opcode 0x103 (R132): Converts FP32 to BF16 with rounding. -/
  | fcvtBf16F32 (d : BitVec 7) (a : BitVec 7)
  /-- FCVT_F32_E4M3, opcode 0x104 (R132): Converts E4M3 to FP32 exactly. -/
  | fcvtF32E4m3 (d : BitVec 7) (a : BitVec 7)
  /-- FCVT_F32_E5M2, opcode 0x105 (R132): Converts E5M2 to FP32 exactly. -/
  | fcvtF32E5m2 (d : BitVec 7) (a : BitVec 7)
  /-- FCVT_E4M3_F32_SAT, opcode 0x106 (R133): Converts FP32 to E4M3, saturating. -/
  | fcvtE4m3F32Sat (d : BitVec 7) (a : BitVec 7)
  /-- FCVT_E4M3_F32, opcode 0x107 (R133): Converts FP32 to E4M3, non-saturating. -/
  | fcvtE4m3F32 (d : BitVec 7) (a : BitVec 7)
  /-- FCVT_E5M2_F32_SAT, opcode 0x108 (R133): Converts FP32 to E5M2, saturating. -/
  | fcvtE5m2F32Sat (d : BitVec 7) (a : BitVec 7)
  /-- FCVT_E5M2_F32, opcode 0x109 (R133): Converts FP32 to E5M2, non-saturating. -/
  | fcvtE5m2F32 (d : BitVec 7) (a : BitVec 7)
  /-- FCVT_F32_T8, opcode 0x10A (R132): Converts T8 to FP32 exactly. -/
  | fcvtF32T8 (d : BitVec 7) (a : BitVec 7)
  /-- FCVT_T8_F32, opcode 0x10B (R134): Converts FP32 to T8 with rounding on its value set. -/
  | fcvtT8F32 (d : BitVec 7) (a : BitVec 7)
  /-- FCVT_F32_T6, opcode 0x10C (R132): Converts T6 to FP32 exactly. -/
  | fcvtF32T6 (d : BitVec 7) (a : BitVec 7)
  /-- FCVT_T6_F32, opcode 0x10D (R134): Converts FP32 to T6 with rounding on its value set. -/
  | fcvtT6F32 (d : BitVec 7) (a : BitVec 7)
  /-- FCVT_F32_E2M1, opcode 0x10E (R132): Converts E2M1 to FP32 exactly. -/
  | fcvtF32E2m1 (d : BitVec 7) (a : BitVec 7)
  /-- FCVT_E2M1_F32, opcode 0x10F (R134): Converts FP32 to E2M1 with rounding on its value set. -/
  | fcvtE2m1F32 (d : BitVec 7) (a : BitVec 7)
  /-- FCVT_F32_INT, opcode 0x110 (R135): Converts INT32 to FP32. -/
  | fcvtF32Int (d : BitVec 7) (a : BitVec 7)
  /-- FCVT_F32_UINT, opcode 0x111 (R135): Converts UINT32 to FP32. -/
  | fcvtF32Uint (d : BitVec 7) (a : BitVec 7)
  /-- FCVT_INT_F32, opcode 0x112 (R135): Converts FP32 to INT32 with clamping. -/
  | fcvtIntF32 (d : BitVec 7) (a : BitVec 7)
  /-- FCVT_UINT_F32, opcode 0x113 (R135): Converts FP32 to UINT32 with clamping. -/
  | fcvtUintF32 (d : BitVec 7) (a : BitVec 7)
  /-- FCVT_F64_F32, opcode 0x114 (R132): Converts FP32 to FP64 exactly into a register pair. -/
  | fcvtF64F32 (d : BitVec 7) (a : BitVec 7)
  /-- FCVT_F32_F64, opcode 0x115 (R132): Converts FP64 to FP32 with rounding. -/
  | fcvtF32F64 (d : BitVec 7) (a : BitVec 7)
  /-- FCVT_F64_INT, opcode 0x116 (R132): Converts INT32 to FP64 exactly. -/
  | fcvtF64Int (d : BitVec 7) (a : BitVec 7)
  /-- FCVT_INT_F64, opcode 0x117 (R135): Converts FP64 to INT32 with clamping. -/
  | fcvtIntF64 (d : BitVec 7) (a : BitVec 7)
  /-- HADD2_F16, opcode 0x118 (R369): Packed add of two FP16 elements per lane. -/
  | hadd2F16 (d : BitVec 7) (a : BitVec 7) (b : BitVec 7)
  /-- HADD2_BF16, opcode 0x119 (R369): Packed add of two BF16 elements per lane. -/
  | hadd2Bf16 (d : BitVec 7) (a : BitVec 7) (b : BitVec 7)
  /-- HMUL2_F16, opcode 0x11A (R369): Packed multiply of two FP16 elements per lane. -/
  | hmul2F16 (d : BitVec 7) (a : BitVec 7) (b : BitVec 7)
  /-- HMUL2_BF16, opcode 0x11B (R369): Packed multiply of two BF16 elements per lane. -/
  | hmul2Bf16 (d : BitVec 7) (a : BitVec 7) (b : BitVec 7)
  /-- HFMA2_F16, opcode 0x11C (R369): Packed fused multiply-add of two FP16 elements per lane. -/
  | hfma2F16 (d : BitVec 7) (a : BitVec 7) (b : BitVec 7)
  /-- HFMA2_BF16, opcode 0x11D (R369): Packed fused multiply-add of two BF16 elements per lane. -/
  | hfma2Bf16 (d : BitVec 7) (a : BitVec 7) (b : BitVec 7)
  /-- DADD, opcode 0x11E (R359): FP64 add on register pairs. -/
  | dadd (d : BitVec 7) (a : BitVec 7) (b : BitVec 7)
  /-- DMUL, opcode 0x11F (R359): FP64 multiply on register pairs. -/
  | dmul (d : BitVec 7) (a : BitVec 7) (b : BitVec 7)
  /-- DFMA, opcode 0x120 (R359): FP64 fused multiply-add on register pairs. -/
  | dfma (d : BitVec 7) (a : BitVec 7) (b : BitVec 7)
  /-- DDIV, opcode 0x121 (R359): FP64 divide on register pairs. -/
  | ddiv (d : BitVec 7) (a : BitVec 7) (b : BitVec 7)
  /-- DSQRT, opcode 0x122 (R359): FP64 square root on register pairs. -/
  | dsqrt (d : BitVec 7) (a : BitVec 7)
  /-- DCMP_EQ, opcode 0x123 (R359): FP64 compare equal into mask kd. -/
  | dcmpEq (d : BitVec 7) (a : BitVec 7) (b : BitVec 7)
  /-- DCMP_LT, opcode 0x124 (R359): FP64 compare less than into mask kd. -/
  | dcmpLt (d : BitVec 7) (a : BitVec 7) (b : BitVec 7)
  /-- DCMP_LE, opcode 0x125 (R359): FP64 compare less or equal into mask kd. -/
  | dcmpLe (d : BitVec 7) (a : BitVec 7) (b : BitVec 7)
  /-- DCMP_UN, opcode 0x126 (R359): FP64 unordered test into mask kd. -/
  | dcmpUn (d : BitVec 7) (a : BitVec 7) (b : BitVec 7)
  /-- QSWZ, opcode 0x140 (R382): Swizzles values within each quad by a scalar selector. -/
  | qswz (d : BitVec 7) (a : BitVec 7) (b : BitVec 7)
  /-- QDDX_FINE, opcode 0x141 (R381): Fine x difference within each quad. -/
  | qddxFine (d : BitVec 7) (a : BitVec 7)
  /-- QDDX_COARSE, opcode 0x142 (R381): Coarse x difference within each quad. -/
  | qddxCoarse (d : BitVec 7) (a : BitVec 7)
  /-- QDDY_FINE, opcode 0x143 (R381): Fine y difference within each quad. -/
  | qddyFine (d : BitVec 7) (a : BitVec 7)
  /-- QDDY_COARSE, opcode 0x144 (R381): Coarse y difference within each quad. -/
  | qddyCoarse (d : BitVec 7) (a : BitVec 7)
  /-- XSHF_IDX, opcode 0x145 (R403): Shuffles from the lane indexed by vb. -/
  | xshfIdx (d : BitVec 7) (a : BitVec 7) (b : BitVec 7)
  /-- XSHF_UP, opcode 0x146 (R403): Shuffles from lane l minus n. -/
  | xshfUp (d : BitVec 7) (a : BitVec 7) (b : BitVec 7)
  /-- XSHF_DOWN, opcode 0x147 (R403): Shuffles from lane l plus n. -/
  | xshfDown (d : BitVec 7) (a : BitVec 7) (b : BitVec 7)
  /-- XSHF_XOR, opcode 0x148 (R403): Shuffles from lane l xor n. -/
  | xshfXor (d : BitVec 7) (a : BitVec 7) (b : BitVec 7)
  /-- XBAL, opcode 0x149 (R404): Ballot of nonzero lanes into a scalar. -/
  | xbal (d : BitVec 7) (a : BitVec 7)
  /-- XRED_ADD_INT, opcode 0x14A (R405): Integer sum reduction into a scalar. -/
  | xredAddInt (d : BitVec 7) (a : BitVec 7)
  /-- XRED_ADD_F32, opcode 0x14B (R405): FP32 sum reduction into a scalar. -/
  | xredAddF32 (d : BitVec 7) (a : BitVec 7)
  /-- XRED_MIN_F32, opcode 0x14C (R405): FP32 minimum reduction into a scalar. -/
  | xredMinF32 (d : BitVec 7) (a : BitVec 7)
  /-- XRED_MAX_F32, opcode 0x14D (R405): FP32 maximum reduction into a scalar. -/
  | xredMaxF32 (d : BitVec 7) (a : BitVec 7)
  /-- XRED_AND, opcode 0x14E (R405): Bitwise and reduction into a scalar. -/
  | xredAnd (d : BitVec 7) (a : BitVec 7)
  /-- XRED_OR, opcode 0x14F (R405): Bitwise or reduction into a scalar. -/
  | xredOr (d : BitVec 7) (a : BitVec 7)
  /-- XSCAN_ADD_INT, opcode 0x150 (R406): Inclusive integer prefix sum across lanes. -/
  | xscanAddInt (d : BitVec 7) (a : BitVec 7)
  /-- XSCAN_ADD_F32, opcode 0x151 (R406): Inclusive FP32 prefix sum across lanes. -/
  | xscanAddF32 (d : BitVec 7) (a : BitVec 7)
  /-- XMAXI_F16, opcode 0x152 (R407): Maximum with index over FP16 candidates. -/
  | xmaxiF16 (d : BitVec 7) (a : BitVec 7) (b : BitVec 7)
  /-- XMAXI_F32, opcode 0x153 (R407): Maximum with index over FP32 candidates. -/
  | xmaxiF32 (d : BitVec 7) (a : BitVec 7) (b : BitVec 7)
  /-- VLD_B_IMM, opcode 0x180 (R401): Vector global load of bytes, immediate form. -/
  | vldBImm (d : BitVec 7) (a : BitVec 7) (imm : BitVec 7)
  /-- VLD_H_IMM, opcode 0x181 (R401): Vector global load of halves, immediate form. -/
  | vldHImm (d : BitVec 7) (a : BitVec 7) (imm : BitVec 7)
  /-- VLD_W_IMM, opcode 0x182 (R401): Vector global load of words, immediate form. -/
  | vldWImm (d : BitVec 7) (a : BitVec 7) (imm : BitVec 7)
  /-- VLD_D_IMM, opcode 0x183 (R401): Vector global load of doublewords into a pair, immediate form. -/
  | vldDImm (d : BitVec 7) (a : BitVec 7) (imm : BitVec 7)
  /-- VLD_B_IDX, opcode 0x184 (R401): Vector global load of bytes, indexed form. -/
  | vldBIdx (d : BitVec 7) (a : BitVec 7) (b : BitVec 7)
  /-- VLD_H_IDX, opcode 0x185 (R401): Vector global load of halves, indexed form. -/
  | vldHIdx (d : BitVec 7) (a : BitVec 7) (b : BitVec 7)
  /-- VLD_W_IDX, opcode 0x186 (R401): Vector global load of words, indexed form. -/
  | vldWIdx (d : BitVec 7) (a : BitVec 7) (b : BitVec 7)
  /-- VLD_D_IDX, opcode 0x187 (R401): Vector global load of doublewords, indexed form. -/
  | vldDIdx (d : BitVec 7) (a : BitVec 7) (b : BitVec 7)
  /-- VST_B_IMM, opcode 0x188 (R401): Vector global store of bytes, immediate form. -/
  | vstBImm (d : BitVec 7) (a : BitVec 7) (imm : BitVec 7)
  /-- VST_H_IMM, opcode 0x189 (R401): Vector global store of halves, immediate form. -/
  | vstHImm (d : BitVec 7) (a : BitVec 7) (imm : BitVec 7)
  /-- VST_W_IMM, opcode 0x18A (R401): Vector global store of words, immediate form. -/
  | vstWImm (d : BitVec 7) (a : BitVec 7) (imm : BitVec 7)
  /-- VST_D_IMM, opcode 0x18B (R401): Vector global store of doublewords, immediate form. -/
  | vstDImm (d : BitVec 7) (a : BitVec 7) (imm : BitVec 7)
  /-- VST_B_IDX, opcode 0x18C (R401): Vector global store of bytes, indexed form. -/
  | vstBIdx (d : BitVec 7) (a : BitVec 7) (b : BitVec 7)
  /-- VST_H_IDX, opcode 0x18D (R401): Vector global store of halves, indexed form. -/
  | vstHIdx (d : BitVec 7) (a : BitVec 7) (b : BitVec 7)
  /-- VST_W_IDX, opcode 0x18E (R401): Vector global store of words, indexed form. -/
  | vstWIdx (d : BitVec 7) (a : BitVec 7) (b : BitVec 7)
  /-- VST_D_IDX, opcode 0x18F (R401): Vector global store of doublewords, indexed form. -/
  | vstDIdx (d : BitVec 7) (a : BitVec 7) (b : BitVec 7)
  /-- VLDS_W, opcode 0x190 (R401): Vector scratch load of words. -/
  | vldsW (d : BitVec 7) (a : BitVec 7) (b : BitVec 7)
  /-- VLDS_D, opcode 0x191 (R401): Vector scratch load of doublewords. -/
  | vldsD (d : BitVec 7) (a : BitVec 7) (b : BitVec 7)
  /-- VSTS_W, opcode 0x192 (R401): Vector scratch store of words. -/
  | vstsW (d : BitVec 7) (a : BitVec 7) (b : BitVec 7)
  /-- VSTS_D, opcode 0x193 (R401): Vector scratch store of doublewords. -/
  | vstsD (d : BitVec 7) (a : BitVec 7) (b : BitVec 7)
  /-- VLDI, opcode 0x194 (R401): Vector load of words from the die's Ingot store. -/
  | vldi (d : BitVec 7) (a : BitVec 7) (b : BitVec 7)
  /-- ATOM_ADD, opcode 0x195 (R341): Per-lane atomic add returning the old value. -/
  | atomAdd (d : BitVec 7) (a : BitVec 7) (b : BitVec 7)
  /-- ATOM_MIN_S, opcode 0x196 (R341): Per-lane atomic signed minimum. -/
  | atomMinS (d : BitVec 7) (a : BitVec 7) (b : BitVec 7)
  /-- ATOM_MAX_S, opcode 0x197 (R341): Per-lane atomic signed maximum. -/
  | atomMaxS (d : BitVec 7) (a : BitVec 7) (b : BitVec 7)
  /-- ATOM_MIN_U, opcode 0x198 (R341): Per-lane atomic unsigned minimum. -/
  | atomMinU (d : BitVec 7) (a : BitVec 7) (b : BitVec 7)
  /-- ATOM_MAX_U, opcode 0x199 (R341): Per-lane atomic unsigned maximum. -/
  | atomMaxU (d : BitVec 7) (a : BitVec 7) (b : BitVec 7)
  /-- ATOM_AND, opcode 0x19A (R341): Per-lane atomic and. -/
  | atomAnd (d : BitVec 7) (a : BitVec 7) (b : BitVec 7)
  /-- ATOM_OR, opcode 0x19B (R341): Per-lane atomic or. -/
  | atomOr (d : BitVec 7) (a : BitVec 7) (b : BitVec 7)
  /-- ATOM_EXCH, opcode 0x19C (R341): Per-lane atomic exchange. -/
  | atomExch (d : BitVec 7) (a : BitVec 7) (b : BitVec 7)
  /-- ATOM_CAS, opcode 0x19D (R341): Per-lane atomic compare-and-swap. -/
  | atomCas (d : BitVec 7) (a : BitVec 7) (b : BitVec 7)
  /-- ATOM_MAXI, opcode 0x19E (R341): Per-lane atomic maximum with index on an 8-byte cell. -/
  | atomMaxi (d : BitVec 7) (a : BitVec 7) (b : BitVec 7)
  /-- ATOMQ, opcode 0x19F (R343): Adds each lane's FP32 value to a fixed-point 128-bit cell atomically. -/
  | atomq (d : BitVec 7) (a : BitVec 7) (b : BitVec 7)
  /-- FENCE_WARP, opcode 0x1A0 (R174): Orders the strand's memory events at warp scope. -/
  | fenceWarp
  /-- FENCE_BLOCK, opcode 0x1A1 (R174): Orders the strand's memory events at block scope. -/
  | fenceBlock
  /-- FENCE_GANG, opcode 0x1A2 (R174): Orders the strand's memory events at gang scope. -/
  | fenceGang
  /-- FENCE_DIE, opcode 0x1A3 (R174): Orders at die scope, writing back and dropping L1 lines. -/
  | fenceDie
  /-- FENCE_DEVICE, opcode 0x1A4 (R174): Orders at device scope, writing back and dropping L1 lines. -/
  | fenceDevice
  /-- FENCE_SYSTEM, opcode 0x1A5 (R174): Orders at system scope, writing back and dropping L1 lines. -/
  | fenceSystem
  /-- TFENCE_DIE, opcode 0x1A6 (R187): Invalidates the context's translations in a range at die scope. -/
  | tfenceDie (a : BitVec 7) (b : BitVec 7)
  /-- TFENCE_DEVICE, opcode 0x1A7 (R187): Invalidates the context's translations in a range at device scope. -/
  | tfenceDevice (a : BitVec 7) (b : BitVec 7)
  /-- TFENCE_SYSTEM, opcode 0x1A8 (R187): Invalidates the context's translations in a range at system scope, fabric endpoints included. -/
  | tfenceSystem (a : BitVec 7) (b : BitVec 7)
  /-- QFENCE, opcode 0x1A9 (R183): Waits for the warp's operations on the named copy and matrix queues, then acquires. -/
  | qfence (imm : BitVec 14)
  /-- PREF, opcode 0x1AA (R380): Hints that L1 lines be filled for each lane's address. -/
  | pref (d : BitVec 7) (a : BitVec 7) (imm : BitVec 7)
  /-- COPY_G2S, opcode 0x1C0 (R353): Queues a copy from global memory to scratch. -/
  | copyG2s (a : BitVec 7)
  /-- COPY_S2G, opcode 0x1C1 (R353): Queues a copy from scratch to global memory, optionally compressing. -/
  | copyS2g (a : BitVec 7)
  /-- COPY_G2G, opcode 0x1C2 (R353): Queues a global-to-global copy, optionally setting tags or expanding. -/
  | copyG2g (a : BitVec 7)
  /-- COPY_INGOT, opcode 0x1C3 (R353): Queues a copy from global memory into the Ingot store. -/
  | copyIngot (a : BitVec 7)
  /-- COPY_HALO, opcode 0x1C4 (R237): Queues a Runner halo exchange of boundary leaves for a step. -/
  | copyHalo (a : BitVec 7)
  /-- COPYM, opcode 0x1C5 (R355): Queues a global-to-scratch copy carrying a follow-on MMA. -/
  | copym (a : BitVec 7) (b : BitVec 7)
  /-- ABAR_ARRIVE, opcode 0x1C6 (R339): Arrives at an ABAR object, returning the phase and flipping it on the last arrival. -/
  | abarArrive (d : BitVec 7) (a : BitVec 7)
  /-- ABAR_WAIT, opcode 0x1C7 (R339): Waits until the ABAR object's phase differs from the awaited one, then acquires. -/
  | abarWait (a : BitVec 7) (b : BitVec 7)
  /-- STGA_PROD, opcode 0x1C8 (R43): Acquires the next empty stage-ring slot for a producer. -/
  | stgaProd (d : BitVec 7) (a : BitVec 7)
  /-- STGA_CONS, opcode 0x1C9 (R43): Acquires the next full stage-ring slot for a consumer. -/
  | stgaCons (d : BitVec 7) (a : BitVec 7)
  /-- STGR_PROD, opcode 0x1CA (R44): Releases a produced slot as full after its writes are performed. -/
  | stgrProd (a : BitVec 7) (b : BitVec 7)
  /-- STGR_CONS, opcode 0x1CB (R44): Releases a consumed slot as empty and inverts its phase. -/
  | stgrCons (a : BitVec 7) (b : BitVec 7)
  /-- MSHP, opcode 0x200 (R198): Checks and completes a shape record in four scalars. -/
  | mshp (d : BitVec 7) (a : BitVec 7) (b : BitVec 7)
  /-- MWIN, opcode 0x201 (R194): Warp 0 sets the accumulator window of one or every warp. -/
  | mwin (a : BitVec 7) (b : BitVec 7)
  /-- MZERO, opcode 0x202 (R208): Queues zeroing of accumulator rows. -/
  | mzero (a : BitVec 7)
  /-- MMA_BF16, opcode 0x203 (R201): Queues C += A·B on BF16 operands. -/
  | mmaBf16 (d : BitVec 7) (a : BitVec 7) (b : BitVec 7)
  /-- MMA_F16, opcode 0x204 (R201): Queues C += A·B on FP16 operands. -/
  | mmaF16 (d : BitVec 7) (a : BitVec 7) (b : BitVec 7)
  /-- MMA_E4M3, opcode 0x205 (R201): Queues C += A·B on E4M3 operands. -/
  | mmaE4m3 (d : BitVec 7) (a : BitVec 7) (b : BitVec 7)
  /-- MMA_E5M2, opcode 0x206 (R201): Queues C += A·B on E5M2 operands. -/
  | mmaE5m2 (d : BitVec 7) (a : BitVec 7) (b : BitVec 7)
  /-- MMA_T8, opcode 0x207 (R201): Queues C += A·B on T8 operands. -/
  | mmaT8 (d : BitVec 7) (a : BitVec 7) (b : BitVec 7)
  /-- MMA_T6, opcode 0x208 (R201): Queues C += A·B on T6 operands. -/
  | mmaT6 (d : BitVec 7) (a : BitVec 7) (b : BitVec 7)
  /-- MMAX_E2M1, opcode 0x209 (R206): Queues unscaled MX partials of E2M1 blocks. -/
  | mmaxE2m1 (d : BitVec 7) (a : BitVec 7) (b : BitVec 7)
  /-- MMAX_E4M3, opcode 0x20A (R206): Queues unscaled MX partials of E4M3 blocks. -/
  | mmaxE4m3 (d : BitVec 7) (a : BitVec 7) (b : BitVec 7)
  /-- MSCA, opcode 0x20B (R207): Queues the scaled folding of MX partials into C. -/
  | msca (d : BitVec 7) (a : BitVec 7) (b : BitVec 7)
  /-- MACC_RD, opcode 0x20C (R209): Moves a 32-column row slice from the accumulator to a vector register. -/
  | maccRd (d : BitVec 7) (a : BitVec 7)
  /-- MACC_WR, opcode 0x20D (R209): Moves a vector register into a 32-column row slice of the accumulator. -/
  | maccWr (a : BitVec 7) (b : BitVec 7)
  /-- MSTA_F32, opcode 0x20E (R210): Queues a store of accumulator rows as FP32. -/
  | mstaF32 (a : BitVec 7) (b : BitVec 7)
  /-- MSTA_BF16, opcode 0x20F (R210): Queues a store of accumulator rows rounded to BF16. -/
  | mstaBf16 (a : BitVec 7) (b : BitVec 7)
  /-- TLOOK, opcode 0x240 (R227): Resolves each lane's voxel in a tree and writes status and leaf pointer or value. -/
  | tlook (d : BitVec 7) (a : BitVec 7) (b : BitVec 7)
  /-- VLDN_S7, opcode 0x241 (R228): Loads a 7-point voxel neighbourhood. -/
  | vldnS7 (d : BitVec 7) (a : BitVec 7) (b : BitVec 7)
  /-- VLDN_S19, opcode 0x242 (R228): Loads a 19-point voxel neighbourhood. -/
  | vldnS19 (d : BitVec 7) (a : BitVec 7) (b : BitVec 7)
  /-- VLDN_B27, opcode 0x243 (R228): Loads a 27-point voxel neighbourhood. -/
  | vldnB27 (d : BitVec 7) (a : BitVec 7) (b : BitVec 7)
  /-- VLDN_LINE, opcode 0x244 (R228): Loads a 9-point line of voxels along one axis. -/
  | vldnLine (d : BitVec 7) (a : BitVec 7) (b : BitVec 7)
  /-- VSTV, opcode 0x245 (R229): Stores each lane's value into its voxel and sets the vmask bit. -/
  | vstv (d : BitVec 7) (a : BitVec 7) (b : BitVec 7)
  /-- TINS, opcode 0x246 (R231): Ensures each lane's leaf exists, allocating missing nodes through the node allocator. -/
  | tins (d : BitVec 7) (a : BitVec 7) (b : BitVec 7)
  /-- TACT_SET, opcode 0x247 (R230): Sets the activity bit of each lane's voxel. -/
  | tactSet (d : BitVec 7) (a : BitVec 7) (b : BitVec 7)
  /-- TACT_CLR, opcode 0x248 (R230): Clears the activity bit of each lane's voxel. -/
  | tactClr (d : BitVec 7) (a : BitVec 7) (b : BitVec 7)
  /-- TWALK, opcode 0x249 (R236): Finds the first non-empty tree cell along each lane's ray segment. -/
  | twalk (d : BitVec 7) (a : BitVec 7) (b : BitVec 7)
  /-- TXB, opcode 0x280 (R248): Binds a snapshot of a weight table to a sampler slot of the block. -/
  | txb (a : BitVec 7) (imm : BitVec 7)
  /-- TXS_L, opcode 0x281 (R253): Samples a pattern texture at FP32 coordinates with bilinear filtering. -/
  | txsL (d : BitVec 7) (a : BitVec 7) (b : BitVec 7)
  /-- TXS_G, opcode 0x282 (R253): Samples a pattern texture at integer texel indices. -/
  | txsG (d : BitVec 7) (a : BitVec 7) (b : BitVec 7)
  /-- CULL, opcode 0x283 (R358): Computes each lane's triangle cull code against a draw descriptor. -/
  | cull (d : BitVec 7) (a : BitVec 7) (b : BitVec 7)
  /-- PEXP, opcode 0x284 (R260): Exports each lane's triangle to the Riddle engine for binning. -/
  | pexp (d : BitVec 7) (a : BitVec 7) (b : BitVec 7)
  /-- OBLD, opcode 0x285 (R267): Waits until each lane's pixel counter equals its sequence number, then acquires. -/
  | obld (a : BitVec 7) (b : BitVec 7)
  /-- OBLE, opcode 0x286 (R267): Releases and increments each lane's pixel counter. -/
  | oble (a : BitVec 7) (b : BitVec 7)
  /-- KSRT_K32, opcode 0x287 (R370): Submits a stable sort job on 32-bit keys to the Riddle engine. -/
  | ksrtK32 (a : BitVec 7)
  /-- KSRT_K64, opcode 0x288 (R370): Submits a stable sort job on 64-bit keys to the Riddle engine. -/
  | ksrtK64 (a : BitVec 7)
  /-- BINC, opcode 0x289 (R346): Submits a bin-count and patch job to the Riddle engine. -/
  | binc (a : BitVec 7)
  /-- VBRD, opcode 0x28A (R264): Reads visibility-buffer entries for each lane's pixel and sample. -/
  | vbrd (d : BitVec 7) (a : BitVec 7) (b : BitVec 7)
  /-- FORK, opcode 0x2C0 (R365): Pushes a task record onto the core's deque or reports that it must run inline. -/
  | fork (d : BitVec 7) (a : BitVec 7) (b : BitVec 7)
  /-- FJOIN, opcode 0x2C1 (R364): Waits until a join counter reads zero, then acquires at device scope. -/
  | fjoin (a : BitVec 7)
  /-- LNCH, opcode 0x2C2 (R282): Submits a launch record from device code into a launch queue. -/
  | lnch (d : BitVec 7) (a : BitVec 7) (b : BitVec 7)
  /-- COLL_RED, opcode 0x2C3 (R349): Queues a collective FP32 sum reduction of a scratch tile. -/
  | collRed (a : BitVec 7)
  /-- COLL_GATHER, opcode 0x2C4 (R349): Queues a collective gather into a scratch tile. -/
  | collGather (a : BitVec 7)
  /-- RLD, opcode 0x2C5 (R385): Reads 4 bytes per lane from another context's memory over the transport. -/
  | rld (d : BitVec 7) (a : BitVec 7) (b : BitVec 7)
  /-- RST, opcode 0x2C6 (R386): Queues remote 4-byte stores per lane to another context. -/
  | rst (d : BitVec 7) (a : BitVec 7) (b : BitVec 7)
  /-- RRED, opcode 0x2C7 (R386): Queues remote atomic reductions per lane to another context. -/
  | rred (d : BitVec 7) (a : BitVec 7) (b : BitVec 7)
  /-- MISS_GROUP_MERGE (R29): When every strand of a miss group waits at the same wait point they merge and execute it. -/
  | missGroupMerge (w : Nat) (e : Nat)
  /-- SCOREBOARD_CLEAR (R22): A pending write retires and a strand stalled on it returns to ready. -/
  | scoreboardClear (w : Nat) (e : Nat)
  /-- EXIT_DRAIN_COMPLETE (R360): An exiting warp's outstanding operations are performed and the warp is released or freed. -/
  | exitDrainComplete (w : Nat)
  /-- REGISTER_DRAIN_COMPLETE (R83): A draining register's pending write retires and it becomes grantable. -/
  | registerDrainComplete (core : Nat) (quarter : Nat)
  /-- TASK_START (R49): A free task warp pops the head record of its core's deque and starts the task. -/
  | taskStart (w : Nat)
  /-- TASK_STEAL (R50): A core with a free task warp takes the tail record of another core's deque. -/
  | taskSteal (core : Nat)
  /-- LADLE_OPTIONAL_SPILL (R74): The Ladle on its own spills the oldest resident caller frame. -/
  | ladleOptionalSpill (w : Nat)
  /-- LADLE_OPTIONAL_REFILL (R74): The Ladle on its own refills the newest spilled caller frame. -/
  | ladleOptionalRefill (w : Nat)
  /-- RGROW_GRANT (R62): A waiting RGROW receives 64 registers from the pool and completes. -/
  | rgrowGrant (w : Nat) (e : Nat)
  /-- STAGE_RING_GRANT (R43): A waiting STGA is granted its slot when the slot reaches the awaited state. -/
  | stageRingGrant (w : Nat) (e : Nat)
  /-- BARHANG (R296): A limited wait reaches ctl.barlim clocks and the instruction traps with no effect. -/
  | barhang (w : Nat) (e : Nat)
  /-- QFENCE_COMPLETION (R183): The named queues' operations have completed and the waiting QFENCE acquires. -/
  | qfenceCompletion (w : Nat) (e : Nat)
  /-- MWIN_APPLY (R194): Targets have no matrix work in flight and the waiting MWIN sets their windows. -/
  | mwinApply (w : Nat) (e : Nat)
  /-- WEIGHT_CACHE_ENTRY_GRANT (R249): A weight cache entry is freed and a waiting TXB or TXS proceeds. -/
  | weightCacheEntryGrant (w : Nat) (e : Nat)
  /-- OBLD_GRANT (R267): Every lane's pixel counter reaches its sequence and the waiting OBLD acquires. -/
  | obldGrant (w : Nat) (e : Nat)
  /-- ABAR_WAIT_RESUME (R339): The object's phase changes and a waiting ABAR.wait acquires. -/
  | abarWaitResume (w : Nat) (e : Nat)
  /-- FJOIN_RETURN (R51): The join counter reads zero and a waiting FJOIN acquires. -/
  | fjoinReturn (w : Nat) (e : Nat)
  /-- MWAIT_RETURN (R375): The receive record reaches the step or shows an error and MWAIT acquires. -/
  | mwaitReturn (w : Nat) (e : Nat)
  /-- YIELD_CONTINUATION (R165): The awaited copies complete and the warp restarts at the continuation. -/
  | yieldContinuation (w : Nat) (e : Nat)
  /-- WAIT_PAUSE_END (R408): A WAIT's conditions and pause clocks end and it retires. -/
  | waitPauseEnd (w : Nat) (e : Nat)
  /-- TINS_LOCK_RELEASE (R231): A lock bit or child bit changes and a waiting TINS lane continues its insertion. -/
  | tinsLockRelease (w : Nat) (e : Nat)
  /-- POUR_PERMIT_GRANT (R215): The die's power governor grants a pour permit to a waiting operation. -/
  | pourPermitGrant (p : PermitFor)
  /-- ENGINE_QUEUE_ENTRY (R352): An entry frees in a full engine queue and the waiting instruction enters it and retires. -/
  | engineQueueEntry (w : Nat) (e : Nat)
  /-- RIDDLE_JOB_QUEUE_ENTRY (R346): A Riddle job queue entry frees and a waiting BINC or KSRT submits its job. -/
  | riddleJobQueueEntry (w : Nat) (e : Nat)
  /-- COPY_PERFORM (R353): A copy reaches the head of its queue and its bytes are moved. -/
  | copyPerform (core : Nat) (q : Nat) (lines : Nat)
  /-- INGOT_LOAD_STATE (R152): No other launch's block remains on the die and held Ingot copies start. -/
  | ingotLoadState (die : Nat)
  /-- BANK_REFRESH (R154): The die calendar starts the 700-clock refresh of the next Ingot bank. -/
  | bankRefresh (die : Nat)
  /-- FOLLOW_ON_MMA_ENTRY (R214): The last byte of a COPYM lands and its follow-on MMA enters its matrix queue. -/
  | followOnMmaEntry (core : Nat) (q : Nat)
  /-- MATRIX_OPERATION_PERFORM (R201): The matrix engine performs a queued operation group by group. -/
  | matrixOperationPerform (core : Nat) (mq : Nat)
  /-- ENGINE_OPERATION_COMPLETION (R182): An engine operation's reads and writes are performed at its scope and it completes. -/
  | engineOperationCompletion (core : Nat) (eq : Nat)
  /-- SAMPLER_FETCH_COMPLETION (R254): A TXS writes its destination registers and completes. -/
  | samplerFetchCompletion (w : Nat) (e : Nat)
  /-- DEFERRED_FAULT_DELIVERY (R292): Run-ahead stops and a deferred memory fault is delivered with the operand log. -/
  | deferredFaultDelivery (w : Nat) (e : Nat)
  /-- ENGINE_FAULT_DELIVERY (R289): A copy, matrix or continuation fault is delivered before the strand's next chain. -/
  | engineFaultDelivery (w : Nat)
  /-- TRAP_ACTION (R295): System software answers a stopped warp with an ERET action or a nack. -/
  | trapAction (w : Nat) (act : DWord) (target : DWord)
  /-- MCHK (R290): An uncorrectable error kills the context's launches on the die and is reported. -/
  | mchk (die : Nat) (ctx : Nat)
  /-- JUNCTION_OVERTEMPERATURE (R334): A die passing 105 °C resets and its contexts receive MCHK. -/
  | junctionOvertemperature (die : Nat)
  /-- DIE_RESET (R332): The boot ROM verifies and measures the firmware, holding the die in reset on failure. -/
  | dieReset (die : Nat) (image : Image)
  /-- LOAD_KEY (R331): The management plane loads an AES-XTS-256 key into a key slot. -/
  | loadKey (slot : Nat) (key : BitVec 512)
  /-- CLEAR_KEY (R331): The management plane clears a key slot after writing back its L1 lines. -/
  | clearKey (slot : Nat)
  /-- SET_POWER_CAP (R334): The management plane sets the module power cap. -/
  | setPowerCap (watts : Nat)
  /-- ATTESTATION_REPORT (R332): Returns a signed report of the measurements, firmware version and nonce. -/
  | attestationReport (die : Nat) (nonce : BitVec 512)
  /-- FIRMWARE_LOAD (R333): Loads firmware once every context is disabled, then resets the die. -/
  | firmwareLoad (die : Nat) (image : Image)
  /-- HOLD_ADMISSION (R333): The management plane holds launch admission on a die. -/
  | holdAdmission (die : Nat)
  /-- ADMISSION (R274): The launch unit takes a ready queue head and places as many of its blocks as fit. -/
  | admission (die : Nat) (core : Nat) (q0 : Nat)
  /-- BLOCK_MIGRATION (R180): The launch unit moves a pre-emptible block to another core with its state. -/
  | blockMigration (blk : Nat) (core : Nat) (q0 : Nat)
  /-- LAUNCH_COMPLETION (R280): All blocks and operations are done; stores are performed, stok is signalled and status written. -/
  | launchCompletion (l : Nat)
  /-- PRE_EMPTION_REQUEST (R300): Named blocks stop issuing, cancel in-flight work and begin saving their state. -/
  | preEmptionRequest (blks : List Nat)
  /-- PRE_EMPTION_SAVE_COMPLETE (R300): Completing operations finish and the block's saved state is fully written. -/
  | preEmptionSaveComplete (blk : Nat)
  /-- RESUMPTION (R302): A pre-empted launch resumes: engine work reissues, logs replay, strands continue. -/
  | resumption (blk : Nat) (core : Nat) (q0 : Nat)
  /-- KILL_REQUEST (R304): Named launches stop without save, release resources and get status 5. -/
  | killRequest (l : Nat)
  /-- RIDDLE_JOB_COMPLETION (R266): A BINC or KSRT job finishes and writes its status word with release. -/
  | riddleJobCompletion (die : Nat)
  /-- BIN_RASTERISATION (R262): The Riddle engine rasterises a bin into the visibility buffer and counts finished primitives. -/
  | binRasterisation (die : Nat) (draw : Nat)
  /-- COLLECTIVE_REQUEST (R350): The copy engine stages a COLL tile and appends a request to the service area. -/
  | collectiveRequest (core : Nat) (q : Nat)
  /-- COLLECTIVE_RESULT_COPY (R324): The copy engine sees done reach the sequence, copies the result back and arrives at the ABAR. -/
  | collectiveResultCopy (core : Nat) (q : Nat)
  /-- HALO_LEAF_DELIVERY (R238): The receiving Runner writes a delivered halo leaf and sets its arrival bit. -/
  | haloLeafDelivery (die : Nat) (leaf : HaloLeaf)
  /-- WRITE (R320): A received write message is translated and performed in the target context. -/
  | write (die : Nat) (m : Msg)
  /-- READ_REQUEST (R320): A received read request is performed and answered with a read response. -/
  | readRequest (die : Nat) (m : Msg)
  /-- READ_RESPONSE (R385): A read response delivers data to a waiting RLD or host-kind load. -/
  | readResponse (die : Nat) (m : Msg)
  /-- ATOMIC (R320): A received atomic message is performed at home memory and answered. -/
  | atomic (die : Nat) (m : Msg)
  /-- ATOMIC_RESPONSE (R321): An atomic response returns the old value to a host-kind atomic. -/
  | atomicResponse (die : Nat) (m : Msg)
  /-- REDUCE (R386): A received reduce message performs an RRED operation at home memory. -/
  | reduce (die : Nat) (m : Msg)
  /-- LAUNCH (R318): A launch message's record is checked and accepted into a launch queue. -/
  | launch (die : Nat) (m : Msg)
  /-- STEP_COUNTER_UPDATE (R237): A received step-counter message updates a receive record. -/
  | stepCounterUpdate (die : Nat) (m : Msg)
  /-- ACK (R319): An acknowledgement releases the acknowledged messages and completes lanes. -/
  | ack (die : Nat) (m : Msg)
  /-- NACK (R319): A nack triggers retransmission or becomes a copy fault of the issuing warp. -/
  | nack (die : Nat) (m : Msg)
  /-- RETRANSMIT_TIMEOUT (R319): The retransmission timer expires and the sender resends from its first unacknowledged psn. -/
  | retransmitTimeout (die : Nat) (conn : BitVec 32) (cls : BitVec 2)
  /-- SET_STATE (R330): Context command setting a context's asid, root, keys, host and save area. -/
  | setState (cmd : Cmd) (st : CtxSet)
  /-- ENABLE (R330): Context command enabling a context. -/
  | enable (cmd : Cmd) (ctx : Nat)
  /-- DISABLE (R330): Context command disabling a context, killing its launches and invalidating its translations. -/
  | disable (cmd : Cmd) (ctx : Nat)
  /-- ASSIGN_QUEUE (R330): Context command assigning a launch queue to a context. -/
  | assignQueue (cmd : Cmd) (ctx : Nat) (queue : Nat)
  /-- GRANT_INGOT_SEGMENT (R330): Context command granting a 1 MiB Ingot segment to a context. -/
  | grantIngotSegment (cmd : Cmd) (ctx : Nat) (seg : Nat)
  /-- WRITE_PEER_ENTRY (R328): Context command writing a peer-table entry, nacked on a duplicate target. -/
  | writePeerEntry (cmd : Cmd) (ctx : Nat) (idx : Nat) (entry : PeerEntry)
  /-- CLEAR_PEER_ENTRY (R328): Context command clearing a peer-table entry once its messages are answered. -/
  | clearPeerEntry (cmd : Cmd) (ctx : Nat) (idx : Nat)
  /-- REMOVE_HELD_RECORD (R330): Context command removing a held launch record or held copy. -/
  | removeHeldRecord (cmd : Cmd) (ctx : Nat) (tag : DWord)
  /-- READ_ERROR_LOG (R330): Context command returning the die's error log entries. -/
  | readErrorLog (cmd : Cmd)
  /-- INVALIDATE_TRANSLATIONS (R330): Context command performing TFENCE.system over a range of the context. -/
  | invalidateTranslations (cmd : Cmd) (ctx : Nat) (start : DWord) (len : DWord)
  /-- UNUSED_OPCODE (R86): A chain whose instruction word carries an opcode outside the opcode map, the all-zero and all-ones words included, raises ILLOP precisely at decode. -/
  | unusedOpcode (word : Word)
  /-- BANK_REFRESH_END (R154): The die calendar reaches the end of a bank's 700-clock refresh window; busy clears and reads stalled on that bank proceed. -/
  | bankRefreshEnd (die : Nat)
  /-- ADMISSION_HOLD_RELEASE (R333): The management plane ends its hold on launch admission on a die, so held records proceed under R273. -/
  | admissionHoldRelease (die : Nat)
  /-- SET_SYSTEM_ACCESS_KEY (R330): The management plane sets the die's system access key, which context commands must carry. -/
  | setSystemAccessKey (die : Nat) (key : DWord)
deriving DecidableEq, Repr

end Sys2Proof
end

