-- ==== Sys2Proof/Machine/OpMap.lean ====
section
/-! DEFINITION. The opcode map with its field kinds (R55, R85, R95, R97 to R104, the reference entries), and the opcode
and fields of each instruction. -/

namespace Sys2Proof

/-- The word formats of R85 (J and the XIMM prefix carry immediates of 14 and 21 bits; B carries off21). -/
inductive Format where
  | A | I | J | B
deriving DecidableEq, Repr

/-- What a field of a word names, and which values it admits (R55, R61, R95, R225, R336, R389). A kind of a run names
its first register. -/
inductive FieldKind where
  /-- reserved: zero (R95) -/
  | res0
  /-- part of an immediate: any value -/
  | imm
  /-- an immediate that runs from 0 to n; larger values are reserved (R95, R99, R344, R356) -/
  | max (n : Nat)
  /-- a run of n vector registers: read, written, or both (R55, R225) -/
  | vsrc (n : Nat)
  | vdst (n : Nat)
  | vboth (n : Nat)
  /-- an even vector pair: read, written, or both (R55) -/
  | vpsrc
  | vpdst
  | vpboth
  /-- a scalar source, names 0 to 76 (R389) -/
  | ssrc
  /-- a scalar that is read and must be a register 0 to 63 (R389, SST) -/
  | sreg
  /-- a scalar destination, names 0 to 63 -/
  | sdst
  /-- a scalar that is both read and written -/
  | sboth
  /-- a run of n scalar sources, n = 2 or 4, aligned to n (R196, R336) -/
  | srun (n : Nat)
  /-- a shape record of four scalars that the instruction completes (R198) -/
  | srecw
  /-- a mask that is written, k1 to k7 (R55) -/
  | kdst
  /-- a mask that is read, k0 to k7 (R348) -/
  | ksrc
deriving DecidableEq, Repr

/-- The rows of R41's table: open to every role, copy only, matrix only, matrix and vector, vector only. -/
inductive RoleClass where
  | any | copy | mat | macc | tex
deriving DecidableEq, Repr

/-- The engine classes of R283. -/
inductive EngineClass where
  | S | V | D | M | A
deriving DecidableEq, Repr

/-- What the opcode map and the reference entries say of an opcode: format, kinds of the fields d, a and b, which
prefixes it may take (X, K), its row of R41, its class of R283, whether it closes an idempotent region (R298), whether
it is a memory instruction (R291) and whether it belongs to the run-ahead set (R29). -/
structure OpInfo where
  fmt : Format
  d : FieldKind
  a : FieldKind
  b : FieldKind
  x : Bool
  k : Bool
  role : RoleClass
  cls : EngineClass
  closes : Bool
  mem : Bool
  ahead : Bool
deriving DecidableEq, Repr

/-- Field kinds and attributes of the opcodes of class 0x00 by minor opcode (R97 to R104). -/
def opInfo0 (minor : Nat) : Option OpInfo :=
  match minor with
  | 1 => some ⟨.A, .res0, .res0, .res0, false, false, .any, .S, false, false, true⟩
  | 2 => some ⟨.B, .imm, .imm, .imm, false, false, .any, .S, false, false, true⟩
  | 3 => some ⟨.J, .res0, .imm, .imm, false, false, .any, .S, false, false, true⟩
  | 4 => some ⟨.B, .imm, .imm, .imm, true, false, .any, .S, false, false, false⟩
  | 5 => some ⟨.J, .ssrc, .imm, .imm, true, false, .any, .S, false, false, false⟩
  | 6 => some ⟨.J, .ssrc, .imm, .imm, true, false, .any, .S, false, false, false⟩
  | 7 => some ⟨.J, .ksrc, .imm, .imm, true, true, .any, .S, false, false, false⟩
  | 8 => some ⟨.J, .ksrc, .imm, .imm, true, true, .any, .S, false, false, false⟩
  | 9 => some ⟨.A, .res0, .res0, .res0, false, false, .any, .S, false, false, false⟩
  | 10 => some ⟨.A, .res0, .res0, .res0, false, true, .any, .S, true, false, false⟩
  | 11 => some ⟨.B, .imm, .imm, .imm, true, false, .any, .S, false, false, false⟩
  | 12 => some ⟨.J, .res0, .imm, .imm, false, false, .any, .S, false, false, false⟩
  | 13 => some ⟨.A, .res0, .ssrc, .ssrc, false, false, .any, .S, false, false, false⟩
  | 14 => some ⟨.A, .res0, .res0, .res0, false, false, .any, .S, false, false, false⟩
  | 15 => some ⟨.I, .res0, .res0, (.max 15), false, false, .any, .S, true, false, false⟩
  | 16 => some ⟨.B, .imm, .imm, .imm, false, false, .any, .S, true, false, false⟩
  | 17 => some ⟨.A, .res0, .ssrc, .res0, false, false, .any, .S, true, false, false⟩
  | 18 => some ⟨.A, .res0, .res0, .res0, false, false, .any, .S, true, false, false⟩
  | 19 => some ⟨.J, .res0, .imm, .imm, false, false, .any, .S, true, false, false⟩
  | 20 => some ⟨.A, .res0, .ssrc, .res0, false, false, .any, .S, true, false, false⟩
  | 21 => some ⟨.A, .sdst, .res0, .res0, false, false, .any, .S, true, false, false⟩
  | 22 => some ⟨.A, .sdst, .res0, .res0, false, false, .any, .S, true, false, false⟩
  | 23 => some ⟨.I, .res0, .res0, (.max 3), false, false, .any, .S, true, false, false⟩
  | 24 => some ⟨.A, .sdst, .ssrc, .res0, false, false, .any, .S, false, false, false⟩
  | 25 => some ⟨.J, .res0, .imm, .imm, false, false, .any, .S, true, false, false⟩
  | 26 => some ⟨.A, .res0, .ssrc, .ssrc, false, false, .any, .S, false, false, false⟩
  | 27 => some ⟨.J, .res0, .imm, .imm, false, false, .any, .S, true, false, false⟩
  | 28 => some ⟨.I, .sdst, .res0, (.max 11), false, false, .any, .S, false, false, false⟩
  | 29 => some ⟨.I, .res0, .ssrc, (.max 11), false, false, .any, .S, false, false, false⟩
  | _ => none

/-- Field kinds and attributes of the opcodes of class 0x01 by minor opcode (R97 to R104). -/
def opInfo1 (minor : Nat) : Option OpInfo :=
  match minor with
  | 0 => some ⟨.A, .sdst, .ssrc, .ssrc, false, false, .any, .S, false, false, false⟩
  | 1 => some ⟨.I, .sdst, .ssrc, .imm, true, false, .any, .S, false, false, false⟩
  | 2 => some ⟨.A, .sdst, .ssrc, .ssrc, false, false, .any, .S, false, false, false⟩
  | 3 => some ⟨.A, .sdst, .ssrc, .ssrc, false, false, .any, .S, false, false, false⟩
  | 4 => some ⟨.A, .sdst, .ssrc, .ssrc, false, false, .any, .S, false, false, false⟩
  | 5 => some ⟨.A, .sdst, .ssrc, .ssrc, false, false, .any, .S, false, false, false⟩
  | 6 => some ⟨.A, .sdst, .ssrc, .ssrc, false, false, .any, .S, false, false, false⟩
  | 7 => some ⟨.A, .sdst, .ssrc, .ssrc, false, false, .any, .S, false, false, false⟩
  | 8 => some ⟨.A, .sdst, .ssrc, .ssrc, false, false, .any, .S, false, false, false⟩
  | 9 => some ⟨.A, .sdst, .ssrc, .ssrc, false, false, .any, .S, false, false, false⟩
  | 10 => some ⟨.I, .sdst, .ssrc, (.max 63), false, false, .any, .S, false, false, false⟩
  | 11 => some ⟨.A, .sdst, .ssrc, .ssrc, false, false, .any, .S, false, false, false⟩
  | 12 => some ⟨.I, .sdst, .ssrc, (.max 63), false, false, .any, .S, false, false, false⟩
  | 13 => some ⟨.A, .sdst, .ssrc, .ssrc, false, false, .any, .S, false, false, false⟩
  | 14 => some ⟨.I, .sdst, .ssrc, (.max 63), false, false, .any, .S, false, false, false⟩
  | 15 => some ⟨.A, .sdst, .ssrc, .ssrc, false, false, .any, .S, false, false, false⟩
  | 16 => some ⟨.A, .sdst, .ssrc, .ssrc, false, false, .any, .S, false, false, false⟩
  | 17 => some ⟨.A, .sdst, .ssrc, .ssrc, false, false, .any, .S, false, false, false⟩
  | 18 => some ⟨.A, .sdst, .ssrc, .ssrc, false, false, .any, .S, false, false, false⟩
  | 19 => some ⟨.A, .sdst, .ssrc, .ssrc, false, false, .any, .S, false, false, false⟩
  | 20 => some ⟨.A, .sdst, .ssrc, .ssrc, false, false, .any, .S, false, false, false⟩
  | 21 => some ⟨.A, .sdst, .ssrc, .ssrc, false, false, .any, .S, false, false, false⟩
  | 22 => some ⟨.A, .sdst, .ssrc, .ssrc, false, false, .any, .S, false, false, false⟩
  | 23 => some ⟨.A, .sdst, .ssrc, .ssrc, false, false, .any, .S, false, false, false⟩
  | 24 => some ⟨.A, .sdst, .ssrc, .ssrc, false, false, .any, .S, false, false, false⟩
  | 25 => some ⟨.A, .sboth, .ssrc, .ssrc, false, false, .any, .S, false, false, false⟩
  | 26 => some ⟨.A, .sdst, .ssrc, .res0, false, false, .any, .S, false, false, false⟩
  | 27 => some ⟨.J, .sdst, .imm, .imm, true, false, .any, .S, false, false, false⟩
  | 28 => some ⟨.J, .sdst, .imm, .imm, true, false, .any, .S, false, false, false⟩
  | 29 => some ⟨.A, .sdst, .ssrc, .res0, false, false, .any, .S, false, false, false⟩
  | 30 => some ⟨.A, .sdst, .ssrc, .res0, false, false, .any, .S, false, false, false⟩
  | 31 => some ⟨.I, .sdst, .ssrc, .imm, true, false, .any, .S, false, true, false⟩
  | 32 => some ⟨.I, .sdst, .ssrc, .imm, true, false, .any, .S, false, true, false⟩
  | 33 => some ⟨.I, .sdst, .ssrc, .imm, true, false, .any, .S, false, true, false⟩
  | 34 => some ⟨.I, .sdst, .ssrc, .imm, true, false, .any, .S, false, true, false⟩
  | 35 => some ⟨.I, .sreg, .ssrc, .imm, true, false, .any, .S, false, true, false⟩
  | 36 => some ⟨.I, .sreg, .ssrc, .imm, true, false, .any, .S, false, true, false⟩
  | 37 => some ⟨.I, .sreg, .ssrc, .imm, true, false, .any, .S, false, true, false⟩
  | 38 => some ⟨.I, .sreg, .ssrc, .imm, true, false, .any, .S, false, true, false⟩
  | _ => none

/-- Field kinds and attributes of the opcodes of class 0x02 by minor opcode (R97 to R104). -/
def opInfo2 (minor : Nat) : Option OpInfo :=
  match minor with
  | 0 => some ⟨.A, (.vdst 1), (.vsrc 1), (.vsrc 1), false, true, .any, .V, false, false, true⟩
  | 1 => some ⟨.A, (.vdst 1), (.vsrc 1), (.vsrc 1), false, true, .any, .V, false, false, true⟩
  | 2 => some ⟨.A, (.vdst 1), (.vsrc 1), (.vsrc 1), false, true, .any, .V, false, false, true⟩
  | 3 => some ⟨.A, (.vdst 1), (.vsrc 1), (.vsrc 1), false, true, .any, .V, false, false, true⟩
  | 4 => some ⟨.A, (.vdst 1), (.vsrc 1), (.vsrc 1), false, true, .any, .V, false, false, true⟩
  | 5 => some ⟨.A, (.vdst 1), (.vsrc 1), (.vsrc 1), false, true, .any, .V, false, false, true⟩
  | 6 => some ⟨.A, (.vdst 1), (.vsrc 1), (.vsrc 1), false, true, .any, .V, false, false, true⟩
  | 7 => some ⟨.A, (.vboth 1), (.vsrc 1), (.vsrc 1), false, true, .any, .V, false, false, true⟩
  | 8 => some ⟨.A, (.vdst 1), (.vsrc 1), (.vsrc 1), false, true, .any, .V, false, false, true⟩
  | 9 => some ⟨.A, (.vdst 1), (.vsrc 1), (.vsrc 1), false, true, .any, .V, false, false, true⟩
  | 10 => some ⟨.A, (.vdst 1), (.vsrc 1), (.vsrc 1), false, true, .any, .V, false, false, true⟩
  | 11 => some ⟨.A, (.vdst 1), (.vsrc 1), (.vsrc 1), false, true, .any, .V, false, false, true⟩
  | 12 => some ⟨.A, (.vdst 1), (.vsrc 1), (.vsrc 1), false, true, .any, .V, false, false, true⟩
  | 13 => some ⟨.A, (.vdst 1), (.vsrc 1), (.vsrc 1), false, true, .any, .V, false, false, true⟩
  | 14 => some ⟨.A, (.vdst 1), (.vsrc 1), (.vsrc 1), false, true, .any, .V, false, false, true⟩
  | 15 => some ⟨.A, (.vdst 1), (.vsrc 1), (.vsrc 1), false, true, .any, .V, false, false, true⟩
  | 16 => some ⟨.A, (.vdst 1), (.vsrc 1), (.vsrc 1), false, true, .any, .V, false, false, true⟩
  | 17 => some ⟨.A, (.vdst 1), (.vsrc 1), (.vsrc 1), false, true, .any, .V, false, false, true⟩
  | 18 => some ⟨.A, .kdst, (.vsrc 1), (.vsrc 1), false, true, .any, .V, false, false, true⟩
  | 19 => some ⟨.A, .kdst, (.vsrc 1), (.vsrc 1), false, true, .any, .V, false, false, true⟩
  | 20 => some ⟨.A, .kdst, (.vsrc 1), (.vsrc 1), false, true, .any, .V, false, false, true⟩
  | 21 => some ⟨.A, .kdst, (.vsrc 1), (.vsrc 1), false, true, .any, .V, false, false, true⟩
  | 22 => some ⟨.A, .kdst, (.vsrc 1), (.vsrc 1), false, true, .any, .V, false, false, true⟩
  | 23 => some ⟨.A, .kdst, (.vsrc 1), (.vsrc 1), false, true, .any, .V, false, false, true⟩
  | 24 => some ⟨.A, (.vboth 1), (.vsrc 1), (.vsrc 1), false, true, .any, .V, false, false, true⟩
  | 25 => some ⟨.A, (.vdst 1), (.vsrc 1), .res0, false, true, .any, .V, false, false, true⟩
  | 26 => some ⟨.A, (.vdst 1), .ssrc, .res0, false, true, .any, .V, false, false, true⟩
  | 27 => some ⟨.A, .sdst, (.vsrc 1), .ssrc, false, false, .any, .V, false, false, false⟩
  | 28 => some ⟨.A, (.vdst 1), (.vsrc 1), .res0, false, true, .any, .V, false, false, true⟩
  | 29 => some ⟨.A, (.vdst 1), (.vsrc 1), .res0, false, true, .any, .V, false, false, true⟩
  | 30 => some ⟨.A, (.vdst 1), (.vsrc 1), (.vsrc 1), false, true, .any, .V, false, false, true⟩
  | 31 => some ⟨.A, (.vdst 1), (.vsrc 1), (.vsrc 1), false, true, .any, .V, false, false, true⟩
  | 32 => some ⟨.A, (.vboth 1), (.vsrc 1), (.vsrc 1), false, true, .any, .V, false, false, true⟩
  | _ => none

/-- Field kinds and attributes of the opcodes of class 0x03 by minor opcode (R97 to R104). -/
def opInfo3 (minor : Nat) : Option OpInfo :=
  match minor with
  | 0 => some ⟨.A, (.vdst 1), (.vsrc 1), (.vsrc 1), false, true, .any, .V, false, false, true⟩
  | 1 => some ⟨.A, (.vdst 1), (.vsrc 1), (.vsrc 1), false, true, .any, .V, false, false, true⟩
  | 2 => some ⟨.A, (.vdst 1), (.vsrc 1), (.vsrc 1), false, true, .any, .V, false, false, true⟩
  | 3 => some ⟨.A, (.vdst 1), (.vsrc 1), (.vsrc 1), false, true, .any, .V, false, false, true⟩
  | 4 => some ⟨.A, (.vdst 1), (.vsrc 1), (.vsrc 1), false, true, .any, .V, false, false, true⟩
  | 5 => some ⟨.A, (.vdst 1), (.vsrc 1), (.vsrc 1), false, true, .any, .V, false, false, true⟩
  | 6 => some ⟨.A, (.vdst 1), (.vsrc 1), (.vsrc 1), false, true, .any, .V, false, false, true⟩
  | 7 => some ⟨.A, (.vdst 1), (.vsrc 1), (.vsrc 1), false, true, .any, .V, false, false, true⟩
  | 8 => some ⟨.A, (.vdst 1), (.vsrc 1), (.vsrc 1), false, true, .any, .V, false, false, true⟩
  | 9 => some ⟨.A, (.vboth 1), (.vsrc 1), (.vsrc 1), false, true, .any, .V, false, false, true⟩
  | 10 => some ⟨.A, (.vboth 1), (.vsrc 1), (.vsrc 1), false, true, .any, .V, false, false, true⟩
  | 11 => some ⟨.A, (.vboth 1), (.vsrc 1), (.vsrc 1), false, true, .any, .V, false, false, true⟩
  | 12 => some ⟨.A, (.vdst 1), (.vsrc 1), (.vsrc 1), false, true, .any, .V, false, false, true⟩
  | 13 => some ⟨.A, (.vdst 1), (.vsrc 1), (.vsrc 1), false, true, .any, .V, false, false, true⟩
  | 14 => some ⟨.A, .kdst, (.vsrc 1), (.vsrc 1), false, true, .any, .V, false, false, true⟩
  | 15 => some ⟨.A, .kdst, (.vsrc 1), (.vsrc 1), false, true, .any, .V, false, false, true⟩
  | 16 => some ⟨.A, .kdst, (.vsrc 1), (.vsrc 1), false, true, .any, .V, false, false, true⟩
  | 17 => some ⟨.A, .kdst, (.vsrc 1), (.vsrc 1), false, true, .any, .V, false, false, true⟩
  | 18 => some ⟨.A, .kdst, (.vsrc 1), (.vsrc 1), false, true, .any, .V, false, false, true⟩
  | 19 => some ⟨.A, .kdst, (.vsrc 1), (.vsrc 1), false, true, .any, .V, false, false, true⟩
  | 20 => some ⟨.A, (.vdst 1), (.vsrc 1), .res0, false, true, .any, .V, false, false, true⟩
  | 21 => some ⟨.A, (.vdst 1), (.vsrc 1), .res0, false, true, .any, .V, false, false, true⟩
  | 22 => some ⟨.A, (.vdst 1), (.vsrc 1), .res0, false, true, .any, .V, false, false, true⟩
  | 23 => some ⟨.A, (.vdst 1), (.vsrc 1), (.vsrc 1), false, true, .any, .V, false, false, true⟩
  | 24 => some ⟨.A, (.vdst 1), (.vsrc 1), .res0, false, true, .any, .V, false, false, true⟩
  | 25 => some ⟨.A, (.vdst 1), (.vsrc 1), .res0, false, true, .any, .V, false, false, true⟩
  | 26 => some ⟨.A, (.vdst 1), (.vsrc 1), .res0, false, true, .any, .V, false, false, true⟩
  | 27 => some ⟨.A, (.vdst 1), (.vsrc 1), .res0, false, true, .any, .V, false, false, true⟩
  | _ => none

/-- Field kinds and attributes of the opcodes of class 0x04 by minor opcode (R97 to R104). -/
def opInfo4 (minor : Nat) : Option OpInfo :=
  match minor with
  | 0 => some ⟨.A, (.vdst 1), (.vsrc 1), .res0, false, true, .any, .V, false, false, true⟩
  | 1 => some ⟨.A, (.vdst 1), (.vsrc 1), .res0, false, true, .any, .V, false, false, true⟩
  | 2 => some ⟨.A, (.vdst 1), (.vsrc 1), .res0, false, true, .any, .V, false, false, true⟩
  | 3 => some ⟨.A, (.vdst 1), (.vsrc 1), .res0, false, true, .any, .V, false, false, true⟩
  | 4 => some ⟨.A, (.vdst 1), (.vsrc 1), .res0, false, true, .any, .V, false, false, true⟩
  | 5 => some ⟨.A, (.vdst 1), (.vsrc 1), .res0, false, true, .any, .V, false, false, true⟩
  | 6 => some ⟨.A, (.vdst 1), (.vsrc 1), .res0, false, true, .any, .V, false, false, true⟩
  | 7 => some ⟨.A, (.vdst 1), (.vsrc 1), .res0, false, true, .any, .V, false, false, true⟩
  | 8 => some ⟨.A, (.vdst 1), (.vsrc 1), .res0, false, true, .any, .V, false, false, true⟩
  | 9 => some ⟨.A, (.vdst 1), (.vsrc 1), .res0, false, true, .any, .V, false, false, true⟩
  | 10 => some ⟨.A, (.vdst 1), (.vsrc 1), .res0, false, true, .any, .V, false, false, true⟩
  | 11 => some ⟨.A, (.vdst 1), (.vsrc 1), .res0, false, true, .any, .V, false, false, true⟩
  | 12 => some ⟨.A, (.vdst 1), (.vsrc 1), .res0, false, true, .any, .V, false, false, true⟩
  | 13 => some ⟨.A, (.vdst 1), (.vsrc 1), .res0, false, true, .any, .V, false, false, true⟩
  | 14 => some ⟨.A, (.vdst 1), (.vsrc 1), .res0, false, true, .any, .V, false, false, true⟩
  | 15 => some ⟨.A, (.vdst 1), (.vsrc 1), .res0, false, true, .any, .V, false, false, true⟩
  | 16 => some ⟨.A, (.vdst 1), (.vsrc 1), .res0, false, true, .any, .V, false, false, true⟩
  | 17 => some ⟨.A, (.vdst 1), (.vsrc 1), .res0, false, true, .any, .V, false, false, true⟩
  | 18 => some ⟨.A, (.vdst 1), (.vsrc 1), .res0, false, true, .any, .V, false, false, true⟩
  | 19 => some ⟨.A, (.vdst 1), (.vsrc 1), .res0, false, true, .any, .V, false, false, true⟩
  | 20 => some ⟨.A, .vpdst, (.vsrc 1), .res0, false, true, .any, .D, false, false, true⟩
  | 21 => some ⟨.A, (.vdst 1), .vpsrc, .res0, false, true, .any, .D, false, false, true⟩
  | 22 => some ⟨.A, .vpdst, (.vsrc 1), .res0, false, true, .any, .D, false, false, true⟩
  | 23 => some ⟨.A, (.vdst 1), .vpsrc, .res0, false, true, .any, .D, false, false, true⟩
  | 24 => some ⟨.A, (.vdst 1), (.vsrc 1), (.vsrc 1), false, true, .any, .V, false, false, true⟩
  | 25 => some ⟨.A, (.vdst 1), (.vsrc 1), (.vsrc 1), false, true, .any, .V, false, false, true⟩
  | 26 => some ⟨.A, (.vdst 1), (.vsrc 1), (.vsrc 1), false, true, .any, .V, false, false, true⟩
  | 27 => some ⟨.A, (.vdst 1), (.vsrc 1), (.vsrc 1), false, true, .any, .V, false, false, true⟩
  | 28 => some ⟨.A, (.vboth 1), (.vsrc 1), (.vsrc 1), false, true, .any, .V, false, false, true⟩
  | 29 => some ⟨.A, (.vboth 1), (.vsrc 1), (.vsrc 1), false, true, .any, .V, false, false, true⟩
  | 30 => some ⟨.A, .vpdst, .vpsrc, .vpsrc, false, true, .any, .D, false, false, true⟩
  | 31 => some ⟨.A, .vpdst, .vpsrc, .vpsrc, false, true, .any, .D, false, false, true⟩
  | 32 => some ⟨.A, .vpboth, .vpsrc, .vpsrc, false, true, .any, .D, false, false, true⟩
  | 33 => some ⟨.A, .vpdst, .vpsrc, .vpsrc, false, true, .any, .D, false, false, true⟩
  | 34 => some ⟨.A, .vpdst, .vpsrc, .res0, false, true, .any, .D, false, false, true⟩
  | 35 => some ⟨.A, .kdst, .vpsrc, .vpsrc, false, true, .any, .D, false, false, true⟩
  | 36 => some ⟨.A, .kdst, .vpsrc, .vpsrc, false, true, .any, .D, false, false, true⟩
  | 37 => some ⟨.A, .kdst, .vpsrc, .vpsrc, false, true, .any, .D, false, false, true⟩
  | 38 => some ⟨.A, .kdst, .vpsrc, .vpsrc, false, true, .any, .D, false, false, true⟩
  | _ => none

/-- Field kinds and attributes of the opcodes of class 0x05 by minor opcode (R97 to R104). -/
def opInfo5 (minor : Nat) : Option OpInfo :=
  match minor with
  | 0 => some ⟨.A, (.vdst 1), (.vsrc 1), .ssrc, false, true, .any, .V, false, false, false⟩
  | 1 => some ⟨.A, (.vdst 1), (.vsrc 1), .res0, false, true, .any, .V, false, false, false⟩
  | 2 => some ⟨.A, (.vdst 1), (.vsrc 1), .res0, false, true, .any, .V, false, false, false⟩
  | 3 => some ⟨.A, (.vdst 1), (.vsrc 1), .res0, false, true, .any, .V, false, false, false⟩
  | 4 => some ⟨.A, (.vdst 1), (.vsrc 1), .res0, false, true, .any, .V, false, false, false⟩
  | 5 => some ⟨.A, (.vdst 1), (.vsrc 1), (.vsrc 1), false, true, .any, .V, false, false, false⟩
  | 6 => some ⟨.A, (.vdst 1), (.vsrc 1), .ssrc, false, true, .any, .V, false, false, false⟩
  | 7 => some ⟨.A, (.vdst 1), (.vsrc 1), .ssrc, false, true, .any, .V, false, false, false⟩
  | 8 => some ⟨.A, (.vdst 1), (.vsrc 1), .ssrc, false, true, .any, .V, false, false, false⟩
  | 9 => some ⟨.A, .sdst, (.vsrc 1), .res0, false, true, .any, .V, false, false, false⟩
  | 10 => some ⟨.A, .sdst, (.vsrc 1), .res0, false, true, .any, .V, false, false, false⟩
  | 11 => some ⟨.A, .sdst, (.vsrc 1), .res0, false, true, .any, .V, false, false, false⟩
  | 12 => some ⟨.A, .sdst, (.vsrc 1), .res0, false, true, .any, .V, false, false, false⟩
  | 13 => some ⟨.A, .sdst, (.vsrc 1), .res0, false, true, .any, .V, false, false, false⟩
  | 14 => some ⟨.A, .sdst, (.vsrc 1), .res0, false, true, .any, .V, false, false, false⟩
  | 15 => some ⟨.A, .sdst, (.vsrc 1), .res0, false, true, .any, .V, false, false, false⟩
  | 16 => some ⟨.A, (.vdst 1), (.vsrc 1), .res0, false, true, .any, .V, false, false, false⟩
  | 17 => some ⟨.A, (.vdst 1), (.vsrc 1), .res0, false, true, .any, .V, false, false, false⟩
  | 18 => some ⟨.A, (.vdst 2), (.vsrc 1), (.vsrc 1), false, true, .any, .V, false, false, false⟩
  | 19 => some ⟨.A, (.vdst 2), (.vsrc 1), (.vsrc 1), false, true, .any, .V, false, false, false⟩
  | _ => none

/-- Field kinds and attributes of the opcodes of class 0x06 by minor opcode (R97 to R104). -/
def opInfo6 (minor : Nat) : Option OpInfo :=
  match minor with
  | 0 => some ⟨.I, (.vdst 1), .ssrc, .imm, true, true, .any, .M, false, true, true⟩
  | 1 => some ⟨.I, (.vdst 1), .ssrc, .imm, true, true, .any, .M, false, true, true⟩
  | 2 => some ⟨.I, (.vdst 1), .ssrc, .imm, true, true, .any, .M, false, true, true⟩
  | 3 => some ⟨.I, .vpdst, .ssrc, .imm, true, true, .any, .M, false, true, true⟩
  | 4 => some ⟨.A, (.vdst 1), .ssrc, (.vsrc 1), false, true, .any, .M, false, true, true⟩
  | 5 => some ⟨.A, (.vdst 1), .ssrc, (.vsrc 1), false, true, .any, .M, false, true, true⟩
  | 6 => some ⟨.A, (.vdst 1), .ssrc, (.vsrc 1), false, true, .any, .M, false, true, true⟩
  | 7 => some ⟨.A, .vpdst, .ssrc, (.vsrc 1), false, true, .any, .M, false, true, true⟩
  | 8 => some ⟨.I, (.vsrc 1), .ssrc, .imm, true, true, .any, .M, false, true, false⟩
  | 9 => some ⟨.I, (.vsrc 1), .ssrc, .imm, true, true, .any, .M, false, true, false⟩
  | 10 => some ⟨.I, (.vsrc 1), .ssrc, .imm, true, true, .any, .M, false, true, false⟩
  | 11 => some ⟨.I, .vpsrc, .ssrc, .imm, true, true, .any, .M, false, true, false⟩
  | 12 => some ⟨.A, (.vsrc 1), .ssrc, (.vsrc 1), false, true, .any, .M, false, true, false⟩
  | 13 => some ⟨.A, (.vsrc 1), .ssrc, (.vsrc 1), false, true, .any, .M, false, true, false⟩
  | 14 => some ⟨.A, (.vsrc 1), .ssrc, (.vsrc 1), false, true, .any, .M, false, true, false⟩
  | 15 => some ⟨.A, .vpsrc, .ssrc, (.vsrc 1), false, true, .any, .M, false, true, false⟩
  | 16 => some ⟨.A, (.vdst 1), .ssrc, (.vsrc 1), false, true, .any, .M, false, true, true⟩
  | 17 => some ⟨.A, .vpdst, .ssrc, (.vsrc 1), false, true, .any, .M, false, true, true⟩
  | 18 => some ⟨.A, (.vsrc 1), .ssrc, (.vsrc 1), false, true, .any, .M, false, true, false⟩
  | 19 => some ⟨.A, .vpsrc, .ssrc, (.vsrc 1), false, true, .any, .M, false, true, false⟩
  | 20 => some ⟨.A, (.vdst 1), .ssrc, (.vsrc 1), false, true, .any, .M, false, true, true⟩
  | 21 => some ⟨.A, (.vboth 1), .ssrc, (.vsrc 1), false, true, .any, .M, true, true, false⟩
  | 22 => some ⟨.A, (.vboth 1), .ssrc, (.vsrc 1), false, true, .any, .M, true, true, false⟩
  | 23 => some ⟨.A, (.vboth 1), .ssrc, (.vsrc 1), false, true, .any, .M, true, true, false⟩
  | 24 => some ⟨.A, (.vboth 1), .ssrc, (.vsrc 1), false, true, .any, .M, true, true, false⟩
  | 25 => some ⟨.A, (.vboth 1), .ssrc, (.vsrc 1), false, true, .any, .M, true, true, false⟩
  | 26 => some ⟨.A, (.vboth 1), .ssrc, (.vsrc 1), false, true, .any, .M, true, true, false⟩
  | 27 => some ⟨.A, (.vboth 1), .ssrc, (.vsrc 1), false, true, .any, .M, true, true, false⟩
  | 28 => some ⟨.A, (.vboth 1), .ssrc, (.vsrc 1), false, true, .any, .M, true, true, false⟩
  | 29 => some ⟨.A, (.vboth 2), .ssrc, (.vsrc 1), false, true, .any, .M, true, true, false⟩
  | 30 => some ⟨.A, (.vboth 2), .ssrc, (.vsrc 1), false, true, .any, .M, true, true, false⟩
  | 31 => some ⟨.A, (.vboth 1), .ssrc, (.vsrc 1), false, true, .any, .M, true, true, false⟩
  | 32 => some ⟨.A, .res0, .res0, .res0, false, false, .any, .M, false, false, false⟩
  | 33 => some ⟨.A, .res0, .res0, .res0, false, false, .any, .M, false, false, false⟩
  | 34 => some ⟨.A, .res0, .res0, .res0, false, false, .any, .M, false, false, false⟩
  | 35 => some ⟨.A, .res0, .res0, .res0, false, false, .any, .M, false, false, false⟩
  | 36 => some ⟨.A, .res0, .res0, .res0, false, false, .any, .M, false, false, false⟩
  | 37 => some ⟨.A, .res0, .res0, .res0, false, false, .any, .M, false, false, false⟩
  | 38 => some ⟨.A, .res0, .ssrc, .ssrc, false, false, .any, .M, false, false, false⟩
  | 39 => some ⟨.A, .res0, .ssrc, .ssrc, false, false, .any, .M, false, false, false⟩
  | 40 => some ⟨.A, .res0, .ssrc, .ssrc, false, false, .any, .M, false, false, false⟩
  | 41 => some ⟨.J, .res0, .imm, .imm, false, false, .any, .A, false, false, false⟩
  | 42 => some ⟨.I, (.vsrc 1), .ssrc, .imm, true, true, .any, .M, false, false, false⟩
  | _ => none

/-- Field kinds and attributes of the opcodes of class 0x07 by minor opcode (R97 to R104). -/
def opInfo7 (minor : Nat) : Option OpInfo :=
  match minor with
  | 0 => some ⟨.A, .res0, (.srun 4), .res0, false, false, .copy, .A, false, false, false⟩
  | 1 => some ⟨.A, .res0, (.srun 4), .res0, false, false, .copy, .A, false, false, false⟩
  | 2 => some ⟨.A, .res0, (.srun 4), .res0, false, false, .copy, .A, false, false, false⟩
  | 3 => some ⟨.A, .res0, (.srun 4), .res0, false, false, .copy, .A, false, false, false⟩
  | 4 => some ⟨.A, .res0, (.srun 4), .res0, false, false, .copy, .A, false, false, false⟩
  | 5 => some ⟨.A, .res0, (.srun 4), .ssrc, false, false, .copy, .A, true, false, false⟩
  | 6 => some ⟨.A, .sdst, .ssrc, .res0, false, false, .any, .A, true, false, false⟩
  | 7 => some ⟨.A, .res0, .ssrc, .ssrc, false, false, .any, .A, false, false, false⟩
  | 8 => some ⟨.A, .sdst, .ssrc, .res0, false, false, .any, .S, true, false, false⟩
  | 9 => some ⟨.A, .sdst, .ssrc, .res0, false, false, .any, .S, true, false, false⟩
  | 10 => some ⟨.A, .res0, .ssrc, .ssrc, false, false, .any, .S, true, false, false⟩
  | 11 => some ⟨.A, .res0, .ssrc, .ssrc, false, false, .any, .S, true, false, false⟩
  | _ => none

/-- Field kinds and attributes of the opcodes of class 0x08 by minor opcode (R97 to R104). -/
def opInfo8 (minor : Nat) : Option OpInfo :=
  match minor with
  | 0 => some ⟨.A, .srecw, .ssrc, .ssrc, false, false, .any, .S, false, false, false⟩
  | 1 => some ⟨.A, .res0, .ssrc, .ssrc, false, false, .any, .S, false, false, false⟩
  | 2 => some ⟨.A, .res0, .ssrc, .res0, false, false, .mat, .A, false, false, false⟩
  | 3 => some ⟨.A, .ssrc, (.srun 4), (.srun 4), false, false, .mat, .A, true, false, false⟩
  | 4 => some ⟨.A, .ssrc, (.srun 4), (.srun 4), false, false, .mat, .A, true, false, false⟩
  | 5 => some ⟨.A, .ssrc, (.srun 4), (.srun 4), false, false, .mat, .A, true, false, false⟩
  | 6 => some ⟨.A, .ssrc, (.srun 4), (.srun 4), false, false, .mat, .A, true, false, false⟩
  | 7 => some ⟨.A, .ssrc, (.srun 4), (.srun 4), false, false, .mat, .A, true, false, false⟩
  | 8 => some ⟨.A, .ssrc, (.srun 4), (.srun 4), false, false, .mat, .A, true, false, false⟩
  | 9 => some ⟨.A, .ssrc, (.srun 4), (.srun 4), false, false, .mat, .A, false, false, false⟩
  | 10 => some ⟨.A, .ssrc, (.srun 4), (.srun 4), false, false, .mat, .A, false, false, false⟩
  | 11 => some ⟨.A, .ssrc, (.srun 4), (.srun 4), false, false, .mat, .A, true, false, false⟩
  | 12 => some ⟨.A, (.vdst 1), .ssrc, .res0, false, false, .macc, .V, false, false, false⟩
  | 13 => some ⟨.A, .res0, .ssrc, (.vsrc 1), false, false, .macc, .V, false, false, false⟩
  | 14 => some ⟨.A, .res0, .ssrc, (.srun 4), false, false, .macc, .A, false, false, false⟩
  | 15 => some ⟨.A, .res0, .ssrc, (.srun 4), false, false, .macc, .A, false, false, false⟩
  | _ => none

/-- Field kinds and attributes of the opcodes of class 0x09 by minor opcode (R97 to R104). -/
def opInfo9 (minor : Nat) : Option OpInfo :=
  match minor with
  | 0 => some ⟨.A, (.vdst 3), (.vsrc 3), .ssrc, false, true, .any, .M, false, true, false⟩
  | 1 => some ⟨.A, (.vdst 1), (.vsrc 3), .ssrc, false, true, .any, .M, false, true, true⟩
  | 2 => some ⟨.A, (.vdst 1), (.vsrc 3), .ssrc, false, true, .any, .M, false, true, true⟩
  | 3 => some ⟨.A, (.vdst 1), (.vsrc 3), .ssrc, false, true, .any, .M, false, true, true⟩
  | 4 => some ⟨.A, (.vdst 1), (.vsrc 3), .ssrc, false, true, .any, .M, false, true, true⟩
  | 5 => some ⟨.A, (.vsrc 1), (.vsrc 3), .ssrc, false, true, .any, .M, false, true, false⟩
  | 6 => some ⟨.A, (.vdst 3), (.vsrc 3), .ssrc, false, true, .any, .M, true, true, false⟩
  | 7 => some ⟨.A, (.vdst 1), (.vsrc 3), .ssrc, false, true, .any, .M, true, true, false⟩
  | 8 => some ⟨.A, (.vdst 1), (.vsrc 3), .ssrc, false, true, .any, .M, true, true, false⟩
  | 9 => some ⟨.A, (.vdst 5), (.vsrc 8), .ssrc, false, true, .any, .M, false, true, false⟩
  | _ => none

/-- Field kinds and attributes of the opcodes of class 0x0A by minor opcode (R97 to R104). -/
def opInfoA (minor : Nat) : Option OpInfo :=
  match minor with
  | 0 => some ⟨.I, .res0, .ssrc, (.max 15), false, false, .tex, .A, false, false, false⟩
  | 1 => some ⟨.A, (.vdst 4), (.vsrc 2), .ssrc, false, true, .tex, .A, false, true, false⟩
  | 2 => some ⟨.A, (.vdst 4), (.vsrc 2), .ssrc, false, true, .tex, .A, false, true, false⟩
  | 3 => some ⟨.A, (.vdst 1), (.vsrc 9), .ssrc, false, true, .any, .A, false, false, false⟩
  | 4 => some ⟨.A, (.vsrc 3), (.vsrc 9), .ssrc, false, true, .any, .A, true, false, false⟩
  | 5 => some ⟨.A, .res0, (.vsrc 3), .ssrc, false, true, .any, .A, false, false, false⟩
  | 6 => some ⟨.A, .res0, (.vsrc 2), .ssrc, false, true, .any, .A, true, false, false⟩
  | 7 => some ⟨.A, .res0, .ssrc, .res0, false, false, .any, .A, false, false, false⟩
  | 8 => some ⟨.A, .res0, .ssrc, .res0, false, false, .any, .A, false, false, false⟩
  | 9 => some ⟨.A, .res0, .ssrc, .res0, false, false, .any, .A, true, false, false⟩
  | 10 => some ⟨.A, (.vdst 3), (.vsrc 3), .ssrc, false, true, .any, .M, false, true, false⟩
  | _ => none

/-- Field kinds and attributes of the opcodes of class 0x0B by minor opcode (R97 to R104). -/
def opInfoB (minor : Nat) : Option OpInfo :=
  match minor with
  | 0 => some ⟨.A, .sdst, (.srun 4), (.srun 2), false, false, .any, .A, true, false, false⟩
  | 1 => some ⟨.A, .res0, .ssrc, .res0, false, false, .any, .A, false, false, false⟩
  | 2 => some ⟨.A, .sdst, .ssrc, .ssrc, false, false, .any, .A, true, false, false⟩
  | 3 => some ⟨.A, .res0, (.srun 4), .res0, false, false, .copy, .A, true, false, false⟩
  | 4 => some ⟨.A, .res0, (.srun 4), .res0, false, false, .copy, .A, true, false, false⟩
  | 5 => some ⟨.A, (.vdst 1), (.vsrc 1), (.srun 2), false, true, .any, .A, false, true, false⟩
  | 6 => some ⟨.A, (.vsrc 1), (.vsrc 1), (.srun 2), false, true, .copy, .A, false, false, false⟩
  | 7 => some ⟨.A, (.vsrc 1), (.vsrc 1), (.srun 2), false, true, .copy, .A, true, false, false⟩
  | _ => none

/-- The opcode map of R97 to R104: what the map and the reference entries say of each opcode, or none for an opcode
that is not in the map (R86). -/
def opInfo (op : Nat) : Option OpInfo :=
  match op / 64 with
  | 0 => opInfo0 (op % 64)
  | 1 => opInfo1 (op % 64)
  | 2 => opInfo2 (op % 64)
  | 3 => opInfo3 (op % 64)
  | 4 => opInfo4 (op % 64)
  | 5 => opInfo5 (op % 64)
  | 6 => opInfo6 (op % 64)
  | 7 => opInfo7 (op % 64)
  | 8 => opInfo8 (op % 64)
  | 9 => opInfo9 (op % 64)
  | 10 => opInfoA (op % 64)
  | 11 => opInfoB (op % 64)
  | _ => none

/-- The opcode of an instruction that has a word (R97 to R104); 0, which is no opcode, for a wordless row. -/
def Instr.opcode : Instr → Nat
  | .nop => 0x001
  | .ximm _ => 0x002
  | .ksel _ _ => 0x003
  | .bra _ => 0x004
  | .bscZ _ _ => 0x005
  | .bscNz _ _ => 0x006
  | .brvT _ _ => 0x007
  | .brvF _ _ => 0x008
  | .conv => 0x009
  | .exit => 0x00A
  | .yield _ => 0x00B
  | .wait _ => 0x00C
  | .mwait _ _ => 0x00D
  | .idem => 0x00E
  | .bar _ => 0x00F
  | .call _ => 0x010
  | .calli _ => 0x011
  | .ret => 0x012
  | .frame _ => 0x013
  | .wbase _ => 0x014
  | .rgrow _ => 0x015
  | .rshrink _ => 0x016
  | .barg _ => 0x017
  | .lclk _ _ => 0x018
  | .trap _ => 0x019
  | .eret _ _ => 0x01A
  | .brkp _ => 0x01B
  | .ctlr _ _ => 0x01C
  | .ctlw _ _ => 0x01D
  | .sadd _ _ _ => 0x040
  | .saddImm _ _ _ => 0x041
  | .ssub _ _ _ => 0x042
  | .smul _ _ _ => 0x043
  | .smulhS _ _ _ => 0x044
  | .smulhU _ _ _ => 0x045
  | .sand _ _ _ => 0x046
  | .sor _ _ _ => 0x047
  | .sxor _ _ _ => 0x048
  | .sshl _ _ _ => 0x049
  | .sshlImm _ _ _ => 0x04A
  | .sshr _ _ _ => 0x04B
  | .sshrImm _ _ _ => 0x04C
  | .ssra _ _ _ => 0x04D
  | .ssraImm _ _ _ => 0x04E
  | .sminS _ _ _ => 0x04F
  | .sminU _ _ _ => 0x050
  | .smaxS _ _ _ => 0x051
  | .smaxU _ _ _ => 0x052
  | .scmpEq _ _ _ => 0x053
  | .scmpNe _ _ _ => 0x054
  | .scmpLt _ _ _ => 0x055
  | .scmpLe _ _ _ => 0x056
  | .scmpLtu _ _ _ => 0x057
  | .scmpLeu _ _ _ => 0x058
  | .ssel _ _ _ => 0x059
  | .smov _ _ => 0x05A
  | .sli _ _ => 0x05B
  | .sadr _ _ => 0x05C
  | .spopc _ _ => 0x05D
  | .sclz _ _ => 0x05E
  | .sldB _ _ _ => 0x05F
  | .sldH _ _ _ => 0x060
  | .sldW _ _ _ => 0x061
  | .sldD _ _ _ => 0x062
  | .sstB _ _ _ => 0x063
  | .sstH _ _ _ => 0x064
  | .sstW _ _ _ => 0x065
  | .sstD _ _ _ => 0x066
  | .vadd _ _ _ => 0x080
  | .vaddSat _ _ _ => 0x081
  | .vsub _ _ _ => 0x082
  | .vsubSat _ _ _ => 0x083
  | .vmulLo _ _ _ => 0x084
  | .vmulHiS _ _ _ => 0x085
  | .vmulHiU _ _ _ => 0x086
  | .vmad _ _ _ => 0x087
  | .vand _ _ _ => 0x088
  | .vor _ _ _ => 0x089
  | .vxor _ _ _ => 0x08A
  | .vshl _ _ _ => 0x08B
  | .vshr _ _ _ => 0x08C
  | .vsra _ _ _ => 0x08D
  | .vminS _ _ _ => 0x08E
  | .vminU _ _ _ => 0x08F
  | .vmaxS _ _ _ => 0x090
  | .vmaxU _ _ _ => 0x091
  | .vcmpEq _ _ _ => 0x092
  | .vcmpNe _ _ _ => 0x093
  | .vcmpLt _ _ _ => 0x094
  | .vcmpLe _ _ _ => 0x095
  | .vcmpLtu _ _ _ => 0x096
  | .vcmpLeu _ _ _ => 0x097
  | .vsel _ _ _ => 0x098
  | .vmov _ _ => 0x099
  | .vmovBc _ _ => 0x09A
  | .vmovRd _ _ _ => 0x09B
  | .vpopc _ _ => 0x09C
  | .vclz _ _ => 0x09D
  | .vbfeS _ _ _ => 0x09E
  | .vbfeU _ _ _ => 0x09F
  | .vbfi _ _ _ => 0x0A0
  | .fadd _ _ _ => 0x0C0
  | .faddRn _ _ _ => 0x0C1
  | .faddRz _ _ _ => 0x0C2
  | .fsub _ _ _ => 0x0C3
  | .fsubRn _ _ _ => 0x0C4
  | .fsubRz _ _ _ => 0x0C5
  | .fmul _ _ _ => 0x0C6
  | .fmulRn _ _ _ => 0x0C7
  | .fmulRz _ _ _ => 0x0C8
  | .ffma _ _ _ => 0x0C9
  | .ffmaRn _ _ _ => 0x0CA
  | .ffmaRz _ _ _ => 0x0CB
  | .fmin _ _ _ => 0x0CC
  | .fmax _ _ _ => 0x0CD
  | .fcmpEq _ _ _ => 0x0CE
  | .fcmpNe _ _ _ => 0x0CF
  | .fcmpLt _ _ _ => 0x0D0
  | .fcmpLe _ _ _ => 0x0D1
  | .fcmpUn _ _ _ => 0x0D2
  | .fcmpOrd _ _ _ => 0x0D3
  | .frcp _ _ => 0x0D4
  | .frsq _ _ => 0x0D5
  | .fsqrt _ _ => 0x0D6
  | .fdiv _ _ _ => 0x0D7
  | .fexp2 _ _ => 0x0D8
  | .flog2 _ _ => 0x0D9
  | .fsin _ _ => 0x0DA
  | .fcos _ _ => 0x0DB
  | .fcvtF32F16 _ _ => 0x100
  | .fcvtF32Bf16 _ _ => 0x101
  | .fcvtF16F32 _ _ => 0x102
  | .fcvtBf16F32 _ _ => 0x103
  | .fcvtF32E4m3 _ _ => 0x104
  | .fcvtF32E5m2 _ _ => 0x105
  | .fcvtE4m3F32Sat _ _ => 0x106
  | .fcvtE4m3F32 _ _ => 0x107
  | .fcvtE5m2F32Sat _ _ => 0x108
  | .fcvtE5m2F32 _ _ => 0x109
  | .fcvtF32T8 _ _ => 0x10A
  | .fcvtT8F32 _ _ => 0x10B
  | .fcvtF32T6 _ _ => 0x10C
  | .fcvtT6F32 _ _ => 0x10D
  | .fcvtF32E2m1 _ _ => 0x10E
  | .fcvtE2m1F32 _ _ => 0x10F
  | .fcvtF32Int _ _ => 0x110
  | .fcvtF32Uint _ _ => 0x111
  | .fcvtIntF32 _ _ => 0x112
  | .fcvtUintF32 _ _ => 0x113
  | .fcvtF64F32 _ _ => 0x114
  | .fcvtF32F64 _ _ => 0x115
  | .fcvtF64Int _ _ => 0x116
  | .fcvtIntF64 _ _ => 0x117
  | .hadd2F16 _ _ _ => 0x118
  | .hadd2Bf16 _ _ _ => 0x119
  | .hmul2F16 _ _ _ => 0x11A
  | .hmul2Bf16 _ _ _ => 0x11B
  | .hfma2F16 _ _ _ => 0x11C
  | .hfma2Bf16 _ _ _ => 0x11D
  | .dadd _ _ _ => 0x11E
  | .dmul _ _ _ => 0x11F
  | .dfma _ _ _ => 0x120
  | .ddiv _ _ _ => 0x121
  | .dsqrt _ _ => 0x122
  | .dcmpEq _ _ _ => 0x123
  | .dcmpLt _ _ _ => 0x124
  | .dcmpLe _ _ _ => 0x125
  | .dcmpUn _ _ _ => 0x126
  | .qswz _ _ _ => 0x140
  | .qddxFine _ _ => 0x141
  | .qddxCoarse _ _ => 0x142
  | .qddyFine _ _ => 0x143
  | .qddyCoarse _ _ => 0x144
  | .xshfIdx _ _ _ => 0x145
  | .xshfUp _ _ _ => 0x146
  | .xshfDown _ _ _ => 0x147
  | .xshfXor _ _ _ => 0x148
  | .xbal _ _ => 0x149
  | .xredAddInt _ _ => 0x14A
  | .xredAddF32 _ _ => 0x14B
  | .xredMinF32 _ _ => 0x14C
  | .xredMaxF32 _ _ => 0x14D
  | .xredAnd _ _ => 0x14E
  | .xredOr _ _ => 0x14F
  | .xscanAddInt _ _ => 0x150
  | .xscanAddF32 _ _ => 0x151
  | .xmaxiF16 _ _ _ => 0x152
  | .xmaxiF32 _ _ _ => 0x153
  | .vldBImm _ _ _ => 0x180
  | .vldHImm _ _ _ => 0x181
  | .vldWImm _ _ _ => 0x182
  | .vldDImm _ _ _ => 0x183
  | .vldBIdx _ _ _ => 0x184
  | .vldHIdx _ _ _ => 0x185
  | .vldWIdx _ _ _ => 0x186
  | .vldDIdx _ _ _ => 0x187
  | .vstBImm _ _ _ => 0x188
  | .vstHImm _ _ _ => 0x189
  | .vstWImm _ _ _ => 0x18A
  | .vstDImm _ _ _ => 0x18B
  | .vstBIdx _ _ _ => 0x18C
  | .vstHIdx _ _ _ => 0x18D
  | .vstWIdx _ _ _ => 0x18E
  | .vstDIdx _ _ _ => 0x18F
  | .vldsW _ _ _ => 0x190
  | .vldsD _ _ _ => 0x191
  | .vstsW _ _ _ => 0x192
  | .vstsD _ _ _ => 0x193
  | .vldi _ _ _ => 0x194
  | .atomAdd _ _ _ => 0x195
  | .atomMinS _ _ _ => 0x196
  | .atomMaxS _ _ _ => 0x197
  | .atomMinU _ _ _ => 0x198
  | .atomMaxU _ _ _ => 0x199
  | .atomAnd _ _ _ => 0x19A
  | .atomOr _ _ _ => 0x19B
  | .atomExch _ _ _ => 0x19C
  | .atomCas _ _ _ => 0x19D
  | .atomMaxi _ _ _ => 0x19E
  | .atomq _ _ _ => 0x19F
  | .fenceWarp => 0x1A0
  | .fenceBlock => 0x1A1
  | .fenceGang => 0x1A2
  | .fenceDie => 0x1A3
  | .fenceDevice => 0x1A4
  | .fenceSystem => 0x1A5
  | .tfenceDie _ _ => 0x1A6
  | .tfenceDevice _ _ => 0x1A7
  | .tfenceSystem _ _ => 0x1A8
  | .qfence _ => 0x1A9
  | .pref _ _ _ => 0x1AA
  | .copyG2s _ => 0x1C0
  | .copyS2g _ => 0x1C1
  | .copyG2g _ => 0x1C2
  | .copyIngot _ => 0x1C3
  | .copyHalo _ => 0x1C4
  | .copym _ _ => 0x1C5
  | .abarArrive _ _ => 0x1C6
  | .abarWait _ _ => 0x1C7
  | .stgaProd _ _ => 0x1C8
  | .stgaCons _ _ => 0x1C9
  | .stgrProd _ _ => 0x1CA
  | .stgrCons _ _ => 0x1CB
  | .mshp _ _ _ => 0x200
  | .mwin _ _ => 0x201
  | .mzero _ => 0x202
  | .mmaBf16 _ _ _ => 0x203
  | .mmaF16 _ _ _ => 0x204
  | .mmaE4m3 _ _ _ => 0x205
  | .mmaE5m2 _ _ _ => 0x206
  | .mmaT8 _ _ _ => 0x207
  | .mmaT6 _ _ _ => 0x208
  | .mmaxE2m1 _ _ _ => 0x209
  | .mmaxE4m3 _ _ _ => 0x20A
  | .msca _ _ _ => 0x20B
  | .maccRd _ _ => 0x20C
  | .maccWr _ _ => 0x20D
  | .mstaF32 _ _ => 0x20E
  | .mstaBf16 _ _ => 0x20F
  | .tlook _ _ _ => 0x240
  | .vldnS7 _ _ _ => 0x241
  | .vldnS19 _ _ _ => 0x242
  | .vldnB27 _ _ _ => 0x243
  | .vldnLine _ _ _ => 0x244
  | .vstv _ _ _ => 0x245
  | .tins _ _ _ => 0x246
  | .tactSet _ _ _ => 0x247
  | .tactClr _ _ _ => 0x248
  | .twalk _ _ _ => 0x249
  | .txb _ _ => 0x280
  | .txsL _ _ _ => 0x281
  | .txsG _ _ _ => 0x282
  | .cull _ _ _ => 0x283
  | .pexp _ _ _ => 0x284
  | .obld _ _ => 0x285
  | .oble _ _ => 0x286
  | .ksrtK32 _ => 0x287
  | .ksrtK64 _ => 0x288
  | .binc _ => 0x289
  | .vbrd _ _ _ => 0x28A
  | .fork _ _ _ => 0x2C0
  | .fjoin _ => 0x2C1
  | .lnch _ _ _ => 0x2C2
  | .collRed _ => 0x2C3
  | .collGather _ => 0x2C4
  | .rld _ _ _ => 0x2C5
  | .rst _ _ _ => 0x2C6
  | .rred _ _ _ => 0x2C7
  | .missGroupMerge _ _ => 0
  | .scoreboardClear _ _ => 0
  | .exitDrainComplete _ => 0
  | .registerDrainComplete _ _ => 0
  | .taskStart _ => 0
  | .taskSteal _ => 0
  | .ladleOptionalSpill _ => 0
  | .ladleOptionalRefill _ => 0
  | .rgrowGrant _ _ => 0
  | .stageRingGrant _ _ => 0
  | .barhang _ _ => 0
  | .qfenceCompletion _ _ => 0
  | .mwinApply _ _ => 0
  | .weightCacheEntryGrant _ _ => 0
  | .obldGrant _ _ => 0
  | .abarWaitResume _ _ => 0
  | .fjoinReturn _ _ => 0
  | .mwaitReturn _ _ => 0
  | .yieldContinuation _ _ => 0
  | .waitPauseEnd _ _ => 0
  | .tinsLockRelease _ _ => 0
  | .pourPermitGrant _ => 0
  | .engineQueueEntry _ _ => 0
  | .riddleJobQueueEntry _ _ => 0
  | .copyPerform _ _ _ => 0
  | .ingotLoadState _ => 0
  | .bankRefresh _ => 0
  | .followOnMmaEntry _ _ => 0
  | .matrixOperationPerform _ _ => 0
  | .engineOperationCompletion _ _ => 0
  | .samplerFetchCompletion _ _ => 0
  | .deferredFaultDelivery _ _ => 0
  | .engineFaultDelivery _ => 0
  | .trapAction _ _ _ => 0
  | .mchk _ _ => 0
  | .junctionOvertemperature _ => 0
  | .dieReset _ _ => 0
  | .loadKey _ _ => 0
  | .clearKey _ => 0
  | .setPowerCap _ => 0
  | .attestationReport _ _ => 0
  | .firmwareLoad _ _ => 0
  | .holdAdmission _ => 0
  | .admission _ _ _ => 0
  | .blockMigration _ _ _ => 0
  | .launchCompletion _ => 0
  | .preEmptionRequest _ => 0
  | .preEmptionSaveComplete _ => 0
  | .resumption _ _ _ => 0
  | .killRequest _ => 0
  | .riddleJobCompletion _ => 0
  | .binRasterisation _ _ => 0
  | .collectiveRequest _ _ => 0
  | .collectiveResultCopy _ _ => 0
  | .haloLeafDelivery _ _ => 0
  | .write _ _ => 0
  | .readRequest _ _ => 0
  | .readResponse _ _ => 0
  | .atomic _ _ => 0
  | .atomicResponse _ _ => 0
  | .reduce _ _ => 0
  | .launch _ _ => 0
  | .stepCounterUpdate _ _ => 0
  | .ack _ _ => 0
  | .nack _ _ => 0
  | .retransmitTimeout _ _ _ => 0
  | .setState _ _ => 0
  | .enable _ _ => 0
  | .disable _ _ => 0
  | .assignQueue _ _ _ => 0
  | .grantIngotSegment _ _ _ => 0
  | .writePeerEntry _ _ _ _ => 0
  | .clearPeerEntry _ _ _ => 0
  | .removeHeldRecord _ _ _ => 0
  | .readErrorLog _ => 0
  | .invalidateTranslations _ _ _ _ => 0
  | .unusedOpcode w => w.toNat / 2097152
  | .bankRefreshEnd _ => 0
  | .admissionHoldRelease _ => 0
  | .setSystemAccessKey _ _ => 0

/-- Bits [20:0] of an instruction's word: its operand fields in their places of R85, zero where a field is res0. -/
def Instr.fields : Instr → BitVec 21
  | .nop => (0#7 ++ 0#7 ++ 0#7)
  | .ximm imm => imm
  | .ksel n m => (0#17 ++ n ++ m)
  | .bra imm => imm
  | .bscZ d imm => (d ++ imm)
  | .bscNz d imm => (d ++ imm)
  | .brvT d imm => (d ++ imm)
  | .brvF d imm => (d ++ imm)
  | .conv => (0#7 ++ 0#7 ++ 0#7)
  | .exit => (0#7 ++ 0#7 ++ 0#7)
  | .yield imm => imm
  | .wait imm => (0#7 ++ imm)
  | .mwait a b => (0#7 ++ a ++ b)
  | .idem => (0#7 ++ 0#7 ++ 0#7)
  | .bar imm => (0#7 ++ 0#7 ++ imm)
  | .call imm => imm
  | .calli a => (0#7 ++ a ++ 0#7)
  | .ret => (0#7 ++ 0#7 ++ 0#7)
  | .frame imm => (0#7 ++ imm)
  | .wbase a => (0#7 ++ a ++ 0#7)
  | .rgrow d => (d ++ 0#7 ++ 0#7)
  | .rshrink d => (d ++ 0#7 ++ 0#7)
  | .barg imm => (0#7 ++ 0#7 ++ imm)
  | .lclk d a => (d ++ a ++ 0#7)
  | .trap imm => (0#7 ++ imm)
  | .eret a b => (0#7 ++ a ++ b)
  | .brkp imm => (0#7 ++ imm)
  | .ctlr d imm => (d ++ 0#7 ++ imm)
  | .ctlw a imm => (0#7 ++ a ++ imm)
  | .sadd d a b => (d ++ a ++ b)
  | .saddImm d a imm => (d ++ a ++ imm)
  | .ssub d a b => (d ++ a ++ b)
  | .smul d a b => (d ++ a ++ b)
  | .smulhS d a b => (d ++ a ++ b)
  | .smulhU d a b => (d ++ a ++ b)
  | .sand d a b => (d ++ a ++ b)
  | .sor d a b => (d ++ a ++ b)
  | .sxor d a b => (d ++ a ++ b)
  | .sshl d a b => (d ++ a ++ b)
  | .sshlImm d a imm => (d ++ a ++ imm)
  | .sshr d a b => (d ++ a ++ b)
  | .sshrImm d a imm => (d ++ a ++ imm)
  | .ssra d a b => (d ++ a ++ b)
  | .ssraImm d a imm => (d ++ a ++ imm)
  | .sminS d a b => (d ++ a ++ b)
  | .sminU d a b => (d ++ a ++ b)
  | .smaxS d a b => (d ++ a ++ b)
  | .smaxU d a b => (d ++ a ++ b)
  | .scmpEq d a b => (d ++ a ++ b)
  | .scmpNe d a b => (d ++ a ++ b)
  | .scmpLt d a b => (d ++ a ++ b)
  | .scmpLe d a b => (d ++ a ++ b)
  | .scmpLtu d a b => (d ++ a ++ b)
  | .scmpLeu d a b => (d ++ a ++ b)
  | .ssel d a b => (d ++ a ++ b)
  | .smov d a => (d ++ a ++ 0#7)
  | .sli d imm => (d ++ imm)
  | .sadr d imm => (d ++ imm)
  | .spopc d a => (d ++ a ++ 0#7)
  | .sclz d a => (d ++ a ++ 0#7)
  | .sldB d a imm => (d ++ a ++ imm)
  | .sldH d a imm => (d ++ a ++ imm)
  | .sldW d a imm => (d ++ a ++ imm)
  | .sldD d a imm => (d ++ a ++ imm)
  | .sstB d a imm => (d ++ a ++ imm)
  | .sstH d a imm => (d ++ a ++ imm)
  | .sstW d a imm => (d ++ a ++ imm)
  | .sstD d a imm => (d ++ a ++ imm)
  | .vadd d a b => (d ++ a ++ b)
  | .vaddSat d a b => (d ++ a ++ b)
  | .vsub d a b => (d ++ a ++ b)
  | .vsubSat d a b => (d ++ a ++ b)
  | .vmulLo d a b => (d ++ a ++ b)
  | .vmulHiS d a b => (d ++ a ++ b)
  | .vmulHiU d a b => (d ++ a ++ b)
  | .vmad d a b => (d ++ a ++ b)
  | .vand d a b => (d ++ a ++ b)
  | .vor d a b => (d ++ a ++ b)
  | .vxor d a b => (d ++ a ++ b)
  | .vshl d a b => (d ++ a ++ b)
  | .vshr d a b => (d ++ a ++ b)
  | .vsra d a b => (d ++ a ++ b)
  | .vminS d a b => (d ++ a ++ b)
  | .vminU d a b => (d ++ a ++ b)
  | .vmaxS d a b => (d ++ a ++ b)
  | .vmaxU d a b => (d ++ a ++ b)
  | .vcmpEq d a b => (d ++ a ++ b)
  | .vcmpNe d a b => (d ++ a ++ b)
  | .vcmpLt d a b => (d ++ a ++ b)
  | .vcmpLe d a b => (d ++ a ++ b)
  | .vcmpLtu d a b => (d ++ a ++ b)
  | .vcmpLeu d a b => (d ++ a ++ b)
  | .vsel d a b => (d ++ a ++ b)
  | .vmov d a => (d ++ a ++ 0#7)
  | .vmovBc d a => (d ++ a ++ 0#7)
  | .vmovRd d a b => (d ++ a ++ b)
  | .vpopc d a => (d ++ a ++ 0#7)
  | .vclz d a => (d ++ a ++ 0#7)
  | .vbfeS d a b => (d ++ a ++ b)
  | .vbfeU d a b => (d ++ a ++ b)
  | .vbfi d a b => (d ++ a ++ b)
  | .fadd d a b => (d ++ a ++ b)
  | .faddRn d a b => (d ++ a ++ b)
  | .faddRz d a b => (d ++ a ++ b)
  | .fsub d a b => (d ++ a ++ b)
  | .fsubRn d a b => (d ++ a ++ b)
  | .fsubRz d a b => (d ++ a ++ b)
  | .fmul d a b => (d ++ a ++ b)
  | .fmulRn d a b => (d ++ a ++ b)
  | .fmulRz d a b => (d ++ a ++ b)
  | .ffma d a b => (d ++ a ++ b)
  | .ffmaRn d a b => (d ++ a ++ b)
  | .ffmaRz d a b => (d ++ a ++ b)
  | .fmin d a b => (d ++ a ++ b)
  | .fmax d a b => (d ++ a ++ b)
  | .fcmpEq d a b => (d ++ a ++ b)
  | .fcmpNe d a b => (d ++ a ++ b)
  | .fcmpLt d a b => (d ++ a ++ b)
  | .fcmpLe d a b => (d ++ a ++ b)
  | .fcmpUn d a b => (d ++ a ++ b)
  | .fcmpOrd d a b => (d ++ a ++ b)
  | .frcp d a => (d ++ a ++ 0#7)
  | .frsq d a => (d ++ a ++ 0#7)
  | .fsqrt d a => (d ++ a ++ 0#7)
  | .fdiv d a b => (d ++ a ++ b)
  | .fexp2 d a => (d ++ a ++ 0#7)
  | .flog2 d a => (d ++ a ++ 0#7)
  | .fsin d a => (d ++ a ++ 0#7)
  | .fcos d a => (d ++ a ++ 0#7)
  | .fcvtF32F16 d a => (d ++ a ++ 0#7)
  | .fcvtF32Bf16 d a => (d ++ a ++ 0#7)
  | .fcvtF16F32 d a => (d ++ a ++ 0#7)
  | .fcvtBf16F32 d a => (d ++ a ++ 0#7)
  | .fcvtF32E4m3 d a => (d ++ a ++ 0#7)
  | .fcvtF32E5m2 d a => (d ++ a ++ 0#7)
  | .fcvtE4m3F32Sat d a => (d ++ a ++ 0#7)
  | .fcvtE4m3F32 d a => (d ++ a ++ 0#7)
  | .fcvtE5m2F32Sat d a => (d ++ a ++ 0#7)
  | .fcvtE5m2F32 d a => (d ++ a ++ 0#7)
  | .fcvtF32T8 d a => (d ++ a ++ 0#7)
  | .fcvtT8F32 d a => (d ++ a ++ 0#7)
  | .fcvtF32T6 d a => (d ++ a ++ 0#7)
  | .fcvtT6F32 d a => (d ++ a ++ 0#7)
  | .fcvtF32E2m1 d a => (d ++ a ++ 0#7)
  | .fcvtE2m1F32 d a => (d ++ a ++ 0#7)
  | .fcvtF32Int d a => (d ++ a ++ 0#7)
  | .fcvtF32Uint d a => (d ++ a ++ 0#7)
  | .fcvtIntF32 d a => (d ++ a ++ 0#7)
  | .fcvtUintF32 d a => (d ++ a ++ 0#7)
  | .fcvtF64F32 d a => (d ++ a ++ 0#7)
  | .fcvtF32F64 d a => (d ++ a ++ 0#7)
  | .fcvtF64Int d a => (d ++ a ++ 0#7)
  | .fcvtIntF64 d a => (d ++ a ++ 0#7)
  | .hadd2F16 d a b => (d ++ a ++ b)
  | .hadd2Bf16 d a b => (d ++ a ++ b)
  | .hmul2F16 d a b => (d ++ a ++ b)
  | .hmul2Bf16 d a b => (d ++ a ++ b)
  | .hfma2F16 d a b => (d ++ a ++ b)
  | .hfma2Bf16 d a b => (d ++ a ++ b)
  | .dadd d a b => (d ++ a ++ b)
  | .dmul d a b => (d ++ a ++ b)
  | .dfma d a b => (d ++ a ++ b)
  | .ddiv d a b => (d ++ a ++ b)
  | .dsqrt d a => (d ++ a ++ 0#7)
  | .dcmpEq d a b => (d ++ a ++ b)
  | .dcmpLt d a b => (d ++ a ++ b)
  | .dcmpLe d a b => (d ++ a ++ b)
  | .dcmpUn d a b => (d ++ a ++ b)
  | .qswz d a b => (d ++ a ++ b)
  | .qddxFine d a => (d ++ a ++ 0#7)
  | .qddxCoarse d a => (d ++ a ++ 0#7)
  | .qddyFine d a => (d ++ a ++ 0#7)
  | .qddyCoarse d a => (d ++ a ++ 0#7)
  | .xshfIdx d a b => (d ++ a ++ b)
  | .xshfUp d a b => (d ++ a ++ b)
  | .xshfDown d a b => (d ++ a ++ b)
  | .xshfXor d a b => (d ++ a ++ b)
  | .xbal d a => (d ++ a ++ 0#7)
  | .xredAddInt d a => (d ++ a ++ 0#7)
  | .xredAddF32 d a => (d ++ a ++ 0#7)
  | .xredMinF32 d a => (d ++ a ++ 0#7)
  | .xredMaxF32 d a => (d ++ a ++ 0#7)
  | .xredAnd d a => (d ++ a ++ 0#7)
  | .xredOr d a => (d ++ a ++ 0#7)
  | .xscanAddInt d a => (d ++ a ++ 0#7)
  | .xscanAddF32 d a => (d ++ a ++ 0#7)
  | .xmaxiF16 d a b => (d ++ a ++ b)
  | .xmaxiF32 d a b => (d ++ a ++ b)
  | .vldBImm d a imm => (d ++ a ++ imm)
  | .vldHImm d a imm => (d ++ a ++ imm)
  | .vldWImm d a imm => (d ++ a ++ imm)
  | .vldDImm d a imm => (d ++ a ++ imm)
  | .vldBIdx d a b => (d ++ a ++ b)
  | .vldHIdx d a b => (d ++ a ++ b)
  | .vldWIdx d a b => (d ++ a ++ b)
  | .vldDIdx d a b => (d ++ a ++ b)
  | .vstBImm d a imm => (d ++ a ++ imm)
  | .vstHImm d a imm => (d ++ a ++ imm)
  | .vstWImm d a imm => (d ++ a ++ imm)
  | .vstDImm d a imm => (d ++ a ++ imm)
  | .vstBIdx d a b => (d ++ a ++ b)
  | .vstHIdx d a b => (d ++ a ++ b)
  | .vstWIdx d a b => (d ++ a ++ b)
  | .vstDIdx d a b => (d ++ a ++ b)
  | .vldsW d a b => (d ++ a ++ b)
  | .vldsD d a b => (d ++ a ++ b)
  | .vstsW d a b => (d ++ a ++ b)
  | .vstsD d a b => (d ++ a ++ b)
  | .vldi d a b => (d ++ a ++ b)
  | .atomAdd d a b => (d ++ a ++ b)
  | .atomMinS d a b => (d ++ a ++ b)
  | .atomMaxS d a b => (d ++ a ++ b)
  | .atomMinU d a b => (d ++ a ++ b)
  | .atomMaxU d a b => (d ++ a ++ b)
  | .atomAnd d a b => (d ++ a ++ b)
  | .atomOr d a b => (d ++ a ++ b)
  | .atomExch d a b => (d ++ a ++ b)
  | .atomCas d a b => (d ++ a ++ b)
  | .atomMaxi d a b => (d ++ a ++ b)
  | .atomq d a b => (d ++ a ++ b)
  | .fenceWarp => (0#7 ++ 0#7 ++ 0#7)
  | .fenceBlock => (0#7 ++ 0#7 ++ 0#7)
  | .fenceGang => (0#7 ++ 0#7 ++ 0#7)
  | .fenceDie => (0#7 ++ 0#7 ++ 0#7)
  | .fenceDevice => (0#7 ++ 0#7 ++ 0#7)
  | .fenceSystem => (0#7 ++ 0#7 ++ 0#7)
  | .tfenceDie a b => (0#7 ++ a ++ b)
  | .tfenceDevice a b => (0#7 ++ a ++ b)
  | .tfenceSystem a b => (0#7 ++ a ++ b)
  | .qfence imm => (0#7 ++ imm)
  | .pref d a imm => (d ++ a ++ imm)
  | .copyG2s a => (0#7 ++ a ++ 0#7)
  | .copyS2g a => (0#7 ++ a ++ 0#7)
  | .copyG2g a => (0#7 ++ a ++ 0#7)
  | .copyIngot a => (0#7 ++ a ++ 0#7)
  | .copyHalo a => (0#7 ++ a ++ 0#7)
  | .copym a b => (0#7 ++ a ++ b)
  | .abarArrive d a => (d ++ a ++ 0#7)
  | .abarWait a b => (0#7 ++ a ++ b)
  | .stgaProd d a => (d ++ a ++ 0#7)
  | .stgaCons d a => (d ++ a ++ 0#7)
  | .stgrProd a b => (0#7 ++ a ++ b)
  | .stgrCons a b => (0#7 ++ a ++ b)
  | .mshp d a b => (d ++ a ++ b)
  | .mwin a b => (0#7 ++ a ++ b)
  | .mzero a => (0#7 ++ a ++ 0#7)
  | .mmaBf16 d a b => (d ++ a ++ b)
  | .mmaF16 d a b => (d ++ a ++ b)
  | .mmaE4m3 d a b => (d ++ a ++ b)
  | .mmaE5m2 d a b => (d ++ a ++ b)
  | .mmaT8 d a b => (d ++ a ++ b)
  | .mmaT6 d a b => (d ++ a ++ b)
  | .mmaxE2m1 d a b => (d ++ a ++ b)
  | .mmaxE4m3 d a b => (d ++ a ++ b)
  | .msca d a b => (d ++ a ++ b)
  | .maccRd d a => (d ++ a ++ 0#7)
  | .maccWr a b => (0#7 ++ a ++ b)
  | .mstaF32 a b => (0#7 ++ a ++ b)
  | .mstaBf16 a b => (0#7 ++ a ++ b)
  | .tlook d a b => (d ++ a ++ b)
  | .vldnS7 d a b => (d ++ a ++ b)
  | .vldnS19 d a b => (d ++ a ++ b)
  | .vldnB27 d a b => (d ++ a ++ b)
  | .vldnLine d a b => (d ++ a ++ b)
  | .vstv d a b => (d ++ a ++ b)
  | .tins d a b => (d ++ a ++ b)
  | .tactSet d a b => (d ++ a ++ b)
  | .tactClr d a b => (d ++ a ++ b)
  | .twalk d a b => (d ++ a ++ b)
  | .txb a imm => (0#7 ++ a ++ imm)
  | .txsL d a b => (d ++ a ++ b)
  | .txsG d a b => (d ++ a ++ b)
  | .cull d a b => (d ++ a ++ b)
  | .pexp d a b => (d ++ a ++ b)
  | .obld a b => (0#7 ++ a ++ b)
  | .oble a b => (0#7 ++ a ++ b)
  | .ksrtK32 a => (0#7 ++ a ++ 0#7)
  | .ksrtK64 a => (0#7 ++ a ++ 0#7)
  | .binc a => (0#7 ++ a ++ 0#7)
  | .vbrd d a b => (d ++ a ++ b)
  | .fork d a b => (d ++ a ++ b)
  | .fjoin a => (0#7 ++ a ++ 0#7)
  | .lnch d a b => (d ++ a ++ b)
  | .collRed a => (0#7 ++ a ++ 0#7)
  | .collGather a => (0#7 ++ a ++ 0#7)
  | .rld d a b => (d ++ a ++ b)
  | .rst d a b => (d ++ a ++ b)
  | .rred d a b => (d ++ a ++ b)
  | .missGroupMerge _ _ => 0
  | .scoreboardClear _ _ => 0
  | .exitDrainComplete _ => 0
  | .registerDrainComplete _ _ => 0
  | .taskStart _ => 0
  | .taskSteal _ => 0
  | .ladleOptionalSpill _ => 0
  | .ladleOptionalRefill _ => 0
  | .rgrowGrant _ _ => 0
  | .stageRingGrant _ _ => 0
  | .barhang _ _ => 0
  | .qfenceCompletion _ _ => 0
  | .mwinApply _ _ => 0
  | .weightCacheEntryGrant _ _ => 0
  | .obldGrant _ _ => 0
  | .abarWaitResume _ _ => 0
  | .fjoinReturn _ _ => 0
  | .mwaitReturn _ _ => 0
  | .yieldContinuation _ _ => 0
  | .waitPauseEnd _ _ => 0
  | .tinsLockRelease _ _ => 0
  | .pourPermitGrant _ => 0
  | .engineQueueEntry _ _ => 0
  | .riddleJobQueueEntry _ _ => 0
  | .copyPerform _ _ _ => 0
  | .ingotLoadState _ => 0
  | .bankRefresh _ => 0
  | .followOnMmaEntry _ _ => 0
  | .matrixOperationPerform _ _ => 0
  | .engineOperationCompletion _ _ => 0
  | .samplerFetchCompletion _ _ => 0
  | .deferredFaultDelivery _ _ => 0
  | .engineFaultDelivery _ => 0
  | .trapAction _ _ _ => 0
  | .mchk _ _ => 0
  | .junctionOvertemperature _ => 0
  | .dieReset _ _ => 0
  | .loadKey _ _ => 0
  | .clearKey _ => 0
  | .setPowerCap _ => 0
  | .attestationReport _ _ => 0
  | .firmwareLoad _ _ => 0
  | .holdAdmission _ => 0
  | .admission _ _ _ => 0
  | .blockMigration _ _ _ => 0
  | .launchCompletion _ => 0
  | .preEmptionRequest _ => 0
  | .preEmptionSaveComplete _ => 0
  | .resumption _ _ _ => 0
  | .killRequest _ => 0
  | .riddleJobCompletion _ => 0
  | .binRasterisation _ _ => 0
  | .collectiveRequest _ _ => 0
  | .collectiveResultCopy _ _ => 0
  | .haloLeafDelivery _ _ => 0
  | .write _ _ => 0
  | .readRequest _ _ => 0
  | .readResponse _ _ => 0
  | .atomic _ _ => 0
  | .atomicResponse _ _ => 0
  | .reduce _ _ => 0
  | .launch _ _ => 0
  | .stepCounterUpdate _ _ => 0
  | .ack _ _ => 0
  | .nack _ _ => 0
  | .retransmitTimeout _ _ _ => 0
  | .setState _ _ => 0
  | .enable _ _ => 0
  | .disable _ _ => 0
  | .assignQueue _ _ _ => 0
  | .grantIngotSegment _ _ _ => 0
  | .writePeerEntry _ _ _ _ => 0
  | .clearPeerEntry _ _ _ => 0
  | .removeHeldRecord _ _ _ => 0
  | .readErrorLog _ => 0
  | .invalidateTranslations _ _ _ _ => 0
  | .unusedOpcode w => w.extractLsb' 0 21
  | .bankRefreshEnd _ => 0
  | .admissionHoldRelease _ => 0
  | .setSystemAccessKey _ _ => 0

/-- A run of n vector registers from name f neither passes v127 nor holds both v7 and v8 (R225). -/
def vrunOk (f n : Nat) : Bool :=
  decide (f + n ≤ 128) && !(decide (f ≤ 7) && decide (8 < f + n))

/-- Whether a 7-bit field value is one its kind admits (R55, R95, R225, R336, R389). -/
def fieldOk (k : FieldKind) (v : BitVec 7) : Bool :=
  let f := v.toNat
  match k with
  | .res0 => decide (f = 0)
  | .imm => true
  | .max n => decide (f ≤ n)
  | .vsrc n => vrunOk f n
  | .vdst n => vrunOk f n
  | .vboth n => vrunOk f n
  | .vpsrc => decide (f % 2 = 0)
  | .vpdst => decide (f % 2 = 0)
  | .vpboth => decide (f % 2 = 0)
  | .ssrc => decide (f ≤ 76)
  | .sreg => decide (f < 64)
  | .sdst => decide (f < 64)
  | .sboth => decide (f < 64)
  | .srun n => decide (f % n = 0) && decide (f + n ≤ 64)
  | .srecw => decide (f % 4 = 0) && decide (f + 4 ≤ 64)
  | .kdst => decide (1 ≤ f) && decide (f ≤ 7)
  | .ksrc => decide (f ≤ 7)

/-- The values of imm14 that are reserved: FRAME with vo > vf, sf > 48 or so > sf (R66), QFENCE with a res0 bit or no
queue (R183), KSEL with a res0 bit or m = 0 (R88, R89). -/
def imm14Ok (op : Nat) (v : BitVec 14) : Bool :=
  let n := v.toNat
  if op = 0x013 then
    decide (n / 16 % 16 ≤ n % 16) && decide (n / 256 % 8 ≤ 6) && decide (n / 2048 % 8 ≤ n / 256 % 8)
  else if op = 0x1A9 then decide (n < 64) && decide (n ≠ 0)
  else if op = 0x003 then decide (n < 16) && decide (n % 8 ≠ 0)
  else true

/-- Whether the fields of a word with this opcode are ones its entry admits (R95). -/
def fieldsOk (op : Nat) (info : OpInfo) (f : BitVec 21) : Bool :=
  match info.fmt with
  | .A => fieldOk info.d (f.extractLsb' 14 7) && fieldOk info.a (f.extractLsb' 7 7) && fieldOk info.b (f.extractLsb' 0 7)
  | .I => fieldOk info.d (f.extractLsb' 14 7) && fieldOk info.a (f.extractLsb' 7 7) && fieldOk info.b (f.extractLsb' 0 7)
  | .J => fieldOk info.d (f.extractLsb' 14 7) && imm14Ok op (f.extractLsb' 0 14)
  | .B => true

end Sys2Proof
end

