-- ==== Sys2Proof/WellFormed.lean ====
section
/-! DEFINITION. The well-formedness of an instruction: every operand within its kind. -/

namespace Sys2Proof

/-- Whether the row has a word: the 288 opcodes, and the chain word of UNUSED_OPCODE. -/
def Instr.hasWord : Instr → Bool
  | .missGroupMerge _ _ => false
  | .scoreboardClear _ _ => false
  | .exitDrainComplete _ => false
  | .registerDrainComplete _ _ => false
  | .taskStart _ => false
  | .taskSteal _ => false
  | .ladleOptionalSpill _ => false
  | .ladleOptionalRefill _ => false
  | .rgrowGrant _ _ => false
  | .stageRingGrant _ _ => false
  | .barhang _ _ => false
  | .qfenceCompletion _ _ => false
  | .mwinApply _ _ => false
  | .weightCacheEntryGrant _ _ => false
  | .obldGrant _ _ => false
  | .abarWaitResume _ _ => false
  | .fjoinReturn _ _ => false
  | .mwaitReturn _ _ => false
  | .yieldContinuation _ _ => false
  | .waitPauseEnd _ _ => false
  | .tinsLockRelease _ _ => false
  | .pourPermitGrant _ => false
  | .engineQueueEntry _ _ => false
  | .riddleJobQueueEntry _ _ => false
  | .copyPerform _ _ _ => false
  | .ingotLoadState _ => false
  | .bankRefresh _ => false
  | .followOnMmaEntry _ _ => false
  | .matrixOperationPerform _ _ => false
  | .engineOperationCompletion _ _ => false
  | .samplerFetchCompletion _ _ => false
  | .deferredFaultDelivery _ _ => false
  | .engineFaultDelivery _ => false
  | .trapAction _ _ _ => false
  | .mchk _ _ => false
  | .junctionOvertemperature _ => false
  | .dieReset _ _ => false
  | .loadKey _ _ => false
  | .clearKey _ => false
  | .setPowerCap _ => false
  | .attestationReport _ _ => false
  | .firmwareLoad _ _ => false
  | .holdAdmission _ => false
  | .admission _ _ _ => false
  | .blockMigration _ _ _ => false
  | .launchCompletion _ => false
  | .preEmptionRequest _ => false
  | .preEmptionSaveComplete _ => false
  | .resumption _ _ _ => false
  | .killRequest _ => false
  | .riddleJobCompletion _ => false
  | .binRasterisation _ _ => false
  | .collectiveRequest _ _ => false
  | .collectiveResultCopy _ _ => false
  | .haloLeafDelivery _ _ => false
  | .write _ _ => false
  | .readRequest _ _ => false
  | .readResponse _ _ => false
  | .atomic _ _ => false
  | .atomicResponse _ _ => false
  | .reduce _ _ => false
  | .launch _ _ => false
  | .stepCounterUpdate _ _ => false
  | .ack _ _ => false
  | .nack _ _ => false
  | .retransmitTimeout _ _ _ => false
  | .setState _ _ => false
  | .enable _ _ => false
  | .disable _ _ => false
  | .assignQueue _ _ _ => false
  | .grantIngotSegment _ _ _ => false
  | .writePeerEntry _ _ _ _ => false
  | .clearPeerEntry _ _ _ => false
  | .removeHeldRecord _ _ _ => false
  | .readErrorLog _ => false
  | .invalidateTranslations _ _ _ _ => false
  | .bankRefreshEnd _ => false
  | .admissionHoldRelease _ => false
  | .setSystemAccessKey _ _ => false
  | _ => true

/-- The ranges of the operands of a wordless row: dies, cores, queues, entries and slots that exist (R2, R272, R327, R331). -/
def Instr.eventOk : Instr → Bool
  | .missGroupMerge _ e => decide (e < 4)
  | .scoreboardClear _ e => decide (e < 4)
  | .exitDrainComplete _ => true
  | .registerDrainComplete core quarter => decide (core < 1120) && decide (quarter < 4)
  | .taskStart _ => true
  | .taskSteal core => decide (core < 1120)
  | .ladleOptionalSpill _ => true
  | .ladleOptionalRefill _ => true
  | .rgrowGrant _ e => decide (e < 4)
  | .stageRingGrant _ e => decide (e < 4)
  | .barhang _ e => decide (e < 4)
  | .qfenceCompletion _ e => decide (e < 4)
  | .mwinApply _ e => decide (e < 4)
  | .weightCacheEntryGrant _ e => decide (e < 4)
  | .obldGrant _ e => decide (e < 4)
  | .abarWaitResume _ e => decide (e < 4)
  | .fjoinReturn _ e => decide (e < 4)
  | .mwaitReturn _ e => decide (e < 4)
  | .yieldContinuation _ e => decide (e < 4)
  | .waitPauseEnd _ e => decide (e < 4)
  | .tinsLockRelease _ e => decide (e < 4)
  | .pourPermitGrant _ => true
  | .engineQueueEntry _ e => decide (e < 4)
  | .riddleJobQueueEntry _ e => decide (e < 4)
  | .copyPerform core q _ => decide (core < 1120) && decide (q < 4)
  | .ingotLoadState die => decide (die < 4)
  | .bankRefresh die => decide (die < 4)
  | .followOnMmaEntry core q => decide (core < 1120) && decide (q < 4)
  | .matrixOperationPerform core mq => decide (core < 1120) && decide (mq < 2)
  | .engineOperationCompletion core eq => decide (core < 1120) && decide (eq < 6)
  | .samplerFetchCompletion _ e => decide (e < 4)
  | .deferredFaultDelivery _ e => decide (e < 4)
  | .engineFaultDelivery _ => true
  | .trapAction _ _ _ => true
  | .mchk die ctx => decide (die < 4) && decide (ctx < 64)
  | .junctionOvertemperature die => decide (die < 4)
  | .dieReset die _ => decide (die < 4)
  | .loadKey slot _ => decide (slot < 4096)
  | .clearKey slot => decide (slot < 4096)
  | .setPowerCap _ => true
  | .attestationReport die _ => decide (die < 4)
  | .firmwareLoad die _ => decide (die < 4)
  | .holdAdmission die => decide (die < 4)
  | .admission die core q0 => decide (die < 4) && decide (core < 1120) && decide (q0 < 4)
  | .blockMigration _ core q0 => decide (core < 1120) && decide (q0 < 4)
  | .launchCompletion _ => true
  | .preEmptionRequest _ => true
  | .preEmptionSaveComplete _ => true
  | .resumption _ core q0 => decide (core < 1120) && decide (q0 < 4)
  | .killRequest _ => true
  | .riddleJobCompletion die => decide (die < 4)
  | .binRasterisation die _ => decide (die < 4)
  | .collectiveRequest core q => decide (core < 1120) && decide (q < 4)
  | .collectiveResultCopy core q => decide (core < 1120) && decide (q < 4)
  | .haloLeafDelivery die _ => decide (die < 4)
  | .write die _ => decide (die < 4)
  | .readRequest die _ => decide (die < 4)
  | .readResponse die _ => decide (die < 4)
  | .atomic die _ => decide (die < 4)
  | .atomicResponse die _ => decide (die < 4)
  | .reduce die _ => decide (die < 4)
  | .launch die _ => decide (die < 4)
  | .stepCounterUpdate die _ => decide (die < 4)
  | .ack die _ => decide (die < 4)
  | .nack die _ => decide (die < 4)
  | .retransmitTimeout die _ _ => decide (die < 4)
  | .setState cmd st => decide (cmd.die < 4) && decide (st.ctx < 64)
  | .enable cmd ctx => decide (cmd.die < 4) && decide (ctx < 64)
  | .disable cmd ctx => decide (cmd.die < 4) && decide (ctx < 64)
  | .assignQueue cmd ctx queue => decide (cmd.die < 4) && decide (ctx < 64) && decide (queue < 64)
  | .grantIngotSegment cmd ctx seg => decide (cmd.die < 4) && decide (ctx < 64) && decide (seg < 256)
  | .writePeerEntry cmd ctx idx _ => decide (cmd.die < 4) && decide (ctx < 64) && decide (idx < 256)
  | .clearPeerEntry cmd ctx idx => decide (cmd.die < 4) && decide (ctx < 64) && decide (idx < 256)
  | .removeHeldRecord cmd ctx _ => decide (cmd.die < 4) && decide (ctx < 64)
  | .readErrorLog cmd => decide (cmd.die < 4)
  | .invalidateTranslations cmd ctx _ _ => decide (cmd.die < 4) && decide (ctx < 64)
  | .unusedOpcode _ => true
  | .bankRefreshEnd die => decide (die < 4)
  | .admissionHoldRelease die => decide (die < 4)
  | .setSystemAccessKey die _ => decide (die < 4)
  | _ => true

/-- The map's entry of an instruction that has an opcode of the map. -/
def Instr.info (i : Instr) : Option OpInfo := opInfo i.opcode

/-- An instruction is well formed when it has a word whose fields its entry admits, or when it is a wordless row whose
operands name things that exist. The word of UNUSED_OPCODE is one whose opcode is not in the map (R86). -/
def Instr.wf (i : Instr) : Bool :=
  match i with
  | .unusedOpcode w => (opInfo (w.toNat / 2097152)).isNone
  | _ =>
    if i.hasWord then
      match i.info with
      | some info => fieldsOk i.opcode info i.fields
      | none => false
    else i.eventOk

end Sys2Proof
end

