-- ==== Sys2Proof/Decode.lean ====
section
/-! DEFINITION. Decoding of instruction words (R85, R86, R95), total on any word and rejecting by name, and the encoder
written from the same tables.

Some definitions are marked noncomputable for one reason only: Lean's compiler builds no code that makes a constructor
beyond the 244th of an inductive. The kernel evaluates them like any other definition. -/

namespace Sys2Proof

/-- Why a word does not decode; each is ILLOP when the chain is decoded (R55, R86, R95). -/
inductive DecodeError where
  /-- fewer than four bytes -/
  | short
  /-- a field is reserved and not zero, names no register of its kind, or holds a reserved immediate (R55, R95) -/
  | badField (op : Nat)
deriving DecidableEq, Repr

/-- n bits of a bit string from bit lo. -/
def bits {w : Nat} (x : BitVec w) (lo n : Nat) : BitVec n := x.extractLsb' lo n

/-- The instruction of class 0x00 with this minor opcode and these fields; fields that are res0 are dropped here and
checked by `fieldsOk`. -/
def ctor0 (minor : Nat) (f : BitVec 21) : Option Instr :=
  match minor with
  | 1 => some (.nop)
  | 2 => some (.ximm f)
  | 3 => some (.ksel (bits f 3 1) (bits f 0 3))
  | 4 => some (.bra f)
  | 5 => some (.bscZ (bits f 14 7) (bits f 0 14))
  | 6 => some (.bscNz (bits f 14 7) (bits f 0 14))
  | 7 => some (.brvT (bits f 14 7) (bits f 0 14))
  | 8 => some (.brvF (bits f 14 7) (bits f 0 14))
  | 9 => some (.conv)
  | 10 => some (.exit)
  | 11 => some (.yield f)
  | 12 => some (.wait (bits f 0 14))
  | 13 => some (.mwait (bits f 7 7) (bits f 0 7))
  | 14 => some (.idem)
  | 15 => some (.bar (bits f 0 7))
  | 16 => some (.call f)
  | 17 => some (.calli (bits f 7 7))
  | 18 => some (.ret)
  | 19 => some (.frame (bits f 0 14))
  | 20 => some (.wbase (bits f 7 7))
  | 21 => some (.rgrow (bits f 14 7))
  | 22 => some (.rshrink (bits f 14 7))
  | 23 => some (.barg (bits f 0 7))
  | 24 => some (.lclk (bits f 14 7) (bits f 7 7))
  | 25 => some (.trap (bits f 0 14))
  | 26 => some (.eret (bits f 7 7) (bits f 0 7))
  | 27 => some (.brkp (bits f 0 14))
  | 28 => some (.ctlr (bits f 14 7) (bits f 0 7))
  | 29 => some (.ctlw (bits f 7 7) (bits f 0 7))
  | _ => none

/-- The instruction of class 0x01 with this minor opcode and these fields; fields that are res0 are dropped here and
checked by `fieldsOk`. -/
def ctor1 (minor : Nat) (f : BitVec 21) : Option Instr :=
  match minor with
  | 0 => some (.sadd (bits f 14 7) (bits f 7 7) (bits f 0 7))
  | 1 => some (.saddImm (bits f 14 7) (bits f 7 7) (bits f 0 7))
  | 2 => some (.ssub (bits f 14 7) (bits f 7 7) (bits f 0 7))
  | 3 => some (.smul (bits f 14 7) (bits f 7 7) (bits f 0 7))
  | 4 => some (.smulhS (bits f 14 7) (bits f 7 7) (bits f 0 7))
  | 5 => some (.smulhU (bits f 14 7) (bits f 7 7) (bits f 0 7))
  | 6 => some (.sand (bits f 14 7) (bits f 7 7) (bits f 0 7))
  | 7 => some (.sor (bits f 14 7) (bits f 7 7) (bits f 0 7))
  | 8 => some (.sxor (bits f 14 7) (bits f 7 7) (bits f 0 7))
  | 9 => some (.sshl (bits f 14 7) (bits f 7 7) (bits f 0 7))
  | 10 => some (.sshlImm (bits f 14 7) (bits f 7 7) (bits f 0 7))
  | 11 => some (.sshr (bits f 14 7) (bits f 7 7) (bits f 0 7))
  | 12 => some (.sshrImm (bits f 14 7) (bits f 7 7) (bits f 0 7))
  | 13 => some (.ssra (bits f 14 7) (bits f 7 7) (bits f 0 7))
  | 14 => some (.ssraImm (bits f 14 7) (bits f 7 7) (bits f 0 7))
  | 15 => some (.sminS (bits f 14 7) (bits f 7 7) (bits f 0 7))
  | 16 => some (.sminU (bits f 14 7) (bits f 7 7) (bits f 0 7))
  | 17 => some (.smaxS (bits f 14 7) (bits f 7 7) (bits f 0 7))
  | 18 => some (.smaxU (bits f 14 7) (bits f 7 7) (bits f 0 7))
  | 19 => some (.scmpEq (bits f 14 7) (bits f 7 7) (bits f 0 7))
  | 20 => some (.scmpNe (bits f 14 7) (bits f 7 7) (bits f 0 7))
  | 21 => some (.scmpLt (bits f 14 7) (bits f 7 7) (bits f 0 7))
  | 22 => some (.scmpLe (bits f 14 7) (bits f 7 7) (bits f 0 7))
  | 23 => some (.scmpLtu (bits f 14 7) (bits f 7 7) (bits f 0 7))
  | 24 => some (.scmpLeu (bits f 14 7) (bits f 7 7) (bits f 0 7))
  | 25 => some (.ssel (bits f 14 7) (bits f 7 7) (bits f 0 7))
  | 26 => some (.smov (bits f 14 7) (bits f 7 7))
  | 27 => some (.sli (bits f 14 7) (bits f 0 14))
  | 28 => some (.sadr (bits f 14 7) (bits f 0 14))
  | 29 => some (.spopc (bits f 14 7) (bits f 7 7))
  | 30 => some (.sclz (bits f 14 7) (bits f 7 7))
  | 31 => some (.sldB (bits f 14 7) (bits f 7 7) (bits f 0 7))
  | 32 => some (.sldH (bits f 14 7) (bits f 7 7) (bits f 0 7))
  | 33 => some (.sldW (bits f 14 7) (bits f 7 7) (bits f 0 7))
  | 34 => some (.sldD (bits f 14 7) (bits f 7 7) (bits f 0 7))
  | 35 => some (.sstB (bits f 14 7) (bits f 7 7) (bits f 0 7))
  | 36 => some (.sstH (bits f 14 7) (bits f 7 7) (bits f 0 7))
  | 37 => some (.sstW (bits f 14 7) (bits f 7 7) (bits f 0 7))
  | 38 => some (.sstD (bits f 14 7) (bits f 7 7) (bits f 0 7))
  | _ => none

/-- The instruction of class 0x02 with this minor opcode and these fields; fields that are res0 are dropped here and
checked by `fieldsOk`. -/
def ctor2 (minor : Nat) (f : BitVec 21) : Option Instr :=
  match minor with
  | 0 => some (.vadd (bits f 14 7) (bits f 7 7) (bits f 0 7))
  | 1 => some (.vaddSat (bits f 14 7) (bits f 7 7) (bits f 0 7))
  | 2 => some (.vsub (bits f 14 7) (bits f 7 7) (bits f 0 7))
  | 3 => some (.vsubSat (bits f 14 7) (bits f 7 7) (bits f 0 7))
  | 4 => some (.vmulLo (bits f 14 7) (bits f 7 7) (bits f 0 7))
  | 5 => some (.vmulHiS (bits f 14 7) (bits f 7 7) (bits f 0 7))
  | 6 => some (.vmulHiU (bits f 14 7) (bits f 7 7) (bits f 0 7))
  | 7 => some (.vmad (bits f 14 7) (bits f 7 7) (bits f 0 7))
  | 8 => some (.vand (bits f 14 7) (bits f 7 7) (bits f 0 7))
  | 9 => some (.vor (bits f 14 7) (bits f 7 7) (bits f 0 7))
  | 10 => some (.vxor (bits f 14 7) (bits f 7 7) (bits f 0 7))
  | 11 => some (.vshl (bits f 14 7) (bits f 7 7) (bits f 0 7))
  | 12 => some (.vshr (bits f 14 7) (bits f 7 7) (bits f 0 7))
  | 13 => some (.vsra (bits f 14 7) (bits f 7 7) (bits f 0 7))
  | 14 => some (.vminS (bits f 14 7) (bits f 7 7) (bits f 0 7))
  | 15 => some (.vminU (bits f 14 7) (bits f 7 7) (bits f 0 7))
  | 16 => some (.vmaxS (bits f 14 7) (bits f 7 7) (bits f 0 7))
  | 17 => some (.vmaxU (bits f 14 7) (bits f 7 7) (bits f 0 7))
  | 18 => some (.vcmpEq (bits f 14 7) (bits f 7 7) (bits f 0 7))
  | 19 => some (.vcmpNe (bits f 14 7) (bits f 7 7) (bits f 0 7))
  | 20 => some (.vcmpLt (bits f 14 7) (bits f 7 7) (bits f 0 7))
  | 21 => some (.vcmpLe (bits f 14 7) (bits f 7 7) (bits f 0 7))
  | 22 => some (.vcmpLtu (bits f 14 7) (bits f 7 7) (bits f 0 7))
  | 23 => some (.vcmpLeu (bits f 14 7) (bits f 7 7) (bits f 0 7))
  | 24 => some (.vsel (bits f 14 7) (bits f 7 7) (bits f 0 7))
  | 25 => some (.vmov (bits f 14 7) (bits f 7 7))
  | 26 => some (.vmovBc (bits f 14 7) (bits f 7 7))
  | 27 => some (.vmovRd (bits f 14 7) (bits f 7 7) (bits f 0 7))
  | 28 => some (.vpopc (bits f 14 7) (bits f 7 7))
  | 29 => some (.vclz (bits f 14 7) (bits f 7 7))
  | 30 => some (.vbfeS (bits f 14 7) (bits f 7 7) (bits f 0 7))
  | 31 => some (.vbfeU (bits f 14 7) (bits f 7 7) (bits f 0 7))
  | 32 => some (.vbfi (bits f 14 7) (bits f 7 7) (bits f 0 7))
  | _ => none

/-- The instruction of class 0x03 with this minor opcode and these fields; fields that are res0 are dropped here and
checked by `fieldsOk`. -/
def ctor3 (minor : Nat) (f : BitVec 21) : Option Instr :=
  match minor with
  | 0 => some (.fadd (bits f 14 7) (bits f 7 7) (bits f 0 7))
  | 1 => some (.faddRn (bits f 14 7) (bits f 7 7) (bits f 0 7))
  | 2 => some (.faddRz (bits f 14 7) (bits f 7 7) (bits f 0 7))
  | 3 => some (.fsub (bits f 14 7) (bits f 7 7) (bits f 0 7))
  | 4 => some (.fsubRn (bits f 14 7) (bits f 7 7) (bits f 0 7))
  | 5 => some (.fsubRz (bits f 14 7) (bits f 7 7) (bits f 0 7))
  | 6 => some (.fmul (bits f 14 7) (bits f 7 7) (bits f 0 7))
  | 7 => some (.fmulRn (bits f 14 7) (bits f 7 7) (bits f 0 7))
  | 8 => some (.fmulRz (bits f 14 7) (bits f 7 7) (bits f 0 7))
  | 9 => some (.ffma (bits f 14 7) (bits f 7 7) (bits f 0 7))
  | 10 => some (.ffmaRn (bits f 14 7) (bits f 7 7) (bits f 0 7))
  | 11 => some (.ffmaRz (bits f 14 7) (bits f 7 7) (bits f 0 7))
  | 12 => some (.fmin (bits f 14 7) (bits f 7 7) (bits f 0 7))
  | 13 => some (.fmax (bits f 14 7) (bits f 7 7) (bits f 0 7))
  | 14 => some (.fcmpEq (bits f 14 7) (bits f 7 7) (bits f 0 7))
  | 15 => some (.fcmpNe (bits f 14 7) (bits f 7 7) (bits f 0 7))
  | 16 => some (.fcmpLt (bits f 14 7) (bits f 7 7) (bits f 0 7))
  | 17 => some (.fcmpLe (bits f 14 7) (bits f 7 7) (bits f 0 7))
  | 18 => some (.fcmpUn (bits f 14 7) (bits f 7 7) (bits f 0 7))
  | 19 => some (.fcmpOrd (bits f 14 7) (bits f 7 7) (bits f 0 7))
  | 20 => some (.frcp (bits f 14 7) (bits f 7 7))
  | 21 => some (.frsq (bits f 14 7) (bits f 7 7))
  | 22 => some (.fsqrt (bits f 14 7) (bits f 7 7))
  | 23 => some (.fdiv (bits f 14 7) (bits f 7 7) (bits f 0 7))
  | 24 => some (.fexp2 (bits f 14 7) (bits f 7 7))
  | 25 => some (.flog2 (bits f 14 7) (bits f 7 7))
  | 26 => some (.fsin (bits f 14 7) (bits f 7 7))
  | 27 => some (.fcos (bits f 14 7) (bits f 7 7))
  | _ => none

/-- The instruction of class 0x04 with this minor opcode and these fields; fields that are res0 are dropped here and
checked by `fieldsOk`. -/
def ctor4 (minor : Nat) (f : BitVec 21) : Option Instr :=
  match minor with
  | 0 => some (.fcvtF32F16 (bits f 14 7) (bits f 7 7))
  | 1 => some (.fcvtF32Bf16 (bits f 14 7) (bits f 7 7))
  | 2 => some (.fcvtF16F32 (bits f 14 7) (bits f 7 7))
  | 3 => some (.fcvtBf16F32 (bits f 14 7) (bits f 7 7))
  | 4 => some (.fcvtF32E4m3 (bits f 14 7) (bits f 7 7))
  | 5 => some (.fcvtF32E5m2 (bits f 14 7) (bits f 7 7))
  | 6 => some (.fcvtE4m3F32Sat (bits f 14 7) (bits f 7 7))
  | 7 => some (.fcvtE4m3F32 (bits f 14 7) (bits f 7 7))
  | 8 => some (.fcvtE5m2F32Sat (bits f 14 7) (bits f 7 7))
  | 9 => some (.fcvtE5m2F32 (bits f 14 7) (bits f 7 7))
  | 10 => some (.fcvtF32T8 (bits f 14 7) (bits f 7 7))
  | 11 => some (.fcvtT8F32 (bits f 14 7) (bits f 7 7))
  | 12 => some (.fcvtF32T6 (bits f 14 7) (bits f 7 7))
  | 13 => some (.fcvtT6F32 (bits f 14 7) (bits f 7 7))
  | 14 => some (.fcvtF32E2m1 (bits f 14 7) (bits f 7 7))
  | 15 => some (.fcvtE2m1F32 (bits f 14 7) (bits f 7 7))
  | 16 => some (.fcvtF32Int (bits f 14 7) (bits f 7 7))
  | 17 => some (.fcvtF32Uint (bits f 14 7) (bits f 7 7))
  | 18 => some (.fcvtIntF32 (bits f 14 7) (bits f 7 7))
  | 19 => some (.fcvtUintF32 (bits f 14 7) (bits f 7 7))
  | 20 => some (.fcvtF64F32 (bits f 14 7) (bits f 7 7))
  | 21 => some (.fcvtF32F64 (bits f 14 7) (bits f 7 7))
  | 22 => some (.fcvtF64Int (bits f 14 7) (bits f 7 7))
  | 23 => some (.fcvtIntF64 (bits f 14 7) (bits f 7 7))
  | 24 => some (.hadd2F16 (bits f 14 7) (bits f 7 7) (bits f 0 7))
  | 25 => some (.hadd2Bf16 (bits f 14 7) (bits f 7 7) (bits f 0 7))
  | 26 => some (.hmul2F16 (bits f 14 7) (bits f 7 7) (bits f 0 7))
  | 27 => some (.hmul2Bf16 (bits f 14 7) (bits f 7 7) (bits f 0 7))
  | 28 => some (.hfma2F16 (bits f 14 7) (bits f 7 7) (bits f 0 7))
  | 29 => some (.hfma2Bf16 (bits f 14 7) (bits f 7 7) (bits f 0 7))
  | 30 => some (.dadd (bits f 14 7) (bits f 7 7) (bits f 0 7))
  | 31 => some (.dmul (bits f 14 7) (bits f 7 7) (bits f 0 7))
  | 32 => some (.dfma (bits f 14 7) (bits f 7 7) (bits f 0 7))
  | 33 => some (.ddiv (bits f 14 7) (bits f 7 7) (bits f 0 7))
  | 34 => some (.dsqrt (bits f 14 7) (bits f 7 7))
  | 35 => some (.dcmpEq (bits f 14 7) (bits f 7 7) (bits f 0 7))
  | 36 => some (.dcmpLt (bits f 14 7) (bits f 7 7) (bits f 0 7))
  | 37 => some (.dcmpLe (bits f 14 7) (bits f 7 7) (bits f 0 7))
  | 38 => some (.dcmpUn (bits f 14 7) (bits f 7 7) (bits f 0 7))
  | _ => none

/-- The instruction of class 0x05 with this minor opcode and these fields; fields that are res0 are dropped here and
checked by `fieldsOk`. -/
def ctor5 (minor : Nat) (f : BitVec 21) : Option Instr :=
  match minor with
  | 0 => some (.qswz (bits f 14 7) (bits f 7 7) (bits f 0 7))
  | 1 => some (.qddxFine (bits f 14 7) (bits f 7 7))
  | 2 => some (.qddxCoarse (bits f 14 7) (bits f 7 7))
  | 3 => some (.qddyFine (bits f 14 7) (bits f 7 7))
  | 4 => some (.qddyCoarse (bits f 14 7) (bits f 7 7))
  | 5 => some (.xshfIdx (bits f 14 7) (bits f 7 7) (bits f 0 7))
  | 6 => some (.xshfUp (bits f 14 7) (bits f 7 7) (bits f 0 7))
  | 7 => some (.xshfDown (bits f 14 7) (bits f 7 7) (bits f 0 7))
  | 8 => some (.xshfXor (bits f 14 7) (bits f 7 7) (bits f 0 7))
  | 9 => some (.xbal (bits f 14 7) (bits f 7 7))
  | 10 => some (.xredAddInt (bits f 14 7) (bits f 7 7))
  | 11 => some (.xredAddF32 (bits f 14 7) (bits f 7 7))
  | 12 => some (.xredMinF32 (bits f 14 7) (bits f 7 7))
  | 13 => some (.xredMaxF32 (bits f 14 7) (bits f 7 7))
  | 14 => some (.xredAnd (bits f 14 7) (bits f 7 7))
  | 15 => some (.xredOr (bits f 14 7) (bits f 7 7))
  | 16 => some (.xscanAddInt (bits f 14 7) (bits f 7 7))
  | 17 => some (.xscanAddF32 (bits f 14 7) (bits f 7 7))
  | 18 => some (.xmaxiF16 (bits f 14 7) (bits f 7 7) (bits f 0 7))
  | 19 => some (.xmaxiF32 (bits f 14 7) (bits f 7 7) (bits f 0 7))
  | _ => none

/-- The instruction of class 0x06 with this minor opcode and these fields; fields that are res0 are dropped here and
checked by `fieldsOk`. -/
def ctor6 (minor : Nat) (f : BitVec 21) : Option Instr :=
  match minor with
  | 0 => some (.vldBImm (bits f 14 7) (bits f 7 7) (bits f 0 7))
  | 1 => some (.vldHImm (bits f 14 7) (bits f 7 7) (bits f 0 7))
  | 2 => some (.vldWImm (bits f 14 7) (bits f 7 7) (bits f 0 7))
  | 3 => some (.vldDImm (bits f 14 7) (bits f 7 7) (bits f 0 7))
  | 4 => some (.vldBIdx (bits f 14 7) (bits f 7 7) (bits f 0 7))
  | 5 => some (.vldHIdx (bits f 14 7) (bits f 7 7) (bits f 0 7))
  | 6 => some (.vldWIdx (bits f 14 7) (bits f 7 7) (bits f 0 7))
  | 7 => some (.vldDIdx (bits f 14 7) (bits f 7 7) (bits f 0 7))
  | 8 => some (.vstBImm (bits f 14 7) (bits f 7 7) (bits f 0 7))
  | 9 => some (.vstHImm (bits f 14 7) (bits f 7 7) (bits f 0 7))
  | 10 => some (.vstWImm (bits f 14 7) (bits f 7 7) (bits f 0 7))
  | 11 => some (.vstDImm (bits f 14 7) (bits f 7 7) (bits f 0 7))
  | 12 => some (.vstBIdx (bits f 14 7) (bits f 7 7) (bits f 0 7))
  | 13 => some (.vstHIdx (bits f 14 7) (bits f 7 7) (bits f 0 7))
  | 14 => some (.vstWIdx (bits f 14 7) (bits f 7 7) (bits f 0 7))
  | 15 => some (.vstDIdx (bits f 14 7) (bits f 7 7) (bits f 0 7))
  | 16 => some (.vldsW (bits f 14 7) (bits f 7 7) (bits f 0 7))
  | 17 => some (.vldsD (bits f 14 7) (bits f 7 7) (bits f 0 7))
  | 18 => some (.vstsW (bits f 14 7) (bits f 7 7) (bits f 0 7))
  | 19 => some (.vstsD (bits f 14 7) (bits f 7 7) (bits f 0 7))
  | 20 => some (.vldi (bits f 14 7) (bits f 7 7) (bits f 0 7))
  | 21 => some (.atomAdd (bits f 14 7) (bits f 7 7) (bits f 0 7))
  | 22 => some (.atomMinS (bits f 14 7) (bits f 7 7) (bits f 0 7))
  | 23 => some (.atomMaxS (bits f 14 7) (bits f 7 7) (bits f 0 7))
  | 24 => some (.atomMinU (bits f 14 7) (bits f 7 7) (bits f 0 7))
  | 25 => some (.atomMaxU (bits f 14 7) (bits f 7 7) (bits f 0 7))
  | 26 => some (.atomAnd (bits f 14 7) (bits f 7 7) (bits f 0 7))
  | 27 => some (.atomOr (bits f 14 7) (bits f 7 7) (bits f 0 7))
  | 28 => some (.atomExch (bits f 14 7) (bits f 7 7) (bits f 0 7))
  | 29 => some (.atomCas (bits f 14 7) (bits f 7 7) (bits f 0 7))
  | 30 => some (.atomMaxi (bits f 14 7) (bits f 7 7) (bits f 0 7))
  | 31 => some (.atomq (bits f 14 7) (bits f 7 7) (bits f 0 7))
  | 32 => some (.fenceWarp)
  | 33 => some (.fenceBlock)
  | 34 => some (.fenceGang)
  | 35 => some (.fenceDie)
  | 36 => some (.fenceDevice)
  | 37 => some (.fenceSystem)
  | 38 => some (.tfenceDie (bits f 7 7) (bits f 0 7))
  | 39 => some (.tfenceDevice (bits f 7 7) (bits f 0 7))
  | 40 => some (.tfenceSystem (bits f 7 7) (bits f 0 7))
  | 41 => some (.qfence (bits f 0 14))
  | 42 => some (.pref (bits f 14 7) (bits f 7 7) (bits f 0 7))
  | _ => none

/-- The instruction of class 0x07 with this minor opcode and these fields; fields that are res0 are dropped here and
checked by `fieldsOk`. -/
def ctor7 (minor : Nat) (f : BitVec 21) : Option Instr :=
  match minor with
  | 0 => some (.copyG2s (bits f 7 7))
  | 1 => some (.copyS2g (bits f 7 7))
  | 2 => some (.copyG2g (bits f 7 7))
  | 3 => some (.copyIngot (bits f 7 7))
  | 4 => some (.copyHalo (bits f 7 7))
  | 5 => some (.copym (bits f 7 7) (bits f 0 7))
  | 6 => some (.abarArrive (bits f 14 7) (bits f 7 7))
  | 7 => some (.abarWait (bits f 7 7) (bits f 0 7))
  | 8 => some (.stgaProd (bits f 14 7) (bits f 7 7))
  | 9 => some (.stgaCons (bits f 14 7) (bits f 7 7))
  | 10 => some (.stgrProd (bits f 7 7) (bits f 0 7))
  | 11 => some (.stgrCons (bits f 7 7) (bits f 0 7))
  | _ => none

/-- The instruction of class 0x08 with this minor opcode and these fields; fields that are res0 are dropped here and
checked by `fieldsOk`. -/
noncomputable def ctor8 (minor : Nat) (f : BitVec 21) : Option Instr :=
  match minor with
  | 0 => some (.mshp (bits f 14 7) (bits f 7 7) (bits f 0 7))
  | 1 => some (.mwin (bits f 7 7) (bits f 0 7))
  | 2 => some (.mzero (bits f 7 7))
  | 3 => some (.mmaBf16 (bits f 14 7) (bits f 7 7) (bits f 0 7))
  | 4 => some (.mmaF16 (bits f 14 7) (bits f 7 7) (bits f 0 7))
  | 5 => some (.mmaE4m3 (bits f 14 7) (bits f 7 7) (bits f 0 7))
  | 6 => some (.mmaE5m2 (bits f 14 7) (bits f 7 7) (bits f 0 7))
  | 7 => some (.mmaT8 (bits f 14 7) (bits f 7 7) (bits f 0 7))
  | 8 => some (.mmaT6 (bits f 14 7) (bits f 7 7) (bits f 0 7))
  | 9 => some (.mmaxE2m1 (bits f 14 7) (bits f 7 7) (bits f 0 7))
  | 10 => some (.mmaxE4m3 (bits f 14 7) (bits f 7 7) (bits f 0 7))
  | 11 => some (.msca (bits f 14 7) (bits f 7 7) (bits f 0 7))
  | 12 => some (.maccRd (bits f 14 7) (bits f 7 7))
  | 13 => some (.maccWr (bits f 7 7) (bits f 0 7))
  | 14 => some (.mstaF32 (bits f 7 7) (bits f 0 7))
  | 15 => some (.mstaBf16 (bits f 7 7) (bits f 0 7))
  | _ => none

/-- The instruction of class 0x09 with this minor opcode and these fields; fields that are res0 are dropped here and
checked by `fieldsOk`. -/
noncomputable def ctor9 (minor : Nat) (f : BitVec 21) : Option Instr :=
  match minor with
  | 0 => some (.tlook (bits f 14 7) (bits f 7 7) (bits f 0 7))
  | 1 => some (.vldnS7 (bits f 14 7) (bits f 7 7) (bits f 0 7))
  | 2 => some (.vldnS19 (bits f 14 7) (bits f 7 7) (bits f 0 7))
  | 3 => some (.vldnB27 (bits f 14 7) (bits f 7 7) (bits f 0 7))
  | 4 => some (.vldnLine (bits f 14 7) (bits f 7 7) (bits f 0 7))
  | 5 => some (.vstv (bits f 14 7) (bits f 7 7) (bits f 0 7))
  | 6 => some (.tins (bits f 14 7) (bits f 7 7) (bits f 0 7))
  | 7 => some (.tactSet (bits f 14 7) (bits f 7 7) (bits f 0 7))
  | 8 => some (.tactClr (bits f 14 7) (bits f 7 7) (bits f 0 7))
  | 9 => some (.twalk (bits f 14 7) (bits f 7 7) (bits f 0 7))
  | _ => none

/-- The instruction of class 0x0A with this minor opcode and these fields; fields that are res0 are dropped here and
checked by `fieldsOk`. -/
noncomputable def ctorA (minor : Nat) (f : BitVec 21) : Option Instr :=
  match minor with
  | 0 => some (.txb (bits f 7 7) (bits f 0 7))
  | 1 => some (.txsL (bits f 14 7) (bits f 7 7) (bits f 0 7))
  | 2 => some (.txsG (bits f 14 7) (bits f 7 7) (bits f 0 7))
  | 3 => some (.cull (bits f 14 7) (bits f 7 7) (bits f 0 7))
  | 4 => some (.pexp (bits f 14 7) (bits f 7 7) (bits f 0 7))
  | 5 => some (.obld (bits f 7 7) (bits f 0 7))
  | 6 => some (.oble (bits f 7 7) (bits f 0 7))
  | 7 => some (.ksrtK32 (bits f 7 7))
  | 8 => some (.ksrtK64 (bits f 7 7))
  | 9 => some (.binc (bits f 7 7))
  | 10 => some (.vbrd (bits f 14 7) (bits f 7 7) (bits f 0 7))
  | _ => none

/-- The instruction of class 0x0B with this minor opcode and these fields; fields that are res0 are dropped here and
checked by `fieldsOk`. -/
noncomputable def ctorB (minor : Nat) (f : BitVec 21) : Option Instr :=
  match minor with
  | 0 => some (.fork (bits f 14 7) (bits f 7 7) (bits f 0 7))
  | 1 => some (.fjoin (bits f 7 7))
  | 2 => some (.lnch (bits f 14 7) (bits f 7 7) (bits f 0 7))
  | 3 => some (.collRed (bits f 7 7))
  | 4 => some (.collGather (bits f 7 7))
  | 5 => some (.rld (bits f 14 7) (bits f 7 7) (bits f 0 7))
  | 6 => some (.rst (bits f 14 7) (bits f 7 7) (bits f 0 7))
  | 7 => some (.rred (bits f 14 7) (bits f 7 7) (bits f 0 7))
  | _ => none

/-- The instruction that an opcode of the map names, with its fields (R86). -/
noncomputable def ctorOf (op : Nat) (f : BitVec 21) : Option Instr :=
  match op / 64 with
  | 0 => ctor0 (op % 64) f
  | 1 => ctor1 (op % 64) f
  | 2 => ctor2 (op % 64) f
  | 3 => ctor3 (op % 64) f
  | 4 => ctor4 (op % 64) f
  | 5 => ctor5 (op % 64) f
  | 6 => ctor6 (op % 64) f
  | 7 => ctor7 (op % 64) f
  | 8 => ctor8 (op % 64) f
  | 9 => ctor9 (op % 64) f
  | 10 => ctorA (op % 64) f
  | 11 => ctorB (op % 64) f
  | _ => none

/-- The opcode of a word, bits [31:21] (R85). -/
def opOf (w : Word) : Nat := (bits w 21 11).toNat

/-- The instruction that one word names. A word whose opcode is not in the map is the UNUSED_OPCODE row (R86); a word
whose fields its entry does not admit is refused (R95). -/
noncomputable def decodeWord (w : Word) : Except DecodeError Instr :=
  match opInfo (opOf w), ctorOf (opOf w) (bits w 0 21) with
  | some info, some i => if fieldsOk (opOf w) info (bits w 0 21) then .ok i else .error (.badField (opOf w))
  | _, _ => .ok (.unusedOpcode w)

/-- Four bytes in storage order as a little-endian word (R8). -/
def wordOfBytes (b0 b1 b2 b3 : Byte) : Word := b3 ++ b2 ++ b1 ++ b0

/-- Decoding of bytes in storage order: the first word's instruction and the bytes that follow it. -/
noncomputable def decode (bs : List Byte) : Except DecodeError (Instr × List Byte) :=
  match bs with
  | b0 :: b1 :: b2 :: b3 :: rest => (decodeWord (wordOfBytes b0 b1 b2 b3)).map (fun i => (i, rest))
  | _ => .error .short

/-- The word of an instruction: its opcode in bits [31:21] and its fields (R85). -/
def encode (i : Instr) : Word := BitVec.ofNat 11 i.opcode ++ i.fields

/-- The bytes of an instruction's word in storage order (R8). -/
def encodeBytes (i : Instr) : List Byte :=
  let w := encode i
  [bits w 0 8, bits w 8 8, bits w 16 8, bits w 24 8]

/-- The four bytes, lowest address first, of a word numbered as spec/opcode_table.json numbers it. -/
def bytesOfTableWord (w : Nat) : List Byte :=
  [BitVec.ofNat 8 w, BitVec.ofNat 8 (w / 256), BitVec.ofNat 8 (w / 65536), BitVec.ofNat 8 (w / 16777216)]

/-- The instruction that the decoder reads from an instruction of nbits bits whose bits are w; every row of the table is
one word of 32 bits (R7). -/
noncomputable def decodeTableWord (nbits w : Nat) : Option Instr :=
  match decode (bytesOfTableWord (w % 2 ^ nbits)) with
  | .ok (i, _) => some i
  | .error _ => none

end Sys2Proof
end

