-- ==== Sys2Proof/Config.lean ====
section
/-! DEFINITION. What the device fixes (R2, R146, R155, R296) and the values the spec leaves open, which are constants
without a body: no proof can see what they are. Each is named in the assumption log. -/

namespace Sys2Proof.Config

/-- Counts of R2: dies, clusters per die, cores per cluster, quarters per core, warp slots per quarter. -/
def dies : Nat := 4
def clustersPerDie : Nat := 35
def coresPerCluster : Nat := 8
def coresPerDie : Nat := 280
def slotsPerQuarter : Nat := 12
/-- Registers of a quarter that admission may allot: 1,024 less the trap reserve of 16 (R60). -/
def allottable : Nat := 1008
/-- Entries of each copy queue (R352) and matrix queue (R201), of a Riddle job queue (R346), of a task deque (R48), of a
launch queue (R272) and of a cluster's weight cache (R249). -/
def queueDepth : Nat := 16
def jobDepth : Nat := 64
def dequeDepth : Nat := 256
def launchDepth : Nat := 32
def weightEntries : Nat := 64
/-- TLB entries of a cluster (R160) and leaf-pointer cache entries (R223). -/
def tlbEntries : Nat := 4096
def leafEntries : Nat := 1024
/-- The largest block scratch (R146) and the accumulator rows of a core (R192). -/
def maxScratch : Nat := 294912
def accRows : Nat := 512
/-- The ageing bound's 64 clocks (R284). -/
def ageLimit : Nat := 64
/-- The calendar's period and the refresh of one bank (R154). -/
def calPeriod : Nat := 44800
def bankPeriod : Nat := 2800
def bankRefresh : Nat := 700

/-- DESIGN CHOICE, unsafe (log entry 1): what a byte of HBM, of the second tier or of the Ingot store that nothing has
written reads as; the spec gives no value. -/
def memInit : Byte := 0

/-- Free values (log entry 10): which two of m partial sums XRED.add.f32 or XSCAN.add.f32 adds next outside
deterministic mode, at draw n (R405, R406). -/
opaque sumPick (n m : Nat) : Nat × Nat

/-- Free values (log entry 11): which of the 16 differing entries of a 64 KiB page an access to
virtual address va uses, at draw n (R157). -/
opaque pageEntry (n va : Nat) : BitVec 4

/-- Free values (log entry 12): byte k of the 64-byte record that binning writes for a primitive (R260); the spec gives
the record no layout. -/
opaque binRecordByte (id : DWord) (bin k : Nat) : Byte

/-- Free values (log entry 13): whether a sample is covered, and with which depth, by a triangle exported with code 0
that CULL would cull (R260). -/
opaque badCover (id : DWord) (x y s : Nat) : Option Word

/-- Free values (log entry 66): the exponent byte of element k of a coded chunk whose bits spell no code of its table (R326). -/
opaque codedExponent (codes k : Nat) : Nat

/-- What a helper lane receives from a voxel that it does not read (R226): the spec gives no value; the n-th draw (log entry
70). -/
opaque helperVoxel (n : Nat) : BitVec 64

/-- Free values (log entry 14): the 32 random bytes that go into a signature at draw n (R332). -/
opaque signRandom (n : Nat) : BitVec 256

end Sys2Proof.Config
end

