-- ==== Sys2Proof/Machine/State.lean ====
section
/-! DEFINITION. The state of the package as plain data: everything the spec gives the machine, the state after reset,
and the reasons for which a step stops. -/

namespace Sys2Proof.Machine

open Sys2Proof

/-- Trap causes (R285). -/
inductive Cause where
  | illop | regname | align | page | prot | tagmis | detatom | role | shape | accwin | barhang | stacklim | fpx | brkp
  | sys | mchk
deriving DecidableEq, Repr

/-- What is known of a trap when it is found: the contents of R288's record before it is laid out. -/
structure TrapInfo where
  cause : Cause
  sub : Nat
  /-- spill fault (R74), copy fault, matrix fault (R289) -/
  spill : Bool
  copyF : Bool
  matF : Bool
  /-- operand log valid and its entries (R292) -/
  logN : Nat
  /-- lowest lane recorded under R143, the lanes that met the condition and their addresses -/
  lane : Nat
  met : Mask
  addrs : List (Nat × DWord)
  /-- code of TRAP or BRKP, or the flags of FPX -/
  imm : BitVec 14
  /-- fault address (s3) -/
  addr : DWord
  fpc : Va
  rpc : Va
  /-- the chain after fpc, where act 1 of R294 resumes -/
  after : Va
  word : Word
  /-- an engine operation's fault (s4 carries the opcode once more) -/
  engine : Bool
  /-- vector registers from the one that d names that a logged VLDN may still write (R225, R292); 0 for the others -/
  run : Nat
deriving DecidableEq, Repr

/-- The trap record of R288, with the chain after fpc for act 1 of R294. -/
structure TrapRec where
  after : Va
  s0 : DWord
  s1 : DWord
  s2 : DWord
  s3 : DWord
  s4 : DWord
  s5 : DWord
  v0 : Vec
  v1 : Vec
  v2 : Vec
deriving DecidableEq, Repr

/-- A mask-stack entry (R27). -/
structure StackRec where
  saved : Mask
  pending : Mask
  ppc : Va
  done : Bool
deriving DecidableEq, Repr

/-- An open idempotent region (R297): start, mask, logical clock before IDEM, and the chains of the strand counted
towards the clock since it opened (R301). -/
structure Region where
  start : Va
  mask : Mask
  lclk0 : DWord
  ran : Nat
deriving DecidableEq, Repr

/-- A value that came back for an access of kind host or for an RLD lane (R321, R385). -/
structure HostResp where
  /-- 0 read, 1 atomic, 2 RLD lane, 3 write -/
  kind : Nat
  addr : DWord
  n : Nat
  val : BitVec 128
  /-- cause number and subcode of a nack -/
  bad : Option (Nat × Nat)
deriving DecidableEq, Repr

/-- An access of kind host, or an RLD lane, whose message has been sent (R321, R385). -/
structure HostReq where
  kind : Nat
  addr : DWord
  n : Nat
  conn : BitVec 32
  psn : BitVec 32
  peer : BitVec 128
deriving DecidableEq, Repr

/-- TLB and cached pointer entries (R160). -/
structure TlbEntry where
  asid : BitVec 16
  base : Nat
  size : Nat
  leaf : DWord
deriving DecidableEq, Repr
structure PtrEntry where
  asid : BitVec 16
  lv : Nat
  tag : Nat
  table : Nat
  key : Nat
deriving DecidableEq, Repr

/-- A translation: the leaf, the physical address, the page's size as an exponent, and for one that walked the place
and key of the leaf entry with the pointers read on the way. -/
structure Trans where
  leaf : DWord
  pa : Nat
  size : Nat
  entry : Option (Nat × Nat)
  ptrs : List PtrEntry
deriving DecidableEq, Repr

/-- An operand-log entry (R292), and a memory instruction in flight (R291): the instruction word, its prefixes, its chain
address, the values of its source registers and masks at issue, the messages it has sent with their answers (R321), the
translations its accesses use (R189), and whether its chain has retired and been counted already (R307). -/
structure LogEntry where
  word : Word
  ks : Option (BitVec 1 × BitVec 3)
  xs : List (BitVec 21)
  chain : Va
  pc : Va
  mask : Mask
  vvals : List (Nat × Vec)
  svals : List (Nat × DWord)
  kvals : List (Nat × Mask)
  run : Nat
  reqs : List HostReq
  resp : List HostResp
  memo : List (Nat × Trans)
  counted : Bool
deriving DecidableEq, Repr

/-- Where an instruction that runs comes from: the chain at its strand's PC, the operand log (R294, R302), or the memory
instructions in flight (R291). -/
inductive Source where
  | chain | log | flight
deriving DecidableEq, Repr

/-- What a strand in state 3, or at a wait point, waits for. -/
inductive WaitKind where
  /-- a pending accumulator row (R22, R203) -/
  | board
  /-- the loads of a miss strand (R28) -/
  | load
  /-- a wait point of a miss group (R29, R30) -/
  | miss
  /-- a pour permit (R215) -/
  | permit
  | rgrow | ring | qfence | mwin | weight | obld | abar | fjoin | mwait | yield | pause | tins | engineQueue | riddle
  /-- a TXS whose samples are on their way (R253, R254) -/
  | sample
  | bar | barg | ret
  /-- an atomic on own scratch awaiting its key (R310) -/
  | atomKey
  /-- PEXP held by a flush or by a draw stopped at a fault (R261, R378) -/
  | flush
  /-- messages of an access of kind host or of an RLD (R321, R385) -/
  | host
  /-- earlier engine operations that write or read a ring slot (R44) -/
  | slot
  /-- memory instructions of the strand in flight that stand before this chain: the scoreboard, the ninth of them, or a trap
  that they come before (R22, R291); for a window instruction those of the warp's other strands (R62) -/
  | flights
  /-- words of the next chain, or the block of the strand's reserve, in host memory (R82, R92, R321) -/
  | fetch
  /-- accesses that use translations which a TFENCE drops (R188) -/
  | tfence
deriving DecidableEq, Repr

/-- How far a TINS on nodes in host memory has come (R231): its descriptor, the lanes it still inserts for, the first of them
under way, and what it has found for the others (status, nodes allocated, leaf); for the lane under way the level, the node,
the nodes allocated, the step of R231's loop, the address of the node that it allocates and whether the slot held a tile;
whether it waits for another inserter's lock. -/
structure Insert where
  desc : BitVec 1024
  lanes : List Nat
  out : List (Nat × Nat × Nat × Nat)
  lv : Nat
  node : Nat
  cnt : Nat
  phase : Nat
  new : Nat
  tile : Option Nat
  blocked : Bool
deriving DecidableEq, Repr

/-- A waiting instruction (R22, R54, R296): its chain, when the wait began, its arrival number, the pause's end (R408),
and the messages it has sent and had answered. -/
structure Wait where
  kind : WaitKind
  word : Word
  ks : Option (BitVec 1 × BitVec 3)
  xs : List (BitVec 21)
  chain : Va
  pc : Va
  since : Nat
  seq : Nat
  until_ : Nat
  /-- the operands of a log entry (R294), or those of a memory instruction at its issue (R292) -/
  replay : Option LogEntry
  src : Source
  reqs : List HostReq
  resp : List HostResp
  memo : List (Nat × Trans)
  ins : Option Insert
deriving DecidableEq, Repr

/-- Strand states and kinds (R20). -/
inductive SState where
  | ready | joining | parked | stalled
deriving DecidableEq, Repr
inductive SKind where
  | root | arm | miss
deriving DecidableEq, Repr

/-- A split-table entry that holds a strand (R20), with its mask stack (R27), region (R297), log and pending deferred
fault (R292). -/
structure Strand where
  mask : Mask
  pc : Va
  st : SState
  kind : SKind
  group : Nat
  /-- for a miss strand, the kind and group that its entry takes again at the merge (R29) -/
  outer : SKind × Nat
  stack : List StackRec
  spilledRecs : Nat
  wait : Option Wait
  /-- the state to return to and the depth of the call that parked it (R34) -/
  parkSt : SState
  parkDepth : Nat
  region : Option Region
  /-- memory instructions that have issued and whose accesses are not all performed, in program order (R291) -/
  flight : List LogEntry
  log : List LogEntry
  fault : Option TrapInfo
  /-- chains run since the miss group split (R307) -/
  ran : Nat
  /-- clocks since it last became ready or issued; none for one that is no candidate, or has just issued (R284) -/
  waited : Option Nat
  /-- the strand was woken by a transfer: R93's check is due at its PC -/
  jumped : Bool
  /-- the strand has a pour permit for its next chain (R215) -/
  permit : Bool
  /-- a miss strand at the lowest PC of a group whose strands wait at different PCs may issue on its own (R30) -/
  alone : Bool
deriving DecidableEq, Repr

/-- A caller frame record (R67). `ahead` holds the registers, as bytes of its block, of a frame that the Ladle has refilled
before its RET: they reach their ring slots at the RET, so that no slot depends on when the Ladle moves data (R71, R74). -/
structure FrameRec where
  retpc : Va
  vf : Nat
  vo : Nat
  sf : Nat
  so : Nat
  dv : Nat
  ds : Nat
  kdepth : Nat
  callentry : Nat
  callkind : Nat
  callgroup : Nat
  ahead : Option (List Byte)
deriving DecidableEq, Repr

/-- A handler in progress (R288, R424): the entry of the trapped strand, the handler's own strand, and the record it
received. `inReserve` says whether its registers stand in the quarter's reserve or in a type 1 block, and `spillNo` numbers
that block among the spilled ones (R82); `kbase` counts the mask-stack records of its entry that the strands it interrupted
have spilled (R27, R72). -/
structure Handler where
  entry : Nat
  strand : Strand
  trec : TrapRec
  cause : Nat
  nested : Bool
  inReserve : Bool
  spillNo : Nat
  kbase : Nat
deriving DecidableEq, Repr

/-- An engine fault awaiting delivery (R289). -/
structure EngFault where
  entry : Nat
  info : TrapInfo
  order : Nat
deriving DecidableEq, Repr

/-- The life of a warp (R47, R83, R360). -/
inductive WPhase where
  | running | exiting | freeTask | gone
deriving DecidableEq, Repr

/-- A warp with all its registers. -/
structure Warp where
  blk : Nat
  /-- sr.warp, quarter, warp slot of the quarter, role code of sr.role (R16, R19, R40) -/
  idx : Nat
  quarter : Nat
  slot : Nat
  role : Nat
  phase : WPhase
  base : Nat
  ext : Bool
  /-- vector registers: keys 0 to 7 are v0 to v7, key 8 + i is ring slot i (R59, R64) -/
  vregs : List (Nat × Vec)
  /-- scalar registers: keys 0 to 15 are s0 to s15, key 16 + i is ring slot i -/
  sregs : List (Nat × DWord)
  kregs : List (Nat × Mask)
  vb : Nat
  sb : Nat
  vf : Nat
  vo : Nat
  sf : Nat
  so : Nat
  callers : List FrameRec
  spilled : Nat
  fpm : BitVec 10
  fst : BitVec 6
  det : Bool
  accb : BitVec 9
  accl : BitVec 10
  spb : DWord
  flen : Word
  sptr : Word
  mprog : BitVec 19
  trapv : DWord
  barlim : Word
  lclk : DWord
  /-- lanes that are live or helpers and have not exited; helper lanes (R17, R26, R36) -/
  lanes : Mask
  helpers : Mask
  /-- the four split-table entries (R20) -/
  strands : List (Option Strand)
  handlers : List Handler
  stopped : Option TrapRec
  /-- the strand that a stopped warp's record concerns, and whether it stands in handler code -/
  stopEntry : Nat
  engFaults : List EngFault
  /-- join counter of the task it runs (R49) -/
  task : Option DWord
  /-- the reserve of its handler while its block is pre-empted (R301, R303) -/
  resv : Option (List (Nat × Vec) × List (Nat × DWord))
deriving DecidableEq, Repr

/-- A bound sampler slot (R247, R249). -/
structure TexSlot where
  asid : BitVec 16
  addr : DWord
  table : BitVec 9216
  installed : Bool
deriving DecidableEq, Repr

/-- A matrix operation's snapshot (R203): opcode, row descriptor and the two records of four words. -/
structure MatOp where
  op : Nat
  desc : DWord
  arec : List DWord
  brec : List DWord
deriving DecidableEq, Repr

/-- One message of an RST or RRED: lane, remote address, data; what was sent and whether it is acknowledged (R386). -/
structure RemLane where
  lane : Nat
  addr : DWord
  data : DWord
  sent : Option HostReq
  acked : Bool
deriving DecidableEq, Repr

/-- An engine operation (R182, R201, R349, R351, R355, R386). -/
inductive EngKind where
  /-- COPY: variant 0 g2s, 1 s2g, 2 g2g, 3 ingot, 4 halo; words 0 and 1 -/
  | copy (variant : Nat) (w0 w1 : DWord) (opt : Nat)
  | copym (w0 w1 : DWord) (mat : MatOp)
  | coll (gather : Bool) (tile cnt seq : Nat) (abar grp : DWord)
  | rem (reduce : Bool) (op : Nat) (pkg : BitVec 16) (die : BitVec 2) (ctx : BitVec 6) (fence : Bool) (q : Nat)
      (lanes : List RemLane)
  | mat (m : MatOp)
deriving DecidableEq, Repr

/-- A queued engine operation. `pos` counts bytes, leaves or groups done; `stage` counts the steps of a COPYM (1 copy landed,
2 follow-on entered) or COLL (1 requested, 2 result copied, 3 requested, its block having been resumed since); `desc` holds the
descriptors read when it began to be performed, and for a compressed surface the mode byte of a tile whose data is written. -/
structure EngOp where
  id : Nat
  warp : Nat
  entry : Nat
  blk : Nat
  /-- its chain, and the chain after it -/
  chain : Va
  after : Va
  word : Word
  kind : EngKind
  len : Nat
  held : Bool
  tag : DWord
  pos : Nat
  stage : Nat
  desc : List Byte
  /-- bytes of a copy that have been read and not yet written (R189) -/
  buf : List Byte
  permit : Bool
  /-- all its accesses have been performed; it awaits completion (R182) -/
  performed : Bool
  /-- stopped at a fault and awaiting replay (R212, R354) -/
  stopped : Bool
  /-- for a follow-on MMA, the COPYM it belongs to -/
  parent : Option Nat
  resp : List HostResp
  reqs : List HostReq
deriving DecidableEq, Repr

/-- A task record (R48). -/
structure Task where
  entry : Va
  args : List DWord
  counter : DWord
  launch : Nat
deriving DecidableEq, Repr

/-- Where a block stands (R300). -/
inductive Resid where
  | resident | saving | saved | gone
deriving DecidableEq, Repr

/-- A block (R14, R16, R145, R192, R247). -/
structure Block where
  launch : Nat
  /-- sr.block, coordinates, gang rank and gang index (R19, R235, R270) -/
  idx : Nat
  bx : DWord
  by_ : DWord
  bz : DWord
  leafo : DWord
  leafp : DWord
  /-- die × 280 + cluster × 8 + core (R19) -/
  core : Nat
  q0 : Nat
  resid : Resid
  gran : Nat
  ngran : Nat
  warps : List Nat
  scratch : List (Nat × Byte)
  acc : List (Nat × Word)
  slots : List (Nat × TexSlot)
  /-- engine operations with their queues, and deque records, while the block is pre-empted (R54, R303) -/
  savedOps : List (Nat × EngOp)
  tasks : List Task
deriving DecidableEq, Repr

/-- The life of a launch record (R273, R280, R281, R304). -/
inductive LPhase where
  | queued | running | done | refused | killed
deriving DecidableEq, Repr

/-- A leaf found by enumeration (R234): Morton key, origin and pointer. -/
structure EnumLeaf where
  key : Nat
  lx : Nat
  ly : Nat
  lz : Nat
  ptr : DWord
deriving DecidableEq, Repr

/-- An accepted launch record and its progress (R269, R272, R274). -/
structure Launch where
  record : Vec
  ctx : Nat
  die : Nat
  queue : Nat
  held : Bool
  gx : Nat
  phase : LPhase
  /-- next block to place and, once admitted, the number of blocks -/
  next : Nat
  total : Nat
  admitted : Option Nat
  args : List DWord
  /-- the coverage bitmap as read at admission (R36, R270) -/
  cover : List Byte
  leaves : List EnumLeaf
  status : Nat
  /-- order of acceptance (R275), and the launch unit's accesses of kind host -/
  order : Nat
  reqs : List HostReq
  resp : List HostResp
deriving DecidableEq, Repr

/-- A line of an L1 with the memory tags of its four granules (R148). -/
structure L1Line where
  asid : BitVec 16
  vline : Nat
  pline : Nat
  key : BitVec 12
  leaf : DWord
  way : Nat
  tags : BitVec 16
  data : Vec
  dirty : BitVec 128
deriving DecidableEq, Repr

/-- Leaf-pointer cache entries (R223). -/
structure LeafEntry where
  asid : BitVec 16
  desc : Nat
  lx : Nat
  ly : Nat
  lz : Nat
  ptr : DWord
  head : BitVec 256
deriving DecidableEq, Repr

/-- A core (R2): scratch partition, L1, queues, task deque, service reservation. -/
structure Core where
  part : Nat
  l1 : List L1Line
  cq : List (List EngOp)
  mq : List (List EngOp)
  deque : List Task
  svc : Option Nat
deriving DecidableEq, Repr

/-- A quarter (R60, R82, R83, R284): the trap reserve with its owner, the owners of spilled reserves (latest first),
idle counts of the classes S V D M A, and draining registers with the warps that held them. -/
structure Quarter where
  owner : Option Nat
  rv : List (Nat × Vec)
  rs : List (Nat × DWord)
  spilledOwners : List Nat
  /-- idle counts of the classes S, V, D, M, A, and the class that has issued on this clock (R284) -/
  idle : List Nat
  issued : Option Nat
  draining : List (Nat × Nat)
deriving DecidableEq, Repr

/-- A cluster's translation unit and walker cache (R160, R223). -/
structure Cluster where
  tlb : List TlbEntry
  ptrs : List PtrEntry
  leafs : List LeafEntry
deriving DecidableEq, Repr

/-- A context of a die (R327, R328). -/
structure Ctx where
  enabled : Bool
  asid : BitVec 16
  root : BitVec 52
  rootkey : BitVec 12
  akey : DWord
  /-- host peer address and connection (R321, R327) -/
  host : BitVec 128
  hconn : BitVec 32
  save : DWord
  ingot : List Nat
  peers : List (Nat × PeerEntry)
deriving DecidableEq, Repr

/-- Receiving and sending sides of a connection and class (R319). -/
structure RxConn where
  conn : BitVec 32
  cls : BitVec 2
  src : BitVec 128
  next : BitVec 32
  /-- one past the highest psn that has arrived, early ones among them -/
  high : BitVec 32
  stored : List Msg
deriving DecidableEq, Repr
structure TxConn where
  conn : BitVec 32
  cls : BitVec 2
  peer : BitVec 128
  next : BitVec 32
  unacked : List Msg
deriving DecidableEq, Repr

/-- A queued Riddle job (R266): kind 0 KSRT.k32, 1 KSRT.k64, 2 BINC. -/
structure Job where
  ctx : Nat
  addr : DWord
  kind : Nat
  warp : Nat
  core : Nat
  reqs : List HostReq
  resp : List HostResp
  /-- address and value of the status word that is still to be written -/
  fin : Option (DWord × DWord)
deriving DecidableEq, Repr

/-- An exported primitive (R258, R260, R378): identifier, the nine coordinate words, its bins still to rasterise, the
number of its records, whether it has covered a sample, whether CULL's code for it is 0, whether its own code rejects it,
whether it has been counted as exported and its records are written, and the PEXP that exported it. -/
structure Prim where
  id : DWord
  verts : List Word
  bins : List (Nat × Nat)
  recs : Nat
  covered : Bool
  good : Bool
  culled : Bool
  counted : Bool
  binned : Bool
  warp : Nat
  entry : Nat
  chain : Va
  after : Va
  word : Word
deriving DecidableEq, Repr

/-- A draw in progress (R256, R261): its descriptor as read, its primitives, the bytes used of the binned-geometry buffer,
whether it is being flushed, and the warp and order of the fault at which it is stopped (R378). -/
structure Draw where
  ctx : Nat
  desc : DWord
  bytes : BitVec 512
  launch : Nat
  prims : List Prim
  used : Nat
  flushing : Bool
  stopped : Option (Nat × Nat)
  reqs : List HostReq
  resp : List HostResp
deriving DecidableEq, Repr

/-- A message of kind host that no strand awaits: a piece of the reserve spilled for a warp (R82), or of the update of its
task's join counter (R49); with the launch and context that its failure concerns. -/
structure Post where
  spill : Bool
  warp : Nat
  launch : Nat
  ctx : Nat
  req : HostReq
deriving DecidableEq, Repr

/-- A delivery in the hands of the receiving Runner (R238, R321): how far it has come, the insertion of its leaf where that goes
access by access, the leaf's address, the counter that it has read, and how often the counter may still advance; what it has
asked of host memory, and the answers. -/
structure HaloJob where
  leaf : HaloLeaf
  stage : Nat
  ins : Option Insert
  ptr : Nat
  ctr : Nat
  turns : Nat
  reqs : List HostReq
  resp : List HostResp
deriving DecidableEq, Repr

/-- A die (R2, R272, R327, R332). -/
structure Die where
  /-- address of the die's fabric endpoint (R320, R328) -/
  endpoint : BitVec 128
  queues : List (List Nat)
  /-- the queue of each priority class that was served last (R274) -/
  lastServed : List Nat
  qctx : List (Nat × Nat)
  holdAdm : Bool
  ctxs : List (Nat × Ctx)
  sysKey : DWord
  errLog : List (Nat × DWord)
  ingot : List (Nat × Byte)
  ingotLoad : Bool
  loader : Option Nat
  calBase : Nat
  inReset : Bool
  meas : List (BitVec 512)
  fwVersion : Nat
  rollback : Nat
  fuse : BitVec 512
  /-- the die's identity key (R332), and the firmware image that it boots from -/
  identity : List Byte
  image : Option Image
  jobs : List Job
  draws : List Draw
  rx : List RxConn
  tx : List TxConn
  /-- messages dropped, by port (R314, R316) -/
  dropped : List (Nat × Nat)
  fabTlb : List TlbEntry
  fabPtrs : List PtrEntry
  /-- context commands that wait for accesses to end: sender, connection and psn with those accesses (R188, R330) -/
  cmdWaits : List ((BitVec 128 × BitVec 32 × BitVec 32) × List HostReq)
  /-- the Runner's deliveries: held for their receive record, or under way (R238) -/
  halos : List HaloJob
  /-- messages that have been accepted and await an earlier one of their connection (R320), in the order of their arrival -/
  waiting : List Msg
  posts : List Post
deriving DecidableEq, Repr

/-- A report to the management plane or to system software (R290, R314, R329, R332). -/
inductive Report where
  | mchk (die ctx : Nat)
  | trap (warp : Nat) (trec : TrapRec)
  | attest (die : Nat) (meas : List (BitVec 512)) (version : Nat) (nonce : BitVec 512) (signature : List Byte)
  | errLog (die : Nat) (entries : List (Nat × DWord))
deriving DecidableEq, Repr

/-- The next thing to happen: an event row, the issue of a strand's chain (with leave to split on a partial miss, R28),
the delivery of a message that stays in the package, another try of a waiting instruction, the accesses of a memory
instruction in flight (R291), a line or entry that a cache drops (R148, R160, R223), or clocks that pass. -/
inductive Act where
  | ev (i : Instr)
  | issue (w e : Nat) (split : Bool)
  | retry (w e : Nat)
  | land (w e : Nat)
  | deliver (die : Nat) (m : Msg)
  | evictLine (core n : Nat)
  | dropTlb (cluster n : Nat)
  | dropPtr (cluster n : Nat)
  | dropLeaf (cluster n : Nat)
  | tick (n : Nat)
deriving DecidableEq, Repr

/-- The chain being issued (R84, R89) and what its meaning has settled: the next PC, whether the meaning moved the PC
itself, and how often the logical clock counts it (R307). `replay` holds the operands that a log entry, or a memory
instruction that has waited or is in flight, had at its issue (R292). -/
structure Issue where
  live : Bool
  warp : Nat
  entry : Nat
  chain : Va
  pc : Va
  word : Word
  ks : Option (BitVec 1 × BitVec 3)
  xs : List (BitVec 21)
  next : Va
  moved : Bool
  count : Nat
  replay : Option LogEntry
  src : Source
  split : Bool
  /-- messages already sent for it, their answers, the translations it uses, and how far a TINS has come -/
  sent : List HostReq
  resp : List HostResp
  memo : List (Nat × Trans)
  ins : Option Insert
deriving DecidableEq, Repr

/-- Package-wide registers and what has left the package. -/
structure Sys where
  powerCap : Nat
  pkg : BitVec 16
  outbox : List Msg
  reports : List Report
deriving DecidableEq, Repr

/-- The whole machine. -/
structure State where
  mem : List Host.Cell
  lineKeys : List (Nat × BitVec 512)
  tags : List (Nat × BitVec 4)
  keySlots : List (Nat × BitVec 512)
  sys : Sys
  dies : List Die
  clusters : List (Nat × Cluster)
  cores : List (Nat × Core)
  quarters : List (Nat × Quarter)
  launches : List Launch
  blocks : List Block
  warps : List Warp
  agenda : List Act
  issue : Issue
  clock : Nat
  freeCtr : Nat
  seq : Nat
deriving DecidableEq, Repr

/-- Why a step stops with a fault. -/
inductive Fault where
  /-- An instruction word is executed in a state in which no strand issues it: raised by exec for a word when
  State.issue names no valid strand. No step raises it. Safe: the machine stops. -/
  | noStrand
deriving DecidableEq, Repr

/-- Why the model gives no meaning. -/
inductive Refusal where
  /-- The instruction has no meaning in this model yet. Safe: the machine stops. -/
  | notModelled (mnemonic : String)
deriving DecidableEq, Repr

/-- No chain is being issued. -/
def Issue.idle : Issue :=
  { live := false, warp := 0, entry := 0, chain := 0, pc := 0, word := 0, ks := none, xs := [], next := 0, moved := false,
    count := 0, replay := none, src := .chain, split := false, sent := [], resp := [], memo := [], ins := none }

/-- A core that holds no block (R146). -/
def Core.empty : Core := { part := 0, l1 := [], cq := [[], [], [], []], mq := [[], []], deque := [], svc := none }

/-- A quarter that holds no warp. -/
def Quarter.empty : Quarter :=
  { owner := none, rv := [], rs := [], spilledOwners := [], idle := [0, 0, 0, 0, 0], issued := none, draining := [] }

/-- A cluster with nothing cached. -/
def Cluster.empty : Cluster := { tlb := [], ptrs := [], leafs := [] }

/-- A context that has not been configured (R335). -/
def Ctx.empty : Ctx :=
  { enabled := false, asid := 0, root := 0, rootkey := 0, akey := 0, host := 0, hconn := 0, save := 0, ingot := [], peers := [] }

/-- A die after die reset, its firmware accepted (R332, R335): queues empty, contexts disabled, calendar at phase 0. -/
def Die.reset : Die :=
  { endpoint := 0, queues := List.replicate 64 [], lastServed := [15, 31, 47, 63], qctx := [], holdAdm := false, ctxs := [],
    sysKey := 0, errLog := [], ingot := [], ingotLoad := false, loader := none, calBase := 0, inReset := false,
    meas := List.replicate 8 0, fwVersion := 0, rollback := 0, fuse := 0,
    identity := [], image := none, jobs := [], draws := [], rx := [], tx := [],
    dropped := [], fabTlb := [], fabPtrs := [], cmdWaits := [], halos := [], waiting := [], posts := [] }

/-- The package right after reset: steps 1 and 2 of R335 are done, no key is loaded, no context is enabled, no launch
has arrived. The values the spec does not give are those of log entries 1 to 5. -/
def State.reset : State :=
  { mem := [], lineKeys := [], tags := [], keySlots := [],
    sys := { powerCap := 3600, pkg := 0, outbox := [], reports := [] },
    dies := (List.range 4).map (fun d => { Die.reset with endpoint := BitVec.ofNat 128 d }),
    clusters := [], cores := [], quarters := [], launches := [], blocks := [], warps := [], agenda := [], issue := Issue.idle, clock := 0, freeCtr := 0, seq := 0 }

end Sys2Proof.Machine
end

