-- ==== Sys2Proof/Machine/Bits.lean ====
section
/-! DEFINITION. Bit fields, lanes, integers (R117), sorted association lists and byte lists: the helpers that every
other file of the machine uses. -/

namespace Sys2Proof.Machine

open Sys2Proof

/-- Bits [lo+n-1:lo] of a number. -/
def field (x lo n : Nat) : Nat := x / 2 ^ lo % 2 ^ n

/-- Bits [lo+n-1:lo] of a bit string, as a number. -/
def fieldOf {w : Nat} (x : BitVec w) (lo n : Nat) : Nat := field x.toNat lo n

/-- A bit string of n bits read as a signed integer (R117). -/
def sext (n x : Nat) : Int := if x % 2 ^ n < 2 ^ (n - 1) then (x % 2 ^ n : Nat) else (x % 2 ^ n : Nat) - (2 ^ n : Nat)

/-- An integer reduced to n bits (R118). -/
def wrap (n : Nat) (x : Int) : Nat := (x % (2 ^ n : Nat)).toNat

/-- An integer clamped to the range of a signed n-bit integer (R118). -/
def clampS (n : Nat) (x : Int) : Int := max (-(2 ^ (n - 1) : Nat)) (min ((2 ^ (n - 1) : Nat) - 1) x)

/-- Number of one bits among the low n bits. -/
def popCount (n x : Nat) : Nat := (List.range n).foldl (fun c i => c + x / 2 ^ i % 2) 0

/-- Leading zero bits of an n-bit value; n when it is zero. -/
def leadZeros (n x : Nat) : Nat := if x % 2 ^ n = 0 then n else n - 1 - Nat.log2 (x % 2 ^ n)

/-- The mask of the lanes below n for which p holds. -/
def maskUpto (p : Nat → Bool) : Nat → Mask
  | 0 => 0
  | n + 1 => if p n then maskUpto p n ||| BitVec.ofNat 32 (2 ^ n) else maskUpto p n

/-- The mask of the lanes for which p holds. -/
def maskOf (p : Nat → Bool) : Mask := maskUpto p 32

/-- The lanes of a mask in ascending order. -/
def lanesOf (m : Mask) : List Nat := (List.range 32).filter (fun l => m.getLsbD l)

/-- Lane l of a vector register (R13). -/
def laneOf (v : Vec) (l : Nat) : Word := v.extractLsb' (32 * l) 32

/-- The vector whose lanes below n are f of the lane. -/
def vecUpto (f : Nat → Word) : Nat → Vec
  | 0 => 0
  | n + 1 => vecUpto f n ||| ((f n).setWidth 1024 <<< (32 * n))

/-- The vector whose lane l is f l. -/
def vecOf (f : Nat → Word) : Vec := vecUpto f 32

/-- The vector that has f l in the lanes of m and keeps v elsewhere. -/
def vecMerge (m : Mask) (f : Nat → Word) (v : Vec) : Vec := vecOf (fun l => if m.getLsbD l then f l else laneOf v l)

/-- A vector with lane l replaced. -/
def setLane (v : Vec) (l : Nat) (x : Word) : Vec := vecOf (fun i => if i = l then x else laneOf v i)

/-- The 64-bit value of a lane of a vector pair: low word in the even register (R120). -/
def pairOf (lo hi : Vec) (l : Nat) : DWord := laneOf hi l ++ laneOf lo l

/-- Low and high words of a doubleword. -/
def lowWord (d : DWord) : Word := d.extractLsb' 0 32
def highWord (d : DWord) : Word := d.extractLsb' 32 32

/-- Lookup in an association list. -/
def alGet {α : Type} (l : List (Nat × α)) (k : Nat) : Option α :=
  match l with
  | [] => none
  | (j, v) :: r => if j = k then some v else alGet r k

/-- Insertion into an association list kept in rising order of keys. -/
def alSet {α : Type} (l : List (Nat × α)) (k : Nat) (v : α) : List (Nat × α) :=
  match l with
  | [] => [(k, v)]
  | (j, u) :: r => if k < j then (k, v) :: (j, u) :: r else if j = k then (k, v) :: r else (j, u) :: alSet r k v

/-- Removal from an association list. -/
def alErase {α : Type} (l : List (Nat × α)) (k : Nat) : List (Nat × α) := l.filter (fun e => e.1 ≠ k)

/-- The word of n bytes in little-endian order (R8). -/
def ofBytes (bs : List Byte) : Nat :=
  match bs with
  | [] => 0
  | b :: r => b.toNat + 256 * ofBytes r

/-- The n bytes of a number in little-endian order (R8). -/
def toBytes (n x : Nat) : List Byte :=
  match n with
  | 0 => []
  | k + 1 => BitVec.ofNat 8 x :: toBytes k (x / 256)

/-- n bits of byte-addressed data, from bit `lo` of the bytes read as one little-endian number. -/
def bitsOfBytes (bs : List Byte) (lo n : Nat) : Nat := field (ofBytes bs) lo n

/-- The element of a list at n, or a default. -/
def nth {α : Type} (l : List α) (n : Nat) (d : α) : α := (l[n]?).getD d

/-- The first element of a list for which f answers, with its answer. -/
def firstSome {α β : Type} (f : α → Option β) : List α → Option β
  | [] => none
  | a :: r => match f a with
    | some b => some b
    | none => firstSome f r

/-- The index of the first element for which p holds. -/
def firstIdx {α : Type} (p : α → Bool) (l : List α) : Option Nat := (List.range l.length).find? (fun i =>
  match l[i]? with
  | some a => p a
  | none => false)

/-- Insertion of the elements of a list in an order given by a relation (a stable sort). -/
def insertBy {α : Type} (le : α → α → Bool) (x : α) : List α → List α
  | [] => [x]
  | y :: r => if le y x then y :: insertBy le x r else x :: y :: r
def sortBy {α : Type} (le : α → α → Bool) (l : List α) : List α := l.foldl (fun acc x => insertBy le x acc) []

/-- The largest r with r * r ≤ n, found bit by bit from bit k - 1. -/
def isqrtFrom (n : Nat) : Nat → Nat → Nat
  | 0, r => r
  | k + 1, r => if (r + 2 ^ k) * (r + 2 ^ k) ≤ n then isqrtFrom n k (r + 2 ^ k) else isqrtFrom n k r
def isqrt (n : Nat) : Nat := isqrtFrom n (Nat.log2 n / 2 + 1) 0

end Sys2Proof.Machine
end

