-- ==== Sys2Proof/Machine/Cipher.lean ====
section
/-! DEFINITION. AES-XTS-256 over a 128-byte line (R164): the cipher of FIPS 197 and the mode of IEEE 1619, which the spec
names (PRESUMED, log entry 9). -/

namespace Sys2Proof.Machine

open Sys2Proof

/-! The field of 2^8 elements. -/

/-- The product by x, modulo x^8 + x^4 + x^3 + x + 1. -/
def aesX (a : Byte) : Byte := (a <<< 1) ^^^ (if a.msb then 0x1B else 0)
/-- A product in the field. -/
def aesMul (a b : Byte) : Byte :=
  ((List.range 8).foldl (fun (p : Byte × Byte) i => (if b.getLsbD i then p.1 ^^^ p.2 else p.1, aesX p.2)) (0, a)).1
/-- The inverse of an element, 0 for 0: its power 254. -/
def aesInv (a : Byte) : Byte :=
  let sq := aesMul a a
  ((List.range 6).foldl (fun (p : Byte × Byte) _ => let q := aesMul p.2 p.2; (aesMul p.1 q, q)) (sq, sq)).1
/-- The affine maps of the S-box and of its inverse. -/
def aesAffine (a : Byte) : Byte := a ^^^ a.rotateLeft 1 ^^^ a.rotateLeft 2 ^^^ a.rotateLeft 3 ^^^ a.rotateLeft 4 ^^^ 0x63
def aesUnaffine (a : Byte) : Byte := a.rotateLeft 1 ^^^ a.rotateLeft 3 ^^^ a.rotateLeft 6 ^^^ 0x05
def aesSub (a : Byte) : Byte := aesAffine (aesInv a)
def aesUnsub (a : Byte) : Byte := aesInv (aesUnaffine a)

/-! Rounds. A block is its 16 bytes, column by column. -/

def xorBytes (a b : List Byte) : List Byte := List.zipWith (· ^^^ ·) a b

/-- The round keys' words of a 256-bit key: 60 words of 4 bytes, those before word i newest first. -/
def aesWords (key : List Byte) : List (List Byte) :=
  let first := (List.range 8).map (fun i => (key.drop (4 * i)).take 4)
  let next := fun (ws : List (List Byte)) (i : Nat) =>
    let t := nth ws 0 []
    let rcon := (List.range (i / 8 - 1)).foldl (fun (c : Byte) _ => aesX c) 1
    let t := if i % 8 = 0 then xorBytes ((t.drop 1 ++ t.take 1).map aesSub) [rcon, 0, 0, 0]
      else if i % 8 = 4 then t.map aesSub else t
    xorBytes (nth ws 7 []) t :: ws
  ((List.range 52).foldl (fun ws i => next ws (8 + i)) first.reverse).reverse
/-- The key of a round, of 15. -/
def aesRoundKey (ws : List (List Byte)) (r : Nat) : List Byte := ((ws.drop (4 * r)).take 4).flatten

/-- Row r of the state is turned by r columns, to the left or back. -/
def aesShift (left : Bool) (b : List Byte) : List Byte :=
  (List.range 16).map (fun i => nth b (i % 4 + 4 * ((i / 4 + if left then i % 4 else 4 - i % 4) % 4)) 0)
/-- Each column multiplied by a circulant matrix. -/
def aesMix (c : List Byte) (b : List Byte) : List Byte :=
  (List.range 16).map (fun i =>
    (List.range 4).foldl (fun (a : Byte) k => a ^^^ aesMul (nth c ((k + 4 - i % 4) % 4) 0) (nth b (i / 4 * 4 + k) 0)) 0)

/-- AES-256 of a block, and its inverse. -/
def aesEnc (ws : List (List Byte)) (b : List Byte) : List Byte :=
  let key := aesRoundKey ws
  let b := (List.range 13).foldl (fun b r =>
    xorBytes (aesMix [2, 3, 1, 1] (aesShift true (b.map aesSub))) (key (r + 1))) (xorBytes b (key 0))
  xorBytes (aesShift true (b.map aesSub)) (key 14)
def aesDec (ws : List (List Byte)) (b : List Byte) : List Byte :=
  let key := aesRoundKey ws
  let b := (List.range 13).foldl (fun b r =>
    aesMix [14, 11, 13, 9] (xorBytes ((aesShift false b).map aesUnsub) (key (13 - r)))) (xorBytes b (key 14))
  xorBytes ((aesShift false b).map aesUnsub) (key 0)

/-! XTS. -/

/-- A tweak times the primitive element of the field of 2^128 elements. -/
def xtsNext (t : BitVec 128) : BitVec 128 := (t <<< 1) ^^^ (if t.msb then 0x87 else 0)

/-- The eight blocks of a line, each masked by its tweak before and after the cipher. Key material is the data key in its low
256 bits and the tweak key above it, byte by byte; the tweak is the line's number as a 128-bit little-endian integer. -/
def xtsLine (cipher : List (List Byte) → List Byte → List Byte) (mat : BitVec 512) (line : Nat) (bs : List Byte) : List Byte :=
  let bytes := toBytes 64 mat.toNat
  let ws := aesWords (bytes.take 32)
  let t := BitVec.ofNat 128 (ofBytes (aesEnc (aesWords (bytes.drop 32)) (toBytes 16 line)))
  ((List.range 8).foldl (fun (p : List Byte × BitVec 128) i =>
    let m := toBytes 16 p.2.toNat
    (p.1 ++ xorBytes (cipher ws (xorBytes ((bs.drop (16 * i)).take 16) m)) m, xtsNext p.2)) ([], t)).1
def xtsEnc (mat : BitVec 512) (line : Nat) (bs : List Byte) : List Byte := xtsLine aesEnc mat line bs
def xtsDec (mat : BitVec 512) (line : Nat) (bs : List Byte) : List Byte := xtsLine aesDec mat line bs

end Sys2Proof.Machine
end

