-- ==== Sys2Proof/Machine/Mem.lean ====
section
/-! DEFINITION. Storage and translation: sparse bytes, physical lines and their keys, tags, the walk and the TLB, L1 and
home accesses, scratch and the Ingot store (R141 to R166, R185 to R190). -/

namespace Sys2Proof.Machine

open Sys2Proof

/-! Sparse data in one canonical form: keys strictly rising, no entry equal to the default. -/

/-- What a key reads as. -/
def spGet {α : Type} (d : α) (l : List (Nat × α)) (k : Nat) : α := (alGet l k).getD d
/-- A write: storing the default removes the entry. -/
def spSet {α : Type} [DecidableEq α] (d : α) (l : List (Nat × α)) (k : Nat) (v : α) : List (Nat × α) :=
  if v = d then alErase l k else alSet l k v
/-- Whether keys rise strictly and no entry holds the default. -/
def spWf {α : Type} [DecidableEq α] (d : α) : List (Nat × α) → Bool
  | [] => true
  | (k, v) :: r => decide (v ≠ d) && r.all (fun e => decide (k < e.1)) && spWf d r
/-- The canonical form of the module's memory. -/
def Memory.wf (m : List Host.Cell) : Bool := spWf Config.memInit m

/-- n bytes from address a. -/
def bytesGet (d : Byte) (l : List (Nat × Byte)) (a : Nat) : Nat → List Byte
  | 0 => []
  | n + 1 => spGet d l a :: bytesGet d l (a + 1) n
/-- A run of bytes stored from address a. -/
def bytesSet (d : Byte) (l : List (Nat × Byte)) (a : Nat) : List Byte → List (Nat × Byte)
  | [] => l
  | b :: r => bytesSet d (spSet d l a b) (a + 1) r

/-! Parts of the state by number. -/

def State.core (s : State) (c : Nat) : Core := (alGet s.cores c).getD Core.empty
def State.setCore (s : State) (c : Nat) (x : Core) : State := { s with cores := alSet s.cores c x }
def State.cluster (s : State) (c : Nat) : Cluster := (alGet s.clusters c).getD Cluster.empty
def State.setCluster (s : State) (c : Nat) (x : Cluster) : State := { s with clusters := alSet s.clusters c x }
def State.quarter (s : State) (q : Nat) : Quarter := (alGet s.quarters q).getD Quarter.empty
def State.setQuarter (s : State) (q : Nat) (x : Quarter) : State := { s with quarters := alSet s.quarters q x }
def State.die (s : State) (d : Nat) : Die := nth s.dies d Die.reset
def State.setDie (s : State) (d : Nat) (x : Die) : State := { s with dies := s.dies.set d x }
def Die.ctx (d : Die) (c : Nat) : Ctx := (alGet d.ctxs c).getD Ctx.empty
def State.setCtx (s : State) (d c : Nat) (x : Ctx) : State :=
  s.setDie d { s.die d with ctxs := alSet (s.die d).ctxs c x }

/-- The cluster of a core: 8 cores each, numbered across the package (R2, R19). -/
def clusterOf (core : Nat) : Nat := core / 8
/-- The die of a core (R19). -/
def dieOf (core : Nat) : Nat := core / 280

/-! Physical memory and its keys (R155, R164). -/

/-- The kind of a physical address: HBM, second tier or host window (R155). -/
def physKind (pa : Nat) : Option Nat :=
  if pa < 0x6000000000 then some 0
  else if 0x20000000000 ≤ pa && pa < 0x40000000000 then some 1
  else if 0x8000000000000 ≤ pa && pa < 0x10000000000000 then some 2
  else none

/-- The key material of a key ID, when one is loaded (R331). -/
def State.keyMat (s : State) (k : Nat) : Option (BitVec 512) := alGet s.keySlots k

/-- The 128 bytes of a line as its writer stored them. -/
def State.plainLine (s : State) (pl : Nat) : List Byte := bytesGet Config.memInit s.mem (pl * 128) 128

/-- A line's bytes as a read under a key gives them: the ciphertext that its writer's key left, decrypted (R164). -/
def State.lineUnder (s : State) (mat : BitVec 512) (pl : Nat) : List Byte :=
  match alGet s.lineKeys pl with
  | some w =>
    if w = mat then s.plainLine pl
    else xtsDec mat pl (xtsEnc w pl (s.plainLine pl))
  | none => s.plainLine pl

/-- n bytes within one line, under a key. -/
def State.physRead (s : State) (mat : BitVec 512) (pa n : Nat) : List Byte :=
  match alGet s.lineKeys (pa / 128) with
  | some w => if w = mat then bytesGet Config.memInit s.mem pa n else ((s.lineUnder mat (pa / 128)).drop (pa % 128)).take n
  | none => bytesGet Config.memInit s.mem pa n

/-- Bytes stored within one line, under a key: a line of another key is read under this one first (R164). -/
def State.physWrite (s : State) (mat : BitVec 512) (pa : Nat) (bs : List Byte) : State :=
  let pl := pa / 128
  match alGet s.lineKeys pl with
  | some w =>
    if w = mat then { s with mem := bytesSet Config.memInit s.mem pa bs }
    else { s with
      mem := bytesSet Config.memInit (bytesSet Config.memInit s.mem (pl * 128) (s.lineUnder mat pl)) pa bs,
      lineKeys := alSet s.lineKeys pl mat }
  | none => { s with mem := bytesSet Config.memInit s.mem pa bs, lineKeys := alSet s.lineKeys pl mat }

/-- The same under a key ID; with no key loaded nothing can be stored. -/
def State.physWriteKey (s : State) (k pa : Nat) (bs : List Byte) : State :=
  match s.keyMat k with
  | some m => s.physWrite m pa bs
  | none => s
def State.physReadKey (s : State) (k pa n : Nat) : List Byte :=
  match s.keyMat k with
  | some m => s.physRead m pa n
  | none => bytesGet Config.memInit s.mem pa n

/-- The tag of a granule (R162; undefined after reset, log entry 2). -/
def State.tagOf (s : State) (granule : Nat) : BitVec 4 := spGet 0 s.tags granule

/-! L1 (R147 to R150). -/

/-- The dirty bytes of a line written back to the physical line it was filled from. -/
def State.writeBack (s : State) (l : L1Line) : State :=
  let put := (List.range 128).filter (fun i => l.dirty.getLsbD i)
  put.foldl (fun s i => s.physWriteKey l.key.toNat (l.pline * 128 + i) [l.data.extractLsb' (8 * i) 8]) s

/-- The lines of a core for which p holds leave L1, dirty ones written back. -/
def State.removeLines (s : State) (c : Nat) (p : L1Line → Bool) : State :=
  let k := s.core c
  if k.l1.any p then
    (k.l1.filter p).foldl State.writeBack (s.setCore c { k with l1 := k.l1.filter (fun l => !p l) })
  else s

/-- Every dirty line of a core for which p holds is written back and stays, clean. -/
def State.cleanLines (s : State) (c : Nat) (p : L1Line → Bool) : State :=
  let k := s.core c
  let s := (k.l1.filter p).foldl State.writeBack s
  if k.l1.any p then s.setCore c { k with l1 := k.l1.map (fun l => if p l then { l with dirty := 0 } else l) } else s

/-- The cores of a cluster. -/
def coresOf (cl : Nat) : List Nat := (List.range 8).map (fun i => cl * 8 + i)

/-- No core of the cluster holds the physical line afterwards (R149, R172). -/
def State.pullLine (s : State) (cl pl : Nat) : State :=
  (coresOf cl).foldl (fun s c => s.removeLines c (fun l => l.pline = pl)) s

/-- Who makes an access: its core (or, for an incoming transport access, its die), and its context's tables. -/
structure Who where
  core : Nat
  fab : Bool
  asid : BitVec 16
  root : Nat
  rootkey : Nat
deriving DecidableEq, Repr

/-- The requester for a core and a context of its die. -/
def whoOf (s : State) (core ctx : Nat) : Who :=
  let c := (s.die (dieOf core)).ctx ctx
  ⟨core, false, c.asid, c.root.toNat, c.rootkey.toNat⟩
/-- The requester for an incoming access to a context of a die (R320). -/
def whoFab (s : State) (d ctx : Nat) : Who :=
  let c := (s.die d).ctx ctx
  ⟨d, true, c.asid, c.root.toNat, c.rootkey.toNat⟩

/-- The kinds of access that R158 tells apart. -/
inductive AccKind where
  | read | write | fetch | spill | refill
deriving DecidableEq, Repr
def AccKind.storeLike (k : AccKind) : Bool := decide (k = .write) || decide (k = .spill)
def AccKind.ladle (k : AccKind) : Bool := decide (k = .spill) || decide (k = .refill)

/-- Cause numbers (R285). -/
def Cause.num (c : Cause) : Nat :=
  match c with
  | .illop => 0 | .regname => 1 | .align => 2 | .page => 3 | .prot => 4 | .tagmis => 5 | .detatom => 6 | .role => 7
  | .shape => 8 | .accwin => 9 | .barhang => 10 | .stacklim => 11 | .fpx => 12 | .brkp => 13 | .sys => 14 | .mchk => 15
/-- The cause of a number (R285), as a nack gives it (R315, R321). -/
def Cause.ofNum (n : Nat) : Cause :=
  match n % 16 with
  | 0 => .illop | 1 => .regname | 2 => .align | 3 => .page | 4 => .prot | 5 => .tagmis | 6 => .detatom | 7 => .role
  | 8 => .shape | 9 => .accwin | 10 => .barhang | 11 => .stacklim | 12 => .fpx | 13 => .brkp | 14 => .sys | _ => .mchk

/-- A trap cause with its subcode (R143). -/
abbrev Err := Cause × Nat
def eAlign : Err := (.align, 0)
def eNoncanon : Err := (.page, 4)
def eRange : Err := (.prot, 3)
def eIngot : Err := (.prot, 4)
def eNotvalid : Err := (.page, 1)
def eBadpte : Err := (.page, 3)
def eBadkey : Err := (.page, 5)
def ePerm : Err := (.prot, 1)
def eSpill : Err := (.prot, 2)
def eTagmis : Err := (.tagmis, 0)
def eDiscarded : Err := (.page, 2)

/-- The place of a condition in the table of R143; 12 for any other. -/
def errRank (e : Err) : Nat :=
  if e = eAlign then 1 else if e = eNoncanon then 2 else if e = eRange then 3 else if e = eIngot then 4
  else if e = eNotvalid then 5 else if e = eBadpte then 6 else if e = eBadkey then 7 else if e = ePerm then 8
  else if e = eSpill then 9 else if e = eTagmis then 10 else if e = eDiscarded then 11 else 12

/-- Fields of a leaf entry (R157). -/
def leafBit (e : DWord) (i : Nat) : Bool := e.getLsbD i
def leafKind (e : DWord) : Nat := fieldOf e 7 2
def leafKey (e : DWord) : Nat := fieldOf e 52 12
def leafNc (e : DWord) : Bool := leafBit e 9
def leafTe (e : DWord) : Bool := leafBit e 10
def leafSo (e : DWord) : Bool := leafBit e 11

/-- The draw of the k-th free value of this step. -/
def State.draw (s : State) (k : Nat) : Nat := s.freeCtr * 65536 + k

/-- An entry of a table under its key, or none where the table lies in no memory of the module (log entry 18). -/
def State.readEntry (s : State) (mat : BitVec 512) (pa : Nat) : Option DWord :=
  match physKind pa with
  | some 0 => some (BitVec.ofNat 64 (ofBytes (s.physRead mat pa 8)))
  | some 1 => some (BitVec.ofNat 64 (ofBytes (s.physRead mat pa 8)))
  | _ => none

/-- The level-0 entry that an access to a 64 KiB page uses: any of the 16 when they differ (R157). -/
def State.groupEntry (s : State) (mat : BitVec 512) (pa va : Nat) (e : DWord) : DWord :=
  let base := pa / 128 * 128
  let all := (List.range 16).map (fun i => (s.readEntry mat (base + 8 * i)).getD 0)
  if all.all (fun x => x = e) then e else nth all (Config.pageEntry (s.draw 60000) va).toNat e

/-- The walk of R156 from level n - 1 on, in table t under key k. -/
def State.walkFrom (s : State) (asid : BitVec 16) (va : Nat) : Nat → Nat → Nat → List PtrEntry → Except Err Trans
  | 0, _, _, _ => .error eBadpte
  | lv + 1, t, k, ptrs =>
    match s.keyMat k with
    | none => .error eBadkey
    | some mat =>
      let pa := t + 8 * field va (12 + 9 * lv) 9
      match s.readEntry mat pa with
      | none => .error eBadpte
      | some e0 =>
        let e := if lv = 0 && leafBit e0 6 && leafBit e0 0 then s.groupEntry mat pa va e0 else e0
        if !leafBit e 0 then .error eNotvalid
        else if fieldOf e 1 3 = 0 && lv ≠ 0 then
          if fieldOf e 4 8 ≠ 0 then .error eBadpte
          else
            let p : PtrEntry := ⟨asid, lv, va / 2 ^ (12 + 9 * lv), fieldOf e 12 40 * 4096, leafKey e⟩
            s.walkFrom asid va lv p.table p.key (p :: ptrs)
        else if 3 ≤ lv || (lv ≠ 0 && leafBit e 6) then .error eBadpte
        else
          let sz := if lv = 0 && leafBit e 6 then 16 else 12 + 9 * lv
          let kind := leafKind e
          let frame := fieldOf e 12 40 * 4096
          if fieldOf e 12 (sz - 12) ≠ 0 || (kind ≠ 3 && physKind frame ≠ some kind) || (kind = 2 && leafTe e) then
            .error eBadpte
          else if kind < 2 && (s.keyMat (leafKey e)).isNone then .error eBadkey
          else .ok ⟨e, frame + va % 2 ^ sz, sz, some (pa, k), ptrs⟩

/-- The deepest cached pointer for an address, or the root (R160). -/
def walkStart (ptrs : List PtrEntry) (w : Who) (va : Nat) : Nat × Nat × Nat :=
  match firstSome (fun lv => (ptrs.find? (fun p => p.asid = w.asid && p.lv = lv && p.tag = va / 2 ^ (12 + 9 * lv))).map
      (fun p => (lv, p.table, p.key))) [1, 2, 3, 4] with
  | some r => r
  | none => (5, w.root, w.rootkey)

/-- The TLB and pointer cache that serve a requester (R160, R187). -/
def State.tlbOf (s : State) (w : Who) : List TlbEntry :=
  if w.fab then (s.die w.core).fabTlb else (s.cluster (clusterOf w.core)).tlb
def State.ptrsOf (s : State) (w : Who) : List PtrEntry :=
  if w.fab then (s.die w.core).fabPtrs else (s.cluster (clusterOf w.core)).ptrs

/-- Translation through the TLB, else by a walk; an entry with d = 0 serves no store-like access (R159, R160). -/
def State.translate (s : State) (w : Who) (va : Nat) (storeLike : Bool) : Except Err Trans :=
  match (s.tlbOf w).find? (fun e => e.asid = w.asid && e.base ≤ va && va < e.base + 2 ^ e.size
      && !(storeLike && !leafBit e.leaf 5 && leafKind e.leaf ≠ 3)) with
  | some e =>
    if leafKind e.leaf < 2 && (s.keyMat (leafKey e.leaf)).isNone then .error eBadkey
    else .ok ⟨e.leaf, fieldOf e.leaf 12 40 * 4096 + va % 2 ^ e.size, e.size, none, []⟩
  | none => let (n, t, k) := walkStart (s.ptrsOf w) w va; s.walkFrom w.asid va n t k []

/-- The L1 line of a core that an address hits (R148). -/
def State.l1Find (s : State) (w : Who) (va : Nat) : Option L1Line :=
  if w.fab then none else (s.core w.core).l1.find? (fun l => l.asid = w.asid && l.vline = va / 128)

/-- Translation for an access through L1: a hit needs none, but for a store to a line whose entry is not marked dirty. -/
def State.translateL1 (s : State) (w : Who) (va : Nat) (storeLike : Bool) : Except Err Trans :=
  match s.l1Find w va with
  | some l =>
    if storeLike && !leafBit l.leaf 5 then s.translate w va storeLike
    else .ok ⟨l.leaf, l.pline * 128 + va % 128, 12, none, []⟩
  | none => s.translate w va storeLike

/-- The tag of a granule as an access meets it: that kept with the line which it hits, else the granule's own (R148, R162). -/
def State.tagSeen (s : State) (line : Option L1Line) (granule : Nat) : BitVec 4 :=
  match line with
  | some l => l.tags.extractLsb' (4 * (granule % 4)) 4
  | none => s.tagOf granule

/-- Whether the tag check of R162 fails for n bytes at a physical address. On a discarded page a store is held against tag 0,
as R161 says of a read (DESIGN CHOICE, log entry 74). -/
def State.tagBad (s : State) (line : Option L1Line) (leaf : DWord) (pa n tag : Nat) : Bool :=
  leafTe leaf &&
    (if leafKind leaf = 3 then decide (tag ≠ 0)
     else (List.range ((pa + n - 1) / 32 - pa / 32 + 1)).any (fun i => (s.tagSeen line (pa / 32 + i)).toNat ≠ tag))

/-- Rows 8 to 11 of R143 for a translated access, which hits `line` if it hits one (R158, R161, R162). -/
def State.checkLeaf (s : State) (line : Option L1Line) (k : AccKind) (leaf : DWord) (pa n tag : Nat) : Option Err :=
  if k.ladle then
    (if leafKind leaf = 3 then some eDiscarded else if leafSo leaf then none else some eSpill)
  else
    let lacks := match k with
      | .write => !leafBit leaf 2
      | .fetch => !leafBit leaf 3
      | _ => !leafBit leaf 1
    if lacks then some ePerm
    else if k = .write && leafSo leaf then some eSpill
    else if k ≠ .fetch && s.tagBad line leaf pa n tag then some eTagmis
    else if k = .write && leafKind leaf = 3 then some eDiscarded
    else none

/-- Rows 1, 2 and 5 to 11 of R143 for n bytes at a global pointer; `l1` says whether the access goes through L1. -/
def State.resolve (s : State) (w : Who) (l1 : Bool) (k : AccKind) (p n : Nat) : Except Err Trans :=
  if p % n ≠ 0 then .error eAlign
  else if field p 57 3 ≠ 0 then .error eNoncanon
  else
    let va := field p 0 57
    match (if l1 then s.translateL1 w va k.storeLike else s.translate w va k.storeLike) with
    | .error e => .error e
    | .ok t => match s.checkLeaf (if l1 then s.l1Find w va else none) k t.leaf t.pa n (field p 60 4) with
      | some e => .error e
      | none => .ok t

/-- The entry an access leaves: a set, and d for a store-like access to a page that is not discarded (R159). -/
def markLeaf (storeLike : Bool) (e : DWord) : DWord :=
  e ||| 0x10 ||| (if storeLike && leafKind e ≠ 3 then 0x20 else 0)

/-- What a translation that walked leaves: the a and d bits set in the entry by an atomic OR at home, and the pointers
and the entry cached (R159, R160, R190). -/
def State.touch (s : State) (w : Who) (va : Nat) (t : Trans) (storeLike : Bool) : State :=
  match t.entry with
  | none => s
  | some (epa, ekey) =>
    let leaf := markLeaf storeLike t.leaf
    let s := if leaf = t.leaf then s
      else
        let s := if w.fab then s else s.pullLine (clusterOf w.core) (epa / 128)
        let old := BitVec.ofNat 64 (ofBytes (s.physReadKey ekey epa 8))
        s.physWriteKey ekey epa (toBytes 8 (markLeaf storeLike old).toNat)
    let base := va / 2 ^ t.size * 2 ^ t.size
    let ent : TlbEntry := ⟨w.asid, base, t.size, leaf⟩
    let put := fun (l : List TlbEntry) =>
      (ent :: l.filter (fun e => !(e.asid = w.asid && e.base = base && e.size = t.size))).take Config.tlbEntries
    let keep := fun (l : List PtrEntry) =>
      t.ptrs ++ l.filter (fun p => !t.ptrs.any (fun q => q.asid = p.asid && q.lv = p.lv && q.tag = p.tag))
    if w.fab then
      let d := s.die w.core
      s.setDie w.core { d with fabTlb := put d.fabTlb, fabPtrs := keep d.fabPtrs }
    else
      let cl := s.cluster (clusterOf w.core)
      s.setCluster (clusterOf w.core) { cl with tlb := put cl.tlb, ptrs := keep cl.ptrs }

/-- What an access that fails only because its page is discarded leaves: order 10 of R143 is passed, so a is set (R159). -/
def State.markDiscarded (s : State) (w : Who) (p : Nat) : State :=
  match s.translate w (field p 0 57) false with
  | .ok t => if leafKind t.leaf = 3 then s.touch w (field p 0 57) t false else s
  | .error _ => s

/-- The way a new line takes: the first free one of its set, else that of the set's oldest line. -/
def freeWay (k : Core) (vline : Nat) : Option Nat :=
  (List.range 40).find? (fun w => decide (k.part ≤ w) && !k.l1.any (fun l => l.way = w && l.vline % 64 = vline % 64))

/-- A fill: other holders of the physical line in the cluster give it up, a full set drops its oldest line, and the
line comes from memory under its key, with its granules' tags (R148, R149). -/
def State.fill (s : State) (w : Who) (vline : Nat) (t : Trans) : State :=
  let s := s.pullLine (clusterOf w.core) (t.pa / 128)
  let k := s.core w.core
  let (s, way) : State × Nat := match freeWay k vline with
    | some way => (s, way)
    | none => match k.l1.find? (fun l => l.vline % 64 = vline % 64) with
      | some old => (s.removeLines w.core (fun l => l = old), old.way)
      | none => (s, 39)
  let data := BitVec.ofNat 1024 (ofBytes (s.physReadKey (leafKey t.leaf) (t.pa / 128 * 128) 128))
  let g := t.pa / 128 * 4
  let tags := s.tagOf (g + 3) ++ s.tagOf (g + 2) ++ s.tagOf (g + 1) ++ s.tagOf g
  let k := s.core w.core
  s.setCore w.core { k with l1 := k.l1 ++
    [⟨w.asid, vline, t.pa / 128, BitVec.ofNat 12 (leafKey t.leaf), t.leaf, way, tags, data, 0⟩] }

/-- The line of an address is in the core's L1 under this translation afterwards. -/
def State.ensureLine (s : State) (w : Who) (va : Nat) (t : Trans) (storeLike : Bool) : State :=
  let leaf := markLeaf storeLike t.leaf
  match s.l1Find w va with
  | some l =>
    if l.pline = t.pa / 128 && l.key.toNat = leafKey t.leaf then
      (if l.leaf = leaf then s
       else
        let k := s.core w.core
        s.setCore w.core { k with l1 := k.l1.map (fun x => if x = l then { x with leaf := leaf } else x) })
    else (s.removeLines w.core (fun x => x = l)).fill w (va / 128) { t with leaf := leaf }
  | none => s.fill w (va / 128) { t with leaf := leaf }

/-- Bytes i to i + n - 1 of a line's data. -/
def lineBytes (v : Vec) (i n : Nat) : List Byte := (List.range n).map (fun j => v.extractLsb' (8 * (i + j)) 8)

/-- A line's data with bytes replaced from byte i on. -/
def lineSet (v : Vec) (i : Nat) : List Byte → Vec
  | [] => v
  | b :: r => lineSet ((v &&& ~~~((255 : Vec) <<< (8 * i))) ||| (b.setWidth 1024 <<< (8 * i))) (i + 1) r

/-- A read of n bytes within one line by a program: zeros from a discarded page, memory itself for nc, else L1
(R148, R150, R161). Pages of kind host are reached by messages, elsewhere. -/
def State.loadBytes (s : State) (w : Who) (va n : Nat) (t : Trans) : List Byte × State :=
  let s := s.touch w va t false
  if leafKind t.leaf = 3 then (List.replicate n 0, s)
  else if leafNc t.leaf then
    let s := s.pullLine (clusterOf w.core) (t.pa / 128)
    (s.physReadKey (leafKey t.leaf) t.pa n, s)
  else
    let s := s.ensureLine w va t false
    match s.l1Find w va with
    | some l => (lineBytes l.data (va % 128) n, s)
    | none => (List.replicate n 0, s)

/-- A store of bytes within one line by a program. -/
def State.storeBytes (s : State) (w : Who) (va : Nat) (bs : List Byte) (t : Trans) : State :=
  let s := s.touch w va t true
  if leafNc t.leaf then
    (s.pullLine (clusterOf w.core) (t.pa / 128)).physWriteKey (leafKey t.leaf) t.pa bs
  else
    let s := s.ensureLine w va t true
    let k := s.core w.core
    let mask : BitVec 128 := BitVec.ofNat 128 ((2 ^ bs.length - 1) * 2 ^ (va % 128))
    s.setCore w.core { k with l1 := k.l1.map (fun l =>
      if l.asid = w.asid && l.vline = va / 128 && l.pline = t.pa / 128 then
        { l with data := lineSet l.data (va % 128) bs, dirty := l.dirty ||| mask } else l) }

/-- An access of n bytes within one line at home: the requester's cluster gives up its copy first (R149, R172). -/
def State.homeRead (s : State) (w : Who) (va n : Nat) (t : Trans) (storeLike : Bool) : List Byte × State :=
  let s := s.touch w va t storeLike
  if leafKind t.leaf = 3 then (List.replicate n 0, s)
  else
    let s := if w.fab then s else s.pullLine (clusterOf w.core) (t.pa / 128)
    (s.physReadKey (leafKey t.leaf) t.pa n, s)
def State.homeWrite (s : State) (w : Who) (va : Nat) (bs : List Byte) (t : Trans) : State :=
  let s := s.touch w va t true
  let s := if w.fab then s else s.pullLine (clusterOf w.core) (t.pa / 128)
  s.physWriteKey (leafKey t.leaf) t.pa bs

/-- The release and the acquire part of a fence at die scope or wider (R174, R175): every dirty line is written back; every
line is dropped, its dirty bytes written back first, so that none keeps older bytes beside them. The other cores of the cluster
do the same, since what their strands have passed on or learnt by a synchronisation at gang scope or narrower happens before or
after the fence as well (R176; log entry 68). -/
def State.releaseL1 (s : State) (c : Nat) : State :=
  (coresOf (clusterOf c)).foldl (fun s k => s.cleanLines k (fun l => l.dirty ≠ 0)) s
def State.acquireL1 (s : State) (c : Nat) : State :=
  (coresOf (clusterOf c)).foldl (fun s k => s.removeLines k (fun _ => true)) s

/-! Longer runs of bytes at home, in pieces of at most 8 bytes that lie in one aligned unit (R168, R189). -/

/-- The pieces of [p, p + n): address and length, each within one aligned 8-byte unit. -/
def pieces (p : Nat) : Nat → Nat → List (Nat × Nat)
  | 0, _ => []
  | _, 0 => []
  | fuel + 1, n => let m := min n (8 - p % 8); (p, m) :: pieces (p + m) fuel (n - m)
def piecesOf (p n : Nat) : List (Nat × Nat) := pieces p (n / 8 + 2) n

/-- Bytes of a run of pieces read at home, the first condition met with its address, or the need of host memory: pointer,
length and physical address of each piece that lies there. -/
inductive Got where
  | bytes (bs : List Byte)
  | bad (e : Err) (addr : Nat)
  | host (ps : List (Nat × Nat × Nat))
deriving DecidableEq, Repr

/-- Resolution of one piece: alignment is not asked of it. -/
def State.resolvePiece (s : State) (w : Who) (k : AccKind) (p n : Nat) : Except Err Trans :=
  if field p 57 3 ≠ 0 then .error eNoncanon
  else
    match s.translate w (field p 0 57) k.storeLike with
    | .error e => .error e
    | .ok t => match s.checkLeaf none k t.leaf t.pa n (field p 60 4) with
      | some e => .error e
      | none => .ok t

/-- The answers that have come back for accesses of kind host. -/
def respOf (rs : List HostResp) (kind addr n : Nat) : Option HostResp :=
  rs.find? (fun r => r.kind = kind && r.addr.toNat = addr && r.n = n)

/-- What one piece of a read comes from: the answer that it has, after which it is translated no more (R189), or its
translation. -/
def State.lookPiece (s : State) (w : Who) (rs : List HostResp) (p n : Nat) : Except Err (List Byte ⊕ Trans) :=
  match respOf rs 0 p n with
  | some a => match a.bad with
    | some (c, sub) => .error (Cause.ofNum c, sub)
    | none => .ok (.inl (toBytes n a.val.toNat))
  | none => match s.resolvePiece w .read p n with
    | .error e => .error e
    | .ok t => .ok (.inr t)

/-- The pieces of a read, all resolved before one of them is made; the first condition with its address. -/
def State.lookRun (s : State) (w : Who) (rs : List HostResp) :
    List (Nat × Nat) → Except (Err × Nat) (List (Nat × Nat × (List Byte ⊕ Trans)))
  | [] => .ok []
  | (p, n) :: r => match s.lookPiece w rs p n with
    | .error e => .error (e, p)
    | .ok x => match s.lookRun w rs r with
      | .error e => .error e
      | .ok xs => .ok ((p, n, x) :: xs)

/-- The pieces of a read that lie in host memory. -/
def hostPieces (xs : List (Nat × Nat × (List Byte ⊕ Trans))) : List (Nat × Nat × Nat) :=
  xs.filterMap (fun x => match x.2.2 with
    | .inl _ => none
    | .inr t => if leafKind t.leaf = 2 then some (x.1, x.2.1, t.pa) else none)

/-- The pieces of a read taken in order. -/
def State.takeRun (s : State) (w : Who) : List (Nat × Nat × (List Byte ⊕ Trans)) → List Byte × State
  | [] => ([], s)
  | (_, _, .inl bs) :: r => let (cs, s) := s.takeRun w r; (bs ++ cs, s)
  | (p, n, .inr t) :: r =>
    let (bs, s) := s.homeRead w (field p 0 57) n t false
    let (cs, s) := s.takeRun w r
    (bs ++ cs, s)

/-- A run of bytes read at home by an engine or for a descriptor; `rs` holds the answers of kind host so far. The pieces that
lie in host memory are asked for together, so that each line is read under one translation (R189). -/
def State.readRun (s : State) (w : Who) (rs : List HostResp) (ps : List (Nat × Nat)) : Got × State :=
  match s.lookRun w rs ps with
  | .error (e, a) => (.bad e a, s)
  | .ok xs => match hostPieces xs with
    | [] => let (bs, s) := s.takeRun w xs; (.bytes bs, s)
    | hs => (.host hs, s)

/-- n bytes from a global pointer at home. -/
def State.readMem (s : State) (w : Who) (rs : List HostResp) (p n : Nat) : Got × State :=
  s.readRun w rs (piecesOf p n)

/-! Scratch and the Ingot store (R144, R145, R151). -/

def State.block (s : State) (b : Nat) : Block := nth s.blocks b
  { launch := 0, idx := 0, bx := 0, by_ := 0, bz := 0, leafo := 0, leafp := 0, core := 0, q0 := 0, resid := .gone,
    gran := 0, ngran := 0, warps := [], scratch := [], acc := [], slots := [], savedOps := [], tasks := [] }
def State.setBlock (s : State) (b : Nat) (x : Block) : State := { s with blocks := s.blocks.set b x }

/-- n bytes of a block's scratch (zero until written, R145). -/
def State.scratchRead (s : State) (b off n : Nat) : List Byte := bytesGet 0 (s.block b).scratch off n
def State.scratchWrite (s : State) (b off : Nat) (bs : List Byte) : State :=
  s.setBlock b { s.block b with scratch := bytesSet 0 (s.block b).scratch off bs }

/-- n bytes of a die's Ingot store. -/
def State.ingotRead (s : State) (d off n : Nat) : List Byte := bytesGet Config.memInit (s.die d).ingot off n

/-- Rows 3 and 4 of R143 for n bytes at an Ingot offset, for a context of a die (R151, R152). -/
def State.ingotBad (s : State) (d ctx off n : Nat) : Option Err :=
  let c := (s.die d).ctx ctx
  if 0x10000000 < off + n || !(c.ingot.contains (off / 1048576) && c.ingot.contains ((off + n - 1) / 1048576)) then
    some eRange
  else if (s.die d).ingotLoad then some eIngot
  else none

end Sys2Proof.Machine
end

