-- ==== Sys2Proof/Machine/Operands.lean ====
section
/-! DEFINITION. The operand forms: fields of the launch record that registers show (R269), warps and strands, the windowed
register files (R55 to R65, R81), masks and active lanes (R12, R88), immediates (R90), object and lane addresses (R144,
R337, R400). -/

namespace Sys2Proof.Machine

open Sys2Proof

/-! The launch record (R269). -/

/-- n bytes of the record from byte i, as a number. -/
def recBytes (r : Vec) (i n : Nat) : Nat := fieldOf r (8 * i) (8 * n)
def recX (r : Vec) : Nat := fieldOf r 64 10 + 1
def recY (r : Vec) : Nat := fieldOf r 74 10 + 1
def recZ (r : Vec) : Nat := fieldOf r 84 10 + 1
def recGang (r : Vec) : Nat := fieldOf r 96 3 + 1
def recGx (r : Vec) : Nat := recBytes r 16 4
def recGy (r : Vec) : Nat := recBytes r 20 4
def recGz (r : Vec) : Nat := recBytes r 24 4
def recKind (r : Vec) : Nat := fieldOf r 224 2
def recFlag (r : Vec) (i : Nat) : Bool := r.getLsbD (224 + i)
def recRoles (r : Vec) : Nat := recBytes r 32 4
def recScratch (r : Vec) : Nat := recBytes r 36 4
def recAccRows (r : Vec) : Nat := recBytes r 40 2
/-- The block's lane count P: R17's product, or R37's for a pixel launch. -/
def recLanes (r : Vec) : Nat :=
  if recFlag r 7 then 4 * ((recX r + 1) / 2) * ((recY r + 1) / 2) else recX r * recY r * recZ r
def recWarps (r : Vec) : Nat := (recLanes r + 31) / 32

/-! Warps and strands. -/

/-- A place that holds no warp. -/
def Warp.absent : Warp :=
  { blk := 0, idx := 0, quarter := 0, slot := 0, role := 0, phase := .gone, base := 64, ext := false, vregs := [], sregs := [],
    kregs := [], vb := 0, sb := 0, vf := 56, vo := 0, sf := 48, so := 0, callers := [], spilled := 0, fpm := 0, fst := 0,
    det := false, accb := 0, accl := 0, spb := 0, flen := 0, sptr := 0, mprog := 0, trapv := 0, barlim := 0, lclk := 0,
    lanes := 0, helpers := 0, strands := [none, none, none, none], handlers := [],
    stopped := none, stopEntry := 0, engFaults := [], task := none, resv := none }

/-- A strand with this mask at this PC, ready, of kind root. -/
def Strand.start (mask : Mask) (pc : Va) : Strand :=
  { mask := mask, pc := pc, st := .ready, kind := .root, group := 0, outer := (.root, 0), stack := [], spilledRecs := 0,
    wait := none, parkSt := .ready, parkDepth := 0, region := none, flight := [], log := [], fault := none, ran := 0,
    waited := none, jumped := false, permit := false, alone := false }

def State.warp (s : State) (w : Nat) : Warp := nth s.warps w Warp.absent
def State.setWarp (s : State) (w : Nat) (x : Warp) : State := { s with warps := s.warps.set w x }
/-- The warp whose strand issues. -/
def State.cw (s : State) : Warp := s.warp s.issue.warp
def State.putW (s : State) (x : Warp) : State := s.setWarp s.issue.warp x

/-- The launch, block, core and context of a warp. -/
def State.launchOf (s : State) (b : Nat) : Launch := nth s.launches (s.block b).launch
  { record := 0, ctx := 0, die := 0, queue := 0, held := false, gx := 0, phase := .done, next := 0, total := 0,
    admitted := none, args := [], cover := [], leaves := [], status := 0, order := 0, reqs := [], resp := [] }
def State.recOf (s : State) (b : Nat) : Vec := (s.launchOf b).record
def State.coreOfWarp (s : State) (w : Nat) : Nat := (s.block (s.warp w).blk).core
def State.ctxOfWarp (s : State) (w : Nat) : Nat := (s.launchOf (s.warp w).blk).ctx
def State.whoOfWarp (s : State) (w : Nat) : Who := whoOf s (s.coreOfWarp w) (s.ctxOfWarp w)
/-- The requester for the issuing strand. -/
def State.who (s : State) : Who := s.whoOfWarp s.issue.warp

/-- The quarter of a warp, numbered across the package. -/
def State.quarterOf (s : State) (w : Nat) : Nat := s.coreOfWarp w * 4 + (s.warp w).quarter

/-- The strand in an entry of a warp. -/
def Warp.strand (x : Warp) (e : Nat) : Option Strand := nth x.strands e none
def Warp.setStrand (x : Warp) (e : Nat) (t : Option Strand) : Warp := { x with strands := x.strands.set e t }
/-- The valid entries in ascending order. -/
def Warp.entries (x : Warp) : List Nat := (List.range 4).filter (fun e => (x.strand e).isSome)

/-- The handler that runs on an entry: the innermost one of the warp (R288, R424). -/
def Warp.handlerAt (x : Warp) (e : Nat) : Option Handler :=
  match x.handlers with
  | h :: _ => if h.entry = e then some h else none
  | [] => none

/-- Whether the issuing strand is handler code. -/
def State.inHandler (s : State) : Bool := (s.cw.handlerAt s.issue.entry).isSome

/-- The strand that issues from an entry: the handler's strand while a handler runs on it, and none for the entries that
a handler holds (R288). -/
def Warp.runner (x : Warp) (e : Nat) : Option Strand :=
  match x.handlers with
  | h :: _ => if h.entry = e then some h.strand else none
  | [] => x.strand e
def Warp.setRunner (x : Warp) (e : Nat) (t : Strand) : Warp :=
  match x.handlers with
  | h :: r => if h.entry = e then { x with handlers := { h with strand := t } :: r } else x
  | [] => x.setStrand e (some t)

/-- The issuing strand. -/
def State.cs (s : State) : Strand := (s.cw.runner s.issue.entry).getD (Strand.start 0 0)
def State.putS (s : State) (t : Strand) : State := s.putW (s.cw.setRunner s.issue.entry t)

/-- The mask-stack records spilled for an entry below those of a handler that starts on it (R27, R72). -/
def Warp.stackBase (x : Warp) (e : Nat) : Nat :=
  match x.handlers with
  | h :: _ => if h.entry = e then h.kbase + h.strand.spilledRecs else 0
  | [] => match x.strand e with
    | some t => t.spilledRecs
    | none => 0

/-- The members of the miss group that a strand belongs to: the strands of kind miss with its group, and the arm that
opened it (R28, R29). Empty when it belongs to none. -/
def Warp.missGroup (x : Warp) (e : Nat) : List Nat :=
  match x.strand e with
  | none => []
  | some t =>
    let g := if t.kind = .miss then t.group else e
    let ms := x.entries.filter (fun f => match x.strand f with
      | some u => u.kind = .miss && u.group = g
      | none => false)
    if ms.isEmpty then []
    else x.entries.filter (fun f => ms.contains f || (f = g && (match x.strand f with
      | some u => u.kind = .arm
      | none => false)))

/-! Windows (R59 to R65). -/

/-- The allotment A, the vector ring W, and the effective frame sizes F and G. -/
def Warp.allot (x : Warp) : Nat := x.base + (if x.ext then 64 else 0)
def Warp.ring (x : Warp) : Nat := x.allot - 8
def Warp.effF (x : Warp) : Nat := min x.vf x.ring
/-- Keys of a vector and a scalar name in the warp's files (R64). -/
def Warp.vkey (x : Warp) (n : Nat) : Nat := if n < 8 then n else 8 + (x.vb + (n - 8)) % x.ring
def Warp.skey (x : Warp) (n : Nat) : Nat := if n < 16 then n else 16 + (x.sb + (n - 16)) % 64

/-- Whether a vector or scalar name is valid: inside the frame, or inside the reserve in handler code (R61, R81). -/
def State.vname (s : State) (n : Nat) : Bool :=
  if s.inHandler then decide (n < 16) else decide (n < 8) || decide (n - 8 < s.cw.effF)
def State.sname (s : State) (n : Nat) : Bool :=
  decide (64 ≤ n) || (if s.inHandler then decide (n < 16) else decide (n < 16) || decide (n - 16 < s.cw.sf))

/-- The special registers (R19, R56). -/
def State.special (s : State) (n : Nat) : DWord :=
  let w := s.cw
  let b := s.block w.blk
  let g := recGang (s.recOf w.blk)
  let v : Nat := match n with
    | 64 => w.idx
    | 65 => b.warps.length
    | 66 => b.idx
    | 67 => b.bx.toNat
    | 68 => b.by_.toNat
    | 69 => b.bz.toNat
    | 70 => b.idx % g + 8 * (b.idx / g)
    | 71 => b.core % 280
    | 72 => dieOf b.core
    | 73 => w.role
    | 74 => w.lclk.toNat
    | 75 => b.leafo.toNat
    | 76 => b.leafp.toNat
    | _ => 0
  BitVec.ofNat 64 v

/-- A vector and a scalar register by name: the reserve's in handler code (R81), else the warp's. -/
def State.regV (s : State) (n : Nat) : Vec :=
  if s.inHandler then spGet 0 (s.quarter (s.quarterOf s.issue.warp)).rv n else spGet 0 s.cw.vregs (s.cw.vkey n)
def State.regS (s : State) (n : Nat) : DWord :=
  if s.inHandler then spGet 0 (s.quarter (s.quarterOf s.issue.warp)).rs n else spGet 0 s.cw.sregs (s.cw.skey n)
/-- A mask register by number; 0 is the strand mask. -/
def State.regK (s : State) (n : Nat) : Mask := if n = 0 then s.cs.mask else spGet 0 s.cw.kregs n

/-- A vector source: as it was at issue for an instruction that runs later (R292), else the register. -/
def State.rdV (s : State) (n : Nat) : Vec := (s.issue.replay.bind (fun r => alGet r.vvals n)).getD (s.regV n)
/-- A scalar source, special registers included (R389). -/
def State.rdS (s : State) (n : Nat) : DWord :=
  (s.issue.replay.bind (fun r => alGet r.svals n)).getD (if 64 ≤ n then s.special n else s.regS n)
/-- The issuing strand's k0 (R12), that at its issue for an instruction that runs later (R292). -/
def State.k0 (s : State) : Mask :=
  match s.issue.replay with
  | some r => r.mask
  | none => s.cs.mask
/-- Whether the instruction that runs has left its strand's PC already: it is of the operand log or in flight. -/
def State.later (s : State) : Bool := decide (s.issue.src ≠ .chain)
/-- A mask source. -/
def State.rdK (s : State) (n : Nat) : Mask :=
  if n = 0 then s.k0 else (s.issue.replay.bind (fun r => alGet r.kvals n)).getD (s.regK n)
/-- active(l) of R12 under the chain's KSEL (R88). -/
def State.active (s : State) : Mask :=
  match s.issue.ks with
  | none => s.k0
  | some (n, m) => s.k0 &&& (if n = 1 then ~~~(s.rdK m.toNat) else s.rdK m.toNat)
/-- The active lanes that are not helpers (R38). -/
def State.activeReal (s : State) : Mask := s.active &&& ~~~s.cw.helpers

def State.wrV (s : State) (n : Nat) (v : Vec) : State :=
  if s.inHandler then
    let q := s.quarterOf s.issue.warp
    s.setQuarter q { s.quarter q with rv := spSet 0 (s.quarter q).rv n v }
  else s.putW { s.cw with vregs := spSet 0 s.cw.vregs (s.cw.vkey n) v }
def State.wrS (s : State) (n : Nat) (v : DWord) : State :=
  if s.inHandler then
    let q := s.quarterOf s.issue.warp
    s.setQuarter q { s.quarter q with rs := spSet 0 (s.quarter q).rs n v }
  else s.putW { s.cw with sregs := spSet 0 s.cw.sregs (s.cw.skey n) v }
def State.wrK (s : State) (n : Nat) (v : Mask) : State := s.putW { s.cw with kregs := spSet 0 s.cw.kregs n v }

/-- Lanes m of a vector register take f; the others keep their bits. -/
def State.wrLanes (s : State) (n : Nat) (m : Mask) (f : Nat → Word) : State := s.wrV n (vecMerge m f (s.regV n))
/-- The same for the 64-bit lanes of a pair (R120). -/
def State.wrPair (s : State) (n : Nat) (m : Mask) (f : Nat → DWord) : State :=
  (s.wrLanes n m (fun l => lowWord (f l))).wrLanes (n + 1) m (fun l => highWord (f l))
/-- Bits m of a mask register take p; the others keep their values. -/
def State.wrMask (s : State) (n : Nat) (m : Mask) (p : Nat → Bool) : State :=
  s.wrK n ((s.regK n &&& ~~~m) ||| (m &&& maskOf p))

/-- Lane l of a vector register, and of a pair. -/
def State.lane (s : State) (n l : Nat) : Word := laneOf (s.rdV n) l
def State.lane64 (s : State) (n l : Nat) : DWord := pairOf (s.rdV n) (s.rdV (n + 1)) l

/-- The immediate of the chain (R90): the XIMM bits in front of a field of w bits, sign-extended. -/
def State.imm (s : State) (w field : Nat) : Int :=
  match s.issue.xs with
  | [] => sext w field
  | [x] => sext (21 + w) (x.toNat * 2 ^ w + field)
  | x :: y :: _ => sext (42 + w) ((x.toNat * 2 ^ 21 + y.toNat) * 2 ^ w + field)

/-- A branch target (R90): words from the word address. -/
def State.target (s : State) (w field : Nat) : Va := BitVec.ofInt 57 ((s.issue.pc.toNat : Int) + s.imm w field * 4)

/-! What a field reads and writes, and whether its names are valid. -/

/-- The registers of a run: vector names 0 to 127, scalar names from 200, masks from 300. -/
def runIds (base f n : Nat) : List Nat := (List.range n).map (fun i => base + f + i)
/-- Registers that a field reads, and that it writes. -/
def kindReads (k : FieldKind) (f : Nat) : List Nat :=
  match k with
  | .vsrc n => runIds 0 f n
  | .vboth n => runIds 0 f n
  | .vpsrc => runIds 0 f 2
  | .vpboth => runIds 0 f 2
  | .ssrc => runIds 200 f 1
  | .sreg => runIds 200 f 1
  | .sboth => runIds 200 f 1
  | .srun n => runIds 200 f n
  | .srecw => runIds 200 f 4
  | .ksrc => runIds 300 f 1
  | _ => []
def kindWrites (k : FieldKind) (f : Nat) : List Nat :=
  match k with
  | .vdst n => runIds 0 f n
  | .vboth n => runIds 0 f n
  | .vpdst => runIds 0 f 2
  | .vpboth => runIds 0 f 2
  | .sdst => runIds 200 f 1
  | .sboth => runIds 200 f 1
  | .srecw => runIds 200 f 4
  | .kdst => runIds 300 f 1
  | _ => []

/-- The fields d, a, b of a word. -/
def dOf (w : Word) : Nat := fieldOf w 14 7
def aOf (w : Word) : Nat := fieldOf w 7 7
def bOf (w : Word) : Nat := fieldOf w 0 7

/-- The registers that a word reads and writes, the KSEL mask included. -/
def wordReads (info : OpInfo) (ks : Option (BitVec 1 × BitVec 3)) (w : Word) : List Nat :=
  kindReads info.d (dOf w) ++ kindReads info.a (aOf w) ++ kindReads info.b (bOf w)
    ++ (match ks with
      | some (_, m) => [300 + m.toNat]
      | none => [])
def wordWrites (info : OpInfo) (w : Word) : List Nat :=
  kindWrites info.d (dOf w) ++ kindWrites info.a (aOf w) ++ kindWrites info.b (bOf w)

/-- Whether every register that a word names is valid where it issues (R61, R81). -/
def State.namesOk (s : State) (info : OpInfo) (w : Word) : Bool :=
  (wordReads info none w ++ wordWrites info w).all (fun i =>
    if i < 200 then s.vname i else if i < 300 then s.sname (i - 200) else true)

/-- R41: whether a warp of this role may issue an instruction of this class; role 0 is no role declared. -/
def roleOk (c : RoleClass) (role : Nat) : Bool :=
  decide (role = 0) || (match c with
    | .any => true
    | .copy => decide (role = 1)
    | .mat => decide (role = 2)
    | .macc => decide (role = 2) || decide (role = 3)
    | .tex => decide (role = 3))

/-! Addresses. -/

/-- The block and offset that n bytes at a scratch address of a block name (R144); the window of a rank whose block has left
names none, and is out of range (DESIGN CHOICE, log entry 74). -/
def State.scratchLoc (s : State) (b addr n : Nat) : Except Err (Nat × Nat) :=
  let blk := s.block b
  let r := s.recOf b
  let size := recScratch r
  if addr + n ≤ size then .ok (b, addr)
  else
    let g := recGang r
    let rank := (addr - 0x10000000) / 0x1000000
    let x := (addr - 0x10000000) % 0x1000000
    if 0x10000000 ≤ addr && rank < g && x + n ≤ size then
      match firstIdx (fun c => c.launch = blk.launch && c.idx = blk.idx / g * g + rank && c.resid ≠ .gone) s.blocks with
      | some c => .ok (c, x)
      | none => .error eRange
    else .error eRange

/-- The spaces that an object address selects (R337). -/
inductive Space where
  | global (p : Nat)
  | scratch (off : Nat)
deriving DecidableEq, Repr

/-- R337: the space of an object address, a global pointer or a scratch address. -/
def objSpace (p : DWord) : Except Err Space :=
  if fieldOf p 57 3 = 0 then .ok (.global p.toNat)
  else if fieldOf p 57 3 = 1 then
    (if fieldOf p 32 25 ≠ 0 || fieldOf p 60 4 ≠ 0 then .error eRange else .ok (.scratch (fieldOf p 0 32)))
  else .error eNoncanon

/-- A 64-bit sum. -/
def add64 (x : DWord) (i : Int) : Nat := wrap 64 ((x.toNat : Int) + i)

end Sys2Proof.Machine
end

