-- ==== Sys2Proof/Machine/Link.lean ====
section
/-! DEFINITION. Sending over the Sahgiuk transport (R314 to R317, R319, R321, R328): the header's layout, sequence numbers,
unacknowledged messages, and the way out of the package or over the die-to-die link. -/

namespace Sys2Proof.Machine

open Sys2Proof

/-- A message with every field zero but those of R314 and the version. -/
def Msg.blank : Msg :=
  { inPort := 0, phyOk := true, bytes := 0, tags := 0, ipv6 := true, extHdr := false, dscp := 0, udp := true, port := 47810,
    csumOk := true, plen := 0, ver := 1, cls := 1, kind := 0, conn := 0, psn := 0, apsn := 0, ctx := 0, die := 0,
    ackReq := false, coded := false, fence := false, resClass := 0, resFlags := 0, resTail := 0, status := 0, addr := 0,
    akey := 0, src := 0, len := 0, op := 0, opnds := [], data := [] }

/-- Whether some res0 field of the header is nonzero (R315, R316). -/
def Msg.res0 (m : Msg) : Bool := m.resClass ≠ 0 || m.resFlags ≠ 0 || m.resTail ≠ 0 || fieldOf m.status 12 4 ≠ 0

/-- The 40 bytes of the header as one little-endian number: byte b stands in bits [8b + 7:8b] (R315). -/
def Msg.header (m : Msg) : BitVec 320 :=
  m.resTail ++ m.akey ++ m.addr ++ m.status
    ++ (m.resFlags ++ BitVec.ofBool m.fence ++ BitVec.ofBool m.coded ++ BitVec.ofBool m.ackReq) ++ (m.die ++ m.ctx)
    ++ m.apsn ++ m.psn ++ m.conn ++ BitVec.ofNat 16 m.plen ++ m.kind ++ (m.resClass ++ m.cls ++ m.ver)

/-- A message with the fields that a header gives. -/
def Msg.withHeader (h : BitVec 320) (m : Msg) : Msg :=
  { m with
    ver := h.extractLsb' 0 4, cls := h.extractLsb' 4 2, resClass := h.extractLsb' 6 2, kind := h.extractLsb' 8 8,
    plen := (h.extractLsb' 16 16).toNat, conn := h.extractLsb' 32 32, psn := h.extractLsb' 64 32,
    apsn := h.extractLsb' 96 32, ctx := h.extractLsb' 128 6, die := h.extractLsb' 134 2, ackReq := h.getLsbD 136,
    coded := h.getLsbD 137, fence := h.getLsbD 138, resFlags := h.extractLsb' 139 5, status := h.extractLsb' 144 16,
    addr := h.extractLsb' 160 64, akey := h.extractLsb' 224 64, resTail := h.extractLsb' 288 32 }

/-- The length of a message's payload (R315; laid out as log entry 21 says): the data, 8 bytes for each operand, 8 for an
operation code, and 8 for the length that a read request names. -/
def Msg.size (m : Msg) : Nat :=
  m.data.length + 8 * m.opnds.length + (if m.op = 0 && m.kind ≠ 4 && m.kind ≠ 6 then 0 else 8) + (if m.kind = 2 then 8 else 0)

/-- A message as it leaves: with its payload's length, the marking of its class (R317), and the size of its IPv6 packet. -/
def Msg.framed (m : Msg) (port : Nat) : Msg :=
  { m with
    inPort := port, plen := Msg.size m, dscp := if m.cls = 0 then 46 else 10, bytes := 40 + 8 + 40 + Msg.size m }

/-- The sending side of a connection, class and peer. -/
def Die.txOf (d : Die) (conn : BitVec 32) (cls : BitVec 2) (peer : BitVec 128) : TxConn :=
  (d.tx.find? (fun t => t.conn = conn && t.cls = cls && t.peer = peer)).getD ⟨conn, cls, peer, 0, []⟩
def Die.setTx (d : Die) (x : TxConn) : Die :=
  { d with tx := x :: d.tx.filter (fun t => !(t.conn = x.conn && t.cls = x.cls && t.peer = x.peer)) }

/-- The die of this package whose fabric endpoint has an address. -/
def State.dieAt (s : State) (a : BitVec 128) : Option Nat := firstIdx (fun d => d.endpoint = a) s.dies

/-- A datagram on its way: over the die-to-die link to a die of the package, or out of a port (R328). -/
def State.route (s : State) (peer : BitVec 128) (m : Msg) : State :=
  match s.dieAt peer with
  | some d => { s with agenda := s.agenda ++ [.deliver d (Msg.framed m 4)] }
  | none => { s with sys := { s.sys with outbox := s.sys.outbox ++ [Msg.framed m 0] } }

/-- The highest psn received in order from a peer on a class (R315). -/
def Die.apsnOf (d : Die) (cls : BitVec 2) (peer : BitVec 128) : BitVec 32 :=
  match d.rx.find? (fun r => r.src = peer && r.cls = cls) with
  | some r => r.next - 1
  | none => 0

/-- Whether a message of the other class of a connection to a peer is unanswered: one with the fence flag is sent only when there is
none, since its receiver cannot know of it (R320). -/
def Die.otherClass (x : Die) (conn : BitVec 32) (cls : BitVec 2) (peer : BitVec 128) : Bool :=
  x.tx.any (fun t => t.conn = conn && t.cls ≠ cls && t.peer = peer && t.unacked ≠ [])

/-- A message sent on a connection takes the next psn and stays unacknowledged (R319); the psn it took. -/
def State.send (s : State) (d : Nat) (peer : BitVec 128) (m : Msg) : BitVec 32 × State :=
  let die := s.die d
  let t := die.txOf m.conn m.cls peer
  let m := { m with psn := t.next, src := die.endpoint, apsn := die.apsnOf m.cls peer, ackReq := true }
  (t.next, (s.setDie d (die.setTx { t with next := t.next + 1, unacked := t.unacked ++ [m] })).route peer m)

/-- An answer (ack, nack or response): it takes no psn of its own and repeats psn, target and access key of the message
answered. An ack goes out only where the message asks for it (R315). -/
def State.answer (s : State) (d : Nat) (q m : Msg) : State :=
  if m.kind = 0x0D && !q.ackReq then s
  else s.route q.src { m with
    conn := q.conn, psn := q.psn, cls := q.cls, ctx := q.ctx, die := q.die, akey := q.akey, src := (s.die d).endpoint,
    apsn := (s.die d).apsnOf q.cls q.src }

/-- A message that is dropped is counted for its port. -/
def State.dropMsg (s : State) (d port : Nat) : State :=
  let k := s.die d
  s.setDie d { k with dropped := alSet k.dropped port ((alGet k.dropped port).getD 0 + 1) }

/-- The receiving side of a connection and class from a sender. -/
def Die.rxOf (x : Die) (m : Msg) : RxConn :=
  (x.rx.find? (fun r => r.conn = m.conn && r.cls = m.cls && r.src = m.src)).getD ⟨m.conn, m.cls, m.src, 0, 0, []⟩
def Die.setRx (x : Die) (r : RxConn) : Die :=
  { x with rx := r :: x.rx.filter (fun q => !(q.conn = r.conn && q.cls = r.cls && q.src = r.src)) }

/-- Messages that have waited for one that has now been performed are looked at again, in the order of their arrival: what has been
accepted but not performed is expected anew (R319, R320). -/
def State.wake (s : State) (d : Nat) : State :=
  let x := s.die d
  if x.waiting = [] then s
  else
    let y := x.waiting.foldr (fun m (y : Die) =>
      let r := y.rxOf m
      y.setRx { r with next := m.psn, high := if r.high = r.next then m.psn else r.high }) x
    { (s.setDie d { y with waiting := [] }) with agenda := s.agenda ++ x.waiting.map (fun m => .deliver d m) }

/-- A need of host memory: 0 a read, 1 an atomic (operation and operands), 2 an RLD lane, 3 a write of bytes; of n bytes
at a pointer (an atomic's n also tells lanes apart), with the byte of the host window or remote address and the target of
the message (R321, R385). -/
structure HostAsk where
  kind : Nat
  addr : Nat
  n : Nat
  pa : Nat
  op : Nat
  opnds : List DWord
  data : List Byte
  /-- connection, peer and header of the message; none for the context's host -/
  to_ : Option (BitVec 32 × BitVec 128 × BitVec 2 × BitVec 6 × DWord × Bool)
deriving DecidableEq, Repr

/-- The message of a need, sent for a context of a die; what is then awaited. -/
def State.sendAsk (s : State) (d ctx : Nat) (a : HostAsk) : HostReq × State :=
  let c := (s.die d).ctx ctx
  let m : Msg := { Msg.blank with
    kind := if a.kind = 1 then 4 else if a.kind = 3 then 1 else 2, data := a.data, len := a.n % 256, op := a.op,
    opnds := a.opnds, addr := BitVec.ofNat 64 a.pa }
  match a.to_ with
  | none =>
    let (psn, s) := s.send d c.host { m with conn := c.hconn, ctx := BitVec.ofNat 6 ctx, die := BitVec.ofNat 2 d,
                                              akey := c.akey, addr := BitVec.ofNat 64 (a.pa % 2 ^ 51) }
    (⟨a.kind, BitVec.ofNat 64 a.addr, a.n, c.hconn, psn, c.host⟩, s)
  | some (conn, peer, die, tctx, akey, fence) =>
    let (psn, s) := s.send d peer { m with conn := conn, die := die, ctx := tctx, akey := akey, fence := fence }
    (⟨a.kind, BitVec.ofNat 64 a.addr, a.n, conn, psn, peer⟩, s)

/-- Messages for a list of needs in order. -/
def State.sendAsks (s : State) (d ctx : Nat) : List HostAsk → List HostReq × State
  | [] => ([], s)
  | a :: r =>
    let (q, s) := s.sendAsk d ctx a
    let (qs, s) := s.sendAsks d ctx r
    (q :: qs, s)

/-- A read need of n bytes at a pointer whose page is of kind host. -/
def askRead (p n pa : Nat) : HostAsk := ⟨0, p, n, pa, 0, [], [], none⟩
/-- A write need, answered by its ack. -/
def askWrite (p pa : Nat) (bs : List Byte) : HostAsk := ⟨3, p, bs.length, pa, 0, [], bs, none⟩

/-- The answer to a need, if it has come: its value, or the condition that a nack named. -/
def hostAns (rs : List HostResp) (kind addr n : Nat) : Option (Except Err Nat) :=
  (respOf rs kind addr n).map (fun r => match r.bad with
    | some (c, sub) => .error (Cause.ofNum c, sub)
    | none => .ok r.val.toNat)

/-- The a and d bits that accesses of host memory set before their messages go out (R159, R190). -/
def State.markAsks (s : State) (w : Who) (asks : List HostAsk) : State :=
  asks.foldl (fun s a =>
    if a.to_.isSome then s
    else match s.translate w (field a.addr 0 57) (a.kind ≠ 0) with
      | .ok t => s.touch w (field a.addr 0 57) t (a.kind ≠ 0)
      | .error _ => s) s

/-- A run of pieces resolved for a kind of access: the translations, or the first condition with its address. -/
def State.resolveRun (s : State) (w : Who) (k : AccKind) : List (Nat × Nat) → Except (Err × Nat) (List (Nat × Nat × Trans))
  | [] => .ok []
  | (p, n) :: r =>
    match s.resolvePiece w k p n with
    | .error e => .error (e, p)
    | .ok t => match s.resolveRun w k r with
      | .error e => .error e
      | .ok ts => .ok ((p, n, t) :: ts)

/-- Bytes stored at home at resolved addresses. -/
def State.putRun (s : State) (w : Who) : List (Nat × List Byte × Trans) → State
  | [] => s
  | (p, bs, t) :: r => (s.homeWrite w (field p 0 57) bs t).putRun w r

/-- The bytes that each piece of a run at p takes. -/
def cutRun (p : Nat) (bs : List Byte) (ts : List (Nat × Nat × Trans)) : List (Nat × List Byte × Trans) :=
  ts.map (fun t => (t.1, (bs.drop (t.1 - p)).take t.2.1, t.2.2))

/-- Bytes stored at a global pointer at home, all or nothing; a page of kind host is no place for them (R384, log entry
52). -/
def State.writeMem (s : State) (w : Who) (p : Nat) (bs : List Byte) : Except (Err × Nat) State :=
  match s.resolveRun w .write (piecesOf p bs.length) with
  | .error e => .error e
  | .ok ts => match ts.find? (fun t => leafKind t.2.2.leaf = 2) with
    | some t => .error (ePerm, t.1)
    | none => .ok (s.putRun w (cutRun p bs ts))

end Sys2Proof.Machine
end

