-- ==== Sys2Proof/Machine/Ladle.lean ====
section
/-! DEFINITION. The Ladle (R27, R72 to R82): spilling and refilling caller frames, mask-stack records and the trap
reserve. -/

namespace Sys2Proof.Machine

open Sys2Proof

/-- Why a move stops: a condition of R143 at an address, no room (R75), or the need of host memory. -/
inductive LadleErr where
  | bad (e : Err) (addr : Nat)
  | lim
  | ask (asks : List HostAsk)
deriving DecidableEq, Repr

/-- The address of an offset in a warp's spill region (R72). -/
def Warp.spillAddr (x : Warp) (off : Nat) : Nat := (x.spb.toNat + off) % 2 ^ 64

/-- Bytes for the spill region of a warp, in pieces with their translations, or the first condition that they meet. A piece
that host memory has answered is done, and translated no more (R76, R189). -/
def State.ladleRun (s : State) (w : Nat) (rs : List HostResp) (off : Nat) (bs : List Byte) :
    Except LadleErr (List (Nat × List Byte × Trans)) :=
  let base := (s.warp w).spillAddr off
  let ps := piecesOf base bs.length
  match firstSome (fun (p : Nat × Nat) => match hostAns rs 3 p.1 p.2 with
      | some (.error e) => some (LadleErr.bad e p.1)
      | _ => none) ps with
  | some e => .error e
  | none => match s.resolveRun (s.whoOfWarp w) .spill (ps.filter (fun p => (hostAns rs 3 p.1 p.2).isNone)) with
    | .error (e, a) => .error (.bad e a)
    | .ok ts => .ok (cutRun base bs ts)

/-- The messages that a run needs of host memory, and the rest of it stored. -/
def runAsks (run : List (Nat × List Byte × Trans)) : List HostAsk :=
  (run.filter (fun t => leafKind t.2.2.leaf = 2)).map (fun t => askWrite t.1 t.2.2.pa t.2.1)
def State.putHome (s : State) (who : Who) (run : List (Nat × List Byte × Trans)) : State :=
  s.putRun who (run.filter (fun t => leafKind t.2.2.leaf ≠ 2))

/-- Bytes stored in the spill region of a warp, all or nothing, once host memory has answered for its pieces (R74, R76). -/
def State.ladleWrite (s : State) (w : Nat) (rs : List HostResp) (off : Nat) (bs : List Byte) : Except LadleErr State :=
  match s.ladleRun w rs off bs with
  | .error e => .error e
  | .ok run => if runAsks run ≠ [] then .error (.ask (runAsks run)) else .ok (s.putHome (s.whoOfWarp w) run)

/-- Bytes of pieces read by the Ladle, with the answers of kind host that have come. -/
def State.ladlePieces (s : State) (who : Who) (rs : List HostResp) : List (Nat × Nat) → Except LadleErr (List Byte × State)
  | [] => .ok ([], s)
  | (p, n) :: r =>
    let here : Except LadleErr (List Byte × State) := match hostAns rs 0 p n with
      | some (.ok v) => .ok (toBytes n v, s)
      | some (.error e) => .error (.bad e p)
      | none => match s.resolvePiece who .refill p n with
        | .error e => .error (.bad e p)
        | .ok t =>
          if leafKind t.leaf = 2 then .error (.ask [askRead p n t.pa])
          else .ok (s.homeRead who (field p 0 57) n t false)
    match here with
    | .error e => .error e
    | .ok (bs, s) => match s.ladlePieces who rs r with
      | .error e => .error e
      | .ok (cs, s) => .ok (bs ++ cs, s)

/-- n bytes of the spill region of a warp. -/
def State.ladleRead (s : State) (w : Nat) (rs : List HostResp) (off n : Nat) : Except LadleErr (List Byte × State) :=
  s.ladlePieces (s.whoOfWarp w) rs (piecesOf ((s.warp w).spillAddr off) n)

/-- The header of a spilled block (R73). -/
def blockHeader (r : FrameRec) (type : Nat) : Nat :=
  r.retpc.toNat + (r.vf / 8) * 2 ^ 64 + (r.vo / 8) * 2 ^ 68 + (r.sf / 8) * 2 ^ 72 + (r.so / 8) * 2 ^ 75 + r.dv * 2 ^ 78
    + r.ds * 2 ^ 85 + r.kdepth * 2 ^ 91 + r.callkind * 2 ^ 98 + r.callgroup * 2 ^ 100 + r.callentry * 2 ^ 102
    + (32 + 8 * r.ds + 128 * r.dv) * 2 ^ 128 + type * 2 ^ 160

/-- The record that a header holds (R73). -/
def headerRec (h : Nat) : FrameRec :=
  { retpc := BitVec.ofNat 57 h, vf := field h 64 4 * 8, vo := field h 68 4 * 8, sf := field h 72 3 * 8,
    so := field h 75 3 * 8, dv := field h 78 7, ds := field h 85 6, kdepth := field h 91 7, callkind := field h 98 2,
    callgroup := field h 100 2, callentry := field h 102 2, ahead := none }

/-- Whether a header is one that a refill may use (R75). -/
def headerOk (h sptr w : Nat) : Bool :=
  let r := headerRec h
  let size := field h 128 32
  field h 160 1 = 0 && size = 32 + 8 * r.ds + 128 * r.dv && decide (size ≤ sptr) && decide (r.dv ≤ w)
    && decide (r.ds ≤ 64) && decide (r.vo ≤ r.vf) && decide (r.sf ≤ 48) && decide (r.so ≤ r.sf) && decide (r.callkind ≠ 3)

/-- Registers of a block in storage order: vector ring slots from vs, scalar ring slots from ss (R73). -/
def Warp.blockBytes (x : Warp) (vs dv ss ds : Nat) : List Byte :=
  (List.range dv).flatMap (fun i => toBytes 128 (spGet 0 x.vregs (8 + (vs + i) % x.ring)).toNat) ++
  (List.range ds).flatMap (fun i => toBytes 8 (spGet 0 x.sregs (16 + (ss + i) % 64)).toNat)
def Warp.putBlock (x : Warp) (vs dv ss ds : Nat) (bs : List Byte) : Warp :=
  let v := (List.range dv).foldl (fun r i =>
    spSet 0 r (8 + (vs + i) % x.ring) (BitVec.ofNat 1024 (ofBytes ((bs.drop (128 * i)).take 128)))) x.vregs
  let c := (List.range ds).foldl (fun r i =>
    spSet 0 r (16 + (ss + i) % 64) (BitVec.ofNat 64 (ofBytes ((bs.drop (128 * dv + 8 * i)).take 8)))) x.sregs
  { x with vregs := v, sregs := c }

/-- Sums of dv and ds over the resident callers. -/
def Warp.sumDv (x : Warp) : Nat := x.callers.foldl (fun a r => a + r.dv) 0
def Warp.sumDs (x : Warp) : Nat := x.callers.foldl (fun a r => a + r.ds) 0
def Warp.depth (x : Warp) : Nat := x.callers.length + x.spilled

/-- The oldest resident caller goes to the frame area (R73 to R75). -/
def State.spillOldest (s : State) (w : Nat) : Except LadleErr State :=
  let x := s.warp w
  match x.callers with
  | [] => .ok s
  | r :: rest =>
    let size := 32 + 8 * r.ds + 128 * r.dv
    if x.flen.toNat < x.sptr.toNat + size then .error .lim
    else
      let vs := (x.vb + x.ring * 8 - x.sumDv) % x.ring
      let ss := (x.sb + 1024 - x.sumDs) % 64
      let regs := r.ahead.getD (x.blockBytes vs r.dv ss r.ds)
      match s.ladleWrite w s.issue.resp x.sptr.toNat (regs ++ toBytes 32 (blockHeader r 0)) with
      | .error e => .error e
      | .ok s => .ok (s.setWarp w { s.warp w with
          callers := rest, spilled := x.spilled + 1, sptr := x.sptr + BitVec.ofNat 32 size })

/-- Every resident caller is spilled, oldest first; what was moved before a fault stays moved (R62, R74). -/
def State.spillAll (s : State) (w : Nat) : Nat → State × Option LadleErr
  | 0 => (s, none)
  | n + 1 =>
    if (s.warp w).callers = [] then (s, none)
    else match s.spillOldest w with
      | .error e => (s, some e)
      | .ok s => s.spillAll w n

/-- Resident callers are spilled until a frame of F vector and G scalar registers fits (R66). -/
def State.spillFor (s : State) (w f g : Nat) : Nat → State × Option LadleErr
  | 0 => (s, none)
  | n + 1 =>
    let x := s.warp w
    if x.sumDv + min f x.ring ≤ x.ring && x.sumDs + g ≤ 64 then (s, none)
    else match s.spillOldest w with
      | .error e => (s, some e)
      | .ok s => s.spillFor w f g n

/-- Whether the limits of R66 hold with one caller more. -/
def Warp.fits (x : Warp) (r : FrameRec) : Bool :=
  decide (x.sumDv + r.dv + x.effF ≤ x.ring) && decide (x.sumDs + r.ds + x.sf ≤ 64) && decide (x.callers.length < 8)

/-- The newest spilled caller comes back, its registers with it, where its record is one that `ok` admits (R73 to R75). -/
def State.refillNewest (s : State) (w : Nat) (rs : List HostResp) (ok : FrameRec → Bool) : Except LadleErr State :=
  let sp := (s.warp w).sptr.toNat
  if sp < 32 then .error .lim
  else match s.ladleRead w rs (sp - 32) 32 with
    | .error e => .error e
    | .ok (hb, s) =>
      let h := ofBytes hb
      let r := headerRec h
      if !headerOk h sp (s.warp w).ring || !ok r then .error .lim
      else
        let size := 32 + 8 * r.ds + 128 * r.dv
        match s.ladleRead w rs (sp - size) (size - 32) with
        | .error e => .error e
        | .ok (bs, s) =>
          let x := s.warp w
          .ok (s.setWarp w { x with
            callers := { r with ahead := some bs } :: x.callers, spilled := x.spilled - 1, sptr := BitVec.ofNat 32 (sp - size) })

/-- The window of a caller returns: its registers reach the ring slots of R69 if the Ladle brought them back. -/
def Warp.restore (x : Warp) (r : FrameRec) : Warp :=
  let vb := (x.vb + x.ring - r.dv % x.ring) % x.ring
  let sb := (x.sb + 64 - r.ds) % 64
  let y := match r.ahead with
    | some bs => x.putBlock vb r.dv sb r.ds bs
    | none => x
  { y with vb := vb, sb := sb, vf := r.vf, vo := r.vo, sf := r.sf, so := r.so, callers := x.callers.dropLast }

/-! Mask stacks (R27). -/

/-- A mask-stack record as 16 bytes, and back. -/
def stackBytes (r : StackRec) : List Byte :=
  toBytes 16 (r.saved.toNat + r.pending.toNat * 2 ^ 32 + r.ppc.toNat * 2 ^ 64 + (if r.done then 2 ^ 127 else 0))
def stackOfBytes (bs : List Byte) : StackRec :=
  let x := ofBytes bs
  { saved := BitVec.ofNat 32 x, pending := BitVec.ofNat 32 (x / 2 ^ 32), ppc := BitVec.ofNat 57 (x / 2 ^ 64),
    done := decide (field x 127 1 = 1) }

/-- Records of a strand's stack, spilled ones included. -/
def Strand.depth (t : Strand) : Nat := t.stack.length + t.spilledRecs

/-- The offset of an entry's mask-stack area (R72). -/
def Warp.stackArea (x : Warp) (e : Nat) : Nat := x.flen.toNat + 1024 * e

/-- A push; on a full stack the oldest entry is spilled first, above `base` records of other strands (R27, R75). -/
def State.pushRec (s : State) (w e base : Nat) (t : Strand) (r : StackRec) : Except LadleErr (Strand × State) :=
  if t.stack.length < 16 then .ok ({ t with stack := r :: t.stack }, s)
  else if 64 ≤ base + t.spilledRecs then .error .lim
  else
    let old := nth t.stack 15 r
    match s.ladleWrite w s.issue.resp ((s.warp w).stackArea e + 16 * (base + t.spilledRecs)) (stackBytes old) with
    | .error x => .error x
    | .ok s => .ok ({ t with stack := r :: t.stack.take 15, spilledRecs := t.spilledRecs + 1 }, s)

/-- The lanes that a refilled record may bring back: not exited, and in no other valid entry (R27). -/
def Warp.freeLanes (x : Warp) (e : Nat) : Mask :=
  (List.range 4).foldl (fun m f => if f = e then m else match x.strand f with
    | some u => m &&& ~~~u.mask
    | none => m) x.lanes

/-- A pop; when it empties the hardware stack, the newest record that the strand spilled above `base` others is refilled
(R27). -/
def State.popRec (s : State) (w e base : Nat) (rs : List HostResp) (t : Strand) : Except LadleErr (Strand × State) :=
  let rest := t.stack.drop 1
  if rest ≠ [] || t.spilledRecs = 0 then .ok ({ t with stack := rest }, s)
  else match s.ladleRead w rs ((s.warp w).stackArea e + 16 * (base + t.spilledRecs - 1)) 16 with
    | .error x => .error x
    | .ok (bs, s) =>
      let r := stackOfBytes bs
      let ok := (s.warp w).freeLanes e
      .ok ({ t with
        stack := [{ r with saved := r.saved &&& ok, pending := r.pending &&& ok }],
        spilledRecs := t.spilledRecs - 1 }, s)

/-! The trap reserve (R82). -/

/-- The reserve's registers as a type 1 block's bytes. -/
def Quarter.reserveBytes (q : Quarter) : List Byte :=
  (List.range 16).flatMap (fun i => toBytes 128 (spGet 0 q.rv i).toNat) ++
  (List.range 16).flatMap (fun i => toBytes 8 (spGet 0 q.rs i).toNat)
def Quarter.putReserve (q : Quarter) (bs : List Byte) : Quarter :=
  { q with
    rv := (List.range 16).foldl (fun r i => spSet 0 r i (BitVec.ofNat 1024 (ofBytes ((bs.drop (128 * i)).take 128)))) [],
    rs := (List.range 16).foldl (fun r i =>
      spSet 0 r i (BitVec.ofNat 64 (ofBytes ((bs.drop (2048 + 8 * i)).take 8)))) [] }

/-- The header of a reserve block: type 1, dv and ds 16, size 2,208. -/
def reserveHeader : Nat := 16 * 2 ^ 78 + 16 * 2 ^ 85 + 2208 * 2 ^ 128 + 2 ^ 160

/-- Messages for warp w that no strand awaits are on their way (R49, R82). -/
def State.post (s : State) (d : Nat) (spill : Bool) (w : Nat) (reqs : List HostReq) : State :=
  let l := (s.block (s.warp w).blk).launch
  let k := s.die d
  s.setDie d { k with posts := k.posts ++ reqs.map (fun r => ⟨spill, w, l, s.ctxOfWarp w, r⟩) }
/-- Whether pieces of a reserve spilled for a warp are still on their way. -/
def State.spilling (s : State) (w : Nat) : Bool :=
  (s.die (dieOf (s.coreOfWarp w))).posts.any (fun p => p.spill && p.warp = w)

/-- The occupied reserve of a quarter goes to its owner's frame area; none means MCHK. Host memory answers later: a nack is MCHK
then (R82). -/
def State.spillReserve (s : State) (q : Nat) : Option State :=
  match (s.quarter q).owner with
  | none => some s
  | some o =>
    let x := s.warp o
    let who := s.whoOfWarp o
    if x.flen.toNat < x.sptr.toNat + 2208 then none
    else match s.ladleRun o [] x.sptr.toNat ((s.quarter q).reserveBytes ++ toBytes 32 reserveHeader) with
      | .error _ => none
      | .ok run =>
        let d := dieOf (s.coreOfWarp o)
        let (reqs, s) := (s.markAsks who (runAsks run)).sendAsks d (s.ctxOfWarp o) (runAsks run)
        let s := (s.post d true o reqs).putHome who run
        let x := s.warp o
        let hs := match x.handlers with
          | h :: r => { h with inReserve := false, spillNo := s.seq } :: r
          | [] => []
        let s := { (s.setWarp o { x with handlers := hs, sptr := x.sptr + 2208 }) with seq := s.seq + 1 }
        let k := s.quarter q
        some (s.setQuarter q { k with owner := none, rv := [], rs := [], spilledOwners := o :: k.spilledOwners })

/-- The most recently spilled reserve comes back for its owner (R82). -/
def State.refillReserve (s : State) (q : Nat) (rs : List HostResp) : Except LadleErr State :=
  match (s.quarter q).spilledOwners with
  | [] => .ok s
  | o :: rest =>
    let x := s.warp o
    let sp := x.sptr.toNat
    if sp < 2208 then .error .lim
    else match s.ladleRead o rs (sp - 32) 32 with
      | .error e => .error e
      | .ok (hb, s) =>
        let h := ofBytes hb
        if field h 160 1 = 0 || field h 78 7 ≠ 16 || field h 85 6 ≠ 16 || field h 128 32 ≠ 2208 then .error .lim
        else match s.ladleRead o rs (sp - 2208) 2176 with
          | .error e => .error e
          | .ok (bs, s) =>
            let x := s.warp o
            let hs := match x.handlers with
              | h :: r => { h with inReserve := true } :: r
              | [] => []
            let s := s.setWarp o { x with handlers := hs, sptr := BitVec.ofNat 32 (sp - 2208) }
            .ok (s.setQuarter q { (s.quarter q).putReserve bs with owner := some o, spilledOwners := rest })

end Sys2Proof.Machine
end

