-- ==== Sys2Proof/Machine/Halt.lean ====
section
/-! DEFINITION. What a pre-emption request or a kill leaves of strands and warps (R300, R301, R304): which instructions under
way complete, which are cancelled and logged, and where strands restart. -/

namespace Sys2Proof.Machine

open Sys2Proof

/-- Vector registers that a word writes. -/
def vectorWrites (w : Word) : Nat :=
  match opInfo (opOf w) with
  | some i => ((wordWrites i w).filter (fun r => r < 200)).length
  | none => 0
/-- Whether a waiting instruction is a memory instruction whose accesses are on their way (R291, R300). -/
def Wait.underway (v : Wait) : Bool :=
  (v.kind = .host || v.kind = .sample) && (match opInfo (opOf v.word) with
    | some i => i.mem
    | none => false)
/-- Whether a strand has memory instructions with accesses still to come, those of its operand log among them: their writes stay
pending (R62, R83, R294). -/
def Strand.pending (t : Strand) : Bool := t.flight ≠ [] || t.log ≠ [] || t.wait.any Wait.underway
/-- A log entry as a cancelled instruction keeps it: what has been written stays answered for, what was read is read anew, and
what was turned away is sent anew. -/
def LogEntry.cancel (l : LogEntry) : LogEntry :=
  let kept := fun (r : HostReq) => (r.kind = 1 || r.kind = 3) && (respOf l.resp r.kind r.addr.toNat r.n).all (fun a => a.bad.isNone)
  { l with
    reqs := l.reqs.filter kept, memo := [], resp := l.resp.filter (fun r => (r.kind = 1 || r.kind = 3) && r.bad.isNone) }

/-- The instructions whose effect completes once it has begun (R300): ATOM and ATOMQ, TINS, TACT, OBLE, FORK, LNCH, and
ABAR.arrive, which is an atomic of its object (log entry 58). -/
def completesOp (op : Nat) : Bool :=
  (0x195 ≤ op && op ≤ 0x19F) || [0x1C6, 0x246, 0x247, 0x248, 0x286, 0x2C0, 0x2C2].contains op
/-- Whether such an instruction has sent a message that the host performs: it is under way. A TINS has begun in the allocator
but where it has changed nothing and waits for another inserter (R233, R296). -/
def begun (op : Nat) (reqs : List HostReq) : Bool := completesOp op && reqs.any (fun r => r.kind = 1 || r.kind = 3)
def Insert.begun (r : Insert) : Bool := !r.blocked || decide (r.cnt ≠ 0) || r.out.any (fun x => x.2.2.1 ≠ 0)
def Wait.mustEnd (v : Wait) : Bool := (v.kind = .host && begun (opOf v.word) v.reqs) || v.ins.any Insert.begun
def Strand.mustEnd (t : Strand) : Bool :=
  t.wait.any Wait.mustEnd || t.flight.any (fun l => begun (opOf l.word) l.reqs)

/-- A strand whose waiting instruction goes back to its chain. -/
def Strand.unissued (t : Strand) : Strand :=
  { t with
    wait := none, permit := false, st := if t.st = .stalled then .ready else t.st,
    parkSt := if t.parkSt = .stalled then .ready else t.parkSt }

/-- What a waiting memory instruction leaves in the operand log: its operands at issue and what it has written already. -/
def Wait.entry (v : Wait) : Option LogEntry :=
  v.replay.map (fun l => LogEntry.cancel { l with reqs := v.reqs, resp := v.resp })

/-- What a request leaves of a strand (R300): its memory instructions in flight, and one that waits for its accesses, are
cancelled and entered in the operand log in program order; any other waiting instruction is recorded as not issued. A YIELD and a wait point stay, and so does a strand whose instruction must complete. -/
def Strand.halt (t : Strand) : Strand :=
  if t.mustEnd then t
  else
    let t := { t with flight := [], log := t.log ++ t.flight.map LogEntry.cancel }
    match t.wait with
    | none => { t with permit := false }
    | some v =>
      if v.kind = .yield || v.kind = .miss then t
      else match v.entry with
        | none => t.unissued
        | some l =>
          if v.src = .log then { t.unissued with log := l :: t.log.drop 1 }
          else if v.underway then
            { t.unissued with log := t.log ++ [l], pc := v.pc + 4, jumped := false }
          else t.unissued

/-- A strand at the start of its region, with the region's mask and an empty log. -/
def Strand.atRegion (t : Strand) (r : Region) (lanes : Mask) : Strand :=
  { t with
    mask := r.mask &&& lanes, pc := r.start, wait := none, region := none, flight := [], log := [], fault := none, jumped := false,
    permit := false, alone := false, ran := 0, st := if t.st = .parked then .parked else .ready, parkSt := .ready }

/-- One entry's restart: strands without an open region stay, and so does one that waits under YIELD (R409) or whose
instruction must complete; a miss group is merged into its issuing entry. The second component gathers the chains that the
clock loses. -/
def Warp.restartEntry (x : Warp) (acc : Warp × Nat) (e : Nat) : Warp × Nat :=
  let (y, sub) := acc
  match x.strand e with
  | none => acc
  | some t => match t.region with
    | none => acc
    | some r =>
      if t.mustEnd || t.wait.any (fun v => v.kind = .yield) then acc
      else
        let ms := x.missGroup e
        if ms = [] then (y.setStrand e (some (t.atRegion r x.lanes)), sub + r.ran)
        else if ms.head? ≠ some e then acc
        else
          let g := if t.kind = .miss then t.group else e
          let u := { t.atRegion r x.lanes with kind := t.outer.1, group := t.outer.2 }
          ((ms.foldl (fun y f => y.setStrand f none) y).setStrand g (some u), sub + r.ran)

/-- A warp's strands at their restart points (R301): the clock loses the chains that the regions restarted have counted. A
warp in handler code or stopped keeps everything. -/
def Warp.restart (x : Warp) : Warp :=
  if x.handlers ≠ [] || x.stopped.isSome || x.phase ≠ .running then x
  else
    let (y, sub) := [0, 1, 2, 3].foldl x.restartEntry (x, 0)
    { y with lclk := y.lclk - BitVec.ofNat 64 sub }

/-- A warp at a request: waits are taken back, then strands restart. -/
def Warp.halted (x : Warp) : Warp :=
  let y : Warp := { x with
    strands := x.strands.map (fun (t : Option Strand) => t.map Strand.halt),
    handlers := x.handlers.map (fun (h : Handler) => { h with strand := h.strand.halt }) }
  y.restart

/-- Whether an instruction of a warp that must complete has not done so. -/
def Warp.mustEnd (x : Warp) : Bool :=
  x.strands.any (fun t => t.any Strand.mustEnd) || x.handlers.any (fun h => h.strand.mustEnd)

end Sys2Proof.Machine
end

