-- ==== Sys2Proof/Machine/Ops.lean ====
section
/-! DEFINITION. The shared operations: kills, the delivery of a trap and the return from one (R285 to R295, R424), the
shell in which every instruction word runs (R41, R61, R89, R94, R291 to R298, R307), and the waits. -/

namespace Sys2Proof.Machine

open Sys2Proof

/-! Trap information. -/

/-- A trap of a cause and subcode with nothing else known. -/
def TrapInfo.of (e : Err) : TrapInfo :=
  { cause := e.1, sub := e.2, spill := false, copyF := false, matF := false, logN := 0, lane := 0, met := 0, addrs := [],
    imm := 0, addr := 0, fpc := 0, rpc := 0, after := 0, word := 0, engine := false, run := 0 }
/-- A trap with a fault address. -/
def TrapInfo.atAddr (e : Err) (a : Nat) : TrapInfo := { TrapInfo.of e with addr := BitVec.ofNat 64 a }

/-- Why the meaning of a word does not simply retire. The state carried is the one the stop leaves. -/
inductive Stop where
  /-- a precise trap -/
  | trap (t : TrapInfo) (s : State)
  /-- a deferred condition of a memory instruction (R285, R292) -/
  | deferred (t : TrapInfo) (s : State)
  /-- the word retires and then traps (TRAP, BRKP) -/
  | after (t : TrapInfo) (s : State)
  /-- the strand waits in state 3; until a clock for a pause -/
  | wait (k : WaitKind) (until_ : Nat) (s : State)
  /-- the strand waits for answers from host memory or a remote die -/
  | ask (asks : List HostAsk) (s : State)
  /-- the strand waits for a condition in host memory, which it polls by these reads -/
  | poll (k : WaitKind) (asks : List HostAsk) (s : State)
  /-- the word is done and has settled its strand itself -/
  | done (s : State)
deriving DecidableEq, Repr

/-- The meaning of a word, given the state in which its strand issues it. -/
abbrev Body := State → Except Stop State

def trapE {α : Type} (s : State) (e : Err) : Except Stop α := .error (.trap (TrapInfo.of e) s)
def trapA {α : Type} (s : State) (e : Err) (a : Nat) : Except Stop α := .error (.trap (TrapInfo.atAddr e a) s)
def waitE {α : Type} (s : State) (k : WaitKind) : Except Stop α := .error (.wait k 0 s)

/-- A Ladle error as the stop of the instruction that required the move: a spill fault or STACKLIM (R74, R75). -/
def ladleStop {α : Type} (s : State) (e : LadleErr) : Except Stop α :=
  match e with
  | .bad e a => .error (.trap { TrapInfo.atAddr e a with spill := true } s)
  | .lim => trapE s (.stacklim, 0)
  | .ask asks => .error (.ask asks s)

/-! Ending warps and launches (R83, R304). -/

/-- Vector registers with a write still to come from host memory, a remote die or the sampler (R83). -/
def Warp.pendingRegs (x : Warp) : Nat :=
  x.entries.foldl (fun n e => n + (match x.strand e with
    | some t => (t.flight.map (fun l => vectorWrites l.word)).sum + (match t.wait with
        | some v => if v.underway then vectorWrites v.word else 0
        | none => 0)
    | none => 0)) 0

/-- The handlers of a warp hold no reserve any more, spilled ones among them (R82). -/
def State.freeReserves (s : State) (w : Nat) : State :=
  let q := s.quarterOf w
  let k := s.quarter q
  let k := if k.owner = some w then { k with owner := none, rv := [], rs := [] } else k
  s.setQuarter q { k with spilledOwners := k.spilledOwners.filter (fun o => o ≠ w) }

/-- A warp leaves: its quarter's reserve is free, its entries are empty, and registers with pending writes drain (R83). -/
def State.dropWarp (s : State) (w : Nat) : State :=
  let s := s.freeReserves w
  let q := s.quarterOf w
  let k := s.quarter q
  let n := (s.warp w).pendingRegs
  let s := s.setQuarter q { k with draining := if n = 0 then k.draining else k.draining ++ [(w, n)] }
  s.setWarp w { s.warp w with
    phase := .gone, handlers := [], strands := [none, none, none, none], stopped := none, engFaults := [], lanes := 0,
    task := none, resv := none }

/-- The engine operations that a kill lets complete: RRED, and step 1 of COLL, unless stopped at a fault (R300, R304, R324). -/
def EngOp.completes (o : EngOp) : Bool :=
  !o.stopped && (match o.kind with
  | .coll _ _ _ _ _ _ => decide (o.stage = 0)
  | .rem red _ _ _ _ _ _ _ => red
  | _ => false)

/-- The queues of every core without the operations for which p holds. -/
def State.dropOps (s : State) (p : EngOp → Bool) : State :=
  let keep := fun (qs : List (List EngOp)) => qs.map (fun q => q.filter (fun o => !p o))
  { s with cores := s.cores.map (fun c => (c.1, { c.2 with cq := keep c.2.cq, mq := keep c.2.mq })) }

/-- An entry of a die's error log: launch ID and failing address (R280). -/
def State.logError (s : State) (d l addr : Nat) : State :=
  s.setDie d { s.die d with errLog := (s.die d).errLog ++ [(l, BitVec.ofNat 64 addr)] }

def State.setLaunch (s : State) (l : Nat) (x : Launch) : State := { s with launches := s.launches.set l x }

/-- A doubleword of a launch stored by its launch unit, which keeps the messages that this takes; a failing store is
dropped and logged (R280). -/
def State.launchWrite (s : State) (l addr val : Nat) : State :=
  match s.launches[l]? with
  | none => s
  | some x =>
    let who := whoFab s x.die x.ctx
    match s.resolveRun who .write (piecesOf addr 8) with
    | .error (_, a) => s.logError x.die l a
    | .ok ts =>
      let run := cutRun addr (toBytes 8 val) ts
      let asks := (run.filter (fun t => leafKind t.2.2.leaf = 2)).map (fun t => askWrite t.1 t.2.2.pa t.2.1)
      let s := s.putRun who (run.filter (fun t => leafKind t.2.2.leaf ≠ 2))
      let (reqs, s) := (s.markAsks who asks).sendAsks x.die x.ctx asks
      s.setLaunch l { x with reqs := reqs, resp := [] }

/-- The status word of a launch (R281), when its record asks for one. -/
def State.putStatus (s : State) (l code : Nat) : State :=
  match s.launches[l]? with
  | none => s
  | some x =>
    let s := s.setLaunch l { x with status := code }
    let a := recBytes x.record 120 8
    if a = 0 then s else s.launchWrite l a code

/-- The blocks of a launch that have not left. -/
def State.blocksOf (s : State) (l : Nat) : List Nat :=
  (List.range s.blocks.length).filter (fun b => (s.block b).launch = l && (s.block b).resid ≠ .gone)

/-- A block leaves its core: warps gone, scratch and accumulator rows lost (R145, R192). -/
def State.dropBlock (s : State) (b : Nat) : State :=
  let s := (s.block b).warps.foldl State.dropWarp s
  s.setBlock b { s.block b with resid := .gone, scratch := [], acc := [], slots := [], savedOps := [], tasks := [] }

/-- What a launch holds on its die when it ends: a place in a queue, the loader's, reserved cores, tasks, draws. -/
def State.dropLaunch (s : State) (l : Nat) : State :=
  let dies := s.dies.map (fun d => { d with
    queues := d.queues.map (fun q => q.filter (fun k => k ≠ l)),
    ingotLoad := d.ingotLoad && d.loader ≠ some l,
    loader := if d.loader = some l then none else d.loader,
    draws := d.draws.filter (fun r => r.launch ≠ l) })
  let cores := s.cores.map (fun c => (c.1, { c.2 with
    deque := c.2.deque.filter (fun t => t.launch ≠ l),
    svc := if c.2.svc = some l then none else c.2.svc }))
  { s with dies := dies, cores := cores }

/-- Whether a block has work under way that a kill lets complete (R304). -/
def State.endsLater (s : State) (b : Nat) : Bool :=
  (s.block b).resid ≠ .saved &&
  ((s.block b).warps.any (fun w => (s.warp w).mustEnd) || s.cores.any (fun c => c.2.cq.flatten.any (fun o => o.blk = b && o.completes)))

/-- A block of a killed launch stops as at a pre-emption request, without a save; it leaves its core once what must complete
has completed (R304). -/
def State.killBlock (s : State) (b : Nat) : State :=
  let s := s.dropOps (fun o => o.blk = b && !o.completes)
  let s := (s.block b).warps.foldl (fun s w => s.setWarp w (s.warp w).halted) s
  if s.endsLater b then s.setBlock b { s.block b with resid := .saving } else s.dropBlock b

/-- A killed launch whose last block has left has its status word written: code 5 (R281, R304). -/
def State.killEnd (s : State) (l : Nat) : State := if s.blocksOf l = [] then s.putStatus l 5 else s

/-- A kill of one launch: no save, stok not signalled (R304). -/
def State.killLaunch (s : State) (l : Nat) : State :=
  match s.launches[l]? with
  | none => s
  | some x =>
    if x.phase ≠ .queued && x.phase ≠ .running then s
    else
      let s := ((s.blocksOf l).foldl State.killBlock s).dropLaunch l
      (s.setLaunch l { x with phase := .killed }).killEnd l

/-- Every launch of a context on a die is killed; the error is reported to the management plane's telemetry and, by a context
command, to the context's host (R290, R329, R333; the command's contents are those of log entry 21). -/
def State.mchk (s : State) (d ctx : Nat) : State :=
  let ls := (List.range s.launches.length).filter (fun l => match s.launches[l]? with
    | some x => x.die = d && x.ctx = ctx
    | none => false)
  let s := ls.foldl State.killLaunch s
  let c := (s.die d).ctx ctx
  let s := { s with sys := { s.sys with reports := s.sys.reports ++ [Report.mchk d ctx] } }
  (s.send d c.host { Msg.blank with
    kind := 0x0F, cls := 0, conn := c.hconn, ctx := BitVec.ofNat 6 ctx, die := BitVec.ofNat 2 d, akey := (s.die d).sysKey,
    opnds := [BitVec.ofNat 64 (Cause.num .mchk)] }).2

/-! Taking an exception (R286 to R289, R295, R424). -/

/-- The trap record of R288 for a trap of the strand in entry e. -/
def trapRecord (x : Warp) (e : Nat) (i : TrapInfo) : TrapRec :=
  let bit := fun (b : Bool) (n : Nat) => if b then 2 ^ n else 0
  let logged := decide (i.logN ≠ 0)
  let s0 := i.cause.num + i.sub * 2 ^ 8 + bit i.spill 16 + bit i.copyF 17 + bit i.matF 18 + bit logged 19
    + (i.logN - 1) * 2 ^ 20 + e * 2 ^ 23 + i.lane * 2 ^ 25 + bit (x.handlerAt e).isSome 30 + i.imm.toNat * 2 ^ 32
  let lane := fun (l : Nat) => ((alGet i.addrs l).getD 0)
  { after := i.after, s0 := BitVec.ofNat 64 s0, s1 := i.fpc.setWidth 64, s2 := i.rpc.setWidth 64, s3 := i.addr,
    s4 := BitVec.ofNat 64 (i.word.toNat + (if i.engine then opOf i.word * 2 ^ 32 else 0)), s5 := x.lclk,
    v0 := vecOf (fun l => if i.met.getLsbD l then 1 else 0),
    v1 := vecOf (fun l => lowWord (lane l)), v2 := vecOf (fun l => highWord (lane l)) }

/-- The reserve's registers at handler entry (R288). -/
def entryRegs (r : TrapRec) : List (Nat × Vec) × List (Nat × DWord) :=
  (spSet 0 (spSet 0 (spSet 0 [] 0 r.v0) 1 r.v1) 2 r.v2,
   spSet 0 (spSet 0 (spSet 0 (spSet 0 (spSet 0 (spSet 0 [] 0 r.s0) 1 r.s1) 2 r.s2) 3 r.s3) 4 r.s4) 5 r.s5)

/-- A handler starts at base + 64 × c in the quarter's reserve, which its present owner's handler gives up first
(R82, R287, R288). -/
def State.enterHandler (s : State) (w e : Nat) (t : Strand) (i : TrapInfo) : State :=
  let q := s.quarterOf w
  let r := trapRecord (s.warp w) e i
  let nested := ((s.warp w).handlerAt e).isSome
  let s := match s.spillReserve q with
    | some s => s
    | none => match (s.quarter q).owner with
      | some o => s.mchk (dieOf (s.coreOfWarp o)) (s.ctxOfWarp o)
      | none => s
  let x := s.warp w
  if x.phase = .gone then s
  else
    let (rv, rs) := entryRegs r
    let base : Nat := fieldOf x.trapv 16 41 * 65536
    let h : Handler :=
      { entry := e, strand := Strand.start t.mask (BitVec.ofNat 57 (base + 64 * i.cause.num)), trec := r,
        cause := i.cause.num, nested := nested, inReserve := true, spillNo := 0,
        kbase := x.stackBase e }
    let s := s.setQuarter q { s.quarter q with owner := some w, rv := rv, rs := rs }
    s.setWarp w { x with handlers := h :: x.handlers }

/-- The report of a stopped warp to its context's host: kind 0x0B with the warp's identity and the record (R316, R329). -/
def State.reportTrap (s : State) (w : Nat) (r : TrapRec) : State :=
  let d := dieOf (s.coreOfWarp w)
  let c := (s.die d).ctx (s.ctxOfWarp w)
  let s := { s with sys := { s.sys with reports := s.sys.reports ++ [Report.trap w r] } }
  (s.send d c.host { Msg.blank with
    kind := 0x0B, cls := 0, conn := c.hconn, ctx := BitVec.ofNat 6 (s.ctxOfWarp w), die := BitVec.ofNat 2 d, akey := c.akey,
    opnds := BitVec.ofNat 64 w :: [r.s0, r.s1, r.s2, r.s3, r.s4, r.s5],
    data := [r.v0, r.v1, r.v2].flatMap (fun v => toBytes 128 v.toNat) }).2

/-- A trap that goes to no handler stops the warp and is reported (R295). -/
def State.stopWarp (s : State) (w e : Nat) (i : TrapInfo) : State :=
  let x := s.warp w
  let r := trapRecord x e i
  (s.setWarp w { x with stopped := some r, stopEntry := e }).reportTrap w r

/-- Delivery of a trap to the strand that runs in entry e: to the warp's handler when ctl.trapv enables its cause and it
does not arise in handler code of the same cause, else to system software (R286, R287). -/
def State.deliver (s : State) (w e : Nat) (i : TrapInfo) : State :=
  let x := s.warp w
  match x.runner e with
  | none => s
  | some t =>
    let t := { t with wait := none, st := if t.st = .stalled then .ready else t.st, alone := false, permit := false }
    let s := s.setWarp w (x.setRunner e t)
    let same := match x.handlerAt e with
      | some h => decide (h.cause = i.cause.num)
      | none => false
    if x.trapv.getLsbD i.cause.num && i.cause ≠ .mchk && !same then s.enterHandler w e t i else s.stopWarp w e i

/-! Returning from one (R293, R294). -/

/-- What the four actions leave of the trapped strand, and how many skipped instructions the clock counts; none for act
3. The record says whether the log is valid. -/
def actStrand (t : Strand) (r : TrapRec) (act : Nat) (target : Va) : Option (Strand × Nat) :=
  let fpc : Va := r.s1.setWidth 57
  let rpc : Va := r.s2.setWidth 57
  let logged := r.s0.getLsbD 19
  match act with
  | 0 => some ({ t with fault := if logged then none else t.fault, pc := rpc, jumped := true }, 0)
  | 1 =>
    let n := if logged then (t.log.filter (fun l => !l.counted)).length else if rpc = fpc then 1 else 0
    some ({ t with
      fault := none, log := [], pc := if rpc = fpc then r.after else rpc, jumped := true,
      region := t.region.map (fun g => { g with ran := g.ran + n }) }, n)
  | 2 => some ({ t with fault := none, log := [], pc := target, jumped := true }, 0)
  | _ => none

/-- ctl.mprog of an operation that stopped (R211). -/
def mprogOf (gdone mq op : Nat) : BitVec 19 := BitVec.ofNat 19 (gdone + mq * 2 ^ 6 + 2 ^ 7 + op * 2 ^ 8)

/-- An engine operation that stopped at a fault already delivered starts again: a copy and a COLL's step from its first byte,
a matrix operation from its group, a remote operation with the lanes not yet acknowledged (R294, R354, R386). A lane that was
turned away goes out anew; one still on its way goes out again as the transport repeats it, under its sequence number, so that
it is performed once (R319). -/
def EngOp.restart (o : EngOp) : EngOp :=
  match o.kind with
  | .mat _ => { o with stopped := false, reqs := [], resp := [] }
  | .rem _ _ _ _ _ _ _ _ => { o with stopped := false }
  | _ => { o with stopped := false, pos := 0, desc := [], buf := [], reqs := [], resp := [] }
/-- ctl.mprog of a warp: the operation that stopped last among those of matrix queues which await delivery, with valid set,
or the fields it had, with valid clear (R211). -/
def State.mprogLeft (s : State) (w : Nat) : BitVec 19 :=
  let x := s.warp w
  let k := s.core (s.coreOfWarp w)
  (firstSome (fun f => firstSome (fun q => firstSome (fun o => match o.kind with
      | .mat m => if o.warp = w && o.stopped && o.id = f.order then some (mprogOf o.pos q m.op) else none
      | _ => none) (nth k.mq q [])) [0, 1]) x.engFaults.reverse).getD (x.mprog &&& ~~~0x80)

/-- The engine operations of a warp whose faults have been delivered start again, and ctl.mprog follows (R211, R294). -/
def State.resumeEngines (s : State) (w : Nat) : State :=
  let pend := (s.warp w).engFaults.map EngFault.order
  let go := fun (o : EngOp) => if o.warp = w && o.stopped && !pend.contains o.id then o.restart else o
  let on := fun (qs : List (List EngOp)) => qs.map (fun q => q.map go)
  let cores := s.cores.map (fun c => (c.1, { c.2 with cq := on c.2.cq, mq := on c.2.mq }))
  let s := s.setWarp w { s.warp w with mprog := s.mprogLeft w }
  let dies := s.dies.map (fun d => { d with draws := d.draws.map (fun r =>
    match r.stopped with
    | some (v, n) => if v = w && !pend.contains n then { r with stopped := none, reqs := [], resp := [] } else r
    | none => r) })
  { s with cores := cores, dies := dies }

/-- The launch of a warp is stopped and killed, as act 3 asks (R294, R304). -/
def State.actThree (s : State) (w : Nat) (r : TrapRec) : State :=
  let l := (s.block (s.warp w).blk).launch
  (s.reportTrap w r).killLaunch l

/-- The return from the innermost handler of a warp with an action: the trapped strand, or the outer handler's, goes on,
and the reserve is free (R82, R294, R424). -/
def State.leaveHandler (s : State) (w act : Nat) (target : Va) : State :=
  let x := s.warp w
  match x.handlers with
  | [] => s
  | h :: rest =>
    let q := s.quarterOf w
    let s := s.setQuarter q { s.quarter q with owner := none, rv := [], rs := [] }
    match rest with
    | o :: more => match actStrand o.strand h.trec act target with
      | some (t, _) => (s.setWarp w { x with handlers := { o with strand := t } :: more }).resumeEngines w
      | none => (s.setWarp w { x with handlers := rest }).actThree w h.trec
    | [] => match x.strand h.entry with
      | none => s.setWarp w { x with handlers := [] }
      | some t => match actStrand t h.trec act target with
        | some (t, n) =>
          (s.setWarp w { (x.setStrand h.entry (some t)) with
            handlers := [], lclk := x.lclk + BitVec.ofNat 64 n }).resumeEngines w
        | none => (s.setWarp w { x with handlers := [] }).actThree w h.trec

/-- The answer of system software to a stopped warp, with the same actions (R295). -/
def State.answerStopped (s : State) (w act : Nat) (target : Va) : State :=
  let x := s.warp w
  match x.stopped with
  | none => s
  | some r =>
    let s := s.setWarp w { x with stopped := none }
    let x := s.warp w
    match x.runner x.stopEntry with
    | none => s
    | some t => match actStrand t r act target with
      | some (t, n) =>
        let k := if (x.handlerAt x.stopEntry).isSome then 0 else n
        (s.setWarp w { (x.setRunner x.stopEntry t) with lclk := x.lclk + BitVec.ofNat 64 k }).resumeEngines w
      | none => s.killLaunch (s.block x.blk).launch

/-! The shell of an instruction word. -/

/-- Whether a strand is there to issue. -/
def State.issueOk (s : State) : Bool :=
  s.issue.live && s.cw.phase = .running && s.cw.stopped.isNone && (s.cw.runner s.issue.entry).isSome

/-- Whether the strand that issues belongs to a miss group (R28, R29); handler code never does. -/
def State.inMiss (s : State) : Bool := !s.inHandler && !s.cs.alone && (s.cw.missGroup s.issue.entry) ≠ []

/-- What a trap found at the issuing chain knows of that chain. -/
def State.fillInfo (s : State) (i : TrapInfo) : TrapInfo :=
  { i with fpc := s.issue.chain, rpc := s.issue.chain, after := s.issue.pc + 4, word := s.issue.word }

/-- The waits of a TXS that is in its core's sampler queue. -/
def WaitKind.fetches (k : WaitKind) : Bool := k = .host || k = .sample

/-- The issuing strand waits in state 3; a wait already begun for the same reason keeps its beginning. -/
def State.setWait (s : State) (k : WaitKind) (until_ : Nat) (reqs : List HostReq) : State :=
  let t := s.cs
  let i := s.issue
  let (since, seq, bump) := match t.wait with
    | some w =>
      if w.kind = k then (w.since, w.seq, 0)
      else if w.kind.fetches && k.fetches then (s.clock, w.seq, 0) else (s.clock, s.seq, 1)
    | none => (s.clock, s.seq, 1)
  let wt : Wait :=
    { kind := k, word := i.word, ks := i.ks, xs := i.xs, chain := i.chain, pc := i.pc, since := since, seq := seq,
      until_ := until_, replay := i.replay, src := i.src, reqs := reqs, resp := i.resp, memo := i.memo,
      ins := i.ins }
  { (s.putS { t with st := .stalled, wait := some wt }) with seq := s.seq + bump }

/-- Needs of host memory are sent and their answers awaited; a message already on its way is not sent again (R321). -/
def State.await (s : State) (k : WaitKind) (asks : List HostAsk) : State :=
  let out := fun (a : HostAsk) => s.issue.sent.find? (fun r => r.kind = a.kind && r.addr.toNat = a.addr && r.n = a.n)
  let new := asks.filter (fun a => (out a).isNone)
  let (reqs, s) := (s.markAsks s.who new).sendAsks (dieOf (s.coreOfWarp s.issue.warp)) (s.ctxOfWarp s.issue.warp) new
  s.setWait k 0 (reqs ++ s.issue.sent)

/-- A deferred fault of the issuing strand is delivered with the log valid; this chain is rpc (R292). -/
def State.deliverFault (s : State) (f : TrapInfo) : State :=
  let t := s.cs
  let s := s.putS { t with fault := none }
  s.deliver s.issue.warp s.issue.entry { f with rpc := s.issue.chain, logN := t.log.length }

/-- A condition met by the first memory instruction in flight: it and every later one, cancelled, are placed in the log
(R292). -/
def Strand.failFlight (t : Strand) (i : TrapInfo) : Strand :=
  { t with flight := [], log := t.flight.map LogEntry.cancel, fault := some { i with logN := 1 } }

/-- A trap found at the issuing chain: a miss strand waits instead (R30), a replay stops with the log kept (R294), one of an
instruction in flight is deferred (R292), and any other waits for the memory instructions that come before it. -/
def State.raise (s : State) (i : TrapInfo) : State :=
  if s.inMiss then s.setWait .miss 0 []
  else if s.inHandler then s.deliver s.issue.warp s.issue.entry (s.fillInfo i)
  else match s.issue.src with
    | .log => s.putS { s.cs with st := .ready, wait := none, fault := some (s.fillInfo i) }
    | .flight => s.putS (s.cs.failFlight (s.fillInfo i))
    | .chain =>
      if s.cs.flight ≠ [] then s.setWait .flights 0 []
      else s.deliver s.issue.warp s.issue.entry (s.fillInfo i)

/-- A trap of a chain that never became an instruction word: a pending deferred fault comes first, since such a chain is
outside the run-ahead set (R91, R292). -/
def State.raiseChain (s : State) (i : TrapInfo) : State :=
  match (if s.inHandler then none else s.cs.fault) with
  | some f => if s.inMiss then s.setWait .miss 0 [] else s.deliverFault f
  | none => s.raise i

/-- Whether the prefixes of the chain are ones that its word may take (R87, R88). -/
def State.prefixesOk (s : State) (info : OpInfo) : Bool :=
  (s.issue.ks.isNone || info.k) && (s.issue.xs = [] || info.x)

/-- Whether a word reads and writes no destination of some memory instructions. -/
def State.apart (s : State) (info : OpInfo) (w : Word) (es : List LogEntry) : Bool :=
  let mine := wordReads info s.issue.ks w ++ wordWrites info w
  let dsts := es.flatMap (fun e => match opInfo (opOf e.word) with
    | some i => wordWrites i e.word ++ runIds 0 (dOf e.word) e.run
    | none => [])
  mine.all (fun r => !dsts.contains r)

/-- Whether the chain may issue while a deferred fault is pending: of the run-ahead set, no memory instruction, and apart
from the destinations of the logged instructions (R91, R292). -/
def State.mayRunAhead (s : State) (info : OpInfo) (w : Word) : Bool :=
  s.prefixesOk info && info.ahead && !info.mem && s.apart info w s.cs.log

/-- The memory instructions whose accesses may be on their way while the strand goes on: SLD and SST, VLD, VST, VLDS, VSTS,
VLDI, ATOM and ATOMQ, and RLD. The others of R291 have their strand wait in state 3 (log entry 67). -/
def fliesOp (op : Nat) : Bool :=
  (0x05F ≤ op && op ≤ 0x066) || (0x180 ≤ op && op ≤ 0x19F) || op = 0x2C5

/-- Whether the instruction that runs may stay in flight: it is the chain at the strand's PC, outside handler code and miss
groups, no atomic that awaits its turn under R310, and no chain after which a single-step trap comes (R286). -/
def State.flies (s : State) (w : Word) : Bool :=
  fliesOp (opOf w) && !s.inHandler && !s.inMiss && decide (s.issue.src = .chain) && s.issue.replay.isNone
    && !(s.cw.det && decide (0x195 ≤ opOf w)) && !s.cw.trapv.getLsbD 15

/-- The memory instructions of a warp's other strands that have accesses to come. -/
def Warp.othersFlight (x : Warp) (e : Nat) : List LogEntry :=
  (List.range 4).flatMap (fun f => match (if f = e then none else x.strand f) with
    | some t => t.flight ++ (match t.wait with
      | some v => if v.underway then v.replay.toList else []
      | none => [])
    | none => [])

/-- Whether the memory instructions in flight let the chain issue: a strand has at most 8, and through them run only chains
of the run-ahead set and memory instructions that may join them, apart from their destinations and from those of the warp's
other strands; none that closes a region (R22, R254, R291, R298; log entry 67). -/
def State.passes (s : State) (info : OpInfo) (w : Word) : Bool :=
  s.inHandler || s.later || (s.apart info w (s.cw.othersFlight s.issue.entry) && (s.cs.flight = [] ||
  (((info.ahead && !info.mem) || (s.flies w && decide (s.cs.flight.length < 8))) && !info.closes
    && s.apart info w s.cs.flight)))

/-- The log entry of the issuing chain: its word, prefixes and the values of its source registers and masks, for VSTV the
second register of the pair that it may store (R292). -/
def State.logEntry (s : State) (info : OpInfo) (w : Word) (run : Nat) : LogEntry :=
  let ids := wordReads info s.issue.ks w ++ (if opOf w = 0x245 then [dOf w + 1] else [])
  { word := w, ks := s.issue.ks, xs := s.issue.xs, chain := s.issue.chain, pc := s.issue.pc, mask := s.k0,
    vvals := (ids.filter (fun i => i < 200)).map (fun i => (i, s.rdV i)),
    svals := (ids.filter (fun i => 200 ≤ i && i < 300)).map (fun i => (i - 200, s.rdS (i - 200))),
    kvals := (ids.filter (fun i => 301 ≤ i)).map (fun i => (i - 300, s.rdK (i - 300))), run := run,
    reqs := [], resp := [], memo := s.issue.memo, counted := false }

/-- The clock and the regions count a retired chain: once for a miss group, else `count` times (R301, R307). -/
def State.count (s0 s : State) : State :=
  let e := s0.issue.entry
  let grp := s0.cw.missGroup e
  let x := s.cw
  let bumpReg := fun (n : Nat) (t : Strand) => { t with region := t.region.map (fun r => { r with ran := r.ran + n }) }
  if grp = [] then
    let n := s.issue.count
    let x := match x.strand e with
      | some t => x.setStrand e (some (bumpReg n t))
      | none => x
    s.putW { x with lclk := x.lclk + BitVec.ofNat 64 n }
  else
    let top : Nat := grp.foldl (fun (m : Nat) f => match s0.cw.strand f with
      | some t => max m t.ran
      | none => m) 0
    let mine : Nat := (match s0.cw.strand e with
      | some t => t.ran
      | none => 0) + 1
    let x := match x.strand e with
      | some t => x.setStrand e (some { t with ran := mine })
      | none => x
    if top < mine then
      let x := grp.foldl (fun x f => match x.strand f with
        | some t => x.setStrand f (some (bumpReg 1 t))
        | none => x) x
      s.putW { x with lclk := x.lclk + 1 }
    else s.putW x

/-- A strand whose word retires: it goes on past its chain unless the meaning moved it; a replayed log entry leaves the
log instead, and an instruction in flight those in flight; a closing instruction closes its region outside handler code
(R91, R291, R294, R298). -/
def Strand.past (s0 : State) (closes moved : Bool) (t : Strand) : Strand :=
  let t := if moved then t
    else match s0.issue.src with
    | .log => { t with st := .ready, wait := none, log := t.log.drop 1 }
    | .flight => { t with flight := t.flight.drop 1 }
    | .chain => { t with st := .ready, wait := none, pc := s0.issue.pc + 4, jumped := false, permit := false, alone := false }
  if closes && !s0.inHandler then { t with region := none } else t
def State.advance (s0 : State) (closes : Bool) (s : State) : State :=
  match s.cw.runner s0.issue.entry with
  | none => s
  | some t => s.putW (s.cw.setRunner s0.issue.entry (t.past s0 closes s.issue.moved))

/-- Single-stepping notes BRKP, subcode 1, for a retired chain (R286). -/
def State.noteStep (s0 s : State) : State :=
  let x := s.cw
  if x.trapv.getLsbD 15 && x.phase = .running then
    let i := { TrapInfo.of (.brkp, 1) with fpc := s0.issue.chain, word := s0.issue.word, after := s0.issue.pc + 4 }
    s.putW { x with engFaults := x.engFaults ++ [⟨s0.issue.entry, i, 0⟩] }
  else s

/-- Whether the instruction that runs has retired and been counted before: it is in flight, or was when it was cancelled. -/
def State.ranBefore (s : State) : Bool := decide (s.issue.src = .flight) || (s.later && s.issue.replay.any LogEntry.counted)

/-- A word retires: its strand goes on, the clock counts outside handler code, and single-stepping raises BRKP (R91, R286,
R298, R307). An instruction in flight has retired before. -/
def State.retire (s0 : State) (closes : Bool) (s : State) : State :=
  if s0.inHandler then State.advance s0 closes s
  else if s0.ranBefore then State.advance s0 false s
  else State.noteStep s0 (State.count s0 (State.advance s0 closes s))

/-- The accesses that met a discarded page leave their a bits (R159). -/
def State.markTrap (s : State) (i : TrapInfo) : State :=
  if i.cause = .page && i.sub = 2 then
    let ps := if i.addrs = [] then [i.addr.toNat] else i.addrs.map (fun a => a.2.toNat)
    ps.foldl (fun s p => s.markDiscarded s.who p) s
  else s

/-- The operands of a memory instruction that waits are those at its issue (R292), and so are those of an instruction that has
sent messages. -/
def State.keep (s : State) (sent : Bool) (info : OpInfo) (w : Word) : State :=
  if (sent || info.mem) && s.issue.replay.isNone && !s.inHandler && !s.inMiss then
    { s with issue := { s.issue with replay := some (s.logEntry info w 0) } }
  else s

/-- A memory instruction joins those in flight and its chain retires (R291). -/
def State.joinFlight (s0 : State) (info : OpInfo) (l : LogEntry) (s : State) : State :=
  State.retire s0 info.closes (s.putS { s.cs with flight := s.cs.flight ++ [{ l with counted := true }] })

/-- What a stop of a meaning leaves. -/
def State.settle (s0 : State) (info : OpInfo) (w : Word) (p : Stop) : State :=
  match p with
  | .trap i s => (if s.inMiss then s else s.markTrap i).raise i
  | .deferred i s =>
    let s := if s.inMiss then s else s.markTrap i
    if s.inMiss then s.setWait .miss 0 []
    else if s.inHandler || s.later then s.raise i
    else if s.cs.flight ≠ [] then s.setWait .flights 0 []
    else
      let t := s.cs
      s.putS { t with
        st := .ready, wait := none, pc := s.issue.pc + 4, jumped := false, permit := false, alone := false,
        log := t.log ++ [s.logEntry info w i.run], fault := some { s.fillInfo i with logN := 1 } }
  | .after i s =>
    let i := s.fillInfo i
    let s1 := State.retire s0 info.closes s
    s1.deliver s0.issue.warp s0.issue.entry { i with rpc := s0.issue.pc + 4 }
  | .wait k u s =>
    if s.issue.src = .flight then s
    else if s.cs.flight ≠ [] && decide (s.issue.src = .chain) then s.setWait .flights 0 []
    else (s.keep false info w).setWait k u []
  | .ask asks s =>
    if s.issue.src = .flight then
      let (reqs, s) := s.sendAsks (dieOf (s.coreOfWarp s.issue.warp)) (s.ctxOfWarp s.issue.warp)
        (asks.filter (fun a => !s.issue.sent.any (fun r => r.kind = a.kind && r.addr.toNat = a.addr && r.n = a.n)))
      s.putS { s.cs with flight := match s.cs.flight with
        | l :: r => { l with reqs := l.reqs ++ reqs, memo := s.issue.memo } :: r
        | [] => [] }
    else if s.flies w then
      let l := s.logEntry info w 0
      -- behind others its messages wait for their conditions; an RLD sends its own at issue (R291, R385)
      if s.cs.flight ≠ [] && opOf w ≠ 0x2C5 then State.joinFlight s0 info { l with memo := [] } s0
      else
        let (reqs, s) := s.sendAsks (dieOf (s.coreOfWarp s.issue.warp)) (s.ctxOfWarp s.issue.warp) asks
        State.joinFlight s0 info { l with reqs := reqs } s
    else (s.keep true info w).await .host asks
  | .poll k asks s => (s.keep true info w).await k asks
  | .done s => s

/-- Orders 3 to 5 of R94 for a decoded word, the wait point of a miss strand (R29), and the meaning. -/
def State.runChecked (s : State) (info : OpInfo) (w : Word) (body : Body) : State :=
  if !s.prefixesOk info then s.raise (TrapInfo.of (.illop, 0))
  else if !s.passes info w then s.setWait .flights 0 []
  else if s.inMiss && !info.ahead then s.setWait .miss 0 []
  else if !roleOk info.role s.cw.role then s.raise (TrapInfo.of (.role, 0))
  else if !s.namesOk info w then s.raise (TrapInfo.of (.regname, 0))
  else match body s with
    | .ok s' =>
      -- accesses behind those in flight are performed in their turn (R291)
      if info.mem && s.cs.flight ≠ [] && s.flies w then State.joinFlight s info (s.logEntry info w 0) s
      else State.retire s info.closes s'
    | .error p => State.settle s info w p

/-- The word runs: a pending deferred fault of the strand decides first whether it may (R292). -/
def State.runBody (s : State) (info : OpInfo) (w : Word) (body : Body) : State :=
  let s := { s with issue := { s.issue with word := w, moved := false, count := 1 } }
  match (if s.inHandler || s.later then none else s.cs.fault) with
  | some f =>
    if s.mayRunAhead info w then s.runChecked info w body
    else if s.inMiss then s.setWait .miss 0 []
    else s.deliverFault f
  | none => s.runChecked info w body
/-- What a meaning answers. -/
abbrev Out := Host.Outcome State Fault Refusal

/-- The shell of every instruction word: the strand named by State.issue runs it. -/
def perform (w : Word) (body : Body) (s : State) : Out :=
  match s.issueOk, opInfo (opOf w) with
  | true, some info => .next (s.runBody info w body)
  | _, _ => .fault .noStrand

/-- The word of an opcode and its fields (R85). -/
def wordOf (op : Nat) (f : BitVec 21) : Word := BitVec.ofNat 11 op ++ f
def wordDab (op : Nat) (d a b : BitVec 7) : Word := wordOf op (d ++ a ++ b)
def wordDi (op : Nat) (d : BitVec 7) (i : BitVec 14) : Word := wordOf op (d ++ i)

/-! Changes of control by a meaning. -/

/-- The issuing strand goes to a target by a transfer (R93). -/
def State.jump (s : State) (t : Va) : State :=
  let c := s.cs
  { (s.putS { c with pc := t, jumped := true, st := .ready, wait := none, permit := false }) with
    issue := { s.issue with moved := true } }

/-- The meaning settled its strand's PC and state itself. -/
def State.settled (s : State) : State := { s with issue := { s.issue with moved := true } }

/-- Queue n of a core: 0 to 3 the copy queues, 4 and 5 the matrix queues. -/
def Core.queue (k : Core) (n : Nat) : List EngOp := if n < 4 then nth k.cq n [] else nth k.mq (n - 4) []
def Core.setQueue (k : Core) (n : Nat) (q : List EngOp) : Core :=
  if n < 4 then { k with cq := k.cq.set n q } else { k with mq := k.mq.set (n - 4) q }

/-- The engine operations in a core's queues, copy queues first. -/
def Core.ops (c : Core) : List EngOp := c.cq.flatten ++ c.mq.flatten
/-- The engine operations that a warp has in the queues of its core. -/
def State.opsOf (s : State) (w : Nat) : List EngOp := (s.core (s.coreOfWarp w)).ops.filter (fun o => o.warp = w)

/-- Whether an operation holds pending writes of accumulator rows: MZERO, MMA, MMAX, MSCA and COPYM (R203). -/
def EngOp.writesRows (o : EngOp) : Bool :=
  match o.kind with
  | .mat m => decide (m.op < 0x20C)
  | .copym _ _ _ => true
  | _ => false

/-- A step trap awaits the strand (R286). -/
def State.stepTrap (s : State) (w e : Nat) (chain pc : Va) (word : Word) : State :=
  let x := s.warp w
  if x.trapv.getLsbD 15 then
    let i := { TrapInfo.of (.brkp, 1) with fpc := chain, word := word, after := pc + 4 }
    s.setWarp w { x with engFaults := x.engFaults ++ [⟨e, i, 0⟩] }
  else s

/-- A strand that waits at an instruction goes on after it; the chain counts once and its region closes (R298, R307). -/
def State.finishWait (s : State) (w e : Nat) : State :=
  let x := s.warp w
  match x.strand e with
  | none => s
  | some t => match t.wait with
    | none => s
    | some v =>
      let t := { t with pc := v.pc + 4, st := .ready, wait := none, jumped := false, region := none }
      (s.setWarp w { (x.setStrand e (some t)) with lclk := x.lclk + 1 }).stepTrap w e v.chain v.pc v.word

/-- Clocks of ctl.barlim have passed at a wait that it limits (R296). -/
def WaitKind.limited (k : WaitKind) : Bool :=
  match k with
  | .bar => true | .barg => true | .ring => true | .rgrow => true | .qfence => true | .mwin => true | .weight => true
  | .obld => true | .abar => true | .tins => true
  | _ => false

/-- Whether an opcode is one of R63's instructions: CALL, CALLI, RET, FRAME, WBASE, RGROW, RSHRINK. -/
def movesWindow (op : Nat) : Bool := 0x010 ≤ op && op ≤ 0x016

/-- Whether a waiting instruction holds the other strands of its warp: RGROW and YIELD, and a window instruction that waits
for the Ladle's accesses of host memory (R63, R409). -/
def Wait.holds (v : Wait) : Bool := v.kind = .rgrow || v.kind = .yield || (v.kind = .host && movesWindow (opOf v.word))

/-- Whether memory instructions of the warp's other strands have accesses to come (R62, R83). -/
def Warp.othersPending (x : Warp) (e : Nat) : Bool :=
  (List.range 4).any (fun f => f ≠ e && (match x.strand f with
    | some t => t.pending
    | none => false))

/-- Whether the strand in an entry holds the others: by its wait, or as it executes a window instruction that waits for their
pending writes (R62, R63). -/
def Warp.holding (x : Warp) (f : Nat) : Bool :=
  match x.strand f with
  | some t => t.st ≠ .parked && (t.wait.any Wait.holds ||
      (t.flight = [] && t.wait.any (fun v => v.kind = .flights && movesWindow (opOf v.word)) && x.othersPending f))
  | none => false

/-- Whether an entry may not go on: its strand is parked (R34), or another strand's instruction holds it: a handler, or a
strand that waits at an instruction of R63 or YIELD (R288, R409). A window instruction that waits for pending writes does not
hold a strand whose operand log has them still to make (R62, R294). -/
def Warp.held (x : Warp) (e : Nat) : Bool :=
  (match x.runner e with
    | some t => decide (t.st = .parked)
    | none => true) ||
  (x.handlers = [] && (List.range 4).any (fun f => f ≠ e && x.holding f
    && !((x.strand e).any (fun t => t.log ≠ []) && !((x.strand f).bind Strand.wait).any Wait.holds)))

/-- Whether a waiting instruction may not go on: held strands issue nothing, but what has issued completes. -/
def Warp.stuck (x : Warp) (e : Nat) (v : Wait) : Bool :=
  x.held e && !(v.underway && (x.runner e).any (fun t => t.st ≠ .parked))

end Sys2Proof.Machine
end

