-- ==== Sys2Proof/Machine/Fetch.lean ====
section
/-! DEFINITION. Fetching a chain's words (R89, R92, R93, R96) and the issue of a strand's next chain. What a decoded word
does is a parameter: Step supplies the decoder and exec. -/

namespace Sys2Proof.Machine

open Sys2Proof

/-- The outcome of fetching one word: the word, a condition at its address, or the need of host memory. -/
inductive Fetched where
  | word (w : Word)
  | bad (e : Err) (addr : Nat)
  | ask (a : HostAsk)
deriving DecidableEq, Repr

/-- The word at an address (R92): never tag-checked, zero from a discarded page, read at home (log entry 8). -/
def State.fetchWord (s : State) (a : Va) : Fetched × State :=
  let p := a.toNat
  match s.resolvePiece s.who .fetch p 4 with
  | .error e => (.bad e p, s)
  | .ok t =>
    if leafKind t.leaf = 2 then
      match hostAns s.issue.resp 0 p 4 with
      | some (.error e) => (.bad e p, s)
      | some (.ok v) => (.word (BitVec.ofNat 32 v), s)
      | none => (.ask (askRead p 4 t.pa), s)
    else let (bs, s) := s.homeRead s.who p 4 t false; (.word (BitVec.ofNat 32 (ofBytes bs)), s)

/-- A chain as fetched: its prefix words in order, and its instruction word with the word address; or why there is none. -/
inductive Chain where
  | words (pre : List Word) (pc : Va) (w : Word)
  /-- R89 raises ILLOP at a word: a third XIMM, or a KSEL that is not first -/
  | illop (pc : Va) (w : Word)
  | bad (pc : Va) (e : Err) (addr : Nat)
  | ask (a : HostAsk)
deriving DecidableEq, Repr

/-- The loop of R89 from address a, with the prefixes seen so far and the number of XIMM among them. -/
def State.fetchChain (s : State) : Nat → Va → List Word → Nat → Chain × State
  | 0, a, _, _ => (.illop a 0, s)
  | n + 1, a, pre, xs =>
    match s.fetchWord a with
    | (.bad e p, s) => (.bad a e p, s)
    | (.ask q, s) => (.ask q, s)
    | (.word w, s) =>
      if opOf w = 3 then (if pre = [] then s.fetchChain n (a + 4) [w] 0 else (.illop a w, s))
      else if opOf w = 2 then
        (if xs = 2 then (.illop a w, s) else s.fetchChain n (a + 4) (pre ++ [w]) (xs + 1))
      else (.words pre a w, s)

/-- R93: whether the word before the target of a transfer is a prefix, or the need of host memory to know it. A word that
cannot be read is none (DESIGN CHOICE, log entry 25). -/
def State.insideChain (s : State) (t : Va) : Except HostAsk Bool :=
  if t.toNat % 4096 = 0 then .ok false
  else match s.fetchWord (t - 4) with
    | (.word w, _) => .ok (decide (opOf w = 2) || decide (opOf w = 3))
    | (.ask a, _) => .error a
    | (.bad _ _, _) => .ok false

/-- The chain being issued is set up for a strand; what a wait of the strand has sent, heard and translated stays known. -/
def State.setIssue (s : State) (w e : Nat) (chain pc : Va) (word : Word) (split : Bool) : State :=
  let v := ((s.warp w).runner e).bind Strand.wait
  { s with issue :=
    { live := true, warp := w, entry := e, chain := chain, pc := pc, word := word, ks := none, xs := [], next := pc + 4,
      moved := false, count := 1, replay := none, src := .chain, split := split,
      sent := (v.map Wait.reqs).getD [], resp := (v.map Wait.resp).getD [], memo := (v.map Wait.memo).getD [],
      ins := v.bind Wait.ins } }

/-- The same for an instruction that runs later, from its entry (R291, R294, R302). -/
def State.setLater (s : State) (w e : Nat) (l : LogEntry) (src : Source) : State :=
  { s with issue :=
    { live := true, warp := w, entry := e, chain := l.chain, pc := l.pc, word := l.word, ks := l.ks, xs := l.xs,
      next := l.pc + 4, moved := false, count := 1, replay := some l, src := src, split := false,
      sent := l.reqs, resp := l.resp, memo := l.memo, ins := none } }

/-- The prefixes of a chain run first and then its instruction word; a stop other than a next state ends the chain. -/
def runWords (run : Word → State → Host.Outcome State Fault Refusal) :
    List Word → Word → State → Host.Outcome State Fault Refusal
  | [], w, s => run w { s with issue := { s.issue with word := w } }
  | p :: r, w, s =>
    match run p { s with issue := { s.issue with word := p } } with
    | .next s => if s.issue.live then runWords run r w s else .next s
    | .fault f => .fault f
    | .refused f => .refused f

/-- UNUSED_OPCODE (R86): ILLOP, precisely, at decode. -/
def execUnusedOpcode (word : Word) (s : State) : Host.Outcome State Fault Refusal :=
  if s.issueOk then
    let s := { s with issue := { s.issue with word := word } }.raiseChain (TrapInfo.of (.illop, 0))
    .next { s with issue := { s.issue with live := false } }
  else .fault .noStrand

/-- The engine fault that the strand in entry e takes before its next chain (R289): one of its own, or one whose strand
is no longer valid when e is the lowest valid entry; the operation issued first comes first. -/
def Warp.faultFor (x : Warp) (e : Nat) : Option EngFault :=
  let mine := x.engFaults.filter (fun f => f.entry = e || ((x.strand f.entry).isNone && x.entries.head? = some e))
  mine.find? (fun f => mine.all (fun g => decide (f.order ≤ g.order)))

/-- Whether a strand may take an engine fault now: none of its memory instructions is in flight or still to be replayed (R302),
and it is ready or waits at an instruction that has had no effect. A QFENCE has none before the operations that it awaits have
completed (R183; log entry 41). -/
def Strand.takesFault (t : Strand) : Bool :=
  decide (t.flight = []) && (t.log = [] || t.fault.isSome) && (match t.st, t.wait with
    | .ready, _ => true
    | .stalled, some v => !(v.kind = .host || v.kind = .sample || v.kind = .load || v.kind = .miss || v.kind = .yield)
    | _, _ => false)

/-- The matrix queue that a row descriptor names (R199). -/
def dQ (x : DWord) : Nat := fieldOf x 23 1

/-- Whether an operation belongs to queue n of its core: a COPYM also to the matrix queue of its follow-on (R214). -/
def EngOp.names (o : EngOp) (n q : Nat) : Bool :=
  decide (n = q) || (match o.kind with
    | .copym _ _ m => decide (n = 4 + dQ m.desc)
    | _ => false)

/-- Whether an operation of a warp, in any of the queues that `qs` names, is outstanding that p admits (R183). -/
def State.anyQueued (s : State) (w qs : Nat) (p : EngOp → Bool) : Bool :=
  let k := s.core (s.coreOfWarp w)
  (List.range 6).any (fun q => (k.queue q).any (fun o =>
    o.warp = w && p o
      && (List.range 6).any (fun n => qs / 2 ^ n % 2 = 1 && (o.names n q || (o.parent.any (fun p =>
        (List.range 4).any (fun c => n = c && (k.queue c).any (fun x => x.id = p))))))))

/-- An engine fault is taken by the strand in entry e, whose PC is rpc (R289); at a QFENCE that joins the operation it is
flagged as a copy fault, whatever the queue (R183). -/
def State.takeFault (s : State) (w e : Nat) (f : EngFault) : State :=
  let x := s.warp w
  let pc := match x.strand e with
    | some t => t.pc
    | none => 0
  let joined := ((x.strand e).bind Strand.wait).any (fun v =>
    v.kind = .qfence && s.anyQueued w (fieldOf v.word 0 6) (fun o => decide (o.id = f.order)))
  (s.setWarp w { x with engFaults := x.engFaults.filter (fun g => g ≠ f) }).deliver w e
    { f.info with rpc := pc, copyF := f.info.copyF || joined }

/-- Whether a prefix word has a field that its entry does not admit: KSEL with a res0 bit or m = 0 (R88, R89). -/
def badPrefix (p : Word) : Bool :=
  match opInfo (opOf p) with
  | some i => !fieldsOk (opOf p) i (bits p 0 21)
  | none => true

/-- The next chain of the strand in entry e at its PC: fetched whole, then run. -/
def State.issueChain (run : Word → State → Host.Outcome State Fault Refusal) (s : State) (w e : Nat) (split : Bool) :
    Host.Outcome State Fault Refusal :=
  match (s.warp w).runner e with
  | none => .next s
  | some t =>
    let s := s.setIssue w e t.pc t.pc 0 split
    match s.fetchChain 4 t.pc [] 0 with
    | (.ask a, s) => .next (s.await .fetch [a])
    | (.bad pc c p, s) => .next ({ s with issue := { s.issue with pc := pc } }.raiseChain (TrapInfo.atAddr c p))
    | (.illop pc wd, s) =>
      .next ({ s with issue := { s.issue with pc := pc, word := wd } }.raiseChain (TrapInfo.of (.illop, 0)))
    | (.words pre pc wd, s) =>
      let s := { s with issue := { s.issue with pc := pc, next := pc + 4, word := wd } }
      match (if t.jumped then s.insideChain t.pc else .ok false) with
      | .error a => .next (s.await .fetch [a])
      | .ok inside =>
        if inside || pre.any badPrefix then .next (s.raiseChain (TrapInfo.of (.illop, 0))) else runWords run pre wd s

/-- A handler whose registers are not in the reserve gets them back first, when the reserve is free and its own block is
the latest one spilled (R82). The answer says whether the handler may go on. -/
def State.readyReserve (s : State) (w e : Nat) : State × Bool :=
  match (s.warp w).handlerAt e with
  | none => (s, true)
  | some h =>
    if h.inReserve then (s, true)
    else
      let q := s.quarterOf w
      let k := s.quarter q
      if k.owner.isSome || k.spilledOwners.head? ≠ some w || s.spilling w then (s, false)
      else
        let s := s.setIssue w e h.strand.pc h.strand.pc 0 false
        match s.refillReserve q s.issue.resp with
        | .ok s => (s, true)
        | .error (.ask asks) => (s.await .fetch asks, false)
        | .error _ => (s.mchk (dieOf (s.coreOfWarp w)) (s.ctxOfWarp w), false)

/-- Whether all that has been sent is answered (R321, R385). -/
def allAnswered (reqs : List HostReq) (resp : List HostResp) : Bool :=
  reqs.all (fun r => (respOf resp r.kind r.addr.toNat r.n).isSome)
/-- A TFENCE awaits the messages of others, whose answers go to them (R188). -/
def Wait.answered (v : Wait) : Bool := v.kind = .tfence || allAnswered v.reqs v.resp
/-- Whether the words that a strand's chain awaits have come, so that it issues again. -/
def Strand.fetched (t : Strand) : Bool := t.wait.any (fun v => v.kind = .fetch && v.answered)

/-- Whether step 3 of a COLL comes before the strands of a block that has been resumed (R324). -/
def State.collFirst (s : State) (b : Nat) : Bool :=
  (s.core (s.block b).core).cq.any (fun q => q.any (fun o => o.blk = b && decide (o.stage = 3) && !o.stopped && !o.performed))

/-- Whether the strand in an entry may issue: its warp runs and is not stopped, nothing holds it, and it is ready. -/
def State.candidate (s : State) (w e : Nat) : Bool :=
  let x := s.warp w
  decide (x.phase = .running) && x.stopped.isNone && (s.block x.blk).resid = .resident && !s.collFirst x.blk && !x.held e
    && (match x.runner e with
      | some t => t.st = .ready || t.fetched
      | none => false)

/-- Clocks that pass: the wait counts of a warp's candidates rise, and start at 0 for one that has just become ready or
issued. -/
def State.waitOn (s : State) (n w : Nat) : Warp :=
  [0, 1, 2, 3].foldl (fun (x : Warp) e => match x.runner e with
    | some t => x.setRunner e { t with waited := if s.candidate w e then some (match t.waited with
        | some m => m + n
        | none => n - 1) else none }
    | none => x) (s.warp w)

/-- The same for a quarter's idle counts: 0 on the clock after an issue of the class. -/
def Quarter.waitOn (k : Quarter) (n : Nat) : Quarter :=
  { k with
    idle := (List.range 5).map (fun c => if k.issued = some c then n - 1 else nth k.idle c 0 + n), issued := none }

/-- n clocks pass. -/
def State.passClocks (s : State) (n : Nat) : State :=
  if n = 0 then s
  else { s with
    clock := s.clock + n, warps := (List.range s.warps.length).map (s.waitOn n),
    quarters := s.quarters.map (fun q => (q.1, q.2.waitOn n)) }

/-- The KSEL selection at the front of a chain's prefixes. -/
def chainKs (pre : List Word) : Option (BitVec 1 × BitVec 3) :=
  match pre with
  | p :: _ => if opOf p = 3 then some (bits p 3 1, bits p 0 3) else none
  | [] => none

/-- The bits of a chain's XIMM prefixes. -/
def chainXs (pre : List Word) : List (BitVec 21) := (pre.filter (fun p => opOf p = 2)).map (fun p => bits p 0 21)

/-- Whether the next chain of the issuing strand may still run ahead of its pending fault; none while its words are not
known. -/
def State.runsAhead (s : State) (t : Strand) : Option Bool :=
  match s.fetchChain 4 t.pc [] 0 with
  | (.ask _, _) => none
  | (.words pre _ w, s') => match opInfo (opOf w) with
    | some info => some ({ s' with issue := { s'.issue with ks := chainKs pre, xs := chainXs pre } }.mayRunAhead info w)
    | none => some false
  | _ => some false

/-- A pending deferred fault is delivered at its strand's PC, which becomes rpc (R292). -/
def State.takeDeferred (s : State) (w e : Nat) (f : TrapInfo) : State :=
  match (s.warp w).strand e with
  | some t => { (s.setIssue w e t.pc t.pc 0 false).deliverFault f with issue := Issue.idle }
  | none => s

/-- Whether the deferred fault of the strand in an entry is due: the strand has reached a chain that may not run ahead (R292),
and waits for no miss group (R30). -/
def State.deferredDue (s : State) (w e : Nat) : Bool :=
  match (s.warp w).strand e with
  | none => false
  | some t =>
    t.fault.isSome && s.candidate w e && (
      let s := s.setIssue w e t.pc t.pc 0 false
      !s.inMiss && decide (s.runsAhead t = some false))

/-- The trap of a warp that is taken next, of those that are pending: that of the lowest entry which may take one, an engine
fault, or else its deferred fault (R289). -/
def State.dueFault (s : State) (w : Nat) : Option (Nat × Option EngFault) :=
  let x := s.warp w
  if x.handlers ≠ [] then none
  else firstSome (fun e => match x.strand e with
    | none => none
    | some t =>
      match (if t.takesFault && !x.held e then x.faultFor e else none) with
      | some f => some (e, some f)
      | none => if s.deferredDue w e then some (e, none) else none) [0, 1, 2, 3]

/-- Whether the strand in an entry awaits an engine fault before its next chain: one that it cannot take yet (R289). What its
operand log holds comes before that (R302). -/
def State.faultFirst (s : State) (w e : Nat) : Bool :=
  let x := s.warp w
  x.handlers = [] && (x.faultFor e).isSome && !(x.strand e).any (fun t => t.log ≠ [] && t.fault.isNone)

/-- The issue of a strand (R284 picks it): the trap that is due in its warp is taken before its next chain (R289), its log is
replayed before that chain (R294, R302), else the chain at its PC issues. -/
def State.issueStrand (run : Word → State → Host.Outcome State Fault Refusal) (s : State) (w e : Nat) (split : Bool) :
    Host.Outcome State Fault Refusal :=
  if !s.candidate w e then .next s
  else match s.dueFault w with
    | some (g, some f) => .next (s.takeFault w g f)
    | some (g, none) => .next (match ((s.warp w).strand g).bind Strand.fault with
      | some f => s.takeDeferred w g f
      | none => s)
    | none =>
      if s.faultFirst w e then .next s
      else
        let (s, ok) := s.readyReserve w e
        if !ok then .next s
        else match (s.warp w).runner e with
          | none => .next s
          | some t =>
            match (if t.fault.isSome || ((s.warp w).handlerAt e).isSome then none else t.log.head?) with
            | some l => run l.word (s.setLater w e l .log)
            | none => s.issueChain run w e split

/-- The issue of a waiting instruction as its wait record has it. -/
def State.waitIssue (s : State) (w e : Nat) (v : Wait) : State :=
  let s := s.setIssue w e v.chain v.pc v.word false
  { s with issue := { s.issue with ks := v.ks, xs := v.xs, replay := v.replay, src := v.src } }

/-- A waiting instruction tries again (R22): the run of its word, set up from its wait record. -/
def State.retryWait (run : Word → State → Host.Outcome State Fault Refusal) (s : State) (w e : Nat) :
    Host.Outcome State Fault Refusal :=
  match (s.warp w).runner e with
  | none => .next s
  | some t => match t.wait with
    | none => .next s
    | some v => run v.word (s.waitIssue w e v)

/-- The first memory instruction in flight of a strand runs: its accesses are made, or their answers have come (R291). -/
def State.landFlight (run : Word → State → Host.Outcome State Fault Refusal) (s : State) (w e : Nat) :
    Host.Outcome State Fault Refusal :=
  match ((s.warp w).strand e).bind (fun t => t.flight.head?) with
  | none => .next s
  | some l =>
    if allAnswered l.reqs l.resp then run l.word (s.setLater w e l .flight) else .next s

end Sys2Proof.Machine
end

