-- ==== Sys2Proof/Machine/Control.lean ====
section
/-! DEFINITION. The control instructions: prefixes, branches and divergence (R20 to R39), calls and windows (R59 to R71),
barriers (R344, R345), waits, traps, ERET and the control registers (R57, R356). -/

namespace Sys2Proof.Machine

open Sys2Proof

/-! Prefixes and transfers. -/

/-- XIMM adds its bits to the chain's immediate (R87, R90). -/
def execXimm (imm : BitVec 21) (s : State) : Out :=
  if s.issueOk then .next { s with issue := { s.issue with xs := s.issue.xs ++ [imm] } } else .fault .noStrand
/-- KSEL selects the lanes of the chain's instruction word (R88). -/
def execKsel (n : BitVec 1) (m : BitVec 3) (s : State) : Out :=
  if s.issueOk then .next { s with issue := { s.issue with ks := some (n, m) } } else .fault .noStrand

/-- BSC: the transfer when the scalar meets the condition (R347). -/
def branchScalar (d : BitVec 7) (imm : BitVec 14) (p : DWord → Bool) : Body := fun s =>
  .ok (if p (s.rdS d.toNat) then s.jump (s.target 14 imm.toNat) else s)

/-! Divergence (R23 to R29). -/

/-- Whether the issuing strand is topmost. -/
def State.topmost (s : State) : Bool :=
  let t := s.cs
  !s.inHandler && t.stack = [] && t.spilledRecs = 0 && t.kind ≠ .arm && !s.cw.det

/-- The spilled records of the strands that the issuing strand, as handler code, interrupted: its own lie above them. -/
def State.kbase (s : State) : Nat :=
  match s.cw.handlerAt s.issue.entry with
  | some h => h.kbase
  | none => 0

/-- A push by the issuing strand. -/
def State.push (s : State) (r : StackRec) : Except LadleErr (Strand × State) :=
  s.pushRec s.issue.warp s.issue.entry s.kbase s.cs r

/-- BRV (R23, R53): T the active lanes that meet the condition, N the strand's other lanes. -/
def branchVector (sense : Bool) (d : BitVec 7) (imm : BitVec 14) : Body := fun s =>
  let k := s.rdK d.toNat
  let tk := s.active &&& (if sense then k else ~~~k)
  let nt := s.k0 &&& ~~~tk
  let target := s.target 14 imm.toNat
  if tk = 0 then .ok s
  else if nt = 0 then .ok (s.jump target)
  else
    let t := s.cs
    let e := s.issue.entry
    let next := s.issue.pc + 4
    match (if s.topmost then (List.range 4).find? (fun f => (s.cw.strand f).isNone) else none) with
    | some f =>
      let a := { t with mask := nt, pc := next, kind := .arm, group := e, region := none, jumped := false,
                        st := .ready, wait := none }
      let b := { Strand.start tk target with kind := .arm, group := e, jumped := true }
      .ok ((s.putW ((s.cw.setStrand e (some a)).setStrand f (some b))).settled)
    | none =>
      match s.push ⟨s.k0, tk, target, false⟩ with
      | .error x => ladleStop s x
      | .ok (u, s) => .ok (s.putS { u with mask := nt, region := none })

/-- The valid strands of a split group that are not parked (R25, R34). -/
def Warp.groupArms (x : Warp) (g : Nat) : List Nat :=
  x.entries.filter (fun f => match x.strand f with
    | some t => t.kind = .arm && t.group = g && t.st ≠ .parked
    | none => false)

/-- The join of R25, when every strand of the group waits at a CONV: a merge where all wait at one PC, else the release
of the strand at the lowest. Each CONV that so retires counts once (R307). -/
def State.joinGroup (s : State) (w g : Nat) : State :=
  let x := s.warp w
  let ms := x.groupArms g
  let pcOf := fun (f : Nat) => match x.strand f with
    | some t => t.pc.toNat
    | none => 0
  if ms = [] || !ms.all (fun f => match x.strand f with
      | some t => t.st = .joining
      | none => false) then s
  else
    let lowPc := ms.foldl (fun m f => min m (pcOf f)) (2 ^ 57)
    let first := (ms.find? (fun f => pcOf f = lowPc)).getD 0
    if ms.all (fun f => pcOf f = lowPc) then
      let m : Mask := ms.foldl (fun m f => match x.strand f with
        | some t => m ||| t.mask
        | none => m) 0
      match x.strand first with
      | none => s
      | some t =>
        let u := { t with mask := m, pc := t.pc + 4, st := .ready, kind := .root, wait := none, region := none,
                          jumped := false }
        let x := ms.foldl (fun x f => x.setStrand f none) x
        ((s.setWarp w { (x.setStrand first (some u)) with
          lclk := x.lclk + BitVec.ofNat 64 ms.length }).stepTrap w first t.pc t.pc 0x01200000)
    else match x.strand first with
      | none => s
      | some t =>
        let u := { t with
          pc := t.pc + 4, st := .ready, wait := none, jumped := false,
          region := t.region.map (fun r => { r with ran := r.ran + 1 }) }
        ((s.setWarp w { (x.setStrand first (some u)) with lclk := x.lclk + 1 }).stepTrap w first t.pc t.pc 0x01200000)

/-- CONV (R24). -/
def converge : Body := fun s =>
  let t := s.cs
  match t.stack with
  | top :: rest =>
    if !top.done && top.pending ≠ 0 then
      .ok ((s.putS { t with
        mask := top.pending, stack := { top with ppc := s.issue.chain, done := true } :: rest, region := none }).jump top.ppc)
    else
      match s.popRec s.issue.warp s.issue.entry s.kbase s.issue.resp t with
      | .error x => ladleStop s x
      | .ok (u, s) => .ok (s.putS { u with mask := top.saved, region := if top.saved = t.mask then u.region else none })
  | [] =>
    if t.kind = .arm && !s.inHandler then
      .error (.done ((s.putS { t with st := .joining, wait := none }).joinGroup s.issue.warp t.group))
    else .ok s

/-! Lanes that leave (R26, R39, R360). -/

/-- A strand that has lost its last running lanes no longer waits for what it waited for (DESIGN CHOICE, log entry 72: R360
gives the loop of the strand that issues the EXIT alone). -/
def Strand.idle (t : Strand) : Strand :=
  if t.st = .parked then { t with parkSt := .ready, wait := none } else { t with st := .ready, wait := none }

/-- A strand that has lost lanes runs its pending path or pops, until it has lanes or an empty stack (R360); `base` counts the
records of other strands below those that it has spilled. -/
def State.drainFrom (s : State) (w e base : Nat) (rs : List HostResp) : Nat → Strand → Except LadleErr (Strand × State)
  | 0, t => .ok (t, s)
  | n + 1, t =>
    if t.mask ≠ 0 then .ok (t, s)
    else match t.stack with
      | [] => .ok (t, s)
      | top :: rest =>
        if !top.done && top.pending ≠ 0 then
          let u := t.idle
          .ok ({ u with mask := top.pending, pc := top.ppc, jumped := true, stack := { top with done := true } :: rest,
                        region := none }, s)
        else match s.popRec w e base rs t with
          | .error x => .error x
          | .ok (u, s) =>
            let u := u.idle
            let u := { u with mask := top.saved, region := none }
            let u := if top.done && top.saved ≠ 0 then { u with pc := top.ppc + 4, jumped := true } else u
            s.drainFrom w e base rs n u

/-- A strand without some lanes, in its mask and in its stack. -/
def Strand.without (t : Strand) (m : Mask) : Strand :=
  { t with mask := t.mask &&& ~~~m,
           stack := t.stack.map (fun r => { r with saved := r.saved &&& ~~~m, pending := r.pending &&& ~~~m }) }

/-- Lanes leave the warp: every strand loses them, and an empty strand's entry becomes free (R26, R360). -/
def State.removeLanes (s : State) (w : Nat) (m : Mask) (rs : List HostResp) : List Nat → Except LadleErr State
  | [] => .ok s
  | e :: r =>
    match (s.warp w).strand e with
    | none => s.removeLanes w m rs r
    | some t =>
      if t.mask &&& m = 0 && t.stack = [] then s.removeLanes w m rs r
      else match s.drainFrom w e 0 rs 100 (t.without m) with
        | .error x => .error x
        | .ok (u, s) =>
          (s.setWarp w ((s.warp w).setStrand e (if u.mask = 0 then none else some u))).removeLanes w m rs r

/-- The helper lanes that leave with the last other lanes of their quad (R39). Those of a quad that has had no other lane leave
at the first EXIT of any lane of the warp (DESIGN CHOICE, log entry 72). -/
def leavingHelpers (lanes helpers : Mask) : Mask :=
  maskOf (fun l => lanes.getLsbD l && helpers.getLsbD l
    && (List.range 4).all (fun i => let j := l / 4 * 4 + i; !lanes.getLsbD j || helpers.getLsbD j))

/-- Whether a warp counts as arrived at BAR or BARG n: every valid strand that is not parked waits there, or it has exited
(R344). A stopped warp and one in handler code have not. -/
def State.arrived (s : State) (kind : WaitKind) (n w : Nat) : Bool :=
  let x := s.warp w
  if x.phase ≠ .running then true
  else x.stopped.isNone && x.handlers = [] && x.entries.all (fun e => match x.strand e with
    | some t => t.st = .parked || (match t.wait with
      | some v => v.kind = kind && fieldOf v.word 0 7 = n
      | none => false)
    | none => true)

/-- Every strand of the warps that waits at barrier n goes on. -/
def State.releaseBar (s : State) (kind : WaitKind) (n : Nat) (ws : List Nat) : State :=
  ws.foldl (fun s w => (s.warp w).entries.foldl (fun s e => match (s.warp w).strand e with
    | some t => match t.wait with
      | some v => if v.kind = kind && fieldOf v.word 0 7 = n && t.st ≠ .parked then s.finishWait w e else s
      | none => s
    | none => s) s) s

/-- The resident blocks of a block's gang (R18, R345). -/
def State.gangOf (s : State) (b : Nat) : List Nat :=
  let g := recGang (s.recOf b)
  (s.blocksOf (s.block b).launch).filter (fun c => (s.block c).idx / g = (s.block b).idx / g)

/-- The indices at which some strand of the warps waits. -/
def State.barIndices (s : State) (kind : WaitKind) (ws : List Nat) : List Nat :=
  (List.range 16).filter (fun n => ws.any (fun w => (s.warp w).entries.any (fun e => match (s.warp w).strand e with
    | some t => match t.wait with
      | some v => v.kind = kind && fieldOf v.word 0 7 = n
      | none => false
    | none => false)))

/-- The barriers of a block, and of its gang, that are complete release their strands (R344, R345). -/
def State.settleBars (s : State) (b : Nat) : State :=
  let ws := (s.block b).warps
  let s := (s.barIndices .bar ws).foldl (fun s n => if ws.all (s.arrived .bar n) then s.releaseBar .bar n ws else s) s
  let gang := s.gangOf b
  let gws := gang.flatMap (fun c => (s.block c).warps)
  (s.barIndices .barg gws).foldl (fun s n =>
    if gang.all (fun c => (s.block c).resid = .resident) && gws.all (s.arrived .barg n) then s.releaseBar .barg n gws
    else s) s

/-- Joins of the warp that no longer wait for anyone (R25, R26). -/
def State.settleJoins (s : State) (w : Nat) : State := (List.range 4).foldl (fun s g => s.joinGroup w g) s

/-! The return (R69). -/

/-- The strands that wait at a RET, and whether every strand of the warp that is not parked does. -/
def Warp.atRet (x : Warp) : List Nat :=
  x.entries.filter (fun e => match x.strand e with
    | some t => (match t.wait with
      | some v => v.kind = .ret && t.st ≠ .parked
      | none => false)
    | none => false)
def Warp.allAtRet (x : Warp) : Bool :=
  x.atRet ≠ [] && x.entries.all (fun e => match x.strand e with
    | some t => t.st = .parked || x.atRet.contains e
    | none => true)

/-- A strand is parked by a CALL that makes depth d, and returns to its previous state; the clocks that it had waited are
kept in between (R34, R296). -/
def Strand.park (t : Strand) (d clock : Nat) : Strand :=
  { t with parkSt := t.st, st := .parked, parkDepth := d, wait := t.wait.map (fun (v : Wait) => { v with since := clock - v.since }) }
def Strand.unpark (t : Strand) (clock : Nat) : Strand :=
  { t with st := t.parkSt, wait := t.wait.map (fun (v : Wait) => { v with since := clock - v.since }) }

/-- Whether the strands of a warp that wait at a RET have the mask-stack depth of a caller's record (R69). -/
def Warp.retDepths (x : Warp) (r : FrameRec) : Bool :=
  x.atRet.all (fun e => (x.strand e).all (fun t => decide (t.depth = r.kdepth)))

/-- The return of a warp whose strands all wait at a RET; the error is that of the RET of the lowest entry. The depths are
compared before a spilled record's block is read. -/
def State.returnAll (s : State) (w : Nat) (rs : List HostResp) : Except Stop State :=
  let x := s.warp w
  if x.depth = 0 then trapE s (.stacklim, 0)
  else
    let had : Except LadleErr State := if x.callers = [] then s.refillNewest w rs x.retDepths else .ok s
    match had with
    | .error e => ladleStop s e
    | .ok s' =>
      let x := s'.warp w
      match x.callers.getLast? with
      | none => trapE s (.stacklim, 0)
      | some r =>
        let ms := x.atRet
        if !x.retDepths r then trapE s (.stacklim, 0)
        else
          let low := ms.head?.getD 0
          match x.strand low with
          | none => trapE s (.stacklim, 0)
          | some t =>
            let m : Mask := ms.foldl (fun m e => match x.strand e with
              | some u => m ||| u.mask
              | none => m) 0
            let kind : SKind := if r.callkind = 0 then .root else if r.callkind = 1 then .arm else .miss
            let u := { t with mask := m, kind := kind, group := r.callgroup, pc := r.retpc, jumped := true, st := .ready,
                              wait := none, region := none }
            let d := x.depth
            let x' := (ms.foldl (fun x e => x.setStrand e none) x).setStrand low (some u)
            let x' := x'.entries.foldl (fun x e => match x.strand e with
              | some v => if v.st = .parked && v.parkDepth = d then x.setStrand e (some (v.unpark s.clock)) else x
              | none => x) x'
            let s := s'.setWarp w { (x'.restore r) with lclk := x.lclk + BitVec.ofNat 64 ms.length }
            .ok (match t.wait with
              | some v => s.stepTrap w low v.chain v.pc v.word
              | none => s)

/-- What is settled for a warp after lanes have left or strands were parked: a return that all now wait at, with its trap
taken by the lowest entry, whose RET also awaits what the refill asks of host memory. -/
def State.settleRet (s : State) (w : Nat) : State :=
  let x := s.warp w
  if x.phase = .running && x.handlers = [] && x.stopped.isNone && x.allAtRet then
    match s.returnAll w [] with
    | .ok s => s
    | .error (.trap i s) =>
      let low := (s.warp w).atRet.head?.getD 0
      match ((s.warp w).strand low).bind Strand.wait with
      | some v => s.deliver w low { i with fpc := v.chain, rpc := v.chain, after := v.pc + 4, word := v.word }
      | none => s
    | .error (.ask asks s) =>
      let low := (s.warp w).atRet.head?.getD 0
      match ((s.warp w).strand low).bind Strand.wait with
      | some v => (s.waitIssue w low v).await .host asks
      | none => s
    | .error _ => s
  else s

/-- RET: the strand waits until every strand that is not parked is at a RET (R69). -/
def returnBody : Body := fun s =>
  if s.inHandler then trapE s (.prot, 11)
  else
    let s' := s.setWait .ret 0 []
    if s'.cw.allAtRet then
      match s'.returnAll s.issue.warp s.issue.resp with
      | .ok r => .error (.done r)
      | .error (.trap i r) => .error (.trap i r)
      | .error p => .error p
    else waitE s .ret

/-- The lanes that a strand runs or has pending in its mask stack. -/
def Strand.owned (t : Strand) : Mask := t.stack.foldl (fun m r => m ||| r.saved ||| r.pending) t.mask
/-- The lanes of the parked strands, or of the others. -/
def Warp.lanesWhere (x : Warp) (parked : Bool) : Mask :=
  x.entries.foldl (fun m e => match x.strand e with
    | some t => if decide (t.st = .parked) = parked then m ||| t.owned else m
    | none => m) 0
/-- The lanes of the parked strands, those pending in their stacks among them. Every lane belongs to one strand, so where
their records are spilled the lanes are those that the others do not have (R360). -/
def Warp.parkedLanes (x : Warp) : Mask :=
  if x.entries.any (fun e => (x.strand e).any (fun t => decide (t.st = .parked) && decide (t.spilledRecs ≠ 0))) then
    x.lanes &&& ~~~x.lanesWhere false
  else x.lanesWhere true
def Warp.anyParked (x : Warp) : Bool :=
  x.entries.any (fun e => match x.strand e with
    | some t => decide (t.st = .parked)
    | none => false)

/-- The strand after the chain being issued, its region closed. -/
def State.afterChain (s : State) (t : Strand) : Strand :=
  { t with pc := s.issue.pc + 4, st := .ready, wait := none, jumped := false, region := none }

/-- The handlers whose strands an EXIT in handler code has left without lanes end, from the innermost outwards; the reserve
of the innermost is free, and the block of another's is abandoned (log entry 27). -/
def State.endHandlers (s : State) (w : Nat) : Nat → State
  | 0 => s
  | n + 1 =>
    let x := s.warp w
    match x.handlers with
    | [] => s
    | h :: r =>
      if h.strand.mask ≠ 0 then s
      else
        let q := s.quarterOf w
        let k := s.quarter q
        let k := if h.inReserve then { k with owner := none, rv := [], rs := [] } else { k with spilledOwners := k.spilledOwners.erase w }
        ((s.setQuarter q k).setWarp w { x with handlers := r }).endHandlers w n

/-- The handlers of a warp without some lanes, their strands' pending paths run as R360 says. -/
def State.drainHandlers (s : State) (w : Nat) (gone : Mask) (rs : List HostResp) : List Handler → Except LadleErr (List Handler × State)
  | [] => .ok ([], s)
  | h :: r =>
    match s.drainFrom w h.entry h.kbase rs 100 (h.strand.without gone) with
    | .error x => .error x
    | .ok (t, s) => match s.drainHandlers w gone rs r with
      | .error x => .error x
      | .ok (hs, s) => .ok ({ h with strand := t } :: hs, s)

/-- EXIT in handler code: the strands of all the warp's handlers lose the lanes, the outer handlers' among them. -/
def State.exitHandler (s : State) (gone : Mask) : Except LadleErr State :=
  let w := s.issue.warp
  match s.drainHandlers w gone s.issue.resp (s.warp w).handlers with
  | .error x => .error x
  | .ok (hs, s) => .ok ((s.setWarp w { s.warp w with handlers := hs }).endHandlers w hs.length)

/-- What follows from lanes that have left: the warp begins to exit, or joins, returns and barriers that no longer wait
for them go on (R26, R344, R360). -/
def State.afterExit (s : State) (w : Nat) : State :=
  if (s.warp w).lanes = 0 then
    ((s.freeReserves w).setWarp w { s.warp w with phase := .exiting, handlers := [] }).settleBars (s.warp w).blk
  else ((s.settleJoins w).settleRet w).settleBars (s.warp w).blk

/-- EXIT (R360). -/
def exitBody : Body := fun s =>
  let w := s.issue.warp
  let x := s.cw
  let out := s.active
  if out = 0 then .ok s
  else if x.anyParked && decide (out = x.lanes &&& ~~~x.parkedLanes) then trapE s (.stacklim, 0)
  else
    let left := x.lanes &&& ~~~out
    let gone := out ||| leavingHelpers left x.helpers
    let s1 := s.putW { x with lanes := x.lanes &&& ~~~gone }
    -- the strand goes on after the EXIT unless a pop says otherwise
    let s2 := s1.putS (s1.afterChain s1.cs)
    match (if s.inHandler then s2.exitHandler gone else .ok s2) with
    | .error e => ladleStop s e
    | .ok s3 => match s3.removeLanes w gone s.issue.resp [0, 1, 2, 3] with
      | .error e => ladleStop s e
      | .ok s4 => .ok (s4.afterExit w).settled

/-! Calls and windows (R62 to R70). -/

/-- The window instructions raise PROT in handler code (R81, R285). Registers that memory instructions of the warp's other
strands still read and write keep their names until those have ended (R62; log entry 67). -/
def windowBody (b : Body) : Body := fun s =>
  if s.inHandler then trapE s (.prot, 11)
  else if s.cw.othersPending s.issue.entry then waitE s .flights
  else b s

/-- CALL and CALLI (R34, R67). -/
def callBody (target : State → Except Stop Va) : Body := windowBody fun s =>
  match target s with
  | .error p => .error p
  | .ok t =>
    let w := s.issue.warp
    let had : Except LadleErr State := if s.cw.callers.length = 8 then s.spillOldest w else .ok s
    match had with
    | .error e => ladleStop s e
    | .ok s =>
      let x := s.cw
      let c := s.cs
      let e := s.issue.entry
      let dv := min x.vo x.effF
      let kind := match c.kind with
        | .root => 0
        | .arm => 1
        | .miss => 2
      let r : FrameRec :=
        { retpc := s.issue.pc + 4, vf := x.vf, vo := x.vo, sf := x.sf, so := x.so, dv := dv, ds := x.so, kdepth := c.depth,
          callentry := e, callkind := kind, callgroup := c.group,
          ahead := none }
      let d := x.depth + 1
      let x1 := x.entries.foldl (fun y f => match y.strand f with
        | some u => if f ≠ e && u.st ≠ .parked then
            y.setStrand f (some (u.park d s.clock)) else y
        | none => y) x
      .ok ((s.putW { x1 with
        callers := x.callers ++ [r], vb := (x.vb + dv) % x.ring, sb := (x.sb + x.so) % 64, vf := x.effF - dv, vo := 0,
        sf := x.sf - x.so, so := 0 }).jump t)

/-- FRAME (R66). -/
def frameBody (imm : BitVec 14) : Body := windowBody fun s =>
  let n := imm.toNat
  let vf := field n 0 4 * 8
  let vo := field n 4 4 * 8
  let sf := field n 8 3 * 8
  let so := field n 11 3 * 8
  if vf < vo || 48 < sf || sf < so then trapE s (.illop, 0)
  else match s.spillFor s.issue.warp vf sf 9 with
    | (s, some e) => ladleStop s e
    | (s, none) => .ok (s.putW { s.cw with vf := vf, vo := vo, sf := sf, so := so })

/-- WBASE (R70). -/
def wbaseBody (a : BitVec 7) : Body := windowBody fun s =>
  let x := s.cw
  let v := s.rdS a.toNat
  -- no later RET matches a CALL that is discarded: the strands that it parked stay parked (R34)
  .ok (s.putW { x with
    strands := x.strands.map (fun (t : Option Strand) => t.map (fun (u : Strand) =>
      if u.st = .parked then { u with parkDepth := 0 } else u)),
    callers := [], spilled := 0, sptr := 0, vb := fieldOf v 0 8 % x.ring, sb := fieldOf v 8 8 % 64 })

/-- The rebase of R62: the first n registers of the frame move to slots 0 to n - 1; every other slot is zero. -/
def rebase (old new : Warp) (n : Nat) : Warp :=
  let globals := old.vregs.filter (fun r => r.1 < 8)
  let moved := (List.range n).foldl (fun r i =>
    spSet 0 r (8 + i) (spGet 0 old.vregs (8 + (old.vb + i) % old.ring))) globals
  { new with vregs := moved, vb := 0 }

/-- Whether a block holds resources of its core: resident, or its state being saved (R300). -/
def State.onCore (s : State) (b : Nat) : Bool :=
  (s.block b).resid = .resident || (s.block b).resid = .saving

/-- The warps that hold registers of a quarter. -/
def State.warpsAt (s : State) (q : Nat) : List Nat :=
  (List.range s.warps.length).filter (fun w => (s.warp w).phase ≠ .gone && s.onCore (s.warp w).blk && s.quarterOf w = q)

/-- The registers of a quarter that lie in no base block and no extended block and do not drain (R60, R83). -/
def State.pool (s : State) (q : Nat) : Nat :=
  let used := ((s.warpsAt q).map (fun w => (s.warp w).allot)).sum
  Config.allottable - used - (s.quarter q).draining.foldl (fun n d => n + d.2) 0

/-- Whether a warp's RGROW stands before another's in the arrival order of its quarter (R62). -/
def State.firstToGrow (s : State) (w : Nat) (mine : Nat) : Bool :=
  let q := s.quarterOf w
  (List.range s.warps.length).all (fun v => v = w || s.quarterOf v ≠ q || (s.warp v).entries.all (fun e =>
    match ((s.warp v).strand e).bind Strand.wait with
    | some t => t.kind ≠ .rgrow || mine < t.seq
    | none => true))

/-- RGROW (R62). -/
def rgrowBody (d : BitVec 7) : Body := windowBody fun s =>
  let x := s.cw
  let w := s.issue.warp
  let answer := fun (s : State) => s.wrS d.toNat (BitVec.ofNat 64 s.cw.allot)
  if x.ext then .ok (answer s)
  else
    let mine := match s.cs.wait with
      | some v => if v.kind = .rgrow then v.seq else s.seq
      | none => s.seq
    if s.pool (s.quarterOf w) < 64 || !s.firstToGrow w mine then waitE s .rgrow
    else match s.spillAll w 9 with
      | (s, some e) => ladleStop s e
      | (s, none) =>
        let x := s.cw
        .ok (answer (s.putW (rebase x { x with ext := true } x.effF)))

/-- RSHRINK (R62). -/
def rshrinkBody (d : BitVec 7) : Body := windowBody fun s =>
  let w := s.issue.warp
  let answer := fun (s : State) => s.wrS d.toNat (BitVec.ofNat 64 s.cw.allot)
  if !s.cw.ext then .ok (answer s)
  else match s.spillAll w 9 with
    | (s, some e) => ladleStop s e
    | (s, none) =>
      let x := s.cw
      let y := { x with ext := false }
      let vf := min x.vf y.ring
      let y := { y with vf := vf, vo := min x.vo vf }
      .ok (answer (s.putW (rebase x y y.effF)))

/-! Waits. -/

/-- Whether an operation is a COPY, a COPYM or the follow-on of one. -/
def EngOp.isCopy (o : EngOp) : Bool :=
  match o.kind with
  | .copy _ _ _ _ => true
  | .copym _ _ _ => true
  | .mat _ => o.parent.isSome
  | _ => false

/-- The operations of a queue up to the first of them for which p holds. -/
def upTo (p : EngOp → Bool) : List EngOp → List EngOp
  | [] => []
  | o :: r => if p o then [] else o :: upTo p r

/-- Whether a matrix operation stands at or behind an operation of its warp that stopped at a fault. -/
def Core.matStuck (k : Core) (o : EngOp) : Bool :=
  k.mq.any (fun q => q.any (fun x => x.id = o.id) && !(upTo (fun x => x.warp = o.warp && x.stopped) q).any (fun x => x.id = o.id))
/-- Whether a copy has stopped at a fault, or its follow-on MMA cannot go on. -/
def Core.copyStuck (k : Core) (o : EngOp) : Bool :=
  o.stopped || k.mq.flatten.any (fun f => f.parent = some o.id && k.matStuck f)

/-- Whether YIELD waits for the warp's copies: one of them can still complete before a fault of the warp is taken (R165,
R409; log entry 41). -/
def State.copiesOut (s : State) (w : Nat) : Bool :=
  let k := s.core (s.coreOfWarp w)
  k.cq.any (fun q => (upTo (fun o => o.warp = w && k.copyStuck o) q).any (fun o => o.warp = w && o.isCopy))

/-- YIELD (R165, R409). -/
def yieldBody (imm : BitVec 21) : Body := fun s =>
  if s.copiesOut s.issue.warp then waitE s .yield else .ok (s.jump (s.target 21 imm.toNat))

/-- WAIT (R408): accesses are performed in order here, so the first condition holds at once. -/
def waitBody (imm : BitVec 14) : Body := fun s =>
  let paused := match s.cs.wait with
    | some v => if v.kind = .pause then some v.until_ else none
    | none => none
  match paused with
  | some u => if s.clock < u then .error (.wait .pause u s) else .ok s
  | none =>
    if imm.getLsbD 1 && (s.opsOf s.issue.warp).any (fun o => o.entry = s.issue.entry && o.writesRows) then waitE s .board
    else
      let p := fieldOf imm 2 12
      if p = 0 then .ok s else .error (.wait .pause (s.clock + p) s)

/-- An atomic load of 8 bytes by the strand, which waits for what `k` names (R364, R375): read at home, or asked of the
host. -/
def State.atomicLoad (s : State) (k : WaitKind) (p : Nat) : Except Stop (Nat × State) :=
  match s.resolve s.who false .read p 8 with
  | .error e => trapA s e p
  | .ok t =>
    if leafKind t.leaf = 2 then
      match hostAns s.issue.resp 0 p 8 with
      | some (.error e) => trapA s e p
      | some (.ok v) => .ok (v, { s with issue := { s.issue with resp := [], sent := [] } })
      | none => .error (.poll k [askRead p 8 t.pa] (s.touch s.who (field p 0 57) t false))
    else let (bs, s) := s.homeRead s.who (field p 0 57) 8 t false; .ok (ofBytes bs, s)

/-- The answer to a poll of host memory is spent: another poll asks again. -/
def State.pollAgain (s : State) (p : Nat) (k : WaitKind) : Except Stop State :=
  match s.resolve s.who false .read p 8 with
  | .ok t => if leafKind t.leaf = 2 then .error (.poll k [askRead p 8 t.pa] s) else waitE s k
  | .error _ => waitE s k

/-- MWAIT (R375): waits until the step counter reaches the step or shows an error; then an acquire at system scope. -/
def mwaitBody (a b : BitVec 7) : Body := fun s =>
  let rr := (s.rdS a.toNat).toNat
  let st := s.rdS b.toNat
  if rr % 64 ≠ 0 then trapE s eAlign
  else if st.getLsbD 63 then trapE s (.shape, 0)
  else match s.atomicLoad .mwait rr with
    | .error p => .error p
    | .ok (c, s) =>
      if field c 0 63 < st.toNat && field c 63 1 = 0 then s.pollAgain rr .mwait
      else .ok (s.acquireL1 (s.coreOfWarp s.issue.warp))

/-- IDEM opens a region (R297). -/
def idemBody : Body := fun s =>
  .ok (s.putS { s.cs with region := some ⟨s.issue.chain, s.cs.mask, s.cw.lclk, 0⟩ })

/-- BAR and BARG: the strand waits; a barrier that is complete releases every strand at it (R344, R345). -/
def barBody (k : WaitKind) : Body := fun s => .error (.done ((s.setWait k 0 []).settleBars s.cw.blk))

/-- LCLK (R308). -/
def lclkBody (d a : BitVec 7) : Body := fun s =>
  let n := s.cw.lclk
  let add := (lowWord (s.rdS a.toNat)).setWidth 64
  let s := s.wrS d.toNat n
  -- an open region counts what is added, so that its restart returns to the clock before it (R301)
  let s := s.putS { s.cs with region := s.cs.region.map (fun r => { r with ran := r.ran + add.toNat }) }
  .ok (s.putW { s.cw with lclk := s.cw.lclk + add })

/-- ERET (R293, R294). -/
def eretBody (a b : BitVec 7) : Body := fun s =>
  if !s.inHandler then trapE s (.prot, 11)
  else
    let v := s.rdS a.toNat
    let t := s.rdS b.toNat
    if fieldOf v 2 62 ≠ 0 then trapE s (.illop, 0)
    else if fieldOf v 0 2 = 2 && fieldOf t 0 2 ≠ 0 then trapE s eAlign
    else .error (.done (s.leaveHandler s.issue.warp (fieldOf v 0 2) (t.setWidth 57)))

/-! Control registers (R57, R356, R357). -/

/-- ctl.winb (R65). -/
def Warp.winb (x : Warp) : Nat :=
  x.vb + x.sb * 2 ^ 8 + (x.vf / 8) * 2 ^ 16 + (x.vo / 8) * 2 ^ 20 + (x.sf / 8) * 2 ^ 24 + (x.so / 8) * 2 ^ 27
    + x.depth * 2 ^ 32

/-- ctl.ingcal at a calendar phase (R154). -/
def ingcal (phase : Nat) : Nat :=
  let busy := phase % Config.bankPeriod < Config.bankRefresh
  let bank := if busy then phase / Config.bankPeriod else (phase / Config.bankPeriod + 1) % 16
  let wait := if busy then Config.bankRefresh - phase % Config.bankPeriod else Config.bankPeriod - phase % Config.bankPeriod
  phase + bank * 2 ^ 16 + (if busy then 2 ^ 20 else 0) + wait * 2 ^ 32

/-- The phase of a die's calendar (R154). -/
def State.calPhase (s : State) (d : Nat) : Nat := (s.clock - (s.die d).calBase) % Config.calPeriod

/-- A control register by number (R57). -/
def State.ctl (s : State) (n : Nat) : Nat :=
  let x := s.cw
  match n with
  | 0 => x.fpm.toNat
  | 1 => x.fst.toNat
  | 2 => if x.det then 1 else 0
  | 3 => x.accb.toNat
  | 4 => x.accl.toNat
  | 5 => x.winb
  | 6 => x.spb.toNat
  | 7 => x.flen.toNat + x.sptr.toNat * 2 ^ 32
  | 8 => x.mprog.toNat
  | 9 => x.trapv.toNat
  | 10 => x.barlim.toNat
  | 11 => ingcal (s.calPhase (dieOf (s.coreOfWarp s.issue.warp)))
  | _ => 0

/-- Whether spilled data stands in the warp's region, which forbids a write of ctl.spb and ctl.spl (R77). -/
def Warp.hasSpilled (x : Warp) : Bool :=
  decide (x.sptr ≠ 0) || x.handlers.any (fun h => h.strand.spilledRecs ≠ 0) ||
  x.entries.any (fun e => match x.strand e with
    | some t => t.spilledRecs ≠ 0
    | none => false)

/-- CTLW (R10, R57, R77, R126, R357). -/
def ctlwBody (a imm : BitVec 7) : Body := fun s =>
  let x := s.cw
  let v := s.rdS a.toNat
  match imm.toNat with
  | 0 => .ok (s.putW { x with fpm := v.setWidth 10 })
  | 1 => .ok (s.putW { x with fst := v.setWidth 6 })
  | 6 => if x.hasSpilled then trapE s (.prot, 0) else .ok (s.putW { x with spb := BitVec.ofNat 64 (fieldOf v 8 49 * 256) })
  | 7 => if x.hasSpilled then trapE s (.prot, 0) else .ok (s.putW { x with flen := BitVec.ofNat 32 (fieldOf v 8 24 * 256) })
  | 9 => .ok (s.putW { x with trapv := BitVec.ofNat 64 (fieldOf v 0 57) })
  | 10 => .ok (s.putW { x with barlim := lowWord v })
  | _ => .ok s

/-- NOP (R376). -/
def execNop (s : State) : Out :=
  perform (wordDab 0x001 0 0 0) (fun s => .ok s) s

/-- BRA (R347). -/
def execBra (imm : BitVec 21) (s : State) : Out :=
  perform (wordOf 0x004 imm) (fun s => .ok (s.jump (s.target 21 imm.toNat))) s

/-- BSC.z (R347). -/
def execBscZ (d : BitVec 7) (imm : BitVec 14) (s : State) : Out :=
  perform (wordDi 0x005 d imm) (branchScalar d imm (fun x => x = 0)) s

/-- BSC.nz (R347). -/
def execBscNz (d : BitVec 7) (imm : BitVec 14) (s : State) : Out :=
  perform (wordDi 0x006 d imm) (branchScalar d imm (fun x => x ≠ 0)) s

/-- BRV.t (R23, R348). -/
def execBrvT (d : BitVec 7) (imm : BitVec 14) (s : State) : Out :=
  perform (wordDi 0x007 d imm) (branchVector true d imm) s

/-- BRV.f (R23, R348). -/
def execBrvF (d : BitVec 7) (imm : BitVec 14) (s : State) : Out :=
  perform (wordDi 0x008 d imm) (branchVector false d imm) s

/-- CONV (R24, R25). -/
def execConv (s : State) : Out :=
  perform (wordDab 0x009 0 0 0) (converge) s

/-- EXIT (R360). -/
def execExit (s : State) : Out :=
  perform (wordDab 0x00A 0 0 0) (exitBody) s

/-- YIELD (R409). -/
def execYield (imm : BitVec 21) (s : State) : Out :=
  perform (wordOf 0x00B imm) (yieldBody imm) s

/-- WAIT (R408). -/
def execWait (imm : BitVec 14) (s : State) : Out :=
  perform (wordDi 0x00C 0 imm) (waitBody imm) s

/-- MWAIT (R375). -/
def execMwait (a b : BitVec 7) (s : State) : Out :=
  perform (wordDab 0x00D 0 a b) (mwaitBody a b) s

/-- IDEM (R297). -/
def execIdem (s : State) : Out :=
  perform (wordDab 0x00E 0 0 0) (idemBody) s

/-- BAR (R344). -/
def execBar (imm : BitVec 7) (s : State) : Out :=
  perform (wordDab 0x00F 0 0 imm) (barBody .bar) s

/-- BARG (R345). -/
def execBarg (imm : BitVec 7) (s : State) : Out :=
  perform (wordDab 0x017 0 0 imm) (barBody .barg) s

/-- CALL (R67). -/
def execCall (imm : BitVec 21) (s : State) : Out :=
  perform (wordOf 0x010 imm) (callBody (fun s => .ok (s.issue.pc + BitVec.ofInt 57 (sext 21 imm.toNat * 4)))) s

/-- CALLI (R67): a target that is not a multiple of 4 raises ALIGN. -/
def execCalli (a : BitVec 7) (s : State) : Out :=
  perform (wordDab 0x011 0 a 0) (callBody (fun s =>
    if fieldOf (s.rdS a.toNat) 0 2 ≠ 0 then trapE s eAlign else .ok ((s.rdS a.toNat).setWidth 57))) s

/-- RET (R69). -/
def execRet (s : State) : Out :=
  perform (wordDab 0x012 0 0 0) (returnBody) s

/-- FRAME (R66). -/
def execFrame (imm : BitVec 14) (s : State) : Out :=
  perform (wordDi 0x013 0 imm) (frameBody imm) s

/-- WBASE (R70). -/
def execWbase (a : BitVec 7) (s : State) : Out :=
  perform (wordDab 0x014 0 a 0) (wbaseBody a) s

/-- RGROW (R62). -/
def execRgrow (d : BitVec 7) (s : State) : Out :=
  perform (wordDab 0x015 d 0 0) (rgrowBody d) s

/-- RSHRINK (R62). -/
def execRshrink (d : BitVec 7) (s : State) : Out :=
  perform (wordDab 0x016 d 0 0) (rshrinkBody d) s

/-- LCLK (R308). -/
def execLclk (d a : BitVec 7) (s : State) : Out :=
  perform (wordDab 0x018 d a 0) (lclkBody d a) s

/-- TRAP raises SYS after it retires (R285, R293). -/
def execTrap (imm : BitVec 14) (s : State) : Out :=
  perform (wordDi 0x019 0 imm) (fun s => .error (.after { TrapInfo.of (.sys, 0) with imm := imm } s)) s

/-- BRKP raises BRKP, subcode 0, after it retires (R285, R293). -/
def execBrkp (imm : BitVec 14) (s : State) : Out :=
  perform (wordDi 0x01B 0 imm) (fun s => .error (.after { TrapInfo.of (.brkp, 0) with imm := imm } s)) s

/-- ERET (R293, R294). -/
def execEret (a b : BitVec 7) (s : State) : Out :=
  perform (wordDab 0x01A 0 a b) (eretBody a b) s

/-- CTLR (R356, R357). -/
def execCtlr (d imm : BitVec 7) (s : State) : Out :=
  perform (wordDab 0x01C d 0 imm) (fun s => .ok (s.wrS d.toNat (BitVec.ofNat 64 (s.ctl imm.toNat)))) s

/-- CTLW (R356, R357). -/
def execCtlw (a imm : BitVec 7) (s : State) : Out :=
  perform (wordDab 0x01D 0 a imm) (ctlwBody a imm) s

end Sys2Proof.Machine
end

