-- ==== Sys2Proof/Machine/Float.lean ====
section
/-! DEFINITION. Number formats and exact arithmetic (R119 to R140): values are exact, and every rounding is one
function. -/

namespace Sys2Proof.Machine

open Sys2Proof

/-- A floating-point format of R119 with infinities as FP64 has them, or E4M3, which has none. -/
structure Fmt where
  eb : Nat
  fb : Nat
  bias : Nat
  e4m3 : Bool
deriving DecidableEq, Repr

def fp64 : Fmt := ⟨11, 52, 1023, false⟩
def fp32 : Fmt := ⟨8, 23, 127, false⟩
def fp16 : Fmt := ⟨5, 10, 15, false⟩
def bf16 : Fmt := ⟨8, 7, 127, false⟩
def fpE4m3 : Fmt := ⟨4, 3, 7, true⟩
def fpE5m2 : Fmt := ⟨5, 2, 15, false⟩

/-- Bits of a format. -/
def Fmt.width (f : Fmt) : Nat := 1 + f.eb + f.fb

/-- The value of a bit pattern: NaN, an infinity, or (-1)^s × m × 2^e (R119). -/
inductive FVal where
  | nan
  | inf (s : Bool)
  | fin (s : Bool) (m : Nat) (e : Int)
deriving DecidableEq, Repr

/-- Rounding modes of ctl.fpm.rm (R125). -/
inductive RMode where
  | rne | rz | rp | rm
deriving DecidableEq, Repr
def RMode.ofField (n : Nat) : RMode :=
  match n with
  | 0 => .rne
  | 1 => .rz
  | 2 => .rp
  | _ => .rm

/-- The flags of ctl.fst (R126). -/
abbrev Flags := BitVec 6
def flNv : Flags := 1
def flDz : Flags := 2
def flOf : Flags := 4
def flUf : Flags := 8
def flNx : Flags := 16
def flSat : Flags := 32

/-- A result's bits, its flags, and whether it is tiny (R127). -/
structure FRes where
  bits : Nat
  fl : Flags
  tiny : Bool
deriving DecidableEq, Repr

/-- The value under a format (R119). -/
def decodeF (f : Fmt) (x : Nat) : FVal :=
  let s := decide (field x (f.eb + f.fb) 1 = 1)
  let e := field x f.fb f.eb
  let m := field x 0 f.fb
  if f.e4m3 && decide (e = 2 ^ f.eb - 1) && decide (m = 2 ^ f.fb - 1) then .nan
  else if !f.e4m3 && decide (e = 2 ^ f.eb - 1) then (if m = 0 then .inf s else .nan)
  else if e = 0 then .fin s m (1 - (f.bias : Int) - (f.fb : Int))
  else .fin s (m + 2 ^ f.fb) ((e : Int) - (f.bias : Int) - (f.fb : Int))

/-- The canonical NaN (R121): positive, quiet bit alone, and all of F in E4M3. -/
def canonNan (f : Fmt) : Nat :=
  if f.e4m3 then (2 ^ f.eb - 1) * 2 ^ f.fb + (2 ^ f.fb - 1) else (2 ^ f.eb - 1) * 2 ^ f.fb + 2 ^ (f.fb - 1)

/-- The sign in its place. -/
def signBit (f : Fmt) (s : Bool) : Nat := if s then 2 ^ (f.eb + f.fb) else 0
/-- Infinity of a sign (E4M3 has none and takes its NaN, R133). -/
def infBits (f : Fmt) (s : Bool) : Nat := if f.e4m3 then canonNan f else signBit f s + (2 ^ f.eb - 1) * 2 ^ f.fb
/-- The largest finite value of a sign (R119). -/
def maxBits (f : Fmt) (s : Bool) : Nat :=
  signBit f s + (if f.e4m3 then (2 ^ f.eb - 1) * 2 ^ f.fb + (2 ^ f.fb - 2) else (2 ^ f.eb - 2) * 2 ^ f.fb + (2 ^ f.fb - 1))

/-- m / 2^sh rounded to an integer under a mode, for a value of sign s, and whether it was inexact. -/
def roundShift (mode : RMode) (s : Bool) (m : Nat) (sh : Int) : Nat × Bool :=
  if sh ≤ 0 then (m * 2 ^ sh.neg.toNat, false)
  else
    let n := sh.toNat
    let q := m / 2 ^ n
    let r := m % 2 ^ n
    let half := 2 ^ (n - 1)
    let up := match mode with
      | .rne => decide (half < r) || (decide (r = half) && decide (q % 2 = 1))
      | .rz => false
      | .rp => decide (r ≠ 0) && !s
      | .rm => decide (r ≠ 0) && s
    (if up then q + 1 else q, decide (r ≠ 0))

/-- The overflow result of R127. -/
def overflowBits (f : Fmt) (mode : RMode) (s : Bool) : Nat :=
  match mode with
  | .rne => infBits f s
  | .rz => maxBits f s
  | .rp => if s then maxBits f s else infBits f s
  | .rm => if s then infBits f s else maxBits f s

/-- The nonzero value (-1)^s × m × 2^e rounded once to a format (R127). A value known to lie strictly between two
integers of a scale is passed with an odd m that stands for it. -/
def roundF (f : Fmt) (mode : RMode) (s : Bool) (m : Nat) (e : Int) : FRes :=
  let (q, inx) := roundShift mode s m ((Nat.log2 m : Int) - (f.fb : Int))
  let eq : Int := e + ((Nat.log2 m : Int) - (f.fb : Int))
  -- the result with unbounded exponent is q × 2^eq; q may have reached 2^(fb+1)
  let (q, eq) := if q = 2 ^ (f.fb + 1) then (2 ^ f.fb, eq + 1) else (q, eq)
  let be : Int := eq + (f.fb : Int) + (f.bias : Int)
  let top : Int := if f.e4m3 then 2 ^ f.eb - 1 else 2 ^ f.eb - 2
  if top < be || (f.e4m3 && decide (be = top) && decide (q = 2 ^ (f.fb + 1) - 1)) then
    ⟨overflowBits f mode s, flOf ||| flNx, false⟩
  else if be < 1 then
    let (d, inx2) := roundShift mode s m (1 - (f.bias : Int) - (f.fb : Int) - e)
    ⟨signBit f s + d, if inx2 then flUf ||| flNx else 0, true⟩
  else ⟨signBit f s + be.toNat * 2 ^ f.fb + (q - 2 ^ f.fb), if inx then flNx else 0, false⟩

/-- An exact result before rounding: NaN (with nv or not), an infinity (with dz or not), a zero, or a nonzero value. -/
inductive Exact where
  | nan (nv : Bool)
  | inf (s : Bool) (dz : Bool)
  | zero (s : Bool)
  | num (s : Bool) (m : Nat) (e : Int)
deriving DecidableEq, Repr

/-- The exact result rounded once to a format, its tiny result flushed when `fz` says so (R121, R127, R129, R362). -/
def finish (f : Fmt) (mode : RMode) (fz : Bool) (x : Exact) : FRes :=
  match x with
  | .nan nv => ⟨canonNan f, if nv then flNv else 0, false⟩
  | .inf s dz => ⟨infBits f s, if dz then flDz else 0, false⟩
  | .zero s => ⟨signBit f s, 0, false⟩
  | .num s m e =>
    let r := roundF f mode s m e
    if fz && r.tiny then ⟨signBit f s, r.fl ||| flUf ||| flNx, true⟩ else r

/-- An exact value from a sign, magnitude and exponent; zero when the magnitude is. -/
def exactOf (s : Bool) (m : Nat) (e : Int) : Exact := if m = 0 then .zero s else .num s m e

/-- The value read as an exact result (a NaN is quiet). -/
def FVal.exact (x : FVal) : Exact :=
  match x with
  | .nan => .nan false
  | .inf s => .inf s false
  | .fin s m e => exactOf s m e

/-- A subnormal operand as a zero of its sign when `fz` says so (R127). -/
def flushIn (f : Fmt) (fz : Bool) (x : Nat) : Nat :=
  if fz && decide (field x f.fb f.eb = 0) then field x (f.eb + f.fb) 1 * 2 ^ (f.eb + f.fb) else x

/-- The operand's value with its flushing. -/
def decodeFz (f : Fmt) (fz : Bool) (x : Nat) : FVal := decodeF f (flushIn f fz (x % 2 ^ f.width))

/-- Negation of a value. -/
def FVal.neg (x : FVal) : FVal :=
  match x with
  | .nan => .nan
  | .inf s => .inf (!s)
  | .fin s m e => .fin (!s) m e

/-- Exact sum (R127's zero rule, R129). -/
def addExact (mode : RMode) (x y : FVal) : Exact :=
  match x, y with
  | .nan, _ => .nan false
  | _, .nan => .nan false
  | .inf s, .inf t => if s = t then .inf s false else .nan true
  | .inf s, .fin _ _ _ => .inf s false
  | .fin _ _ _, .inf t => .inf t false
  | .fin s m e, .fin t n g =>
    let lo := min e g
    let a : Int := (m * 2 ^ (e - lo).toNat : Nat)
    let b : Int := (n * 2 ^ (g - lo).toNat : Nat)
    let c : Int := (if s then -a else a) + (if t then -b else b)
    if c = 0 then .zero (if s = t then s else decide (mode = .rm))
    else .num (decide (c < 0)) c.natAbs lo

/-- Exact product (R129). -/
def mulVal (x y : FVal) : FVal × Bool :=
  match x, y with
  | .nan, _ => (.nan, false)
  | _, .nan => (.nan, false)
  | .inf s, .inf t => (.inf (s != t), false)
  | .inf s, .fin t n _ => if n = 0 then (.nan, true) else (.inf (s != t), false)
  | .fin s m _, .inf t => if m = 0 then (.nan, true) else (.inf (s != t), false)
  | .fin s m e, .fin t n g => (.fin (s != t) (m * n) (e + g), false)
def mulExact (x y : FVal) : Exact :=
  match mulVal x y with
  | (_, true) => .nan true
  | (p, false) => p.exact

/-- Exact fused multiply-add: 0 × ∞ raises nv even when the addend is NaN (R129). -/
def fmaExact (mode : RMode) (x y z : FVal) : Exact :=
  match mulVal x y with
  | (_, true) => .nan true
  | (p, false) => addExact mode p z

/-- Quotient with a sticky low bit (R129, R130). -/
def divExact (x y : FVal) : Exact :=
  match x, y with
  | .nan, _ => .nan false
  | _, .nan => .nan false
  | .inf _, .inf _ => .nan true
  | .inf s, .fin t _ _ => .inf (s != t) false
  | .fin s _ _, .inf t => .zero (s != t)
  | .fin s m e, .fin t n g =>
    if n = 0 then (if m = 0 then .nan true else .inf (s != t) true)
    else if m = 0 then .zero (s != t)
    else
      let q := m * 2 ^ 192 / n
      let r := m * 2 ^ 192 % n
      .num (s != t) (2 * q + (if r = 0 then 0 else 1)) (e - g - 193)

/-- Square root with a sticky low bit (R129, R130). -/
def sqrtExact (x : FVal) : Exact :=
  match x with
  | .nan => .nan false
  | .inf s => if s then .nan true else .inf false false
  | .fin s m e =>
    if m = 0 then .zero s
    else if s then .nan true
    else
      let n := if e % 2 = 0 then m * 2 ^ 256 else m * 2 ^ 257
      let g := if e % 2 = 0 then e - 256 else e - 257
      let q := isqrt n
      .num false (2 * q + (if q * q = n then 0 else 1)) (g / 2 - 1)

/-- Comparison of two values that are not NaN; -0 equals +0 (R129). -/
def finLt (x y : FVal) : Bool :=
  match x, y with
  | .nan, _ => false
  | _, .nan => false
  | .inf s, .inf t => s && !t
  | .inf s, .fin _ _ _ => s
  | .fin _ _ _, .inf t => !t
  | .fin s m e, .fin t n g =>
    let lo := min e g
    let a : Int := (m * 2 ^ (e - lo).toNat : Nat)
    let b : Int := (n * 2 ^ (g - lo).toNat : Nat)
    decide ((if s then -a else a) < (if t then -b else b))
def FVal.isNan (x : FVal) : Bool := decide (x = .nan)
def finEq (x y : FVal) : Bool := !x.isNan && !y.isNan && !finLt x y && !finLt y x
/-- The sign of a value that is not NaN. -/
def FVal.sign (x : FVal) : Bool :=
  match x with
  | .nan => false
  | .inf s => s
  | .fin s _ _ => s

/-- FMIN and FMAX on bit patterns (R129): -0 ranks below +0. -/
def minMaxBits (f : Fmt) (isMax : Bool) (x y : Nat) : Nat :=
  let a := decodeF f x
  let b := decodeF f y
  if a.isNan && b.isNan then canonNan f
  else if a.isNan then y
  else if b.isNan then x
  else
    let below := finLt a b || (finEq a b && a.sign && !b.sign)
    if below = isMax then y else x

/-- The comparison predicates: result and whether nv is raised (R129). -/
inductive Cmp where
  | eq | ne | lt | le | un | ord
deriving DecidableEq, Repr
def cmpVal (c : Cmp) (x y : FVal) : Bool × Flags :=
  let un := x.isNan || y.isNan
  match c with
  | .eq => (finEq x y, 0)
  | .ne => (!finEq x y, 0)
  | .lt => (finLt x y, if un then flNv else 0)
  | .le => (!un && !finLt y x, if un then flNv else 0)
  | .un => (un, 0)
  | .ord => (!un, 0)

/-- Sum of two FP32 patterns rounded to nearest even, with its flags (R325, R386, R405). -/
def addF32 (x y : Nat) : FRes := finish fp32 .rne false (addExact .rne (decodeF fp32 x) (decodeF fp32 y))

/-! Tapered formats and E2M1. -/

/-- Length of the run of bits equal to b at the top of an n-bit field. -/
def runLen (m b : Nat) : Nat → Nat
  | 0 => 0
  | n + 1 => if m / 2 ^ n % 2 = b then 1 + runLen m b n else 0

/-- decode_t of R122. -/
def decodeT (n es x : Nat) : FVal :=
  let s := field x (n - 1) 1
  let m := field x 0 (n - 1)
  if m = 0 then (if s = 0 then .fin false 0 0 else .nan)
  else
    let b := m / 2 ^ (n - 2) % 2
    let run := runLen m b (n - 1)
    let k : Int := if b = 1 then (run : Int) - 1 else -(run : Int)
    let nr := n - 1 - run - 1
    let rest := field m 0 nr
    let e := if es ≤ nr then rest / 2 ^ (nr - es) else rest * 2 ^ (es - nr)
    let nf := nr - es
    let f := field rest 0 nf
    .fin (decide (s = 1)) (2 ^ nf + f) (k * 2 ^ es + (e : Int) - (nf : Int))

/-- E2M1 (R119): no infinity, no NaN. -/
def decodeE2m1 (x : Nat) : FVal :=
  let s := decide (field x 3 1 = 1)
  let e := field x 1 2
  let m := field x 0 1
  if e = 0 then .fin s m (-1) else .fin s (2 + m) ((e : Int) - 2)

/-- E8M0 (R124): the exponent, or none for NaN. -/
def decodeE8m0 (x : Nat) : Option Int := if x % 256 = 255 then none else some ((x % 256 : Nat) - 127)

/-- The element formats of the matrix engine and of FCVT's narrow sources. -/
inductive Elem where
  | fp32 | fp64 | fp16 | bf16 | e4m3 | e5m2 | t8 | t6 | e2m1
deriving DecidableEq, Repr
def Elem.bits (e : Elem) : Nat :=
  match e with
  | .fp32 => 32
  | .fp64 => 64
  | .fp16 => 16
  | .bf16 => 16
  | .e4m3 => 8
  | .e5m2 => 8
  | .t8 => 8
  | .t6 => 6
  | .e2m1 => 4
def Elem.decode (e : Elem) (x : Nat) : FVal :=
  match e with
  | .fp32 => decodeF Sys2Proof.Machine.fp32 (x % 2 ^ 32)
  | .fp64 => decodeF Sys2Proof.Machine.fp64 (x % 2 ^ 64)
  | .fp16 => decodeF Sys2Proof.Machine.fp16 (x % 2 ^ 16)
  | .bf16 => decodeF Sys2Proof.Machine.bf16 (x % 2 ^ 16)
  | .e4m3 => decodeF fpE4m3 (x % 256)
  | .e5m2 => decodeF fpE5m2 (x % 256)
  | .t8 => decodeT 8 2 (x % 256)
  | .t6 => decodeT 6 1 (x % 64)
  | .e2m1 => decodeE2m1 (x % 16)

/-- The largest code among 0 to n whose value does not exceed the magnitude m × 2^e. -/
def codeBelow (dec : Nat → FVal) (x : FVal) : Nat → Nat
  | 0 => 0
  | n + 1 => if finLt x (dec (n + 1)) then codeBelow dec x n else n + 1

/-- Rounding on the value set of T8, T6 or E2M1 (R134); `neg0` says whether a zero result keeps its sign. -/
def roundSet (dec : Nat → FVal) (top signPos : Nat) (neg0 : Bool) (mode : RMode) (s : Bool) (m : Nat) (e : Int) : FRes :=
  let x := FVal.fin false m e
  let sb := if s then 2 ^ signPos else 0
  if finLt (dec top) x then ⟨sb + top, flSat ||| flNx, false⟩
  else
    let c := codeBelow dec x top
    if finEq (dec c) x then ⟨if c = 0 && !neg0 then 0 else sb + c, 0, false⟩
    else
      -- twice the value against the sum of the two neighbours
      let twice := FVal.fin false m (e + 1)
      let mid := match addExact .rne (dec c) (dec (c + 1)) with
        | .num _ a b => FVal.fin false a b
        | _ => FVal.fin false 0 0
      let up := match mode with
        | .rne => finLt mid twice || (finEq mid twice && decide (c % 2 = 1))
        | .rz => false
        | .rp => !s
        | .rm => s
      let r := if up then c + 1 else c
      if r = 0 then ⟨if neg0 then sb else 0, flUf ||| flNx, false⟩ else ⟨sb + r, flNx, false⟩

/-- Destinations of FCVT (R132, R133). -/
inductive CvtDst where
  | fp (f : Fmt)
  | e4m3 (sat : Bool)
  | e5m2 (sat : Bool)
  | t8 | t6 | e2m1
  | int | uint
deriving DecidableEq, Repr

/-- A value rounded to an integer and clamped to [lo, hi], with its flags (R135). -/
def toInteger (mode : RMode) (lo hi : Int) (x : FVal) : Int × Flags :=
  match x with
  | .nan => (0, flNv)
  | .inf s => (if s then lo else hi, flNv)
  | .fin s m e =>
    let (q, inx) := roundShift mode s m (-e)
    let v : Int := if s then -(q : Int) else q
    if v < lo then (lo, flNv) else if hi < v then (hi, flNv) else (v, if inx then flNx else 0)

/-- Conversion of a value (R133 to R135). A .uint destination is bounded by 2^32 - 1, for which R135 names no bound (DESIGN
CHOICE, log entry 72). -/
def convert (mode : RMode) (d : CvtDst) (x : FVal) : FRes :=
  match d with
  | .fp f => finish f mode false x.exact
  | .e4m3 sat =>
    match x with
    | .inf s => if sat then ⟨maxBits fpE4m3 s, flSat, false⟩ else ⟨canonNan fpE4m3, flNv, false⟩
    | _ =>
      let r := finish fpE4m3 mode false x.exact
      if sat && decide (r.fl &&& flOf ≠ 0) then ⟨maxBits fpE4m3 x.sign, flSat ||| flNx, false⟩ else r
  | .e5m2 sat =>
    match x with
    | .inf s => if sat then ⟨maxBits fpE5m2 s, flSat, false⟩ else ⟨infBits fpE5m2 s, 0, false⟩
    | _ =>
      let r := finish fpE5m2 mode false x.exact
      if sat && decide (r.fl &&& flOf ≠ 0) then ⟨maxBits fpE5m2 x.sign, flSat ||| flNx, false⟩ else r
  | .t8 =>
    match x with
    | .nan => ⟨0x80, 0, false⟩
    | .inf s => ⟨(if s then 0x80 else 0) + 0x7F, flSat, false⟩
    | .fin s m e => if m = 0 then ⟨0, 0, false⟩ else roundSet (decodeT 8 2) 0x7F 7 false mode s m e
  | .t6 =>
    match x with
    | .nan => ⟨0x20, 0, false⟩
    | .inf s => ⟨(if s then 0x20 else 0) + 0x1F, flSat, false⟩
    | .fin s m e => if m = 0 then ⟨0, 0, false⟩ else roundSet (decodeT 6 1) 0x1F 5 false mode s m e
  | .e2m1 =>
    match x with
    | .nan => ⟨0, flNv, false⟩
    | .inf s => ⟨(if s then 8 else 0) + 7, flSat, false⟩
    | .fin s m e =>
      if m = 0 then ⟨if s then 8 else 0, 0, false⟩
      else
        -- R119 gives E2M1 a smallest normal, so R127's tininess applies
        let r := roundSet decodeE2m1 7 3 true mode s m e
        if r.fl ≠ 0 && (roundF ⟨2, 1, 1, true⟩ mode s m e).tiny then { r with fl := r.fl ||| flUf, tiny := true } else r
  | .int => let (v, fl) := toInteger mode (-2 ^ 31) (2 ^ 31 - 1) x; ⟨wrap 32 v, fl, false⟩
  | .uint => let (v, fl) := toInteger mode 0 (2 ^ 32 - 1) x; ⟨wrap 32 v, fl, false⟩

/-- An integer as a value. -/
def intVal (x : Int) : FVal := .fin (decide (x < 0)) x.natAbs 0

/-- "a beats b" of R136 on (pattern, index) under a format. -/
def beats (f : Fmt) (xa ia xb ib : Nat) : Bool :=
  let a := decodeF f xa
  let b := decodeF f xb
  if a.isNan && b.isNan then decide (ia < ib)
  else if a.isNan then true
  else if b.isNan then false
  else if finEq a b && decide (a.sign = b.sign) then decide (ia < ib)
  else finLt b a || (finEq a b && !a.sign)

/-! Chunked dot products (R137) and the three-term split (R140). -/

/-- The exact sum of finite products as an integer at scale 2^lo. -/
def sumAt (lo : Int) (ps : List FVal) : Int :=
  ps.foldl (fun acc p => match p with
    | .fin s m e => let a : Int := (m * 2 ^ (e - lo).toNat : Nat); if s then acc - a else acc + a
    | _ => acc) 0

/-- t of R137 for the products of a nonempty chunk, as an FP32 pattern. -/
def chunkSum (ps : List FVal) : Nat :=
  let pinf := ps.any (fun p => decide (p = .inf false))
  let ninf := ps.any (fun p => decide (p = .inf true))
  if ps.any FVal.isNan || (pinf && ninf) then canonNan fp32
  else if pinf then infBits fp32 false
  else if ninf then infBits fp32 true
  else
    let lo := ps.foldl (fun acc p => match p with
      | .fin _ _ e => min acc e
      | _ => acc) 0
    let c := sumAt lo ps
    if c = 0 then
      (if ps.all (fun p => match p with
        | .fin s m _ => s && decide (m = 0)
        | _ => false) then signBit fp32 true else 0)
    else (roundF fp32 .rne (decide (c < 0)) c.natAbs lo).bits

/-- One chunk folded into an accumulator element (R137, R139); a skipped chunk leaves it as it is. -/
def chunkFold (acc : Nat) (ps : List FVal) : Nat := if ps.isEmpty then acc else (addF32 acc (chunkSum ps)).bits

/-- One MX block folded into an accumulator element (R138). -/
def mxFold (acc part ea eb : Nat) : Nat :=
  match decodeE8m0 ea, decodeE8m0 eb, decodeF fp32 part with
  | some a, some b, .fin s m e =>
    (finish fp32 .rne false (addExact .rne (decodeF fp32 acc) (.fin s m (e + a + b)))).bits
  | some _, some _, p => (finish fp32 .rne false (addExact .rne (decodeF fp32 acc) p)).bits
  | _, _, _ => canonNan fp32

/-- The three-term split of R140, as three BF16 patterns. -/
def split3 (x : Nat) : Nat × Nat × Nat :=
  match decodeF fp32 x with
  | .nan => (canonNan bf16, 0, 0)
  | .inf s => (infBits bf16 s, 0, 0)
  | .fin s m e =>
    if m = 0 then (signBit bf16 s, 0, 0)
    else
      let v := FVal.fin s m e
      let h := (finish bf16 .rne false v.exact).bits
      let h := if h % 2 ^ 15 = infBits bf16 false then (finish bf16 .rz false v.exact).bits else h
      let back := fun (x : Exact) => match x with
        | .num s m e => FVal.fin s m e
        | _ => FVal.fin false 0 0
      let r1 := back (addExact .rne v (decodeF bf16 h).neg)
      let mid := (finish bf16 .rne false r1.exact).bits
      let r2 := back (addExact .rne r1 (decodeF bf16 mid).neg)
      (h, mid, (finish bf16 .rne false r2.exact).bits)

end Sys2Proof.Machine
end

