-- ==== Sys2Proof/Machine/MemInstr.lean ====
section
/-! DEFINITION. The memory instructions of strands: SLD, SST (R392, R393), VLD, VST, VLDS, VSTS, VLDI (R399 to R401) with
the miss split of R28, ATOM and ATOMQ (R309 to R313, R340 to R343), FENCE and TFENCE (R174, R187), PREF (R379, R380). -/

namespace Sys2Proof.Machine

open Sys2Proof

/-! Where an access goes, and the conditions of R143. -/

/-- An address as an instruction forms it: global, scratch or Ingot; a scratch object whose other bits are not zero, or a
pointer whose bits [59:57] select no space (R337). -/
inductive Addr where
  | glob (p : Nat)
  | scr (a : Nat)
  | ing (a : Nat)
  | dirty (a : Nat)
  | noSpace (p : Nat)
deriving DecidableEq, Repr

/-- The address that a trap record gives. -/
def Addr.num (x : Addr) : Nat :=
  match x with
  | .glob p => p | .scr a => a | .ing a => a | .dirty a => a | .noSpace p => p

/-- A resolved access. -/
inductive Loc where
  | glob (p : Nat) (t : Trans)
  | scr (b off : Nat)
  | ing (off : Nat)
deriving DecidableEq, Repr

/-- R337: the access at an object address with an offset. -/
def objAddr (base : DWord) (off : Int) : Addr :=
  if fieldOf base 57 3 = 0 then .glob (add64 base off)
  else if fieldOf base 57 3 = 1 then
    let a := wrap 32 ((fieldOf base 0 32 : Int) + off)
    if fieldOf base 32 25 ≠ 0 || fieldOf base 60 4 ≠ 0 then .dirty a else .scr a
  else .noSpace (add64 base off)

/-- R143 for an access of n bytes; `l1` says whether a global access goes through L1. An access that has its translation
already uses no other (R189). A pointer of no space is NONCANON whatever its low bits: R393 takes that before ALIGN. -/
def State.locate (s : State) (l1 : Bool) (k : AccKind) (x : Addr) (n : Nat) : Except (Err × Nat) Loc :=
  match x with
  | .glob p => match alGet s.issue.memo p with
    | some t => .ok (.glob p t)
    | none => match s.resolve s.who l1 k p n with
      | .ok t => .ok (.glob p t)
      | .error e => .error (e, p)
  | .scr a =>
    if a % n ≠ 0 then .error (eAlign, a)
    else match s.scratchLoc s.cw.blk a n with
      | .ok (b, off) => .ok (.scr b off)
      | .error e => .error (e, a)
  | .ing a =>
    if a % n ≠ 0 then .error (eAlign, a)
    else match s.ingotBad (dieOf (s.coreOfWarp s.issue.warp)) (s.ctxOfWarp s.issue.warp) a n with
      | some e => .error (e, a)
      | none => .ok (.ing a)
  | .dirty a => .error (if a % n ≠ 0 then eAlign else eRange, a)
  | .noSpace p => .error (eNoncanon, p)

/-- The a and d bits that located accesses set before they are performed (R159, R190), and the translations they keep. -/
def State.touchLocs (s : State) (storeLike : Bool) (xs : List Loc) : State :=
  xs.foldl (fun s x => match x with
    | .glob p t => s.touch s.who (field p 0 57) t storeLike
    | _ => s) s
def Loc.memo (x : Loc) : Option (Nat × Trans) :=
  match x with
  | .glob p t => some (p, { t with entry := none, ptrs := [] })
  | _ => none
def State.sending (s : State) (storeLike : Bool) (xs : List Loc) : State :=
  let s := s.touchLocs storeLike xs
  { s with issue := { s.issue with memo := xs.filterMap Loc.memo } }

/-- What the accesses of a vector instruction that traps leave: those that passed every check up to order 10 of R143 set
their a and d bits, although none is performed (R143, R159). -/
def State.markLanes (s : State) (storeLike : Bool) (f : Nat → Except (Err × Nat) Loc) (ls : List Nat) : State :=
  ls.foldl (fun s l => match f l with
    | .ok x => s.touchLocs storeLike [x]
    | .error (e, p) => if e = eDiscarded then s.markDiscarded s.who p else s) s

/-- Conditions that lanes met: lane, condition and address. -/
abbrev Conds := List (Nat × Err × Nat)

/-- Every lane resolved, or every condition met (R143). -/
def gather {α : Type} (f : Nat → Except (Err × Nat) α) : List Nat → Except Conds (List (Nat × α))
  | [] => .ok []
  | l :: r =>
    match f l, gather f r with
    | .ok x, .ok xs => .ok ((l, x) :: xs)
    | .ok _, .error cs => .error cs
    | .error (e, a), .ok _ => .error [(l, e, a)]
    | .error (e, a), .error cs => .error ((l, e, a) :: cs)

/-- The trap of a vector access: the earliest row that a lane meets, with the lanes that meet it (R143, R288). -/
def condInfo (cs : Conds) : TrapInfo :=
  let best := cs.foldl (fun m c => min m (errRank c.2.1)) 99
  let hit := cs.filter (fun c => errRank c.2.1 = best)
  match hit with
  | [] => TrapInfo.of eAlign
  | (l, e, a) :: _ =>
    { TrapInfo.atAddr e a with
      lane := l, met := maskOf (fun i => hit.any (fun c => c.1 = i)),
      addrs := hit.map (fun c => (c.1, BitVec.ofNat 64 c.2.2)) }

/-- Rows 5 to 11 of R143 are deferred for a memory instruction, every other condition precise (R285). -/
def memStop (s : State) (e : Err) (i : TrapInfo) : Stop :=
  if 5 ≤ errRank e && errRank e ≤ 11 then .deferred i s else .trap i s
def laneStop (s : State) (cs : Conds) : Stop :=
  let i := condInfo cs
  memStop s (i.cause, i.sub) i
def scalarStop (s : State) (e : Err) (a : Nat) : Stop := memStop s e (TrapInfo.atAddr e a)

/-! Performing accesses. -/

/-- The need of host memory that a resolved access still has, and the condition that a nack named (R321). -/
def Loc.asked (rs : List HostResp) (kind n : Nat) (ask : Nat → Nat → HostAsk) (x : Loc) : Except (Err × Nat) (Option HostAsk) :=
  match x with
  | .glob p t =>
    if leafKind t.leaf = 2 then match hostAns rs kind p n with
      | some (.error e) => .error (e, p)
      | some (.ok _) => .ok none
      | none => .ok (some (ask p t.pa))
    else .ok none
  | _ => .ok none

/-- The needs of the lanes, or the conditions that nacks named. -/
def lanesAsked (rs : List HostResp) (kind : Nat) (n : Nat → Nat) (ask : Nat → Nat → Nat → HostAsk) (ls : List (Nat × Loc)) :
    Except Conds (List HostAsk) :=
  match gather (fun l => match alGet ls l with
    | some x => x.asked rs kind (n l) (ask l)
    | none => .ok none) (ls.map Prod.fst) with
  | .error cs => .error cs
  | .ok as => .ok ((as.filterMap Prod.snd).eraseDups)

/-- A resolved load of n bytes. -/
def State.loadLoc (s : State) (n : Nat) (x : Loc) : Nat × State :=
  match x with
  | .glob p t =>
    if leafKind t.leaf = 2 then
      ((match hostAns s.issue.resp 0 p n with
        | some (.ok v) => v % 2 ^ (8 * n)
        | _ => 0), s.touch s.who (field p 0 57) t false)
    else
      let (bs, s) := s.loadBytes s.who (field p 0 57) n t
      (ofBytes bs, s)
  | .scr b off => (ofBytes (s.scratchRead b off n), s)
  | .ing off => (ofBytes (s.ingotRead (dieOf (s.coreOfWarp s.issue.warp)) off n), s)

/-- A resolved store of bytes; a store to host memory has been answered already. -/
def State.storeLoc (s : State) (bs : List Byte) (x : Loc) : State :=
  match x with
  | .glob p t =>
    if leafKind t.leaf = 2 then s.touch s.who (field p 0 57) t true else s.storeBytes s.who (field p 0 57) bs t
  | .scr b off => s.scratchWrite b off bs
  | .ing _ => s

/-- An indivisible update of n bytes (R172): the answer is what f makes of the old value, beside the new one. -/
def State.updateLoc (s : State) (n : Nat) (f : Nat → Nat × Nat) (x : Loc) : Nat × State :=
  match x with
  | .glob p t =>
    let (bs, s) := s.homeRead s.who (field p 0 57) n t true
    let (new, ans) := f (ofBytes bs)
    (ans, s.homeWrite s.who (field p 0 57) (toBytes n new) t)
  | .scr b off =>
    let (new, ans) := f (ofBytes (s.scratchRead b off n))
    (ans, s.scratchWrite b off (toBytes n new))
  | .ing _ => (0, s)

/-- Every lane's load in ascending order, with the values by lane. -/
def State.loadLanes (s : State) (n : Nat) : List (Nat × Loc) → List (Nat × Nat) × State
  | [] => ([], s)
  | (l, x) :: r =>
    let (v, s) := s.loadLoc n x
    let (vs, s) := s.loadLanes n r
    ((l, v) :: vs, s)

/-! The miss split (R28). -/

/-- Whether a resolved lane counts as a hit in L1: its line is there, or nothing of it could be, since its page is not
cacheable, is discarded, or it is not a global access (R28; DESIGN CHOICE, log entry 23). -/
def State.hitsL1 (s : State) (x : Loc) : Bool :=
  match x with
  | .glob p t => leafKind t.leaf = 2 || leafNc t.leaf || leafKind t.leaf = 3 || (s.l1Find s.who (field p 0 57)).isSome
  | _ => true

/-- Whether the issuing strand may split on a partial miss, and the entry that the missed lanes take. -/
def State.splitEntry (s : State) : Option Nat :=
  if s.issue.split && !s.inHandler && !s.later && s.cs.flight = [] && s.cs.stack = [] && s.cs.spilledRecs = 0 then
    (List.range 4).find? (fun f => (s.cw.strand f).isNone)
  else none

/-- The split: the issuing entry keeps the other lanes, the lowest free entry takes the missed ones and waits for its
loads. -/
def State.splitMiss (s : State) (f : Nat) (missed : Mask) : State :=
  let e := s.issue.entry
  let t := s.cs
  let x := s.cw
  let grp := x.missGroup e
  let top : Nat := grp.foldl (fun (m : Nat) g => match x.strand g with
    | some u => max m u.ran
    | none => m) 0
  let counts : Bool := grp = [] || decide (top < t.ran + 1)
  let ran := if grp = [] then 0 else t.ran
  let outer := if t.kind = .miss then t.outer else (t.kind, t.group)
  let g := if t.kind = .miss then t.group else e
  let i := s.issue
  let hit := { t with
    mask := t.mask &&& ~~~missed, kind := if t.kind = .arm then .arm else .miss,
    group := if t.kind = .root then e else t.group, outer := outer, ran := ran }
  let wt : Wait :=
    { kind := .load, word := i.word, ks := i.ks, xs := i.xs, chain := i.chain, pc := i.pc, since := s.clock, seq := s.seq,
      until_ := 0, replay := none, src := .chain, reqs := [], resp := [], memo := [], ins := none }
  let miss : Strand :=
    { Strand.start missed (i.pc + 4) with
      kind := .miss, group := g, outer := outer, st := .stalled, wait := some wt,
      ran := if grp = [] then 0 else t.ran + 1,
      region := t.region.map (fun r => if counts then { r with ran := r.ran + 1 } else r) }
  s.putW ((x.setRunner e hit).setStrand f (some miss))

/-- The split of a load whose lanes hit and miss, where it may be made. -/
def State.maySplit (s : State) (locs : List (Nat × List Loc)) : State :=
  let missed := maskOf (fun l => match alGet locs l with
    | some xs => !xs.all s.hitsL1
    | none => false)
  let someHit := locs.any (fun p => !missed.getLsbD p.1)
  match s.splitEntry with
  | some f => if missed ≠ 0 && someHit then s.splitMiss f missed else s
  | none => s

/-! Vector loads and stores (R400, R401). -/

/-- A vector load of w bytes a lane into a register, or a pair for 8 bytes. -/
def vecLoad (w : Nat) (d : BitVec 7) (f : State → Nat → Addr) : Body := fun s =>
  let at_ := fun l => s.locate true .read (f s l) w
  match gather at_ (lanesOf s.activeReal) with
  | .error cs => .error (laneStop (s.markLanes false at_ (lanesOf s.activeReal)) cs)
  | .ok real =>
    let help := (lanesOf (s.active &&& s.cw.helpers)).filterMap (fun l => match at_ l with
      | .ok x => some (l, x)
      | .error _ => none)
    let asked := fun (x : Loc) => x.asked s.issue.resp 0 w (fun p pa => askRead p w pa)
    let helpAsks := help.filterMap (fun h => match asked h.2 with
      | .ok q => q
      | .error _ => none)
    match (lanesAsked s.issue.resp 0 (fun _ => w) (fun _ p pa => askRead p w pa) real).map (fun q => (q ++ helpAsks).eraseDups) with
    | .error cs => .error (laneStop s cs)
    | .ok [] =>
      let help := help.filter (fun h => match asked h.2 with
        | .ok _ => true
        | .error _ => false)
      let s' := s.maySplit ((real ++ help).map (fun p => (p.1, [p.2])))
      let (vals, s2) := s.loadLanes w (real ++ help)
      let s2 := { s2 with warps := s'.warps }
      let v := fun l => BitVec.ofNat 64 ((alGet vals l).getD 0)
      .ok (if w = 8 then s2.wrPair d.toNat s.active v else s2.wrLanes d.toNat s.active (fun l => lowWord (v l)))
    | .ok asks => .error (.ask asks (s.sending false ((real ++ help).map Prod.snd)))

/-- A vector store of w bytes a lane, lanes in ascending order (R170); each lane's store to host memory is a message of its
own. -/
def vecStore (w : Nat) (d : BitVec 7) (f : State → Nat → Addr) : Body := fun s =>
  let bytes := fun l => toBytes w (if w = 8 then (s.lane64 d.toNat l).toNat else (s.lane d.toNat l).toNat)
  let at_ := fun l => s.locate true .write (f s l) w
  let key := fun l => w + 256 * (l + 1)
  match gather at_ (lanesOf s.activeReal) with
  | .error cs => .error (laneStop (s.markLanes true at_ (lanesOf s.activeReal)) cs)
  | .ok real =>
    match lanesAsked s.issue.resp 3 key (fun l p pa => { askWrite p pa (bytes l) with n := key l }) real with
    | .error cs => .error (laneStop s cs)
    | .ok [] => .ok (real.foldl (fun s p => s.storeLoc (bytes p.1) p.2) s)
    | .ok asks => .error (.ask asks (s.sending true (real.map Prod.snd)))

/-- The lane addresses of R400. -/
def addrImm (w : Nat) (a imm : BitVec 7) (s : State) (l : Nat) : Addr :=
  .glob (add64 (s.rdS a.toNat) (s.imm 7 imm.toNat + (w * l : Nat)))
def addrIdx (a b : BitVec 7) (s : State) (l : Nat) : Addr :=
  .glob (add64 (s.rdS a.toNat) ((s.lane b.toNat l).toNat : Int))
def addrScr (a b : BitVec 7) (s : State) (l : Nat) : Addr :=
  .scr ((lowWord (s.rdS a.toNat) + s.lane b.toNat l).toNat)
def addrIng (a b : BitVec 7) (s : State) (l : Nat) : Addr :=
  .ing ((lowWord (s.rdS a.toNat) + s.lane b.toNat l).toNat)

/-! Scalar loads and stores (R393). -/

def scalarLoad (w : Nat) (d a imm : BitVec 7) : Body := fun s =>
  match s.locate true .read (objAddr (s.rdS a.toNat) (s.imm 7 imm.toNat)) w with
  | .error (e, p) => .error (scalarStop s e p)
  | .ok x => match x.asked s.issue.resp 0 w (fun p pa => askRead p w pa) with
    | .error (e, p) => .error (scalarStop s e p)
    | .ok (some q) => .error (.ask [q] (s.sending false [x]))
    | .ok none =>
      let (v, s) := s.loadLoc w x
      .ok (s.wrS d.toNat (BitVec.ofNat 64 v))
def scalarStore (w : Nat) (d a imm : BitVec 7) : Body := fun s =>
  let bs := toBytes w (s.rdS d.toNat).toNat
  match s.locate true .write (objAddr (s.rdS a.toNat) (s.imm 7 imm.toNat)) w with
  | .error (e, p) => .error (scalarStop s e p)
  | .ok x => match x.asked s.issue.resp 3 w (fun p pa => askWrite p pa bs) with
    | .error (e, p) => .error (scalarStop s e p)
    | .ok (some q) => .error (.ask [q] (s.sending true [x]))
    | .ok none => .ok (s.storeLoc bs x)

/-! Atomics. -/

/-- The clock of a warp's atomic key: that at issue (R310). -/
def State.atomClock (s : State) : Nat :=
  match s.cs.wait with
  | some v => if v.kind = .atomKey then v.until_ else s.cw.lclk.toNat
  | none => s.cw.lclk.toNat

/-- The instructions that R296 limits, and FJOIN and MWAIT. -/
def letsOp (op : Nat) : Bool :=
  [0x00D, 0x00F, 0x017, 0x015, 0x1A9, 0x1C7, 0x1C8, 0x1C9, 0x201, 0x246, 0x280, 0x285, 0x2C1].contains op

/-- Whether another warp of the block lets an atomic of this key go (R310): by its strands, or its handler's where one runs. -/
def Warp.lets (x : Warp) (clk idx : Nat) : Bool :=
  decide (x.phase ≠ .running) || x.stopped.isSome || decide (clk < x.lclk.toNat) ||
  (List.range 4).any (fun e => match (x.runner e).bind Strand.wait with
    | some v =>
      letsOp (opOf v.word)
        || (v.kind = .atomKey && (decide (clk < v.until_) || (v.until_ = clk && decide (idx < x.idx))))
    | none => false)

/-- Whether the atomic of the issuing strand is next in R310's order. -/
def State.atomNext (s : State) : Bool :=
  (s.block s.cw.blk).warps.all (fun w => w = s.issue.warp || (s.warp w).lets s.atomClock s.cw.idx)

/-- Whether a lane's address is a gang-window address of another rank (R144, R309). -/
def State.otherRank (s : State) (x : Addr) : Bool :=
  match x with
  | .scr a =>
    let g := recGang (s.recOf s.cw.blk)
    let size := recScratch (s.recOf s.cw.blk)
    let rank := (a - 0x10000000) / 0x1000000
    decide (size ≤ a) && decide (0x10000000 ≤ a) && decide (rank < g) && decide ((a - 0x10000000) % 0x1000000 < size)
      && decide (rank ≠ (s.block s.cw.blk).idx % g)
  | _ => false

/-- Lanes of an atomic in ascending order: `f` is given the lane and the old value and makes the new value and the answer
(R170, R341). A lane in host memory takes the host's answer. -/
def State.updateLanes (s : State) (n : Nat) (f : Nat → Nat → Nat × Nat) : List (Nat × Loc) → List (Nat × Nat) × State
  | [] => ([], s)
  | (l, x) :: r =>
    let (v, s) := match x with
      | .glob p t =>
        if leafKind t.leaf = 2 then
          ((match hostAns s.issue.resp 1 p (n + 256 * (l + 1)) with
            | some (.ok v) => v
            | _ => 0), s.touch s.who (field p 0 57) t true)
        else s.updateLoc n (f l) x
      | _ => s.updateLoc n (f l) x
    let (vs, s) := s.updateLanes n f r
    ((l, v) :: vs, s)

/-- The shell of ATOM and ATOMQ: `op` and `opnds` go to the host for a cell of kind host, `f` updates one elsewhere, and
`wr` writes the answers. -/
def atomBody (det : Bool) (n op : Nat) (a b : BitVec 7) (opnds : State → Nat → List DWord)
    (f : State → Nat → Nat → Nat × Nat) (wr : State → (Nat → DWord) → State) : Body := fun s =>
  let base := s.rdS a.toNat
  let ls := lanesOf s.activeReal
  let at_ := fun l => objAddr base ((s.lane b.toNat l).toNat : Int)
  if det && s.cw.det && (fieldOf base 57 3 = 0 || (fieldOf base 57 3 = 1 && ls.any (fun l => s.otherRank (at_ l)))) then
    trapE s (.detatom, 0)
  else match gather (fun l => s.locate false .write (at_ l) n) ls with
    | .error cs => .error (laneStop (s.markLanes true (fun l => s.locate false .write (at_ l) n) ls) cs)
    | .ok locs =>
      if det && s.cw.det && ls ≠ [] && !s.atomNext then .error (.wait .atomKey s.atomClock s)
      else
        let key := fun l => n + 256 * (l + 1)
        match lanesAsked s.issue.resp 1 key (fun l p pa => ⟨1, p, key l, pa, op, opnds s l, [], none⟩) locs with
        | .error cs => .error (laneStop s cs)
        | .ok [] =>
          let (vals, s') := s.updateLanes n (f s) locs
          .ok (wr s' (fun l => BitVec.ofNat 64 ((alGet vals l).getD 0)))
        | .ok asks => .error (.ask asks (s.sending true (locs.map Prod.snd)))

/-- The ATOM variants whose cell is 4 bytes (R340). -/
def atomWord (op : Nat) (d a b : BitVec 7) (f : Word → Word → Word → Word) : Body :=
  atomBody true 4 op a b
    (fun s l => [(s.lane d.toNat l).setWidth 64, (if op = 0x19D then (s.lane (d.toNat + 1) l).setWidth 64 else 0)])
    (fun s l old => ((f (BitVec.ofNat 32 old) (s.lane d.toNat l) (s.lane (d.toNat + 1) l)).toNat, old))
    (fun s v => s.wrLanes d.toNat s.active (fun l => lowWord (v l)))

/-- ATOM.maxi (R136, R340): a helper lane's second register is unchanged. -/
def atomMaxi (d a b : BitVec 7) : Body :=
  atomBody true 8 0x19E a b
    (fun s l => [(s.lane d.toNat l).setWidth 64, (s.lane (d.toNat + 1) l).setWidth 64])
    (fun s l old =>
      let x := s.lane d.toNat l
      let i := s.lane (d.toNat + 1) l
      let wins := beats fp32 x.toNat i.toNat (old % 2 ^ 32) (old / 2 ^ 32)
      (if wins then x.toNat + i.toNat * 2 ^ 32 else old, old))
    (fun s v => (s.wrLanes d.toNat s.active (fun l => lowWord (v l))).wrLanes (d.toNat + 1) s.activeReal
      (fun l => highWord (v l)))

/-- The fields V and e of an ATOMQ cell as a number of 32 bytes, and the update of R313. -/
def cellAdd (cell x : Nat) : Nat × Nat :=
  let v := sext 128 cell
  let e := sext 16 (cell / 2 ^ 128)
  let ovf := field cell 144 1
  let nv := field cell 145 1
  let lo : Int := -(2 ^ 127 : Nat)
  let hi : Int := (2 ^ 127 : Nat) - 1
  let (v', ovf', nv') : Int × Nat × Nat := match decodeF fp32 x with
    | .nan => (v, ovf, 1)
    | .inf neg => if ovf = 1 then (v, ovf, nv) else if neg then (lo, 1, nv) else (hi, 1, nv)
    | .fin neg m k =>
      if ovf = 1 then (v, ovf, nv)
      else
        let q := (roundShift .rne neg m (e - k)).1
        let y : Int := if neg then -(q : Int) else q
        if y > hi then (hi, 1, nv)
        else if y + v > hi then (hi, 1, nv)
        else if y + v < lo then (lo, 1, nv)
        else (v + y, ovf, nv)
  let rest := cell / 2 ^ 128 * 2 ^ 128 - ovf * 2 ^ 144 - nv * 2 ^ 145
  (wrap 128 v' + rest + ovf' * 2 ^ 144 + nv' * 2 ^ 145, nv' * 2 + ovf')

/-- ATOMQ (R343). -/
def atomqBody (d a b : BitVec 7) : Body :=
  atomBody false 32 0x19F a b (fun s l => [(s.lane d.toNat l).setWidth 64])
    (fun s l old => cellAdd old (s.lane d.toNat l).toNat)
    (fun s v => s.wrLanes d.toNat s.active (fun l => lowWord (v l)))

/-! Fences. -/

/-- The scopes of R167. -/
inductive Scope where
  | warp | block | gang | die | device | system
deriving DecidableEq, Repr
/-- Whether a scope reaches beyond the coherent cluster. -/
def Scope.wide (p : Scope) : Bool :=
  match p with
  | .warp => false | .block => false | .gang => false | .die => true | .device => true | .system => true

/-- FENCE: earlier accesses are performed; at die scope and wider the core's L1 is written back and dropped (R174). -/
def fenceBody (p : Scope) : Body := fun s =>
  let c := s.coreOfWarp s.issue.warp
  .ok (if p.wide then (s.releaseL1 c).acquireL1 c else s)

/-- Translations of an address-space ID that touch [lo, hi) go from the clusters for which `here` holds, and for system
scope from the fabric endpoints; L1 lines are written back and dropped (R187, R223, R320). -/
def State.dropTranslations (s : State) (asid : BitVec 16) (lo hi : Nat) (here : Nat → Bool) (sys : Bool) : State :=
  let meets := fun (e : TlbEntry) => e.asid = asid && decide (e.base < hi) && decide (lo < e.base + 2 ^ e.size)
  let s := s.cores.foldl (fun s c =>
    if here (clusterOf c.1) then
      s.removeLines c.1 (fun l => l.asid = asid && decide (lo ≤ l.vline * 128) && decide (l.vline * 128 < hi))
    else s) s
  let cls := s.clusters.map (fun c => if here c.1 then
      (c.1, { c.2 with
        tlb := c.2.tlb.filter (fun e => !meets e), ptrs := c.2.ptrs.filter (fun p => p.asid ≠ asid),
        leafs := c.2.leafs.filter (fun e => !(e.asid = asid && decide (lo ≤ field e.desc 0 57) && decide (field e.desc 0 57 < hi))) })
    else c)
  let dies := if sys then s.dies.map (fun d => { d with
    fabTlb := d.fabTlb.filter (fun e => !meets e), fabPtrs := d.fabPtrs.filter (fun p => p.asid ≠ asid) }) else s.dies
  { s with clusters := cls, dies := dies }

/-- The clusters of a scope's instance for a core (R167, R187). -/
def Scope.clusters (p : Scope) (core cl : Nat) : Bool :=
  match p with
  | .die => decide (cl / Config.clustersPerDie = dieOf core)
  | _ => true

/-- The messages of a list that have not been answered. -/
def openReqs (reqs : List HostReq) (rs : List HostResp) : List HostReq :=
  reqs.filter (fun r => (respOf rs r.kind r.addr.toNat r.n).isNone)

/-- The messages that stand for an instruction under way until it ends: all of them where lanes at home keep the translation of
their issue (R189), else those that are unanswered. -/
def liveReqs (memo : List (Nat × Trans)) (reqs : List HostReq) (rs : List HostResp) : List HostReq :=
  if memo = [] then openReqs reqs rs else reqs

/-- The messages of a strand's accesses that have not ended. A TFENCE that waits makes none. -/
def Strand.accesses (t : Strand) : List HostReq :=
  (t.flight ++ t.log).flatMap (fun l => liveReqs l.memo l.reqs l.resp) ++ (match t.wait with
    | some v => if v.kind = .tfence then [] else liveReqs v.memo v.reqs v.resp
    | none => [])

/-- The messages of accesses of an address-space ID that have not ended and that translated through the clusters for which
`here` holds, and for system scope through the fabric endpoints (R188). The lanes of RLD are translated elsewhere. Which pages
they have used is not looked at: a dropped entry of a large page, or a cached pointer, may serve addresses outside the range. -/
def State.accessesOf (s : State) (asid : BitVec 16) (here : Nat → Bool) (sys : Bool) : List HostReq :=
  let mine := fun (core ctx : Nat) => here (clusterOf core) && ((s.die (dieOf core)).ctx ctx).asid = asid
  ((List.range s.warps.length).flatMap (fun w =>
    let x := s.warp w
    if mine (s.coreOfWarp w) (s.ctxOfWarp w) then
      x.strands.flatMap (fun t => (t.map Strand.accesses).getD []) ++ x.handlers.flatMap (fun h => h.strand.accesses)
    else []) ++
  s.cores.flatMap (fun c => c.2.ops.flatMap (fun o => if mine c.1 (s.ctxOfWarp o.warp) then openReqs o.reqs o.resp else [])) ++
  (List.range s.dies.length).flatMap (fun d => (s.die d).posts.flatMap (fun p =>
    if (List.range Config.clustersPerDie).any (fun k => here (d * Config.clustersPerDie + k))
        && decide (((s.die d).ctx p.ctx).asid = asid) then [p.req] else [])) ++
  (if sys then
    s.launches.flatMap (fun x => if ((s.die x.die).ctx x.ctx).asid = asid then openReqs x.reqs x.resp else []) ++
    s.dies.flatMap (fun d => d.jobs.flatMap (fun j => if (d.ctx j.ctx).asid = asid then openReqs j.reqs j.resp else []) ++
      d.draws.flatMap (fun r => if (d.ctx r.ctx).asid = asid then openReqs r.reqs r.resp else []) ++
      d.halos.flatMap (fun j => if (d.ctx j.leaf.ctx).asid = asid then openReqs j.reqs j.resp else []))
  else [])).filter (fun r => r.kind ≠ 2)

/-- TFENCE (R187, R188). When it issues it drops the translations; then it waits until the accesses of the context that were
under way, which only host memory keeps from ending within their step, have ended. An engine operation or a Ladle move among
them completes: none is aborted (DESIGN CHOICE, log entry 69). -/
def tfenceBody (p : Scope) (a b : BitVec 7) : Body := fun s =>
  let start := s.rdS a.toNat
  let len := (s.rdS b.toNat).toNat
  if fieldOf start 0 12 ≠ 0 || len % 4096 ≠ 0 then trapA s eAlign start.toNat
  else if fieldOf start 57 3 ≠ 0 then trapA s eNoncanon start.toNat
  else
    let lo := fieldOf start 0 57
    let c := s.coreOfWarp s.issue.warp
    let (lo, hi) := if len = 0 then (0, 2 ^ 57) else (lo, min (lo + len) (2 ^ 57))
    let asid := s.who.asid
    let begun := s.cs.wait.any (fun v => v.kind = .tfence)
    let awaited := if begun then s.issue.sent else s.accessesOf asid (p.clusters c) (p = .system)
    let s := if begun then s else (s.releaseL1 c).dropTranslations asid lo hi (p.clusters c) (p = .system)
    if (s.accessesOf asid (p.clusters c) (p = .system)).any awaited.contains then
      .error (.poll .tfence [] { s with issue := { s.issue with sent := awaited } })
    else .ok (s.acquireL1 c)

/-! PREF (R379, R380). -/

/-- The fill for one lane, dropped in the cases of R380. -/
def State.prefetch (s : State) (p : Nat) : State :=
  if field p 57 3 ≠ 0 || (s.l1Find s.who (field p 0 57)).isSome then s
  else match s.translate s.who (field p 0 57) false with
    | .error _ => s
    | .ok t =>
      if !leafBit t.leaf 4 || leafNc t.leaf || decide (2 ≤ leafKind t.leaf) || !leafBit t.leaf 1
          || s.tagBad none t.leaf (t.pa / 128 * 128) 128 (field p 60 4) then s
      else s.fill s.who (field p 0 57 / 128) t
def prefBody (d a imm : BitVec 7) : Body := fun s =>
  .ok ((lanesOf s.activeReal).foldl (fun s l =>
    s.prefetch (add64 (s.rdS a.toNat) (((s.lane d.toNat l).toNat : Int) + s.imm 7 imm.toNat))) s)

/-- SLD.b (R393). -/
def execSldB (d a imm : BitVec 7) (s : State) : Out :=
  perform (wordDab 0x05F d a imm) (scalarLoad 1 d a imm) s

/-- SLD.h (R393). -/
def execSldH (d a imm : BitVec 7) (s : State) : Out :=
  perform (wordDab 0x060 d a imm) (scalarLoad 2 d a imm) s

/-- SLD.w (R393). -/
def execSldW (d a imm : BitVec 7) (s : State) : Out :=
  perform (wordDab 0x061 d a imm) (scalarLoad 4 d a imm) s

/-- SLD.d (R393). -/
def execSldD (d a imm : BitVec 7) (s : State) : Out :=
  perform (wordDab 0x062 d a imm) (scalarLoad 8 d a imm) s

/-- SST.b (R393). -/
def execSstB (d a imm : BitVec 7) (s : State) : Out :=
  perform (wordDab 0x063 d a imm) (scalarStore 1 d a imm) s

/-- SST.h (R393). -/
def execSstH (d a imm : BitVec 7) (s : State) : Out :=
  perform (wordDab 0x064 d a imm) (scalarStore 2 d a imm) s

/-- SST.w (R393). -/
def execSstW (d a imm : BitVec 7) (s : State) : Out :=
  perform (wordDab 0x065 d a imm) (scalarStore 4 d a imm) s

/-- SST.d (R393). -/
def execSstD (d a imm : BitVec 7) (s : State) : Out :=
  perform (wordDab 0x066 d a imm) (scalarStore 8 d a imm) s

/-- VLD.b, immediate (R400, R401). -/
def execVldBImm (d a imm : BitVec 7) (s : State) : Out :=
  perform (wordDab 0x180 d a imm) (vecLoad 1 d (addrImm 1 a imm)) s

/-- VLD.h, immediate (R400, R401). -/
def execVldHImm (d a imm : BitVec 7) (s : State) : Out :=
  perform (wordDab 0x181 d a imm) (vecLoad 2 d (addrImm 2 a imm)) s

/-- VLD.w, immediate (R400, R401). -/
def execVldWImm (d a imm : BitVec 7) (s : State) : Out :=
  perform (wordDab 0x182 d a imm) (vecLoad 4 d (addrImm 4 a imm)) s

/-- VLD.d, immediate (R400, R401). -/
def execVldDImm (d a imm : BitVec 7) (s : State) : Out :=
  perform (wordDab 0x183 d a imm) (vecLoad 8 d (addrImm 8 a imm)) s

/-- VLD.b, indexed (R400, R401). -/
def execVldBIdx (d a b : BitVec 7) (s : State) : Out :=
  perform (wordDab 0x184 d a b) (vecLoad 1 d (addrIdx a b)) s

/-- VLD.h, indexed (R400, R401). -/
def execVldHIdx (d a b : BitVec 7) (s : State) : Out :=
  perform (wordDab 0x185 d a b) (vecLoad 2 d (addrIdx a b)) s

/-- VLD.w, indexed (R400, R401). -/
def execVldWIdx (d a b : BitVec 7) (s : State) : Out :=
  perform (wordDab 0x186 d a b) (vecLoad 4 d (addrIdx a b)) s

/-- VLD.d, indexed (R400, R401). -/
def execVldDIdx (d a b : BitVec 7) (s : State) : Out :=
  perform (wordDab 0x187 d a b) (vecLoad 8 d (addrIdx a b)) s

/-- VST.b, immediate (R400, R401). -/
def execVstBImm (d a imm : BitVec 7) (s : State) : Out :=
  perform (wordDab 0x188 d a imm) (vecStore 1 d (addrImm 1 a imm)) s

/-- VST.h, immediate (R400, R401). -/
def execVstHImm (d a imm : BitVec 7) (s : State) : Out :=
  perform (wordDab 0x189 d a imm) (vecStore 2 d (addrImm 2 a imm)) s

/-- VST.w, immediate (R400, R401). -/
def execVstWImm (d a imm : BitVec 7) (s : State) : Out :=
  perform (wordDab 0x18A d a imm) (vecStore 4 d (addrImm 4 a imm)) s

/-- VST.d, immediate (R400, R401). -/
def execVstDImm (d a imm : BitVec 7) (s : State) : Out :=
  perform (wordDab 0x18B d a imm) (vecStore 8 d (addrImm 8 a imm)) s

/-- VST.b, indexed (R400, R401). -/
def execVstBIdx (d a b : BitVec 7) (s : State) : Out :=
  perform (wordDab 0x18C d a b) (vecStore 1 d (addrIdx a b)) s

/-- VST.h, indexed (R400, R401). -/
def execVstHIdx (d a b : BitVec 7) (s : State) : Out :=
  perform (wordDab 0x18D d a b) (vecStore 2 d (addrIdx a b)) s

/-- VST.w, indexed (R400, R401). -/
def execVstWIdx (d a b : BitVec 7) (s : State) : Out :=
  perform (wordDab 0x18E d a b) (vecStore 4 d (addrIdx a b)) s

/-- VST.d, indexed (R400, R401). -/
def execVstDIdx (d a b : BitVec 7) (s : State) : Out :=
  perform (wordDab 0x18F d a b) (vecStore 8 d (addrIdx a b)) s

/-- VLDS.w (R400, R401). -/
def execVldsW (d a b : BitVec 7) (s : State) : Out :=
  perform (wordDab 0x190 d a b) (vecLoad 4 d (addrScr a b)) s

/-- VLDS.d (R400, R401). -/
def execVldsD (d a b : BitVec 7) (s : State) : Out :=
  perform (wordDab 0x191 d a b) (vecLoad 8 d (addrScr a b)) s

/-- VSTS.w (R400, R401). -/
def execVstsW (d a b : BitVec 7) (s : State) : Out :=
  perform (wordDab 0x192 d a b) (vecStore 4 d (addrScr a b)) s

/-- VSTS.d (R400, R401). -/
def execVstsD (d a b : BitVec 7) (s : State) : Out :=
  perform (wordDab 0x193 d a b) (vecStore 8 d (addrScr a b)) s

/-- VLDI (R151, R400, R401). -/
def execVldi (d a b : BitVec 7) (s : State) : Out :=
  perform (wordDab 0x194 d a b) (vecLoad 4 d (addrIng a b)) s

/-- ATOM.add (R340, R341). -/
def execAtomAdd (d a b : BitVec 7) (s : State) : Out :=
  perform (wordDab 0x195 d a b) (atomWord 0x195 d a b (fun o x _ => o + x)) s

/-- ATOM.minS (R340, R341). -/
def execAtomMinS (d a b : BitVec 7) (s : State) : Out :=
  perform (wordDab 0x196 d a b) (atomWord 0x196 d a b (fun o x _ => if x.slt o then x else o)) s

/-- ATOM.maxS (R340, R341). -/
def execAtomMaxS (d a b : BitVec 7) (s : State) : Out :=
  perform (wordDab 0x197 d a b) (atomWord 0x197 d a b (fun o x _ => if o.slt x then x else o)) s

/-- ATOM.minU (R340, R341). -/
def execAtomMinU (d a b : BitVec 7) (s : State) : Out :=
  perform (wordDab 0x198 d a b) (atomWord 0x198 d a b (fun o x _ => if x.ult o then x else o)) s

/-- ATOM.maxU (R340, R341). -/
def execAtomMaxU (d a b : BitVec 7) (s : State) : Out :=
  perform (wordDab 0x199 d a b) (atomWord 0x199 d a b (fun o x _ => if o.ult x then x else o)) s

/-- ATOM.and (R340, R341). -/
def execAtomAnd (d a b : BitVec 7) (s : State) : Out :=
  perform (wordDab 0x19A d a b) (atomWord 0x19A d a b (fun o x _ => o &&& x)) s

/-- ATOM.or (R340, R341). -/
def execAtomOr (d a b : BitVec 7) (s : State) : Out :=
  perform (wordDab 0x19B d a b) (atomWord 0x19B d a b (fun o x _ => o ||| x)) s

/-- ATOM.exch (R340, R341). -/
def execAtomExch (d a b : BitVec 7) (s : State) : Out :=
  perform (wordDab 0x19C d a b) (atomWord 0x19C d a b (fun _ x _ => x)) s

/-- ATOM.cas (R340, R341). -/
def execAtomCas (d a b : BitVec 7) (s : State) : Out :=
  perform (wordDab 0x19D d a b) (atomWord 0x19D d a b (fun o x y => if o = x then y else o)) s

/-- ATOM.maxi (R340, R341). -/
def execAtomMaxi (d a b : BitVec 7) (s : State) : Out :=
  perform (wordDab 0x19E d a b) (atomMaxi d a b) s

/-- ATOMQ (R313, R343). -/
def execAtomq (d a b : BitVec 7) (s : State) : Out :=
  perform (wordDab 0x19F d a b) (atomqBody d a b) s

/-- FENCE.warp (R174). -/
def execFenceWarp (s : State) : Out :=
  perform (wordDab 0x1A0 0 0 0) (fenceBody .warp) s

/-- FENCE.block (R174). -/
def execFenceBlock (s : State) : Out :=
  perform (wordDab 0x1A1 0 0 0) (fenceBody .block) s

/-- FENCE.gang (R174). -/
def execFenceGang (s : State) : Out :=
  perform (wordDab 0x1A2 0 0 0) (fenceBody .gang) s

/-- FENCE.die (R174). -/
def execFenceDie (s : State) : Out :=
  perform (wordDab 0x1A3 0 0 0) (fenceBody .die) s

/-- FENCE.device (R174). -/
def execFenceDevice (s : State) : Out :=
  perform (wordDab 0x1A4 0 0 0) (fenceBody .device) s

/-- FENCE.system (R174). -/
def execFenceSystem (s : State) : Out :=
  perform (wordDab 0x1A5 0 0 0) (fenceBody .system) s

/-- TFENCE.die (R187). -/
def execTfenceDie (a b : BitVec 7) (s : State) : Out :=
  perform (wordDab 0x1A6 0 a b) (tfenceBody .die a b) s

/-- TFENCE.device (R187). -/
def execTfenceDevice (a b : BitVec 7) (s : State) : Out :=
  perform (wordDab 0x1A7 0 a b) (tfenceBody .device a b) s

/-- TFENCE.system (R187). -/
def execTfenceSystem (a b : BitVec 7) (s : State) : Out :=
  perform (wordDab 0x1A8 0 a b) (tfenceBody .system a b) s

/-- PREF (R379, R380). -/
def execPref (d a imm : BitVec 7) (s : State) : Out :=
  perform (wordDab 0x1AA d a imm) (prefBody d a imm) s

end Sys2Proof.Machine
end

