-- ==== Sys2Proof/Machine/Matrix.lean ====
section
/-! DEFINITION. The matrix engine (R192 to R215, R371 to R374): shape records, row descriptors and windows, the checks at
issue, and the work of one 16-row group. -/

namespace Sys2Proof.Machine

open Sys2Proof

/-! Shape records (R196 to R198). -/

/-- A record's base and geometry word, and its fields. -/
def recBase (r : List DWord) : Nat := (nth r 0 0).toNat
def recGeom (r : List DWord) : DWord := nth r 1 0
def recSpace (r : List DWord) : Nat := fieldOf (recGeom r) 0 2
def recT (r : List DWord) : Bool := (recGeom r).getLsbD 2
def recSp (r : List DWord) : Nat := fieldOf (recGeom r) 3 2
def recRows (r : List DWord) : Nat := fieldOf (recGeom r) 8 13
def recCols (r : List DWord) : Nat := fieldOf (recGeom r) 21 13
def recStride (r : List DWord) : Nat := fieldOf (recGeom r) 34 30
def recSbase (r : List DWord) : Nat := (nth r 3 0).toNat
/-- Row and column of a record in accumulator space. -/
def recAccRow (r : List DWord) : Nat := field (recBase r) 0 9
def recAccCol (r : List DWord) : Nat := field (recBase r) 16 7

/-- The checks of MSHP on a base and a geometry word, with the faulting address (R198). -/
def shapeCheck (base g : DWord) : Option (Err × Nat) :=
  if fieldOf g 3 2 = 3 || fieldOf g 5 2 ≠ 0 then some ((.shape, 0), 0)
  else if fieldOf g 8 13 = 0 || 4096 < fieldOf g 8 13 || fieldOf g 21 13 = 0 || 4096 < fieldOf g 21 13 then
    some ((.shape, 0), 0)
  else if fieldOf g 0 2 = 3 then
    if g.getLsbD 2 || fieldOf g 3 2 ≠ 0 || fieldOf g 34 30 ≠ 0 || fieldOf base 9 7 ≠ 0 || fieldOf base 23 41 ≠ 0
        || fieldOf base 16 5 ≠ 0 then some ((.shape, 0), 0)
    else if 512 < fieldOf base 0 9 + fieldOf g 8 13 || 128 < fieldOf base 16 7 + fieldOf g 21 13 then
      some ((.shape, 0), 0)
    else none
  else if fieldOf base 0 4 ≠ 0 || fieldOf g 34 4 ≠ 0 then some (eAlign, base.toNat)
  else if fieldOf g 0 2 = 1 && fieldOf base 57 3 ≠ 0 then some (eNoncanon, base.toNat)
  else none

/-- Whether a record may be used: ok set, and MSHP's checks passed again (R198). -/
def recOk (r : List DWord) : Bool := (recGeom r).getLsbD 7 && (shapeCheck (nth r 0 0) (recGeom r)).isNone

/-- MSHP (R198). -/
def mshpBody (d a b : BitVec 7) : Body := fun s =>
  let base := s.rdS a.toNat
  let g := s.rdS b.toNat
  match shapeCheck base g with
  | some (e, p) => trapA s e p
  | none => .ok ((s.wrS d.toNat base).wrS (d.toNat + 1) (g ||| 0x80))

/-! Row descriptors (R199) and windows (R193, R195). -/

def dRow0 (x : DWord) : Nat := fieldOf x 0 9
def dCol0 (x : DWord) : Nat := fieldOf x 16 7
def dProw0 (x : DWord) : Nat := fieldOf x 32 9
def dNrows (x : DWord) : Nat := fieldOf x 42 10

/-- Whether a descriptor is well formed for an instruction that uses these fields, its column a multiple of `cal`. -/
def descOk (x : DWord) (row col q prow nrows : Bool) (cal : Nat) : Bool :=
  fieldOf x 9 7 = 0 && fieldOf x 24 8 = 0 && fieldOf x 41 1 = 0 && fieldOf x 52 12 = 0
    && (row || dRow0 x = 0) && (col || dCol0 x = 0) && (q || dQ x = 0) && (prow || dProw0 x = 0)
    && (if nrows then decide (1 ≤ dNrows x) && decide (dNrows x ≤ 512) else dNrows x = 0) && dCol0 x % cal = 0

/-- Whether rows [lo, lo + n) lie in a warp's window. -/
def Warp.inWindow (x : Warp) (lo n : Nat) : Bool :=
  decide (x.accb.toNat ≤ lo) && decide (lo + n ≤ x.accb.toNat + x.accl.toNat)

/-- Whether two runs of rows share a row. -/
def overlap (a n b m : Nat) : Bool := decide (a < b + m) && decide (b < a + n)

/-! Operand elements (R197, R202). -/

/-- The element format of an opcode (R372); scales alone for MSCA. -/
def matElem (op : Nat) : Elem :=
  match op with
  | 0x203 => .bf16 | 0x204 => .fp16 | 0x205 => .e4m3 | 0x206 => .e5m2 | 0x207 => .t8 | 0x208 => .t6
  | 0x209 => .e2m1 | _ => .e4m3

/-- M, K and N. -/
def MatOp.dimM (m : MatOp) : Nat := recRows m.arec
def MatOp.dimK (m : MatOp) : Nat := recCols m.arec
def MatOp.dimN (m : MatOp) : Nat := recCols m.brec
def MatOp.nb (m : MatOp) : Nat := m.dimK / 32

/-- Whether index k lies in a group that a record's mask keeps. -/
def recKeeps (r : List DWord) (k : Nat) : Bool :=
  match recSp r with
  | 1 => (nth r 2 0).getLsbD (k / 8)
  | 2 => (nth r 2 0).getLsbD (k / 32)
  | _ => true
/-- Whether the products of index k are present (R202). -/
def MatOp.present (m : MatOp) (k : Nat) : Bool := recKeeps m.arec k && recKeeps m.brec k

/-- The 16-byte units of a line of n elements of w bits that hold an element for which p holds, as offsets. -/
def lineUnits (w n : Nat) (p : Nat → Bool) : List Nat :=
  (List.range ((n * w + 127) / 128)).filter (fun u =>
    (List.range (128 / w + 2)).any (fun i =>
      let j := 128 * u / w + i
      decide (j < n) && decide (j * w < 128 * (u + 1)) && p j))

/-- The lines of an operand with the offset of each from the base, and which of its elements are read: `pr` on rows and
`pc` on columns of the record. -/
def recLines (r : List DWord) (pr pc : Nat → Bool) : List (Nat × (Nat → Bool)) :=
  if recT r then ((List.range (recCols r)).filter pc).map (fun c => (c, pr))
  else ((List.range (recRows r)).filter pr).map (fun i => (i, pc))
def recMinor (r : List DWord) : Nat := if recT r then recRows r else recCols r

/-- The footprint of an operand: its 16-byte units as offsets from the base (R201, check 7). -/
def recUnits (w : Nat) (r : List DWord) (pr pc : Nat → Bool) : List Nat :=
  (recLines r pr pc).flatMap (fun l => (lineUnits w (recMinor r) l.2).map (fun u => l.1 * recStride r + 16 * u))

/-- The 16-byte units that cover a run of bytes (the scale arrays of MSCA). -/
def runUnits (a n : Nat) : List Nat := (List.range ((a + n + 15) / 16 - a / 16)).map (fun i => a / 16 * 16 + 16 * i)

/-- Rows 3 and 4 of R143 for a 16-byte unit of a scratch or Ingot operand. -/
def State.unitBad (s : State) (space b core ctx addr : Nat) : Option Err :=
  match space with
  | 0 => match s.scratchLoc b addr 16 with
    | .ok _ => none
    | .error e => some e
  | 2 => s.ingotBad (dieOf core) ctx addr 16
  | _ => none

/-- The first unit of a footprint that breaks row 3, else the first that breaks row 4. -/
def State.unitsBad (s : State) (space b core ctx : Nat) (us : List Nat) : Option (Err × Nat) :=
  match us.find? (fun u => s.unitBad space b core ctx u = some eRange) with
  | some u => some (eRange, u)
  | none => firstSome (fun u => (s.unitBad space b core ctx u).map (fun e => (e, u))) us

/-! The checks at issue (R201, R206, R207, R210, R371, R373, R374). -/

/-- Check 7 for one operand of MMA or MMAX. -/
def State.operandBad (s : State) (w b core ctx : Nat) (r : List DWord) (pr pc : Nat → Bool) : Option (Err × Nat) :=
  if recSpace r = 0 || recSpace r = 2 then
    s.unitsBad (recSpace r) b core ctx ((recUnits w r pr pc).map (fun u => recBase r + u))
  else none

def eShape : Err := (.shape, 0)
def eAccwin : Err := (.accwin, 0)

/-- Checks 1 to 5 of R201 in the forms of MMA, MMAX and MSCA. -/
def MatOp.badShape (m : MatOp) : Bool :=
  let mma := decide (m.op ≤ 0x208)
  !recOk m.arec || !recOk m.brec
    || decide (recRows m.brec ≠ m.dimK) || decide (m.dimM % 16 ≠ 0) || decide (128 < m.dimM)
    || decide (m.dimN % 16 ≠ 0) || decide (128 < m.dimN) || decide (m.dimK % 32 ≠ 0) || decide (4096 < m.dimK)
    || decide (128 < dCol0 m.desc + m.dimN)
    || decide (recSpace m.brec = 3)
    || (recSpace m.arec = 3 && !(m.op = 0x203 || m.op = 0x204))
    || [m.arec, m.brec].any (fun r => (recSp r = 1 && decide (512 < m.dimK)) || (recSp r = 2 && decide (2048 < m.dimK))
        || (!mma && recSp r ≠ 0))
    || !(if mma then descOk m.desc true true true false false 16
         else if m.op = 0x20B then descOk m.desc true true true true false 16
         else descOk m.desc false true true true false 16)

/-- R195 for MMA, MMAX and MSCA in a warp's window. -/
def MatOp.badWindow (m : MatOp) (x : Warp) : Bool :=
  let res := !x.inWindow (dRow0 m.desc) m.dimM
  let par := !x.inWindow (dProw0 m.desc) (m.dimM * m.nb)
  if m.op ≤ 0x208 then
    res || (recSpace m.arec = 3 &&
      (!x.inWindow (recAccRow m.arec) m.dimM || overlap (dRow0 m.desc) m.dimM (recAccRow m.arec) m.dimM))
  else if m.op = 0x20B then res || par || overlap (dRow0 m.desc) m.dimM (dProw0 m.desc) (m.dimM * m.nb)
  else par

/-- Check 7 for MMA, MMAX and MSCA. -/
def State.footprintBad (s : State) (m : MatOp) (b core ctx : Nat) : Option (Err × Nat) :=
  let all := fun (_ : Nat) => true
  let both := if m.op = 0x20B then
      let ua := if recSpace m.arec ≠ 1 then
        s.unitsBad (recSpace m.arec) b core ctx (runUnits (recSbase m.arec) (m.dimM * m.nb)) else none
      let ub := if recSpace m.brec ≠ 1 then
        s.unitsBad (recSpace m.brec) b core ctx (runUnits (recSbase m.brec) (m.dimN * m.nb)) else none
      [ua, ub]
    else
      let w := (matElem m.op).bits
      [s.operandBad w b core ctx m.arec all m.present, s.operandBad w b core ctx m.brec m.present all]
  match both.filterMap id with
  | [] => none
  | e :: r => match (e :: r).find? (fun x => x.1 = eRange) with
    | some x => some x
    | none => some e

/-- Checks 1 to 7 of R201 for the issuing warp. -/
def State.mmaCheck (s : State) (m : MatOp) : Option (Err × Nat) :=
  if m.badShape then some (eShape, 0)
  else if m.badWindow s.cw then some (eAccwin, 0)
  else s.footprintBad m s.cw.blk (s.coreOfWarp s.issue.warp) (s.ctxOfWarp s.issue.warp)

/-! Pending rows (R203) and entry into a queue. -/

/-- Runs of accumulator rows that an operation reads or writes. -/
def MatOp.rows (m : MatOp) : List (Nat × Nat) :=
  if m.op = 0x202 then [(dRow0 m.desc, dNrows m.desc)]
  else if m.op ≤ 0x208 then
    (dRow0 m.desc, m.dimM) :: (if recSpace m.arec = 3 then [(recAccRow m.arec, m.dimM)] else [])
  else if m.op ≤ 0x20A then [(dProw0 m.desc, m.dimM * m.nb)]
  else if m.op = 0x20B then [(dRow0 m.desc, m.dimM), (dProw0 m.desc, m.dimM * m.nb)]
  else [(dRow0 m.desc, recRows m.brec)]
def EngOp.rows (o : EngOp) : List (Nat × Nat) :=
  match o.kind with
  | .mat m => m.rows
  | .copym _ _ m => m.rows
  | _ => []

/-- Whether an operation of the issuing warp still holds one of these rows (R203). -/
def State.rowsBusy (s : State) (rs : List (Nat × Nat)) : Bool :=
  (s.opsOf s.issue.warp).any (fun o => o.rows.any (fun p => rs.any (fun q => overlap p.1 p.2 q.1 q.2)))

/-- A new engine operation of the issuing strand. -/
def State.newOp (s : State) (k : EngKind) (len : Nat) (held : Bool) (tag : DWord) : EngOp :=
  { id := s.seq, warp := s.issue.warp, entry := s.issue.entry, blk := s.cw.blk, chain := s.issue.chain,
    after := s.issue.pc + 4, word := s.issue.word, kind := k, len := len, held := held, tag := tag, pos := 0, stage := 0,
    desc := [], buf := [], permit := false, performed := false, stopped := false, parent := none, resp := [], reqs := [] }

/-- Entry into a queue of the core; the strand waits for one of its 16 entries (R201, R352). -/
def State.enqueue (s : State) (n : Nat) (o : EngOp) : Except Stop State :=
  let c := s.coreOfWarp s.issue.warp
  let k := s.core c
  if Config.queueDepth ≤ (k.queue n).length then waitE s .engineQueue
  else .ok { (s.setCore c (k.setQueue n (k.queue n ++ [o]))) with seq := s.seq + 1 }

/-- A matrix operation enters its queue once its rows are free, an entry is free and, where asked, a permit is held. -/
def State.enterMat (s : State) (m : MatOp) (permit : Bool) : Except Stop State :=
  if s.rowsBusy m.rows then waitE s .board
  else
    let c := s.coreOfWarp s.issue.warp
    if Config.queueDepth ≤ ((s.core c).queue (4 + dQ m.desc)).length then waitE s .engineQueue
    else if permit && !s.cs.permit then waitE s .permit
    else s.enqueue (4 + dQ m.desc) (s.newOp (.mat m) 0 false 0)

/-- Whether an operation asks for a pour permit (R215). -/
def MatOp.needsPermit (m : MatOp) : Bool :=
  if m.op = 0x20B then decide (65536 ≤ m.dimM * m.dimN * m.nb)
  else decide (0x203 ≤ m.op) && decide (m.op ≤ 0x20A) && decide (262144 ≤ m.dimM * m.dimN * m.dimK)

/-- The four scalars of a run. -/
def State.rdRun (s : State) (n : Nat) : List DWord := (List.range 4).map (fun i => s.rdS (n + i))

/-- MMA, MMAX and MSCA (R201, R206, R207). -/
def mmaBody (op : Nat) (d a b : BitVec 7) : Body := fun s =>
  let m : MatOp := ⟨op, s.rdS d.toNat, s.rdRun a.toNat, s.rdRun b.toNat⟩
  match s.mmaCheck m with
  | some (e, p) => trapA s e p
  | none => s.enterMat m m.needsPermit

/-- MZERO (R208, R374). -/
def mzeroBody (a : BitVec 7) : Body := fun s =>
  let x := s.rdS a.toNat
  if !descOk x true false true false true 1 then trapE s eShape
  else if !s.cw.inWindow (dRow0 x) (dNrows x) then trapE s eAccwin
  else s.enterMat ⟨0x202, x, [], []⟩ false

/-- Bytes of one stored line of MSTA: a row when t = 0, a column when t = 1. -/
def mstaWidth (op : Nat) : Nat := if op = 0x20E then 4 else 2
def mstaLine (op : Nat) (r : List DWord) : Nat := recMinor r * mstaWidth op

/-- MSTA (R210, R373). -/
def mstaBody (op : Nat) (a b : BitVec 7) : Body := fun s =>
  let x := s.rdS a.toNat
  let r := s.rdRun b.toNat
  if !recOk r || decide (2 ≤ recSpace r) || decide (recSp r ≠ 0) || decide (512 < recRows r)
      || decide (128 < dCol0 x + recCols r) || decide (recStride r < mstaLine op r)
      || !descOk x true true true false false 16 then trapE s eShape
  else if !s.cw.inWindow (dRow0 x) (recRows r) then trapE s eAccwin
  else
    let n := if recT r then recCols r else recRows r
    match (if recSpace r = 0 then firstSome (fun i =>
        match s.scratchLoc s.cw.blk (recBase r + i * recStride r) (mstaLine op r) with
        | .ok _ => none
        | .error e => some (e, recBase r + i * recStride r)) (List.range n) else none) with
    | some (e, p) => trapA s e p
    | none => s.enterMat ⟨op, x, [], r⟩ false

/-- The accumulator of a block: row and column within its allotment (R192). -/
def Block.accGet (b : Block) (r c : Nat) : Word := spGet 0 b.acc (r * 128 + c)
def Block.accSet (b : Block) (r c : Nat) (v : Word) : Block := { b with acc := spSet 0 b.acc (r * 128 + c) v }

/-- MACC (R209, R371). -/
def maccCheck (s : State) (x : DWord) : Option Stop :=
  if !descOk x true true false false false 32 then some (.trap (TrapInfo.of eShape) s)
  else if !s.cw.inWindow (dRow0 x) 1 then some (.trap (TrapInfo.of eAccwin) s)
  else if s.rowsBusy [(dRow0 x, 1)] then some (.wait .board 0 s)
  else none
def maccRdBody (d a : BitVec 7) : Body := fun s =>
  let x := s.rdS a.toNat
  match maccCheck s x with
  | some p => .error p
  | none => .ok (s.wrLanes d.toNat s.active (fun l => (s.block s.cw.blk).accGet (dRow0 x) (dCol0 x + l)))
def maccWrBody (a b : BitVec 7) : Body := fun s =>
  let x := s.rdS a.toNat
  match maccCheck s x with
  | some p => .error p
  | none =>
    let k := (lanesOf s.activeReal).foldl (fun k l => Block.accSet k (dRow0 x) (dCol0 x + l) (s.lane b.toNat l))
      (s.block s.cw.blk)
    .ok (s.setBlock s.cw.blk k)

/-- MWIN (R194). -/
def mwinBody (a b : BitVec 7) : Body := fun s =>
  let w := s.rdS a.toNat
  let g := s.rdS b.toNat
  let blk := s.block s.cw.blk
  if s.cw.idx ≠ 0 then trapE s (.prot, 0)
  else if fieldOf w 6 58 ≠ 0 || fieldOf g 9 7 ≠ 0 || fieldOf g 26 38 ≠ 0 then trapE s eAccwin
  else if !w.getLsbD 5 && decide (blk.warps.length ≤ fieldOf w 0 5) then trapE s eAccwin
  else if recAccRows (s.recOf s.cw.blk) < fieldOf g 0 9 + fieldOf g 16 10 then trapE s eAccwin
  else
    let ts := if w.getLsbD 5 then blk.warps else [nth blk.warps (fieldOf w 0 5) 0]
    if ts.any (fun v => (s.opsOf v).any (fun o => match o.kind with
      | .mat _ => true
      | .copym _ _ _ => true
      | _ => false)) then waitE s .mwin
    else .ok (ts.foldl (fun s v => s.setWarp v { s.warp v with
      accb := BitVec.ofNat 9 (fieldOf g 0 9), accl := BitVec.ofNat 10 (fieldOf g 16 10) }) s)

/-! The engine's reads and writes. -/

/-- Why a step of an engine operation stops: a condition at an address, or the need of host memory or a remote die. -/
inductive EngErr where
  | bad (e : Err) (addr : Nat)
  | ask (asks : List HostAsk)
deriving DecidableEq, Repr

/-- Bytes stored at a global pointer at home: all of them resolved first, host memory answered. A piece that has its answer
is done, and translated no more (R189). -/
def State.ioWrite (s : State) (who : Who) (rs : List HostResp) (addr : Nat) (bs : List Byte) : Except EngErr State :=
  let ps := piecesOf addr bs.length
  match firstSome (fun (p : Nat × Nat) => match hostAns rs 3 p.1 p.2 with
      | some (.error e) => some (EngErr.bad e p.1)
      | _ => none) ps with
  | some e => .error e
  | none => match s.resolveRun who .write (ps.filter (fun p => (hostAns rs 3 p.1 p.2).isNone)) with
    | .error (e, a) => .error (.bad e a)
    | .ok ts =>
      let run := cutRun addr bs ts
      match run.filter (fun t => leafKind t.2.2.leaf = 2) with
      | [] => .ok (s.putRun who run)
      | need => .error (.ask (need.map (fun t => askWrite t.1 t.2.2.pa t.2.1)))

/-- n bytes at a global pointer read at home. -/
def State.ioRead (s : State) (who : Who) (rs : List HostResp) (addr n : Nat) : Except EngErr (List Byte × State) :=
  match s.readMem who rs addr n with
  | (.bytes bs, s) => .ok (bs, s)
  | (.bad e a, _) => .error (.bad e a)
  | (.host ps, _) => .error (.ask (ps.map (fun x => askRead x.1 x.2.1 x.2.2)))

/-- An atomic update of n bytes at home (R172); the old value. `key` tells updates of one place apart. -/
def State.ioAtomic (s : State) (who : Who) (rs : List HostResp) (addr n key op : Nat) (opnds : List DWord) (f : Nat → Nat) :
    Except EngErr (Nat × State) :=
  match hostAns rs 1 addr (n + 256 * key) with
  | some (.ok v) => .ok (v, s)
  | some (.error e) => .error (.bad e addr)
  | none => match s.resolve who false .write addr n with
    | .error e => .error (.bad e addr)
    | .ok t =>
      if leafKind t.leaf = 2 then .error (.ask [⟨1, addr, n + 256 * key, t.pa, op, opnds, [], none⟩])
      else
        let (bs, s) := s.homeRead who (field addr 0 57) n t true
        .ok (ofBytes bs, s.homeWrite who (field addr 0 57) (toBytes n (f (ofBytes bs))) t)

/-- A 64-bit atomic add (operation 6 of R386 in a message). -/
def State.ioAdd (s : State) (who : Who) (rs : List HostResp) (addr x : Nat) : Except EngErr (Nat × State) :=
  s.ioAtomic who rs addr 8 0 6 [BitVec.ofNat 64 x] (fun v => v + x)

/-- n bytes of a space, read by an engine operation: 0 own scratch or gang window, 1 global, 2 Ingot store. -/
def State.engRead (s : State) (o : EngOp) (space addr n : Nat) : Except EngErr (List Byte × State) :=
  let core := s.coreOfWarp o.warp
  match space with
  | 0 => match s.scratchLoc o.blk addr n with
    | .ok (b, off) => .ok (s.scratchRead b off n, s)
    | .error e => .error (.bad e addr)
  | 1 => s.ioRead (s.whoOfWarp o.warp) o.resp addr n
  | _ => match s.ingotBad (dieOf core) (s.ctxOfWarp o.warp) addr n with
    | some e => .error (.bad e addr)
    | none => .ok (s.ingotRead (dieOf core) addr n, s)

/-- Bytes stored by an engine operation in scratch or global memory. -/
def State.engWrite (s : State) (o : EngOp) (space addr : Nat) (bs : List Byte) : Except EngErr State :=
  match space with
  | 0 => match s.scratchLoc o.blk addr bs.length with
    | .ok (b, off) => .ok (s.scratchWrite b off bs)
    | .error e => .error (.bad e addr)
  | _ => s.ioWrite (s.whoOfWarp o.warp) o.resp addr bs

/-- Why a list of runs of bytes cannot be written: the first condition that one of them meets, and only where none does the
needs of host memory of them all (R212). -/
def State.engCheck (s : State) (o : EngOp) (space : Nat) : List (Nat × List Byte) → Option EngErr
  | [] => none
  | (a, bs) :: r => match s.engWrite o space a bs, s.engCheck o space r with
    | .error (.bad e p), _ => some (.bad e p)
    | .error (.ask _), some (.bad e p) => some (.bad e p)
    | .error (.ask x), some (.ask y) => some (.ask (x ++ y))
    | .error (.ask x), none => some (.ask x)
    | .ok _, e => e

/-- Runs of bytes written one after the other, once all of them are known to be writable. -/
def State.engWrites (s : State) (o : EngOp) (space : Nat) : List (Nat × List Byte) → Except EngErr State
  | [] => .ok s
  | (a, bs) :: r => match s.engWrite o space a bs with
    | .error e => .error e
    | .ok s => s.engWrites o space r

/-- The units of a line read into one little-endian number, absent units as zero. -/
def State.lineRead (s : State) (o : EngOp) (space base : Nat) : List Nat → Nat → Except EngErr (Nat × State)
  | [], acc => .ok (acc, s)
  | u :: us, acc =>
    match s.engRead o space (base + 16 * u) 16 with
    | .error e => .error e
    | .ok (bs, s) => s.lineRead o space base us (acc + ofBytes bs * 2 ^ (128 * u))

/-- The lines of an operand, by line number. -/
def State.linesRead (s : State) (o : EngOp) (w : Nat) (r : List DWord) :
    List (Nat × (Nat → Bool)) → Except EngErr (List (Nat × Nat) × State)
  | [] => .ok ([], s)
  | (i, p) :: ls =>
    match s.lineRead o (recSpace r) (recBase r + i * recStride r) (lineUnits w (recMinor r) p) 0 with
    | .error e => .error e
    | .ok (x, s) => match s.linesRead o w r ls with
      | .error e => .error e
      | .ok (xs, s) => .ok ((i, x) :: xs, s)

/-- Element (i, c) of an operand from its lines. -/
def lineElem (e : Elem) (r : List DWord) (ls : List (Nat × Nat)) (i c : Nat) : FVal :=
  let (major, minor) := if recT r then (c, i) else (i, c)
  e.decode (field ((alGet ls major).getD 0) (minor * e.bits) e.bits)

/-- An accumulator element rounded to the format of the operand (R197). -/
def accElem (e : Elem) (x : Word) : FVal :=
  let f := if e = .fp16 then fp16 else bf16
  decodeF f (finish f .rne false (decodeF fp32 x.toNat).exact).bits

/-- The products of chunk ch of row i and column n that are present (R137, R139). -/
def MatOp.products (m : MatOp) (a : Nat → FVal) (b : Nat → FVal) (ch : Nat) : List FVal :=
  ((List.range 32).filter (fun j => m.present (32 * ch + j))).map (fun j =>
    (mulVal (a (32 * ch + j)) (b (32 * ch + j))).1)

/-- New values of accumulator elements: row, column, bits. -/
abbrev AccWrites := List (Nat × Nat × Word)

/-- The group g of an MMA or MMAX (R201, R206). -/
def State.mmaGroup (s : State) (o : EngOp) (m : MatOp) (g : Nat) : Except EngErr (AccWrites × State) :=
  let e := matElem m.op
  let w := e.bits
  let all := fun (_ : Nat) => true
  let mine := fun (i : Nat) => decide (i / 16 = g)
  let blk := s.block o.blk
  match (if recSpace m.arec = 3 then .ok ([], s) else s.linesRead o w m.arec (recLines m.arec mine m.present)) with
  | .error x => .error x
  | .ok (la, s) =>
    match s.linesRead o w m.brec (recLines m.brec m.present all) with
    | .error x => .error x
    | .ok (lb, s) =>
      let a := fun i k => if recSpace m.arec = 3
        then accElem e (blk.accGet (recAccRow m.arec + i) (recAccCol m.arec + k)) else lineElem e m.arec la i k
      let cols := (List.range m.dimN).map (fun n => (List.range m.dimK).map (fun k => lineElem e m.brec lb k n))
      let zero := FVal.fin false 0 0
      let out := (List.range 16).flatMap (fun i =>
        let i := 16 * g + i
        let row := (List.range m.dimK).map (a i)
        (List.range m.dimN).flatMap (fun n =>
          let col := nth cols n []
          let prods := fun ch => m.products (fun k => nth row k zero) (fun k => nth col k zero) ch
          if m.op ≤ 0x208 then
            let acc := (List.range m.nb).foldl (fun acc ch => chunkFold acc (prods ch))
              (blk.accGet (dRow0 m.desc + i) (dCol0 m.desc + n)).toNat
            [(dRow0 m.desc + i, dCol0 m.desc + n, BitVec.ofNat 32 acc)]
          else
            (List.range m.nb).map (fun j =>
              (dProw0 m.desc + j * m.dimM + i, dCol0 m.desc + n, BitVec.ofNat 32 (chunkSum (prods j))))))
      .ok (out, s)

/-- The group g of an MSCA (R138, R207). -/
def State.mscaGroup (s : State) (o : EngOp) (m : MatOp) (g : Nat) : Except EngErr (AccWrites × State) :=
  let nb := m.nb
  let blk := s.block o.blk
  match s.engRead o (recSpace m.arec) (recSbase m.arec + 16 * g * nb) (16 * nb) with
  | .error x => .error x
  | .ok (sa, s) => match s.engRead o (recSpace m.brec) (recSbase m.brec) (m.dimN * nb) with
    | .error x => .error x
    | .ok (sb, s) =>
      let out := (List.range 16).flatMap (fun i => (List.range m.dimN).map (fun n =>
        let r := 16 * g + i
        let acc := (List.range nb).foldl (fun acc j =>
          mxFold acc (blk.accGet (dProw0 m.desc + j * m.dimM + r) (dCol0 m.desc + n)).toNat
            (nth sa (i * nb + j) 0).toNat (nth sb (n * nb + j) 0).toNat)
          (blk.accGet (dRow0 m.desc + r) (dCol0 m.desc + n)).toNat
        (dRow0 m.desc + r, dCol0 m.desc + n, BitVec.ofNat 32 acc)))
      .ok (out, s)

/-- The runs of bytes that group g of an MSTA stores (R210). -/
def mstaRuns (m : MatOp) (blk : Block) (g : Nat) : List (Nat × List Byte) :=
  let r := m.brec
  let w := mstaWidth m.op
  let rows := (List.range 16).filterMap (fun i => if 16 * g + i < recRows r then some (16 * g + i) else none)
  let cell := fun i c =>
    let x := (blk.accGet (dRow0 m.desc + i) (dCol0 m.desc + c)).toNat
    toBytes w (if m.op = 0x20E then x else (finish bf16 .rne false (decodeF fp32 x).exact).bits)
  if recT r then
    (List.range (recCols r)).map (fun c => (recBase r + c * recStride r + 16 * g * w, rows.flatMap (fun i => cell i c)))
  else rows.map (fun i => (recBase r + i * recStride r, (List.range (recCols r)).flatMap (fun c => cell i c)))

/-- Groups of 16 rows of an operation (R211). -/
def MatOp.groups (m : MatOp) : Nat :=
  if m.op = 0x202 then (dNrows m.desc + 15) / 16
  else if m.op ≤ 0x20B then m.dimM / 16
  else (recRows m.brec + 15) / 16

/-- One group of a matrix operation: committed whole, or nothing (R201, R205 to R210, R212). MSTA's stores are known to be
writable. -/
def State.matGroup (s : State) (o : EngOp) (m : MatOp) (g : Nat) : Except EngErr State :=
  let commit := fun (out : AccWrites) (s : State) =>
    s.setBlock o.blk (out.foldl (fun b x => b.accSet x.1 x.2.1 x.2.2) (s.block o.blk))
  if m.op = 0x202 then
    let rows := (List.range 16).filter (fun i => 16 * g + i < dNrows m.desc)
    .ok (commit (rows.flatMap (fun i => (List.range 128).map (fun c => (dRow0 m.desc + 16 * g + i, c, 0)))) s)
  else if m.op ≤ 0x20A then match s.mmaGroup o m g with
    | .error e => .error e
    | .ok (out, s) => .ok (commit out s)
  else if m.op = 0x20B then match s.mscaGroup o m g with
    | .error e => .error e
    | .ok (out, s) => .ok (commit out s)
  else s.engWrites o (recSpace m.brec) (mstaRuns m (s.block o.blk) g)

/-- How far an MSTA comes from group g on: the groups, of the next n, before the first that meets a condition, that condition,
and the needs of host memory of the groups before it. -/
def State.mstaReach (s : State) (o : EngOp) (m : MatOp) : Nat → Nat → Nat × Option (Err × Nat) × List HostAsk
  | 0, _ => (0, none, [])
  | n + 1, g =>
    match s.engCheck o (recSpace m.brec) (mstaRuns m (s.block o.blk) g) with
    | some (.bad e a) => (0, some (e, a), [])
    | some (.ask asks) => let (k, bad, more) := s.mstaReach o m n (g + 1); (k + 1, bad, asks ++ more)
    | none => let (k, bad, more) := s.mstaReach o m n (g + 1); (k + 1, bad, more)

/-- The groups g to g + n - 1 of a matrix operation, one after the other. -/
def State.matGroups (s : State) (o : EngOp) (m : MatOp) : Nat → Nat → Except EngErr State
  | 0, _ => .ok s
  | n + 1, g => match s.matGroup o m g with
    | .error e => .error e
    | .ok s => s.matGroups o m n (g + 1)

/-! Chunk rows and MSTA (R205, R373): an MSTA stores its groups at once, and where it cannot (host memory, a condition met by
a later group) the others that would read what it stores wait for its end, as it waits for those that are reading. -/

/-- Where a 16-byte unit of an operand lies. -/
inductive Place where
  | scratch (b u : Nat)
  | home (u : Nat)
  | host (u : Nat)
deriving DecidableEq, Repr

/-- The place of the unit at an address of a space, if there is one. -/
def State.placeOf (s : State) (o : EngOp) (space a : Nat) : Option Place :=
  match space with
  | 0 => match s.scratchLoc o.blk (a / 16 * 16) 16 with
    | .ok (b, off) => some (.scratch b (off / 16))
    | .error _ => none
  | 1 => match s.translate (s.whoOfWarp o.warp) (field a 0 57) false with
    | .ok t => some (if leafKind t.leaf = 2 then .host (t.pa / 16) else .home (t.pa / 16))
    | .error _ => none
  | _ => none

/-- The units of memory that a matrix operation reads, or those that an MSTA stores. -/
def State.unitsOf (s : State) (o : EngOp) (m : MatOp) : List Place :=
  let read := fun (r : List DWord) (us : List Nat) =>
    if recSpace r = 3 then [] else us.filterMap (fun u => s.placeOf o (recSpace r) u)
  let all := fun (_ : Nat) => true
  let w := (matElem m.op).bits
  if m.op ≤ 0x202 then []
  else if m.op ≤ 0x20A then
    read m.arec ((recUnits w m.arec all m.present).map (fun u => recBase m.arec + u))
      ++ read m.brec ((recUnits w m.brec m.present all).map (fun u => recBase m.brec + u))
  else if m.op = 0x20B then
    read m.arec (runUnits (recSbase m.arec) (m.dimM * m.nb)) ++ read m.brec (runUnits (recSbase m.brec) (m.dimN * m.nb))
  else
    read m.brec ((List.range (if recT m.brec then recCols m.brec else recRows m.brec)).flatMap (fun i =>
      runUnits (recBase m.brec + i * recStride m.brec) (mstaLine m.op m.brec)))

def MatOp.isSta (m : MatOp) : Bool := decide (0x20E ≤ m.op)

/-- Whether an operation is an MSTA that has stored some of its bytes and not all. -/
def EngOp.halfStored (o : EngOp) : Bool :=
  match o.kind with
  | .mat m => m.isSta && (decide (0 < o.pos) || o.stage = 1) && !o.performed
  | _ => false

/-- Whether an operation is an MMA, MMAX or MSCA that has read some of a group's operands and not all. -/
def EngOp.midRead (o : EngOp) : Bool :=
  match o.kind with
  | .mat m => !m.isSta && (o.reqs ≠ [] || o.resp ≠ []) && !o.performed
  | _ => false

/-- The matrix operations in all queues, and those of blocks that are being saved or have been saved. -/
def State.matOps (s : State) : List EngOp :=
  s.cores.flatMap (fun c => c.2.mq.flatten) ++ s.blocks.flatMap (fun b => b.savedOps.map Prod.snd)

/-- Whether the next step of a matrix operation waits for another that R205 keeps apart from it. -/
def State.matWaits (s : State) (o : EngOp) (m : MatOp) : Bool :=
  let others := s.matOps.filter (fun p => p.id ≠ o.id && (if m.isSta then p.midRead else p.halfStored))
  others ≠ [] && !(if m.isSta then o.halfStored else o.midRead) &&
    (let us := s.unitsOf o m
     others.any (fun p => match p.kind with
      | .mat q => (s.unitsOf p q).any (fun u => us.contains u)
      | _ => false))

/-- MSHP (R198). -/
def execMshp (d a b : BitVec 7) (s : State) : Out :=
  perform (wordDab 0x200 d a b) (mshpBody d a b) s

/-- MWIN (R194). -/
def execMwin (a b : BitVec 7) (s : State) : Out :=
  perform (wordDab 0x201 0 a b) (mwinBody a b) s

/-- MZERO (R208, R374). -/
def execMzero (a : BitVec 7) (s : State) : Out :=
  perform (wordDab 0x202 0 a 0) (mzeroBody a) s

/-- MMA.bf16 (R201, R372). -/
def execMmaBf16 (d a b : BitVec 7) (s : State) : Out :=
  perform (wordDab 0x203 d a b) (mmaBody 0x203 d a b) s

/-- MMA.f16 (R201, R372). -/
def execMmaF16 (d a b : BitVec 7) (s : State) : Out :=
  perform (wordDab 0x204 d a b) (mmaBody 0x204 d a b) s

/-- MMA.e4m3 (R201, R372). -/
def execMmaE4m3 (d a b : BitVec 7) (s : State) : Out :=
  perform (wordDab 0x205 d a b) (mmaBody 0x205 d a b) s

/-- MMA.e5m2 (R201, R372). -/
def execMmaE5m2 (d a b : BitVec 7) (s : State) : Out :=
  perform (wordDab 0x206 d a b) (mmaBody 0x206 d a b) s

/-- MMA.t8 (R201, R372). -/
def execMmaT8 (d a b : BitVec 7) (s : State) : Out :=
  perform (wordDab 0x207 d a b) (mmaBody 0x207 d a b) s

/-- MMA.t6 (R201, R372). -/
def execMmaT6 (d a b : BitVec 7) (s : State) : Out :=
  perform (wordDab 0x208 d a b) (mmaBody 0x208 d a b) s

/-- MMAX.e2m1 (R206). -/
def execMmaxE2m1 (d a b : BitVec 7) (s : State) : Out :=
  perform (wordDab 0x209 d a b) (mmaBody 0x209 d a b) s

/-- MMAX.e4m3 (R206). -/
def execMmaxE4m3 (d a b : BitVec 7) (s : State) : Out :=
  perform (wordDab 0x20A d a b) (mmaBody 0x20A d a b) s

/-- MSCA (R207). -/
def execMsca (d a b : BitVec 7) (s : State) : Out :=
  perform (wordDab 0x20B d a b) (mmaBody 0x20B d a b) s

/-- MACC.rd (R209, R371). -/
def execMaccRd (d a : BitVec 7) (s : State) : Out :=
  perform (wordDab 0x20C d a 0) (maccRdBody d a) s

/-- MACC.wr (R209, R371). -/
def execMaccWr (a b : BitVec 7) (s : State) : Out :=
  perform (wordDab 0x20D 0 a b) (maccWrBody a b) s

/-- MSTA.f32 (R210, R373). -/
def execMstaF32 (a b : BitVec 7) (s : State) : Out :=
  perform (wordDab 0x20E 0 a b) (mstaBody 0x20E a b) s

/-- MSTA.bf16 (R210, R373). -/
def execMstaBf16 (a b : BitVec 7) (s : State) : Out :=
  perform (wordDab 0x20F 0 a b) (mstaBody 0x20F a b) s

end Sys2Proof.Machine
end

