-- ==== Sys2Proof/Machine/Async.lean ====
section
/-! DEFINITION. Instructions that hand work to engines or meet other strands: COPY and COPYM (R351, R352, R355), COLL
(R349), RLD, RST and RRED (R383 to R386), QFENCE (R183), ABAR (R338, R339), STGA and STGR (R42 to R46, R394). -/

namespace Sys2Proof.Machine

open Sys2Proof

/-! COPY (R351, R352). -/

/-- Fields of word 2 of a copy descriptor. -/
def cLen (w : DWord) : Nat := fieldOf w 0 32
def cQ (w : DWord) : Nat := fieldOf w 32 2
def cHeld (w : DWord) : Bool := w.getLsbD 34
def cOpt (w : DWord) : Nat := fieldOf w 35 2

/-- The units that addresses and length must be multiples of: word 0, word 1, len (R352, item 2). -/
def copyUnits (variant opt : Nat) : Nat × Nat × Nat :=
  match variant with
  | 3 => (128, 1, 128)
  | 4 => (64, 1, 1)
  | _ => match opt with
    | 0 => (16, 16, 16)
    | 1 => (32, 16, 32)
    | 2 => (32, 16, 256)
    | _ => (32, 32, 256)

/-- Item 1 of R352. -/
def copyShapeBad (variant : Nat) (w0 w1 w2 w3 : DWord) : Bool :=
  let opt := cOpt w2
  let len := cLen w2
  let optOk := match variant with
    | 1 => opt = 0 || opt = 2
    | 2 => opt = 0 || opt = 1 || opt = 3
    | _ => opt = 0
  let d := fieldOf w0 0 57
  let b := fieldOf w1 0 57
  fieldOf w2 37 27 ≠ 0 || !optOk || (cHeld w2 != decide (w3 ≠ 0))
    || (variant = 0 && fieldOf w0 32 32 ≠ 0) || (variant = 1 && fieldOf w1 32 32 ≠ 0)
    || (variant = 3 && fieldOf w0 32 32 ≠ 0)
    || (variant = 4 && (cQ w2 ≠ 3 || cHeld w2 || len ≠ 0 || w1 = 0 || w1.getLsbD 63))
    || (variant = 2 && opt < 2 && decide (d < b + len) && decide (b < d + len))

/-- The checks of R352: SHAPE, ALIGN, then the scratch range. -/
def State.copyCheck (s : State) (variant : Nat) (w0 w1 w2 w3 : DWord) : Option (Err × Nat) :=
  let len := cLen w2
  let (u0, u1, un) := copyUnits variant (cOpt w2)
  let scr := fun (p : Nat) => if len = 0 then none else match s.scratchLoc s.cw.blk p len with
    | .ok _ => none
    | .error e => some (e, p)
  if copyShapeBad variant w0 w1 w2 w3 then some (eShape, 0)
  else if w0.toNat % u0 ≠ 0 then some (eAlign, w0.toNat)
  else if w1.toNat % u1 ≠ 0 then some (eAlign, w1.toNat)
  else if len % un ≠ 0 then some (eAlign, 0)
  else if variant = 0 then scr w0.toNat
  else if variant = 1 then scr w1.toNat
  else none

/-- COPY enters its queue (R352). -/
def copyBody (variant : Nat) (a : BitVec 7) : Body := fun s =>
  let w0 := s.rdS a.toNat
  let w1 := s.rdS (a.toNat + 1)
  let w2 := s.rdS (a.toNat + 2)
  let w3 := s.rdS (a.toNat + 3)
  match s.copyCheck variant w0 w1 w2 w3 with
  | some (e, p) => trapA s e p
  | none => s.enqueue (cQ w2) (s.newOp (.copy variant w0 w1 (cOpt w2)) (cLen w2) (cHeld w2) w3)

/-- The matrix command block of R214, read from 80 bytes. -/
def commandBlock (bs : List Byte) : DWord × MatOp :=
  let word := fun (i : Nat) => BitVec.ofNat 64 (ofBytes ((bs.drop (8 * i)).take 8))
  (word 0, ⟨(word 0).toNat, word 1, (List.range 4).map (fun i => word (2 + i)), (List.range 4).map (fun i => word (6 + i))⟩)

/-- COPYM (R214, R355). -/
def copymBody (a b : BitVec 7) : Body := fun s =>
  let w0 := s.rdS a.toNat
  let w1 := s.rdS (a.toNat + 1)
  let w2 := s.rdS (a.toNat + 2)
  let w3 := s.rdS (a.toNat + 3)
  let off := (s.rdS b.toNat).toNat
  if cOpt w2 ≠ 0 || cHeld w2 then trapE s eShape
  else match s.copyCheck 0 w0 w1 w2 w3 with
    | some (e, p) => trapA s e p
    | none =>
      if off % 16 ≠ 0 then trapA s eAlign off
      else if recScratch (s.recOf s.cw.blk) < off + 80 then trapA s eRange off
      else
        let (op, m) := commandBlock (s.scratchRead s.cw.blk off 80)
        if op.toNat < 0x203 || 0x208 < op.toNat then trapE s eShape
        else match s.mmaCheck m with
          | some (e, p) => trapA s e p
          | none => if s.rowsBusy m.rows then waitE s .board
            else s.enqueue (cQ w2) (s.newOp (.copym w0 w1 m) (cLen w2) false 0)

/-- COLL (R349). -/
def collBody (gather : Bool) (a : BitVec 7) : Body := fun s =>
  let w0 := s.rdS a.toNat
  let w1 := s.rdS (a.toNat + 1)
  let abar := s.rdS (a.toNat + 2)
  let grp := s.rdS (a.toNat + 3)
  let tile := fieldOf w0 0 32
  let cnt := fieldOf w1 0 32
  if fieldOf w0 34 30 ≠ 0 || cnt = 0 || 2 ^ 24 < cnt || fieldOf w1 32 32 = 0 then trapE s eShape
  else if tile % 128 ≠ 0 then trapA s eAlign tile
  else if fieldOf abar 0 4 ≠ 0 then trapA s eAlign abar.toNat
  else if fieldOf grp 0 6 ≠ 0 then trapA s eAlign grp.toNat
  else if recScratch (s.recOf s.cw.blk) < tile + 4 * cnt then trapA s eRange tile
  else s.enqueue (fieldOf w0 32 2) (s.newOp (.coll gather tile cnt (fieldOf w1 32 32) abar grp) (4 * cnt) false 0)

/-! Remote access (R383 to R386). -/

/-- The valid peer entry of a context for a target (R328). -/
def Ctx.peer (c : Ctx) (pkg : BitVec 16) (die : BitVec 2) (ctx : BitVec 6) : Option PeerEntry :=
  firstSome (fun p => if p.2.valid && p.2.pkg = pkg && p.2.die = die && p.2.ctx = ctx then some p.2 else none) c.peers

/-- The connection of a core's copy queue to a peer (R328). -/
def peerConn (p : PeerEntry) (core q : Nat) : BitVec 32 := p.cbase + BitVec.ofNat 32 (4 * (core % 280) + q)

/-- The checks of R384; the peer's entry and the lane addresses. -/
def State.remoteCheck (s : State) (red : Bool) (word : Nat) (d a b : BitVec 7) :
    Except Stop (PeerEntry × List (Nat × Nat)) :=
  let base := s.rdS b.toNat
  let f := s.rdS (b.toNat + 1)
  let op := fieldOf f 24 3
  let w := if red && op = 6 then 8 else word
  if fieldOf f 30 34 ≠ 0 || op = 7 || (!red && op ≠ 0) || (op = 6 && d.toNat % 2 = 1) then trapE s eShape
  else match ((s.die (dieOf (s.coreOfWarp s.issue.warp))).ctx (s.ctxOfWarp s.issue.warp)).peer
      (BitVec.ofNat 16 (fieldOf f 0 16)) (BitVec.ofNat 2 (fieldOf f 16 2)) (BitVec.ofNat 6 (fieldOf f 18 6)) with
    | none => trapE s (.prot, 11)
    | some p =>
      let ra := fun l => add64 base ((s.lane a.toNat l).toNat : Int)
      match gather (fun l =>
          if ra l % w ≠ 0 then Except.error (eAlign, ra l)
          else if field (ra l) 57 3 ≠ 0 then .error (eNoncanon, ra l) else .ok (ra l)) (lanesOf s.activeReal) with
      | .error cs => .error (.trap (condInfo cs) s)
      | .ok ls => .ok (p, ls)

/-- The trap of the lowest lane that meets a condition, with the lanes that meet the same (R385). -/
def lowestInfo (cs : Conds) : TrapInfo :=
  match cs with
  | [] => condInfo []
  | c :: r => condInfo (c :: r.filter (fun d => d.2.1 = c.2.1))

/-- RLD (R385): every lane's request is sent at issue, one with the fence flag once no message of class 0 is unanswered on its
connection (R320); a nack is a deferred fault. -/
def rldBody (d a b : BitVec 7) : Body := fun s =>
  match s.remoteCheck false 4 d a b with
  | .error p => .error p
  | .ok (p, ls) =>
    let f := s.rdS (b.toNat + 1)
    let conn := peerConn p (s.coreOfWarp s.issue.warp) (fieldOf f 27 2)
    let ans := fun (a : Nat) => hostAns s.issue.resp 2 a 4
    let need := (ls.filter (fun l => (ans l.2).isNone)).map (fun l =>
      (⟨2, l.2, 4, l.2, 0, [], [], some (conn, p.addr, p.die, p.ctx, p.akey, f.getLsbD 29)⟩ : HostAsk))
    if need ≠ [] then
      (if s.issue.sent = [] && f.getLsbD 29 && (s.die (dieOf (s.coreOfWarp s.issue.warp))).otherClass conn 1 p.addr then waitE s .host
       else .error (.ask need.eraseDups s))
    else match gather (fun l => match (alGet ls l).bind ans with
        | some (.ok v) => Except.ok v
        | some (.error e) => .error (e, (alGet ls l).getD 0)
        | none => .ok 0) (ls.map Prod.fst) with
      | .error cs => .error (.deferred { lowestInfo cs with copyF := true } s)
      | .ok vs => .ok (s.wrLanes d.toNat s.active (fun l => BitVec.ofNat 32 ((alGet vs l).getD 0)))

/-- RST and RRED enter their copy queue with their lanes and descriptor (R386). -/
def remoteBody (red : Bool) (d a b : BitVec 7) : Body := fun s =>
  match s.remoteCheck red 4 d a b with
  | .error p => .error p
  | .ok (_, ls) =>
    let f := s.rdS (b.toNat + 1)
    let op := fieldOf f 24 3
    let data := fun l => if op = 6 then s.lane64 d.toNat l else (s.lane d.toNat l).setWidth 64
    let lanes := ls.map (fun l => (⟨l.1, BitVec.ofNat 64 l.2, data l.1, none, false⟩ : RemLane))
    s.enqueue (fieldOf f 27 2) (s.newOp (.rem red op (BitVec.ofNat 16 (fieldOf f 0 16)) (BitVec.ofNat 2 (fieldOf f 16 2))
      (BitVec.ofNat 6 (fieldOf f 18 6)) (f.getLsbD 29) (fieldOf f 27 2) lanes) 0 false 0)

/-! QFENCE (R183). -/

/-- Whether the warp has an operation, issued before `since`, in the queues named by `qs` that has not completed. -/
def State.outstanding (s : State) (w : Nat) (qs : Nat) (since : Nat) : Bool :=
  s.anyQueued w qs (fun o => decide (o.id < since))

def qfenceBody (imm : BitVec 14) : Body := fun s =>
  let since := match s.cs.wait with
    | some v => if v.kind = .qfence then v.seq else s.seq
    | none => s.seq
  if fieldOf imm 6 8 ≠ 0 || fieldOf imm 0 6 = 0 then trapE s (.illop, 0)
  else if s.outstanding s.issue.warp (fieldOf imm 0 6) since then waitE s .qfence
  else .ok s

/-! ABAR (R322, R338, R339). -/

/-- An ABAR object's fields. -/
def abExp (h : Nat) : Nat := field h 0 32
def abArr (h : Nat) : Nat := field h 32 32
def abPh (h : Nat) : Nat := field h 64 1
def abScope (h : Nat) : Nat := field h 65 3

/-- Whether a scope is allowed for an object of which it is known where it lies: own scratch offset, window, global. -/
def abScopeOk (x : Addr) (scope : Nat) : Bool :=
  decide (1 ≤ scope) && decide (scope ≤ 5) && (match x with
    | .scr a => if a < 0x10000000 then decide (scope = 1) else decide (scope = 2)
    | _ => true)

/-- One arrival: the object afterwards, or none where R339 raises SHAPE. -/
def abArrive (x : Addr) (h : Nat) : Option Nat :=
  if !abScopeOk x (abScope h) || abExp h = 0 || abExp h ≤ abArr h then none
  else
    let rest := h - abArr h * 2 ^ 32 - abPh h * 2 ^ 64
    some (if abArr h + 1 = abExp h then rest + (1 - abPh h) * 2 ^ 64 else rest + (abArr h + 1) * 2 ^ 32 + abPh h * 2 ^ 64)

/-- ABAR.arrive. An object in host memory is updated by its host, which answers with the phase before the arrival, or with a
nack where the object breaks R338 or R339; what it releases is released before the message goes out, whatever its scope. -/
def abarArriveBody (d a : BitVec 7) : Body := fun s =>
  let x := objAddr (s.rdS a.toNat) 0
  match s.locate false .write x 16 with
  | .error (e, p) => trapA s e p
  | .ok loc =>
    match loc.asked s.issue.resp 1 16 (fun p pa => ⟨1, p, 16, pa, 0x1C6, [], [], none⟩) with
    | .error (e, p) => trapA s e p
    | .ok (some q) => .error (.ask [q] ((s.sending true [loc]).releaseL1 (s.coreOfWarp s.issue.warp)))
    | .ok none =>
      let host := match loc with
        | .glob p t => if leafKind t.leaf = 2 then hostAns s.issue.resp 1 p 16 else none
        | _ => none
      match host with
      | some r => .ok (s.wrS d.toNat (BitVec.ofNat 64 ((match r with
          | .ok v => v
          | .error _ => 0) % 2)))
      | none =>
        let h := (s.updateLoc 16 (fun h => (h, h)) loc).1
        match abArrive x h with
        | none => trapE s eShape
        | some _ =>
          let s := if 3 ≤ abScope h then s.releaseL1 (s.coreOfWarp s.issue.warp) else s
          let (_, s) := s.updateLoc 16 (fun h => ((abArrive x h).getD h, h)) loc
          .ok (s.wrS d.toNat (BitVec.ofNat 64 (abPh h)))

/-- ABAR.wait. The half of the object that holds ph and scope is read; one in host memory is polled. -/
def abarWaitBody (a b : BitVec 7) : Body := fun s =>
  let x := objAddr (s.rdS a.toNat) 0
  let p := fieldOf (s.rdS b.toNat) 0 1
  match s.locate false .read x 16 with
  | .error (e, p) => trapA s e p
  | .ok loc =>
    let half : Except Stop (Nat × State × Option HostAsk) := match loc with
      | .glob q t =>
        if leafKind t.leaf = 2 then match hostAns s.issue.resp 0 (q + 8) 8 with
          | some (.ok v) => .ok (v, s, some (askRead (q + 8) 8 (t.pa + 8)))
          | some (.error e) => trapA s e q
          | none => .error (.poll .abar [askRead (q + 8) 8 (t.pa + 8)] (s.sending false [loc]))
        else let (bs, s) := s.homeRead s.who (field q 0 57) 16 t false; .ok (ofBytes bs / 2 ^ 64, s, none)
      | .scr k off => .ok (ofBytes (s.scratchRead k (off + 8) 8), s, none)
      | .ing _ => .ok (0, s, none)
    match half with
    | .error e => .error e
    | .ok (h, s, again) =>
      let scope := field h 1 3
      if scope = 0 || 5 < scope then trapE s eShape
      else if h % 2 = p then
        (match again with
        | some q => .error (.poll .abar [q] { s with issue := { s.issue with sent := [], resp := [], memo := [] } })
        | none => waitE s .abar)
      else .ok (if 3 ≤ scope then s.acquireL1 (s.coreOfWarp s.issue.warp) else s)

/-! Stage rings (R42 to R46, R394). -/

/-- The header of a ring with its slot count, checked as R45 asks. -/
def State.ringHeader (s : State) (a : BitVec 7) : Except Stop (Nat × Nat × Nat) :=
  let off := fieldOf (s.rdS a.toNat) 0 32
  let size := recScratch (s.recOf s.cw.blk)
  if off % 16 ≠ 0 then trapA s eAlign off
  else if size < off + 16 then trapA s eRange off
  else
    let h := ofBytes (s.scratchRead s.cw.blk off 16)
    let n := field h 56 4 + 1
    if size < field h 96 32 + n * field h 64 24 then trapA s eRange off else .ok (off, h, n)

/-- A field of a header replaced. -/
def setField (h lo n v : Nat) : Nat := h - field h lo n * 2 ^ lo + v * 2 ^ lo

/-- A scalar register as another strand reads it. -/
def State.scalarOf (s : State) (w e n : Nat) : DWord :=
  { s with issue := { s.issue with warp := w, entry := e, replay := none } }.rdS n

/-- The order of a waiting or arriving STGA: arrival, or (clock at issue, warp) in deterministic mode (R43, R46). -/
def ringBefore (det : Bool) (a b : Nat × Nat × Nat) : Bool :=
  if det then decide (a.1 < b.1) || (a.1 = b.1 && decide (a.2.1 < b.2.1)) else decide (a.2.2 < b.2.2)

/-- The key of the issuing STGA. -/
def State.ringKey (s : State) : Nat × Nat × Nat :=
  match s.cs.wait with
  | some v => if v.kind = .ring then (v.until_, s.cw.idx, v.seq) else (s.cw.lclk.toNat, s.cw.idx, s.seq)
  | none => (s.cw.lclk.toNat, s.cw.idx, s.seq)

/-- Whether another strand of the block that waits at the same kind of STGA on the same ring comes first, handler code among
them. -/
def State.ringBlocked (s : State) (off : Nat) : Bool :=
  let mine := s.ringKey
  (s.block s.cw.blk).warps.any (fun w => (List.range 4).any (fun e =>
    let x := s.warp w
    match (if (x.handlerAt e).isSome then x.runner e else x.strand e).bind Strand.wait with
    | some v =>
      v.kind = .ring && opOf v.word = opOf s.issue.word && !(w = s.issue.warp && e = s.issue.entry)
        && fieldOf (s.scalarOf w e (aOf v.word)) 0 32 = off
        && ringBefore s.cw.det (v.until_, x.idx, v.seq) mine
    | none => false))

/-- STGA (R43). -/
def stgaBody (prod : Bool) (d a : BitVec 7) : Body := fun s =>
  match s.ringHeader a with
  | .error p => .error p
  | .ok (off, h, n) =>
    let at_ := if prod then 48 else 52
    let i := field h at_ 4
    if n ≤ i then trapA s eRange off
    else if s.ringBlocked off || field h (2 * i) 2 ≠ (if prod then 0 else 2) then .error (.wait .ring s.ringKey.1 s)
    else
      let h' := setField (setField h (2 * i) 2 (if prod then 1 else 3)) at_ 4 ((i + 1) % n)
      let slot := (field h 96 32 + i * field h 64 24) % 2 ^ 32
      .ok ((s.scratchWrite s.cw.blk off (toBytes 16 h')).wrS d.toNat
        (BitVec.ofNat 64 (slot + i * 2 ^ 32 + field h (32 + i) 1 * 2 ^ 36)))

/-- Whether an engine operation still writes (or reads) a range of its block's scratch (R44). A matrix record in scratch
is taken to touch every slot. -/
def State.touchesSlot (s : State) (prod : Bool) (o : EngOp) (lo n : Nat) : Bool :=
  let meets := fun (a len : Nat) => match s.scratchLoc o.blk a len with
    | .ok (b, off) => b = o.blk && overlap off len lo n
    | .error _ => false
  match o.kind with
  | .copy 0 w0 _ _ => prod && meets w0.toNat o.len
  | .copy 1 _ w1 _ => !prod && meets w1.toNat o.len
  | .copym w0 _ m => (prod && meets w0.toNat o.len) || (!prod && (recSpace m.arec = 0 || recSpace m.brec = 0))
  | .coll _ tile cnt _ _ _ => !prod && meets tile (4 * cnt)
  | .mat m =>
    if 0x20E ≤ m.op then prod && recSpace m.brec = 0
    else !prod && decide (0x203 ≤ m.op) && (recSpace m.arec = 0 || recSpace m.brec = 0)
  | _ => false

/-- STGR (R43 to R45). -/
def stgrBody (prod : Bool) (a b : BitVec 7) : Body := fun s =>
  match s.ringHeader a with
  | .error p => .error p
  | .ok (off, h, n) =>
    let i := fieldOf (s.rdS b.toNat) 32 4
    if n ≤ i then trapA s eRange off
    else if field h (2 * i) 2 ≠ (if prod then 1 else 3) then trapE s (.prot, 0)
    else
      let lo := field h 96 32 + i * field h 64 24
      if (s.opsOf s.issue.warp).any (fun o => s.touchesSlot prod o lo (field h 64 24)) then waitE s .slot
      else
        let h' := setField h (2 * i) 2 (if prod then 2 else 0)
        let h' := if prod then h' else setField h' (32 + i) 1 (1 - field h (32 + i) 1)
        .ok (s.scratchWrite s.cw.blk off (toBytes 16 h'))

/-- COPY.g2s (R351, R352). -/
def execCopyG2s (a : BitVec 7) (s : State) : Out :=
  perform (wordDab 0x1C0 0 a 0) (copyBody 0 a) s

/-- COPY.s2g (R351, R352). -/
def execCopyS2g (a : BitVec 7) (s : State) : Out :=
  perform (wordDab 0x1C1 0 a 0) (copyBody 1 a) s

/-- COPY.g2g (R351, R352). -/
def execCopyG2g (a : BitVec 7) (s : State) : Out :=
  perform (wordDab 0x1C2 0 a 0) (copyBody 2 a) s

/-- COPY.ingot (R351, R352). -/
def execCopyIngot (a : BitVec 7) (s : State) : Out :=
  perform (wordDab 0x1C3 0 a 0) (copyBody 3 a) s

/-- COPY.halo (R351, R352). -/
def execCopyHalo (a : BitVec 7) (s : State) : Out :=
  perform (wordDab 0x1C4 0 a 0) (copyBody 4 a) s

/-- COPYM (R355). -/
def execCopym (a b : BitVec 7) (s : State) : Out :=
  perform (wordDab 0x1C5 0 a b) (copymBody a b) s

/-- ABAR.arrive (R339). -/
def execAbarArrive (d a : BitVec 7) (s : State) : Out :=
  perform (wordDab 0x1C6 d a 0) (abarArriveBody d a) s

/-- ABAR.wait (R339). -/
def execAbarWait (a b : BitVec 7) (s : State) : Out :=
  perform (wordDab 0x1C7 0 a b) (abarWaitBody a b) s

/-- STGA.prod (R43). -/
def execStgaProd (d a : BitVec 7) (s : State) : Out :=
  perform (wordDab 0x1C8 d a 0) (stgaBody true d a) s

/-- STGA.cons (R43). -/
def execStgaCons (d a : BitVec 7) (s : State) : Out :=
  perform (wordDab 0x1C9 d a 0) (stgaBody false d a) s

/-- STGR.prod (R43). -/
def execStgrProd (a b : BitVec 7) (s : State) : Out :=
  perform (wordDab 0x1CA 0 a b) (stgrBody true a b) s

/-- STGR.cons (R43). -/
def execStgrCons (a b : BitVec 7) (s : State) : Out :=
  perform (wordDab 0x1CB 0 a b) (stgrBody false a b) s

/-- QFENCE (R183). -/
def execQfence (imm : BitVec 14) (s : State) : Out :=
  perform (wordDi 0x1A9 0 imm) (qfenceBody imm) s

/-- COLL.red (R349). -/
def execCollRed (a : BitVec 7) (s : State) : Out :=
  perform (wordDab 0x2C3 0 a 0) (collBody false a) s

/-- COLL.gather (R349). -/
def execCollGather (a : BitVec 7) (s : State) : Out :=
  perform (wordDab 0x2C4 0 a 0) (collBody true a) s

/-- RLD (R384, R385). -/
def execRld (d a b : BitVec 7) (s : State) : Out :=
  perform (wordDab 0x2C5 d a b) (rldBody d a b) s

/-- RST (R384, R386). -/
def execRst (d a b : BitVec 7) (s : State) : Out :=
  perform (wordDab 0x2C6 d a b) (remoteBody false d a b) s

/-- RRED (R384, R386). -/
def execRred (d a b : BitVec 7) (s : State) : Out :=
  perform (wordDab 0x2C7 d a b) (fun s => if s.cw.det then trapE s (.detatom, 0) else remoteBody true d a b s) s

end Sys2Proof.Machine
end

