-- ==== Sys2Proof/Machine/Voxel.lean ====
section
/-! DEFINITION. Sparse voxel trees: resolution and the leaf-pointer cache (R216 to R223), TLOOK, VLDN, VSTV, TACT, TINS and
TWALK (R224 to R233, R236), and the enumeration of active leaves (R234). -/

namespace Sys2Proof.Machine

open Sys2Proof

/-- Why a lane's walk stops: a condition of an item of R226 (100 × item + row) with what the reads that have passed leave
(R159), or the need of host memory. -/
inductive TreeStop where
  | bad (ord : Nat) (e : Err) (addr : Nat) (s : State)
  | wait
  | ask (asks : List HostAsk)
deriving DecidableEq, Repr

/-- The state in which what comes next is looked at: that of the reads that have passed. -/
def TreeStop.left (e : TreeStop) (s : State) : State :=
  match e with
  | .bad _ _ _ u => u
  | _ => s

/-- A result with the state it leaves, or a stop. -/
abbrev Tree (α : Type) := Except TreeStop (α × State)

def eBadnode : Err := (.prot, 6)
def eNoleaf : Err := (.prot, 5)

/-- n bytes of a tree at a global pointer, read at home under item `item` of R226. -/
def State.treeBytes (s : State) (w : Who) (item p n : Nat) : Tree (List Byte) :=
  match s.readMem w s.issue.resp p n with
  | (.bytes bs, s) => .ok (bs, s)
  | (.bad e a, s) => .error (.bad (100 * item + errRank e) e a s)
  | (.host ps, _) => .error (.ask (ps.map (fun x => askRead x.1 x.2.1 x.2.2)))
def State.treeRead (s : State) (w : Who) (p n : Nat) : Tree Nat :=
  match s.treeBytes w 5 p n with
  | .ok (bs, s) => .ok (ofBytes bs, s)
  | .error e => .error e

/-- A pointer plus an offset. -/
def ptrAdd (p n : Nat) : Nat := (p + n) % 2 ^ 64

/-! Descriptors (R217) and coordinates (R216). -/

/-- Descriptor bytes 0 to 31 as the walker holds them. -/
structure TreeHead where
  root : Nat
  ox : Int
  oy : Int
  oz : Int
  fmt : Nat
  bg : Nat
deriving DecidableEq, Repr
def treeHead (h : Nat) : TreeHead :=
  { root := field h 0 64, ox := sext 32 (field h 64 32), oy := sext 32 (field h 96 32), oz := sext 32 (field h 128 32),
    fmt := field h 160 2, bg := field h 192 64 }

/-- Bytes of a value and registers it takes (R219, R224). -/
def fmtBytes (fmt : Nat) : Nat :=
  match fmt with
  | 0 => 4 | 1 => 2 | _ => 8
def fmtRegs (fmt : Nat) : Nat := if fmt < 2 then 1 else 2

/-- Whether 128 descriptor bytes break item 3 of R226. -/
def descBad (d : Nat) : Bool :=
  field d 448 576 ≠ 0 || field d 162 30 ≠ 0 || field d 0 7 ≠ 0 || field d 256 7 ≠ 0 || field d 320 7 ≠ 0

/-- Tree coordinates of an absolute voxel with an offset, or none outside the span or 32 bits (R216, R228). -/
def treeCoord (h : TreeHead) (x y z : Word) (dx dy dz : Int) : Option (Nat × Nat × Nat) :=
  let one := fun (v : Word) (d o : Int) =>
    let a := sext 32 v.toNat + d
    let u := a - o
    if a < -(2 ^ 31 : Int) || (2 ^ 31 : Int) ≤ a || u < 0 || 16384 ≤ u then none else some u.toNat
  match one x dx h.ox, one y dy h.oy, one z dz h.oz with
  | some a, some b, some c => some (a, b, c)
  | _, _, _ => none

/-- Bits of a coordinate below a slot, children per axis and slots of a level (R216). -/
def lvShift (lv : Nat) : Nat :=
  match lv with
  | 3 => 10 | 2 => 6 | 1 => 3 | _ => 0
def lvSide (lv : Nat) : Nat := if 2 ≤ lv then 16 else 8
def lvSlots (lv : Nat) : Nat := lvSide lv ^ 3
def slotOf (lv : Nat) (u : Nat × Nat × Nat) : Nat :=
  let m := lvSide lv
  let at_ := fun (x : Nat) => x / 2 ^ lvShift lv % m
  at_ u.1 + m * at_ u.2.1 + m * m * at_ u.2.2
def voxIdx (u : Nat × Nat × Nat) : Nat := slotOf 0 u
def leafOrigin (u : Nat × Nat × Nat) : Nat × Nat × Nat := (u.1 / 8 * 8, u.2.1 / 8 * 8, u.2.2 / 8 * 8)

/-- Offsets in an inner node of n slots: the masks, tile values and child pointers (R218). -/
def offTile (n : Nat) : Nat := n / 8
def offLock (n : Nat) : Nat := 2 * (n / 8)
def offTval (n i : Nat) : Nat := n / 2 + 8 * i
def offCptr (n i : Nat) : Nat := n / 2 + 8 * n + 8 * i
/-- Bytes of a node of a level: 0 a leaf (R218, R219). -/
def nodeBytes (lv fmt : Nat) : Nat := if lv = 0 then 256 + 512 * fmtBytes fmt else lvSlots lv / 2 + 16 * lvSlots lv

/-- Bit i of a mask that starts at an address. -/
def State.treeBit (s : State) (w : Who) (p i : Nat) : Tree Bool :=
  match s.treeRead w (ptrAdd p (i / 8)) 1 with
  | .ok (x, s) => .ok (decide (x / 2 ^ (i % 8) % 2 = 1), s)
  | .error e => .error e

/-! Resolution (R221). -/

/-- A resolved voxel: kind, the tile or background value, the leaf, the voxel index and the leaf-pointer cache's use. -/
structure Vox where
  kind : Nat
  val : Nat
  leaf : Nat
  j : Nat
deriving DecidableEq, Repr

/-- The leaf's origin is checked against that by which it was reached (item 6 of R226). -/
def State.checkLeafNode (s : State) (w : Who) (u : Nat × Nat × Nat) (p : Nat) : Tree Vox :=
  match s.treeRead w p 4, s.treeRead w (ptrAdd p 4) 4, s.treeRead w (ptrAdd p 8) 4 with
  | .ok (x, s), .ok (y, _), .ok (z, _) =>
    if (x, y, z) = leafOrigin u then .ok (⟨0, 0, p, voxIdx u⟩, s) else .error (.bad 600 eBadnode p s)
  | .error e, _, _ => .error e
  | _, .error e, _ => .error e
  | _, _, .error e => .error e

/-- The walk from a node of level lv. -/
def State.descend (s : State) (w : Who) (h : TreeHead) (u : Nat × Nat × Nat) : Nat → Nat → Tree Vox
  | 0, n => s.checkLeafNode w u n
  | lv + 1, n =>
    let i := slotOf (lv + 1) u
    let c := lvSlots (lv + 1)
    match s.treeBit w n i with
    | .error e => .error e
    | .ok (true, s) => match s.treeRead w (ptrAdd n (offCptr c i)) 8 with
      | .error e => .error e
      | .ok (p, s) => if p % 128 ≠ 0 then .error (.bad 600 eBadnode n s) else s.descend w h u lv p
    | .ok (false, s) => match s.treeBit w (ptrAdd n (offTile c)) i with
      | .error e => .error e
      | .ok (false, s) => .ok (⟨4, h.bg, 0, voxIdx u⟩, s)
      | .ok (true, s) => match s.treeRead w (ptrAdd n (offTval c i)) 8 with
        | .error e => .error e
        | .ok (v, s) => .ok (⟨lv + 1, v, 0, voxIdx u⟩, s)

/-- The cluster's leaf-pointer cache entry for a leaf (R223). -/
def State.leafCached (s : State) (w : Who) (desc : Nat) (o : Nat × Nat × Nat) : Option LeafEntry :=
  if w.fab then none
  else (s.cluster (clusterOf w.core)).leafs.find? (fun e =>
    e.asid = w.asid && e.desc = desc && e.lx = o.1 && e.ly = o.2.1 && e.lz = o.2.2)
def State.leafKeep (s : State) (w : Who) (desc : Nat) (o : Nat × Nat × Nat) (head ptr : Nat) : State :=
  if w.fab then s
  else
    let c := s.cluster (clusterOf w.core)
    let e : LeafEntry := ⟨w.asid, desc, o.1, o.2.1, o.2.2, BitVec.ofNat 64 ptr, BitVec.ofNat 256 head⟩
    let rest := c.leafs.filter (fun x => !(x.asid = w.asid && x.desc = desc && x.lx = o.1 && x.ly = o.2.1 && x.lz = o.2.2))
    s.setCluster (clusterOf w.core) { c with leafs := (e :: rest).take Config.leafEntries }

/-- resolve of R221: a cached leaf in place of the walk, else the walk, whose leaf is cached. -/
def State.resolveVox (s : State) (w : Who) (desc head : Nat) (u : Option (Nat × Nat × Nat)) : Tree Vox :=
  let h := treeHead head
  match u with
  | none => .ok (⟨5, h.bg, 0, 0⟩, s)
  | some u =>
    match s.leafCached w desc (leafOrigin u) with
    | some e => s.checkLeafNode w u e.ptr.toNat
    | none => match s.descend w h u 3 h.root with
      | .error e => .error e
      | .ok (v, s) => .ok (v, if v.kind = 0 then s.leafKeep w desc (leafOrigin u) head v.leaf else s)

/-- The value of a resolved voxel (R221). -/
def State.voxValue (s : State) (w : Who) (h : TreeHead) (v : Vox) : Tree Nat :=
  if v.kind ≠ 0 then .ok (v.val, s)
  else match s.treeBit w (ptrAdd v.leaf 64) v.j with
    | .error e => .error e
    | .ok (false, s) => .ok (h.bg, s)
    | .ok (true, s) => s.treeRead w (ptrAdd v.leaf (256 + v.j * fmtBytes h.fmt)) (fmtBytes h.fmt)

/-! The shell of the voxel instructions (R224 to R226). -/

/-- Lanes one after the other on one state; of a lane that stops, the reads that have passed leave their a bits. -/
def runLanes {α : Type} (f : Nat → State → Tree α) : List Nat → State → List (Nat × TreeStop) × List (Nat × α) × State
  | [], s => ([], [], s)
  | l :: r, s =>
    match f l s with
    | .ok (x, s) => let (es, xs, s) := runLanes f r s; (es, (l, x) :: xs, s)
    | .error e => let (es, xs, s) := runLanes f r (e.left s); ((l, e) :: es, xs, s)

/-- The stop of an instruction some of whose lanes stop: reads of host memory come first, then the earliest condition that a
lane meets, with no effect of any lane but the a and d bits `z` of the accesses that pass (R159, R226), then what changes host
memory, then the wait of a lane. -/
def treeStop (s z : State) (k : WaitKind) (run : Nat) (es : List (Nat × TreeStop)) : Stop :=
  let asks := es.flatMap (fun e => match e.2 with
    | .ask a => a
    | _ => [])
  let bads := es.filterMap (fun e => match e.2 with
    | .bad o c a _ => some (e.1, o, c, a)
    | _ => none)
  let reads := asks.filter (fun a => a.kind = 0)
  if reads ≠ [] then .ask reads.eraseDups s
  else
    let best := bads.foldl (fun m c => min m c.2.1) 100000
    match bads.filter (fun c => c.2.1 = best) with
    | [] => if asks ≠ [] then .ask asks.eraseDups s else .wait k 0 s
    | (l, o, e, a) :: r =>
      let hit := (l, o, e, a) :: r
      memStop z e { TrapInfo.atAddr e a with
        lane := l, met := maskOf (fun i => hit.any (fun c => c.1 = i)),
        addrs := hit.map (fun c => (c.1, BitVec.ofNat 64 c.2.2.2)), run := run }

/-- Item 3 of R226: the descriptor is malformed for every active lane. -/
def badDesc {α : Type} (s : State) (desc : Nat) : Except Stop α :=
  .error (.trap { TrapInfo.atAddr eBadnode desc with
    lane := (lanesOf s.activeReal).headD 0, met := s.activeReal,
    addrs := (lanesOf s.activeReal).map (fun l => (l, BitVec.ofNat 64 desc)) } s)

/-- The head of the descriptor that an instruction uses. A condition of item 2, which concerns no lane, is recorded in s3 alone
(DESIGN CHOICE, log entry 70). The head comes from the leaf-pointer cache when every point of every lane is
there, else from the descriptor, read and checked (items 2 and 3). A walk that reads child bits acts as an acquire (R222). -/
def State.treeOpen (s : State) (w : Who) (desc run : Nat) (pts : TreeHead → List (Option (Nat × Nat × Nat))) :
    Except Stop (Nat × State) :=
  let cached := if w.fab then none
    else (s.cluster (clusterOf w.core)).leafs.find? (fun e => e.asid = w.asid && e.desc = desc)
  let hit := match cached with
    | some e =>
      let ps := pts (treeHead e.head.toNat)
      ps ≠ [] && ps.all (fun p => match p with
        | some u => (s.leafCached w desc (leafOrigin u)).isSome
        | none => false)
    | none => false
  match hit, cached with
  | true, some e => .ok (e.head.toNat, s)
  | _, _ => match s.treeBytes w 2 desc 128 with
    | .error (.bad _ e a _) => .error (memStop s e { TrapInfo.atAddr e a with run := run })
    | .error (.ask a) => .error (.ask a s)
    | .error .wait => .error (.done s)
    | .ok (bs, s') =>
      let d := ofBytes bs
      if descBad d then badDesc s desc else .ok (d % 2 ^ 256, s'.acquireL1 w.core)

/-- The coordinates of a lane. -/
def State.voxOf (s : State) (a : BitVec 7) (l : Nat) : Word × Word × Word :=
  (s.lane a.toNat l, s.lane (a.toNat + 1) l, s.lane (a.toNat + 2) l)

/-- A helper lane's part: of one that stops nothing stays. -/
def quietLane {α : Type} (f : Nat → State → Tree α) (l : Nat) (s : State) : Tree α :=
  match f l s with
  | .error (.bad o e a _) => .error (.bad o e a s)
  | r => r

/-- The lanes that load: real lanes whose stops count, then helper lanes whose stops do not (R38). -/
def State.treeLanes {α : Type} (s : State) (run : Nat) (k : WaitKind) (f : Nat → State → Tree α) :
    Except Stop (List (Nat × α) × State) :=
  match runLanes f (lanesOf s.activeReal) s with
  | ([], xs, s1) =>
    let (es, hs, s2) := runLanes (quietLane f) (lanesOf (s.active &&& s.cw.helpers)) s1
    match es.flatMap (fun e => match e.2 with
      | .ask a => a
      | _ => []) with
    | [] => .ok (xs ++ hs, s2)
    | asks => .error (.ask asks.eraseDups s)
  | (es, _, z) => .error (treeStop s z k run es)

/-- The lanes of a voxel instruction: real lanes, and helper lanes, which make no reads (R226): `h` is what one receives. -/
def State.voxLanes {α : Type} (s : State) (run : Nat) (f : Nat → State → Tree α) (h : Nat → α) :
    Except Stop (List (Nat × α) × State) :=
  match runLanes f (lanesOf s.activeReal) s with
  | ([], xs, s1) => .ok (xs ++ (lanesOf (s.active &&& s.cw.helpers)).map (fun l => (l, h l)), s1)
  | (es, _, z) => .error (treeStop s z .host run es)

/-- What a helper lane receives where its voxel would have to be read: the spec does not say (a free value, log entry 70). -/
def State.helperValue (s : State) (l i : Nat) : Nat := (Config.helperVoxel (s.draw (61000 + 64 * l + i))).toNat

/-- Item 1 of R226: the option bits of s[b]. -/
def optBad (sb : DWord) (line : Bool) : Bool := fieldOf sb 0 7 ≠ 0 && !(line && decide (fieldOf sb 0 7 ≤ 2))
def descOf (sb : DWord) : Nat := sb.toNat / 128 * 128

/-- What TLOOK finds for each lane, after its checks: the status word and the value or leaf pointer (R226, R227). -/
def tlookFind (a b : BitVec 7) (s : State) : Except Stop (List (Nat × Nat × Nat) × State) :=
  let sb := s.rdS b.toNat
  let desc := descOf sb
  let at_ := fun (h : TreeHead) l => let (x, y, z) := s.voxOf a l; treeCoord h x y z 0 0 0
  if optBad sb false then trapE s eShape
  else match s.treeOpen s.who desc 0 (fun h => (lanesOf s.activeReal).map (at_ h)) with
    | .error p => .error p
    | .ok (head, s1) =>
      let h := treeHead head
      let w := s.who
      s1.voxLanes 0 (fun l s =>
        match s.resolveVox w desc head (at_ h l) with
        | .error e => .error e
        | .ok (v, s) =>
          if v.kind ≠ 0 then
            .ok ((if v.kind = 5 then 5 * 4096 else v.j + v.kind * 4096, v.val % 2 ^ (8 * fmtBytes h.fmt)), s)
          else match s.treeBit w (ptrAdd v.leaf 64) v.j with
            | .error e => .error e
            | .ok (vb, s) => match s.treeBit w (ptrAdd v.leaf 128) v.j with
              | .error e => .error e
              | .ok (ab, s) => .ok ((v.j + vb.toNat * 2 ^ 15 + ab.toNat * 2 ^ 16, v.leaf), s))
        (fun l => match at_ h l with
          | none => (5 * 4096, h.bg % 2 ^ (8 * fmtBytes h.fmt))
          | some _ => (s.helperValue l 0, s.helperValue l 1))

/-- What TLOOK writes of what it found. -/
def tlookPut (d : BitVec 7) (s : State) (xs : List (Nat × Nat × Nat)) (s2 : State) : State :=
  let st := fun l => (alGet xs l).getD (0, 0)
  ((s2.wrLanes d.toNat s.active (fun l => BitVec.ofNat 32 (st l).1)).wrLanes (d.toNat + 1) s.active
    (fun l => BitVec.ofNat 32 (st l).2)).wrLanes (d.toNat + 2) s.active (fun l => BitVec.ofNat 32 ((st l).2 / 2 ^ 32))

/-- TLOOK (R227). -/
def tlookBody (d a b : BitVec 7) : Body := fun s =>
  match tlookFind a b s with
  | .error p => .error p
  | .ok (xs, s2) => .ok (tlookPut d s xs s2)

/-- The neighbourhoods of R228. -/
def stencil : List (Int × Int × Int) :=
  [(0, 0, 0), (-1, 0, 0), (1, 0, 0), (0, -1, 0), (0, 1, 0), (0, 0, -1), (0, 0, 1),
   (0, -1, -1), (-1, 0, -1), (1, 0, -1), (0, 1, -1),
   (-1, -1, 0), (1, -1, 0), (-1, 1, 0), (1, 1, 0),
   (0, -1, 1), (-1, 0, 1), (1, 0, 1), (0, 1, 1),
   (-1, -1, -1), (1, -1, -1), (-1, 1, -1), (1, 1, -1), (-1, -1, 1), (1, -1, 1), (-1, 1, 1), (1, 1, 1)]
def lineStencil (axis : Nat) : List (Int × Int × Int) :=
  (List.range 9).map (fun (k : Nat) =>
    let o : Int := (k : Int) - 4
    (if axis = 0 then o else 0, if axis = 1 then o else 0, if axis = 2 then o else 0))

/-- Whether the rest of a run whose length depends on fmt breaks R225. -/
def State.runBad (s : State) (n len : Nat) : Bool :=
  decide (127 < n + len - 1) || (decide (n ≤ 7) && decide (7 < n + len - 1))
    || (List.range len).any (fun i => !s.vname (n + i))

/-- The earlier of two conditions, with the marks of all the reads, or the need of host memory. -/
def TreeStop.worse (e e2 : TreeStop) : TreeStop :=
  match e, e2 with
  | .bad o1 c a _, .bad o2 c2 a2 u => if o2 < o1 then .bad o2 c2 a2 u else .bad o1 c a u
  | .bad _ _ _ _, e2 => e2
  | e, _ => e

/-- The points of a lane in order. -/
def treePoints {α : Type} (f : Int × Int × Int → State → Tree α) : List (Int × Int × Int) → State → Tree (List α)
  | [], s => .ok ([], s)
  | p :: r, s =>
    match f p s with
    | .error e => match treePoints f r (e.left s) with
      | .error e2 => .error (e.worse e2)
      | .ok (_, u) => .error (match e with
        | .bad o c a _ => .bad o c a u
        | e => e)
    | .ok (x, s) => match treePoints f r s with
      | .error e => .error e
      | .ok (xs, s) => .ok (x :: xs, s)

/-- What VLDN finds: the registers of a value, its bytes, the values of each lane by stencil point, and the state of its
loads; `big` asks for a permit when more than 16 lanes are active (R215, R225, R228). -/
def vldnFind (pts : DWord → List (Int × Int × Int)) (line big : Bool) (d a b : BitVec 7) (s : State) :
    Except Stop ((Nat × Nat × List (Nat × List (Nat × Vox))) × State) :=
  let sb := s.rdS b.toNat
  let desc := descOf sb
  let ps := pts sb
  let at_ := fun (h : TreeHead) l (o : Int × Int × Int) => let (x, y, z) := s.voxOf a l; treeCoord h x y z o.1 o.2.1 o.2.2
  if optBad sb line then trapE s eShape
  else if big && decide (16 < popCount 32 s.active.toNat) && !s.later && !s.cs.permit then waitE s .permit
  else match s.treeOpen s.who desc (min (2 * ps.length) (128 - d.toNat))
      (fun h => (lanesOf s.activeReal).flatMap (fun l => ps.map (at_ h l))) with
    | .error p => .error p
    | .ok (head, s1) =>
      let h := treeHead head
      let r := fmtRegs h.fmt
      let w := s.who
      if s.runBad d.toNat (ps.length * r) then trapE s (.regname, 0)
      else if r = 2 && d.toNat % 2 = 1 then trapE s eShape
      else match s1.voxLanes (ps.length * r) (fun l s =>
        treePoints (fun o s => match s.resolveVox w desc head (at_ h l o) with
          | .error e => .error e
          | .ok (v, s) => match s.voxValue w h v with
            | .error e => .error e
            | .ok (x, s) => .ok ((x, v), s)) ps s)
        (fun l => (List.range ps.length).map (fun k => match at_ h l (nth ps k (0, 0, 0)) with
          | none => (h.bg, ⟨5, h.bg, 0, 0⟩)
          | some _ => (s.helperValue l k, ⟨4, 0, 0, 0⟩))) with
      | .error p => .error p
      | .ok (xs, s2) =>
        let locs := xs.map (fun p => (p.1, p.2.filterMap (fun v =>
          if v.2.kind = 0 then match s.locate true .read (.glob (ptrAdd v.2.leaf (256 + v.2.j * fmtBytes h.fmt))) (fmtBytes h.fmt) with
            | .ok x => some x
            | .error _ => none
          else none)))
        let s3 := { s2 with warps := (s.maySplit (locs.filter (fun p => s.activeReal.getLsbD p.1))).warps }
        .ok ((r, fmtBytes h.fmt, xs), s3)

/-- What VLDN writes: a register, or a pair, for each point of its stencil. -/
def vldnPut (pts : DWord → List (Int × Int × Int)) (d b : BitVec 7) (s : State)
    (x : Nat × Nat × List (Nat × List (Nat × Vox))) (s3 : State) : State :=
  let val := fun k l => (nth ((alGet x.2.2 l).getD []) k (0, ⟨0, 0, 0, 0⟩)).1 % 2 ^ (8 * x.2.1)
  (List.range (pts (s.rdS b.toNat)).length).foldl (fun s' k =>
    if x.1 = 1 then s'.wrLanes (d.toNat + k) s.active (fun l => BitVec.ofNat 32 (val k l))
    else s'.wrPair (d.toNat + 2 * k) s.active (fun l => BitVec.ofNat 64 (val k l))) s3

/-- VLDN (R228). -/
def vldnBody (pts : DWord → List (Int × Int × Int)) (line big : Bool) (d a b : BitVec 7) : Body := fun s =>
  match vldnFind pts line big d a b s with
  | .error p => .error p
  | .ok (x, s3) => .ok (vldnPut pts d b s x s3)

/-- Item 8 of R226: a store-like access of n bytes to a leaf. -/
def State.leafAccess (s : State) (l1 : Bool) (p n : Nat) : Except TreeStop Loc :=
  match s.locate l1 .write (.glob p) n with
  | .ok x => .ok x
  | .error (e, a) => .error (.bad (800 + errRank e) e a (if e = eDiscarded then s.markDiscarded s.who a else s))

/-- The needs of host memory that lanes' accesses have, with the conditions that nacks named (item 8). -/
def leafAsks (s : State) (kind : Nat) (key : Nat → Nat) (ask : Nat → Nat → Nat → HostAsk) (ls : List (Nat × Loc)) :
    List (Nat × TreeStop) :=
  ls.filterMap (fun p => match p.2.asked s.issue.resp kind (key p.1) (ask p.1) with
    | .error (e, a) => some (p.1, .bad (800 + errRank e) e a s)
    | .ok (some q) => some (p.1, .ask [q])
    | .ok none => none)

/-- What VSTV finds, after its checks: each lane's bytes, where its value and its vmask doubleword lie, and the bit's
place in it (R226, R229). -/
def vstvFind (d a b : BitVec 7) (s : State) : Except Stop (List (Nat × List Byte × Loc × Loc × Nat) × State) :=
  let sb := s.rdS b.toNat
  let desc := descOf sb
  let at_ := fun (h : TreeHead) l => let (x, y, z) := s.voxOf a l; treeCoord h x y z 0 0 0
  if optBad sb false then trapE s eShape
  else match s.treeOpen s.who desc 0 (fun h => (lanesOf s.activeReal).map (at_ h)) with
    | .error p => .error p
    | .ok (head, s1) =>
      let h := treeHead head
      let r := fmtRegs h.fmt
      let n := fmtBytes h.fmt
      let w := s.who
      if s.runBad d.toNat r then trapE s (.regname, 0)
      else if r = 2 && d.toNat % 2 = 1 then trapE s eShape
      else match runLanes (fun l s =>
        match at_ h l with
        | none => .error (.bad 703 eRange 0 s)
        | some u => match s.resolveVox w desc head (some u) with
          | .error e => .error e
          | .ok (v, s) =>
            if v.kind ≠ 0 then .error (.bad 705 eNoleaf 0 s)
            else match s.leafAccess true (ptrAdd v.leaf (256 + v.j * n)) n with
              | .error e => match (e.left s).leafAccess false (ptrAdd v.leaf (64 + 8 * (v.j / 64))) 8 with
                | .error e2 => .error (e.worse e2)
                | .ok y => .error (match e with
                  | .bad o c p u => .bad o c p (u.touchLocs true [y])
                  | e => e)
              | .ok x => match (s.touchLocs true [x]).leafAccess false (ptrAdd v.leaf (64 + 8 * (v.j / 64))) 8 with
                | .error e => .error e
                | .ok y => .ok ((x, y, v.j), s.touchLocs true [x, y])) (lanesOf s.activeReal) s1 with
      | ([], xs, s2) =>
        let bytes := fun l => toBytes n (if r = 2 then (s.lane64 d.toNat l).toNat else (s.lane d.toNat l).toNat)
        let val := fun (l : Nat) => n + 256 * (l + 1)
        let key := fun (l : Nat) => 8 + 256 * (l + 1)
        let bit := fun l => BitVec.ofNat 64 (2 ^ ((match alGet xs l with
          | some x => x.2.2
          | none => 0) % 64))
        let es := leafAsks s2 3 val (fun l p pa => { askWrite p pa (bytes l) with n := val l }) (xs.map (fun x => (x.1, x.2.1)))
          ++ leafAsks s2 1 key (fun l p pa => ⟨1, p, key l, pa, 0x19B, [bit l], [], none⟩)
            (xs.map (fun x => (x.1, x.2.2.1)))
        if es ≠ [] then .error (treeStop (s.sending true (xs.flatMap (fun x => [x.2.1, x.2.2.1]))) s2 .host 0 es)
        else .ok (xs.map (fun x => (x.1, bytes x.1, x.2)), s2)
      | (es, _, z) => .error (treeStop s z .host 0 es)

/-- VSTV (R229): the value through L1, then the vmask bit by an atomic OR at home. -/
def vstvBody (d a b : BitVec 7) : Body := fun s =>
  match vstvFind d a b s with
  | .error p => .error p
  | .ok (xs, s2) => .ok (xs.foldl (fun s x =>
      let s := s.storeLoc x.2.1 x.2.2.1
      (s.updateLanes 8 (fun _ old => (old ||| 2 ^ (x.2.2.2.2 % 64), old)) [(x.1, x.2.2.2.1)]).2) s2)

/-- What TACT finds, after its checks: each lane's code, or its bit and where the amask doubleword lies (R226, R230). -/
def tactFind (set : Bool) (a b : BitVec 7) (s : State) : Except Stop (List (Nat × Nat × Nat × Option Loc) × State) :=
  let sb := s.rdS b.toNat
  let desc := descOf sb
  let at_ := fun (h : TreeHead) l => let (x, y, z) := s.voxOf a l; treeCoord h x y z 0 0 0
  if s.cw.det then trapE s (.detatom, 0)
  else if optBad sb false then trapE s eShape
  else match s.treeOpen s.who desc 0 (fun h => (lanesOf s.activeReal).map (at_ h)) with
    | .error p => .error p
    | .ok (head, s1) =>
      let h := treeHead head
      let w := s.who
      match runLanes (fun l s => match s.resolveVox w desc head (at_ h l) with
        | .error e => .error e
        | .ok (v, s) =>
          if v.kind = 5 then .ok ((3, 0, none), s)
          else if v.kind ≠ 0 then .ok ((2, 0, none), s)
          else match s.leafAccess false (ptrAdd v.leaf (128 + 8 * (v.j / 64))) 8 with
            | .ok x => .ok ((0, v.j, some x), s.touchLocs true [x])
            | .error e => .error e) (lanesOf s.activeReal) s1 with
      | ([], xs, s2) =>
        let key := fun (l : Nat) => 8 + 256 * (l + 1)
        let bit := fun (l : Nat) => 2 ^ ((match alGet xs l with
          | some x => x.2.1
          | none => 0) % 64)
        let locs := xs.filterMap (fun x => x.2.2.2.map (fun y => (x.1, y)))
        let es := leafAsks s2 1 key (fun l p pa =>
          ⟨1, p, key l, pa, (if set then 0x19B else 0x19A), [BitVec.ofNat 64 (if set then bit l else 2 ^ 64 - 1 - bit l)], [],
            none⟩) locs
        if es ≠ [] then .error (treeStop (s.sending true (locs.map Prod.snd)) s2 .host 0 es)
        else .ok (xs, s2)
      | (es, _, z) => .error (treeStop s z .host 0 es)

/-- The bit that a lane of TACT writes, and the update of its doubleword. -/
def tactBit (xs : List (Nat × Nat × Nat × Option Loc)) (l : Nat) : Nat :=
  2 ^ ((match alGet xs l with
    | some x => x.2.1
    | none => 0) % 64)
def tactUpdate (set : Bool) (xs : List (Nat × Nat × Nat × Option Loc)) (l old : Nat) : Nat × Nat :=
  ((if set then old ||| tactBit xs l else old - (old &&& tactBit xs l)), old)

/-- What TACT does to the doublewords and writes: the old bit, or the lane's code. -/
def tactPut (set : Bool) (d : BitVec 7) (s : State) (xs : List (Nat × Nat × Nat × Option Loc)) (s2 : State) : State :=
  let (vals, s3) := s2.updateLanes 8 (tactUpdate set xs) (xs.filterMap (fun x => x.2.2.2.map (fun y => (x.1, y))))
  s3.wrLanes d.toNat s.active (fun l => match alGet xs l with
    | some (c, _, none) => BitVec.ofNat 32 c
    | some (_, j, some _) => BitVec.ofNat 32 ((alGet vals l).getD 0 / 2 ^ (j % 64) % 2)
    | none => 0)

/-- TACT (R230). -/
def tactBody (set : Bool) (d a b : BitVec 7) : Body := fun s =>
  match tactFind set a b s with
  | .error p => .error p
  | .ok (xs, s2) => .ok (tactPut set d s xs s2)

/-! TINS and the node allocator (R231, R232). -/

/-- A store-like access of the allocator, checked under R143. R226 does not rank the conditions that TINS's own accesses meet:
they count with those of node reads, as item 5 (DESIGN CHOICE, log entry 70). -/
def State.allocPiece (s : State) (w : Who) (p n : Nat) : Except TreeStop Trans :=
  match s.resolvePiece w .write p n with
  | .ok t => .ok t
  | .error e => .error (.bad (500 + errRank e) e p s)

/-- What an engine's error is to the allocator. -/
def EngErr.tree (s : State) (e : EngErr) : TreeStop :=
  match e with
  | .bad e a => .bad (500 + errRank e) e a s
  | .ask q => .ask q

/-- Bytes stored by the allocator or the Runner. -/
def State.treeWrite (s : State) (w : Who) (p : Nat) (bs : List Byte) : Tree Unit :=
  match s.ioWrite w [] p bs with
  | .ok s => .ok ((), s)
  | .error e => .error (e.tree s)

/-- An atomic of 8 bytes by the allocator: the old value (R231), or the need to ask the host for it. -/
def State.treeAtomic (s : State) (w : Who) (p op arg : Nat) (f : Nat → Nat) : Tree Nat :=
  match s.allocPiece w p 8 with
  | .error e => .error e
  | .ok t =>
    if leafKind t.leaf = 2 then .error (.ask [⟨1, p, 8, t.pa, op, [BitVec.ofNat 64 arg], [], none⟩])
    else
      let (bs, s) := s.homeRead w (field p 0 57) 8 t true
      .ok (ofBytes bs, s.homeWrite w (field p 0 57) (toBytes 8 (f (ofBytes bs) % 2 ^ 64)) t)

/-- The bytes of a new node of a level (R232). -/
def newNode (lv fmt : Nat) (o : Nat × Nat × Nat) (tile : Option Nat) : List Byte :=
  if lv = 0 then
    let w := fmtBytes fmt
    toBytes 4 o.1 ++ toBytes 4 o.2.1 ++ toBytes 4 o.2.2 ++ List.replicate 52 0
      ++ List.replicate 64 (if tile.isSome then 255 else 0) ++ List.replicate 128 0
      ++ (List.replicate 512 (toBytes w (tile.getD 0))).flatten
  else
    let n := lvSlots lv
    List.replicate (n / 8) 0 ++ List.replicate (n / 8) (if tile.isSome then 255 else 0) ++ List.replicate (n / 4) 0
      ++ (List.replicate n (toBytes 8 (tile.getD 0 % 2 ^ (8 * fmtBytes fmt)))).flatten ++ List.replicate (8 * n) 0

/-- The corner of the box of the slot that holds a voxel. -/
def slotCorner (lv : Nat) (u : Nat × Nat × Nat) : Nat × Nat × Nat :=
  let g := 2 ^ lvShift lv
  (u.1 / g * g, u.2.1 / g * g, u.2.2 / g * g)
/-- The pointer to a new node at an address of the pool, with the tag of pbase. -/
def nodePtr (pbase a : Nat) : Nat := field pbase 60 4 * 2 ^ 60 + field a 0 60

/-- The loop of R231 for one voxel from a node of level lv in one step: status, nodes allocated and the leaf. The child bit
cannot change between the lock and the node's allocation here. -/
def State.insertFrom (s : State) (w : Who) (desc : Nat) (h : TreeHead) (pbase pend : Nat) (u : Nat × Nat × Nat) :
    Nat → Nat → Nat → Tree (Nat × Nat × Nat)
  | 0, n, cnt => match s.checkLeafNode w u n with
    | .ok (_, s) => .ok ((if cnt = 0 then 0 else 1, cnt, n), s)
    | .error e => .error e
  | lv + 1, n, cnt =>
    let i := slotOf (lv + 1) u
    let c := lvSlots (lv + 1)
    match s.treeBit w n i with
    | .error e => .error e
    | .ok (true, s) => match s.treeRead w (ptrAdd n (offCptr c i)) 8 with
      | .error e => .error e
      | .ok (p, s) =>
        if p % 128 ≠ 0 then .error (.bad 600 eBadnode n s) else s.insertFrom w desc h pbase pend u lv p cnt
    | .ok (false, s) =>
      let lock := ptrAdd n (offLock c + 8 * (i / 64))
      match s.treeAtomic w lock 0x19B (2 ^ (i % 64)) (fun x => x ||| 2 ^ (i % 64)) with
      | .error e => .error e
      | .ok (old, s1) =>
        if old / 2 ^ (i % 64) % 2 = 1 then .error .wait
        else
          let sz := nodeBytes lv h.fmt
          let free := fun (s : State) => s.treeAtomic w lock 0x19A (2 ^ 64 - 1 - 2 ^ (i % 64))
            (fun x => x - (x &&& 2 ^ (i % 64)))
          match s1.treeAtomic w (ptrAdd desc 48) 0x195 sz (fun x => x + sz) with
          | .error e => .error e
          | .ok (a, s2) =>
            if pend < a + sz then match free s2 with
              | .ok (_, s) => .ok ((2, cnt, 0), s)
              | .error e => .error e
            else
              let p := nodePtr pbase a
              match s2.treeBit w (ptrAdd n (offTile c)) i, s2.treeRead w (ptrAdd n (offTval c i)) 8 with
              | .ok (tile, _), .ok (t, s3) =>
                match s3.treeWrite w p (newNode lv h.fmt (slotCorner (lv + 1) u) (if tile then some t else none)) with
                | .error e => .error e
                | .ok (_, s4) => match s4.treeWrite w (ptrAdd n (offCptr c i)) (toBytes 8 p) with
                  | .error e => .error e
                  | .ok (_, s5) => match (if w.fab then s5 else s5.releaseL1 w.core).treeAtomic w (ptrAdd n (8 * (i / 64)))
                      0x19B (2 ^ (i % 64)) (fun x => x ||| 2 ^ (i % 64)) with
                    | .error e => .error e
                    | .ok (_, s6) => match free s6 with
                      | .error e => .error e
                      | .ok (_, s7) => s7.insertFrom w desc h pbase pend u lv p (cnt + 1)
              | .error e, _ => .error e
              | _, .error e => .error e

/-- The descriptor that TINS uses, after its checks; the walk acts as an acquire (R222). -/
def tinsOpen (b : BitVec 7) (s : State) : Except Stop (Nat × State) :=
  let sb := s.rdS b.toNat
  let desc := descOf sb
  if s.cw.det then trapE s (.detatom, 0)
  else if optBad sb false then trapE s eShape
  else match s.treeBytes s.who 2 desc 128 with
    | .error (.bad _ e p _) => .error (memStop s e (TrapInfo.atAddr e p))
    | .error (.ask q) => .error (.ask q s)
    | .error .wait => waitE s .tins
    | .ok (bs, s1) =>
      let dd := ofBytes bs
      if descBad dd then badDesc s desc else .ok (dd, s1.acquireL1 s.who.core)

/-- The coordinates in the tree of a lane of TINS. -/
def State.tinsVox (s : State) (a : BitVec 7) (h : TreeHead) (l : Nat) : Option (Nat × Nat × Nat) :=
  let (x, y, z) := s.voxOf a l
  treeCoord h x y z 0 0 0

/-- What the node reads of a TINS that traps leave: the a bits of those that pass (R159). -/
def State.tinsMarks (s : State) (w : Who) (h : TreeHead) (vox : Nat → Option (Nat × Nat × Nat)) (ls : List Nat) : State :=
  (runLanes (fun l s => match vox l with
    | none => .ok ((), s)
    | some u => match s.descend w h u 3 h.root with
      | .ok (_, s) => .ok ((), s)
      | .error e => .error e) ls s).2.2

/-- What TINS does and answers in one step, after its checks, the leaf pointer with the tag of pbase: lanes in ascending order; a lane that finds a slot locked makes
the whole instruction wait, with no effect yet (R231, R296). -/
def tinsFind (a b : BitVec 7) (s : State) : Except Stop (List (Nat × Nat × Nat × Nat) × State) :=
  match tinsOpen b s with
  | .error p => .error p
  | .ok (dd, s1) =>
    let h := treeHead dd
    let w := s.who
    let pbase := field dd 256 64
    match runLanes (quietLane (fun l s => match s.tinsVox a h l with
        | none => .ok ((3, 0, 0), s)
        | some u => s.insertFrom w (descOf (s.rdS b.toNat)) h pbase (field dd 320 64) u 3 h.root 0))
        (lanesOf s.activeReal) s1 with
    | ([], xs, s2) => .ok (xs.map (fun x => (x.1, x.2.1, x.2.2.1, if x.2.1 < 2 then nodePtr pbase x.2.2.2 else 0)), s2)
    | (es, _, _) => .error (treeStop s (s1.tinsMarks w h (s.tinsVox a h) (lanesOf s.activeReal)) .tins 0 es)

/-- What TINS writes. -/
def tinsPut (d : BitVec 7) (s : State) (xs : List (Nat × Nat × Nat × Nat)) (s2 : State) : State :=
  let v := fun l => (alGet xs l).getD (0, 0, 0)
  ((s2.wrLanes d.toNat s.active (fun l => BitVec.ofNat 32 ((v l).1 + (v l).2.1 % 4 * 4))).wrLanes (d.toNat + 1)
    s.active (fun l => BitVec.ofNat 32 (v l).2.2)).wrLanes (d.toNat + 2) s.active
    (fun l => BitVec.ofNat 32 ((v l).2.2 / 2 ^ 32))

/-! TINS on nodes in host memory, access by access (R231, R321). -/

/-- The answers to an access have been used. -/
def State.heard (s : State) : State := { s with issue := { s.issue with sent := [], resp := [] } }

/-- A doubleword read, updated or stored by the allocator, or bytes that it stores. -/
def State.insRead (s : State) (w : Who) (p n : Nat) : Tree Nat :=
  match s.treeRead w p n with
  | .ok (v, s) => .ok (v, s.heard)
  | .error e => .error e
def State.insAtomic (s : State) (w : Who) (p op arg : Nat) (f : Nat → Nat) : Tree Nat :=
  match s.ioAtomic w s.issue.resp p 8 0 op [BitVec.ofNat 64 arg] (fun x => f x % 2 ^ 64) with
  | .ok (v, s) => .ok (v, s.heard)
  | .error e => .error (e.tree s)
def State.insWrite (s : State) (w : Who) (p : Nat) (bs : List Byte) : Tree Unit :=
  match s.ioWrite w s.issue.resp p bs with
  | .ok s => .ok ((), s.heard)
  | .error e => .error (e.tree s)

/-- The next lane of a TINS, the one under way answered. -/
def Insert.answer (r : Insert) (st : Nat) (p : Nat) : Insert :=
  { r with
    lanes := r.lanes.drop 1, out := r.out ++ [(r.lanes.headD 0, st, r.cnt, p)], lv := 3,
    node := (treeHead r.desc.toNat).root, cnt := 0, phase := 0, new := 0, blocked := false }

/-- One access of R231's loop for the voxel u of the lane under way. Steps 0 and 1 read the child bit and cptr, 2 takes the
lock, 3 reads the child bit again, 4 takes room in the pool, 5 and 6 read the slot's tile, 7 and 8 store the node and cptr, 9
sets the child bit after a release, 10 frees the lock; 11 and 12 free it where there is a child already and where the pool is
used up; at level 0 the leaf's origin is checked, and the lane has allocated the leaf if it is the node that it made last. A
child bit that reads as 1 is an acquire (R222). -/
def State.insertStep (s : State) (w : Who) (desc : Nat) (u : Nat × Nat × Nat) (r : Insert) : Tree Insert :=
  let dd := r.desc.toNat
  let fmt := (treeHead dd).fmt
  let i := slotOf r.lv u
  let c := lvSlots r.lv
  let bit := 2 ^ (i % 64)
  let child := ptrAdd r.node (8 * (i / 64))
  let lock := ptrAdd r.node (offLock c + 8 * (i / 64))
  let step := fun (p : Nat) => { r with phase := p, blocked := false }
  let isSet := fun (v : Nat) => decide (v / bit % 2 = 1)
  let free := s.insAtomic w lock 0x19A (2 ^ 64 - 1 - bit) (fun x => x - (x &&& bit))
  if r.lv = 0 then match s.insRead w r.node 12 with
    | .error e => .error e
    | .ok (v, s) =>
      if (field v 0 32, field v 32 32, field v 64 32) = leafOrigin u then
        .ok (r.answer (if r.cnt ≠ 0 && r.node = r.new then 1 else 0) (nodePtr (field dd 256 64) r.node), s)
      else .error (.bad 600 eBadnode r.node s)
  else match r.phase with
    | 0 => match s.insRead w child 8 with
      | .error e => .error e
      | .ok (v, s) => .ok ({ r with phase := if isSet v then 1 else 2 }, if isSet v && !w.fab then s.acquireL1 w.core else s)
    | 1 => match s.insRead w (ptrAdd r.node (offCptr c i)) 8 with
      | .error e => .error e
      | .ok (p, s) =>
        if p % 128 ≠ 0 then .error (.bad 600 eBadnode r.node s)
        else .ok ({ step 0 with lv := r.lv - 1, node := p }, s)
    | 2 => match s.insAtomic w lock 0x19B bit (fun x => x ||| bit) with
      | .error e => .error e
      | .ok (old, s) => .ok (if isSet old then { r with phase := 0, blocked := true } else step 3, s)
    | 3 => match s.insRead w child 8 with
      | .error e => .error e
      | .ok (v, s) => .ok (step (if isSet v then 11 else 4), if isSet v && !w.fab then s.acquireL1 w.core else s)
    | 4 =>
      let sz := nodeBytes (r.lv - 1) fmt
      match s.insAtomic w (ptrAdd desc 48) 0x195 sz (fun x => x + sz) with
      | .error e => .error e
      | .ok (a, s) =>
        .ok (if field dd 320 64 < a + sz then step 12 else { step 5 with new := nodePtr (field dd 256 64) a }, s)
    | 5 => match s.insRead w (ptrAdd r.node (offTile c + 8 * (i / 64))) 8 with
      | .error e => .error e
      | .ok (v, s) => .ok (if isSet v then step 6 else { step 7 with tile := none }, s)
    | 6 => match s.insRead w (ptrAdd r.node (offTval c i)) 8 with
      | .error e => .error e
      | .ok (t, s) => .ok ({ step 7 with tile := some t }, s)
    | 7 => match s.insWrite w r.new (newNode (r.lv - 1) fmt (slotCorner r.lv u) r.tile) with
      | .error e => .error e
      | .ok (_, s) => .ok (step 8, s)
    | 8 => match s.insWrite w (ptrAdd r.node (offCptr c i)) (toBytes 8 r.new) with
      | .error e => .error e
      | .ok (_, s) => .ok (step 9, if w.fab then s else s.releaseL1 w.core)
    | 9 => match s.insAtomic w child 0x19B bit (fun x => x ||| bit) with
      | .error e => .error e
      | .ok (_, s) => .ok (step 10, s)
    | 10 => match free with
      | .error e => .error e
      | .ok (_, s) => .ok ({ step 0 with lv := r.lv - 1, node := r.new, cnt := r.cnt + 1 }, s)
    | 11 => match free with
      | .error e => .error e
      | .ok (_, s) => .ok (step 1, s)
    | _ => match free with
      | .error e => .error e
      | .ok (_, s) => .ok (r.answer 2 0, s)

/-- The stop of a TINS under way, which keeps how far it has come: host memory is awaited, or polled while another inserter
holds the slot; a condition that a lane meets only now, because a page or the pool's place has changed since `insertProbe`, ends it
there (DESIGN CHOICE, log entry 70). -/
def insertStop (s : State) (r : Insert) (e : TreeStop) : Stop :=
  let s := { s with issue := { s.issue with ins := some r } }
  let l := r.lanes.headD 0
  match e with
  | .ask q => if r.blocked then .poll .tins q s else .ask q s
  | .wait => .wait .tins 0 s
  | .bad _ e a _ => memStop s e { TrapInfo.atAddr e a with
      lane := l, met := maskOf (fun i => i = l), addrs := [(l, BitVec.ofNat 64 a)] }

/-- Accesses of a TINS one after the other, as far as they can be made now. -/
def State.insertGo (w : Who) (desc : Nat) (vox : Nat → Option (Nat × Nat × Nat)) :
    Nat → Insert → State → Except Stop (List (Nat × Nat × Nat × Nat) × State)
  | 0, r, s => .error (insertStop s r .wait)
  | n + 1, r, s =>
    match r.lanes with
    | [] => .ok (r.out, s)
    | l :: _ => match vox l with
      | none => State.insertGo w desc vox n (r.answer 3 0) s
      | some u => match s.insertStep w desc u r with
        | .error e => .error (insertStop s r e)
        | .ok (r', s') => if r.phase = 2 && r'.blocked then .error (insertStop s' r' .wait)
          else State.insertGo w desc vox n r' s'

/-- The first state of a TINS that goes on access by access. -/
def Insert.start (dd : Nat) (lanes : List Nat) : Insert :=
  { desc := BitVec.ofNat 1024 dd, lanes := lanes, out := [], lv := 3, node := (treeHead dd).root, cnt := 0, phase := 0,
    new := 0, tile := none, blocked := false }

/-- A TINS under way goes on. -/
def tinsGo (d a b : BitVec 7) (s0 : State) (r : Insert) (s : State) : Except Stop State :=
  match State.insertGo s0.who (descOf (s0.rdS b.toNat)) (s0.tinsVox a (treeHead r.desc.toNat)) 2048 r s with
  | .error p => .error p
  | .ok (xs, s2) => .ok (tinsPut d s0 xs s2)

/-- The nodes of levels lv - 1 and below that a lane would be the one to make for a voxel, checked at the places that the pool
has for them: bytes taken, and the slots that now have their nodes. -/
def State.probeNodes (s : State) (w : Who) (dd : Nat) (u : Nat × Nat × Nat) :
    Nat → Nat → List (Nat × Nat × Nat × Nat) → Except TreeStop (Nat × List (Nat × Nat × Nat × Nat))
  | 0, a, made => .ok (a, made)
  | lv + 1, a, made =>
    if made.contains (lv + 1, slotCorner (lv + 1) u) then s.probeNodes w dd u lv a made
    else
      let sz := nodeBytes lv (treeHead dd).fmt
      if field dd 320 64 < a + sz then .ok (a + sz, made)
      else match s.resolveRun w .write (piecesOf (nodePtr (field dd 256 64) a) sz) with
        | .error (e, p) => .error (.bad (500 + errRank e) e p s)
        | .ok _ => s.probeNodes w dd u lv (a + sz) ((lv + 1, slotCorner (lv + 1) u) :: made)

/-- The accesses that a lane's insertion would make from a node of level lv on, checked before the first of them. -/
def State.probeFrom (s : State) (w : Who) (desc dd : Nat) (u : Nat × Nat × Nat) :
    Nat → Nat → Nat → List (Nat × Nat × Nat × Nat) → Except TreeStop (Nat × List (Nat × Nat × Nat × Nat))
  | 0, _, a, made => .ok (a, made)
  | lv + 1, n, a, made =>
    let i := slotOf (lv + 1) u
    let c := lvSlots (lv + 1)
    match s.treeBit w n i with
    | .error e => .error e
    | .ok (true, s) => match s.treeRead w (ptrAdd n (offCptr c i)) 8 with
      | .error e => .error e
      | .ok (p, s) => s.probeFrom w desc dd u lv p a made
    | .ok (false, s) =>
      match firstSome (fun p => match s.allocPiece w p 8 with
          | .error e => some e
          | .ok _ => none)
          [ptrAdd n (offLock c + 8 * (i / 64)), ptrAdd desc 48, ptrAdd n (offCptr c i), ptrAdd n (8 * (i / 64))] with
      | some e => .error e
      | none => match s.treeRead w (ptrAdd n (offTile c + 8 * (i / 64))) 8, s.treeRead w (ptrAdd n (offTval c i)) 8 with
        | .error e, _ => .error e
        | _, .error e => .error e
        | .ok _, .ok _ => s.probeNodes w dd u (lv + 1) a made

/-- The lanes of a TINS that will change host memory, checked before it does: the conditions that they meet (R226). -/
def State.insertProbe (s : State) (w : Who) (desc dd : Nat) (vox : Nat → Option (Nat × Nat × Nat)) :
    List Nat → Nat → List (Nat × Nat × Nat × Nat) → List (Nat × TreeStop)
  | [], _, _ => []
  | l :: r, a, made => match vox l with
    | none => s.insertProbe w desc dd vox r a made
    | some u => match s.probeFrom w desc dd u 3 (treeHead dd).root a made with
      | .error e => (l, e) :: s.insertProbe w desc dd vox r a made
      | .ok (a, made) => s.insertProbe w desc dd vox r a made

/-- A TINS that changes host memory begins, once no lane meets a condition. -/
def tinsStart (d a b : BitVec 7) (s : State) (dd : Nat) (s1 : State) : Except Stop State :=
  let desc := descOf (s.rdS b.toNat)
  let vox := s.tinsVox a (treeHead dd)
  let es := match s1.treeRead s.who (ptrAdd desc 48) 8 with
    | .error e => [((lanesOf s.activeReal).headD 0, e)]
    | .ok (p, _) => s1.insertProbe s.who desc dd vox (lanesOf s.activeReal) p []
  if es ≠ [] then .error (treeStop s (s1.tinsMarks s.who (treeHead dd) vox (lanesOf s.activeReal)) .tins 0 es)
  else tinsGo d a b s (Insert.start dd (lanesOf s.activeReal)) s1.heard

/-- TINS (R231): in one step, or access by access where it changes host memory. -/
def tinsBody (d a b : BitVec 7) : Body := fun s =>
  match s.issue.ins with
  | some r => tinsGo d a b s r s
  | none => match tinsFind a b s with
    | .ok (xs, s2) => .ok (tinsPut d s xs s2)
    | .error (.ask q s') =>
      if q.all (fun a => a.kind = 0) then .error (.ask q s')
      else match tinsOpen b s with
        | .error p => .error p
        | .ok (dd, s1) => tinsStart d a b s dd s1
    | .error p => .error p

/-! TWALK (R236). -/

/-- A ray: origin, direction and the parameters t0 and t1 as FP32 patterns. -/
structure Ray where
  o : List Nat
  d : List Nat
  t0 : Nat
  t1 : Nat
deriving DecidableEq, Repr

def exactVal (x : Exact) : FVal :=
  match x with
  | .nan _ => .nan
  | .inf s _ => .inf s
  | .zero s => .fin s 0 0
  | .num s m e => .fin s m e

/-- Entry and exit of a box whose corner is `lo` and side `side`, or none when it is missed. R236 does not give the sign of a
zero quotient: lo - o is +0 where it is exactly zero, and the quotient has the sign of its division (DESIGN CHOICE, log entry
70). -/
def Ray.box (r : Ray) (lo : List Nat) (side : Nat) : Option (Nat × Nat) :=
  let axis := fun (i : Nat) =>
    let o := decodeF fp32 (nth r.o i 0)
    let d := decodeF fp32 (nth r.d i 0)
    let l := FVal.fin false (nth lo i 0) 0
    let h := FVal.fin false (nth lo i 0 + side) 0
    if finEq d (.fin false 0 0) then
      (if !finLt o l && finLt o h then some (infBits fp32 true, infBits fp32 false) else none)
    else
      let q := fun (e : FVal) => (finish fp32 .rne false (divExact (exactVal (addExact .rne e o.neg)) d)).bits
      some (minMaxBits fp32 false (q l) (q h), minMaxBits fp32 true (q l) (q h))
  match axis 0, axis 1, axis 2 with
  | some (a, b), some (c, d), some (e, f) =>
    let tin := minMaxBits fp32 true (minMaxBits fp32 true (minMaxBits fp32 true a c) e) r.t0
    let tout := minMaxBits fp32 false (minMaxBits fp32 false (minMaxBits fp32 false b d) f) r.t1
    if finLt (decodeF fp32 tin) (decodeF fp32 tout) then some (tin, tout) else none
  | _, _, _ => none

/-- The Morton key of a box origin (R234). -/
def mortonKey (o : List Nat) : Nat :=
  (List.range 11).foldl (fun k b => k + (nth o 0 0 / 8 / 2 ^ b % 2 + nth o 1 0 / 8 / 2 ^ b % 2 * 2 + nth o 2 0 / 8 / 2 ^ b % 2 * 4)
    * 8 ^ b) 0

/-- A cell that is hit: entry, exit, level code, Morton key and pointer or tile value. -/
structure Cell where
  tin : Nat
  tout : Nat
  kind : Nat
  key : Nat
  p : Nat
deriving DecidableEq, Repr

/-- Whether a cell comes before another: entry, then level code, then Morton key. -/
def Cell.before (a b : Cell) : Bool :=
  let x := decodeF fp32 a.tin
  let y := decodeF fp32 b.tin
  finLt x y || (finEq x y && (decide (a.kind < b.kind) || (a.kind = b.kind && decide (a.key < b.key))))
def bestCell (a b : Option Cell) : Option Cell :=
  match a, b with
  | none, b => b
  | a, none => a
  | some a, some b => some (if b.before a then b else a)

/-- The box corner of slot i of a node of level lv with corner `o`. -/
def slotBox (lv : Nat) (o : List Nat) (i : Nat) : List Nat :=
  let m := lvSide lv
  let g := 2 ^ lvShift lv
  [nth o 0 0 + i % m * g, nth o 1 0 + i / m % m * g, nth o 2 0 + i / (m * m) * g]

/-- The slots of a node that are hit, nearest first. -/
def hitSlots (r : Ray) (lv : Nat) (o : List Nat) (masks : Nat) : List (Nat × Nat × Nat) :=
  let hits := (List.range (lvSlots lv)).filterMap (fun i =>
    if masks / 2 ^ i % 2 = 1 then (r.box (slotBox lv o i) (2 ^ lvShift lv)).map (fun b => (i, b.1, b.2)) else none)
  sortBy (fun a b => !finLt (decodeF fp32 b.2.1) (decodeF fp32 a.2.1)) hits

/-- The first cell of a subtree along a ray; slots entered after the best cell so far are left alone. -/
def State.walkNode (s : State) (w : Who) (r : Ray) (h : TreeHead) : Nat → Nat → List Nat → Option Cell → Tree (Option Cell)
  | 0, _, _, best => .ok (best, s)
  | lv + 1, n, o, best =>
    let c := lvSlots (lv + 1)
    match s.treeBytes w 5 n (c / 4) with
    | .error e => .error e
    | .ok (bs, s) =>
      let child := ofBytes (bs.take (c / 8))
      let tile := ofBytes (bs.drop (c / 8))
      (hitSlots r (lv + 1) o (child ||| tile)).foldl (fun acc slot => match acc with
        | .error e => .error e
        | .ok (best, s) =>
          let (i, tin, tout) := slot
          let far := match best with
            | some b => finLt (decodeF fp32 b.tin) (decodeF fp32 tin)
            | none => false
          if far then .ok (best, s)
          else if child / 2 ^ i % 2 = 1 then
            match s.treeRead w (ptrAdd n (offCptr c i)) 8 with
            | .error e => .error e
            | .ok (p, s) =>
              if p % 128 ≠ 0 then .error (.bad 600 eBadnode n s)
              else if lv = 0 then
                let b := slotBox 1 o i
                match s.checkLeafNode w (nth b 0 0, nth b 1 0, nth b 2 0) p with
                | .error e => .error e
                | .ok (_, s) => match s.treeBytes w 5 (ptrAdd p 128) 64 with
                  | .error e => .error e
                  | .ok (am, s) =>
                    .ok (if ofBytes am = 0 then best else bestCell best (some ⟨tin, tout, 0, mortonKey b, p⟩), s)
              else s.walkNode w r h lv p (slotBox (lv + 1) o i) best
          else match s.treeRead w (ptrAdd n (offTval c i)) 8 with
            | .error e => .error e
            | .ok (v, s) => .ok (bestCell best (some ⟨tin, tout, lv + 1, mortonKey (slotBox (lv + 1) o i),
                v % 2 ^ (8 * fmtBytes h.fmt)⟩), s)) (.ok (best, s))

/-- What TWALK finds for each lane, after its checks: tin, tout, kind and p. -/
def twalkFind (a b : BitVec 7) (s : State) : Except Stop (List (Nat × Nat × Nat × Nat × Nat) × State) :=
  let sb := s.rdS b.toNat
  let desc := descOf sb
  if optBad sb false then trapE s eShape
  else match s.treeOpen s.who desc 0 (fun _ => []) with
    | .error p => .error p
    | .ok (head, s1) =>
      let h := treeHead head
      let w := s.who
      s1.voxLanes 0 (fun l s =>
        let v := fun i => (s.lane (a.toNat + i) l).toNat
        let r : Ray := ⟨[v 0, v 1, v 2], [v 3, v 4, v 5], v 6, v 7⟩
        if (List.range 8).any (fun i => match decodeF fp32 (v i) with
            | .fin _ _ _ => false
            | _ => true) then .ok ((canonNan fp32, canonNan fp32, 7, 0), s)
        else match s.walkNode w r h 3 h.root [0, 0, 0] none with
          | .error e => .error e
          | .ok (none, s) => .ok ((r.t1, r.t1, 6, 0), s)
          | .ok (some c, s) => .ok ((c.tin, c.tout, c.kind, c.p), s))
        (fun l =>
          if (List.range 8).any (fun i => match decodeF fp32 (s.lane (a.toNat + i) l).toNat with
              | .fin _ _ _ => false
              | _ => true) then (canonNan fp32, canonNan fp32, 7, 0)
          else (s.helperValue l 0, s.helperValue l 1, s.helperValue l 2, s.helperValue l 3))

/-- What TWALK writes. -/
def twalkPut (d : BitVec 7) (s : State) (xs : List (Nat × Nat × Nat × Nat × Nat)) (s2 : State) : State :=
  let v := fun l => (alGet xs l).getD (0, 0, 0, 0)
  let put := fun (s' : State) i (f : Nat → Nat) => s'.wrLanes (d.toNat + i) s.active (fun l => BitVec.ofNat 32 (f l))
  put (put (put (put (put s2 0 (fun l => (v l).1)) 1 (fun l => (v l).2.1)) 2 (fun l => (v l).2.2.1)) 3
    (fun l => (v l).2.2.2)) 4 (fun l => (v l).2.2.2 / 2 ^ 32)

/-- TWALK. -/
def twalkBody (d a b : BitVec 7) : Body := fun s =>
  match twalkFind a b s with
  | .error p => .error p
  | .ok (xs, s2) => .ok (twalkPut d s xs s2)

/-! Enumeration (R234). -/

/-- The active leaves of a subtree. -/
def State.activeLeaves (s : State) (w : Who) : Nat → Nat → List Nat → Tree (List EnumLeaf)
  | 0, n, o => match s.checkLeafNode w (nth o 0 0, nth o 1 0, nth o 2 0) n with
    | .error e => .error e
    | .ok (_, s) => match s.treeBytes w 5 (ptrAdd n 128) 64 with
      | .error e => .error e
      | .ok (am, s) =>
        .ok (if ofBytes am = 0 then [] else [⟨mortonKey o, nth o 0 0, nth o 1 0, nth o 2 0, BitVec.ofNat 64 n⟩], s)
  | lv + 1, n, o =>
    let c := lvSlots (lv + 1)
    match s.treeBytes w 5 n (c / 8) with
    | .error e => .error e
    | .ok (bs, s) =>
      let child := ofBytes bs
      ((List.range c).filter (fun i => child / 2 ^ i % 2 = 1)).foldl (fun acc i => match acc with
        | .error e => .error e
        | .ok (xs, s) => match s.treeRead w (ptrAdd n (offCptr c i)) 8 with
          | .error e => .error e
          | .ok (p, s) =>
            if p % 128 ≠ 0 then .error (.bad 600 eBadnode n s)
            else match s.activeLeaves w lv p (slotBox (lv + 1) o i) with
              | .error e => .error e
              | .ok (ys, s) => .ok (xs ++ ys, s)) (.ok ([], s))

/-- The leaves of a per-active-leaf launch in Morton order; a fault or a malformed node stops it. -/
def State.enumerate (s : State) (w : Who) (desc : Nat) : Tree (List EnumLeaf) :=
  match s.treeBytes w 2 desc 128 with
  | .error e => .error e
  | .ok (bs, s) =>
    if descBad (ofBytes bs) || desc % 128 ≠ 0 then .error (.bad 300 eBadnode desc s)
    else match s.activeLeaves w 3 (treeHead (ofBytes bs)).root [0, 0, 0] with
      | .error e => .error e
      | .ok (xs, s) => .ok (sortBy (fun a b => decide (a.key ≤ b.key)) xs, s)

/-- TLOOK (R227). -/
def execTlook (d a b : BitVec 7) (s : State) : Out :=
  perform (wordDab 0x240 d a b) (tlookBody d a b) s

/-- VLDN.s7 (R228). -/
def execVldnS7 (d a b : BitVec 7) (s : State) : Out :=
  perform (wordDab 0x241 d a b) (vldnBody (fun _ => stencil.take 7) false false d a b) s

/-- VLDN.s19 (R228). -/
def execVldnS19 (d a b : BitVec 7) (s : State) : Out :=
  perform (wordDab 0x242 d a b) (vldnBody (fun _ => stencil.take 19) false true d a b) s

/-- VLDN.b27 (R228). -/
def execVldnB27 (d a b : BitVec 7) (s : State) : Out :=
  perform (wordDab 0x243 d a b) (vldnBody (fun _ => stencil) false true d a b) s

/-- VLDN.line (R228). -/
def execVldnLine (d a b : BitVec 7) (s : State) : Out :=
  perform (wordDab 0x244 d a b) (vldnBody (fun x => lineStencil (fieldOf x 0 2)) true false d a b) s

/-- VSTV (R229). -/
def execVstv (d a b : BitVec 7) (s : State) : Out :=
  perform (wordDab 0x245 d a b) (vstvBody d a b) s

/-- TINS (R231). -/
def execTins (d a b : BitVec 7) (s : State) : Out :=
  perform (wordDab 0x246 d a b) (tinsBody d a b) s

/-- TACT.set (R230). -/
def execTactSet (d a b : BitVec 7) (s : State) : Out :=
  perform (wordDab 0x247 d a b) (tactBody true d a b) s

/-- TACT.clr (R230). -/
def execTactClr (d a b : BitVec 7) (s : State) : Out :=
  perform (wordDab 0x248 d a b) (tactBody false d a b) s

/-- TWALK (R236). -/
def execTwalk (d a b : BitVec 7) (s : State) : Out :=
  perform (wordDab 0x249 d a b) (twalkBody d a b) s

end Sys2Proof.Machine
end

