-- ==== Sys2Proof/Machine/Sampler.lean ====
section
/-! DEFINITION. Pattern textures (R242 to R245), weight tables and sampler slots (R246 to R250), TXB and TXS (R248 to
R255). -/

namespace Sys2Proof.Machine

open Sys2Proof

/-! Reads through L1 of up to one line (R248, R254). -/

/-- n bytes, within one line, of a global pointer: through L1, or from the host's answers of u bytes each, u at most 16.
What has all its answers is translated no more (R189). -/
def State.lineReadBy (s : State) (u ord p n : Nat) : Tree Nat :=
  let parts := List.range (n / u)
  let ans := fun (i : Nat) => hostAns s.issue.resp 0 (p + u * i) u
  match firstSome (fun i => match ans i with
      | some (.error e) => some (e, p + u * i)
      | _ => none) parts with
  | some (e, a) => .error (.bad (ord + errRank e) e a s)
  | none =>
    match parts.filter (fun i => (ans i).isNone) with
    | [] => .ok (parts.foldl (fun v i => match ans i with
        | some (.ok x) => v + x % 2 ^ (8 * u) * 2 ^ (8 * u * i)
        | _ => v) 0, s)
    | need => match s.locate true .read (.glob p) n with
      | .error (e, a) => .error (.bad (ord + errRank e) e a s)
      | .ok (.glob p t) =>
        if leafKind t.leaf = 2 then .error (.ask (need.map (fun i => askRead (p + u * i) u (t.pa + u * i))))
        else
          let (bs, s) := s.loadBytes s.who (field p 0 57) n t
          .ok (ofBytes bs, s)
      | .ok _ => .ok (0, s)

/-- The same in units of 8 bytes. -/
def State.lineRead8 (s : State) (ord p n : Nat) : Tree Nat := s.lineReadBy 8 ord p n

/-! Weight tables (R246) and slots (R247, R249). -/

def eBadtable : Err := (.prot, 7)
def eBadtex : Err := (.prot, 8)

/-- Byte k of a table and the BF16 weight at an offset. -/
def tableHalf (t : Nat) (off : Nat) : Nat := field t (8 * off) 16
/-- Whether a table is malformed (R248). -/
def tableBad (t : Nat) : Bool :=
  field t 0 32 ≠ 0x504E0001 || field t 33 31 ≠ 0 || field t 64 384 ≠ 0

/-- The sampler slots of a block. -/
def Block.slot (b : Block) (n : Nat) : Option TexSlot := alGet b.slots n
def Block.setSlot (b : Block) (n : Nat) (t : TexSlot) : Block := { b with slots := alSet b.slots n t }

/-- What a weight cache entry holds: address-space ID, table address and snapshot (R249). -/
def TexSlot.entry (t : TexSlot) : BitVec 16 × DWord × BitVec 9216 := (t.asid, t.addr, t.table)

/-- The weight cache of a cluster: the distinct entries of the installed slots of its resident blocks, slot n of block b
left out. -/
def State.weightCache (s : State) (cl b n : Nat) : List (BitVec 16 × DWord × BitVec 9216) :=
  ((List.range s.blocks.length).flatMap (fun k =>
    let blk := s.block k
    if clusterOf blk.core = cl && blk.resid = .resident then
      (blk.slots.filter (fun p => p.2.installed && !(k = b && p.1 = n))).map (fun p => p.2.entry)
    else [])).eraseDups

/-- Whether a slot's snapshot has room in its cluster's weight cache: an entry that it shares, or a free one. -/
def State.weightRoom (s : State) (b n : Nat) (t : TexSlot) : Bool :=
  let c := s.weightCache (clusterOf (s.block b).core) b n
  c.contains t.entry || decide (c.length < Config.weightEntries)

/-- The table's nine lines in order; the lowest failing line decides. -/
def State.tableLines (s : State) (p : Nat) : Nat → Nat → Tree Nat
  | 0, _ => .ok (0, s)
  | k + 1, i =>
    match s.lineRead8 0 (add64 (BitVec.ofNat 64 p) ((128 * i : Nat) : Int)) 128 with
    | .error (.ask a) => match s.tableLines p k (i + 1) with
      | .error (.ask b) => .error (.ask (a ++ b))
      | .error e => .error e
      | .ok _ => .error (.ask a)
    | .error e => .error e
    | .ok (v, s) => match s.tableLines p k (i + 1) with
      | .error e => .error e
      | .ok (r, s) => .ok (v + r * 2 ^ 1024, s)

/-- The bytes of a table as answers to its reads: what a TXB that waits for an entry has read (R248). -/
def tableKept (p v : Nat) : List HostResp :=
  (List.range 144).map (fun i => ⟨0, BitVec.ofNat 64 (p + 8 * i), 8, BitVec.ofNat 128 (field v (64 * i) 64), none⟩)

/-- TXB (R248, R249). One that waits for an entry keeps the bytes that it has read. -/
def txbBody (a imm : BitVec 7) : Body := fun s =>
  let p := s.rdS a.toNat
  let n := fieldOf imm 0 4
  if fieldOf p 0 7 ≠ 0 then trapA s eAlign p.toNat
  else match s.tableLines p.toNat 9 0 with
    | .error (.bad _ e x _) => trapA s e x
    | .error (.ask asks) => .error (.ask asks s)
    | .error .wait => waitE s .weight
    | .ok (v, s') =>
      if tableBad v then trapA s eBadtable p.toNat
      else
        let t : TexSlot := ⟨s.who.asid, BitVec.ofNat 64 (fieldOf p 0 57), BitVec.ofNat 9216 v, true⟩
        if s'.weightRoom s.cw.blk n t then .ok (s'.setBlock s.cw.blk ((s'.block s.cw.blk).setSlot n t))
        else waitE { s' with issue := { s'.issue with resp := tableKept p.toNat v } } .weight

/-! Decoding a texel (R243 to R245). -/

/-- A texture descriptor's fields (R242). -/
structure TexDesc where
  base : Nat
  w : Nat
  h : Nat
  pitch : Nat
  xm : Nat
  ym : Nat
deriving DecidableEq, Repr
def texDesc (d : Nat) : TexDesc :=
  ⟨field d 0 64, field d 64 16 + 1, field d 80 16 + 1, field d 96 32, field d 128 2, field d 130 2⟩
def texBad (d : Nat) : Bool :=
  let t := texDesc d
  field d 0 5 ≠ 0 || decide (t.pitch < (t.w + 7) / 8) || decide (2 ^ 24 < t.pitch) || decide (2 ≤ t.xm) || decide (2 ≤ t.ym)
    || field d 132 380 ≠ 0

/-- The pointer of the latent block of a texel (R243). -/
def TexDesc.block (t : TexDesc) (bi bj : Nat) : Nat := (t.base + 32 * (t.pitch * bj + bi)) % 2 ^ 64

/-- An FP32 result rounded to nearest even. -/
def round32 (x : Exact) : Nat := (finish fp32 .rne false x).bits

/-- The weighted sum of finite values, exact; NaN when a term is NaN or infinities of both signs meet. -/
def weighted (ts : List (Nat × FVal)) (scale : Int) : FVal :=
  match ts with
  | [] => .fin false 0 0
  | (w, v) :: r =>
    let one := fun (w : Nat) (v : FVal) => (mulVal v (.fin false w scale)).1
    r.foldl (fun acc t => exactVal (addExact .rne acc (one t.1 t.2))) (one w v)

/-- The 12 inputs of a texel at position (pi, pj) of its block (R244). -/
def texInputs (blk pi pj : Nat) : List FVal :=
  let a := 2 * pi + 1
  let b := 2 * pj + 1
  let t := fun (c k : Nat) => decodeT 8 2 (field blk (8 * (8 * c + k)) 8)
  let ch := fun (k : Nat) => decodeF fp32 (round32
    (weighted [((16 - a) * (16 - b), t 0 k), (a * (16 - b), t 1 k), ((16 - a) * b, t 2 k), (a * b, t 3 k)] (-8)).exact)
  let off := fun (x : Nat) => FVal.fin (decide (x < 8)) ((x : Int) - 8).natAbs (-3)
  (List.range 8).map ch ++ [off a, off b, (mulVal (off a) (off a)).1, (mulVal (off b) (off b)).1]

/-- min(max(x, +0), top) of R245: NaN is canonical, -0 becomes +0. -/
def clampNet (top x : Nat) : Nat :=
  let v := decodeF fp32 x
  if v.isNan then canonNan fp32
  else if v.sign then 0
  else if finLt (decodeF fp32 top) v then top else x

/-- A layer of the pattern net (R245): weights at `wo`, biases at `bo`. -/
def netLayer (t wo bo nin nout : Nat) (act : Bool) (x : List FVal) : List Nat :=
  (List.range nout).map (fun n =>
    let acc := (List.range nin).foldl (fun acc k =>
      round32 (fmaExact .rne (decodeF bf16 (tableHalf t (wo + 2 * (nin * n + k)))) (nth x k (.fin false 0 0)) (decodeF fp32 acc)))
      (round32 (decodeF bf16 (tableHalf t (bo + 2 * n))).exact)
    if act then clampNet 0x41000000 acc else acc)

/-- The texel's RGBA as FP32 patterns (R245). -/
def texel (t blk i j : Nat) : List Nat :=
  let vals := fun (xs : List Nat) => xs.map (decodeF fp32)
  let h1 := netLayer t 56 440 12 16 true (texInputs blk (i % 8) (j % 8))
  let h2 := netLayer t 472 984 16 16 true (vals h1)
  let o := netLayer t 1016 1144 16 4 false (vals h2)
  if field t 32 2 = 1 then o.map (fun x => if (decodeF fp32 x).isNan then x else clampNet 0x3F800000 x) else o

/-! Sampling (R253). -/

/-- The address mode. -/
def texMap (i : Int) (n mode : Nat) : Nat := if mode = 1 then (i % (n : Int)).toNat else (max 0 (min i ((n : Int) - 1))).toNat

/-- floor(c - 0.5) and the fraction in 1/256, rounded, of a finite coordinate. -/
def texCoord (s : Bool) (m : Nat) (e : Int) : Int × Nat :=
  let g : Int := min e (-1)
  let x : Int := (m * 2 ^ (e - g).toNat : Nat)
  let x := (if s then -x else x) - (2 ^ (-1 - g).toNat : Nat)
  let q : Int := (2 ^ (-g).toNat : Nat)
  let i := x / q
  let w := (roundShift .rne false (256 * (x % q).toNat) (-g)).1
  if w = 256 then (i + 1, 0) else (i, w)

/-- The texels of a lane with their nonzero weights (of 65,536 in all); none where the result is NaN. Their order is that in
which a lane's blocks are read, so that of several which meet the same condition the first one's address is recorded (R252
names the lane only: DESIGN CHOICE, log entry 71). -/
def texTaps (g : Bool) (t : TexDesc) (u v : Word) : Option (List (Nat × Nat × Nat)) :=
  if g then some [(65536, texMap (sext 32 u.toNat) t.w t.xm, texMap (sext 32 v.toNat) t.h t.ym)]
  else match decodeF fp32 u.toNat, decodeF fp32 v.toNat with
    | .fin su mu eu, .fin sv mv ev =>
      let (i0, wx) := texCoord su mu eu
      let (j0, wy) := texCoord sv mv ev
      some ([(0, 0), (0, 1), (1, 0), (1, 1)].filterMap (fun (d : Nat × Nat) =>
        let w := (if d.1 = 1 then wx else 256 - wx) * (if d.2 = 1 then wy else 256 - wy)
        if w = 0 then none
        else some (w, texMap (i0 + (d.1 : Int)) t.w t.xm, texMap (j0 + (d.2 : Int)) t.h t.ym)))
    | _, _ => none

/-- The filtered channels of a lane's texels. -/
def texFilter (ts : List (Nat × List Nat)) : List Nat :=
  (List.range 4).map (fun n =>
    round32 (weighted (ts.map (fun t => (t.1, decodeF fp32 (nth t.2 n 0)))) (-16)).exact)

/-- A lane's sample: its latent blocks read, its texels decoded and filtered. -/
def State.sampleLane (s : State) (g : Bool) (t : TexDesc) (table : Nat) (u v : Word) : Tree (List Nat) :=
  match texTaps g t u v with
  | none => .ok ((List.replicate 4 (canonNan fp32)), s)
  | some taps =>
    match treePoints (fun (p : Int × Int × Int) s => s.lineRead8 500 (t.block (p.1.toNat / 8) (p.2.1.toNat / 8)) 32)
        (taps.map (fun p => ((p.2.1 : Int), (p.2.2 : Int), (0 : Int)))) s with
    | .error e => .error e
    | .ok (blks, s) =>
      let tx := (List.range taps.length).map (fun k =>
        let p := nth taps k (0, 0, 0)
        (p.1, texel table (nth blks k 0) p.2.1 p.2.2))
      .ok (if g then (nth tx 0 (0, [])).2 else texFilter tx, s)

/-- Whether a fetch that was issued earlier is in the sampler queue of the issuing strand's core (R182, R254). -/
def State.fetchBefore (s : State) : Bool :=
  let mine := match s.cs.wait with
    | some v => if v.kind.fetches then v.seq else s.seq
    | none => s.seq
  (List.range s.warps.length).any (fun w => s.coreOfWarp w = s.coreOfWarp s.issue.warp && (
    let x := s.warp w
    (x.strands.filterMap id ++ x.handlers.map Handler.strand).any (fun t => t.wait.any (fun v =>
      v.kind.fetches && (opOf v.word = 0x281 || opOf v.word = 0x282) && decide (v.seq < mine)))))

/-- What TXS finds, after its checks: each lane's four values, with its slot's table installed (R251 to R254). A TXS that finds no
weight-cache entry for its slot waits for one before it is issued (R249). Fetches are performed in the order in which they were
issued; an issue with leave to split leaves the fetch in the sampler queue, and its completion tries again. -/
def txsFind (g : Bool) (a b : BitVec 7) (s : State) : Except Stop (List (Nat × List Nat) × State) :=
  let sb := s.rdS b.toNat
  let desc := sb.toNat / 64 * 64
  let n := fieldOf sb 0 4
  if fieldOf sb 4 2 ≠ 0 then trapE s eShape
  else match (s.block s.cw.blk).slot n with
    | none => trapE s eBadtable
    | some slot =>
      if !slot.installed && !s.weightRoom s.cw.blk n slot then waitE s .weight
      else
        let s := if slot.installed then s
          else s.setBlock s.cw.blk ((s.block s.cw.blk).setSlot n { slot with installed := true })
        if s.fetchBefore then waitE s .sample
        else match s.lineRead8 0 desc 64 with
        | .error (.ask asks) => .error (.ask asks s)
        | .error (.bad _ e x _) => .error (memStop s e (TrapInfo.atAddr e x))
        | .error .wait => waitE s .sample
        | .ok (dv, s1) =>
          if texBad dv then trapA s eBadtex desc
          else
            let t := texDesc dv
            match s1.treeLanes 0 .sample (fun l s => s.sampleLane g t slot.table.toNat (s.lane a.toNat l) (s.lane (a.toNat + 1) l)) with
            | .error p => .error p
            | .ok (xs, s2) => if s.issue.split then waitE s .sample else .ok (xs, s2)

/-- What TXS writes. -/
def txsPut (d : BitVec 7) (s : State) (xs : List (Nat × List Nat)) (s2 : State) : State :=
  (List.range 4).foldl (fun s' n =>
    s'.wrLanes (d.toNat + n) s.active (fun l => BitVec.ofNat 32 (nth ((alGet xs l).getD []) n 0))) s2

/-- TXS (R251 to R254). -/
def txsBody (g : Bool) (d a b : BitVec 7) : Body := fun s =>
  match txsFind g a b s with
  | .error p => .error p
  | .ok (xs, s2) => .ok (txsPut d s xs s2)

/-- TXB (R248). -/
def execTxb (a imm : BitVec 7) (s : State) : Out :=
  perform (wordDab 0x280 0 a imm) (txbBody a imm) s

/-- TXS.l (R253). -/
def execTxsL (d a b : BitVec 7) (s : State) : Out :=
  perform (wordDab 0x281 d a b) (txsBody false d a b) s

/-- TXS.g (R253). -/
def execTxsG (d a b : BitVec 7) (s : State) : Out :=
  perform (wordDab 0x282 d a b) (txsBody true d a b) s

end Sys2Proof.Machine
end

