-- ==== Sys2Proof/Machine/Render.lean ====
section
/-! DEFINITION. Rendering: draws, coverage, CULL, PEXP and binning (R256 to R263, R358, R378), VBRD (R264), Riddle jobs
(R266, R275, R346, R354, R370), ordered blending (R267, R377). -/

namespace Sys2Proof.Machine

open Sys2Proof

def eBaddraw : Err := (.prot, 9)
def eOrder : Err := (.prot, 10)

/-! Draw descriptors (R256). -/

def dwVbase (d : Nat) : Nat := field d 0 64
def dwW (d : Nat) : Nat := field d 64 16 + 1
def dwH (d : Nat) : Nat := field d 80 16 + 1
def dwNs (d : Nat) : Nat := if field d 96 1 = 1 then 4 else 1
def dwFace (d : Nat) : Nat := field d 97 2
def dwGbase (d : Nat) : Nat := field d 192 64
def dwGsize (d : Nat) : Nat := field d 256 32
def dwStats (d : Nat) : Nat := field d 320 64
/-- The pixels inside the scissor and the buffer: x from, x to, y from, y to, inclusive. -/
def dwClip (d : Nat) : Nat × Nat × Nat × Nat :=
  (field d 128 16, min (field d 160 16) (dwW d - 1), field d 144 16, min (field d 176 16) (dwH d - 1))

/-- Whether a descriptor breaks R256. -/
def drawBad (d : Nat) : Bool :=
  field d 0 7 ≠ 0 || decide (16384 < dwW d) || decide (16384 < dwH d) || dwFace d = 3 || field d 99 29 ≠ 0
    || field d 192 12 ≠ 0 || dwGsize d % 4096 ≠ 0 || decide (dwGsize d < 65536) || field d 288 32 ≠ 0
    || field d 320 5 ≠ 0 || field d 384 128 ≠ 0

/-- The address of a visibility entry (R257). -/
def dwEntry (d x y n : Nat) : Nat := (dwVbase d + 16 * (dwNs d * (y * dwW d + x) + n)) % 2 ^ 64

/-- The pointer and descriptor of an instruction that names a draw: items 1 to 3 of R358. -/
def State.drawOpen (s : State) (b : BitVec 7) (dfr : Bool) : Except Stop (Nat × Nat × State) :=
  let p := (s.rdS b.toNat).toNat
  if p % 64 ≠ 0 then trapA s eAlign p
  else match s.lineRead8 0 p 64 with
    | .error (.bad _ e a _) => .error (if dfr then memStop s e (TrapInfo.atAddr e a) else .trap (TrapInfo.atAddr e a) s)
    | .error (.ask asks) => .error (.ask asks s)
    | .error .wait => waitE s .flush
    | .ok (d, s') => if drawBad d then trapA s eBaddraw p else .ok (p, d, s')

/-! Coverage (R258, R259). -/

/-- A snapped vertex: coordinates in 1/256 of a pixel, and depth. -/
structure Vtx where
  x : Int
  y : Int
  z : FVal
deriving DecidableEq, Repr

/-- A finite coordinate × 256 rounded to an integer (R258), and the same where it is below 2^23 in magnitude (R259). -/
def snapAny (v : FVal) : Option Int :=
  match v with
  | .fin s m e =>
    let n : Int := ((roundShift .rne s m (-(e + 8))).1 : Nat)
    some (if s then -n else n)
  | _ => none
def snap (v : FVal) : Option Int := (snapAny v).filter (fun n => decide (n.natAbs < 2 ^ 23))

/-- The vertices of a triangle whose coordinates are all finite and not too large; none is code 4 of R259. -/
def triSnap (v : List Word) : Option (Vtx × Vtx × Vtx) :=
  let val := fun (i : Nat) => decodeF fp32 (nth v i 0).toNat
  let one := fun (i : Nat) => match snap (val (3 * i)), snap (val (3 * i + 1)), val (3 * i + 2) with
    | some x, some y, .fin s m e => some (⟨x, y, .fin s m e⟩ : Vtx)
    | _, _, _ => none
  match one 0, one 1, one 2 with
  | some a, some b, some c => some (a, b, c)
  | _, _, _ => none

/-- Eab(S). -/
def edge (a b : Vtx) (sx sy : Int) : Int := (b.x - a.x) * (sy - a.y) - (b.y - a.y) * (sx - a.x)
/-- Whether an edge owns its line. -/
def owns (a b : Vtx) : Bool := decide (b.y < a.y) || (decide (b.y = a.y) && decide (a.x < b.x))
/-- The signed area. -/
def area (t : Vtx × Vtx × Vtx) : Int := edge t.1 t.2.1 t.2.2.x t.2.2.y
/-- The triangle with V1 and V2 exchanged when its area is negative. -/
def orient (t : Vtx × Vtx × Vtx) : Vtx × Vtx × Vtx := if area t < 0 then (t.1, t.2.2, t.2.1) else t

/-- Sample offsets within a pixel. -/
def sampleOff (ns n : Nat) : Int × Int :=
  if ns = 1 then (128, 128)
  else match n with
    | 0 => (96, 32) | 1 => (224, 96) | 2 => (32, 160) | _ => (160, 224)

/-- The box of the vertices: x from, x to, y from, y to. -/
def triBox (t : Vtx × Vtx × Vtx) : Int × Int × Int × Int :=
  let (a, b, c) := t
  (min a.x (min b.x c.x), max a.x (max b.x c.x), min a.y (min b.y c.y), max a.y (max b.y c.y))

/-- Whether some pixel of [lo, hi] has a sample coordinate 256 × pixel + off inside [from_, to_]. -/
def sampleIn (lo hi : Nat) (from_ to_ off : Int) : Bool :=
  decide (max (lo : Int) (-((off - from_) / 256)) ≤ min (hi : Int) ((to_ - off) / 256))

/-- The cull code of R259. -/
def cullCode (d : Nat) (v : List Word) : Nat :=
  match triSnap v with
  | none => 4
  | some t =>
    let a := area t
    let (x0, x1, y0, y1) := triBox t
    let (cx0, cx1, cy0, cy1) := dwClip d
    if a = 0 then 1
    else if (dwFace d = 1 && decide (a < 0)) || (dwFace d = 2 && decide (0 < a)) then 2
    else if !(List.range (dwNs d)).any (fun n =>
        let (ox, oy) := sampleOff (dwNs d) n
        sampleIn cx0 cx1 x0 x1 ox && sampleIn cy0 cy1 y0 y1 oy) then 3
    else 0

/-- Whether a sample position is covered by an oriented triangle, and with which depth. The sign of a depth whose exact value
is zero is that of the IEEE sum of the products in the order E12 × z0, E20 × z1, E01 × z2, over A: R258 states the value
alone (DESIGN CHOICE, log entry 71). -/
def coverAt (t : Vtx × Vtx × Vtx) (sx sy : Int) : Option Nat :=
  let (a, b, c) := t
  let e01 := edge a b sx sy
  let e12 := edge b c sx sy
  let e20 := edge c a sx sy
  let ins := fun (e : Int) (p q : Vtx) => decide (0 < e) || (decide (e = 0) && owns p q)
  if ins e01 a b && ins e12 b c && ins e20 c a then
    let term := fun (e : Int) (z : FVal) => (mulVal (.fin (decide (e < 0)) e.natAbs 0) z).1
    let sum := exactVal (addExact .rne (exactVal (addExact .rne (term e12 a.z) (term e20 b.z))) (term e01 c.z))
    some (round32 (divExact sum (.fin false (area t).natAbs 0)))
  else none

/-- The samples of a 64 × 64-pixel bin that a primitive covers, with their depths: x, y, sample, depth. -/
def coverBin (d : Nat) (p : Prim) (bin : Nat × Nat) : List (Nat × Nat × Nat × Nat) :=
  let (cx0, cx1, cy0, cy1) := dwClip d
  let px := (List.range 64).filterMap (fun i =>
    let x := 64 * bin.1 + i; if cx0 ≤ x && x ≤ cx1 then some x else none)
  let py := (List.range 64).filterMap (fun i =>
    let y := 64 * bin.2 + i; if cy0 ≤ y && y ≤ cy1 then some y else none)
  let depth : Nat → Nat → Nat → Option Nat := match p.good, triSnap p.verts with
    | true, some t => fun x y n =>
      let (ox, oy) := sampleOff (dwNs d) n
      coverAt (orient t) (256 * (x : Int) + ox) (256 * (y : Int) + oy)
    | _, _ => fun x y n => (Config.badCover p.id x y n).map BitVec.toNat
  py.flatMap (fun y => px.flatMap (fun x => (List.range (dwNs d)).filterMap (fun n =>
    (depth x y n).map (fun z => (x, y, n, z)))))

/-- The 64 × 64-pixel bins of a box of pixels: x from, x to, y from, y to, inclusive. -/
def boxBins (x0 x1 y0 y1 : Int) : List (Nat × Nat) :=
  if x1 < x0 || y1 < y0 then []
  else
    let run := fun (a b : Int) => (List.range ((b / 64 - a / 64).toNat + 1)).map (fun i => (a / 64).toNat + i)
    (run y0 y1).flatMap (fun by_ => (run x0 x1).map (fun bx => (bx, by_)))

/-- The bins inside the scissor and the buffer. -/
def clipBins (d : Nat) : List (Nat × Nat) :=
  let (cx0, cx1, cy0, cy1) := dwClip d
  boxBins cx0 cx1 cy0 cy1

/-- The box of a triangle whose x and y are all finite, of any size; z has no part in it (R258). -/
def flatBox (v : List Word) : Option (Int × Int × Int × Int) :=
  let at_ := fun (i : Nat) => snapAny (decodeF fp32 (nth v i 0).toNat)
  let one := fun (i : Nat) => match at_ (3 * i), at_ (3 * i + 1) with
    | some x, some y => some (⟨x, y, .nan⟩ : Vtx)
    | _, _ => none
  match one 0, one 1, one 2 with
  | some a, some b, some c => some (triBox (a, b, c))
  | _, _, _ => none

/-- The bins that the clipped box of a triangle meets, one record for each (R260). A triangle with an x or y that is NaN or
infinite has no box: it meets them all (log entry 54). -/
def triBins (d : Nat) (v : List Word) : List (Nat × Nat) :=
  match flatBox v with
  | none => clipBins d
  | some (a, b, c, e) =>
    let (cx0, cx1, cy0, cy1) := dwClip d
    boxBins (max (cx0 : Int) (a / 256)) (min (cx1 : Int) (b / 256)) (max (cy0 : Int) (c / 256)) (min (cy1 : Int) (e / 256))

/-- The bins that the engine rasterises a triangle in: those of its records, or, for one that CULL would reject, all inside
the scissor and the buffer, since R260 leaves open which samples it covers. -/
def coverBins (d : Nat) (v : List Word) : List (Nat × Nat) := if cullCode d v = 0 then triBins d v else clipBins d

/-- The nine words of a lane's triangle. -/
def State.triOf (s : State) (a : BitVec 7) (l : Nat) : List Word := (List.range 9).map (fun i => s.lane (a.toNat + i) l)

/-- CULL (R259, R358). -/
def cullBody (d a b : BitVec 7) : Body := fun s =>
  match s.drawOpen b false with
  | .error p => .error p
  | .ok (_, dv, s') => .ok (s'.wrLanes d.toNat s.active (fun l => BitVec.ofNat 32 (cullCode dv (s.triOf a l))))

/-! Draws in progress. -/

def State.drawAt (s : State) (d k : Nat) : Option Draw := (s.die d).draws[k]?
def State.setDraw (s : State) (d k : Nat) (x : Draw) : State :=
  s.setDie d { s.die d with draws := (s.die d).draws.set k x }

/-- The draw stops at a fault of primitive p, which goes to the warp that exported it; with no strand left to take it,
the primitive is dropped and the failure logged (R378). -/
def State.drawFault (s : State) (d k i : Nat) (p : Prim) (e : Err) (a : Nat) : State :=
  match s.drawAt d k with
  | none => s
  | some x =>
    let w := s.warp p.warp
    if w.phase = .running && w.entries ≠ [] then
      let info := { TrapInfo.atAddr e a with
        copyF := true, fpc := p.chain, after := p.after, word := p.word, engine := true }
      let s := s.setWarp p.warp { w with engFaults := w.engFaults ++ [⟨p.entry, info, s.seq⟩] }
      { (s.setDraw d k { x with stopped := some (p.warp, s.seq), reqs := [], resp := [] }) with seq := s.seq + 1 }
    else (s.setDraw d k { x with prims := x.prims.eraseIdx i, reqs := [], resp := [] }).logError d x.launch a

/-- The draw's engine asks for host memory. -/
def State.drawAsk (s : State) (d k : Nat) (asks : List HostAsk) : State :=
  match s.drawAt d k with
  | none => s
  | some x =>
    let (reqs, s) := (s.markAsks (whoFab s d x.ctx) asks).sendAsks d x.ctx asks
    s.setDraw d k { x with reqs := reqs }

/-- Whether every message of a list has been answered. -/
def answeredAll (reqs : List HostReq) (resp : List HostResp) : Bool :=
  reqs.all (fun r => (respOf resp r.kind r.addr.toNat r.n).isSome)

/-- Counts added to the statistics record: exported, culled, rasterised (R262). -/
def State.drawCount (s : State) (who : Who) (rs : List HostResp) (stats : Nat) : List (Nat × Nat) → Except EngErr State
  | [] => .ok s
  | (off, n) :: r =>
    if n = 0 then s.drawCount who rs stats r
    else match s.ioAdd who rs ((stats + off) % 2 ^ 64) n with
      | .error e => .error e
      | .ok (_, s) => s.drawCount who rs stats r

/-- The records of a primitive, one for each of its bins (R260). -/
def primRecords (p : Prim) : List Byte :=
  (List.range p.recs).flatMap (fun b => (List.range 64).map (fun k => Config.binRecordByte p.id b k))

/-- The first primitive not yet counted and binned goes on: counted as exported, its records written, or the flush that
it needs begun (R260 to R262). The answer says whether more may be done at once. -/
def State.binNext (s : State) (d k : Nat) : State × Bool :=
  match s.drawAt d k with
  | none => (s, false)
  | some x =>
    if x.stopped.isSome || x.flushing || !answeredAll x.reqs x.resp then (s, false)
    else match firstIdx (fun p => !p.binned) x.prims with
      | none => (s, false)
      | some i => match x.prims[i]? with
        | none => (s, false)
        | some p =>
          let who := whoFab s d x.ctx
          let dv := x.bytes.toNat
          let fail := fun (e : EngErr) => match e with
            | .bad e a => (s.drawFault d k i p e a, false)
            | .ask asks => (s.drawAsk d k asks, false)
          let put := fun (s : State) (ps : List Prim) (used : Nat) (fl : Bool) =>
            s.setDraw d k { x with prims := ps, used := used, flushing := fl, reqs := [], resp := [] }
          if !p.counted then
            match s.drawCount who x.resp (dwStats dv) [(0, 1), (8, if p.culled then 1 else 0)] with
            | .error e => fail e
            | .ok s => (put s (if p.culled then x.prims.eraseIdx i else x.prims.set i { p with counted := true }) x.used false, true)
          else if p.bins = [] then
            match s.drawCount who x.resp (dwStats dv) [(8, 1)] with
            | .error e => fail e
            | .ok s => (put s (x.prims.eraseIdx i) x.used false, true)
          else
            let n := 64 * p.recs
            if dwGsize dv < n then (put s (x.prims.set i { p with binned := true }) x.used false, true)
            else if dwGsize dv < x.used + n then
              if x.prims.any (fun q => q.binned) then (put s x.prims x.used true, false) else (put s x.prims 0 false, true)
            else match s.ioWrite who x.resp ((dwGbase dv + x.used) % 2 ^ 64) (primRecords p) with
              | .error e => fail e
              | .ok s => (put s (x.prims.set i { p with binned := true }) (x.used + n) false, true)

/-- The engine bins for as long as it may. -/
def State.binAll (s : State) (d k : Nat) : Nat → State
  | 0 => s
  | n + 1 => match s.binNext d k with
    | (s, true) => s.binAll d k n
    | (s, false) => s

/-- A PEXP's primitive of a lane. -/
def State.primOf (s : State) (dv : Nat) (d a : BitVec 7) (l : Nat) : Prim :=
  let v := s.triOf a l
  { id := s.lane64 d.toNat l, verts := v, bins := coverBins dv v, recs := (triBins dv v).length, covered := false,
    good := cullCode dv v = 0, culled := s.lane (d.toNat + 2) l ≠ 0, counted := false, binned := false, warp := s.issue.warp,
    entry := s.issue.entry, chain := s.issue.chain, after := s.issue.pc + 4, word := s.issue.word }

/-- PEXP (R260, R261, R378). One draw is what the PEXPs of a launch that name one descriptor address export, whatever tags
their pointers carry (R256). The draw keeps the descriptor that its first PEXP read, for its buffer, statistics and
rasterisation; the bins of a later PEXP's primitives come from its own read: R256 does not say which contents count when
they change (DESIGN CHOICE, log entry 71). -/
def pexpBody (d a b : BitVec 7) : Body := fun s =>
  match s.drawOpen b false with
  | .error p => .error p
  | .ok (ptr, dv, s') =>
    let die := dieOf (s.coreOfWarp s.issue.warp)
    let l := (s.block s.cw.blk).launch
    let prims := (lanesOf s.activeReal).map (s.primOf dv d a)
    match firstIdx (fun (x : Draw) => x.launch = l && fieldOf x.desc 0 57 = field ptr 0 57) (s.die die).draws with
    | some k => match s'.drawAt die k with
      | none => .ok s'
      | some x =>
        if x.flushing || x.stopped.isSome || x.prims.any (fun p => !p.binned) then waitE s .flush
        else .ok ((s'.setDraw die k { x with prims := x.prims ++ prims }).binAll die k (3 * prims.length + 1))
    | none =>
      let x : Draw :=
        { ctx := s.ctxOfWarp s.issue.warp, desc := BitVec.ofNat 64 ptr, bytes := BitVec.ofNat 512 dv, launch := l, prims := prims,
          used := 0, flushing := false, stopped := none, reqs := [], resp := [] }
      let ds := (s'.die die).draws
      .ok ((s'.setDie die { s'.die die with draws := ds ++ [x] }).binAll die ds.length (3 * prims.length + 1))

/-! Rasterisation (R257, R262). -/

/-- A visibility entry after an update with (z, id): the test of R257. -/
def visUpdate (z id old : Nat) : Nat :=
  let zs := decodeF fp32 (field old 64 32)
  let v := decodeF fp32 z
  if finLt v zs || (finEq v zs && decide (id < field old 0 64)) then id + z * 2 ^ 64 else old

/-- The covered samples of one primitive in one bin update their entries. -/
def State.visWrites (s : State) (who : Who) (rs : List HostResp) (d key : Nat) (id : DWord) :
    List (Nat × Nat × Nat × Nat) → Except EngErr State
  | [] => .ok s
  | (x, y, n, z) :: r =>
    match s.ioAtomic who rs (dwEntry d x y n) 16 (key + 1) 0x284 [id, BitVec.ofNat 64 z] (visUpdate z id.toNat) with
    | .error e => .error e
    | .ok (_, s) => s.visWrites who rs d key id r

/-- The primitives of a bin one after the other; those that covered a sample are returned. -/
def State.visBin (s : State) (who : Who) (rs : List HostResp) (d : Nat) (bin : Nat × Nat) :
    List (Nat × Prim) → Except (Nat × EngErr) (List Nat × State)
  | [] => .ok ([], s)
  | (i, p) :: r =>
    let c := coverBin d p bin
    match s.visWrites who rs d i p.id c with
    | .error e => .error (i, e)
    | .ok s => match s.visBin who rs d bin r with
      | .error e => .error e
      | .ok (is, s) => .ok (if c = [] then is else i :: is, s)

/-- One bin of a draw is rasterised whole, and the primitives whose last bin it was are counted. -/
def State.rasterBin (s : State) (d k : Nat) (x : Draw) (bin : Nat × Nat) : State :=
  let who := whoFab s d x.ctx
  let dv := x.bytes.toNat
  let idx := (List.range x.prims.length).filterMap (fun i => match x.prims[i]? with
    | some p => if p.binned && p.bins.contains bin then some (i, p) else none
    | none => none)
  let fail := fun (i : Nat) (e : EngErr) => match e with
    | .bad e a => match x.prims[i]? with
      | some p => s.drawFault d k i p e a
      | none => s
    | .ask asks => s.drawAsk d k asks
  match s.visBin who x.resp dv bin idx with
  | .error (i, e) => fail i e
  | .ok (cov, s') =>
    let ps := (List.range x.prims.length).filterMap (fun i => (x.prims[i]?).map (fun p =>
      if p.binned then { p with bins := p.bins.filter (fun b => b ≠ bin), covered := p.covered || cov.contains i } else p))
    let ended := ps.filter (fun p => p.binned && p.bins = [])
    let ras := (ended.filter (fun p => p.covered)).length
    match s'.drawCount who x.resp (dwStats dv) [(8, ended.length - ras), (16, ras)] with
    | .error e => fail ((idx.map Prod.fst).headD 0) e
    | .ok s' =>
      let ps := ps.filter (fun p => !(p.binned && p.bins = []))
      let fl := x.flushing && ps.any (fun p => p.binned)
      s'.setDraw d k { x with
        prims := ps, flushing := fl, used := (if x.flushing && !fl then 0 else x.used), reqs := [], resp := [] }

/-- Whether every block that a launch still has is pre-empted (R263). -/
def State.suspended (s : State) (l : Nat) : Bool :=
  let bs := s.blocksOf l
  bs ≠ [] && bs.all (fun b => (s.block b).resid ≠ .resident)

/-- The Riddle engine's next piece of work on a draw: binning that is due, else the first bin. -/
def State.rasterNext (s : State) (d k : Nat) : State :=
  match s.drawAt d k with
  | none => s
  | some x =>
    if x.stopped.isSome || !answeredAll x.reqs x.resp || s.suspended x.launch then s
    else if !x.flushing && x.prims.any (fun p => !p.binned) then s.binAll d k (3 * x.prims.length + 1)
    else match (x.prims.filter (fun p => p.binned)).flatMap (fun p => p.bins) with
      | [] => s
      | bin :: _ => s.rasterBin d k x bin

/-! VBRD (R264). -/

/-- What VBRD reads: the descriptor, and for each active lane the 16 bytes, as one unit, of the entry that its x, y and layer
name. -/
def vbrdFind (a b : BitVec 7) (s : State) : Except Stop (List (Nat × Nat) × State) :=
  match s.drawOpen b true with
  | .error p => .error p
  | .ok (_, dv, s1) =>
    let at_ := fun l => ((s.lane a.toNat l).toNat, (s.lane (a.toNat + 1) l).toNat, (s.lane (a.toNat + 2) l).toNat)
    s1.treeLanes 0 .host (fun l s =>
      let (x, y, n) := at_ l
      if dwW dv ≤ x || dwH dv ≤ y || dwNs dv ≤ n then .error (.bad (errRank eRange) eRange (dwEntry dv x y n) s)
      else s.lineReadBy 16 0 (dwEntry dv x y n) 16)

/-- What VBRD writes. -/
def vbrdPut (d : BitVec 7) (s : State) (xs : List (Nat × Nat)) (s2 : State) : State :=
  let word := fun k l => BitVec.ofNat 32 ((alGet xs l).getD 0 / 2 ^ (32 * k))
  (List.range 3).foldl (fun s' k => s'.wrLanes (d.toNat + k) s.active (word k)) s2

/-- VBRD. -/
def vbrdBody (d a b : BitVec 7) : Body := fun s =>
  match vbrdFind a b s with
  | .error p => .error p
  | .ok (xs, s2) => .ok (vbrdPut d s xs s2)

/-! Ordered blending (R267, R377). -/

/-- The checks of R377; the addresses of the lanes' counters. -/
def State.domainOpen (s : State) (k : AccKind) (a b : BitVec 7) : Except Stop (List (Nat × Loc) × State) :=
  let p := (s.rdS b.toNat).toNat
  if p % 32 ≠ 0 then trapA s eAlign p
  else match s.lineRead8 0 p 32 with
    | .error (.bad _ e x _) => trapA s e x
    | .error (.ask asks) => .error (.ask asks s)
    | .error .wait => waitE s .obld
    | .ok (v, s1) =>
      let w := field v 64 32
      let h := field v 96 32
      if field v 128 128 ≠ 0 || w = 0 || decide (65536 < w) || h = 0 || decide (65536 < h) || field v 0 2 ≠ 0 then
        trapA s eBaddraw p
      else
        let ls := lanesOf s.activeReal
        let px := fun l => ((s.lane a.toNat l).toNat, (s.lane (a.toNat + 1) l).toNat)
        let at_ := fun l => (field v 0 64 + 4 * ((px l).2 * w + (px l).1)) % 2 ^ 64
        let far := ls.filter (fun l => w ≤ (px l).1 || h ≤ (px l).2)
        let twice := ls.filter (fun l => ls.any (fun i => i ≠ l && px i = px l))
        let conds := fun (e : Err) (xs : List Nat) => (.trap (condInfo (xs.map (fun l => (l, e, at_ l)))) s : Stop)
        if far ≠ [] then .error (conds eRange far)
        else if twice ≠ [] then .error (conds eOrder twice)
        else match gather (fun l => s1.locate false k (.glob (at_ l)) 4) ls with
          | .error cs => .error (.trap (condInfo cs) s)
          | .ok locs => .ok (locs, s1)

/-- One lane's counter read atomically, and whether every lane so far has found its sequence (R267). -/
def obldStep (s : State) (a : BitVec 7) (acc : Bool × State) (x : Nat × Loc) : Bool × State :=
  let (v, s') : Nat × State := match x.2 with
    | .glob p t =>
      if leafKind t.leaf = 2 then ((match hostAns s.issue.resp 0 p 4 with
        | some (.ok v) => v % 2 ^ 32
        | _ => 0), acc.2.touch s.who (field p 0 57) t false)
      else let (bs, s') := acc.2.homeRead s.who (field p 0 57) 4 t false; (ofBytes bs, s')
    | _ => (0, acc.2)
  (acc.1 && decide (v = (s.lane (a.toNat + 2) x.1).toNat), s')

/-- OBLD: every lane's counter is read atomically; the lanes are granted together when each has reached its sequence.
Counters in host memory are polled. -/
def obldBody (a b : BitVec 7) : Body := fun s =>
  match s.domainOpen .read a b with
  | .error p => .error p
  | .ok (locs, s1) =>
    match lanesAsked s.issue.resp 0 (fun _ => 4) (fun _ p pa => askRead p 4 pa) locs with
    | .error cs => .error (.trap (condInfo cs) s)
    | .ok (q :: asks) => .error (.poll .obld (q :: asks) s)
    | .ok [] =>
      let (all, s2) := locs.foldl (obldStep s a) (true, s1)
      if all then .ok (s2.acquireL1 (s.coreOfWarp s.issue.warp))
      else
        let again := locs.filterMap (fun x => match x.2 with
          | .glob p t => if leafKind t.leaf = 2 then some (askRead p 4 t.pa) else none
          | _ => none)
        let i := s.issue
        if again = [] then waitE s .obld
        else .error (.poll .obld again { s with issue := { i with
          sent := i.sent.filter (fun r => r.n ≠ 4), resp := i.resp.filter (fun r => r.n ≠ 4) } })

/-- OBLE: each lane's counter rises by one, after a release at device scope. -/
def obleBody (a b : BitVec 7) : Body := fun s =>
  match s.domainOpen .write a b with
  | .error p => .error p
  | .ok (locs, s1) =>
    let key := fun l => 4 + 256 * (l + 1)
    match lanesAsked s.issue.resp 1 key (fun l p pa => ⟨1, p, key l, pa, 0, [1], [], none⟩) locs with
    | .error cs => .error (.trap (condInfo cs) s)
    | .ok (q :: asks) => .error (.ask (q :: asks) (s.releaseL1 (s.coreOfWarp s.issue.warp)))
    | .ok [] =>
      .ok ((s1.releaseL1 (s.coreOfWarp s.issue.warp)).updateLanes 4 (fun _ v => (v + 1, v)) locs).2

/-! Riddle jobs (R266, R346, R370). -/

/-- KSRT and BINC submit a job: a release at device scope. -/
def jobBody (kind : Nat) (a : BitVec 7) : Body := fun s =>
  let p := s.rdS a.toNat
  let core := s.coreOfWarp s.issue.warp
  let d := dieOf core
  if fieldOf p 0 6 ≠ 0 then trapA s eAlign p.toNat
  else if Config.jobDepth ≤ (s.die d).jobs.length then waitE s .riddle
  else
    let s := s.releaseL1 core
    let j : Job := ⟨s.ctxOfWarp s.issue.warp, p, kind, s.issue.warp, core, [], [], none⟩
    .ok (s.setDie d { s.die d with jobs := (s.die d).jobs ++ [j] })

/-- Why a job does not end with code 1: a code of R266 with the failing address, or the need of host memory. -/
inductive JobErr where
  | code (c addr : Nat)
  | ask (asks : List HostAsk)
deriving DecidableEq, Repr

def jobIo {α : Type} (x : Except EngErr α) : Except JobErr α :=
  match x with
  | .ok v => .ok v
  | .error (.bad _ a) => .error (.code 2 a)
  | .error (.ask q) => .error (.ask q)

/-- The n little-endian elements of w bytes of a run. -/
def elemsOf (w n : Nat) (bs : List Byte) : List Nat := (List.range n).map (fun i => ofBytes ((bs.drop (w * i)).take w))

/-- Whether two runs of bytes meet. -/
def meets (a n b m : Nat) : Bool := decide (0 < n) && decide (0 < m) && decide (a < b + m) && decide (b < a + n)

/-- KSRT: keys and payloads in ascending order of the low nbits key bits, stable. -/
def State.ksrt (s : State) (who : Who) (rs : List HostResp) (w j : Nat) : Except JobErr State :=
  let f := fun (i : Nat) => field j (64 * i) 64
  let n := field j 256 32
  let nbits := field j 288 7
  let va := fun (p : Nat) => field p 0 57
  let bad := n = 0 || decide (8 * w < nbits) || field j 295 153 ≠ 0 || f 0 % w ≠ 0 || f 2 % w ≠ 0 || f 1 % 4 ≠ 0
    || f 3 % 4 ≠ 0 || (decide (f 1 = 0) != decide (f 3 = 0))
    || meets (va (f 2)) (w * n) (va (f 0)) (w * n)
    || (f 1 ≠ 0 && (meets (va (f 2)) (w * n) (va (f 1)) (4 * n) || meets (va (f 3)) (4 * n) (va (f 0)) (w * n)
        || meets (va (f 3)) (4 * n) (va (f 1)) (4 * n)))
  if bad then .error (.code 3 0)
  else match jobIo (s.ioRead who rs (f 0) (w * n)) with
    | .error e => .error e
    | .ok (ks, s) => match (if f 1 = 0 then .ok ([], s) else jobIo (s.ioRead who rs (f 1) (4 * n))) with
      | .error e => .error e
      | .ok (vs, s) =>
        let m := if nbits = 0 then 8 * w else nbits
        let vals := elemsOf 4 n vs
        let keys := elemsOf w n ks
        let sorted := sortBy (fun (x y : Nat × Nat) => decide (x.1 % 2 ^ m ≤ y.1 % 2 ^ m))
          ((List.range n).map (fun i => (nth keys i 0, nth vals i 0)))
        match jobIo (s.ioWrite who rs (f 2) (sorted.flatMap (fun x => toBytes w x.1))) with
        | .error e => .error e
        | .ok s => if f 1 = 0 then .ok s else jobIo (s.ioWrite who rs (f 3) (sorted.flatMap (fun x => toBytes 4 x.2)))

/-- A patch of the held record or held copy of a context that carries a tag (R275, R354); the code of R266. -/
def State.patch (s : State) (d ctx tag v : Nat) : Nat × State :=
  let ls := (List.range s.launches.length).filterMap (fun l => match s.launches[l]? with
    | some x => if x.die = d && x.ctx = ctx && x.held && x.phase = .queued && recBytes x.record 104 8 = tag && tag ≠ 0 then
        some (x.order, some l) else none
    | none => none)
  let cs := s.cores.flatMap (fun c => if dieOf c.1 = d then
      (c.2.cq.flatten.filter (fun o => o.held && o.tag.toNat = tag && tag ≠ 0 && (s.launchOf o.blk).ctx = ctx)).map
        (fun o => (o.id, (none : Option Nat)))
    else [])
  let saved := s.blocks.flatMap (fun b => (b.savedOps.filter (fun o => o.2.held && o.2.tag.toNat = tag && tag ≠ 0
      && (nth s.launches b.launch (s.launchOf 0)).ctx = ctx && (nth s.launches b.launch (s.launchOf 0)).die = d)).map
      (fun o => (o.2.id, (none : Option Nat))))
  match sortBy (fun (x y : Nat × Option Nat) => decide (x.1 ≤ y.1)) (ls ++ cs ++ saved) with
  | [] => (5, s)
  | (_, some l) :: _ =>
    if 2 ^ 24 < v then (4, s)
    else match s.launches[l]? with
      | some x => (1, s.setLaunch l { x with gx := v, held := false })
      | none => (5, s)
  | (id, none) :: _ =>
    if 2 ^ 32 - 1 < v then (4, s)
    else
      let go := fun (o : EngOp) => if o.id = id then { o with len := v, held := false, tag := 0 } else o
      (1, { s with
        cores := s.cores.map (fun c => (c.1, { c.2 with cq := c.2.cq.map (fun q => q.map go) })),
        blocks := s.blocks.map (fun b => { b with savedOps := b.savedOps.map (fun o => (o.1, go o.2)) }) })

/-- The patch entries in order; the first code that is not 1 is kept. An entry whose bin is not below nb patches nothing and
gives code 3: R266 does not say what it does (DESIGN CHOICE, log entry 71). -/
def State.patches (s : State) (d ctx : Nat) (counts : List Nat) : List (Nat × Nat × Nat) → Nat × State
  | [] => (1, s)
  | (tag, bin, mult) :: r =>
    let (c, s) := if counts.length ≤ bin then (3, s) else s.patch d ctx tag (nth counts bin 0 * mult)
    let (c', s) := s.patches d ctx counts r
    (if c = 1 then c' else c, s)

/-- BINC: items counted by bin, counts written, patch entries applied. R266 gives the lists no alignment: the model asks that of
their elements, 4 bytes for keys and counts and 8 for the 16-byte patch entries, and a list that lacks it is code 2 with the
list's address (DESIGN CHOICE, log entry 71). -/
def State.binc (s : State) (d ctx : Nat) (who : Who) (rs : List HostResp) (j : Nat) : Except JobErr (Nat × State) :=
  let f := fun (i : Nat) => field j (64 * i) 64
  let n := field j 192 32
  let nb := field j 224 32
  let np := field j 256 32
  let shift := field j 288 8
  if nb = 0 || decide (65536 < nb) || decide (65536 < np) || decide (31 < shift) || field j 296 152 ≠ 0 then .error (.code 3 0)
  else if n ≠ 0 && f 0 % 4 ≠ 0 then .error (.code 2 (f 0))
  else if f 1 % 4 ≠ 0 then .error (.code 2 (f 1))
  else if np ≠ 0 && f 2 % 8 ≠ 0 then .error (.code 2 (f 2))
  else match jobIo (s.ioRead who rs (f 0) (4 * n)) with
    | .error e => .error e
    | .ok (ks, s) =>
      let bins := (elemsOf 4 n ks).map (fun k => min (k / 2 ^ shift) (nb - 1))
      let counts := (List.range nb).map (fun b => (bins.filter (fun x => x = b)).length)
      match jobIo (s.ioRead who rs (f 2) (16 * np)) with
      | .error e => .error e
      | .ok (ps, s) => match jobIo (s.ioWrite who rs (f 1) (counts.flatMap (fun c => toBytes 4 c))) with
        | .error e => .error e
        | .ok s =>
          let es := (List.range np).map (fun i =>
            let e := ofBytes ((ps.drop (16 * i)).take 16)
            (field e 0 64, field e 64 32, field e 96 32))
          .ok (s.patches d ctx counts es)

/-- The head job of a die runs to its end; then its status word is written, and the job is over when that has been
performed (R266). -/
def State.jobRun (s : State) (d : Nat) : State :=
  match (s.die d).jobs with
  | [] => s
  | j :: rest =>
    if !answeredAll j.reqs j.resp then s
    else
      let who := whoFab s d j.ctx
      let drop := fun (s : State) => s.setDie d { s.die d with jobs := (s.die d).jobs.drop 1 }
      let ask := fun (asks : List HostAsk) =>
        let (reqs, s) := (s.markAsks who asks).sendAsks d j.ctx asks
        s.setDie d { s.die d with jobs := { j with reqs := reqs } :: rest }
      let status := fun (s : State) (rs : List HostResp) (p st : Nat) => match s.ioWrite who rs p (toBytes 8 st) with
        | .ok s => drop s
        | .error (.bad _ _) => drop s
        | .error (.ask asks) =>
          let (reqs, s) := (s.markAsks who asks).sendAsks d j.ctx asks
          s.setDie d { s.die d with
            jobs := { j with reqs := reqs, resp := [], fin := some (BitVec.ofNat 64 p, BitVec.ofNat 64 st) } :: rest }
      match j.fin with
      | some (p, st) => status s j.resp p.toNat st.toNat
      | none =>
      match s.ioRead who j.resp j.addr.toNat 64 with
      | .error (.ask asks) => ask asks
      | .error (.bad _ _) => drop s
      | .ok (bs, s1) =>
        let v := ofBytes bs
        let done := fun (s : State) (c addr : Nat) =>
          let p := field v 448 64
          if p % 8 ≠ 0 then drop s else status s [] p (c + (if c = 2 then addr / 256 * 256 else 0))
        match (if j.kind = 2 then s1.binc d j.ctx who j.resp v
            else (s1.ksrt who j.resp (if j.kind = 1 then 8 else 4) v).map (fun s => (1, s))) with
        | .ok (c, s2) => done s2 c 0
        | .error (.ask asks) => ask asks
        | .error (.code c addr) => done s1 c addr

/-- CULL (R259, R358). -/
def execCull (d a b : BitVec 7) (s : State) : Out :=
  perform (wordDab 0x283 d a b) (cullBody d a b) s

/-- PEXP (R260, R378). -/
def execPexp (d a b : BitVec 7) (s : State) : Out :=
  perform (wordDab 0x284 d a b) (pexpBody d a b) s

/-- OBLD (R267, R377). -/
def execObld (a b : BitVec 7) (s : State) : Out :=
  perform (wordDab 0x285 0 a b) (obldBody a b) s

/-- OBLE (R267, R377). -/
def execOble (a b : BitVec 7) (s : State) : Out :=
  perform (wordDab 0x286 0 a b) (obleBody a b) s

/-- KSRT.k32 (R266, R370). -/
def execKsrtK32 (a : BitVec 7) (s : State) : Out :=
  perform (wordDab 0x287 0 a 0) (jobBody 0 a) s

/-- KSRT.k64 (R266, R370). -/
def execKsrtK64 (a : BitVec 7) (s : State) : Out :=
  perform (wordDab 0x288 0 a 0) (jobBody 1 a) s

/-- BINC (R266, R346). -/
def execBinc (a : BitVec 7) (s : State) : Out :=
  perform (wordDab 0x289 0 a 0) (jobBody 2 a) s

/-- VBRD (R264). -/
def execVbrd (d a b : BitVec 7) (s : State) : Out :=
  perform (wordDab 0x28A d a b) (vbrdBody d a b) s

end Sys2Proof.Machine
end

