-- ==== Sys2Proof/Machine/Work.lean ====
section
/-! DEFINITION. Work made on the device: FORK and FJOIN (R48, R51, R364, R365), launch records and their acceptance (R269 to
R272, R275), LNCH (R282). -/

namespace Sys2Proof.Machine

open Sys2Proof

/-! FORK and FJOIN. -/

/-- Whether a warp belongs to a task-pool launch (R47). -/
def State.taskPool (s : State) (w : Nat) : Bool := recKind (s.recOf (s.warp w).blk) = 2

/-- FORK (R48, R365). -/
def forkBody (d a b : BitVec 7) : Body := fun s =>
  let pc := s.rdS b.toNat
  let cnt := s.rdS (b.toNat + 1)
  let core := s.coreOfWarp s.issue.warp
  let answer := fun (s : State) (v : Nat) => s.wrS d.toNat (BitVec.ofNat 64 v)
  if fieldOf pc 0 2 ≠ 0 then trapA s eAlign pc.toNat
  else if fieldOf pc 57 3 ≠ 0 then trapA s eNoncanon pc.toNat
  else if cnt.toNat % 8 ≠ 0 then trapA s eAlign cnt.toNat
  else if !s.taskPool s.issue.warp
      || (decide (Config.dequeDepth ≤ (s.core core).deque.length) && (respOf s.issue.resp 1 cnt.toNat 8).isNone) then .ok (answer s 1)
  -- the host has counted the task already: its record waits for a place
  else if Config.dequeDepth ≤ (s.core core).deque.length then waitE s .slot
  else match s.ioAdd s.who s.issue.resp cnt.toNat 1 with
    | .error (.bad e x) => trapA s e x
    | .error (.ask asks) => .error (.ask asks s)
    | .ok (_, s') =>
      let t : Task := ⟨pc.setWidth 57, s.rdRun a.toNat, cnt, (s.block s.cw.blk).launch⟩
      let s' := s'.releaseL1 core
      let k := s'.core core
      .ok (answer (s'.setCore core { k with deque := t :: k.deque }) 0)

/-- FJOIN (R51, R364). -/
def fjoinBody (a : BitVec 7) : Body := fun s =>
  let p := (s.rdS a.toNat).toNat
  if p % 8 ≠ 0 then trapA s eAlign p
  else match s.atomicLoad .fjoin p with
    | .error e => .error e
    | .ok (c, s) => if c = 0 then .ok (s.acquireL1 (s.coreOfWarp s.issue.warp)) else s.pollAgain p .fjoin

/-! Launch records (R269, R271). -/

/-- Whether a record is malformed. -/
def recMalformed (r : Vec) : Bool :=
  let b := fun (i n : Nat) => recBytes r i n
  let x := recX r; let y := recY r; let z := recZ r; let g := recGang r
  let kind := recKind r
  let roles := recRoles r
  let counts := field roles 0 6 + field roles 6 6 + field roles 12 6
  let rv := b 42 2
  fieldOf r 94 2 ≠ 0 || fieldOf r 99 29 ≠ 0 || fieldOf r 233 23 ≠ 0 || fieldOf r 282 6 ≠ 0 || b 76 4 ≠ 0
    || fieldOf r 0 2 ≠ 0 || fieldOf r 57 7 ≠ 0
    || decide (1024 < x * y * z) || (recFlag r 7 && (z ≠ 1 || decide (1024 < recLanes r)))
    || (kind ≠ 1 && recGx r % g ≠ 0)
    || (decide (1 < g) && (kind = 1 || recFlag r 6))
    || (kind ≠ 1 && (recGy r = 0 || decide (2 ^ 24 < recGy r) || recGz r = 0 || decide (2 ^ 24 < recGz r) || decide (2 ^ 24 < recGx r)))
    || [18, 20, 22, 24].any (fun i => field roles i 2 = 3)
    || (counts ≠ 0 && counts ≠ recWarps r)
    || decide (512 < recAccRows r) || recAccRows r % 16 ≠ 0
    || (if kind = 3 then rv = 0 || decide (280 < rv) else rv ≠ 0)
    || (kind = 1 && b 48 8 = 0) || (recFlag r 7 && kind ≠ 0)
    || b 80 8 % 8 ≠ 0 || b 96 8 % 8 ≠ 0 || b 112 8 % 8 ≠ 0 || b 120 8 % 8 ≠ 0
    || b 64 8 % 4096 ≠ 0 || b 72 4 % 256 ≠ 0

/-- The status with which a queue of a die answers a record of a context (R282, R318); `assigned` says what the queue must
meet beside the context. -/
def State.acceptStatus (s : State) (d q ctx : Nat) (r : Vec) : Nat :=
  if alGet (s.die d).qctx q ≠ some ctx then 3
  else if recMalformed r then 2
  else if Config.launchDepth ≤ (nth (s.die d).queues q []).length then 1
  else 0

/-- A record enters a queue as a snapshot (R272); its launch ID is its place in the list of launches. -/
def State.accept (s : State) (d q ctx : Nat) (r : Vec) : State :=
  let l := s.launches.length
  let x : Launch :=
    { record := r, ctx := ctx, die := d, queue := q, held := recFlag r 8, gx := recGx r, phase := .queued, next := 0, total := 0,
      admitted := none, args := [], cover := [], leaves := [], status := 0, order := s.seq,
      reqs := [], resp := [] }
  let s := { s with launches := s.launches ++ [x], seq := s.seq + 1 }
  let die := s.die d
  s.setDie d { die with queues := die.queues.set q (nth die.queues q [] ++ [l]) }

/-- LNCH (R282). -/
def lnchBody (d a b : BitVec 7) : Body := fun s =>
  let p := s.rdS a.toNat
  let t := s.rdS b.toNat
  if fieldOf p 0 7 ≠ 0 then trapA s eAlign p.toNat
  else match s.lineRead8 0 p.toNat 128 with
    | .error (.bad _ e x _) => trapA s e x
    | .error (.ask asks) => .error (.ask asks s)
    | .error .wait => .ok s
    | .ok (v, s') =>
      let r : Vec := BitVec.ofNat 1024 v
      let ctx := s.ctxOfWarp s.issue.warp
      let die := fieldOf t 6 2
      let st := if fieldOf t 8 56 ≠ 0 then 3 else s'.acceptStatus die (fieldOf t 0 6) ctx r
      let s' := if st = 0 then (s'.releaseL1 (s.coreOfWarp s.issue.warp)).accept die (fieldOf t 0 6) ctx r else s'
      .ok (s'.wrS d.toNat (BitVec.ofNat 64 st))

/-- FORK (R48, R365). -/
def execFork (d a b : BitVec 7) (s : State) : Out :=
  perform (wordDab 0x2C0 d a b) (forkBody d a b) s

/-- FJOIN (R51, R364). -/
def execFjoin (a : BitVec 7) (s : State) : Out :=
  perform (wordDab 0x2C1 0 a 0) (fjoinBody a) s

/-- LNCH (R282). -/
def execLnch (d a b : BitVec 7) (s : State) : Out :=
  perform (wordDab 0x2C2 d a b) (lnchBody d a b) s

end Sys2Proof.Machine
end

