-- ==== Sys2Proof/Machine/Run.lean ====
section
/-! DEFINITION. The waiting instructions (R22, R54, R296) run again when what they wait for has come: their meanings by
opcode, for the events that grant them. -/

namespace Sys2Proof.Machine

open Sys2Proof

/-- The meaning of an instruction that may wait in state 3, from its word; any other word changes nothing. -/
def waitingRun (w : Word) (s : State) : Out :=
  match opOf w with
  | 0x00B => execYield (bits w 0 21) s
  | 0x00C => execWait (bits w 0 14) s
  | 0x00D => execMwait (bits w 7 7) (bits w 0 7) s
  | 0x012 => execRet s
  | 0x015 => execRgrow (bits w 14 7) s
  | 0x195 => execAtomAdd (bits w 14 7) (bits w 7 7) (bits w 0 7) s
  | 0x196 => execAtomMinS (bits w 14 7) (bits w 7 7) (bits w 0 7) s
  | 0x197 => execAtomMaxS (bits w 14 7) (bits w 7 7) (bits w 0 7) s
  | 0x198 => execAtomMinU (bits w 14 7) (bits w 7 7) (bits w 0 7) s
  | 0x199 => execAtomMaxU (bits w 14 7) (bits w 7 7) (bits w 0 7) s
  | 0x19A => execAtomAnd (bits w 14 7) (bits w 7 7) (bits w 0 7) s
  | 0x19B => execAtomOr (bits w 14 7) (bits w 7 7) (bits w 0 7) s
  | 0x19C => execAtomExch (bits w 14 7) (bits w 7 7) (bits w 0 7) s
  | 0x19D => execAtomCas (bits w 14 7) (bits w 7 7) (bits w 0 7) s
  | 0x19E => execAtomMaxi (bits w 14 7) (bits w 7 7) (bits w 0 7) s
  | 0x19F => execAtomq (bits w 14 7) (bits w 7 7) (bits w 0 7) s
  | 0x1A6 => execTfenceDie (bits w 7 7) (bits w 0 7) s
  | 0x1A7 => execTfenceDevice (bits w 7 7) (bits w 0 7) s
  | 0x1A8 => execTfenceSystem (bits w 7 7) (bits w 0 7) s
  | 0x1A9 => execQfence (bits w 0 14) s
  | 0x1C0 => execCopyG2s (bits w 7 7) s
  | 0x1C1 => execCopyS2g (bits w 7 7) s
  | 0x1C2 => execCopyG2g (bits w 7 7) s
  | 0x1C3 => execCopyIngot (bits w 7 7) s
  | 0x1C4 => execCopyHalo (bits w 7 7) s
  | 0x1C5 => execCopym (bits w 7 7) (bits w 0 7) s
  | 0x1C7 => execAbarWait (bits w 7 7) (bits w 0 7) s
  | 0x1C8 => execStgaProd (bits w 14 7) (bits w 7 7) s
  | 0x1C9 => execStgaCons (bits w 14 7) (bits w 7 7) s
  | 0x1CA => execStgrProd (bits w 7 7) (bits w 0 7) s
  | 0x1CB => execStgrCons (bits w 7 7) (bits w 0 7) s
  | 0x201 => execMwin (bits w 7 7) (bits w 0 7) s
  | 0x202 => execMzero (bits w 7 7) s
  | 0x203 => execMmaBf16 (bits w 14 7) (bits w 7 7) (bits w 0 7) s
  | 0x204 => execMmaF16 (bits w 14 7) (bits w 7 7) (bits w 0 7) s
  | 0x205 => execMmaE4m3 (bits w 14 7) (bits w 7 7) (bits w 0 7) s
  | 0x206 => execMmaE5m2 (bits w 14 7) (bits w 7 7) (bits w 0 7) s
  | 0x207 => execMmaT8 (bits w 14 7) (bits w 7 7) (bits w 0 7) s
  | 0x208 => execMmaT6 (bits w 14 7) (bits w 7 7) (bits w 0 7) s
  | 0x209 => execMmaxE2m1 (bits w 14 7) (bits w 7 7) (bits w 0 7) s
  | 0x20A => execMmaxE4m3 (bits w 14 7) (bits w 7 7) (bits w 0 7) s
  | 0x20B => execMsca (bits w 14 7) (bits w 7 7) (bits w 0 7) s
  | 0x20C => execMaccRd (bits w 14 7) (bits w 7 7) s
  | 0x20D => execMaccWr (bits w 7 7) (bits w 0 7) s
  | 0x20E => execMstaF32 (bits w 7 7) (bits w 0 7) s
  | 0x20F => execMstaBf16 (bits w 7 7) (bits w 0 7) s
  | 0x241 => execVldnS7 (bits w 14 7) (bits w 7 7) (bits w 0 7) s
  | 0x242 => execVldnS19 (bits w 14 7) (bits w 7 7) (bits w 0 7) s
  | 0x243 => execVldnB27 (bits w 14 7) (bits w 7 7) (bits w 0 7) s
  | 0x244 => execVldnLine (bits w 14 7) (bits w 7 7) (bits w 0 7) s
  | 0x246 => execTins (bits w 14 7) (bits w 7 7) (bits w 0 7) s
  | 0x280 => execTxb (bits w 7 7) (bits w 0 7) s
  | 0x281 => execTxsL (bits w 14 7) (bits w 7 7) (bits w 0 7) s
  | 0x282 => execTxsG (bits w 14 7) (bits w 7 7) (bits w 0 7) s
  | 0x284 => execPexp (bits w 14 7) (bits w 7 7) (bits w 0 7) s
  | 0x285 => execObld (bits w 7 7) (bits w 0 7) s
  | 0x287 => execKsrtK32 (bits w 7 7) s
  | 0x288 => execKsrtK64 (bits w 7 7) s
  | 0x289 => execBinc (bits w 7 7) s
  | 0x2C0 => execFork (bits w 14 7) (bits w 7 7) (bits w 0 7) s
  | 0x2C1 => execFjoin (bits w 7 7) s
  | 0x2C3 => execCollRed (bits w 7 7) s
  | 0x2C4 => execCollGather (bits w 7 7) s
  | 0x2C6 => execRst (bits w 14 7) (bits w 7 7) (bits w 0 7) s
  | 0x2C7 => execRred (bits w 14 7) (bits w 7 7) (bits w 0 7) s
  | _ => .next s

/-- What a strand in an entry waits for. -/
def State.waitOf (s : State) (w e : Nat) : Option Wait := ((s.warp w).runner e).bind Strand.wait

/-- A waiting instruction whose strand may go on tries again when it waits for one of these, and what it has asked of host
memory is answered. -/
def State.grant (s : State) (w e : Nat) (ks : List WaitKind) : Out :=
  let x := s.warp w
  match s.waitOf w e with
  | none => .next s
  | some v =>
    if decide (x.phase = .running) && x.stopped.isNone && decide ((s.block x.blk).resid = .resident) && ks.contains v.kind
        && v.answered && !x.stuck e v
    then s.retryWait waitingRun w e
    else .next s

/-- An instruction of a program strand that has issued goes on although its warp is stopped or in handler code: its effect is
that on the warp's program. A trap that it meets is not taken there: it is found again when the instruction issues anew. -/
def State.behindTrap (s : State) (w e : Nat) (f : State → Out) : Out :=
  let x := s.warp w
  if x.handlers = [] && x.stopped.isNone then f s
  else match f (s.setWarp w { x with handlers := [], stopped := none }) with
    | .next t =>
      let y := t.warp w
      if y.phase ≠ .running then .next t
      else if y.handlers = [] && y.stopped.isNone then
        .next (t.setWarp w { y with handlers := x.handlers, stopped := x.stopped })
      else .next (s.setWarp w (x.setStrand e ((x.strand e).map Strand.unissued)))
    | o => o

/-- Whether a memory instruction of a program strand that waits for its accesses may go on while its warp is stopped or in
handler code: it has issued, and what it has asked for has come. A fetch in the sampler queue is one of these (R182, R254). -/
def State.goesBehind (s : State) (w e : Nat) : Bool :=
  let x := s.warp w
  (x.handlers ≠ [] || x.stopped.isSome) && x.phase = .running && (s.block x.blk).resid = .resident
    && ((x.strand e).bind Strand.wait).any (fun v => v.underway && v.answered)

end Sys2Proof.Machine
end

