-- ==== Sys2Proof/Machine/EvWarp.lean ====
section
/-! DEFINITION. The steps that a warp takes of itself: merges of miss groups (R29, R30), waits that end (R22, R43, R51, R62,
R165, R183, R194, R231, R249, R254, R267, R339, R346, R352, R375, R408), wait limits (R296), exits and drains (R83, R360), tasks (R47
to R50), the Ladle's own moves (R74), pour permits (R215), and the delivery of faults (R289, R292, R295). -/

namespace Sys2Proof.Machine

open Sys2Proof

/-- A warp that may take a step: it runs, is not stopped, and its block is resident. -/
def State.warpLive (s : State) (w : Nat) : Bool :=
  let x := s.warp w
  decide (x.phase = .running) && x.stopped.isNone && decide ((s.block x.blk).resid = .resident) && !s.collFirst x.blk

/-! Miss groups (R29, R30). -/

/-- Whether the strand in an entry waits at a wait point of its miss group. -/
def Warp.atWaitPoint (x : Warp) (e : Nat) : Bool :=
  match (x.strand e).bind Strand.wait with
  | some v => v.kind = .miss
  | none => false

/-- The strand that the members of a miss group merge into: that of the lowest entry with the union of the masks, of the
kind and group that the entry had before the split. Its chain is still to be looked at where a transfer has led a member there
(R30, R93). -/
def Warp.mergedMiss (x : Warp) (ms : List Nat) (t : Strand) : Strand :=
  let m : Mask := ms.foldl (fun m f => match x.strand f with
    | some u => m ||| u.mask
    | none => m) 0
  { t with
    mask := m, kind := t.outer.1, group := t.outer.2, st := .ready, wait := none, ran := 0, waited := none,
    jumped := ms.any (fun f => (x.strand f).any (fun u => u.jumped)), permit := false, alone := false }

/-- The group of entry e merges when all of it waits at one PC; where its strands wait at different PCs, the one at the
lowest goes on alone (log entry 29). -/
def State.mergeMiss (s : State) (w e : Nat) : State :=
  let x := s.warp w
  let ms := x.missGroup e
  if ms = [] || !ms.all (fun f => x.atWaitPoint f && !x.held f) then s
  else
    let pcOf := fun (f : Nat) => match x.strand f with
      | some t => t.pc.toNat
      | none => 0
    let lowPc := ms.foldl (fun m f => min m (pcOf f)) (2 ^ 57)
    let first := (ms.find? (fun f => pcOf f = lowPc)).getD 0
    match x.strand first with
    | none => s
    | some t =>
      if ms.all (fun f => pcOf f = lowPc) then
        s.setWarp w ((ms.foldl (fun y f => y.setStrand f none) x).setStrand first (some (x.mergedMiss ms t)))
      else s.setWarp w (x.setStrand first (some { t with st := .ready, wait := none, alone := true }))

/-- MISS_GROUP_MERGE (R29, R30). -/
def execMissGroupMerge (w e : Nat) (s : State) : Out :=
  .next (if s.warpLive w && (s.warp w).handlers = [] then s.mergeMiss w e else s)

/-! Waits that end. -/

/-- Whether the memory instructions before a strand's chain let it issue again; a window instruction waits for those of the
warp's other strands. -/
def State.flightsClear (s : State) (w e : Nat) (t : Strand) (v : Wait) : Bool :=
  !(0x010 ≤ opOf v.word && opOf v.word ≤ 0x016 && (s.warp w).othersPending e) &&
  (match opInfo (opOf v.word) with
    | some i => (s.waitIssue w e v).passes i v.word
    | none => decide (t.flight = []))

/-- SCOREBOARD_CLEAR (R22, R28, R203, R291): the loads of a miss strand have come, the memory instructions before a chain let
it issue, or pending accumulator rows are written. -/
def execScoreboardClear (w e : Nat) (s : State) : Out :=
  if (s.waitOf w e).any (fun v => decide (v.kind = .board)) then s.grant w e [.board]
  else match (s.warp w).strand e with
  | none => .next s
  | some t => match t.wait with
    | none => .next s
    | some v =>
      if s.warpLive w && !(s.warp w).held e && (v.kind = .load || (v.kind = .flights && s.flightsClear w e t v)) then
        .next (s.setWarp w ((s.warp w).setStrand e (some { t with st := .ready, wait := none })))
      else .next s

/-- RGROW_GRANT (R62). -/
def execRgrowGrant (w e : Nat) (s : State) : Out := s.grant w e [.rgrow]
/-- STAGE_RING_GRANT (R43, R46). -/
def execStageRingGrant (w e : Nat) (s : State) : Out := s.grant w e [.ring]
/-- QFENCE_COMPLETION (R183). -/
def execQfenceCompletion (w e : Nat) (s : State) : Out := s.grant w e [.qfence]
/-- MWIN_APPLY (R194). -/
def execMwinApply (w e : Nat) (s : State) : Out := s.grant w e [.mwin]
/-- WEIGHT_CACHE_ENTRY_GRANT (R249). -/
def execWeightCacheEntryGrant (w e : Nat) (s : State) : Out := s.grant w e [.weight]
/-- OBLD_GRANT (R267). -/
def execObldGrant (w e : Nat) (s : State) : Out := s.grant w e [.obld]
/-- ABAR_WAIT_RESUME (R339). -/
def execAbarWaitResume (w e : Nat) (s : State) : Out := s.grant w e [.abar]
/-- FJOIN_RETURN (R51). -/
def execFjoinReturn (w e : Nat) (s : State) : Out := s.grant w e [.fjoin]
/-- MWAIT_RETURN (R239, R375). -/
def execMwaitReturn (w e : Nat) (s : State) : Out := s.grant w e [.mwait]
/-- YIELD_CONTINUATION (R165, R409). -/
def execYieldContinuation (w e : Nat) (s : State) : Out := s.grant w e [.yield]
/-- WAIT_PAUSE_END (R408). -/
def execWaitPauseEnd (w e : Nat) (s : State) : Out := s.grant w e [.pause]
/-- TINS_LOCK_RELEASE (R231). -/
def execTinsLockRelease (w e : Nat) (s : State) : Out := s.grant w e [.tins]
/-- ENGINE_QUEUE_ENTRY (R201, R352). -/
def execEngineQueueEntry (w e : Nat) (s : State) : Out := s.grant w e [.engineQueue]
/-- RIDDLE_JOB_QUEUE_ENTRY (R346). -/
def execRiddleJobQueueEntry (w e : Nat) (s : State) : Out := s.grant w e [.riddle]
/-- SAMPLER_FETCH_COMPLETION (R253, R254). A fetch is performed in its turn although its warp is stopped or in handler code. -/
def execSamplerFetchCompletion (w e : Nat) (s : State) : Out :=
  if s.goesBehind w e then s.behindTrap w e (fun s => s.retryWait waitingRun w e) else s.grant w e [.sample]

/-- BARHANG (R296): the count of a limited wait has reached ctl.barlim; the instruction traps with no effect, and the
arrival of a BAR or BARG is withdrawn. A TXS that waits for a weight-cache entry is not limited. -/
def execBarhang (w e : Nat) (s : State) : Out :=
  let x := s.warp w
  match s.waitOf w e with
  | none => .next s
  | some v =>
    if s.warpLive w && !x.held e && v.kind.limited && !(v.kind = .weight && opOf v.word ≠ 0x280) && x.barlim ≠ 0
        && decide (x.barlim.toNat ≤ s.clock - v.since)
    then .next ((s.waitIssue w e v).raise (TrapInfo.of (.barhang, 0)))
    else .next s

/-! Pour permits (R215). -/

/-- Whether the copy at the head of a queue asks for a permit before it is performed. -/
def EngOp.copyAsks (o : EngOp) : Bool :=
  decide (1048576 ≤ o.len) && (match o.kind with
    | .copy v _ _ _ => decide (v < 4)
    | .copym _ _ _ => decide (o.stage = 0)
    | _ => false)
/-- Whether the operation is a follow-on MMA that asks for a permit of its own (R214). -/
def EngOp.followAsks (o : EngOp) : Bool :=
  match o.kind with
  | .mat m => o.parent.isSome && m.needsPermit
  | _ => false

/-- The head operation of a queue, and its replacement. -/
def State.headOp (s : State) (core q : Nat) : Option EngOp := ((s.core core).queue q).head?
def State.putHead (s : State) (core q : Nat) (o : EngOp) : State :=
  let k := s.core core
  s.setCore core (k.setQueue q (match k.queue q with
    | _ :: r => o :: r
    | [] => []))
def State.popHead (s : State) (core q : Nat) : State :=
  let k := s.core core
  s.setCore core (k.setQueue q ((k.queue q).drop 1))

/-- POUR_PERMIT_GRANT (R215). -/
def execPourPermitGrant (p : PermitFor) (s : State) : Out :=
  match p with
  | .strand w e => match s.waitOf w e, (s.warp w).runner e with
    | some v, some t =>
      if v.kind = .permit && s.warpLive w && !(s.warp w).held e then
        (s.setWarp w ((s.warp w).setRunner e { t with permit := true })).grant w e [.permit]
      else .next s
    | _, _ => .next s
  | .copyHead core q => match s.headOp core (q % 4) with
    | some o => .next (if o.copyAsks && !o.held && !o.performed then s.putHead core (q % 4) { o with permit := true } else s)
    | none => .next s
  | .followOn core q => match s.headOp core (q % 4) with
    | some o =>
      let k := s.core core
      let go := fun (p : EngOp) => if p.parent = some o.id && p.followAsks then { p with permit := true } else p
      .next (s.setCore core { k with mq := k.mq.map (fun l => l.map go) })
    | none => .next s

/-! Exits and tasks (R47 to R50, R83, R360). -/

/-- A failing or host-bound update of a join counter by a warp that has no strand: a host cell is sent its update, a
condition of R143 or a nack drops it and is logged (log entry 49). -/
def State.joinDone (s : State) (w : Nat) (counter : DWord) : State :=
  let d := dieOf (s.coreOfWarp w)
  match s.ioAdd (s.whoOfWarp w) [] counter.toNat (2 ^ 64 - 1) with
  | .ok (_, s) => s
  | .error (.ask asks) =>
    let (reqs, s) := (s.markAsks (s.whoOfWarp w) asks).sendAsks d (s.ctxOfWarp w) asks
    s.post d false w reqs
  | .error (.bad _ a) => s.logError d (s.block (s.warp w).blk).launch a

/-- An exiting warp whose operations have completed performs its stores at die scope (R178). A warp of a task-pool launch then
becomes a free task warp, with its task's join counter decreased, and keeps its extended block until its next task starts,
since it does not leave (DESIGN CHOICE, log entry 47); any other leaves, and its block with the last of them. -/
def State.exitDrained (s : State) (w : Nat) : State :=
  let x := s.warp w
  let b := x.blk
  let s := s.releaseL1 (s.coreOfWarp w)
  if s.taskPool w then
    let s := match x.task with
      | some c => s.joinDone w c
      | none => s
    s.setWarp w { s.warp w with
      phase := .freeTask, task := none, engFaults := [], handlers := [], strands := [none, none, none, none] }
  else
    let s := s.dropWarp w
    if (s.block b).warps.all (fun v => (s.warp v).phase = .gone) then s.dropBlock b else s.settleBars b

/-- EXIT_DRAIN_COMPLETE (R49, R83, R360). A stopped operation whose fault no strand is left to take leaves its queue
(log entry 50). -/
def execExitDrainComplete (w : Nat) (s : State) : Out :=
  let x := s.warp w
  if x.phase = .exiting && (s.block x.blk).resid = .resident then
    let s' := s.dropOps (fun o => o.warp = w && o.stopped)
    if s'.opsOf w = [] then .next (s'.exitDrained w) else .next s
  else .next s

/-- REGISTER_DRAIN_COMPLETE (R83): the first register run that drains in a quarter becomes grantable. -/
def execRegisterDrainComplete (core quarter : Nat) (s : State) : Out :=
  let q := core * 4 + quarter % 4
  let k := s.quarter q
  .next (if k.draining = [] then s else s.setQuarter q { k with draining := k.draining.drop 1 })

/-! Warps at their start (R17, R36, R37, R58, R270). -/

/-- The place in the block of lane l of warp w (R17, R37): v0 to v3, whether the lane exists, and whether it lies in the
launch's rectangle. -/
def laneIndex (r : Vec) (w l : Nat) : (Nat × Nat × Nat × Nat) × Bool × Bool :=
  let i := 32 * w + l
  if recFlag r 7 then
    let qx := (recX r + 1) / 2
    let x := 2 * (i / 4 % qx) + i % 2
    let y := 2 * (i / 4 / qx) + i % 4 / 2
    ((i, x, y, 0), decide (i < recLanes r), decide (x < recX r) && decide (y < recY r))
  else ((i, i % recX r, i / recX r % recY r, i / (recX r * recY r)), decide (i < recLanes r), true)

/-- Lanes that exist and are covered (R36, R270): bit b × P + i of the coverage bitmap, all of them without one. -/
def laneCovered (r : Vec) (cover : List Byte) (b w l : Nat) : Bool :=
  if recBytes r 56 8 = 0 || !recFlag r 7 then true
  else
    let n := b * recLanes r + 32 * w + l
    (nth cover (n / 8) 0).getLsbD (n % 8)

/-- The live lanes of a warp, helper lanes included, and its helper lanes (R36). -/
def warpLanes (r : Vec) (cover : List Byte) (b w : Nat) : Mask × Mask :=
  let inside := maskOf (fun l => let (_, e, i) := laneIndex r w l; e && i)
  let real := maskOf (fun l => inside.getLsbD l && laneCovered r cover b w l)
  let uncovered := inside &&& ~~~real
  -- a lane outside the rectangle is a helper when its quad has a live lane that is not one
  let outside := maskOf (fun l => (laneIndex r w l).2.1 && !inside.getLsbD l
    && (List.range 4).any (fun i => real.getLsbD (l / 4 * 4 + i)))
  (inside ||| outside, uncovered ||| outside)

/-- v0 to v3 of a warp (R17, R37): zero in dead lanes. -/
def warpIndexRegs (r : Vec) (w : Nat) (lanes : Mask) : List (Nat × Vec) :=
  let put := fun (f : Nat × Nat × Nat × Nat → Nat) =>
    vecOf (fun l => if lanes.getLsbD l then BitVec.ofNat 32 (f (laneIndex r w l).1) else 0)
  spSet 0 (spSet 0 (spSet 0 (spSet 0 [] 0 (put (fun x => x.1))) 1 (put (fun x => x.2.1))) 2 (put (fun x => x.2.2.1))) 3
    (put (fun x => x.2.2.2))

/-- The window of R65 with no frames (R49, R58). -/
def Warp.freshWindow (x : Warp) : Warp :=
  { x with
    vb := 0, sb := 0, vf := min x.ring 120, vo := 0, sf := 48, so := 0, callers := [], spilled := 0, sptr := 0 }

/-- A task's warp at its start (R49). -/
def Warp.startTask (x : Warp) (r : Vec) (cover : List Byte) (b : Nat) (t : Task) : Warp :=
  let (lanes, helpers) := warpLanes r cover b x.idx
  let y := { x with ext := false }.freshWindow
  let idx := warpIndexRegs r x.idx lanes
  let vs := x.vregs.filter (fun p => 4 ≤ p.1 && decide (p.1 < 8 + y.ring))
  let ss := x.sregs.filter (fun p => 16 ≤ p.1)
  let ss := (List.range 4).foldl (fun r i => spSet 0 r i (nth t.args i 0)) ss
  { y with
    phase := .running, vregs := idx ++ vs, sregs := spSet 0 ss 4 t.counter,
    kregs := (List.range 7).foldl (fun k i => spSet 0 k (i + 1) lanes) [], lanes := lanes, helpers := helpers,
    strands := [some { Strand.start lanes t.entry with jumped := true }, none, none, none], handlers := [], stopped := none,
    engFaults := [], task := some t.counter }

/-- Whether a core has a free task warp, and of which launch. -/
def State.freeTasker (s : State) (core : Nat) : Option Nat :=
  firstSome (fun w =>
    let x := s.warp w
    if x.phase = .freeTask && (s.block x.blk).resid = .resident && (s.block x.blk).core = core then some (s.block x.blk).launch
    else none) (List.range s.warps.length)

/-- TASK_START (R49): an acquire at device scope. -/
def execTaskStart (w : Nat) (s : State) : Out :=
  let x := s.warp w
  let core := s.coreOfWarp w
  let l := (s.block x.blk).launch
  if x.phase = .freeTask && (s.block x.blk).resid = .resident then
    match (s.core core).deque.find? (fun t => t.launch = l) with
    | none => .next s
    | some t =>
      let k := s.core core
      let s := (s.setCore core { k with deque := k.deque.erase t }).acquireL1 core
      .next (s.setWarp w (x.startTask (s.recOf x.blk) (s.launchOf x.blk).cover (s.block x.blk).idx t))
  else .next s

/-- TASK_STEAL (R50): the tail record of the first deque in ring order that holds one of the launch. -/
def execTaskSteal (core : Nat) (s : State) : Out :=
  match s.freeTasker core with
  | none => .next s
  | some l =>
    if (s.core core).deque.any (fun t => t.launch = l) then .next s
    else
      let ring := (List.range 7).map (fun i => core / 8 * 8 + (core % 8 + i + 1) % 8)
      match ring.find? (fun c => (s.core c).deque.any (fun t => t.launch = l)) with
      | none => .next s
      | some c =>
        let ds := (s.core c).deque
        match ds.reverse.find? (fun t => t.launch = l) with
        | none => .next s
        | some t =>
          let s := s.setCore c { s.core c with deque := (ds.reverse.erase t).reverse }
          .next (s.setCore core { s.core core with deque := (s.core core).deque ++ [t] })

/-! The Ladle's own moves (R74): one that faults or must wait is abandoned. -/

/-- LADLE_OPTIONAL_SPILL (R74). Nothing is put above a spilled reserve of the warp's handlers (R82). -/
def execLadleOptionalSpill (w : Nat) (s : State) : Out :=
  if s.warpLive w && (s.warp w).handlers.all Handler.inReserve then match s.spillOldest w with
    | .ok s => .next s
    | .error _ => .next s
  else .next s
/-- LADLE_OPTIONAL_REFILL (R74). -/
def execLadleOptionalRefill (w : Nat) (s : State) : Out :=
  if s.warpLive w && decide ((s.warp w).spilled ≠ 0) then match s.refillNewest w [] (s.warp w).fits with
    | .ok s => .next s
    | .error _ => .next s
  else .next s

/-! Faults (R289, R292, R295). -/

/-- DEFERRED_FAULT_DELIVERY (R292): the strand has reached a chain that may not run ahead, which becomes rpc. -/
def execDeferredFaultDelivery (w e : Nat) (s : State) : Out :=
  match (s.warp w).strand e with
  | none => .next s
  | some t => match t.fault with
    | none => .next s
    | some f =>
      if (s.warp w).stopped.isSome || s.dueFault w ≠ some (e, none) then .next s
      else .next (s.takeDeferred w e f)

/-- ENGINE_FAULT_DELIVERY (R165, R183, R212, R289): the lowest entry first, faults in queue issue order. -/
def execEngineFaultDelivery (w : Nat) (s : State) : Out :=
  let x := s.warp w
  if s.warpLive w && x.handlers = [] then
    match s.dueFault w with
    | some (e, some f) => .next (s.takeFault w e f)
    | _ => .next s
  else .next s

/-- What a trap action does to a stopped warp: an answer on which ERET would trap is refused with ILLOP or ALIGN, and the
warp stays stopped (R294, R295). -/
def State.trapAnswer (s : State) (w : Nat) (act target : DWord) : Except Err State :=
  let x := s.warp w
  if x.stopped.isNone || (s.block x.blk).resid ≠ .resident then .ok s
  else if fieldOf act 2 62 ≠ 0 then .error (.illop, 0)
  else if act.toNat = 2 && fieldOf target 0 2 ≠ 0 then .error eAlign
  else .ok (s.answerStopped w act.toNat (target.setWidth 57))

/-- TRAP_ACTION (R294, R295): a refusal is a nack to the context's host. -/
def execTrapAction (w : Nat) (act target : DWord) (s : State) : Out :=
  match s.trapAnswer w act target with
  | .ok s => .next s
  | .error e =>
    let d := dieOf (s.coreOfWarp w)
    let ctx := s.ctxOfWarp w
    let c := (s.die d).ctx ctx
    .next (s.route c.host { Msg.blank with
      kind := 0x0E, cls := 0, conn := c.hconn, ctx := BitVec.ofNat 6 ctx, die := BitVec.ofNat 2 d, akey := c.akey,
      src := (s.die d).endpoint, status := BitVec.ofNat 16 (e.1.num + e.2 * 256), opnds := [BitVec.ofNat 64 w] })

end Sys2Proof.Machine
end

