-- ==== Sys2Proof/Machine/EvEngine.lean ====
section
/-! DEFINITION. The steps of the copy, matrix and collective engines, of the Runner and of the Ingot store's calendar: copies
(R351 to R354, R268), RST and RRED (R386), COPYM (R214), matrix operations (R201, R211, R212), COLL (R324, R325, R349, R350),
halos (R237, R238), load state and refresh (R152, R154), completion (R182). -/

namespace Sys2Proof.Machine

open Sys2Proof

/-! What a step of an operation leaves. -/

/-- Whether the operation at the head of a queue may be performed further. -/
def EngOp.ready (o : EngOp) : Bool := !o.stopped && !o.performed && !o.held && answeredAll o.reqs o.resp

/-- The operation stops at a fault, which goes to its warp (R212, R289, R354); with no strand left to take it, it leaves its
queue and the failure is logged (log entry 50). -/
def State.engFail (s : State) (core q : Nat) (o : EngOp) (mat : Bool) (e : Err) (a : Nat) : State :=
  let s := if e = eDiscarded then s.markDiscarded (s.whoOfWarp o.warp) a else s
  let x := s.warp o.warp
  if x.phase = .running && x.entries ≠ [] then
    let info := { TrapInfo.atAddr e a with
      copyF := !mat, matF := mat, fpc := o.chain, after := o.after, word := o.word, engine := true }
    (s.setWarp o.warp { x with engFaults := x.engFaults ++ [⟨o.entry, info, o.id⟩] }).putHead core q
      { o with stopped := true, reqs := [], resp := [] }
  else (s.dropOps (fun p => p.id = o.id || some p.id = o.parent)).logError (dieOf core) (s.block o.blk).launch a

/-- The operation waits for host memory or a remote die. -/
def State.engAsk (s : State) (core q : Nat) (o : EngOp) (asks : List HostAsk) : State :=
  let (reqs, s) := (s.markAsks (s.whoOfWarp o.warp) asks).sendAsks (dieOf core) (s.ctxOfWarp o.warp) asks
  s.putHead core q { o with reqs := reqs }

def State.engStop (s : State) (core q : Nat) (o : EngOp) (mat : Bool) (e : EngErr) : State :=
  match e with
  | .bad e a => s.engFail core q o mat e a
  | .ask asks => s.engAsk core q o asks

/-! Copies of bytes (R353). -/

/-- The tags of the granules of [p, p + n) take the pointer's tag (R163). -/
def State.putTags (s : State) (who : Who) (p n : Nat) : State :=
  (List.range ((n + 31) / 32)).foldl (fun s i =>
    match s.translate who (field (p + 32 * i) 0 57) true with
    | .ok t => if leafKind t.leaf < 2 then
        { s with tags := spSet 0 s.tags (t.pa / 32) (BitVec.ofNat 4 (field p 60 4)) } else s
    | .error _ => s) s

/-- Bytes of a copy stored at its position. -/
def State.copyPut (s : State) (o : EngOp) (variant opt : Nat) (w0 : Nat) (bs : List Byte) : Except EngErr State :=
  let core := s.coreOfWarp o.warp
  let at_ := (w0 + o.pos) % 2 ^ 64
  match variant with
  | 0 => s.engWrite o 0 at_ bs
  | 3 =>
    let d := dieOf core
    if s.ingotBad d (s.ctxOfWarp o.warp) at_ bs.length = some eRange then .error (.bad eRange at_)
    else .ok (s.setDie d { s.die d with ingot := bytesSet Config.memInit (s.die d).ingot at_ bs })
  | _ => (if opt = 1 then s.putTags (s.whoOfWarp o.warp) at_ bs.length else s).engWrite o 1 at_ bs

/-- The next bytes that a copy reads: those of one 128-byte line of its source, under one translation (R189); the elements
that an engine reads are of 8 bytes (R142). -/
def State.copyRead (s : State) (o : EngOp) (variant : Nat) (w1 : Nat) : Except EngErr (EngOp × State) :=
  let at_ := (w1 + o.pos + o.buf.length) % 2 ^ 64
  if at_ % 8 ≠ 0 then .error (.bad eAlign at_)
  else match s.engRead o (if variant = 1 then 0 else 1) at_ (min (128 - at_ % 128) (o.len - (o.pos + o.buf.length))) with
    | .error e => .error e
    | .ok (bs, s) => .ok ({ o with buf := o.buf ++ bs }, s)

/-- The bytes of a copy that lie in one 128-byte line of its destination (R153, R189, R353), written once they have been read:
a unit of a copy is a line of its source read or a line of its destination written. -/
def State.copyLine (s : State) (o : EngOp) (variant opt : Nat) (w0 w1 : Nat) : Except EngErr (EngOp × State) :=
  let n := min (128 - (w0 + o.pos) % 128) (o.len - o.pos)
  if o.buf.length < n then s.copyRead o variant w1
  else match s.copyPut o variant opt w0 (o.buf.take n) with
    | .error e => .error e
    | .ok s => .ok ({ o with pos := o.pos + n, buf := o.buf.drop n }, s)

/-! Colour-delta compression (R268). -/

/-- A surface descriptor. -/
structure Surface where
  data : Nat
  mode : Nat
  pitch : Nat
  clear : Nat
  t0 : Nat
deriving DecidableEq, Repr

/-- The descriptor that 32 bytes hold. -/
def surfaceOf (bs : List Byte) : Surface :=
  let v := ofBytes bs
  ⟨field v 0 64, field v 64 64, field v 128 32, field v 160 32, field v 192 32⟩

/-- The bytes of the descriptor at an address, or BADTEX where it is malformed. -/
def State.surface (s : State) (o : EngOp) (p : Nat) : Except EngErr (List Byte × State) :=
  match s.ioRead (s.whoOfWarp o.warp) o.resp p 32 with
  | .error e => .error e
  | .ok (bs, s) =>
    let f := surfaceOf bs
    if field (ofBytes bs) 224 32 ≠ 0 || f.pitch = 0 || f.data % 256 ≠ 0 then .error (.bad eBadtex p) else .ok (bs, s)

/-- Channel c of texel n of 256 raw bytes. -/
def chan (raw : List Byte) (n c : Nat) : Nat := (nth raw (4 * n + c) 0).toNat

/-- Minimum and width of each channel. -/
def chanMin (raw : List Byte) (c : Nat) : Nat := (List.range 64).foldl (fun m n => min m (chan raw n c)) 255
def chanMax (raw : List Byte) (c : Nat) : Nat := (List.range 64).foldl (fun m n => max m (chan raw n c)) 0

/-- The mode of a tile and the bytes that it uses. -/
def packTile (clear : Nat) (raw : List Byte) : Nat × List Byte :=
  if (List.range 64).all (fun n => ofBytes ((raw.drop (4 * n)).take 4) = clear) then (1, [])
  else
    let fits := fun (k : Nat) => (List.range 4).all (fun c => decide (chanMax raw c - chanMin raw c < 2 ^ k))
    match (List.range 8).find? fits with
    | none => (0, raw)
    | some k =>
      let base := (List.range 4).map (fun c => BitVec.ofNat 8 (chanMin raw c))
      let bits := (List.range 256).foldl (fun v i =>
        v + (chan raw (i / 4) (i % 4) - chanMin raw (i % 4)) * 2 ^ (k * i)) 0
      (2 + k, base ++ toBytes (32 * k) bits)

/-- The 256 raw bytes of a tile of a mode, from its slot; none for a reserved mode. -/
def unpackTile (clear mode : Nat) (slot : List Byte) : Option (List Byte) :=
  if mode = 0 then some slot
  else if mode = 1 then some ((List.range 64).flatMap (fun _ => toBytes 4 clear))
  else if mode < 10 then
    let k := mode - 2
    let v := ofBytes slot
    some ((List.range 256).map (fun i =>
      BitVec.ofNat 8 ((nth slot (i % 4) 0).toNat + field v (32 + k * i) k)))
  else none

/-- The second half of a tile's turn: the mode byte that the first half has left in `desc` behind n bytes of descriptors is
written for tile k of a surface. -/
def State.putMode (s : State) (o : EngOp) (f : Surface) (n k : Nat) : Except EngErr (EngOp × State) :=
  match s.engWrite o 1 ((f.mode + (f.t0 + k)) % 2 ^ 64) (o.desc.drop n) with
  | .error e => .error e
  | .ok s => .ok ({ o with pos := o.pos + 256, desc := o.desc.take n }, s)

/-- A third of a tile of COPY.s2g with opt 2, after its descriptor: the tile is read and packed behind its mode into `buf`, its
data is written, then its mode byte. -/
def State.compressTile (s : State) (o : EngOp) (w0 w1 : Nat) : Except EngErr (EngOp × State) :=
  if o.desc = [] then match s.surface o w0 with
    | .error e => .error e
    | .ok (bs, s) => .ok ({ o with desc := bs }, s)
  else
    let f := surfaceOf (o.desc.take 32)
    let k := o.pos / 256
    if 32 < o.desc.length then s.putMode o f 32 k
    else match o.buf with
      | [] => match s.engRead o 0 (w1 + o.pos) 256 with
        | .error e => .error e
        | .ok (raw, s) =>
          let (mode, bs) := packTile f.clear raw
          .ok ({ o with buf := BitVec.ofNat 8 mode :: bs }, s)
      | mode :: bs => match s.engWrite o 1 ((f.data + 256 * (f.t0 + k)) % 2 ^ 64) bs with
        | .error e => .error e
        | .ok s => .ok ({ o with desc := o.desc ++ [mode], buf := [] }, s)

/-- Whether the source's tiles meet the destination's over the n tiles copied; addresses have no tag (R6). -/
def surfacesMeet (d f : Surface) (n : Nat) : Bool :=
  let rs := fun (x : Surface) => [(field (x.data + 256 * x.t0) 0 57, 256 * n), (field (x.mode + x.t0) 0 57, n)]
  (rs d).any (fun a => (rs f).any (fun b => meets a.1 a.2 b.1 b.2))

/-- The bytes that a tile of a mode uses of its slot. -/
def slotBytes (mode : Nat) : Nat := if mode = 0 then 256 else if mode = 1 || 10 ≤ mode then 0 else 4 + 32 * (mode - 2)

/-- A part of a tile of COPY.g2g with opt 3, after its descriptors: its mode byte is read into `buf`, then its data, which is
unpacked there; the raw tile is written, then its mode byte. -/
def State.expandTile (s : State) (o : EngOp) (w0 w1 : Nat) : Except EngErr (EngOp × State) :=
  let here := decide (field w0 0 57 = field w1 0 57)
  if o.desc = [] then match s.surface o w0 with
    | .error e => .error e
    | .ok (db, s) => match s.surface o w1 with
      | .error e => .error e
      | .ok (fb, s) =>
        if !here && surfacesMeet (surfaceOf db) (surfaceOf fb) (o.len / 256) then .error (.bad eBadtex w1)
        else .ok ({ o with desc := db ++ fb }, s)
  else
    let d := surfaceOf (o.desc.take 32)
    let f := surfaceOf ((o.desc.drop 32).take 32)
    let k := o.pos / 256
    if 64 < o.desc.length then s.putMode o d 64 k
    else match o.buf with
      | [] => match s.engRead o 1 ((f.mode + (f.t0 + k)) % 2 ^ 64) 1 with
        | .error e => .error e
        | .ok (mb, s) => .ok (if here && decide (ofBytes mb = 0) then { o with pos := o.pos + 256 } else { o with buf := mb }, s)
      | [mb] => match s.engRead o 1 ((f.data + 256 * (f.t0 + k)) % 2 ^ 64) (slotBytes mb.toNat) with
        | .error e => .error e
        | .ok (slot, s) => match unpackTile f.clear mb.toNat slot with
          | none => .error (.bad eBadtex ((f.mode + (f.t0 + k)) % 2 ^ 64))
          | some raw => .ok ({ o with buf := raw }, s)
      | raw => match s.engWrite o 1 ((d.data + 256 * (d.t0 + k)) % 2 ^ 64) raw with
        | .error e => .error e
        | .ok s => .ok ({ o with desc := o.desc ++ [0], buf := [] }, s)

/-! COPY.halo, the sending side (R237). -/

/-- A computation of a tree walk as a step of an engine: the operation's answers stand in for those of a strand. -/
def State.engTree {α : Type} (s : State) (rs : List HostResp) (f : State → Tree α) : Except EngErr (α × State) :=
  match f { s with issue := { s.issue with resp := rs } } with
  | .ok (x, s') => .ok (x, { s' with issue := s.issue })
  | .error (.bad _ e a _) => .error (.bad e a)
  | .error .wait => .error (.ask [])
  | .error (.ask asks) => .error (.ask asks)

/-- The source leaf at an origin: its vmask and values. R237 asks no alignment of stree and dtree: a pointer is used as it is
(DESIGN CHOICE, log entry 70). -/
def State.haloSource (s : State) (who : Who) (desc : Nat) (u : Nat × Nat × Nat) : Tree (List Byte × List Byte) :=
  match s.treeBytes who 2 desc 128 with
  | .error e => .error e
  | .ok (bs, s) =>
    let h := treeHead (ofBytes bs)
    if descBad (ofBytes bs) then .error (.bad 300 eBadnode desc s)
    else match s.descend who h u 3 h.root with
      | .error e => .error e
      | .ok (v, s) =>
        if v.kind ≠ 0 then .error (.bad 700 eNoleaf desc s)
        else match s.treeBytes who 5 (ptrAdd v.leaf 64) 64 with
          | .error e => .error e
          | .ok (m, s) => match s.treeBytes who 5 (ptrAdd v.leaf 256) (512 * fmtBytes h.fmt) with
            | .error e => .error e
            | .ok (xs, s) => .ok ((m, xs), s)

/-- The leaves that a halo plan lists. -/
def planCount (plan : Nat) : Nat := field plan 256 32

/-- The peer entry for the target of a plan (R328). A die of the package itself that has none is reached over the die-to-die link
in the same way, for the context of the same number under its own access key (DESIGN CHOICE, log entry 52). -/
def State.haloPeer (s : State) (core ctx plan : Nat) : Option PeerEntry :=
  let pkg := BitVec.ofNat 16 (field plan 64 16)
  let die := field plan 80 2
  match ((s.die (dieOf core)).ctx ctx).peer pkg (BitVec.ofNat 2 die) (BitVec.ofNat 6 ctx) with
  | some p => some p
  | none =>
    if pkg ≠ s.sys.pkg then none
    else some { pkg := pkg, die := BitVec.ofNat 2 die, ctx := BitVec.ofNat 6 ctx, valid := true, res0 := false, cbase := 0,
                akey := ((s.die die).ctx ctx).akey, addr := (s.die die).endpoint }

/-- Leaf `o.pos` of a plan is read and sent as a message of kind 0x01, which is acknowledged when the leaf has been written
(R237, R316, R320). An origin outside the tree names a leaf that is missing; one whose coordinates are no multiples of 8 names
the leaf that holds it (DESIGN CHOICE, log entry 70). The entries of the list are elements of 8 bytes (R142). -/
def State.haloLeaf (s : State) (core q : Nat) (o : EngOp) (plan step : Nat) : Except EngErr (EngOp × State) :=
  let who := s.whoOfWarp o.warp
  let at_ := (field plan 192 64 + 8 * o.pos) % 2 ^ 64
  if at_ % 8 ≠ 0 then .error (.bad eAlign at_)
  else match s.ioRead who o.resp at_ 8 with
  | .error e => .error e
  | .ok (ob, s) =>
    let v := ofBytes ob
    let u := leafOrigin (field v 0 16, field v 16 16, field v 32 16)
    if [0, 16, 32].any (fun i => decide (16384 ≤ field v i 16)) then .error (.bad eNoleaf (field plan 0 64))
    else match hostAns o.resp 3 o.pos 0 with
    | some (.ok _) => .ok ({ o with pos := o.pos + 1 }, s)
    | some (.error e) => .error (.bad e (field plan 320 64))
    | none => match s.engTree o.resp (fun s => s.haloSource who (field plan 0 64) u) with
      | .error e => .error e
      | .ok ((vm, xs), s) => match s.haloPeer core (s.ctxOfWarp o.warp) plan with
        | none => .error (.bad (.prot, 11) (field plan 64 64))
        | some p =>
          let args := [BitVec.ofNat 64 (field plan 128 64), BitVec.ofNat 64 v, BitVec.ofNat 64 (field plan 320 64),
            BitVec.ofNat 64 (field plan 288 32 + o.pos), BitVec.ofNat 64 step]
          .error (.ask [⟨3, o.pos, 0, field plan 320 64, 0x1C4, args, vm ++ xs,
            some (peerConn p core q, p.addr, p.die, p.ctx, p.akey, false)⟩])

/-- The plan of a COPY.halo, read once when the copy is performed. -/
def State.haloPlan (s : State) (o : EngOp) (w0 : Nat) : Except EngErr (EngOp × State) :=
  if o.desc ≠ [] then .ok (o, s)
  else match s.ioRead (s.whoOfWarp o.warp) o.resp w0 64 with
    | .error e => .error e
    | .ok (bs, s) => .ok ({ o with desc := bs, reqs := [], resp := [] }, s)

/-- The step counter follows the last leaf, as a message of kind 0x0A (R237, R316). -/
def State.haloCounter (s : State) (core q : Nat) (o : EngOp) (plan step : Nat) : State :=
  match s.haloPeer core (s.ctxOfWarp o.warp) plan with
  | none => s
  | some p => (s.send (dieOf core) p.addr { Msg.blank with
      kind := 0x0A, cls := 0, conn := peerConn p core q, die := p.die, ctx := p.ctx, akey := p.akey,
      addr := BitVec.ofNat 64 (field plan 320 64), opnds := [BitVec.ofNat 64 step] }).2

/-! RST and RRED (R386). -/

/-- A lane's message. -/
def State.sendLane (s : State) (d : Nat) (p : PeerEntry) (conn : BitVec 32) (red : Bool) (op : Nat) (fence : Bool)
    (l : RemLane) : RemLane × State :=
  let m : Msg := { Msg.blank with
    kind := if red then 6 else 1, conn := conn, die := p.die, ctx := p.ctx, akey := p.akey, fence := fence, addr := l.addr,
    len := 4, op := if red then op else 0, opnds := if red then [l.data] else [],
    data := if red then [] else toBytes 4 l.data.toNat }
  let (psn, s) := s.send d p.addr m
  ({ l with sent := some ⟨3, l.addr, 4, conn, psn, p.addr⟩ }, s)

/-- The lanes not yet sent are sent in ascending order. -/
def State.sendLanes (s : State) (d : Nat) (p : PeerEntry) (conn : BitVec 32) (red : Bool) (op : Nat) (fence : Bool) :
    List RemLane → List RemLane × State
  | [] => ([], s)
  | l :: r =>
    let (l, s) := if l.sent.isNone && !l.acked then s.sendLane d p conn red op fence l else (l, s)
    let (ls, s) := s.sendLanes d p conn red op fence r
    (l :: ls, s)

/-- RST or RRED at the head of its queue: its messages are sent; it is performed once every lane is acknowledged. -/
def State.remoteStep (s : State) (core q : Nat) (o : EngOp) : State :=
  match o.kind with
  | .rem red op pkg die ctx fence qn ls =>
    if ls.all (fun l => l.acked) then s.putHead core q { o with performed := true }
    else if ls.all (fun l => l.acked || l.sent.isSome) then s
    else match ((s.die (dieOf core)).ctx (s.ctxOfWarp o.warp)).peer pkg die ctx with
      | none => s.engFail core q o false (.prot, 11) 0
      | some p =>
        if fence && (s.die (dieOf core)).otherClass (peerConn p core qn) 1 p.addr then s
        else
        let (ls, s) := s.sendLanes (dieOf core) p (peerConn p core qn) red op fence ls
        s.putHead core q { o with kind := .rem red op pkg die ctx fence qn ls }
  | _ => s

/-! COPY_PERFORM. -/

/-- Units that an operation of a copy queue still has: bytes, or leaves for COPY.halo. -/
def EngOp.left (o : EngOp) (total : Nat) : Bool := decide (o.pos < total)

/-- The next units of a copy, as many as `n` says: lines of 128 bytes, halves of tiles or leaves. -/
def State.copyUnits (s : State) (core q total : Nat) (unit : State → EngOp → Except EngErr (EngOp × State)) : Nat → State
  | 0 => s
  | n + 1 => match s.headOp core q with
    | none => s
    | some o =>
      if !o.left total || !o.ready then s
      else match unit s o with
        | .error e => s.engStop core q o false e
        | .ok (o, s) => (s.putHead core q { o with reqs := [], resp := [] }).copyUnits core q total unit n

/-- A copy `id` that has moved its last byte has been performed; that of a COPYM has landed (R214). -/
def State.copyEnd (s : State) (core q id total : Nat) (land : Bool) : State :=
  match s.headOp core q with
  | none => s
  | some o =>
    if o.id ≠ id || o.left total || !o.ready then s
    else s.putHead core q (if land then { o with stage := 1, permit := false } else { o with performed := true })

/-- R152 for a COPY.ingot at the head of its queue: whether it may start, and the loader that its arrival makes; none where
another launch is the loader. -/
def State.ingotGate (s : State) (d l : Nat) : Option (Bool × State) :=
  match (s.die d).loader with
  | none => some (false, s.setDie d { s.die d with loader := some l })
  | some k => if k = l then some ((s.die d).ingotLoad, s) else none

/-- COPY_PERFORM (R268, R352 to R354, R386): the operation at the head of copy queue q moves up to `lines` units, or all its
tiles. -/
def State.copyPerform (s : State) (core q lines : Nat) : State :=
  match s.headOp core q with
  | none => s
  | some o =>
    if !o.ready || (o.copyAsks && !o.permit) then s
    else match o.kind with
      | .rem _ _ _ _ _ _ _ _ => s.remoteStep core q o
      | .copy 4 w0 w1 _ =>
        match s.haloPlan o w0.toNat with
        | .error e => s.engStop core q o false e
        | .ok (o, s) =>
          let plan := ofBytes o.desc
          let s := (s.putHead core q o).copyUnits core q (planCount plan) (fun s o => s.haloLeaf core q o plan w1.toNat) (lines + 1)
          match s.headOp core q with
          | none => s
          | some o' => if o'.id ≠ o.id || o'.left (planCount plan) || !o'.ready then s
            else (s.haloCounter core q o' plan w1.toNat).putHead core q { o' with performed := true }
      | .copy 3 w0 w1 _ =>
        if o.len = 0 then s.putHead core q { o with performed := true }
        else match s.ingotGate (dieOf core) (s.block o.blk).launch with
          | none => s.engFail core q o false eIngot w0.toNat
          | some (false, s) => s
          | some (true, s) =>
            (s.copyUnits core q o.len (fun s o => s.copyLine o 3 0 w0.toNat w1.toNat) (lines + 1)).copyEnd core q o.id o.len false
      | .copy v w0 w1 opt =>
        let unit := fun (s : State) (o : EngOp) =>
          if opt = 2 then s.compressTile o w0.toNat w1.toNat
          else if opt = 3 then s.expandTile o w0.toNat w1.toNat
          else s.copyLine o v opt w0.toNat w1.toNat
        (s.copyUnits core q o.len unit (if 2 ≤ opt then o.len / 64 + 2 else lines + 1)).copyEnd core q o.id o.len false
      | .copym w0 w1 _ =>
        if o.stage ≠ 0 then s
        else (s.copyUnits core q o.len (fun s o => s.copyLine o 0 0 w0.toNat w1.toNat) (lines + 1)).copyEnd core q o.id o.len true
      | _ => s

/-- COPY_PERFORM (R353). -/
def execCopyPerform (core q lines : Nat) (s : State) : Out := .next (s.copyPerform core (q % 4) lines)

/-! The Ingot store (R152, R154). -/

/-- The launch whose COPY.ingot stands at the head of some copy queue of a die. -/
def State.ingotHeld (s : State) (d l : Nat) : Bool :=
  s.cores.any (fun c => decide (dieOf c.1 = d) && c.2.cq.any (fun q => match q.head? with
    | some o => !o.performed && decide ((s.block o.blk).launch = l) && (match o.kind with
      | .copy 3 _ _ _ => true
      | _ => false)
    | none => false))

/-- Whether a block of another launch stands on a die. -/
def State.foreignBlock (s : State) (d l : Nat) : Bool :=
  s.blocks.any (fun b => decide (dieOf b.core = d) && b.launch ≠ l && (b.resid = .resident || b.resid = .saving))

/-- INGOT_LOAD_STATE (R152). -/
def execIngotLoadState (die : Nat) (s : State) : Out :=
  .next (match (s.die die).loader with
  | some l =>
    if !(s.die die).ingotLoad && s.ingotHeld die l && !s.foreignBlock die l then
      s.setDie die { s.die die with ingotLoad := true }
    else s
  | none => s)

/-- BANK_REFRESH (R154): clocks pass until the next bank's refresh begins. -/
def execBankRefresh (die : Nat) (s : State) : Out :=
  .next (s.passClocks (Config.bankPeriod - s.calPhase die % Config.bankPeriod))
/-- BANK_REFRESH_END (R154): clocks pass until the refresh under way ends. -/
def execBankRefreshEnd (die : Nat) (s : State) : Out :=
  let p := s.calPhase die % Config.bankPeriod
  .next (if p < Config.bankRefresh then s.passClocks (Config.bankRefresh - p) else s)

/-! The matrix engine (R201, R211 to R214). -/

/-- FOLLOW_ON_MMA_ENTRY (R214): the follow-on of the COPYM at the head of a copy queue takes its place in its queue. -/
def execFollowOnMmaEntry (core q : Nat) (s : State) : Out :=
  match s.headOp core (q % 4) with
  | none => .next s
  | some o => match o.kind with
    | .copym _ _ m =>
      let n := 4 + dQ m.desc
      if o.stage ≠ 1 || decide (Config.queueDepth ≤ ((s.core core).queue n).length) then .next s
      else
        let child : EngOp :=
          { o with id := s.seq, kind := .mat m, len := 0, pos := 0, stage := 0, desc := [], buf := [], permit := false, parent := some o.id,
                   reqs := [], resp := [] }
        let s := s.putHead core (q % 4) { o with stage := 2, performed := true }
        let k := s.core core
        .next { (s.setCore core (k.setQueue n (k.queue n ++ [child]))) with seq := s.seq + 1 }
    | _ => .next s

/-- A matrix operation stops at a condition that group g meets (R211, R212). -/
def State.matFail (s : State) (core q mq : Nat) (o : EngOp) (m : MatOp) (g : Nat) (e : Err) (a : Nat) : State :=
  let s := s.engFail core q { o with pos := g } o.parent.isNone e a
  s.setWarp o.warp { s.warp o.warp with mprog := mprogOf g (mq % 2) m.op }

/-- An MSTA stores the groups that it has left, up to the first that meets a condition; host memory is asked for all of them
together (R189, R205, R211, R212). -/
def State.mstaPerform (s : State) (core q mq : Nat) (o : EngOp) (m : MatOp) : State :=
  let (k, bad, asks) := s.mstaReach o m (m.groups - o.pos) o.pos
  if asks ≠ [] then s.engAsk core q { o with stage := 1 } asks
  else match s.matGroups o m k o.pos with
    | .error (.bad e a) => s.matFail core q mq o m o.pos e a
    | .error (.ask asks) => s.engAsk core q { o with stage := 1 } asks
    | .ok s => match bad with
      | some (e, a) => s.matFail core q mq o m (o.pos + k) e a
      | none => s.putHead core q { o with pos := m.groups, performed := true, reqs := [], resp := [] }

/-- MATRIX_OPERATION_PERFORM (R201, R211, R212): the operation at the head of matrix queue mq commits its next group; an MSTA
stores all that it has left. -/
def execMatrixOperationPerform (core mq : Nat) (s : State) : Out :=
  let q := 4 + mq % 2
  match s.headOp core q with
  | none => .next s
  | some o => match o.kind with
    | .mat m =>
      if !o.ready || (o.followAsks && !o.permit) || s.matWaits o m then .next s
      else if m.isSta then .next (s.mstaPerform core q mq o m)
      else match s.matGroup o m o.pos with
        | .ok s =>
          .next (s.putHead core q { o with
            pos := o.pos + 1, performed := decide (m.groups ≤ o.pos + 1), reqs := [], resp := [] })
        | .error (.ask asks) => .next (s.engAsk core q o asks)
        | .error (.bad e a) => .next (s.matFail core q mq o m o.pos e a)
    | _ => .next s

/-! Completion (R182). -/

/-- ENGINE_OPERATION_COMPLETION (R182, R214): a performed operation at the head of its queue leaves it; a COPYM with its
follow-on. -/
def execEngineOperationCompletion (core eq : Nat) (s : State) : Out :=
  let q := eq % 6
  match s.headOp core q with
  | none => .next s
  | some o =>
    let child := (s.core core).mq.any (fun l => l.any (fun p => p.parent = some o.id))
    .next (if !o.performed || child then s else s.popHead core q)

/-! Collectives (R324, R349, R350). -/

/-- Step 1 of a COLL: the tile goes to the staging buffer and a request into the area, its sequence number last. -/
def State.collStage (s : State) (o : EngOp) (gather : Bool) (tile cnt seq grp : Nat) : Except EngErr State :=
  let who := s.whoOfWarp o.warp
  let rs := o.resp
  match s.ioRead who rs grp 64 with
  | .error e => .error e
  | .ok (gb, s) =>
    let g := ofBytes gb
    let area := field g 64 64
    match s.ioRead who rs ((area + 8) % 2 ^ 64) 4 with
    | .error e => .error e
    | .ok (cb, s) =>
      let c := ofBytes cb
      if c = 0 || decide (65536 < c) || 2 ^ Nat.log2 c ≠ c then .error (.bad eRange area)
      else match s.ioWrite who rs (field g 128 64) (s.scratchRead o.blk tile (4 * cnt)) with
        | .error e => .error e
        | .ok s => match s.ioAdd who rs area 1 with
          | .error e => .error e
          | .ok (k, s) =>
            let at_ := fun (i : Nat) => (area + 64 + 32 * (k % c) + i) % 2 ^ 64
            match s.ioWrite who rs (at_ 0) (toBytes 8 grp) with
            | .error e => .error e
            | .ok s => match s.ioWrite who rs (at_ 16) (toBytes 4 cnt ++ toBytes 12 (if gather then 1 else 0)) with
              | .error e => .error e
              | .ok s => (s.releaseL1 (s.coreOfWarp o.warp)).ioWrite who rs (at_ 8) (toBytes 8 seq)

/-- COLLECTIVE_REQUEST (R324, R350). A COLL whose launch has been killed ends with its step 1 (R304). -/
def execCollectiveRequest (core q : Nat) (s : State) : Out :=
  match s.headOp core (q % 4) with
  | none => .next s
  | some o => match o.kind with
    | .coll gather tile cnt seq _ grp =>
      if !o.ready || o.stage ≠ 0 then .next s
      else match s.collStage o gather tile cnt seq grp.toNat with
        | .ok s =>
          let gone := decide ((s.block o.blk).resid = .gone)
          .next (s.putHead core (q % 4) { o with stage := 1, performed := gone, reqs := [], resp := [] })
        | .error e => .next (s.engStop core (q % 4) o false e)
    | _ => .next s

/-- One arrival by an engine at an ABAR object (R324, R339). -/
def State.engArrive (s : State) (o : EngOp) (p : DWord) : Except EngErr State :=
  let x := objAddr p 0
  let core := s.coreOfWarp o.warp
  match x with
  | .glob a => match s.ioAtomic (s.whoOfWarp o.warp) o.resp a 16 0 0x1C6 [] (fun h => (abArrive x h).getD h) with
    | .error e => .error e
    | .ok (h, s') =>
      match hostAns o.resp 1 a 16 with
      | some _ => .ok s'
      | none => if (abArrive x h).isNone then .error (.bad eShape a)
        else .ok (if 3 ≤ abScope h then s'.releaseL1 core else s')
  | .scr a => match s.scratchLoc o.blk a 16 with
    | .error e => .error (.bad e a)
    | .ok (b, off) => match abArrive x (ofBytes (s.scratchRead b off 16)) with
      | none => .error (.bad eShape a)
      | some h => .ok (s.scratchWrite b off (toBytes 16 h))
  | .dirty a => .error (.bad eRange a)
  | .noSpace a => .error (.bad eNoncanon a)
  | .ing a => .error (.bad eRange a)

/-- The largest exponent of the finite nonzero values among some FP32 words. -/
def topExponent (xs : List Nat) : Option Int :=
  (xs.filterMap (fun x => match decodeF fp32 x with
    | .fin _ m e => if m = 0 then none else some ((Nat.log2 m : Int) + e)
    | _ => none)).foldl (fun (t : Option Int) e => some (match t with
      | some u => max u e
      | none => e)) none

/-- What COLL.red makes of one block of at most 256 elements, given each participant's words (R325). The service launch that
carries it out is a program; this says what its result must be. -/
def collBlock (cs : List (List Nat)) : List Nat :=
  let all := cs.flatten
  let has := fun (v : FVal) => all.any (fun x => decodeF fp32 x = v)
  let eb := topExponent all
  (List.range ((cs.map List.length).foldl max 0)).map (fun i =>
    if has .nan || (has (.inf false) && has (.inf true)) then canonNan fp32
    else if has (.inf false) then infBits fp32 false
    else if has (.inf true) then infBits fp32 true
    else match eb with
      | none => 0
      | some e =>
        let q := e - 38
        let term : Nat → Int := fun x => match decodeF fp32 x with
          | .fin s m f => let n : Int := ((roundShift .rne s m (q - f)).1 : Nat); if s then -n else n
          | _ => 0
        let y : Int := (cs.map (fun c => term (nth c i 0))).foldl (· + ·) 0
        if y = 0 then 0 else (finish fp32 .rne false (.num (decide (y < 0)) y.natAbs q)).bits)

/-- COLL.red over contributions of n blocks, and COLL.gather: the contributions in rank order (R325, R349). -/
def collSum (cs : List (List Nat)) : Nat → List Nat
  | 0 => []
  | n + 1 => collBlock (cs.map (List.take 256)) ++ collSum (cs.map (List.drop 256)) n
def collGather (cs : List (List Nat)) : List Nat := cs.flatten

/-- Step 3 of a COLL; none while the completion word is below the sequence number. -/
def State.collResult (s : State) (o : EngOp) (gather : Bool) (tile cnt seq : Nat) (abar : DWord) (grp : Nat) :
    Except EngErr (Option State) :=
  let who := s.whoOfWarp o.warp
  match s.ioRead who o.resp grp 64 with
  | .error e => .error e
  | .ok (gb, s) =>
    let g := ofBytes gb
    if field g 256 64 < seq then .ok none
    else
      let n := 4 * cnt * (if gather then field g 0 32 else 1)
      if recScratch (s.recOf o.blk) < tile + n then .error (.bad eRange tile)
      else match s.ioRead who o.resp (field g 128 64) n with
        | .error e => .error e
        | .ok (bs, s) => match (s.scratchWrite o.blk tile bs).engArrive o abar with
          | .error e => .error e
          | .ok s => .ok (some s)

/-- COLLECTIVE_RESULT_COPY (R324, R349). -/
def execCollectiveResultCopy (core q : Nat) (s : State) : Out :=
  match s.headOp core (q % 4) with
  | none => .next s
  | some o => match o.kind with
    | .coll gather tile cnt seq abar grp =>
      if !o.ready || (o.stage ≠ 1 && o.stage ≠ 3) || (s.block o.blk).resid ≠ .resident then .next s
      else match s.collResult o gather tile cnt seq abar grp.toNat with
        | .ok none => .next (s.putHead core (q % 4) { o with reqs := [], resp := [] })
        | .ok (some s) => .next (s.putHead core (q % 4) { o with stage := 2, performed := true, reqs := [], resp := [] })
        | .error e => .next (s.engStop core (q % 4) o false e)
    | _ => .next s

/-! Halos, the receiving side (R238). -/

/-- Bytes of an arrival bitmap. -/
def haloBytes (n : Nat) : Nat := ((n + 7) / 8 + 7) / 8 * 8

/-- The message that brought a delivery is acknowledged (R320). -/
def State.haloReply (s : State) (d : Nat) (l : HaloLeaf) : State :=
  match l.reply with
  | some m => s.answer d m { Msg.blank with kind := 0x0D }
  | none => s

/-- A delivery as it arrives; a step-counter update has only its record looked at. -/
def HaloJob.start (l : HaloLeaf) : HaloJob :=
  { leaf := l, stage := if l.reply.any (fun m => m.kind = 0x0A) then 5 else 0, ins := none, ptr := 0, ctr := 0, turns := 2,
    reqs := [], resp := [] }

/-- How a delivery goes on: at once, later, or not at all. -/
inductive HaloTurn where
  | on (j : HaloJob)
  | hold (j : HaloJob)
  | done
deriving DecidableEq, Repr

/-- The leaf at the origin of a delivery, inserted when it is missing, in one step (R231, R238). What cannot be inserted so goes on
access by access. -/
def State.haloInsert (s : State) (d : Nat) (j : HaloJob) : Except EngErr (HaloTurn × State) :=
  let who := whoFab s d j.leaf.ctx
  let desc := j.leaf.dtree.toNat
  let u := (j.leaf.lx.toNat, j.leaf.ly.toNat, j.leaf.lz.toNat)
  match s.ioRead who j.resp desc 128 with
  | .error e => .error e
  | .ok (bs, s) =>
    let dd := ofBytes bs
    let h := treeHead dd
    if descBad dd then .error (.bad eBadnode desc)
    else match State.insertFrom { s with issue := { s.issue with resp := j.resp } } who desc h (field dd 256 64) (field dd 320 64)
        u 3 h.root 0 with
      | .error .wait => .ok (.hold { j with resp := [] }, s)
      | .error (.bad _ e a _) => .error (.bad e a)
      | .error (.ask q) =>
        if q.all (fun a => a.kind = 0) then .error (.ask q)
        else .ok (.on { j with stage := 2, ins := some (Insert.start dd [0]), resp := [] }, s)
      | .ok ((st, _, p), s') =>
        .ok (.on { j with stage := if st = 2 then 8 else 3, ptr := p, resp := [] }, { s' with issue := s.issue })

/-- The next access of an insertion that goes on access by access. -/
def State.haloAccess (s : State) (d : Nat) (j : HaloJob) (r : Insert) : Except EngErr (HaloTurn × State) :=
  match r.out with
  | (_, st, _, p) :: _ => .ok (.on { j with stage := if st = 2 then 8 else 3, ptr := p, ins := none, resp := [] }, s)
  | [] => match State.insertStep { s with issue := { s.issue with resp := j.resp } } (whoFab s d j.leaf.ctx) j.leaf.dtree.toNat
      (j.leaf.lx.toNat, j.leaf.ly.toNat, j.leaf.lz.toNat) r with
    | .error .wait => .ok (.hold { j with resp := [] }, s)
    | .error (.bad _ e a _) => .error (.bad e a)
    | .error (.ask q) => .error (.ask q)
    | .ok (r', s') =>
      let j' := { j with ins := some r', resp := [] }
      .ok (if r'.blocked then .hold j' else .on j', { s' with issue := s.issue })

/-- A turn of a delivery (R238). Stage 0 reads the record: one that is too far ahead is held. 1 and 2 find the leaf or insert it. 3
writes it: the delivered bytes, as they are also where the trees' formats differ (DESIGN CHOICE, log entry 70). 4 sets the
arrival bit. 5 looks whether the next step's arrivals are all there: 6 clears them, and 7 advances the counter. 8 sets the
record's error bit; a record that cannot be reached is logged (log entry 52). -/
def State.haloTurn (s : State) (d : Nat) (j : HaloJob) : Except EngErr (HaloTurn × State) :=
  let who := whoFab s d j.leaf.ctx
  let rrec := j.leaf.rrec.toNat
  let next := fun (n : Nat) => HaloTurn.on { j with stage := n, resp := [] }
  let half := fun (v n : Nat) => field v 128 64 + n % 2 * haloBytes (field v 64 32)
  match j.stage with
  | 0 => match s.ioRead who j.resp rrec 24 with
    | .error e => .error e
    | .ok (rb, s) => .ok (if field (ofBytes rb) 0 63 + 2 < j.leaf.step then .hold { j with resp := [] } else next 1, s)
  | 1 => s.haloInsert d j
  | 2 => match j.ins with
    | some r => s.haloAccess d j r
    | none => .ok (next 1, s)
  | 3 => match s.ioWrite who j.resp (ptrAdd j.ptr 64) j.leaf.vmask with
    | .error e => .error e
    | .ok s => match s.ioWrite who j.resp (ptrAdd j.ptr 256) j.leaf.vals with
      | .error e => .error e
      | .ok s => .ok (next 4, s)
  | 4 => match s.ioRead who j.resp rrec 24 with
    | .error e => .error e
    | .ok (rb, s) =>
      let p := (half (ofBytes rb) j.leaf.step + j.leaf.bit / 8) % 2 ^ 64
      let bit := 2 ^ (8 * (p % 4) + j.leaf.bit % 8)
      match s.ioAtomic who j.resp (p / 4 * 4) 4 0 0x19B [BitVec.ofNat 64 bit] (fun x => x ||| bit) with
      | .error e => .error e
      | .ok (_, s) => .ok (next 5, s)
  | 5 => match s.ioRead who j.resp rrec 24 with
    | .error e => .error e
    | .ok (rb, s) =>
      let v := ofBytes rb
      let ctr := field v 0 64
      let exp := field v 64 32
      if 2 ^ 63 ≤ ctr || exp = 0 || j.turns = 0 then .ok (.done, s)
      else match s.ioRead who j.resp (half v (ctr + 1) % 2 ^ 64) (haloBytes exp) with
        | .error e => .error e
        | .ok (bits, s) =>
          .ok (if field (ofBytes bits) 0 exp ≠ 2 ^ exp - 1 then .done
            else .on { j with stage := 6, ctr := ctr, ptr := half v (ctr + 1) % 2 ^ 64, turns := j.turns - 1, resp := [] }, s)
  | 6 => match s.ioRead who j.resp rrec 24 with
    | .error e => .error e
    | .ok (rb, s) => match s.ioWrite who j.resp j.ptr (List.replicate (haloBytes (field (ofBytes rb) 64 32)) 0) with
      | .error e => .error e
      | .ok s => .ok (next 7, s)
  | 7 => match s.ioWrite who j.resp rrec (toBytes 8 (j.ctr + 1)) with
    | .error e => .error e
    | .ok s => .ok (next 5, s)
  | _ => match s.ioAtomic who j.resp (ptrAdd rrec 4) 4 0 0x19B [0x80000000] (fun x => x ||| 2 ^ 31) with
    | .error (.bad _ a) => .ok (.done, s.logError d 0 a)
    | .error e => .error e
    | .ok (_, s) => .ok (.done, s)

/-- The turns of a delivery until it is over, held or asks host memory: what is left of it. A fault sets the error bit. -/
def State.haloRun (s : State) (d : Nat) (j : HaloJob) : Nat → Option HaloJob × State
  | 0 => (some j, s)
  | n + 1 => match s.haloTurn d j with
    | .ok (.done, s) => (none, s.haloReply d j.leaf)
    | .ok (.hold j, s) => (some j, s)
    | .ok (.on j, s) => s.haloRun d j n
    | .error (.bad _ _) => s.haloRun d { j with stage := 8, ins := none, resp := [] } n
    | .error (.ask asks) =>
      let (reqs, s) := (s.markAsks (whoFab s d j.leaf.ctx) asks).sendAsks d j.leaf.ctx asks
      (some { j with reqs := reqs }, s)

/-- HALO_LEAF_DELIVERY (R238): the Runner takes up a delivery, or goes on with it. It begins none while another one is under way
in host memory. One for a context that is disabled is dropped (R327). -/
def execHaloLeafDelivery (die : Nat) (leaf : HaloLeaf) (s : State) : Out :=
  let x := s.die die
  let j := (x.halos.find? (fun j => j.leaf = leaf)).getD (HaloJob.start leaf)
  let others := x.halos.filter (fun k => k.leaf ≠ leaf)
  let put := fun (s : State) (js : List HaloJob) => s.setDie die { s.die die with halos := js }
  if !(x.ctx leaf.ctx).enabled then .next (((put s others).dropMsg die ((leaf.reply.map Msg.inPort).getD 4)).wake die)
  else if !answeredAll j.reqs j.resp || (j.reqs = [] && others.any (fun k => k.reqs ≠ [])) then .next (put s (others ++ [j]))
  else match s.haloRun die { j with reqs := [] } 4096 with
    | (none, s) => .next ((put s others).wake die)
    | (some j, s) => .next (put s (others ++ [j]))

end Sys2Proof.Machine
end

