-- ==== Sys2Proof/Machine/Room.lean ====
section
/-! DEFINITION. Room on a core (R18, R60, R146, R147, R276 to R278): what a block needs, what a core has left, where a block
fits, and the scratch partition. -/

namespace Sys2Proof.Machine

open Sys2Proof

/-- What a block needs of a core: its launch, the warps that stand with their registers, scratch granules, accumulator
rows; whether it belongs to a task-pool launch, and to a collective-service launch. -/
structure Need where
  launch : Nat
  warps : List (Nat × Nat)
  gran : Nat
  acc : Nat
  pool : Bool
  service : Bool
deriving DecidableEq, Repr

/-- What a core has in use: warps and registers of its quarters, granule runs, accumulator rows, the task-pool launch it
runs, and the service launch that reserved it. -/
structure Room where
  warps : List Nat
  regs : List Nat
  runs : List (Nat × Nat)
  acc : Nat
  pool : Option Nat
  svc : Option Nat
deriving DecidableEq, Repr

/-- Registers of a base code (R40). -/
def baseRegs (code : Nat) : Nat := if code = 0 then 64 else if code = 1 then 96 else 128

/-- Role code and base block of warp w (R40, R270): copy first, then matrix, then vector; bplain without roles. -/
def warpRole (r : Vec) (w : Nat) : Nat × Nat :=
  let f := recRoles r
  let c := field f 0 6
  let m := field f 6 6
  if c + m + field f 12 6 = 0 then (0, baseRegs (field f 24 2))
  else if w < c then (1, baseRegs (field f 18 2))
  else if w < c + m then (2, baseRegs (field f 20 2))
  else (3, baseRegs (field f 22 2))

/-- Granules of a block of a record (R146). -/
def recGran (r : Vec) : Nat := (recScratch r + 8191) / 8192

/-- What a new block of a launch needs. -/
def needOf (l : Nat) (r : Vec) : Need :=
  { launch := l, warps := (List.range (recWarps r)).map (fun w => (w, (warpRole r w).2)), gran := recGran r,
    acc := recAccRows r, pool := recKind r = 2, service := recKind r = 3 }

/-- What a block that exists needs: its warps that have not left, extended blocks included. -/
def State.blockNeed (s : State) (b : Nat) : Need :=
  let r := s.recOf b
  let ws := (s.block b).warps.filter (fun w => (s.warp w).phase ≠ .gone)
  { needOf (s.block b).launch r with warps := ws.map (fun w => ((s.warp w).idx, (s.warp w).allot)) }

/-- Warps and registers that a block puts on quarter q when its first quarter is q0. -/
def Need.load (n : Need) (q0 q : Nat) : Nat × Nat :=
  let ws := n.warps.filter (fun w => (q0 + w.1) % 4 = q)
  (ws.length, ws.foldl (fun a w => a + w.2) 0)

/-- A core with nothing on it but a reservation. -/
def Room.bare (svc : Option Nat) : Room :=
  { warps := [0, 0, 0, 0], regs := [0, 0, 0, 0], runs := [], acc := 0, pool := none, svc := svc }

/-- The lowest granule at which b consecutive ones below granule 36 are free. -/
def Room.gap (k : Room) (b : Nat) : Option Nat :=
  (List.range (37 - b)).find? (fun g => b = 0 || k.runs.all (fun r => r.2 = 0 || g + b ≤ r.1 || r.1 + r.2 ≤ g))

/-- Whether a block fits, with its first quarter q0 (R276). -/
def Room.fits (k : Room) (n : Need) (q0 : Nat) : Bool :=
  (List.range 4).all (fun q => let (a, r) := n.load q0 q
    nth k.warps q 0 + a ≤ Config.slotsPerQuarter && nth k.regs q 0 + r ≤ Config.allottable)
  && (k.gap n.gran).isSome && decide (k.acc + n.acc ≤ Config.accRows)
  && (!n.pool || k.pool.all (fun l => l = n.launch))
  && (if n.service then k.svc = some n.launch else k.svc.isNone)

/-- The core with the block counted. -/
def Room.with (k : Room) (n : Need) (q0 : Nat) : Room :=
  { k with
    warps := (List.range 4).map (fun q => nth k.warps q 0 + (n.load q0 q).1),
    regs := (List.range 4).map (fun q => nth k.regs q 0 + (n.load q0 q).2),
    runs := k.runs ++ [((k.gap n.gran).getD 0, n.gran)], acc := k.acc + n.acc,
    pool := if n.pool then some n.launch else k.pool }

/-- The blocks that hold a core's resources. -/
def State.blocksAt (s : State) (core : Nat) : List Nat :=
  (List.range s.blocks.length).filter (fun b => (s.block b).core = core && s.onCore b)

/-- What a core has in use, without the blocks named; draining registers count (R83). -/
def State.roomOf (s : State) (core : Nat) (without : List Nat) : Room :=
  let bs := (s.blocksAt core).filter (fun b => !without.contains b)
  let k := bs.foldl (fun (k : Room) b =>
    let n := s.blockNeed b
    let x := s.block b
    { k with
      warps := (List.range 4).map (fun q => nth k.warps q 0 + (n.load x.q0 q).1),
      regs := (List.range 4).map (fun q => nth k.regs q 0 + (n.load x.q0 q).2),
      runs := k.runs ++ [(x.gran, x.ngran)], acc := k.acc + n.acc, pool := if n.pool then some n.launch else k.pool })
    (Room.bare (s.core core).svc)
  { k with regs := (List.range 4).map (fun q =>
      nth k.regs q 0 + ((s.quarter (core * 4 + q)).draining.foldl (fun a d => a + d.2) 0)) }

/-- The cores of a die from one of them on, and the quarters from one on. -/
def coresFrom (d core : Nat) : List Nat := (List.range 280).map (fun i => d * 280 + (core + i) % 280)
def quartersFrom (q0 : Nat) : List Nat := (List.range 4).map (fun i => (q0 + i) % 4)

/-- A first quarter with which a block fits on a core. -/
def Room.place (k : Room) (n : Need) (q0 : Nat) : Option Nat := (quartersFrom q0).find? (fun q => k.fits n q)

/-- Room with c blocks of one need whose first quarters are as counted, or none where they do not all fit. -/
def Room.fill (k : Room) (n : Need) (q0 : Nat) : Nat → Option Room
  | 0 => some k
  | c + 1 => if k.fits n q0 then (k.with n q0).fill n q0 c else none

/-- The first quarters of as many blocks of one need as fit on a core together, at most `top` of them: the best choice
among all ways to spread their first quarters. -/
def Room.most (k : Room) (n : Need) (top : Nat) : List Nat :=
  let counts := List.range (min top (if n.warps = [] then top else Config.slotsPerQuarter) + 1)
  let better := fun (a b : List Nat) => if a.length < b.length then b else a
  counts.foldl (fun best a => match k.fill n 0 a with
    | none => best
    | some k1 => counts.foldl (fun best b => match k1.fill n 1 b with
      | none => best
      | some k2 => counts.foldl (fun best c => match k2.fill n 2 c with
        | none => best
        | some k3 => counts.foldl (fun best d => match k3.fill n 3 d with
          | none => best
          | some _ => better best
            ((List.replicate a 0 ++ List.replicate b 1 ++ List.replicate c 2 ++ List.replicate d 3).take top)) best) best)
      best) []

/-- Places for `count` blocks of one need on some of a die's cores together, or none (R277). -/
def spread (rooms : List (Nat × Room)) (n : Need) (count : Nat) : Option (List (Nat × Nat)) :=
  let ps := rooms.foldl (fun acc (c, k) =>
    if count ≤ acc.length then acc else acc ++ (k.most n (count - acc.length)).map (fun q => (c, q))) []
  if ps.length = count then some ps else none

/-- Places on distinct ones of some cores for blocks in order, the blocks `gone` left out of the count. -/
def State.distinctPlaces (s : State) (gone : List Nat) (q0 : Nat) : List Need → List Nat → Option (List (Nat × Nat))
  | [], _ => some []
  | n :: r, cs => match firstSome (fun c => ((s.roomOf c gone).place n q0).map (fun q => (c, q))) cs with
    | none => none
    | some (c, q) => (s.distinctPlaces gone q0 r (cs.filter (fun x => x ≠ c))).map (fun ps => (c, q) :: ps)

/-- Places for a gang: distinct cores of one cluster, that of `core` first unless the gang has blocks in another, cores in
use by the gang left out (R18). -/
def State.gangPlaces (s : State) (gone : List Nat) (d core q0 : Nat) (only : Option Nat) (used : List Nat) (ns : List Need) :
    Option (List (Nat × Nat)) :=
  let cls := match only with
    | some cl => [cl]
    | none => (List.range Config.clustersPerDie).map (fun i => d * 35 + (core % 280 / 8 + i) % 35)
  firstSome (fun cl => s.distinctPlaces gone q0 ns
    (((List.range 8).map (fun i => cl * 8 + (core % 8 + i) % 8)).filter (fun c => !used.contains c))) cls

/-- The scratch partition takes a block of b granules (R146, R147): the granule it begins at, with the lines of the ways
that become scratch removed. -/
def State.takeScratch (s : State) (core b : Nat) : Nat × State :=
  let k := s.core core
  let g := ((s.roomOf core []).gap b).getD 0
  let p := if s.blocksAt core = [] then b else max k.part (g + b)
  let s := s.removeLines core (fun l => decide (l.way < p))
  (g, s.setCore core { s.core core with part := p })

/-- The lowest warp slot of a quarter that is free, those of the list being taken too (R16). -/
def State.freeSlot (s : State) (core quarter : Nat) (also : List Nat) : Nat :=
  let used := (s.blocksAt core).flatMap (fun b => ((s.block b).warps.filter (fun w =>
    (s.warp w).phase ≠ .gone && (s.warp w).quarter = quarter)).map (fun w => (s.warp w).slot))
  ((List.range Config.slotsPerQuarter).find? (fun n => !used.contains n && !also.contains n)).getD 0

/-- Quarter and slot for warps by index, on a core where they are to stand. -/
def State.seats (s : State) (core q0 : Nat) : List Nat → List (Nat × Nat) → List (Nat × Nat)
  | [], acc => acc
  | i :: r, acc =>
    let q := (q0 + i) % 4
    s.seats core q0 r (acc ++ [(q, s.freeSlot core q ((acc.filter (fun p => p.1 = q)).map Prod.snd))])

end Sys2Proof.Machine
end

