-- ==== Sys2Proof/Machine/Suspend.lean ====
section
/-! DEFINITION. Pre-emption, saving, resumption and migration of blocks (R54, R79, R152, R180, R213, R300 to R303). -/

namespace Sys2Proof.Machine

open Sys2Proof

/-! Engine operations (R300). -/

/-- Whether an operation in flight runs to its end: RRED, step 1 of COLL, an RST some of whose messages have gone. -/
def EngOp.runsOn (o : EngOp) : Bool :=
  !o.stopped && (match o.kind with
    | .coll _ _ _ _ _ _ => decide (o.stage = 0)
    | .rem red _ _ _ _ _ _ ls => red || ls.any (fun l => l.sent.isSome)
    | _ => false)

/-- An operation that is cancelled: a copy begins again with its first byte, a matrix operation with its group. -/
def EngOp.cancelled (o : EngOp) : EngOp :=
  let o := { o with reqs := [], resp := [] }
  match o.kind with
  | .copy _ _ _ _ => if o.performed then o else { o with pos := 0, desc := [], buf := [], permit := false }
  | .copym _ _ _ => if o.stage = 0 then { o with pos := 0, buf := [], permit := false } else o
  | _ => o

/-- A queue without a block's operations, but for those in flight that run on; and those that leave it, in order. -/
def cutQueue (b : Nat) : List EngOp → Bool → List EngOp × List EngOp
  | [], _ => ([], [])
  | o :: r, cut =>
    if o.blk ≠ b then let (k, v) := cutQueue b r cut; (o :: k, v)
    else if !cut && o.runsOn then let (k, v) := cutQueue b r cut; (o :: k, v)
    else let (k, v) := cutQueue b r true; (k, o.cancelled :: v)

/-- A launch that is pre-empted is no loader: its die's Ingot store returns to read state and its loads are cancelled
(R152). -/
def State.endLoad (s : State) (l : Nat) : State :=
  if s.dies.any (fun d => d.loader = some l) then
    let go := fun (o : EngOp) => match o.kind with
      | .copy 3 _ _ _ => if (s.block o.blk).launch = l && !o.performed then { o with pos := 0, desc := [], buf := [], reqs := [], resp := [] } else o
      | _ => o
    { s with
      dies := s.dies.map (fun d => if d.loader = some l then { d with loader := none, ingotLoad := false } else d),
      cores := s.cores.map (fun c => (c.1, { c.2 with cq := c.2.cq.map (fun q => q.map go) })) }
  else s

/-- A resident block stops: its warps are halted and its engine operations leave their queues (R300, R301). -/
def State.beginSave (s : State) (b : Nat) : State :=
  let x := s.block b
  if x.resid ≠ .resident then s
  else
    let k := s.core x.core
    let parts := (List.range 6).map (fun q => (q, cutQueue b (k.queue q) false))
    let s := s.setCore x.core (parts.foldl (fun k p => k.setQueue p.1 p.2.1) k)
    let s := s.setBlock b { x with resid := .saving, savedOps := parts.flatMap (fun p => p.2.2.map (fun o => (p.1, o))) }
    x.warps.foldl (fun s w => s.setWarp w (s.warp w).halted) s

/-- Whether every operation of a stopping block that must complete has completed. -/
def State.saveDone (s : State) (b : Nat) : Bool :=
  let x := s.block b
  (s.core x.core).ops.all (fun o => o.blk ≠ b || o.performed || !o.runsOn) &&
  x.warps.all (fun w => !(s.warp w).mustEnd)

/-- A warp's reserve is saved with it and the quarter's is free (R301, R303). -/
def State.saveReserve (s : State) (w : Nat) : State :=
  let q := s.quarterOf w
  let k := s.quarter q
  let s := if k.owner = some w then s.setWarp w { s.warp w with resv := some (k.rv, k.rs) } else s
  if k.owner = some w || k.spilledOwners.contains w then
    s.setQuarter q { k with
      owner := if k.owner = some w then none else k.owner, rv := if k.owner = some w then [] else k.rv,
      rs := if k.owner = some w then [] else k.rs, spilledOwners := k.spilledOwners.filter (fun o => o ≠ w) }
  else s

/-- The block leaves its core with its state saved (R303); the deque records of its launch go with the last of its blocks
there (R54). A release precedes (R180). -/
def State.endSave (s : State) (b : Nat) : State :=
  let x := s.block b
  let k := s.core x.core
  let left := (List.range 6).flatMap (fun q => ((k.queue q).filter (fun o => o.blk = b)).map (fun o => (q, o)))
  let last := ((s.blocksAt x.core).filter (fun c => c ≠ b && (s.block c).launch = x.launch)).isEmpty
  let tasks := if last then k.deque.filter (fun t => t.launch = x.launch) else []
  let drop := fun (qs : List (List EngOp)) => qs.map (fun q => q.filter (fun o => o.blk ≠ b))
  let s := s.setCore x.core { k with
    cq := drop k.cq, mq := drop k.mq, deque := if last then k.deque.filter (fun t => t.launch ≠ x.launch) else k.deque }
  let s := (x.warps.foldl State.saveReserve s).releaseL1 x.core
  s.setBlock b { s.block b with resid := .saved, savedOps := left ++ x.savedOps, tasks := tasks }

/-! Resumption (R302). -/

/-- Whether the reserves that a block's handlers hold find their quarters' reserves free. -/
def State.reservesFree (s : State) (b core q0 : Nat) : Bool :=
  (s.block b).warps.all (fun w => (s.warp w).resv.isNone ||
    (s.quarter (core * 4 + (q0 + (s.warp w).idx) % 4)).owner.isNone)

/-- The owners of the reserves that stand spilled on a quarter, latest first (R82). -/
def State.spilledOn (s : State) (q : Nat) : List Nat :=
  (sortBy (fun (a b : Nat × Nat) => decide (b.1 ≤ a.1)) ((s.warpsAt q).flatMap (fun w =>
    ((s.warp w).handlers.filter (fun h => !h.inReserve)).map (fun h => (h.spillNo, w))))).map Prod.snd

/-- A warp takes its seat, and its handler the reserve that it had. -/
def State.seatWarp (s : State) (core w : Nat) (seat : Nat × Nat) : State :=
  let x := s.warp w
  let q := core * 4 + seat.1
  let s := match x.resv with
    | some (rv, rs) => s.setQuarter q { s.quarter q with owner := some w, rv := rv, rs := rs }
    | none => s
  s.setWarp w { x with quarter := seat.1, slot := seat.2, resv := none }

/-- An operation of a block that is resumed: the block's strands continue after step 3 of a COLL (R324). -/
def EngOp.resumed (o : EngOp) : EngOp :=
  match o.kind with
  | .coll _ _ _ _ _ _ => if o.stage = 1 then { o with stage := 3 } else o
  | _ => o

/-- A saved block stands on a core again: its scratch granules, warps, operations, deque records and sampler slots; an
acquire follows (R180). -/
def State.resumeBlock (s : State) (b core q0 : Nat) : State :=
  let x := s.block b
  let n := recGran (s.recOf b)
  let live := x.warps.filter (fun w => (s.warp w).phase ≠ .gone)
  let (g, s) := s.takeScratch core n
  let seats := s.seats core q0 (live.map (fun w => (s.warp w).idx)) []
  let s := (s.acquireL1 core).setBlock b { x with
    core := core, q0 := q0, resid := .resident, gran := g, ngran := n, savedOps := [], tasks := [],
    slots := x.slots.map (fun p => (p.1, { p.2 with installed := false })) }
  let s := (live.zip seats).foldl (fun s p => s.seatWarp core p.1 p.2) s
  -- the reserves that were spilled stand again in the order of their spills
  let s := [0, 1, 2, 3].foldl (fun s i =>
    let q := core * 4 + i
    if (s.quarter q).spilledOwners = s.spilledOn q then s else s.setQuarter q { s.quarter q with spilledOwners := s.spilledOn q }) s
  -- a queue that comes back with an MSTA half stored stands before what the others have put there since (R205)
  let k := (List.range 6).foldl (fun k q =>
    let os := (x.savedOps.filter (fun p => p.1 = q)).map (fun p => p.2.resumed)
    if os = [] then k
    else k.setQueue q (if os.any EngOp.halfStored then os ++ k.queue q else k.queue q ++ os)) (s.core core)
  let s := s.setCore core { k with deque := k.deque ++ x.tasks }
  x.slots.foldl (fun s p =>
    if s.weightRoom b p.1 p.2 then s.setBlock b ((s.block b).setSlot p.1 { p.2 with installed := true }) else s) s

/-! The events. -/

/-- PRE_EMPTION_REQUEST (R300, R301): the resident blocks named stop. -/
def execPreEmptionRequest (blks : List Nat) (s : State) : Out :=
  .next (blks.foldl (fun s b => if (s.block b).resid = .resident then (s.beginSave b).endLoad (s.block b).launch else s) s)

/-- A block of a killed launch whose work has completed leaves its core, operations that stopped at a fault with it (R304). -/
def State.endKill (s : State) (b : Nat) : State :=
  ((s.dropOps (fun o => o.blk = b)).dropBlock b).killEnd (s.block b).launch

/-- PRE_EMPTION_SAVE_COMPLETE (R300, R303): the block leaves its core, with its state saved unless its launch has been
killed (R304). -/
def execPreEmptionSaveComplete (blk : Nat) (s : State) : Out :=
  .next (if (s.block blk).resid = .saving && s.saveDone blk then
    (if (s.launchOf blk).phase = .killed then s.endKill blk else s.endSave blk) else s)

/-- The blocks of a block's gang that hold cores, without itself. -/
def State.gangMates (s : State) (b : Nat) : List Nat := (s.gangOf b).filter (fun c => c ≠ b && s.onCore c)

/-- BLOCK_MIGRATION (R16, R180, R279): a block of a pre-emptible launch moves to another core of its die that has room,
within its gang's cluster and on a core of its own there (R18). -/
def execBlockMigration (blk core q0 : Nat) (s : State) : Out :=
  let x := s.block blk
  let mates := s.gangMates blk
  if x.resid ≠ .resident || !recFlag (s.recOf blk) 5 || core = x.core || dieOf core ≠ dieOf x.core
      || mates.any (fun c => clusterOf (s.block c).core ≠ clusterOf core || (s.block c).core = core) then .next s
  else
    let s1 := s.beginSave blk
    if !s1.saveDone blk then .next s
    else
      let s2 := s1.endSave blk
      if (s2.roomOf core []).fits (s2.blockNeed blk) (q0 % 4) && s2.reservesFree blk core (q0 % 4) then
        .next (s2.resumeBlock blk core (q0 % 4))
      else .next s

end Sys2Proof.Machine
end

