-- ==== Sys2Proof/Machine/Admit.lean ====
section
/-! DEFINITION. The launch unit (R152, R234, R269 to R281): heads that are ready, admission and placing of blocks, its own
pre-emption, resumption in class order, completion, kills. -/

namespace Sys2Proof.Machine

open Sys2Proof

/-! Refusals and needs of the launch unit. -/

/-- A launch is refused after acceptance: it leaves its queue and its status word says why (R273, R277, R280). -/
def State.refuseLaunch (s : State) (l code : Nat) : State :=
  match s.launches[l]? with
  | none => s
  | some x => ((s.dropLaunch l).setLaunch l { x with phase := .refused }).putStatus l code
/-- Code 4 with bits [63:8] of the failing address (R281). -/
def codeFour (addr : Nat) : Nat := 4 + addr % 2 ^ 64 / 256 * 256

/-- The launch unit asks host memory for a launch. -/
def State.launchAsk (s : State) (l : Nat) (asks : List HostAsk) : State :=
  match s.launches[l]? with
  | none => s
  | some x =>
    let (reqs, s) := (s.markAsks (whoFab s x.die x.ctx) asks).sendAsks x.die x.ctx asks
    s.setLaunch l { x with reqs := reqs }

/-! Ready heads (R273). -/

/-- What a head waits for, apart from its token: a patch, the die's loader (R152), its context. -/
def State.mayStart (s : State) (d l : Nat) : Bool :=
  match s.launches[l]? with
  | none => false
  | some x => !x.held && (s.die d).loader.all (fun k => k = l) && ((s.die d).ctx x.ctx).enabled

/-- The token of a head: whether it has reached the value awaited. A read that fails refuses the launch. -/
def State.pollToken (s : State) (l : Nat) : Bool × State :=
  match s.launches[l]? with
  | none => (false, s)
  | some x =>
    let p := recBytes x.record 80 8
    if p = 0 || x.admitted.isSome then (true, s)
    else if !answeredAll x.reqs x.resp then (false, s)
    else match s.ioRead (whoFab s x.die x.ctx) x.resp p 8 with
      | .error (.bad _ a) => (false, s.refuseLaunch l (codeFour a))
      | .error (.ask asks) => (false, s.launchAsk l asks)
      | .ok (bs, s) =>
        if recBytes x.record 88 8 ≤ ofBytes bs then (true, s)
        else (false, s.setLaunch l { x with reqs := [], resp := [] })

/-- What the launch unit serves next on a die. -/
inductive Pick where
  | nothing
  | record (q l : Nat)
  | resume (l : Nat)
deriving DecidableEq, Repr

/-- The pre-empted launch that stands before the records of a queue: the one admitted first (R279). -/
def State.resuming (s : State) (d q : Nat) : Option Nat :=
  let ls := (List.range s.launches.length).filter (fun l => match s.launches[l]? with
    | some x => decide (x.die = d) && decide (x.queue = q) && decide (x.phase = .running)
        && (s.die d).loader.all (fun k => k = l)
        && (s.blocksOf l).any (fun b => (s.block b).resid = .saved)
    | none => false)
  (sortBy (fun a b => decide (((s.launches[a]?).bind Launch.admitted).getD 0 ≤ ((s.launches[b]?).bind Launch.admitted).getD 0))
    ls).head?

/-- The first of some queues with work that is ready, in order (R274). -/
def State.pickQueue (s : State) (d : Nat) : List Nat → Pick × State
  | [] => (.nothing, s)
  | q :: r => match s.resuming d q with
    | some l => (.resume l, s)
    | none => match (nth (s.die d).queues q []).head? with
      | none => s.pickQueue d r
      | some l =>
        if !s.mayStart d l then s.pickQueue d r
        else match s.pollToken l with
          | (true, s) => (.record q l, s)
          | (false, s) => s.pickQueue d r

/-- The queues of a class: one whose head waits to place a block first, then round-robin after the one served last. -/
def State.classQueues (s : State) (d c : Nat) : List Nat :=
  let qs := (List.range 16).map (fun i => 16 * c + (nth (s.die d).lastServed c 0 % 16 + 1 + i) % 16)
  let placing := qs.filter (fun q => match (nth (s.die d).queues q []).head? with
    | some l => ((s.launches[l]?).bind Launch.admitted).isSome
    | none => false)
  placing ++ qs

/-- The work of the lowest-numbered class that has some (R274). -/
def State.pick (s : State) (d : Nat) : List Nat → Pick × State
  | [] => (.nothing, s)
  | c :: r => match s.pickQueue d (s.classQueues d c) with
    | (.nothing, s) => s.pick d r
    | p => p

/-! Admission (R270, R277). -/

/-- What a launch reads before its first block: arguments and coverage, or the need of host memory, or a failing address.
The coverage bitmap is judged as the arguments are (log entry 20). -/
def State.readLaunch (s : State) (x : Launch) (total : Nat) : Except EngErr ((List DWord × List Byte) × State) :=
  let who := whoFab s x.die x.ctx
  let r := x.record
  let p := recBytes r 112 8
  let ra : Except EngErr (List DWord × State) :=
    if p = 0 then .ok ([], s)
    else match s.ioRead who x.resp p 128 with
      | .error e => .error e
      | .ok (bs, s) => .ok ((List.range 16).map (fun i => BitVec.ofNat 64 (ofBytes ((bs.drop (8 * i)).take 8))), s)
  match ra with
  | .error e => .error e
  | .ok (args, s) =>
    let c := recBytes r 56 8
    if c = 0 || !recFlag r 7 then .ok ((args, []), s)
    else match s.ioRead who x.resp c ((total * recLanes r + 7) / 8) with
      | .error e => .error e
      | .ok (bs, s) => .ok ((args, bs), s)

/-- Whether a co-resident launch of so many blocks would fit on empty cores (R277): the die's, or those that a
collective-service launch reserves. -/
def coResidentFits (l : Nat) (r : Vec) (total : Nat) : Bool :=
  let n := needOf l r
  let cores := if recKind r = 3 then recBytes r 42 2 else 280
  let per := ((Room.bare (if n.service then some l else none)).most n total).length
  !recFlag r 6 || decide (total ≤ per * cores)

/-- The start of a launch that heads its queue: refusals with code 3, then its reads, then its enumeration (R234, R277,
R281). What is left is the launch admitted, refused, or waiting for host memory. -/
def State.startLaunch (s : State) (l : Nat) : State :=
  match s.launches[l]? with
  | none => s
  | some x =>
    let r := x.record
    let n := needOf l r
    let leafy := recKind r = 1
    let grid := x.gx * recGy r * recGz r
    let go := fun (s : State) (total : Nat) (args : List DWord) (cover : List Byte) (ls : List EnumLeaf) =>
      { s with seq := s.seq + 1 }.setLaunch l { x with
        phase := .running, admitted := some s.seq, total := total, args := args, cover := cover, leaves := ls, reqs := [],
        resp := [] }
    if !(Room.bare (if n.service then some l else none)).fits n 0 || (!leafy && !coResidentFits l r grid) then
      s.refuseLaunch l 3
    else if !leafy && grid = 0 then go s 0 [] [] []
    else
      match s.readLaunch x grid with
      | .error (.ask asks) => s.launchAsk l asks
      | .error (.bad _ a) => s.refuseLaunch l (codeFour a)
      | .ok ((args, cover), s) =>
        let found : Except EngErr (List EnumLeaf × State) :=
          if leafy then s.engTree x.resp (fun s => s.enumerate (whoFab s x.die x.ctx) (recBytes r 48 8)) else .ok ([], s)
        match found with
        | .error (.ask asks) => s.launchAsk l asks
        | .error (.bad _ a) => s.refuseLaunch l (codeFour a)
        | .ok (ls, s) =>
          if leafy && !coResidentFits l r ls.length then s.refuseLaunch l 3
          else go s (if leafy then ls.length else grid) args cover ls

/-! Placing (R58, R270, R274, R276). -/

/-- Warp w of block b at its first issue. -/
def newWarp (x : Launch) (b idx w : Nat) (seat : Nat × Nat) : Warp :=
  let r := x.record
  let (role, base) := warpRole r w
  let (lanes, helpers) := warpLanes r x.cover idx w
  let flen := recBytes r 72 4
  { Warp.absent with
    blk := b, idx := w, quarter := seat.1, slot := seat.2, role := role, phase := .running, base := base,
    vregs := warpIndexRegs r w lanes,
    sregs := (List.range 16).foldl (fun s i => spSet 0 s i (nth x.args i 0)) [],
    kregs := spSet 0 [] 7 (lanes &&& ~~~helpers), det := recFlag r 4, barlim := BitVec.ofNat 32 (recBytes r 44 4),
    spb := BitVec.ofNat 64 ((recBytes r 64 8 + (idx * recWarps r + w) * (flen + 4096)) % 2 ^ 57),
    flen := BitVec.ofNat 32 flen, lanes := lanes, helpers := helpers,
    strands := [some { Strand.start lanes (BitVec.ofNat 57 (recBytes r 0 8)) with jumped := true }, none, none, none]
    : Warp }.freshWindow

/-- The next block of a launch stands on a core: granules, an acquire (R179), the block and its warps. -/
def State.placeBlock (s : State) (l : Nat) (place : Nat × Nat) : State :=
  match s.launches[l]? with
  | none => s
  | some x =>
    let (core, q0) := place
    let r := x.record
    let b := s.blocks.length
    let w0 := s.warps.length
    let i := x.next
    let leaf := nth x.leaves i ⟨0, 0, 0, 0, 0⟩
    let leafy := decide (recKind r = 1)
    let num := fun (a c : Nat) => BitVec.ofNat 64 (if leafy then a / 8 else c)
    let seats := s.seats core q0 (List.range (recWarps r)) []
    let (g, s) := s.takeScratch core (recGran r)
    let blk : Block :=
      { launch := l, idx := i, bx := num leaf.lx (i % x.gx), by_ := num leaf.ly (i / x.gx % recGy r),
        bz := num leaf.lz (i / (x.gx * recGy r)),
        leafo := if leafy then BitVec.ofNat 64 (leaf.lx + leaf.ly * 2 ^ 16 + leaf.lz * 2 ^ 32) else 0,
        leafp := if leafy then leaf.ptr else 0, core := core, q0 := q0, resid := .resident, gran := g, ngran := recGran r,
        warps := (List.range (recWarps r)).map (fun w => w0 + w), scratch := [], acc := [], slots := [], savedOps := [],
        tasks := [] }
    let ws := (List.range (recWarps r)).map (fun w => newWarp x b i w (nth seats w (0, 0)))
    { s.acquireL1 core with blocks := s.blocks ++ [blk], warps := s.warps ++ ws }.setLaunch l { x with next := i + 1 }

/-- Places for the next unit of a launch, the blocks `gone` left out of the count: all of a co-resident launch, a gang, or
one block. -/
def State.unitPlaces (s : State) (gone : List Nat) (l core q0 : Nat) (x : Launch) : Option (List (Nat × Nat)) :=
  let n := needOf l x.record
  let left := x.total - x.next
  let cores := coresFrom x.die core
  if recFlag x.record 6 then spread (cores.map (fun c => (c, s.roomOf c gone))) n left
  else if 1 < recGang x.record then
    s.gangPlaces gone x.die core q0 none [] (List.replicate (min left (recGang x.record)) n)
  else (firstSome (fun c => ((s.roomOf c gone).place n q0).map (fun q => (c, q))) cores).map (fun p => [p])

/-- As many blocks of a launch as fit, unit by unit. -/
def State.placeUnits (s : State) (l core q0 : Nat) : Nat → State
  | 0 => s
  | n + 1 => match s.launches[l]? with
    | none => s
    | some x =>
      if x.total ≤ x.next then s
      else match s.unitPlaces [] l core q0 x with
        | none => s
        | some ps => (ps.foldl (fun s p => s.placeBlock l p) s).placeUnits l core q0 n

/-- A collective-service launch reserves cores that hold no block, as many as it still needs (R278); whether it has all. -/
def State.reserveCores (s : State) (l core : Nat) (x : Launch) : Bool × State :=
  if recKind x.record ≠ 3 then (true, s)
  else
    let have_ := ((coresFrom x.die core).filter (fun c => (s.core c).svc = some l)).length
    let want := recBytes x.record 42 2 - have_
    let new := ((coresFrom x.die core).filter (fun c => (s.core c).svc.isNone && decide (s.blocksAt c = []))).take want
    (decide (new.length = want), new.foldl (fun s c => s.setCore c { s.core c with svc := some l }) s)

/-! The launch unit's pre-emption (R279). -/

/-- The blocks of a core that the launch unit may pre-empt, in its order: the launch admitted last first, and the highest
block first. -/
def State.victims (s : State) (core : Nat) : List Nat :=
  let key := fun (b : Nat) => ((s.launchOf b).admitted.getD 0, (s.block b).idx)
  sortBy (fun a b => decide ((key b).1 < (key a).1) || (decide ((key a).1 = (key b).1) && decide ((key b).2 ≤ (key a).2)))
    ((s.blocksAt core).filter (fun b => (s.block b).resid = .resident && recFlag (s.recOf b) 5
      && decide (32 ≤ (s.launchOf b).queue)))

/-- A block with those that are pre-empted together with it: its gang, or its co-resident launch. -/
def State.together (s : State) (b : Nat) : List Nat :=
  (if recFlag (s.recOf b) 6 then s.blocksOf (s.block b).launch
    else if 1 < recGang (s.recOf b) then s.gangOf b else [b]).filter (fun c => (s.block c).resid = .resident)

/-- Room for a block of a class-0 head is made on one core, unless what is being saved makes it. -/
def State.makeRoom (s : State) (l core q0 : Nat) (x : Launch) : State :=
  let saving := (List.range s.blocks.length).filter (fun b => (s.block b).resid = .saving)
  let n := needOf l x.record
  if (s.unitPlaces saving l core q0 x).isSome then s
  else
    let cut := fun (c : Nat) =>
      let vs := s.victims c
      if ((s.roomOf c saving).place n q0).isSome then none
      else ((List.range (vs.length + 1)).map (fun k => vs.take k)).find? (fun p =>
        ((s.roomOf c (saving ++ p)).place n q0).isSome)
    match firstSome cut (coresFrom x.die core) with
    | none => s
    | some p => p.foldl (fun s b =>
        if (s.block b).resid = .resident then
          (s.together b).foldl (fun s c => (s.beginSave c).endLoad (s.block c).launch) s
        else s) s

/-! ADMISSION. -/

/-- A head is served: it starts if it has not, and its blocks are placed as far as they fit; with all of them placed it
leaves its queue. -/
def State.serveHead (s : State) (d q l core q0 : Nat) : State :=
  let s := s.setDie d { s.die d with lastServed := (s.die d).lastServed.set (q / 16) q }
  let s := match (s.launches[l]?).bind Launch.admitted with
    | some _ => s
    | none => s.startLaunch l
  match s.launches[l]? with
  | none => s
  | some x =>
    if x.admitted.isNone then s
    else
      let (ok, s) := s.reserveCores l core x
      let s := if ok then s.placeUnits l core q0 (x.total - x.next) else s
      match s.launches[l]? with
      | none => s
      | some x =>
        if x.total ≤ x.next then
          s.setDie d { s.die d with queues := (s.die d).queues.map (fun k => k.filter (fun i => i ≠ l)) }
        else if q < 16 && ok then s.makeRoom l core q0 x else s

/-- ADMISSION (R273, R274, R276 to R279): `core` and `q0` say where the search for places begins. -/
def execAdmission (die core q0 : Nat) (s : State) : Out :=
  if (s.die die).holdAdm || (s.die die).inReset then .next s
  else match s.pick die [0, 1, 2, 3] with
    | (.record q l, s) => .next (s.serveHead die q l core (q0 % 4))
    | (_, s) => .next s

/-! RESUMPTION (R279, R302). -/

/-- The saved blocks that come back together with one: those of its gang or of its co-resident launch. -/
def State.comrades (s : State) (b : Nat) : List Nat :=
  if recFlag (s.recOf b) 6 then s.blocksOf (s.block b).launch
  else if 1 < recGang (s.recOf b) then s.gangOf b else [b]

/-- Places for saved blocks: the first on the core named, a gang within one cluster, others where they fit. -/
def State.resumeAll (s : State) (d core q0 : Nat) : List Nat → Option State
  | [] => some s
  | b :: r =>
    let gang := decide (1 < recGang (s.recOf b))
    let mates := s.gangMates b
    let cores := (coresFrom d core).filter (fun c => !gang || mates.all (fun m =>
      clusterOf (s.block m).core = clusterOf c && (s.block m).core ≠ c))
    match firstSome (fun c => ((quartersFrom q0).find? (fun q =>
        (s.roomOf c []).fits (s.blockNeed b) q && s.reservesFree b c q)).map (fun q => (c, q))) cores with
    | none => none
    | some (c, q) => (s.resumeBlock b c q).resumeAll d core q0 r

/-- RESUMPTION (R302): a saved block, with its gang or co-resident launch, when its launch is the launch unit's next. -/
def execResumption (blk core q0 : Nat) (s : State) : Out :=
  let x := s.block blk
  let d := (s.launchOf blk).die
  if x.resid ≠ .saved || dieOf core ≠ d || (s.die d).inReset then .next s
  else match s.pick d [0, 1, 2, 3] with
    | (.resume l, s') =>
      let bs := blk :: (s'.comrades blk).filter (fun b => b ≠ blk && (s'.block b).resid = .saved)
      if l ≠ x.launch || (s'.comrades blk).any (fun b => (s'.block b).resid = .saving) then .next s'
      else .next ((s'.resumeAll d core (q0 % 4) bs).getD s')
    | (_, s') => .next s'

/-! Completion and kills (R47, R280, R281, R304). -/

/-- Whether everything of a launch has ended: every block, every operation, every job and exported primitive. -/
def State.launchEnded (s : State) (l : Nat) (x : Launch) : Bool :=
  let bs := s.blocksOf l
  let mine := fun (b : Nat) => (s.block b).launch = l
  decide (x.phase = .running) && decide (x.total ≤ x.next)
  && (if recKind x.record = 2 then
      bs.all (fun b => (s.block b).resid = .resident && (s.block b).warps.all (fun w => (s.warp w).phase = .freeTask))
        && s.cores.all (fun c => c.2.deque.all (fun t => t.launch ≠ l))
    else bs = [])
  && s.cores.all (fun c => c.2.ops.all (fun o => !mine o.blk))
  && s.dies.all (fun d => d.jobs.all (fun j => !mine (s.warp j.warp).blk) && d.draws.all (fun r => r.launch ≠ l || r.prims = []))

/-- The leaf-pointer cache entries of a context go with its last launch (R223). -/
def State.dropLeaves (s : State) (d ctx : Nat) : State :=
  if s.launches.any (fun x => x.die = d && x.ctx = ctx && (x.phase = .queued || x.phase = .running)) then s
  else
    let asid := ((s.die d).ctx ctx).asid
    { s with clusters := s.clusters.map (fun c =>
        if c.1 / Config.clustersPerDie = d then (c.1, { c.2 with leafs := c.2.leafs.filter (fun e => e.asid ≠ asid) }) else c) }

/-- The end of a launch whose stok, if it has one, is signalled: it leaves, and its status word is written. -/
def State.finishLaunch (s : State) (l : Nat) (x : Launch) : State :=
  let s := (s.blocksOf l).foldl State.dropBlock s
  let s := (s.dropLaunch l).setLaunch l { x with phase := .done, reqs := [], resp := [] }
  (s.putStatus l 1).dropLeaves x.die x.ctx

/-- LAUNCH_COMPLETION (R280): stores at system scope, then stok, then the status word. A stok in host memory has been
added to when its host answers. -/
def execLaunchCompletion (l : Nat) (s : State) : Out :=
  match s.launches[l]? with
  | none => .next s
  | some x =>
    if !s.launchEnded l x || !answeredAll x.reqs x.resp then .next s
    else
      let asid := ((s.die x.die).ctx x.ctx).asid
      let s := s.cores.foldl (fun s c =>
        if dieOf c.1 = x.die then s.cleanLines c.1 (fun k => k.asid = asid && k.dirty ≠ 0) else s) s
      let tok := recBytes x.record 96 8
      if tok = 0 then .next (s.finishLaunch l x)
      else match s.ioAdd (whoFab s x.die x.ctx) x.resp tok 1 with
        | .ok (_, s) => .next (s.finishLaunch l x)
        | .error (.ask asks) => .next (s.launchAsk l asks)
        | .error (.bad _ a) => .next ((s.logError x.die l a).finishLaunch l x)

/-- KILL_REQUEST (R304). -/
def execKillRequest (l : Nat) (s : State) : Out :=
  match s.launches[l]? with
  | none => .next s
  | some x => .next ((s.killLaunch l).dropLeaves x.die x.ctx)

end Sys2Proof.Machine
end

