-- ==== Sys2Proof/Machine/Transc.lean ====
section
/-! DEFINITION. The functions that return the exact function value rounded to nearest even (R130): FRCP, FRSQ, FEXP2,
FLOG2, FSIN and FCOS, evaluated in fixed point with far more bits than FP32 has (log entry 17). -/

namespace Sys2Proof.Machine

open Sys2Proof

/-- Fraction bits of the fixed-point evaluation. -/
def tP : Nat := 1024

/-- 2^tP × Σ over k of 1 / ((2k+1) × z^(2k+1)), signs alternating when `alt` holds: atan or atanh of 1/z. -/
def invSeries (z : Nat) (alt : Bool) : Nat → Nat → Int → Int → Int
  | 0, _, _, acc => acc
  | n + 1, k, p, acc =>
    let t := p / (2 * k + 1 : Nat)
    invSeries z alt n (k + 1) (p / (z * z : Nat)) (if alt && decide (k % 2 = 1) then acc - t else acc + t)
def invAt (z : Nat) (alt : Bool) (n : Nat) : Int := invSeries z alt n 0 (2 ^ tP / z : Nat) 0

/-- π and ln 2 as fixed-point numbers: Machin's formula, and 2 atanh(1/3). -/
def piFix : Int := 16 * invAt 5 true 230 - 4 * invAt 239 true 70
def ln2Fix : Int := 2 * invAt 3 false 330

/-- e^x for 0 ≤ x < 1, fixed point. -/
def expSeries (x : Int) : Nat → Nat → Int → Int → Int
  | 0, _, _, acc => acc
  | n + 1, k, t, acc => expSeries x n (k + 1) (t * x / 2 ^ tP / (k + 1 : Nat)) (acc + t)
def expFix (x : Int) : Int := expSeries x 180 0 (2 ^ tP) 0

/-- Σ of the sine or cosine series from a first term t and first divisor index k, for r² given. -/
def trigSeries (r2 : Int) : Nat → Nat → Int → Int → Int
  | 0, _, _, acc => acc
  | n + 1, k, t, acc => trigSeries r2 n (k + 2) (-(t * r2 / 2 ^ tP) / ((k + 1) * (k + 2) : Nat)) (acc + t)
def sinFix (r : Int) : Int := trigSeries (r * r / 2 ^ tP) 100 1 r 0
def cosFix (r : Int) : Int := trigSeries (r * r / 2 ^ tP) 100 0 (2 ^ tP) 0

/-- 2 atanh(z) = ln((1+z)/(1-z)) for 0 ≤ z ≤ 1/3, fixed point. -/
def atanhSeries (z2 : Int) : Nat → Nat → Int → Int → Int
  | 0, _, _, acc => acc
  | n + 1, k, p, acc => atanhSeries z2 n (k + 1) (p * z2 / 2 ^ tP) (acc + p / (2 * k + 1 : Nat))
def lnFix (num den : Nat) : Int :=
  let z : Int := ((num - den) * 2 ^ tP / (num + den) : Nat)
  2 * atanhSeries (z * z / 2 ^ tP) 330 0 z 0

/-- A fixed-point number whose exact value is irrational, as an exact result with a sticky bit. -/
def fixExact (v : Int) : Exact := .num (decide (v < 0)) (2 * v.natAbs + 1) (-(tP : Int) - 1)

/-- 1 ÷ x (R129, R130). -/
def rcpExact (x : FVal) : Exact := divExact (.fin false 1 0) x

/-- 1 ÷ √x (R129, R130). -/
def rsqExact (x : FVal) : Exact :=
  match x with
  | .nan => .nan false
  | .inf s => if s then .nan true else .zero false
  | .fin s m e =>
    if m = 0 then .inf s true
    else if s then .nan true
    else
      let n := if e % 2 = 0 then m else 2 * m
      let g := if e % 2 = 0 then e else e - 1
      let big := 2 ^ 400
      let q := isqrt (big / n)
      .num false (2 * q + (if q * q * n = big then 0 else 1)) (-(g / 2) - 200 - 1)

/-- 2^x (R129, R130). -/
def exp2Exact (x : FVal) : Exact :=
  match x with
  | .nan => .nan false
  | .inf s => if s then .zero false else .inf false false
  | .fin s m e =>
    if m = 0 then .num false 1 0
    else if 10 ≤ (Nat.log2 m : Int) + e then (if s then .num false 1 (-1000) else .num false 1 1000)
    else
      -- x × 2^tP, exact for every FP32 operand
      let v : Int := if s then -(m * 2 ^ (e + tP).toNat : Nat) else (m * 2 ^ (e + tP).toNat : Nat)
      let n := v / 2 ^ tP
      let f := v % 2 ^ tP
      if f = 0 then .num false 1 n
      else match fixExact (expFix (f * ln2Fix / 2 ^ tP)) with
        | .num s m e => .num s m (e + n)
        | r => r

/-- log2 x (R129, R130). -/
def log2Exact (x : FVal) : Exact :=
  match x with
  | .nan => .nan false
  | .inf s => if s then .nan true else .inf false false
  | .fin s m e =>
    if m = 0 then .inf true true
    else if s then .nan true
    else
      let k := Nat.log2 m
      let n : Int := e + k
      if m = 2 ^ k then (if n = 0 then .zero false else exactOf (decide (n < 0)) n.natAbs 0)
      else fixExact (n * 2 ^ tP + lnFix m (2 ^ k) * 2 ^ tP / ln2Fix)

/-- sin x and cos x, x in radians, for any finite argument (R129, R130). -/
def trigExact (cosine : Bool) (x : FVal) : Exact :=
  match x with
  | .nan => .nan false
  | .inf _ => .nan true
  | .fin s m e =>
    if m = 0 then (if cosine then .num false 1 0 else .zero s)
    else
      -- |x| × 2^tP, exact for every FP32 operand; n quarter turns and the rest r
      let v : Int := (m * 2 ^ (e + tP).toNat : Nat)
      let n := v * 2 / piFix
      let r := (v * 2 - n * piFix) / 2
      let q := (if cosine then n + 1 else n) % 4
      let y := if q = 0 then sinFix r else if q = 1 then cosFix r else if q = 2 then -sinFix r else -cosFix r
      fixExact (if s && !cosine then -y else y)

end Sys2Proof.Machine
end

