-- ==== Sys2Proof/Machine/Flags.lean ====
section
/-! DEFINITION. The floating-point flags of ctl.fst and the traps they raise (R125 to R127, R131). -/

namespace Sys2Proof.Machine

open Sys2Proof

/-- ctl.fpm's fields (R125). -/
def Warp.rmode (x : Warp) : RMode := RMode.ofField (fieldOf x.fpm 0 2)
def Warp.fz (x : Warp) : Bool := x.fpm.getLsbD 2
def Warp.fz64 (x : Warp) : Bool := x.fpm.getLsbD 3
/-- The enable bits ennv to ensat, in ctl.fst order. -/
def Warp.fpEnables (x : Warp) : Flags := x.fpm.extractLsb' 4 6

/-- The flags of the active lanes that are not helpers, ORed (R38, R131). -/
def orFlags (m : Mask) (f : Nat → Flags) : Flags := (lanesOf m).foldl (fun acc l => acc ||| f l) 0

/-- Flags raised by an instruction: FPX, with nothing written, when one of them is enabled; else ORed into ctl.fst before
the result is written (R126, R131). -/
def State.withFlags (s : State) (fl : Flags) (k : State → State) : Except Stop State :=
  if fl &&& s.cw.fpEnables ≠ 0 then .error (.trap { TrapInfo.of (.fpx, 0) with imm := fl.setWidth 14 } s)
  else .ok (k (s.putW { s.cw with fst := s.cw.fst ||| fl }))

end Sys2Proof.Machine
end

