-- ==== Sys2Proof/Machine/Fp.lean ====
section
/-! DEFINITION. FP32 arithmetic and comparison (R361 to R363), conversion (R132 to R135), packed 16-bit arithmetic (R368,
R369) and FP64 (R359). -/

namespace Sys2Proof.Machine

open Sys2Proof

/-- The shell of R362: every active lane's result, the flags of the lanes that are not helpers, FPX or the writes. -/
def fpLanes (d : Nat) (f : State → Nat → FRes) : Body := fun s =>
  let r := (List.range 32).map (fun l => if s.active.getLsbD l then f s l else ⟨0, 0, false⟩)
  s.withFlags (orFlags s.activeReal (fun l => (nth r l ⟨0, 0, false⟩).fl))
    (fun s => s.wrLanes d s.active (fun l => BitVec.ofNat 32 (nth r l ⟨0, 0, false⟩).bits))

/-- An FP32 operand lane as a value, subnormals flushed under fz (R127, R362). -/
def State.f32 (s : State) (n l : Nat) : FVal := decodeFz fp32 s.cw.fz (s.lane n l).toNat

/-- A unary, binary or fused FP32 instruction rounded under a mode (R361, R362). -/
def fUnary (d a : BitVec 7) (m : State → RMode) (f : FVal → Exact) : Body :=
  fpLanes d.toNat (fun s l => finish fp32 (m s) s.cw.fz (f (s.f32 a.toNat l)))
def fBinary (d a b : BitVec 7) (m : State → RMode) (f : RMode → FVal → FVal → Exact) : Body :=
  fpLanes d.toNat (fun s l => finish fp32 (m s) s.cw.fz (f (m s) (s.f32 a.toNat l) (s.f32 b.toNat l)))
def fFused (d a b : BitVec 7) (m : State → RMode) : Body :=
  fpLanes d.toNat (fun s l =>
    finish fp32 (m s) s.cw.fz (fmaExact (m s) (s.f32 a.toNat l) (s.f32 b.toNat l) (s.f32 d.toNat l)))
/-- FMIN and FMAX: no rounding, no flag (R129, R362). -/
def fMinMax (isMax : Bool) (d a b : BitVec 7) : Body :=
  fpLanes d.toNat (fun s l => ⟨minMaxBits fp32 isMax (flushIn fp32 s.cw.fz (s.lane a.toNat l).toNat)
    (flushIn fp32 s.cw.fz (s.lane b.toNat l).toNat), 0, false⟩)

/-- The modes that opcodes name (R101, R361). -/
def modeRm (s : State) : RMode := s.cw.rmode
def modeRn (_ : State) : RMode := .rne
def modeRz (_ : State) : RMode := .rz

/-- The difference as a sum. -/
def subExact (m : RMode) (x y : FVal) : Exact := addExact m x y.neg

/-- FCMP and DCMP: bits of kd for the active lanes, flags as R362 (R363). -/
def fpCompare (d : Nat) (c : Cmp) (x y : State → Nat → FVal) : Body := fun s =>
  let r := fun l => cmpVal c (x s l) (y s l)
  s.withFlags (orFlags s.activeReal (fun l => (r l).2)) (fun s => s.wrMask d s.active (fun l => (r l).1))
def fCompare (c : Cmp) (d a b : BitVec 7) : Body :=
  fpCompare d.toNat c (fun s l => s.f32 a.toNat l) (fun s l => s.f32 b.toNat l)

/-- FADD (R361). -/
def execFadd (d a b : BitVec 7) (s : State) : Out :=
  perform (wordDab 0x0C0 d a b) (fBinary d a b modeRm addExact) s

/-- FSUB (R361). -/
def execFsub (d a b : BitVec 7) (s : State) : Out :=
  perform (wordDab 0x0C3 d a b) (fBinary d a b modeRm subExact) s

/-- FMUL (R361). -/
def execFmul (d a b : BitVec 7) (s : State) : Out :=
  perform (wordDab 0x0C6 d a b) (fBinary d a b modeRm (fun _ => mulExact)) s

/-- FFMA (R361). -/
def execFfma (d a b : BitVec 7) (s : State) : Out :=
  perform (wordDab 0x0C9 d a b) (fFused d a b modeRm) s

/-- FADD.rn (R361). -/
def execFaddRn (d a b : BitVec 7) (s : State) : Out :=
  perform (wordDab 0x0C1 d a b) (fBinary d a b modeRn addExact) s

/-- FSUB.rn (R361). -/
def execFsubRn (d a b : BitVec 7) (s : State) : Out :=
  perform (wordDab 0x0C4 d a b) (fBinary d a b modeRn subExact) s

/-- FMUL.rn (R361). -/
def execFmulRn (d a b : BitVec 7) (s : State) : Out :=
  perform (wordDab 0x0C7 d a b) (fBinary d a b modeRn (fun _ => mulExact)) s

/-- FFMA.rn (R361). -/
def execFfmaRn (d a b : BitVec 7) (s : State) : Out :=
  perform (wordDab 0x0CA d a b) (fFused d a b modeRn) s

/-- FADD.rz (R361). -/
def execFaddRz (d a b : BitVec 7) (s : State) : Out :=
  perform (wordDab 0x0C2 d a b) (fBinary d a b modeRz addExact) s

/-- FSUB.rz (R361). -/
def execFsubRz (d a b : BitVec 7) (s : State) : Out :=
  perform (wordDab 0x0C5 d a b) (fBinary d a b modeRz subExact) s

/-- FMUL.rz (R361). -/
def execFmulRz (d a b : BitVec 7) (s : State) : Out :=
  perform (wordDab 0x0C8 d a b) (fBinary d a b modeRz (fun _ => mulExact)) s

/-- FFMA.rz (R361). -/
def execFfmaRz (d a b : BitVec 7) (s : State) : Out :=
  perform (wordDab 0x0CB d a b) (fFused d a b modeRz) s

/-- FMIN (R129, R361). -/
def execFmin (d a b : BitVec 7) (s : State) : Out :=
  perform (wordDab 0x0CC d a b) (fMinMax false d a b) s

/-- FMAX (R129, R361). -/
def execFmax (d a b : BitVec 7) (s : State) : Out :=
  perform (wordDab 0x0CD d a b) (fMinMax true d a b) s

/-- FCMP.eq (R363). -/
def execFcmpEq (d a b : BitVec 7) (s : State) : Out :=
  perform (wordDab 0x0CE d a b) (fCompare .eq d a b) s

/-- FCMP.ne (R363). -/
def execFcmpNe (d a b : BitVec 7) (s : State) : Out :=
  perform (wordDab 0x0CF d a b) (fCompare .ne d a b) s

/-- FCMP.lt (R363). -/
def execFcmpLt (d a b : BitVec 7) (s : State) : Out :=
  perform (wordDab 0x0D0 d a b) (fCompare .lt d a b) s

/-- FCMP.le (R363). -/
def execFcmpLe (d a b : BitVec 7) (s : State) : Out :=
  perform (wordDab 0x0D1 d a b) (fCompare .le d a b) s

/-- FCMP.un (R363). -/
def execFcmpUn (d a b : BitVec 7) (s : State) : Out :=
  perform (wordDab 0x0D2 d a b) (fCompare .un d a b) s

/-- FCMP.ord (R363). -/
def execFcmpOrd (d a b : BitVec 7) (s : State) : Out :=
  perform (wordDab 0x0D3 d a b) (fCompare .ord d a b) s

/-- FRCP (R130, R361). -/
def execFrcp (d a : BitVec 7) (s : State) : Out :=
  perform (wordDab 0x0D4 d a 0) (fUnary d a modeRn rcpExact) s

/-- FRSQ (R130, R361). -/
def execFrsq (d a : BitVec 7) (s : State) : Out :=
  perform (wordDab 0x0D5 d a 0) (fUnary d a modeRn rsqExact) s

/-- FSQRT (R361). -/
def execFsqrt (d a : BitVec 7) (s : State) : Out :=
  perform (wordDab 0x0D6 d a 0) (fUnary d a modeRm sqrtExact) s

/-- FDIV (R361). -/
def execFdiv (d a b : BitVec 7) (s : State) : Out :=
  perform (wordDab 0x0D7 d a b) (fBinary d a b modeRm (fun _ => divExact)) s

/-- FEXP2 (R130, R361). -/
def execFexp2 (d a : BitVec 7) (s : State) : Out :=
  perform (wordDab 0x0D8 d a 0) (fUnary d a modeRn exp2Exact) s

/-- FLOG2 (R130, R361). -/
def execFlog2 (d a : BitVec 7) (s : State) : Out :=
  perform (wordDab 0x0D9 d a 0) (fUnary d a modeRn log2Exact) s

/-- FSIN (R130, R361). -/
def execFsin (d a : BitVec 7) (s : State) : Out :=
  perform (wordDab 0x0DA d a 0) (fUnary d a modeRn (trigExact false)) s

/-- FCOS (R130, R361). -/
def execFcos (d a : BitVec 7) (s : State) : Out :=
  perform (wordDab 0x0DB d a 0) (fUnary d a modeRn (trigExact true)) s

/-! Conversion (R132 to R135). -/

/-- FCVT between formats of at most 32 bits: the value of a lane under the source, converted (R120, R132). -/
def cvtLanes (d a : BitVec 7) (dst : CvtDst) (src : Nat → FVal) : Body :=
  fpLanes d.toNat (fun s l => convert s.cw.rmode dst (src (s.lane a.toNat l).toNat))

/-- Flags first, then the 64-bit lanes of a pair, in the shell of R362. -/
def fpPairs (d : Nat) (f : State → Nat → FRes) : Body := fun s =>
  let r := (List.range 32).map (fun l => if s.active.getLsbD l then f s l else ⟨0, 0, false⟩)
  s.withFlags (orFlags s.activeReal (fun l => (nth r l ⟨0, 0, false⟩).fl))
    (fun s => s.wrPair d s.active (fun l => BitVec.ofNat 64 (nth r l ⟨0, 0, false⟩).bits))

/-- FCVT.f32.f16 (R132, R133). -/
def execFcvtF32F16 (d a : BitVec 7) (s : State) : Out :=
  perform (wordDab 0x100 d a 0) (cvtLanes d a (.fp fp32) (Elem.decode .fp16)) s

/-- FCVT.f32.bf16 (R132, R133). -/
def execFcvtF32Bf16 (d a : BitVec 7) (s : State) : Out :=
  perform (wordDab 0x101 d a 0) (cvtLanes d a (.fp fp32) (Elem.decode .bf16)) s

/-- FCVT.f16.f32 (R132, R133). -/
def execFcvtF16F32 (d a : BitVec 7) (s : State) : Out :=
  perform (wordDab 0x102 d a 0) (cvtLanes d a (.fp fp16) (Elem.decode .fp32)) s

/-- FCVT.bf16.f32 (R132, R133). -/
def execFcvtBf16F32 (d a : BitVec 7) (s : State) : Out :=
  perform (wordDab 0x103 d a 0) (cvtLanes d a (.fp bf16) (Elem.decode .fp32)) s

/-- FCVT.f32.e4m3 (R132, R133). -/
def execFcvtF32E4m3 (d a : BitVec 7) (s : State) : Out :=
  perform (wordDab 0x104 d a 0) (cvtLanes d a (.fp fp32) (Elem.decode .e4m3)) s

/-- FCVT.f32.e5m2 (R132, R133). -/
def execFcvtF32E5m2 (d a : BitVec 7) (s : State) : Out :=
  perform (wordDab 0x105 d a 0) (cvtLanes d a (.fp fp32) (Elem.decode .e5m2)) s

/-- FCVT.e4m3.f32.sat (R132, R133). -/
def execFcvtE4m3F32Sat (d a : BitVec 7) (s : State) : Out :=
  perform (wordDab 0x106 d a 0) (cvtLanes d a (.e4m3 true) (Elem.decode .fp32)) s

/-- FCVT.e4m3.f32 (R132, R133). -/
def execFcvtE4m3F32 (d a : BitVec 7) (s : State) : Out :=
  perform (wordDab 0x107 d a 0) (cvtLanes d a (.e4m3 false) (Elem.decode .fp32)) s

/-- FCVT.e5m2.f32.sat (R132, R133). -/
def execFcvtE5m2F32Sat (d a : BitVec 7) (s : State) : Out :=
  perform (wordDab 0x108 d a 0) (cvtLanes d a (.e5m2 true) (Elem.decode .fp32)) s

/-- FCVT.e5m2.f32 (R132, R133). -/
def execFcvtE5m2F32 (d a : BitVec 7) (s : State) : Out :=
  perform (wordDab 0x109 d a 0) (cvtLanes d a (.e5m2 false) (Elem.decode .fp32)) s

/-- FCVT.f32.t8 (R132, R133). -/
def execFcvtF32T8 (d a : BitVec 7) (s : State) : Out :=
  perform (wordDab 0x10A d a 0) (cvtLanes d a (.fp fp32) (Elem.decode .t8)) s

/-- FCVT.t8.f32 (R132, R133, R134). -/
def execFcvtT8F32 (d a : BitVec 7) (s : State) : Out :=
  perform (wordDab 0x10B d a 0) (cvtLanes d a .t8 (Elem.decode .fp32)) s

/-- FCVT.f32.t6 (R132, R133). -/
def execFcvtF32T6 (d a : BitVec 7) (s : State) : Out :=
  perform (wordDab 0x10C d a 0) (cvtLanes d a (.fp fp32) (Elem.decode .t6)) s

/-- FCVT.t6.f32 (R132, R133, R134). -/
def execFcvtT6F32 (d a : BitVec 7) (s : State) : Out :=
  perform (wordDab 0x10D d a 0) (cvtLanes d a .t6 (Elem.decode .fp32)) s

/-- FCVT.f32.e2m1 (R132, R133). -/
def execFcvtF32E2m1 (d a : BitVec 7) (s : State) : Out :=
  perform (wordDab 0x10E d a 0) (cvtLanes d a (.fp fp32) (Elem.decode .e2m1)) s

/-- FCVT.e2m1.f32 (R132, R133, R134). -/
def execFcvtE2m1F32 (d a : BitVec 7) (s : State) : Out :=
  perform (wordDab 0x10F d a 0) (cvtLanes d a .e2m1 (Elem.decode .fp32)) s

/-- FCVT.f32.int (R132, R133, R135). -/
def execFcvtF32Int (d a : BitVec 7) (s : State) : Out :=
  perform (wordDab 0x110 d a 0) (cvtLanes d a (.fp fp32) (fun x => intVal (sext 32 x))) s

/-- FCVT.f32.uint (R132, R133, R135). -/
def execFcvtF32Uint (d a : BitVec 7) (s : State) : Out :=
  perform (wordDab 0x111 d a 0) (cvtLanes d a (.fp fp32) (fun x => intVal x)) s

/-- FCVT.int.f32 (R132, R133, R135). -/
def execFcvtIntF32 (d a : BitVec 7) (s : State) : Out :=
  perform (wordDab 0x112 d a 0) (cvtLanes d a .int (Elem.decode .fp32)) s

/-- FCVT.uint.f32 (R132, R133, R135). -/
def execFcvtUintF32 (d a : BitVec 7) (s : State) : Out :=
  perform (wordDab 0x113 d a 0) (cvtLanes d a .uint (Elem.decode .fp32)) s

/-- FCVT.f64.f32 (R132, R133). -/
def execFcvtF64F32 (d a : BitVec 7) (s : State) : Out :=
  perform (wordDab 0x114 d a 0) (fpPairs d.toNat (fun s l => convert s.cw.rmode (.fp fp64) ((Elem.decode .fp32) (s.lane a.toNat l).toNat))) s

/-- FCVT.f32.f64 (R132, R133). -/
def execFcvtF32F64 (d a : BitVec 7) (s : State) : Out :=
  perform (wordDab 0x115 d a 0) (fpLanes d.toNat (fun s l => convert s.cw.rmode (.fp fp32) (decodeF fp64 (s.lane64 a.toNat l).toNat))) s

/-- FCVT.f64.int (R132, R133, R135). -/
def execFcvtF64Int (d a : BitVec 7) (s : State) : Out :=
  perform (wordDab 0x116 d a 0)
    (fpPairs d.toNat (fun s l => convert s.cw.rmode (.fp fp64) ((fun x => intVal (sext 32 x)) (s.lane a.toNat l).toNat))) s

/-- FCVT.int.f64 (R132, R133, R135). -/
def execFcvtIntF64 (d a : BitVec 7) (s : State) : Out :=
  perform (wordDab 0x117 d a 0) (fpLanes d.toNat (fun s l => convert s.cw.rmode .int (decodeF fp64 (s.lane64 a.toNat l).toNat))) s

/-! Packed 16-bit arithmetic (R368, R369). -/

/-- Both elements of a lane through an operation in a 16-bit format. -/
def packedLane (f : Fmt) (s : State) (op : FVal → FVal → FVal → Exact) (x y z : Word) : FRes :=
  let one := fun (i : Nat) => finish f s.cw.rmode s.cw.fz
    (op (decodeFz f s.cw.fz (fieldOf x i 16)) (decodeFz f s.cw.fz (fieldOf y i 16)) (decodeFz f s.cw.fz (fieldOf z i 16)))
  let lo := one 0
  let hi := one 16
  ⟨lo.bits + hi.bits * 65536, lo.fl ||| hi.fl, false⟩
def packed (f : Fmt) (d a b : BitVec 7) (op : RMode → FVal → FVal → FVal → Exact) : Body :=
  fpLanes d.toNat (fun s l => packedLane f s (op s.cw.rmode) (s.lane a.toNat l) (s.lane b.toNat l) (s.lane d.toNat l))

/-- HADD2.f16 (R368, R369). -/
def execHadd2F16 (d a b : BitVec 7) (s : State) : Out :=
  perform (wordDab 0x118 d a b) (packed fp16 d a b (fun m x y _ => addExact m x y)) s

/-- HADD2.bf16 (R368, R369). -/
def execHadd2Bf16 (d a b : BitVec 7) (s : State) : Out :=
  perform (wordDab 0x119 d a b) (packed bf16 d a b (fun m x y _ => addExact m x y)) s

/-- HMUL2.f16 (R368, R369). -/
def execHmul2F16 (d a b : BitVec 7) (s : State) : Out :=
  perform (wordDab 0x11A d a b) (packed fp16 d a b (fun _ x y _ => mulExact x y)) s

/-- HMUL2.bf16 (R368, R369). -/
def execHmul2Bf16 (d a b : BitVec 7) (s : State) : Out :=
  perform (wordDab 0x11B d a b) (packed bf16 d a b (fun _ x y _ => mulExact x y)) s

/-- HFMA2.f16 (R368, R369). -/
def execHfma2F16 (d a b : BitVec 7) (s : State) : Out :=
  perform (wordDab 0x11C d a b) (packed fp16 d a b (fun m x y z => fmaExact m x y z)) s

/-- HFMA2.bf16 (R368, R369). -/
def execHfma2Bf16 (d a b : BitVec 7) (s : State) : Out :=
  perform (wordDab 0x11D d a b) (packed bf16 d a b (fun m x y z => fmaExact m x y z)) s

/-! FP64 (R359). -/

/-- An FP64 operand pair as a value, subnormals flushed under fz64. -/
def State.f64 (s : State) (n l : Nat) : FVal := decodeFz fp64 s.cw.fz64 (s.lane64 n l).toNat
def dArith (d : BitVec 7) (f : State → Nat → Exact) : Body :=
  fpPairs d.toNat (fun s l => finish fp64 s.cw.rmode s.cw.fz64 (f s l))
def dCompare (c : Cmp) (d a b : BitVec 7) : Body :=
  fpCompare d.toNat c (fun s l => s.f64 a.toNat l) (fun s l => s.f64 b.toNat l)

/-- DADD (R359). -/
def execDadd (d a b : BitVec 7) (s : State) : Out :=
  perform (wordDab 0x11E d a b) (dArith d (fun s l => addExact s.cw.rmode (s.f64 a.toNat l) (s.f64 b.toNat l))) s

/-- DMUL (R359). -/
def execDmul (d a b : BitVec 7) (s : State) : Out :=
  perform (wordDab 0x11F d a b) (dArith d (fun s l => mulExact (s.f64 a.toNat l) (s.f64 b.toNat l))) s

/-- DFMA (R359). -/
def execDfma (d a b : BitVec 7) (s : State) : Out :=
  perform (wordDab 0x120 d a b) (dArith d (fun s l => fmaExact s.cw.rmode (s.f64 a.toNat l) (s.f64 b.toNat l) (s.f64 d.toNat l))) s

/-- DDIV (R359). -/
def execDdiv (d a b : BitVec 7) (s : State) : Out :=
  perform (wordDab 0x121 d a b) (dArith d (fun s l => divExact (s.f64 a.toNat l) (s.f64 b.toNat l))) s

/-- DSQRT (R359). -/
def execDsqrt (d a : BitVec 7) (s : State) : Out :=
  perform (wordDab 0x122 d a 0) (dArith d (fun s l => sqrtExact (s.f64 a.toNat l))) s

/-- DCMP.eq (R359, R363). -/
def execDcmpEq (d a b : BitVec 7) (s : State) : Out :=
  perform (wordDab 0x123 d a b) (dCompare .eq d a b) s

/-- DCMP.lt (R359, R363). -/
def execDcmpLt (d a b : BitVec 7) (s : State) : Out :=
  perform (wordDab 0x124 d a b) (dCompare .lt d a b) s

/-- DCMP.le (R359, R363). -/
def execDcmpLe (d a b : BitVec 7) (s : State) : Out :=
  perform (wordDab 0x125 d a b) (dCompare .le d a b) s

/-- DCMP.un (R359, R363). -/
def execDcmpUn (d a b : BitVec 7) (s : State) : Out :=
  perform (wordDab 0x126 d a b) (dCompare .un d a b) s

end Sys2Proof.Machine
end

