-- ==== Sys2Proof/Machine/Exchange.lean ====
section
/-! DEFINITION. The exchanges (R381, R382, R402 to R407) with the fixed tree of deterministic mode (R311). -/

namespace Sys2Proof.Machine

open Sys2Proof

/-- QSWZ: lane 4q + i takes lane 4q + sel, bits unchanged (R382). -/
def quadSwizzle (d a b : BitVec 7) : Body := fun s =>
  let sel := s.rdS b.toNat
  .ok (s.wrLanes d.toNat s.active (fun l => s.lane a.toNat (l / 4 * 4 + fieldOf sel (2 * (l % 4)) 2)))

/-- QDDX and QDDY: the difference of two partners of the quad, which lane i of it selects; never flushed (R381). -/
def quadDiff (d a : BitVec 7) (plus minus : Nat → Nat) : Body :=
  fpLanes d.toNat (fun s l =>
    let at_ := fun (i : Nat) => decodeF fp32 (s.lane a.toNat (l / 4 * 4 + i)).toNat
    finish fp32 s.cw.rmode false (subExact s.cw.rmode (at_ (plus (l % 4))) (at_ (minus (l % 4)))))

/-- XSHF: active lane l takes the value of va in lane j; a dead lane supplies zero (R402, R403). -/
def shuffle (d a : BitVec 7) (src : State → Nat → Nat) : Body := fun s =>
  .ok (s.wrLanes d.toNat s.active (fun l => let j := src s l; if s.cw.lanes.getLsbD j then s.lane a.toNat j else 0))
def shuffleCount (s : State) (b : BitVec 7) : Nat := fieldOf (s.rdS b.toNat) 0 5

/-- The values of va in the lanes that take part, by lane (R38, R402). -/
def taking (s : State) (a : BitVec 7) : List (Nat × Nat) :=
  (lanesOf s.activeReal).map (fun l => (l, (s.lane a.toNat l).toNat))

/-- XRED with a combination that gives the same bits in every order (R405). -/
def reduce (d a : BitVec 7) (ident : Nat) (f : Nat → Nat → Nat) : Body := fun s =>
  .ok (s.wrS d.toNat (BitVec.ofNat 64 ((taking s a).foldl (fun acc p => f acc p.2) ident)))

/-- A single lane's value: unchanged but for a NaN, which becomes canonical (R405). -/
def canonF32 (x : Nat) : Nat := if (decodeF fp32 x).isNan then canonNan fp32 else x

/-- XRED.min.f32 and .max.f32: FMIN and FMAX over the lanes (R405). -/
def reduceMinMax (isMax : Bool) (d a : BitVec 7) : Body := fun s =>
  let r := match taking s a with
    | [] => canonNan fp32
    | p :: r => r.foldl (fun acc q => minMaxBits fp32 isMax acc q.2) (canonF32 p.2)
  .ok (s.wrS d.toNat (BitVec.ofNat 64 r))

/-- A partial sum: absent, or its bits and the flags of its additions. -/
abbrev Partial := Option (Nat × Flags)
def addPartial (x y : Partial) : Partial :=
  match x, y with
  | none, y => y
  | x, none => x
  | some (a, f), some (b, g) => let r := addF32 a b; some (r.bits, f ||| g ||| r.fl)

/-- One level of R311's tree: neighbours combine. -/
def treeLevel : List Partial → List Partial
  | x :: y :: r => addPartial x y :: treeLevel r
  | l => l
/-- The sum of an aligned block of 2^n lanes under R311. -/
def treeSum : Nat → List Partial → Partial
  | 0, l => nth l 0 none
  | n + 1, l => treeSum n (treeLevel l)

/-- The lanes that take part as single partials, lane by lane. -/
def partials (s : State) (a : BitVec 7) : List Partial :=
  (List.range 32).map (fun l => if s.activeReal.getLsbD l then some ((s.lane a.toNat l).toNat, 0) else none)

/-- A sum in some order that the spec does not give: at each addition Config.sumPick names two of the partials
(R405, R406). -/
def anySum (n : Nat) : Nat → List Partial → Partial
  | 0, l => nth l 0 none
  | k + 1, l =>
    match l with
    | [] => none
    | [x] => x
    | _ =>
      let m := l.length
      let (p, q) := Config.sumPick (n + k) m
      let i := p % m
      let rest := l.eraseIdx i
      let j := q % (m - 1)
      anySum n k (addPartial (nth l i none) (nth rest j none) :: rest.eraseIdx j)

/-- The result of a combination: none gives the identity +0, a single value only loses its NaN payload. -/
def partialBits (p : Partial) : Nat := match p with
  | some (x, _) => canonF32 x
  | none => 0
def partialFlags (p : Partial) : Flags := match p with
  | some (_, f) => f
  | none => 0

/-- XRED.add.f32 (R311, R405). -/
def reduceAddF32 (d a : BitVec 7) : Body := fun s =>
  let ps := partials s a
  let r := if s.cw.det then treeSum 5 ps else anySum (s.draw 0) 32 (ps.filter (fun p => p.isSome))
  s.withFlags (partialFlags r) (fun s => s.wrS d.toNat (BitVec.ofNat 64 (partialBits r)))

/-- XSCAN.add.int (R406). -/
def scanAddInt (d a : BitVec 7) : Body := fun s =>
  .ok (s.wrLanes d.toNat s.activeReal (fun l =>
    BitVec.ofNat 32 (((taking s a).filter (fun p => p.1 ≤ l)).foldl (fun acc p => acc + p.2) 0)))

/-- The prefix sum of the first n lanes in deterministic mode: aligned blocks by the one bits of n, from the most
significant down, added from the lowest lanes on (R406). -/
def scanBlocks (ps : List Partial) (n : Nat) : Nat → Nat → Partial → Partial
  | 0, _, acc => acc
  | k + 1, lo, acc =>
    if n / 2 ^ k % 2 = 1 then scanBlocks ps n k (lo + 2 ^ k) (addPartial acc (treeSum k ((ps.drop lo).take (2 ^ k))))
    else scanBlocks ps n k lo acc

/-- XSCAN.add.f32 (R311, R406). -/
def scanAddF32 (d a : BitVec 7) : Body := fun s =>
  let ps := partials s a
  let r := (List.range 32).map (fun l =>
    if s.cw.det then scanBlocks ps (l + 1) 6 0 none
    else anySum (s.draw (1000 + 64 * l)) 32 ((ps.take (l + 1)).filter (fun p => p.isSome)))
  s.withFlags (orFlags s.activeReal (fun l => partialFlags (nth r l none)))
    (fun s => s.wrLanes d.toNat s.activeReal (fun l => BitVec.ofNat 32 (partialBits (nth r l none))))

/-- The winner of R136 among candidates; of two NaNs with one index, neither of which beats the other, the one of the lower
lane (DESIGN CHOICE, log entry 73). -/
def winner (f : Fmt) : List (Nat × Nat) → Option (Nat × Nat)
  | [] => none
  | c :: r => some (r.foldl (fun b c => if beats f c.1 c.2 b.1 b.2 then c else b) c)

/-- XMAXI (R407). -/
def maxIndex (f : Fmt) (d a b : BitVec 7) : Body := fun s =>
  match winner f ((lanesOf s.activeReal).map (fun l => (fieldOf (s.lane a.toNat l) 0 f.width, (s.lane b.toNat l).toNat))) with
  | none => .ok s
  | some (x, i) =>
    .ok ((s.wrLanes d.toNat s.activeReal (fun _ => BitVec.ofNat 32 x)).wrLanes (d.toNat + 1) s.activeReal
      (fun _ => BitVec.ofNat 32 i))

/-- QSWZ (R382). -/
def execQswz (d a b : BitVec 7) (s : State) : Out :=
  perform (wordDab 0x140 d a b) (quadSwizzle d a b) s

/-- QDDX.fine (R381). -/
def execQddxFine (d a : BitVec 7) (s : State) : Out :=
  perform (wordDab 0x141 d a 0) (quadDiff d a (fun i => if i < 2 then 1 else 3) (fun i => if i < 2 then 0 else 2)) s

/-- QDDX.coarse (R381). -/
def execQddxCoarse (d a : BitVec 7) (s : State) : Out :=
  perform (wordDab 0x142 d a 0) (quadDiff d a (fun _ => 1) (fun _ => 0)) s

/-- QDDY.fine (R381). -/
def execQddyFine (d a : BitVec 7) (s : State) : Out :=
  perform (wordDab 0x143 d a 0) (quadDiff d a (fun i => if i % 2 = 0 then 2 else 3) (fun i => i % 2)) s

/-- QDDY.coarse (R381). -/
def execQddyCoarse (d a : BitVec 7) (s : State) : Out :=
  perform (wordDab 0x144 d a 0) (quadDiff d a (fun _ => 2) (fun _ => 0)) s

/-- XSHF.idx (R403). -/
def execXshfIdx (d a b : BitVec 7) (s : State) : Out :=
  perform (wordDab 0x145 d a b) (shuffle d a (fun s l => fieldOf (s.lane b.toNat l) 0 5)) s

/-- XSHF.up (R403). -/
def execXshfUp (d a b : BitVec 7) (s : State) : Out :=
  perform (wordDab 0x146 d a b) (shuffle d a (fun s l => let n := shuffleCount s b; if n ≤ l then l - n else l)) s

/-- XSHF.down (R403). -/
def execXshfDown (d a b : BitVec 7) (s : State) : Out :=
  perform (wordDab 0x147 d a b) (shuffle d a (fun s l => let n := shuffleCount s b; if l + n ≤ 31 then l + n else l)) s

/-- XSHF.xor (R403). -/
def execXshfXor (d a b : BitVec 7) (s : State) : Out :=
  perform (wordDab 0x148 d a b) (shuffle d a (fun s l => l ^^^ shuffleCount s b)) s

/-- XBAL (R404). -/
def execXbal (d a : BitVec 7) (s : State) : Out :=
  perform (wordDab 0x149 d a 0) (fun s => .ok (s.wrS d.toNat ((s.activeReal &&& maskOf (fun l => s.lane a.toNat l ≠ 0)).setWidth 64))) s

/-- XRED.add.int (R405). -/
def execXredAddInt (d a : BitVec 7) (s : State) : Out :=
  perform (wordDab 0x14A d a 0) (reduce d a 0 (fun x y => (x + y) % 2 ^ 32)) s

/-- XRED.add.f32 (R405). -/
def execXredAddF32 (d a : BitVec 7) (s : State) : Out :=
  perform (wordDab 0x14B d a 0) (reduceAddF32 d a) s

/-- XRED.min.f32 (R405). -/
def execXredMinF32 (d a : BitVec 7) (s : State) : Out :=
  perform (wordDab 0x14C d a 0) (reduceMinMax false d a) s

/-- XRED.max.f32 (R405). -/
def execXredMaxF32 (d a : BitVec 7) (s : State) : Out :=
  perform (wordDab 0x14D d a 0) (reduceMinMax true d a) s

/-- XRED.and (R405). -/
def execXredAnd (d a : BitVec 7) (s : State) : Out :=
  perform (wordDab 0x14E d a 0) (reduce d a 0xFFFFFFFF (fun x y => x &&& y)) s

/-- XRED.or (R405). -/
def execXredOr (d a : BitVec 7) (s : State) : Out :=
  perform (wordDab 0x14F d a 0) (reduce d a 0 (fun x y => x ||| y)) s

/-- XSCAN.add.int (R406). -/
def execXscanAddInt (d a : BitVec 7) (s : State) : Out :=
  perform (wordDab 0x150 d a 0) (scanAddInt d a) s

/-- XSCAN.add.f32 (R406). -/
def execXscanAddF32 (d a : BitVec 7) (s : State) : Out :=
  perform (wordDab 0x151 d a 0) (scanAddF32 d a) s

/-- XMAXI.f16 (R407). -/
def execXmaxiF16 (d a b : BitVec 7) (s : State) : Out :=
  perform (wordDab 0x152 d a b) (maxIndex fp16 d a b) s

/-- XMAXI.f32 (R407). -/
def execXmaxiF32 (d a b : BitVec 7) (s : State) : Out :=
  perform (wordDab 0x153 d a b) (maxIndex fp32 d a b) s

end Sys2Proof.Machine
end

