-- ==== Sys2Proof/Machine/Digest.lean ====
section
/-! DEFINITION. SHA3-512, SHAKE128 and SHAKE256 (R6, R332): the sponges of FIPS 202, which the spec names (PRESUMED, log entry
14). -/

namespace Sys2Proof.Machine

open Sys2Proof

/-! The permutation of 25 lanes, the lane of column x and plane y at place x + 5y. -/

/-- A list read from its element n on, and round again. -/
def fromElem (n : Nat) (l : List DWord) : List DWord := l.drop n ++ l.take n
/-- The five planes of a state. -/
def planes (a : List DWord) : List (List DWord) := (List.range 5).map (fun y => (a.drop (5 * y)).take 5)
/-- Theta: every lane takes in the parity of the column before its own, and that of the column after it a bit position on. -/
def mixColumns (a : List DWord) : List DWord :=
  let parity := (planes a).foldl (List.zipWith (· ^^^ ·)) (List.replicate 5 0)
  let effect := List.zipWith (fun before after => before ^^^ after.rotateLeft 1) (fromElem 4 parity) (fromElem 1 parity)
  (planes a).flatMap (List.zipWith (· ^^^ ·) effect)
/-- Rho and pi in one walk over the 24 lanes that are not at (0, 0): the lane at (x, y), the walk's t-th from (1, 0) on, goes to
(y, 2x + 3y) turned left by the triangular number of t + 1. -/
def scatterLanes (a : List DWord) : List DWord :=
  ((List.range 24).foldl (fun (walk : (Nat × Nat) × List DWord) t =>
    let ((x, y), b) := walk
    let x' := y
    let y' := (2 * x + 3 * y) % 5
    ((x', y'), b.set (x' + 5 * y') ((nth a (x + 5 * y) 0).rotateLeft ((t + 1) * (t + 2) / 2 % 64)))) ((1, 0), a)).2
/-- Chi: in each plane a lane changes where the next one has a 0 and the one after that a 1. -/
def mixPlanes (a : List DWord) : List DWord :=
  (planes a).flatMap (fun p =>
    List.zipWith (· ^^^ ·) p (List.zipWith (fun next second => ~~~next &&& second) (fromElem 1 p) (fromElem 2 p)))
/-- The shift register x⁸ + x⁶ + x⁵ + x⁴ + 1 behind iota, started at 1 and stepped n times. -/
def iotaRegister (n : Nat) : Nat :=
  (List.range n).foldl (fun r _ => if r < 128 then 2 * r else (2 * r) ^^^ 0x171) 1
/-- What iota puts into lane (0, 0) in a round: bits 0, 1, 3, 7, 15, 31 and 63 from the register's next seven outputs. -/
def iotaWord (round : Nat) : DWord :=
  (List.range 7).foldl (fun w j =>
    if iotaRegister (7 * round + j) % 2 = 1 then w ||| (1#64 <<< (2 ^ j - 1)) else w) 0
/-- One round, and the 24 rounds of Keccak-f[1600]. -/
def permuteOnce (a : List DWord) (round : Nat) : List DWord :=
  let b := mixPlanes (scatterLanes (mixColumns a))
  b.set 0 (nth b 0 0 ^^^ iotaWord round)
def keccakF (a : List DWord) : List DWord := (List.range 24).foldl permuteOnce a

/-! The sponge. -/

/-- Blocks of r bytes taken in. -/
def absorb (r : Nat) (bs : List Byte) : Nat → Nat → List DWord → List DWord
  | 0, _, a => a
  | n + 1, i, a =>
    absorb r bs n (i + 1) (keccakF ((List.range 25).map (fun k =>
      nth a k 0 ^^^ (if 8 * k < r then BitVec.ofNat 64 (ofBytes ((bs.drop (r * i + 8 * k)).take 8)) else 0))))
/-- Blocks of r bytes given out. -/
def squeeze (r : Nat) : Nat → List DWord → List Byte
  | 0, _ => []
  | n + 1, a => (a.flatMap (fun w => toBytes 8 w.toNat)).take r ++ squeeze r n (keccakF a)
/-- n bytes of the sponge of rate r bytes, the domain bits and the first padding bit being `suffix`. -/
def sponge (r : Nat) (suffix : Byte) (n : Nat) (bs : List Byte) : List Byte :=
  let blocks := bs.length / r + 1
  let fill := blocks * r - bs.length
  let pad := if fill = 1 then [suffix ||| 0x80] else suffix :: List.replicate (fill - 2) 0 ++ [0x80]
  (squeeze r (n / r + 1) (absorb r (bs ++ pad) blocks 0 (List.replicate 25 0))).take n

/-- SHA3-512 of some bytes, byte 0 in the low bits. -/
def sha3 (bs : List Byte) : BitVec 512 := BitVec.ofNat 512 (ofBytes (sponge 72 0x06 64 bs))
/-- n bytes of SHAKE128 and of SHAKE256. -/
def shake128 (n : Nat) (bs : List Byte) : List Byte := sponge 168 0x1F n bs
def shake256 (n : Nat) (bs : List Byte) : List Byte := sponge 136 0x1F n bs

end Sys2Proof.Machine
end

