-- ==== Sys2Proof/Machine/Signature.lean ====
section
/-! DEFINITION. ML-DSA-87 (R6, R332): signing and verification as FIPS 204 has them, which the spec names (PRESUMED, log entry
14). Polynomials are lists of 256 coefficients modulo q, lowest power first; the context string is empty. -/

namespace Sys2Proof.Machine

open Sys2Proof

namespace Mldsa

/-- The modulus, the dropped bits of t, the widths of z and of the low part, the bound of c s, and the most hints. -/
def q : Nat := 8380417
def d : Nat := 13
def gamma1 : Nat := 524288
def gamma2 : Nat := 261888
def beta : Nat := 120
def omega : Nat := 75

abbrev Poly := List Nat

/-! Arithmetic modulo q. -/

def powMod (x n : Nat) : Nat :=
  ((List.range 23).foldl (fun (p : Nat × Nat) i => (if n / 2 ^ i % 2 = 1 then p.1 * p.2 % q else p.1, p.2 * p.2 % q)) (1, x % q)).1
/-- The 256 odd powers of the root 1753 at which a polynomial is evaluated, in bit-reversed order. -/
def roots : List Nat :=
  (List.range 256).map (fun i =>
    powMod 1753 (2 * (List.range 8).foldl (fun r k => r + i / 2 ^ k % 2 * 2 ^ (7 - k)) 0 + 1))
/-- The number-theoretic transform, and its inverse. -/
def ntt (f : Poly) : Poly := roots.map (fun x => f.foldr (fun c a => (c + x * a) % q) 0)
def unNtt (f : Poly) : Poly :=
  let inv := roots.map (fun x => powMod x 511)
  (List.range 256).map (fun j =>
    (List.zipWith (fun a x => a * powMod x j) f inv).foldl (fun s v => (s + v) % q) 0 * powMod 256 (q - 2) % q)
def add (f g : Poly) : Poly := List.zipWith (fun a b => (a + b) % q) f g
def sub (f g : Poly) : Poly := List.zipWith (fun a b => (a + (q - b % q)) % q) f g
def mul (f g : Poly) : Poly := List.zipWith (fun a b => a * b % q) f g
def zero : Poly := List.replicate 256 0
/-- A matrix in the transform's domain applied to a vector, row by row. -/
def apply (m : List (List Poly)) (v : List Poly) : List Poly :=
  m.map (fun row => (List.zipWith mul row v).foldl add zero)
/-- The size of a coefficient taken between -q/2 and q/2, and the largest of some polynomials. -/
def size (c : Nat) : Nat := if c % q ≤ q / 2 then c % q else q - c % q
def norm (fs : List Poly) : Nat := fs.flatten.foldl (fun m c => max m (size c)) 0

/-! Packing: coefficients of b bits, low bits first. -/

def pack (b : Nat) (f : Poly) : List Byte := toBytes (32 * b) (f.foldr (fun c a => c % 2 ^ b + 2 ^ b * a) 0)
def unpack (b : Nat) (bs : List Byte) : Poly := (List.range 256).map (fun i => bitsOfBytes bs (b * i) b)
/-- Coefficients packed as their distance below a bound. -/
def packFrom (b top : Nat) (f : Poly) : List Byte := pack b (f.map (fun c => (top + (q - c % q)) % q))
def unpackFrom (b top : Nat) (bs : List Byte) : Poly := (unpack b bs).map (fun v => (top + (q - v)) % q)
/-- n polynomials of `len` bytes each from the front. -/
def pieces (n len : Nat) (bs : List Byte) : List (List Byte) := (List.range n).map (fun i => (bs.drop (len * i)).take len)

/-! Sampling. -/

/-- A polynomial of the matrix: three bytes give a coefficient below q or nothing. -/
def sampleNtt (seed : List Byte) : Poly :=
  ((pieces 448 3 (shake128 1344 seed)).filterMap (fun b =>
    let v := ofBytes b % 2 ^ 23
    if v < q then some v else none)).take 256
def matrix (rho : List Byte) : List (List Poly) :=
  (List.range 8).map (fun r => (List.range 7).map (fun s => sampleNtt (rho ++ [BitVec.ofNat 8 s, BitVec.ofNat 8 r])))
/-- The first byte of a stream that is at most i, and the stream after it. -/
def atMost (i : Nat) : List Byte → Nat × List Byte
  | [] => (0, [])
  | b :: r => if b.toNat ≤ i then (b.toNat, r) else atMost i r
/-- The challenge: 60 coefficients of 1 or -1. -/
def ball (seed : List Byte) : Poly :=
  let out := shake256 1088 seed
  let signs := ofBytes (out.take 8)
  ((List.range 60).foldl (fun (p : Poly × List Byte) k =>
    let i := 196 + k
    let (j, r) := atMost i p.2
    ((p.1.set i (nth p.1 j 0)).set j (if signs / 2 ^ k % 2 = 1 then q - 1 else 1), r)) (zero, out.drop 8)).1
/-- The masking vector. -/
def masks (seed : List Byte) (kappa : Nat) : List Poly :=
  (List.range 7).map (fun r => unpackFrom 20 gamma1 (shake256 640 (seed ++ toBytes 2 (kappa + r))))

/-! High and low parts, and hints. -/

/-- The high part, 0 to 15, and the low part of a coefficient. -/
def split (c : Nat) : Nat × Int :=
  let c := c % q
  let l : Int := if c % (2 * gamma2) ≤ gamma2 then (c % (2 * gamma2) : Nat) else (c % (2 * gamma2) : Nat) - (2 * gamma2 : Nat)
  if (c : Int) - l = (q : Int) - 1 then (0, l - 1) else (((c : Int) - l).toNat / (2 * gamma2), l)
def useHint (h : Bool) (c : Nat) : Nat :=
  let (r1, r0) := split c
  if !h then r1 else if 0 < r0 then (r1 + 1) % 16 else (r1 + 15) % 16
def packHigh (w : List Poly) : List Byte := w.flatMap (pack 4)

/-- The hints as 75 rising positions, polynomial by polynomial, and 8 counts; none where they are not so. -/
def unpackHints (y : List Byte) : Option (List (List Bool)) :=
  let at_ := fun (i : Nat) => (nth y i 0).toNat
  let last := fun (i : Nat) => if i = 0 then 0 else at_ (omega + i - 1)
  let ok := (List.range 8).all (fun i => decide (last i ≤ last (i + 1)) && decide (last (i + 1) ≤ omega)
      && (List.range omega).all (fun k => !(decide (last i < k) && decide (k < last (i + 1))) || decide (at_ (k - 1) < at_ k)))
    && (List.range omega).all (fun k => decide (k < last 8) || at_ k = 0)
  if ok then
    some ((List.range 8).map (fun i => (List.range 256).map (fun c =>
      (List.range omega).any (fun k => decide (last i ≤ k) && decide (k < last (i + 1)) && decide (at_ k = c)))))
  else none
def packHints (h : List (List Bool)) : List Byte :=
  let ones := h.map (fun p => (List.range 256).filter (fun c => nth p c false))
  let flat := ones.flatten
  (flat ++ List.replicate (omega - flat.length) 0).map (BitVec.ofNat 8) ++
    (List.range 8).map (fun i => BitVec.ofNat 8 ((ones.take (i + 1)).flatten.length))

/-! Verification and signing. -/

/-- What is signed: the message under an empty context, hashed with the digest of the public key. -/
def message (tr m : List Byte) : List Byte := shake256 64 (tr ++ [0, 0] ++ m)

def verify (pk m sig : List Byte) : Bool :=
  if pk.length ≠ 2592 || sig.length ≠ 4627 then false
  else match unpackHints (sig.drop 4544) with
    | none => false
    | some h =>
      let t1 := (pieces 8 320 (pk.drop 32)).map (unpack 10)
      let seed := sig.take 64
      let z := (pieces 7 640 (sig.drop 64)).map (unpackFrom 20 gamma1)
      let c := ntt (ball seed)
      let az := apply (matrix (pk.take 32)) (z.map ntt)
      let w := List.zipWith (fun a t => unNtt (sub a (mul c (ntt (t.map (fun x => x * 2 ^ d % q)))))) az t1
      let w1 := List.zipWith (fun hs f => List.zipWith useHint hs f) h w
      decide (norm z < gamma1 - beta) && decide (shake256 64 (message (shake256 64 pk) m ++ packHigh w1) = seed)

/-- A secret key's parts: rho, K, tr, s1, s2 and t0. -/
structure Secret where
  rho : List Byte
  key : List Byte
  tr : List Byte
  s1 : List Poly
  s2 : List Poly
  t0 : List Poly
deriving DecidableEq, Repr

def secret (sk : List Byte) : Secret :=
  { rho := sk.take 32, key := (sk.drop 32).take 32, tr := (sk.drop 64).take 64,
    s1 := (pieces 7 96 (sk.drop 128)).map (unpackFrom 3 2), s2 := (pieces 8 96 (sk.drop 800)).map (unpackFrom 3 2),
    t0 := (pieces 8 416 (sk.drop 1568)).map (unpackFrom 13 4096) }

/-- The signing attempts in turn, at most n; the first that meets the bounds is the signature. -/
def attempts (k : Secret) (mu seed : List Byte) : Nat → Nat → List Byte
  | 0, _ => List.replicate 4627 0
  | n + 1, kappa =>
    let y := masks seed kappa
    let w := (apply (matrix k.rho) (y.map ntt)).map unNtt
    let tilde := shake256 64 (mu ++ packHigh (w.map (fun f => f.map (fun c => (split c).1))))
    let c := ntt (ball tilde)
    let times := fun (fs : List Poly) => fs.map (fun f => unNtt (mul c (ntt f)))
    let z := List.zipWith add y (times k.s1)
    let r := List.zipWith sub w (times k.s2)
    let t := times k.t0
    let rt := List.zipWith add r t
    let h := List.zipWith (fun f g => List.zipWith (fun a b => decide ((split a).1 ≠ (split b).1)) f g) rt r
    let low := r.flatten.foldl (fun m c => max m (split c).2.natAbs) 0
    if gamma1 - beta ≤ norm z || gamma2 - beta ≤ low || gamma2 ≤ norm t || omega < (h.flatten.filter id).length then
      attempts k mu seed n (kappa + 7)
    else tilde ++ z.flatMap (packFrom 20 gamma1) ++ packHints h

/-- The signature of a message under a secret key, with 32 random bytes; at most 814 attempts. -/
def sign (sk m rnd : List Byte) : List Byte :=
  let k := secret sk
  let mu := message k.tr m
  (attempts k mu (shake256 64 (k.key ++ rnd ++ mu)) 814 0).take 4627

end Mldsa

end Sys2Proof.Machine
end

