-- ==== Sys2Proof/Machine/System.lean ====
section
/-! DEFINITION. The management plane and the die itself: keys (R331), boot, measurement and attestation (R332), firmware and
admission holds (R333), power and temperature (R334), errors (R290), Riddle jobs and bins (R262, R266), BRING-UP (R335). -/

namespace Sys2Proof.Machine

open Sys2Proof

/-! Keys (R331). -/

/-- LOAD_KEY (R331). -/
def execLoadKey (slot : Nat) (key : BitVec 512) (s : State) : Out :=
  .next (if slot < 4096 then { s with keySlots := alSet s.keySlots slot key } else s)

/-- CLEAR_KEY (R331): L1 lines held under the key ID are written back and dropped first. -/
def execClearKey (slot : Nat) (s : State) : Out :=
  let s := s.cores.foldl (fun s c => s.removeLines c.1 (fun l => l.key.toNat = slot)) s
  .next { s with keySlots := alErase s.keySlots slot }

/-- SET_SYSTEM_ACCESS_KEY (R330, R335). -/
def execSetSystemAccessKey (die : Nat) (key : DWord) (s : State) : Out :=
  .next (s.setDie die { s.die die with sysKey := key })

/-- SET_POWER_CAP (R334): 1,500 W to 3,600 W; any other value changes nothing. -/
def execSetPowerCap (watts : Nat) (s : State) : Out :=
  .next (if 1500 ≤ watts && watts ≤ 3600 then { s with sys := { s.sys with powerCap := watts } } else s)

/-! Reset, boot and attestation (R332, R333, R335). -/

/-- Whether a physical granule lies in the HBM of a die (R155): stacks 2d and 2d + 1. -/
def ownGranule (d g : Nat) : Bool := decide (d * 0x1800000000 ≤ g * 32) && decide (g * 32 < (d + 1) * 0x1800000000)

/-- What a reset of a die loses: its launches and blocks, its cores, quarters and clusters, its contexts, queues and
connections. Memory keeps its bytes, and the tags of the die's HBM are set to 0 by its firmware (R335). -/
def State.clearDie (s : State) (d : Nat) : State :=
  let mine := fun (b : Block) => dieOf b.core = d
  let old := s.die d
  { s with
    launches := s.launches.map (fun (x : Launch) => if x.die = d && (x.phase = LPhase.queued || x.phase = LPhase.running) then { x with phase := LPhase.killed } else x),
    warps := s.warps.map (fun (x : Warp) => if dieOf (s.block x.blk).core = d then
        { x with phase := .gone, handlers := [], strands := [none, none, none, none], stopped := none, engFaults := [], lanes := 0,
                 task := none, resv := none } else x),
    blocks := s.blocks.map (fun (b : Block) => if mine b then
        { b with resid := .gone, scratch := [], acc := [], slots := [], savedOps := [], tasks := [] } else b),
    cores := s.cores.filter (fun c => dieOf c.1 ≠ d), quarters := s.quarters.filter (fun q => dieOf (q.1 / 4) ≠ d),
    clusters := s.clusters.filter (fun c => c.1 / Config.clustersPerDie ≠ d),
    tags := s.tags.filter (fun t => !ownGranule d t.1) }.setDie d
    { Die.reset with
      endpoint := old.endpoint, identity := old.identity, image := old.image, fuse := old.fuse, rollback := old.rollback, fwVersion := old.fwVersion, meas := old.meas,
      calBase := s.clock }

/-- The bytes of a digest. -/
def digestBytes (x : BitVec 512) : List Byte := toBytes 64 x.toNat

/-- What an image's signature covers: its version and its stages (log entry 14). -/
def signedBytes (m : Image) : List Byte := toBytes 8 m.version ++ m.stages.flatten

/-- Whether the boot ROM accepts an image: the fused digest of its key, its signature, and its version. -/
def Die.accepts (d : Die) (m : Image) : Bool :=
  decide (sha3 m.pubkey = d.fuse) && Mldsa.verify m.pubkey (signedBytes m) m.signature && decide (d.rollback ≤ m.version)

/-- The measurement registers after the boot stages, from zero: stage i extends register i mod 8. -/
def measure (stages : List (List Byte)) : List (BitVec 512) :=
  (List.range stages.length).foldl (fun ms i =>
    let old := nth ms (i % 8) 0
    ms.set (i % 8) (sha3 (digestBytes old ++ digestBytes (sha3 (nth stages i []))))) (List.replicate 8 0)

/-- A die resets, and its boot ROM runs an image (R332); one that it does not accept holds the die in reset. -/
def State.bootDie (s : State) (d : Nat) (m : Image) : State :=
  let s := s.clearDie d
  let k := { s.die d with image := some m }
  if k.accepts m then s.setDie d { k with inReset := false, fwVersion := m.version, meas := measure m.stages }
  else s.setDie d { k with inReset := true }

/-- DIE_RESET (R332, R335). -/
def execDieReset (die : Nat) (image : Image) (s : State) : Out := .next (s.bootDie die image)

/-- FIRMWARE_LOAD (R333): every context of the die must be disabled. -/
def execFirmwareLoad (die : Nat) (image : Image) (s : State) : Out :=
  .next (if (s.die die).ctxs.all (fun c => !c.2.enabled) then s.bootDie die image else s)

/-- ATTESTATION_REPORT (R332): measurements, firmware version, nonce, and their signature by the die's identity key. -/
def execAttestationReport (die : Nat) (nonce : BitVec 512) (s : State) : Out :=
  let k := s.die die
  let body := k.meas.flatMap digestBytes ++ toBytes 8 k.fwVersion ++ digestBytes nonce
  .next { s with sys := { s.sys with
    reports := s.sys.reports ++ [Report.attest die k.meas k.fwVersion nonce
      (Mldsa.sign k.identity body (toBytes 32 (Config.signRandom s.freeCtr).toNat))] } }

/-- HOLD_ADMISSION and ADMISSION_HOLD_RELEASE (R333). -/
def execHoldAdmission (die : Nat) (s : State) : Out := .next (s.setDie die { s.die die with holdAdm := true })
def execAdmissionHoldRelease (die : Nat) (s : State) : Out := .next (s.setDie die { s.die die with holdAdm := false })

/-! Errors and temperature (R290, R334). -/

/-- MCHK (R290). -/
def execMchk (die ctx : Nat) (s : State) : Out := .next (s.mchk die ctx)

/-- A die resets with the firmware that it has, which its boot ROM checks again (R332); a die on which none has been loaded
since State.reset comes back as that has it (log entry 14). -/
def State.rebootDie (s : State) (d : Nat) : State :=
  match (s.die d).image with
  | some m => s.bootDie d m
  | none => s.clearDie d

/-- JUNCTION_OVERTEMPERATURE (R334): the enabled contexts receive MCHK, and the die resets. -/
def execJunctionOvertemperature (die : Nat) (s : State) : Out :=
  let cs := ((s.die die).ctxs.filter (fun c => c.2.enabled)).map Prod.fst
  .next ((cs.foldl (fun s c => s.mchk die c) s).rebootDie die)

/-! The Riddle engine (R262, R266). -/

/-- RIDDLE_JOB_COMPLETION (R266). -/
def execRiddleJobCompletion (die : Nat) (s : State) : Out := .next (s.jobRun die)

/-- BIN_RASTERISATION (R262). -/
def execBinRasterisation (die draw : Nat) (s : State) : Out := .next (s.rasterNext die draw)

end Sys2Proof.Machine
end

