-- ==== Sys2Proof/Machine/Net.lean ====
section
/-! DEFINITION. What arrives over the Sahgiuk transport (R314 to R321, R326 to R330, R385, R386): checks of a message, order
and repetition, accesses for other agents, answers, retransmission, context commands. -/

namespace Sys2Proof.Machine

open Sys2Proof

/-! Checks (R314 to R317, R327). -/

/-- The class of a message kind (R316); an ack or a nack travels in the class of what it answers. -/
def kindClass (k : Nat) : Option Nat :=
  if 1 ≤ k && k ≤ 6 then some 1 else if 7 ≤ k && k ≤ 12 || k = 15 then some 0 else none

/-- Whether a frame and its header follow R314 to R316 for a message of kind k at a die that is not held in reset. -/
def Die.wellFormed (x : Die) (d : Nat) (k : Nat) (m : Msg) : Bool :=
  !x.inReset && m.phyOk && decide (m.bytes ≤ 9216) && decide (m.tags ≤ 1) && m.ipv6 && !m.extHdr && m.udp && m.port = 47810
    && m.csumOk && decide (m.plen ≤ 8192) && decide (m.plen = Msg.size m) && m.ver = 1 && !Msg.res0 m
    && decide (m.kind.toNat = k) && decide (m.die.toNat = d)
    && (match kindClass k with
      | some c => m.cls.toNat = c
      | none => decide (m.cls.toNat < 2))
/-- The same with the context's checks: enabled, and its access key. -/
def Die.admits (x : Die) (d : Nat) (k : Nat) (m : Msg) : Bool :=
  x.wellFormed d k m && (x.ctx m.ctx.toNat).enabled && decide ((x.ctx m.ctx.toNat).akey = m.akey)

/-! Order and repetition (R319). -/

/-- The answers that a receiver gives. -/
def ackOf (_ : Msg) : Msg := { Msg.blank with kind := 0x0D }
def nackOf (_ : Msg) (e : Err) : Msg :=
  { Msg.blank with kind := 0x0E, status := BitVec.ofNat 16 (e.1.num + e.2 * 256) }

/-- Whether a message of the same connection satisfies p among those accepted and not performed: deliveries that are held, and
messages that wait. -/
def Die.unperformed (x : Die) (m : Msg) (p : Msg → Bool) : Bool :=
  let at_ := fun (q : Msg) => q.conn = m.conn && q.src = m.src && p q
  x.halos.any (fun j => j.leaf.reply.any at_) || x.waiting.any at_
/-- Whether an earlier message has not been performed that this one waits for (R320): one of its connection and class, or, with
the fence flag, one of its connection, among them one of the other class that came early and was turned away. -/
def Die.mustWait (x : Die) (m : Msg) : Bool :=
  x.unperformed m (fun q => q.cls = m.cls || m.fence)
    || (m.fence && x.rx.any (fun r => r.conn = m.conn && r.src = m.src && r.cls ≠ m.cls && r.high ≠ r.next))

/-- A request is taken in psn order: performed once, after what it waits for; answered again when repeated, turned away when
early. `perform` gives the answer, if it comes at once, and `keep` says whether it is kept for repetition. -/
def State.receive (s : State) (d : Nat) (m : Msg) (keep : Bool) (perform : State → Option Msg × State) : State :=
  let x := s.die d
  let r := x.rxOf m
  if m.psn = r.next then
    let y := x.setRx { r with next := r.next + 1, high := if r.high = r.next then r.next + 1 else r.high }
    if x.mustWait m then s.setDie d { y with waiting := y.waiting ++ [m] }
    else
      let (a, s) := perform (s.setDie d y)
      match a with
      | none => s
      | some q =>
        let r := (s.die d).rxOf m
        let s := if keep then s.setDie d ((s.die d).setRx { r with stored := (({ q with psn := m.psn } :: r.stored).take 256) })
          else s
        (s.answer d m q).wake d
  else if (r.next - m.psn).toNat < 2 ^ 31 then
    match r.stored.find? (fun q => q.psn = m.psn) with
    | some q => s.answer d m q
    | none => if x.unperformed m (fun q => q.psn = m.psn && q.cls = m.cls) then s else s.answer d m (ackOf m)
  else
    let high := if (m.psn - r.high).toNat < 2 ^ 31 then m.psn + 1 else r.high
    (s.setDie d (x.setRx { r with high := high })).answer d m (nackOf m (.illop, 0))

/-- A request of a kind for an enabled context, or a message that is dropped. -/
def State.request (s : State) (d k : Nat) (m : Msg) (keep : Bool) (perform : State → Option Msg × State) : State :=
  if (s.die d).admits d k m then s.receive d m keep perform else s.dropMsg d m.inPort

/-! Accesses for other agents (R320). -/

/-- A translation to kind host is refused with PROT subcode 1 (R384). -/
def notHost (x : Except Err Trans) : Except Err Trans :=
  match x with
  | .ok t => if leafKind t.leaf = 2 then .error ePerm else .ok t
  | .error e => .error e

/-- The pieces of an incoming access, translated; the first condition that one meets. -/
def State.netRun (s : State) (w : Who) (k : AccKind) : List (Nat × Nat) → Except Err (List (Nat × Nat × Trans))
  | [] => .ok []
  | (p, n) :: r => match notHost (s.resolvePiece w k p n) with
    | .error e => .error e
    | .ok t => match s.netRun w k r with
      | .error e => .error e
      | .ok ts => .ok ((p, n, t) :: ts)

/-- Bytes written for another agent, all or none. -/
def State.netWrite (s : State) (d ctx p : Nat) (bs : List Byte) : Except Err State :=
  (s.writeMem (whoFab s d ctx) p bs).mapError Prod.fst

/-- Bytes read for another agent. -/
def State.netRead (s : State) (d ctx p n : Nat) : Except Err (List Byte × State) :=
  match s.netRun (whoFab s d ctx) .read (piecesOf p n) with
  | .error e => .error e
  | .ok _ => match s.readMem (whoFab s d ctx) [] p n with
    | (.bytes bs, s) => .ok (bs, s)
    | (.bad e _, _) => .error e
    | (.host _, _) => .error ePerm

/-- Tags written by the host (R163): a tag for each granule of a range of addresses (log entry 21). -/
def State.netTags (s : State) (d ctx p n tag : Nat) : Except Err State :=
  let who := whoFab s d ctx
  let gs := (List.range ((n + 31) / 32)).map (fun i => (p / 32 * 32 + 32 * i, 32))
  -- a tag write compares no tag
  let untagged := gs.map (fun g => match s.translate who (field g.1 0 57) true with
    | .error e => Except.error e
    | .ok t => if field g.1 57 3 ≠ 0 then .error eNoncanon
      else if !leafBit t.leaf 2 then .error ePerm
      else if leafSo t.leaf then .error eSpill
      else if leafKind t.leaf = 3 then .error eDiscarded
      else if leafKind t.leaf = 2 then .error ePerm else .ok t)
  match firstSome (fun x => match x with
      | Except.error e => some e
      | .ok _ => none) untagged with
  | some e => .error e
  | none => .ok ((gs.zip untagged).foldl (fun s g => match g.2 with
      | .ok t =>
        let s := s.touch who (field g.1.1 0 57) t true
        { s with tags := spSet 0 s.tags (t.pa / 32) (BitVec.ofNat 4 tag) }
      | .error _ => s) s)

/-- The operations of R386, by number: width in bytes and new value. -/
def redOp (op : Nat) (x : Nat) : Option (Nat × (Nat → Nat)) :=
  let w : Nat → BitVec 32 := fun v => BitVec.ofNat 32 v
  match op with
  | 0 => some (4, fun o => (w o + w x).toNat)
  | 1 => some (4, fun o => (addF32 o (x % 2 ^ 32)).bits)
  | 2 => some (4, fun o => (if (w x).slt (w o) then w x else w o).toNat)
  | 3 => some (4, fun o => (if (w o).slt (w x) then w x else w o).toNat)
  | 4 => some (4, fun o => (w o &&& w x).toNat)
  | 5 => some (4, fun o => (w o ||| w x).toNat)
  | 6 => some (8, fun o => (o + x) % 2 ^ 64)
  | _ => none

/-- The operations of an atomic message (log entry 21): those of R386, and those of ATOM and ATOMQ by their opcodes. -/
def atomicOp (op : Nat) (args : List DWord) : Option (Nat × (Nat → Nat)) :=
  let x := (nth args 0 0).toNat
  let y := (nth args 1 0).toNat
  let w : Nat → BitVec 32 := fun v => BitVec.ofNat 32 v
  match op with
  | 0x195 => some (4, fun o => (w o + w x).toNat)
  | 0x196 => some (4, fun o => (if (w x).slt (w o) then w x else w o).toNat)
  | 0x197 => some (4, fun o => (if (w o).slt (w x) then w x else w o).toNat)
  | 0x198 => some (4, fun o => (if (w x).ult (w o) then w x else w o).toNat)
  | 0x199 => some (4, fun o => (if (w o).ult (w x) then w x else w o).toNat)
  | 0x19A => some (4, fun o => (w o &&& w x).toNat)
  | 0x19B => some (4, fun o => (w o ||| w x).toNat)
  | 0x19C => some (4, fun _ => (w x).toNat)
  | 0x19D => some (4, fun o => (if w o = w x then w y else w o).toNat)
  | 0x19E => some (8, fun o => if beats fp32 (x % 2 ^ 32) (y % 2 ^ 32) (o % 2 ^ 32) (o / 2 ^ 32) then
      x % 2 ^ 32 + y % 2 ^ 32 * 2 ^ 32 else o)
  | 0x19F => some (32, fun o => (cellAdd o (x % 2 ^ 32)).1)
  | _ => redOp op x

/-- An atomic update for another agent at its home memory: the old value. -/
def State.netAtomic (s : State) (d ctx p n : Nat) (f : Nat → Nat) : Except Err (Nat × State) :=
  let who := whoFab s d ctx
  match notHost (s.resolve who false .write p n) with
  | .error e => .error e
  | .ok t =>
    let (bs, s) := s.homeRead who (field p 0 57) n t true
    .ok (ofBytes bs, s.homeWrite who (field p 0 57) (toBytes n (f (ofBytes bs))) t)

/-! Coded payloads (R326). -/

/-- The codes of a table of (length, exponent), shorter first and exponents ascending within a length: (length, code,
exponent). -/
def assignCodes : List (Nat × Nat) → Nat → Nat → List (Nat × Nat × Nat)
  | [], _, _ => []
  | (l, x) :: r, next, last =>
    let c := next * 2 ^ (l - last)
    (l, c, x) :: assignCodes r (c + 1) l
def codeTable (tab : List (Nat × Nat)) : List (Nat × Nat × Nat) :=
  let before := fun (a b : Nat × Nat) => decide (a.1 < b.1) || (decide (a.1 = b.1) && decide (a.2 ≤ b.2))
  assignCodes (sortBy before (tab.filter (fun e => 0 < e.1))) 0 0

/-- The exponent that the next code gives and the bit after it: a code's first bit is its highest, as in RFC 1951. -/
def readCode (table : List (Nat × Nat × Nat)) (v : Nat) : Nat → Nat → Nat → Nat → Option (Nat × Nat)
  | 0, _, _, _ => none
  | n + 1, pos, len, code =>
    let c := 2 * code + field v pos 1
    match table.find? (fun e => e.1 = len + 1 && e.2.1 = c) with
    | some e => some (e.2.2, pos + 1)
    | none => readCode table v n (pos + 1) (len + 1) c
def readCodes (table : List (Nat × Nat × Nat)) (v : Nat) : Nat → Nat → List Nat × Nat
  | 0, pos => ([], pos)
  | n + 1, pos =>
    let (x, pos) := (readCode table v 15 pos 0 0).getD (Config.codedExponent v (255 - n), pos + 15)
    let (xs, pos) := readCodes table v n pos
    (x :: xs, pos)

/-- The 256 FP32 values of the chunk at the front of a coded payload, as bytes, and the bytes after it. -/
def decodeChunk (bs : List Byte) : List Byte × List Byte :=
  let n := (bs.headD 0).toNat + 1
  let at_ := fun (i : Nat) => (nth bs i 0).toNat
  let tab := (List.range n).map (fun i => (at_ (2 + 2 * i) % 16, at_ (1 + 2 * i)))
  let coded := bs.drop (1 + 2 * n)
  let (xs, bits) := if n = 1 then (List.replicate 256 (at_ 1), 0) else readCodes (codeTable tab) (ofBytes (coded.take 480)) 256 0
  let raw := coded.drop ((bits + 7) / 8)
  ((List.range 256).flatMap (fun i =>
    let f := ofBytes ((raw.drop (3 * i)).take 3)
    toBytes 4 (f % 2 ^ 23 + nth xs i 0 * 2 ^ 23 + f / 2 ^ 23 * 2 ^ 31)), raw.drop 768)
def decodeChunks : Nat → List Byte → List Byte
  | 0, _ => []
  | n + 1, bs => if bs = [] then [] else (decodeChunk bs).1 ++ decodeChunks n (decodeChunk bs).2

/-- The data of a message: its payload, decoded where it is coded. -/
def Msg.payload (m : Msg) : List Byte := if m.coded then decodeChunks m.data.length m.data else m.data

/-- The delivery that a halo leaf message carries (R237; contents as log entry 21 lays them out). -/
def haloOf (m : Msg) : HaloLeaf :=
  let a := fun (i : Nat) => nth m.opnds i 0
  let o := (a 1).toNat
  { ctx := m.ctx.toNat, dtree := a 0, lx := BitVec.ofNat 16 (field o 0 16 / 8 * 8), ly := BitVec.ofNat 16 (field o 16 16 / 8 * 8),
    lz := BitVec.ofNat 16 (field o 32 16 / 8 * 8), vmask := (Msg.payload m).take 64, vals := (Msg.payload m).drop 64, rrec := a 2,
    bit := (a 3).toNat, step := (a 4).toNat, reply := some m }

/-- An incoming store-like access that met a discarded page leaves its a bit (R159). -/
def State.markNet (s : State) (d : Nat) (m : Msg) (e : Err) : State :=
  if e = eDiscarded then
    (piecesOf m.addr.toNat (max 1 (Msg.payload m).length)).foldl (fun s p => s.markDiscarded (whoFab s d m.ctx.toNat) p.1) s
  else s

/-- WRITE (R163, R237, R320): its ack follows its performance. -/
def execWrite (die : Nat) (m : Msg) (s : State) : Out :=
  .next (s.request die 1 m false (fun s =>
    if m.op = 0x1C4 then (none, match execHaloLeafDelivery die (haloOf m) s with
      | .next s => s
      | _ => s)
    else
      let r := if m.op = 1 then s.netTags die m.ctx.toNat m.addr.toNat m.len (nth m.opnds 0 0).toNat
        else s.netWrite die m.ctx.toNat m.addr.toNat (Msg.payload m)
      match r with
      | .ok s => (some (ackOf m), s)
      | .error e => (some (nackOf m e), s.markNet die m e)))

/-- READ_REQUEST (R320). -/
def execReadRequest (die : Nat) (m : Msg) (s : State) : Out :=
  .next (s.request die 2 m true (fun s =>
    match s.netRead die m.ctx.toNat m.addr.toNat (min m.len 8192) with
    | .ok (bs, s) => (some { ackOf m with kind := 3, len := bs.length, data := bs }, s)
    | .error e => (some (nackOf m e), s)))

/-- ATOMIC (R320): an operation that is none of the known is dropped. -/
def execAtomic (die : Nat) (m : Msg) (s : State) : Out :=
  match atomicOp m.op m.opnds with
  | none => .next (s.dropMsg die m.inPort)
  | some (n, f) =>
    .next (s.request die 4 m true (fun s =>
      match s.netAtomic die m.ctx.toNat m.addr.toNat n f with
      | .ok (v, s) => (some { ackOf m with kind := 5, len := n, data := toBytes n v }, s)
      | .error e => (some (nackOf m e), s.markNet die m e)))

/-- REDUCE (R320, R386). -/
def execReduce (die : Nat) (m : Msg) (s : State) : Out :=
  match redOp m.op (nth m.opnds 0 0).toNat with
  | none => .next (s.dropMsg die m.inPort)
  | some (n, f) =>
    .next (s.request die 6 m false (fun s =>
      match s.netAtomic die m.ctx.toNat m.addr.toNat n f with
      | .ok (_, s) => (some (ackOf m), s)
      | .error e => (some (nackOf m e), s.markNet die m e)))

/-- LAUNCH (R271, R272, R318): checked as LNCH checks; the launch response carries status and launch ID. -/
def execLaunch (die : Nat) (m : Msg) (s : State) : Out :=
  .next (s.request die 7 m false (fun s =>
    let r : Vec := BitVec.ofNat 1024 (ofBytes (m.data.take 128))
    let q := fieldOf m.addr 0 6
    let st := s.acceptStatus die q m.ctx.toNat r
    let a : Msg := { ackOf m with kind := 8, status := BitVec.ofNat 16 st }
    if st = 0 then (some { a with addr := BitVec.ofNat 64 (s.launches.length % 2 ^ 32) }, s.accept die q m.ctx.toNat r)
    else (some a, s)))

/-- STEP_COUNTER_UPDATE (R237, R238): the receive record advances as far as its arrivals allow; the ack follows. -/
def execStepCounterUpdate (die : Nat) (m : Msg) (s : State) : Out :=
  .next (s.request die 0x0A m false (fun s =>
    let leaf : HaloLeaf :=
      { ctx := m.ctx.toNat, dtree := 0, lx := 0, ly := 0, lz := 0, vmask := [], vals := [], rrec := m.addr, bit := 0,
        step := (nth m.opnds 0 0).toNat, reply := some m }
    (none, match execHaloLeafDelivery die leaf s with
      | .next s => s
      | _ => s)))

/-! Answers (R319 to R321, R385, R386). -/

/-- Whether a request is the one that an answer names. -/
def HostReq.isFor (r : HostReq) (m : Msg) : Bool := r.conn = m.conn && r.psn = m.psn && r.peer = m.src

/-- The responses that an answer adds. -/
def answersTo (reqs : List HostReq) (resp : List HostResp) (m : Msg) (val : BitVec 128) (bad : Option (Nat × Nat)) :
    List HostResp :=
  (reqs.filter (fun r => r.isFor m && (respOf resp r.kind r.addr.toNat r.n).isNone)).map (fun r =>
    ⟨r.kind, r.addr, r.n, if r.kind = 1 then val else BitVec.ofNat 128 (val.toNat % 2 ^ (8 * r.n)), bad⟩)

/-- The answer reaches a waiting strand, its memory instructions in flight, and those logged (R291, R292). -/
def Strand.hear (t : Strand) (m : Msg) (val : BitVec 128) (bad : Option (Nat × Nat)) : Strand :=
  let entry := fun (l : LogEntry) => { l with resp := l.resp ++ answersTo l.reqs l.resp m val bad }
  { t with
    wait := t.wait.map (fun (v : Wait) => { v with resp := v.resp ++ answersTo v.reqs v.resp m val bad }),
    flight := t.flight.map entry, log := t.log.map entry }

/-- The answer reaches the strands of a warp, its handlers' among them. -/
def Warp.hear (x : Warp) (m : Msg) (val : BitVec 128) (bad : Option (Nat × Nat)) : Warp :=
  { x with
    strands := x.strands.map (fun (t : Option Strand) => t.map (fun (u : Strand) => u.hear m val bad)),
    handlers := x.handlers.map (fun (h : Handler) => { h with strand := h.strand.hear m val bad }) }

/-- The answer reaches an engine operation: what it has asked for, and the lanes of an RST or RRED; a lane that is turned away
is sent anew when the operation goes on. -/
def EngOp.hear (o : EngOp) (m : Msg) (val : BitVec 128) (bad : Option (Nat × Nat)) : EngOp :=
  let o := { o with resp := o.resp ++ answersTo o.reqs o.resp m val bad }
  match o.kind with
  | .rem red op pkg die ctx fence q ls =>
    { o with kind := .rem red op pkg die ctx fence q (ls.map (fun l => match l.sent with
      | some r => if r.isFor m && !l.acked then (if bad.isNone then { l with acked := true } else { l with sent := none }) else l
      | none => l)) }
  | _ => o

/-- The address of the lane of an RST or RRED that a nack turns away. -/
def EngOp.nacked (o : EngOp) (m : Msg) : Option DWord :=
  match o.kind with
  | .rem _ _ _ _ _ _ _ ls => (ls.find? (fun l => match l.sent with
      | some r => r.isFor m && !l.acked
      | none => false)).map RemLane.addr
  | _ => none

/-- A nack stops the RST or RRED that sent a lane (R386); one that is stopped already waits with it. -/
def State.nackOp (s : State) (core q c sub : Nat) (addr : DWord) : State :=
  match s.headOp core q with
  | some o => if o.stopped then s else s.engFail core q o false (Cause.ofNum c, sub) addr.toNat
  | none => s

/-- What a launch that has left awaits no more; a nack to its last write goes to the error log (R280). -/
def Launch.over (x : Launch) : Bool := decide (x.phase ≠ .queued) && decide (x.phase ≠ .running)
def State.hearLaunch (s : State) (m : Msg) (bad : Option (Nat × Nat)) (l : Nat) : State :=
  match s.launches[l]? with
  | none => s
  | some x =>
    if !x.over then s
    else match x.reqs.find? (fun r => r.isFor m) with
      | none => s
      | some r =>
        let s := s.setLaunch l { x with reqs := x.reqs.filter (fun r => !r.isFor m), resp := [] }
        if bad.isSome then s.logError x.die l r.addr.toNat else s

/-- An answer to a message that no strand awaits: a nack is MCHK for a spilled reserve (R82), and for a task's join counter an
entry of the error log (log entry 49). -/
def State.hearPosts (s : State) (d : Nat) (m : Msg) (bad : Option (Nat × Nat)) : State :=
  let k := s.die d
  let mine := k.posts.filter (fun p => p.req.isFor m)
  if mine = [] then s
  else
    let s := s.setDie d { k with posts := k.posts.filter (fun p => !p.req.isFor m) }
    if bad.isNone then s
    else mine.foldl (fun s p => if p.spill then s.mchk d p.ctx else s.logError d p.launch p.req.addr.toNat) s

/-- What an answer brings to all that wait for it on a die, the saved operations of its blocks among them. -/
def State.hear (s : State) (d : Nat) (m : Msg) (val : BitVec 128) (bad : Option (Nat × Nat)) : State :=
  let nacked := s.cores.flatMap (fun c => if dieOf c.1 = d && bad.isSome then
      (List.range 4).filterMap (fun q => (s.headOp c.1 q).bind (fun o => (o.nacked m).map (fun a => (c.1, q, a))))
    else [])
  let ops := fun (qs : List (List EngOp)) => qs.map (fun q => q.map (fun o => o.hear m val bad))
  let s := { s with
    warps := s.warps.map (fun (x : Warp) => if dieOf (s.block x.blk).core = d then x.hear m val bad else x),
    cores := s.cores.map (fun (c : Nat × Core) => if dieOf c.1 = d then (c.1, { c.2 with cq := ops c.2.cq, mq := ops c.2.mq }) else c),
    blocks := s.blocks.map (fun (b : Block) =>
      if dieOf b.core = d then { b with savedOps := b.savedOps.map (fun (p : Nat × EngOp) => (p.1, p.2.hear m val bad)) } else b),
    launches := s.launches.map (fun (x : Launch) =>
      if x.die = d then { x with resp := x.resp ++ answersTo x.reqs x.resp m val bad } else x) }
  let k := s.die d
  let s := s.setDie d { k with
    jobs := k.jobs.map (fun (j : Job) => { j with resp := j.resp ++ answersTo j.reqs j.resp m val bad }),
    draws := k.draws.map (fun (r : Draw) => { r with resp := r.resp ++ answersTo r.reqs r.resp m val bad }),
    halos := k.halos.map (fun (j : HaloJob) => { j with resp := j.resp ++ answersTo j.reqs j.resp m val bad }) }
  let (c, sub) := bad.getD (0, 0)
  let s := (nacked.foldl (fun s x => s.nackOp x.1 x.2.1 c sub x.2.2) s).hearPosts d m bad
  ((List.range s.launches.length).filter (fun l => match s.launches[l]? with
    | some x => x.die = d
    | none => false)).foldl (fun s l => s.hearLaunch m bad l) s

/-- A message answered is no longer unacknowledged. -/
def State.release (s : State) (d : Nat) (m : Msg) : State :=
  let k := s.die d
  s.setDie d { k with tx := k.tx.map (fun (t : TxConn) =>
    if t.conn = m.conn && t.cls = m.cls && t.peer = m.src then { t with unacked := t.unacked.filter (fun u => u.psn ≠ m.psn) }
    else t) }

/-- The message of this die, still unanswered, that an answer names. -/
def Die.answersFor (x : Die) (m : Msg) : Option Msg :=
  (x.tx.find? (fun t => t.conn = m.conn && t.cls = m.cls && t.peer = m.src)).bind (fun t =>
    t.unacked.find? (fun u => u.psn = m.psn))

/-- The checks of an answer: those of R314 to R316, its target and access key being those of the message that it answers
(log entry 61). An answer to no message that is still unanswered brings nothing. -/
def State.answers (s : State) (d k : Nat) (m : Msg) (f : State → State) : State :=
  if !(s.die d).wellFormed d k { m with die := BitVec.ofNat 2 d } then s.dropMsg d m.inPort
  else match (s.die d).answersFor m with
    | none => s
    | some u => if u.ctx ≠ m.ctx || u.die ≠ m.die || u.akey ≠ m.akey then s.dropMsg d m.inPort else f s

/-- An answer: its message is no longer unacknowledged, and a class 1 answer reaches what waits for it. -/
def State.answered (s : State) (d k : Nat) (m : Msg) (val : BitVec 128) (bad : Option (Nat × Nat)) : State :=
  s.answers d k m (fun s =>
    let s' := s.release d m
    if m.cls = 1 then s'.hear d m val bad else s')

/-- READ_RESPONSE (R321, R385). -/
def execReadResponse (die : Nat) (m : Msg) (s : State) : Out :=
  .next (s.answered die 3 m (BitVec.ofNat 128 (ofBytes ((Msg.payload m).take 16))) none)
/-- ATOMIC_RESPONSE (R321). -/
def execAtomicResponse (die : Nat) (m : Msg) (s : State) : Out :=
  .next (s.answered die 5 m (BitVec.ofNat 128 (ofBytes (m.data.take 16))) none)
/-- ACK (R319, R386). -/
def execAck (die : Nat) (m : Msg) (s : State) : Out := .next (s.answered die 0x0D m 0 none)

/-- The messages of a connection and class that are not yet acknowledged go out again, in order (R319). -/
def State.resend (s : State) (d : Nat) (p : TxConn → Bool) (from_ : Msg → Bool) : State :=
  ((s.die d).tx.filter p).foldl (fun s t => (t.unacked.filter from_).foldl (fun s m => s.route t.peer m) s) s

/-- NACK (R319 to R321): one without a cause of a failed access asks for retransmission; any other is a fault at the
access, or a copy fault. -/
def execNack (die : Nat) (m : Msg) (s : State) : Out :=
  let c := fieldOf m.status 0 4
  if c = 0 then
    .next (s.answers die 0x0E m (fun s =>
      s.resend die (fun t => t.conn = m.conn && t.cls = m.cls && t.peer = m.src) (fun _ => true)))
  else .next (s.answered die 0x0E m 0 (some (c, fieldOf m.status 8 4)))

/-- RETRANSMIT_TIMEOUT (R319). -/
def execRetransmitTimeout (die : Nat) (conn : BitVec 32) (cls : BitVec 2) (s : State) : Out :=
  .next (s.resend die (fun t => t.conn = conn && t.cls = cls) (fun _ => true))

/-! Messages that stop launches and answer traps (R295, R300, R304, R316). -/

/-- The state that an event leaves. -/
def stateOf (s : State) (o : Out) : State :=
  match o with
  | .next t => t
  | _ => s

/-- PRE-EMPTION OR KILL REQUEST, kind 0x09: operands launch ID and action, 0 for pre-emption and 1 for a kill (log entry
21). One that names no launch of its context on this die is answered by a nack. -/
def State.stopRequest (s : State) (d : Nat) (m : Msg) : State :=
  s.request d 9 m false (fun s =>
    let l := (nth m.opnds 0 0).toNat
    match s.launches[l]? with
    | none => (some (nackOf m ePerm), s)
    | some x =>
      if x.die ≠ d || x.ctx ≠ m.ctx.toNat then (some (nackOf m ePerm), s)
      else (some (ackOf m), stateOf s (if nth m.opnds 1 0 = 0 then execPreEmptionRequest (s.blocksOf l) s else execKillRequest l s)))

/-- TRAP ACTION, kind 0x0C: operands warp, act and target (log entry 21). -/
def State.trapRequest (s : State) (d : Nat) (m : Msg) : State :=
  s.request d 12 m false (fun s =>
    let w := (nth m.opnds 0 0).toNat
    if dieOf (s.coreOfWarp w) ≠ d || s.ctxOfWarp w ≠ m.ctx.toNat then (some (nackOf m ePerm), s)
    else match s.trapAnswer w (nth m.opnds 1 0) (nth m.opnds 2 0) with
      | .ok s => (some (ackOf m), s)
      | .error e => (some (nackOf m e), s))

/-- The arrival of a message of a kind whose event row carries no header: a request to stop a launch, a trap action, a launch
response. Any other kind is dropped (R316). -/
def State.arrive (s : State) (d : Nat) (m : Msg) : State :=
  match m.kind.toNat with
  | 0x08 => s.answered d 8 m 0 none
  | 0x09 => s.stopRequest d m
  | 0x0C => s.trapRequest d m
  | _ => s.dropMsg d m.inPort

/-! Context commands (R327 to R330). -/

/-- The message that a context command is (R315, R330). -/
def Cmd.msg (c : Cmd) : Msg :=
  { Msg.blank with
    kind := 0x0F, cls := 0, die := BitVec.ofNat 2 c.die, akey := c.key, src := c.src, conn := c.conn, psn := c.psn,
    ackReq := c.ackReq, inPort := c.inPort }

/-- How a command ends: carried out, refused, or not yet, to be presented again. -/
inductive Verdict where
  | done | refused | later
deriving DecidableEq, Repr

/-- A command that carries the die's system access key is carried out in its turn (R319), answered by an ack, or by a nack when
it cannot be; any other is dropped. One that must wait takes no turn: it comes again. -/
def State.commandWith (s : State) (c : Cmd) (f : State → Verdict × State) : Out :=
  let m := Cmd.msg c
  if (s.die c.die).inReset || c.key ≠ (s.die c.die).sysKey then .next (s.dropMsg c.die c.inPort)
  else if c.psn = ((s.die c.die).rxOf m).next && (s.die c.die).mustWait m then .next s
  else if c.psn = ((s.die c.die).rxOf m).next && (f s).1 = .later then .next (f s).2
  else .next (s.receive c.die m false (fun s => match f s with
    | (.done, s) => (some (ackOf m), s)
    | (_, s) => (some (nackOf m ePerm), s)))

/-- A command that is carried out at once, or refused. -/
def State.command (s : State) (c : Cmd) (f : State → Option State) : Out :=
  s.commandWith c (fun s => match f s with
    | some t => (.done, t)
    | none => (.refused, s))

/-- The TFENCE.system of a command: the translations are dropped when it is first presented, and it is done when the
accesses that had used them have ended (R187, R188, R330). -/
def State.invalidate (s : State) (c : Cmd) (asid : BitVec 16) (lo hi : Nat) : Verdict × State :=
  let key := (c.src, c.conn, c.psn)
  let begun := ((s.die c.die).cmdWaits.find? (fun x => x.1 = key)).map Prod.snd
  let awaited := begun.getD (s.accessesOf asid (fun _ => true) true)
  let s := if begun.isSome then s else s.dropTranslations asid lo hi (fun _ => true) true
  let k := s.die c.die
  let others := k.cmdWaits.filter (fun x => x.1 ≠ key)
  if (s.accessesOf asid (fun _ => true) true).any awaited.contains then
    (.later, s.setDie c.die { k with cmdWaits := (key, awaited) :: others })
  else (.done, s.setDie c.die { k with cmdWaits := others })

/-- SET_STATE (R327, R330). -/
def execSetState (cmd : Cmd) (st : CtxSet) (s : State) : Out :=
  s.command cmd (fun s => if 64 ≤ st.ctx then none else some (s.setCtx cmd.die st.ctx { (s.die cmd.die).ctx st.ctx with
    asid := st.asid, root := st.root, rootkey := st.rootkey, akey := st.akey, host := st.host, hconn := st.hconn, save := st.save }))

/-- ENABLE (R327, R330). -/
def execEnable (cmd : Cmd) (ctx : Nat) (s : State) : Out :=
  s.command cmd (fun s => if 64 ≤ ctx then none else
    some (s.setCtx cmd.die ctx { (s.die cmd.die).ctx ctx with enabled := true }))

/-- DISABLE (R330): the context's launches are killed, then its translations dropped. -/
def execDisable (cmd : Cmd) (ctx : Nat) (s : State) : Out :=
  s.commandWith cmd (fun s =>
    if 64 ≤ ctx then (.refused, s)
    else
      let ls := (List.range s.launches.length).filter (fun l => match s.launches[l]? with
        | some x => x.die = cmd.die && x.ctx = ctx
        | none => false)
      let s := ls.foldl State.killLaunch s
      let c := (s.die cmd.die).ctx ctx
      ((s.setCtx cmd.die ctx { c with enabled := false }).dropLeaves cmd.die ctx).invalidate cmd c.asid 0 (2 ^ 57))

/-- ASSIGN_QUEUE (R272, R330). -/
def execAssignQueue (cmd : Cmd) (ctx queue : Nat) (s : State) : Out :=
  s.command cmd (fun s => if 64 ≤ ctx || 64 ≤ queue then none else
    some (s.setDie cmd.die { s.die cmd.die with qctx := alSet (s.die cmd.die).qctx queue ctx }))

/-- GRANT_INGOT_SEGMENT (R151, R330). -/
def execGrantIngotSegment (cmd : Cmd) (ctx seg : Nat) (s : State) : Out :=
  s.command cmd (fun s => if 64 ≤ ctx || 256 ≤ seg then none else
    let c := (s.die cmd.die).ctx ctx
    some (s.setCtx cmd.die ctx { c with ingot := if c.ingot.contains seg then c.ingot else seg :: c.ingot }))

/-- WRITE_PEER_ENTRY (R328): none that would leave two valid entries for one target. -/
def execWritePeerEntry (cmd : Cmd) (ctx idx : Nat) (entry : PeerEntry) (s : State) : Out :=
  s.command cmd (fun s =>
    let c := (s.die cmd.die).ctx ctx
    let twice := entry.valid && c.peers.any (fun p => decide (p.1 ≠ idx) && p.2.valid && p.2.pkg = entry.pkg
      && p.2.die = entry.die && p.2.ctx = entry.ctx)
    if 64 ≤ ctx || 256 ≤ idx || twice || entry.res0 then none
    else some (s.setCtx cmd.die ctx { c with peers := alSet c.peers idx entry }))

/-- Whether a message sent through a peer entry awaits its answer. -/
def Die.peerBusy (x : Die) (p : PeerEntry) : Bool :=
  x.tx.any (fun t => t.peer = p.addr && decide ((t.conn - p.cbase).toNat < 1120) && t.unacked ≠ [])

/-- CLEAR_PEER_ENTRY (R328): it completes when every message sent through the entry has been answered. -/
def execClearPeerEntry (cmd : Cmd) (ctx idx : Nat) (s : State) : Out :=
  s.commandWith cmd (fun s =>
    let c := (s.die cmd.die).ctx ctx
    if 64 ≤ ctx || 256 ≤ idx then (.refused, s)
    else if (alGet c.peers idx).any (fun p => p.valid && (s.die cmd.die).peerBusy p) then (.later, s)
    else (.done, s.setCtx cmd.die ctx { c with peers := alErase c.peers idx }))

/-- A held record or held copy of a context that carries a tag is removed, the one accepted first (R275, R330, R354). -/
def State.removeHeld (s : State) (d ctx : Nat) (tag : DWord) : Option State :=
  let mine := fun (o : EngOp) => o.held && o.tag = tag && (s.launchOf o.blk).ctx = ctx && (s.launchOf o.blk).die = d
  let ls := (List.range s.launches.length).filterMap (fun l => match s.launches[l]? with
    | some x => if x.die = d && x.ctx = ctx && x.held && x.phase = .queued && recBytes x.record 104 8 = tag.toNat then
        some (x.order, some l) else none
    | none => none)
  let cs := s.cores.flatMap (fun c => (c.2.cq.flatten.filter mine).map (fun o => (o.id, (none : Option Nat))))
  let vs := s.blocks.flatMap (fun b => (b.savedOps.filter (fun o => mine o.2)).map (fun o => (o.2.id, (none : Option Nat))))
  if tag = 0 then none
  else match sortBy (fun (x y : Nat × Option Nat) => decide (x.1 ≤ y.1)) (ls ++ cs ++ vs) with
    | [] => none
    | (_, some l) :: _ => (s.launches[l]?).map (fun x => (s.dropLaunch l).setLaunch l { x with phase := .refused })
    | (id, none) :: _ =>
      let s := s.dropOps (fun o => o.id = id)
      some { s with blocks := s.blocks.map (fun (b : Block) => { b with savedOps := b.savedOps.filter (fun o => o.2.id ≠ id) }) }

/-- REMOVE_HELD_RECORD (R329, R330). -/
def execRemoveHeldRecord (cmd : Cmd) (ctx : Nat) (tag : DWord) (s : State) : Out :=
  s.command cmd (fun s => s.removeHeld cmd.die ctx tag)

/-- READ_ERROR_LOG (R280, R330): the entries go to system software as a report; the ack carries no payload (R316). -/
def execReadErrorLog (cmd : Cmd) (s : State) : Out :=
  let es := (s.die cmd.die).errLog
  s.commandWith cmd (fun s =>
    (.done, { s with sys := { s.sys with reports := s.sys.reports ++ [Report.errLog cmd.die es] } }))

/-- INVALIDATE_TRANSLATIONS (R187, R330): TFENCE.system over a range of the context. -/
def execInvalidateTranslations (cmd : Cmd) (ctx : Nat) (start len : DWord) (s : State) : Out :=
  s.commandWith cmd (fun s =>
    if 64 ≤ ctx || fieldOf start 0 12 ≠ 0 || fieldOf len 0 12 ≠ 0 || fieldOf start 57 3 ≠ 0 then (.refused, s)
    else
      let lo := fieldOf start 0 57
      let (lo, hi) := if len = 0 then (0, 2 ^ 57) else (lo, min (lo + len.toNat) (2 ^ 57))
      s.invalidate cmd ((s.die cmd.die).ctx ctx).asid lo hi)

end Sys2Proof.Machine
end

