-- ==== Sys2Proof/Machine/Scalar.lean ====
section
/-! DEFINITION. Scalar arithmetic, SLI and SADR (R389 to R391). -/

namespace Sys2Proof.Machine

open Sys2Proof

/-- s[d] takes a function of s[a] and s[b] (R389). -/
def sArith (d a b : BitVec 7) (f : DWord → DWord → DWord) : Body := fun s =>
  .ok (s.wrS d.toNat (f (s.rdS a.toNat) (s.rdS b.toNat)))
/-- s[d] takes a function of s[a]. -/
def sUnary (d a : BitVec 7) (f : DWord → DWord) : Body := fun s => .ok (s.wrS d.toNat (f (s.rdS a.toNat)))
/-- s[d] takes a value that the immediate gives. -/
def sImm (d : BitVec 7) (f : State → DWord) : Body := fun s => .ok (s.wrS d.toNat (f s))
/-- A predicate as 1 or 0. -/
def bool64 (b : Bool) : DWord := if b then 1 else 0
/-- The count of a register shift, s[b][5:0]. -/
def sCount (y : DWord) : Nat := fieldOf y 0 6
/-- The high doublewords of the signed and unsigned products. -/
def mulHighS (x y : DWord) : DWord := BitVec.ofNat 64 (wrap 128 (sext 64 x.toNat * sext 64 y.toNat) / 2 ^ 64)
def mulHighU (x y : DWord) : DWord := BitVec.ofNat 64 (x.toNat * y.toNat / 2 ^ 64)

/-- SADD, register form (R390). -/
def execSadd (d a b : BitVec 7) (s : State) : Out :=
  perform (wordDab 0x040 d a b) (sArith d a b (fun x y => x + y)) s

/-- SADD with an immediate (R390). -/
def execSaddImm (d a imm : BitVec 7) (s : State) : Out :=
  perform (wordDab 0x041 d a imm) (fun s => .ok (s.wrS d.toNat (BitVec.ofNat 64 (add64 (s.rdS a.toNat) (s.imm 7 imm.toNat))))) s

/-- SSUB (R390). -/
def execSsub (d a b : BitVec 7) (s : State) : Out :=
  perform (wordDab 0x042 d a b) (sArith d a b (fun x y => x - y)) s

/-- SMUL (R390). -/
def execSmul (d a b : BitVec 7) (s : State) : Out :=
  perform (wordDab 0x043 d a b) (sArith d a b (fun x y => x * y)) s

/-- SMULH.s (R390). -/
def execSmulhS (d a b : BitVec 7) (s : State) : Out :=
  perform (wordDab 0x044 d a b) (sArith d a b mulHighS) s

/-- SMULH.u (R390). -/
def execSmulhU (d a b : BitVec 7) (s : State) : Out :=
  perform (wordDab 0x045 d a b) (sArith d a b mulHighU) s

/-- SAND (R390). -/
def execSand (d a b : BitVec 7) (s : State) : Out :=
  perform (wordDab 0x046 d a b) (sArith d a b (fun x y => x &&& y)) s

/-- SOR (R390). -/
def execSor (d a b : BitVec 7) (s : State) : Out :=
  perform (wordDab 0x047 d a b) (sArith d a b (fun x y => x ||| y)) s

/-- SXOR (R390). -/
def execSxor (d a b : BitVec 7) (s : State) : Out :=
  perform (wordDab 0x048 d a b) (sArith d a b (fun x y => x ^^^ y)) s

/-- SSHL, register form (R390). -/
def execSshl (d a b : BitVec 7) (s : State) : Out :=
  perform (wordDab 0x049 d a b) (sArith d a b (fun x y => x <<< (sCount y))) s

/-- SSHL with an immediate (R390). -/
def execSshlImm (d a imm : BitVec 7) (s : State) : Out :=
  perform (wordDab 0x04A d a imm) (sUnary d a (fun x => x <<< imm.toNat)) s

/-- SSHR, register form (R390). -/
def execSshr (d a b : BitVec 7) (s : State) : Out :=
  perform (wordDab 0x04B d a b) (sArith d a b (fun x y => x >>> (sCount y))) s

/-- SSHR with an immediate (R390). -/
def execSshrImm (d a imm : BitVec 7) (s : State) : Out :=
  perform (wordDab 0x04C d a imm) (sUnary d a (fun x => x >>> imm.toNat)) s

/-- SSRA, register form (R390). -/
def execSsra (d a b : BitVec 7) (s : State) : Out :=
  perform (wordDab 0x04D d a b) (sArith d a b (fun x y => x.sshiftRight (sCount y))) s

/-- SSRA with an immediate (R390). -/
def execSsraImm (d a imm : BitVec 7) (s : State) : Out :=
  perform (wordDab 0x04E d a imm) (sUnary d a (fun x => x.sshiftRight imm.toNat)) s

/-- SMIN.s (R390). -/
def execSminS (d a b : BitVec 7) (s : State) : Out :=
  perform (wordDab 0x04F d a b) (sArith d a b (fun x y => if x.slt y then x else y)) s

/-- SMIN.u (R390). -/
def execSminU (d a b : BitVec 7) (s : State) : Out :=
  perform (wordDab 0x050 d a b) (sArith d a b (fun x y => if x.ult y then x else y)) s

/-- SMAX.s (R390). -/
def execSmaxS (d a b : BitVec 7) (s : State) : Out :=
  perform (wordDab 0x051 d a b) (sArith d a b (fun x y => if x.slt y then y else x)) s

/-- SMAX.u (R390). -/
def execSmaxU (d a b : BitVec 7) (s : State) : Out :=
  perform (wordDab 0x052 d a b) (sArith d a b (fun x y => if x.ult y then y else x)) s

/-- SCMP.eq (R390). -/
def execScmpEq (d a b : BitVec 7) (s : State) : Out :=
  perform (wordDab 0x053 d a b) (sArith d a b (fun x y => bool64 (x == y))) s

/-- SCMP.ne (R390). -/
def execScmpNe (d a b : BitVec 7) (s : State) : Out :=
  perform (wordDab 0x054 d a b) (sArith d a b (fun x y => bool64 (x != y))) s

/-- SCMP.lt (R390). -/
def execScmpLt (d a b : BitVec 7) (s : State) : Out :=
  perform (wordDab 0x055 d a b) (sArith d a b (fun x y => bool64 (x.slt y))) s

/-- SCMP.le (R390). -/
def execScmpLe (d a b : BitVec 7) (s : State) : Out :=
  perform (wordDab 0x056 d a b) (sArith d a b (fun x y => bool64 (x.sle y))) s

/-- SCMP.ltu (R390). -/
def execScmpLtu (d a b : BitVec 7) (s : State) : Out :=
  perform (wordDab 0x057 d a b) (sArith d a b (fun x y => bool64 (x.ult y))) s

/-- SCMP.leu (R390). -/
def execScmpLeu (d a b : BitVec 7) (s : State) : Out :=
  perform (wordDab 0x058 d a b) (sArith d a b (fun x y => bool64 (x.ule y))) s

/-- SSEL (R390): s[a] when the old s[d] is not zero, else s[b]. -/
def execSsel (d a b : BitVec 7) (s : State) : Out :=
  perform (wordDab 0x059 d a b) (fun s => .ok (s.wrS d.toNat (if s.rdS d.toNat ≠ 0 then s.rdS a.toNat else s.rdS b.toNat))) s

/-- SMOV (R390). -/
def execSmov (d a : BitVec 7) (s : State) : Out :=
  perform (wordDab 0x05A d a 0) (sUnary d a id) s

/-- SLI (R391). -/
def execSli (d : BitVec 7) (imm : BitVec 14) (s : State) : Out :=
  perform (wordDi 0x05B d imm) (sImm d (fun s => BitVec.ofInt 64 (s.imm 14 imm.toNat))) s

/-- SADR (R391): the word address plus the immediate in bytes, with zero tag bits. -/
def execSadr (d : BitVec 7) (imm : BitVec 14) (s : State) : Out :=
  perform (wordDi 0x05C d imm) (sImm d (fun s => (BitVec.ofInt 57 ((s.issue.pc.toNat : Int) + s.imm 14 imm.toNat)).setWidth 64)) s

/-- SPOPC (R390). -/
def execSpopc (d a : BitVec 7) (s : State) : Out :=
  perform (wordDab 0x05D d a 0) (sUnary d a (fun x => BitVec.ofNat 64 (popCount 64 x.toNat))) s

/-- SCLZ (R390). -/
def execSclz (d a : BitVec 7) (s : State) : Out :=
  perform (wordDab 0x05E d a 0) (sUnary d a (fun x => BitVec.ofNat 64 (leadZeros 64 x.toNat))) s

end Sys2Proof.Machine
end

