-- ==== Sys2Proof/Machine/Sched.lean ====
section
/-! DEFINITION. What happens next when the agenda names nothing: the issue policy (R283, R284) and the steps that the machine
takes of itself, in turn. -/

namespace Sys2Proof.Machine

open Sys2Proof

/-! Issue (R283, R284). -/

/-- The engine class of an opcode, S V D M A as 0 to 4. -/
def engineClass (op : Nat) : Nat :=
  match (opInfo op).map OpInfo.cls with
  | some .V => 1
  | some .D => 2
  | some .M => 3
  | some .A => 4
  | _ => 0

/-- The class of the next instruction of the strand in an entry: that of a log entry to replay, else of its chain's word. -/
def State.nextClass (s : State) (w e : Nat) : Nat :=
  match (s.warp w).runner e with
  | none => 0
  | some t => match (if t.fault.isSome then none else t.log.head?) with
    | some l => engineClass (opOf l.word)
    | none => match ((s.setIssue w e t.pc t.pc 0 false).fetchChain 4 t.pc [] 0).1 with
      | .words _ _ wd => engineClass (opOf wd)
      | _ => 0

/-- Wait count of the strand in an entry. -/
def State.waitCount (s : State) (w e : Nat) : Nat := (((s.warp w).runner e).bind Strand.waited).getD 0

/-- The warps of a quarter that run. -/
def State.warpsOf (s : State) (q : Nat) : List Nat :=
  (List.range s.warps.length).filter (fun w => (s.warp w).phase = .running && (s.block (s.warp w).blk).resid = .resident
    && s.quarterOf w = q)

/-- The candidates of a quarter. -/
def State.candidates (s : State) (q : Nat) : List (Nat × Nat) :=
  (s.warpsOf q).flatMap (fun w => ([0, 1, 2, 3].filter (fun e => s.candidate w e)).map (fun e => (w, e)))

/-- The pick of a quarter: past the ageing bound the longest wait, else the class that has been idle longest; ties go to
the longer wait, the lower slot, the lower entry. -/
def State.pickOf (s : State) (q : Nat) : Option (Nat × Nat) :=
  let cs := s.candidates q
  let aged := cs.any (fun c => Config.ageLimit < s.waitCount c.1 c.2)
  let idle := fun (c : Nat × Nat) => if aged then 0 else nth (s.quarter q).idle (s.nextClass c.1 c.2) 0
  let key := fun (c : Nat × Nat) => (idle c, s.waitCount c.1 c.2, (s.warp c.1).slot, c.2)
  let before := fun (a b : Nat × Nat) =>
    let (i, v, n, e) := key a
    let (i', v', n', e') := key b
    if i ≠ i' then decide (i' < i) else if v ≠ v' then decide (v' < v) else if n ≠ n' then decide (n < n') else decide (e ≤ e')
  (sortBy before cs).head?

/-- The strand that an event lets go on. -/
def grantee (i : Instr) : Option (Nat × Nat) :=
  match i with
  | .missGroupMerge w e | .scoreboardClear w e | .rgrowGrant w e | .stageRingGrant w e | .qfenceCompletion w e
  | .mwinApply w e | .weightCacheEntryGrant w e | .obldGrant w e | .abarWaitResume w e | .fjoinReturn w e
  | .mwaitReturn w e | .yieldContinuation w e | .waitPauseEnd w e | .tinsLockRelease w e | .engineQueueEntry w e
  | .riddleJobQueueEntry w e | .samplerFetchCompletion w e | .pourPermitGrant (.strand w e) => some (w, e)
  | _ => none

/-- Whether a strand's instruction has issued: it waits for none, or for what it has already begun. -/
def State.pastIssue (s : State) (w e : Nat) : Bool :=
  match ((s.warp w).runner e).bind Strand.wait with
  | some v => v.kind = .host || v.kind = .sample
  | none => true

/-- What an action leaves where it has let the strand in an entry issue: the class of the instruction that it ran has issued on
this clock, and the strand's wait starts anew (R284). `first` says that the strand was not waiting at an instruction. An
instruction that waits at issue issues when it goes on, on the clock on which what it awaits has come and without the quarter's
pick, which R284 makes among ready strands (DESIGN CHOICE, log entry 75). -/
def State.tally (s t : State) (first : Bool) (w e : Nat) : State :=
  let i := t.issue
  let waited := match ((s.warp w).runner e).bind Strand.wait with
    | some v => if first then v.kind = .fetch else !(v.kind = .host || v.kind = .sample)
    | none => first
  if !waited || !t.pastIssue w e || i.warp ≠ w || i.entry ≠ e || (opInfo (opOf i.word)).isNone then t
  else
    let q := s.quarterOf w
    let t := t.setQuarter q { t.quarter q with issued := some (engineClass (opOf i.word)) }
    match (t.warp w).runner e with
    | some u => t.setWarp w ((t.warp w).setRunner e { u with waited := none })
    | none => t

/-- Element n of a list, counted round and round. -/
def turn {α : Type} (l : List α) (n : Nat) : Option α := l[n % l.length]?

/-- The issue that is due: quarters with a candidate take turns. -/
def State.issueDue (s : State) (n : Nat) : Option Act :=
  let qs := ((List.range s.warps.length).map s.quarterOf).eraseDups.filter (fun q => s.candidates q ≠ [])
  (turn qs n).bind (fun q => (s.pickOf q).map (fun p => .issue p.1 p.2 true))

/-! Steps of its own. -/

/-- The event that a waiting instruction awaits. -/
noncomputable def State.waitEvent (w e : Nat) (v : Wait) : Act :=
  match v.kind with
  | .board | .load => .ev (.scoreboardClear w e)
  | .miss => .ev (.missGroupMerge w e)
  | .permit => .ev (.pourPermitGrant (.strand w e))
  | .rgrow => .ev (.rgrowGrant w e)
  | .ring => .ev (.stageRingGrant w e)
  | .qfence => .ev (.qfenceCompletion w e)
  | .mwin => .ev (.mwinApply w e)
  | .weight => .ev (.weightCacheEntryGrant w e)
  | .obld => .ev (.obldGrant w e)
  | .abar => .ev (.abarWaitResume w e)
  | .fjoin => .ev (.fjoinReturn w e)
  | .mwait => .ev (.mwaitReturn w e)
  | .yield => .ev (.yieldContinuation w e)
  | .pause => .ev (.waitPauseEnd w e)
  | .tins => .ev (.tinsLockRelease w e)
  | .engineQueue => .ev (.engineQueueEntry w e)
  | .riddle => .ev (.riddleJobQueueEntry w e)
  | .sample => .ev (.samplerFetchCompletion w e)
  | _ => .retry w e

/-- What a warp may do beside issuing. -/
noncomputable def State.warpActs (s : State) (w : Nat) : List Act :=
  let x := s.warp w
  if (s.block x.blk).resid = .saving then
    [0, 1, 2, 3].flatMap (fun e => match x.strand e with
      | some t => (if t.flight = [] then [] else [.land w e]) ++ [.retry w e]
      | none => [])
  else if (s.block x.blk).resid ≠ .resident then []
  else match x.phase with
    | .gone => []
    | .exiting => [.ev (.exitDrainComplete w)]
    | .freeTask => [.ev (.taskStart w), .ev (.taskSteal (s.coreOfWarp w))]
    | .running =>
      (if x.engFaults = [] then [] else [.ev (.engineFaultDelivery w)]) ++
      ([0, 1, 2, 3].filter (fun e => (x.strand e).any (fun t => t.flight ≠ []))).map (fun e => .land w e) ++
      ([0, 1, 2, 3].filter (fun e => s.goesBehind w e)).map (fun e => .retry w e) ++
      [0, 1, 2, 3].flatMap (fun e => match x.runner e with
        | none => []
        | some t =>
          (if t.fault.isSome then [.ev (.deferredFaultDelivery w e)] else []) ++
          (match t.wait with
            | none => []
            | some v => [State.waitEvent w e v] ++ (if v.kind.limited && x.barlim ≠ 0 then [.ev (.barhang w e)] else [])))

/-- What the operation at the head of a queue may do. -/
noncomputable def opActs (core q : Nat) (o : EngOp) : List Act :=
  if o.performed then [.ev (.engineOperationCompletion core q)]
  else match o.kind with
    | .coll _ _ _ _ _ _ => [.ev (if o.stage = 0 then .collectiveRequest core q else .collectiveResultCopy core q)]
    | .mat _ => [.ev (.matrixOperationPerform core (q - 4))]
    | .copym _ _ _ =>
      if o.stage = 1 then [.ev (.followOnMmaEntry core q)]
      else (if o.permit then [] else [.ev (.pourPermitGrant (.copyHead core q))]) ++ [.ev (.copyPerform core q 64)]
    | _ => (if o.copyAsks && !o.permit then [.ev (.pourPermitGrant (.copyHead core q))] else []) ++ [.ev (.copyPerform core q 64)]

/-- What a core may do: its queues' heads, follow-on permits, draining registers. -/
noncomputable def coreActs (core : Nat) (k : Core) : List Act :=
  (List.range 6).flatMap (fun q => match (k.queue q).head? with
    | some o => opActs core q o ++ (if q < 4 && o.stage = 2 then [.ev (.pourPermitGrant (.followOn core q))] else [])
    | none => [])

/-- What a die may do. -/
noncomputable def dieActs (d : Nat) (x : Die) : List Act :=
  (if x.loader.isSome && !x.ingotLoad then [.ev (.ingotLoadState d)] else []) ++
  (if x.queues.any (fun q => q ≠ []) && !x.holdAdm then [.ev (.admission d 0 0)] else []) ++
  (if x.jobs = [] then [] else [.ev (.riddleJobCompletion d)]) ++
  (List.range x.draws.length).map (fun k => .ev (.binRasterisation d k)) ++
  x.halos.map (fun j => .ev (.haloLeafDelivery d j.leaf))

/-- What launches and blocks may do. -/
noncomputable def State.launchActs (s : State) : List Act :=
  ((List.range s.launches.length).filter (fun l => match s.launches[l]? with
    | some x => s.launchEnded l x
    | none => false)).map (fun l => .ev (.launchCompletion l)) ++
  (List.range s.blocks.length).flatMap (fun b => match (s.block b).resid with
    | .saving => [.ev (.preEmptionSaveComplete b)]
    | .saved => [.ev (.resumption b (s.block b).core (s.block b).q0)]
    | _ => [])

/-- Every step of its own that the machine may try. -/
noncomputable def State.ownActs (s : State) : List Act :=
  (List.range s.warps.length).flatMap s.warpActs ++ s.cores.flatMap (fun c => coreActs c.1 c.2) ++
  (s.quarters.filter (fun q => q.2.draining ≠ [])).map (fun q => .ev (.registerDrainComplete (q.1 / 4) (q.1 % 4))) ++
  (List.range s.dies.length).flatMap (fun d => dieActs d (s.die d)) ++ s.launchActs

/-- What happens next when the agenda is empty: issues and the machine's own steps alternate. -/
noncomputable def State.choose (s : State) : Option Act :=
  let n := s.clock / 2
  let own := turn s.ownActs n
  let due := s.issueDue n
  if s.clock % 2 = 0 then due.or own else own.or due

/-! Actions. -/

/-- A step begins: one clock passes and fresh free values are drawn (R154). -/
def State.begin (s : State) : State := { s.passClocks 1 with freeCtr := s.freeCtr + 1 }

/-- A step ends: no chain is being issued. -/
def ended (o : Out) : Out :=
  match o with
  | .next s => .next { s with issue := Issue.idle }
  | .fault f => .fault f
  | .refused r => .refused r

/-- The event that the arrival of a message is, for the kinds that have one with their header. -/
noncomputable def arrival (d : Nat) (m : Msg) : Option Instr :=
  match m.kind.toNat with
  | 0x01 => some (.write d m)
  | 0x02 => some (.readRequest d m)
  | 0x03 => some (.readResponse d m)
  | 0x04 => some (.atomic d m)
  | 0x05 => some (.atomicResponse d m)
  | 0x06 => some (.reduce d m)
  | 0x07 => some (.launch d m)
  | 0x0A => some (.stepCounterUpdate d m)
  | 0x0D => some (.ack d m)
  | 0x0E => some (.nack d m)
  | _ => none

/-- Whether a waiting instruction, or one in flight, of a warp may go on: its block is resident, or it stops and the
instruction must complete (R300). -/
def State.mayEnd (s : State) (w : Nat) (must : Bool) : Bool :=
  let x := s.warp w
  decide (x.phase = .running) && (decide ((s.block x.blk).resid = .resident)
    || (must && decide ((s.block x.blk).resid = .saving)))

/-- A step of an instruction that must complete while its block stops: what still waits then is taken back. -/
def ending (w : Nat) (o : Out) : Out :=
  match o with
  | .next s => .next (if (s.block (s.warp w).blk).resid = .saving then s.setWarp w (s.warp w).halted else s)
  | .fault f => .fault f
  | .refused r => .refused r

/-- Another try of a waiting instruction for which the table has no event. -/
def State.retryAct (run : Word → State → Out) (s : State) (w e : Nat) : Out :=
  match s.waitOf w e with
  | some v => match v.kind with
    | .ret => .next (if s.warpLive w then s.settleRet w else s)
    | .bar | .barg => .next (if s.warpLive w then s.settleBars (s.warp w).blk else s)
    | .host | .tins =>
      if s.mayEnd w v.mustEnd && (s.warp w).stopped.isNone && v.answered && !(s.warp w).stuck e v then
        ending w (s.retryWait run w e)
      else .next s
    | _ => s.grant w e [.atomKey, .flush, .slot, .tfence]
  | none => .next s

/-- Another try of an instruction of a program strand that has issued while a handler or a trap holds its warp, or that must
complete while its block stops (R300). -/
def State.endAct (run : Word → State → Out) (s : State) (w e : Nat) : Out :=
  match ((s.warp w).strand e).bind Strand.wait with
  | some v =>
    if (s.block (s.warp w).blk).resid = .saving && s.mayEnd w v.mustEnd && v.answered then
      ending w (s.behindTrap w e (fun s => s.retryWait run w e))
    else if s.goesBehind w e then s.behindTrap w e (fun s => s.retryWait run w e)
    else .next s
  | none => .next s

/-- The accesses of the first memory instruction in flight of a strand (R291). -/
def State.landAct (run : Word → State → Out) (s : State) (w e : Nat) : Out :=
  if s.mayEnd w (((s.warp w).strand e).any Strand.mustEnd) then
    ending w (s.behindTrap w e (fun s => s.landFlight run w e))
  else .next s

/-- What a cache may drop at any time (R148, R160, R223). -/
def State.dropAct (s : State) (a : Act) : State :=
  match a with
  | .evictLine core n => match (s.core core).l1[n]? with
    | some l => s.removeLines core (fun x => x = l)
    | none => s
  | .dropTlb cl n => s.setCluster cl { s.cluster cl with tlb := (s.cluster cl).tlb.eraseIdx n }
  | .dropPtr cl n => s.setCluster cl { s.cluster cl with ptrs := (s.cluster cl).ptrs.eraseIdx n }
  | .dropLeaf cl n => s.setCluster cl { s.cluster cl with leafs := (s.cluster cl).leafs.eraseIdx n }
  | .tick n => s.passClocks n
  | _ => s

/-- One action, with the decoder and the meanings given: `run` for an instruction word, `event` for an event row. A strand
issues only when its quarter picks it (R284). -/
noncomputable def State.act (run : Word → State → Out) (event : Instr → State → Out) (s : State) (a : Act) : Out :=
  match a with
  | .ev i => if i.hasWord then .next s else event i s
  | .issue w e split => if s.pickOf (s.quarterOf w) = some (w, e) then s.issueStrand run w e split else .next s
  | .retry w e =>
    if !s.goesBehind w e && (s.waitOf w e).isSome && (s.warp w).stopped.isNone then s.retryAct run w e else s.endAct run w e
  | .land w e => s.landAct run w e
  | .deliver d m => match arrival d m with
    | some i => event i s
    | none => .next (s.arrive d m)
  | _ => .next (s.dropAct a)

/-- An action with the counts that it changes (R284). -/
def State.counted (s : State) (a : Act) (o : Out) : Out :=
  let who := match a with
    | .issue w e _ => some (true, w, e)
    | .retry w e => some (false, w, e)
    | .ev i => (grantee i).map (fun p => (false, p.1, p.2))
    | _ => none
  match o, who with
  | .next t, some (first, w, e) => .next (s.tally t first w e)
  | _, _ => o

/-- A step, with the decoder and the meanings given: the head of the agenda, else what the machine does of itself. -/
noncomputable def State.stepWith (run : Word → State → Out) (event : Instr → State → Out) (s : State) : Out :=
  let s := s.begin
  match s.agenda with
  | a :: r => ended ({ s with agenda := r }.counted a ({ s with agenda := r }.act run event a))
  | [] => match s.choose with
    | some a => ended (s.counted a (s.act run event a))
    | none => .next s

/-! A program placed by hand. -/

/-- The address at which a placed instruction stands, in page 1 of context 0 of die 0, and the byte of HBM that it is. -/
def placeVa : Va := 0x1000
def placePa : Nat := 0x1000

/-- A launch record of one block of 32 lanes whose entry is the placed instruction. -/
def placeRecord : Vec := BitVec.ofNat 1024 (placeVa.toNat + 31 * 2 ^ 64 + 2 ^ 128 + 2 ^ 160 + 2 ^ 192)

/-- The state with bytes of code placed at placePa under key 0, a launch of one block of one warp at it on core 0 of die 0,
and the issue of that warp's strand next (log entry 5). -/
def State.place (s : State) (code : List Byte) : State :=
  let l := s.launches.length
  let b := s.blocks.length
  let w := s.warps.length
  let x : Launch :=
    { record := placeRecord, ctx := 0, die := 0, queue := 0, held := false, gx := 1, phase := .running, next := 1, total := 1,
      admitted := some s.seq, args := [], cover := [], leaves := [], status := 0, order := s.seq,
      reqs := [], resp := [] }
  let blk : Block :=
    { launch := l, idx := 0, bx := 0, by_ := 0, bz := 0, leafo := 0, leafp := 0, core := 0, q0 := 0, resid := .resident,
      gran := 0, ngran := 0, warps := [w], scratch := [], acc := [], slots := [], savedOps := [], tasks := [] }
  let cl := s.cluster 0
  let leaf : DWord := BitVec.ofNat 64 (placePa + 0x3F)
  let ent : TlbEntry := ⟨((s.die 0).ctx 0).asid, placeVa.toNat, 12, leaf⟩
  let s := { s with
    keySlots := alSet s.keySlots 0 0, launches := s.launches ++ [x], blocks := s.blocks ++ [blk],
    warps := s.warps ++ [newWarp x b 0 0 (0, 0)], agenda := .issue w 0 false :: s.agenda, seq := s.seq + 1 }
  (s.setCluster 0 { cl with tlb := ent :: cl.tlb }).physWrite 0 placePa code

end Sys2Proof.Machine
end

