-- ==== Sys2Proof/Machine/VecInt.lean ====
section
/-! DEFINITION. The vector integer instructions (R395 to R397). -/

namespace Sys2Proof.Machine

open Sys2Proof

/-- Each active lane of vd, helper lanes included, takes a function of its lanes of va and vb (R396). -/
def vArith (d a b : BitVec 7) (f : Word → Word → Word) : Body := fun s =>
  .ok (s.wrLanes d.toNat s.active (fun l => f (s.lane a.toNat l) (s.lane b.toNat l)))
/-- The same for an instruction that also reads the old vd. -/
def vTernary (d a b : BitVec 7) (f : Word → Word → Word → Word) : Body := fun s =>
  .ok (s.wrLanes d.toNat s.active (fun l => f (s.lane a.toNat l) (s.lane b.toNat l) (s.lane d.toNat l)))
def vUnary (d a : BitVec 7) (f : Word → Word) : Body := fun s =>
  .ok (s.wrLanes d.toNat s.active (fun l => f (s.lane a.toNat l)))
/-- Bit l of kd takes the predicate for each active lane (R396). -/
def vCompare (d a b : BitVec 7) (p : Word → Word → Bool) : Body := fun s =>
  .ok (s.wrMask d.toNat s.active (fun l => p (s.lane a.toNat l) (s.lane b.toNat l)))
/-- A sum or difference clamped to signed 32 bits (R118). -/
def satWord (x : Int) : Word := BitVec.ofInt 32 (clampS 32 x)
def signed (x : Word) : Int := sext 32 x.toNat
/-- Bits [63:32] of the signed and unsigned products. -/
def vMulHighS (x y : Word) : Word := BitVec.ofNat 32 (wrap 64 (signed x * signed y) / 2 ^ 32)
def vMulHighU (x y : Word) : Word := BitVec.ofNat 32 (x.toNat * y.toNat / 2 ^ 32)
/-- The count of a lane shift, vb[4:0]. -/
def vCount (y : Word) : Nat := fieldOf y 0 5
/-- Position and length of the field that vb names (R397). -/
def bitField (y : Word) : Nat × Nat :=
  let pos := fieldOf y 0 5
  (pos, min (min (fieldOf y 8 6) 32) (32 - pos))
/-- VBFE (R397). -/
def bitExtract (sgn : Bool) (x y : Word) : Word :=
  let (pos, n) := bitField y
  if n = 0 then 0 else if sgn then BitVec.ofInt 32 (sext n (fieldOf x pos n)) else BitVec.ofNat 32 (fieldOf x pos n)
/-- VBFI (R397). -/
def bitInsert (x y z : Word) : Word :=
  let (pos, n) := bitField y
  let m : Word := BitVec.ofNat 32 ((2 ^ n - 1) * 2 ^ pos)
  (z &&& ~~~m) ||| ((x <<< pos) &&& m)

/-- VADD (R395). -/
def execVadd (d a b : BitVec 7) (s : State) : Out :=
  perform (wordDab 0x080 d a b) (vArith d a b (fun x y => x + y)) s

/-- VADD.sat (R395). -/
def execVaddSat (d a b : BitVec 7) (s : State) : Out :=
  perform (wordDab 0x081 d a b) (vArith d a b (fun x y => satWord (signed x + signed y))) s

/-- VSUB (R395). -/
def execVsub (d a b : BitVec 7) (s : State) : Out :=
  perform (wordDab 0x082 d a b) (vArith d a b (fun x y => x - y)) s

/-- VSUB.sat (R395). -/
def execVsubSat (d a b : BitVec 7) (s : State) : Out :=
  perform (wordDab 0x083 d a b) (vArith d a b (fun x y => satWord (signed x - signed y))) s

/-- VMUL.lo (R395). -/
def execVmulLo (d a b : BitVec 7) (s : State) : Out :=
  perform (wordDab 0x084 d a b) (vArith d a b (fun x y => x * y)) s

/-- VMUL.hi.s (R395). -/
def execVmulHiS (d a b : BitVec 7) (s : State) : Out :=
  perform (wordDab 0x085 d a b) (vArith d a b vMulHighS) s

/-- VMUL.hi.u (R395). -/
def execVmulHiU (d a b : BitVec 7) (s : State) : Out :=
  perform (wordDab 0x086 d a b) (vArith d a b vMulHighU) s

/-- VMAD (R395). -/
def execVmad (d a b : BitVec 7) (s : State) : Out :=
  perform (wordDab 0x087 d a b) (vTernary d a b (fun x y z => x * y + z)) s

/-- VAND (R395). -/
def execVand (d a b : BitVec 7) (s : State) : Out :=
  perform (wordDab 0x088 d a b) (vArith d a b (fun x y => x &&& y)) s

/-- VOR (R395). -/
def execVor (d a b : BitVec 7) (s : State) : Out :=
  perform (wordDab 0x089 d a b) (vArith d a b (fun x y => x ||| y)) s

/-- VXOR (R395). -/
def execVxor (d a b : BitVec 7) (s : State) : Out :=
  perform (wordDab 0x08A d a b) (vArith d a b (fun x y => x ^^^ y)) s

/-- VSHL (R395). -/
def execVshl (d a b : BitVec 7) (s : State) : Out :=
  perform (wordDab 0x08B d a b) (vArith d a b (fun x y => x <<< vCount y)) s

/-- VSHR (R395). -/
def execVshr (d a b : BitVec 7) (s : State) : Out :=
  perform (wordDab 0x08C d a b) (vArith d a b (fun x y => x >>> vCount y)) s

/-- VSRA (R395). -/
def execVsra (d a b : BitVec 7) (s : State) : Out :=
  perform (wordDab 0x08D d a b) (vArith d a b (fun x y => x.sshiftRight (vCount y))) s

/-- VMIN.s (R395). -/
def execVminS (d a b : BitVec 7) (s : State) : Out :=
  perform (wordDab 0x08E d a b) (vArith d a b (fun x y => if x.slt y then x else y)) s

/-- VMIN.u (R395). -/
def execVminU (d a b : BitVec 7) (s : State) : Out :=
  perform (wordDab 0x08F d a b) (vArith d a b (fun x y => if x.ult y then x else y)) s

/-- VMAX.s (R395). -/
def execVmaxS (d a b : BitVec 7) (s : State) : Out :=
  perform (wordDab 0x090 d a b) (vArith d a b (fun x y => if x.slt y then y else x)) s

/-- VMAX.u (R395). -/
def execVmaxU (d a b : BitVec 7) (s : State) : Out :=
  perform (wordDab 0x091 d a b) (vArith d a b (fun x y => if x.ult y then y else x)) s

/-- VCMP.eq (R395, R396). -/
def execVcmpEq (d a b : BitVec 7) (s : State) : Out :=
  perform (wordDab 0x092 d a b) (vCompare d a b (fun x y => x == y)) s

/-- VCMP.ne (R395, R396). -/
def execVcmpNe (d a b : BitVec 7) (s : State) : Out :=
  perform (wordDab 0x093 d a b) (vCompare d a b (fun x y => x != y)) s

/-- VCMP.lt (R395, R396). -/
def execVcmpLt (d a b : BitVec 7) (s : State) : Out :=
  perform (wordDab 0x094 d a b) (vCompare d a b (fun x y => x.slt y)) s

/-- VCMP.le (R395, R396). -/
def execVcmpLe (d a b : BitVec 7) (s : State) : Out :=
  perform (wordDab 0x095 d a b) (vCompare d a b (fun x y => x.sle y)) s

/-- VCMP.ltu (R395, R396). -/
def execVcmpLtu (d a b : BitVec 7) (s : State) : Out :=
  perform (wordDab 0x096 d a b) (vCompare d a b (fun x y => x.ult y)) s

/-- VCMP.leu (R395, R396). -/
def execVcmpLeu (d a b : BitVec 7) (s : State) : Out :=
  perform (wordDab 0x097 d a b) (vCompare d a b (fun x y => x.ule y)) s

/-- VSEL (R395): va when the old vd is not zero, else vb. -/
def execVsel (d a b : BitVec 7) (s : State) : Out :=
  perform (wordDab 0x098 d a b) (vTernary d a b (fun x y z => if z ≠ 0 then x else y)) s

/-- VMOV (R395). -/
def execVmov (d a : BitVec 7) (s : State) : Out :=
  perform (wordDab 0x099 d a 0) (vUnary d a id) s

/-- VMOV.bc (R395): s[a][31:0] in every active lane. -/
def execVmovBc (d a : BitVec 7) (s : State) : Out :=
  perform (wordDab 0x09A d a 0) (fun s => .ok (s.wrLanes d.toNat s.active (fun _ => lowWord (s.rdS a.toNat)))) s

/-- VMOV.rd (R395, R396): the lane s[b][4:0] of va, whatever the masks hold. -/
def execVmovRd (d a b : BitVec 7) (s : State) : Out :=
  perform (wordDab 0x09B d a b) (fun s => .ok (s.wrS d.toNat ((s.lane a.toNat (fieldOf (s.rdS b.toNat) 0 5)).setWidth 64))) s

/-- VPOPC (R395). -/
def execVpopc (d a : BitVec 7) (s : State) : Out :=
  perform (wordDab 0x09C d a 0) (vUnary d a (fun x => BitVec.ofNat 32 (popCount 32 x.toNat))) s

/-- VCLZ (R395). -/
def execVclz (d a : BitVec 7) (s : State) : Out :=
  perform (wordDab 0x09D d a 0) (vUnary d a (fun x => BitVec.ofNat 32 (leadZeros 32 x.toNat))) s

/-- VBFE.s (R397). -/
def execVbfeS (d a b : BitVec 7) (s : State) : Out :=
  perform (wordDab 0x09E d a b) (vArith d a b (bitExtract true)) s

/-- VBFE.u (R397). -/
def execVbfeU (d a b : BitVec 7) (s : State) : Out :=
  perform (wordDab 0x09F d a b) (vArith d a b (bitExtract false)) s

/-- VBFI (R397). -/
def execVbfi (d a b : BitVec 7) (s : State) : Out :=
  perform (wordDab 0x0A0 d a b) (vTernary d a b bitInsert) s

end Sys2Proof.Machine
end

