-- ==== Sys2Proof/Machine/Dispatch.lean ====
section
/-! DEFINITION. exec: one arm per row of the opcode table, each a direct call of that row's meaning. -/

namespace Sys2Proof.Machine

open Sys2Proof

/-- The meaning of one instruction or event in a state. -/
def exec (i : Instr) (s : State) : Host.Outcome State Fault Refusal :=
  match i with
  | .nop => Sys2Proof.Machine.execNop s
  | .ximm imm => Sys2Proof.Machine.execXimm imm s
  | .ksel n m => Sys2Proof.Machine.execKsel n m s
  | .bra imm => Sys2Proof.Machine.execBra imm s
  | .bscZ d imm => Sys2Proof.Machine.execBscZ d imm s
  | .bscNz d imm => Sys2Proof.Machine.execBscNz d imm s
  | .brvT d imm => Sys2Proof.Machine.execBrvT d imm s
  | .brvF d imm => Sys2Proof.Machine.execBrvF d imm s
  | .conv => Sys2Proof.Machine.execConv s
  | .exit => Sys2Proof.Machine.execExit s
  | .yield imm => Sys2Proof.Machine.execYield imm s
  | .wait imm => Sys2Proof.Machine.execWait imm s
  | .mwait a b => Sys2Proof.Machine.execMwait a b s
  | .idem => Sys2Proof.Machine.execIdem s
  | .bar imm => Sys2Proof.Machine.execBar imm s
  | .call imm => Sys2Proof.Machine.execCall imm s
  | .calli a => Sys2Proof.Machine.execCalli a s
  | .ret => Sys2Proof.Machine.execRet s
  | .frame imm => Sys2Proof.Machine.execFrame imm s
  | .wbase a => Sys2Proof.Machine.execWbase a s
  | .rgrow d => Sys2Proof.Machine.execRgrow d s
  | .rshrink d => Sys2Proof.Machine.execRshrink d s
  | .barg imm => Sys2Proof.Machine.execBarg imm s
  | .lclk d a => Sys2Proof.Machine.execLclk d a s
  | .trap imm => Sys2Proof.Machine.execTrap imm s
  | .eret a b => Sys2Proof.Machine.execEret a b s
  | .brkp imm => Sys2Proof.Machine.execBrkp imm s
  | .ctlr d imm => Sys2Proof.Machine.execCtlr d imm s
  | .ctlw a imm => Sys2Proof.Machine.execCtlw a imm s
  | .sadd d a b => Sys2Proof.Machine.execSadd d a b s
  | .saddImm d a imm => Sys2Proof.Machine.execSaddImm d a imm s
  | .ssub d a b => Sys2Proof.Machine.execSsub d a b s
  | .smul d a b => Sys2Proof.Machine.execSmul d a b s
  | .smulhS d a b => Sys2Proof.Machine.execSmulhS d a b s
  | .smulhU d a b => Sys2Proof.Machine.execSmulhU d a b s
  | .sand d a b => Sys2Proof.Machine.execSand d a b s
  | .sor d a b => Sys2Proof.Machine.execSor d a b s
  | .sxor d a b => Sys2Proof.Machine.execSxor d a b s
  | .sshl d a b => Sys2Proof.Machine.execSshl d a b s
  | .sshlImm d a imm => Sys2Proof.Machine.execSshlImm d a imm s
  | .sshr d a b => Sys2Proof.Machine.execSshr d a b s
  | .sshrImm d a imm => Sys2Proof.Machine.execSshrImm d a imm s
  | .ssra d a b => Sys2Proof.Machine.execSsra d a b s
  | .ssraImm d a imm => Sys2Proof.Machine.execSsraImm d a imm s
  | .sminS d a b => Sys2Proof.Machine.execSminS d a b s
  | .sminU d a b => Sys2Proof.Machine.execSminU d a b s
  | .smaxS d a b => Sys2Proof.Machine.execSmaxS d a b s
  | .smaxU d a b => Sys2Proof.Machine.execSmaxU d a b s
  | .scmpEq d a b => Sys2Proof.Machine.execScmpEq d a b s
  | .scmpNe d a b => Sys2Proof.Machine.execScmpNe d a b s
  | .scmpLt d a b => Sys2Proof.Machine.execScmpLt d a b s
  | .scmpLe d a b => Sys2Proof.Machine.execScmpLe d a b s
  | .scmpLtu d a b => Sys2Proof.Machine.execScmpLtu d a b s
  | .scmpLeu d a b => Sys2Proof.Machine.execScmpLeu d a b s
  | .ssel d a b => Sys2Proof.Machine.execSsel d a b s
  | .smov d a => Sys2Proof.Machine.execSmov d a s
  | .sli d imm => Sys2Proof.Machine.execSli d imm s
  | .sadr d imm => Sys2Proof.Machine.execSadr d imm s
  | .spopc d a => Sys2Proof.Machine.execSpopc d a s
  | .sclz d a => Sys2Proof.Machine.execSclz d a s
  | .sldB d a imm => Sys2Proof.Machine.execSldB d a imm s
  | .sldH d a imm => Sys2Proof.Machine.execSldH d a imm s
  | .sldW d a imm => Sys2Proof.Machine.execSldW d a imm s
  | .sldD d a imm => Sys2Proof.Machine.execSldD d a imm s
  | .sstB d a imm => Sys2Proof.Machine.execSstB d a imm s
  | .sstH d a imm => Sys2Proof.Machine.execSstH d a imm s
  | .sstW d a imm => Sys2Proof.Machine.execSstW d a imm s
  | .sstD d a imm => Sys2Proof.Machine.execSstD d a imm s
  | .vadd d a b => Sys2Proof.Machine.execVadd d a b s
  | .vaddSat d a b => Sys2Proof.Machine.execVaddSat d a b s
  | .vsub d a b => Sys2Proof.Machine.execVsub d a b s
  | .vsubSat d a b => Sys2Proof.Machine.execVsubSat d a b s
  | .vmulLo d a b => Sys2Proof.Machine.execVmulLo d a b s
  | .vmulHiS d a b => Sys2Proof.Machine.execVmulHiS d a b s
  | .vmulHiU d a b => Sys2Proof.Machine.execVmulHiU d a b s
  | .vmad d a b => Sys2Proof.Machine.execVmad d a b s
  | .vand d a b => Sys2Proof.Machine.execVand d a b s
  | .vor d a b => Sys2Proof.Machine.execVor d a b s
  | .vxor d a b => Sys2Proof.Machine.execVxor d a b s
  | .vshl d a b => Sys2Proof.Machine.execVshl d a b s
  | .vshr d a b => Sys2Proof.Machine.execVshr d a b s
  | .vsra d a b => Sys2Proof.Machine.execVsra d a b s
  | .vminS d a b => Sys2Proof.Machine.execVminS d a b s
  | .vminU d a b => Sys2Proof.Machine.execVminU d a b s
  | .vmaxS d a b => Sys2Proof.Machine.execVmaxS d a b s
  | .vmaxU d a b => Sys2Proof.Machine.execVmaxU d a b s
  | .vcmpEq d a b => Sys2Proof.Machine.execVcmpEq d a b s
  | .vcmpNe d a b => Sys2Proof.Machine.execVcmpNe d a b s
  | .vcmpLt d a b => Sys2Proof.Machine.execVcmpLt d a b s
  | .vcmpLe d a b => Sys2Proof.Machine.execVcmpLe d a b s
  | .vcmpLtu d a b => Sys2Proof.Machine.execVcmpLtu d a b s
  | .vcmpLeu d a b => Sys2Proof.Machine.execVcmpLeu d a b s
  | .vsel d a b => Sys2Proof.Machine.execVsel d a b s
  | .vmov d a => Sys2Proof.Machine.execVmov d a s
  | .vmovBc d a => Sys2Proof.Machine.execVmovBc d a s
  | .vmovRd d a b => Sys2Proof.Machine.execVmovRd d a b s
  | .vpopc d a => Sys2Proof.Machine.execVpopc d a s
  | .vclz d a => Sys2Proof.Machine.execVclz d a s
  | .vbfeS d a b => Sys2Proof.Machine.execVbfeS d a b s
  | .vbfeU d a b => Sys2Proof.Machine.execVbfeU d a b s
  | .vbfi d a b => Sys2Proof.Machine.execVbfi d a b s
  | .fadd d a b => Sys2Proof.Machine.execFadd d a b s
  | .faddRn d a b => Sys2Proof.Machine.execFaddRn d a b s
  | .faddRz d a b => Sys2Proof.Machine.execFaddRz d a b s
  | .fsub d a b => Sys2Proof.Machine.execFsub d a b s
  | .fsubRn d a b => Sys2Proof.Machine.execFsubRn d a b s
  | .fsubRz d a b => Sys2Proof.Machine.execFsubRz d a b s
  | .fmul d a b => Sys2Proof.Machine.execFmul d a b s
  | .fmulRn d a b => Sys2Proof.Machine.execFmulRn d a b s
  | .fmulRz d a b => Sys2Proof.Machine.execFmulRz d a b s
  | .ffma d a b => Sys2Proof.Machine.execFfma d a b s
  | .ffmaRn d a b => Sys2Proof.Machine.execFfmaRn d a b s
  | .ffmaRz d a b => Sys2Proof.Machine.execFfmaRz d a b s
  | .fmin d a b => Sys2Proof.Machine.execFmin d a b s
  | .fmax d a b => Sys2Proof.Machine.execFmax d a b s
  | .fcmpEq d a b => Sys2Proof.Machine.execFcmpEq d a b s
  | .fcmpNe d a b => Sys2Proof.Machine.execFcmpNe d a b s
  | .fcmpLt d a b => Sys2Proof.Machine.execFcmpLt d a b s
  | .fcmpLe d a b => Sys2Proof.Machine.execFcmpLe d a b s
  | .fcmpUn d a b => Sys2Proof.Machine.execFcmpUn d a b s
  | .fcmpOrd d a b => Sys2Proof.Machine.execFcmpOrd d a b s
  | .frcp d a => Sys2Proof.Machine.execFrcp d a s
  | .frsq d a => Sys2Proof.Machine.execFrsq d a s
  | .fsqrt d a => Sys2Proof.Machine.execFsqrt d a s
  | .fdiv d a b => Sys2Proof.Machine.execFdiv d a b s
  | .fexp2 d a => Sys2Proof.Machine.execFexp2 d a s
  | .flog2 d a => Sys2Proof.Machine.execFlog2 d a s
  | .fsin d a => Sys2Proof.Machine.execFsin d a s
  | .fcos d a => Sys2Proof.Machine.execFcos d a s
  | .fcvtF32F16 d a => Sys2Proof.Machine.execFcvtF32F16 d a s
  | .fcvtF32Bf16 d a => Sys2Proof.Machine.execFcvtF32Bf16 d a s
  | .fcvtF16F32 d a => Sys2Proof.Machine.execFcvtF16F32 d a s
  | .fcvtBf16F32 d a => Sys2Proof.Machine.execFcvtBf16F32 d a s
  | .fcvtF32E4m3 d a => Sys2Proof.Machine.execFcvtF32E4m3 d a s
  | .fcvtF32E5m2 d a => Sys2Proof.Machine.execFcvtF32E5m2 d a s
  | .fcvtE4m3F32Sat d a => Sys2Proof.Machine.execFcvtE4m3F32Sat d a s
  | .fcvtE4m3F32 d a => Sys2Proof.Machine.execFcvtE4m3F32 d a s
  | .fcvtE5m2F32Sat d a => Sys2Proof.Machine.execFcvtE5m2F32Sat d a s
  | .fcvtE5m2F32 d a => Sys2Proof.Machine.execFcvtE5m2F32 d a s
  | .fcvtF32T8 d a => Sys2Proof.Machine.execFcvtF32T8 d a s
  | .fcvtT8F32 d a => Sys2Proof.Machine.execFcvtT8F32 d a s
  | .fcvtF32T6 d a => Sys2Proof.Machine.execFcvtF32T6 d a s
  | .fcvtT6F32 d a => Sys2Proof.Machine.execFcvtT6F32 d a s
  | .fcvtF32E2m1 d a => Sys2Proof.Machine.execFcvtF32E2m1 d a s
  | .fcvtE2m1F32 d a => Sys2Proof.Machine.execFcvtE2m1F32 d a s
  | .fcvtF32Int d a => Sys2Proof.Machine.execFcvtF32Int d a s
  | .fcvtF32Uint d a => Sys2Proof.Machine.execFcvtF32Uint d a s
  | .fcvtIntF32 d a => Sys2Proof.Machine.execFcvtIntF32 d a s
  | .fcvtUintF32 d a => Sys2Proof.Machine.execFcvtUintF32 d a s
  | .fcvtF64F32 d a => Sys2Proof.Machine.execFcvtF64F32 d a s
  | .fcvtF32F64 d a => Sys2Proof.Machine.execFcvtF32F64 d a s
  | .fcvtF64Int d a => Sys2Proof.Machine.execFcvtF64Int d a s
  | .fcvtIntF64 d a => Sys2Proof.Machine.execFcvtIntF64 d a s
  | .hadd2F16 d a b => Sys2Proof.Machine.execHadd2F16 d a b s
  | .hadd2Bf16 d a b => Sys2Proof.Machine.execHadd2Bf16 d a b s
  | .hmul2F16 d a b => Sys2Proof.Machine.execHmul2F16 d a b s
  | .hmul2Bf16 d a b => Sys2Proof.Machine.execHmul2Bf16 d a b s
  | .hfma2F16 d a b => Sys2Proof.Machine.execHfma2F16 d a b s
  | .hfma2Bf16 d a b => Sys2Proof.Machine.execHfma2Bf16 d a b s
  | .dadd d a b => Sys2Proof.Machine.execDadd d a b s
  | .dmul d a b => Sys2Proof.Machine.execDmul d a b s
  | .dfma d a b => Sys2Proof.Machine.execDfma d a b s
  | .ddiv d a b => Sys2Proof.Machine.execDdiv d a b s
  | .dsqrt d a => Sys2Proof.Machine.execDsqrt d a s
  | .dcmpEq d a b => Sys2Proof.Machine.execDcmpEq d a b s
  | .dcmpLt d a b => Sys2Proof.Machine.execDcmpLt d a b s
  | .dcmpLe d a b => Sys2Proof.Machine.execDcmpLe d a b s
  | .dcmpUn d a b => Sys2Proof.Machine.execDcmpUn d a b s
  | .qswz d a b => Sys2Proof.Machine.execQswz d a b s
  | .qddxFine d a => Sys2Proof.Machine.execQddxFine d a s
  | .qddxCoarse d a => Sys2Proof.Machine.execQddxCoarse d a s
  | .qddyFine d a => Sys2Proof.Machine.execQddyFine d a s
  | .qddyCoarse d a => Sys2Proof.Machine.execQddyCoarse d a s
  | .xshfIdx d a b => Sys2Proof.Machine.execXshfIdx d a b s
  | .xshfUp d a b => Sys2Proof.Machine.execXshfUp d a b s
  | .xshfDown d a b => Sys2Proof.Machine.execXshfDown d a b s
  | .xshfXor d a b => Sys2Proof.Machine.execXshfXor d a b s
  | .xbal d a => Sys2Proof.Machine.execXbal d a s
  | .xredAddInt d a => Sys2Proof.Machine.execXredAddInt d a s
  | .xredAddF32 d a => Sys2Proof.Machine.execXredAddF32 d a s
  | .xredMinF32 d a => Sys2Proof.Machine.execXredMinF32 d a s
  | .xredMaxF32 d a => Sys2Proof.Machine.execXredMaxF32 d a s
  | .xredAnd d a => Sys2Proof.Machine.execXredAnd d a s
  | .xredOr d a => Sys2Proof.Machine.execXredOr d a s
  | .xscanAddInt d a => Sys2Proof.Machine.execXscanAddInt d a s
  | .xscanAddF32 d a => Sys2Proof.Machine.execXscanAddF32 d a s
  | .xmaxiF16 d a b => Sys2Proof.Machine.execXmaxiF16 d a b s
  | .xmaxiF32 d a b => Sys2Proof.Machine.execXmaxiF32 d a b s
  | .vldBImm d a imm => Sys2Proof.Machine.execVldBImm d a imm s
  | .vldHImm d a imm => Sys2Proof.Machine.execVldHImm d a imm s
  | .vldWImm d a imm => Sys2Proof.Machine.execVldWImm d a imm s
  | .vldDImm d a imm => Sys2Proof.Machine.execVldDImm d a imm s
  | .vldBIdx d a b => Sys2Proof.Machine.execVldBIdx d a b s
  | .vldHIdx d a b => Sys2Proof.Machine.execVldHIdx d a b s
  | .vldWIdx d a b => Sys2Proof.Machine.execVldWIdx d a b s
  | .vldDIdx d a b => Sys2Proof.Machine.execVldDIdx d a b s
  | .vstBImm d a imm => Sys2Proof.Machine.execVstBImm d a imm s
  | .vstHImm d a imm => Sys2Proof.Machine.execVstHImm d a imm s
  | .vstWImm d a imm => Sys2Proof.Machine.execVstWImm d a imm s
  | .vstDImm d a imm => Sys2Proof.Machine.execVstDImm d a imm s
  | .vstBIdx d a b => Sys2Proof.Machine.execVstBIdx d a b s
  | .vstHIdx d a b => Sys2Proof.Machine.execVstHIdx d a b s
  | .vstWIdx d a b => Sys2Proof.Machine.execVstWIdx d a b s
  | .vstDIdx d a b => Sys2Proof.Machine.execVstDIdx d a b s
  | .vldsW d a b => Sys2Proof.Machine.execVldsW d a b s
  | .vldsD d a b => Sys2Proof.Machine.execVldsD d a b s
  | .vstsW d a b => Sys2Proof.Machine.execVstsW d a b s
  | .vstsD d a b => Sys2Proof.Machine.execVstsD d a b s
  | .vldi d a b => Sys2Proof.Machine.execVldi d a b s
  | .atomAdd d a b => Sys2Proof.Machine.execAtomAdd d a b s
  | .atomMinS d a b => Sys2Proof.Machine.execAtomMinS d a b s
  | .atomMaxS d a b => Sys2Proof.Machine.execAtomMaxS d a b s
  | .atomMinU d a b => Sys2Proof.Machine.execAtomMinU d a b s
  | .atomMaxU d a b => Sys2Proof.Machine.execAtomMaxU d a b s
  | .atomAnd d a b => Sys2Proof.Machine.execAtomAnd d a b s
  | .atomOr d a b => Sys2Proof.Machine.execAtomOr d a b s
  | .atomExch d a b => Sys2Proof.Machine.execAtomExch d a b s
  | .atomCas d a b => Sys2Proof.Machine.execAtomCas d a b s
  | .atomMaxi d a b => Sys2Proof.Machine.execAtomMaxi d a b s
  | .atomq d a b => Sys2Proof.Machine.execAtomq d a b s
  | .fenceWarp => Sys2Proof.Machine.execFenceWarp s
  | .fenceBlock => Sys2Proof.Machine.execFenceBlock s
  | .fenceGang => Sys2Proof.Machine.execFenceGang s
  | .fenceDie => Sys2Proof.Machine.execFenceDie s
  | .fenceDevice => Sys2Proof.Machine.execFenceDevice s
  | .fenceSystem => Sys2Proof.Machine.execFenceSystem s
  | .tfenceDie a b => Sys2Proof.Machine.execTfenceDie a b s
  | .tfenceDevice a b => Sys2Proof.Machine.execTfenceDevice a b s
  | .tfenceSystem a b => Sys2Proof.Machine.execTfenceSystem a b s
  | .qfence imm => Sys2Proof.Machine.execQfence imm s
  | .pref d a imm => Sys2Proof.Machine.execPref d a imm s
  | .copyG2s a => Sys2Proof.Machine.execCopyG2s a s
  | .copyS2g a => Sys2Proof.Machine.execCopyS2g a s
  | .copyG2g a => Sys2Proof.Machine.execCopyG2g a s
  | .copyIngot a => Sys2Proof.Machine.execCopyIngot a s
  | .copyHalo a => Sys2Proof.Machine.execCopyHalo a s
  | .copym a b => Sys2Proof.Machine.execCopym a b s
  | .abarArrive d a => Sys2Proof.Machine.execAbarArrive d a s
  | .abarWait a b => Sys2Proof.Machine.execAbarWait a b s
  | .stgaProd d a => Sys2Proof.Machine.execStgaProd d a s
  | .stgaCons d a => Sys2Proof.Machine.execStgaCons d a s
  | .stgrProd a b => Sys2Proof.Machine.execStgrProd a b s
  | .stgrCons a b => Sys2Proof.Machine.execStgrCons a b s
  | .mshp d a b => Sys2Proof.Machine.execMshp d a b s
  | .mwin a b => Sys2Proof.Machine.execMwin a b s
  | .mzero a => Sys2Proof.Machine.execMzero a s
  | .mmaBf16 d a b => Sys2Proof.Machine.execMmaBf16 d a b s
  | .mmaF16 d a b => Sys2Proof.Machine.execMmaF16 d a b s
  | .mmaE4m3 d a b => Sys2Proof.Machine.execMmaE4m3 d a b s
  | .mmaE5m2 d a b => Sys2Proof.Machine.execMmaE5m2 d a b s
  | .mmaT8 d a b => Sys2Proof.Machine.execMmaT8 d a b s
  | .mmaT6 d a b => Sys2Proof.Machine.execMmaT6 d a b s
  | .mmaxE2m1 d a b => Sys2Proof.Machine.execMmaxE2m1 d a b s
  | .mmaxE4m3 d a b => Sys2Proof.Machine.execMmaxE4m3 d a b s
  | .msca d a b => Sys2Proof.Machine.execMsca d a b s
  | .maccRd d a => Sys2Proof.Machine.execMaccRd d a s
  | .maccWr a b => Sys2Proof.Machine.execMaccWr a b s
  | .mstaF32 a b => Sys2Proof.Machine.execMstaF32 a b s
  | .mstaBf16 a b => Sys2Proof.Machine.execMstaBf16 a b s
  | .tlook d a b => Sys2Proof.Machine.execTlook d a b s
  | .vldnS7 d a b => Sys2Proof.Machine.execVldnS7 d a b s
  | .vldnS19 d a b => Sys2Proof.Machine.execVldnS19 d a b s
  | .vldnB27 d a b => Sys2Proof.Machine.execVldnB27 d a b s
  | .vldnLine d a b => Sys2Proof.Machine.execVldnLine d a b s
  | .vstv d a b => Sys2Proof.Machine.execVstv d a b s
  | .tins d a b => Sys2Proof.Machine.execTins d a b s
  | .tactSet d a b => Sys2Proof.Machine.execTactSet d a b s
  | .tactClr d a b => Sys2Proof.Machine.execTactClr d a b s
  | .twalk d a b => Sys2Proof.Machine.execTwalk d a b s
  | .txb a imm => Sys2Proof.Machine.execTxb a imm s
  | .txsL d a b => Sys2Proof.Machine.execTxsL d a b s
  | .txsG d a b => Sys2Proof.Machine.execTxsG d a b s
  | .cull d a b => Sys2Proof.Machine.execCull d a b s
  | .pexp d a b => Sys2Proof.Machine.execPexp d a b s
  | .obld a b => Sys2Proof.Machine.execObld a b s
  | .oble a b => Sys2Proof.Machine.execOble a b s
  | .ksrtK32 a => Sys2Proof.Machine.execKsrtK32 a s
  | .ksrtK64 a => Sys2Proof.Machine.execKsrtK64 a s
  | .binc a => Sys2Proof.Machine.execBinc a s
  | .vbrd d a b => Sys2Proof.Machine.execVbrd d a b s
  | .fork d a b => Sys2Proof.Machine.execFork d a b s
  | .fjoin a => Sys2Proof.Machine.execFjoin a s
  | .lnch d a b => Sys2Proof.Machine.execLnch d a b s
  | .collRed a => Sys2Proof.Machine.execCollRed a s
  | .collGather a => Sys2Proof.Machine.execCollGather a s
  | .rld d a b => Sys2Proof.Machine.execRld d a b s
  | .rst d a b => Sys2Proof.Machine.execRst d a b s
  | .rred d a b => Sys2Proof.Machine.execRred d a b s
  | .missGroupMerge w e => Sys2Proof.Machine.execMissGroupMerge w e s
  | .scoreboardClear w e => Sys2Proof.Machine.execScoreboardClear w e s
  | .exitDrainComplete w => Sys2Proof.Machine.execExitDrainComplete w s
  | .registerDrainComplete core quarter => Sys2Proof.Machine.execRegisterDrainComplete core quarter s
  | .taskStart w => Sys2Proof.Machine.execTaskStart w s
  | .taskSteal core => Sys2Proof.Machine.execTaskSteal core s
  | .ladleOptionalSpill w => Sys2Proof.Machine.execLadleOptionalSpill w s
  | .ladleOptionalRefill w => Sys2Proof.Machine.execLadleOptionalRefill w s
  | .rgrowGrant w e => Sys2Proof.Machine.execRgrowGrant w e s
  | .stageRingGrant w e => Sys2Proof.Machine.execStageRingGrant w e s
  | .barhang w e => Sys2Proof.Machine.execBarhang w e s
  | .qfenceCompletion w e => Sys2Proof.Machine.execQfenceCompletion w e s
  | .mwinApply w e => Sys2Proof.Machine.execMwinApply w e s
  | .weightCacheEntryGrant w e => Sys2Proof.Machine.execWeightCacheEntryGrant w e s
  | .obldGrant w e => Sys2Proof.Machine.execObldGrant w e s
  | .abarWaitResume w e => Sys2Proof.Machine.execAbarWaitResume w e s
  | .fjoinReturn w e => Sys2Proof.Machine.execFjoinReturn w e s
  | .mwaitReturn w e => Sys2Proof.Machine.execMwaitReturn w e s
  | .yieldContinuation w e => Sys2Proof.Machine.execYieldContinuation w e s
  | .waitPauseEnd w e => Sys2Proof.Machine.execWaitPauseEnd w e s
  | .tinsLockRelease w e => Sys2Proof.Machine.execTinsLockRelease w e s
  | .pourPermitGrant p => Sys2Proof.Machine.execPourPermitGrant p s
  | .engineQueueEntry w e => Sys2Proof.Machine.execEngineQueueEntry w e s
  | .riddleJobQueueEntry w e => Sys2Proof.Machine.execRiddleJobQueueEntry w e s
  | .copyPerform core q lines => Sys2Proof.Machine.execCopyPerform core q lines s
  | .ingotLoadState die => Sys2Proof.Machine.execIngotLoadState die s
  | .bankRefresh die => Sys2Proof.Machine.execBankRefresh die s
  | .followOnMmaEntry core q => Sys2Proof.Machine.execFollowOnMmaEntry core q s
  | .matrixOperationPerform core mq => Sys2Proof.Machine.execMatrixOperationPerform core mq s
  | .engineOperationCompletion core eq => Sys2Proof.Machine.execEngineOperationCompletion core eq s
  | .samplerFetchCompletion w e => Sys2Proof.Machine.execSamplerFetchCompletion w e s
  | .deferredFaultDelivery w e => Sys2Proof.Machine.execDeferredFaultDelivery w e s
  | .engineFaultDelivery w => Sys2Proof.Machine.execEngineFaultDelivery w s
  | .trapAction w act target => Sys2Proof.Machine.execTrapAction w act target s
  | .mchk die ctx => Sys2Proof.Machine.execMchk die ctx s
  | .junctionOvertemperature die => Sys2Proof.Machine.execJunctionOvertemperature die s
  | .dieReset die image => Sys2Proof.Machine.execDieReset die image s
  | .loadKey slot key => Sys2Proof.Machine.execLoadKey slot key s
  | .clearKey slot => Sys2Proof.Machine.execClearKey slot s
  | .setPowerCap watts => Sys2Proof.Machine.execSetPowerCap watts s
  | .attestationReport die nonce => Sys2Proof.Machine.execAttestationReport die nonce s
  | .firmwareLoad die image => Sys2Proof.Machine.execFirmwareLoad die image s
  | .holdAdmission die => Sys2Proof.Machine.execHoldAdmission die s
  | .admission die core q0 => Sys2Proof.Machine.execAdmission die core q0 s
  | .blockMigration blk core q0 => Sys2Proof.Machine.execBlockMigration blk core q0 s
  | .launchCompletion l => Sys2Proof.Machine.execLaunchCompletion l s
  | .preEmptionRequest blks => Sys2Proof.Machine.execPreEmptionRequest blks s
  | .preEmptionSaveComplete blk => Sys2Proof.Machine.execPreEmptionSaveComplete blk s
  | .resumption blk core q0 => Sys2Proof.Machine.execResumption blk core q0 s
  | .killRequest l => Sys2Proof.Machine.execKillRequest l s
  | .riddleJobCompletion die => Sys2Proof.Machine.execRiddleJobCompletion die s
  | .binRasterisation die draw => Sys2Proof.Machine.execBinRasterisation die draw s
  | .collectiveRequest core q => Sys2Proof.Machine.execCollectiveRequest core q s
  | .collectiveResultCopy core q => Sys2Proof.Machine.execCollectiveResultCopy core q s
  | .haloLeafDelivery die leaf => Sys2Proof.Machine.execHaloLeafDelivery die leaf s
  | .write die m => Sys2Proof.Machine.execWrite die m s
  | .readRequest die m => Sys2Proof.Machine.execReadRequest die m s
  | .readResponse die m => Sys2Proof.Machine.execReadResponse die m s
  | .atomic die m => Sys2Proof.Machine.execAtomic die m s
  | .atomicResponse die m => Sys2Proof.Machine.execAtomicResponse die m s
  | .reduce die m => Sys2Proof.Machine.execReduce die m s
  | .launch die m => Sys2Proof.Machine.execLaunch die m s
  | .stepCounterUpdate die m => Sys2Proof.Machine.execStepCounterUpdate die m s
  | .ack die m => Sys2Proof.Machine.execAck die m s
  | .nack die m => Sys2Proof.Machine.execNack die m s
  | .retransmitTimeout die conn cls => Sys2Proof.Machine.execRetransmitTimeout die conn cls s
  | .setState cmd st => Sys2Proof.Machine.execSetState cmd st s
  | .enable cmd ctx => Sys2Proof.Machine.execEnable cmd ctx s
  | .disable cmd ctx => Sys2Proof.Machine.execDisable cmd ctx s
  | .assignQueue cmd ctx queue => Sys2Proof.Machine.execAssignQueue cmd ctx queue s
  | .grantIngotSegment cmd ctx seg => Sys2Proof.Machine.execGrantIngotSegment cmd ctx seg s
  | .writePeerEntry cmd ctx idx entry => Sys2Proof.Machine.execWritePeerEntry cmd ctx idx entry s
  | .clearPeerEntry cmd ctx idx => Sys2Proof.Machine.execClearPeerEntry cmd ctx idx s
  | .removeHeldRecord cmd ctx tag => Sys2Proof.Machine.execRemoveHeldRecord cmd ctx tag s
  | .readErrorLog cmd => Sys2Proof.Machine.execReadErrorLog cmd s
  | .invalidateTranslations cmd ctx start len => Sys2Proof.Machine.execInvalidateTranslations cmd ctx start len s
  | .unusedOpcode word => Sys2Proof.Machine.execUnusedOpcode word s
  | .bankRefreshEnd die => Sys2Proof.Machine.execBankRefreshEnd die s
  | .admissionHoldRelease die => Sys2Proof.Machine.execAdmissionHoldRelease die s
  | .setSystemAccessKey die key => Sys2Proof.Machine.execSetSystemAccessKey die key s

end Sys2Proof.Machine
end

