-- ==== Sys2Proof/Machine/Step.lean ====
section
/-! DEFINITION. The step: the machine's next action, with the decoder and exec supplied (R89, R154, R283). -/

namespace Sys2Proof.Machine

open Sys2Proof

/-- A chain's word is decoded and run; a word whose res0 field is not zero raises ILLOP (R86, R95). -/
noncomputable def runWord (w : Word) (s : State) : Host.Outcome State Fault Refusal :=
  match decodeWord w with
  | .ok i => exec i s
  | .error _ => execUnusedOpcode w s

/-- One step of the package (log entry 5). -/
noncomputable def step (s : State) : Host.Outcome State Fault Refusal := s.stepWith runWord exec

/-- The state with an instruction stored where the next step fetches (log entry 5). -/
def State.withFetchWord (s : State) (nbits w : Nat) : State := s.place (bytesOfTableWord (w % 2 ^ nbits))

end Sys2Proof.Machine
end

