-- ==== Sys2Proof/Safety.lean ====
section
/-! DEFINITION. The terms in which claims speak: when an instruction word runs with nothing before it in the way, what its
retirement makes of the state that its effect leaves, what stays when an instruction writes registers only, and the
canonical forms that the sparse parts of the state keep. -/

namespace Sys2Proof.Machine

open Sys2Proof

/-- The state in which the meaning of a word instruction runs: its word is noted, its effect has moved nothing yet and it
counts once (R89, R307). -/
def State.atInstr (s : State) (i : Instr) : State :=
  { s with issue := { s.issue with word := encode i, moved := false, count := 1 } }

/-- Nothing that comes before the instruction's own effect stops it where it issues: its fields are ones its entry admits
(R95); a strand issues it; its prefixes are admitted (R87, R88); a miss strand has not reached a wait point (R29); the warp's
role admits it (R41); every register it
names is valid (R61, R81); no deferred fault of the strand awaits delivery (R292); and the strand's memory instructions in flight
let it issue, which no further memory instruction does without joining them (R22, R291). -/
def ready (i : Instr) (s : State) : Bool :=
  match i.info with
  | none => false
  | some info =>
    fieldsOk i.opcode info i.fields && s.issueOk && (s.issue.ks.isNone || info.k) && (decide (s.issue.xs = []) || info.x)
      && (!s.inMiss || info.ahead) && roleOk info.role s.cw.role && s.namesOk info (encode i)
      && (s.inHandler || s.later || s.cs.fault.isNone) && s.passes info (encode i)
      && (s.inHandler || s.later || decide (s.cs.flight = []) || !info.mem)

/-- What runs is the chain at its strand's PC, and the strand has no memory instruction in flight. -/
def State.atChain (s : State) : Prop := s.issue.src = .chain ∧ s.cs.flight = []

/-- A word that is no instruction raises ILLOP when it is decoded, with no other effect: rpc and fpc are its chain (R86, R95). -/
def State.illopAt (s : State) (w : Word) : State :=
  let d := ({ s with issue := { s.issue with word := w } } : State).deliver s.issue.warp s.issue.entry { TrapInfo.of (.illop, 0) with
    fpc := s.issue.chain, rpc := s.issue.chain, after := s.issue.pc + 4, word := w }
  { d with issue := { d.issue with live := false } }

/-- What the retirement of an instruction makes of the state that its effect leaves (R91, R298, R307). -/
def State.retired (s : State) (i : Instr) (t : State) : State :=
  State.retire (s.atInstr i) (match i.info with
    | some info => info.closes
    | none => false) t

/-- A word instruction completes with its own effect, in every state in which it is ready and `pre` holds: exec answers
the retirement of the state that `eff` makes. -/
def CompletesWhen (i : Instr) (pre : State → Prop) (eff : State → State) : Prop :=
  ∀ s, ready i s = true → pre (s.atInstr i) → exec i s = .next (s.retired i (eff (s.atInstr i)))

/-- The same with nothing asked beside `ready`. -/
def Completes (i : Instr) (eff : State → State) : Prop := CompletesWhen i (fun _ => True) eff

/-- A ready word instruction takes a trap of this cause and subcode where `pre` holds, with no effect of its own. -/
def TrapsWhen (i : Instr) (pre : State → Prop) (e : Err) : Prop :=
  ∀ s, ready i s = true → pre (s.atInstr i) → exec i s = .next ((s.atInstr i).raise (TrapInfo.of e))

/-- The same where the record gives a fault address. -/
def TrapsAt (i : Instr) (pre : State → Prop) (e : Err) (a : State → Nat) : Prop :=
  ∀ s, ready i s = true → pre (s.atInstr i) →
    exec i s = .next ((s.atInstr i).raise (TrapInfo.atAddr e (a (s.atInstr i))))

/-- Everything but the issuing warp, and the reserve of its quarter, is as it was: memory with its keys and tags, keys,
package and die registers, caches and queues, launches, blocks, the other warps and quarters, the agenda and the clock. -/
structure SameElsewhere (s t : State) : Prop where
  mem : t.mem = s.mem
  lineKeys : t.lineKeys = s.lineKeys
  tags : t.tags = s.tags
  keySlots : t.keySlots = s.keySlots
  sys : t.sys = s.sys
  dies : t.dies = s.dies
  clusters : t.clusters = s.clusters
  cores : t.cores = s.cores
  launches : t.launches = s.launches
  blocks : t.blocks = s.blocks
  agenda : t.agenda = s.agenda
  clock : t.clock = s.clock
  freeCtr : t.freeCtr = s.freeCtr
  seq : t.seq = s.seq
  warps : ∀ v, v ≠ s.issue.warp → t.warp v = s.warp v
  quarters : ∀ q, q ≠ s.quarterOf s.issue.warp → t.quarter q = s.quarter q

/-- What a handler in progress keeps while its strand runs: where it was entered, the record, its cause. -/
def Handler.record (h : Handler) : Nat × TrapRec × Nat × Bool × Bool × Nat := (h.entry, h.trec, h.cause, h.nested, h.inReserve, h.kbase)

/-- The issuing warp's registers beside v, s and k registers are as they were: its place, the windows and frames, every
control register but ctl.fst, its lanes and helpers, its join counter, its trap records and what a saved reserve holds; no
engine fault is noted unless single-stepping is enabled (R286). -/
structure SameControl (x y : Warp) : Prop where
  place : y.blk = x.blk ∧ y.idx = x.idx ∧ y.quarter = x.quarter ∧ y.slot = x.slot ∧ y.role = x.role ∧ y.phase = x.phase
  window : y.base = x.base ∧ y.ext = x.ext ∧ y.vb = x.vb ∧ y.sb = x.sb ∧ y.vf = x.vf ∧ y.vo = x.vo ∧ y.sf = x.sf
    ∧ y.so = x.so ∧ y.callers = x.callers ∧ y.spilled = x.spilled
  ctl : y.fpm = x.fpm ∧ y.det = x.det ∧ y.accb = x.accb ∧ y.accl = x.accl ∧ y.spb = x.spb ∧ y.flen = x.flen
    ∧ y.sptr = x.sptr ∧ y.mprog = x.mprog ∧ y.trapv = x.trapv ∧ y.barlim = x.barlim
  lanes : y.lanes = x.lanes ∧ y.helpers = x.helpers
  rest : y.stopped = x.stopped ∧ y.stopEntry = x.stopEntry ∧ y.task = x.task ∧ y.resv = x.resv
  handlers : y.handlers.map Handler.record = x.handlers.map Handler.record
  engFaults : x.trapv.getLsbD 15 = false → y.engFaults = x.engFaults

/-- What a strand keeps when it goes on past an instruction that only writes registers, and when another strand does. -/
def Strand.held (t : Strand) : Mask × SKind × Nat × (SKind × Nat) × List StackRec × Nat × SState × Nat :=
  (t.mask, t.kind, t.group, t.outer, t.stack, t.spilledRecs, t.parkSt, t.parkDepth)
def Strand.still (t : Strand) : Va × SState × Option Wait × List LogEntry × List LogEntry × Option TrapInfo × Bool × Bool × Bool :=
  (t.pc, t.st, t.wait, t.flight, t.log, t.fault, t.jumped, t.permit, t.alone)

/-- The strands of the issuing warp: each keeps its mask, kind, group and stack, and each but the issuing one also its PC,
state, wait, log and pending fault. -/
structure SameStrands (s t : State) : Prop where
  held : ∀ e, (t.cw.strand e).map Strand.held = (s.cw.strand e).map Strand.held
  still : ∀ e, e ≠ s.issue.entry → (t.cw.strand e).map Strand.still = (s.cw.strand e).map Strand.still

/-- The logical clock counts at most one chain, and none in handler code (R307). -/
def ClockAtMostOne (s t : State) : Prop :=
  t.cw.lclk = s.cw.lclk ∨ (s.inHandler = false ∧ t.cw.lclk = s.cw.lclk + 1)

/-- What an instruction that only writes scalar registers leaves as it was: all but the valid scalar names for which `d`
holds. -/
structure ScalarFrame (s t : State) (d : Nat → Prop) : Prop where
  elsewhere : SameElsewhere s t
  control : SameControl s.cw t.cw
  strands : SameStrands s t
  clock : ClockAtMostOne s t
  scalars : ∀ n, n < 64 → s.sname n = true → ¬ d n → t.regS n = s.regS n
  vectors : ∀ n, s.vname n = true → t.regV n = s.regV n
  masks : ∀ n, t.regK n = s.regK n

/-- What an instruction that only writes vector registers leaves as it was: all but the valid vector names for which `d`
holds, and for those the lanes in which the instruction is not active. -/
structure VectorFrame (s t : State) (d : Nat → Prop) : Prop where
  elsewhere : SameElsewhere s t
  control : SameControl s.cw t.cw
  strands : SameStrands s t
  clock : ClockAtMostOne s t
  scalars : ∀ n, n < 64 → s.sname n = true → t.regS n = s.regS n
  vectors : ∀ n, s.vname n = true → ¬ d n → t.regV n = s.regV n
  lanes : ∀ n l, s.vname n = true → l < 32 → s.active.getLsbD l = false → laneOf (t.regV n) l = laneOf (s.regV n) l
  masks : ∀ n, t.regK n = s.regK n

/-- What an instruction that only writes the mask register d leaves as it was, the bits of its inactive lanes included. -/
structure MaskFrame (s t : State) (d : Nat) : Prop where
  elsewhere : SameElsewhere s t
  control : SameControl s.cw t.cw
  strands : SameStrands s t
  clock : ClockAtMostOne s t
  scalars : ∀ n, n < 64 → s.sname n = true → t.regS n = s.regS n
  vectors : ∀ n, s.vname n = true → t.regV n = s.regV n
  masks : ∀ n, n ≠ d → t.regK n = s.regK n
  bits : ∀ l, s.active.getLsbD l = false → (t.regK d).getLsbD l = (s.regK d).getLsbD l

/-! What an instruction that computes registers from registers does, with its frame. In each, `f` gives the result from
the state in which the instruction issues. -/

/-- A ready instruction writes one scalar register. -/
def ScalarResult (i : Instr) (d : BitVec 7) (f : State → DWord) : Prop :=
  ∀ s, ready i s = true → ∃ t, exec i s = .next t ∧ t.regS d.toNat = f s ∧ t.cw.fst = s.cw.fst ∧
    ScalarFrame s t (fun n => n = d.toNat)

/-- A ready instruction writes lanes of one vector register, those of `m`, and no flag. -/
def LanesResult (i : Instr) (d : BitVec 7) (m : State → Mask) (f : State → Nat → Word) : Prop :=
  ∀ s, ready i s = true → ∃ t, exec i s = .next t ∧
    (∀ l, l < 32 → laneOf (t.regV d.toNat) l = if (m s).getLsbD l then f s l else laneOf (s.regV d.toNat) l) ∧
    t.cw.fst = s.cw.fst ∧ VectorFrame s t (fun n => n = d.toNat)
/-- The same where every active lane, helper lanes included, is written (R38, R396). -/
def VectorResult (i : Instr) (d : BitVec 7) (f : State → Nat → Word) : Prop := LanesResult i d State.active f

/-- A ready instruction writes the bits of one mask register for the active lanes, and no flag. -/
def MaskResult (i : Instr) (d : BitVec 7) (p : State → Nat → Bool) : Prop :=
  ∀ s, ready i s = true → ∃ t, exec i s = .next t ∧
    (∀ l, l < 32 → s.active.getLsbD l = true → (t.regK d.toNat).getLsbD l = p s l) ∧
    t.cw.fst = s.cw.fst ∧ MaskFrame s t d.toNat

/-- A ready instruction of which no raised flag is enabled: its flags are those of the active lanes that are not helpers,
ORed into ctl.fst, and every active lane takes its result (R38, R126, R131). -/
def FpResult (i : Instr) (d : BitVec 7) (f : State → Nat → FRes) : Prop :=
  ∀ s, ready i s = true → orFlags s.activeReal (fun l => (f s l).fl) &&& s.cw.fpEnables = 0 → ∃ t, exec i s = .next t ∧
    (∀ l, l < 32 → s.active.getLsbD l = true → laneOf (t.regV d.toNat) l = BitVec.ofNat 32 (f s l).bits) ∧
    t.cw.fst = s.cw.fst ||| orFlags s.activeReal (fun l => (f s l).fl) ∧ VectorFrame s t (fun n => n = d.toNat)
/-- The same with a 64-bit result in a register pair (R120). -/
def FpPairResult (i : Instr) (d : BitVec 7) (f : State → Nat → FRes) : Prop :=
  ∀ s, ready i s = true → orFlags s.activeReal (fun l => (f s l).fl) &&& s.cw.fpEnables = 0 → ∃ t, exec i s = .next t ∧
    (∀ l, l < 32 → s.active.getLsbD l = true →
      pairOf (t.regV d.toNat) (t.regV (d.toNat + 1)) l = BitVec.ofNat 64 (f s l).bits) ∧
    t.cw.fst = s.cw.fst ||| orFlags s.activeReal (fun l => (f s l).fl) ∧
    VectorFrame s t (fun n => n = d.toNat ∨ n = d.toNat + 1)
/-- The same with one result in a scalar register; `f` gives it with its flags. -/
def FpScalarResult (i : Instr) (d : BitVec 7) (f : State → DWord × Flags) : Prop :=
  ∀ s, ready i s = true → (f s).2 &&& s.cw.fpEnables = 0 → ∃ t, exec i s = .next t ∧ t.regS d.toNat = (f s).1 ∧
    t.cw.fst = s.cw.fst ||| (f s).2 ∧ ScalarFrame s t (fun n => n = d.toNat)
/-- The same with a predicate in a mask register. -/
def FpMaskResult (i : Instr) (d : BitVec 7) (f : State → Nat → Bool × Flags) : Prop :=
  ∀ s, ready i s = true → orFlags s.activeReal (fun l => (f s l).2) &&& s.cw.fpEnables = 0 → ∃ t, exec i s = .next t ∧
    (∀ l, l < 32 → s.active.getLsbD l = true → (t.regK d.toNat).getLsbD l = (f s l).1) ∧
    t.cw.fst = s.cw.fst ||| orFlags s.activeReal (fun l => (f s l).2) ∧ MaskFrame s t d.toNat

/-- A ready instruction that raises an enabled flag takes FPX with all its flags in the record, and has no effect of its
own (R126, R131). -/
def FpRaises (i : Instr) (fl : State → Flags) : Prop :=
  ∀ s, ready i s = true → fl s &&& s.cw.fpEnables ≠ 0 → exec i s = .next
    ((s.atInstr i).raise { TrapInfo.of (.fpx, 0) with imm := (fl s).setWidth 14 })
/-- The same where each active lane that is no helper raises flags. -/
def FpTraps (i : Instr) (f : State → Nat → Flags) : Prop := FpRaises i (fun s => orFlags s.activeReal (f s))

/-- Where a strand goes on past a chain that moved it nowhere: the next chain, or for an instruction of the operand
log or in flight where it stands (R91, R291, R294). -/
def State.seqPc (s : State) : Va := if s.later then s.cs.pc else s.issue.pc + 4

/-- A ready instruction takes its strand to an address and writes no register. -/
def GoesTo (i : Instr) (pc : State → Va) : Prop :=
  ∀ s, ready i s = true → ∃ t, exec i s = .next t ∧ t.cs.pc = pc s ∧ t.cw.fst = s.cw.fst ∧ ScalarFrame s t (fun _ => False)

/-! What an instruction that acts on memory, a queue or a unit leaves of the registers. -/

/-- All registers but the scalar names for which `ds` and the vector names for which `dv` holds, and of those the lanes in
which the instruction is not active, the other warps, the strands and control registers of the issuing one and every
accumulator are as they were. -/
structure RegisterFrame (s t : State) (ds dv : Nat → Prop) : Prop where
  control : SameControl s.cw t.cw
  strands : SameStrands s t
  fst : t.cw.fst = s.cw.fst
  scalars : ∀ n, n < 64 → s.sname n = true → ¬ ds n → t.regS n = s.regS n
  vectors : ∀ n, s.vname n = true → ¬ dv n → t.regV n = s.regV n
  lanes : ∀ n l, s.vname n = true → l < 32 → s.active.getLsbD l = false → laneOf (t.regV n) l = laneOf (s.regV n) l
  masks : ∀ n, t.regK n = s.regK n
  warps : ∀ v, v ≠ s.issue.warp → t.warp v = s.warp v
  accs : ∀ b, (t.block b).acc = (s.block b).acc

/-- No register is written. -/
abbrev RegistersKept (s t : State) : Prop := RegisterFrame s t (fun _ => False) (fun _ => False)

/-- A ready instruction for which `pre` holds and whose queue has one of its 16 entries free appends one operation to queue
n of its core. Nothing else changes: no register, no memory, no other core (R201, R352). -/
def Enqueues (i : Instr) (pre : State → Prop) (n : State → Nat) (o : State → EngOp) : Prop :=
  ∀ s, ready i s = true → pre (s.atInstr i) →
    let c := s.coreOfWarp s.issue.warp
    let q := n (s.atInstr i)
    ((s.core c).queue q).length < 16 →
    ∃ t, exec i s = .next t ∧
      (∀ d, t.core d = if d = c then (s.core c).setQueue q ((s.core c).queue q ++ [o (s.atInstr i)]) else s.core d) ∧
      RegistersKept s t ∧ t.mem = s.mem ∧ t.lineKeys = s.lineKeys ∧ t.tags = s.tags ∧ t.blocks = s.blocks ∧
      t.launches = s.launches ∧ t.dies = s.dies ∧ t.sys = s.sys ∧ t.clusters = s.clusters

/-! What ends a call and a launch. -/

/-- What a return makes of a warp whose strands stand at a RET, with its newest caller's record: the strands are one, in the
lowest of their entries, with all their lanes, at the record's return address; the window is the caller's, and the registers
of a block that the Ladle brought back stand in its ring slots; the strands that the matching CALL parked are as they were
before it, and no others (R34, R69, R74). The clock counts each RET (R307). -/
structure Returned (x y : Warp) (r : FrameRec) : Prop where
  merged : ∀ low ms, x.atRet = low :: ms → ∃ u v, x.strand low = some u ∧ y.strand low = some v ∧ v.pc = r.retpc ∧
    v.st = .ready ∧ v.wait = none ∧ v.stack = u.stack ∧ v.group = r.callgroup ∧
    v.kind = (match r.callkind with
      | 0 => .root
      | 1 => .arm
      | _ => .miss) ∧
    (∀ l, v.mask.getLsbD l = true ↔ ∃ e t, e ∈ x.atRet ∧ x.strand e = some t ∧ t.mask.getLsbD l = true) ∧
    ∀ e ∈ ms, y.strand e = none
  window : y.vb = (x.vb + x.ring - r.dv % x.ring) % x.ring ∧ y.sb = (x.sb + 64 - r.ds) % 64 ∧ y.vf = r.vf ∧ y.vo = r.vo ∧
    y.sf = r.sf ∧ y.so = r.so
  callers : y.callers = x.callers.dropLast ∧ y.spilled = x.spilled ∧ y.sptr = x.sptr
  released : ∀ e t, x.strand e = some t → t.st = .parked → t.parkDepth = x.depth → ∃ v, y.strand e = some v ∧
    v.st = t.parkSt ∧ v.mask = t.mask ∧ v.pc = t.pc ∧ v.stack = t.stack
  parked : ∀ e t, x.strand e = some t → t.st = .parked → t.parkDepth ≠ x.depth → y.strand e = some t
  slots : match r.ahead with
    | none => y.vregs = x.vregs ∧ y.sregs = x.sregs
    | some bs => y.vregs = (x.putBlock y.vb r.dv y.sb r.ds bs).vregs ∧ y.sregs = (x.putBlock y.vb r.dv y.sb r.ds bs).sregs
  registers : y.kregs = x.kregs ∧ y.lanes = x.lanes ∧ y.helpers = x.helpers ∧ y.fst = x.fst ∧
    y.lclk = x.lclk + BitVec.ofNat 64 x.atRet.length

/-- A launch that was queued or running is killed: no queue of its die holds it, and of its blocks' engine operations only
those that must complete stay. A block without such work has left its core, with its warps and accumulator rows; another stops
until that work has completed. Where every block has left, the launch's status is code 5 (R281, R304). -/
structure Killed (s t : State) (l : Nat) : Prop where
  launch : ∃ x, t.launches[l]? = some x ∧ x.phase = .killed ∧ ((∀ b ∈ s.blocksOf l, s.endsLater b = false) → x.status = 5)
  blocks : ∀ b ∈ s.blocksOf l, (t.block b).resid = .gone ∨ (s.endsLater b = true ∧ (t.block b).resid = .saving)
  left : ∀ b ∈ s.blocksOf l, s.endsLater b = false →
    (t.block b).acc = [] ∧ ∀ w ∈ (s.block b).warps, w < s.warps.length → (t.warp w).phase = .gone
  ops : ∀ b ∈ s.blocksOf l, ∀ c q, ∀ o ∈ (t.core c).queue q, o.blk = b → o.completes = true
  queues : ∀ d, ∀ q ∈ (t.die d).queues, l ∉ q

/-- The launches of a context of a die that are queued or running. -/
def State.liveLaunch (s : State) (d ctx l : Nat) : Prop :=
  ∃ x, s.launches[l]? = some x ∧ x.die = d ∧ x.ctx = ctx ∧ (x.phase = .queued ∨ x.phase = .running)

/-! Accesses that trap. -/

/-- What a deferred condition leaves of the strand that met it: nothing is written, its chain has issued, and it stands in
the operand log with its operands, with the condition pending (R285, R292). -/
def Deferred (i : Instr) (s t : State) (e : Err) (lane p : Nat) : Prop :=
  ∃ f x, t.cs.fault = some f ∧ f.cause = e.1 ∧ f.sub = e.2 ∧ f.lane = lane ∧ f.addr = BitVec.ofNat 64 p ∧ f.logN = 1 ∧
    f.fpc = s.issue.chain ∧ t.cs.log = s.cs.log ++ [x] ∧ x.word = encode i ∧ x.chain = s.issue.chain ∧ x.mask = s.k0 ∧
    (∀ v ∈ x.svals, v.2 = s.rdS v.1) ∧ (∀ v ∈ x.vvals, v.2 = s.rdV v.1) ∧ t.cs.pc = s.issue.pc + 4 ∧ t.cs.st = .ready ∧
    RegistersKept s t ∧ t.blocks = s.blocks

/-- A ready scalar access of memory that meets a condition of R143 traps, with the access's address: of orders 1 to 4
precisely, with no effect; of orders 5 to 11 the condition is deferred, outside handler code (R285). -/
def ScalarAccessTraps (i : Instr) (acc : State → Except (Err × Nat) Loc) : Prop :=
  ∀ s e p, ready i s = true → acc (s.atInstr i) = .error (e, p) →
    (errRank e < 5 → exec i s = .next ((s.atInstr i).raise (TrapInfo.atAddr e p))) ∧
    (5 ≤ errRank e → errRank e ≤ 11 → s.inHandler = false → s.later = false → s.inMiss = false →
      ∃ t, exec i s = .next t ∧ Deferred i s t e 0 p ∧ (e ≠ eDiscarded → t.mem = s.mem ∧ t.clusters = s.clusters))

/-- The same for the accesses of the active lanes that are not helpers: the earliest order that a lane meets decides, and its
lowest lane is the one recorded. The accesses that have passed every order set their a and d bits (R143, R159). -/
def LaneAccessTraps (i : Instr) (store : Bool) (pre : State → Prop) (acc : State → Nat → Except (Err × Nat) Loc) : Prop :=
  ∀ s l e p, ready i s = true → pre s →
    let u := s.atInstr i
    let meets := fun (m : Nat) (e : Err) (p : Nat) => m < 32 ∧ s.activeReal.getLsbD m = true ∧ acc u m = .error (e, p)
    meets l e p → (∀ m e' p', meets m e' p' → errRank e < errRank e' ∨ (errRank e = errRank e' ∧ l ≤ m)) →
    (errRank e < 5 → ∃ j, j.cause = e.1 ∧ j.sub = e.2 ∧ j.lane = l ∧ j.addr = BitVec.ofNat 64 p ∧
      (∀ m, m < 32 → (j.met.getLsbD m = true ↔ ∃ e' p', meets m e' p' ∧ errRank e' = errRank e)) ∧
      exec i s = .next ((u.markLanes store (acc u) (lanesOf s.activeReal)).raise j)) ∧
    (5 ≤ errRank e → errRank e ≤ 11 → s.inHandler = false → s.later = false → s.inMiss = false →
      ∃ t, exec i s = .next t ∧ Deferred i s t e l p)

/-- The condition of orders 1 to 3 of R143 that n bytes at an address of a space meet by the address alone: ALIGN, NONCANON,
RANGE, with the address that is recorded. -/
def State.addressBad (s : State) (x : Addr) (n : Nat) : Option (Err × Nat) :=
  match x with
  | .glob p => if p % n ≠ 0 then some (eAlign, p) else if field p 57 3 ≠ 0 then some (eNoncanon, p) else none
  | .scr a =>
    let size := recScratch (s.recOf s.cw.blk)
    if a % n ≠ 0 then some (eAlign, a)
    else if size < a + n ∧ (a < 0x10000000 ∨ recGang (s.recOf s.cw.blk) ≤ (a - 0x10000000) / 0x1000000 ∨
        size < (a - 0x10000000) % 0x1000000 + n) then some (eRange, a)
    else none
  | .ing a => if a % n ≠ 0 then some (eAlign, a) else if 0x10000000 < a + n then some (eRange, a) else none
  | .dirty a => some (if a % n ≠ 0 then eAlign else eRange, a)
  | .noSpace p => some (eNoncanon, p)

/-- Such a condition is the one that the access meets. -/
def AddressTraps : Prop := ∀ (s : State) (l1 : Bool) (k : AccKind) (x : Addr) (n : Nat) (e : Err) (p : Nat),
  s.issue.memo = [] → s.addressBad x n = some (e, p) → s.locate l1 k x n = .error (e, p) ∧ errRank e < 4

/-! Waits that end. -/

/-- The live warp w has a strand in entry e that waits at instruction i, for what `k` names, that nothing holds, and whose
messages are answered. -/
def WaitsAt (s : State) (w e : Nat) (v : Wait) (k : WaitKind) (i : Instr) : Prop :=
  s.waitOf w e = some v ∧ v.kind = k ∧ v.word = encode i ∧ s.warpLive w = true ∧ (s.warp w).stuck e v = false ∧
    v.answered = true

/-- The state in which a waiting instruction is tried again: the issue of its strand as its wait record has it (R22). -/
abbrev State.again (s : State) (w e : Nat) (v : Wait) : State := s.waitIssue w e v

/-- An event has a waiting instruction tried again, and where it is ready and `pre` holds it completes: its strand goes on
at `pc`. What it does then is what the instruction's own statement says. -/
def EndsWait (ev : Nat → Nat → Instr) (k : WaitKind) (i : Instr) (pre : Wait → State → Prop) (pc : State → Va) : Prop :=
  ∀ s w e v, WaitsAt s w e v k i → exec (ev w e) s = exec i (s.again w e v) ∧
    (ready i (s.again w e v) = true → pre v ((s.again w e v).atInstr i) →
      ∃ t, exec (ev w e) s = .next t ∧ t.cs.pc = pc (s.again w e v))

/-! Memory byte by byte. -/

/-- A byte of module memory, as its writer stored it, and a byte of a block's scratch. -/
def State.memByte (s : State) (q : Nat) : Byte := spGet Config.memInit s.mem q
def State.scrByte (s : State) (b n : Nat) : Byte := spGet 0 (s.block b).scratch n

/-- No core of a core's cluster holds a byte of a physical line that awaits its write-back (R147 to R149). -/
def State.lineClean (s : State) (core pl : Nat) : Prop :=
  ∀ c, c ∈ coresOf (clusterOf core) → ∀ l, l ∈ (s.core c).l1 → l.pline = pl → l.dirty = 0

/-- An access of n bytes by the issuing strand, at home or through L1, stores none of byte q of memory, neither itself nor
by what it makes the caches of its cluster write back, by the a and d bits of its translation, or by storing into a line
that another key encrypted (R147 to R150, R159, R164, R172). -/
def State.spares (s : State) (home : Bool) (x : Loc) (n q : Nat) : Prop :=
  match x with
  | .glob _ t =>
    s.lineClean s.who.core (q / 128) ∧ (∀ e k, t.entry = some (e, k) → e / 128 ≠ q / 128 ∧ (e + 7) / 128 ≠ q / 128) ∧
    t.pa % 128 + n ≤ 128 ∧
    (leafKind t.leaf ≠ 2 → t.pa / 128 = q / 128 → (home = true ∨ leafNc t.leaf = true) ∧ (q < t.pa ∨ t.pa + n ≤ q) ∧
      ∀ k m, alGet s.lineKeys (q / 128) = some k → s.keyMat (leafKey t.leaf) = some m → k = m)
  | _ => True

/-- What a resolved load reads when the read changes nothing else: a scratch or Ingot location, or a global one whose
translation and, for cacheable memory, whose line are held already (R148, R150, R161, R321). -/
def State.quietRead (s : State) (n : Nat) (x : Loc) : Option (List Byte) :=
  match x with
  | .scr b off => some (s.scratchRead b off n)
  | .ing off => some (s.ingotRead (dieOf (s.coreOfWarp s.issue.warp)) off n)
  | .glob p t =>
    if t.entry.isSome then none
    else if leafKind t.leaf = 2 then match hostAns s.issue.resp 0 p n with
      | some (.ok v) => some (toBytes n v)
      | _ => none
    else if leafKind t.leaf = 3 then some (List.replicate n 0)
    else if leafNc t.leaf then
      (if (coresOf (clusterOf s.who.core)).all (fun c => !(s.core c).l1.any (fun l => l.pline = t.pa / 128)) then
        some (s.physReadKey (leafKey t.leaf) t.pa n) else none)
    else match s.l1Find s.who (field p 0 57) with
      | some l =>
        if l.pline = t.pa / 128 && l.key.toNat = leafKey t.leaf && l.leaf = markLeaf false t.leaf then
          some (lineBytes l.data (field p 0 57 % 128) n) else none
      | none => none

/-- Bytes that a requester has stored through a translation stand where a read of its cluster finds them: on a non-cacheable page
in memory, under the page's key, and else in a line of its core's L1, each marked as one to write back (R147, R148, R150, R164). -/
def State.holds (s : State) (w : Who) (p : Nat) (t : Trans) (bs : List Byte) : Prop :=
  let off := field p 0 57 % 128
  if leafNc t.leaf then ∀ m, s.keyMat (leafKey t.leaf) = some m →
    alGet s.lineKeys (t.pa / 128) = some m ∧ ∀ k, k < bs.length → s.memByte (t.pa + k) = bs.getD k 0
  else ∃ l ∈ (s.core w.core).l1, l.asid = w.asid ∧ l.vline = field p 0 57 / 128 ∧ l.pline = t.pa / 128 ∧
    l.key.toNat = leafKey t.leaf ∧ lineBytes l.data off bs.length = bs ∧ ∀ k, k < bs.length → l.dirty.getLsbD (off + k) = true

/-- The canonical forms of the machine's sparse memories: module memory, tags, and the scratch and accumulator rows of
every block and the Ingot store of every die. -/
def State.memoriesWf (s : State) : Bool :=
  Memory.wf s.mem && spWf 0 s.tags
    && s.blocks.all (fun b => spWf 0 b.scratch && spWf 0 b.acc) && s.dies.all (fun d => spWf Config.memInit d.ingot)

end Sys2Proof.Machine
end

