-- ==== Sys2Proof/Certificates/Slice0/Obligations.lean ====
section
/-! DEFINITION. The statements for the provers: decoding, reset, the step, results, flags and frames of every family, traps
and their returns, memory, engines and the device's own steps. -/

open Sys2Proof Sys2Proof.Machine

/-! Decoding. -/

/-- R85 to R89, R106: words that the spec writes out decode to the instructions that they stand for: one or more of every
class of opcodes. -/
def Obligations.KnownWordsDecode : Prop :=
  [(0x00200000, Instr.nop), (0x00400004, .ximm 4), (0x0060000A, .ksel 1 2), (0x00800003, .bra 3), (0x009FFFFE, .bra 0x1FFFFE),
   (0x00C57FFC, .bscNz 21 0x3FFC), (0x00E08004, .brvT 2 4), (0x01400000, .exit), (0x01800041, .wait 65),
   (0x01E00000, .bar 0), (0x02200A00, .calli 20), (0x02600A34, .frame 0xA34), (0x03050A80, .lclk 20 21),
   (0x03200025, .trap 0x25), (0x03400001, .eret 0 1), (0x0B653FFE, .sli 20 0x3FFE), (0x0C450208, .sldD 20 4 8),
   (0x0CA50200, .sstW 20 4 0), (0x10E3068E, .vmad 12 13 14), (0x1303068E, .vsel 12 13 14), (0x13650615, .vmovRd 20 12 21),
   (0x1A00C60D, .fcmpLt 3 12 13), (0x20C24400, .fcvtE4m3F32Sat 9 8), (0x2303068E, .hadd2F16 12 13 14),
   (0x24050B18, .dfma 20 22 24), (0x28050616, .qswz 20 12 22), (0x2905_0615, .xshfXor 20 12 21), (0x29250600, .xbal 20 12),
   (0x30450210, .vldWImm 20 4 16), (0x30C5020C, .vldWIdx 20 4 12), (0x31450210, .vstWImm 20 4 16), (0x32A5020C, .atomAdd 20 4 12),
   (0x33E5020C, .atomq 20 4 12), (0x34E00A15, .tfenceDevice 20 21), (0x35200021, .qfence 33), (0x38000C00, .copyG2s 24),
   (0x38C50A80, .abarArrive 20 21), (0x39400A94, .stgrProd 21 20), (0x40650C1C, .mmaBf16 20 24 28), (0x41E00A1C, .mstaBf16 20 28),
   (0x48240414, .vldnS7 16 8 20), (0x492A0814, .twalk 40 16 20), (0x50000B03, .txb 22 3), (0x50650416, .cull 20 8 22),
   (0x51200A00, .binc 20), (0x58050C16, .fork 20 24 22), (0x58450A96, .lnch 20 21 22), (0x58600C00, .collRed 24),
   (0x58E50618, .rred 20 12 24)].all (fun p : Nat × Instr => decodeTableWord 32 p.1 = some p.2) = true

/-- R85, R86, R95: for every instruction with a word, unused opcodes among them, and every operand that its encoding admits,
the decoder reads the instruction back from its bytes in storage order and leaves the bytes after them. -/
def Obligations.DecodeInvertsEncode : Prop := ∀ i : Instr, i.wf = true → (i.hasWord = true ∨ ∃ w, i = .unusedOpcode w) →
  ∀ rest, decode (encodeBytes i ++ rest) = .ok (i, rest)

/-- R85, R86, R95: every word that the decoder accepts is the word of the instruction that it gives, and that instruction is
well-formed: the decoder drops no bit, and no two words are one instruction. -/
def Obligations.EncodeInvertsDecode : Prop := ∀ (w : Word) (i : Instr), decodeWord w = .ok i →
  encode i = w ∧ i.wf = true ∧ (i.hasWord = true ∨ i = .unusedOpcode w)

/-- R86, R95: an opcode is class × 64 + minor; 288 of them are in the map; any other word, the all-zero and the all-ones word
among them, raises ILLOP when it is decoded, with no other effect: rpc and fpc are its chain. So does a word of the map with a
field that its entry does not admit (R95); that this holds of fields which the table's mask leaves free and the entry reserves is
the model's inference (DEDUCED, log entry 65). -/
def Obligations.UnusedOpcodesRaiseIllop : Prop :=
  (∀ w : Word, opOf w = (bits w 27 5).toNat * 64 + (bits w 21 6).toNat) ∧
  ((List.range 2048).filter (fun op => (opInfo op).isSome)).length = 288 ∧ opInfo (opOf 0) = none ∧ opInfo (opOf 0xFFFFFFFF) = none ∧
  (∀ (w : Word) s, opInfo (opOf w) = none → s.issueOk = true →
  s.inMiss = false → (s.inHandler = true ∨ (s.atChain ∧ s.cs.fault = none)) →
  decodeWord w = .ok (.unusedOpcode w) ∧ runWord w s = exec (.unusedOpcode w) s ∧ exec (.unusedOpcode w) s = .next (s.illopAt w)) ∧
  (∀ (w : Word) info s, opInfo (opOf w) = some info → fieldsOk (opOf w) info (bits w 0 21) = false → s.issueOk = true →
  s.inMiss = false → (s.inHandler = true ∨ (s.atChain ∧ s.cs.fault = none)) → runWord w s = .next (s.illopAt w))

/-! Reset and the step. -/

/-- R154, R272, R327, R335: right after reset no queue holds a record, no context is enabled, no launch, block or warp exists,
every calendar stands at phase 0, the sparse memories are in canonical form and no chain is being issued. The model's own are:
that memory and the Ingot store read as 0 (log entry 1), that every tag is 0, which step 2 of R335 clears and R162 calls
undefined (DEDUCED, log entry 2), and the empty key slots, the contexts' zeros, the power cap, the endpoints and that the
firmware is accepted (DESIGN CHOICE, log entry 3). -/
def Obligations.ResetState : Prop :=
  (let z := Sys2Proof.Machine.State.reset
  (∀ p, z.memByte p = 0) ∧ (∀ g, z.tagOf g = 0) ∧ (∀ n, z.keyMat n = none) ∧ z.launches = [] ∧ z.blocks = [] ∧ z.warps = [] ∧
  z.dies.length = 4 ∧ z.sys.powerCap = 3600 ∧ z.sys.outbox = [] ∧
  (∀ d, d < 4 → z.calPhase d = 0 ∧ (z.die d).queues = List.replicate 64 [] ∧ (z.die d).inReset = false ∧
    (z.die d).endpoint = BitVec.ofNat 128 d ∧ (∀ c, ((z.die d).ctx c).enabled = false) ∧ (∀ o, z.ingotRead d o 1 = [0]) ∧
    (z.die d).jobs = [] ∧ (z.die d).draws = [])) ∧
  (Sys2Proof.Machine.State.reset.memoriesWf = true ∧ Sys2Proof.Machine.State.reset.issue = Issue.idle)

/-- R89, R93: a step that issues the strand of an entry fetches the chain at its PC and runs what the chain's words decode
to. A chain of one word runs exec of that word's instruction, or ILLOP where it is none; prefixes run before it, in order.
The next chain follows the word unless the instruction goes elsewhere. `u` is the state that the step acts on: a clock has
passed, the strand is the one that its quarter picks (R284), and the last three premises on it say that no trap of the warp is
due, that the strand awaits no engine fault, and that no logged instruction comes first (R289, R292, R294, R302). What is
counted after the instruction are R284's waits. -/
def Obligations.StepRunsTheDecodedInstruction : Prop := ∀ (s u : State) (w e : Nat) (split : Bool) (t : Strand),
  (∃ r, s.agenda = .issue w e split :: r ∧ u = { s.begin with agenda := r }) ∨
    (s.agenda = [] ∧ s.begin.choose = some (.issue w e split) ∧ u = s.begin) →
  u.pickOf (u.quarterOf w) = some (w, e) → u.candidate w e = true → (u.warp w).runner e = some t → (∀ h, (u.warp w).handlerAt e = some h → h.inReserve = true) →
  u.dueFault w = none → u.faultFirst w e = false → ((u.warp w).handlerAt e = none → t.fault = none → t.log = []) →
  let v := u.setIssue w e t.pc t.pc 0 split
  let found := fun (s2 : State) (pc : Va) (wd : Word) => { s2 with issue := { s2.issue with pc := pc, next := pc + 4, word := wd } }
  let proper := fun (x : State) => t.jumped = true → x.insideChain t.pc = .ok false
  let done := fun (o : Host.Outcome State Fault Refusal) => Sys2Proof.Machine.step s = ended (u.counted (.issue w e split) o)
  (∀ wd s2 i, v.fetchWord t.pc = (.word wd, s2) → opOf wd ≠ 2 → opOf wd ≠ 3 → proper (found s2 t.pc wd) →
    decodeWord wd = .ok i → done (exec i (found s2 t.pc wd))) ∧
  (∀ wd s2 x, v.fetchWord t.pc = (.word wd, s2) → opOf wd ≠ 2 → opOf wd ≠ 3 → proper (found s2 t.pc wd) →
    decodeWord wd = .error x → done (execUnusedOpcode wd (found s2 t.pc wd))) ∧
  (∀ pre pc wd s2, v.fetchChain 4 t.pc [] 0 = (.words pre pc wd, s2) → proper (found s2 pc wd) → pre.any badPrefix = false →
    done (runWords runWord pre wd (found s2 pc wd)))

/-- R89: no chain is being issued between steps, whatever the step did. -/
def Obligations.NoIssueBetweenSteps : Prop := ∀ s t : State, s.issue = Issue.idle →
  Sys2Proof.Machine.step s = .next t → t.issue = Issue.idle

/-- Derived from R8, R145, R151 and R162 (what each memory is; the sparse form is the model's own, log entry 1): every
step, whatever it does, leaves module memory, the tags, every block's scratch and accumulator rows and every die's
Ingot store in canonical form: addresses strictly rising and no entry equal to what an unlisted one reads as. -/
def Obligations.EveryStepKeepsTheCanonicalForms : Prop := ∀ s t : State, s.memoriesWf = true →
  Sys2Proof.Machine.step s = .next t → t.memoriesWf = true

/-! Scalar and vector integer instructions. -/

/-- R389, R390: each scalar arithmetic instruction completes; s[d] takes the table's 64-bit result; nothing else changes. -/
def Obligations.ScalarArithmeticWritesItsResult : Prop := ∀ d a b : BitVec 7,
  let two := fun (i : Instr) (f : DWord → DWord → DWord) => ScalarResult i d (fun s => f (s.rdS a.toNat) (s.rdS b.toNat))
  two (.sadd d a b) (fun x y => x + y) ∧
  ScalarResult (.saddImm d a b) d (fun s => s.rdS a.toNat + BitVec.ofInt 64 (s.imm 7 b.toNat)) ∧
  two (.ssub d a b) (fun x y => x - y) ∧
  two (.smul d a b) (fun x y => x * y) ∧
  two (.smulhS d a b) (fun x y => BitVec.ofInt 64 (x.toInt * y.toInt / 2 ^ 64)) ∧
  two (.smulhU d a b) (fun x y => BitVec.ofNat 64 (x.toNat * y.toNat / 2 ^ 64)) ∧
  two (.sand d a b) (fun x y => x &&& y) ∧
  two (.sor d a b) (fun x y => x ||| y) ∧
  two (.sxor d a b) (fun x y => x ^^^ y) ∧
  two (.sshl d a b) (fun x y => x <<< (y.toNat % 64)) ∧
  ScalarResult (.sshlImm d a b) d (fun s => s.rdS a.toNat <<< b.toNat) ∧
  two (.sshr d a b) (fun x y => x >>> (y.toNat % 64)) ∧
  ScalarResult (.sshrImm d a b) d (fun s => s.rdS a.toNat >>> b.toNat) ∧
  two (.ssra d a b) (fun x y => x.sshiftRight (y.toNat % 64)) ∧
  ScalarResult (.ssraImm d a b) d (fun s => (s.rdS a.toNat).sshiftRight b.toNat) ∧
  two (.sminS d a b) (fun x y => if x.toInt < y.toInt then x else y) ∧
  two (.sminU d a b) (fun x y => if x.toNat < y.toNat then x else y) ∧
  two (.smaxS d a b) (fun x y => if x.toInt < y.toInt then y else x) ∧
  two (.smaxU d a b) (fun x y => if x.toNat < y.toNat then y else x)

/-- R56, R389 to R391: compares write 1 or 0, SSEL selects by the old s[d], SMOV copies any source, and reads for the names 64
to 76 what the special registers carry: the warp's index, the block's warps, index and coordinates, its place in its gang (the
low three bits are its rank), core, die, role, logical clock and leaf; SPOPC and SCLZ count; SLI and SADR take the immediate. -/
def Obligations.ScalarComparesSelectsAndCounts : Prop := ∀ d a b : BitVec 7,
  let test := fun (i : Instr) (p : DWord → DWord → Prop) [∀ x y, Decidable (p x y)] =>
    ScalarResult i d (fun s => if p (s.rdS a.toNat) (s.rdS b.toNat) then 1 else 0)
  test (.scmpEq d a b) (fun x y => x = y) ∧
  test (.scmpNe d a b) (fun x y => x ≠ y) ∧
  test (.scmpLt d a b) (fun x y => x.toInt < y.toInt) ∧
  test (.scmpLe d a b) (fun x y => x.toInt ≤ y.toInt) ∧
  test (.scmpLtu d a b) (fun x y => x.toNat < y.toNat) ∧
  test (.scmpLeu d a b) (fun x y => x.toNat ≤ y.toNat) ∧
  ScalarResult (.ssel d a b) d (fun s => if s.rdS d.toNat ≠ 0 then s.rdS a.toNat else s.rdS b.toNat) ∧
  ScalarResult (.smov d a) d (fun s => s.rdS a.toNat) ∧
  (∀ s, ready (.smov d a) s = true → s.issue.replay = none →
    let w := s.cw
    let b := s.block w.blk
    let gang := recGang (s.recOf w.blk)
    ∀ x ∈ [(64, w.idx), (65, b.warps.length), (66, b.idx), (67, b.bx.toNat), (68, b.by_.toNat), (69, b.bz.toNat),
      (70, b.idx % gang + 8 * (b.idx / gang)), (71, b.core % 280), (72, dieOf b.core), (73, w.role), (74, w.lclk.toNat),
      (75, b.leafo.toNat), (76, b.leafp.toNat)], a.toNat = x.1 → ∃ t, exec (.smov d a) s = .next t ∧
        t.regS d.toNat = BitVec.ofNat 64 x.2) ∧
  ScalarResult (.spopc d a) d (fun s => BitVec.ofNat 64 (((List.range 64).filter (fun i => (s.rdS a.toNat).getLsbD i)).length)) ∧
  ScalarResult (.sclz d a) d (fun s =>
    BitVec.ofNat 64 (if s.rdS a.toNat = 0 then 64 else 63 - Nat.log2 (s.rdS a.toNat).toNat)) ∧
  (∀ imm : BitVec 14, ScalarResult (.sli d imm) d (fun s => BitVec.ofInt 64 (s.imm 14 imm.toNat)) ∧
    ScalarResult (.sadr d imm) d (fun s =>
      (BitVec.ofInt 57 ((s.issue.pc.toNat : Int) + s.imm 14 imm.toNat)).setWidth 64))

/-- R395 to R397: each vector integer instruction writes its result to the active lanes of vd, helper lanes included,
and sets no flag; VCMP writes bit l of kd for each active lane and leaves the other bits. -/
def Obligations.VectorIntegerWritesActiveLanes : Prop :=
  (∀ d a b : BitVec 7,
  let two := fun (i : Instr) (f : Word → Word → Word) =>
    VectorResult i d (fun s l => f (s.lane a.toNat l) (s.lane b.toNat l))
  let three := fun (i : Instr) (f : Word → Word → Word → Word) =>
    VectorResult i d (fun s l => f (s.lane a.toNat l) (s.lane b.toNat l) (s.lane d.toNat l))
  let sat := fun (x : Int) => BitVec.ofInt 32 (max (-2147483648) (min 2147483647 x))
  two (.vadd d a b) (fun x y => x + y) ∧
  two (.vaddSat d a b) (fun x y => sat (x.toInt + y.toInt)) ∧
  two (.vsub d a b) (fun x y => x - y) ∧
  two (.vsubSat d a b) (fun x y => sat (x.toInt - y.toInt)) ∧
  two (.vmulLo d a b) (fun x y => x * y) ∧
  two (.vmulHiS d a b) (fun x y => BitVec.ofInt 32 (x.toInt * y.toInt / 2 ^ 32)) ∧
  two (.vmulHiU d a b) (fun x y => BitVec.ofNat 32 (x.toNat * y.toNat / 2 ^ 32)) ∧
  three (.vmad d a b) (fun x y z => x * y + z) ∧
  two (.vand d a b) (fun x y => x &&& y) ∧
  two (.vor d a b) (fun x y => x ||| y) ∧
  two (.vxor d a b) (fun x y => x ^^^ y) ∧
  two (.vshl d a b) (fun x y => x <<< (y.toNat % 32)) ∧
  two (.vshr d a b) (fun x y => x >>> (y.toNat % 32)) ∧
  two (.vsra d a b) (fun x y => x.sshiftRight (y.toNat % 32)) ∧
  two (.vminS d a b) (fun x y => if x.toInt < y.toInt then x else y) ∧
  two (.vminU d a b) (fun x y => if x.toNat < y.toNat then x else y) ∧
  two (.vmaxS d a b) (fun x y => if x.toInt < y.toInt then y else x) ∧
  two (.vmaxU d a b) (fun x y => if x.toNat < y.toNat then y else x) ∧
  three (.vsel d a b) (fun x y z => if z ≠ 0 then x else y)) ∧
  (∀ d a b : BitVec 7,
  let test := fun (i : Instr) (p : Word → Word → Prop) [∀ x y, Decidable (p x y)] =>
    MaskResult i d (fun s l => decide (p (s.lane a.toNat l) (s.lane b.toNat l)))
  test (.vcmpEq d a b) (fun x y => x = y) ∧
  test (.vcmpNe d a b) (fun x y => x ≠ y) ∧
  test (.vcmpLt d a b) (fun x y => x.toInt < y.toInt) ∧
  test (.vcmpLe d a b) (fun x y => x.toInt ≤ y.toInt) ∧
  test (.vcmpLtu d a b) (fun x y => x.toNat < y.toNat) ∧
  test (.vcmpLeu d a b) (fun x y => x.toNat ≤ y.toNat))

/-- R395 to R397: the moves, counts and bit fields of the vector integer family; VMOV.rd writes a scalar from any lane,
whatever the masks hold. -/
def Obligations.VectorMovesCountsAndBitFields : Prop := ∀ d a b : BitVec 7,
  let one := fun (i : Instr) (f : Word → Word) => VectorResult i d (fun s l => f (s.lane a.toNat l))
  let pos := fun (y : Word) => y.toNat % 32
  let len := fun (y : Word) => min (min (y.toNat / 256 % 64) 32) (32 - y.toNat % 32)
  one (.vmov d a) (fun x => x) ∧
  VectorResult (.vmovBc d a) d (fun s _ => (s.rdS a.toNat).setWidth 32) ∧
  one (.vpopc d a) (fun x => BitVec.ofNat 32 (((List.range 32).filter (fun i => x.getLsbD i)).length)) ∧
  one (.vclz d a) (fun x => BitVec.ofNat 32 (if x = 0 then 32 else 31 - Nat.log2 x.toNat)) ∧
  VectorResult (.vbfeU d a b) d (fun s l => let x := s.lane a.toNat l; let y := s.lane b.toNat l;
    BitVec.ofNat 32 (x.toNat / 2 ^ pos y % 2 ^ len y)) ∧
  VectorResult (.vbfeS d a b) d (fun s l => let x := s.lane a.toNat l; let y := s.lane b.toNat l;
    if len y = 0 then 0 else (x <<< (32 - len y - pos y)).sshiftRight (32 - len y)) ∧
  (∀ s, ready (.vbfi d a b) s = true → ∃ t, exec (.vbfi d a b) s = .next t ∧ t.cw.fst = s.cw.fst ∧
    (∀ l, l < 32 → s.active.getLsbD l = true → ∀ k, k < 32 →
      let y := s.lane b.toNat l
      (laneOf (t.regV d.toNat) l).getLsbD k = if pos y ≤ k ∧ k < pos y + len y
        then (s.lane a.toNat l).getLsbD (k - pos y) else (s.lane d.toNat l).getLsbD k) ∧
    VectorFrame s t (fun n => n = d.toNat)) ∧
  ScalarResult (.vmovRd d a b) d (fun s => (s.lane a.toNat ((s.rdS b.toNat).toNat % 32)).setWidth 64)

/-! Floating point. -/

/-- R361, R362: FP32 arithmetic rounds the exact result once, under the opcode's mode or ctl.fpm's, and ORs the lanes'
flags into ctl.fst, where none of them is enabled. The exact results of FEXP2, FLOG2, FSIN and FCOS are series of 1,024
fraction bits with a sticky bit (exp2Exact, log2Exact, trigExact): the model's inference, log entry 17 (DEDUCED). -/
def Obligations.Fp32ArithmeticRoundsAndNotesFlags : Prop := ∀ d a b : BitVec 7,
  let rm := fun (s : State) => s.cw.rmode
  let rn := fun (_ : State) => RMode.rne
  let rz := fun (_ : State) => RMode.rz
  let two := fun (i : Instr) (m : State → RMode) (f : RMode → FVal → FVal → Exact) => FpResult i d
    (fun s l => finish fp32 (m s) s.cw.fz (f (m s) (s.f32 a.toNat l) (s.f32 b.toNat l)))
  let fma := fun (i : Instr) (m : State → RMode) => FpResult i d
    (fun s l => finish fp32 (m s) s.cw.fz (fmaExact (m s) (s.f32 a.toNat l) (s.f32 b.toNat l) (s.f32 d.toNat l)))
  let one := fun (i : Instr) (m : State → RMode) (f : FVal → Exact) => FpResult i d
    (fun s l => finish fp32 (m s) s.cw.fz (f (s.f32 a.toNat l)))
  let pick := fun (i : Instr) (isMax : Bool) => FpResult i d (fun s l =>
    ⟨minMaxBits fp32 isMax (flushIn fp32 s.cw.fz (s.lane a.toNat l).toNat) (flushIn fp32 s.cw.fz (s.lane b.toNat l).toNat), 0, false⟩)
  let sub := fun (m : RMode) (x y : FVal) => addExact m x y.neg
  two (.fadd d a b) rm addExact ∧ two (.faddRn d a b) rn addExact ∧ two (.faddRz d a b) rz addExact ∧
  two (.fsub d a b) rm sub ∧ two (.fsubRn d a b) rn sub ∧ two (.fsubRz d a b) rz sub ∧
  two (.fmul d a b) rm (fun _ => mulExact) ∧ two (.fmulRn d a b) rn (fun _ => mulExact) ∧
  two (.fmulRz d a b) rz (fun _ => mulExact) ∧ two (.fdiv d a b) rm (fun _ => divExact) ∧
  fma (.ffma d a b) rm ∧ fma (.ffmaRn d a b) rn ∧ fma (.ffmaRz d a b) rz ∧
  pick (.fmin d a b) false ∧ pick (.fmax d a b) true ∧
  one (.fsqrt d a) rm sqrtExact ∧ one (.frcp d a) rn rcpExact ∧ one (.frsq d a) rn rsqExact ∧
  one (.fexp2 d a) rn exp2Exact ∧ one (.flog2 d a) rn log2Exact ∧
  one (.fsin d a) rn (trigExact false) ∧ one (.fcos d a) rn (trigExact true)

/-- R363, R359: FCMP and DCMP write the predicate's bits of kd for the active lanes and note their flags. -/
def Obligations.FpComparesWriteMaskBits : Prop := ∀ d a b : BitVec 7,
  let single := fun (i : Instr) (c : Cmp) => FpMaskResult i d (fun s l => cmpVal c (s.f32 a.toNat l) (s.f32 b.toNat l))
  let double := fun (i : Instr) (c : Cmp) => FpMaskResult i d (fun s l => cmpVal c (s.f64 a.toNat l) (s.f64 b.toNat l))
  single (.fcmpEq d a b) .eq ∧ single (.fcmpNe d a b) .ne ∧ single (.fcmpLt d a b) .lt ∧
  single (.fcmpLe d a b) .le ∧ single (.fcmpUn d a b) .un ∧ single (.fcmpOrd d a b) .ord ∧
  double (.dcmpEq d a b) .eq ∧ double (.dcmpLt d a b) .lt ∧ double (.dcmpLe d a b) .le ∧ double (.dcmpUn d a b) .un

/-- R132 to R135: each FCVT decodes the source lane, converts it to the destination format under the rounding mode and
notes the flags; a 64-bit source or destination is a register pair. That FCVT to .uint clamps at 2^32 - 1 with nv, where R135
names no upper bound, is the model's choice (DESIGN CHOICE, log entry 72). -/
def Obligations.ConversionsConvertEachLane : Prop := ∀ d a : BitVec 7,
  let cvt := fun (i : Instr) (dst : CvtDst) (src : Nat → FVal) => FpResult i d
    (fun s l => convert s.cw.rmode dst (src (s.lane a.toNat l).toNat))
  let wide := fun (i : Instr) (src : Nat → FVal) => FpPairResult i d
    (fun s l => convert s.cw.rmode (.fp fp64) (src (s.lane a.toNat l).toNat))
  let narrow := fun (i : Instr) (dst : CvtDst) => FpResult i d
    (fun s l => convert s.cw.rmode dst (decodeF fp64 (s.lane64 a.toNat l).toNat))
  cvt (.fcvtF32F16 d a) (.fp fp32) (Elem.decode .fp16) ∧ cvt (.fcvtF32Bf16 d a) (.fp fp32) (Elem.decode .bf16) ∧
  cvt (.fcvtF16F32 d a) (.fp fp16) (Elem.decode .fp32) ∧ cvt (.fcvtBf16F32 d a) (.fp bf16) (Elem.decode .fp32) ∧
  cvt (.fcvtF32E4m3 d a) (.fp fp32) (Elem.decode .e4m3) ∧ cvt (.fcvtF32E5m2 d a) (.fp fp32) (Elem.decode .e5m2) ∧
  cvt (.fcvtE4m3F32Sat d a) (.e4m3 true) (Elem.decode .fp32) ∧ cvt (.fcvtE4m3F32 d a) (.e4m3 false) (Elem.decode .fp32) ∧
  cvt (.fcvtE5m2F32Sat d a) (.e5m2 true) (Elem.decode .fp32) ∧ cvt (.fcvtE5m2F32 d a) (.e5m2 false) (Elem.decode .fp32) ∧
  cvt (.fcvtF32T8 d a) (.fp fp32) (Elem.decode .t8) ∧ cvt (.fcvtT8F32 d a) .t8 (Elem.decode .fp32) ∧
  cvt (.fcvtF32T6 d a) (.fp fp32) (Elem.decode .t6) ∧ cvt (.fcvtT6F32 d a) .t6 (Elem.decode .fp32) ∧
  cvt (.fcvtF32E2m1 d a) (.fp fp32) (Elem.decode .e2m1) ∧ cvt (.fcvtE2m1F32 d a) .e2m1 (Elem.decode .fp32) ∧
  cvt (.fcvtF32Int d a) (.fp fp32) (fun x => intVal (sext 32 x)) ∧ cvt (.fcvtF32Uint d a) (.fp fp32) (fun x => intVal x) ∧
  cvt (.fcvtIntF32 d a) .int (Elem.decode .fp32) ∧ cvt (.fcvtUintF32 d a) .uint (Elem.decode .fp32) ∧
  wide (.fcvtF64F32 d a) (Elem.decode .fp32) ∧ wide (.fcvtF64Int d a) (fun x => intVal (sext 32 x)) ∧
  narrow (.fcvtF32F64 d a) (.fp fp32) ∧ narrow (.fcvtIntF64 d a) .int

/-- R368, R369, R359: packed 16-bit arithmetic rounds each half by itself and ORs both halves' flags; FP64 arithmetic
works on register pairs under fz64. -/
def Obligations.PackedAndDoubleArithmetic : Prop := ∀ d a b : BitVec 7,
  let packed := fun (i : Instr) (f : Fmt) (op : RMode → FVal → FVal → FVal → Exact) => FpResult i d (fun s l =>
    let half := fun (k : Nat) => finish f s.cw.rmode s.cw.fz (op s.cw.rmode
      (decodeFz f s.cw.fz (fieldOf (s.lane a.toNat l) k 16)) (decodeFz f s.cw.fz (fieldOf (s.lane b.toNat l) k 16))
      (decodeFz f s.cw.fz (fieldOf (s.lane d.toNat l) k 16)))
    ⟨(half 0).bits + (half 16).bits * 65536, (half 0).fl ||| (half 16).fl, false⟩)
  let double := fun (i : Instr) (f : State → Nat → Exact) => FpPairResult i d
    (fun s l => finish fp64 s.cw.rmode s.cw.fz64 (f s l))
  packed (.hadd2F16 d a b) fp16 (fun m x y _ => addExact m x y) ∧ packed (.hadd2Bf16 d a b) bf16 (fun m x y _ => addExact m x y) ∧
  packed (.hmul2F16 d a b) fp16 (fun _ x y _ => mulExact x y) ∧ packed (.hmul2Bf16 d a b) bf16 (fun _ x y _ => mulExact x y) ∧
  packed (.hfma2F16 d a b) fp16 fmaExact ∧ packed (.hfma2Bf16 d a b) bf16 fmaExact ∧
  double (.dadd d a b) (fun s l => addExact s.cw.rmode (s.f64 a.toNat l) (s.f64 b.toNat l)) ∧
  double (.dmul d a b) (fun s l => mulExact (s.f64 a.toNat l) (s.f64 b.toNat l)) ∧
  double (.dfma d a b) (fun s l => fmaExact s.cw.rmode (s.f64 a.toNat l) (s.f64 b.toNat l) (s.f64 d.toNat l)) ∧
  double (.ddiv d a b) (fun s l => divExact (s.f64 a.toNat l) (s.f64 b.toNat l)) ∧
  double (.dsqrt d a) (fun s l => sqrtExact (s.f64 a.toNat l))

/-- R126, R131, for one instruction of each shape (FP32, fused, compare, conversion, packed, FP64, quad difference, reduction,
scan): where a flag that the instruction raises is enabled it takes FPX, with every raised flag in the record, and writes
nothing. The order in which XRED and XSCAN add outside deterministic mode is free (DEDUCED, log entry 10). -/
def Obligations.EnabledFlagsTakeFpx : Prop := ∀ d a b : BitVec 7,
  FpTraps (.fadd d a b) (fun s l =>
    (finish fp32 s.cw.rmode s.cw.fz (addExact s.cw.rmode (s.f32 a.toNat l) (s.f32 b.toNat l))).fl) ∧
  FpTraps (.ffma d a b) (fun s l => (finish fp32 s.cw.rmode s.cw.fz
    (fmaExact s.cw.rmode (s.f32 a.toNat l) (s.f32 b.toNat l) (s.f32 d.toNat l))).fl) ∧
  FpTraps (.fdiv d a b) (fun s l =>
    (finish fp32 s.cw.rmode s.cw.fz (divExact (s.f32 a.toNat l) (s.f32 b.toNat l))).fl) ∧
  FpTraps (.fsqrt d a) (fun s l => (finish fp32 s.cw.rmode s.cw.fz (sqrtExact (s.f32 a.toNat l))).fl) ∧
  FpTraps (.fcmpLt d a b) (fun s l => (cmpVal .lt (s.f32 a.toNat l) (s.f32 b.toNat l)).2) ∧
  FpTraps (.fcvtF16F32 d a) (fun s l => (convert s.cw.rmode (.fp fp16) (Elem.decode .fp32 (s.lane a.toNat l).toNat)).fl) ∧
  FpTraps (.fcvtIntF32 d a) (fun s l => (convert s.cw.rmode .int (Elem.decode .fp32 (s.lane a.toNat l).toNat)).fl) ∧
  FpTraps (.hadd2F16 d a b) (fun s l => (packedLane fp16 s (fun x y _ => addExact s.cw.rmode x y)
    (s.lane a.toNat l) (s.lane b.toNat l) (s.lane d.toNat l)).fl) ∧
  FpTraps (.ddiv d a b) (fun s l =>
    (finish fp64 s.cw.rmode s.cw.fz64 (divExact (s.f64 a.toNat l) (s.f64 b.toNat l))).fl) ∧
  (let diff := fun (i : Instr) (plus minus : Nat → Nat) => FpTraps i (fun s l =>
    let at_ := fun (k : Nat) => decodeF fp32 (s.lane a.toNat (l / 4 * 4 + k)).toNat
    (finish fp32 s.cw.rmode false (addExact s.cw.rmode (at_ (plus (l % 4))) (at_ (minus (l % 4))).neg)).fl)
   diff (.qddxFine d a) (fun i => if i < 2 then 1 else 3) (fun i => if i < 2 then 0 else 2) ∧
   diff (.qddyCoarse d a) (fun _ => 2) (fun _ => 0)) ∧
  FpRaises (.xredAddF32 d a) (fun s => partialFlags (if s.cw.det then treeSum 5 (partials s a)
    else anySum (s.draw 0) 32 ((partials s a).filter (fun p => p.isSome)))) ∧
  FpRaises (.xscanAddF32 d a) (fun s => orFlags s.activeReal (fun l => partialFlags (
    if s.cw.det then scanBlocks (partials s a) (l + 1) 6 0 none
    else anySum (s.draw (1000 + 64 * l)) 32 (((partials s a).take (l + 1)).filter (fun p => p.isSome)))))

/-! Exchanges. -/

/-- R403: XSHF writes, in each active lane l, the value of va in the source lane that its variant chooses; a dead lane
supplies zero; no flag is set and nothing else changes. -/
def Obligations.XshfReadsItsSourceLane : Prop :=
  ∀ d a b : BitVec 7,
  let shuffle := fun (i : Instr) (src : State → Nat → Nat) =>
    VectorResult i d (fun s l => if s.cw.lanes.getLsbD (src s l) then s.lane a.toNat (src s l) else 0)
  let n := fun (s : State) => (s.rdS b.toNat).toNat % 32
  shuffle (.xshfIdx d a b) (fun s l => (s.lane b.toNat l).toNat % 32) ∧
  shuffle (.xshfUp d a b) (fun s l => if n s ≤ l then l - n s else l) ∧
  shuffle (.xshfDown d a b) (fun s l => if l + n s ≤ 31 then l + n s else l) ∧
  shuffle (.xshfXor d a b) (fun s l => l ^^^ n s)

/-- R35, R381, R382: QSWZ takes the lane of the quad that s[b] names; QDDX and QDDY are rounded differences of two lanes
of the quad, with their flags. -/
def Obligations.QuadExchangesStayInTheQuad : Prop :=
 ∀ d a b : BitVec 7,
  let diff := fun (i : Instr) (plus minus : Nat → Nat) => FpResult i d (fun s l =>
    let at_ := fun (k : Nat) => decodeF fp32 (s.lane a.toNat (l / 4 * 4 + k)).toNat
    finish fp32 s.cw.rmode false (addExact s.cw.rmode (at_ (plus (l % 4))) (at_ (minus (l % 4))).neg))
  VectorResult (.qswz d a b) d
    (fun s l => s.lane a.toNat (l / 4 * 4 + (s.rdS b.toNat).toNat / 2 ^ (2 * (l % 4)) % 4)) ∧
  diff (.qddxFine d a) (fun i => if i < 2 then 1 else 3) (fun i => if i < 2 then 0 else 2) ∧
  diff (.qddxCoarse d a) (fun _ => 1) (fun _ => 0) ∧
  diff (.qddyFine d a) (fun i => if i % 2 = 0 then 2 else 3) (fun i => i % 2) ∧
  diff (.qddyCoarse d a) (fun _ => 2) (fun _ => 0)

/-- R404: XBAL writes to s[d] a 64-bit value whose bit l is 1 when lane l is active, is not a helper, and holds a
nonzero va; bits [63:32] are zero; nothing else changes. -/
def Obligations.XbalGathersTheNonzeroLanes : Prop :=
  ∀ (d a : BitVec 7) s, ready (.xbal d a) s = true → ∃ t, exec (.xbal d a) s = .next t ∧
    (∀ l, l < 64 → (t.regS d.toNat).getLsbD l =
      decide (l < 32 ∧ s.active.getLsbD l = true ∧ s.cw.helpers.getLsbD l = false ∧ s.lane a.toNat l ≠ 0)) ∧
    t.cw.fst = s.cw.fst ∧ ScalarFrame s t (fun n => n = d.toNat)

/-- R402, R405 to R407: the reductions and the integer scan take the active lanes that are not helpers, in any order;
XMAXI gives those lanes the winner of R136, and of two equal candidates that are NaNs of different payloads the one of the
lower lane (the model's choice, log entry 73). -/
def Obligations.ReductionsAndScans : Prop :=
 ∀ d a b : BitVec 7,
  let real := fun (s : State) => lanesOf s.activeReal
  let val := fun (s : State) (l : Nat) => (s.lane a.toNat l).toNat
  let fold := fun (s : State) (x : Nat) (f : Nat → Nat → Nat) => BitVec.ofNat 64 ((real s).foldl (fun acc l => f acc (val s l)) x)
  let pick := fun (isMax : Bool) (s : State) => BitVec.ofNat 64 (match real s with
    | [] => canonNan fp32
    | k :: r => r.foldl (fun acc l => minMaxBits fp32 isMax acc (val s l)) (canonF32 (val s k)))
  let maxi := fun (i : Instr) (f : Fmt) => ∀ s, ready i s = true → ∃ t, exec i s = .next t ∧ t.cw.fst = s.cw.fst ∧
    VectorFrame s t (fun n => n = d.toNat ∨ n = d.toNat + 1) ∧
    ∀ l, l < 32 → s.activeReal.getLsbD l = true → ∃ x k, winner f ((real s).map (fun l => (val s l % 2 ^ f.width,
      (s.lane b.toNat l).toNat))) = some (x, k) ∧ laneOf (t.regV d.toNat) l = BitVec.ofNat 32 x ∧
      laneOf (t.regV (d.toNat + 1)) l = BitVec.ofNat 32 k
  ScalarResult (.xredAddInt d a) d (fun s => fold s 0 (fun x y => (x + y) % 2 ^ 32)) ∧
  ScalarResult (.xredAnd d a) d (fun s => fold s 0xFFFFFFFF (fun x y => x &&& y)) ∧
  ScalarResult (.xredOr d a) d (fun s => fold s 0 (fun x y => x ||| y)) ∧
  ScalarResult (.xredMinF32 d a) d (pick false) ∧
  ScalarResult (.xredMaxF32 d a) d (pick true) ∧
  LanesResult (.xscanAddInt d a) d State.activeReal (fun s l =>
    BitVec.ofNat 32 (((real s).filter (fun k => k ≤ l)).foldl (fun acc k => acc + val s k) 0)) ∧
  maxi (.xmaxiF16 d a b) fp16 ∧ maxi (.xmaxiF32 d a b) fp32

/-- R311, R405, R406: XRED.add.f32 and XSCAN.add.f32 add with R311's tree in deterministic mode and else in an order of
the model's free choice (Config.sumPick, log entry 10), and note the flags of their additions. -/
def Obligations.FloatingSumsFollowTheTree : Prop := ∀ d a : BitVec 7,
  let sum := fun (s : State) => if s.cw.det then treeSum 5 (partials s a)
    else anySum (s.draw 0) 32 ((partials s a).filter (fun p => p.isSome))
  let prefix_ := fun (s : State) (l : Nat) => if s.cw.det then scanBlocks (partials s a) (l + 1) 6 0 none
    else anySum (s.draw (1000 + 64 * l)) 32 (((partials s a).take (l + 1)).filter (fun p => p.isSome))
  FpScalarResult (.xredAddF32 d a) d (fun s => (BitVec.ofNat 64 (partialBits (sum s)), partialFlags (sum s))) ∧
  (∀ s, ready (.xscanAddF32 d a) s = true →
    orFlags s.activeReal (fun l => partialFlags (prefix_ s l)) &&& s.cw.fpEnables = 0 →
    ∃ t, exec (.xscanAddF32 d a) s = .next t ∧
      (∀ l, l < 32 → s.activeReal.getLsbD l = true →
        laneOf (t.regV d.toNat) l = BitVec.ofNat 32 (partialBits (prefix_ s l))) ∧
      t.cw.fst = s.cw.fst ||| orFlags s.activeReal (fun l => partialFlags (prefix_ s l)) ∧
      VectorFrame s t (fun n => n = d.toNat))

/-! Control. -/

/-- R376, R347, R307: NOP goes on at the next chain; BRA transfers to pc + imm × 4; BSC.z and BSC.nz transfer when s[d]
is zero or not zero; no register is written. Outside handler code and outside a miss group a retired NOP counts once
on the logical clock; in handler code the clock stands. -/
def Obligations.StraightLineAndScalarBranches : Prop :=
  (GoesTo .nop State.seqPc ∧
  (∀ imm : BitVec 21, GoesTo (.bra imm) (fun s => BitVec.ofInt 57 ((s.issue.pc.toNat : Int) + s.imm 21 imm.toNat * 4))) ∧
  (∀ (d : BitVec 7) (imm : BitVec 14), GoesTo (.bscZ d imm) (fun s => if s.rdS d.toNat = 0
      then BitVec.ofInt 57 ((s.issue.pc.toNat : Int) + s.imm 14 imm.toNat * 4) else s.seqPc) ∧
    GoesTo (.bscNz d imm) (fun s => if s.rdS d.toNat ≠ 0
      then BitVec.ofInt 57 ((s.issue.pc.toNat : Int) + s.imm 14 imm.toNat * 4) else s.seqPc))) ∧
  (∀ s, ready .nop s = true → ∃ t, exec .nop s = .next t ∧
  (s.inHandler = true → t.cw.lclk = s.cw.lclk) ∧
  (s.inHandler = false → s.ranBefore = false → s.cw.missGroup s.issue.entry = [] → t.cw.lclk = s.cw.lclk + 1))

/-- R87, R88, R90: XIMM appends its 21 bits to the chain and KSEL notes its mask; an immediate is the sign-extended
concatenation of the XIMM bits, first one highest, and the field. -/
def Obligations.PrefixesExtendTheChain : Prop :=
  (∀ (imm : BitVec 21) s, s.issueOk = true → exec (.ximm imm) s =
    .next { s with issue := { s.issue with xs := s.issue.xs ++ [imm] } }) ∧
  (∀ (n : BitVec 1) (m : BitVec 3) s, s.issueOk = true → exec (.ksel n m) s =
    .next { s with issue := { s.issue with ks := some (n, m) } }) ∧
  (∀ (w : Nat) (f : BitVec w) (x y : BitVec 21) (s : State), 0 < w →
    (s.issue.xs = [] → s.imm w f.toNat = f.toInt) ∧
    (s.issue.xs = [x] → s.imm w f.toNat = (x ++ f).toInt) ∧
    (s.issue.xs = [x, y] → s.imm w f.toNat = (x ++ y ++ f).toInt))

/-- R23: with no lane taken BRV goes on at the next chain, with every lane of the strand taken it transfers. Where both
sets have lanes, a topmost strand splits into two arms of a group, the one not taken in its own entry and the taken
one in the lowest free entry; any other, and a topmost strand with no entry free, pushes a mask-stack entry and runs the
lanes not taken. -/
def Obligations.VectorBranchesFollowTheTable : Prop :=
  (∀ (d : BitVec 7) (imm : BitVec 14) (s : State),
  let target : Va := BitVec.ofInt 57 ((s.issue.pc.toNat : Int) + s.imm 14 imm.toNat * 4)
  let takes := fun (i : Instr) (tk : Mask) => ready i s = true →
    (tk = 0 → ∃ t, exec i s = .next t ∧ t.cs.pc = s.seqPc ∧ ScalarFrame s t (fun _ => False)) ∧
    (tk ≠ 0 → s.k0 &&& ~~~tk = 0 → ∃ t, exec i s = .next t ∧ t.cs.pc = target ∧ ScalarFrame s t (fun _ => False))
  takes (.brvT d imm) (s.active &&& s.rdK d.toNat) ∧ takes (.brvF d imm) (s.active &&& ~~~s.rdK d.toNat)) ∧
  (∀ (d : BitVec 7) (imm : BitVec 14) (s : State),
  let target : Va := BitVec.ofInt 57 ((s.issue.pc.toNat : Int) + s.imm 14 imm.toNat * 4)
  let takes := fun (i : Instr) (tk : Mask) =>
    let nt := s.k0 &&& ~~~tk
    let c := s.cs
    let e := s.issue.entry
    ready i s = true → tk ≠ 0 → nt ≠ 0 →
    (∀ f, s.topmost = true → (List.range 4).find? (fun f => (s.cw.strand f).isNone) = some f →
      exec i s = .next (s.retired i (((s.atInstr i).putW ((s.cw.setStrand e (some
        { c with mask := nt, pc := s.issue.pc + 4, kind := .arm, group := e, region := none, jumped := false, st := .ready,
                 wait := none })).setStrand f (some
        { Strand.start tk target with kind := .arm, group := e, jumped := true }))).settled))) ∧
    (s.topmost = false ∨ (List.range 4).find? (fun f => (s.cw.strand f).isNone) = none → c.stack.length < 16 →
      exec i s = .next (s.retired i ((s.atInstr i).putS
        { c with mask := nt, region := none, stack := ⟨s.k0, tk, target, false⟩ :: c.stack })))
  takes (.brvT d imm) (s.active &&& s.rdK d.toNat) ∧ takes (.brvF d imm) (s.active &&& ~~~s.rdK d.toNat))

/-- R24: CONV runs the pending path of the top of the mask stack, pops a path that has run, lets a root strand with an
empty stack go on, and makes an arm with an empty stack wait for its group. -/
def Obligations.ConvergeRunsPendingPopsAndJoins : Prop := ∀ s, ready .conv s = true →
  let c := s.cs
  (∀ top rest, c.stack = top :: rest → top.done = false → top.pending ≠ 0 → exec .conv s = .next (s.retired .conv
    (((s.atInstr .conv).putS { c with
      mask := top.pending, stack := { top with ppc := s.issue.chain, done := true } :: rest, region := none }).jump top.ppc))) ∧
  (∀ top rest, c.stack = top :: rest → (top.done = true ∨ top.pending = 0) → (rest ≠ [] ∨ c.spilledRecs = 0) →
    exec .conv s = .next (s.retired .conv ((s.atInstr .conv).putS { c with
      mask := top.saved, stack := rest, region := if top.saved = c.mask then c.region else none }))) ∧
  (c.stack = [] → (c.kind ≠ .arm ∨ s.inHandler = true) →
    ∃ t, exec .conv s = .next t ∧ t.cs.pc = s.seqPc ∧ ScalarFrame s t (fun _ => False)) ∧
  (c.stack = [] → c.kind = .arm → s.inHandler = false →
    exec .conv s = .next (((s.atInstr .conv).putS { c with st := .joining, wait := none }).joinGroup s.issue.warp c.group))

/-- R360, R26: EXIT with no active lane does nothing. Where a strand is parked and the active lanes are every lane of the warp
that no parked strand runs or has pending in its mask stack, it raises STACKLIM. Else the active lanes, and the helper lanes
whose quads lose their last other lane, leave the warp: no strand runs one of them, and what no longer waits for them goes on;
in handler code the strands of the warp's handlers lose them too. The model's own are: which helper lanes leave
(DESIGN CHOICE, log entry 72), that other strands and outer handlers run the loop of R360 as the issuing strand does
(log entries 27 and 72), and which lanes are parked where a parked strand's records are spilled: those that no other strand
has. -/
def Obligations.ExitRemovesTheActiveLanes : Prop := ∀ s, ready .exit s = true →
  let w := s.issue.warp
  let blocked := s.cw.anyParked = true ∧ s.active = s.cw.lanes &&& ~~~s.cw.parkedLanes
  let gone := s.active ||| leavingHelpers (s.cw.lanes &&& ~~~s.active) s.cw.helpers
  let s1 := (s.atInstr .exit).putW { s.cw with lanes := s.cw.lanes &&& ~~~gone }
  let s2 := s1.putS (s1.afterChain s1.cs)
  (s.active = 0 → ∃ t, exec .exit s = .next t ∧ t.cs.pc = s.seqPc ∧ ScalarFrame s t (fun _ => False)) ∧
  (s.active ≠ 0 → blocked → exec .exit s = .next ((s.atInstr .exit).raise (TrapInfo.of (.stacklim, 0)))) ∧
  ((∀ e t, e < 4 → s.cw.strand e = some t → t.st = .parked → t.spilledRecs = 0) →
    ∀ l, s.cw.parkedLanes.getLsbD l = true ↔ ∃ e t, e < 4 ∧ s.cw.strand e = some t ∧ t.st = .parked ∧
      (t.mask.getLsbD l = true ∨ ∃ r ∈ t.stack, r.saved.getLsbD l = true ∨ r.pending.getLsbD l = true)) ∧
  (s.active ≠ 0 → ¬ blocked → s.inHandler = false → ∀ s3, s2.removeLanes w gone s.issue.resp [0, 1, 2, 3] = .ok s3 →
    (∀ e u, e < 4 → (s3.warp w).strand e = some u → u.mask &&& gone = 0) ∧
    exec .exit s = .next (s.retired .exit (s3.afterExit w).settled)) ∧
  (s.active ≠ 0 → ¬ blocked → s.inHandler = true → ∀ hs s3 s4,
    s2.drainHandlers w gone s.issue.resp (s2.warp w).handlers = .ok (hs, s3) →
    ((s3.setWarp w { s3.warp w with handlers := hs }).endHandlers w hs.length).removeLanes w gone s.issue.resp [0, 1, 2, 3]
      = .ok s4 →
    (∀ h ∈ hs, h.strand.mask &&& gone = 0) ∧ exec .exit s = .next (s.retired .exit (s4.afterExit w).settled))

/-- R408, R409, R297, R308, R375, R344, R345: WAIT and YIELD with nothing to wait for go on, IDEM opens a region, LCLK
reads the clock and adds s[a][31:0] and its own count, and MWAIT ends once the counter has reached the step or shows
an error. BAR and BARG make their strand wait and release every strand of a complete barrier; WAIT with a pause and
YIELD with copies outstanding wait. The model's own are: that LCLK in handler code adds s[a][31:0] without its own count
(DEDUCED, log entry 30), which copies YIELD awaits where one has stopped at a fault (DEDUCED, log entry 41), and that a pause
is counted in the model's clocks (log entry 16). -/
def Obligations.WaitsEndAtOnceOrStall : Prop :=
  ((∀ (imm : BitVec 14) s, ready (.wait imm) s = true → s.cs.wait = none → imm.toNat < 4 →
    (imm.getLsbD 1 = true → (s.opsOf s.issue.warp).any (fun o => o.entry = s.issue.entry && o.writesRows) = false) →
    ∃ t, exec (.wait imm) s = .next t ∧ t.cs.pc = s.seqPc ∧ ScalarFrame s t (fun _ => False)) ∧
  (∀ (imm : BitVec 21) s, ready (.yield imm) s = true → s.copiesOut s.issue.warp = false →
    ∃ t, exec (.yield imm) s = .next t ∧
      t.cs.pc = BitVec.ofInt 57 ((s.issue.pc.toNat : Int) + s.imm 21 imm.toNat * 4) ∧ ScalarFrame s t (fun _ => False)) ∧
  (∀ s, ready .idem s = true → exec .idem s = .next (s.retired .idem
    ((s.atInstr .idem).putS { s.cs with region := some ⟨s.issue.chain, s.cs.mask, s.cw.lclk, 0⟩ }))) ∧
  (∀ (d a : BitVec 7) s, ready (.lclk d a) s = true → ∃ t, exec (.lclk d a) s = .next t ∧ t.regS d.toNat = s.cw.lclk ∧
    (s.inHandler = true → t.cw.lclk = s.cw.lclk + ((s.rdS a.toNat).setWidth 32).setWidth 64) ∧
    (s.inHandler = false → s.ranBefore = false → s.cw.missGroup s.issue.entry = [] →
      t.cw.lclk = s.cw.lclk + ((s.rdS a.toNat).setWidth 32).setWidth 64 + 1)) ∧
  (∀ (a b : BitVec 7) s c s1, ready (.mwait a b) s = true → (s.rdS a.toNat).toNat % 64 = 0 →
    (s.rdS b.toNat).getLsbD 63 = false → (s.atInstr (.mwait a b)).atomicLoad .mwait (s.rdS a.toNat).toNat = .ok (c, s1) →
    ((s.rdS b.toNat).toNat ≤ c % 2 ^ 63 ∨ c / 2 ^ 63 % 2 = 1) →
    exec (.mwait a b) s = .next (s.retired (.mwait a b) (s1.acquireL1 (s1.coreOfWarp s1.issue.warp))))) ∧
  ((∀ (imm : BitVec 7) s, ready (.bar imm) s = true →
    exec (.bar imm) s = .next (((s.atInstr (.bar imm)).setWait .bar 0 []).settleBars s.cw.blk)) ∧
  (∀ (imm : BitVec 7) s, ready (.barg imm) s = true →
    exec (.barg imm) s = .next (((s.atInstr (.barg imm)).setWait .barg 0 []).settleBars s.cw.blk)) ∧
  (∀ (imm : BitVec 14) s, ready (.wait imm) s = true → s.atChain → s.cs.wait = none → 4 ≤ imm.toNat → imm.getLsbD 1 = false →
    exec (.wait imm) s = .next ((s.atInstr (.wait imm)).setWait .pause (s.clock + imm.toNat / 4) [])) ∧
  (∀ (imm : BitVec 21) s, ready (.yield imm) s = true → s.atChain → s.copiesOut s.issue.warp = true →
    exec (.yield imm) s = .next ((s.atInstr (.yield imm)).setWait .yield 0 [])))

/-- R34, R67, R69, R81: outside handler code CALL and CALLI push a caller record, slide the window by the outgoing
registers, park the other strands and transfer; with 8 resident callers the oldest is spilled first; a CALLI target that is no
multiple of 4 raises ALIGN. RET waits until every strand that is not parked is at a RET; the last one performs the return: the
strands become one at the caller record's return address, the caller's window comes back, a spilled record is refilled first,
and the strands that the CALL parked go on. With no caller record, with a spilled one whose header no refill may use, or with
another mask stack than the record's, which a spilled one's header tells before its registers are read, it raises STACKLIM.
All three take PROT 11 in handler code. A window instruction waits for memory instructions of other strands (R62; log entry 67). -/
def Obligations.CallsSlideTheWindowAndReturnsMerge : Prop :=
  (let slid := fun (s : State) (x : Warp) (ret : Va) =>
    let dv := min x.vo x.effF
    { (x.entries.foldl (fun y f => match y.strand f with
        | some u => if f ≠ s.issue.entry && u.st ≠ .parked then
            y.setStrand f (some (u.park (x.depth + 1) s.clock)) else y
        | none => y) x) with
      callers := x.callers ++ [⟨ret, x.vf, x.vo, x.sf, x.so, dv, x.so, s.cs.depth, s.issue.entry,
        (match s.cs.kind with
          | .root => 0
          | .arm => 1
          | .miss => 2), s.cs.group, none⟩],
      vb := (x.vb + dv) % x.ring, sb := (x.sb + x.so) % 64, vf := x.effF - dv, vo := 0, sf := x.sf - x.so, so := 0 }
  let goes := fun (i : Instr) (s : State) (p : Va) => s.inHandler = false → s.cw.othersPending s.issue.entry = false →
    (s.cw.callers.length ≠ 8 →
      exec i s = .next (s.retired i (((s.atInstr i).putW (slid s s.cw (s.issue.pc + 4))).jump p))) ∧
    (∀ s1, s.cw.callers.length = 8 → (s.atInstr i).spillOldest s.issue.warp = .ok s1 →
      s1.cw.callers = s.cw.callers.drop 1 ∧ s1.cw.spilled = s.cw.spilled + 1 ∧
      exec i s = .next (s.retired i ((s1.putW (slid s1 s1.cw (s.issue.pc + 4))).jump p)))
  (∀ (imm : BitVec 21) s, ready (.call imm) s = true → goes (.call imm) s (s.issue.pc + BitVec.ofInt 57 (imm.toInt * 4))) ∧
  (∀ (a : BitVec 7) s, ready (.calli a) s = true → (s.rdS a.toNat).toNat % 4 = 0 →
    goes (.calli a) s ((s.rdS a.toNat).setWidth 57)) ∧
  (∀ a : BitVec 7, TrapsWhen (.calli a) (fun s => s.inHandler = false ∧ s.cw.othersPending s.issue.entry = false ∧
    (s.rdS a.toNat).toNat % 4 ≠ 0) (.align, 0)) ∧
  (∀ (imm : BitVec 21) (a : BitVec 7), TrapsWhen (.call imm) (fun s => s.inHandler = true) (.prot, 11) ∧
    TrapsWhen (.calli a) (fun s => s.inHandler = true) (.prot, 11))) ∧
  (∀ s s1 r, ready .ret s = true → s.inHandler = false →
  let s' := (s.atInstr .ret).setWait .ret 0 []
  let shallow := fun (x : Warp) => ∀ e ∈ s'.cw.atRet, ∀ t, x.strand e = some t → t.depth = r.kdepth
  (s.atChain → s'.cw.allAtRet = false → exec .ret s = .next s') ∧
  (s'.cw.allAtRet = true → s'.cw.callers.getLast? = some r → shallow s'.cw →
    ∃ t, exec .ret s = .next t ∧ Returned s'.cw t.cw r ∧ t.mem = s.mem ∧ t.blocks = s.blocks ∧ t.launches = s.launches ∧
      (∀ v, v ≠ s.issue.warp → t.warp v = s.warp v)) ∧
  (s'.cw.allAtRet = true → s'.cw.callers = [] → s'.cw.depth ≠ 0 →
    s'.refillNewest s.issue.warp s.issue.resp s'.cw.retDepths = .ok s1 → s1.cw.callers = [r] → shallow s1.cw →
    ∃ t, exec .ret s = .next t ∧ Returned s1.cw t.cw r ∧ t.mem = s1.mem ∧ t.blocks = s.blocks ∧ t.launches = s.launches) ∧
  (s'.cw.allAtRet = true → (s'.cw.depth = 0 ∨ (s'.cw.callers.getLast? = some r ∧ ¬ shallow s'.cw)) →
    exec .ret s = .next (s'.raise (TrapInfo.of (.stacklim, 0)))) ∧
  (s'.cw.allAtRet = true → s'.cw.callers = [] → s'.cw.depth ≠ 0 → ∀ hb s2, 32 ≤ s'.cw.sptr.toNat →
    s'.ladleRead s.issue.warp s.issue.resp (s'.cw.sptr.toNat - 32) 32 = .ok (hb, s2) →
    headerOk (ofBytes hb) s'.cw.sptr.toNat s'.cw.ring = false ∨ s'.cw.retDepths (headerRec (ofBytes hb)) = false →
    exec .ret s = .next (s'.raise (TrapInfo.of (.stacklim, 0))))) ∧
  TrapsWhen .ret (fun s => s.inHandler = true) (.prot, 11)

/-- R62, R66, R70: FRAME takes the four sizes when no frame need spill, WBASE starts a call stack, RGROW and RSHRINK answer
the allotment; all raise PROT 11 in handler code, and wait where another strand of the warp has memory instructions whose
accesses are to come (R62; log entry 67). -/
def Obligations.WindowInstructionsSetTheFrame : Prop :=
  (∀ (imm : BitVec 14) s s1, ready (.frame imm) s = true → s.inHandler = false → s.cw.othersPending s.issue.entry = false →
    let vf := imm.toNat % 16 * 8
    let vo := imm.toNat / 16 % 16 * 8
    let sf := imm.toNat / 256 % 8 * 8
    let so := imm.toNat / 2048 % 8 * 8
    (s.atInstr (.frame imm)).spillFor s.issue.warp vf sf 9 = (s1, none) →
    exec (.frame imm) s = .next (s.retired (.frame imm) (s1.putW { s1.cw with vf := vf, vo := vo, sf := sf, so := so }))) ∧
  (∀ (a : BitVec 7) s, ready (.wbase a) s = true → s.inHandler = false → s.cw.othersPending s.issue.entry = false →
    exec (.wbase a) s = .next (s.retired (.wbase a) ((s.atInstr (.wbase a)).putW { s.cw with
      strands := s.cw.strands.map (fun t => t.map (fun u => if u.st = .parked then { u with parkDepth := 0 } else u)),
      callers := [], spilled := 0, sptr := 0, vb := (s.rdS a.toNat).toNat % 256 % s.cw.ring,
      sb := (s.rdS a.toNat).toNat / 256 % 256 % 64 }))) ∧
  (∀ (d : BitVec 7) s, ready (.rgrow d) s = true → s.inHandler = false → s.cw.othersPending s.issue.entry = false →
    (s.cw.ext = true → exec (.rgrow d) s = .next (s.retired (.rgrow d)
      ((s.atInstr (.rgrow d)).wrS d.toNat (BitVec.ofNat 64 s.cw.allot)))) ∧
    (∀ s1, s.cw.ext = false → s.cs.wait = none → 64 ≤ s.pool (s.quarterOf s.issue.warp) →
      s.firstToGrow s.issue.warp s.seq = true → (s.atInstr (.rgrow d)).spillAll s.issue.warp 9 = (s1, none) →
      let s2 := s1.putW (rebase s1.cw { s1.cw with ext := true } s1.cw.effF)
      exec (.rgrow d) s = .next (s.retired (.rgrow d) (s2.wrS d.toNat (BitVec.ofNat 64 s2.cw.allot))))) ∧
  (∀ (d : BitVec 7) s, ready (.rshrink d) s = true → s.inHandler = false → s.cw.othersPending s.issue.entry = false →
    (s.cw.ext = false → exec (.rshrink d) s = .next (s.retired (.rshrink d)
      ((s.atInstr (.rshrink d)).wrS d.toNat (BitVec.ofNat 64 s.cw.allot)))) ∧
    (∀ s1, s.cw.ext = true → (s.atInstr (.rshrink d)).spillAll s.issue.warp 9 = (s1, none) →
      let x := s1.cw
      let y := { x with ext := false }
      let z := { y with vf := min x.vf y.ring, vo := min x.vo (min x.vf y.ring) }
      exec (.rshrink d) s = .next (s.retired (.rshrink d)
        ((s1.putW (rebase x z z.effF)).wrS d.toNat (BitVec.ofNat 64 (s1.putW (rebase x z z.effF)).cw.allot))))) ∧
  (∀ (m : BitVec 21) (imm : BitVec 14) (a : BitVec 7), ∀ i ∈ [Instr.call m, .calli a, .frame imm, .wbase a, .rgrow a, .rshrink a],
    ∀ s, ready i s = true → s.atChain →
    s.inHandler = false → s.cw.othersPending s.issue.entry = true → exec i s = .next ((s.atInstr i).setWait .flights 0 [])) ∧
  (∀ (imm : BitVec 14) (a : BitVec 7), TrapsWhen (.frame imm) (fun s => s.inHandler = true) (.prot, 11) ∧
    TrapsWhen (.wbase a) (fun s => s.inHandler = true) (.prot, 11) ∧
    TrapsWhen (.rgrow a) (fun s => s.inHandler = true) (.prot, 11) ∧
    TrapsWhen (.rshrink a) (fun s => s.inHandler = true) (.prot, 11))

/-- R57, R356, R357, R77, R126: CTLR writes the named control register to s[d], padded with zeros. CTLW writes ctl.fpm,
ctl.fst, ctl.trapv, ctl.barlim, and ctl.spb and ctl.spl unless spilled data stands in the warp's region, which
raises PROT 0; the other registers ignore it. -/
def Obligations.ControlRegistersReadAndWrite : Prop :=
  (∀ d imm : BitVec 7, ScalarResult (.ctlr d imm) d (fun s =>
  let x := s.cw
  BitVec.ofNat 64 (match imm.toNat with
    | 0 => x.fpm.toNat
    | 1 => x.fst.toNat
    | 2 => if x.det then 1 else 0
    | 3 => x.accb.toNat
    | 4 => x.accl.toNat
    | 5 => x.winb
    | 6 => x.spb.toNat
    | 7 => x.flen.toNat + x.sptr.toNat * 2 ^ 32
    | 8 => x.mprog.toNat
    | 9 => x.trapv.toNat
    | 10 => x.barlim.toNat
    | 11 => ingcal (s.calPhase (dieOf (s.coreOfWarp s.issue.warp)))
    | _ => 0))) ∧
  (∀ a : BitVec 7,
  let writes := fun (n : BitVec 7) (f : State → Warp → Warp) =>
    CompletesWhen (.ctlw a n) (fun s => n.toNat = 6 ∨ n.toNat = 7 → s.cw.hasSpilled = false) (fun s => s.putW (f s s.cw))
  let v := fun (s : State) => s.rdS a.toNat
  writes 0 (fun s x => { x with fpm := (v s).setWidth 10 }) ∧
  writes 1 (fun s x => { x with fst := (v s).setWidth 6 }) ∧
  writes 6 (fun s x => { x with spb := BitVec.ofNat 64 ((v s).toNat / 256 % 2 ^ 49 * 256) }) ∧
  writes 7 (fun s x => { x with flen := BitVec.ofNat 32 ((v s).toNat / 256 % 2 ^ 24 * 256) }) ∧
  writes 9 (fun s x => { x with trapv := BitVec.ofNat 64 ((v s).toNat % 2 ^ 57) }) ∧
  writes 10 (fun s x => { x with barlim := (v s).setWidth 32 }) ∧
  (∀ n : BitVec 7, n.toNat ∈ [2, 3, 4, 5, 8, 11] → Completes (.ctlw a n) (fun s => s)) ∧
  TrapsWhen (.ctlw a 6) (fun s => s.cw.hasSpilled = true) (.prot, 0) ∧
  TrapsWhen (.ctlw a 7) (fun s => s.cw.hasSpilled = true) (.prot, 0))

/-- R77: a CTLW to ctl.spb or ctl.spl raises PROT with subcode 0, with no effect of its own, when sptr is nonzero or any
mask-stack record of a strand of the warp, or of its handler code, is spilled. -/
def Obligations.SpillRegionWritesNeedNoSpilledData : Prop :=
  ∀ (a n : BitVec 7), n.toNat = 6 ∨ n.toNat = 7 →
    TrapsWhen (.ctlw a n) (fun s => s.cw.sptr ≠ 0 ∨ (∃ e t, e < 4 ∧ s.cw.strand e = some t ∧ t.spilledRecs ≠ 0) ∨
      ∃ h ∈ s.cw.handlers, h.strand.spilledRecs ≠ 0) (.prot, 0)

/-- R285, R293: TRAP and BRKP retire and then deliver SYS, and BRKP subcode 0, with their code; rpc is the next chain. Where
single-stepping is enabled the retirement notes its BRKP, which stays pending behind the trap that is delivered: the order of
the two is the model's inference (DEDUCED, log entry 34). -/
def Obligations.TrapAndBreakpointRetireAndTrap : Prop := ∀ imm : BitVec 14,
  let after := fun (i : Instr) (e : Err) => ∀ s, ready i s = true → exec i s = .next
    ((s.retired i (s.atInstr i)).deliver s.issue.warp s.issue.entry { TrapInfo.of e with
      imm := imm, fpc := s.issue.chain, rpc := s.issue.pc + 4, after := s.issue.pc + 4, word := encode i })
  after (.trap imm) (.sys, 0) ∧ after (.brkp imm) (.brkp, 0)

/-! Taking an exception and returning from one. -/

/-- R82, R287, R288, R424: a trap whose cause ctl.trapv enables enters the handler at base + 64 × cause with the strand's mask,
its record in the reserve's registers and the others zero; the warp's own registers and every other warp stay. Where another
handler holds the quarter's reserve, nested or of another warp, its registers go to its owner's frame area first, as a block of
2,208 bytes, and come back for it later; where they have no room there or cannot be stored, it is an MCHK. A block read back gives
the reserve the registers that it had. -/
def Obligations.EnabledTrapsEnterTheHandler : Prop :=
  (∀ (s : State) (w e : Nat) (i : TrapInfo) (u : Strand),
  let x := s.warp w
  w < s.warps.length → x.phase = .running → x.runner e = some u → x.handlers = [] → i.cause ≠ .mchk →
  x.trapv.getLsbD i.cause.num = true → (s.quarter (s.quarterOf w)).owner = none → e < 4 → i.sub < 256 → i.logN ≤ 8 →
  i.lane < 32 →
  let t := s.deliver w e i
  let y := t.warp w
  let q := t.quarter (s.quarterOf w)
  let rs := fun (n : Nat) => spGet 0 q.rs n
  let rv := fun (n : Nat) => spGet 0 q.rv n
  let at_ := fun (l : Nat) => (alGet i.addrs l).getD 0
  (∃ h, y.handlers = [h] ∧ h.entry = e ∧ h.strand.mask = u.mask ∧ h.strand.st = .ready ∧
    h.strand.pc = BitVec.ofNat 57 (x.trapv.toNat / 65536 % 2 ^ 41 * 65536 + 64 * i.cause.num)) ∧
  q.owner = some w ∧
  (rs 0).toNat % 16 = i.cause.num ∧ (rs 0).toNat / 2 ^ 4 % 16 = 0 ∧ (rs 0).toNat / 2 ^ 8 % 256 = i.sub ∧
  (rs 0).toNat / 2 ^ 19 % 2 = (if i.logN = 0 then 0 else 1) ∧ (rs 0).toNat / 2 ^ 20 % 8 = i.logN - 1 ∧
  (rs 0).toNat / 2 ^ 23 % 4 = e ∧ (rs 0).toNat / 2 ^ 25 % 32 = i.lane ∧ (rs 0).toNat / 2 ^ 30 % 4 = 0 ∧
  (rs 0).toNat / 2 ^ 32 = i.imm.toNat ∧
  rs 1 = i.fpc.setWidth 64 ∧ rs 2 = i.rpc.setWidth 64 ∧ rs 3 = i.addr ∧ (rs 4).setWidth 32 = i.word ∧ rs 5 = x.lclk ∧
  (∀ n, 6 ≤ n → rs n = 0) ∧
  (∀ l, l < 32 → laneOf (rv 0) l = (if i.met.getLsbD l then 1 else 0) ∧
    laneOf (rv 1) l ++ laneOf (rv 2) l = (at_ l).setWidth 32 ++ ((at_ l) >>> 32).setWidth 32) ∧
  (∀ n, 3 ≤ n → rv n = 0) ∧
  y.fst = x.fst ∧ y.fpm = x.fpm ∧ y.trapv = x.trapv ∧ y.lclk = x.lclk ∧ y.vregs = x.vregs ∧ y.sregs = x.sregs ∧
  y.kregs = x.kregs ∧ y.lanes = x.lanes ∧ (∀ f, f ≠ e → y.strand f = x.strand f) ∧
  (∀ v, v ≠ w → t.warp v = s.warp v) ∧ t.mem = s.mem ∧ t.blocks = s.blocks) ∧
  (∀ (s : State) (w e o : Nat) (i : TrapInfo) (u : Strand),
  let x := s.warp w
  let q := s.quarterOf w
  let s0 := s.setWarp w (x.setRunner e
    { u with wait := none, st := if u.st = .stalled then .ready else u.st, alone := false, permit := false })
  let t := s.deliver w e i
  let d := dieOf (s.coreOfWarp o)
  w < s.warps.length → o < s.warps.length → e < 4 → x.phase = .running → x.runner e = some u → i.cause ≠ .mchk →
  x.trapv.getLsbD i.cause.num = true → (∀ h, x.handlerAt e = some h → h.cause ≠ i.cause.num) →
  (s.quarter q).owner = some o → i.sub < 256 → i.logN ≤ 8 → i.lane < 32 →
  (∀ s1, s0.spillReserve q = some s1 →
    (∃ h, (t.warp w).handlers = h :: (s1.warp w).handlers ∧ h.entry = e ∧ h.strand.mask = u.mask ∧ h.strand.st = .ready ∧
      h.strand.pc = BitVec.ofNat 57 (x.trapv.toNat / 65536 % 2 ^ 41 * 65536 + 64 * i.cause.num) ∧ h.inReserve = true ∧
      h.nested = (x.handlerAt e).isSome) ∧
    (t.quarter q).owner = some w ∧ (t.quarter q).spilledOwners = o :: (s.quarter q).spilledOwners ∧
    (spGet 0 (t.quarter q).rs 0).getLsbD 30 = (x.handlerAt e).isSome ∧ (t.warp o).sptr = (s.warp o).sptr + 2208 ∧
    t.mem = s1.mem) ∧
  (s0.spillReserve q = none → Report.mchk d (s.ctxOfWarp o) ∈ t.sys.reports ∧
    ∀ l, s.liveLaunch d (s.ctxOfWarp o) l → ∃ y, t.launches[l]? = some y ∧ y.phase = .killed)) ∧
  (∀ (s : State) (q o : Nat), (s.quarter q).owner = some o →
    let x := s.warp o
    let block := (s.quarter q).reserveBytes ++ toBytes 32 reserveHeader
    (x.flen.toNat < x.sptr.toNat + 2208 → s.spillReserve q = none) ∧
    (∀ a, s.ladleRun o [] x.sptr.toNat block = .error a → s.spillReserve q = none) ∧
    (∀ run, x.sptr.toNat + 2208 ≤ x.flen.toNat → s.ladleRun o [] x.sptr.toNat block = .ok run → runAsks run = [] →
      ∃ s1, s.spillReserve q = some s1 ∧ s1.mem = (s.putHome (s.whoOfWarp o) run).mem)) ∧
  (∀ (s s1 s2 : State) (q o : Nat) (rest : List Nat) (rs : List HostResp) (hb bs : List Byte),
    (s.quarter q).spilledOwners = o :: rest → q < s.quarters.length → o < s.warps.length → 2208 ≤ (s.warp o).sptr.toNat →
    let sp := (s.warp o).sptr.toNat
    s.ladleRead o rs (sp - 32) 32 = .ok (hb, s1) → ofBytes hb = reserveHeader → s1.ladleRead o rs (sp - 2208) 2176 = .ok (bs, s2) →
    ∃ t, s.refillReserve q rs = .ok t ∧ (t.quarter q).owner = some o ∧ (t.quarter q).spilledOwners = rest ∧
      (t.warp o).sptr.toNat = sp - 2208 ∧ (t.quarter q).rs = (s2.quarter q |>.putReserve bs).rs ∧
      (t.quarter q).rv = (s2.quarter q |>.putReserve bs).rv) ∧
  (∀ (q : Quarter) (n : Nat), n < 16 →
    spGet 0 (q.putReserve q.reserveBytes).rs n = spGet 0 q.rs n ∧ spGet 0 (q.putReserve q.reserveBytes).rv n = spGet 0 q.rv n)

/-- R287, R295: a trap whose cause is not enabled, or that arises in handler code of its own cause, stops the warp with its
record; the warp's registers stay, and memory, scratch and the other warps with them. -/
def Obligations.OtherTrapsStopTheWarp : Prop := ∀ (s : State) (w e : Nat) (i : TrapInfo) (u : Strand),
  let x := s.warp w
  w < s.warps.length → x.runner e = some u →
  (x.trapv.getLsbD i.cause.num = false ∨ i.cause = .mchk ∨ ∃ h, x.handlerAt e = some h ∧ h.cause = i.cause.num) →
  let t := s.deliver w e i
  let y := t.warp w
  (∃ r, y.stopped = some r ∧ r.s1 = i.fpc.setWidth 64 ∧ r.s2 = i.rpc.setWidth 64 ∧ r.s3 = i.addr ∧ r.s5 = x.lclk) ∧
  y.stopEntry = e ∧ y.vregs = x.vregs ∧ y.sregs = x.sregs ∧ y.kregs = x.kregs ∧ y.lclk = x.lclk ∧ y.fst = x.fst ∧
  (∀ v, v ≠ w → t.warp v = s.warp v) ∧ t.mem = s.mem ∧ t.blocks = s.blocks

/-- R294: ERET from a handler with actions 0 to 2 resumes the trapped strand at rpc, past its chain, or at s[b], discards
the log but for action 0, leaves the handler and frees the reserve; 3 stops the warp and reports it as for a kill request,
which the model takes as a kill of the warp's launch (DEDUCED, log entry 28); each other use traps. -/
def Obligations.EretTakesItsAction : Prop := ∀ a b : BitVec 7,
  (∀ s h u act, ready (.eret a b) s = true → s.inHandler = true → s.cw.handlers = [h] →
    s.cw.strand h.entry = some u → (s.rdS a.toNat).toNat = act → act < 3 → (act = 2 → (s.rdS b.toNat).toNat % 4 = 0) →
    ∃ t v, exec (.eret a b) s = .next t ∧ t.cw.handlers = [] ∧ t.cw.strand h.entry = some v ∧
      v.pc = (if act = 0 then h.trec.s2.setWidth 57
        else if act = 1 then
          (if h.trec.s2.setWidth 57 = h.trec.s1.setWidth 57 then h.trec.after else h.trec.s2.setWidth 57)
        else (s.rdS b.toNat).setWidth 57) ∧
      v.mask = u.mask ∧ v.stack = u.stack ∧ (act ≠ 0 → v.log = [] ∧ v.fault = none) ∧
      (act = 0 → v.log = u.log ∧ (h.trec.s0.getLsbD 19 = true → v.fault = none)) ∧
      (t.quarter (s.quarterOf s.issue.warp)).owner = none ∧ t.mem = s.mem ∧ t.blocks = s.blocks ∧
      t.cw.vregs = s.cw.vregs ∧ t.cw.sregs = s.cw.sregs ∧ t.cw.kregs = s.cw.kregs ∧ t.cw.trapv = s.cw.trapv) ∧
  (∀ s h rest x, ready (.eret a b) s = true → s.inHandler = true → (s.rdS a.toNat).toNat = 3 → s.cw.handlers = h :: rest →
    (rest = [] → (s.cw.strand h.entry).isSome = true) →
    let l := (s.block s.cw.blk).launch
    let q := s.quarterOf s.issue.warp
    let u := (s.atInstr (.eret a b)).setQuarter q { s.quarter q with owner := none, rv := [], rs := [] }
    let v := u.putW { s.cw with handlers := rest }
    exec (.eret a b) s = .next ((v.reportTrap s.issue.warp h.trec).killLaunch l) ∧
    (s.launches[l]? = some x → x.phase = .running →
      ∃ t, exec (.eret a b) s = .next t ∧ Killed s t l ∧ Report.trap s.issue.warp h.trec ∈ t.sys.reports)) ∧
  TrapsWhen (.eret a b) (fun s => s.inHandler = false) (.prot, 11) ∧
  TrapsWhen (.eret a b) (fun s => s.inHandler = true ∧ 4 ≤ (s.rdS a.toNat).toNat) (.illop, 0) ∧
  TrapsWhen (.eret a b) (fun s => s.inHandler = true ∧ (s.rdS a.toNat).toNat = 2 ∧ (s.rdS b.toNat).toNat % 4 ≠ 0) (.align, 0)

/-- R41, R61, R81, R88, R94, R95: for every instruction word but a prefix, a prefix that its entry does not take raises
ILLOP, then the wrong role ROLE, then a register outside the frame REGNAME, each before the instruction's effect. -/
def Obligations.PrefixesRolesAndNamesAreChecked : Prop := ∀ i info s, i.info = some info →
  (∀ v, i ≠ .ximm v) → (∀ n m, i ≠ .ksel n m) → (∀ w, i ≠ .unusedOpcode w) → s.issueOk = true →
  (s.inHandler = true ∨ s.issue.replay.isSome = true ∨ s.cs.fault = none) → s.inMiss = false →
  let raises := fun (e : Err) => exec i s = .next ((s.atInstr i).raise (TrapInfo.of e))
  let prefixes := (s.issue.ks = none ∨ info.k = true) ∧ (s.issue.xs = [] ∨ info.x = true)
  (¬ prefixes → raises (.illop, 0)) ∧
  (prefixes → roleOk info.role s.cw.role = false → raises (.role, 0)) ∧
  (prefixes → roleOk info.role s.cw.role = true → s.namesOk info (encode i) = false → raises (.regname, 0))

/-! Memory instructions. -/

/-- R142 to R145, R148, R151, R161, R285, R292, R393: SLD reads its bytes at s[a] + simm, zero-extended into s[d]; where the
read moves no line and sets no a bit, nothing else changes. Where the address meets a condition of R143 it traps: ALIGN,
NONCANON, RANGE and INGOT precisely, a condition of the translation by way of the operand log; for every access, ALIGN,
NONCANON and RANGE follow from the address. A pointer of no space is NONCANON whatever its low bits; the address recorded for it,
and what is recorded for a scratch object with other bits set, are the model's (DEDUCED, log entry 40). -/
def Obligations.ScalarLoadsReadTheirBytes : Prop := AddressTraps ∧ ∀ d a imm : BitVec 7,
  let loads := fun (i : Instr) (w : Nat) =>
    ScalarAccessTraps i (fun s => s.locate true .read (objAddr (s.rdS a.toNat) (s.imm 7 imm.toNat)) w) ∧
    ∀ s x, ready i s = true →
    (s.atInstr i).locate true .read (objAddr (s.rdS a.toNat) (s.imm 7 imm.toNat)) w = .ok x →
    x.asked s.issue.resp 0 w (fun p pa => askRead p w pa) = .ok none →
    exec i s = .next (s.retired i (((s.atInstr i).loadLoc w x).2.wrS d.toNat (BitVec.ofNat 64 ((s.atInstr i).loadLoc w x).1))) ∧
    (∀ bs, (s.atInstr i).quietRead w x = some bs → ∃ t, exec i s = .next t ∧ t.regS d.toNat = BitVec.ofNat 64 (ofBytes bs) ∧
      t.cw.fst = s.cw.fst ∧ ScalarFrame s t (fun n => n = d.toNat))
  loads (.sldB d a imm) 1 ∧ loads (.sldH d a imm) 2 ∧ loads (.sldW d a imm) 4 ∧ loads (.sldD d a imm) 8

/-- R143, R144, R147, R148, R150, R285, R292, R393: SST stores the low bytes of s[d] at s[a] + simm: in scratch those bytes and no
other; on a non-cacheable page in memory, and on another in a line of L1 that awaits its write-back; there every byte of memory
that the access spares stays, as do registers and scratch. It traps as SLD does. -/
def Obligations.ScalarStoresStoreTheirBytes : Prop := ∀ d a imm : BitVec 7,
  let stores := fun (i : Instr) (w : Nat) =>
    ScalarAccessTraps i (fun s => s.locate true .write (objAddr (s.rdS a.toNat) (s.imm 7 imm.toNat)) w) ∧
    ∀ s x, ready i s = true →
    let bs := toBytes w (s.rdS d.toNat).toNat
    (s.atInstr i).locate true .write (objAddr (s.rdS a.toNat) (s.imm 7 imm.toNat)) w = .ok x →
    x.asked s.issue.resp 3 w (fun p pa => askWrite p pa bs) = .ok none →
    ∃ t, exec i s = .next t ∧ t = s.retired i ((s.atInstr i).storeLoc bs x) ∧
      (∀ b off, x = .scr b off → b < s.blocks.length →
        (∀ c n, t.scrByte c n = if c = b ∧ off ≤ n ∧ n < off + w
          then BitVec.ofNat 8 ((s.rdS d.toNat).toNat / 2 ^ (8 * (n - off))) else s.scrByte c n) ∧ t.mem = s.mem) ∧
      (∀ p tr, x = .glob p tr → (∀ q, (s.atInstr i).spares false x w q → t.memByte q = s.memByte q) ∧
        (∀ c n, t.scrByte c n = s.scrByte c n) ∧
        (leafKind tr.leaf < 2 → field p 0 57 % 128 + w ≤ 128 → tr.pa % 128 + w ≤ 128 → t.holds s.who p tr bs)) ∧
      (∀ n, t.regS n = s.regS n) ∧ (∀ n, t.regV n = s.regV n) ∧ (∀ n, t.regK n = s.regK n) ∧ t.cw.fst = s.cw.fst ∧
      SameControl s.cw t.cw ∧ (∀ v, v ≠ s.issue.warp → t.warp v = s.warp v)
  stores (.sstB d a imm) 1 ∧ stores (.sstH d a imm) 2 ∧ stores (.sstW d a imm) 4 ∧ stores (.sstD d a imm) 8

/-- R143, R145, R148, R149, R151, R159, R161, R285, R292, R400, R401: VLD, VLDS and VLDI read each active lane's bytes,
zero-extended, into vd or its pair; where no lane's read moves a line or sets an a bit, nothing else changes. Else the lanes
that fill lines or set a bits read in ascending order, and a helper lane whose access would trap takes 0. A walk sets the a bit
before the bytes are read, and a line that no core of the cluster has is read from memory under its key. Where active lanes meet
conditions of R143, the earliest order traps, with its lowest lane; that the lanes which have passed their orders then set their
a bits is the model's inference (DEDUCED, log entry 36). -/
def Obligations.VectorLoadsReadActiveLanes : Prop :=
  (∀ (s : State) (p : Nat) (tr : Trans) (n : Nat),
    s.loadLoc n (.glob p tr) =
      (s.touch s.who (field p 0 57) tr false).loadLoc n (.glob p { tr with entry := none, ptrs := [] })) ∧
  (∀ (s : State) (p : Nat) (tr : Trans) (n : Nat), tr.entry = none → leafKind tr.leaf < 2 → leafNc tr.leaf = false →
    s.l1Find s.who (field p 0 57) = none → s.lineClean s.who.core (tr.pa / 128) → tr.pa % 128 = field p 0 57 % 128 →
    tr.pa % 128 + n ≤ 128 →
    (s.loadLoc n (.glob p tr)).1 = ofBytes (s.physReadKey (leafKey tr.leaf) tr.pa n)) ∧
  ∀ d a b : BitVec 7,
  let loads := fun (i : Instr) (w : Nat) (at_ : State → Nat → Addr) =>
    LaneAccessTraps i false (fun _ => True) (fun s l => s.locate true .read (at_ s l) w) ∧
    (∀ s (loc : Nat → Loc) (served : Nat → Bool), ready i s = true →
      let u := s.atInstr i
      let had := fun (x : Loc) => x.asked s.issue.resp 0 w (fun p pa => askRead p w pa)
      let help := lanesOf (s.active &&& s.cw.helpers)
      u.splitEntry = none →
      (∀ l ∈ lanesOf s.activeReal, u.locate true .read (at_ s l) w = .ok (loc l) ∧ had (loc l) = .ok none) →
      (∀ l ∈ help, if served l then u.locate true .read (at_ s l) w = .ok (loc l) ∧ had (loc l) = .ok none
        else (∃ e, u.locate true .read (at_ s l) w = .error e) ∨
          ∃ x e, u.locate true .read (at_ s l) w = .ok x ∧ had x = .error e) →
      let r := u.loadLanes w ((lanesOf s.activeReal ++ help.filter served).map (fun l => (l, loc l)))
      ∃ t, exec i s = .next t ∧ t.mem = r.2.mem ∧ t.cores = r.2.cores ∧ t.clusters = r.2.clusters ∧
        (∀ l ∈ lanesOf s.active, let v := if s.cw.helpers.getLsbD l && !served l then 0 else (alGet r.1 l).getD 0
          if w = 8 then pairOf (t.regV d.toNat) (t.regV (d.toNat + 1)) l = BitVec.ofNat 64 v
          else laneOf (t.regV d.toNat) l = BitVec.ofNat 32 v) ∧
        RegisterFrame s t (fun _ => False) (fun n => n = d.toNat ∨ (w = 8 ∧ n = d.toNat + 1))) ∧ ∀ s, ready i s = true →
    (∀ l, l < 32 → s.active.getLsbD l = true → ∃ x bs, (s.atInstr i).locate true .read (at_ s l) w = .ok x ∧
      (s.atInstr i).quietRead w x = some bs) →
    ∃ t, exec i s = .next t ∧
      (∀ l x bs, l < 32 → s.active.getLsbD l = true → (s.atInstr i).locate true .read (at_ s l) w = .ok x →
        (s.atInstr i).quietRead w x = some bs →
        if w = 8 then pairOf (t.regV d.toNat) (t.regV (d.toNat + 1)) l = BitVec.ofNat 64 (ofBytes bs)
        else laneOf (t.regV d.toNat) l = BitVec.ofNat 32 (ofBytes bs)) ∧
      t.cw.fst = s.cw.fst ∧ VectorFrame s t (fun n => n = d.toNat ∨ (w = 8 ∧ n = d.toNat + 1))
  let byImm := fun (w : Nat) (s : State) (l : Nat) => Addr.glob (add64 (s.rdS a.toNat) (s.imm 7 b.toNat + (w * l : Nat)))
  let byLane := fun (s : State) (l : Nat) => Addr.glob (add64 (s.rdS a.toNat) ((s.lane b.toNat l).toNat : Int))
  let inScratch := fun (s : State) (l : Nat) => Addr.scr (((s.rdS a.toNat).setWidth 32 + s.lane b.toNat l).toNat)
  let inIngot := fun (s : State) (l : Nat) => Addr.ing (((s.rdS a.toNat).setWidth 32 + s.lane b.toNat l).toNat)
  loads (.vldBImm d a b) 1 (byImm 1) ∧ loads (.vldHImm d a b) 2 (byImm 2) ∧ loads (.vldWImm d a b) 4 (byImm 4) ∧
  loads (.vldDImm d a b) 8 (byImm 8) ∧
  loads (.vldBIdx d a b) 1 byLane ∧ loads (.vldHIdx d a b) 2 byLane ∧ loads (.vldWIdx d a b) 4 byLane ∧
  loads (.vldDIdx d a b) 8 byLane ∧
  loads (.vldsW d a b) 4 inScratch ∧ loads (.vldsD d a b) 8 inScratch ∧ loads (.vldi d a b) 4 inIngot

/-- R143, R170, R285, R292, R400, R401: VST and VSTS store each active real lane's bytes in ascending lane order: in scratch a
byte takes the last lane that covers it, elsewhere it stands in memory or in a line of L1 after its lane's store; every byte of
scratch that no lane covers and of memory in a line that no lane's access reaches stays, as do the registers. They trap as the
loads do; that the lanes which have passed their orders then set their a and d bits is the model's inference (DEDUCED, log
entry 36). -/
def Obligations.VectorStoresStoreActiveLanes : Prop := ∀ d a b : BitVec 7,
  let stores := fun (i : Instr) (w : Nat) (at_ : State → Nat → Addr) =>
    LaneAccessTraps i true (fun _ => True) (fun s l => s.locate true .write (at_ s l) w) ∧
    ∀ s (loc : Nat → Loc), ready i s = true →
    let on := fun (l : Nat) => l < 32 ∧ s.activeReal.getLsbD l = true
    let val := fun (l : Nat) => if w = 8 then (s.lane64 d.toNat l).toNat else (s.lane d.toNat l).toNat
    (∀ l, on l → (s.atInstr i).locate true .write (at_ s l) w = .ok (loc l) ∧
      (loc l).asked s.issue.resp 3 (w + 256 * (l + 1))
        (fun p pa => { askWrite p pa (toBytes w (val l)) with n := w + 256 * (l + 1) }) = .ok none) →
    ∃ t, exec i s = .next t ∧
      t = s.retired i ((lanesOf s.activeReal).foldl (fun u l => u.storeLoc (toBytes w (val l)) (loc l)) (s.atInstr i)) ∧
      ((∀ l, on l → ∃ c off, loc l = .scr c off ∧ c < s.blocks.length) →
        t.mem = s.mem ∧ (∀ c n, (∀ l off, on l → loc l = .scr c off → ¬ (off ≤ n ∧ n < off + w)) →
          t.scrByte c n = s.scrByte c n) ∧
        (∀ l c off k, on l → loc l = .scr c off → k < w →
          (∀ m o, on m → l < m → loc m = .scr c o → ¬ (o ≤ off + k ∧ off + k < o + w)) →
          t.scrByte c (off + k) = BitVec.ofNat 8 (val l / 2 ^ (8 * k)))) ∧
      (∀ q, (∀ l, on l → (s.atInstr i).spares false (loc l) w q ∧
          ∀ p tr, loc l = .glob p tr → leafKind tr.leaf ≠ 2 → tr.pa / 128 ≠ q / 128) → t.memByte q = s.memByte q) ∧
      (∀ l p tr, on l → loc l = .glob p tr → leafKind tr.leaf < 2 → field p 0 57 % 128 + w ≤ 128 → tr.pa % 128 + w ≤ 128 →
        (((lanesOf s.activeReal).filter (fun m => m ≤ l)).foldl (fun u m => u.storeLoc (toBytes w (val m)) (loc m))
          (s.atInstr i)).holds s.who p tr (toBytes w (val l)) ∧
        ((∀ m, on m → m ≤ l) → t.holds s.who p tr (toBytes w (val l)))) ∧
      (∀ n, t.regS n = s.regS n) ∧ (∀ n, t.regV n = s.regV n) ∧ (∀ n, t.regK n = s.regK n) ∧ t.cw.fst = s.cw.fst ∧
      SameControl s.cw t.cw ∧ (∀ v, v ≠ s.issue.warp → t.warp v = s.warp v)
  let byImm := fun (w : Nat) (s : State) (l : Nat) => Addr.glob (add64 (s.rdS a.toNat) (s.imm 7 b.toNat + (w * l : Nat)))
  let byLane := fun (s : State) (l : Nat) => Addr.glob (add64 (s.rdS a.toNat) ((s.lane b.toNat l).toNat : Int))
  let inScratch := fun (s : State) (l : Nat) => Addr.scr (((s.rdS a.toNat).setWidth 32 + s.lane b.toNat l).toNat)
  stores (.vstBImm d a b) 1 (byImm 1) ∧ stores (.vstHImm d a b) 2 (byImm 2) ∧ stores (.vstWImm d a b) 4 (byImm 4) ∧
  stores (.vstDImm d a b) 8 (byImm 8) ∧
  stores (.vstBIdx d a b) 1 byLane ∧ stores (.vstHIdx d a b) 2 byLane ∧ stores (.vstWIdx d a b) 4 byLane ∧
  stores (.vstDIdx d a b) 8 byLane ∧ stores (.vstsW d a b) 4 inScratch ∧ stores (.vstsD d a b) 8 inScratch

/-! Atomics and fences. -/

/-- R143, R170, R340, R341, R343, R309: each active real lane of an atomic reads its cell's old value, combines it with its
operands and stores the result, in ascending lane order; every lane takes the old value it read. Cells of host
memory have been answered and in deterministic mode the lane is next (R310). In deterministic mode an ATOM on global
memory traps with DETATOM, and one that some lane makes on another rank's scratch through the gang window, and so do TINS, TACT
and RRED; else the lanes' addresses trap as a store's do. That ATOM.cas leaves v[d + 1] as it was is the model's reading where
R340 and R341 differ (DEDUCED, log entry 26); that the lanes which have passed their orders set their a and d bits although
another lane traps is its inference (DEDUCED, log entry 36). -/
def Obligations.AtomicsUpdateEachLane : Prop :=
  (∀ d a b : BitVec 7,
  let atom := fun (i : Instr) (n : Nat) (det : Bool) (f : State → Nat → Nat → Nat × Nat) =>
    LaneAccessTraps i true (fun s => det = false ∨ s.cw.det = false)
      (fun s l => s.locate false .write (objAddr (s.rdS a.toNat) ((s.lane b.toNat l).toNat : Int)) n) ∧ ∀ s (loc : Nat → Loc),
    let u := s.atInstr i
    let on := fun (l : Nat) => l < 32 ∧ s.activeReal.getLsbD l = true
    let at_ := fun (l : Nat) => objAddr (s.rdS a.toNat) ((s.lane b.toNat l).toNat : Int)
    ready i s = true →
    (∀ l, on l → u.locate false .write (at_ l) n = .ok (loc l) ∧
      (∀ p t, loc l = .glob p t → leafKind t.leaf = 2 → ∃ v, hostAns s.issue.resp 1 p (n + 256 * (l + 1)) = some (.ok v))) →
    (det = true → s.cw.det = true → fieldOf (s.rdS a.toNat) 57 3 = 1 ∧ u.atomNext = true ∧ ∀ l, on l → u.otherRank (at_ l) = false) →
    let r := u.updateLanes n (f s) ((lanesOf s.activeReal).map (fun l => (l, loc l)))
    ∃ t, exec i s = .next t ∧ t.mem = r.2.mem ∧ t.blocks = r.2.blocks ∧
      (∀ l v, on l → alGet r.1 l = some v → laneOf (t.regV d.toNat) l = BitVec.ofNat 32 v ∧
        (n = 8 → laneOf (t.regV (d.toNat + 1)) l = BitVec.ofNat 32 (v / 2 ^ 32))) ∧
      (∀ l c off, on l → (∀ m, on m → m = l) → loc l = .scr c off → c < s.blocks.length →
        let old := ofBytes (u.scratchRead c off n)
        laneOf (t.regV d.toNat) l = BitVec.ofNat 32 (f s l old).2 ∧
        ∀ k, k < n → t.scrByte c (off + k) = BitVec.ofNat 8 ((f s l old).1 / 2 ^ (8 * k))) ∧
      (∀ c k, (∀ l off, on l → loc l = .scr c off → ¬ (off ≤ k ∧ k < off + n)) → t.scrByte c k = s.scrByte c k) ∧
      (∀ q, (∀ l, on l → u.spares true (loc l) n q ∧ ∀ p t, loc l = .glob p t → leafKind t.leaf ≠ 2 → t.pa / 128 ≠ q / 128) →
        t.memByte q = s.memByte q) ∧
      RegisterFrame s t (fun _ => False) (fun j => j = d.toNat ∨ (n = 8 ∧ j = d.toNat + 1))
  let word := fun (i : Instr) (g : Word → Word → Word → Word) => atom i 4 true (fun s l old =>
    ((g (BitVec.ofNat 32 old) (s.lane d.toNat l) (s.lane (d.toNat + 1) l)).toNat, old))
  word (.atomAdd d a b) (fun o x _ => o + x) ∧ word (.atomMinS d a b) (fun o x _ => if x.slt o then x else o) ∧
  word (.atomMaxS d a b) (fun o x _ => if o.slt x then x else o) ∧ word (.atomMinU d a b) (fun o x _ => if x < o then x else o) ∧
  word (.atomMaxU d a b) (fun o x _ => if o < x then x else o) ∧ word (.atomAnd d a b) (fun o x _ => o &&& x) ∧
  word (.atomOr d a b) (fun o x _ => o ||| x) ∧ word (.atomExch d a b) (fun _ x _ => x) ∧
  word (.atomCas d a b) (fun o x y => if o = x then y else o) ∧
  atom (.atomMaxi d a b) 8 true (fun s l old =>
    let x := (s.lane d.toNat l).toNat
    let i := (s.lane (d.toNat + 1) l).toNat
    (if beats fp32 x i (old % 2 ^ 32) (old / 2 ^ 32) then x + i * 2 ^ 32 else old, old)) ∧
  atom (.atomq d a b) 32 false (fun s l old => cellAdd old (s.lane d.toNat l).toNat)) ∧
  (∀ d a b : BitVec 7,
  (∀ i, i ∈ [Instr.atomAdd d a b, .atomMinS d a b, .atomMaxS d a b, .atomMinU d a b, .atomMaxU d a b, .atomAnd d a b,
    .atomOr d a b, .atomExch d a b, .atomCas d a b, .atomMaxi d a b] →
    TrapsWhen i (fun s => s.cw.det = true ∧ fieldOf (s.rdS a.toNat) 57 3 = 0) (.detatom, 0) ∧
    TrapsWhen i (fun s => s.cw.det = true ∧ fieldOf (s.rdS a.toNat) 57 3 = 1 ∧ ∃ l, l < 32 ∧ s.activeReal.getLsbD l = true ∧
      s.otherRank (objAddr (s.rdS a.toNat) ((s.lane b.toNat l).toNat : Int)) = true) (.detatom, 0)) ∧
  (∀ i, i ∈ [Instr.tins d a b, .tactSet d a b, .tactClr d a b, .rred d a b] → TrapsWhen i (fun s => s.cw.det = true) (.detatom, 0)))

/-- R174, R176, R187, R188: a fence of warp, block or gang scope only goes on; one of die scope or wider also writes the
dirty lines back and drops every line of the L1s of its cluster (all 8 of them, log entry 68). TFENCE drops the translations
of its address-space ID that meet its range from the clusters of its scope; it completes where no access of its context is
under way there, emptying the same L1s, and waits for those that are, aborting none (DESIGN CHOICE, log entry 69); a start or
length that is no multiple of 4,096 traps with ALIGN, a start outside the global space with NONCANON. No register is written, and no byte of memory but those written back. -/
def Obligations.FencesReleaseAcquireAndDropTranslations : Prop :=
  ((∀ i, i ∈ [Instr.fenceWarp, .fenceBlock, .fenceGang] → GoesTo i State.seqPc) ∧
  (∀ i, i ∈ [Instr.fenceDie, .fenceDevice, .fenceSystem] → ∀ s, ready i s = true →
    let c := s.coreOfWarp s.issue.warp
    ∃ t, exec i s = .next t ∧ t = s.retired i (((s.atInstr i).releaseL1 c).acquireL1 c) ∧
      (∀ k ∈ coresOf (clusterOf c), (t.core k).l1 = []) ∧ (∀ q, s.lineClean c (q / 128) → t.memByte q = s.memByte q) ∧
      t.cs.pc = s.seqPc ∧ RegistersKept s t ∧ t.blocks = s.blocks ∧ t.dies = s.dies ∧ t.launches = s.launches)) ∧
  (∀ a b : BitVec 7,
  let fence := fun (i : Instr) (p : Scope) => ∀ s, ready i s = true →
    let start := s.rdS a.toNat
    let len := (s.rdS b.toNat).toNat
    let c := s.coreOfWarp s.issue.warp
    let lo := if len = 0 then 0 else fieldOf start 0 57
    let hi := if len = 0 then 2 ^ 57 else min (fieldOf start 0 57 + len) (2 ^ 57)
    (fieldOf start 0 12 ≠ 0 ∨ len % 4096 ≠ 0 →
      exec i s = .next ((s.atInstr i).raise (TrapInfo.atAddr eAlign start.toNat))) ∧
    (fieldOf start 0 12 = 0 → len % 4096 = 0 → fieldOf start 57 3 ≠ 0 →
      exec i s = .next ((s.atInstr i).raise (TrapInfo.atAddr eNoncanon start.toNat))) ∧
    let awaited := (s.atInstr i).accessesOf s.who.asid (p.clusters c) (p = .system)
    let dropped := fun (t : State) =>
      (∀ k e, p.clusters c k = true → e ∈ (t.cluster k).tlb → e.asid = s.who.asid → ¬ (e.base < hi ∧ lo < e.base + 2 ^ e.size)) ∧
      (∀ q, (∀ k l, l ∈ (s.core k).l1 → l.pline = q / 128 → l.dirty = 0) → t.memByte q = s.memByte q) ∧
      t.blocks = s.blocks ∧ t.launches = s.launches
    (fieldOf start 0 12 = 0 → len % 4096 = 0 → fieldOf start 57 3 = 0 → s.cs.wait = none →
      (awaited = [] → ∃ t, exec i s = .next t ∧ dropped t ∧ (∀ k ∈ coresOf (clusterOf c), (t.core k).l1 = []) ∧ RegistersKept s t) ∧
      (awaited ≠ [] → ∃ t v, exec i s = .next t ∧ dropped t ∧ t.cs.st = .stalled ∧ t.cs.pc = s.cs.pc ∧ t.cs.wait = some v ∧
        v.kind = .tfence ∧ v.reqs = awaited ∧ (∀ n, t.regS n = s.regS n) ∧ ∀ n, t.regV n = s.regV n))
  fence (.tfenceDie a b) .die ∧ fence (.tfenceDevice a b) .device ∧ fence (.tfenceSystem a b) .system)

/-- R183, R379, R380: PREF writes no register, stores nothing of its own, so that memory keeps every byte of a line that awaits
no write-back, and sets no a or d bit; QFENCE goes on where its warp has no operation outstanding in the queues it names, waits
where it has one, and raises ILLOP where it names none or a reserved bit of it is set. A stopped operation that cannot complete
before its fault is delivered is outstanding no less than any other; that a QFENCE which waits takes that fault is the model's
inference (DEDUCED, log entry 41). -/
def Obligations.PrefetchesAndQueueFences : Prop := ∀ (d a imm : BitVec 7) (q : BitVec 14),
  (∀ s, ready (.pref d a imm) s = true → ∃ t, exec (.pref d a imm) s = .next t ∧ t.cs.pc = s.seqPc ∧ RegistersKept s t ∧
    t.blocks = s.blocks ∧ t.dies = s.dies ∧ t.launches = s.launches ∧ t.clusters = s.clusters ∧ t.tags = s.tags ∧
    ∀ q, s.lineClean s.who.core (q / 128) → t.memByte q = s.memByte q) ∧
  (∀ (w : Word) s, opOf w = 0x1A9 → (fieldOf (bits w 0 14) 6 8 ≠ 0 ∨ fieldOf (bits w 0 14) 0 6 = 0) → s.issueOk = true →
    s.inMiss = false → (s.inHandler = true ∨ (s.atChain ∧ s.cs.fault = none)) → runWord w s = .next (s.illopAt w)) ∧
  (∀ s, ready (.qfence q) s = true → s.cs.wait = none → fieldOf q 6 8 = 0 → fieldOf q 0 6 ≠ 0 →
    ((s.atInstr (.qfence q)).outstanding s.issue.warp (fieldOf q 0 6) s.seq = false →
      ∃ t, exec (.qfence q) s = .next t ∧ t.cs.pc = s.seqPc ∧ ScalarFrame s t (fun _ => False)) ∧
    (s.atChain → (s.atInstr (.qfence q)).outstanding s.issue.warp (fieldOf q 0 6) s.seq = true → ∃ t, exec (.qfence q) s = .next t ∧
      t.cs.st = .stalled ∧ t.cs.pc = s.cs.pc ∧ RegistersKept s t ∧ t.mem = s.mem ∧ t.cores = s.cores))

/-! Engines. -/

/-- R214, R349, R351, R352, R355, R386: COPY, COPYM, COLL, RST and RRED, once their checks pass, append one operation with
their operands to the queue that they name. -/
def Obligations.CopiesEnterTheirQueue : Prop := ∀ d a b : BitVec 7,
  let w := fun (s : State) (k : Nat) => s.rdS (a.toNat + k)
  (∀ x ∈ [(Instr.copyG2s a, 0), (.copyS2g a, 1), (.copyG2g a, 2), (.copyIngot a, 3), (.copyHalo a, 4)],
    Enqueues x.1 (fun s => s.copyCheck x.2 (w s 0) (w s 1) (w s 2) (w s 3) = none) (fun s => cQ (w s 2))
      (fun s => s.newOp (.copy x.2 (w s 0) (w s 1) (cOpt (w s 2))) (cLen (w s 2)) (cHeld (w s 2)) (w s 3))) ∧
  (let off := fun (s : State) => (s.rdS b.toNat).toNat
    let block := fun (s : State) => commandBlock (s.scratchRead s.cw.blk (off s) 80)
    Enqueues (.copym a b) (fun s => cOpt (w s 2) = 0 ∧ cHeld (w s 2) = false ∧
        s.copyCheck 0 (w s 0) (w s 1) (w s 2) (w s 3) = none ∧ off s % 16 = 0 ∧ off s + 80 ≤ recScratch (s.recOf s.cw.blk) ∧
        0x203 ≤ (block s).1.toNat ∧ (block s).1.toNat ≤ 0x208 ∧ s.mmaCheck (block s).2 = none ∧
        s.rowsBusy (block s).2.rows = false)
      (fun s => cQ (w s 2)) (fun s => s.newOp (.copym (w s 0) (w s 1) (block s).2) (cLen (w s 2)) false 0)) ∧
  (∀ x ∈ [(Instr.collRed a, false), (.collGather a, true)],
    let tile := fun (s : State) => fieldOf (w s 0) 0 32
    let cnt := fun (s : State) => fieldOf (w s 1) 0 32
    Enqueues x.1 (fun s => fieldOf (w s 0) 34 30 = 0 ∧ 1 ≤ cnt s ∧ cnt s ≤ 2 ^ 24 ∧ fieldOf (w s 1) 32 32 ≠ 0 ∧
        tile s % 128 = 0 ∧ fieldOf (w s 2) 0 4 = 0 ∧ fieldOf (w s 3) 0 6 = 0 ∧
        tile s + 4 * cnt s ≤ recScratch (s.recOf s.cw.blk))
      (fun s => fieldOf (w s 0) 32 2)
      (fun s => s.newOp (.coll x.2 (tile s) (cnt s) (fieldOf (w s 1) 32 32) (w s 2) (w s 3)) (4 * cnt s) false 0)) ∧
  (∀ x ∈ [(Instr.rst d a b, false), (.rred d a b, true)], ∀ p ls,
    let f := fun (s : State) => s.rdS (b.toNat + 1)
    let op := fun (s : State) => fieldOf (f s) 24 3
    Enqueues x.1 (fun s => s.remoteCheck x.2 4 d a b = .ok (p, ls) ∧ (x.2 = true → s.cw.det = false)) (fun s => fieldOf (f s) 27 2)
      (fun s => s.newOp (.rem x.2 (op s) (BitVec.ofNat 16 (fieldOf (f s) 0 16)) (BitVec.ofNat 2 (fieldOf (f s) 16 2))
        (BitVec.ofNat 6 (fieldOf (f s) 18 6)) ((f s).getLsbD 29) (fieldOf (f s) 27 2)
        (ls.map (fun l => ⟨l.1, BitVec.ofNat 64 l.2,
          if op s = 6 then s.lane64 d.toNat l.1 else (s.lane d.toNat l.1).setWidth 64, none, false⟩))) 0 false 0))

/-- R195, R201, R206, R207, R208, R210, R215, R374: MZERO, MMA, MMAX, MSCA and MSTA, once their checks pass, their rows
are free and a permit that they need is held, append one operation to the matrix queue that their descriptor names.
One of a bad shape takes SHAPE, else one outside its warp's window ACCWIN. -/
def Obligations.MatrixOperationsEnterTheirQueue : Prop :=
  (∀ d a b : BitVec 7,
  let enters := fun (i : Instr) (pre : State → Prop) (m : State → MatOp) =>
    Enqueues i (fun s => pre s ∧ s.rowsBusy (m s).rows = false) (fun s => 4 + dQ (m s).desc) (fun s => s.newOp (.mat (m s)) 0 false 0)
  enters (.mzero a) (fun s => let x := s.rdS a.toNat
    descOk x true false true false true 1 = true ∧ s.cw.inWindow (dRow0 x) (dNrows x) = true) (fun s => ⟨0x202, s.rdS a.toNat, [], []⟩) ∧
  (∀ x ∈ [(Instr.mmaBf16 d a b, 0x203), (.mmaF16 d a b, 0x204), (.mmaE4m3 d a b, 0x205), (.mmaE5m2 d a b, 0x206),
      (.mmaT8 d a b, 0x207), (.mmaT6 d a b, 0x208), (.mmaxE2m1 d a b, 0x209), (.mmaxE4m3 d a b, 0x20A), (.msca d a b, 0x20B)],
    let m := fun (s : State) => (⟨x.2, s.rdS d.toNat, s.rdRun a.toNat, s.rdRun b.toNat⟩ : MatOp)
    enters x.1 (fun s => s.mmaCheck (m s) = none ∧ ((m s).needsPermit = true → s.cs.permit = true)) m) ∧
  (∀ x ∈ [(Instr.mstaF32 a b, 0x20E), (.mstaBf16 a b, 0x20F)],
    let r := fun (s : State) => s.rdRun b.toNat
    let x0 := fun (s : State) => s.rdS a.toNat
    enters x.1 (fun s => recOk (r s) = true ∧ recSpace (r s) < 2 ∧ recSp (r s) = 0 ∧ recRows (r s) ≤ 512 ∧
        dCol0 (x0 s) + recCols (r s) ≤ 128 ∧ mstaLine x.2 (r s) ≤ recStride (r s) ∧
        descOk (x0 s) true true true false false 16 = true ∧ s.cw.inWindow (dRow0 (x0 s)) (recRows (r s)) = true ∧
        (recSpace (r s) = 0 → ∀ k, k < (if recT (r s) then recCols (r s) else recRows (r s)) →
          ∃ y, s.scratchLoc s.cw.blk (recBase (r s) + k * recStride (r s)) (mstaLine x.2 (r s)) = .ok y))
      (fun s => ⟨x.2, x0 s, [], r s⟩))) ∧
  (∀ d a b : BitVec 7,
  (∀ x ∈ [(Instr.mmaBf16 d a b, 0x203), (.mmaF16 d a b, 0x204), (.mmaE4m3 d a b, 0x205), (.mmaE5m2 d a b, 0x206),
      (.mmaT8 d a b, 0x207), (.mmaT6 d a b, 0x208), (.mmaxE2m1 d a b, 0x209), (.mmaxE4m3 d a b, 0x20A), (.msca d a b, 0x20B)],
    let m := fun (s : State) => (⟨x.2, s.rdS d.toNat, s.rdRun a.toNat, s.rdRun b.toNat⟩ : MatOp)
    TrapsAt x.1 (fun s => (m s).badShape = true) (.shape, 0) (fun _ => 0) ∧
    TrapsAt x.1 (fun s => (m s).badShape = false ∧ (m s).badWindow s.cw = true) (.accwin, 0) (fun _ => 0)) ∧
  TrapsWhen (.mzero a) (fun s => descOk (s.rdS a.toNat) true false true false true 1 = false) (.shape, 0) ∧
  TrapsWhen (.mzero a) (fun s => let x := s.rdS a.toNat
    descOk x true false true false true 1 = true ∧ s.cw.inWindow (dRow0 x) (dNrows x) = false) (.accwin, 0))

/-- R192, R194, R198, R209, R371: MSHP checks a base and geometry word and writes the record's first two registers with ok
set; MACC reads or writes 32 columns of one row of the block's accumulators, lane by lane; MWIN sets the row window of the
warps it names. -/
def Obligations.ShapesAccumulatorsAndWindows : Prop := ∀ d a b : BitVec 7,
  (∀ s, ready (.mshp d a b) s = true → shapeCheck (s.rdS a.toNat) (s.rdS b.toNat) = none →
    ∃ t, exec (.mshp d a b) s = .next t ∧ t.regS d.toNat = s.rdS a.toNat ∧
      t.regS (d.toNat + 1) = s.rdS b.toNat ||| 0x80 ∧ t.cw.fst = s.cw.fst ∧
      ScalarFrame s t (fun n => n = d.toNat ∨ n = d.toNat + 1)) ∧
  (∀ s e p, ready (.mshp d a b) s = true → shapeCheck (s.rdS a.toNat) (s.rdS b.toNat) = some (e, p) →
    exec (.mshp d a b) s = .next ((s.atInstr (.mshp d a b)).raise (TrapInfo.atAddr e p))) ∧
  (let free := fun (s : State) => let x := s.rdS a.toNat
      descOk x true true false false false 32 = true ∧ s.cw.inWindow (dRow0 x) 1 = true ∧ s.rowsBusy [(dRow0 x, 1)] = false
    let cell := fun (s : State) (l : Nat) => (dRow0 (s.rdS a.toNat), dCol0 (s.rdS a.toNat) + l)
    (∀ s, ready (.maccRd d a) s = true → free s → ∃ t, exec (.maccRd d a) s = .next t ∧
      (∀ l, l < 32 → s.active.getLsbD l = true →
        laneOf (t.regV d.toNat) l = (s.block s.cw.blk).accGet (cell s l).1 (cell s l).2) ∧
      t.cw.fst = s.cw.fst ∧ VectorFrame s t (fun n => n = d.toNat)) ∧
    (∀ s, ready (.maccWr a b) s = true → free s → s.cw.blk < s.blocks.length → ∃ t, exec (.maccWr a b) s = .next t ∧
      (∀ l, l < 32 → s.activeReal.getLsbD l = true →
        (t.block s.cw.blk).accGet (cell s l).1 (cell s l).2 = s.lane b.toNat l) ∧
      (∀ c row col, (c ≠ s.cw.blk ∨ ∀ l, l < 32 → s.activeReal.getLsbD l = true → row * 128 + col ≠ (cell s l).1 * 128 + (cell s l).2) →
        (t.block c).accGet row col = (s.block c).accGet row col) ∧
      (∀ n, t.regS n = s.regS n) ∧ (∀ n, t.regV n = s.regV n) ∧ (∀ n, t.regK n = s.regK n) ∧ t.mem = s.mem ∧
      t.cw.fst = s.cw.fst ∧ SameControl s.cw t.cw)) ∧
  (∀ s, ready (.mwin a b) s = true →
    let w := s.rdS a.toNat
    let g := s.rdS b.toNat
    let blk := s.block s.cw.blk
    let ts := if w.getLsbD 5 then blk.warps else [nth blk.warps (fieldOf w 0 5) 0]
    s.cw.idx = 0 → fieldOf w 6 58 = 0 → fieldOf g 9 7 = 0 → fieldOf g 26 38 = 0 →
    (w.getLsbD 5 = true ∨ fieldOf w 0 5 < blk.warps.length) →
    fieldOf g 0 9 + fieldOf g 16 10 ≤ recAccRows (s.recOf s.cw.blk) →
    (∀ v ∈ ts, ∀ o ∈ s.opsOf v, ¬ ((∃ m, o.kind = .mat m) ∨ ∃ x y m, o.kind = .copym x y m)) →
    ∃ t, exec (.mwin a b) s = .next t ∧ (∀ v ∈ ts, v < s.warps.length →
      (t.warp v).accb = BitVec.ofNat 9 (fieldOf g 0 9) ∧ (t.warp v).accl = BitVec.ofNat 10 (fieldOf g 16 10)) ∧
      (∀ v, v ∉ ts → v ≠ s.issue.warp → t.warp v = s.warp v) ∧
      (∀ n, t.regS n = s.regS n) ∧ (∀ n, t.regV n = s.regV n) ∧ (∀ n, t.regK n = s.regK n) ∧ t.mem = s.mem ∧ t.blocks = s.blocks)

/-- R384, R385: RLD, its checks passed and every request of its active lanes answered, writes each lane's answer. -/
def Obligations.RemoteLoadsTakeTheirAnswers : Prop := ∀ (d a b : BitVec 7) s p ls (v : Nat → Nat),
  ready (.rld d a b) s = true →
  (s.atInstr (.rld d a b)).remoteCheck false 4 d a b = .ok (p, ls) →
  (∀ x ∈ ls, hostAns s.issue.resp 2 x.2 4 = some (.ok (v x.1))) →
  ∃ t, exec (.rld d a b) s = .next t ∧
    (∀ l, l < 32 → s.activeReal.getLsbD l = true → laneOf (t.regV d.toNat) l = BitVec.ofNat 32 (v l)) ∧
    t.cw.fst = s.cw.fst ∧ VectorFrame s t (fun n => n = d.toNat)

/-! Trees, textures and draws. -/

/-- R218, R219, R221, R225 to R228, R236: TLOOK, VLDN and TWALK, with their descriptor and every node they read valid and answered,
write what they find into the registers of every active lane. A walk goes down by the child bit and cptr of each level's slot, ends
in a tile or the background where the bit is 0, and checks the origin of the leaf that it reaches. TLOOK's status word holds idx,
kind, vbit and abit, its result the leaf pointer or the low bytes of the value; VLDN takes each point's value, of which it writes
one register, or a pair for 64-bit values; it stays whole where no strand entry is free for a split. TWALK answers code 7 for a ray
that is not finite, 6 where it hits nothing, else the cell. What a helper lane, which makes no reads, receives where its voxel lies
in the span is a free value of the model (DESIGN CHOICE, log entry 70). -/
def Obligations.VoxelReadsWriteEveryLane : Prop :=
  (∀ (s : State) (w : Who) (h : TreeHead) (u : Nat × Nat × Nat) (lv n : Nat),
    let i := slotOf (lv + 1) u
    let m := if lv = 0 then 512 else 4096
    let bit := fun (x : State) (p : Nat) (v : Bool) (y : State) => ∃ c, x.treeRead w (ptrAdd p (i / 8)) 1 = .ok (c, y) ∧
      (v = true ↔ c / 2 ^ (i % 8) % 2 = 1)
    lv < 3 →
    (∀ s1 s2 p, bit s n true s1 → s1.treeRead w (ptrAdd n (m / 2 + 8 * m + 8 * i)) 8 = .ok (p, s2) →
      s.descend w h u (lv + 1) n = if p % 128 = 0 then s2.descend w h u lv p else .error (.bad 600 eBadnode n s2)) ∧
    (∀ s1 s2 s3 v, bit s n false s1 → bit s1 (ptrAdd n (m / 8)) true s2 →
      s2.treeRead w (ptrAdd n (m / 2 + 8 * i)) 8 = .ok (v, s3) → s.descend w h u (lv + 1) n = .ok (⟨lv + 1, v, 0, voxIdx u⟩, s3)) ∧
    (∀ s1 s2, bit s n false s1 → bit s1 (ptrAdd n (m / 8)) false s2 →
      s.descend w h u (lv + 1) n = .ok (⟨4, h.bg, 0, voxIdx u⟩, s2))) ∧
  (∀ (s s1 s2 s3 : State) (w : Who) (h : TreeHead) (u : Nat × Nat × Nat) (n x y z : Nat), s.treeRead w n 4 = .ok (x, s1) →
    s.treeRead w (ptrAdd n 4) 4 = .ok (y, s2) → s.treeRead w (ptrAdd n 8) 4 = .ok (z, s3) →
    s.descend w h u 0 n = if (x, y, z) = (u.1 - u.1 % 8, u.2.1 - u.2.1 % 8, u.2.2 - u.2.2 % 8)
      then .ok (⟨0, 0, n, u.1 % 8 + 8 * (u.2.1 % 8) + 64 * (u.2.2 % 8)⟩, s1) else .error (.bad 600 eBadnode n s1)) ∧
  (∀ (s : State) (w : Who) (desc head : Nat), s.resolveVox w desc head none = .ok (⟨5, (treeHead head).bg, 0, 0⟩, s) ∧
    ∀ u v s1, s.leafCached w desc (leafOrigin u) = none →
      s.descend w (treeHead head) u 3 (treeHead head).root = .ok (v, s1) → ∃ s2, s.resolveVox w desc head (some u) = .ok (v, s2)) ∧
  ∀ d a b : BitVec 7,
  (∀ s xs s2, ready (.tlook d a b) s = true → tlookFind a b (s.atInstr (.tlook d a b)) = .ok (xs, s2) →
    ∃ t, exec (.tlook d a b) s = .next t ∧
      (∀ l, l < 32 → s.active.getLsbD l = true → let v := (alGet xs l).getD (0, 0)
        laneOf (t.regV d.toNat) l = BitVec.ofNat 32 v.1 ∧ laneOf (t.regV (d.toNat + 1)) l = BitVec.ofNat 32 v.2 ∧
        laneOf (t.regV (d.toNat + 2)) l = BitVec.ofNat 32 (v.2 / 2 ^ 32)) ∧
      RegisterFrame s t (fun _ => False) (fun j => ∃ k, k < 3 ∧ j = d.toNat + k)) ∧
  (∀ s xs s2, tlookFind a b s = .ok (xs, s2) →
    let desc := descOf (s.rdS b.toNat)
    let at_ := fun (h : TreeHead) l => treeCoord h (s.lane a.toNat l) (s.lane (a.toNat + 1) l) (s.lane (a.toNat + 2) l) 0 0 0
    ∃ head s0, s.treeOpen s.who desc 0 (fun h => (lanesOf s.activeReal).map (at_ h)) = .ok (head, s0) ∧
      let h := treeHead head
      (∀ l ∈ lanesOf s.activeReal, ∃ (s1 : State) (v : Vox) (s3 : State), s1.resolveVox s.who desc head (at_ h l) = .ok (v, s3) ∧
        (v.kind = 5 → alGet xs l = some (5 * 2 ^ 12, v.val % 2 ^ (8 * fmtBytes h.fmt))) ∧
        (v.kind ≠ 5 → v.kind ≠ 0 → alGet xs l = some (v.j + v.kind * 2 ^ 12, v.val % 2 ^ (8 * fmtBytes h.fmt))) ∧
        (v.kind = 0 → ∃ (vbit abit : Bool) (s4 s5 : State), s3.treeBit s.who (ptrAdd v.leaf 64) v.j = .ok (vbit, s4) ∧
          s4.treeBit s.who (ptrAdd v.leaf 128) v.j = .ok (abit, s5) ∧
          alGet xs l = some (v.j + (if vbit then 2 ^ 15 else 0) + (if abit then 2 ^ 16 else 0), v.leaf))) ∧
      ∀ l ∈ lanesOf (s.active &&& s.cw.helpers), alGet xs l = some (match at_ h l with
        | none => (5 * 2 ^ 12, h.bg % 2 ^ (8 * fmtBytes h.fmt))
        | some _ => (s.helperValue l 0, s.helperValue l 1))) ∧
  (∀ (s : State) (w : Who) (h : TreeHead) (v : Vox),
    (v.kind ≠ 0 → s.voxValue w h v = .ok (v.val, s)) ∧
    (∀ s1, v.kind = 0 → s.treeBit w (ptrAdd v.leaf 64) v.j = .ok (false, s1) → s.voxValue w h v = .ok (h.bg, s1)) ∧
    (∀ s1 x s2, v.kind = 0 → s.treeBit w (ptrAdd v.leaf 64) v.j = .ok (true, s1) →
      s1.treeRead w (ptrAdd v.leaf (256 + v.j * fmtBytes h.fmt)) (fmtBytes h.fmt) = .ok (x, s2) → s.voxValue w h v = .ok (x, s2))) ∧
  (∀ x ∈ [(fun (_ : DWord) => stencil.take 7, false, false), (fun _ => stencil.take 19, false, true), (fun _ => stencil, false, true),
      (fun x => lineStencil (fieldOf x 0 2), true, false)],
    ∀ s r n xs s3, vldnFind x.1 x.2.1 x.2.2 d a b s = .ok ((r, n, xs), s3) →
    let ps := x.1 (s.rdS b.toNat)
    let desc := descOf (s.rdS b.toNat)
    let at_ := fun (h : TreeHead) l (o : Int × Int × Int) =>
      treeCoord h (s.lane a.toNat l) (s.lane (a.toNat + 1) l) (s.lane (a.toNat + 2) l) o.1 o.2.1 o.2.2
    ∃ head, let h := treeHead head
      r = fmtRegs h.fmt ∧ n = fmtBytes h.fmt ∧ ∀ l ∈ lanesOf s.activeReal, ∃ vs, alGet xs l = some vs ∧ vs.length = ps.length ∧
        ∀ k, k < ps.length → ∃ s1 s2 s4 : State, s1.resolveVox s.who desc head (at_ h l (nth ps k (0, 0, 0))) =
            .ok ((nth vs k (0, ⟨0, 0, 0, 0⟩)).2, s2) ∧
          s2.voxValue s.who h (nth vs k (0, ⟨0, 0, 0, 0⟩)).2 = .ok ((nth vs k (0, ⟨0, 0, 0, 0⟩)).1, s4)) ∧
  (∀ x ∈ [(Instr.vldnS7 d a b, fun (_ : DWord) => stencil.take 7, false, false),
      (.vldnS19 d a b, fun _ => stencil.take 19, false, true), (.vldnB27 d a b, fun _ => stencil, false, true),
      (.vldnLine d a b, fun x => lineStencil (fieldOf x 0 2), true, false)],
    TrapsWhen x.1 (fun s => optBad (s.rdS b.toNat) x.2.2.1 = true) (.shape, 0) ∧
    ∀ s r n xs s3, ready x.1 s = true → s.splitEntry = none →
      vldnFind x.2.1 x.2.2.1 x.2.2.2 d a b (s.atInstr x.1) = .ok ((r, n, xs), s3) →
      let points := (x.2.1 (s.rdS b.toNat)).length
      let value := fun (k l : Nat) => (nth ((alGet xs l).getD []) k (0, ⟨0, 0, 0, 0⟩)).1 % 2 ^ (8 * n)
      ∃ t, exec x.1 s = .next t ∧
        (∀ k l, k < points → l < 32 → s.active.getLsbD l = true →
          if r = 1 then laneOf (t.regV (d.toNat + k)) l = BitVec.ofNat 32 (value k l)
          else pairOf (t.regV (d.toNat + 2 * k)) (t.regV (d.toNat + 2 * k + 1)) l = BitVec.ofNat 64 (value k l)) ∧
        RegisterFrame s t (fun _ => False) (fun j => ∃ k, k < points * r ∧ j = d.toNat + k)) ∧
  (∀ s xs s2, ready (.twalk d a b) s = true → twalkFind a b (s.atInstr (.twalk d a b)) = .ok (xs, s2) →
    ∃ t, exec (.twalk d a b) s = .next t ∧
      (∀ l, l < 32 → s.active.getLsbD l = true → let v := (alGet xs l).getD (0, 0, 0, 0)
        laneOf (t.regV d.toNat) l = BitVec.ofNat 32 v.1 ∧ laneOf (t.regV (d.toNat + 1)) l = BitVec.ofNat 32 v.2.1 ∧
        laneOf (t.regV (d.toNat + 2)) l = BitVec.ofNat 32 v.2.2.1 ∧ laneOf (t.regV (d.toNat + 3)) l = BitVec.ofNat 32 v.2.2.2 ∧
        laneOf (t.regV (d.toNat + 4)) l = BitVec.ofNat 32 (v.2.2.2 / 2 ^ 32)) ∧
      RegisterFrame s t (fun _ => False) (fun j => ∃ k, k < 5 ∧ j = d.toNat + k)) ∧
  (∀ s xs s2, twalkFind a b s = .ok (xs, s2) → ∃ head, ∀ l ∈ lanesOf s.activeReal,
    let h := treeHead head
    let v := fun i => (s.lane (a.toNat + i) l).toNat
    let finite := ∀ i, i < 8 → ∃ g m e, decodeF fp32 (v i) = .fin g m e
    (¬ finite → alGet xs l = some (canonNan fp32, canonNan fp32, 7, 0)) ∧
    (finite → ∃ (s1 : State) (c : Option Cell) (s3 : State), s1.walkNode s.who ⟨[v 0, v 1, v 2], [v 3, v 4, v 5], v 6, v 7⟩ h 3 h.root [0, 0, 0] none = .ok (c, s3) ∧
      alGet xs l = some (match c with
        | none => (v 7, v 7, 6, 0)
        | some c => (c.tin, c.tout, c.kind, c.p))))

/-- R222, R225, R226, R229 to R233, R321: VSTV stores each real lane's value in its leaf and sets its vmask bit, TACT sets or
clears each real lane's amask bit and answers the old one, TINS answers status and leaf. TINS goes down the levels as R231's
loop has it: a child is followed; a missing one is made under the slot's lock, in room taken from the pool, its cptr stored before
a release and its child bit; a lock that is held makes it wait, a pool used up ends it with status 2. Nodes in host memory it works
on access by access, and goes on from where it stands. The leaf pointer takes its tag from pbase. How far a TINS has come in host memory is kept in
a record of the model's own (DEDUCED, log entry 43). -/
def Obligations.VoxelWritesUpdateTheirLeaves : Prop :=
  (∀ (s s1 : State) (w : Who) (desc pbase pend lv n cnt : Nat) (h : TreeHead) (u : Nat × Nat × Nat),
    let i := slotOf (lv + 1) u
    let c := lvSlots (lv + 1)
    let bit := 2 ^ (i % 64)
    let lock := ptrAdd n (offLock c + 8 * (i / 64))
    let free := fun (x y : State) => ∃ v, x.treeAtomic w lock 0x19A (2 ^ 64 - 1 - bit) (fun v => v - (v &&& bit)) = .ok (v, y)
    let go := s.insertFrom w desc h pbase pend u (lv + 1) n cnt
    (∀ s2 p, s.treeBit w n i = .ok (true, s1) → s1.treeRead w (ptrAdd n (offCptr c i)) 8 = .ok (p, s2) → p % 128 = 0 →
      go = s2.insertFrom w desc h pbase pend u lv p cnt) ∧
    (∀ s2 old, s.treeBit w n i = .ok (false, s1) → s1.treeAtomic w lock 0x19B bit (fun x => x ||| bit) = .ok (old, s2) →
      (old / bit % 2 = 1 → go = .error .wait) ∧
      (old / bit % 2 = 0 → ∀ s3 room, let sz := nodeBytes lv h.fmt
        s2.treeAtomic w (ptrAdd desc 48) 0x195 sz (fun x => x + sz) = .ok (room, s3) →
        (∀ s4, pend < room + sz → free s3 s4 → go = .ok ((2, cnt, 0), s4)) ∧
        (∀ tile x t s4 s5 s6 s7 s8 o, room + sz ≤ pend →
          let p := nodePtr pbase room
          s3.treeBit w (ptrAdd n (offTile c)) i = .ok (tile, x) → s3.treeRead w (ptrAdd n (offTval c i)) 8 = .ok (t, s4) →
          s4.treeWrite w p (newNode lv h.fmt (slotCorner (lv + 1) u) (if tile then some t else none)) = .ok ((), s5) →
          s5.treeWrite w (ptrAdd n (offCptr c i)) (toBytes 8 p) = .ok ((), s6) →
          (if w.fab then s6 else s6.releaseL1 w.core).treeAtomic w (ptrAdd n (8 * (i / 64))) 0x19B bit (fun x => x ||| bit)
            = .ok (o, s7) → free s7 s8 → go = s8.insertFrom w desc h pbase pend u lv p (cnt + 1)))) ∧
    (∀ v, s.checkLeafNode w u n = .ok (v, s1) →
      s.insertFrom w desc h pbase pend u 0 n cnt = .ok ((if cnt = 0 then 0 else 1, cnt, n), s1))) ∧
  (∀ pbase room, pbase < 2 ^ 64 → nodePtr pbase room / 2 ^ 60 = pbase / 2 ^ 60 ∧ nodePtr pbase room % 2 ^ 60 = room % 2 ^ 60) ∧
  (∀ (s s1 : State) (w : Who) (desc : Nat) (u : Nat × Nat × Nat) (r : Insert) (v : Nat), r.lv ≠ 0 →
    let i := slotOf r.lv u
    let c := lvSlots r.lv
    let bit := 2 ^ (i % 64)
    let child := ptrAdd r.node (8 * (i / 64))
    let lock := ptrAdd r.node (offLock c + 8 * (i / 64))
    let sz := nodeBytes (r.lv - 1) (treeHead r.desc.toNat).fmt
    let seen := if v / bit % 2 = 1 ∧ w.fab = false then s1.acquireL1 w.core else s1
    let next := fun (q : Insert) (x : State) => s.insertStep w desc u r = .ok (q, x)
    let freed := s.insAtomic w lock 0x19A (2 ^ 64 - 1 - bit) (fun x => x - (x &&& bit)) = .ok (v, s1)
    (r.phase = 0 → s.insRead w child 8 = .ok (v, s1) → next { r with phase := if v / bit % 2 = 1 then 1 else 2 } seen) ∧
    (r.phase = 1 → s.insRead w (ptrAdd r.node (offCptr c i)) 8 = .ok (v, s1) → v % 128 = 0 →
      next { r with phase := 0, blocked := false, lv := r.lv - 1, node := v } s1) ∧
    (r.phase = 2 → s.insAtomic w lock 0x19B bit (fun x => x ||| bit) = .ok (v, s1) →
      next (if v / bit % 2 = 1 then { r with phase := 0, blocked := true } else { r with phase := 3, blocked := false }) s1) ∧
    (r.phase = 3 → s.insRead w child 8 = .ok (v, s1) →
      next { r with phase := if v / bit % 2 = 1 then 11 else 4, blocked := false } seen) ∧
    (r.phase = 4 → s.insAtomic w (ptrAdd desc 48) 0x195 sz (fun x => x + sz) = .ok (v, s1) →
      next (if field r.desc.toNat 320 64 < v + sz then { r with phase := 12, blocked := false }
        else { r with phase := 5, blocked := false, new := nodePtr (field r.desc.toNat 256 64) v }) s1) ∧
    (r.phase = 9 → s.insAtomic w child 0x19B bit (fun x => x ||| bit) = .ok (v, s1) →
      next { r with phase := 10, blocked := false } s1) ∧
    (r.phase = 10 → freed → next { r with phase := 0, blocked := false, lv := r.lv - 1, node := r.new, cnt := r.cnt + 1 } s1) ∧
    (r.phase = 11 → freed → next { r with phase := 1, blocked := false } s1) ∧
    (r.phase = 12 → freed → next (r.answer 2 0) s1) ∧
    (r.phase = 8 → s.insWrite w (ptrAdd r.node (offCptr c i)) (toBytes 8 r.new) = .ok ((), s1) →
      next { r with phase := 9, blocked := false } (if w.fab then s1 else s1.releaseL1 w.core))) ∧
  ∀ d a b : BitVec 7,
  (∀ i ∈ [Instr.tlook d a b, .vstv d a b, .twalk d a b], TrapsWhen i (fun s => optBad (s.rdS b.toNat) false = true) (.shape, 0)) ∧
  (∀ s xs s2, ready (.vstv d a b) s = true → vstvFind d a b (s.atInstr (.vstv d a b)) = .ok (xs, s2) →
    let u := xs.foldl (fun u x => ((u.storeLoc x.2.1 x.2.2.1).updateLanes 8
      (fun _ old => (old ||| 2 ^ (x.2.2.2.2 % 64), old)) [(x.1, x.2.2.2.1)]).2) s2
    ∃ t, exec (.vstv d a b) s = .next t ∧ t.mem = u.mem ∧ t.lineKeys = u.lineKeys ∧ t.cores = u.cores ∧ t.blocks = u.blocks ∧
      RegisterFrame s t (fun _ => False) (fun _ => False)) ∧
  (∀ x ∈ [(Instr.tactSet d a b, true), (.tactClr d a b, false)], ∀ s xs s2, ready x.1 s = true →
    tactFind x.2 a b (s.atInstr x.1) = .ok (xs, s2) →
    let r := s2.updateLanes 8 (tactUpdate x.2 xs) (xs.filterMap (fun y => y.2.2.2.map (fun z => (y.1, z))))
    ∃ t, exec x.1 s = .next t ∧ t.mem = r.2.mem ∧ t.lineKeys = r.2.lineKeys ∧ t.cores = r.2.cores ∧ t.blocks = r.2.blocks ∧
      (∀ l, l < 32 → s.active.getLsbD l = true → laneOf (t.regV d.toNat) l = match alGet xs l with
        | some (c, _, none) => BitVec.ofNat 32 c
        | some (_, j, some _) => BitVec.ofNat 32 ((alGet r.1 l).getD 0 / 2 ^ (j % 64) % 2)
        | none => 0) ∧
      RegisterFrame s t (fun _ => False) (fun j => j = d.toNat)) ∧
  (∀ s xs s2, ready (.tins d a b) s = true → s.issue.ins = none → tinsFind a b (s.atInstr (.tins d a b)) = .ok (xs, s2) →
    ∃ t, exec (.tins d a b) s = .next t ∧ t.mem = s2.mem ∧ t.lineKeys = s2.lineKeys ∧ t.cores = s2.cores ∧
      (∀ l, l < 32 → s.active.getLsbD l = true → let v := (alGet xs l).getD (0, 0, 0)
        laneOf (t.regV d.toNat) l = BitVec.ofNat 32 (v.1 + v.2.1 % 4 * 4) ∧
        laneOf (t.regV (d.toNat + 1)) l = BitVec.ofNat 32 v.2.2 ∧
        laneOf (t.regV (d.toNat + 2)) l = BitVec.ofNat 32 (v.2.2 / 2 ^ 32)) ∧
      RegisterFrame s t (fun _ => False) (fun j => ∃ k, k < 3 ∧ j = d.toNat + k)) ∧
  (∀ s xs s2, tinsFind a b s = .ok (xs, s2) → ∃ dd s0, tinsOpen b s = .ok (dd, s0) ∧ ∀ l ∈ lanesOf s.activeReal,
    let h := treeHead dd
    match treeCoord h (s.lane a.toNat l) (s.lane (a.toNat + 1) l) (s.lane (a.toNat + 2) l) 0 0 0 with
    | none => alGet xs l = some (3, 0, 0)
    | some u => ∃ (s1 : State) (st cnt p : Nat) (s3 : State),
      s1.insertFrom s.who (descOf (s.rdS b.toNat)) h (field dd 256 64) (field dd 320 64) u 3 h.root 0 = .ok ((st, cnt, p), s3) ∧
      alGet xs l = some (st, cnt, if st < 2 then nodePtr (field dd 256 64) p else 0)) ∧
  (∀ s r xs s2, ready (.tins d a b) s = true → s.issue.ins = some r →
    State.insertGo s.who (descOf (s.rdS b.toNat)) (s.tinsVox a (treeHead r.desc.toNat)) 2048 r (s.atInstr (.tins d a b))
      = .ok (xs, s2) →
    ∃ t, exec (.tins d a b) s = .next t ∧ t.mem = s2.mem ∧ t.lineKeys = s2.lineKeys ∧ t.cores = s2.cores ∧
      (∀ l, l < 32 → s.active.getLsbD l = true → let v := (alGet xs l).getD (0, 0, 0)
        laneOf (t.regV d.toNat) l = BitVec.ofNat 32 (v.1 + v.2.1 % 4 * 4) ∧
        laneOf (t.regV (d.toNat + 1)) l = BitVec.ofNat 32 v.2.2 ∧
        laneOf (t.regV (d.toNat + 2)) l = BitVec.ofNat 32 (v.2.2 / 2 ^ 32)) ∧
      RegisterFrame s t (fun _ => False) (fun j => ∃ k, k < 3 ∧ j = d.toNat + k))

/-- R248, R249, R251 to R254: TXB takes an aligned and valid weight table into the slot that its immediate names when its
cluster's weight cache has room, and waits for room else, with the table's bytes as it has read them (that these, and not the
address, are what it waits with is the model's inference, log entry 45); TXS writes the four values that it samples through a
slot, each lane's own, after its checks in the order of R252: the option bits, the slot, the descriptor's read and its form, the
lanes' reads, of which the earliest condition decides and its lowest lane is recorded. A coordinate that is not finite gives
canonical NaNs. That an entry is shared by the 57 address bits of its table is the model's inference too (DEDUCED, log entry 46). -/
def Obligations.TexturesBindAndSample : Prop := ∀ d a b imm : BitVec 7,
  (let slot := fieldOf imm 0 4
   let entry := fun (s : State) (v : Nat) =>
     (⟨s.who.asid, BitVec.ofNat 64 (fieldOf (s.rdS a.toNat) 0 57), BitVec.ofNat 9216 v, true⟩ : TexSlot)
   TrapsAt (.txb a imm) (fun s => fieldOf (s.rdS a.toNat) 0 7 ≠ 0) eAlign (fun s => (s.rdS a.toNat).toNat) ∧
   TrapsAt (.txb a imm) (fun s => fieldOf (s.rdS a.toNat) 0 7 = 0 ∧
     ∃ v u, s.tableLines (s.rdS a.toNat).toNat 9 0 = .ok (v, u) ∧ tableBad v = true) eBadtable (fun s => (s.rdS a.toNat).toNat) ∧
   ∀ s v u, ready (.txb a imm) s = true → fieldOf (s.rdS a.toNat) 0 7 = 0 →
     (s.atInstr (.txb a imm)).tableLines (s.rdS a.toNat).toNat 9 0 = .ok (v, u) → tableBad v = false →
     (u.weightRoom s.cw.blk slot (entry s v) = true → ∃ t, exec (.txb a imm) s = .next t ∧
       t.blocks = (u.setBlock s.cw.blk ((u.block s.cw.blk).setSlot slot (entry s v))).blocks ∧
       t.mem = u.mem ∧ RegistersKept s t) ∧
     (u.weightRoom s.cw.blk slot (entry s v) = false → s.atChain → exec (.txb a imm) s =
       .next (({ u with issue := { u.issue with resp := tableKept (s.rdS a.toNat).toNat v } } : State).setWait .weight 0 []))) ∧
  (∀ x ∈ [(Instr.txsL d a b, false), (.txsG d a b, true)], ∀ s xs s2, ready x.1 s = true →
    txsFind x.2 a b (s.atInstr x.1) = .ok (xs, s2) →
    ∃ t, exec x.1 s = .next t ∧
      (∀ k l, k < 4 → l < 32 → s.active.getLsbD l = true →
        laneOf (t.regV (d.toNat + k)) l = BitVec.ofNat 32 (nth ((alGet xs l).getD []) k 0)) ∧
      RegisterFrame s t (fun _ => False) (fun j => ∃ k, k < 4 ∧ j = d.toNat + k)) ∧
  (∀ x ∈ [(Instr.txsL d a b, false), (.txsG d a b, true)],
    let n := fun (s : State) => fieldOf (s.rdS b.toNat) 0 4
    let desc := fun (s : State) => (s.rdS b.toNat).toNat / 64 * 64
    let bound := fun (s : State) (k : TexSlot) => fieldOf (s.rdS b.toNat) 4 2 = 0 ∧ (s.block s.cw.blk).slot (n s) = some k ∧
      k.installed = true ∧ s.fetchBefore = false
    TrapsWhen x.1 (fun s => fieldOf (s.rdS b.toNat) 4 2 ≠ 0) eShape ∧
    TrapsWhen x.1 (fun s => fieldOf (s.rdS b.toNat) 4 2 = 0 ∧ (s.block s.cw.blk).slot (n s) = none) eBadtable ∧
    (∀ s k o e p u, ready x.1 s = true → bound (s.atInstr x.1) k →
      (s.atInstr x.1).lineRead8 0 (desc s) 64 = .error (.bad o e p u) → errRank e < 5 →
      exec x.1 s = .next ((s.atInstr x.1).raise (TrapInfo.atAddr e p))) ∧
    TrapsAt x.1 (fun s => ∃ k dv u, bound s k ∧ s.lineRead8 0 (desc s) 64 = .ok (dv, u) ∧ texBad dv = true) eBadtex desc ∧
    (∀ s xs s2, txsFind x.2 a b s = .ok (xs, s2) → ∃ k dv, (s.block s.cw.blk).slot (n s) = some k ∧ texBad dv = false ∧
      ∀ l ∈ lanesOf s.activeReal, ∃ (s1 : State) (v : List Nat) (s3 : State), s1.sampleLane x.2 (texDesc dv) k.table.toNat (s.lane a.toNat l)
        (s.lane (a.toNat + 1) l) = .ok (v, s3) ∧ alGet xs l = some v)) ∧
  (∀ (s : State) (t : TexDesc) (table : Nat) (u v : Word),
    (¬ (∃ g m e, decodeF fp32 u.toNat = .fin g m e) ∨ ¬ (∃ g m e, decodeF fp32 v.toNat = .fin g m e)) →
    s.sampleLane false t table u v = .ok (List.replicate 4 0x7FC00000, s)) ∧
  (∀ (s z : State) (k : WaitKind) (run : Nat) (bs : List (Nat × Nat × Err × Nat × State)), bs ≠ [] →
    bs.Pairwise (fun x y => x.1 < y.1) → (∀ x ∈ bs, x.2.1 ≤ 100000) →
    ∃ l o e p u i, (l, o, e, p, u) ∈ bs ∧ (∀ x ∈ bs, o ≤ x.2.1 ∧ (x.2.1 = o → l ≤ x.1)) ∧
      treeStop s z k run (bs.map (fun x => (x.1, .bad x.2.1 x.2.2.1 x.2.2.2.1 x.2.2.2.2))) = memStop z e i ∧
      i.cause = e.1 ∧ i.sub = e.2 ∧ i.lane = l ∧ i.addr = BitVec.ofNat 64 p)

/-- R259, R260, R264, R266, R267, R346, R370, R377: CULL writes each lane's cull code, VBRD each lane's visibility entry; PEXP
adds its primitives to the draw that its launch has open at that descriptor address, or opens one, and the engine bins them;
while the draw flushes, stands at a fault or has binning left it waits. OBLD goes on when every lane's counter has reached its
sequence, OBLE raises each counter after a release; KSRT and BINC append a job to their die. The bins that the engine rasterises
a triangle in which CULL would reject (DEDUCED, log entry 54) and that a draw keeps its first PEXP's descriptor (DESIGN CHOICE,
log entry 71) are the model's. -/
def Obligations.DrawsBlendsAndJobs : Prop := ∀ d a b : BitVec 7,
  (∀ s p dv u, ready (.cull d a b) s = true → (s.atInstr (.cull d a b)).drawOpen b false = .ok (p, dv, u) →
    ∃ t, exec (.cull d a b) s = .next t ∧
      (∀ l, l < 32 → s.active.getLsbD l = true → laneOf (t.regV d.toNat) l = BitVec.ofNat 32 (cullCode dv (s.triOf a l))) ∧
      RegisterFrame s t (fun _ => False) (fun j => j = d.toNat)) ∧
  (∀ s xs s2, ready (.vbrd d a b) s = true → vbrdFind a b (s.atInstr (.vbrd d a b)) = .ok (xs, s2) →
    ∃ t, exec (.vbrd d a b) s = .next t ∧
      (∀ k l, k < 3 → l < 32 → s.active.getLsbD l = true →
        laneOf (t.regV (d.toNat + k)) l = BitVec.ofNat 32 ((alGet xs l).getD 0 / 2 ^ (32 * k))) ∧
      RegisterFrame s t (fun _ => False) (fun j => ∃ k, k < 3 ∧ j = d.toNat + k)) ∧
  (∀ s p dv u, ready (.pexp d a b) s = true → (s.atInstr (.pexp d a b)).drawOpen b false = .ok (p, dv, u) →
    let die := dieOf (s.coreOfWarp s.issue.warp)
    let launch := (s.block s.cw.blk).launch
    let prims := (lanesOf s.activeReal).map (fun l => (⟨s.lane64 d.toNat l, s.triOf a l, coverBins dv (s.triOf a l),
      (triBins dv (s.triOf a l)).length, false, cullCode dv (s.triOf a l) = 0, s.lane (d.toNat + 2) l ≠ 0, false, false,
      s.issue.warp, s.issue.entry, s.issue.chain, s.issue.pc + 4, encode (.pexp d a b)⟩ : Prim))
    let open_ := firstIdx (fun (x : Draw) => x.launch = launch && fieldOf x.desc 0 57 = field p 0 57) (s.die die).draws
    (∀ k x, open_ = some k → u.drawAt die k = some x → x.flushing = false → x.stopped = none →
      (∀ q ∈ x.prims, q.binned = true) →
      exec (.pexp d a b) s = .next (s.retired (.pexp d a b)
        ((u.setDraw die k { x with prims := x.prims ++ prims }).binAll die k (3 * prims.length + 1)))) ∧
    (∀ k x, open_ = some k → u.drawAt die k = some x →
      (x.flushing = true ∨ x.stopped ≠ none ∨ ∃ q ∈ x.prims, q.binned = false) → s.atChain →
      exec (.pexp d a b) s = .next ((s.atInstr (.pexp d a b)).setWait .flush 0 [])) ∧
    (open_ = none → exec (.pexp d a b) s = .next (s.retired (.pexp d a b)
      ((u.setDie die { u.die die with draws := (u.die die).draws ++
        [⟨s.ctxOfWarp s.issue.warp, BitVec.ofNat 64 p, BitVec.ofNat 512 dv, launch, prims, 0, false, none, [], []⟩] }).binAll
          die (u.die die).draws.length (3 * prims.length + 1))))) ∧
  (∀ s locs u, ready (.obld a b) s = true → (s.atInstr (.obld a b)).domainOpen .read a b = .ok (locs, u) →
    lanesAsked s.issue.resp 0 (fun _ => 4) (fun _ p pa => askRead p 4 pa) locs = .ok [] →
    let r := locs.foldl (obldStep (s.atInstr (.obld a b)) a) (true, u)
    r.1 = true → ∃ t, exec (.obld a b) s = .next t ∧
      t = s.retired (.obld a b) (r.2.acquireL1 (s.coreOfWarp s.issue.warp)) ∧ RegistersKept s t) ∧
  (∀ s locs u, ready (.oble a b) s = true → (s.atInstr (.oble a b)).domainOpen .write a b = .ok (locs, u) →
    lanesAsked s.issue.resp 1 (fun l => 4 + 256 * (l + 1)) (fun l p pa => ⟨1, p, 4 + 256 * (l + 1), pa, 0, [1], [], none⟩) locs =
      .ok [] →
    ∃ t, exec (.oble a b) s = .next t ∧
      t = s.retired (.oble a b)
        ((u.releaseL1 (s.coreOfWarp s.issue.warp)).updateLanes 4 (fun _ v => (v + 1, v)) locs).2 ∧ RegistersKept s t) ∧
  (∀ x ∈ [(Instr.ksrtK32 a, 0), (.ksrtK64 a, 1), (.binc a, 2)],
    let p := fun (s : State) => s.rdS a.toNat
    TrapsAt x.1 (fun s => fieldOf (p s) 0 6 ≠ 0) eAlign (fun s => (p s).toNat) ∧
    ∀ s, ready x.1 s = true → fieldOf (p s) 0 6 = 0 →
      let core := s.coreOfWarp s.issue.warp
      (s.die (dieOf core)).jobs.length < Config.jobDepth → dieOf core < s.dies.length →
      ∃ t, exec x.1 s = .next t ∧ t.mem = ((s.atInstr x.1).releaseL1 core).mem ∧
        (t.die (dieOf core)).jobs = (s.die (dieOf core)).jobs ++
          [⟨s.ctxOfWarp s.issue.warp, p s, x.2, s.issue.warp, core, [], [], none⟩] ∧ RegistersKept s t)

/-! Work made on the device, rings and asynchronous barriers. -/

/-- R48, R51, R282, R364, R365: FORK counts a task and pushes it on its core's deque, or answers 1 outside a task-pool launch
or with a full deque; FJOIN goes on once the counter is 0; LNCH answers the status of the record, which enters its queue when
that is 0. That the record is the target die's context of the same number, and that a FORK whose counter the host has raised
waits for a place, are the model's inferences (DEDUCED, log entry 55). -/
def Obligations.ForksJoinsAndLaunches : Prop := ∀ d a b : BitVec 7,
  (let pc := fun (s : State) => s.rdS b.toNat
   let cnt := fun (s : State) => s.rdS (b.toNat + 1)
   let core := fun (s : State) => s.coreOfWarp s.issue.warp
   let ok := fun (s : State) => fieldOf (pc s) 0 2 = 0 ∧ fieldOf (pc s) 57 3 = 0 ∧ (cnt s).toNat % 8 = 0
   let full := fun (s : State) => Config.dequeDepth ≤ (s.core (core s)).deque.length
   let no := fun (s : State) => s.taskPool s.issue.warp = false ∨ (full s ∧ respOf s.issue.resp 1 (cnt s).toNat 8 = none)
   TrapsAt (.fork d a b) (fun s => fieldOf (pc s) 0 2 ≠ 0) eAlign (fun s => (pc s).toNat) ∧
   TrapsAt (.fork d a b) (fun s => fieldOf (pc s) 0 2 = 0 ∧ fieldOf (pc s) 57 3 ≠ 0) eNoncanon (fun s => (pc s).toNat) ∧
   TrapsAt (.fork d a b) (fun s => fieldOf (pc s) 0 2 = 0 ∧ fieldOf (pc s) 57 3 = 0 ∧ (cnt s).toNat % 8 ≠ 0) eAlign
     (fun s => (cnt s).toNat) ∧
   (∀ s, ready (.fork d a b) s = true → ok s → no s → ∃ t, exec (.fork d a b) s = .next t ∧ t.regS d.toNat = 1 ∧
     t.cw.fst = s.cw.fst ∧ ScalarFrame s t (fun n => n = d.toNat)) ∧
   (∀ s v u, ready (.fork d a b) s = true → ok s → s.taskPool s.issue.warp = true → ¬ full s →
     (s.atInstr (.fork d a b)).ioAdd s.who s.issue.resp (cnt s).toNat 1 = .ok (v, u) →
     let w := u.releaseL1 (core s)
     ∃ t, exec (.fork d a b) s = .next t ∧ t.regS d.toNat = 0 ∧ t.mem = w.mem ∧
       (t.core (core s)).deque = ⟨(pc s).setWidth 57, s.rdRun a.toNat, cnt s, (s.block s.cw.blk).launch⟩ :: (w.core (core s)).deque ∧
       RegisterFrame s t (fun n => n = d.toNat) (fun _ => False))) ∧
  (∀ s u, ready (.fjoin a) s = true → (s.rdS a.toNat).toNat % 8 = 0 →
    (s.atInstr (.fjoin a)).atomicLoad .fjoin (s.rdS a.toNat).toNat = .ok (0, u) →
    exec (.fjoin a) s = .next (s.retired (.fjoin a) (u.acquireL1 (u.coreOfWarp u.issue.warp)))) ∧
  (let p := fun (s : State) => s.rdS a.toNat
   let q := fun (s : State) => s.rdS b.toNat
   TrapsAt (.lnch d a b) (fun s => fieldOf (p s) 0 7 ≠ 0) eAlign (fun s => (p s).toNat) ∧
   ∀ s v u, ready (.lnch d a b) s = true → fieldOf (p s) 0 7 = 0 →
     (s.atInstr (.lnch d a b)).lineRead8 0 (p s).toNat 128 = .ok (v, u) →
     let ctx := s.ctxOfWarp s.issue.warp
     let st := if fieldOf (q s) 8 56 ≠ 0 then 3 else u.acceptStatus (fieldOf (q s) 6 2) (fieldOf (q s) 0 6) ctx (BitVec.ofNat 1024 v)
     ∃ t, exec (.lnch d a b) s = .next t ∧ t.regS d.toNat = BitVec.ofNat 64 st ∧
       (st ≠ 0 → t.launches = u.launches ∧ t.dies = u.dies ∧ t.mem = u.mem) ∧
       (st = 0 → let w := (u.releaseL1 (s.coreOfWarp s.issue.warp)).accept (fieldOf (q s) 6 2) (fieldOf (q s) 0 6) ctx (BitVec.ofNat 1024 v)
         t.launches = w.launches ∧ t.dies = w.dies ∧ t.mem = w.mem) ∧
       RegisterFrame s t (fun n => n = d.toNat) (fun _ => False))

/-- R43 to R45, R172, R176, R322, R338, R339, R394: STGA claims the next slot of its ring when it is free for it, STGR hands its slot
on, each raising RANGE for a slot at or beyond the ring's count; ABAR.arrive counts one arrival and answers the phase that it
arrived in, and ABAR.wait goes on in another phase, wherever the object lies. That ABAR.wait raises SHAPE for an object whose scope
is not 1 to 5 is the model's inference (DEDUCED, log entry 40). -/
def Obligations.RingsAndAsyncBarriers : Prop := ∀ d a b : BitVec 7,
  (∀ x ∈ [(Instr.stgaProd d a, 48, 0, 1), (.stgaCons d a, 52, 2, 3)], ∀ s off h n, ready x.1 s = true →
    (s.atInstr x.1).ringHeader a = .ok (off, h, n) → s.cw.blk < s.blocks.length →
    let i := field h x.2.1 4
    (n ≤ i → exec x.1 s = .next ((s.atInstr x.1).raise (TrapInfo.atAddr eRange off))) ∧
    (i < n → (s.atInstr x.1).ringBlocked off = false → field h (2 * i) 2 = x.2.2.1 →
    ∃ t, exec x.1 s = .next t ∧
      t.regS d.toNat = BitVec.ofNat 64 ((field h 96 32 + i * field h 64 24) % 2 ^ 32 + i * 2 ^ 32 + field h (32 + i) 1 * 2 ^ 36) ∧
      (∀ k, k < 16 → t.scrByte s.cw.blk (off + k) =
        BitVec.ofNat 8 (setField (setField h (2 * i) 2 x.2.2.2) x.2.1 4 ((i + 1) % n) / 2 ^ (8 * k))) ∧
      (∀ c k, ¬ (c = s.cw.blk ∧ off ≤ k ∧ k < off + 16) → t.scrByte c k = s.scrByte c k) ∧
      t.mem = s.mem ∧ RegisterFrame s t (fun j => j = d.toNat) (fun _ => False))) ∧
  (∀ x ∈ [(Instr.stgrProd a b, 1, 2), (.stgrCons a b, 3, 0)], ∀ s off h n, ready x.1 s = true →
    (s.atInstr x.1).ringHeader a = .ok (off, h, n) → s.cw.blk < s.blocks.length →
    let i := fieldOf (s.rdS b.toNat) 32 4
    let h1 := setField h (2 * i) 2 x.2.2
    (n ≤ i → exec x.1 s = .next ((s.atInstr x.1).raise (TrapInfo.atAddr eRange off))) ∧
    (i < n → field h (2 * i) 2 ≠ x.2.1 → exec x.1 s = .next ((s.atInstr x.1).raise (TrapInfo.of (.prot, 0)))) ∧
    (i < n → field h (2 * i) 2 = x.2.1 →
      ((s.atInstr x.1).opsOf s.issue.warp).any (fun o => (s.atInstr x.1).touchesSlot (x.2.1 = 1) o
        (field h 96 32 + i * field h 64 24) (field h 64 24)) = false →
      ∃ t, exec x.1 s = .next t ∧
        (∀ k, k < 16 → t.scrByte s.cw.blk (off + k) = BitVec.ofNat 8
          ((if x.2.1 = 1 then h1 else setField h1 (32 + i) 1 (1 - field h (32 + i) 1)) / 2 ^ (8 * k))) ∧
        (∀ c k, ¬ (c = s.cw.blk ∧ off ≤ k ∧ k < off + 16) → t.scrByte c k = s.scrByte c k) ∧
        t.mem = s.mem ∧ RegistersKept s t)) ∧
  (let at_ := fun (s : State) => objAddr (s.rdS a.toNat) 0
   ∀ s loc, ready (.abarArrive d a) s = true → let i : Instr := .abarArrive d a
     (s.atInstr i).locate false .write (at_ s) 16 = .ok loc → (∀ p t, loc = .glob p t → leafKind t.leaf ≠ 2) →
     let h := ((s.atInstr i).updateLoc 16 (fun h => (h, h)) loc).1
     (abArrive (at_ s) h = none → exec i s = .next ((s.atInstr i).raise (TrapInfo.of eShape))) ∧
     (∀ h', abArrive (at_ s) h = some h' → ∃ t, exec i s = .next t ∧ t.regS d.toNat = BitVec.ofNat 64 (abPh h) ∧
       (∀ c off, loc = .scr c off → c < s.blocks.length → ∀ k, k < 16 → t.scrByte c (off + k) = BitVec.ofNat 8 (h' / 2 ^ (8 * k))) ∧
       (∀ p tr m, loc = .glob p tr → tr.entry = none → leafKind tr.leaf < 2 → s.keyMat (leafKey tr.leaf) = some m →
         s.lineClean (s.coreOfWarp s.issue.warp) (tr.pa / 128) → tr.pa % 128 + 16 ≤ 128 →
         ∀ k, k < 16 → t.memByte (tr.pa + k) = BitVec.ofNat 8 (h' / 2 ^ (8 * k))) ∧
       RegisterFrame s t (fun n => n = d.toNat) (fun _ => False))) ∧
  (∀ x h, abScopeOk x (abScope h) = true → abArr h < abExp h → ∃ h', abArrive x h = some h' ∧
    abExp h' = abExp h ∧ abScope h' = abScope h ∧
    (abArr h + 1 = abExp h → abArr h' = 0 ∧ abPh h' = 1 - abPh h) ∧
    (abArr h + 1 ≠ abExp h → abArr h' = abArr h + 1 ∧ abPh h' = abPh h)) ∧
  (∀ s c off, ready (.abarWait a b) s = true → let i : Instr := .abarWait a b
    (s.atInstr i).locate false .read (objAddr (s.rdS a.toNat) 0) 16 = .ok (.scr c off) →
    let h := ofBytes (s.scratchRead c (off + 8) 8)
    (field h 1 3 = 0 ∨ 5 < field h 1 3 → exec i s = .next ((s.atInstr i).raise (TrapInfo.of eShape))) ∧
    (1 ≤ field h 1 3 → field h 1 3 ≤ 5 → h % 2 = fieldOf (s.rdS b.toNat) 0 1 → s.atChain →
      exec i s = .next ((s.atInstr i).setWait .abar 0 [])) ∧
    (1 ≤ field h 1 3 → field h 1 3 ≤ 5 → h % 2 ≠ fieldOf (s.rdS b.toNat) 0 1 → ∃ t, exec i s = .next t ∧
      t = s.retired i (if 3 ≤ field h 1 3 then (s.atInstr i).acquireL1 (s.coreOfWarp s.issue.warp) else s.atInstr i) ∧
      RegistersKept s t)) ∧
  (∀ s p tr, ready (.abarWait a b) s = true → let i : Instr := .abarWait a b
    (s.atInstr i).locate false .read (objAddr (s.rdS a.toNat) 0) 16 = .ok (.glob p tr) → leafKind tr.leaf ≠ 2 →
    let r := (s.atInstr i).homeRead s.who (field p 0 57) 16 tr false
    let h := ofBytes r.1 / 2 ^ 64
    (field h 1 3 = 0 ∨ 5 < field h 1 3 → exec i s = .next (r.2.raise (TrapInfo.of eShape))) ∧
    (1 ≤ field h 1 3 → field h 1 3 ≤ 5 → h % 2 = fieldOf (s.rdS b.toNat) 0 1 → s.atChain →
      exec i s = .next (r.2.setWait .abar 0 [])) ∧
    (1 ≤ field h 1 3 → field h 1 3 ≤ 5 → h % 2 ≠ fieldOf (s.rdS b.toNat) 0 1 → ∃ t, exec i s = .next t ∧
      t = s.retired i (if 3 ≤ field h 1 3 then r.2.acquireL1 (s.coreOfWarp s.issue.warp) else r.2) ∧ RegistersKept s t))

/-! The steps that the machine takes of itself. -/

/-- R22, R43, R62, R165, R183, R194, R201, R231, R239, R249, R253, R267, R339, R346, R352, R375, R408: the event that a waiting
instruction awaits has it tried again in the state of its wait record; where the wait is over it completes. Loads that
have come, and memory instructions that let a chain issue again, make their strand ready, and pour permits go to strands, copies
and follow-on operations (R203, R215). What a strand waits for is kept in a record of the model's own: that an instruction waits
with no effect and is tried again is an inference from R22 (DEDUCED, log entries 41, 45 and 67). A permit goes to whatever its event
names, where R215 grants by class and arrival (DESIGN CHOICE, log entry 60). A TXS in the sampler queue is performed in its turn
although its warp is in handler code or stopped (R254; log entry 67). -/
def Obligations.GrantedWaitsEnd : Prop := ∀ d a b imm : BitVec 7,
  let free := fun (s : State) => let x := s.rdS a.toNat
    descOk x true true false false false 32 = true ∧ s.cw.inWindow (dRow0 x) 1 = true ∧ s.rowsBusy [(dRow0 x, 1)] = false
  EndsWait .scoreboardClear .board (.maccRd d a) (fun _ s => free s) State.seqPc ∧
  (∀ s w e t v, s.waitOf w e = some v → (s.warp w).strand e = some t → t.wait = some v →
    (v.kind = .load ∨ (v.kind = .flights ∧ s.flightsClear w e t v = true)) → s.warpLive w = true → (s.warp w).held e = false →
    exec (.scoreboardClear w e) s =
      .next (s.setWarp w ((s.warp w).setStrand e (some { t with st := .ready, wait := none })))) ∧
  (∀ s w e v s1, WaitsAt s w e v .rgrow (.rgrow d) → let i : Instr := .rgrow d
    let u := s.again w e v
    ready i u = true → u.inHandler = false → u.cw.othersPending u.issue.entry = false → u.cw.ext = false → 64 ≤ u.pool (u.quarterOf w) → u.firstToGrow w v.seq = true →
    (u.atInstr i).spillAll w 9 = (s1, none) →
    let s2 := s1.putW (rebase s1.cw { s1.cw with ext := true } s1.cw.effF)
    exec (.rgrowGrant w e) s = .next (u.retired i (s2.wrS d.toNat (BitVec.ofNat 64 s2.cw.allot)))) ∧
  (∀ x ∈ [(Instr.stgaProd d a, 48, 0), (.stgaCons d a, 52, 2)],
    EndsWait .stageRingGrant .ring x.1 (fun _ s => ∃ off h n, s.ringHeader a = .ok (off, h, n) ∧ s.ringBlocked off = false ∧
      field h x.2.1 4 < n ∧ field h (2 * field h x.2.1 4) 2 = x.2.2) State.seqPc) ∧
  (∀ q : BitVec 14, EndsWait .qfenceCompletion .qfence (.qfence q) (fun v s => fieldOf q 6 8 = 0 ∧ fieldOf q 0 6 ≠ 0 ∧
    s.outstanding s.issue.warp (fieldOf q 0 6) v.seq = false) State.seqPc) ∧
  (∀ s w e v, WaitsAt s w e v .mwin (.mwin a b) → let i : Instr := .mwin a b
    let u := s.again w e v
    let x := u.rdS a.toNat
    let g := u.rdS b.toNat
    let blk := u.block u.cw.blk
    let ts := if x.getLsbD 5 then blk.warps else [nth blk.warps (fieldOf x 0 5) 0]
    ready i u = true → u.cw.idx = 0 → fieldOf x 6 58 = 0 → fieldOf g 9 7 = 0 → fieldOf g 26 38 = 0 →
    (x.getLsbD 5 = true ∨ fieldOf x 0 5 < blk.warps.length) → fieldOf g 0 9 + fieldOf g 16 10 ≤ recAccRows (u.recOf u.cw.blk) →
    (∀ c ∈ ts, ∀ o ∈ u.opsOf c, ¬ ((∃ m, o.kind = .mat m) ∨ ∃ p q m, o.kind = .copym p q m)) →
    exec (.mwinApply w e) s = .next (u.retired i (ts.foldl (fun y c => y.setWarp c { y.warp c with
      accb := BitVec.ofNat 9 (fieldOf g 0 9), accl := BitVec.ofNat 10 (fieldOf g 16 10) }) (u.atInstr i)))) ∧
  EndsWait .weightCacheEntryGrant .weight (.txb a imm) (fun _ s => fieldOf (s.rdS a.toNat) 0 7 = 0 ∧
    ∃ v u, s.tableLines (s.rdS a.toNat).toNat 9 0 = .ok (v, u) ∧ tableBad v = false ∧ u.weightRoom s.cw.blk (fieldOf imm 0 4)
      ⟨s.who.asid, BitVec.ofNat 64 (fieldOf (s.rdS a.toNat) 0 57), BitVec.ofNat 9216 v, true⟩ = true) State.seqPc ∧
  EndsWait .obldGrant .obld (.obld a b) (fun _ s => ∃ locs u, s.domainOpen .read a b = .ok (locs, u) ∧
    lanesAsked s.issue.resp 0 (fun _ => 4) (fun _ p pa => askRead p 4 pa) locs = .ok [] ∧
    (locs.foldl (obldStep s a) (true, u)).1 = true) State.seqPc ∧
  EndsWait .abarWaitResume .abar (.abarWait a b) (fun _ s => ∃ c off,
    s.locate false .read (objAddr (s.rdS a.toNat) 0) 16 = .ok (.scr c off) ∧
    let h := ofBytes (s.scratchRead c (off + 8) 8)
    1 ≤ field h 1 3 ∧ field h 1 3 ≤ 5 ∧ h % 2 ≠ fieldOf (s.rdS b.toNat) 0 1) State.seqPc ∧
  EndsWait .fjoinReturn .fjoin (.fjoin a) (fun _ s => (s.rdS a.toNat).toNat % 8 = 0 ∧
    ∃ u, s.atomicLoad .fjoin (s.rdS a.toNat).toNat = .ok (0, u)) State.seqPc ∧
  EndsWait .mwaitReturn .mwait (.mwait a b) (fun _ s => (s.rdS a.toNat).toNat % 64 = 0 ∧ (s.rdS b.toNat).getLsbD 63 = false ∧
    ∃ c u, s.atomicLoad .mwait (s.rdS a.toNat).toNat = .ok (c, u) ∧
      ((s.rdS b.toNat).toNat ≤ c % 2 ^ 63 ∨ c / 2 ^ 63 % 2 = 1)) State.seqPc ∧
  (∀ m : BitVec 21, EndsWait .yieldContinuation .yield (.yield m) (fun _ s => s.copiesOut s.issue.warp = false)
    (fun s => BitVec.ofInt 57 ((s.issue.pc.toNat : Int) + s.imm 21 m.toNat * 4))) ∧
  (∀ m : BitVec 14, EndsWait .waitPauseEnd .pause (.wait m) (fun v s => v.until_ ≤ s.clock) State.seqPc) ∧
  EndsWait .tinsLockRelease .tins (.tins d a b) (fun _ s => s.issue.ins = none ∧ ∃ r, tinsFind a b s = .ok r) State.seqPc ∧
  EndsWait .engineQueueEntry .engineQueue (.copyG2s a) (fun _ s =>
    s.copyCheck 0 (s.rdS a.toNat) (s.rdS (a.toNat + 1)) (s.rdS (a.toNat + 2)) (s.rdS (a.toNat + 3)) = none ∧
    ((s.core (s.coreOfWarp s.issue.warp)).queue (cQ (s.rdS (a.toNat + 2)))).length < 16) State.seqPc ∧
  (∀ i ∈ [Instr.ksrtK32 a, .ksrtK64 a, .binc a], EndsWait .riddleJobQueueEntry .riddle i (fun _ s =>
    fieldOf (s.rdS a.toNat) 0 6 = 0 ∧ (s.die (dieOf (s.coreOfWarp s.issue.warp))).jobs.length < Config.jobDepth) State.seqPc) ∧
  (∀ x ∈ [(Instr.txsL d a b, false), (.txsG d a b, true)],
    EndsWait .weightCacheEntryGrant .weight x.1 (fun _ s => ∃ r, txsFind x.2 a b s = .ok r) State.seqPc ∧
    (∀ s w e v, WaitsAt s w e v .sample x.1 → s.goesBehind w e = false →
      let u := s.again w e v
      exec (.samplerFetchCompletion w e) s = exec x.1 u ∧ (ready x.1 u = true → (∃ r, txsFind x.2 a b (u.atInstr x.1) = .ok r) →
        ∃ t, exec (.samplerFetchCompletion w e) s = .next t ∧ t.cs.pc = u.seqPc)) ∧
    (∀ s w e v t, s.goesBehind w e = true → (s.warp w).strand e = some t → t.wait = some v → v.word = encode x.1 →
      let bare := s.setWarp w { s.warp w with handlers := [], stopped := none }
      ∀ u, exec x.1 (bare.again w e v) = .next u → (u.warp w).phase = .running → (u.warp w).handlers = [] →
        (u.warp w).stopped = none → exec (.samplerFetchCompletion w e) s =
          .next (u.setWarp w { u.warp w with handlers := (s.warp w).handlers, stopped := (s.warp w).stopped }))) ∧
  (∀ s w e v t, WaitsAt s w e v .permit (.vldnB27 d a b) → (s.warp w).runner e = some t →
    let s1 := s.setWarp w ((s.warp w).setRunner e { t with permit := true })
    exec (.pourPermitGrant (.strand w e)) s = s1.grant w e [.permit]) ∧
  (∀ s core q o, s.headOp core (q % 4) = some o → o.copyAsks = true → o.held = false → o.performed = false →
    exec (.pourPermitGrant (.copyHead core q)) s = .next (s.putHead core (q % 4) { o with permit := true })) ∧
  (∀ s core q o, s.headOp core (q % 4) = some o → exec (.pourPermitGrant (.followOn core q)) s =
    .next (s.setCore core { s.core core with mq := (s.core core).mq.map (fun l => l.map (fun p =>
      if p.parent = some o.id && p.followAsks then { p with permit := true } else p)) }))

/-- R29, R30, R47 to R50, R74, R82, R83, R178, R289, R292, R294 to R296, R360: the steps that warps take of themselves. A miss
group whose strands have all reached one PC becomes one strand; exits drain, with their stores performed, and a warp of a
task-pool launch counts its task done and is free; tasks start and are stolen; the Ladle moves frames, but none over a spilled
reserve; limited waits end in BARHANG; pending faults are delivered in the order of their entries; a stopped warp takes its
answer. That a stopped operation of a warp with no strand left leaves its queue (DESIGN CHOICE, log entry 50), that the end of a
drain settles what waits for the warp in the same step and that a free task warp keeps its extended block (DESIGN CHOICE, log
entry 47), and what becomes of a join counter that cannot be reached (DESIGN CHOICE, log entry 49) are the model's. -/
def Obligations.WarpEventsHappen : Prop :=
  (∀ s w e f ms t, s.warpLive w = true → (s.warp w).handlers = [] → (s.warp w).missGroup e = f :: ms →
    (s.warp w).strand f = some t →
    (∀ g ∈ f :: ms, (s.warp w).atWaitPoint g = true ∧ (s.warp w).held g = false ∧
      ∃ u, (s.warp w).strand g = some u ∧ u.pc = t.pc) →
    exec (.missGroupMerge w e) s = .next (s.setWarp w (((f :: ms).foldl (fun y g => y.setStrand g none) (s.warp w)).setStrand f
      (some ((s.warp w).mergedMiss (f :: ms) t))))) ∧
  (∀ s w, (s.warp w).phase = .exiting → (s.block (s.warp w).blk).resid = .resident →
    let u := s.dropOps (fun o => o.warp = w && o.stopped)
    u.opsOf w = [] → u.taskPool w = false →
    let v := (u.releaseL1 (u.coreOfWarp w)).dropWarp w
    let b := (u.warp w).blk
    exec (.exitDrainComplete w) s =
      .next (if (v.block b).warps.all (fun x => (v.warp x).phase = .gone) then v.dropBlock b else v.settleBars b)) ∧
  (∀ s w, (s.warp w).phase = .exiting → (s.block (s.warp w).blk).resid = .resident →
    let u := s.dropOps (fun o => o.warp = w && o.stopped)
    let v := u.releaseL1 (u.coreOfWarp w)
    let free := fun (x : State) => exec (.exitDrainComplete w) s = .next (x.setWarp w { x.warp w with
      phase := .freeTask, task := none, engFaults := [], handlers := [], strands := [none, none, none, none] })
    u.opsOf w = [] → u.taskPool w = true →
    ((s.warp w).task = none → free v) ∧
    (∀ c n y, (s.warp w).task = some c → v.ioAdd (v.whoOfWarp w) [] c.toNat (2 ^ 64 - 1) = .ok (n, y) → free y) ∧
    (∀ c e p, (s.warp w).task = some c → v.ioAdd (v.whoOfWarp w) [] c.toNat (2 ^ 64 - 1) = .error (.bad e p) →
      free (v.logError (dieOf (v.coreOfWarp w)) (v.block (v.warp w).blk).launch p)) ∧
    (∀ c q, (s.warp w).task = some c → v.ioAdd (v.whoOfWarp w) [] c.toNat (2 ^ 64 - 1) = .error (.ask q) →
      ∃ r : List HostReq, (∀ a ∈ q, ∃ m ∈ r, m.kind = a.kind ∧ m.addr = BitVec.ofNat 64 a.addr ∧ m.n = a.n) ∧
        ∃ y, free y ∧ (dieOf (v.coreOfWarp w) < v.dies.length → (y.die (dieOf (v.coreOfWarp w))).posts =
          (v.die (dieOf (v.coreOfWarp w))).posts ++
            r.map (fun m => ⟨false, w, (v.block (v.warp w).blk).launch, v.ctxOfWarp w, m⟩)))) ∧
  (∀ s core q n r, (s.quarter (core * 4 + q % 4)).draining = n :: r → exec (.registerDrainComplete core q) s =
    .next (s.setQuarter (core * 4 + q % 4) { s.quarter (core * 4 + q % 4) with draining := r })) ∧
  (∀ s w t, let x := s.warp w
    let core := s.coreOfWarp w
    let k := s.core core
    x.phase = .freeTask → (s.block x.blk).resid = .resident →
    k.deque.find? (fun t => t.launch = (s.block x.blk).launch) = some t →
    let u := (s.setCore core { k with deque := k.deque.erase t }).acquireL1 core
    exec (.taskStart w) s = .next (u.setWarp w
      (x.startTask (u.recOf x.blk) (u.launchOf x.blk).cover (u.block x.blk).idx t))) ∧
  (∀ s core l c t ys zs, s.freeTasker core = some l → (s.core core).deque.any (fun t => t.launch = l) = false →
    ((List.range 7).map (fun i => core / 8 * 8 + (core % 8 + i + 1) % 8)).find?
      (fun c => (s.core c).deque.any (fun t => t.launch = l)) = some c →
    (s.core c).deque = ys ++ t :: zs → t.launch = l → (∀ z ∈ zs, z.launch ≠ l) →
    let u := s.setCore c { s.core c with deque := ys ++ zs }
    exec (.taskSteal core) s = .next (u.setCore core { u.core core with deque := (u.core core).deque ++ [t] })) ∧
  (∀ s w u, s.warpLive w = true → s.spillOldest w = .ok u → exec (.ladleOptionalSpill w) s =
    .next (if ∃ h ∈ (s.warp w).handlers, h.inReserve = false then s else u)) ∧
  (∀ s w u, s.warpLive w = true → (s.warp w).spilled ≠ 0 → s.refillNewest w [] (s.warp w).fits = .ok u →
    exec (.ladleOptionalRefill w) s = .next u) ∧
  (∀ s w e v, s.waitOf w e = some v → s.warpLive w = true → (s.warp w).held e = false → v.kind.limited = true →
    ¬ (v.kind = .weight ∧ opOf v.word ≠ 0x280) → (s.warp w).barlim ≠ 0 → (s.warp w).barlim.toNat ≤ s.clock - v.since →
    exec (.barhang w e) s =
      .next ((s.waitIssue w e v).raise (TrapInfo.of (.barhang, 0)))) ∧
  (∀ s w e t, let x := s.warp w
    let none_ := fun (g : Nat) => ∀ u, x.strand g = some u → u.takesFault = true → x.held g = false → x.faultFor g = none
    x.handlers = [] → e < 4 → x.strand e = some t → (∀ g, g < e → none_ g ∧ s.deferredDue w g = false) →
    (∀ f, let u := s.setIssue w e t.pc t.pc 0 false
      x.stopped = none → t.fault = some f → none_ e → s.candidate w e = true → u.inMiss = false → u.runsAhead t = some false →
      exec (.deferredFaultDelivery w e) s = .next { u.deliverFault f with issue := Issue.idle }) ∧
    (∀ f, s.warpLive w = true → t.takesFault = true → x.held e = false → x.faultFor e = some f →
      exec (.engineFaultDelivery w) s = .next (s.takeFault w e f))) ∧
  (∀ s w (act target : DWord), (s.warp w).stopped.isSome = true → (s.block (s.warp w).blk).resid = .resident →
    act.toNat < 4 → (act = 2 → fieldOf target 0 2 = 0) →
    exec (.trapAction w act target) s = .next (s.answerStopped w act.toNat (target.setWidth 57))) ∧
  (∀ s w (act target : DWord), (s.warp w).stopped.isSome = true → (s.block (s.warp w).blk).resid = .resident →
    (4 ≤ act.toNat ∨ (act = 2 ∧ fieldOf target 0 2 ≠ 0)) → ∃ t, exec (.trapAction w act target) s = .next t ∧ t.warps = s.warps)

/-- R152, R154, R182, R201, R205, R211, R212, R214, R237, R238, R262, R266, R268, R316, R324, R325, R327, R349, R350, R352 to
R354, R386: the engines' own steps. The head of a copy queue reads or writes its next unit, packs or unpacks its tiles, sends the
leaves of a plan and then the step counter, or the lanes of an RST or RRED and is performed once all are acknowledged; a matrix
operation commits its next group, an MSTA all that it has left; a COLL writes its request and takes its result, whose bits do not
depend on the order of the contributions; a halo leaf is written turn by turn; a performed operation leaves its queue; one that
meets a condition stops at it. That a copy moves line by line in ascending order (log entry 38), that a COLL of a killed launch
ends with its step 1 (log entry 49), that what stopped with no strand left leaves its queue (log entry 50), that clocks pass to
the next refresh in one step (log entry 16), which leaves and peers a plan names where the rules do not say it and how a delivery
is taken up again (log entries 52 and 70) are the model's choices (DESIGN CHOICE); what a request to stop leaves of an operation
is its inference (DEDUCED, log entry 58). -/
def Obligations.EnginesPerformTheirHeads : Prop :=
  (∀ s core q o, let n := q % 4
    s.headOp core n = some o → o.ready = true → (o.copyAsks = true → o.permit = true) → o.pos < o.len →
    let moved := fun (o' : EngOp) (u : State) (land : Bool) =>
      (u.putHead core n { o' with reqs := [], resp := [] }).copyEnd core n o.id o.len land
    let line := fun (v opt w0 w1 : Nat) (o' : EngOp) (u : State) =>
      let c := min (128 - (w0 + o.pos) % 128) (o.len - o.pos)
      let at_ := (w1 + o.pos + o.buf.length) % 2 ^ 64
      (o.buf.length < c → o'.pos = o.pos ∧ at_ % 8 = 0 ∧ ∃ bs, o'.buf = o.buf ++ bs ∧
        s.engRead o (if v = 1 then 0 else 1) at_ (min (128 - at_ % 128) (o.len - (o.pos + o.buf.length))) = .ok (bs, u)) ∧
      (c ≤ o.buf.length → o'.pos = o.pos + c ∧ o'.buf = o.buf.drop c ∧ s.copyPut o v opt w0 (o.buf.take c) = .ok u)
    (∀ v w0 w1 opt o' u, o.kind = .copy v w0 w1 opt → v < 3 → opt < 2 → s.copyLine o v opt w0.toNat w1.toNat = .ok (o', u) →
      line v opt w0.toNat w1.toNat o' u ∧ exec (.copyPerform core q 0) s = .next (moved o' u false)) ∧
    (∀ w0 w1 opt s1 o' u, o.kind = .copy 3 w0 w1 opt → s.ingotGate (dieOf core) (s.block o.blk).launch = some (true, s1) →
      s1.headOp core n = some o → s1.copyLine o 3 0 w0.toNat w1.toNat = .ok (o', u) →
      exec (.copyPerform core q 0) s = .next (moved o' u false)) ∧
    (∀ v w0 w1 opt e, o.kind = .copy v w0 w1 opt → v < 3 → opt < 2 → s.copyLine o v opt w0.toNat w1.toNat = .error e →
      exec (.copyPerform core q 0) s = .next ((s.engStop core n o false e).copyEnd core n o.id o.len false)) ∧
    (∀ v w0 w1, o.kind = .copy v w0 w1 2 → v < 3 → exec (.copyPerform core q 0) s =
      .next ((s.copyUnits core n o.len (fun s o => s.compressTile o w0.toNat w1.toNat) (o.len / 64 + 2)).copyEnd core n o.id o.len false)) ∧
    (∀ v w0 w1, o.kind = .copy v w0 w1 3 → v < 3 → exec (.copyPerform core q 0) s =
      .next ((s.copyUnits core n o.len (fun s o => s.expandTile o w0.toNat w1.toNat) (o.len / 64 + 2)).copyEnd core n o.id o.len false)) ∧
    (∀ w0 w1 m o' u, o.kind = .copym w0 w1 m → o.stage = 0 → s.copyLine o 0 0 w0.toNat w1.toNat = .ok (o', u) →
      line 0 0 w0.toNat w1.toNat o' u ∧ exec (.copyPerform core q 0) s = .next (moved o' u true))) ∧
  (∀ (s : State) (o : EngOp) (w0 w1 : Nat), let k := o.pos / 256
    let tile := s.compressTile o w0 w1
    (∀ bs u, o.desc = [] → s.surface o w0 = .ok (bs, u) → tile = .ok ({ o with desc := bs }, u)) ∧
    (o.desc.length = 32 → let f := surfaceOf o.desc
      (∀ raw u, o.buf = [] → s.engRead o 0 (w1 + o.pos) 256 = .ok (raw, u) →
        tile = .ok ({ o with buf := BitVec.ofNat 8 (packTile f.clear raw).1 :: (packTile f.clear raw).2 }, u)) ∧
      (∀ mode bs u, o.buf = mode :: bs → s.engWrite o 1 ((f.data + 256 * (f.t0 + k)) % 2 ^ 64) bs = .ok u →
        tile = .ok ({ o with desc := o.desc ++ [mode], buf := [] }, u))) ∧
    (∀ ds mode u, o.desc = ds ++ [mode] → ds.length = 32 →
      s.engWrite o 1 (((surfaceOf ds).mode + ((surfaceOf ds).t0 + k)) % 2 ^ 64) [mode] = .ok u →
      tile = .ok ({ o with pos := o.pos + 256, desc := ds }, u))) ∧
  (∀ (s : State) (o : EngOp) (w0 w1 : Nat), let k := o.pos / 256
    let here := field w0 0 57 = field w1 0 57
    let tile := s.expandTile o w0 w1
    (∀ db fb u v, o.desc = [] → s.surface o w0 = .ok (db, u) → u.surface o w1 = .ok (fb, v) →
      let meet := surfacesMeet (surfaceOf db) (surfaceOf fb) (o.len / 256) = true
      (here ∨ ¬ meet → tile = .ok ({ o with desc := db ++ fb }, v)) ∧ (¬ here → meet → tile = .error (.bad eBadtex w1))) ∧
    (∀ db fb, o.desc = db ++ fb → db.length = 32 → fb.length = 32 →
      let d := surfaceOf db
      let f := surfaceOf fb
      let at_ := (f.mode + (f.t0 + k)) % 2 ^ 64
      (∀ mb u, o.buf = [] → s.engRead o 1 at_ 1 = .ok (mb, u) →
        (here → ofBytes mb = 0 → tile = .ok ({ o with pos := o.pos + 256 }, u)) ∧
        (¬ here ∨ ofBytes mb ≠ 0 → tile = .ok ({ o with buf := mb }, u))) ∧
      (∀ mb slot u, o.buf = [mb] →
        s.engRead o 1 ((f.data + 256 * (f.t0 + k)) % 2 ^ 64) (slotBytes mb.toNat) = .ok (slot, u) →
        (∀ raw, unpackTile f.clear mb.toNat slot = some raw → tile = .ok ({ o with buf := raw }, u)) ∧
        (unpackTile f.clear mb.toNat slot = none → tile = .error (.bad eBadtex at_))) ∧
      (∀ u, 1 < o.buf.length → s.engWrite o 1 ((d.data + 256 * (d.t0 + k)) % 2 ^ 64) o.buf = .ok u →
        tile = .ok ({ o with desc := o.desc ++ [0], buf := [] }, u))) ∧
    (∀ ds mode u, o.desc = ds ++ [mode] → ds.length = 64 →
      let d := surfaceOf (ds.take 32)
      s.engWrite o 1 ((d.mode + (d.t0 + k)) % 2 ^ 64) [mode] = .ok u → tile = .ok ({ o with pos := o.pos + 256, desc := ds }, u))) ∧
  (∀ clear raw, (∀ n, n < 64 → ofBytes ((raw.drop (4 * n)).take 4) = clear) → packTile clear raw = (1, [])) ∧
  (∀ clear slot, unpackTile clear 0 slot = some slot ∧
    unpackTile clear 1 slot = some ((List.range 64).flatMap (fun _ => toBytes 4 clear)) ∧
    ∀ mode, 10 ≤ mode → unpackTile clear mode slot = none) ∧
  (∀ s core q o w0 w1 opt, let n := q % 4
    s.headOp core n = some o → o.ready = true → (o.copyAsks = true → o.permit = true) → o.kind = .copy 4 w0 w1 opt → o.desc ≠ [] →
    let plan := ofBytes o.desc
    let u := s.putHead core n o
    (o.pos < planCount plan →
      (∀ o' v, u.haloLeaf core n o plan w1.toNat = .ok (o', v) → o'.pos < planCount plan →
        exec (.copyPerform core q 0) s = .next (v.putHead core n { o' with reqs := [], resp := [] })) ∧
      (∀ asks, u.haloLeaf core n o plan w1.toNat = .error (.ask asks) →
        exec (.copyPerform core q 0) s = .next (u.engAsk core n o asks)) ∧
      (∀ e a, u.haloLeaf core n o plan w1.toNat = .error (.bad e a) →
        (s.warp o.warp).phase = .running → (s.warp o.warp).entries ≠ [] → e ≠ eDiscarded →
        exec (.copyPerform core q 0) s = .next (u.engFail core n o false e a))) ∧
    (planCount plan ≤ o.pos → exec (.copyPerform core q 0) s =
      .next ((u.haloCounter core n o plan w1.toNat).putHead core n { o with performed := true }))) ∧
  (∀ (s : State) core q (o : EngOp) plan step ob u, let who := s.whoOfWarp o.warp
    let at_ := (field plan 192 64 + 8 * o.pos) % 2 ^ 64
    (at_ % 8 ≠ 0 → s.haloLeaf core q o plan step = .error (.bad eAlign at_)) ∧
    (at_ % 8 = 0 → s.ioRead who o.resp at_ 8 = .ok (ob, u) →
      (∀ i ∈ [0, 16, 32], field (ofBytes ob) i 16 < 16384) →
      (∀ v, hostAns o.resp 3 o.pos 0 = some (.ok v) → s.haloLeaf core q o plan step = .ok ({ o with pos := o.pos + 1 }, u)) ∧
      (∀ e, hostAns o.resp 3 o.pos 0 = some (.error e) → s.haloLeaf core q o plan step = .error (.bad e (field plan 320 64))) ∧
      (∀ vm xs v, hostAns o.resp 3 o.pos 0 = none →
        u.engTree o.resp (fun s => s.haloSource who (field plan 0 64)
          (leafOrigin (field (ofBytes ob) 0 16, field (ofBytes ob) 16 16, field (ofBytes ob) 32 16))) = .ok ((vm, xs), v) →
        (v.haloPeer core (v.ctxOfWarp o.warp) plan = none →
          s.haloLeaf core q o plan step = .error (.bad (.prot, 11) (field plan 64 64))) ∧
        (∀ p, v.haloPeer core (v.ctxOfWarp o.warp) plan = some p → s.haloLeaf core q o plan step = .error (.ask
          [⟨3, o.pos, 0, field plan 320 64, 0x1C4,
            [BitVec.ofNat 64 (field plan 128 64), BitVec.ofNat 64 (ofBytes ob), BitVec.ofNat 64 (field plan 320 64),
              BitVec.ofNat 64 (field plan 288 32 + o.pos), BitVec.ofNat 64 step],
            vm ++ xs, some (peerConn p core q, p.addr, p.die, p.ctx, p.akey, false)⟩]))))) ∧
  (∀ (s : State) core q (o : EngOp) plan step p, s.haloPeer core (s.ctxOfWarp o.warp) plan = some p → dieOf core < s.dies.length →
    let tx := fun (t : State) => ((t.die (dieOf core)).txOf (peerConn p core q) 0 p.addr).unacked.map
      (fun m => (m.kind, m.addr, m.opnds))
    tx (s.haloCounter core q o plan step) =
      tx s ++ [(0x0A, BitVec.ofNat 64 (field plan 320 64), [BitVec.ofNat 64 step])]) ∧
  (∀ s core q o red op pkg die ctx fence qn ls, let n := q % 4
    s.headOp core n = some o → o.ready = true → (o.copyAsks = true → o.permit = true) →
    o.kind = .rem red op pkg die ctx fence qn ls →
    let d := dieOf core
    ((∀ l ∈ ls, l.acked = true) → exec (.copyPerform core q 0) s = .next (s.putHead core n { o with performed := true })) ∧
    ((∃ l ∈ ls, l.acked = false) → (∀ l ∈ ls, l.acked = true ∨ l.sent ≠ none) → exec (.copyPerform core q 0) s = .next s) ∧
    ((∃ l ∈ ls, l.acked = false ∧ l.sent = none) →
      let peer := ((s.die d).ctx (s.ctxOfWarp o.warp)).peer pkg die ctx
      (peer = none → exec (.copyPerform core q 0) s = .next (s.engFail core n o false (.prot, 11) 0)) ∧
      (∀ p, peer = some p → let conn := peerConn p core qn
        (fence = true → (s.die d).otherClass conn 1 p.addr = true → exec (.copyPerform core q 0) s = .next s) ∧
        (fence = false ∨ (s.die d).otherClass conn 1 p.addr = false → d < s.dies.length →
          ∃ ls' u, exec (.copyPerform core q 0) s =
              .next (u.putHead core n { o with kind := .rem red op pkg die ctx fence qn ls' }) ∧
            ls'.map (fun l => (l.lane, l.addr, l.data, l.acked)) = ls.map (fun l => (l.lane, l.addr, l.data, l.acked)) ∧
            (∀ l ∈ ls', l.acked = true ∨ l.sent ≠ none) ∧
            let tx := fun (t : State) => ((t.die d).txOf conn 1 p.addr).unacked.map (fun m => (m.kind, m.addr, m.fence))
            tx u = tx s ++ (ls.filter (fun l => l.sent.isNone && !l.acked)).map
              (fun l => ((if red then 6 else 1 : BitVec 8), l.addr, fence)))))) ∧
  (∀ s die l, (s.die die).loader = some l → (s.die die).ingotLoad = false → s.ingotHeld die l = true →
    s.foreignBlock die l = false →
    exec (.ingotLoadState die) s = .next (s.setDie die { s.die die with ingotLoad := true })) ∧
  (∀ s die, let phase := s.calPhase die % Config.bankPeriod
    let passes := fun (i : Instr) (n : Nat) => ∃ t, exec i s = .next t ∧ t.clock = s.clock + n ∧ t.mem = s.mem ∧ t.dies = s.dies ∧
      t.cores = s.cores ∧ t.blocks = s.blocks ∧ t.launches = s.launches
    passes (.bankRefresh die) (Config.bankPeriod - phase) ∧
    passes (.bankRefreshEnd die) (if phase < Config.bankRefresh then Config.bankRefresh - phase else 0)) ∧
  (∀ s core q o w0 w1 m, s.headOp core (q % 4) = some o → o.kind = .copym w0 w1 m → o.stage = 1 →
    ((s.core core).queue (4 + dQ m.desc)).length < 16 →
    let u := s.putHead core (q % 4) { o with stage := 2, performed := true }
    let k := u.core core
    exec (.followOnMmaEntry core q) s = .next { (u.setCore core (k.setQueue (4 + dQ m.desc) (k.queue (4 + dQ m.desc) ++
      [{ o with id := s.seq, kind := .mat m, len := 0, pos := 0, stage := 0, desc := [], buf := [], permit := false,
                parent := some o.id, reqs := [], resp := [] }]))) with seq := u.seq + 1 }) ∧
  (∀ s core mq o m, let n := 4 + mq % 2
    s.headOp core n = some o → o.kind = .mat m → o.ready = true → (o.followAsks = true → o.permit = true) →
    let fails := fun (u : State) (g : Nat) (e : Err) (a : Nat) =>
      let v := u.engFail core n { o with pos := g } o.parent.isNone e a
      v.setWarp o.warp { v.warp o.warp with mprog := mprogOf g (mq % 2) m.op }
    (s.matWaits o m = true → exec (.matrixOperationPerform core mq) s = .next s) ∧
    (s.matWaits o m = false → m.isSta = false →
      (∀ u, s.matGroup o m o.pos = .ok u → exec (.matrixOperationPerform core mq) s = .next (u.putHead core n
        { o with pos := o.pos + 1, performed := decide (m.groups ≤ o.pos + 1), reqs := [], resp := [] })) ∧
      (∀ e a, s.matGroup o m o.pos = .error (.bad e a) →
        exec (.matrixOperationPerform core mq) s = .next (fails s o.pos e a))) ∧
    (s.matWaits o m = false → m.isSta = true → ∀ k bad asks, s.mstaReach o m (m.groups - o.pos) o.pos = (k, bad, asks) →
      (asks ≠ [] → exec (.matrixOperationPerform core mq) s = .next (s.engAsk core n { o with stage := 1 } asks)) ∧
      (∀ u, asks = [] → s.matGroups o m k o.pos = .ok u →
        (bad = none → exec (.matrixOperationPerform core mq) s =
          .next (u.putHead core n { o with pos := m.groups, performed := true, reqs := [], resp := [] })) ∧
        (∀ e a, bad = some (e, a) → exec (.matrixOperationPerform core mq) s = .next (fails u (o.pos + k) e a))))) ∧
  (∀ s core q o, s.headOp core (q % 6) = some o → o.performed = true →
    (s.core core).mq.any (fun l => l.any (fun p => p.parent = some o.id)) = false →
    exec (.engineOperationCompletion core q) s = .next (s.popHead core (q % 6))) ∧
  (∀ s core q o gather tile cnt seq abar grp, let n := q % 4
    s.headOp core n = some o → o.kind = .coll gather tile cnt seq abar grp → o.ready = true →
    (∀ u, o.stage = 0 → s.collStage o gather tile cnt seq grp.toNat = .ok u →
      exec (.collectiveRequest core q) s = .next (u.putHead core n
        { o with stage := 1, performed := decide ((u.block o.blk).resid = .gone), reqs := [], resp := [] })) ∧
    (∀ u, (o.stage = 1 ∨ o.stage = 3) → (s.block o.blk).resid = .resident → s.collResult o gather tile cnt seq abar grp.toNat = .ok (some u) →
      exec (.collectiveResultCopy core q) s =
        .next (u.putHead core n { o with stage := 2, performed := true, reqs := [], resp := [] }))) ∧
  (∀ cs ds : List (List Nat), cs.Perm ds → collBlock cs = collBlock ds) ∧
  collBlock [[0x4B800000], [0x3F800000], [0x3F800000]] = [0x4B800001] ∧
  (∀ s die leaf, let x := s.die die
    let j := (x.halos.find? (fun j => j.leaf = leaf)).getD (HaloJob.start leaf)
    let others := x.halos.filter (fun k => k.leaf ≠ leaf)
    let put := fun (t : State) (js : List HaloJob) => t.setDie die { t.die die with halos := js }
    let waits := answeredAll j.reqs j.resp = false ∨ (j.reqs = [] ∧ ∃ k ∈ others, k.reqs ≠ [])
    ((x.ctx leaf.ctx).enabled = false → ∃ port, (∀ m, leaf.reply = some m → port = m.inPort) ∧
      exec (.haloLeafDelivery die leaf) s = .next (((put s others).dropMsg die port).wake die)) ∧
    ((x.ctx leaf.ctx).enabled = true → waits → exec (.haloLeafDelivery die leaf) s = .next (put s (others ++ [j]))) ∧
    ((x.ctx leaf.ctx).enabled = true → ¬ waits →
      (∀ u, s.haloRun die { j with reqs := [] } 4096 = (none, u) →
        exec (.haloLeafDelivery die leaf) s = .next ((put u others).wake die)) ∧
      (∀ j' u, s.haloRun die { j with reqs := [] } 4096 = (some j', u) →
        exec (.haloLeafDelivery die leaf) s = .next (put u (others ++ [j']))))) ∧
  (∀ (s u : State) (die n : Nat) (j j' : HaloJob),
    (s.haloTurn die j = .ok (.done, u) → s.haloRun die j (n + 1) = (none, u.haloReply die j.leaf)) ∧
    (s.haloTurn die j = .ok (.hold j', u) → s.haloRun die j (n + 1) = (some j', u)) ∧
    (s.haloTurn die j = .ok (.on j', u) → s.haloRun die j (n + 1) = u.haloRun die j' n) ∧
    (∀ e a, s.haloTurn die j = .error (.bad e a) →
      s.haloRun die j (n + 1) = s.haloRun die { j with stage := 8, ins := none, resp := [] } n)) ∧
  (∀ (s u : State) (die : Nat) (j : HaloJob) (rb : List Byte), let who := whoFab s die j.leaf.ctx
    let rrec := j.leaf.rrec.toNat
    let v := ofBytes rb
    let half := fun (n : Nat) => field v 128 64 + n % 2 * haloBytes (field v 64 32)
    let goes := fun (t : State) (k : Nat) => s.haloTurn die j = .ok (.on { j with stage := k, resp := [] }, t)
    (s.ioRead who j.resp rrec 24 = .ok (rb, u) →
      (j.stage = 0 → (field v 0 63 + 2 < j.leaf.step → s.haloTurn die j = .ok (.hold { j with resp := [] }, u)) ∧
        (j.leaf.step ≤ field v 0 63 + 2 → goes u 1)) ∧
      (∀ o t, j.stage = 4 → let p := (half j.leaf.step + j.leaf.bit / 8) % 2 ^ 64
        let bit := 2 ^ (8 * (p % 4) + j.leaf.bit % 8)
        u.ioAtomic who j.resp (p / 4 * 4) 4 0 0x19B [BitVec.ofNat 64 bit] (fun x => x ||| bit) = .ok (o, t) → goes t 5) ∧
      (j.stage = 5 → (2 ^ 63 ≤ field v 0 64 ∨ field v 64 32 = 0 ∨ j.turns = 0 → s.haloTurn die j = .ok (.done, u)) ∧
        (field v 0 64 < 2 ^ 63 → field v 64 32 ≠ 0 → j.turns ≠ 0 → ∀ bits t, let p := half (field v 0 64 + 1) % 2 ^ 64
          u.ioRead who j.resp p (haloBytes (field v 64 32)) = .ok (bits, t) →
          s.haloTurn die j = .ok (if field (ofBytes bits) 0 (field v 64 32) = 2 ^ field v 64 32 - 1 then
            .on { j with stage := 6, ctr := field v 0 64, ptr := p, turns := j.turns - 1, resp := [] } else .done, t))) ∧
      (∀ t, j.stage = 6 → u.ioWrite who j.resp j.ptr (List.replicate (haloBytes (field v 64 32)) 0) = .ok t → goes t 7)) ∧
    (∀ t, j.stage = 3 → s.ioWrite who j.resp (ptrAdd j.ptr 64) j.leaf.vmask = .ok u →
      u.ioWrite who j.resp (ptrAdd j.ptr 256) j.leaf.vals = .ok t → goes t 4) ∧
    (j.stage = 7 → s.ioWrite who j.resp rrec (toBytes 8 (j.ctr + 1)) = .ok u → goes u 5) ∧
    (∀ o, j.stage = 8 → s.ioAtomic who j.resp (ptrAdd rrec 4) 4 0 0x19B [0x80000000] (fun x => x ||| 2 ^ 31) = .ok (o, u) →
      s.haloTurn die j = .ok (.done, u))) ∧
  (∀ s die j rest bs s1 s2 u, (s.die die).jobs = j :: rest → j.fin = none → j.kind < 2 → answeredAll j.reqs j.resp = true →
    s.ioRead (whoFab s die j.ctx) j.resp j.addr.toNat 64 = .ok (bs, s1) → field (ofBytes bs) 448 64 % 8 = 0 →
    s1.ksrt (whoFab s die j.ctx) j.resp (if j.kind = 1 then 8 else 4) (ofBytes bs) = .ok s2 →
    s2.ioWrite (whoFab s die j.ctx) [] (field (ofBytes bs) 448 64) (toBytes 8 1) = .ok u →
    exec (.riddleJobCompletion die) s = .next (u.setDie die { u.die die with jobs := (u.die die).jobs.drop 1 })) ∧
  (∀ s die j rest p st u, (s.die die).jobs = j :: rest → j.fin = some (p, st) → answeredAll j.reqs j.resp = true →
    s.ioWrite (whoFab s die j.ctx) j.resp p.toNat (toBytes 8 st.toNat) = .ok u →
    exec (.riddleJobCompletion die) s = .next (u.setDie die { u.die die with jobs := (u.die die).jobs.drop 1 })) ∧
  (∀ s die k x bin r, s.drawAt die k = some x → x.stopped = none → answeredAll x.reqs x.resp = true →
    s.suspended x.launch = false → (x.flushing = true ∨ x.prims.any (fun p => !p.binned) = false) →
    (x.prims.filter (fun p => p.binned)).flatMap (fun p => p.bins) = bin :: r →
    exec (.binRasterisation die k) s = .next (s.rasterBin die k x bin))

/-- R47, R152, R273 to R281, R290, R300 to R304, R331 to R335: the die's and the package's own steps: admission and completion
of launches; a kill and a machine check, which leave the launches killed with code 5 and, for the latter, a report to the
management plane and to the context's host; pre-emption, resumption and migration of blocks, keys, the power cap, boot, reset
and attestation. What a report and an image's signature cover (log entry 14), what a reset keeps and that a die which gets too
hot boots its own image again (log entries 14 and 56), that a cap outside its range changes nothing (log entry 61) and the
contents of the MCHK report (log entry 21) are the model's choices; what a request to stop, a save and a resumption leave of waits
and of the engines' work, and the order of resumption, are its inferences (DEDUCED, log entries 58 and 57). -/
def Obligations.DieAndPackageEventsHappen : Prop :=
  (∀ s die core q0 q l u, (s.die die).holdAdm = false → (s.die die).inReset = false →
    s.pick die [0, 1, 2, 3] = (.record q l, u) →
    exec (.admission die core q0) s = .next (u.serveHead die q l core (q0 % 4))) ∧
  (∀ s die core q0, (s.die die).holdAdm = true → exec (.admission die core q0) s = .next s) ∧
  (∀ s l x, s.launches[l]? = some x → s.launchEnded l x = true → answeredAll x.reqs x.resp = true →
    let asid := ((s.die x.die).ctx x.ctx).asid
    let u := s.cores.foldl (fun s c =>
      if dieOf c.1 = x.die then s.cleanLines c.1 (fun k => k.asid = asid && k.dirty ≠ 0) else s) s
    let tok := recBytes x.record 96 8
    let finished := fun (v : State) => ∃ t y, exec (.launchCompletion l) s = .next t ∧ t = v.finishLaunch l x ∧
      t.launches[l]? = some y ∧ y.phase = .done ∧ y.status = 1 ∧ ∀ b ∈ s.blocksOf l, (t.block b).resid = .gone
    (tok = 0 → finished u) ∧
    (∀ n v, tok ≠ 0 → u.ioAdd (whoFab u x.die x.ctx) x.resp tok 1 = .ok (n, v) → finished v)) ∧
  (∀ s d ctx l, s.liveLaunch d ctx l → ∃ t, exec (.killRequest l) s = .next t ∧ Killed s t l) ∧
  (∀ s b, (s.block b).resid = .resident → exec (.preEmptionRequest [b]) s =
    .next ((s.beginSave b).endLoad (s.block b).launch)) ∧
  (∀ s b, (s.block b).resid = .saving → s.saveDone b = true →
    ((s.launchOf b).phase ≠ .killed → exec (.preEmptionSaveComplete b) s = .next (s.endSave b)) ∧
    ((s.launchOf b).phase = .killed → exec (.preEmptionSaveComplete b) s = .next (s.endKill b))) ∧
  (∀ s b core q0 u v, let d := (s.launchOf b).die
    (s.block b).resid = .saved → dieOf core = d → (s.die d).inReset = false →
    s.pick d [0, 1, 2, 3] = (.resume (s.block b).launch, u) →
    (u.comrades b).any (fun c => (u.block c).resid = .saving) = false →
    u.resumeAll d core (q0 % 4) (b :: (u.comrades b).filter (fun c => c ≠ b && (u.block c).resid = .saved)) = some v →
    exec (.resumption b core q0) s = .next v) ∧
  (∀ s b core q0, (s.block b).resid = .resident → recFlag (s.recOf b) 5 = true → core ≠ (s.block b).core →
    dieOf core = dieOf (s.block b).core →
    (∀ c ∈ s.gangMates b, clusterOf (s.block c).core = clusterOf core ∧ (s.block c).core ≠ core) →
    (s.beginSave b).saveDone b = true →
    let u := (s.beginSave b).endSave b
    (u.roomOf core []).fits (u.blockNeed b) (q0 % 4) = true → u.reservesFree b core (q0 % 4) = true →
    exec (.blockMigration b core q0) s = .next (u.resumeBlock b core (q0 % 4))) ∧
  (∀ s d ctx, ∃ t, exec (.mchk d ctx) s = .next t ∧ (∀ l, s.liveLaunch d ctx l → Killed s t l) ∧
    Report.mchk d ctx ∈ t.sys.reports ∧
    (d < s.dies.length → ∃ c ∈ (t.die d).tx, c.peer = ((s.die d).ctx ctx).host ∧ c.conn = ((s.die d).ctx ctx).hconn ∧
      ∃ m ∈ c.unacked, m.kind = 0x0F ∧ m.ctx = BitVec.ofNat 6 ctx ∧ m.opnds = [BitVec.ofNat 64 (Cause.num .mchk)])) ∧
  (∀ s d, ∃ t, exec (.junctionOvertemperature d) s = .next t ∧
    t = (((((s.die d).ctxs.filter (fun c => c.2.enabled)).map Prod.fst).foldl (fun s c => s.mchk d c) s).rebootDie d) ∧
    (∀ ctx, ((s.die d).ctx ctx).enabled = true → Report.mchk d ctx ∈ t.sys.reports ∧ ∀ l, s.liveLaunch d ctx l → Killed s t l) ∧
    ∀ c, ((t.die d).ctx c).enabled = false) ∧
  (∀ s slot key, slot < 4096 → ∃ t, exec (.loadKey slot key) s = .next t ∧ t.keyMat slot = some key ∧
    (∀ k, k ≠ slot → t.keyMat k = s.keyMat k) ∧ t.mem = s.mem ∧ t.warps = s.warps) ∧
  (∀ s slot, ∃ t, exec (.clearKey slot) s = .next t ∧ t.keyMat slot = none ∧
    (∀ k, k ≠ slot → t.keyMat k = s.keyMat k) ∧ t.warps = s.warps) ∧
  (∀ s n, exec (.setPowerCap n) s = .next (if 1500 ≤ n ∧ n ≤ 3600 then { s with sys := { s.sys with powerCap := n } } else s)) ∧
  (∀ s d m, let u := s.clearDie d
    let good := sha3 m.pubkey = (s.die d).fuse ∧ Mldsa.verify m.pubkey (signedBytes m) m.signature = true ∧
      (s.die d).rollback ≤ m.version
    (good → d < s.dies.length → exec (.dieReset d m) s = .next
      (u.setDie d { u.die d with image := some m, inReset := false, fwVersion := m.version, meas := measure m.stages })) ∧
    (¬ good → d < s.dies.length → ∃ t, exec (.dieReset d m) s = .next t ∧ (t.die d).inReset = true) ∧
    ((∀ c ∈ (s.die d).ctxs, c.2.enabled = false) → exec (.firmwareLoad d m) s = exec (.dieReset d m) s) ∧
    ((∃ c ∈ (s.die d).ctxs, c.2.enabled = true) → exec (.firmwareLoad d m) s = .next s)) ∧
  (∀ s d nonce, exec (.attestationReport d nonce) s = .next { s with sys := { s.sys with reports := s.sys.reports ++
    [Report.attest d (s.die d).meas (s.die d).fwVersion nonce (Mldsa.sign (s.die d).identity
      ((s.die d).meas.flatMap digestBytes ++ toBytes 8 (s.die d).fwVersion ++ digestBytes nonce)
      (toBytes 32 (Config.signRandom s.freeCtr).toNat))] } }) ∧
  (∀ s d, exec (.holdAdmission d) s = .next (s.setDie d { s.die d with holdAdm := true }) ∧
    exec (.admissionHoldRelease d) s = .next (s.setDie d { s.die d with holdAdm := false })) ∧
  (∀ s d key, exec (.setSystemAccessKey d key) s = .next (s.setDie d { s.die d with sysKey := key }))

/-- R163, R237, R238, R271, R314 to R321, R385, R386: a request with a sound frame, header and access key that is next in its
connection's order is performed once and answered, after those that it must follow; one that comes again is answered again, one
that comes early is asked for later, and one that is not admitted is dropped and counted for its port. An answer whose target and access key are those of the
message that it answers releases it and reaches what waits for it; a sequence nack and a timeout send what is unacknowledged
again. The header of 40 bytes holds every field that R315 gives it. How atomic operations, payloads and requests to stop a
launch are laid out (DESIGN CHOICE, log entry 21), and that an answer repeats the target and access key of its message (DEDUCED,
log entries 24 and 61), are the model's. -/
def Obligations.MessagesArePerformedInOrder : Prop := ∀ (d : Nat) (m : Msg) (s : State),
  let ctx := m.ctx.toNat
  let r := (s.die d).rxOf m
  let next := m.psn = r.next ∧ (s.die d).mustWait m = false
  let taken := (s.die d).setRx { r with next := r.next + 1, high := if r.high = r.next then r.next + 1 else r.high }
  let u := s.setDie d taken
  let stored := fun (t : State) (q : Msg) =>
    let r := (t.die d).rxOf m
    t.setDie d ((t.die d).setRx { r with stored := (({ q with psn := m.psn } :: r.stored).take 256) })
  let counts := alSet (s.die d).dropped m.inPort ((alGet (s.die d).dropped m.inPort).getD 0 + 1)
  let dropped := s.setDie d { s.die d with dropped := counts }
  (m.plen < 65536 → Msg.withHeader (Msg.header m) m = m) ∧
  (∀ x ∈ [(Instr.write d m, 1), (.readRequest d m, 2), (.atomic d m, 4), (.reduce d m, 6), (.launch d m, 7),
      (.stepCounterUpdate d m, 10)],
    (s.die d).admits d x.2 m = false → exec x.1 s = .next dropped) ∧
  (atomicOp m.op m.opnds = none → exec (.atomic d m) s = .next dropped) ∧
  (redOp m.op (nth m.opnds 0 0).toNat = none → exec (.reduce d m) s = .next dropped) ∧
  (∀ x ∈ [(Instr.write d m, 1), (.readRequest d m, 2), (.launch d m, 7), (.stepCounterUpdate d m, 10)],
    (s.die d).admits d x.2 m = true → m.psn = r.next → (s.die d).mustWait m = true →
    exec x.1 s = .next (s.setDie d { taken with waiting := taken.waiting ++ [m] })) ∧
  (∀ q : Msg, q.conn = m.conn → q.src = m.src → q.cls = m.cls ∨ m.fence = true →
    q ∈ (s.die d).waiting ∨ (∃ j ∈ (s.die d).halos, j.leaf.reply = some q) → (s.die d).mustWait m = true) ∧
  (∀ x ∈ [(Instr.write d m, 1), (.readRequest d m, 2), (.launch d m, 7), (.stepCounterUpdate d m, 10)],
    (s.die d).admits d x.2 m = true → m.psn ≠ r.next →
    ((r.next - m.psn).toNat < 2 ^ 31 →
      (∀ q, r.stored.find? (fun q => q.psn = m.psn) = some q → exec x.1 s = .next (s.answer d m q)) ∧
      (r.stored.find? (fun q => q.psn = m.psn) = none →
        let open_ := (s.die d).unperformed m (fun q => q.psn = m.psn && q.cls = m.cls)
        (open_ = false → exec x.1 s = .next (s.answer d m (ackOf m))) ∧ (open_ = true → exec x.1 s = .next s))) ∧
    (2 ^ 31 ≤ (r.next - m.psn).toNat → ∃ h, exec x.1 s =
      .next ((s.setDie d ((s.die d).setRx { r with high := h })).answer d m (nackOf m (.illop, 0))))) ∧
  ((s.die d).admits d 1 m = true → next → m.op ≠ 1 → m.op ≠ 0x1C4 →
    (∀ t, u.netWrite d ctx m.addr.toNat (Msg.payload m) = .ok t → exec (.write d m) s = .next ((t.answer d m (ackOf m)).wake d)) ∧
    (∀ e, u.netWrite d ctx m.addr.toNat (Msg.payload m) = .error e →
      exec (.write d m) s = .next (((u.markNet d m e).answer d m (nackOf m e)).wake d))) ∧
  ((s.die d).admits d 1 m = true → next → m.op = 0x1C4 → exec (.write d m) s = exec (.haloLeafDelivery d (haloOf m)) u) ∧
  ((s.die d).admits d 2 m = true → next → ∀ bs t, u.netRead d ctx m.addr.toNat (min m.len 8192) = .ok (bs, t) →
    let q : Msg := { ackOf m with kind := 3, len := bs.length, data := bs }
    exec (.readRequest d m) s = .next (((stored t q).answer d m q).wake d)) ∧
  (∀ n f v t, atomicOp m.op m.opnds = some (n, f) → (s.die d).admits d 4 m = true → next →
    u.netAtomic d ctx m.addr.toNat n f = .ok (v, t) →
    let q : Msg := { ackOf m with kind := 5, len := n, data := toBytes n v }
    exec (.atomic d m) s = .next (((stored t q).answer d m q).wake d)) ∧
  (∀ n f v t, redOp m.op (nth m.opnds 0 0).toNat = some (n, f) → (s.die d).admits d 6 m = true → next →
    u.netAtomic d ctx m.addr.toNat n f = .ok (v, t) → exec (.reduce d m) s = .next ((t.answer d m (ackOf m)).wake d)) ∧
  ((s.die d).admits d 7 m = true → next →
    let rec_ : Vec := BitVec.ofNat 1024 (ofBytes (m.data.take 128))
    let st := u.acceptStatus d (fieldOf m.addr 0 6) ctx rec_
    let a : Msg := { ackOf m with kind := 8, status := BitVec.ofNat 16 st }
    (st ≠ 0 → exec (.launch d m) s = .next ((u.answer d m a).wake d)) ∧
    (st = 0 → exec (.launch d m) s = .next (((u.accept d (fieldOf m.addr 0 6) ctx rec_).answer d m
      { a with addr := BitVec.ofNat 64 (u.launches.length % 2 ^ 32) }).wake d))) ∧
  ((s.die d).admits d 10 m = true → next →
    exec (.stepCounterUpdate d m) s = exec (.haloLeafDelivery d
      { ctx := ctx, dtree := 0, lx := 0, ly := 0, lz := 0, vmask := [], vals := [], rrec := m.addr, bit := 0,
        step := (nth m.opnds 0 0).toNat, reply := some m }) u) ∧
  (∀ l, m.kind = 9 → (s.die d).admits d 9 m = true → next → nth m.opnds 0 0 = BitVec.ofNat 64 l → l < 2 ^ 64 →
    nth m.opnds 1 0 = 1 → s.liveLaunch d ctx l → Killed s (s.arrive d m) l) ∧
  (let sound := fun (k : Nat) => (s.die d).wellFormed d k { m with die := BitVec.ofNat 2 d } = true
   let named := fun (q : Msg) => (s.die d).answersFor m = some q ∧ q.ctx = m.ctx ∧ q.die = m.die ∧ q.akey = m.akey
   (∀ x ∈ [(Instr.readResponse d m, 3), (.atomicResponse d m, 5), (.ack d m, 13), (.nack d m, 14)],
     (¬ sound x.2 → exec x.1 s = .next dropped) ∧
     (∀ q, sound x.2 → (s.die d).answersFor m = some q → ¬ named q → exec x.1 s = .next dropped) ∧
     (sound x.2 → (s.die d).answersFor m = none → exec x.1 s = .next s)) ∧
   (∀ x ∈ [(Instr.readResponse d m, 3, BitVec.ofNat 128 (ofBytes ((Msg.payload m).take 16))),
       (.atomicResponse d m, 5, BitVec.ofNat 128 (ofBytes (m.data.take 16))), (.ack d m, 13, 0)],
     ∀ q, sound x.2.1 → named q →
     exec x.1 s = .next (if m.cls = 1 then (s.release d m).hear d m x.2.2 none else s.release d m)) ∧
   (∀ q, sound 14 → named q →
     (fieldOf m.status 0 4 = 0 → exec (.nack d m) s = .next
       (s.resend d (fun t => t.conn = m.conn && t.cls = m.cls && t.peer = m.src) (fun _ => true))) ∧
     (fieldOf m.status 0 4 ≠ 0 → m.cls = 1 → exec (.nack d m) s = .next
       ((s.release d m).hear d m 0 (some (fieldOf m.status 0 4, fieldOf m.status 8 4)))))) ∧
  (∀ conn cls, exec (.retransmitTimeout d conn cls) s =
    .next (s.resend d (fun t => t.conn = conn && t.cls = cls) (fun _ => true)))

/-- R151, R187, R272, R275, R280, R319, R327 to R330: a command with the die's system access key that is next in its connection's
order is carried out and acknowledged, or answered by a nack where it cannot be; one that must wait for accesses, answers or
earlier messages is presented again; one that has been carried out is only acknowledged again; one with another key is dropped and counted for its
port. A disabled context has no launch left. That a refusal is a nack of PROT 1, and that a command which waits takes no turn,
are the model's (DEDUCED, log entry 61). -/
def Obligations.CommandsNeedTheSystemAccessKey : Prop := ∀ (c : Cmd) (s : State) (ctx queue seg idx : Nat) (st : CtxSet)
    (p : PeerEntry) (tag start len : DWord),
  let d := c.die
  let m := Cmd.msg c
  let r := (s.die d).rxOf m
  let u := s.setDie d ((s.die d).setRx { r with next := r.next + 1, high := if r.high = r.next then r.next + 1 else r.high })
  let done := fun (t : State) => (t.answer d m (ackOf m)).wake d
  let refused := (u.answer d m (nackOf m ePerm)).wake d
  let cx := (u.die d).ctx ctx
  let counts := alSet (s.die d).dropped c.inPort ((alGet (s.die d).dropped c.inPort).getD 0 + 1)
  let all := [Instr.setState c st, .enable c ctx, .disable c ctx, .assignQueue c ctx queue, .grantIngotSegment c ctx seg,
    .writePeerEntry c ctx idx p, .clearPeerEntry c ctx idx, .removeHeldRecord c ctx tag, .readErrorLog c,
    .invalidateTranslations c ctx start len]
  (c.key ≠ (s.die d).sysKey → ∀ i ∈ all, exec i s = .next (s.setDie d { s.die d with dropped := counts })) ∧
  (c.key = (s.die d).sysKey → (s.die d).inReset = false → c.psn ≠ r.next → (r.next - c.psn).toNat < 2 ^ 31 →
    r.stored = [] → (s.die d).unperformed m (fun q => q.psn = m.psn && q.cls = m.cls) = false →
    ∀ i ∈ all, exec i s = .next (s.answer d m (ackOf m))) ∧
  (c.key = (s.die d).sysKey → (s.die d).inReset = false → c.psn = r.next → (s.die d).mustWait m = true →
    ∀ i ∈ all, exec i s = .next s) ∧
  (c.key = (s.die d).sysKey → (s.die d).inReset = false → c.psn = r.next → (s.die d).mustWait m = false →
    exec (.setState c st) s = .next (if st.ctx < 64 then done (u.setCtx d st.ctx { (u.die d).ctx st.ctx with
      asid := st.asid, root := st.root, rootkey := st.rootkey, akey := st.akey, host := st.host, hconn := st.hconn,
      save := st.save }) else refused) ∧
    exec (.enable c ctx) s = .next (if ctx < 64 then done (u.setCtx d ctx { cx with enabled := true }) else refused) ∧
    (ctx < 64 → ∃ t, exec (.disable c ctx) s = .next t ∧ ((t.die d).ctx ctx).enabled = false ∧
      ∀ l, s.liveLaunch d ctx l → Killed s t l) ∧
    exec (.assignQueue c ctx queue) s = .next (if ctx < 64 ∧ queue < 64 then
      done (u.setDie d { u.die d with qctx := alSet (u.die d).qctx queue ctx }) else refused) ∧
    exec (.grantIngotSegment c ctx seg) s = .next (if ctx < 64 ∧ seg < 256 then
      done (u.setCtx d ctx { cx with ingot := if cx.ingot.contains seg then cx.ingot else seg :: cx.ingot }) else refused) ∧
    (let twice := p.valid = true ∧ ∃ q ∈ cx.peers, q.1 ≠ idx ∧ q.2.valid = true ∧ q.2.pkg = p.pkg ∧ q.2.die = p.die ∧ q.2.ctx = p.ctx
     (ctx < 64 → idx < 256 → p.res0 = false → ¬ twice →
       exec (.writePeerEntry c ctx idx p) s = .next (done (u.setCtx d ctx { cx with peers := alSet cx.peers idx p }))) ∧
     (64 ≤ ctx ∨ 256 ≤ idx ∨ p.res0 = true ∨ twice → exec (.writePeerEntry c ctx idx p) s = .next refused)) ∧
    (∀ q, ctx < 64 → idx < 256 → alGet cx.peers idx = some q →
      (q.valid = true → (s.die d).peerBusy q = true → exec (.clearPeerEntry c ctx idx) s = .next s) ∧
      ((q.valid = false ∨ (s.die d).peerBusy q = false) → exec (.clearPeerEntry c ctx idx) s =
        .next (done (u.setCtx d ctx { cx with peers := alErase cx.peers idx })))) ∧
    (∀ v, u.removeHeld d ctx tag = some v → exec (.removeHeldRecord c ctx tag) s = .next (done v)) ∧
    (u.removeHeld d ctx tag = none → exec (.removeHeldRecord c ctx tag) s = .next refused) ∧
    exec (.readErrorLog c) s = .next
      (done { u with sys := { u.sys with reports := u.sys.reports ++ [Report.errLog d (s.die d).errLog] } }) ∧
    (let ok := fieldOf start 0 12 = 0 ∧ fieldOf len 0 12 = 0 ∧ fieldOf start 57 3 = 0
     let lo := if len = 0 then 0 else fieldOf start 0 57
     let hi := if len = 0 then 2 ^ 57 else min (fieldOf start 0 57 + len.toNat) (2 ^ 57)
     let begun := (s.die d).cmdWaits.find? (fun x => x.1 = (c.src, c.conn, c.psn))
     (64 ≤ ctx ∨ ¬ ok → exec (.invalidateTranslations c ctx start len) s = .next refused) ∧
     (ctx < 64 → ok → begun = none → ∃ t, exec (.invalidateTranslations c ctx start len) s = .next t ∧
       (∀ k e, e ∈ (t.cluster k).tlb → e.asid = cx.asid → ¬ (e.base < hi ∧ lo < e.base + 2 ^ e.size)) ∧
       t.blocks = s.blocks ∧ t.launches = s.launches)))
end

