-- ==== Sys2Proof/Laws/State.lean ====
section
/-! SUPPORT. What each update of the state leaves as it was, field by field, and what it gives where it writes. -/

namespace Sys2Proof.Machine

open Sys2Proof

@[simp] theorem State.setWarp_mem (s : State) (w : Nat) (x : Warp) : (s.setWarp w x).mem = s.mem := rfl
@[simp] theorem State.setWarp_lineKeys (s : State) (w : Nat) (x : Warp) : (s.setWarp w x).lineKeys = s.lineKeys := rfl
@[simp] theorem State.setWarp_tags (s : State) (w : Nat) (x : Warp) : (s.setWarp w x).tags = s.tags := rfl
@[simp] theorem State.setWarp_keySlots (s : State) (w : Nat) (x : Warp) : (s.setWarp w x).keySlots = s.keySlots := rfl
@[simp] theorem State.setWarp_sys (s : State) (w : Nat) (x : Warp) : (s.setWarp w x).sys = s.sys := rfl
@[simp] theorem State.setWarp_dies (s : State) (w : Nat) (x : Warp) : (s.setWarp w x).dies = s.dies := rfl
@[simp] theorem State.setWarp_clusters (s : State) (w : Nat) (x : Warp) : (s.setWarp w x).clusters = s.clusters := rfl
@[simp] theorem State.setWarp_cores (s : State) (w : Nat) (x : Warp) : (s.setWarp w x).cores = s.cores := rfl
@[simp] theorem State.setWarp_quarters (s : State) (w : Nat) (x : Warp) : (s.setWarp w x).quarters = s.quarters := rfl
@[simp] theorem State.setWarp_launches (s : State) (w : Nat) (x : Warp) : (s.setWarp w x).launches = s.launches := rfl
@[simp] theorem State.setWarp_blocks (s : State) (w : Nat) (x : Warp) : (s.setWarp w x).blocks = s.blocks := rfl
@[simp] theorem State.setWarp_agenda (s : State) (w : Nat) (x : Warp) : (s.setWarp w x).agenda = s.agenda := rfl
@[simp] theorem State.setWarp_issue (s : State) (w : Nat) (x : Warp) : (s.setWarp w x).issue = s.issue := rfl
@[simp] theorem State.setWarp_clock (s : State) (w : Nat) (x : Warp) : (s.setWarp w x).clock = s.clock := rfl
@[simp] theorem State.setWarp_freeCtr (s : State) (w : Nat) (x : Warp) : (s.setWarp w x).freeCtr = s.freeCtr := rfl
@[simp] theorem State.setWarp_seq (s : State) (w : Nat) (x : Warp) : (s.setWarp w x).seq = s.seq := rfl

@[simp] theorem State.setBlock_mem (s : State) (b : Nat) (x : Block) : (s.setBlock b x).mem = s.mem := rfl
@[simp] theorem State.setBlock_lineKeys (s : State) (b : Nat) (x : Block) : (s.setBlock b x).lineKeys = s.lineKeys := rfl
@[simp] theorem State.setBlock_tags (s : State) (b : Nat) (x : Block) : (s.setBlock b x).tags = s.tags := rfl
@[simp] theorem State.setBlock_keySlots (s : State) (b : Nat) (x : Block) : (s.setBlock b x).keySlots = s.keySlots := rfl
@[simp] theorem State.setBlock_sys (s : State) (b : Nat) (x : Block) : (s.setBlock b x).sys = s.sys := rfl
@[simp] theorem State.setBlock_dies (s : State) (b : Nat) (x : Block) : (s.setBlock b x).dies = s.dies := rfl
@[simp] theorem State.setBlock_clusters (s : State) (b : Nat) (x : Block) : (s.setBlock b x).clusters = s.clusters := rfl
@[simp] theorem State.setBlock_cores (s : State) (b : Nat) (x : Block) : (s.setBlock b x).cores = s.cores := rfl
@[simp] theorem State.setBlock_quarters (s : State) (b : Nat) (x : Block) : (s.setBlock b x).quarters = s.quarters := rfl
@[simp] theorem State.setBlock_launches (s : State) (b : Nat) (x : Block) : (s.setBlock b x).launches = s.launches := rfl
@[simp] theorem State.setBlock_warps (s : State) (b : Nat) (x : Block) : (s.setBlock b x).warps = s.warps := rfl
@[simp] theorem State.setBlock_agenda (s : State) (b : Nat) (x : Block) : (s.setBlock b x).agenda = s.agenda := rfl
@[simp] theorem State.setBlock_issue (s : State) (b : Nat) (x : Block) : (s.setBlock b x).issue = s.issue := rfl
@[simp] theorem State.setBlock_clock (s : State) (b : Nat) (x : Block) : (s.setBlock b x).clock = s.clock := rfl
@[simp] theorem State.setBlock_freeCtr (s : State) (b : Nat) (x : Block) : (s.setBlock b x).freeCtr = s.freeCtr := rfl
@[simp] theorem State.setBlock_seq (s : State) (b : Nat) (x : Block) : (s.setBlock b x).seq = s.seq := rfl

@[simp] theorem State.setDie_mem (s : State) (d : Nat) (x : Die) : (s.setDie d x).mem = s.mem := rfl
@[simp] theorem State.setDie_lineKeys (s : State) (d : Nat) (x : Die) : (s.setDie d x).lineKeys = s.lineKeys := rfl
@[simp] theorem State.setDie_tags (s : State) (d : Nat) (x : Die) : (s.setDie d x).tags = s.tags := rfl
@[simp] theorem State.setDie_keySlots (s : State) (d : Nat) (x : Die) : (s.setDie d x).keySlots = s.keySlots := rfl
@[simp] theorem State.setDie_sys (s : State) (d : Nat) (x : Die) : (s.setDie d x).sys = s.sys := rfl
@[simp] theorem State.setDie_clusters (s : State) (d : Nat) (x : Die) : (s.setDie d x).clusters = s.clusters := rfl
@[simp] theorem State.setDie_cores (s : State) (d : Nat) (x : Die) : (s.setDie d x).cores = s.cores := rfl
@[simp] theorem State.setDie_quarters (s : State) (d : Nat) (x : Die) : (s.setDie d x).quarters = s.quarters := rfl
@[simp] theorem State.setDie_launches (s : State) (d : Nat) (x : Die) : (s.setDie d x).launches = s.launches := rfl
@[simp] theorem State.setDie_blocks (s : State) (d : Nat) (x : Die) : (s.setDie d x).blocks = s.blocks := rfl
@[simp] theorem State.setDie_warps (s : State) (d : Nat) (x : Die) : (s.setDie d x).warps = s.warps := rfl
@[simp] theorem State.setDie_agenda (s : State) (d : Nat) (x : Die) : (s.setDie d x).agenda = s.agenda := rfl
@[simp] theorem State.setDie_issue (s : State) (d : Nat) (x : Die) : (s.setDie d x).issue = s.issue := rfl
@[simp] theorem State.setDie_clock (s : State) (d : Nat) (x : Die) : (s.setDie d x).clock = s.clock := rfl
@[simp] theorem State.setDie_freeCtr (s : State) (d : Nat) (x : Die) : (s.setDie d x).freeCtr = s.freeCtr := rfl
@[simp] theorem State.setDie_seq (s : State) (d : Nat) (x : Die) : (s.setDie d x).seq = s.seq := rfl

@[simp] theorem State.setCore_mem (s : State) (c : Nat) (x : Core) : (s.setCore c x).mem = s.mem := rfl
@[simp] theorem State.setCore_lineKeys (s : State) (c : Nat) (x : Core) : (s.setCore c x).lineKeys = s.lineKeys := rfl
@[simp] theorem State.setCore_tags (s : State) (c : Nat) (x : Core) : (s.setCore c x).tags = s.tags := rfl
@[simp] theorem State.setCore_keySlots (s : State) (c : Nat) (x : Core) : (s.setCore c x).keySlots = s.keySlots := rfl
@[simp] theorem State.setCore_sys (s : State) (c : Nat) (x : Core) : (s.setCore c x).sys = s.sys := rfl
@[simp] theorem State.setCore_dies (s : State) (c : Nat) (x : Core) : (s.setCore c x).dies = s.dies := rfl
@[simp] theorem State.setCore_clusters (s : State) (c : Nat) (x : Core) : (s.setCore c x).clusters = s.clusters := rfl
@[simp] theorem State.setCore_quarters (s : State) (c : Nat) (x : Core) : (s.setCore c x).quarters = s.quarters := rfl
@[simp] theorem State.setCore_launches (s : State) (c : Nat) (x : Core) : (s.setCore c x).launches = s.launches := rfl
@[simp] theorem State.setCore_blocks (s : State) (c : Nat) (x : Core) : (s.setCore c x).blocks = s.blocks := rfl
@[simp] theorem State.setCore_warps (s : State) (c : Nat) (x : Core) : (s.setCore c x).warps = s.warps := rfl
@[simp] theorem State.setCore_agenda (s : State) (c : Nat) (x : Core) : (s.setCore c x).agenda = s.agenda := rfl
@[simp] theorem State.setCore_issue (s : State) (c : Nat) (x : Core) : (s.setCore c x).issue = s.issue := rfl
@[simp] theorem State.setCore_clock (s : State) (c : Nat) (x : Core) : (s.setCore c x).clock = s.clock := rfl
@[simp] theorem State.setCore_freeCtr (s : State) (c : Nat) (x : Core) : (s.setCore c x).freeCtr = s.freeCtr := rfl
@[simp] theorem State.setCore_seq (s : State) (c : Nat) (x : Core) : (s.setCore c x).seq = s.seq := rfl

@[simp] theorem State.setCluster_mem (s : State) (c : Nat) (x : Cluster) : (s.setCluster c x).mem = s.mem := rfl
@[simp] theorem State.setCluster_lineKeys (s : State) (c : Nat) (x : Cluster) : (s.setCluster c x).lineKeys = s.lineKeys := rfl
@[simp] theorem State.setCluster_tags (s : State) (c : Nat) (x : Cluster) : (s.setCluster c x).tags = s.tags := rfl
@[simp] theorem State.setCluster_keySlots (s : State) (c : Nat) (x : Cluster) : (s.setCluster c x).keySlots = s.keySlots := rfl
@[simp] theorem State.setCluster_sys (s : State) (c : Nat) (x : Cluster) : (s.setCluster c x).sys = s.sys := rfl
@[simp] theorem State.setCluster_dies (s : State) (c : Nat) (x : Cluster) : (s.setCluster c x).dies = s.dies := rfl
@[simp] theorem State.setCluster_cores (s : State) (c : Nat) (x : Cluster) : (s.setCluster c x).cores = s.cores := rfl
@[simp] theorem State.setCluster_quarters (s : State) (c : Nat) (x : Cluster) : (s.setCluster c x).quarters = s.quarters := rfl
@[simp] theorem State.setCluster_launches (s : State) (c : Nat) (x : Cluster) : (s.setCluster c x).launches = s.launches := rfl
@[simp] theorem State.setCluster_blocks (s : State) (c : Nat) (x : Cluster) : (s.setCluster c x).blocks = s.blocks := rfl
@[simp] theorem State.setCluster_warps (s : State) (c : Nat) (x : Cluster) : (s.setCluster c x).warps = s.warps := rfl
@[simp] theorem State.setCluster_agenda (s : State) (c : Nat) (x : Cluster) : (s.setCluster c x).agenda = s.agenda := rfl
@[simp] theorem State.setCluster_issue (s : State) (c : Nat) (x : Cluster) : (s.setCluster c x).issue = s.issue := rfl
@[simp] theorem State.setCluster_clock (s : State) (c : Nat) (x : Cluster) : (s.setCluster c x).clock = s.clock := rfl
@[simp] theorem State.setCluster_freeCtr (s : State) (c : Nat) (x : Cluster) : (s.setCluster c x).freeCtr = s.freeCtr := rfl
@[simp] theorem State.setCluster_seq (s : State) (c : Nat) (x : Cluster) : (s.setCluster c x).seq = s.seq := rfl

@[simp] theorem State.setQuarter_mem (s : State) (q : Nat) (x : Quarter) : (s.setQuarter q x).mem = s.mem := rfl
@[simp] theorem State.setQuarter_lineKeys (s : State) (q : Nat) (x : Quarter) : (s.setQuarter q x).lineKeys = s.lineKeys := rfl
@[simp] theorem State.setQuarter_tags (s : State) (q : Nat) (x : Quarter) : (s.setQuarter q x).tags = s.tags := rfl
@[simp] theorem State.setQuarter_keySlots (s : State) (q : Nat) (x : Quarter) : (s.setQuarter q x).keySlots = s.keySlots := rfl
@[simp] theorem State.setQuarter_sys (s : State) (q : Nat) (x : Quarter) : (s.setQuarter q x).sys = s.sys := rfl
@[simp] theorem State.setQuarter_dies (s : State) (q : Nat) (x : Quarter) : (s.setQuarter q x).dies = s.dies := rfl
@[simp] theorem State.setQuarter_clusters (s : State) (q : Nat) (x : Quarter) : (s.setQuarter q x).clusters = s.clusters := rfl
@[simp] theorem State.setQuarter_cores (s : State) (q : Nat) (x : Quarter) : (s.setQuarter q x).cores = s.cores := rfl
@[simp] theorem State.setQuarter_launches (s : State) (q : Nat) (x : Quarter) : (s.setQuarter q x).launches = s.launches := rfl
@[simp] theorem State.setQuarter_blocks (s : State) (q : Nat) (x : Quarter) : (s.setQuarter q x).blocks = s.blocks := rfl
@[simp] theorem State.setQuarter_warps (s : State) (q : Nat) (x : Quarter) : (s.setQuarter q x).warps = s.warps := rfl
@[simp] theorem State.setQuarter_agenda (s : State) (q : Nat) (x : Quarter) : (s.setQuarter q x).agenda = s.agenda := rfl
@[simp] theorem State.setQuarter_issue (s : State) (q : Nat) (x : Quarter) : (s.setQuarter q x).issue = s.issue := rfl
@[simp] theorem State.setQuarter_clock (s : State) (q : Nat) (x : Quarter) : (s.setQuarter q x).clock = s.clock := rfl
@[simp] theorem State.setQuarter_freeCtr (s : State) (q : Nat) (x : Quarter) : (s.setQuarter q x).freeCtr = s.freeCtr := rfl
@[simp] theorem State.setQuarter_seq (s : State) (q : Nat) (x : Quarter) : (s.setQuarter q x).seq = s.seq := rfl

@[simp] theorem State.setLaunch_mem (s : State) (l : Nat) (x : Launch) : (s.setLaunch l x).mem = s.mem := rfl
@[simp] theorem State.setLaunch_lineKeys (s : State) (l : Nat) (x : Launch) : (s.setLaunch l x).lineKeys = s.lineKeys := rfl
@[simp] theorem State.setLaunch_tags (s : State) (l : Nat) (x : Launch) : (s.setLaunch l x).tags = s.tags := rfl
@[simp] theorem State.setLaunch_keySlots (s : State) (l : Nat) (x : Launch) : (s.setLaunch l x).keySlots = s.keySlots := rfl
@[simp] theorem State.setLaunch_sys (s : State) (l : Nat) (x : Launch) : (s.setLaunch l x).sys = s.sys := rfl
@[simp] theorem State.setLaunch_dies (s : State) (l : Nat) (x : Launch) : (s.setLaunch l x).dies = s.dies := rfl
@[simp] theorem State.setLaunch_clusters (s : State) (l : Nat) (x : Launch) : (s.setLaunch l x).clusters = s.clusters := rfl
@[simp] theorem State.setLaunch_cores (s : State) (l : Nat) (x : Launch) : (s.setLaunch l x).cores = s.cores := rfl
@[simp] theorem State.setLaunch_quarters (s : State) (l : Nat) (x : Launch) : (s.setLaunch l x).quarters = s.quarters := rfl
@[simp] theorem State.setLaunch_blocks (s : State) (l : Nat) (x : Launch) : (s.setLaunch l x).blocks = s.blocks := rfl
@[simp] theorem State.setLaunch_warps (s : State) (l : Nat) (x : Launch) : (s.setLaunch l x).warps = s.warps := rfl
@[simp] theorem State.setLaunch_agenda (s : State) (l : Nat) (x : Launch) : (s.setLaunch l x).agenda = s.agenda := rfl
@[simp] theorem State.setLaunch_issue (s : State) (l : Nat) (x : Launch) : (s.setLaunch l x).issue = s.issue := rfl
@[simp] theorem State.setLaunch_clock (s : State) (l : Nat) (x : Launch) : (s.setLaunch l x).clock = s.clock := rfl
@[simp] theorem State.setLaunch_freeCtr (s : State) (l : Nat) (x : Launch) : (s.setLaunch l x).freeCtr = s.freeCtr := rfl
@[simp] theorem State.setLaunch_seq (s : State) (l : Nat) (x : Launch) : (s.setLaunch l x).seq = s.seq := rfl

@[simp] theorem State.putW_mem (s : State) (x : Warp) : (s.putW x).mem = s.mem := rfl
@[simp] theorem State.putW_lineKeys (s : State) (x : Warp) : (s.putW x).lineKeys = s.lineKeys := rfl
@[simp] theorem State.putW_tags (s : State) (x : Warp) : (s.putW x).tags = s.tags := rfl
@[simp] theorem State.putW_keySlots (s : State) (x : Warp) : (s.putW x).keySlots = s.keySlots := rfl
@[simp] theorem State.putW_sys (s : State) (x : Warp) : (s.putW x).sys = s.sys := rfl
@[simp] theorem State.putW_dies (s : State) (x : Warp) : (s.putW x).dies = s.dies := rfl
@[simp] theorem State.putW_clusters (s : State) (x : Warp) : (s.putW x).clusters = s.clusters := rfl
@[simp] theorem State.putW_cores (s : State) (x : Warp) : (s.putW x).cores = s.cores := rfl
@[simp] theorem State.putW_quarters (s : State) (x : Warp) : (s.putW x).quarters = s.quarters := rfl
@[simp] theorem State.putW_launches (s : State) (x : Warp) : (s.putW x).launches = s.launches := rfl
@[simp] theorem State.putW_blocks (s : State) (x : Warp) : (s.putW x).blocks = s.blocks := rfl
@[simp] theorem State.putW_agenda (s : State) (x : Warp) : (s.putW x).agenda = s.agenda := rfl
@[simp] theorem State.putW_issue (s : State) (x : Warp) : (s.putW x).issue = s.issue := rfl
@[simp] theorem State.putW_clock (s : State) (x : Warp) : (s.putW x).clock = s.clock := rfl
@[simp] theorem State.putW_freeCtr (s : State) (x : Warp) : (s.putW x).freeCtr = s.freeCtr := rfl
@[simp] theorem State.putW_seq (s : State) (x : Warp) : (s.putW x).seq = s.seq := rfl

@[simp] theorem State.putS_mem (s : State) (t : Strand) : (s.putS t).mem = s.mem := rfl
@[simp] theorem State.putS_lineKeys (s : State) (t : Strand) : (s.putS t).lineKeys = s.lineKeys := rfl
@[simp] theorem State.putS_tags (s : State) (t : Strand) : (s.putS t).tags = s.tags := rfl
@[simp] theorem State.putS_keySlots (s : State) (t : Strand) : (s.putS t).keySlots = s.keySlots := rfl
@[simp] theorem State.putS_sys (s : State) (t : Strand) : (s.putS t).sys = s.sys := rfl
@[simp] theorem State.putS_dies (s : State) (t : Strand) : (s.putS t).dies = s.dies := rfl
@[simp] theorem State.putS_clusters (s : State) (t : Strand) : (s.putS t).clusters = s.clusters := rfl
@[simp] theorem State.putS_cores (s : State) (t : Strand) : (s.putS t).cores = s.cores := rfl
@[simp] theorem State.putS_quarters (s : State) (t : Strand) : (s.putS t).quarters = s.quarters := rfl
@[simp] theorem State.putS_launches (s : State) (t : Strand) : (s.putS t).launches = s.launches := rfl
@[simp] theorem State.putS_blocks (s : State) (t : Strand) : (s.putS t).blocks = s.blocks := rfl
@[simp] theorem State.putS_agenda (s : State) (t : Strand) : (s.putS t).agenda = s.agenda := rfl
@[simp] theorem State.putS_issue (s : State) (t : Strand) : (s.putS t).issue = s.issue := rfl
@[simp] theorem State.putS_clock (s : State) (t : Strand) : (s.putS t).clock = s.clock := rfl
@[simp] theorem State.putS_freeCtr (s : State) (t : Strand) : (s.putS t).freeCtr = s.freeCtr := rfl
@[simp] theorem State.putS_seq (s : State) (t : Strand) : (s.putS t).seq = s.seq := rfl

@[simp] theorem State.wrK_mem (s : State) (n : Nat) (v : Mask) : (s.wrK n v).mem = s.mem := rfl
@[simp] theorem State.wrK_lineKeys (s : State) (n : Nat) (v : Mask) : (s.wrK n v).lineKeys = s.lineKeys := rfl
@[simp] theorem State.wrK_tags (s : State) (n : Nat) (v : Mask) : (s.wrK n v).tags = s.tags := rfl
@[simp] theorem State.wrK_keySlots (s : State) (n : Nat) (v : Mask) : (s.wrK n v).keySlots = s.keySlots := rfl
@[simp] theorem State.wrK_sys (s : State) (n : Nat) (v : Mask) : (s.wrK n v).sys = s.sys := rfl
@[simp] theorem State.wrK_dies (s : State) (n : Nat) (v : Mask) : (s.wrK n v).dies = s.dies := rfl
@[simp] theorem State.wrK_clusters (s : State) (n : Nat) (v : Mask) : (s.wrK n v).clusters = s.clusters := rfl
@[simp] theorem State.wrK_cores (s : State) (n : Nat) (v : Mask) : (s.wrK n v).cores = s.cores := rfl
@[simp] theorem State.wrK_quarters (s : State) (n : Nat) (v : Mask) : (s.wrK n v).quarters = s.quarters := rfl
@[simp] theorem State.wrK_launches (s : State) (n : Nat) (v : Mask) : (s.wrK n v).launches = s.launches := rfl
@[simp] theorem State.wrK_blocks (s : State) (n : Nat) (v : Mask) : (s.wrK n v).blocks = s.blocks := rfl
@[simp] theorem State.wrK_agenda (s : State) (n : Nat) (v : Mask) : (s.wrK n v).agenda = s.agenda := rfl
@[simp] theorem State.wrK_issue (s : State) (n : Nat) (v : Mask) : (s.wrK n v).issue = s.issue := rfl
@[simp] theorem State.wrK_clock (s : State) (n : Nat) (v : Mask) : (s.wrK n v).clock = s.clock := rfl
@[simp] theorem State.wrK_freeCtr (s : State) (n : Nat) (v : Mask) : (s.wrK n v).freeCtr = s.freeCtr := rfl
@[simp] theorem State.wrK_seq (s : State) (n : Nat) (v : Mask) : (s.wrK n v).seq = s.seq := rfl

@[simp] theorem State.atInstr_mem (s : State) (i : Instr) : (s.atInstr i).mem = s.mem := rfl
@[simp] theorem State.atInstr_lineKeys (s : State) (i : Instr) : (s.atInstr i).lineKeys = s.lineKeys := rfl
@[simp] theorem State.atInstr_tags (s : State) (i : Instr) : (s.atInstr i).tags = s.tags := rfl
@[simp] theorem State.atInstr_keySlots (s : State) (i : Instr) : (s.atInstr i).keySlots = s.keySlots := rfl
@[simp] theorem State.atInstr_sys (s : State) (i : Instr) : (s.atInstr i).sys = s.sys := rfl
@[simp] theorem State.atInstr_dies (s : State) (i : Instr) : (s.atInstr i).dies = s.dies := rfl
@[simp] theorem State.atInstr_clusters (s : State) (i : Instr) : (s.atInstr i).clusters = s.clusters := rfl
@[simp] theorem State.atInstr_cores (s : State) (i : Instr) : (s.atInstr i).cores = s.cores := rfl
@[simp] theorem State.atInstr_quarters (s : State) (i : Instr) : (s.atInstr i).quarters = s.quarters := rfl
@[simp] theorem State.atInstr_launches (s : State) (i : Instr) : (s.atInstr i).launches = s.launches := rfl
@[simp] theorem State.atInstr_blocks (s : State) (i : Instr) : (s.atInstr i).blocks = s.blocks := rfl
@[simp] theorem State.atInstr_warps (s : State) (i : Instr) : (s.atInstr i).warps = s.warps := rfl
@[simp] theorem State.atInstr_agenda (s : State) (i : Instr) : (s.atInstr i).agenda = s.agenda := rfl
@[simp] theorem State.atInstr_clock (s : State) (i : Instr) : (s.atInstr i).clock = s.clock := rfl
@[simp] theorem State.atInstr_freeCtr (s : State) (i : Instr) : (s.atInstr i).freeCtr = s.freeCtr := rfl
@[simp] theorem State.atInstr_seq (s : State) (i : Instr) : (s.atInstr i).seq = s.seq := rfl

@[simp] theorem State.setCtx_mem (s : State) (d c : Nat) (x : Ctx) : (s.setCtx d c x).mem = s.mem := rfl
@[simp] theorem State.setCtx_lineKeys (s : State) (d c : Nat) (x : Ctx) : (s.setCtx d c x).lineKeys = s.lineKeys := rfl
@[simp] theorem State.setCtx_tags (s : State) (d c : Nat) (x : Ctx) : (s.setCtx d c x).tags = s.tags := rfl
@[simp] theorem State.setCtx_keySlots (s : State) (d c : Nat) (x : Ctx) : (s.setCtx d c x).keySlots = s.keySlots := rfl
@[simp] theorem State.setCtx_sys (s : State) (d c : Nat) (x : Ctx) : (s.setCtx d c x).sys = s.sys := rfl
@[simp] theorem State.setCtx_clusters (s : State) (d c : Nat) (x : Ctx) : (s.setCtx d c x).clusters = s.clusters := rfl
@[simp] theorem State.setCtx_cores (s : State) (d c : Nat) (x : Ctx) : (s.setCtx d c x).cores = s.cores := rfl
@[simp] theorem State.setCtx_quarters (s : State) (d c : Nat) (x : Ctx) : (s.setCtx d c x).quarters = s.quarters := rfl
@[simp] theorem State.setCtx_launches (s : State) (d c : Nat) (x : Ctx) : (s.setCtx d c x).launches = s.launches := rfl
@[simp] theorem State.setCtx_blocks (s : State) (d c : Nat) (x : Ctx) : (s.setCtx d c x).blocks = s.blocks := rfl
@[simp] theorem State.setCtx_warps (s : State) (d c : Nat) (x : Ctx) : (s.setCtx d c x).warps = s.warps := rfl
@[simp] theorem State.setCtx_agenda (s : State) (d c : Nat) (x : Ctx) : (s.setCtx d c x).agenda = s.agenda := rfl
@[simp] theorem State.setCtx_issue (s : State) (d c : Nat) (x : Ctx) : (s.setCtx d c x).issue = s.issue := rfl
@[simp] theorem State.setCtx_clock (s : State) (d c : Nat) (x : Ctx) : (s.setCtx d c x).clock = s.clock := rfl
@[simp] theorem State.setCtx_freeCtr (s : State) (d c : Nat) (x : Ctx) : (s.setCtx d c x).freeCtr = s.freeCtr := rfl
@[simp] theorem State.setCtx_seq (s : State) (d c : Nat) (x : Ctx) : (s.setCtx d c x).seq = s.seq := rfl

@[simp] theorem State.scratchWrite_mem (s : State) (b off : Nat) (bs : List Byte) : (s.scratchWrite b off bs).mem = s.mem := rfl
@[simp] theorem State.scratchWrite_lineKeys (s : State) (b off : Nat) (bs : List Byte) : (s.scratchWrite b off bs).lineKeys = s.lineKeys := rfl
@[simp] theorem State.scratchWrite_tags (s : State) (b off : Nat) (bs : List Byte) : (s.scratchWrite b off bs).tags = s.tags := rfl
@[simp] theorem State.scratchWrite_keySlots (s : State) (b off : Nat) (bs : List Byte) : (s.scratchWrite b off bs).keySlots = s.keySlots := rfl
@[simp] theorem State.scratchWrite_sys (s : State) (b off : Nat) (bs : List Byte) : (s.scratchWrite b off bs).sys = s.sys := rfl
@[simp] theorem State.scratchWrite_dies (s : State) (b off : Nat) (bs : List Byte) : (s.scratchWrite b off bs).dies = s.dies := rfl
@[simp] theorem State.scratchWrite_clusters (s : State) (b off : Nat) (bs : List Byte) : (s.scratchWrite b off bs).clusters = s.clusters := rfl
@[simp] theorem State.scratchWrite_cores (s : State) (b off : Nat) (bs : List Byte) : (s.scratchWrite b off bs).cores = s.cores := rfl
@[simp] theorem State.scratchWrite_quarters (s : State) (b off : Nat) (bs : List Byte) : (s.scratchWrite b off bs).quarters = s.quarters := rfl
@[simp] theorem State.scratchWrite_launches (s : State) (b off : Nat) (bs : List Byte) : (s.scratchWrite b off bs).launches = s.launches := rfl
@[simp] theorem State.scratchWrite_warps (s : State) (b off : Nat) (bs : List Byte) : (s.scratchWrite b off bs).warps = s.warps := rfl
@[simp] theorem State.scratchWrite_agenda (s : State) (b off : Nat) (bs : List Byte) : (s.scratchWrite b off bs).agenda = s.agenda := rfl
@[simp] theorem State.scratchWrite_issue (s : State) (b off : Nat) (bs : List Byte) : (s.scratchWrite b off bs).issue = s.issue := rfl
@[simp] theorem State.scratchWrite_clock (s : State) (b off : Nat) (bs : List Byte) : (s.scratchWrite b off bs).clock = s.clock := rfl
@[simp] theorem State.scratchWrite_freeCtr (s : State) (b off : Nat) (bs : List Byte) : (s.scratchWrite b off bs).freeCtr = s.freeCtr := rfl
@[simp] theorem State.scratchWrite_seq (s : State) (b off : Nat) (bs : List Byte) : (s.scratchWrite b off bs).seq = s.seq := rfl

@[simp] theorem State.wrS_mem (s : State) (n : Nat) (v : DWord) : (s.wrS n v).mem = s.mem := by
  unfold State.wrS; split <;> rfl
@[simp] theorem State.wrS_lineKeys (s : State) (n : Nat) (v : DWord) : (s.wrS n v).lineKeys = s.lineKeys := by
  unfold State.wrS; split <;> rfl
@[simp] theorem State.wrS_tags (s : State) (n : Nat) (v : DWord) : (s.wrS n v).tags = s.tags := by
  unfold State.wrS; split <;> rfl
@[simp] theorem State.wrS_keySlots (s : State) (n : Nat) (v : DWord) : (s.wrS n v).keySlots = s.keySlots := by
  unfold State.wrS; split <;> rfl
@[simp] theorem State.wrS_sys (s : State) (n : Nat) (v : DWord) : (s.wrS n v).sys = s.sys := by
  unfold State.wrS; split <;> rfl
@[simp] theorem State.wrS_dies (s : State) (n : Nat) (v : DWord) : (s.wrS n v).dies = s.dies := by
  unfold State.wrS; split <;> rfl
@[simp] theorem State.wrS_clusters (s : State) (n : Nat) (v : DWord) : (s.wrS n v).clusters = s.clusters := by
  unfold State.wrS; split <;> rfl
@[simp] theorem State.wrS_cores (s : State) (n : Nat) (v : DWord) : (s.wrS n v).cores = s.cores := by
  unfold State.wrS; split <;> rfl
@[simp] theorem State.wrS_launches (s : State) (n : Nat) (v : DWord) : (s.wrS n v).launches = s.launches := by
  unfold State.wrS; split <;> rfl
@[simp] theorem State.wrS_blocks (s : State) (n : Nat) (v : DWord) : (s.wrS n v).blocks = s.blocks := by
  unfold State.wrS; split <;> rfl
@[simp] theorem State.wrS_agenda (s : State) (n : Nat) (v : DWord) : (s.wrS n v).agenda = s.agenda := by
  unfold State.wrS; split <;> rfl
@[simp] theorem State.wrS_issue (s : State) (n : Nat) (v : DWord) : (s.wrS n v).issue = s.issue := by
  unfold State.wrS; split <;> rfl
@[simp] theorem State.wrS_clock (s : State) (n : Nat) (v : DWord) : (s.wrS n v).clock = s.clock := by
  unfold State.wrS; split <;> rfl
@[simp] theorem State.wrS_freeCtr (s : State) (n : Nat) (v : DWord) : (s.wrS n v).freeCtr = s.freeCtr := by
  unfold State.wrS; split <;> rfl
@[simp] theorem State.wrS_seq (s : State) (n : Nat) (v : DWord) : (s.wrS n v).seq = s.seq := by
  unfold State.wrS; split <;> rfl

@[simp] theorem State.wrV_mem (s : State) (n : Nat) (v : Vec) : (s.wrV n v).mem = s.mem := by
  unfold State.wrV; split <;> rfl
@[simp] theorem State.wrV_lineKeys (s : State) (n : Nat) (v : Vec) : (s.wrV n v).lineKeys = s.lineKeys := by
  unfold State.wrV; split <;> rfl
@[simp] theorem State.wrV_tags (s : State) (n : Nat) (v : Vec) : (s.wrV n v).tags = s.tags := by
  unfold State.wrV; split <;> rfl
@[simp] theorem State.wrV_keySlots (s : State) (n : Nat) (v : Vec) : (s.wrV n v).keySlots = s.keySlots := by
  unfold State.wrV; split <;> rfl
@[simp] theorem State.wrV_sys (s : State) (n : Nat) (v : Vec) : (s.wrV n v).sys = s.sys := by
  unfold State.wrV; split <;> rfl
@[simp] theorem State.wrV_dies (s : State) (n : Nat) (v : Vec) : (s.wrV n v).dies = s.dies := by
  unfold State.wrV; split <;> rfl
@[simp] theorem State.wrV_clusters (s : State) (n : Nat) (v : Vec) : (s.wrV n v).clusters = s.clusters := by
  unfold State.wrV; split <;> rfl
@[simp] theorem State.wrV_cores (s : State) (n : Nat) (v : Vec) : (s.wrV n v).cores = s.cores := by
  unfold State.wrV; split <;> rfl
@[simp] theorem State.wrV_launches (s : State) (n : Nat) (v : Vec) : (s.wrV n v).launches = s.launches := by
  unfold State.wrV; split <;> rfl
@[simp] theorem State.wrV_blocks (s : State) (n : Nat) (v : Vec) : (s.wrV n v).blocks = s.blocks := by
  unfold State.wrV; split <;> rfl
@[simp] theorem State.wrV_agenda (s : State) (n : Nat) (v : Vec) : (s.wrV n v).agenda = s.agenda := by
  unfold State.wrV; split <;> rfl
@[simp] theorem State.wrV_issue (s : State) (n : Nat) (v : Vec) : (s.wrV n v).issue = s.issue := by
  unfold State.wrV; split <;> rfl
@[simp] theorem State.wrV_clock (s : State) (n : Nat) (v : Vec) : (s.wrV n v).clock = s.clock := by
  unfold State.wrV; split <;> rfl
@[simp] theorem State.wrV_freeCtr (s : State) (n : Nat) (v : Vec) : (s.wrV n v).freeCtr = s.freeCtr := by
  unfold State.wrV; split <;> rfl
@[simp] theorem State.wrV_seq (s : State) (n : Nat) (v : Vec) : (s.wrV n v).seq = s.seq := by
  unfold State.wrV; split <;> rfl

@[simp] theorem Warp.setStrand_blk (x : Warp) (e : Nat) (t : Option Strand) : (x.setStrand e t).blk = x.blk := rfl
@[simp] theorem Warp.setStrand_idx (x : Warp) (e : Nat) (t : Option Strand) : (x.setStrand e t).idx = x.idx := rfl
@[simp] theorem Warp.setStrand_quarter (x : Warp) (e : Nat) (t : Option Strand) : (x.setStrand e t).quarter = x.quarter := rfl
@[simp] theorem Warp.setStrand_slot (x : Warp) (e : Nat) (t : Option Strand) : (x.setStrand e t).slot = x.slot := rfl
@[simp] theorem Warp.setStrand_role (x : Warp) (e : Nat) (t : Option Strand) : (x.setStrand e t).role = x.role := rfl
@[simp] theorem Warp.setStrand_phase (x : Warp) (e : Nat) (t : Option Strand) : (x.setStrand e t).phase = x.phase := rfl
@[simp] theorem Warp.setStrand_base (x : Warp) (e : Nat) (t : Option Strand) : (x.setStrand e t).base = x.base := rfl
@[simp] theorem Warp.setStrand_ext (x : Warp) (e : Nat) (t : Option Strand) : (x.setStrand e t).ext = x.ext := rfl
@[simp] theorem Warp.setStrand_vregs (x : Warp) (e : Nat) (t : Option Strand) : (x.setStrand e t).vregs = x.vregs := rfl
@[simp] theorem Warp.setStrand_sregs (x : Warp) (e : Nat) (t : Option Strand) : (x.setStrand e t).sregs = x.sregs := rfl
@[simp] theorem Warp.setStrand_kregs (x : Warp) (e : Nat) (t : Option Strand) : (x.setStrand e t).kregs = x.kregs := rfl
@[simp] theorem Warp.setStrand_vb (x : Warp) (e : Nat) (t : Option Strand) : (x.setStrand e t).vb = x.vb := rfl
@[simp] theorem Warp.setStrand_sb (x : Warp) (e : Nat) (t : Option Strand) : (x.setStrand e t).sb = x.sb := rfl
@[simp] theorem Warp.setStrand_vf (x : Warp) (e : Nat) (t : Option Strand) : (x.setStrand e t).vf = x.vf := rfl
@[simp] theorem Warp.setStrand_vo (x : Warp) (e : Nat) (t : Option Strand) : (x.setStrand e t).vo = x.vo := rfl
@[simp] theorem Warp.setStrand_sf (x : Warp) (e : Nat) (t : Option Strand) : (x.setStrand e t).sf = x.sf := rfl
@[simp] theorem Warp.setStrand_so (x : Warp) (e : Nat) (t : Option Strand) : (x.setStrand e t).so = x.so := rfl
@[simp] theorem Warp.setStrand_callers (x : Warp) (e : Nat) (t : Option Strand) : (x.setStrand e t).callers = x.callers := rfl
@[simp] theorem Warp.setStrand_spilled (x : Warp) (e : Nat) (t : Option Strand) : (x.setStrand e t).spilled = x.spilled := rfl
@[simp] theorem Warp.setStrand_fpm (x : Warp) (e : Nat) (t : Option Strand) : (x.setStrand e t).fpm = x.fpm := rfl
@[simp] theorem Warp.setStrand_fst (x : Warp) (e : Nat) (t : Option Strand) : (x.setStrand e t).fst = x.fst := rfl
@[simp] theorem Warp.setStrand_det (x : Warp) (e : Nat) (t : Option Strand) : (x.setStrand e t).det = x.det := rfl
@[simp] theorem Warp.setStrand_accb (x : Warp) (e : Nat) (t : Option Strand) : (x.setStrand e t).accb = x.accb := rfl
@[simp] theorem Warp.setStrand_accl (x : Warp) (e : Nat) (t : Option Strand) : (x.setStrand e t).accl = x.accl := rfl
@[simp] theorem Warp.setStrand_spb (x : Warp) (e : Nat) (t : Option Strand) : (x.setStrand e t).spb = x.spb := rfl
@[simp] theorem Warp.setStrand_flen (x : Warp) (e : Nat) (t : Option Strand) : (x.setStrand e t).flen = x.flen := rfl
@[simp] theorem Warp.setStrand_sptr (x : Warp) (e : Nat) (t : Option Strand) : (x.setStrand e t).sptr = x.sptr := rfl
@[simp] theorem Warp.setStrand_mprog (x : Warp) (e : Nat) (t : Option Strand) : (x.setStrand e t).mprog = x.mprog := rfl
@[simp] theorem Warp.setStrand_trapv (x : Warp) (e : Nat) (t : Option Strand) : (x.setStrand e t).trapv = x.trapv := rfl
@[simp] theorem Warp.setStrand_barlim (x : Warp) (e : Nat) (t : Option Strand) : (x.setStrand e t).barlim = x.barlim := rfl
@[simp] theorem Warp.setStrand_lclk (x : Warp) (e : Nat) (t : Option Strand) : (x.setStrand e t).lclk = x.lclk := rfl
@[simp] theorem Warp.setStrand_lanes (x : Warp) (e : Nat) (t : Option Strand) : (x.setStrand e t).lanes = x.lanes := rfl
@[simp] theorem Warp.setStrand_helpers (x : Warp) (e : Nat) (t : Option Strand) : (x.setStrand e t).helpers = x.helpers := rfl
@[simp] theorem Warp.setStrand_stopped (x : Warp) (e : Nat) (t : Option Strand) : (x.setStrand e t).stopped = x.stopped := rfl
@[simp] theorem Warp.setStrand_stopEntry (x : Warp) (e : Nat) (t : Option Strand) : (x.setStrand e t).stopEntry = x.stopEntry := rfl
@[simp] theorem Warp.setStrand_engFaults (x : Warp) (e : Nat) (t : Option Strand) : (x.setStrand e t).engFaults = x.engFaults := rfl
@[simp] theorem Warp.setStrand_task (x : Warp) (e : Nat) (t : Option Strand) : (x.setStrand e t).task = x.task := rfl
@[simp] theorem Warp.setStrand_resv (x : Warp) (e : Nat) (t : Option Strand) : (x.setStrand e t).resv = x.resv := rfl
@[simp] theorem Warp.setStrand_handlers (x : Warp) (e : Nat) (t : Option Strand) : (x.setStrand e t).handlers = x.handlers := rfl

@[simp] theorem Warp.setRunner_blk (x : Warp) (e : Nat) (t : Strand) : (x.setRunner e t).blk = x.blk := by
  unfold Warp.setRunner; split <;> [(split <;> rfl); rfl]
@[simp] theorem Warp.setRunner_idx (x : Warp) (e : Nat) (t : Strand) : (x.setRunner e t).idx = x.idx := by
  unfold Warp.setRunner; split <;> [(split <;> rfl); rfl]
@[simp] theorem Warp.setRunner_quarter (x : Warp) (e : Nat) (t : Strand) : (x.setRunner e t).quarter = x.quarter := by
  unfold Warp.setRunner; split <;> [(split <;> rfl); rfl]
@[simp] theorem Warp.setRunner_slot (x : Warp) (e : Nat) (t : Strand) : (x.setRunner e t).slot = x.slot := by
  unfold Warp.setRunner; split <;> [(split <;> rfl); rfl]
@[simp] theorem Warp.setRunner_role (x : Warp) (e : Nat) (t : Strand) : (x.setRunner e t).role = x.role := by
  unfold Warp.setRunner; split <;> [(split <;> rfl); rfl]
@[simp] theorem Warp.setRunner_phase (x : Warp) (e : Nat) (t : Strand) : (x.setRunner e t).phase = x.phase := by
  unfold Warp.setRunner; split <;> [(split <;> rfl); rfl]
@[simp] theorem Warp.setRunner_base (x : Warp) (e : Nat) (t : Strand) : (x.setRunner e t).base = x.base := by
  unfold Warp.setRunner; split <;> [(split <;> rfl); rfl]
@[simp] theorem Warp.setRunner_ext (x : Warp) (e : Nat) (t : Strand) : (x.setRunner e t).ext = x.ext := by
  unfold Warp.setRunner; split <;> [(split <;> rfl); rfl]
@[simp] theorem Warp.setRunner_vregs (x : Warp) (e : Nat) (t : Strand) : (x.setRunner e t).vregs = x.vregs := by
  unfold Warp.setRunner; split <;> [(split <;> rfl); rfl]
@[simp] theorem Warp.setRunner_sregs (x : Warp) (e : Nat) (t : Strand) : (x.setRunner e t).sregs = x.sregs := by
  unfold Warp.setRunner; split <;> [(split <;> rfl); rfl]
@[simp] theorem Warp.setRunner_kregs (x : Warp) (e : Nat) (t : Strand) : (x.setRunner e t).kregs = x.kregs := by
  unfold Warp.setRunner; split <;> [(split <;> rfl); rfl]
@[simp] theorem Warp.setRunner_vb (x : Warp) (e : Nat) (t : Strand) : (x.setRunner e t).vb = x.vb := by
  unfold Warp.setRunner; split <;> [(split <;> rfl); rfl]
@[simp] theorem Warp.setRunner_sb (x : Warp) (e : Nat) (t : Strand) : (x.setRunner e t).sb = x.sb := by
  unfold Warp.setRunner; split <;> [(split <;> rfl); rfl]
@[simp] theorem Warp.setRunner_vf (x : Warp) (e : Nat) (t : Strand) : (x.setRunner e t).vf = x.vf := by
  unfold Warp.setRunner; split <;> [(split <;> rfl); rfl]
@[simp] theorem Warp.setRunner_vo (x : Warp) (e : Nat) (t : Strand) : (x.setRunner e t).vo = x.vo := by
  unfold Warp.setRunner; split <;> [(split <;> rfl); rfl]
@[simp] theorem Warp.setRunner_sf (x : Warp) (e : Nat) (t : Strand) : (x.setRunner e t).sf = x.sf := by
  unfold Warp.setRunner; split <;> [(split <;> rfl); rfl]
@[simp] theorem Warp.setRunner_so (x : Warp) (e : Nat) (t : Strand) : (x.setRunner e t).so = x.so := by
  unfold Warp.setRunner; split <;> [(split <;> rfl); rfl]
@[simp] theorem Warp.setRunner_callers (x : Warp) (e : Nat) (t : Strand) : (x.setRunner e t).callers = x.callers := by
  unfold Warp.setRunner; split <;> [(split <;> rfl); rfl]
@[simp] theorem Warp.setRunner_spilled (x : Warp) (e : Nat) (t : Strand) : (x.setRunner e t).spilled = x.spilled := by
  unfold Warp.setRunner; split <;> [(split <;> rfl); rfl]
@[simp] theorem Warp.setRunner_fpm (x : Warp) (e : Nat) (t : Strand) : (x.setRunner e t).fpm = x.fpm := by
  unfold Warp.setRunner; split <;> [(split <;> rfl); rfl]
@[simp] theorem Warp.setRunner_fst (x : Warp) (e : Nat) (t : Strand) : (x.setRunner e t).fst = x.fst := by
  unfold Warp.setRunner; split <;> [(split <;> rfl); rfl]
@[simp] theorem Warp.setRunner_det (x : Warp) (e : Nat) (t : Strand) : (x.setRunner e t).det = x.det := by
  unfold Warp.setRunner; split <;> [(split <;> rfl); rfl]
@[simp] theorem Warp.setRunner_accb (x : Warp) (e : Nat) (t : Strand) : (x.setRunner e t).accb = x.accb := by
  unfold Warp.setRunner; split <;> [(split <;> rfl); rfl]
@[simp] theorem Warp.setRunner_accl (x : Warp) (e : Nat) (t : Strand) : (x.setRunner e t).accl = x.accl := by
  unfold Warp.setRunner; split <;> [(split <;> rfl); rfl]
@[simp] theorem Warp.setRunner_spb (x : Warp) (e : Nat) (t : Strand) : (x.setRunner e t).spb = x.spb := by
  unfold Warp.setRunner; split <;> [(split <;> rfl); rfl]
@[simp] theorem Warp.setRunner_flen (x : Warp) (e : Nat) (t : Strand) : (x.setRunner e t).flen = x.flen := by
  unfold Warp.setRunner; split <;> [(split <;> rfl); rfl]
@[simp] theorem Warp.setRunner_sptr (x : Warp) (e : Nat) (t : Strand) : (x.setRunner e t).sptr = x.sptr := by
  unfold Warp.setRunner; split <;> [(split <;> rfl); rfl]
@[simp] theorem Warp.setRunner_mprog (x : Warp) (e : Nat) (t : Strand) : (x.setRunner e t).mprog = x.mprog := by
  unfold Warp.setRunner; split <;> [(split <;> rfl); rfl]
@[simp] theorem Warp.setRunner_trapv (x : Warp) (e : Nat) (t : Strand) : (x.setRunner e t).trapv = x.trapv := by
  unfold Warp.setRunner; split <;> [(split <;> rfl); rfl]
@[simp] theorem Warp.setRunner_barlim (x : Warp) (e : Nat) (t : Strand) : (x.setRunner e t).barlim = x.barlim := by
  unfold Warp.setRunner; split <;> [(split <;> rfl); rfl]
@[simp] theorem Warp.setRunner_lclk (x : Warp) (e : Nat) (t : Strand) : (x.setRunner e t).lclk = x.lclk := by
  unfold Warp.setRunner; split <;> [(split <;> rfl); rfl]
@[simp] theorem Warp.setRunner_lanes (x : Warp) (e : Nat) (t : Strand) : (x.setRunner e t).lanes = x.lanes := by
  unfold Warp.setRunner; split <;> [(split <;> rfl); rfl]
@[simp] theorem Warp.setRunner_helpers (x : Warp) (e : Nat) (t : Strand) : (x.setRunner e t).helpers = x.helpers := by
  unfold Warp.setRunner; split <;> [(split <;> rfl); rfl]
@[simp] theorem Warp.setRunner_stopped (x : Warp) (e : Nat) (t : Strand) : (x.setRunner e t).stopped = x.stopped := by
  unfold Warp.setRunner; split <;> [(split <;> rfl); rfl]
@[simp] theorem Warp.setRunner_stopEntry (x : Warp) (e : Nat) (t : Strand) : (x.setRunner e t).stopEntry = x.stopEntry := by
  unfold Warp.setRunner; split <;> [(split <;> rfl); rfl]
@[simp] theorem Warp.setRunner_engFaults (x : Warp) (e : Nat) (t : Strand) : (x.setRunner e t).engFaults = x.engFaults := by
  unfold Warp.setRunner; split <;> [(split <;> rfl); rfl]
@[simp] theorem Warp.setRunner_task (x : Warp) (e : Nat) (t : Strand) : (x.setRunner e t).task = x.task := by
  unfold Warp.setRunner; split <;> [(split <;> rfl); rfl]
@[simp] theorem Warp.setRunner_resv (x : Warp) (e : Nat) (t : Strand) : (x.setRunner e t).resv = x.resv := by
  unfold Warp.setRunner; split <;> [(split <;> rfl); rfl]

/-! Clocks that pass. -/

@[simp] theorem State.passClocks_mem (s : State) (n : Nat) : (s.passClocks n).mem = s.mem := by
  unfold State.passClocks; split <;> rfl
@[simp] theorem State.passClocks_lineKeys (s : State) (n : Nat) : (s.passClocks n).lineKeys = s.lineKeys := by
  unfold State.passClocks; split <;> rfl
@[simp] theorem State.passClocks_tags (s : State) (n : Nat) : (s.passClocks n).tags = s.tags := by
  unfold State.passClocks; split <;> rfl
@[simp] theorem State.passClocks_keySlots (s : State) (n : Nat) : (s.passClocks n).keySlots = s.keySlots := by
  unfold State.passClocks; split <;> rfl
@[simp] theorem State.passClocks_sys (s : State) (n : Nat) : (s.passClocks n).sys = s.sys := by
  unfold State.passClocks; split <;> rfl
@[simp] theorem State.passClocks_dies (s : State) (n : Nat) : (s.passClocks n).dies = s.dies := by
  unfold State.passClocks; split <;> rfl
@[simp] theorem State.passClocks_clusters (s : State) (n : Nat) : (s.passClocks n).clusters = s.clusters := by
  unfold State.passClocks; split <;> rfl
@[simp] theorem State.passClocks_cores (s : State) (n : Nat) : (s.passClocks n).cores = s.cores := by
  unfold State.passClocks; split <;> rfl
@[simp] theorem State.passClocks_launches (s : State) (n : Nat) : (s.passClocks n).launches = s.launches := by
  unfold State.passClocks; split <;> rfl
@[simp] theorem State.passClocks_blocks (s : State) (n : Nat) : (s.passClocks n).blocks = s.blocks := by
  unfold State.passClocks; split <;> rfl
@[simp] theorem State.passClocks_agenda (s : State) (n : Nat) : (s.passClocks n).agenda = s.agenda := by
  unfold State.passClocks; split <;> rfl
@[simp] theorem State.passClocks_issue (s : State) (n : Nat) : (s.passClocks n).issue = s.issue := by
  unfold State.passClocks; split <;> rfl
@[simp] theorem State.passClocks_freeCtr (s : State) (n : Nat) : (s.passClocks n).freeCtr = s.freeCtr := by
  unfold State.passClocks; split <;> rfl
@[simp] theorem State.passClocks_seq (s : State) (n : Nat) : (s.passClocks n).seq = s.seq := by
  unfold State.passClocks; split <;> rfl
@[simp] theorem State.passClocks_clock (s : State) (n : Nat) : (s.passClocks n).clock = s.clock + n := by
  unfold State.passClocks; split
  · next h => rw [h]; rfl
  · rfl

end Sys2Proof.Machine
end

