-- ==== Sys2Proof/Laws/Access.lean ====
section
/-! SUPPORT. Reading back a warp, a strand or a register after a write of one, and the list and vector facts behind it. -/

namespace Sys2Proof.Machine

open Sys2Proof

/-! Lists and lanes. -/

theorem nth_set {α : Type} (l : List α) (n m : Nat) (v d : α) :
    nth (l.set n v) m d = if m = n ∧ n < l.length then v else nth l m d := by
  unfold nth
  by_cases h : n = m
  · subst h
    by_cases hl : n < l.length
    · simp [hl]
    · simp [hl]
  · simp [h, Ne.symm h]

theorem maskUpto_bit (p : Nat → Bool) (n l : Nat) (hn : n ≤ 32) :
    (maskUpto p n).getLsbD l = (decide (l < n) && p l) := by
  induction n with
  | zero => simp [maskUpto]
  | succ n ih =>
    have one : (BitVec.ofNat 32 (2 ^ n)).getLsbD l = decide (l = n) := by
      rw [BitVec.getLsbD_ofNat, Nat.testBit_two_pow]
      by_cases h : n = l
      · subst h; simp; omega
      · simp [h, Ne.symm h]
    unfold maskUpto
    split
    · rw [BitVec.getLsbD_or, ih (by omega), one]
      by_cases h : l = n
      · subst h; simp [*]
      · by_cases h2 : l < n <;> simp [h, h2] <;> omega
    · rw [ih (by omega)]
      by_cases h : l = n
      · subst h; simp_all
      · by_cases h2 : l < n <;> simp [h2] <;> omega

/-- Bit l of a mask built from a predicate. -/
@[simp] theorem maskOf_bit (p : Nat → Bool) (l : Nat) : (maskOf p).getLsbD l = (decide (l < 32) && p l) :=
  maskUpto_bit p 32 l (by omega)

theorem vecUpto_bit (f : Nat → Word) (n i : Nat) (hn : n ≤ 32) :
    (vecUpto f n).getLsbD i = (decide (i < 32 * n) && (f (i / 32)).getLsbD (i % 32)) := by
  induction n with
  | zero => simp [vecUpto]
  | succ n ih =>
    unfold vecUpto
    rw [BitVec.getLsbD_or, ih (by omega), BitVec.getLsbD_shiftLeft, BitVec.getLsbD_setWidth]
    by_cases h : i < 32 * n
    · simp [h]; omega
    · by_cases h2 : i < 32 * (n + 1)
      · have e : i / 32 = n := by omega
        have e2 : i - 32 * n = i % 32 := by omega
        have h3 : i < 1024 := by omega
        have h4 : i % 32 < 1024 := by omega
        simp [h, h2, e, e2, h3, h4]
      · have : (f n).getLsbD (i - 32 * n) = false := BitVec.getLsbD_of_ge _ _ (by omega)
        simp [h, h2, this]

/-- Lane l of a vector built lane by lane (R13). -/
@[simp] theorem laneOf_vecOf (f : Nat → Word) (l : Nat) (h : l < 32) : laneOf (vecOf f) l = f l := by
  apply BitVec.eq_of_getLsbD_eq
  intro i hi
  unfold laneOf vecOf
  rw [BitVec.getLsbD_extractLsb', vecUpto_bit _ _ _ (by omega)]
  have e : (32 * l + i) / 32 = l := by omega
  have e2 : (32 * l + i) % 32 = i := by omega
  have h3 : 32 * l + i < 1024 := by omega
  simp [hi, e, e2, h3]

/-- A merge under a mask writes its lanes and keeps the others. -/
@[simp] theorem laneOf_vecMerge (m : Mask) (f : Nat → Word) (v : Vec) (l : Nat) (h : l < 32) :
    laneOf (vecMerge m f v) l = if m.getLsbD l then f l else laneOf v l := by
  simp [vecMerge, h]

/-! Warps. -/

theorem State.warp_setWarp (s : State) (w v : Nat) (x : Warp) :
    (s.setWarp w x).warp v = if v = w ∧ w < s.warps.length then x else s.warp v := nth_set s.warps w v x Warp.absent

/-- A warp that has not gone is one of the list. -/
theorem State.warp_in_list (s : State) (w : Nat) (h : (s.warp w).phase ≠ .gone) : w < s.warps.length := by
  by_cases hl : w < s.warps.length
  · exact hl
  · exfalso; apply h
    simp [State.warp, nth, List.getElem?_eq_none (Nat.le_of_not_lt hl), Warp.absent]

@[simp] theorem State.setWarp_setWarp (s : State) (w : Nat) (x y : Warp) : (s.setWarp w x).setWarp w y = s.setWarp w y := by
  simp [State.setWarp]

@[simp] theorem State.block_setWarp (s : State) (w b : Nat) (x : Warp) : (s.setWarp w x).block b = s.block b := rfl

@[simp] theorem State.warp_setQuarter (s : State) (q w : Nat) (k : Quarter) : (s.setQuarter q k).warp w = s.warp w := rfl
@[simp] theorem State.warp_atInstr (s : State) (i : Instr) (w : Nat) : (s.atInstr i).warp w = s.warp w := rfl

/-- What `issueOk` says: a chain is being issued by a strand of a warp that runs and is not stopped. -/
theorem State.issueOk_iff (s : State) :
    s.issueOk = true ↔ s.issue.live = true ∧ s.cw.phase = .running ∧ s.cw.stopped = none ∧
      (s.cw.runner s.issue.entry).isSome = true := by
  simp [State.issueOk, and_assoc]

theorem State.issue_warp_in_list (s : State) (h : s.issueOk = true) : s.issue.warp < s.warps.length := by
  apply s.warp_in_list
  have := (s.issueOk_iff.mp h).2.1
  unfold State.cw at this
  simp [this]

/-- The issuing warp after it is written. -/
theorem State.cw_putW (s : State) (x : Warp) (h : s.issue.warp < s.warps.length) : (s.putW x).cw = x := by
  show (s.setWarp s.issue.warp x).warp s.issue.warp = x
  rw [State.warp_setWarp]; simp [h]

@[simp] theorem State.putW_putW (s : State) (x y : Warp) : (s.putW x).putW y = s.putW y := s.setWarp_setWarp _ _ _

theorem State.warp_putW_ne (s : State) (x : Warp) (v : Nat) (h : v ≠ s.issue.warp) : (s.putW x).warp v = s.warp v := by
  show (s.setWarp s.issue.warp x).warp v = _
  rw [State.warp_setWarp]; simp [h]

/-! Strands. -/

theorem Warp.strand_setStrand (x : Warp) (e f : Nat) (t : Option Strand) :
    (x.setStrand e t).strand f = if f = e ∧ e < x.strands.length then t else x.strand f := nth_set x.strands e f t none

theorem Warp.strand_in_list (x : Warp) (e : Nat) (h : (x.strand e).isSome = true) : e < x.strands.length := by
  by_cases hl : e < x.strands.length
  · exact hl
  · simp [Warp.strand, nth, List.getElem?_eq_none (Nat.le_of_not_lt hl)] at h

/-- A strand that stands where it is written keeps its place: the runner of the entry is what was written. -/
theorem Warp.runner_setRunner (x : Warp) (e : Nat) (t : Strand) (h : (x.runner e).isSome = true) :
    (x.setRunner e t).runner e = some t := by
  unfold Warp.runner at h
  unfold Warp.setRunner Warp.runner
  split at h
  · rename_i hd tl heq
    by_cases he : hd.entry = e
    · simp [he]
    · simp [he] at h
  · rename_i heq
    simp only [heq, Warp.setStrand_handlers]
    rw [Warp.strand_setStrand]; simp [Warp.strand_in_list x e h]

theorem State.cs_putS (s : State) (t : Strand) (h : s.issueOk = true) : (s.putS t).cs = t := by
  have hw := s.issue_warp_in_list h
  have hr := (s.issueOk_iff.mp h).2.2.2
  show (((s.putW (s.cw.setRunner s.issue.entry t)).cw).runner s.issue.entry).getD _ = t
  rw [State.cw_putW _ _ hw, Warp.runner_setRunner _ _ _ hr]; rfl

end Sys2Proof.Machine
end

