-- ==== Sys2Proof/Laws/Perform.lean ====
section
/-! SUPPORT. What the shell of a word instruction does: one lemma for each way a meaning can end. -/

namespace Sys2Proof.Machine

open Sys2Proof

/-! Words. -/

theorem opOf_wordOf (op : Nat) (f : BitVec 21) (h : op < 2048) : opOf (wordOf op f) = op := by
  unfold opOf wordOf bits
  rw [BitVec.extractLsb'_append_eq_of_le (by omega)]
  simp [BitVec.toNat_ofNat, Nat.mod_eq_of_lt h]

theorem opOf_wordDab (op : Nat) (d a b : BitVec 7) (h : op < 2048) : opOf (wordDab op d a b) = op := opOf_wordOf _ _ h
theorem opOf_wordDi (op : Nat) (d : BitVec 7) (i : BitVec 14) (h : op < 2048) : opOf (wordDi op d i) = op := opOf_wordOf _ _ h

set_option maxRecDepth 4000 in
theorem opcode_lt (i : Instr) : i.opcode < 2048 := by
  cases i
  case unusedOpcode w => exact Nat.div_lt_of_lt_mul (Nat.lt_of_lt_of_le w.isLt (by decide))
  all_goals exact Nat.lt_of_sub_eq_succ rfl
/-- The opcode of an encoded word. -/
theorem opOf_encode (i : Instr) : opOf (encode i) = i.opcode := opOf_wordOf _ _ (opcode_lt i)

/-! The shell. -/

/-- What `ready` says, one part at a time. -/
theorem ready_parts {i : Instr} {s : State} {info : OpInfo} (hi : i.info = some info) (h : ready i s = true) :
    fieldsOk i.opcode info i.fields = true ∧ s.issueOk = true ∧ (s.issue.ks = none ∨ info.k = true) ∧
      (s.issue.xs = [] ∨ info.x = true) ∧ (s.inMiss = false ∨ info.ahead = true) ∧ roleOk info.role s.cw.role = true ∧
      s.namesOk info (encode i) = true ∧ (s.inHandler = true ∨ s.later = true ∨ s.cs.fault = none) ∧
      s.passes info (encode i) = true ∧ (s.inHandler = true ∨ s.later = true ∨ s.cs.flight = [] ∨ info.mem = false) := by
  unfold ready at h
  rw [hi] at h
  simp only [Bool.and_eq_true, Bool.or_eq_true, decide_eq_true_eq, Bool.not_eq_true', Option.isNone_iff_eq_none] at h
  obtain ⟨⟨⟨⟨⟨⟨⟨⟨⟨a, b⟩, c⟩, d⟩, e⟩, f⟩, g⟩, k⟩, p⟩, m⟩ := h
  exact ⟨a, b, c, d, e, f, g, by rcases k with (k | k) | k <;> simp [k], p, by rcases m with ((m | m) | m) | m <;> simp [m]⟩

/-- No accesses of the strand come before those of a ready instruction: it joins none in flight. -/
theorem ready_joins {i : Instr} {s : State} {info : OpInfo} (hi : i.info = some info) (h : ready i s = true) (w : Word) :
    (info.mem && decide (s.cs.flight ≠ []) && s.flies w) = false := by
  obtain ⟨-, -, -, -, -, -, -, -, -, hm⟩ := ready_parts hi h
  rcases hm with hm | hm | hm | hm
  · simp [State.flies, hm]
  · have : s.issue.src ≠ .chain := by simpa [State.later] using hm
    simp [State.flies, this]
  · simp [hm]
  · simp [hm]

/-- A ready instruction runs its meaning. -/
theorem perform_ready {i : Instr} {s : State} {info : OpInfo} {w : Word} {body : Body} (hi : i.info = some info)
    (hw : w = encode i) (h : ready i s = true) :
    perform w body s = .next (match body (s.atInstr i) with
      | .ok t => State.retire (s.atInstr i) info.closes t
      | .error p => State.settle (s.atInstr i) info w p) := by
  obtain ⟨-, hok, hk, hx, hm, hr, hn, hf, hp, -⟩ := ready_parts hi h
  have hinfo : opInfo (opOf w) = some info := by rw [hw, opOf_encode]; exact hi
  subst hw
  unfold perform
  rw [hok, hinfo]
  simp only [Host.Outcome.next.injEq]
  unfold State.runBody
  have hnone : (if (s.inHandler || s.later) = true then none else s.cs.fault) = none := by
    rcases hf with hf | hf | hf <;> simp [hf]
  show (match (if (s.inHandler || s.later) = true then none else s.cs.fault) with
    | some f => _
    | none => State.runChecked (s.atInstr i) info (encode i) body) = _
  rw [hnone]
  show State.runChecked (s.atInstr i) info (encode i) body = _
  unfold State.runChecked
  have h1 : (s.atInstr i).prefixesOk info = true := by
    show ((s.issue.ks.isNone || info.k) && (decide (s.issue.xs = []) || info.x)) = true
    rcases hk with hk | hk <;> rcases hx with hx | hx <;> simp [hk, hx]
  have h2 : ((s.atInstr i).inMiss && !info.ahead) = false := by
    show (s.inMiss && !info.ahead) = false
    rcases hm with hm | hm <;> simp [hm]
  have h3 : roleOk info.role (s.atInstr i).cw.role = true := hr
  have h4 : (s.atInstr i).namesOk info (encode i) = true := hn
  have h5 : (s.atInstr i).passes info (encode i) = true := hp
  have h6 : (info.mem && decide ((s.atInstr i).cs.flight ≠ []) && (s.atInstr i).flies (encode i)) = false :=
    ready_joins hi h (encode i)
  rw [h1, h2, h3, h4, h5, h6]
  simp only [Bool.false_eq_true, if_false, Bool.not_true]
  all_goals (cases body (s.atInstr i) <;> rfl)

/-- A meaning that answers a state: the instruction retires from it. -/
theorem perform_ok {i : Instr} {s t : State} {info : OpInfo} {w : Word} {body : Body} (hi : i.info = some info)
    (hw : w = encode i) (h : ready i s = true) (hb : body (s.atInstr i) = .ok t) :
    perform w body s = .next (s.retired i t) := by
  rw [perform_ready hi hw h, hb]
  unfold State.retired
  rw [hi]

/-- A meaning that stops: what the stop leaves is the next state. -/
theorem perform_stop {i : Instr} {s : State} {info : OpInfo} {w : Word} {body : Body} {p : Stop} (hi : i.info = some info)
    (hw : w = encode i) (h : ready i s = true) (hb : body (s.atInstr i) = .error p) :
    perform w body s = .next (State.settle (s.atInstr i) info w p) := by
  rw [perform_ready hi hw h, hb]

/-- A word instruction always answers a next state where a strand issues it, and the one fault elsewhere. -/
theorem perform_total (w : Word) (body : Body) (s : State) :
    (∃ t, perform w body s = .next t) ∨ perform w body s = .fault .noStrand := by
  unfold perform
  split
  · exact .inl ⟨_, rfl⟩
  · exact .inr rfl

end Sys2Proof.Machine
end

