-- ==== Sys2Proof/Laws/Retire.lean ====
section
/-! SUPPORT. What the retirement of a word can change: the issuing warp's strands, its logical clock, and the step trap that
it notes (R91, R286, R298, R307). -/

namespace Sys2Proof.Machine

open Sys2Proof

theorem SameControl.same (x : Warp) : SameControl x x :=
  { place := ⟨Eq.refl _, Eq.refl _, Eq.refl _, Eq.refl _, Eq.refl _, Eq.refl _⟩,
    window := by simp, ctl := by simp, lanes := by simp, rest := by simp, handlers := Eq.refl _, engFaults := fun _ => Eq.refl _ }

theorem SameControl.trans {x y z : Warp} (h : SameControl x y) (k : SameControl y z) : SameControl x z where
  place := by simp [k.place, h.place]
  window := by simp [k.window, h.window]
  ctl := by simp [k.ctl, h.ctl]
  lanes := by simp [k.lanes, h.lanes]
  rest := by simp [k.rest, h.rest]
  handlers := k.handlers.trans h.handlers
  engFaults := fun t => (k.engFaults (by rw [h.ctl.2.2.2.2.2.2.2.2.1]; exact t)).trans (h.engFaults t)

/-- Two states of a warp that differ only in where its strands stand, that in entry e apart in nothing but its regions and
counts, in its logical clock and in a step trap noted. -/
structure Moved (e : Nat) (x y : Warp) : Prop where
  regs : y.vregs = x.vregs ∧ y.sregs = x.sregs ∧ y.kregs = x.kregs ∧ y.fst = x.fst
  control : SameControl x y
  held : ∀ f, (y.strand f).map Strand.held = (x.strand f).map Strand.held
  runs : ∀ f, (y.runner f).map Strand.held = (x.runner f).map Strand.held
  still : ∀ f, f ≠ e → (y.strand f).map Strand.still = (x.strand f).map Strand.still

theorem Moved.same (e : Nat) (x : Warp) : Moved e x x :=
  ⟨by simp, SameControl.same x, fun _ => Eq.refl _, fun _ => Eq.refl _, fun _ _ => Eq.refl _⟩

theorem Moved.trans {e : Nat} {x y z : Warp} (h : Moved e x y) (k : Moved e y z) : Moved e x z where
  regs := by simp [k.regs, h.regs]
  control := h.control.trans k.control
  held := fun f => (k.held f).trans (h.held f)
  runs := fun f => (k.runs f).trans (h.runs f)
  still := fun f hf => (k.still f hf).trans (h.still f hf)

/-- Writing a strand that keeps what `held` names. -/
theorem Moved.setStrand (e : Nat) (x : Warp) (g : Nat) (t u : Strand) (h : x.strand g = some t) (k : u.held = t.held)
    (k2 : g ≠ e → u.still = t.still) : Moved e x (x.setStrand g (some u)) := by
  have held : ∀ f, ((x.setStrand g (some u)).strand f).map Strand.held = (x.strand f).map Strand.held := by
    intro f
    rw [Warp.strand_setStrand]
    by_cases c : f = g ∧ g < x.strands.length
    · simp [c, h, k]
    · simp [c]
  refine { regs := by simp, control := ?_, held := held, runs := ?_, still := ?_ }
  · exact { place := by simp, window := by simp, ctl := by simp, lanes := by simp, rest := by simp, handlers := by simp,
            engFaults := by simp }
  · intro f
    unfold Warp.runner
    rw [Warp.setStrand_handlers]
    split
    · exact Eq.refl _
    · exact held f
  · intro f hf
    rw [Warp.strand_setStrand]
    by_cases c : f = g ∧ g < x.strands.length
    · have hg : g ≠ e := fun hc => hf (c.1.trans hc)
      simp [c, h, k2 hg]
    · simp [c]

theorem Moved.setRunner (e : Nat) (x : Warp) (t u : Strand) (h : x.runner e = some t) (k : u.held = t.held) :
    Moved e x (x.setRunner e u) := by
  unfold Warp.runner at h
  unfold Warp.setRunner
  split at h
  · rename_i hd tl heq
    by_cases he : hd.entry = e
    · subst he
      simp only [if_true] at h ⊢
      refine { regs := by simp, held := fun _ => Eq.refl _, runs := ?_, still := fun _ _ => Eq.refl _, control := ?_ }
      · exact { place := by simp, window := by simp, ctl := by simp, lanes := by simp, rest := by simp,
                handlers := by simp [heq, Handler.record], engFaults := by simp }
      · intro f
        simp only [Warp.runner, heq]
        by_cases c : hd.entry = f
        · simp only [c, if_true, h, Option.map_some, k]
        · simp [c]
    · simp [he] at h
  · exact Moved.setStrand e x e t u h k (fun c => absurd (Eq.refl e) c)

theorem Moved.lclk (e : Nat) (x : Warp) (n : DWord) : Moved e x { x with lclk := n } where
  regs := by simp
  control := { place := by simp, window := by simp, ctl := by simp, lanes := by simp, rest := by simp,
               handlers := Eq.refl _, engFaults := by simp }
  held := fun _ => Eq.refl _
  runs := fun _ => Eq.refl _
  still := fun _ _ => Eq.refl _

/-- A region's count among the strands of a group. -/
theorem Moved.bumpAll (e n : Nat) (l : List Nat) (x : Warp) :
    Moved e x (l.foldl (fun x f => match x.strand f with
      | some t => x.setStrand f (some { t with region := t.region.map (fun r => { r with ran := r.ran + n }) })
      | none => x) x) := by
  induction l generalizing x with
  | nil => exact Moved.same e x
  | cons f r ih =>
    simp only [List.foldl_cons]
    refine Moved.trans ?_ (ih _)
    split
    · rename_i t ht
      exact Moved.setStrand e x f t _ ht (Eq.refl _) (fun _ => Eq.refl _)
    · exact Moved.same e x

theorem Moved.ranSet (e : Nat) (x : Warp) (g n : Nat) :
    Moved e x (match x.strand g with
      | some t => x.setStrand g (some { t with ran := n })
      | none => x) := by
  split
  · rename_i t ht
    exact Moved.setStrand e x g t _ ht (Eq.refl _) (fun _ => Eq.refl _)
  · exact Moved.same e x

/-- The count of a retired chain leaves a state whose issuing warp has only moved. -/
theorem count_moved (s0 s : State) : ∃ y, State.count s0 s = s.putW y ∧ Moved s0.issue.entry s.cw y := by
  unfold State.count
  simp only
  split
  · split
    · rename_i t ht
      refine ⟨_, Eq.refl _, Moved.trans ?_ (Moved.lclk _ _ _)⟩
      exact Moved.setStrand _ _ _ t _ ht (Eq.refl _) (fun _ => Eq.refl _)
    · exact ⟨_, Eq.refl _, Moved.lclk _ _ _⟩
  · have hr := fun n => Moved.ranSet s0.issue.entry s.cw s0.issue.entry n
    cases s0.cw.strand s0.issue.entry <;> simp only <;> split_ifs
    all_goals first
      | exact ⟨_, Eq.refl _, hr _⟩
      | (refine ⟨_, Eq.refl _, Moved.trans ?_ (Moved.lclk _ _ _)⟩; exact Moved.trans (hr _) (Moved.bumpAll _ 1 _ _))

theorem lclk_bumpAll (n : Nat) (l : List Nat) (x : Warp) :
    (l.foldl (fun x f => match x.strand f with
      | some t => x.setStrand f (some { t with region := t.region.map (fun r => { r with ran := r.ran + n }) })
      | none => x) x).lclk = x.lclk := by
  induction l generalizing x with
  | nil => rfl
  | cons f r ih =>
    simp only [List.foldl_cons, ih]
    split <;> rfl

theorem lclk_ranSet (x : Warp) (g n : Nat) :
    (match x.strand g with
      | some t => x.setStrand g (some { t with ran := n })
      | none => x).lclk = x.lclk := by
  split <;> rfl

/-- The clock counts a chain that counts once at most once (R307). -/
theorem count_clock (s0 s : State) (hw : s.issue.warp < s.warps.length) (hc : s.issue.count = 1) :
    (State.count s0 s).cw.lclk = s.cw.lclk ∨ (State.count s0 s).cw.lclk = s.cw.lclk + 1 := by
  unfold State.count
  simp only [hc]
  split
  · right
    rw [State.cw_putW _ _ hw]
    split <;> rfl
  · cases s0.cw.strand s0.issue.entry <;> simp only <;> split_ifs <;> rw [State.cw_putW _ _ hw]
    all_goals first
      | (left; exact lclk_ranSet _ _ _)
      | (right; exact congrArg (· + 1) ((lclk_bumpAll 1 _ _).trans (lclk_ranSet _ _ _)))

theorem Strand.past_held (s0 : State) (closes moved : Bool) (t : Strand) : (t.past s0 closes moved).held = t.held := by
  unfold Strand.past
  simp only
  split <;> (split <;> [rfl; (split <;> rfl)])

theorem putW_cw (s : State) (hw : s.issue.warp < s.warps.length) : s.putW s.cw = s := by
  simp [State.putW, State.setWarp, State.cw, State.warp, nth, List.getElem?_eq_getElem hw]

theorem advance_moved (s0 s : State) (closes : Bool) (hw : s.issue.warp < s.warps.length) :
    ∃ y, State.advance s0 closes s = s.putW y ∧ Moved s0.issue.entry s.cw y ∧ y.lclk = s.cw.lclk := by
  unfold State.advance
  split
  · exact ⟨s.cw, (putW_cw s hw).symm, Moved.same _ _, Eq.refl _⟩
  · rename_i t ht
    exact ⟨_, Eq.refl _, Moved.setRunner _ _ t _ ht (t.past_held s0 closes s.issue.moved), by simp⟩

theorem noteStep_moved (s0 s : State) (hw : s.issue.warp < s.warps.length) :
    ∃ y, State.noteStep s0 s = s.putW y ∧ Moved s0.issue.entry s.cw y ∧ y.lclk = s.cw.lclk := by
  unfold State.noteStep
  simp only
  split
  · rename_i hs
    refine ⟨_, Eq.refl _, ?_, Eq.refl _⟩
    exact { regs := by simp, held := fun _ => Eq.refl _, runs := fun _ => Eq.refl _, still := fun _ _ => Eq.refl _,
            control := { place := by simp, window := by simp, ctl := by simp, lanes := by simp, rest := by simp,
                         handlers := Eq.refl _, engFaults := fun t => by
                           rw [Bool.and_eq_true, t] at hs; exact absurd hs.1 (by simp) } }
  · exact ⟨s.cw, (putW_cw s hw).symm, Moved.same _ _, Eq.refl _⟩

/-- Everything that retirement can do: the issuing warp moves, its clock counts at most one chain outside handler code, and
nothing else changes. -/
theorem retire_moved (s0 s : State) (closes : Bool) (hw : s.issue.warp < s.warps.length) (hc : s.issue.count = 1) :
    ∃ y, State.retire s0 closes s = s.putW y ∧ Moved s0.issue.entry s.cw y ∧
      (y.lclk = s.cw.lclk ∨ (s0.inHandler = false ∧ y.lclk = s.cw.lclk + 1)) := by
  have len : ∀ y, (s.putW y).issue.warp < (s.putW y).warps.length := fun y => by
    show s.issue.warp < (s.warps.set _ _).length
    simpa using hw
  obtain ⟨y, hy, my, cy⟩ := advance_moved s0 s closes hw
  unfold State.retire
  by_cases hh : s0.inHandler = true
  · simp only [hh, if_true]
    exact ⟨y, hy, my, .inl cy⟩
  · have hh' : s0.inHandler = false := by simpa using hh
    simp only [hh', Bool.false_eq_true, if_false]
    split
    · obtain ⟨v, hv, mv, cv⟩ := advance_moved s0 s false hw
      exact ⟨v, hv, mv, .inl cv⟩
    obtain ⟨z, hz, mz⟩ := count_moved s0 (s.putW y)
    have cz := count_clock s0 (s.putW y) (len y) hc
    rw [hz, State.putW_putW, State.cw_putW s z hw, State.cw_putW s y hw, cy] at cz
    rw [State.cw_putW s y hw] at mz
    obtain ⟨u, hu, mu, cu⟩ := noteStep_moved s0 (s.putW z) (len z)
    rw [State.cw_putW s z hw] at mu cu
    rw [hy, hz, State.putW_putW, hu, State.putW_putW]
    refine ⟨u, Eq.refl _, my.trans (mz.trans mu), ?_⟩
    rcases cz with cz | cz
    · exact .inl (cu.trans cz)
    · exact .inr ⟨trivial, cu.trans cz⟩

end Sys2Proof.Machine
end

