-- ==== Sys2Proof/Laws/Frame.lean ====
section
/-! SUPPORT. What an instruction that writes registers only leaves as it was (the frames of Safety): one lemma for each kind
of write, and their use for an instruction that completes. -/

namespace Sys2Proof.Machine

open Sys2Proof

/-! Association lists. -/

theorem alGet_alSet {α : Type} (l : List (Nat × α)) (k j : Nat) (v : α) :
    alGet (alSet l k v) j = if j = k then some v else alGet l j := by
  induction l with
  | nil => simp [alSet, alGet, eq_comm]
  | cons e r ih =>
    obtain ⟨i, u⟩ := e
    simp only [alSet]
    by_cases h1 : k < i
    · simp only [h1, if_true, alGet]
      by_cases h2 : j = k
      · subst h2; simp
      · simp [h2, Ne.symm h2]
    · by_cases h2 : i = k
      · subst h2
        simp only [h1, if_false, if_true, alGet]
        by_cases h3 : j = i
        · subst h3; simp
        · simp [h3, Ne.symm h3]
      · simp only [h1, h2, if_false, alGet, ih]
        by_cases h3 : i = j
        · subst h3; simp [h2]
        · simp [h3]

theorem alGet_alErase {α : Type} (l : List (Nat × α)) (k j : Nat) :
    alGet (alErase l k) j = if j = k then none else alGet l j := by
  induction l with
  | nil => simp [alErase, alGet]
  | cons e r ih =>
    obtain ⟨i, u⟩ := e
    unfold alErase at ih ⊢
    by_cases h : i = k
    · subst h
      simp only [List.filter, ne_eq, not_true_eq_false, decide_false, ih, alGet]
      by_cases h3 : j = i
      · simp [h3]
      · simp [h3, Ne.symm h3]
    · simp only [List.filter, ne_eq, h, not_false_eq_true, decide_true, alGet, ih]
      by_cases h3 : i = j
      · subst h3; simp [h]
      · simp [h3]

/-- A sparse write gives the written value at its key and keeps every other key. -/
theorem spGet_spSet {α : Type} [DecidableEq α] (d : α) (l : List (Nat × α)) (k j : Nat) (v : α) :
    spGet d (spSet d l k v) j = if j = k then v else spGet d l j := by
  unfold spGet spSet
  by_cases h : v = d
  · simp only [h, if_true, alGet_alErase]
    by_cases h2 : j = k <;> simp [h2]
  · simp only [h, if_false, alGet_alSet]
    by_cases h2 : j = k <;> simp [h2]

theorem State.quarter_setQuarter (s : State) (q p : Nat) (k : Quarter) :
    (s.setQuarter q k).quarter p = if p = q then k else s.quarter p := by
  unfold State.quarter State.setQuarter
  rw [alGet_alSet]
  by_cases h : p = q <;> simp [h]

/-! Register names. -/

/-- Valid scalar names of one window stand in different places (R64). -/
theorem Warp.skey_inj (x : Warp) (n m : Nat) (hn : n < 64) (hm : m < 64) (h : x.skey n = x.skey m) : n = m := by
  unfold Warp.skey at h
  split at h <;> split at h <;> omega

theorem Warp.vkey_inj (x : Warp) (n m : Nat) (hn : n < 8 ∨ n - 8 < x.effF) (hm : m < 8 ∨ m - 8 < x.effF)
    (h : x.vkey n = x.vkey m) : n = m := by
  unfold Warp.effF at hn hm
  unfold Warp.vkey at h
  split at h <;> split at h
  · exact h
  · omega
  · omega
  · have hn' : n - 8 < x.ring := by omega
    have hm' : m - 8 < x.ring := by omega
    have h' : (x.vb + (n - 8)) % x.ring = (x.vb + (m - 8)) % x.ring := by omega
    have := Nat.ModEq.add_left_cancel' x.vb (h' : _ ≡ _ [MOD x.ring])
    unfold Nat.ModEq at this
    rw [Nat.mod_eq_of_lt hn', Nat.mod_eq_of_lt hm'] at this
    omega

/-! Frames put together. -/

theorem SameElsewhere.putW (s : State) (y : Warp) : SameElsewhere s (s.putW y) :=
  ⟨rfl, rfl, rfl, rfl, rfl, rfl, rfl, rfl, rfl, rfl, rfl, rfl, rfl, rfl, fun v h => s.warp_putW_ne y v h, fun _ _ => rfl⟩

theorem SameElsewhere.trans {s t u : State} (h : SameElsewhere s t) (k : SameElsewhere t u)
    (hw : t.issue.warp = s.issue.warp) (hq : t.quarterOf s.issue.warp = s.quarterOf s.issue.warp) : SameElsewhere s u where
  mem := k.mem.trans h.mem
  lineKeys := k.lineKeys.trans h.lineKeys
  tags := k.tags.trans h.tags
  keySlots := k.keySlots.trans h.keySlots
  sys := k.sys.trans h.sys
  dies := k.dies.trans h.dies
  clusters := k.clusters.trans h.clusters
  cores := k.cores.trans h.cores
  launches := k.launches.trans h.launches
  blocks := k.blocks.trans h.blocks
  agenda := k.agenda.trans h.agenda
  clock := k.clock.trans h.clock
  freeCtr := k.freeCtr.trans h.freeCtr
  seq := k.seq.trans h.seq
  warps := fun v hv => (k.warps v (by rw [hw]; exact hv)).trans (h.warps v hv)
  quarters := fun q hn => (k.quarters q (by rw [hw, hq]; exact hn)).trans (h.quarters q hn)

/-- What the registers read as depends on the issuing warp's files and window, on its quarter's reserve and on whether
handler code runs. -/
structure SameReads (s t : State) : Prop where
  issue : t.issue.warp = s.issue.warp ∧ t.issue.entry = s.issue.entry ∧ t.issue.replay = s.issue.replay
  handler : t.inHandler = s.inHandler
  sregs : t.cw.sregs = s.cw.sregs ∧ (t.quarter (t.quarterOf t.issue.warp)).rs = (s.quarter (s.quarterOf s.issue.warp)).rs
  vregs : t.cw.vregs = s.cw.vregs ∧ (t.quarter (t.quarterOf t.issue.warp)).rv = (s.quarter (s.quarterOf s.issue.warp)).rv
  kregs : t.cw.kregs = s.cw.kregs
  window : t.cw.vb = s.cw.vb ∧ t.cw.sb = s.cw.sb ∧ t.cw.base = s.cw.base ∧ t.cw.ext = s.cw.ext
  mask : t.cs.mask = s.cs.mask

theorem SameReads.regS {s t : State} (h : SameReads s t) (n : Nat) : t.regS n = s.regS n := by
  unfold State.regS
  rw [h.handler, h.sregs.1, h.sregs.2]
  simp only [Warp.skey, h.window.2.1]

theorem SameReads.regV {s t : State} (h : SameReads s t) (n : Nat) : t.regV n = s.regV n := by
  unfold State.regV
  rw [h.handler, h.vregs.1, h.vregs.2]
  simp only [Warp.vkey, Warp.ring, Warp.allot, h.window.1, h.window.2.2.1, h.window.2.2.2]

theorem SameReads.regK {s t : State} (h : SameReads s t) (n : Nat) : t.regK n = s.regK n := by
  unfold State.regK
  rw [h.kregs, h.mask]

theorem SameReads.same (s : State) : SameReads s s :=
  ⟨by simp, Eq.refl _, by simp, by simp, Eq.refl _, by simp, Eq.refl _⟩

theorem SameReads.trans {s t u : State} (h : SameReads s t) (k : SameReads t u) : SameReads s u where
  issue := by simp [k.issue, h.issue]
  handler := k.handler.trans h.handler
  sregs := ⟨k.sregs.1.trans h.sregs.1, k.sregs.2.trans h.sregs.2⟩
  vregs := ⟨k.vregs.1.trans h.vregs.1, k.vregs.2.trans h.vregs.2⟩
  kregs := k.kregs.trans h.kregs
  window := by simp [k.window, h.window]
  mask := k.mask.trans h.mask

/-- A handler's place among the handlers of a warp does not depend on where its strand stands. -/
theorem handlerAt_of_records {x y : Warp} (h : y.handlers.map Handler.record = x.handlers.map Handler.record) (e : Nat) :
    (y.handlerAt e).isSome = (x.handlerAt e).isSome := by
  unfold Warp.handlerAt
  cases hx : x.handlers <;> cases hy : y.handlers <;> simp [hx, hy, Handler.record] at h ⊢
  obtain ⟨⟨h1, -⟩, -⟩ := h
  rw [h1]
  split <;> rfl

/-- A warp that has moved reads the same. -/
theorem Moved.reads {s : State} {y : Warp} (hw : s.issue.warp < s.warps.length) {e : Nat} (h : Moved e s.cw y) :
    SameReads s (s.putW y) := by
  have hc := State.cw_putW s y hw
  have hq : (s.putW y).quarterOf s.issue.warp = s.quarterOf s.issue.warp := by
    show State.coreOfWarp (s.putW y) s.issue.warp * 4 + ((s.putW y).cw).quarter = _
    unfold State.coreOfWarp State.quarterOf
    show (s.block ((s.putW y).cw).blk).core * 4 + _ = _
    rw [hc, h.control.place.1, h.control.place.2.2.1]
    rfl
  refine { issue := ⟨Eq.refl _, Eq.refl _, Eq.refl _⟩, handler := ?_, sregs := ⟨?_, ?_⟩, vregs := ⟨?_, ?_⟩, kregs := ?_,
           window := ?_, mask := ?_ }
  · show ((s.putW y).cw.handlerAt s.issue.entry).isSome = (s.cw.handlerAt s.issue.entry).isSome
    rw [hc]
    exact handlerAt_of_records h.control.handlers _
  · rw [hc]; exact h.regs.2.1
  · show ((s.putW y).quarter ((s.putW y).quarterOf s.issue.warp)).rs = _
    rw [hq]; rfl
  · rw [hc]; exact h.regs.1
  · show ((s.putW y).quarter ((s.putW y).quarterOf s.issue.warp)).rv = _
    rw [hq]; rfl
  · rw [hc]; exact h.regs.2.2.1
  · rw [hc]
    exact ⟨h.control.window.2.2.1, h.control.window.2.2.2.1, h.control.window.1, h.control.window.2.1⟩
  · unfold State.cs
    rw [hc]
    show ((y.runner s.issue.entry).getD _).mask = _
    have := h.runs s.issue.entry
    cases h1 : y.runner s.issue.entry <;> cases h2 : s.cw.runner s.issue.entry <;> rw [h1, h2] at this <;>
      simp [Strand.held] at this ⊢
    exact this.1

/-- What stays when a word retires: everything elsewhere, the warp's control registers, its strands, all registers; the
clock counts at most once. -/
structure Stays (s t : State) : Prop where
  elsewhere : SameElsewhere s t
  control : SameControl s.cw t.cw
  strands : SameStrands s t
  reads : SameReads s t
  fst : t.cw.fst = s.cw.fst
  warps : t.warps.length = s.warps.length

theorem Stays.trans {s t u : State} (h : Stays s t) (k : Stays t u) : Stays s u where
  elsewhere := h.elsewhere.trans k.elsewhere h.reads.issue.1 (by
    have hb : t.blocks = s.blocks := h.elsewhere.blocks
    have hi := h.reads.issue.1
    have ha := h.control.place
    unfold State.quarterOf State.coreOfWarp State.block
    rw [hb]
    have e1 : t.warp s.issue.warp = t.cw := by unfold State.cw; rw [hi]
    rw [e1, ha.1, ha.2.2.1]; rfl)
  control := h.control.trans k.control
  strands := ⟨fun e => (k.strands.held e).trans (h.strands.held e),
    fun e he => (k.strands.still e (by rw [h.reads.issue.2.1]; exact he)).trans (h.strands.still e he)⟩
  reads := h.reads.trans k.reads
  fst := k.fst.trans h.fst
  warps := k.warps.trans h.warps

theorem retire_stays (s0 s : State) (closes : Bool) (hw : s.issue.warp < s.warps.length) (hc : s.issue.count = 1)
    (he : s0.issue.entry = s.issue.entry) :
    Stays s (State.retire s0 closes s) ∧ ((State.retire s0 closes s).cw.lclk = s.cw.lclk ∨
      (s0.inHandler = false ∧ (State.retire s0 closes s).cw.lclk = s.cw.lclk + 1)) := by
  obtain ⟨y, hy, my, cy⟩ := retire_moved s0 s closes hw hc
  rw [hy]
  have hcw := State.cw_putW s y hw
  refine ⟨{ elsewhere := SameElsewhere.putW s y, control := by rw [hcw]; exact my.control, strands := ⟨?_, ?_⟩,
            reads := my.reads hw, fst := by rw [hcw]; exact my.regs.2.2.2, warps := ?_ }, by rw [hcw]; exact cy⟩
  · intro f; rw [hcw]; exact my.held f
  · intro f hf
    rw [hcw]; exact my.still f (by rw [he]; exact hf)
  · show (s.warps.set _ _).length = _
    simp

end Sys2Proof.Machine
end

