-- ==== Sys2Proof/Laws/Write.lean ====
section
/-! SUPPORT. One lemma for each kind of register write: what it gives and everything it leaves as it was. -/

namespace Sys2Proof.Machine

open Sys2Proof

theorem quarterOf_of_place {s t : State} (w : Nat) (hb : t.blocks = s.blocks) (h1 : (t.warp w).blk = (s.warp w).blk)
    (h2 : (t.warp w).quarter = (s.warp w).quarter) : t.quarterOf w = s.quarterOf w := by
  unfold State.quarterOf State.coreOfWarp State.block
  rw [hb, h1, h2]

theorem SameControl.files (x : Warp) (v : List (Nat × Vec)) (r : List (Nat × DWord)) (k : List (Nat × Mask)) :
    SameControl x { x with vregs := v, sregs := r, kregs := k } where
  place := by simp
  window := by simp
  ctl := by simp
  lanes := by simp
  rest := by simp
  handlers := rfl
  engFaults := fun _ => rfl

/-- What a write of registers of the issuing warp, or of its reserve, leaves as it was. -/
structure Wrote (s t : State) : Prop where
  elsewhere : SameElsewhere s t
  control : SameControl s.cw t.cw
  strands : SameStrands s t
  issue : t.issue = s.issue
  handlers : t.cw.handlers = s.cw.handlers
  strandsEq : t.cw.strands = s.cw.strands
  fst : t.cw.fst = s.cw.fst
  clock : t.cw.lclk = s.cw.lclk
  warps : t.warps.length = s.warps.length

theorem Wrote.inHandler {s t : State} (h : Wrote s t) : t.inHandler = s.inHandler := by
  unfold State.inHandler Warp.handlerAt
  rw [h.issue, h.handlers]

theorem Wrote.cs {s t : State} (h : Wrote s t) : t.cs = s.cs := by
  unfold State.cs Warp.runner Warp.strand
  rw [h.issue, h.handlers, h.strandsEq]

theorem Wrote.quarterOf {s t : State} (h : Wrote s t) : t.quarterOf t.issue.warp = s.quarterOf s.issue.warp := by
  have hi : t.issue.warp = s.issue.warp := by rw [h.issue]
  rw [hi]
  have e1 : t.warp s.issue.warp = t.cw := by unfold State.cw; rw [hi]
  exact quarterOf_of_place _ h.elsewhere.blocks (by rw [e1, h.control.place.1]; rfl) (by rw [e1, h.control.place.2.2.1]; rfl)

theorem Wrote.trans {s t u : State} (h : Wrote s t) (k : Wrote t u) : Wrote s u where
  elsewhere := h.elsewhere.trans k.elsewhere (by rw [h.issue]) (by
    have := h.quarterOf
    rw [h.issue] at this; exact this)
  control := h.control.trans k.control
  strands := ⟨fun e => (k.strands.held e).trans (h.strands.held e),
    fun e he => (k.strands.still e (by rw [h.issue]; exact he)).trans (h.strands.still e he)⟩
  issue := k.issue.trans h.issue
  handlers := k.handlers.trans h.handlers
  strandsEq := k.strandsEq.trans h.strandsEq
  fst := k.fst.trans h.fst
  clock := k.clock.trans h.clock
  warps := k.warps.trans h.warps

/-- A write of the issuing warp's own files. -/
theorem Wrote.putW (s : State) (y : Warp) (hw : s.issue.warp < s.warps.length) (hc : SameControl s.cw y)
    (hh : y.handlers = s.cw.handlers) (hs : y.strands = s.cw.strands) (hf : y.fst = s.cw.fst) (hl : y.lclk = s.cw.lclk) :
    Wrote s (s.putW y) := by
  have e := State.cw_putW s y hw
  refine { elsewhere := SameElsewhere.putW s y, control := by rw [e]; exact hc, strands := ⟨?_, ?_⟩, issue := rfl,
           handlers := by rw [e]; exact hh, strandsEq := by rw [e]; exact hs, fst := by rw [e]; exact hf,
           clock := by rw [e]; exact hl, warps := by show (s.warps.set _ _).length = _; simp }
  · intro f; unfold Warp.strand; rw [e, hs]
  · intro f _; unfold Warp.strand; rw [e, hs]

/-- A write of the reserve of the issuing warp's quarter. -/
theorem Wrote.setQuarter (s : State) (k : Quarter) : Wrote s (s.setQuarter (s.quarterOf s.issue.warp) k) where
  elsewhere := ⟨rfl, rfl, rfl, rfl, rfl, rfl, rfl, rfl, rfl, rfl, rfl, rfl, rfl, rfl, fun _ _ => rfl, fun q hq => by
    rw [State.quarter_setQuarter, if_neg hq]⟩
  control := SameControl.same _
  strands := ⟨fun _ => rfl, fun _ _ => rfl⟩
  issue := rfl
  handlers := rfl
  strandsEq := rfl
  fst := rfl
  clock := rfl
  warps := rfl

/-- Everything a scalar write does: the register d takes the value, and nothing else changes (R64, R81). -/
theorem wrS_spec (s : State) (d : Nat) (v : DWord) (hw : s.issue.warp < s.warps.length) (hd : d < 64) :
    Wrote s (s.wrS d v) ∧ (∀ n, n < 64 → (s.wrS d v).regS n = if n = d then v else s.regS n) ∧
      (∀ n, (s.wrS d v).regV n = s.regV n) ∧ (∀ n, (s.wrS d v).regK n = s.regK n) := by
  have hwr : Wrote s (s.wrS d v) := by
    unfold State.wrS
    split
    · exact Wrote.setQuarter s _
    · exact Wrote.putW s _ hw (SameControl.files _ _ _ _) rfl rfl rfl rfl
  have hi := hwr.issue
  have hq := hwr.quarterOf
  refine ⟨hwr, ?_, ?_, ?_⟩
  · intro n hn
    unfold State.regS
    rw [hwr.inHandler, hq]
    by_cases hh : s.inHandler = true
    · have e : s.wrS d v = s.setQuarter (s.quarterOf s.issue.warp)
          { s.quarter (s.quarterOf s.issue.warp) with rs := spSet 0 (s.quarter (s.quarterOf s.issue.warp)).rs d v } := by
        unfold State.wrS; rw [if_pos hh]
      rw [e, State.quarter_setQuarter]
      simp only [hh, if_true, spGet_spSet]
    · have e : s.wrS d v = s.putW { s.cw with sregs := spSet 0 s.cw.sregs (s.cw.skey d) v } := by
        unfold State.wrS; rw [if_neg hh]
      rw [e, State.cw_putW s _ hw]
      have hke : ({ s.cw with sregs := spSet 0 s.cw.sregs (s.cw.skey d) v } : Warp).skey n = s.cw.skey n := rfl
      simp only [hh, if_false, hke, spGet_spSet, Bool.false_eq_true]
      by_cases hnd : n = d
      · simp [hnd]
      · rw [if_neg hnd, if_neg (fun hc => hnd (Warp.skey_inj _ _ _ hn hd hc))]
  · intro n
    unfold State.regV
    rw [hwr.inHandler, hq]
    by_cases hh : s.inHandler = true
    · have e : s.wrS d v = s.setQuarter (s.quarterOf s.issue.warp)
          { s.quarter (s.quarterOf s.issue.warp) with rs := spSet 0 (s.quarter (s.quarterOf s.issue.warp)).rs d v } := by
        unfold State.wrS; rw [if_pos hh]
      rw [e, State.quarter_setQuarter]
      simp only [hh, if_true]
    · have e : s.wrS d v = s.putW { s.cw with sregs := spSet 0 s.cw.sregs (s.cw.skey d) v } := by
        unfold State.wrS; rw [if_neg hh]
      rw [e, State.cw_putW s _ hw]
      simp only [hh, if_false, Bool.false_eq_true]
      rfl
  · intro n
    unfold State.regK
    rw [hwr.cs]
    have hkr : (s.wrS d v).cw.kregs = s.cw.kregs := by
      unfold State.wrS
      split
      · rfl
      · rw [State.cw_putW s _ hw]
    rw [hkr]

/-- Valid names are the same after a write of registers. -/
theorem Wrote.vname {s t : State} (h : Wrote s t) (n : Nat) : t.vname n = s.vname n := by
  unfold State.vname
  rw [h.inHandler]
  unfold Warp.effF Warp.ring Warp.allot
  rw [h.control.window.1, h.control.window.2.1, h.control.window.2.2.2.2.1]

/-- Everything a vector write does. -/
theorem wrV_spec (s : State) (d : Nat) (v : Vec) (hw : s.issue.warp < s.warps.length) (hd : s.vname d = true) :
    Wrote s (s.wrV d v) ∧ (∀ n, s.vname n = true → (s.wrV d v).regV n = if n = d then v else s.regV n) ∧
      (∀ n, (s.wrV d v).regS n = s.regS n) ∧ (∀ n, (s.wrV d v).regK n = s.regK n) := by
  have hwr : Wrote s (s.wrV d v) := by
    unfold State.wrV
    split
    · exact Wrote.setQuarter s _
    · exact Wrote.putW s _ hw (SameControl.files _ _ _ _) rfl rfl rfl rfl
  have hi := hwr.issue
  have hq := hwr.quarterOf
  refine ⟨hwr, ?_, ?_, ?_⟩
  · intro n hn
    unfold State.regV
    rw [hwr.inHandler, hq]
    by_cases hh : s.inHandler = true
    · have e : s.wrV d v = s.setQuarter (s.quarterOf s.issue.warp)
          { s.quarter (s.quarterOf s.issue.warp) with rv := spSet 0 (s.quarter (s.quarterOf s.issue.warp)).rv d v } := by
        unfold State.wrV; rw [if_pos hh]
      rw [e, State.quarter_setQuarter]
      simp only [hh, if_true, spGet_spSet]
    · have e : s.wrV d v = s.putW { s.cw with vregs := spSet 0 s.cw.vregs (s.cw.vkey d) v } := by
        unfold State.wrV; rw [if_neg hh]
      rw [e, State.cw_putW s _ hw]
      have hke : ({ s.cw with vregs := spSet 0 s.cw.vregs (s.cw.vkey d) v } : Warp).vkey n = s.cw.vkey n := rfl
      simp only [hh, if_false, hke, spGet_spSet, Bool.false_eq_true]
      by_cases hnd : n = d
      · simp [hnd]
      · unfold State.vname at hn hd
        simp only [hh, Bool.false_eq_true, if_false, Bool.or_eq_true, decide_eq_true_eq] at hn hd
        rw [if_neg hnd, if_neg (fun hc => hnd (Warp.vkey_inj _ _ _ hn hd hc))]
  · intro n
    unfold State.regS
    rw [hwr.inHandler, hq]
    by_cases hh : s.inHandler = true
    · have e : s.wrV d v = s.setQuarter (s.quarterOf s.issue.warp)
          { s.quarter (s.quarterOf s.issue.warp) with rv := spSet 0 (s.quarter (s.quarterOf s.issue.warp)).rv d v } := by
        unfold State.wrV; rw [if_pos hh]
      rw [e, State.quarter_setQuarter]
      simp only [hh, if_true]
    · have e : s.wrV d v = s.putW { s.cw with vregs := spSet 0 s.cw.vregs (s.cw.vkey d) v } := by
        unfold State.wrV; rw [if_neg hh]
      rw [e, State.cw_putW s _ hw]
      simp only [hh, if_false, Bool.false_eq_true]
      rfl
  · intro n
    unfold State.regK
    rw [hwr.cs]
    have hkr : (s.wrV d v).cw.kregs = s.cw.kregs := by
      unfold State.wrV
      split
      · rfl
      · rw [State.cw_putW s _ hw]
    rw [hkr]

/-- Everything a merge into a vector register does: its lanes take the values, the other lanes and registers stay. -/
theorem wrLanes_spec (s : State) (d : Nat) (m : Mask) (f : Nat → Word) (hw : s.issue.warp < s.warps.length)
    (hd : s.vname d = true) :
    Wrote s (s.wrLanes d m f) ∧ (∀ n, s.vname n = true → n ≠ d → (s.wrLanes d m f).regV n = s.regV n) ∧
      (∀ n, (s.wrLanes d m f).regS n = s.regS n) ∧ (∀ n, (s.wrLanes d m f).regK n = s.regK n) ∧
      (∀ l, l < 32 → laneOf ((s.wrLanes d m f).regV d) l = if m.getLsbD l then f l else laneOf (s.regV d) l) := by
  obtain ⟨h1, h2, h3, h4⟩ := wrV_spec s d (vecMerge m f (s.regV d)) hw hd
  refine ⟨h1, fun n hn hnd => ?_, h3, h4, fun l hl => ?_⟩
  · have := h2 n hn
    rw [if_neg hnd] at this; exact this
  · show laneOf ((s.wrV d _).regV d) l = _
    rw [h2 d hd, if_pos rfl, laneOf_vecMerge _ _ _ _ hl]

/-- Everything a write of a mask register does. -/
theorem wrK_spec (s : State) (d : Nat) (v : Mask) (hw : s.issue.warp < s.warps.length) :
    Wrote s (s.wrK d v) ∧ (∀ n, (s.wrK d v).regS n = s.regS n) ∧ (∀ n, (s.wrK d v).regV n = s.regV n) ∧
      (∀ n, n ≠ 0 → (s.wrK d v).regK n = if n = d then v else s.regK n) ∧ (s.wrK d v).regK 0 = s.regK 0 := by
  have hwr : Wrote s (s.wrK d v) := Wrote.putW s _ hw (SameControl.files _ _ _ _) rfl rfl rfl rfl
  have hcw : (s.wrK d v).cw = { s.cw with kregs := spSet 0 s.cw.kregs d v } := State.cw_putW s _ hw
  have hq := hwr.quarterOf
  refine ⟨hwr, ?_, ?_, ?_, ?_⟩
  · intro n
    unfold State.regS
    rw [hwr.inHandler, hq, hcw]
    rfl
  · intro n
    unfold State.regV
    rw [hwr.inHandler, hq, hcw]
    rfl
  · intro n hn
    unfold State.regK
    rw [hcw]
    simp only [spGet_spSet, if_neg hn]
  · unfold State.regK
    rw [hwr.cs]; rfl

end Sys2Proof.Machine
end

