-- ==== Sys2Proof/Laws/Result.lean ====
section
/-! SUPPORT. From a meaning that writes registers to what its instruction does (the results and frames of Safety). -/

namespace Sys2Proof.Machine

open Sys2Proof

/-- An instruction runs a meaning in the shell of its word. -/
structure Runs (i : Instr) (info : OpInfo) (body : Body) : Prop where
  info : i.info = some info
  exec : ∀ s, exec i s = perform (encode i) body s

theorem runs {i : Instr} {info : OpInfo} {body : Body} {n : Nat} {g : BitVec 21}
    (hx : ∀ s, exec i s = perform (wordOf n g) body s) (hin : opInfo n = some info) (ho : i.opcode = n) (hg : i.fields = g) :
    Runs i info body := by
  subst ho hg
  exact ⟨hin, hx⟩

/-- A ready instruction whose meaning answers a state retires from it. -/
theorem Runs.ok {i : Instr} {info : OpInfo} {body : Body} (hr : Runs i info body) {s t : State} (h : ready i s = true)
    (hb : body (s.atInstr i) = .ok t) : Machine.exec i s = .next (s.retired i t) := by
  rw [hr.exec]; exact perform_ok hr.info rfl h hb

theorem Runs.stop {i : Instr} {info : OpInfo} {body : Body} (hr : Runs i info body) {s : State} {p : Stop}
    (h : ready i s = true) (hb : body (s.atInstr i) = .error p) :
    Machine.exec i s = .next (State.settle (s.atInstr i) info (encode i) p) := by
  rw [hr.exec]; exact perform_stop hr.info rfl h hb

/-! What `ready` says of the registers that a word names. -/

theorem ready_fields {i : Instr} {s : State} {info : OpInfo} (hi : i.info = some info) (h : ready i s = true) :
    fieldsOk i.opcode info i.fields = true := (ready_parts hi h).1

theorem ready_list {i : Instr} {s : State} (h : ready i s = true) : s.issue.warp < s.warps.length := by
  cases hi : i.info with
  | none => unfold ready at h; rw [hi] at h; simp at h
  | some info => exact s.issue_warp_in_list (ready_parts hi h).2.1

/-- Every register of a field that is written is a valid name. -/
theorem ready_vname {i : Instr} {s : State} {info : OpInfo} (hi : i.info = some info) (h : ready i s = true) (n : Nat)
    (hn : n ∈ wordWrites info (encode i)) (h2 : n < 200) : s.vname n = true := by
  have := (ready_parts hi h).2.2.2.2.2.2.1
  unfold State.namesOk at this
  rw [List.all_eq_true] at this
  have := this n (List.mem_append_right _ hn)
  simpa [h2] using this

theorem dField (d a b : BitVec 7) : (d ++ a ++ b).extractLsb' 14 7 = d := by
  apply BitVec.eq_of_getLsbD_eq
  intro i hi
  rw [BitVec.getLsbD_extractLsb', BitVec.getLsbD_append, BitVec.getLsbD_append]
  simp [hi, show ¬ 14 + i < 7 by omega, show ¬ 14 + i - 7 < 7 by omega, show 14 + i - 7 - 7 = i by omega]
theorem dFieldJ (d : BitVec 7) (m : BitVec 14) : (d ++ m).extractLsb' 14 7 = d := by
  apply BitVec.eq_of_getLsbD_eq
  intro i hi
  rw [BitVec.getLsbD_extractLsb', BitVec.getLsbD_append]
  simp [hi, show ¬ 14 + i < 14 by omega, show 14 + i - 14 = i by omega]

/-- The d field of a word is one that its entry admits. -/
theorem ready_dOk {i : Instr} {s : State} {info : OpInfo} (hi : i.info = some info) (h : ready i s = true)
    (hf : info.fmt ≠ .B) : fieldOk info.d (i.fields.extractLsb' 14 7) = true := by
  have := ready_fields hi h
  unfold fieldsOk at this
  cases hfm : info.fmt <;> rw [hfm] at this <;> simp only [Bool.and_eq_true] at this
  · exact this.1.1
  · exact this.1.1
  · exact this.1
  · exact absurd hfm hf

theorem ready_sdst {i : Instr} {s : State} {info : OpInfo} {d : BitVec 7} (hi : i.info = some info) (h : ready i s = true)
    (hf : info.fmt ≠ .B) (hk : info.d = .sdst ∨ info.d = .sboth) (hd : i.fields.extractLsb' 14 7 = d) : d.toNat < 64 := by
  have := ready_dOk hi h hf
  rw [hd] at this
  rcases hk with hk | hk <;> rw [hk] at this <;> simpa [fieldOk] using this

theorem ready_kdst {i : Instr} {s : State} {info : OpInfo} {d : BitVec 7} (hi : i.info = some info) (h : ready i s = true)
    (hf : info.fmt ≠ .B) (hk : info.d = .kdst) (hd : i.fields.extractLsb' 14 7 = d) : d.toNat ≠ 0 := by
  have := ready_dOk hi h hf
  rw [hd, hk] at this
  simp [fieldOk] at this
  omega

theorem dOf_encode (i : Instr) : dOf (encode i) = (i.fields.extractLsb' 14 7).toNat := by
  unfold dOf encode fieldOf field
  rw [BitVec.toNat_append]
  have h1 := i.fields.isLt
  rw [← Nat.shiftLeft_add_eq_or_of_lt h1]
  simp only [BitVec.extractLsb'_toNat, Nat.shiftRight_eq_div_pow, Nat.shiftLeft_eq]
  omega

/-- The registers that the d field of a word writes are valid names. -/
theorem ready_vdst {i : Instr} {s : State} {info : OpInfo} {d : BitVec 7} (hi : i.info = some info) (h : ready i s = true)
    (n : Nat) (hk : info.d = .vdst n ∨ info.d = .vboth n ∨ (n = 2 ∧ (info.d = .vpdst ∨ info.d = .vpboth)))
    (hd : i.fields.extractLsb' 14 7 = d) (j : Nat) (hj : j < n) (h2 : d.toNat + j < 200) : s.vname (d.toNat + j) = true := by
  refine ready_vname hi h _ ?_ h2
  unfold wordWrites
  rw [dOf_encode, hd]
  refine List.mem_append_left _ (List.mem_append_left _ ?_)
  have hm : ∀ m, j < m → d.toNat + j ∈ runIds 0 d.toNat m := by
    intro m hm
    unfold runIds
    rw [List.mem_map]
    exact ⟨j, by simpa using hm, by omega⟩
  rcases hk with hk | hk | ⟨hn, hk | hk⟩ <;> rw [hk] <;> unfold kindWrites <;> first | exact hm _ hj | exact hm 2 (by omega)

/-! Instructions that write registers. -/

/-- A meaning that only writes registers: everything its retirement leaves. -/
theorem wrote_retire {i : Instr} {s t : State} (h : ready i s = true) (hw : Wrote (s.atInstr i) t) :
    Stays t (s.retired i t) ∧ ((s.retired i t).cw.lclk = t.cw.lclk ∨
      (s.inHandler = false ∧ (s.retired i t).cw.lclk = t.cw.lclk + 1)) := by
  have hl := ready_list h
  have := fun c => retire_stays (s.atInstr i) t c (by rw [hw.issue, hw.warps]; exact hl) (by rw [hw.issue]; rfl)
    (by rw [hw.issue])
  exact this _

theorem SameElsewhere.ofAtInstr {s t : State} {i : Instr} (h : SameElsewhere (s.atInstr i) t) : SameElsewhere s t :=
  ⟨h.mem, h.lineKeys, h.tags, h.keySlots, h.sys, h.dies, h.clusters, h.cores, h.launches, h.blocks, h.agenda, h.clock,
    h.freeCtr, h.seq, h.warps, h.quarters⟩

theorem Wrote.elsewhere' {s t : State} {i : Instr} (hw : Wrote (s.atInstr i) t) (h : ready i s = true) :
    SameElsewhere s (s.retired i t) := by
  have k := (wrote_retire h hw).1
  refine SameElsewhere.ofAtInstr (i := i) ?_
  exact SameElsewhere.trans (s := s.atInstr i) hw.elsewhere k.elsewhere (by rw [hw.issue]) (by
    have := hw.quarterOf
    rw [hw.issue] at this; exact this)

theorem Wrote.control' {s t : State} {i : Instr} (hw : Wrote (s.atInstr i) t) (h : ready i s = true) :
    SameControl s.cw (s.retired i t).cw := SameControl.trans (x := (s.atInstr i).cw) hw.control (wrote_retire h hw).1.control

theorem Wrote.strands' {s t : State} {i : Instr} (hw : Wrote (s.atInstr i) t) (h : ready i s = true) :
    SameStrands s (s.retired i t) := by
  have k := (wrote_retire h hw).1.strands
  refine ⟨fun e => (k.held e).trans (hw.strands.held e), fun e he => (k.still e ?_).trans (hw.strands.still e he)⟩
  rw [hw.issue]; exact he

theorem Wrote.clock' {s t : State} {i : Instr} (hw : Wrote (s.atInstr i) t) (h : ready i s = true) :
    ClockAtMostOne s (s.retired i t) := by
  have k := (wrote_retire h hw).2
  rw [hw.clock] at k
  exact k

theorem scalarFrame_of {i : Instr} {s t : State} (d : Nat) (h : ready i s = true) (hw : Wrote (s.atInstr i) t)
    (hs : ∀ n, n < 64 → n ≠ d → t.regS n = s.regS n) (hv : ∀ n, t.regV n = s.regV n) (hk : ∀ n, t.regK n = s.regK n) :
    ScalarFrame s (s.retired i t) (fun n => n = d) := by
  have k := (wrote_retire h hw).1
  refine { elsewhere := hw.elsewhere' h, control := hw.control' h, strands := hw.strands' h, clock := hw.clock' h,
           scalars := ?_, vectors := ?_, masks := ?_ }
  · intro n hn _ hd; rw [k.reads.regS, hs n hn hd]
  · intro n _; rw [k.reads.regV, hv]
  · intro n; rw [k.reads.regK, hk]

theorem vectorFrame_of {i : Instr} {s t : State} (p : Nat → Prop) (h : ready i s = true) (hw : Wrote (s.atInstr i) t)
    (hs : ∀ n, t.regS n = s.regS n) (hv : ∀ n, s.vname n = true → ¬ p n → t.regV n = s.regV n)
    (hl : ∀ n l, s.vname n = true → l < 32 → s.active.getLsbD l = false → laneOf (t.regV n) l = laneOf (s.regV n) l)
    (hk : ∀ n, t.regK n = s.regK n) : VectorFrame s (s.retired i t) p := by
  have k := (wrote_retire h hw).1
  refine { elsewhere := hw.elsewhere' h, control := hw.control' h, strands := hw.strands' h, clock := hw.clock' h,
           scalars := ?_, vectors := ?_, lanes := ?_, masks := ?_ }
  · intro n _ _; rw [k.reads.regS, hs]
  · intro n hn hd; rw [k.reads.regV, hv n hn hd]
  · intro n l hn hl' ha; rw [k.reads.regV, hl n l hn hl' ha]
  · intro n; rw [k.reads.regK, hk]

/-! Scalar results. -/

theorem scalarResult {i : Instr} {info : OpInfo} {body : Body} {d : BitVec 7} {f : State → DWord}
    (hr : Runs i info body)
    (hd : ∀ s, ready i s = true → d.toNat < 64)
    (hb : ∀ s, ready i s = true → body (s.atInstr i) = .ok ((s.atInstr i).wrS d.toNat (f s))) : ScalarResult i d f := by
  intro s h
  obtain ⟨h1, h2, h3, h4⟩ := wrS_spec (s.atInstr i) d.toNat (f s) (ready_list h) (hd s h)
  refine ⟨s.retired i ((s.atInstr i).wrS d.toNat (f s)), ?_, ?_, ?_, ?_⟩
  · exact hr.ok h (hb s h)
  · rw [(wrote_retire h h1).1.reads.regS, h2 _ (hd s h), if_pos rfl]
  · exact (wrote_retire h h1).1.fst.trans h1.fst
  · refine scalarFrame_of d.toNat h h1 ?_ h3 h4
    intro n hn hd'
    rw [h2 n hn, if_neg hd']; rfl

/-! Vector results. -/

theorem lanesResult {i : Instr} {info : OpInfo} {body : Body} {d : BitVec 7} {m : State → Mask}
    {f : State → Nat → Word} (hr : Runs i info body) (hd : ∀ s, ready i s = true → s.vname d.toNat = true)
    (hm : ∀ s l, s.active.getLsbD l = false → (m s).getLsbD l = false)
    (hb : ∀ s, ready i s = true → body (s.atInstr i) = .ok ((s.atInstr i).wrLanes d.toNat (m s) (f s))) :
    LanesResult i d m f := by
  intro s h
  obtain ⟨h1, h2, h3, h4, h5⟩ := wrLanes_spec (s.atInstr i) d.toNat (m s) (f s) (ready_list h) (hd s h)
  have k := (wrote_retire h h1).1
  refine ⟨s.retired i ((s.atInstr i).wrLanes d.toNat (m s) (f s)), ?_, ?_, k.fst.trans h1.fst, ?_⟩
  · exact hr.ok h (hb s h)
  · intro l hl; rw [k.reads.regV, h5 l hl]; rfl
  · refine vectorFrame_of _ h h1 h3 h2 ?_ h4
    intro n l hn hl ha
    by_cases e : n = d.toNat
    · subst e; rw [h5 l hl, hm s l ha]; rfl
    · rw [h2 n hn e]; rfl

/-! Mask results. -/

theorem wrMask_spec (s : State) (d : Nat) (m : Mask) (p : Nat → Bool) (hw : s.issue.warp < s.warps.length) (hd : d ≠ 0) :
    Wrote s (s.wrMask d m p) ∧ (∀ n, (s.wrMask d m p).regS n = s.regS n) ∧ (∀ n, (s.wrMask d m p).regV n = s.regV n) ∧
      (∀ n, n ≠ d → (s.wrMask d m p).regK n = s.regK n) ∧
      (∀ l, ((s.wrMask d m p).regK d).getLsbD l = if m.getLsbD l then decide (l < 32) && p l else (s.regK d).getLsbD l) := by
  obtain ⟨h1, h2, h3, h4, h5⟩ := wrK_spec s d ((s.regK d &&& ~~~m) ||| (m &&& maskOf p)) hw
  refine ⟨h1, h2, h3, ?_, ?_⟩
  · intro n hn
    by_cases h0 : n = 0
    · subst h0; exact h5
    · have := h4 n h0
      rw [if_neg hn] at this; exact this
  · intro l
    have := h4 d hd
    rw [if_pos rfl] at this
    unfold State.wrMask
    rw [this]
    by_cases hl : l < 32
    · rw [BitVec.getLsbD_or, BitVec.getLsbD_and, BitVec.getLsbD_and, BitVec.getLsbD_not, maskOf_bit]
      cases hm : m.getLsbD l <;> simp [hl]
    · simp [BitVec.getLsbD_of_ge _ _ (Nat.le_of_not_lt hl)]

theorem maskFrame_of {i : Instr} {s t : State} (d : Nat) (h : ready i s = true) (hw : Wrote (s.atInstr i) t)
    (hs : ∀ n, t.regS n = s.regS n) (hv : ∀ n, t.regV n = s.regV n) (hk : ∀ n, n ≠ d → t.regK n = s.regK n)
    (hb : ∀ l, s.active.getLsbD l = false → (t.regK d).getLsbD l = (s.regK d).getLsbD l) :
    MaskFrame s (s.retired i t) d := by
  have k := (wrote_retire h hw).1
  refine { elsewhere := hw.elsewhere' h, control := hw.control' h, strands := hw.strands' h, clock := hw.clock' h,
           scalars := ?_, vectors := ?_, masks := ?_, bits := ?_ }
  · intro n _ _; rw [k.reads.regS, hs]
  · intro n _; rw [k.reads.regV, hv]
  · intro n hn; rw [k.reads.regK, hk n hn]
  · intro l hl; rw [k.reads.regK, hb l hl]

theorem maskResult {i : Instr} {info : OpInfo} {body : Body} {d : BitVec 7} {p : State → Nat → Bool}
    (hr : Runs i info body)
    (hd : ∀ s, ready i s = true → d.toNat ≠ 0)
    (hb : ∀ s, ready i s = true → body (s.atInstr i) = .ok ((s.atInstr i).wrMask d.toNat s.active (p s))) :
    MaskResult i d p := by
  intro s h
  obtain ⟨h1, h2, h3, h4, h5⟩ := wrMask_spec (s.atInstr i) d.toNat s.active (p s) (ready_list h) (hd s h)
  have k := (wrote_retire h h1).1
  refine ⟨s.retired i ((s.atInstr i).wrMask d.toNat s.active (p s)), ?_, ?_, k.fst.trans h1.fst, ?_⟩
  · exact hr.ok h (hb s h)
  · intro l hl ha; rw [k.reads.regK, h5 l, ha]; simp [hl]
  · refine maskFrame_of d.toNat h h1 h2 h3 h4 ?_
    intro l hl; rw [h5 l, hl]; rfl

/-! Floating point. -/

theorem orFlags_congr (m : Mask) (f g : Nat → Flags) (h : ∀ l, l < 32 → m.getLsbD l = true → f l = g l) :
    orFlags m f = orFlags m g := by
  unfold orFlags
  have : ∀ (ls : List Nat) (a : Flags), (∀ l ∈ ls, f l = g l) →
      ls.foldl (fun acc l => acc ||| f l) a = ls.foldl (fun acc l => acc ||| g l) a := by
    intro ls
    induction ls with
    | nil => intros; rfl
    | cons x r ih =>
      intro a hl
      simp only [List.foldl_cons]
      rw [hl x (by simp)]
      exact ih _ (fun l m => hl l (by simp [m]))
  apply this
  intro l hl
  unfold lanesOf at hl
  rw [List.mem_filter, List.mem_range] at hl
  exact h l hl.1 hl.2

theorem activeReal_sub (s : State) (l : Nat) (h : s.activeReal.getLsbD l = true) : s.active.getLsbD l = true := by
  unfold State.activeReal at h
  rw [BitVec.getLsbD_and, Bool.and_eq_true] at h
  exact h.1

theorem activeReal_not (s : State) (l : Nat) (h : s.active.getLsbD l = false) : s.activeReal.getLsbD l = false := by
  unfold State.activeReal
  rw [BitVec.getLsbD_and, h]; rfl

theorem nth_map_range {α : Type} (f : Nat → α) (d : α) (l : Nat) (h : l < 32) :
    nth ((List.range 32).map f) l d = f l := by
  simp [nth, h]

/-- Everything that noting flags does: ctl.fst gains them. -/
structure Noted (s u : State) (fl : Flags) : Prop where
  elsewhere : SameElsewhere s u
  control : SameControl s.cw u.cw
  strands : SameStrands s u
  issue : u.issue = s.issue
  fst : u.cw.fst = s.cw.fst ||| fl
  clock : u.cw.lclk = s.cw.lclk
  warps : u.warps.length = s.warps.length
  reads : SameReads s u

theorem noted (s : State) (fl : Flags) (hw : s.issue.warp < s.warps.length) :
    Noted s (s.putW { s.cw with fst := s.cw.fst ||| fl }) fl := by
  have e := State.cw_putW s { s.cw with fst := s.cw.fst ||| fl } hw
  have hq : (s.putW { s.cw with fst := s.cw.fst ||| fl }).quarterOf s.issue.warp = s.quarterOf s.issue.warp := by
    refine quarterOf_of_place s.issue.warp rfl ?_ ?_
    · show (State.cw _).blk = _
      rw [e]; rfl
    · show (State.cw _).quarter = _
      rw [e]; rfl
  refine ⟨SameElsewhere.putW s _, ?_, ⟨?_, ?_⟩, rfl, by rw [e], by rw [e], ?_, ?_⟩
  · rw [e]
    exact { place := by simp, window := by simp, ctl := by simp, lanes := by simp, rest := by simp, handlers := rfl,
            engFaults := fun _ => rfl }
  · intro f; unfold Warp.strand; rw [e]
  · intro f _; unfold Warp.strand; rw [e]
  · show (s.warps.set _ _).length = _; simp
  · refine { issue := ⟨rfl, rfl, rfl⟩, handler := ?_, sregs := ⟨by rw [e], ?_⟩, vregs := ⟨by rw [e], ?_⟩, kregs := by rw [e],
             window := by rw [e]; simp, mask := ?_ }
    · unfold State.inHandler Warp.handlerAt; rw [e]; rfl
    · show (State.quarter _ (State.quarterOf _ s.issue.warp)).rs = _
      rw [hq]; rfl
    · show (State.quarter _ (State.quarterOf _ s.issue.warp)).rv = _
      rw [hq]; rfl
    · unfold State.cs Warp.runner Warp.strand; rw [e]; rfl

theorem Noted.active {s u : State} {fl : Flags} (h : Noted s u fl) : u.active = s.active := by
  unfold State.active State.rdK State.k0 State.regK
  rw [h.reads.kregs, h.reads.mask, h.issue]

theorem Noted.activeReal {s u : State} {fl : Flags} (h : Noted s u fl) : u.activeReal = s.activeReal := by
  unfold State.activeReal
  rw [h.active, h.control.lanes.2]

theorem Noted.vname {s u : State} {fl : Flags} (h : Noted s u fl) (n : Nat) : u.vname n = s.vname n := by
  unfold State.vname Warp.effF Warp.ring Warp.allot
  rw [h.reads.handler, h.reads.window.2.2.1, h.reads.window.2.2.2, h.control.window.2.2.2.2.1]

/-- A meaning that raises flags, none of them enabled, runs on with ctl.fst noted. -/
theorem withFlags_ok (s : State) (fl : Flags) (k : State → State) (h : fl &&& s.cw.fpEnables = 0) :
    s.withFlags fl k = .ok (k (s.putW { s.cw with fst := s.cw.fst ||| fl })) := by
  unfold State.withFlags
  rw [if_neg (by simpa using h)]

/-- A meaning that raises an enabled flag stops with FPX. -/
theorem withFlags_trap (s : State) (fl : Flags) (k : State → State) (h : fl &&& s.cw.fpEnables ≠ 0) :
    s.withFlags fl k = .error (.trap { TrapInfo.of (.fpx, 0) with imm := fl.setWidth 14 } s) := by
  unfold State.withFlags
  rw [if_pos h]

/-- What a register write after noting flags leaves: as `Wrote`, with the flags. -/
structure Flagged (s t : State) (fl : Flags) : Prop where
  elsewhere : SameElsewhere s t
  control : SameControl s.cw t.cw
  strands : SameStrands s t
  issue : t.issue = s.issue
  fst : t.cw.fst = s.cw.fst ||| fl
  clock : t.cw.lclk = s.cw.lclk
  warps : t.warps.length = s.warps.length

theorem flagged_of {s u t : State} {fl : Flags} (h : Noted s u fl) (hw : Wrote u t) : Flagged s t fl where
  elsewhere := h.elsewhere.trans hw.elsewhere (by rw [h.issue]) (by
    have e1 : u.warp s.issue.warp = u.cw := by unfold State.cw; rw [h.issue]
    exact quarterOf_of_place _ h.elsewhere.blocks (by rw [e1, h.control.place.1]; rfl) (by
      rw [e1, h.control.place.2.2.1]; rfl))
  control := h.control.trans hw.control
  strands := ⟨fun e => (hw.strands.held e).trans (h.strands.held e),
    fun e he => (hw.strands.still e (by rw [h.issue]; exact he)).trans (h.strands.still e he)⟩
  issue := hw.issue.trans h.issue
  fst := hw.fst.trans h.fst
  clock := hw.clock.trans h.clock
  warps := hw.warps.trans h.warps

theorem flagged_retire {i : Instr} {s t : State} {fl : Flags} (h : ready i s = true) (hw : Flagged (s.atInstr i) t fl) :
    Stays t (s.retired i t) ∧ SameElsewhere s (s.retired i t) ∧ SameControl s.cw (s.retired i t).cw ∧
      SameStrands s (s.retired i t) ∧ ClockAtMostOne s (s.retired i t) ∧ (s.retired i t).cw.fst = s.cw.fst ||| fl := by
  have hl := ready_list h
  have hst := fun c => retire_stays (s.atInstr i) t c (by rw [hw.issue, hw.warps]; exact hl) (by rw [hw.issue]; rfl)
    (by rw [hw.issue])
  obtain ⟨k, kc⟩ := hst (match i.info with
    | some info => info.closes
    | none => false)
  refine ⟨k, ?_, ?_, ⟨?_, ?_⟩, ?_, k.fst.trans hw.fst⟩
  · refine SameElsewhere.ofAtInstr (i := i) ?_
    refine SameElsewhere.trans (s := s.atInstr i) hw.elsewhere k.elsewhere (by rw [hw.issue]) ?_
    have e1 : t.warp s.issue.warp = t.cw := by unfold State.cw; rw [hw.issue]; rfl
    exact quarterOf_of_place _ hw.elsewhere.blocks (by
      show (t.warp s.issue.warp).blk = _
      rw [e1, hw.control.place.1]; rfl) (by
      show (t.warp s.issue.warp).quarter = _
      rw [e1, hw.control.place.2.2.1]; rfl)
  · exact SameControl.trans (x := (s.atInstr i).cw) hw.control k.control
  · exact fun e => (k.strands.held e).trans (hw.strands.held e)
  · intro e he
    exact (k.strands.still e (by rw [hw.issue]; exact he)).trans (hw.strands.still e he)
  · rw [hw.clock] at kc
    exact kc

/-- The flags of results computed lane by lane are those of the lanes that count. -/
theorem laneFlags (s : State) (i : Instr) (f : State → Nat → FRes) (hf : ∀ s l, f (s.atInstr i) l = f s l) :
    orFlags (s.atInstr i).activeReal (fun l => (nth ((List.range 32).map (fun l => if (s.atInstr i).active.getLsbD l
      then f (s.atInstr i) l else ⟨0, 0, false⟩)) l ⟨0, 0, false⟩).fl) = orFlags s.activeReal (fun l => (f s l).fl) := by
  apply orFlags_congr
  intro l hl ha
  have ha' : (s.atInstr i).active.getLsbD l = true := activeReal_sub s l ha
  rw [nth_map_range _ _ _ hl, ha', if_pos rfl, hf]

/-- A meaning that notes flags none of which is enabled and then merges lanes into one register. -/
theorem flagLanes_result {i : Instr} {s t : State} {m : Mask} {fl : Flags} {d : Nat} {g : Nat → Word}
    (h : ready i s = true) (hd : s.vname d = true) (hm : ∀ l, s.active.getLsbD l = false → m.getLsbD l = false)
    (ht : t = ((s.atInstr i).putW { (s.atInstr i).cw with fst := (s.atInstr i).cw.fst ||| fl }).wrLanes d m g) :
    (∀ l, l < 32 → m.getLsbD l = true → laneOf ((s.retired i t).regV d) l = g l) ∧
      (s.retired i t).cw.fst = s.cw.fst ||| fl ∧ VectorFrame s (s.retired i t) (fun n => n = d) := by
  have hu := noted (s.atInstr i) fl (ready_list h)
  have hvn := hu.vname
  obtain ⟨h1, h2, h3, h4, h5⟩ := wrLanes_spec _ d m g (by rw [hu.issue, hu.warps]; exact ready_list h) (by
    rw [hvn]; exact hd)
  rw [← ht] at h1 h2 h3 h4 h5
  obtain ⟨k, ke, kc, ks, kl, kf⟩ := flagged_retire h (flagged_of hu h1)
  refine ⟨?_, kf, ?_⟩
  · intro l hl ha
    rw [k.reads.regV, h5 l hl, ha, if_pos rfl]
  · refine { elsewhere := ke, control := kc, strands := ks, clock := kl, scalars := ?_, vectors := ?_, lanes := ?_, masks := ?_ }
    · intro n _ _; rw [k.reads.regS, h3, hu.reads.regS]; rfl
    · intro n hv hne
      rw [k.reads.regV, h2 n (by rw [hvn]; exact hv) hne, hu.reads.regV]; rfl
    · intro n l hv hl ha
      rw [k.reads.regV]
      by_cases e : n = d
      · subst e; rw [h5 l hl, hm l ha, hu.reads.regV]; rfl
      · rw [h2 n (by rw [hvn]; exact hv) e, hu.reads.regV]; rfl
    · intro n; rw [k.reads.regK, h4, hu.reads.regK]; rfl

theorem fpLanes_eq (d : Nat) (s : State) (i : Instr) (f : State → Nat → FRes) (hf : ∀ s l, f (s.atInstr i) l = f s l) :
    fpLanes d f (s.atInstr i) = (s.atInstr i).withFlags (orFlags s.activeReal (fun l => (f s l).fl)) (fun u =>
      u.wrLanes d u.active (fun l => BitVec.ofNat 32 (nth ((List.range 32).map (fun l => if (s.atInstr i).active.getLsbD l
        then f (s.atInstr i) l else ⟨0, 0, false⟩)) l ⟨0, 0, false⟩).bits)) := by
  unfold fpLanes
  simp only
  rw [laneFlags s i f hf]

theorem fpLanes_result {i : Instr} {info : OpInfo} {d : BitVec 7} {f : State → Nat → FRes}
    (hr : Runs i info (fpLanes d.toNat f)) (hd : ∀ s, ready i s = true → s.vname d.toNat = true)
    (hf : ∀ s l, f (s.atInstr i) l = f s l) : FpResult i d f := by
  intro s h hen
  have hb := (fpLanes_eq d.toNat s i f hf).trans (withFlags_ok (s.atInstr i) _ _ hen)
  have ha := (noted (s.atInstr i) (orFlags s.activeReal (fun l => (f s l).fl)) (ready_list h)).active
  rw [ha] at hb
  obtain ⟨r1, r2, r3⟩ := flagLanes_result h (hd s h) (fun l hl => hl) rfl
  refine ⟨_, hr.ok h hb, ?_, r2, r3⟩
  intro l hl hact
  have hact' : (s.atInstr i).active.getLsbD l = true := hact
  refine (r1 l hl hact').trans ?_
  rw [nth_map_range _ _ _ hl, hact', if_pos rfl, hf]

/-- A merge into the 64-bit lanes of a pair. -/
theorem wrPair_spec (s : State) (d : Nat) (m : Mask) (f : Nat → DWord) (hw : s.issue.warp < s.warps.length)
    (hd : s.vname d = true) (hd1 : s.vname (d + 1) = true) :
    Wrote s (s.wrPair d m f) ∧ (∀ n, s.vname n = true → n ≠ d → n ≠ d + 1 → (s.wrPair d m f).regV n = s.regV n) ∧
      (∀ n, (s.wrPair d m f).regS n = s.regS n) ∧ (∀ n, (s.wrPair d m f).regK n = s.regK n) ∧
      (∀ l, l < 32 → laneOf ((s.wrPair d m f).regV d) l = if m.getLsbD l then lowWord (f l) else laneOf (s.regV d) l) ∧
      (∀ l, l < 32 → laneOf ((s.wrPair d m f).regV (d + 1)) l =
        if m.getLsbD l then highWord (f l) else laneOf (s.regV (d + 1)) l) := by
  obtain ⟨h1, h2, h3, h4, h5⟩ := wrLanes_spec s d m (fun l => lowWord (f l)) hw hd
  obtain ⟨k1, k2, k3, k4, k5⟩ := wrLanes_spec (s.wrLanes d m (fun l => lowWord (f l))) (d + 1) m (fun l => highWord (f l))
    (by rw [h1.issue, h1.warps]; exact hw) (by rw [h1.vname]; exact hd1)
  refine ⟨h1.trans k1, ?_, fun n => (k3 n).trans (h3 n), fun n => (k4 n).trans (h4 n), ?_, ?_⟩
  · intro n hn a b
    exact (k2 n (by rw [h1.vname]; exact hn) b).trans (h2 n hn a)
  · intro l hl
    rw [← h5 l hl]
    exact congrArg (fun v => laneOf v l) (k2 d (by rw [h1.vname]; exact hd) (by omega))
  · intro l hl
    refine (k5 l hl).trans ?_
    rw [h2 (d + 1) hd1 (by omega)]

theorem pairOf_low_high (lo hi : Vec) (l : Nat) (x : DWord) (h1 : laneOf lo l = lowWord x) (h2 : laneOf hi l = highWord x) :
    pairOf lo hi l = x := by
  unfold pairOf
  rw [h1, h2]
  apply BitVec.eq_of_getLsbD_eq
  intro i hi
  rw [BitVec.getLsbD_append]
  unfold lowWord highWord
  rw [BitVec.getLsbD_extractLsb', BitVec.getLsbD_extractLsb']
  by_cases h : i < 32
  · simp [h]
  · have e : 32 + (i - 32) = i := by omega
    have e2 : i - 32 < 32 := by omega
    simp [h, e, e2]

theorem fpPairs_eq (d : Nat) (s : State) (i : Instr) (f : State → Nat → FRes) (hf : ∀ s l, f (s.atInstr i) l = f s l) :
    fpPairs d f (s.atInstr i) = (s.atInstr i).withFlags (orFlags s.activeReal (fun l => (f s l).fl)) (fun u =>
      u.wrPair d u.active (fun l => BitVec.ofNat 64 (nth ((List.range 32).map (fun l => if (s.atInstr i).active.getLsbD l
        then f (s.atInstr i) l else ⟨0, 0, false⟩)) l ⟨0, 0, false⟩).bits)) := by
  unfold fpPairs
  simp only
  rw [laneFlags s i f hf]

theorem fpPairs_result {i : Instr} {info : OpInfo} {d : BitVec 7} {f : State → Nat → FRes}
    (hr : Runs i info (fpPairs d.toNat f))
    (hd : ∀ s, ready i s = true → s.vname d.toNat = true ∧ s.vname (d.toNat + 1) = true)
    (hf : ∀ s l, f (s.atInstr i) l = f s l) : FpPairResult i d f := by
  intro s h hen
  have hb := (fpPairs_eq d.toNat s i f hf).trans (withFlags_ok (s.atInstr i) _ _ hen)
  have hu := noted (s.atInstr i) (orFlags s.activeReal (fun l => (f s l).fl)) (ready_list h)
  rw [hu.active] at hb
  have hvn := hu.vname
  obtain ⟨h1, h2, h3, h4, h5, h6⟩ := wrPair_spec _ d.toNat (s.atInstr i).active (fun l => BitVec.ofNat 64
    (nth ((List.range 32).map (fun l => if (s.atInstr i).active.getLsbD l
        then f (s.atInstr i) l else ⟨0, 0, false⟩)) l ⟨0, 0, false⟩).bits) (by rw [hu.issue, hu.warps]; exact ready_list h)
    (by rw [hvn]; exact (hd s h).1) (by rw [hvn]; exact (hd s h).2)
  obtain ⟨k, ke, kc, ks, kl, kf⟩ := flagged_retire h (flagged_of hu h1)
  refine ⟨_, hr.ok h hb, ?_, kf, ?_⟩
  · intro l hl hact
    have hact' : (s.atInstr i).active.getLsbD l = true := hact
    rw [k.reads.regV, k.reads.regV]
    have e := h5 l hl
    have e2 := h6 l hl
    rw [hact', if_pos rfl, nth_map_range _ _ _ hl, hact', if_pos rfl, hf] at e e2
    exact pairOf_low_high _ _ _ _ e e2
  · refine { elsewhere := ke, control := kc, strands := ks, clock := kl, scalars := ?_, vectors := ?_, lanes := ?_, masks := ?_ }
    · intro n _ _; rw [k.reads.regS, h3, hu.reads.regS]; rfl
    · intro n hv hne
      rw [not_or] at hne
      rw [k.reads.regV, h2 n (by rw [hvn]; exact hv) hne.1 hne.2, hu.reads.regV]; rfl
    · intro n l hv hl ha
      have ha' : (s.atInstr i).active.getLsbD l = false := ha
      rw [k.reads.regV]
      by_cases e : n = d.toNat
      · subst e; rw [h5 l hl, ha', hu.reads.regV]; rfl
      · by_cases e2 : n = d.toNat + 1
        · subst e2; rw [h6 l hl, ha', hu.reads.regV]; rfl
        · rw [h2 n (by rw [hvn]; exact hv) e e2, hu.reads.regV]; rfl
    · intro n; rw [k.reads.regK, h4, hu.reads.regK]; rfl

theorem fpMask_result {i : Instr} {info : OpInfo} {d : BitVec 7} {f : State → Nat → Bool × Flags} {body : Body}
    (hr : Runs i info body) (hd : ∀ s, ready i s = true → d.toNat ≠ 0)
    (hb : ∀ s : State, body (s.atInstr i) = (s.atInstr i).withFlags (orFlags s.activeReal (fun l => (f s l).2)) (fun u =>
      u.wrMask d.toNat u.active (fun l => (f s l).1))) : FpMaskResult i d f := by
  intro s h hen
  have hb := (hb s).trans (withFlags_ok (s.atInstr i) _ _ hen)
  have hu := noted (s.atInstr i) (orFlags s.activeReal (fun l => (f s l).2)) (ready_list h)
  rw [hu.active] at hb
  obtain ⟨h1, h2, h3, h4, h5⟩ := wrMask_spec _ d.toNat (s.atInstr i).active (fun l => (f s l).1)
    (by rw [hu.issue, hu.warps]; exact ready_list h) (hd s h)
  obtain ⟨k, ke, kc, ks, kl, kf⟩ := flagged_retire h (flagged_of hu h1)
  refine ⟨_, hr.ok h hb, ?_, kf, ?_⟩
  · intro l hl hact
    have hact' : (s.atInstr i).active.getLsbD l = true := hact
    rw [k.reads.regK, h5 l, hact', if_pos rfl]; simp [hl]
  · refine { elsewhere := ke, control := kc, strands := ks, clock := kl, scalars := ?_, vectors := ?_, masks := ?_, bits := ?_ }
    · intro n _ _; rw [k.reads.regS, h2, hu.reads.regS]; rfl
    · intro n _; rw [k.reads.regV, h3, hu.reads.regV]; rfl
    · intro n hn; rw [k.reads.regK, h4 n hn, hu.reads.regK]; rfl
    · intro l hl
      have hl' : (s.atInstr i).active.getLsbD l = false := hl
      rw [k.reads.regK, h5 l, hl', hu.reads.regK]; rfl

theorem fpScalar_result {i : Instr} {info : OpInfo} {d : BitVec 7} {f : State → DWord × Flags} {body : Body}
    (hr : Runs i info body) (hd : ∀ s, ready i s = true → d.toNat < 64)
    (hb : ∀ s : State, body (s.atInstr i) = (s.atInstr i).withFlags (f s).2 (fun u => u.wrS d.toNat (f s).1)) :
    FpScalarResult i d f := by
  intro s h hen
  have hb := (hb s).trans (withFlags_ok (s.atInstr i) _ _ hen)
  have hu := noted (s.atInstr i) (f s).2 (ready_list h)
  obtain ⟨h1, h2, h3, h4⟩ := wrS_spec _ d.toNat (f s).1 (by rw [hu.issue, hu.warps]; exact ready_list h) (hd s h)
  obtain ⟨k, ke, kc, ks, kl, kf⟩ := flagged_retire h (flagged_of hu h1)
  refine ⟨_, hr.ok h hb, ?_, kf, ?_⟩
  · rw [k.reads.regS, h2 _ (hd s h), if_pos rfl]
  · refine { elsewhere := ke, control := kc, strands := ks, clock := kl, scalars := ?_, vectors := ?_, masks := ?_ }
    · intro n hn _ hne; rw [k.reads.regS, h2 n hn, if_neg hne, hu.reads.regS]; rfl
    · intro n _; rw [k.reads.regV, h3, hu.reads.regV]; rfl
    · intro n; rw [k.reads.regK, h4, hu.reads.regK]; rfl

/-- A trap that is no access to a discarded page is raised as it stands. -/
theorem settle_trap (s0 : State) (info : OpInfo) (w : Word) (x : TrapInfo) (s : State) (h : x.cause ≠ .page) :
    State.settle s0 info w (.trap x s) = s.raise x := by
  show (if s.inMiss then s else s.markTrap x).raise x = _
  have : s.markTrap x = s := by
    unfold State.markTrap
    rw [if_neg (by simp [h])]
  rw [this, ite_self]

theorem fp_raises {i : Instr} {info : OpInfo} {body : Body} {fl : State → Flags}
    (hr : Runs i info body)
    (hb : ∀ s : State, ∃ k, body (s.atInstr i) = (s.atInstr i).withFlags (fl s) k) : FpRaises i fl := by
  intro s h hen
  obtain ⟨k, hk⟩ := hb s
  rw [hr.stop h (by rw [hk]; exact withFlags_trap _ _ k hen), settle_trap _ _ _ _ _ (by simp [TrapInfo.of])]

end Sys2Proof.Machine
end

