-- ==== Sys2Proof/Laws/Control.lean ====
section
/-! SUPPORT. Where a strand stands after its word retires, and what a transfer of control leaves as it was. -/

namespace Sys2Proof.Machine

open Sys2Proof

/-- Strands stand where they stood: PC, state, wait, log and pending fault of what runs in each entry. -/
def SameStanding (x y : Warp) : Prop := ∀ f, (y.runner f).map Strand.still = (x.runner f).map Strand.still

theorem SameStanding.same (x : Warp) : SameStanding x x := fun _ => rfl
theorem SameStanding.trans {x y z : Warp} (h : SameStanding x y) (k : SameStanding y z) : SameStanding x z :=
  fun f => (k f).trans (h f)

theorem SameStanding.setStrand (x : Warp) (g : Nat) (t u : Strand) (h : x.strand g = some t) (k : u.still = t.still) :
    SameStanding x (x.setStrand g (some u)) := by
  intro f
  unfold Warp.runner
  rw [Warp.setStrand_handlers]
  split
  · rfl
  · rw [Warp.strand_setStrand]
    by_cases c : f = g ∧ g < x.strands.length
    · rw [if_pos c, c.1, h]; simp [k]
    · rw [if_neg c]

theorem SameStanding.bumpAll (n : Nat) (l : List Nat) (x : Warp) :
    SameStanding x (l.foldl (fun x f => match x.strand f with
      | some t => x.setStrand f (some { t with region := t.region.map (fun r => { r with ran := r.ran + n }) })
      | none => x) x) := by
  induction l generalizing x with
  | nil => exact SameStanding.same x
  | cons f r ih =>
    simp only [List.foldl_cons]
    refine SameStanding.trans ?_ (ih _)
    split
    · rename_i t ht
      exact SameStanding.setStrand x f t _ ht rfl
    · exact SameStanding.same x

theorem SameStanding.ranSet (x : Warp) (g n : Nat) :
    SameStanding x (match x.strand g with
      | some t => x.setStrand g (some { t with ran := n })
      | none => x) := by
  split
  · rename_i t ht
    exact SameStanding.setStrand x g t _ ht rfl
  · exact SameStanding.same x

/-- The count of a chain moves no strand. -/
theorem count_standing (s0 s : State) (hw : s.issue.warp < s.warps.length) : SameStanding s.cw (State.count s0 s).cw := by
  unfold State.count
  simp only
  split
  · rw [State.cw_putW _ _ hw]
    split
    · rename_i t ht
      exact SameStanding.setStrand s.cw s0.issue.entry t _ ht rfl
    · exact SameStanding.same _
  · have hr := fun n => SameStanding.ranSet s.cw s0.issue.entry n
    cases s0.cw.strand s0.issue.entry <;> simp only <;> split_ifs <;> rw [State.cw_putW _ _ hw]
    all_goals first
      | exact hr _
      | exact (hr _).trans (SameStanding.bumpAll 1 _ _)

theorem noteStep_standing (s0 s : State) (hw : s.issue.warp < s.warps.length) :
    SameStanding s.cw (State.noteStep s0 s).cw := by
  unfold State.noteStep
  simp only
  split
  · rw [State.cw_putW _ _ hw]; exact SameStanding.same _
  · exact SameStanding.same _

/-- Where the issuing strand stands after its word retires: where the meaning put it when it moved it, else past its
chain; a replayed log entry moves nothing (R91, R294). -/
theorem retire_pc (s0 s : State) (closes : Bool) (hw : s.issue.warp < s.warps.length) (he : s.issue.entry = s0.issue.entry)
    (hr : (s.cw.runner s0.issue.entry).isSome = true) :
    (State.retire s0 closes s).cs.pc =
      if s.issue.moved || s0.later then s.cs.pc else s0.issue.pc + 4 := by
  obtain ⟨t, ht⟩ := Option.isSome_iff_exists.mp hr
  have hcs : s.cs = t := by unfold State.cs; rw [he, ht]; rfl
  have hpast : ∀ c, (t.past s0 c s.issue.moved).pc = if s.issue.moved || s0.later then t.pc else s0.issue.pc + 4 := by
    intro c
    unfold Strand.past State.later
    simp only
    cases s.issue.moved <;> cases s0.issue.src <;> simp <;> split <;> rfl
  -- whatever it closes, an advance leaves its strand at that PC
  have hfly : s0.ranBefore = true → (State.advance s0 false s).cs.pc = (t.past s0 closes s.issue.moved).pc := by
    intro _
    unfold State.advance State.cs
    rw [ht]
    show (((s.putW (s.cw.setRunner s0.issue.entry (t.past s0 false s.issue.moved))).cw.runner s.issue.entry).getD _).pc = _
    rw [State.cw_putW _ _ hw, he, Warp.runner_setRunner _ _ _ hr]
    show (t.past s0 false s.issue.moved).pc = _
    rw [hpast, hpast]
  let a := State.advance s0 closes s
  have ha : a = s.putW (s.cw.setRunner s0.issue.entry (t.past s0 closes s.issue.moved)) := by
    show State.advance s0 closes s = _
    unfold State.advance; rw [ht]
  have hacw : a.cw = s.cw.setRunner s0.issue.entry (t.past s0 closes s.issue.moved) := by rw [ha]; exact State.cw_putW _ _ hw
  have har : a.cw.runner s0.issue.entry = some (t.past s0 closes s.issue.moved) := by
    rw [hacw, Warp.runner_setRunner _ _ _ hr]
  have hai : a.issue = s.issue := by rw [ha]; rfl
  have haw : a.issue.warp < a.warps.length := by
    rw [ha]; show s.issue.warp < (s.warps.set _ _).length; simpa using hw
  rw [hcs, ← hpast closes]
  have fin : ∀ u : State, SameStanding a.cw u.cw → u.issue.entry = s0.issue.entry →
      u.cs.pc = (t.past s0 closes s.issue.moved).pc := by
    intro u hu hue
    have := hu s0.issue.entry
    rw [har] at this
    unfold State.cs
    rw [hue]
    cases hx : u.cw.runner s0.issue.entry with
    | none => rw [hx] at this; simp at this
    | some v =>
      rw [hx] at this
      simp only [Option.map_some, Option.some.injEq, Strand.still, Prod.mk.injEq] at this
      exact this.1
  unfold State.retire
  by_cases hh : s0.inHandler = true
  · simp only [hh, if_true]
    exact fin a (SameStanding.same _) (by rw [hai]; exact he)
  · have hh' : s0.inHandler = false := by simpa using hh
    simp only [hh', Bool.false_eq_true, if_false]
    split
    · rename_i hsrc; exact hfly hsrc
    obtain ⟨z, hz, -⟩ := count_moved s0 a
    have hcw2 : (State.count s0 a).issue.warp < (State.count s0 a).warps.length := by
      rw [hz]; show a.issue.warp < (a.warps.set _ _).length; simpa using haw
    obtain ⟨y, hy, -⟩ := noteStep_moved s0 (State.count s0 a) hcw2
    refine fin _ ((count_standing s0 a haw).trans (noteStep_standing s0 _ hcw2)) ?_
    rw [hy]; show (State.count s0 a).issue.entry = _
    rw [hz]; show a.issue.entry = _
    rw [hai]; exact he

/-- The clock after a word retires, outside a miss group: one more outside handler code, and the same in it (R307). -/
theorem retire_lclk (s0 s : State) (closes : Bool) (hw : s.issue.warp < s.warps.length) (hc : s.issue.count = 1) :
    (s0.inHandler = true → (State.retire s0 closes s).cw.lclk = s.cw.lclk) ∧
    (s0.inHandler = false → s0.ranBefore = false → s0.cw.missGroup s0.issue.entry = [] →
      (State.retire s0 closes s).cw.lclk = s.cw.lclk + 1) := by
  obtain ⟨y, hy, my, cy⟩ := advance_moved s0 s closes hw
  have e1 := State.cw_putW s y hw
  refine ⟨fun hh => ?_, fun hh hsrc hg => ?_⟩
  · unfold State.retire
    rw [if_pos hh, hy, e1]
    exact cy
  · have hw2 : (s.putW y).issue.warp < (s.putW y).warps.length := by
      show s.issue.warp < (s.warps.set _ _).length
      simpa using hw
    unfold State.retire
    rw [if_neg (by simp [hh]), if_neg (by simp [hsrc]), hy]
    have hcl : (State.count s0 (s.putW y)).cw.lclk = s.cw.lclk + 1 := by
      unfold State.count
      simp only
      rw [if_pos hg, State.cw_putW _ _ hw2, show (s.putW y).issue.count = 1 from hc]
      show (_ : DWord) + BitVec.ofNat 64 1 = _
      split <;> (try simp only [Warp.setStrand_lclk]) <;> rw [e1, cy] <;> rfl
    obtain ⟨z, hz, -⟩ := count_moved s0 (s.putW y)
    have hw3 : (State.count s0 (s.putW y)).issue.warp < (State.count s0 (s.putW y)).warps.length := by
      rw [hz]; show _ < (List.set _ _ _).length; simpa using hw2
    obtain ⟨v, hv, mv, cv⟩ := noteStep_moved s0 (State.count s0 (s.putW y)) hw3
    rw [hv, State.cw_putW _ _ hw3, cv]
    exact hcl

/-- Two strands that keep everything but where they stand. -/
theorem putS_moved (s : State) (u : Strand) (h : s.issueOk = true) (hu : u.held = s.cs.held) :
    Moved s.issue.entry s.cw (s.cw.setRunner s.issue.entry u) := by
  obtain ⟨t, ht⟩ := Option.isSome_iff_exists.mp (s.issueOk_iff.mp h).2.2.2
  have hcs : s.cs = t := by unfold State.cs; rw [ht]; rfl
  exact Moved.setRunner _ _ t u ht (by rw [hu, hcs])

/-- A transfer leaves everything but the place of the issuing strand. -/
theorem jump_stays (s : State) (p : Va) (h : s.issueOk = true) :
    Stays s (s.jump p) ∧ (s.jump p).cw.lclk = s.cw.lclk ∧ (s.jump p).cs.pc = p ∧ (s.jump p).issue.moved = true ∧
      (s.jump p).issue.warp = s.issue.warp ∧ (s.jump p).issue.entry = s.issue.entry ∧ (s.jump p).issue.count = s.issue.count ∧
      ((s.jump p).cw.runner s.issue.entry).isSome = true := by
  have hw := s.issue_warp_in_list h
  have hr := (s.issueOk_iff.mp h).2.2.2
  let u : Strand := { s.cs with pc := p, jumped := true, st := .ready, wait := none, permit := false }
  have hm := putS_moved s u h rfl
  have hcw : (s.jump p).cw = s.cw.setRunner s.issue.entry u := State.cw_putW s _ hw
  have hcs : (s.jump p).cs = u := by
    unfold State.cs
    rw [hcw]
    show ((s.cw.setRunner s.issue.entry u).runner s.issue.entry).getD _ = u
    rw [Warp.runner_setRunner _ _ _ hr]; rfl
  have hrd := hm.reads hw
  have hcw2 := State.cw_putW s (s.cw.setRunner s.issue.entry u) hw
  refine ⟨{ elsewhere := ?_, control := by rw [hcw]; exact hm.control, strands := ⟨?_, ?_⟩, reads := ?_,
            fst := by rw [hcw]; exact hm.regs.2.2.2, warps := ?_ }, by rw [hcw]; simp, by rw [hcs], rfl, rfl, rfl, rfl, ?_⟩
  · have := SameElsewhere.putW s (s.cw.setRunner s.issue.entry u)
    exact ⟨this.mem, this.lineKeys, this.tags, this.keySlots, this.sys, this.dies, this.clusters, this.cores, this.launches,
      this.blocks, this.agenda, this.clock, this.freeCtr, this.seq, this.warps, this.quarters⟩
  · intro f; rw [hcw]; exact hm.held f
  · intro f hf; rw [hcw]; exact hm.still f hf
  · exact ⟨⟨rfl, rfl, rfl⟩, hrd.handler, hrd.sregs, hrd.vregs, hrd.kregs, hrd.window, hrd.mask⟩
  · show (s.warps.set _ _).length = _; simp
  · rw [hcw, Warp.runner_setRunner _ _ _ hr]; rfl

/-- Everything that stays when an instruction that writes no register retires. -/
theorem stays_frame {i : Instr} {s t : State} (h : ready i s = true) (k : Stays (s.atInstr i) t)
    (hl : t.cw.lclk = s.cw.lclk) (hi : t.issue.warp = s.issue.warp ∧ t.issue.entry = s.issue.entry ∧ t.issue.count = 1) :
    ScalarFrame s (s.retired i t) (fun _ => False) ∧ (s.retired i t).cw.fst = s.cw.fst := by
  have hw : t.issue.warp < t.warps.length := by rw [hi.1, k.warps]; exact ready_list h
  have hrs := fun c => retire_stays (s.atInstr i) t c hw hi.2.2 (by rw [hi.2.1]; rfl)
  obtain ⟨r, c⟩ := hrs (match i.info with
    | some info => info.closes
    | none => false)
  have f : Stays (s.atInstr i) (s.retired i t) := k.trans r
  have fr : ScalarFrame s (s.retired i t) (fun _ => False) :=
    { elsewhere := f.elsewhere.ofAtInstr, control := f.control, strands := ⟨f.strands.held, f.strands.still⟩,
      clock := by rw [hl] at c; exact c, scalars := fun n _ _ _ => f.reads.regS n, vectors := fun n _ => f.reads.regV n,
      masks := fun n => f.reads.regK n }
  exact ⟨fr, f.fst⟩

theorem Stays.same (s : State) : Stays s s :=
  ⟨⟨rfl, rfl, rfl, rfl, rfl, rfl, rfl, rfl, rfl, rfl, rfl, rfl, rfl, rfl, fun _ _ => rfl, fun _ _ => rfl⟩, SameControl.same _,
    ⟨fun _ => rfl, fun _ _ => rfl⟩, SameReads.same s, rfl, rfl⟩

theorem ready_issueOk {i : Instr} {s : State} (h : ready i s = true) : s.issueOk = true := by
  cases hi : i.info with
  | none => unfold ready at h; rw [hi] at h; simp at h
  | some info => exact (ready_parts hi h).2.1

/-- An instruction that leaves its strand to go on, or transfers it. -/
theorem goesTo {i : Instr} {info : OpInfo} {body : Body} (hr : Runs i info body) (p : State → Option Va)
    (hb : ∀ s, ready i s = true → body (s.atInstr i) = .ok (match p s with
      | some v => (s.atInstr i).jump v
      | none => s.atInstr i)) : GoesTo i (fun s => (p s).getD s.seqPc) := by
  intro s h
  have hb := hb s h
  have hok := ready_issueOk h
  have hok' : (s.atInstr i).issueOk = true := hok
  have hrun := (s.issueOk_iff.mp hok).2.2.2
  cases hp : p s with
  | none =>
    rw [hp] at hb
    obtain ⟨f1, f2⟩ := stays_frame h (Stays.same (s.atInstr i)) rfl ⟨rfl, rfl, rfl⟩
    refine ⟨_, hr.ok h hb, ?_, f2, f1⟩
    have := fun c => retire_pc (s.atInstr i) (s.atInstr i) c (ready_list h) rfl hrun
    refine (this _).trans ?_
    show _ = (p s).getD s.seqPc
    rw [hp]; rfl
  | some v =>
    rw [hp] at hb
    obtain ⟨k, h1, h2, h3, h4, h5, h6, h7⟩ := jump_stays (s.atInstr i) v hok'
    obtain ⟨f1, f2⟩ := stays_frame h k h1 ⟨h4, h5, h6⟩
    refine ⟨_, hr.ok h hb, ?_, f2, f1⟩
    have := fun c => retire_pc (s.atInstr i) ((s.atInstr i).jump v) c (by rw [h4, k.warps]; exact ready_list h) h5 h7
    refine (this _).trans ?_
    rw [h3, h2]
    show _ = (p s).getD s.seqPc
    rw [hp]; rfl

end Sys2Proof.Machine
end

