-- ==== Sys2Proof/Laws/Decode.lean ====
section
/-! SUPPORT. Decoding and encoding: the fields of a word and its parts, what the constructor tables give for an instruction's
own opcode and fields, and what an accepted word's fields are. -/

namespace Sys2Proof.Machine

open Sys2Proof

set_option linter.all false

/-! The parts of a word's fields. -/

theorem part_d (d a b : BitVec 7) : bits (d ++ a ++ b) 14 7 = d := dField d a b
theorem part_a (d a b : BitVec 7) : bits (d ++ a ++ b) 7 7 = a := by
  unfold bits
  apply BitVec.eq_of_getLsbD_eq
  intro i hi
  rw [BitVec.getLsbD_extractLsb', BitVec.getLsbD_append, BitVec.getLsbD_append]
  simp [hi, show ¬ 7 + i < 7 by omega, show 7 + i - 7 = i by omega]
theorem part_b (d a b : BitVec 7) : bits (d ++ a ++ b) 0 7 = b := by
  unfold bits
  apply BitVec.eq_of_getLsbD_eq
  intro i hi
  rw [BitVec.getLsbD_extractLsb', BitVec.getLsbD_append]
  simp [hi]
theorem partJ_d (d : BitVec 7) (m : BitVec 14) : bits (d ++ m) 14 7 = d := dFieldJ d m
theorem partJ_imm (d : BitVec 7) (m : BitVec 14) : bits (d ++ m) 0 14 = m := by
  unfold bits
  apply BitVec.eq_of_getLsbD_eq
  intro i hi
  rw [BitVec.getLsbD_extractLsb', BitVec.getLsbD_append]
  simp [hi]
theorem part_ksel (n : BitVec 1) (m : BitVec 3) : bits ((0#17 ++ n ++ m : BitVec 21)) 3 1 = n ∧ bits (0#17 ++ n ++ m : BitVec 21) 0 3 = m := by
  unfold bits
  constructor <;> apply BitVec.eq_of_getLsbD_eq <;> intro i hi <;> rw [BitVec.getLsbD_extractLsb', BitVec.getLsbD_append, BitVec.getLsbD_append]
  · simp [show i = 0 by omega]
  · simp [hi]
theorem fields3 (f : BitVec 21) : bits f 14 7 ++ bits f 7 7 ++ bits f 0 7 = f := by
  unfold bits
  apply BitVec.eq_of_getLsbD_eq
  intro i hi
  rw [BitVec.getLsbD_append, BitVec.getLsbD_append, BitVec.getLsbD_extractLsb', BitVec.getLsbD_extractLsb', BitVec.getLsbD_extractLsb']
  by_cases h1 : i < 7
  · simp [h1]
  · by_cases h2 : i < 14
    · simp [h1, show i - 7 < 7 by omega, show 7 + (i - 7) = i by omega]
    · simp [h1, show ¬ i - 7 < 7 by omega, show i - 7 - 7 < 7 by omega, show 14 + (i - 7 - 7) = i by omega]
theorem fields2 (f : BitVec 21) : bits f 14 7 ++ bits f 0 14 = f := by
  unfold bits
  apply BitVec.eq_of_getLsbD_eq
  intro i hi
  rw [BitVec.getLsbD_append, BitVec.getLsbD_extractLsb', BitVec.getLsbD_extractLsb']
  by_cases h1 : i < 14
  · simp [h1]
  · simp [h1, show i - 14 < 7 by omega, show 14 + (i - 14) = i by omega]
theorem res0_zero (v : BitVec 7) (h : fieldOk .res0 v = true) : v = 0 := by
  have : v.toNat = 0 := by simpa [fieldOk] using h
  exact BitVec.eq_of_toNat_eq (by rw [this]; rfl)
theorem fieldsOk_parts {op : Nat} {info : OpInfo} {f : BitVec 21} (h : fieldsOk op info f = true) (hf : info.fmt = .A ∨ info.fmt = .I) :
    (info.d = .res0 → bits f 14 7 = 0) ∧ (info.a = .res0 → bits f 7 7 = 0) ∧ (info.b = .res0 → bits f 0 7 = 0) := by
  unfold fieldsOk at h
  rcases hf with hf | hf <;> rw [hf] at h <;> simp only [Bool.and_eq_true] at h <;> obtain ⟨⟨h1, h2⟩, h3⟩ := h <;>
    exact ⟨fun e => res0_zero _ (e ▸ h1), fun e => res0_zero _ (e ▸ h2), fun e => res0_zero _ (e ▸ h3)⟩
theorem fieldsOk_partsJ {op : Nat} {info : OpInfo} {f : BitVec 21} (h : fieldsOk op info f = true) (hf : info.fmt = .J) :
    (info.d = .res0 → bits f 14 7 = 0) ∧ imm14Ok op (bits f 0 14) = true := by
  unfold fieldsOk at h
  rw [hf] at h; simp only [Bool.and_eq_true] at h
  exact ⟨fun e => res0_zero _ (e ▸ h.1), h.2⟩
theorem fields3_eq (f : BitVec 21) (d a b : BitVec 7) (h1 : bits f 14 7 = d) (h2 : bits f 7 7 = a) (h3 : bits f 0 7 = b) : d ++ a ++ b = f := by
  subst h1 h2 h3; exact fields3 f
theorem fields2_eq (f : BitVec 21) (d : BitVec 7) (m : BitVec 14) (h1 : bits f 14 7 = d) (h2 : bits f 0 14 = m) : d ++ m = f := by
  subst h1 h2; exact fields2 f
theorem fields_ksel (f : BitVec 21) (h1 : bits f 14 7 = 0) (h2 : (bits f 0 14).toNat < 16) :
    (0#17 ++ bits f 3 1 ++ bits f 0 3 : BitVec 21) = f := by
  have e := fields2 f
  rw [h1] at e
  have hf : f.toNat < 16 := by
    rw [← e]
    rw [BitVec.toNat_append]
    simpa using h2
  apply BitVec.eq_of_toNat_eq
  unfold bits
  simp only [BitVec.toNat_append, BitVec.extractLsb'_toNat, BitVec.toNat_ofNat, Nat.shiftRight_zero]
  generalize f.toNat = n at hf
  interval_cases n <;> rfl

/-! A word whose constructor is known decodes to it. -/

/-- The fields of an encoded instruction. -/
theorem bits_encode (i : Instr) : bits (encode i) 0 21 = i.fields := by
  unfold bits encode
  apply BitVec.eq_of_getLsbD_eq
  intro j hj
  rw [BitVec.getLsbD_extractLsb', BitVec.getLsbD_append]
  simp [hj]

/-- Decoding an encoded instruction whose opcode and fields name it. -/
theorem decodeWord_self {i : Instr} {info : OpInfo} (hi : opInfo i.opcode = some info) (hc : ctorOf i.opcode i.fields = some i)
    (hk : fieldsOk i.opcode info i.fields = true) : decodeWord (encode i) = .ok i := by
  unfold decodeWord
  rw [opOf_encode, bits_encode, hi, hc]
  simp only [hk, if_true]

/-- A well-formed instruction with a word of the map decodes from it. -/
theorem decodeWord_encode {i : Instr} (hu : ∀ w, i ≠ .unusedOpcode w) (hc : ctorOf i.opcode i.fields = some i) (h : i.wf = true)
    (hw : i.hasWord = true) : decodeWord (encode i) = .ok i := by
  unfold Instr.wf at h
  split at h
  · rename_i w; exact absurd rfl (hu w)
  · rw [if_pos hw] at h
    split at h
    · rename_i info hi; exact decodeWord_self hi hc h
    · simp at h

/-! The table of an opcode's class. -/

theorem ctorOf_class0 {op : Nat} {f : BitVec 21} (h : op / 64 = 0) : ctorOf op f = ctor0 (op % 64) f := by unfold ctorOf; rw [h]; rfl
theorem ctorOf_class1 {op : Nat} {f : BitVec 21} (h : op / 64 = 1) : ctorOf op f = ctor1 (op % 64) f := by unfold ctorOf; rw [h]; rfl
theorem ctorOf_class2 {op : Nat} {f : BitVec 21} (h : op / 64 = 2) : ctorOf op f = ctor2 (op % 64) f := by unfold ctorOf; rw [h]; rfl
theorem ctorOf_class3 {op : Nat} {f : BitVec 21} (h : op / 64 = 3) : ctorOf op f = ctor3 (op % 64) f := by unfold ctorOf; rw [h]; rfl
theorem ctorOf_class4 {op : Nat} {f : BitVec 21} (h : op / 64 = 4) : ctorOf op f = ctor4 (op % 64) f := by unfold ctorOf; rw [h]; rfl
theorem ctorOf_class5 {op : Nat} {f : BitVec 21} (h : op / 64 = 5) : ctorOf op f = ctor5 (op % 64) f := by unfold ctorOf; rw [h]; rfl
theorem ctorOf_class6 {op : Nat} {f : BitVec 21} (h : op / 64 = 6) : ctorOf op f = ctor6 (op % 64) f := by unfold ctorOf; rw [h]; rfl
theorem ctorOf_class7 {op : Nat} {f : BitVec 21} (h : op / 64 = 7) : ctorOf op f = ctor7 (op % 64) f := by unfold ctorOf; rw [h]; rfl
theorem ctorOf_class8 {op : Nat} {f : BitVec 21} (h : op / 64 = 8) : ctorOf op f = ctor8 (op % 64) f := by unfold ctorOf; rw [h]; rfl
theorem ctorOf_class9 {op : Nat} {f : BitVec 21} (h : op / 64 = 9) : ctorOf op f = ctor9 (op % 64) f := by unfold ctorOf; rw [h]; rfl
theorem ctorOf_classA {op : Nat} {f : BitVec 21} (h : op / 64 = 10) : ctorOf op f = ctorA (op % 64) f := by unfold ctorOf; rw [h]; rfl
theorem ctorOf_classB {op : Nat} {f : BitVec 21} (h : op / 64 = 11) : ctorOf op f = ctorB (op % 64) f := by unfold ctorOf; rw [h]; rfl

/-- The four bytes of an encoded instruction make up its word. -/
theorem wordOfBytes_bits (w : Word) : wordOfBytes (bits w 0 8) (bits w 8 8) (bits w 16 8) (bits w 24 8) = w := by
  unfold wordOfBytes bits
  apply BitVec.eq_of_getLsbD_eq
  intro j hj
  rw [BitVec.getLsbD_append, BitVec.getLsbD_append, BitVec.getLsbD_append]
  simp only [BitVec.getLsbD_extractLsb']
  by_cases h1 : j < 8
  · simp [h1]
  · by_cases h2 : j - 8 < 8
    · simp [h1, h2, show 8 + (j - 8) = j by omega]
    · by_cases h3 : j - 8 - 8 < 8
      · simp [h1, h2, h3, show 16 + (j - 8 - 8) = j by omega]
      · simp [h1, h2, h3, show j - 8 - 8 - 8 < 8 by omega, show 24 + (j - 8 - 8 - 8) = j by omega]

/-! An accepted word's opcode and fields are those of the instruction that it gives. -/

theorem class0_fields (op : Nat) (f : BitVec 21) (i : Instr) (info : OpInfo) (hop : op / 64 = 0) (hi : opInfo op = some info) (h : ctor0 (op % 64) f = some i)
    (hk : fieldsOk op info f = true) : i.opcode = op ∧ i.fields = f := by
  unfold ctor0 at h
  split at h
  case h_3 hm =>
    have ho := Nat.div_add_mod op 64
    rw [hop, hm] at ho
    simp only [Nat.reduceMul, Nat.reduceAdd, Nat.zero_add] at ho
    simp only [Option.some.injEq] at h
    subst h
    subst ho
    refine ⟨rfl, ?_⟩
    have hi' : _ = info := Option.some.inj hi
    subst hi'
    obtain ⟨k1, k2⟩ := fieldsOk_partsJ hk rfl
    have hn : (bits f 0 14).toNat < 16 := by
      unfold imm14Ok at k2
      simp at k2
      exact k2.1
    exact fields_ksel f (k1 rfl) hn
  all_goals first
    | (simp at h; done)
    | (rename_i hm
       have ho := Nat.div_add_mod op 64
       rw [hop, hm] at ho
       simp only [Nat.reduceMul, Nat.reduceAdd, Nat.zero_add] at ho
       simp only [Option.some.injEq] at h
       subst h
       subst ho
       refine ⟨rfl, ?_⟩
       have hi' : _ = info := Option.some.inj hi
       subst hi'
       first
         | (obtain ⟨k1, -⟩ := fieldsOk_partsJ hk rfl
            refine fields2_eq f _ _ ?_ ?_ <;> first | with_reducible rfl | exact k1 rfl)
         | (obtain ⟨k1, k2, k3⟩ := fieldsOk_parts hk (Or.inl rfl)
            refine fields3_eq f _ _ _ ?_ ?_ ?_ <;> first | with_reducible rfl | exact k1 rfl | exact k2 rfl | exact k3 rfl)
         | (obtain ⟨k1, k2, k3⟩ := fieldsOk_parts hk (Or.inr rfl)
            refine fields3_eq f _ _ _ ?_ ?_ ?_ <;> first | with_reducible rfl | exact k1 rfl | exact k2 rfl | exact k3 rfl)
         | with_reducible rfl
         | (show f = f; rfl))
theorem class1_fields (op : Nat) (f : BitVec 21) (i : Instr) (info : OpInfo) (hop : op / 64 = 1) (hi : opInfo op = some info) (h : ctor1 (op % 64) f = some i)
    (hk : fieldsOk op info f = true) : i.opcode = op ∧ i.fields = f := by
  unfold ctor1 at h
  split at h
  all_goals first
    | (simp at h; done)
    | (rename_i hm
       have ho := Nat.div_add_mod op 64
       rw [hop, hm] at ho
       simp only [Nat.reduceMul, Nat.reduceAdd, Nat.zero_add] at ho
       simp only [Option.some.injEq] at h
       subst h
       subst ho
       refine ⟨rfl, ?_⟩
       have hi' : _ = info := Option.some.inj hi
       subst hi'
       first
         | (obtain ⟨k1, -⟩ := fieldsOk_partsJ hk rfl
            refine fields2_eq f _ _ ?_ ?_ <;> first | with_reducible rfl | exact k1 rfl)
         | (obtain ⟨k1, k2, k3⟩ := fieldsOk_parts hk (Or.inl rfl)
            refine fields3_eq f _ _ _ ?_ ?_ ?_ <;> first | with_reducible rfl | exact k1 rfl | exact k2 rfl | exact k3 rfl)
         | (obtain ⟨k1, k2, k3⟩ := fieldsOk_parts hk (Or.inr rfl)
            refine fields3_eq f _ _ _ ?_ ?_ ?_ <;> first | with_reducible rfl | exact k1 rfl | exact k2 rfl | exact k3 rfl)
         | with_reducible rfl
         | (show f = f; rfl))
theorem class2_fields (op : Nat) (f : BitVec 21) (i : Instr) (info : OpInfo) (hop : op / 64 = 2) (hi : opInfo op = some info) (h : ctor2 (op % 64) f = some i)
    (hk : fieldsOk op info f = true) : i.opcode = op ∧ i.fields = f := by
  unfold ctor2 at h
  split at h
  all_goals first
    | (simp at h; done)
    | (rename_i hm
       have ho := Nat.div_add_mod op 64
       rw [hop, hm] at ho
       simp only [Nat.reduceMul, Nat.reduceAdd, Nat.zero_add] at ho
       simp only [Option.some.injEq] at h
       subst h
       subst ho
       refine ⟨rfl, ?_⟩
       have hi' : _ = info := Option.some.inj hi
       subst hi'
       first
         | (obtain ⟨k1, -⟩ := fieldsOk_partsJ hk rfl
            refine fields2_eq f _ _ ?_ ?_ <;> first | with_reducible rfl | exact k1 rfl)
         | (obtain ⟨k1, k2, k3⟩ := fieldsOk_parts hk (Or.inl rfl)
            refine fields3_eq f _ _ _ ?_ ?_ ?_ <;> first | with_reducible rfl | exact k1 rfl | exact k2 rfl | exact k3 rfl)
         | (obtain ⟨k1, k2, k3⟩ := fieldsOk_parts hk (Or.inr rfl)
            refine fields3_eq f _ _ _ ?_ ?_ ?_ <;> first | with_reducible rfl | exact k1 rfl | exact k2 rfl | exact k3 rfl)
         | with_reducible rfl
         | (show f = f; rfl))
theorem class3_fields (op : Nat) (f : BitVec 21) (i : Instr) (info : OpInfo) (hop : op / 64 = 3) (hi : opInfo op = some info) (h : ctor3 (op % 64) f = some i)
    (hk : fieldsOk op info f = true) : i.opcode = op ∧ i.fields = f := by
  unfold ctor3 at h
  split at h
  all_goals first
    | (simp at h; done)
    | (rename_i hm
       have ho := Nat.div_add_mod op 64
       rw [hop, hm] at ho
       simp only [Nat.reduceMul, Nat.reduceAdd, Nat.zero_add] at ho
       simp only [Option.some.injEq] at h
       subst h
       subst ho
       refine ⟨rfl, ?_⟩
       have hi' : _ = info := Option.some.inj hi
       subst hi'
       first
         | (obtain ⟨k1, -⟩ := fieldsOk_partsJ hk rfl
            refine fields2_eq f _ _ ?_ ?_ <;> first | with_reducible rfl | exact k1 rfl)
         | (obtain ⟨k1, k2, k3⟩ := fieldsOk_parts hk (Or.inl rfl)
            refine fields3_eq f _ _ _ ?_ ?_ ?_ <;> first | with_reducible rfl | exact k1 rfl | exact k2 rfl | exact k3 rfl)
         | (obtain ⟨k1, k2, k3⟩ := fieldsOk_parts hk (Or.inr rfl)
            refine fields3_eq f _ _ _ ?_ ?_ ?_ <;> first | with_reducible rfl | exact k1 rfl | exact k2 rfl | exact k3 rfl)
         | with_reducible rfl
         | (show f = f; rfl))
theorem class4_fields (op : Nat) (f : BitVec 21) (i : Instr) (info : OpInfo) (hop : op / 64 = 4) (hi : opInfo op = some info) (h : ctor4 (op % 64) f = some i)
    (hk : fieldsOk op info f = true) : i.opcode = op ∧ i.fields = f := by
  unfold ctor4 at h
  split at h
  all_goals first
    | (simp at h; done)
    | (rename_i hm
       have ho := Nat.div_add_mod op 64
       rw [hop, hm] at ho
       simp only [Nat.reduceMul, Nat.reduceAdd, Nat.zero_add] at ho
       simp only [Option.some.injEq] at h
       subst h
       subst ho
       refine ⟨rfl, ?_⟩
       have hi' : _ = info := Option.some.inj hi
       subst hi'
       first
         | (obtain ⟨k1, -⟩ := fieldsOk_partsJ hk rfl
            refine fields2_eq f _ _ ?_ ?_ <;> first | with_reducible rfl | exact k1 rfl)
         | (obtain ⟨k1, k2, k3⟩ := fieldsOk_parts hk (Or.inl rfl)
            refine fields3_eq f _ _ _ ?_ ?_ ?_ <;> first | with_reducible rfl | exact k1 rfl | exact k2 rfl | exact k3 rfl)
         | (obtain ⟨k1, k2, k3⟩ := fieldsOk_parts hk (Or.inr rfl)
            refine fields3_eq f _ _ _ ?_ ?_ ?_ <;> first | with_reducible rfl | exact k1 rfl | exact k2 rfl | exact k3 rfl)
         | with_reducible rfl
         | (show f = f; rfl))
theorem class5_fields (op : Nat) (f : BitVec 21) (i : Instr) (info : OpInfo) (hop : op / 64 = 5) (hi : opInfo op = some info) (h : ctor5 (op % 64) f = some i)
    (hk : fieldsOk op info f = true) : i.opcode = op ∧ i.fields = f := by
  unfold ctor5 at h
  split at h
  all_goals first
    | (simp at h; done)
    | (rename_i hm
       have ho := Nat.div_add_mod op 64
       rw [hop, hm] at ho
       simp only [Nat.reduceMul, Nat.reduceAdd, Nat.zero_add] at ho
       simp only [Option.some.injEq] at h
       subst h
       subst ho
       refine ⟨rfl, ?_⟩
       have hi' : _ = info := Option.some.inj hi
       subst hi'
       first
         | (obtain ⟨k1, -⟩ := fieldsOk_partsJ hk rfl
            refine fields2_eq f _ _ ?_ ?_ <;> first | with_reducible rfl | exact k1 rfl)
         | (obtain ⟨k1, k2, k3⟩ := fieldsOk_parts hk (Or.inl rfl)
            refine fields3_eq f _ _ _ ?_ ?_ ?_ <;> first | with_reducible rfl | exact k1 rfl | exact k2 rfl | exact k3 rfl)
         | (obtain ⟨k1, k2, k3⟩ := fieldsOk_parts hk (Or.inr rfl)
            refine fields3_eq f _ _ _ ?_ ?_ ?_ <;> first | with_reducible rfl | exact k1 rfl | exact k2 rfl | exact k3 rfl)
         | with_reducible rfl
         | (show f = f; rfl))
theorem class6_fields (op : Nat) (f : BitVec 21) (i : Instr) (info : OpInfo) (hop : op / 64 = 6) (hi : opInfo op = some info) (h : ctor6 (op % 64) f = some i)
    (hk : fieldsOk op info f = true) : i.opcode = op ∧ i.fields = f := by
  unfold ctor6 at h
  split at h
  all_goals first
    | (simp at h; done)
    | (rename_i hm
       have ho := Nat.div_add_mod op 64
       rw [hop, hm] at ho
       simp only [Nat.reduceMul, Nat.reduceAdd, Nat.zero_add] at ho
       simp only [Option.some.injEq] at h
       subst h
       subst ho
       refine ⟨rfl, ?_⟩
       have hi' : _ = info := Option.some.inj hi
       subst hi'
       first
         | (obtain ⟨k1, -⟩ := fieldsOk_partsJ hk rfl
            refine fields2_eq f _ _ ?_ ?_ <;> first | with_reducible rfl | exact k1 rfl)
         | (obtain ⟨k1, k2, k3⟩ := fieldsOk_parts hk (Or.inl rfl)
            refine fields3_eq f _ _ _ ?_ ?_ ?_ <;> first | with_reducible rfl | exact k1 rfl | exact k2 rfl | exact k3 rfl)
         | (obtain ⟨k1, k2, k3⟩ := fieldsOk_parts hk (Or.inr rfl)
            refine fields3_eq f _ _ _ ?_ ?_ ?_ <;> first | with_reducible rfl | exact k1 rfl | exact k2 rfl | exact k3 rfl)
         | with_reducible rfl
         | (show f = f; rfl))
theorem class7_fields (op : Nat) (f : BitVec 21) (i : Instr) (info : OpInfo) (hop : op / 64 = 7) (hi : opInfo op = some info) (h : ctor7 (op % 64) f = some i)
    (hk : fieldsOk op info f = true) : i.opcode = op ∧ i.fields = f := by
  unfold ctor7 at h
  split at h
  all_goals first
    | (simp at h; done)
    | (rename_i hm
       have ho := Nat.div_add_mod op 64
       rw [hop, hm] at ho
       simp only [Nat.reduceMul, Nat.reduceAdd, Nat.zero_add] at ho
       simp only [Option.some.injEq] at h
       subst h
       subst ho
       refine ⟨rfl, ?_⟩
       have hi' : _ = info := Option.some.inj hi
       subst hi'
       first
         | (obtain ⟨k1, -⟩ := fieldsOk_partsJ hk rfl
            refine fields2_eq f _ _ ?_ ?_ <;> first | with_reducible rfl | exact k1 rfl)
         | (obtain ⟨k1, k2, k3⟩ := fieldsOk_parts hk (Or.inl rfl)
            refine fields3_eq f _ _ _ ?_ ?_ ?_ <;> first | with_reducible rfl | exact k1 rfl | exact k2 rfl | exact k3 rfl)
         | (obtain ⟨k1, k2, k3⟩ := fieldsOk_parts hk (Or.inr rfl)
            refine fields3_eq f _ _ _ ?_ ?_ ?_ <;> first | with_reducible rfl | exact k1 rfl | exact k2 rfl | exact k3 rfl)
         | with_reducible rfl
         | (show f = f; rfl))
theorem class8_fields (op : Nat) (f : BitVec 21) (i : Instr) (info : OpInfo) (hop : op / 64 = 8) (hi : opInfo op = some info) (h : ctor8 (op % 64) f = some i)
    (hk : fieldsOk op info f = true) : i.opcode = op ∧ i.fields = f := by
  unfold ctor8 at h
  split at h
  all_goals first
    | (simp at h; done)
    | (rename_i hm
       have ho := Nat.div_add_mod op 64
       rw [hop, hm] at ho
       simp only [Nat.reduceMul, Nat.reduceAdd, Nat.zero_add] at ho
       simp only [Option.some.injEq] at h
       subst h
       subst ho
       refine ⟨rfl, ?_⟩
       have hi' : _ = info := Option.some.inj hi
       subst hi'
       first
         | (obtain ⟨k1, -⟩ := fieldsOk_partsJ hk rfl
            refine fields2_eq f _ _ ?_ ?_ <;> first | with_reducible rfl | exact k1 rfl)
         | (obtain ⟨k1, k2, k3⟩ := fieldsOk_parts hk (Or.inl rfl)
            refine fields3_eq f _ _ _ ?_ ?_ ?_ <;> first | with_reducible rfl | exact k1 rfl | exact k2 rfl | exact k3 rfl)
         | (obtain ⟨k1, k2, k3⟩ := fieldsOk_parts hk (Or.inr rfl)
            refine fields3_eq f _ _ _ ?_ ?_ ?_ <;> first | with_reducible rfl | exact k1 rfl | exact k2 rfl | exact k3 rfl)
         | with_reducible rfl
         | (show f = f; rfl))
theorem class9_fields (op : Nat) (f : BitVec 21) (i : Instr) (info : OpInfo) (hop : op / 64 = 9) (hi : opInfo op = some info) (h : ctor9 (op % 64) f = some i)
    (hk : fieldsOk op info f = true) : i.opcode = op ∧ i.fields = f := by
  unfold ctor9 at h
  split at h
  all_goals first
    | (simp at h; done)
    | (rename_i hm
       have ho := Nat.div_add_mod op 64
       rw [hop, hm] at ho
       simp only [Nat.reduceMul, Nat.reduceAdd, Nat.zero_add] at ho
       simp only [Option.some.injEq] at h
       subst h
       subst ho
       refine ⟨rfl, ?_⟩
       have hi' : _ = info := Option.some.inj hi
       subst hi'
       first
         | (obtain ⟨k1, -⟩ := fieldsOk_partsJ hk rfl
            refine fields2_eq f _ _ ?_ ?_ <;> first | with_reducible rfl | exact k1 rfl)
         | (obtain ⟨k1, k2, k3⟩ := fieldsOk_parts hk (Or.inl rfl)
            refine fields3_eq f _ _ _ ?_ ?_ ?_ <;> first | with_reducible rfl | exact k1 rfl | exact k2 rfl | exact k3 rfl)
         | (obtain ⟨k1, k2, k3⟩ := fieldsOk_parts hk (Or.inr rfl)
            refine fields3_eq f _ _ _ ?_ ?_ ?_ <;> first | with_reducible rfl | exact k1 rfl | exact k2 rfl | exact k3 rfl)
         | with_reducible rfl
         | (show f = f; rfl))
theorem classA_fields (op : Nat) (f : BitVec 21) (i : Instr) (info : OpInfo) (hop : op / 64 = 10) (hi : opInfo op = some info) (h : ctorA (op % 64) f = some i)
    (hk : fieldsOk op info f = true) : i.opcode = op ∧ i.fields = f := by
  unfold ctorA at h
  split at h
  all_goals first
    | (simp at h; done)
    | (rename_i hm
       have ho := Nat.div_add_mod op 64
       rw [hop, hm] at ho
       simp only [Nat.reduceMul, Nat.reduceAdd, Nat.zero_add] at ho
       simp only [Option.some.injEq] at h
       subst h
       subst ho
       refine ⟨rfl, ?_⟩
       have hi' : _ = info := Option.some.inj hi
       subst hi'
       first
         | (obtain ⟨k1, -⟩ := fieldsOk_partsJ hk rfl
            refine fields2_eq f _ _ ?_ ?_ <;> first | with_reducible rfl | exact k1 rfl)
         | (obtain ⟨k1, k2, k3⟩ := fieldsOk_parts hk (Or.inl rfl)
            refine fields3_eq f _ _ _ ?_ ?_ ?_ <;> first | with_reducible rfl | exact k1 rfl | exact k2 rfl | exact k3 rfl)
         | (obtain ⟨k1, k2, k3⟩ := fieldsOk_parts hk (Or.inr rfl)
            refine fields3_eq f _ _ _ ?_ ?_ ?_ <;> first | with_reducible rfl | exact k1 rfl | exact k2 rfl | exact k3 rfl)
         | with_reducible rfl
         | (show f = f; rfl))
theorem classB_fields (op : Nat) (f : BitVec 21) (i : Instr) (info : OpInfo) (hop : op / 64 = 11) (hi : opInfo op = some info) (h : ctorB (op % 64) f = some i)
    (hk : fieldsOk op info f = true) : i.opcode = op ∧ i.fields = f := by
  unfold ctorB at h
  split at h
  all_goals first
    | (simp at h; done)
    | (rename_i hm
       have ho := Nat.div_add_mod op 64
       rw [hop, hm] at ho
       simp only [Nat.reduceMul, Nat.reduceAdd, Nat.zero_add] at ho
       simp only [Option.some.injEq] at h
       subst h
       subst ho
       refine ⟨rfl, ?_⟩
       have hi' : _ = info := Option.some.inj hi
       subst hi'
       first
         | (obtain ⟨k1, -⟩ := fieldsOk_partsJ hk rfl
            refine fields2_eq f _ _ ?_ ?_ <;> first | with_reducible rfl | exact k1 rfl)
         | (obtain ⟨k1, k2, k3⟩ := fieldsOk_parts hk (Or.inl rfl)
            refine fields3_eq f _ _ _ ?_ ?_ ?_ <;> first | with_reducible rfl | exact k1 rfl | exact k2 rfl | exact k3 rfl)
         | (obtain ⟨k1, k2, k3⟩ := fieldsOk_parts hk (Or.inr rfl)
            refine fields3_eq f _ _ _ ?_ ?_ ?_ <;> first | with_reducible rfl | exact k1 rfl | exact k2 rfl | exact k3 rfl)
         | with_reducible rfl
         | (show f = f; rfl))

/-- The opcode and fields of the instruction that a word of the map gives are the word's own. -/
theorem ctorOf_fields {op : Nat} {f : BitVec 21} {i : Instr} {info : OpInfo} (hi : opInfo op = some info) (h : ctorOf op f = some i)
    (hk : fieldsOk op info f = true) : i.opcode = op ∧ i.fields = f := by
  unfold ctorOf at h
  split at h
  · rename_i e; exact class0_fields op f i info e hi h hk
  · rename_i e; exact class1_fields op f i info e hi h hk
  · rename_i e; exact class2_fields op f i info e hi h hk
  · rename_i e; exact class3_fields op f i info e hi h hk
  · rename_i e; exact class4_fields op f i info e hi h hk
  · rename_i e; exact class5_fields op f i info e hi h hk
  · rename_i e; exact class6_fields op f i info e hi h hk
  · rename_i e; exact class7_fields op f i info e hi h hk
  · rename_i e; exact class8_fields op f i info e hi h hk
  · rename_i e; exact class9_fields op f i info e hi h hk
  · rename_i e; exact classA_fields op f i info e hi h hk
  · rename_i e; exact classB_fields op f i info e hi h hk
  · simp at h

/-! A word's two parts, and the tables of opcodes against those of their operands. -/

theorem word_parts (w : Word) : BitVec.ofNat 11 (opOf w) ++ bits w 0 21 = w := by
  unfold opOf bits
  rw [BitVec.ofNat_toNat, BitVec.setWidth_eq]
  apply BitVec.eq_of_getLsbD_eq
  intro j hj
  rw [BitVec.getLsbD_append]
  simp only [BitVec.getLsbD_extractLsb']
  by_cases h1 : j < 21
  · simp [h1]
  · simp [h1, show j - 21 < 11 by omega, show 21 + (j - 21) = j by omega]
theorem opOf_div (w : Word) : opOf w = w.toNat / 2097152 := by
  unfold opOf bits
  rw [BitVec.extractLsb'_toNat, Nat.shiftRight_eq_div_pow]
  have := w.isLt
  omega
theorem ctorOf_hasWord {op : Nat} {f : BitVec 21} {i : Instr} (h : ctorOf op f = some i) : i.hasWord = true ∧ ∀ w, i ≠ .unusedOpcode w := by
  unfold ctorOf at h
  split at h
  all_goals first
    | (unfold ctor0 at h; split at h <;> simp at h <;> subst h <;> exact ⟨rfl, by simp⟩)
    | (unfold ctor1 at h; split at h <;> simp at h <;> subst h <;> exact ⟨rfl, by simp⟩)
    | (unfold ctor2 at h; split at h <;> simp at h <;> subst h <;> exact ⟨rfl, by simp⟩)
    | (unfold ctor3 at h; split at h <;> simp at h <;> subst h <;> exact ⟨rfl, by simp⟩)
    | (unfold ctor4 at h; split at h <;> simp at h <;> subst h <;> exact ⟨rfl, by simp⟩)
    | (unfold ctor5 at h; split at h <;> simp at h <;> subst h <;> exact ⟨rfl, by simp⟩)
    | (unfold ctor6 at h; split at h <;> simp at h <;> subst h <;> exact ⟨rfl, by simp⟩)
    | (unfold ctor7 at h; split at h <;> simp at h <;> subst h <;> exact ⟨rfl, by simp⟩)
    | (unfold ctor8 at h; split at h <;> simp at h <;> subst h <;> exact ⟨rfl, by simp⟩)
    | (unfold ctor9 at h; split at h <;> simp at h <;> subst h <;> exact ⟨rfl, by simp⟩)
    | (unfold ctorA at h; split at h <;> simp at h <;> subst h <;> exact ⟨rfl, by simp⟩)
    | (unfold ctorB at h; split at h <;> simp at h <;> subst h <;> exact ⟨rfl, by simp⟩)
    | simp at h
theorem info_class0 (m : Nat) (f : BitVec 21) (h : m < 64) : (ctor0 m f).isNone = (opInfo0 m).isNone := by interval_cases m <;> rfl
theorem info_class1 (m : Nat) (f : BitVec 21) (h : m < 64) : (ctor1 m f).isNone = (opInfo1 m).isNone := by interval_cases m <;> rfl
theorem info_class2 (m : Nat) (f : BitVec 21) (h : m < 64) : (ctor2 m f).isNone = (opInfo2 m).isNone := by interval_cases m <;> rfl
theorem info_class3 (m : Nat) (f : BitVec 21) (h : m < 64) : (ctor3 m f).isNone = (opInfo3 m).isNone := by interval_cases m <;> rfl
theorem info_class4 (m : Nat) (f : BitVec 21) (h : m < 64) : (ctor4 m f).isNone = (opInfo4 m).isNone := by interval_cases m <;> rfl
theorem info_class5 (m : Nat) (f : BitVec 21) (h : m < 64) : (ctor5 m f).isNone = (opInfo5 m).isNone := by interval_cases m <;> rfl
theorem info_class6 (m : Nat) (f : BitVec 21) (h : m < 64) : (ctor6 m f).isNone = (opInfo6 m).isNone := by interval_cases m <;> rfl
theorem info_class7 (m : Nat) (f : BitVec 21) (h : m < 64) : (ctor7 m f).isNone = (opInfo7 m).isNone := by interval_cases m <;> rfl
theorem info_class8 (m : Nat) (f : BitVec 21) (h : m < 64) : (ctor8 m f).isNone = (opInfo8 m).isNone := by interval_cases m <;> rfl
theorem info_class9 (m : Nat) (f : BitVec 21) (h : m < 64) : (ctor9 m f).isNone = (opInfo9 m).isNone := by interval_cases m <;> rfl
theorem info_classA (m : Nat) (f : BitVec 21) (h : m < 64) : (ctorA m f).isNone = (opInfoA m).isNone := by interval_cases m <;> rfl
theorem info_classB (m : Nat) (f : BitVec 21) (h : m < 64) : (ctorB m f).isNone = (opInfoB m).isNone := by interval_cases m <;> rfl
theorem info_isNone (op : Nat) (f : BitVec 21) : (ctorOf op f).isNone = (opInfo op).isNone := by
  have hm : op % 64 < 64 := Nat.mod_lt _ (by decide)
  unfold ctorOf opInfo
  generalize op / 64 = k
  match k with
  | 0 => exact info_class0 _ f hm
  | 1 => exact info_class1 _ f hm
  | 2 => exact info_class2 _ f hm
  | 3 => exact info_class3 _ f hm
  | 4 => exact info_class4 _ f hm
  | 5 => exact info_class5 _ f hm
  | 6 => exact info_class6 _ f hm
  | 7 => exact info_class7 _ f hm
  | 8 => exact info_class8 _ f hm
  | 9 => exact info_class9 _ f hm
  | 10 => exact info_classA _ f hm
  | 11 => exact info_classB _ f hm
  | _ + 12 => rfl

end Sys2Proof.Machine
end

