-- ==== Sys2Proof/Laws/Memory.lean ====
section
/-! SUPPORT. The canonical form of the sparse memories: every operation that writes one keeps it, and a read after a write
gives what was written there and what was there elsewhere. -/

namespace Sys2Proof.Machine

open Sys2Proof

/-! The form and single writes. -/

theorem spWf_cons {α : Type} [DecidableEq α] (d : α) (k : Nat) (v : α) (r : List (Nat × α)) :
    spWf d ((k, v) :: r) = true ↔ v ≠ d ∧ (∀ e ∈ r, k < e.1) ∧ spWf d r = true := by
  simp [spWf, and_assoc]

theorem alErase_wf {α : Type} [DecidableEq α] (d : α) (l : List (Nat × α)) (k : Nat) (h : spWf d l = true) :
    spWf d (alErase l k) = true := by
  induction l with
  | nil => exact h
  | cons e r ih =>
    obtain ⟨i, u⟩ := e
    rw [spWf_cons] at h
    unfold alErase at ih ⊢
    by_cases hk : i = k
    · simp only [List.filter, hk, ne_eq, not_true_eq_false, decide_false]
      exact ih h.2.2
    · simp only [List.filter, ne_eq, hk, not_false_eq_true, decide_true]
      rw [spWf_cons]
      exact ⟨h.1, fun e he => h.2.1 e (List.mem_of_mem_filter he), ih h.2.2⟩

theorem alSet_mem {α : Type} (l : List (Nat × α)) (k : Nat) (v : α) (e : Nat × α) (h : e ∈ alSet l k v) :
    e = (k, v) ∨ e ∈ l := by
  induction l with
  | nil => simpa [alSet] using h
  | cons x r ih =>
    obtain ⟨i, u⟩ := x
    simp only [alSet] at h
    split at h
    · simpa using h
    · split at h
      · rcases List.mem_cons.mp h with h | h
        · exact .inl h
        · exact .inr (List.mem_cons_of_mem _ h)
      · rcases List.mem_cons.mp h with h | h
        · exact .inr (by simp [h])
        · rcases ih h with h | h
          · exact .inl h
          · exact .inr (List.mem_cons_of_mem _ h)

theorem alSet_wf {α : Type} [DecidableEq α] (d : α) (l : List (Nat × α)) (k : Nat) (v : α) (hv : v ≠ d)
    (h : spWf d l = true) : spWf d (alSet l k v) = true := by
  induction l with
  | nil => simp [alSet, spWf, hv]
  | cons e r ih =>
    obtain ⟨i, u⟩ := e
    have h' := (spWf_cons d i u r).mp h
    simp only [alSet]
    split
    · rename_i hk
      rw [spWf_cons]
      refine ⟨hv, fun e he => ?_, h⟩
      rcases List.mem_cons.mp he with he | he
      · rw [he]; exact hk
      · exact Nat.lt_trans hk (h'.2.1 e he)
    · split
      · rename_i hk
        rw [spWf_cons]
        exact ⟨hv, fun e he => by rw [← hk]; exact h'.2.1 e he, h'.2.2⟩
      · rename_i h1 h2
        rw [spWf_cons]
        refine ⟨h'.1, fun e he => ?_, ih h'.2.2⟩
        rcases alSet_mem r k v e he with he | he
        · rw [he]
          show i < k
          omega
        · exact h'.2.1 e he

/-- A sparse write keeps the canonical form. -/
theorem spSet_wf {α : Type} [DecidableEq α] (d : α) (l : List (Nat × α)) (k : Nat) (v : α) (h : spWf d l = true) :
    spWf d (spSet d l k v) = true := by
  unfold spSet
  split
  · exact alErase_wf d l k h
  · rename_i hv
    exact alSet_wf d l k v hv h

theorem bytesSet_wf (d : Byte) (bs : List Byte) (l : List (Nat × Byte)) (a : Nat) (h : spWf d l = true) :
    spWf d (bytesSet d l a bs) = true := by
  induction bs generalizing l a with
  | nil => exact h
  | cons b r ih => exact ih _ _ (spSet_wf d l a b h)

/-- A byte after a run of bytes is stored: the stored byte inside the run, the old one elsewhere. -/
theorem spGet_bytesSet (d : Byte) (bs : List Byte) (l : List (Nat × Byte)) (a x : Nat) :
    spGet d (bytesSet d l a bs) x = if a ≤ x ∧ x < a + bs.length then bs[x - a]?.getD d else spGet d l x := by
  induction bs generalizing l a with
  | nil =>
    have : ¬ (a ≤ x ∧ x < a + ([] : List Byte).length) := by simp
    simp only [bytesSet, this, if_false]
  | cons b r ih =>
    simp only [bytesSet, ih, spGet_spSet, List.length_cons]
    by_cases h1 : a + 1 ≤ x ∧ x < a + 1 + r.length
    · have h2 : a ≤ x ∧ x < a + (r.length + 1) := by omega
      have h3 : x - a = (x - (a + 1)) + 1 := by omega
      simp only [h1, h2, and_self, if_true, h3, List.getElem?_cons_succ]
    · by_cases h4 : x = a
      · subst h4
        have h5 : x ≤ x ∧ x < x + (r.length + 1) := by omega
        rw [if_neg h1, if_pos rfl, if_pos h5]; simp
      · have h5 : ¬ (a ≤ x ∧ x < a + (r.length + 1)) := by omega
        rw [if_neg h1, if_neg h4, if_neg h5]

/-! Module memory: physical writes, L1 traffic, translation. -/

theorem physWrite_wf (s : State) (mat : BitVec 512) (pa : Nat) (bs : List Byte) (h : Memory.wf s.mem = true) :
    Memory.wf (s.physWrite mat pa bs).mem = true := by
  unfold State.physWrite Memory.wf
  simp only
  split
  · split
    · exact bytesSet_wf _ _ _ _ h
    · exact bytesSet_wf _ _ _ _ (bytesSet_wf _ _ _ _ h)
  · exact bytesSet_wf _ _ _ _ h

theorem physWriteKey_wf (s : State) (k pa : Nat) (bs : List Byte) (h : Memory.wf s.mem = true) :
    Memory.wf (s.physWriteKey k pa bs).mem = true := by
  unfold State.physWriteKey
  split
  · exact physWrite_wf _ _ _ _ h
  · exact h

theorem foldl_wf {α : Type} (f : State → α → State) (l : List α) (s : State) (h : Memory.wf s.mem = true)
    (hf : ∀ s a, Memory.wf s.mem = true → Memory.wf (f s a).mem = true) : Memory.wf (l.foldl f s).mem = true := by
  induction l generalizing s with
  | nil => exact h
  | cons a r ih => exact ih _ (hf s a h)

theorem writeBack_wf (s : State) (l : L1Line) (h : Memory.wf s.mem = true) : Memory.wf (s.writeBack l).mem = true :=
  foldl_wf _ _ s h (fun s _ hs => physWriteKey_wf s _ _ _ hs)

theorem removeLines_wf (s : State) (c : Nat) (p : L1Line → Bool) (h : Memory.wf s.mem = true) :
    Memory.wf (s.removeLines c p).mem = true := by
  unfold State.removeLines
  simp only
  split
  · exact foldl_wf _ _ _ (by rw [State.setCore_mem]; exact h) writeBack_wf
  · exact h

theorem cleanLines_wf (s : State) (c : Nat) (p : L1Line → Bool) (h : Memory.wf s.mem = true) :
    Memory.wf (s.cleanLines c p).mem = true := by
  unfold State.cleanLines
  simp only
  split
  · rw [State.setCore_mem]
    exact foldl_wf _ _ _ h writeBack_wf
  · exact foldl_wf _ _ _ h writeBack_wf

theorem pullLine_wf (s : State) (cl pl : Nat) (h : Memory.wf s.mem = true) : Memory.wf (s.pullLine cl pl).mem = true :=
  foldl_wf _ _ s h (fun s c hs => removeLines_wf s c _ hs)

/-- The a and d bits that a walk leaves are written at home. -/
theorem touch_wf (s : State) (w : Who) (va : Nat) (t : Trans) (b : Bool) (h : Memory.wf s.mem = true) :
    Memory.wf (s.touch w va t b).mem = true := by
  unfold State.touch
  cases t.entry with
  | none => exact h
  | some e =>
    simp only
    by_cases hl : markLeaf b t.leaf = t.leaf
    · simp only [hl, if_true]
      cases w.fab <;> simp only [Bool.false_eq_true, if_true, if_false, State.setDie_mem, State.setCluster_mem] <;> exact h
    · simp only [hl, if_false]
      cases w.fab <;> simp only [Bool.false_eq_true, if_true, if_false, State.setDie_mem, State.setCluster_mem]
      · exact physWriteKey_wf _ _ _ _ (pullLine_wf s _ _ h)
      · exact physWriteKey_wf _ _ _ _ h

theorem fill_wf (s : State) (w : Who) (vline : Nat) (t : Trans) (h : Memory.wf s.mem = true) :
    Memory.wf (s.fill w vline t).mem = true := by
  unfold State.fill
  simp only
  have hp := pullLine_wf s (clusterOf w.core) (t.pa / 128) h
  rw [State.setCore_mem]
  split
  · exact hp
  · split
    · dsimp only
      exact removeLines_wf _ _ _ hp
    · exact hp

theorem ensureLine_wf (s : State) (w : Who) (va : Nat) (t : Trans) (b : Bool) (h : Memory.wf s.mem = true) :
    Memory.wf (s.ensureLine w va t b).mem = true := by
  unfold State.ensureLine
  simp only
  split
  · split
    · split
      · exact h
      · rw [State.setCore_mem]; exact h
    · exact fill_wf _ _ _ _ (removeLines_wf _ _ _ h)
  · exact fill_wf _ _ _ _ h

theorem storeBytes_wf (s : State) (w : Who) (va : Nat) (bs : List Byte) (t : Trans) (h : Memory.wf s.mem = true) :
    Memory.wf (s.storeBytes w va bs t).mem = true := by
  unfold State.storeBytes
  simp only
  split
  · exact physWriteKey_wf _ _ _ _ (pullLine_wf _ _ _ (touch_wf _ _ _ _ _ h))
  · rw [State.setCore_mem]
    exact ensureLine_wf _ _ _ _ _ (touch_wf _ _ _ _ _ h)

theorem loadBytes_wf (s : State) (w : Who) (va n : Nat) (t : Trans) (h : Memory.wf s.mem = true) :
    Memory.wf (s.loadBytes w va n t).2.mem = true := by
  unfold State.loadBytes
  simp only
  split
  · exact touch_wf _ _ _ _ _ h
  · split
    · dsimp only
      exact pullLine_wf _ _ _ (touch_wf _ _ _ _ _ h)
    · split <;> dsimp only <;> exact ensureLine_wf _ _ _ _ _ (touch_wf _ _ _ _ _ h)

theorem homeRead_wf (s : State) (w : Who) (va n : Nat) (t : Trans) (b : Bool) (h : Memory.wf s.mem = true) :
    Memory.wf (s.homeRead w va n t b).2.mem = true := by
  unfold State.homeRead
  simp only
  split
  · exact touch_wf _ _ _ _ _ h
  · dsimp only
    split
    · exact touch_wf _ _ _ _ _ h
    · exact pullLine_wf _ _ _ (touch_wf _ _ _ _ _ h)

theorem homeWrite_wf (s : State) (w : Who) (va : Nat) (bs : List Byte) (t : Trans) (h : Memory.wf s.mem = true) :
    Memory.wf (s.homeWrite w va bs t).mem = true := by
  unfold State.homeWrite
  simp only
  split
  · exact physWriteKey_wf _ _ _ _ (touch_wf _ _ _ _ _ h)
  · exact physWriteKey_wf _ _ _ _ (pullLine_wf _ _ _ (touch_wf _ _ _ _ _ h))

theorem loadLoc_wf (s : State) (n : Nat) (x : Loc) (h : Memory.wf s.mem = true) : Memory.wf (s.loadLoc n x).2.mem = true := by
  unfold State.loadLoc
  split
  · split
    · exact touch_wf _ _ _ _ _ h
    · exact loadBytes_wf _ _ _ _ _ h
  · exact h
  · exact h

theorem storeLoc_wf (s : State) (bs : List Byte) (x : Loc) (h : Memory.wf s.mem = true) :
    Memory.wf (s.storeLoc bs x).mem = true := by
  unfold State.storeLoc
  split
  · split
    · exact touch_wf _ _ _ _ _ h
    · exact storeBytes_wf _ _ _ _ _ h
  · exact h
  · exact h

theorem updateLoc_wf (s : State) (n : Nat) (f : Nat → Nat × Nat) (x : Loc) (h : Memory.wf s.mem = true) :
    Memory.wf (s.updateLoc n f x).2.mem = true := by
  unfold State.updateLoc
  split
  · dsimp only
    exact homeWrite_wf _ _ _ _ _ (homeRead_wf _ _ _ _ _ _ h)
  · exact h
  · exact h

theorem releaseL1_wf (s : State) (c : Nat) (h : Memory.wf s.mem = true) : Memory.wf (s.releaseL1 c).mem = true :=
  foldl_wf _ _ s h (fun s k hs => cleanLines_wf s k _ hs)
theorem acquireL1_wf (s : State) (c : Nat) (h : Memory.wf s.mem = true) : Memory.wf (s.acquireL1 c).mem = true :=
  foldl_wf _ _ s h (fun s k hs => removeLines_wf s k _ hs)

/-! Scratch, accumulator rows, tags, and reset. -/

theorem scratchWrite_wf (s : State) (b off : Nat) (bs : List Byte) (h : spWf 0 (s.block b).scratch = true) (hb : b < s.blocks.length) :
    spWf 0 ((s.scratchWrite b off bs).block b).scratch = true := by
  have : (s.scratchWrite b off bs).block b = { s.block b with scratch := bytesSet 0 (s.block b).scratch off bs } := by
    show nth (s.blocks.set b _) b _ = _
    rw [nth_set]; simp [hb]
  rw [this]
  exact bytesSet_wf _ _ _ _ h

theorem accSet_wf (b : Block) (r c : Nat) (v : Word) (h : spWf 0 b.acc = true) : spWf 0 (b.accSet r c v).acc = true :=
  spSet_wf _ _ _ _ h

theorem reset_memoriesWf : State.reset.memoriesWf = true := by decide

end Sys2Proof.Machine
end

