-- ==== Sys2Proof/Laws/Store.lean ====
section
/-! SUPPORT. What a store, an atomic update and a load through the caches leave of one byte of memory and of scratch. -/

namespace Sys2Proof.Machine

open Sys2Proof

/-! What an access through the caches never touches. -/

/-- The parts of the state that an access through the caches never touches. -/
def State.aside (s : State) : List Warp × List Block × List Die × Issue × List Launch × List (Nat × Quarter) × List Act :=
  (s.warps, s.blocks, s.dies, s.issue, s.launches, s.quarters, s.agenda)

theorem who_aside {s t : State} (h : t.aside = s.aside) : t.who = s.who := by
  unfold State.aside at h
  simp only [Prod.mk.injEq] at h
  obtain ⟨h1, h2, h3, h4, h5, -⟩ := h
  unfold State.who State.whoOfWarp State.coreOfWarp State.ctxOfWarp State.launchOf State.warp State.block whoOf State.die
  rw [h1, h2, h3, h4, h5]

theorem foldl_aside {α : Type} (f : State → α → State) (l : List α) (s : State) (hf : ∀ s a, (f s a).aside = s.aside) :
    (l.foldl f s).aside = s.aside := by
  induction l generalizing s with
  | nil => rfl
  | cons a r ih => exact (ih _).trans (hf s a)

theorem physWriteKey_aside (s : State) (k pa : Nat) (bs : List Byte) : (s.physWriteKey k pa bs).aside = s.aside := by
  unfold State.physWriteKey State.physWrite
  split
  · simp only
    split
    · split <;> rfl
    · rfl
  · rfl

theorem setCore_aside (s : State) (c : Nat) (k : Core) : (s.setCore c k).aside = s.aside := rfl
theorem setCluster_aside (s : State) (c : Nat) (k : Cluster) : (s.setCluster c k).aside = s.aside := rfl

theorem writeBack_aside (s : State) (x : L1Line) : (s.writeBack x).aside = s.aside := by
  unfold State.writeBack
  simp only
  exact foldl_aside (fun s i => s.physWriteKey _ _ _) _ s (fun s i => physWriteKey_aside s _ _ _)

theorem removeLines_aside (s : State) (c : Nat) (p : L1Line → Bool) : (s.removeLines c p).aside = s.aside := by
  unfold State.removeLines
  simp only
  split
  · exact (foldl_aside State.writeBack _ _ writeBack_aside).trans (setCore_aside s c _)
  · rfl

theorem pullLine_aside (s : State) (cl pl : Nat) : (s.pullLine cl pl).aside = s.aside := by
  unfold State.pullLine
  exact foldl_aside (fun s c => s.removeLines c _) _ s (fun s c => removeLines_aside s c _)

theorem cleanLines_aside (s : State) (c : Nat) (p : L1Line → Bool) : (s.cleanLines c p).aside = s.aside := by
  unfold State.cleanLines
  simp only
  have k := foldl_aside State.writeBack (List.filter p (s.core c).l1) s writeBack_aside
  generalize List.foldl State.writeBack s (List.filter p (s.core c).l1) = u at *
  split
  · exact (setCore_aside u c _).trans k
  · exact k

theorem touch_aside (s : State) (w : Who) (va : Nat) (t : Trans) (b : Bool) (hf : w.fab = false) :
    (s.touch w va t b).aside = s.aside := by
  unfold State.touch
  cases t.entry with
  | none => rfl
  | some ek =>
    obtain ⟨epa, ekey⟩ := ek
    simp only [hf, Bool.false_eq_true, if_false]
    have hset : ∀ u : State, u.aside = s.aside → ∀ c x, (u.setCluster c x).aside = s.aside := fun u hu c x => hu
    apply hset
    by_cases hl : markLeaf b t.leaf = t.leaf
    · rw [if_pos hl]
    · rw [if_neg hl, physWriteKey_aside, pullLine_aside]

theorem fill_aside (s : State) (w : Who) (vline : Nat) (t : Trans) : (s.fill w vline t).aside = s.aside := by
  unfold State.fill
  simp only
  rw [setCore_aside]
  have k := pullLine_aside s (clusterOf w.core) (t.pa / 128)
  generalize s.pullLine (clusterOf w.core) (t.pa / 128) = u at *
  cases freeWay (u.core w.core) vline with
  | some way => exact k
  | none =>
    cases (u.core w.core).l1.find? (fun l => l.vline % 64 = vline % 64) with
    | some old => exact (removeLines_aside u w.core _).trans k
    | none => exact k

theorem ensureLine_aside (s : State) (w : Who) (va : Nat) (t : Trans) (b : Bool) :
    (s.ensureLine w va t b).aside = s.aside := by
  unfold State.ensureLine
  simp only
  split
  · split
    · split
      · rfl
      · rw [setCore_aside]
    · rw [fill_aside, removeLines_aside]
  · rw [fill_aside]

theorem homeRead_aside (s : State) (w : Who) (va n : Nat) (t : Trans) (b : Bool) (hf : w.fab = false) :
    (s.homeRead w va n t b).2.aside = s.aside := by
  unfold State.homeRead
  simp only
  split
  · exact touch_aside s w va t b hf
  · simp only [hf, Bool.false_eq_true, if_false]
    rw [pullLine_aside, touch_aside s w va t b hf]

theorem homeWrite_aside (s : State) (w : Who) (va : Nat) (bs : List Byte) (t : Trans) (hf : w.fab = false) :
    (s.homeWrite w va bs t).aside = s.aside := by
  unfold State.homeWrite
  simp only [hf, Bool.false_eq_true, if_false]
  rw [physWriteKey_aside, pullLine_aside, touch_aside s w va t true hf]

theorem loadBytes_aside (s : State) (w : Who) (va n : Nat) (t : Trans) (hf : w.fab = false) :
    (s.loadBytes w va n t).2.aside = s.aside := by
  unfold State.loadBytes
  simp only
  have k := touch_aside s w va t false hf
  split
  · exact k
  · split
    · dsimp only
      rw [pullLine_aside, k]
    · split <;> dsimp only <;> rw [ensureLine_aside, k]

theorem storeBytes_aside (s : State) (w : Who) (va : Nat) (bs : List Byte) (t : Trans) (hf : w.fab = false) :
    (s.storeBytes w va bs t).aside = s.aside := by
  unfold State.storeBytes
  simp only
  have k := touch_aside s w va t true hf
  split
  · rw [physWriteKey_aside, pullLine_aside, k]
  · rw [setCore_aside, ensureLine_aside, k]

/-- A load touches nothing beside memory, its keys and the caches. -/
theorem loadLoc_aside (s : State) (n : Nat) (x : Loc) : (s.loadLoc n x).2.aside = s.aside := by
  unfold State.loadLoc
  split
  · split
    · exact touch_aside s _ _ _ _ rfl
    · exact loadBytes_aside s _ _ _ _ rfl
  · rfl
  · rfl

/-- A store touches nothing beside memory, its keys, the caches and scratch. -/
theorem storeLoc_aside (s : State) (bs : List Byte) (x : Loc) (hx : ∀ b off, x ≠ .scr b off) :
    (s.storeLoc bs x).aside = s.aside := by
  unfold State.storeLoc
  split
  · split
    · exact touch_aside s _ _ _ _ rfl
    · exact storeBytes_aside s _ _ _ _ rfl
  · rename_i b off
    exact absurd rfl (hx b off)
  · rfl

/-! One byte of memory. -/

/-- What an access leaves of byte q of memory, of its line's key, of the loaded keys and no core of the cluster comes to hold a dirty byte of its line. -/
structure Kept (core q : Nat) (s t : State) : Prop where
  byte : t.memByte q = s.memByte q
  key : alGet t.lineKeys (q / 128) = alGet s.lineKeys (q / 128)
  slots : t.keySlots = s.keySlots
  clean : t.lineClean core (q / 128)

theorem Kept.same {core q : Nat} {s : State} (h : s.lineClean core (q / 128)) : Kept core q s s := ⟨rfl, rfl, rfl, h⟩
theorem Kept.trans {core q : Nat} {s t u : State} (h : Kept core q s t) (k : Kept core q t u) : Kept core q s u :=
  ⟨k.byte.trans h.byte, k.key.trans h.key, k.slots.trans h.slots, k.clean⟩

/-- An update of parts that hold neither memory, keys nor caches. -/
theorem Kept.parts {core q : Nat} {s t : State} (h : s.lineClean core (q / 128)) (h1 : t.mem = s.mem)
    (h2 : t.lineKeys = s.lineKeys) (h3 : t.keySlots = s.keySlots) (h4 : t.cores = s.cores) : Kept core q s t := by
  refine ⟨by unfold State.memByte; rw [h1], by rw [h2], h3, ?_⟩
  intro c hc l hl
  exact h c hc l (by unfold State.core at hl ⊢; rw [h4] at hl; exact hl)

theorem Kept.foldl {α : Type} {core q : Nat} (f : State → α → State) (l : List α) (s : State)
    (h : s.lineClean core (q / 128)) (hf : ∀ s a, a ∈ l → s.lineClean core (q / 128) → Kept core q s (f s a)) :
    Kept core q s (l.foldl f s) := by
  induction l generalizing s with
  | nil => exact Kept.same h
  | cons a r ih =>
    have k := hf s a (List.mem_cons_self ..) h
    exact k.trans (ih _ k.clean (fun s b hb => hf s b (List.mem_cons_of_mem _ hb)))

/-! Physical writes. -/

/-- The length of a number's bytes. -/
theorem toBytes_length (n v : Nat) : (toBytes n v).length = n := by
  induction n generalizing v with
  | zero => rfl
  | succ n ih => simp [toBytes, ih]
theorem bytesGet_length (d : Byte) (l : List (Nat × Byte)) (a n : Nat) : (bytesGet d l a n).length = n := by
  induction n generalizing a with
  | zero => rfl
  | succ n ih => simp [bytesGet, ih]

/-- The cipher makes no line longer. -/
theorem xtsFold_length (f : BitVec 128 → Nat → List Byte) (g : BitVec 128 → BitVec 128) (is : List Nat) (out : List Byte)
    (t : BitVec 128) : ((is.foldl (fun (p : List Byte × BitVec 128) i =>
      (p.1 ++ xorBytes (f p.2 i) (toBytes 16 p.2.toNat), g p.2)) (out, t)).1).length ≤ out.length + 16 * is.length := by
  induction is generalizing out t with
  | nil => simp
  | cons i r ih =>
    simp only [List.foldl_cons, List.length_cons]
    refine (ih _ _).trans ?_
    have h : (xorBytes (f t i) (toBytes 16 t.toNat)).length ≤ 16 := by
      unfold xorBytes
      rw [List.length_zipWith, toBytes_length]
      exact Nat.min_le_right _ _
    rw [List.length_append]
    omega
theorem xtsLine_length (cipher : List (List Byte) → List Byte → List Byte) (mat : BitVec 512) (line : Nat) (bs : List Byte) :
    (xtsLine cipher mat line bs).length ≤ 128 := by
  unfold xtsLine
  simp only
  generalize aesWords ((toBytes 64 mat.toNat).take 32) = ws
  generalize BitVec.ofNat 128 (ofBytes _) = t
  exact xtsFold_length (fun t i => cipher ws (xorBytes ((bs.drop (16 * i)).take 16) (toBytes 16 t.toNat))) xtsNext
    (List.range 8) [] t
theorem lineUnder_length (s : State) (mat : BitVec 512) (pl : Nat) : (s.lineUnder mat pl).length ≤ 128 := by
  have plain : (s.plainLine pl).length ≤ 128 := Nat.le_of_eq (bytesGet_length _ _ _ _)
  unfold State.lineUnder
  split
  · split
    · exact plain
    · exact xtsLine_length _ _ _ _
  · exact plain

theorem physWrite_kept {q : Nat} (s : State) (mat : BitVec 512) (pa : Nat) (bs : List Byte)
    (hout : q < pa ∨ pa + bs.length ≤ q)
    (hq : pa / 128 = q / 128 → ∀ k, alGet s.lineKeys (q / 128) = some k → k = mat) :
    (s.physWrite mat pa bs).memByte q = s.memByte q ∧ (s.physWrite mat pa bs).keySlots = s.keySlots ∧
      (s.physWrite mat pa bs).cores = s.cores ∧
      (pa / 128 ≠ q / 128 → alGet (s.physWrite mat pa bs).lineKeys (q / 128) = alGet s.lineKeys (q / 128)) := by
  have out : ¬ (pa ≤ q ∧ q < pa + bs.length) := by omega
  have one : spGet Config.memInit (bytesSet Config.memInit s.mem pa bs) q = spGet Config.memInit s.mem q := by
    rw [spGet_bytesSet, if_neg out]
  unfold State.physWrite State.memByte
  simp only
  split
  · rename_i w hw
    split
    · exact ⟨one, rfl, rfl, fun _ => rfl⟩
    · rename_i hne
      have hpl : pa / 128 ≠ q / 128 := by
        intro e
        rw [e] at hw
        exact hne (hq e w hw)
      refine ⟨?_, rfl, rfl, fun _ => by rw [alGet_alSet, if_neg (by omega)]⟩
      show spGet _ (bytesSet _ (bytesSet _ s.mem _ _) pa bs) q = _
      have len := lineUnder_length s mat (pa / 128)
      rw [spGet_bytesSet, if_neg out, spGet_bytesSet, if_neg (by omega)]
  · refine ⟨one, rfl, rfl, fun hne => ?_⟩
    rw [alGet_alSet, if_neg (by omega)]

/-- A physical write that begins in another line and does not reach the byte keeps everything of it. -/
theorem physWriteKey_kept {core q : Nat} (s : State) (k pa : Nat) (bs : List Byte) (h : s.lineClean core (q / 128))
    (hout : q < pa ∨ pa + bs.length ≤ q) (hq : pa / 128 ≠ q / 128) : Kept core q s (s.physWriteKey k pa bs) := by
  unfold State.physWriteKey
  split
  · rename_i m _
    obtain ⟨h1, h2, h3, h4⟩ := physWrite_kept s m pa bs hout (fun e => absurd e hq)
    refine ⟨h1, h4 hq, h2, ?_⟩
    intro c hc l hl
    exact h c hc l (by unfold State.core at hl ⊢; rw [h3] at hl; exact hl)
  · exact Kept.same h

/-! Caches. -/

theorem writeBack_kept {core q : Nat} (s : State) (x : L1Line) (h : s.lineClean core (q / 128))
    (hx : x.pline = q / 128 → x.dirty = 0) : Kept core q s (s.writeBack x) := by
  unfold State.writeBack
  refine Kept.foldl _ _ s h (fun s i hi hs => ?_)
  have hi' := List.mem_filter.mp hi
  have hlt : i < 128 := by simpa using hi'.1
  have hp : (x.pline * 128 + i) / 128 = x.pline := by omega
  have hne : x.pline ≠ q / 128 := by
    intro e
    have := hi'.2
    rw [hx e] at this
    simp at this
  refine physWriteKey_kept s _ _ _ hs ?_ (by rw [hp]; exact hne)
  simp only [List.length_cons, List.length_nil]
  omega

theorem core_setCore (s : State) (c d : Nat) (k : Core) : (s.setCore c k).core d = if d = c then k else s.core d := by
  unfold State.core State.setCore
  simp only [alGet_alSet]
  by_cases e : d = c
  · subst e; simp
  · simp [e]

theorem removeLines_kept {core q : Nat} (s : State) (c : Nat) (p : L1Line → Bool) (hc : c ∈ coresOf (clusterOf core))
    (h : s.lineClean core (q / 128)) : Kept core q s (s.removeLines c p) := by
  unfold State.removeLines
  simp only
  split
  · have h1 : Kept core q s (s.setCore c { s.core c with l1 := (s.core c).l1.filter (fun l => !p l) }) := by
      refine ⟨rfl, rfl, rfl, ?_⟩
      intro d hd l hl
      rw [core_setCore] at hl
      by_cases e : d = c
      · subst e
        rw [if_pos rfl] at hl
        exact h d hd l (List.mem_of_mem_filter hl)
      · rw [if_neg e] at hl
        exact h d hd l hl
    refine h1.trans (Kept.foldl _ _ _ h1.clean (fun t x hx ht => writeBack_kept t x ht ?_))
    exact h c hc x (List.mem_of_mem_filter hx)
  · exact Kept.same h

theorem pullLine_kept {core q : Nat} (s : State) (pl : Nat) (h : s.lineClean core (q / 128)) :
    Kept core q s (s.pullLine (clusterOf core) pl) :=
  Kept.foldl _ _ s h (fun t c hc ht => removeLines_kept t c _ hc ht)

theorem own_core (core : Nat) : core ∈ coresOf (clusterOf core) := by
  unfold coresOf clusterOf
  rw [List.mem_map]
  exact ⟨core % 8, by simp; omega, by omega⟩

theorem touch_kept {q : Nat} (s : State) (w : Who) (va : Nat) (t : Trans) (b : Bool) (hf : w.fab = false)
    (h : s.lineClean w.core (q / 128))
    (he : ∀ e k, t.entry = some (e, k) → e / 128 ≠ q / 128 ∧ (e + 7) / 128 ≠ q / 128) : Kept w.core q s (s.touch w va t b) := by
  unfold State.touch
  cases hent : t.entry with
  | none => exact Kept.same h
  | some ek =>
    obtain ⟨epa, ekey⟩ := ek
    obtain ⟨h1, h2⟩ := he epa ekey hent
    simp only [hf, Bool.false_eq_true, if_false]
    have hset : ∀ u : State, Kept w.core q s u → ∀ c x, Kept w.core q s (u.setCluster c x) := by
      intro u hu c x
      exact hu.trans (Kept.parts hu.clean rfl rfl rfl rfl)
    apply hset
    split
    · exact Kept.same h
    · have k1 := pullLine_kept s (epa / 128) h
      exact k1.trans (physWriteKey_kept _ _ _ _ k1.clean (by rw [toBytes_length]; omega) h1)

theorem fill_kept {q : Nat} (s : State) (w : Who) (vline : Nat) (t : Trans) (h : s.lineClean w.core (q / 128)) :
    Kept w.core q s (s.fill w vline t) := by
  unfold State.fill
  simp only
  have k1 := pullLine_kept s (t.pa / 128) h
  generalize s.pullLine (clusterOf w.core) (t.pa / 128) = s1 at *
  have fin : ∀ u : State, Kept w.core q s u → ∀ l : L1Line, l.dirty = 0 →
      Kept w.core q s (u.setCore w.core { u.core w.core with l1 := (u.core w.core).l1 ++ [l] }) := by
    intro u hu l hl
    refine ⟨hu.byte, hu.key, hu.slots, ?_⟩
    intro d hd x hx
    rw [core_setCore] at hx
    by_cases e : d = w.core
    · rw [if_pos e] at hx
      rcases List.mem_append.mp hx with hx | hx
      · exact hu.clean _ (own_core _) x hx
      · intro _; rw [List.mem_singleton.mp hx]; exact hl
    · rw [if_neg e] at hx
      exact hu.clean d hd x hx
  split
  · exact fin _ k1 _ rfl
  · split
    · dsimp only
      exact fin _ (k1.trans (removeLines_kept _ _ _ (own_core _) k1.clean)) _ rfl
    · exact fin _ k1 _ rfl

theorem ensureLine_kept {q : Nat} (s : State) (w : Who) (va : Nat) (t : Trans) (b : Bool)
    (h : s.lineClean w.core (q / 128)) : Kept w.core q s (s.ensureLine w va t b) := by
  unfold State.ensureLine
  simp only
  split
  · split
    · split
      · exact Kept.same h
      · rename_i l _ _ _
        refine ⟨rfl, rfl, rfl, ?_⟩
        intro d hd x hx
        rw [core_setCore] at hx
        by_cases e : d = w.core
        · rw [if_pos e] at hx
          obtain ⟨y, hy, rfl⟩ := List.mem_map.mp hx
          have := h _ (own_core _) y hy
          split <;> exact this
        · rw [if_neg e] at hx
          exact h d hd x hx
    · rename_i l _ _
      have k := removeLines_kept s w.core (fun x => decide (x = l)) (own_core _) h
      generalize s.removeLines w.core (fun x => decide (x = l)) = u at *
      exact k.trans (fill_kept u w _ _ k.clean)
  · exact fill_kept _ _ _ _ h

/-! Accesses. -/

/-- The last write of a store at home. -/
theorem lastWrite_kept {core q : Nat} (s u : State) (k pa : Nat) (bs : List Byte) (hk : Kept core q s u)
    (hp : pa / 128 = q / 128 → (q < pa ∨ pa + bs.length ≤ q) ∧
      ∀ x m, alGet s.lineKeys (q / 128) = some x → s.keyMat k = some m → x = m) (hl : pa % 128 + bs.length ≤ 128) :
    (u.physWriteKey k pa bs).memByte q = s.memByte q := by
  unfold State.physWriteKey
  split
  · rename_i m hm
    have hm' : s.keyMat k = some m := by unfold State.keyMat at hm ⊢; rw [hk.slots] at hm; exact hm
    have w1 : q < pa ∨ pa + bs.length ≤ q := by
      by_cases e : pa / 128 = q / 128
      · exact (hp e).1
      · omega
    have w2 : pa / 128 = q / 128 → ∀ k, alGet u.lineKeys (q / 128) = some k → k = m := by
      intro e x hx
      rw [hk.key] at hx
      exact (hp e).2 x m hx hm'
    exact (physWrite_kept u m pa bs w1 w2).1.trans hk.byte
  · exact hk.byte

/-- A resolved store leaves every byte of memory that it spares. -/
theorem storeLoc_spares (s : State) (bs : List Byte) (x : Loc) (q : Nat) (h : s.spares false x bs.length q) :
    (s.storeLoc bs x).memByte q = s.memByte q := by
  unfold State.storeLoc
  cases x with
  | glob p t =>
    obtain ⟨h1, h2, h3, h4⟩ := h
    simp only
    split
    · exact (touch_kept s s.who (field p 0 57) t true rfl h1 h2).byte
    · rename_i hk
      unfold State.storeBytes
      simp only
      have k1 := touch_kept s s.who (field p 0 57) t true rfl h1 h2
      split
      · rename_i hnc
        exact lastWrite_kept s _ (leafKey t.leaf) t.pa bs (k1.trans (pullLine_kept _ (t.pa / 128) k1.clean))
          (fun e => (h4 hk e).2) h3
      · exact (k1.trans (ensureLine_kept _ s.who (field p 0 57) t true k1.clean)).byte
  | scr b off => rfl
  | ing off => rfl

/-- A store in another line keeps everything of a byte. -/
theorem storeLoc_kept (s : State) (bs : List Byte) (x : Loc) (q : Nat) (h : s.spares false x bs.length q)
    (hc : s.lineClean s.who.core (q / 128))
    (ho : ∀ p t, x = .glob p t → leafKind t.leaf ≠ 2 → t.pa / 128 ≠ q / 128) : Kept s.who.core q s (s.storeLoc bs x) := by
  unfold State.storeLoc
  cases x with
  | glob p t =>
    obtain ⟨h1, h2, h3, h4⟩ := h
    simp only
    have k1 := touch_kept s s.who (field p 0 57) t true rfl h1 h2
    split
    · exact k1
    · rename_i hk
      have hne := ho p t rfl hk
      unfold State.storeBytes
      simp only
      split
      · have k2 := k1.trans (pullLine_kept _ (t.pa / 128) k1.clean)
        exact k2.trans (physWriteKey_kept _ _ _ _ k2.clean (by omega) hne)
      · have k2 := k1.trans (ensureLine_kept _ s.who (field p 0 57) t true k1.clean)
        refine ⟨k2.byte, k2.key, k2.slots, ?_⟩
        intro d hd l hl e
        rw [core_setCore] at hl
        by_cases ed : d = s.who.core
        · rw [if_pos ed] at hl
          obtain ⟨y, hy, rfl⟩ := List.mem_map.mp hl
          split at e
          · rename_i hy2
            simp only [Bool.and_eq_true, decide_eq_true_eq] at hy2
            exact absurd (hy2.2.symm.trans e) hne
          · rename_i hy2
            rw [if_neg hy2]
            exact k2.clean d hd y (by rw [ed]; exact hy) e
        · rw [if_neg ed] at hl
          exact k2.clean d hd l hl e
  | scr b off => exact Kept.parts hc rfl rfl rfl rfl
  | ing off => exact Kept.same hc

/-- An indivisible update of n bytes leaves every byte of memory that it spares. -/
theorem updateLoc_spares (s : State) (n : Nat) (f : Nat → Nat × Nat) (x : Loc) (q : Nat) (h : s.spares true x n q)
    (hk : ∀ p t, x = .glob p t → leafKind t.leaf ≠ 2) : (s.updateLoc n f x).2.memByte q = s.memByte q := by
  unfold State.updateLoc
  cases x with
  | glob p t =>
    obtain ⟨h1, h2, h3, h4⟩ := h
    have hk2 := hk p t rfl
    simp only
    have k1 : Kept s.who.core q s (s.homeRead s.who (field p 0 57) n t true).2 := by
      unfold State.homeRead
      simp only
      have k1 := touch_kept s s.who (field p 0 57) t true rfl h1 h2
      split
      · exact k1
      · simp only [show s.who.fab = false from rfl, Bool.false_eq_true, if_false]
        exact k1.trans (pullLine_kept _ _ k1.clean)
    have hwho := who_aside (homeRead_aside s s.who (field p 0 57) n t true rfl)
    generalize s.homeRead s.who (field p 0 57) n t true = r at *
    obtain ⟨bs, u⟩ := r
    dsimp only at k1 hwho ⊢
    generalize f (ofBytes bs) = z
    obtain ⟨new, ans⟩ := z
    dsimp only
    unfold State.homeWrite
    rw [hwho]
    have k2 := touch_kept u s.who (field p 0 57) t true rfl k1.clean h2
    generalize u.touch s.who (field p 0 57) t true = v at *
    dsimp only
    rw [if_neg (show ¬ s.who.fab = true from Bool.false_ne_true)]
    exact lastWrite_kept s _ (leafKey t.leaf) t.pa (toBytes n new)
      ((k1.trans k2).trans (pullLine_kept v (t.pa / 128) k2.clean))
      (by rw [toBytes_length]; exact fun e => (h4 hk2 e).2) (by rw [toBytes_length]; exact h3)
  | scr b off => rfl
  | ing off => rfl

/-! Loads that change nothing else. -/

theorem ofBytes_toBytes (n v : Nat) : ofBytes (toBytes n v) = v % 2 ^ (8 * n) := by
  induction n generalizing v with
  | zero => simp [toBytes, ofBytes, Nat.mod_one]
  | succ n ih =>
    simp only [toBytes, ofBytes, ih, BitVec.toNat_ofNat]
    rw [show 8 * (n + 1) = 8 + 8 * n by omega, Nat.pow_add]
    rw [Nat.mod_mul, show (2 : Nat) ^ 8 = 256 from rfl]

theorem removeLines_none (s : State) (c : Nat) (p : L1Line → Bool) (h : (s.core c).l1.any p = false) :
    s.removeLines c p = s := by
  unfold State.removeLines
  simp only [h, Bool.false_eq_true, if_false]

theorem pullLine_none (s : State) (cl pl : Nat)
    (h : (coresOf cl).all (fun c => !(s.core c).l1.any (fun l => l.pline = pl)) = true) : s.pullLine cl pl = s := by
  unfold State.pullLine
  rw [List.all_eq_true] at h
  generalize coresOf cl = cs at h
  induction cs with
  | nil => rfl
  | cons c r ih =>
    simp only [List.foldl_cons]
    rw [removeLines_none s c _ (by simpa using h c (List.mem_cons_self ..))]
    exact ih (fun d hd => h d (List.mem_cons_of_mem _ hd))

theorem touch_none (s : State) (w : Who) (va : Nat) (t : Trans) (b : Bool) (h : t.entry.isSome = false) :
    s.touch w va t b = s := by
  unfold State.touch
  cases he : t.entry with
  | none => rfl
  | some e => rw [he] at h; simp at h

/-- A quiet load reads its bytes and changes nothing. -/
theorem quiet_load (s : State) (n : Nat) (x : Loc) (bs : List Byte) (h : s.quietRead n x = some bs) :
    s.loadLoc n x = (ofBytes bs, s) := by
  unfold State.quietRead at h
  unfold State.loadLoc
  cases x with
  | scr b off => simp only [Option.some.injEq] at h; simp only [h]
  | ing off => simp only [Option.some.injEq] at h; simp only [h]
  | glob p t =>
    simp only at h ⊢
    by_cases he : t.entry.isSome = true
    · simp [he] at h
    · have he' : t.entry.isSome = false := by simpa using he
      rw [if_neg he] at h
      by_cases h2 : leafKind t.leaf = 2
      · rw [if_pos h2] at h ⊢
        rw [touch_none _ _ _ _ _ he']
        split at h
        · rename_i v hv
          simp only [Option.some.injEq] at h
          first | rw [← h, ofBytes_toBytes, hv] | rw [← h, ofBytes_toBytes]
        · simp at h
      · rw [if_neg h2] at h ⊢
        unfold State.loadBytes
        simp only [touch_none _ _ _ _ _ he']
        by_cases h3 : leafKind t.leaf = 3
        · rw [if_pos h3] at h ⊢
          simp only [Option.some.injEq] at h
          rw [h]
        · rw [if_neg h3] at h ⊢
          by_cases h4 : leafNc t.leaf = true
          · rw [if_pos h4] at h ⊢
            split at h
            · rename_i hp
              rw [pullLine_none _ _ _ hp]
              simp only [Option.some.injEq] at h
              rw [h]
            · simp at h
          · rw [if_neg h4] at h ⊢
            split at h
            · rename_i l hl
              split at h
              · rename_i hc
                simp only [Bool.and_eq_true, decide_eq_true_eq] at hc
                have : s.ensureLine s.who (field p 0 57) t false = s := by
                  unfold State.ensureLine
                  rw [hl]
                  simp only
                  rw [if_pos (by simp [hc.1.1, hc.1.2]), if_pos hc.2]
                rw [this, hl]
                simp only [Option.some.injEq] at h
                simp only [h]
              · simp at h
            · simp at h

/-! Scratch. -/

theorem block_scratchWrite (s : State) (b off : Nat) (bs : List Byte) (c : Nat) :
    (s.scratchWrite b off bs).block c = if c = b ∧ b < s.blocks.length
      then { s.block b with scratch := bytesSet 0 (s.block b).scratch off bs } else s.block c := by
  show nth (s.blocks.set b _) c _ = _
  rw [nth_set]; rfl

/-- A store to scratch: its bytes, and no other. -/
theorem scratchWrite_byte (s : State) (b off : Nat) (bs : List Byte) (hb : b < s.blocks.length) (c n : Nat) :
    (s.scratchWrite b off bs).scrByte c n =
      if c = b ∧ off ≤ n ∧ n < off + bs.length then bs[n - off]?.getD 0 else s.scrByte c n := by
  unfold State.scrByte
  rw [block_scratchWrite]
  by_cases e : c = b
  · subst e
    rw [if_pos ⟨rfl, hb⟩]
    show spGet 0 (bytesSet 0 (s.block c).scratch off bs) n = _
    rw [spGet_bytesSet]; simp
  · rw [if_neg (by tauto), if_neg (by tauto)]

end Sys2Proof.Machine
end

