-- ==== Sys2Proof/Laws/Reach.lean ====
section
/-! SUPPORT. What instructions that act on memory, queues and units leave of the registers: all that is apart from what they
touch, and a run of vector registers written one after the other. -/

namespace Sys2Proof.Machine

open Sys2Proof

/-- Registers, warps and accumulators stand apart from what happened. -/
structure Apart (s u : State) : Prop where
  reads : SameReads s u
  warps : u.warps = s.warps
  issue : u.issue = s.issue
  accs : ∀ b, (u.block b).acc = (s.block b).acc

theorem Apart.same (s : State) : Apart s s := ⟨SameReads.same s, rfl, rfl, fun _ => rfl⟩
theorem Apart.trans {s t u : State} (h : Apart s t) (k : Apart t u) : Apart s u :=
  ⟨h.reads.trans k.reads, k.warps.trans h.warps, k.issue.trans h.issue, fun b => (k.accs b).trans (h.accs b)⟩

theorem Apart.parts {s t : State} (h1 : t.warps = s.warps) (h2 : t.issue = s.issue) (h3 : t.quarters = s.quarters)
    (h4 : ∀ b, (t.block b).core = (s.block b).core ∧ (t.block b).acc = (s.block b).acc) : Apart s t := by
  have hcw : t.cw = s.cw := by unfold State.cw State.warp; rw [h1, h2]
  have hq : t.quarterOf t.issue.warp = s.quarterOf s.issue.warp := by
    unfold State.quarterOf State.coreOfWarp
    rw [show t.warp t.issue.warp = s.warp s.issue.warp from hcw, (h4 _).1]
  have hqq : t.quarter (t.quarterOf t.issue.warp) = s.quarter (s.quarterOf s.issue.warp) := by
    rw [hq]; unfold State.quarter; rw [h3]
  refine ⟨⟨by rw [h2]; simp, ?_, by rw [hcw, hqq]; simp, by rw [hcw, hqq]; simp, by rw [hcw], by rw [hcw]; simp, ?_⟩, h1, h2, fun b => (h4 b).2⟩
  · unfold State.inHandler; rw [hcw, h2]
  · unfold State.cs; rw [hcw, h2]

theorem Apart.aside {s t : State} (h : t.aside = s.aside) : Apart s t := by
  unfold State.aside at h
  simp only [Prod.mk.injEq] at h
  obtain ⟨h1, h2, -, h4, -, h6, -⟩ := h
  exact Apart.parts h1 h4 h6 (fun b => by unfold State.block; rw [h2]; exact ⟨rfl, rfl⟩)

/-- A block changed in parts that hold neither its core nor its accumulators. -/
theorem Apart.setBlock (s : State) (b : Nat) (x : Block) (h1 : x.core = (s.block b).core) (h2 : x.acc = (s.block b).acc) :
    Apart s (s.setBlock b x) := by
  refine Apart.parts rfl rfl rfl (fun c => ?_)
  have : (s.setBlock b x).block c = if c = b ∧ b < s.blocks.length then x else s.block c := by
    show nth (s.blocks.set b _) c _ = _
    rw [nth_set]; rfl
  rw [this]
  split
  · rename_i h; rw [h.1]; exact ⟨h1, h2⟩
  · exact ⟨rfl, rfl⟩

theorem Apart.scratch (s : State) (b off : Nat) (bs : List Byte) : Apart s (s.scratchWrite b off bs) :=
  Apart.setBlock s b _ rfl rfl

/-- An update of caches, dies, clusters or launches. -/
theorem Apart.units {s t : State} (h1 : t.warps = s.warps) (h2 : t.issue = s.issue) (h3 : t.quarters = s.quarters)
    (h4 : t.blocks = s.blocks) : Apart s t :=
  Apart.parts h1 h2 h3 (fun b => by unfold State.block; rw [h4]; exact ⟨rfl, rfl⟩)

theorem Apart.foldl {α : Type} (f : State → α → State) (l : List α) (s : State) (hf : ∀ s a, Apart s (f s a)) :
    Apart s (l.foldl f s) := by
  induction l generalizing s with
  | nil => exact Apart.same s
  | cons a r ih => exact (hf s a).trans (ih _)

theorem Apart.cw {s u : State} (h : Apart s u) : u.cw = s.cw := by unfold State.cw State.warp; rw [h.warps, h.issue]
theorem Apart.cs {s u : State} (h : Apart s u) : u.cs = s.cs := by unfold State.cs; rw [h.cw, h.issue]
theorem Apart.active {s u : State} (h : Apart s u) : u.active = s.active := by
  unfold State.active State.rdK State.k0 State.regK
  rw [h.cw, h.cs, h.issue]
theorem Apart.vname {s u : State} (h : Apart s u) (n : Nat) : u.vname n = s.vname n := by
  unfold State.vname
  rw [h.cw, h.reads.handler]

/-- What retires after writing registers in a state that stands apart. -/
theorem registerFrame_of {i : Instr} {s u t : State} (ds dv : Nat → Prop) (h : ready i s = true) (a : Apart (s.atInstr i) u)
    (w : Wrote u t) (hs : ∀ n, n < 64 → ¬ ds n → t.regS n = u.regS n)
    (hv : ∀ n, s.vname n = true → ¬ dv n → t.regV n = u.regV n)
    (hl : ∀ n l, s.vname n = true → l < 32 → s.active.getLsbD l = false → laneOf (t.regV n) l = laneOf (u.regV n) l)
    (hk : ∀ n, t.regK n = u.regK n) : Stays t (s.retired i t) ∧ RegisterFrame s (s.retired i t) ds dv := by
  have hu : u.issue.warp < u.warps.length := by rw [a.issue, a.warps]; exact ready_list h
  have k := fun c => (retire_stays (s.atInstr i) t c (by rw [w.issue, w.warps]; exact hu) (by rw [w.issue, a.issue]; rfl)
    (by rw [w.issue, a.issue])).1
  have k : Stays t (s.retired i t) := k _
  refine ⟨k, ?_⟩
  have hcw : u.cw = s.cw := a.cw
  have hst : ∀ e, u.cw.strand e = s.cw.strand e := fun e => by rw [hcw]
  refine ⟨?_, ⟨fun e => ?_, fun e he => ?_⟩, ?_, ?_, ?_, ?_, ?_, ?_, ?_⟩
  · have := w.control.trans k.control
    rw [hcw] at this; exact this
  · rw [k.strands.held e, w.strands.held e, hst]
  · rw [k.strands.still e (by rw [w.issue, a.issue]; exact he), w.strands.still e (by rw [a.issue]; exact he), hst]
  · rw [k.fst, w.fst, hcw]
  · intro n hn _ hd
    rw [k.reads.regS, hs n hn hd, a.reads.regS]; rfl
  · intro n hn hd
    rw [k.reads.regV, hv n hn hd, a.reads.regV]; rfl
  · intro n l hn hl' ha
    rw [k.reads.regV, hl n l hn hl' ha, a.reads.regV]; rfl
  · intro n
    rw [k.reads.regK, hk, a.reads.regK]; rfl
  · intro v hv'
    rw [k.elsewhere.warps v (by rw [w.issue, a.issue]; exact hv'), w.elsewhere.warps v (by rw [a.issue]; exact hv')]
    unfold State.warp; rw [a.warps]; rfl
  · intro b
    have e1 : (s.retired i t).block b = t.block b := by unfold State.block; rw [k.elsewhere.blocks]
    have e2 : t.block b = u.block b := by unfold State.block; rw [w.elsewhere.blocks]
    rw [e1, e2, a.accs]; rfl

theorem Wrote.same (s : State) : Wrote s s where
  elsewhere := ⟨rfl, rfl, rfl, rfl, rfl, rfl, rfl, rfl, rfl, rfl, rfl, rfl, rfl, rfl, fun _ _ => rfl, fun _ _ => rfl⟩
  control := SameControl.same _
  strands := ⟨fun _ => rfl, fun _ _ => rfl⟩
  issue := rfl
  handlers := rfl
  strandsEq := rfl
  fst := rfl
  clock := rfl
  warps := rfl

/-- What retires in a state that stands apart, with no register written. -/
theorem registersKept_of {i : Instr} {s u : State} (h : ready i s = true) (a : Apart (s.atInstr i) u) :
    Stays u (s.retired i u) ∧ RegistersKept s (s.retired i u) :=
  registerFrame_of _ _ h a (Wrote.same u) (fun _ _ _ => rfl) (fun _ _ _ => rfl) (fun _ _ _ _ _ => rfl) (fun _ => rfl)

/-- With one scalar register written. -/
theorem registerFrame_wrS {i : Instr} {s u : State} (d : Nat) (v : DWord) (h : ready i s = true) (a : Apart (s.atInstr i) u)
    (hd : d < 64) : Stays (u.wrS d v) (s.retired i (u.wrS d v)) ∧
      RegisterFrame s (s.retired i (u.wrS d v)) (fun n => n = d) (fun _ => False) ∧
      (s.retired i (u.wrS d v)).regS d = v := by
  have hu : u.issue.warp < u.warps.length := by rw [a.issue, a.warps]; exact ready_list h
  obtain ⟨h1, h2, h3, h4⟩ := wrS_spec u d v hu hd
  have k := registerFrame_of (fun n => n = d) (fun _ => False) h a h1 (fun n hn hd' => by rw [h2 n hn, if_neg hd'])
    (fun n _ _ => h3 n) (fun n l _ _ _ => by rw [h3]) h4
  refine ⟨k.1, k.2, ?_⟩
  rw [k.1.reads.regS, h2 d hd, if_pos rfl]

/-! A run of vector registers. -/

def State.wrRun (s : State) (d : Nat) (m : Mask) (n : Nat) (f : Nat → Nat → Word) : State :=
  (List.range n).foldl (fun u k => u.wrLanes (d + k) m (f k)) s

theorem wrRun_spec (s : State) (d : Nat) (m : Mask) (n : Nat) (f : Nat → Nat → Word) (hw : s.issue.warp < s.warps.length)
    (hd : ∀ k, k < n → s.vname (d + k) = true) : Wrote s (s.wrRun d m n f) ∧
      (∀ j, s.vname j = true → (∀ k, k < n → j ≠ d + k) → (s.wrRun d m n f).regV j = s.regV j) ∧
      (∀ j, (s.wrRun d m n f).regS j = s.regS j) ∧ (∀ j, (s.wrRun d m n f).regK j = s.regK j) ∧
      (∀ k l, k < n → l < 32 → laneOf ((s.wrRun d m n f).regV (d + k)) l =
        if m.getLsbD l then f k l else laneOf (s.regV (d + k)) l) := by
  induction n with
  | zero => exact ⟨Wrote.same s, fun _ _ _ => rfl, fun _ => rfl, fun _ => rfl, fun k _ h => absurd h (by omega)⟩
  | succ n ih =>
    obtain ⟨h1, h2, h3, h4, h5⟩ := ih (fun k hk => hd k (by omega))
    have e : s.wrRun d m (n + 1) f = (s.wrRun d m n f).wrLanes (d + n) m (f n) := by
      unfold State.wrRun
      rw [List.range_succ, List.foldl_append]; rfl
    rw [e]
    have hvn := h1.vname
    generalize s.wrRun d m n f = u at *
    obtain ⟨k1, k2, k3, k4, k5⟩ := wrLanes_spec u (d + n) m (f n) (by rw [h1.issue, h1.warps]; exact hw)
      (by rw [hvn]; exact hd n (by omega))
    refine ⟨h1.trans k1, ?_, fun j => (k3 j).trans (h3 j), fun j => (k4 j).trans (h4 j), ?_⟩
    · intro j hj hn
      rw [k2 j (by rw [hvn]; exact hj) (hn n (by omega)), h2 j hj (fun k hk => hn k (by omega))]
    · intro k l hk hl
      by_cases ek : k = n
      · subst ek
        rw [k5 l hl, h2 (d + k) (hd k hk) (fun j hj => by omega)]
      · rw [k2 (d + k) (by rw [hvn]; exact hd k hk) (by omega), h5 k l (by omega) hl]

/-- With a run of vector registers written for the active lanes. -/
theorem registerFrame_wrRun {i : Instr} {s u : State} (d n : Nat) (f : Nat → Nat → Word) (h : ready i s = true)
    (a : Apart (s.atInstr i) u) (hd : ∀ k, k < n → s.vname (d + k) = true) :
    Stays (u.wrRun d s.active n f) (s.retired i (u.wrRun d s.active n f)) ∧
      RegisterFrame s (s.retired i (u.wrRun d s.active n f)) (fun _ => False) (fun j => ∃ k, k < n ∧ j = d + k) ∧
      (∀ k l, k < n → l < 32 → s.active.getLsbD l = true →
        laneOf ((s.retired i (u.wrRun d s.active n f)).regV (d + k)) l = f k l) := by
  have hu : u.issue.warp < u.warps.length := by rw [a.issue, a.warps]; exact ready_list h
  have hvn : ∀ j, u.vname j = s.vname j := fun j => a.vname j
  obtain ⟨h1, h2, h3, h4, h5⟩ := wrRun_spec u d s.active n f hu (fun k hk => by rw [hvn]; exact hd k hk)
  have k := registerFrame_of (fun _ => False) (fun j => ∃ k, k < n ∧ j = d + k) h a h1 (fun j _ _ => h3 j)
    (fun j hj hn => h2 j (by rw [hvn]; exact hj) (fun k hk e => hn ⟨k, hk, e⟩))
    (fun j l hj hl ha => by
      by_cases e : ∃ k, k < n ∧ j = d + k
      · obtain ⟨k, hk, rfl⟩ := e
        rw [h5 k l hk hl, if_neg (by rw [ha]; simp)]
      · rw [h2 j (by rw [hvn]; exact hj) (fun k hk ek => e ⟨k, hk, ek⟩)]) h4
  refine ⟨k.1, k.2, ?_⟩
  intro k' l hk hl ha
  rw [k.1.reads.regV, h5 k' l hk hl, if_pos ha]

/-! What atomics and fences leave. -/

theorem updateLoc_aside (s : State) (n : Nat) (f : Nat → Nat × Nat) (p : Nat) (t : Trans) :
    (s.updateLoc n f (.glob p t)).2.aside = s.aside := by
  unfold State.updateLoc
  simp only
  have k := homeRead_aside s s.who (field p 0 57) n t true rfl
  have hw := who_aside k
  generalize s.homeRead s.who (field p 0 57) n t true = r at *
  obtain ⟨bs, u⟩ := r
  dsimp only at *
  generalize f (ofBytes bs) = z
  obtain ⟨new, ans⟩ := z
  dsimp only
  rw [homeWrite_aside u u.who _ _ t rfl, k]

theorem Apart.updateLoc (s : State) (n : Nat) (f : Nat → Nat × Nat) (x : Loc) : Apart s (s.updateLoc n f x).2 := by
  cases x with
  | glob p t => exact Apart.aside (updateLoc_aside s n f p t)
  | scr b off => exact Apart.scratch s b off _
  | ing off => exact Apart.same s

theorem Apart.touch (s : State) (w : Who) (va : Nat) (t : Trans) (b : Bool) (hf : w.fab = false) : Apart s (s.touch w va t b) :=
  Apart.aside (touch_aside s w va t b hf)

theorem Apart.updateLanes (n : Nat) (f : Nat → Nat → Nat × Nat) (ls : List (Nat × Loc)) (s : State) :
    Apart s (s.updateLanes n f ls).2 := by
  induction ls generalizing s with
  | nil => exact Apart.same s
  | cons x r ih =>
    obtain ⟨l, x⟩ := x
    unfold State.updateLanes
    simp only
    refine Apart.trans ?_ (ih _)
    cases x with
    | glob p t =>
      simp only
      split
      · exact Apart.touch s s.who _ t true rfl
      · exact Apart.updateLoc s n (f l) _
    | scr b off => exact Apart.updateLoc s n (f l) _
    | ing off => exact Apart.updateLoc s n (f l) _

theorem Apart.releaseL1 (s : State) (c : Nat) : Apart s (s.releaseL1 c) :=
  Apart.foldl _ _ _ (fun s k => Apart.aside (cleanLines_aside s k _))
theorem Apart.acquireL1 (s : State) (c : Nat) : Apart s (s.acquireL1 c) :=
  Apart.foldl _ _ _ (fun s k => Apart.aside (removeLines_aside s k _))

theorem Apart.dropTranslations (s : State) (asid : BitVec 16) (lo hi : Nat) (here : Nat → Bool) (sys : Bool) :
    Apart s (s.dropTranslations asid lo hi here sys) := by
  unfold State.dropTranslations
  simp only
  have k : Apart s (s.cores.foldl (fun s c =>
    if here (clusterOf c.1) then
      s.removeLines c.1 (fun l => l.asid = asid && decide (lo ≤ l.vline * 128) && decide (l.vline * 128 < hi))
    else s) s) := Apart.foldl _ _ _ (fun s c => by
      split
      · exact Apart.aside (removeLines_aside s c.1 _)
      · exact Apart.same s)
  exact k.trans (Apart.units rfl rfl rfl rfl)

theorem Apart.prefetch (s : State) (p : Nat) : Apart s (s.prefetch p) := by
  unfold State.prefetch
  split
  · exact Apart.same s
  · split
    · exact Apart.same s
    · split
      · exact Apart.same s
      · exact Apart.aside (fill_aside s _ _ _)

end Sys2Proof.Machine
end

