-- ==== Sys2Proof/Laws/Tree.lean ====
section
/-! SUPPORT. What the units that read trees, textures, draws and records leave of the registers. -/

namespace Sys2Proof.Machine

open Sys2Proof

theorem Apart.homeRead (s : State) (w : Who) (va n : Nat) (t : Trans) (b : Bool) (hf : w.fab = false) :
    Apart s (s.homeRead w va n t b).2 := Apart.aside (homeRead_aside s w va n t b hf)
theorem Apart.homeWrite (s : State) (w : Who) (va : Nat) (bs : List Byte) (t : Trans) (hf : w.fab = false) :
    Apart s (s.homeWrite w va bs t) := Apart.aside (homeWrite_aside s w va bs t hf)
theorem Apart.setDie (s : State) (d : Nat) (x : Die) : Apart s (s.setDie d x) := Apart.units rfl rfl rfl rfl

theorem Apart.route (s : State) (p : BitVec 128) (m : Msg) : Apart s (s.route p m) := by
  unfold State.route
  split
  · exact Apart.units rfl rfl rfl rfl
  · exact Apart.units rfl rfl rfl rfl

theorem Apart.send (s : State) (d : Nat) (p : BitVec 128) (m : Msg) : Apart s (s.send d p m).2 := by
  unfold State.send
  simp only
  exact (Apart.setDie s d _).trans (Apart.route _ _ _)

/-- The requester for a strand is no fabric endpoint. -/
theorem fab_who (s : State) : s.who.fab = false := rfl

theorem touchLocs_apart (b : Bool) (xs : List Loc) (s : State) : Apart s (s.touchLocs b xs) :=
  Apart.foldl _ _ _ (fun s x => by
    cases x with
    | glob p t => exact Apart.touch s s.who _ t b rfl
    | scr a o => exact Apart.same s
    | ing a => exact Apart.same s)

/-! Runs of bytes at home. -/

theorem takeRun_apart (w : Who) (hf : w.fab = false) (xs : List (Nat × Nat × (List Byte ⊕ Trans))) :
    ∀ s : State, Apart s (s.takeRun w xs).2 := by
  induction xs with
  | nil => intro s; exact Apart.same s
  | cons x r ih =>
    intro s
    obtain ⟨p, n, z⟩ := x
    cases z with
    | inl bs => exact ih s
    | inr t => exact (Apart.homeRead s w (field p 0 57) n t false hf).trans (ih _)

theorem readRun_apart (w : Who) (hf : w.fab = false) (rs : List HostResp) (ps : List (Nat × Nat)) (s : State) :
    Apart s (s.readRun w rs ps).2 := by
  unfold State.readRun
  split
  · exact Apart.same s
  · split
    · exact takeRun_apart w hf _ s
    · exact Apart.same s

theorem treeBytes_apart {s s' : State} {w : Who} {item p n : Nat} {x : List Byte} (hf : w.fab = false)
    (h : s.treeBytes w item p n = .ok (x, s')) : Apart s s' := by
  unfold State.treeBytes State.readMem at h
  have k := readRun_apart w hf s.issue.resp (piecesOf p n) s
  generalize s.readRun w s.issue.resp (piecesOf p n) = z at *
  obtain ⟨g, u⟩ := z
  cases g with
  | bytes bs => simp only [Except.ok.injEq, Prod.mk.injEq] at h; rw [← h.2]; exact k
  | bad e a => simp at h
  | host a => simp at h

theorem treeRead_apart {s s' : State} {w : Who} {p n : Nat} {x : Nat} (hf : w.fab = false)
    (h : s.treeRead w p n = .ok (x, s')) : Apart s s' := by
  unfold State.treeRead at h
  split at h
  · rename_i bs u hb
    simp only [Except.ok.injEq, Prod.mk.injEq] at h
    rw [← h.2]; exact treeBytes_apart hf hb
  · simp at h

theorem treeBit_apart {s s' : State} {w : Who} {p i : Nat} {x : Bool} (hf : w.fab = false)
    (h : s.treeBit w p i = .ok (x, s')) : Apart s s' := by
  unfold State.treeBit at h
  split at h
  · rename_i y u hb
    simp only [Except.ok.injEq, Prod.mk.injEq] at h
    rw [← h.2]; exact treeRead_apart hf hb
  · simp at h

theorem checkLeafNode_apart {s s' : State} {w : Who} {u : Nat × Nat × Nat} {p : Nat} {v : Vox} (hf : w.fab = false)
    (h : s.checkLeafNode w u p = .ok (v, s')) : Apart s s' := by
  unfold State.checkLeafNode at h
  split at h
  · rename_i x a y b z c h1 _ _
    split at h
    · simp only [Except.ok.injEq, Prod.mk.injEq] at h
      rw [← h.2]; exact treeRead_apart hf h1
    · simp at h
  · simp at h
  · simp at h
  · simp at h

theorem descend_apart (w : Who) (hf : w.fab = false) (hd : TreeHead) (u : Nat × Nat × Nat) (lv : Nat) :
    ∀ (s s' : State) (n : Nat) (v : Vox), s.descend w hd u lv n = .ok (v, s') → Apart s s' := by
  induction lv with
  | zero => intro s s' n v h; exact checkLeafNode_apart hf h
  | succ lv ih =>
    intro s s' n v h
    unfold State.descend at h
    simp only at h
    split at h
    · simp at h
    · rename_i s1 h1
      have a1 := treeBit_apart hf h1
      split at h
      · simp at h
      · rename_i p s2 h2
        have a2 := treeRead_apart hf h2
        split at h
        · simp at h
        · exact (a1.trans a2).trans (ih _ _ _ _ h)
    · rename_i s1 h1
      have a1 := treeBit_apart hf h1
      split at h
      · simp at h
      · rename_i s2 h2
        have a2 := treeBit_apart hf h2
        simp only [Except.ok.injEq, Prod.mk.injEq] at h
        rw [← h.2]; exact a1.trans a2
      · rename_i s2 h2
        have a2 := treeBit_apart hf h2
        split at h
        · simp at h
        · rename_i v' s3 h3
          have a3 := treeRead_apart hf h3
          simp only [Except.ok.injEq, Prod.mk.injEq] at h
          rw [← h.2]; exact (a1.trans a2).trans a3

theorem leafKeep_apart (s : State) (w : Who) (desc : Nat) (o : Nat × Nat × Nat) (a b : Nat) : Apart s (s.leafKeep w desc o a b) := by
  unfold State.leafKeep
  split
  · exact Apart.same s
  · exact Apart.units rfl rfl rfl rfl

theorem resolveVox_apart {s s' : State} {w : Who} {desc head : Nat} {u : Option (Nat × Nat × Nat)} {v : Vox} (hf : w.fab = false)
    (h : s.resolveVox w desc head u = .ok (v, s')) : Apart s s' := by
  unfold State.resolveVox at h
  simp only at h
  split at h
  · simp only [Except.ok.injEq, Prod.mk.injEq] at h
    rw [← h.2]; exact Apart.same s
  · split at h
    · exact checkLeafNode_apart hf h
    · split at h
      · simp at h
      · rename_i v' s1 h1
        have a1 := descend_apart w hf _ _ _ _ _ _ _ h1
        simp only [Except.ok.injEq, Prod.mk.injEq] at h
        rw [← h.2]
        split
        · exact a1.trans (leafKeep_apart _ _ _ _ _ _)
        · exact a1

theorem voxValue_apart {s s' : State} {w : Who} {hd : TreeHead} {v : Vox} {x : Nat} (hf : w.fab = false)
    (h : s.voxValue w hd v = .ok (x, s')) : Apart s s' := by
  unfold State.voxValue at h
  split at h
  · simp only [Except.ok.injEq, Prod.mk.injEq] at h
    rw [← h.2]; exact Apart.same s
  · split at h
    · simp at h
    · rename_i s1 h1
      simp only [Except.ok.injEq, Prod.mk.injEq] at h
      rw [← h.2]; exact treeBit_apart hf h1
    · rename_i s1 h1
      exact (treeBit_apart hf h1).trans (treeRead_apart hf h)

/-! Lanes and points. -/

/-- Lanes that all go on. -/
theorem runLanes_ok {α : Type} {f : Nat → State → Tree α} (hf : ∀ l s x s', f l s = .ok (x, s') → Apart s s') {ls : List Nat} :
    ∀ {s s' : State} {xs : List (Nat × α)}, runLanes f ls s = ([], xs, s') → Apart s s' := by
  induction ls with
  | nil =>
    intro s s' xs h
    simp only [runLanes, Prod.mk.injEq] at h
    rw [← h.2.2]; exact Apart.same s
  | cons l r ih =>
    intro s s' xs h
    unfold runLanes at h
    split at h
    · rename_i x u hx
      have k := @ih u
      generalize runLanes f r u = z at *
      obtain ⟨es, ys, v⟩ := z
      simp only [Prod.mk.injEq] at h
      exact (hf l s x u hx).trans (k (by rw [h.1, h.2.2]))
    · simp at h

/-- Helper lanes, of which a stop leaves nothing. -/
theorem runLanes_quiet {α : Type} {f : Nat → State → Tree α} (hf : ∀ l s x s', f l s = .ok (x, s') → Apart s s')
    (ls : List Nat) : ∀ s : State, Apart s (runLanes (quietLane f) ls s).2.2 := by
  induction ls with
  | nil => intro s; exact Apart.same s
  | cons l r ih =>
    intro s
    unfold runLanes
    split
    · rename_i x u hx
      refine Apart.trans (hf l s x u ?_) (ih u)
      unfold quietLane at hx
      split at hx
      · simp at hx
      · exact hx
    · rename_i e he
      have : e.left s = s := by
        unfold quietLane at he
        split at he
        · simp only [Except.error.injEq] at he
          rw [← he]; rfl
        · rename_i hb
          cases e with
          | bad o c a u => exact absurd he (hb o c a u)
          | wait => rfl
          | ask q => rfl
      exact (congrArg (Apart s) (congrArg (fun u => (runLanes (quietLane f) r u).2.2) this)).mpr (ih s)

theorem quietLane_ok {α : Type} {f : Nat → State → Tree α} {l : Nat} {s s' : State} {x : α}
    (h : quietLane f l s = .ok (x, s')) : f l s = .ok (x, s') := by
  unfold quietLane at h
  split at h
  · simp at h
  · exact h

theorem of_unless {ε α : Type} {c : Prop} [Decidable c] {e : ε} {x y : α} (h : (if c then Except.error e else .ok x) = .ok y) :
    x = y := by
  split at h
  · simp at h
  · exact Except.ok.inj h

theorem of_ite {α : Type} {c : Prop} [Decidable c] {x y z : α} (h : (if c then x else y) = z) : x = z ∨ y = z := by
  split at h
  · exact .inl h
  · exact .inr h

theorem treeLanes_apart {α : Type} {s s' : State} {run : Nat} {k : WaitKind} {f : Nat → State → Tree α} {xs : List (Nat × α)}
    (hf : ∀ l s x s', f l s = .ok (x, s') → Apart s s') (h : s.treeLanes run k f = .ok (xs, s')) : Apart s s' := by
  unfold State.treeLanes at h
  split at h
  · rename_i ys s1 h1
    have k1 := runLanes_ok hf h1
    have k2 := runLanes_quiet hf (lanesOf (s.active &&& s.cw.helpers)) s1
    generalize runLanes (quietLane f) (lanesOf (s.active &&& s.cw.helpers)) s1 = z at *
    obtain ⟨es, hs, s2⟩ := z
    simp only at h k2
    split at h
    · simp only [Except.ok.injEq, Prod.mk.injEq] at h
      rw [← h.2]; exact Apart.trans k1 k2
    · simp at h
  · simp at h

theorem voxLanes_apart {α : Type} {s s' : State} {run : Nat} {f : Nat → State → Tree α} {g : Nat → α} {xs : List (Nat × α)}
    (hf : ∀ l s x s', f l s = .ok (x, s') → Apart s s') (h : s.voxLanes run f g = .ok (xs, s')) : Apart s s' := by
  unfold State.voxLanes at h
  split at h
  · rename_i ys s1 h1
    simp only [Except.ok.injEq, Prod.mk.injEq] at h
    rw [← h.2]; exact runLanes_ok hf h1
  · simp at h

theorem badDesc_ok {α : Type} {s : State} {p : Nat} {x : α} (h : badDesc s p = .ok x) : False := by
  simp [badDesc] at h

theorem treePoints_apart {α : Type} (f : Int × Int × Int → State → Tree α) (hf : ∀ p s x s', f p s = .ok (x, s') → Apart s s')
    (ps : List (Int × Int × Int)) : ∀ (s s' : State) (xs : List α), treePoints f ps s = .ok (xs, s') → Apart s s' := by
  induction ps with
  | nil =>
    intro s s' xs h
    simp only [treePoints, Except.ok.injEq, Prod.mk.injEq] at h
    rw [← h.2]; exact Apart.same s
  | cons p r ih =>
    intro s s' xs h
    unfold treePoints at h
    split at h
    · split at h <;> simp at h
    · rename_i x u h1
      split at h
      · simp at h
      · rename_i ys v h2
        simp only [Except.ok.injEq, Prod.mk.injEq] at h
        rw [← h.2]; exact (hf p s x u h1).trans (ih _ _ _ h2)

theorem treeOpen_apart {s s' : State} {w : Who} {desc run : Nat} {pts : TreeHead → List (Option (Nat × Nat × Nat))} {hd : Nat}
    (hf : w.fab = false) (h : s.treeOpen w desc run pts = .ok (hd, s')) : Apart s s' := by
  unfold State.treeOpen at h
  simp only at h
  split at h
  · simp only [Except.ok.injEq, Prod.mk.injEq] at h
    rw [← h.2]; exact Apart.same s
  · split at h
    · simp at h
    · simp at h
    · simp at h
    · rename_i bs u h1
      have a1 := treeBytes_apart hf h1
      split at h
      · exact (badDesc_ok h).elim
      · simp only [Except.ok.injEq, Prod.mk.injEq] at h
        rw [← h.2]; exact a1.trans (Apart.acquireL1 u w.core)

/-! The voxel instructions. -/

theorem tlookFind_apart {a b : BitVec 7} {s s' : State} {xs : List (Nat × Nat × Nat)} (h : tlookFind a b s = .ok (xs, s')) :
    Apart s s' := by
  unfold tlookFind at h
  simp only at h
  split at h
  · simp [trapE] at h
  · split at h
    · simp at h
    · rename_i hd s1 h1
      refine (treeOpen_apart (fab_who s) h1).trans (voxLanes_apart ?_ h)
      intro l u x u' hu
      split at hu
      · simp at hu
      · rename_i v u1 h2
        have a2 := resolveVox_apart (fab_who s) h2
        split at hu
        · simp only [Except.ok.injEq, Prod.mk.injEq] at hu
          rw [← hu.2]; exact a2
        · split at hu
          · simp at hu
          · rename_i vb u2 h3
            have a3 := treeBit_apart (fab_who s) h3
            split at hu
            · simp at hu
            · rename_i ab u3 h4
              have a4 := treeBit_apart (fab_who s) h4
              simp only [Except.ok.injEq, Prod.mk.injEq] at hu
              rw [← hu.2]; exact (a2.trans a3).trans a4

/-- What VLDN finds, its split aside. -/
theorem vldnFind_apart {pts : DWord → List (Int × Int × Int)} {line big : Bool} {d a b : BitVec 7} {s s' : State}
    {x : Nat × Nat × List (Nat × List (Nat × Vox))} (hs : s.splitEntry = none)
    (h : vldnFind pts line big d a b s = .ok (x, s')) : Apart s s' := by
  unfold vldnFind at h
  simp only at h
  split at h
  · simp [trapE] at h
  · split at h
    · simp [waitE] at h
    · split at h
      · simp at h
      · rename_i hd s1 h1
        have a1 := treeOpen_apart (fab_who s) h1
        split at h
        · simp [trapE] at h
        · split at h
          · simp [trapE] at h
          · split at h
            · simp at h
            · rename_i xs s2 h2
              have a2 := voxLanes_apart (fun l u x u' hu => by
                refine treePoints_apart _ ?_ _ _ _ _ hu
                intro o v y v' hv
                split at hv
                · simp at hv
                · rename_i vx v1 h3
                  have a3 := resolveVox_apart (fab_who s) h3
                  split at hv
                  · simp at hv
                  · rename_i z v2 h4
                    have a4 := voxValue_apart (fab_who s) h4
                    simp only [Except.ok.injEq, Prod.mk.injEq] at hv
                    rw [← hv.2]; exact a3.trans a4) h2
              simp only [Except.ok.injEq, Prod.mk.injEq] at h
              have ms : ∀ l, s.maySplit l = s := by
                intro l
                unfold State.maySplit
                rw [hs]
              have e := h.2
              rw [ms] at e
              have k := a1.trans a2
              rw [← e]
              have : ({ s2 with warps := s.warps } : State) = s2 := by rw [← k.warps]
              rw [this]; exact k

theorem vstvFind_apart {d a b : BitVec 7} {s s' : State} {xs : List (Nat × List Byte × Loc × Loc × Nat)}
    (h : vstvFind d a b s = .ok (xs, s')) : Apart s s' := by
  unfold vstvFind at h
  simp only at h
  split at h
  · simp [trapE] at h
  · split at h
    · simp at h
    · rename_i hd s1 h1
      have a1 := treeOpen_apart (fab_who s) h1
      split at h
      · simp [trapE] at h
      · split at h
        · simp [trapE] at h
        · split at h
          · rename_i ys s2 h2
            have a2 : Apart s1 s2 := by
              refine runLanes_ok ?_ h2
              · intro l u x u' hu
                split at hu
                · simp at hu
                · split at hu
                  · simp at hu
                  · rename_i v u1 h3
                    have a3 := resolveVox_apart (fab_who s) h3
                    split at hu
                    · simp at hu
                    · split at hu
                      · split at hu <;> simp at hu
                      · split at hu
                        · simp at hu
                        · simp only [Except.ok.injEq, Prod.mk.injEq] at hu
                          rw [← hu.2]; exact a3.trans (touchLocs_apart true _ _)
            have e := (Prod.mk.inj (of_unless h)).2
            rw [← e]; exact a1.trans a2
          · simp at h

theorem tactFind_apart {set : Bool} {a b : BitVec 7} {s s' : State} {xs : List (Nat × Nat × Nat × Option Loc)}
    (h : tactFind set a b s = .ok (xs, s')) : Apart s s' := by
  unfold tactFind at h
  simp only at h
  split at h
  · simp [trapE] at h
  · split at h
    · simp [trapE] at h
    · split at h
      · simp at h
      · rename_i hd s1 h1
        have a1 := treeOpen_apart (fab_who s) h1
        split at h
        · rename_i ys s2 h2
          have a2 : Apart s1 s2 := by
            refine runLanes_ok ?_ h2
            · intro l u x u' hu
              split at hu
              · simp at hu
              · rename_i v u1 h3
                have a3 := resolveVox_apart (fab_who s) h3
                split at hu
                · simp only [Except.ok.injEq, Prod.mk.injEq] at hu
                  rw [← hu.2]; exact a3
                · split at hu
                  · simp only [Except.ok.injEq, Prod.mk.injEq] at hu
                    rw [← hu.2]; exact a3
                  · split at hu
                    · simp only [Except.ok.injEq, Prod.mk.injEq] at hu
                      rw [← hu.2]; exact a3.trans (touchLocs_apart true _ _)
                    · simp at hu
          have e := (Prod.mk.inj (of_unless h)).2
          rw [← e]; exact a1.trans a2
        · simp at h

theorem putRun_apart (w : Who) (hf : w.fab = false) (ts : List (Nat × List Byte × Trans)) :
    ∀ s : State, Apart s (s.putRun w ts) := by
  induction ts with
  | nil => intro s; exact Apart.same s
  | cons x r ih =>
    intro s
    obtain ⟨p, bs, t⟩ := x
    exact (Apart.homeWrite s w _ bs t hf).trans (ih _)

theorem ioWrite_apart {s s' : State} {w : Who} {rs : List HostResp} {p : Nat} {bs : List Byte} (hf : w.fab = false)
    (h : s.ioWrite w rs p bs = .ok s') : Apart s s' := by
  unfold State.ioWrite at h
  simp only at h
  split at h
  · simp at h
  · split at h
    · simp at h
    · split at h
      · simp only [Except.ok.injEq] at h
        rw [← h]; exact putRun_apart w hf _ _
      · simp at h

theorem treeWrite_apart {s s' : State} {w : Who} {p : Nat} {bs : List Byte} {x : Unit} (hf : w.fab = false)
    (h : s.treeWrite w p bs = .ok (x, s')) : Apart s s' := by
  unfold State.treeWrite at h
  split at h
  · rename_i u h1
    simp only [Except.ok.injEq, Prod.mk.injEq] at h
    rw [← h.2]; exact ioWrite_apart hf h1
  · simp at h

theorem treeAtomic_apart {s s' : State} {w : Who} {p op arg : Nat} {f : Nat → Nat} {x : Nat} (hf : w.fab = false)
    (h : s.treeAtomic w p op arg f = .ok (x, s')) : Apart s s' := by
  unfold State.treeAtomic at h
  split at h
  · simp at h
  · rename_i t _
    split at h
    · simp at h
    · have k1 := Apart.homeRead s w (field p 0 57) 8 t true hf
      generalize s.homeRead w (field p 0 57) 8 t true = z at *
      obtain ⟨bs, u⟩ := z
      simp only [Except.ok.injEq, Prod.mk.injEq] at h
      rw [← h.2]; exact k1.trans (Apart.homeWrite u w _ _ t hf)

theorem insertFrom_apart (w : Who) (hf : w.fab = false) (desc : Nat) (hd : TreeHead) (pbase pend : Nat) (u : Nat × Nat × Nat) (lv : Nat) :
    ∀ (s s' : State) (n cnt : Nat) (x : Nat × Nat × Nat), s.insertFrom w desc hd pbase pend u lv n cnt = .ok (x, s') → Apart s s' := by
  induction lv with
  | zero =>
    intro s s' n cnt x h
    unfold State.insertFrom at h
    split at h
    · rename_i v u' h1
      simp only [Except.ok.injEq, Prod.mk.injEq] at h
      rw [← h.2]; exact checkLeafNode_apart hf h1
    · simp at h
  | succ lv ih =>
    intro s s' n cnt x h
    unfold State.insertFrom at h
    simp only at h
    split at h
    · simp at h
    · rename_i s1 h1
      have a1 := treeBit_apart hf h1
      split at h
      · simp at h
      · rename_i p s2 h2
        have a2 := treeRead_apart hf h2
        split at h
        · simp at h
        · exact (a1.trans a2).trans (ih _ _ _ _ _ h)
    · rename_i s1 h1
      have a1 := treeBit_apart hf h1
      split at h
      · simp at h
      · rename_i old s2 h2
        have a2 := treeAtomic_apart hf h2
        split at h
        · simp at h
        · split at h
          · simp at h
          · rename_i q s3 h3
            have a3 := treeAtomic_apart hf h3
            have b3 := (a1.trans a2).trans a3
            split at h
            · split at h
              · rename_i o s4 h4
                have a4 := treeAtomic_apart hf h4
                simp only [Except.ok.injEq, Prod.mk.injEq] at h
                rw [← h.2]; exact b3.trans a4
              · simp at h
            · split at h
              · rename_i tl s4 t s5 h4 h5
                have a5 := treeRead_apart hf h5
                split at h
                · simp at h
                · rename_i y s6 h6
                  have a6 := treeWrite_apart hf h6
                  split at h
                  · simp at h
                  · rename_i y2 s7 h7
                    have a7 := treeWrite_apart hf h7
                    split at h
                    · simp at h
                    · rename_i o s8 h8
                      have a8 : Apart s7 s8 := by
                        refine Apart.trans ?_ (treeAtomic_apart hf h8)
                        split
                        · exact Apart.same s7
                        · exact Apart.releaseL1 s7 w.core
                      split at h
                      · simp at h
                      · rename_i o2 s9 h9
                        have a9 := treeAtomic_apart hf h9
                        exact (((((b3.trans a5).trans a6).trans a7).trans a8).trans a9).trans (ih _ _ _ _ _ h)
              · simp at h
              · simp at h

theorem tinsOpen_apart {b : BitVec 7} {s s' : State} {x : Nat} (h : tinsOpen b s = .ok (x, s')) : Apart s s' := by
  unfold tinsOpen at h
  simp only at h
  split at h
  · simp [trapE] at h
  · split at h
    · simp [trapE] at h
    · split at h
      · simp at h
      · simp at h
      · simp [waitE] at h
      · rename_i bs s1 h1
        split at h
        · exact (badDesc_ok h).elim
        · simp only [Except.ok.injEq, Prod.mk.injEq] at h
          rw [← h.2]; exact (treeBytes_apart (fab_who s) h1).trans (Apart.acquireL1 s1 _)

theorem tinsFind_apart {a b : BitVec 7} {s s' : State} {xs : List (Nat × Nat × Nat × Nat)} (h : tinsFind a b s = .ok (xs, s')) :
    Apart s s' := by
  unfold tinsFind at h
  simp only at h
  split at h
  · simp at h
  · rename_i dd s1 h1
    split at h
    · rename_i ys s2 h2
      simp only [Except.ok.injEq, Prod.mk.injEq] at h
      rw [← h.2]
      refine (tinsOpen_apart h1).trans (runLanes_ok ?_ h2)
      intro l u x u' hu
      replace hu := quietLane_ok hu
      split at hu
      · simp only [Except.ok.injEq, Prod.mk.injEq] at hu
        rw [← hu.2]; exact Apart.same u
      · exact insertFrom_apart _ (fab_who _) _ _ _ _ _ _ _ _ _ _ _ hu
    · simp at h

theorem foldl_ok {α β : Type} (f : Tree α → β → Tree α) (h0 : ∀ e b, f (.error e) b = .error e)
    (hf : ∀ x s b y s', f (.ok (x, s)) b = .ok (y, s') → Apart s s') (l : List β) :
    ∀ (x : α) (s : State) (y : α) (s' : State), l.foldl f (.ok (x, s)) = .ok (y, s') → Apart s s' := by
  induction l with
  | nil =>
    intro x s y s' h
    simp only [List.foldl_nil, Except.ok.injEq, Prod.mk.injEq] at h
    rw [← h.2]; exact Apart.same s
  | cons b r ih =>
    intro x s y s' h
    rw [List.foldl_cons] at h
    cases hz : f (.ok (x, s)) b with
    | ok p =>
      obtain ⟨x1, s1⟩ := p
      rw [hz] at h
      exact (hf x s b x1 s1 hz).trans (ih _ _ _ _ h)
    | error e =>
      rw [hz] at h
      have : ∀ l : List β, l.foldl f (.error e) = .error e := by
        intro l
        induction l with
        | nil => rfl
        | cons c t iht => rw [List.foldl_cons, h0, iht]
      rw [this] at h; simp at h

theorem walkNode_apart (w : Who) (hf : w.fab = false) (r : Ray) (hd : TreeHead) (lv : Nat) :
    ∀ (s s' : State) (n : Nat) (o : List Nat) (best x : Option Cell), s.walkNode w r hd lv n o best = .ok (x, s') → Apart s s' := by
  induction lv with
  | zero =>
    intro s s' n o best x h
    simp only [State.walkNode, Except.ok.injEq, Prod.mk.injEq] at h
    rw [← h.2]; exact Apart.same s
  | succ lv ih =>
    intro s s' n o best x h
    unfold State.walkNode at h
    simp only at h
    split at h
    · simp at h
    · rename_i bs s1 h1
      refine (treeBytes_apart hf h1).trans (foldl_ok _ ?_ ?_ _ _ _ _ _ h)
      · intro e b; rfl
      · intro c u b y u' hu
        rcases of_ite hu with hu | hu
        · simp only [Except.ok.injEq, Prod.mk.injEq] at hu
          rw [← hu.2]; exact Apart.same u
        · split at hu
          · split at hu
            · simp at hu
            · rename_i p s2 h2
              have a2 := treeRead_apart hf h2
              split at hu
              · simp at hu
              · split at hu
                · split at hu
                  · simp at hu
                  · rename_i v s3 h3
                    have a3 := checkLeafNode_apart hf h3
                    split at hu
                    · simp at hu
                    · rename_i am s4 h4
                      have a4 := treeBytes_apart hf h4
                      simp only [Except.ok.injEq, Prod.mk.injEq] at hu
                      rw [← hu.2]; exact (a2.trans a3).trans a4
                · exact a2.trans (ih _ _ _ _ _ _ hu)
          · split at hu
            · simp at hu
            · rename_i v s2 h2
              have a2 := treeRead_apart hf h2
              simp only [Except.ok.injEq, Prod.mk.injEq] at hu
              rw [← hu.2]; exact a2

theorem twalkFind_apart {a b : BitVec 7} {s s' : State} {xs : List (Nat × Nat × Nat × Nat × Nat)}
    (h : twalkFind a b s = .ok (xs, s')) : Apart s s' := by
  unfold twalkFind at h
  simp only at h
  split at h
  · simp [trapE] at h
  · split at h
    · simp at h
    · rename_i hd s1 h1
      refine (treeOpen_apart (fab_who s) h1).trans (voxLanes_apart ?_ h)
      intro l u x u' hu
      split at hu
      · simp only [Except.ok.injEq, Prod.mk.injEq] at hu
        rw [← hu.2]; exact Apart.same u
      · split at hu
        · simp at hu
        · rename_i u1 h2
          simp only [Except.ok.injEq, Prod.mk.injEq] at hu
          rw [← hu.2]; exact walkNode_apart _ (fab_who s) _ _ _ _ _ _ _ _ _ h2
        · rename_i c u1 h2
          simp only [Except.ok.injEq, Prod.mk.injEq] at hu
          rw [← hu.2]; exact walkNode_apart _ (fab_who s) _ _ _ _ _ _ _ _ _ h2

/-! Textures, draws and records. -/

theorem lineReadBy_apart {s s' : State} {u ord p n x : Nat} (h : s.lineReadBy u ord p n = .ok (x, s')) : Apart s s' := by
  unfold State.lineReadBy at h
  simp only at h
  split at h
  · simp at h
  · split at h
    · simp only [Except.ok.injEq, Prod.mk.injEq] at h
      rw [← h.2]; exact Apart.same s
    · split at h
      · simp at h
      · rename_i q t _
        split at h
        · simp at h
        · have k := loadBytes_aside s s.who (field q 0 57) n t rfl
          generalize s.loadBytes s.who (field q 0 57) n t = z at *
          obtain ⟨bs, u⟩ := z
          simp only [Except.ok.injEq, Prod.mk.injEq] at h
          rw [← h.2]; exact Apart.aside k
      · simp only [Except.ok.injEq, Prod.mk.injEq] at h
        rw [← h.2]; exact Apart.same s

theorem lineRead8_apart {s s' : State} {ord p n x : Nat} (h : s.lineRead8 ord p n = .ok (x, s')) : Apart s s' :=
  lineReadBy_apart h

theorem tableLines_apart (p k : Nat) : ∀ (s s' : State) (i x : Nat), s.tableLines p k i = .ok (x, s') → Apart s s' := by
  induction k with
  | zero =>
    intro s s' i x h
    simp only [State.tableLines, Except.ok.injEq, Prod.mk.injEq] at h
    rw [← h.2]; exact Apart.same s
  | succ k ih =>
    intro s s' i x h
    unfold State.tableLines at h
    split at h
    · split at h <;> simp at h
    · simp at h
    · rename_i v u h1
      split at h
      · simp at h
      · rename_i r u2 h2
        simp only [Except.ok.injEq, Prod.mk.injEq] at h
        rw [← h.2]; exact (lineRead8_apart h1).trans (ih _ _ _ _ h2)

theorem sampleLane_apart {s s' : State} {g : Bool} {t : TexDesc} {table : Nat} {u v : Word} {x : List Nat}
    (h : s.sampleLane g t table u v = .ok (x, s')) : Apart s s' := by
  unfold State.sampleLane at h
  split at h
  · simp only [Except.ok.injEq, Prod.mk.injEq] at h
    rw [← h.2]; exact Apart.same s
  · split at h
    · simp at h
    · rename_i blks u1 h1
      simp only [Except.ok.injEq, Prod.mk.injEq] at h
      rw [← h.2]; exact treePoints_apart _ (fun p s x s' hp => lineRead8_apart hp) _ _ _ _ h1

theorem txsFind_apart {g : Bool} {a b : BitVec 7} {s s' : State} {xs : List (Nat × List Nat)}
    (h : txsFind g a b s = .ok (xs, s')) : Apart s s' := by
  unfold txsFind at h
  simp only at h
  split at h
  · simp [trapE] at h
  · split at h
    · simp [trapE] at h
    · rename_i slot _
      split at h
      · simp [waitE] at h
      · have a0 : Apart s (if slot.installed = true then s
            else s.setBlock s.cw.blk ((s.block s.cw.blk).setSlot (fieldOf (s.rdS b.toNat) 0 4) { slot with installed := true })) := by
          split
          · exact Apart.same s
          · exact Apart.setBlock s _ _ rfl rfl
        generalize (if slot.installed = true then s
            else s.setBlock s.cw.blk ((s.block s.cw.blk).setSlot (fieldOf (s.rdS b.toNat) 0 4) { slot with installed := true }))
          = s0 at h a0
        split at h
        · simp [waitE] at h
        · split at h
          · simp at h
          · simp at h
          · simp [waitE] at h
          · rename_i dv s1 h1
            have a1 := a0.trans (lineRead8_apart h1)
            split at h
            · simp [trapA] at h
            · split at h
              · simp at h
              · rename_i ys s2 h2
                have a2 := a1.trans (treeLanes_apart (fun l u x u' hu => sampleLane_apart hu) h2)
                split at h
                · simp [waitE] at h
                · simp only [Except.ok.injEq, Prod.mk.injEq] at h
                  rw [← h.2]; exact a2

theorem drawOpen_apart {s s' : State} {b : BitVec 7} {dfr : Bool} {p d : Nat} (h : s.drawOpen b dfr = .ok (p, d, s')) : Apart s s' := by
  unfold State.drawOpen at h
  simp only at h
  split at h
  · simp [trapA] at h
  · split at h
    · simp at h
    · simp at h
    · simp [waitE] at h
    · rename_i dv u h1
      split at h
      · simp [trapA] at h
      · simp only [Except.ok.injEq, Prod.mk.injEq] at h
        rw [← h.2.2]; exact lineRead8_apart h1

theorem vbrdFind_apart {a b : BitVec 7} {s s' : State} {xs : List (Nat × Nat)} (h : vbrdFind a b s = .ok (xs, s')) : Apart s s' := by
  unfold vbrdFind at h
  split at h
  · simp at h
  · rename_i p dv s1 h1
    refine (drawOpen_apart h1).trans (treeLanes_apart ?_ h)
    intro l u x u' hu
    simp only at hu
    split at hu
    · simp at hu
    · exact lineReadBy_apart hu

theorem domainOpen_apart {s s' : State} {k : AccKind} {a b : BitVec 7} {ls : List (Nat × Loc)}
    (h : s.domainOpen k a b = .ok (ls, s')) : Apart s s' := by
  unfold State.domainOpen at h
  simp only at h
  split at h
  · simp [trapA] at h
  · split at h
    · simp [trapA] at h
    · simp at h
    · simp [waitE] at h
    · rename_i v s1 h1
      split at h
      · simp [trapA] at h
      · split at h
        · simp at h
        · split at h
          · simp at h
          · split at h
            · simp at h
            · simp only [Except.ok.injEq, Prod.mk.injEq] at h
              rw [← h.2]; exact lineRead8_apart h1

end Sys2Proof.Machine
end

