-- ==== Sys2Proof/Laws/Lift.lean ====
section
/-! SUPPORT. From the body of an instruction to its statement: results, branches, traps and window moves. -/

namespace Sys2Proof.Laws

open Sys2Proof Sys2Proof.Machine

theorem scalar_of_body {d : BitVec 7} {i : Instr} {body : Body} {f : State → DWord} {info : OpInfo} (hr : Runs i info body)
   (hfl : i.fields.extractLsb' 14 7 = d) (hf : info.fmt ≠ .B ∧ (info.d = .sdst ∨ info.d = .sboth))
    (hb : ∀ s : State, body (s.atInstr i) = .ok ((s.atInstr i).wrS d.toNat (f s))) : ScalarResult i d f :=
  scalarResult hr (fun _ h => ready_sdst hr.info h hf.1 hf.2 hfl) (fun s _ => hb s)
theorem wrS_congr (s : State) (d : Nat) (x y : DWord) (h : x = y) :
  (Except.ok (s.wrS d x) : Except Stop State) = Except.ok (s.wrS d y) := by rw [h]
theorem lanes_of_body {d : BitVec 7} {i : Instr} {body : Body} {f : State → Nat → Word} {info : OpInfo} (hr : Runs i info body)
   (hfl : i.fields.extractLsb' 14 7 = d) (hf : info.d = .vdst 1 ∨ info.d = .vboth 1) (g : State → Nat → Word)
    (hb : ∀ s : State, body (s.atInstr i) = .ok ((s.atInstr i).wrLanes d.toNat s.active (g s))) (hg : ∀ s l, g s l = f s l) : VectorResult i d f := by
  have e : g = f := by funext s l; exact hg s l
  subst e
  exact lanesResult hr (fun _ h => ready_vdst hr.info h 1 (by tauto) hfl 0 (by omega) (by have := d.isLt; omega)) (fun _ _ h => h) (fun s _ => hb s)
theorem mask_of_body {d : BitVec 7} {i : Instr} {body : Body} {f : State → Nat → Bool} {info : OpInfo} (hr : Runs i info body)
   (hfl : i.fields.extractLsb' 14 7 = d) (hf : info.fmt ≠ .B ∧ info.d = .kdst) (g : State → Nat → Bool)
    (hb : ∀ s : State, body (s.atInstr i) = .ok ((s.atInstr i).wrMask d.toNat s.active (g s))) (hg : ∀ s l, g s l = f s l) : MaskResult i d f := by
  have e : g = f := by funext s l; exact hg s l
  subst e
  exact maskResult hr (fun _ h => ready_kdst hr.info h hf.1 hf.2 hfl) (fun s _ => hb s)
theorem fp_of_lanes {d : BitVec 7} {i : Instr} {f : State → Nat → FRes} {info : OpInfo} (hr : Runs i info (fpLanes d.toNat f))
   (hfl : i.fields.extractLsb' 14 7 = d) (hf : info.d = .vdst 1 ∨ info.d = .vboth 1) (hff : ∀ s l, f (s.atInstr i) l = f s l)
   : FpResult i d f :=
  fpLanes_result hr (fun _ h => ready_vdst hr.info h 1 (by tauto) hfl 0 (by omega) (by have := d.isLt; omega)) hff
theorem fpPair_of_pairs {d : BitVec 7} {i : Instr} {f : State → Nat → FRes} {info : OpInfo} (hr : Runs i info (fpPairs d.toNat f))
   (hfl : i.fields.extractLsb' 14 7 = d) (hf : info.d = .vpdst ∨ info.d = .vpboth) (hff : ∀ s l, f (s.atInstr i) l = f s l)
   : FpPairResult i d f :=
  fpPairs_result hr (fun _ h => ⟨ready_vdst hr.info h 2 (by tauto) hfl 0 (by omega) (by have := d.isLt; omega), ready_vdst hr.info h 2 (by tauto) hfl 1 (by omega) (by have := d.isLt; omega)⟩) hff
theorem fpMask_of_body {d : BitVec 7} {i : Instr} {f : State → Nat → Bool × Flags} {info : OpInfo} {body : Body} (hr : Runs i info body)
   (hfl : i.fields.extractLsb' 14 7 = d) (hf : info.fmt ≠ .B ∧ info.d = .kdst) 
    (hb : ∀ s : State, body (s.atInstr i) = (s.atInstr i).withFlags (orFlags s.activeReal (fun l => (f s l).2)) (fun u =>
      u.wrMask d.toNat u.active (fun l => (f s l).1))) : FpMaskResult i d f :=
  fpMask_result hr (fun _ h => ready_kdst hr.info h hf.1 hf.2 hfl) hb
theorem goes_of_body {i : Instr} {info : OpInfo} {body : Body} (hr : Runs i info body) (p : Option Va) (s : State) (h : ready i s = true)
    (hb : body (s.atInstr i) = .ok (match p with
      | some v => (s.atInstr i).jump v
      | none => s.atInstr i)) : ∃ t, exec i s = .next t ∧ t.cs.pc = p.getD s.seqPc ∧ ScalarFrame s t (fun _ => False) := by
  have hok := ready_issueOk h
  have hok' : (s.atInstr i).issueOk = true := hok
  have hrun := (s.issueOk_iff.mp hok).2.2.2
  cases p with
  | none =>
    obtain ⟨f1, f2⟩ := stays_frame h (Stays.same (s.atInstr i)) rfl ⟨rfl, rfl, rfl⟩
    refine ⟨_, hr.ok h hb, ?_, f1⟩
    have := fun c => retire_pc (s.atInstr i) (s.atInstr i) c (ready_list h) rfl hrun
    exact (this _)
  | some v =>
    obtain ⟨k, h1, h2, h3, h4, h5, h6, h7⟩ := jump_stays (s.atInstr i) v hok'
    obtain ⟨f1, f2⟩ := stays_frame h k h1 ⟨h4, h5, h6⟩
    refine ⟨_, hr.ok h hb, ?_, f1⟩
    have := fun c => retire_pc (s.atInstr i) ((s.atInstr i).jump v) c (by rw [h4, k.warps]; exact ready_list h) h5 h7
    refine (this _).trans ?_
    rw [h3, h2]; rfl
theorem traps_when {i : Instr} {info : OpInfo} {body : Body} (hr : Runs i info body) {pre : State → Prop} {e : Err} (he : e.1 ≠ .page)
    (hb : ∀ s : State, ready i s = true → pre (s.atInstr i) → body (s.atInstr i) = .error (.trap (TrapInfo.of e) (s.atInstr i))) : TrapsWhen i pre e := by
  intro s h hp
  rw [hr.stop h (hb s h hp), settle_trap _ _ _ _ _ he]
theorem sext_eq_toInt (n : Nat) (x : BitVec n) (h : 0 < n) : sext n x.toNat = x.toInt := by
  unfold sext
  rw [BitVec.toInt_eq_toNat_cond, Nat.mod_eq_of_lt x.isLt]
  have : 2 ^ n = 2 * 2 ^ (n-1) := by rw [← pow_succ']; congr 1; omega
  split <;> split <;> first | rfl | omega
theorem wrap_high64 (z : Int) : BitVec.ofNat 64 (wrap 128 z / 2^64) = BitVec.ofInt 64 (z / (2:Int)^64) := by
  apply BitVec.eq_of_toNat_eq
  rw [BitVec.toNat_ofNat, BitVec.toNat_ofInt]
  unfold wrap
  norm_num
  omega
theorem wrap_high32 (z : Int) : BitVec.ofNat 32 (wrap 64 z / 2^32) = BitVec.ofInt 32 (z / (2:Int)^32) := by
  apply BitVec.eq_of_toNat_eq
  rw [BitVec.toNat_ofNat, BitVec.toNat_ofInt]
  unfold wrap
  norm_num
  omega
theorem popCount_eq (n x : Nat) : popCount n x = ((List.range n).filter (fun i => x.testBit i)).length := by
  unfold popCount
  induction n with
  | zero => rfl
  | succ n ih =>
    rw [List.range_succ, List.foldl_append, List.filter_append, List.length_append, ih]
    simp only [List.foldl_cons, List.foldl_nil, List.filter_cons, List.filter_nil, Nat.testBit_eq_decide_div_mod_eq]
    by_cases h : x / 2 ^ n % 2 = 1
    · simp [h]
    · have : x / 2 ^ n % 2 = 0 := by omega
      simp [this]
theorem sCount_eq (y : DWord) : sCount y = y.toNat % 64 := by simp [sCount, fieldOf, field]
theorem vCount_eq (y : Word) : vCount y = y.toNat % 32 := by simp [vCount, fieldOf, field]
set_option maxRecDepth 4000 in
theorem bool64_of (b : Bool) (p : Prop) [Decidable p] (h : b = true ↔ p) : bool64 b = if p then 1 else 0 := by
  unfold bool64; by_cases hp : p <;> simp [hp, h]
theorem bool64_eq (x y : DWord) : bool64 (x == y) = if x = y then 1 else 0 := bool64_of _ _ (by simp)
theorem bool64_ne (x y : DWord) : bool64 (x != y) = if x ≠ y then 1 else 0 := bool64_of _ _ (by simp)
theorem bool64_slt (x y : DWord) : bool64 (x.slt y) = if x.toInt < y.toInt then 1 else 0 := bool64_of _ _ (by simp [BitVec.slt])
theorem bool64_sle (x y : DWord) : bool64 (x.sle y) = if x.toInt ≤ y.toInt then 1 else 0 := bool64_of _ _ (by simp [BitVec.sle])
theorem bool64_ult (x y : DWord) : bool64 (x.ult y) = if x.toNat < y.toNat then 1 else 0 := bool64_of _ _ (by simp [BitVec.ult])
theorem bool64_ule (x y : DWord) : bool64 (x.ule y) = if x.toNat ≤ y.toNat then 1 else 0 := bool64_of _ _ (by simp [BitVec.ule])
theorem leadZeros_eq (n : Nat) (x : BitVec n) : leadZeros n x.toNat = if x = 0 then n else n - 1 - Nat.log2 x.toNat := by
  unfold leadZeros
  rw [Nat.mod_eq_of_lt x.isLt]
  by_cases h : x = 0
  · subst h; simp
  · rw [if_neg h]
    have : x.toNat ≠ 0 := fun hc => h (BitVec.eq_of_toNat_eq (by simpa using hc))
    rw [if_neg this]

set_option maxRecDepth 4000 in
theorem clamp32_eq (z : Int) : BitVec.ofInt 32 (clampS 32 z) = BitVec.ofInt 32 (max (-2147483648) (min 2147483647 z)) := by
  unfold clampS; norm_num
set_option maxRecDepth 4000 in
theorem sext_toInt (n v : Nat) (h : 0 < n) : sext n v = (BitVec.ofNat n v).toInt := by
  rw [← sext_eq_toInt n _ h, BitVec.toNat_ofNat]
  unfold sext
  rw [Nat.mod_mod]
theorem sshiftRight_shiftLeft (x : Word) (p n : Nat) (hn : 0 < n) (h : p + n ≤ 32) :
   BitVec.ofInt 32 (sext n (x.toNat / 2 ^ p % 2 ^ n)) = (x <<< (32 - n - p)).sshiftRight (32 - n) := by
  rw [sext_toInt n _ hn]
  show BitVec.signExtend 32 (BitVec.ofNat n _) = _
  apply BitVec.eq_of_getLsbD_eq
  intro i hi
  rw [BitVec.getLsbD_signExtend, BitVec.getLsbD_sshiftRight, BitVec.msb_eq_getLsbD_last, BitVec.msb_eq_getLsbD_last]
  simp only [BitVec.getLsbD_ofNat, BitVec.getLsbD_shiftLeft, Nat.testBit_mod_two_pow, Nat.testBit_div_two_pow, hi]
  by_cases h1 : i < n
  · have e1 : 32 - n + i < 32 := by omega
    have e2 : ¬ (32 - n + i < 32 - n - p) := by omega
    have e3 : 32 - n + i - (32 - n - p) = i + p := by omega
    have e4 : ¬ (32 ≤ i) := by omega
    simp [h1, e1, e2, e3, e4, BitVec.getLsbD]
  · have e1 : ¬ (32 - n + i < 32) := by omega
    have e2 : 32 - 1 - (32 - n - p) = n - 1 + p := by omega
    have e3 : ¬ (31 < 32 - n - p) := by omega
    have e4 : n - 1 < n := by omega
    have e5 : 31 - (32 - n - p) = n - 1 + p := by omega
    simp [h1, e1, e2, e3, e4, hi, BitVec.getLsbD]
theorem bitExtract_unsigned (x y : Word) : bitExtract false x y = BitVec.ofNat 32 (x.toNat / 2 ^ (y.toNat % 32) % 2 ^ (min (min (y.toNat / 256 % 64) 32) (32 - y.toNat % 32))) := by
  unfold bitExtract bitField fieldOf field
  simp only [Bool.false_eq_true, if_false, pow_zero, Nat.div_one, show 2^5 = 32 by rfl, show 2^8=256 by rfl, show 2^6 = 64 by rfl]
  split
  · rename_i h; rw [h]; simp [Nat.mod_one]
  · rfl
theorem bitExtract_signed (x y : Word) : bitExtract true x y = if (min (min (y.toNat / 256 % 64) 32) (32 - y.toNat % 32)) = 0 then 0 else
   (x <<< (32 - (min (min (y.toNat / 256 % 64) 32) (32 - y.toNat % 32)) - (y.toNat % 32))).sshiftRight (32 - (min (min (y.toNat / 256 % 64) 32) (32 - y.toNat % 32))) := by
  unfold bitExtract bitField fieldOf field
  simp only [if_true, pow_zero, Nat.div_one, show 2^5 = 32 by rfl, show 2^8=256 by rfl, show 2^6 = 64 by rfl]
  split
  · rfl
  · exact sshiftRight_shiftLeft _ _ _ (by omega) (by omega)
theorem bitInsert_bit (x y z : Word) (k : Nat) (hk : k < 32) : (bitInsert x y z).getLsbD k =
   if (y.toNat % 32) ≤ k ∧ k < (y.toNat % 32) + (min (min (y.toNat / 256 % 64) 32) (32 - y.toNat % 32)) then x.getLsbD (k - (y.toNat % 32)) else z.getLsbD k := by
  unfold bitInsert bitField fieldOf field
  simp only [pow_zero, Nat.div_one, show 2^5 = 32 by rfl, show 2^8=256 by rfl, show 2^6 = 64 by rfl]
  generalize hn : min (min (y.toNat / 256 % 64) 32) (32 - y.toNat % 32) = n
  generalize hp : y.toNat % 32 = p
  have hm : ∀ k < 32, (BitVec.ofNat 32 ((2 ^ n - 1) * 2 ^ p)).getLsbD k = decide (p ≤ k ∧ k < p + n) := by
    intro k hk
    rw [BitVec.getLsbD_ofNat, Nat.mul_comm, Nat.testBit_two_pow_mul, Nat.testBit_two_pow_sub_one]
    by_cases h : p ≤ k <;> simp [h, hk]; omega
  rw [BitVec.getLsbD_or, BitVec.getLsbD_and, BitVec.getLsbD_and, BitVec.getLsbD_not, hm k hk, BitVec.getLsbD_shiftLeft]
  by_cases h : p ≤ k ∧ k < p + n
  · have : ¬ (k < p) := by omega
    simp [h, hk, this]
  · rw [if_neg h]; simp [h, hk]
set_option maxRecDepth 4000 in
theorem fold_lanes (s : State) (a : BitVec 7) (f : Nat → Nat → Nat) (x : Nat) (ls : List Nat) :
  (ls.map (fun l => (l, (s.lane a.toNat l).toNat))).foldl (fun acc p => f acc p.2) x = ls.foldl (fun acc l => f acc ((s.lane a.toNat l).toNat)) x := by
  rw [List.foldl_map]
theorem live_lane_congr (s : State) (a : BitVec 7) (j k : Nat) (h : j = k) : (if s.cw.lanes.getLsbD j then s.lane a.toNat j else 0) =
   (if s.cw.lanes.getLsbD k then s.lane a.toNat k else 0) := by rw [h]
theorem shuffleCount_eq (s : State) (b : BitVec 7) : shuffleCount s b = (s.rdS b.toNat).toNat % 32 := by simp [shuffleCount, fieldOf, field]
set_option maxRecDepth 4000 in
theorem xmaxi_ok {d a b : BitVec 7} {f : Fmt} {i : Instr} {info : OpInfo} (hr : Runs i info (maxIndex f d a b)) 
    (hfl : i.fields.extractLsb' 14 7 = d) (hf : info.d = .vdst 2) : ∀ s, ready i s = true → ∃ t, exec i s = .next t ∧ t.cw.fst = s.cw.fst ∧
    VectorFrame s t (fun n => n = d.toNat ∨ n = d.toNat + 1) ∧
    ∀ l, l < 32 → s.activeReal.getLsbD l = true → ∃ x k, winner f ((lanesOf s.activeReal).map (fun l => ((s.lane a.toNat l).toNat % 2 ^ f.width,
      (s.lane b.toNat l).toNat))) = some (x, k) ∧ laneOf (t.regV d.toNat) l = BitVec.ofNat 32 x ∧
      laneOf (t.regV (d.toNat + 1)) l = BitVec.ofNat 32 k := by
  intro s h
  have hd0 : s.vname d.toNat = true := ready_vdst hr.info h 2 (.inl hf) hfl 0 (by omega) (by have := d.isLt; omega)
  have hd1 : s.vname (d.toNat+1) = true := ready_vdst hr.info h 2 (.inl hf) hfl 1 (by omega) (by have := d.isLt; omega)
  have hwin : ∀ c : List (Nat × Nat), c ≠ [] → ∃ x k, winner f c = some (x,k) := by
    intro c hc
    cases c with
    | nil => exact absurd rfl hc
    | cons x r => exact ⟨_, _, rfl⟩
  have hc : (fun l => (fieldOf (s.lane a.toNat l) 0 f.width, (s.lane b.toNat l).toNat)) = (fun l => ((s.lane a.toNat l).toNat % 2 ^ f.width,
      (s.lane b.toNat l).toNat)) := by
    funext l; simp [fieldOf, field]
  cases hl : winner f ((lanesOf s.activeReal).map (fun l => ((s.lane a.toNat l).toNat % 2 ^ f.width,
      (s.lane b.toNat l).toNat))) with
  | none =>
    have hb : maxIndex f d a b (s.atInstr i) = .ok (s.atInstr i) := by
      unfold maxIndex
      show (match winner f ((lanesOf s.activeReal).map (fun l => (fieldOf (s.lane a.toNat l) 0 f.width, (s.lane b.toNat l).toNat))) with | none => _ | some (x,i') => _) = _
      rw [hc, hl]
    have hw : Wrote (s.atInstr i) (s.atInstr i) := ⟨⟨rfl,rfl,rfl,rfl,rfl,rfl,rfl,rfl,rfl,rfl,rfl,rfl,rfl,rfl,fun _ _ => rfl,fun _ _ => rfl⟩, SameControl.same _, ⟨fun _ => rfl, fun _ _ => rfl⟩, rfl, rfl, rfl, rfl, rfl, rfl⟩
    refine ⟨_, hr.ok h hb, (wrote_retire h hw).1.fst, vectorFrame_of _ h hw (fun _ => rfl) (fun _ _ _ => rfl) (fun _ _ _ _ _ => rfl) (fun _ => rfl), ?_⟩
    intro l hl2 ha
    exfalso
    obtain ⟨x, k, e⟩ := hwin _ (show ((lanesOf s.activeReal).map (fun l => ((s.lane a.toNat l).toNat % 2 ^ f.width,
      (s.lane b.toNat l).toNat))) ≠ [] by
      intro hn
      rw [List.map_eq_nil_iff] at hn
      have : l ∈ lanesOf s.activeReal := by unfold lanesOf; rw [List.mem_filter]; exact ⟨by simpa using hl2, ha⟩
      rw [hn] at this; exact absurd this (by simp))
    rw [e] at hl; exact absurd hl (by simp)
  | some xk =>
    obtain ⟨x, k⟩ := xk
    have hb : maxIndex f d a b (s.atInstr i) = .ok (((s.atInstr i).wrLanes d.toNat s.activeReal (fun _ => BitVec.ofNat 32 x)).wrLanes (d.toNat+1) s.activeReal (fun _ => BitVec.ofNat 32 k)) := by
      unfold maxIndex
      show (match winner f ((lanesOf s.activeReal).map (fun l => (fieldOf (s.lane a.toNat l) 0 f.width, (s.lane b.toNat l).toNat))) with | none => _ | some (x,i') => _) = _
      rw [hc, hl]; rfl
    obtain ⟨h1, h2, h3, h4, h5⟩ := wrLanes_spec (s.atInstr i) d.toNat s.activeReal (fun _ => BitVec.ofNat 32 x) (ready_list h) hd0
    obtain ⟨k1, k2, k3, k4, k5⟩ := wrLanes_spec ((s.atInstr i).wrLanes d.toNat s.activeReal (fun _ => BitVec.ofNat 32 x)) (d.toNat+1) s.activeReal (fun _ => BitVec.ofNat 32 k) (by rw [h1.issue, h1.warps]; exact ready_list h) (by rw [h1.vname]; exact hd1)
    have hw := h1.trans k1
    have kk := (wrote_retire h hw).1
    refine ⟨_, hr.ok h hb, kk.fst.trans hw.fst, ?_, ?_⟩
    · refine vectorFrame_of _ h hw (fun n => (k3 n).trans (h3 n)) ?_ ?_ (fun n => (k4 n).trans (h4 n))
      · intro n hn hne
        rw [not_or] at hne
        exact (k2 n (by rw [h1.vname]; exact hn) hne.2).trans (h2 n hn hne.1)
      · intro n l hn hl2 ha
        have hna := activeReal_not s l ha
        by_cases e : n = d.toNat + 1
        · subst e; rw [k5 l hl2, hna, h2 _ hd1 (by omega)]; rfl
        · rw [k2 n (by rw [h1.vname]; exact hn) e]
          by_cases e2 : n = d.toNat
          · subst e2; rw [h5 l hl2, hna]; rfl
          · rw [h2 n hn e2]; rfl
    · intro l hl2 ha
      refine ⟨x, k, rfl, ?_, ?_⟩
      · rw [kk.reads.regV, k2 _ (by rw [h1.vname]; exact hd0) (by omega), h5 l hl2, ha]; rfl
      · rw [kk.reads.regV, k5 l hl2, ha]; rfl

set_option maxRecDepth 4000 in
theorem goesTo_congr {i : Instr} {f g : State → Va} (h : GoesTo i f) (e : ∀ s, f s = g s) : GoesTo i g := by
  have : f = g := funext e
  rw [← this]; exact h
theorem branchVector_uniform {i : Instr} {info : OpInfo} {d : BitVec 7} {imm : BitVec 14} (sense : Bool) (hr : Runs i info (branchVector sense d imm)) (s : State) (h : ready i s = true) (tk : Mask)
   (htk : tk = s.active &&& (if sense then s.rdK d.toNat else ~~~(s.rdK d.toNat))) :
    (tk = 0 → ∃ t, exec i s = .next t ∧ t.cs.pc = s.seqPc ∧ ScalarFrame s t (fun _ => False)) ∧
    (tk ≠ 0 → s.k0 &&& ~~~tk = 0 → ∃ t, exec i s = .next t ∧ t.cs.pc = (BitVec.ofInt 57 ((s.issue.pc.toNat : Int) + s.imm 14 imm.toNat * 4)) ∧ ScalarFrame s t (fun _ => False)) := by
  subst htk
  refine ⟨fun h0 => goes_of_body hr none s h ?_, fun h0 h1 => goes_of_body hr (some _) s h ?_⟩
  · show (if s.active &&& (if sense then s.rdK d.toNat else ~~~(s.rdK d.toNat)) = 0 then _ else _) = _
    rw [if_pos h0]
  · show (if s.active &&& (if sense then s.rdK d.toNat else ~~~(s.rdK d.toNat)) = 0 then _ else (if s.k0 &&& ~~~(s.active &&& (if sense then s.rdK d.toNat else ~~~(s.rdK d.toNat))) = 0 then _ else _)) = _
    rw [if_neg h0, if_pos h1]; rfl
theorem branchVector_divergent {i : Instr} {info : OpInfo} {d : BitVec 7} {imm : BitVec 14} (sense : Bool) (hr : Runs i info (branchVector sense d imm)) (s : State) (tk : Mask)
   (htk : tk = s.active &&& (if sense then s.rdK d.toNat else ~~~(s.rdK d.toNat))) :
    ready i s = true → tk ≠ 0 → s.k0 &&& ~~~tk ≠ 0 →
    (∀ f, s.topmost = true → (List.range 4).find? (fun f => (s.cw.strand f).isNone) = some f →
      exec i s = .next (s.retired i (((s.atInstr i).putW ((s.cw.setStrand s.issue.entry (some
        { s.cs with mask := s.k0 &&& ~~~tk, pc := s.issue.pc + 4, kind := .arm, group := s.issue.entry, region := none, jumped := false, st := .ready, wait := none })).setStrand f (some
        { Strand.start tk (BitVec.ofInt 57 ((s.issue.pc.toNat : Int) + s.imm 14 imm.toNat * 4)) with kind := .arm, group := s.issue.entry, jumped := true }))).settled))) ∧
    (s.topmost = false ∨ (List.range 4).find? (fun f => (s.cw.strand f).isNone) = none → s.cs.stack.length < 16 →
      exec i s = .next (s.retired i ((s.atInstr i).putS
        { s.cs with mask := s.k0 &&& ~~~tk, region := none, stack := ⟨s.k0, tk, BitVec.ofInt 57 ((s.issue.pc.toNat : Int) + s.imm 14 imm.toNat * 4), false⟩ :: s.cs.stack }))) := by
  intro h h0 h1
  subst htk
  have e : branchVector sense d imm (s.atInstr i) = (match (if s.topmost then (List.range 4).find? (fun f => (s.cw.strand f).isNone) else none) with
    | some f =>
      .ok (((s.atInstr i).putW ((s.cw.setStrand s.issue.entry (some
        { s.cs with mask := s.k0 &&& ~~~(s.active &&& (if sense then s.rdK d.toNat else ~~~(s.rdK d.toNat))), pc := s.issue.pc + 4, kind := .arm, group := s.issue.entry, region := none, jumped := false, st := .ready, wait := none })).setStrand f (some
        { Strand.start (s.active &&& (if sense then s.rdK d.toNat else ~~~(s.rdK d.toNat))) (BitVec.ofInt 57 ((s.issue.pc.toNat : Int) + s.imm 14 imm.toNat * 4)) with kind := .arm, group := s.issue.entry, jumped := true }))).settled)
    | none => match (s.atInstr i).push ⟨s.k0, (s.active &&& (if sense then s.rdK d.toNat else ~~~(s.rdK d.toNat))), BitVec.ofInt 57 ((s.issue.pc.toNat : Int) + s.imm 14 imm.toNat * 4), false⟩ with
      | .error x => ladleStop (s.atInstr i) x
      | .ok (u, s') => .ok (s'.putS { u with mask := s.k0 &&& ~~~(s.active &&& (if sense then s.rdK d.toNat else ~~~(s.rdK d.toNat))), region := none })) := by
    show (if s.active &&& (if sense then s.rdK d.toNat else ~~~(s.rdK d.toNat)) = 0 then _ else (if s.k0 &&& ~~~(s.active &&& (if sense then s.rdK d.toNat else ~~~(s.rdK d.toNat))) = 0 then _ else _)) = _
    rw [if_neg h0, if_neg h1]; rfl
  refine ⟨fun f ht hf => hr.ok h ?_, fun ht hs => hr.ok h ?_⟩
  · rw [e, ht, if_pos rfl, hf]
  · have hn : (if s.topmost then (List.range 4).find? (fun f => (s.cw.strand f).isNone) else none) = none := by
      rcases ht with ht | ht
      · rw [ht]; rfl
      · rw [ht]; split <;> rfl
    rw [e, hn]
    dsimp only
    have : (s.atInstr i).push ⟨s.k0, (s.active &&& (if sense then s.rdK d.toNat else ~~~(s.rdK d.toNat))), BitVec.ofInt 57 ((s.issue.pc.toNat : Int) + s.imm 14 imm.toNat * 4), false⟩ =
      .ok ({ s.cs with stack := ⟨s.k0, (s.active &&& (if sense then s.rdK d.toNat else ~~~(s.rdK d.toNat))), BitVec.ofInt 57 ((s.issue.pc.toNat : Int) + s.imm 14 imm.toNat * 4), false⟩ :: s.cs.stack }, s.atInstr i) := by
      unfold State.push
      show State.pushRec _ _ _ _ s.cs _ = _
      unfold State.pushRec
      rw [if_pos hs]
    rw [this]
theorem settle_done {i : Instr} {info : OpInfo} {body : Body} (hr : Runs i info body) {s t : State} (h : ready i s = true) (hb : body (s.atInstr i) = .error (.done t)) : exec i s = .next t := hr.stop h hb
theorem not_inHandler {i : Instr} {s : State} (h : s.inHandler = false) : ¬ (s.atInstr i).inHandler = true := by
  show ¬ s.inHandler = true; simp [h]
theorem setRunner_none {x : Warp} {e : Nat} {t : Strand} (h : x.handlers = []) : x.setRunner e t = x.setStrand e (some t) := by
  unfold Warp.setRunner; rw [h]
theorem spillRes_none {s : State} {q : Nat} (h : (s.quarter q).owner = none) : s.spillReserve q = some s := by
  unfold State.spillReserve; rw [h]
theorem trapInfo_fields (c sub logN e lane imm : Nat) (b1 b2 b3 : Nat) (hb1 : b1 ≤ 1) (hb2 : b2 ≤ 1) (hb3 : b3 ≤ 1) (hc : c < 16) (hs : sub < 256) (hl : logN ≤ 8) (he : e < 4) (hla : lane < 32) (hi : imm < 16384) (lb : Nat) (hlb : lb = if logN = 0 then 0 else 1) :
   let s0 := c + sub * 2 ^ 8 + b1 * 2 ^ 16 + b2 * 2 ^ 17 + b3 * 2 ^ 18 + lb * 2 ^ 19 + (logN - 1) * 2 ^ 20 + e * 2 ^ 23 + lane * 2 ^ 25 + 0 + imm * 2 ^ 32
   s0 < 2 ^ 64 ∧ s0 % 16 = c ∧ s0 / 2 ^ 4 % 16 = 0 ∧ s0 / 2 ^ 8 % 256 = sub ∧ s0 / 2 ^ 19 % 2 = lb ∧ s0 / 2 ^ 20 % 8 = logN - 1 ∧ s0 / 2 ^ 23 % 4 = e ∧ s0 / 2 ^ 25 % 32 = lane ∧ s0 / 2 ^ 30 % 4 = 0 ∧ s0 / 2 ^ 32 = imm := by
  have : lb ≤ 1 := by split at hlb <;> omega
  dsimp only
  norm_num
  refine ⟨?_, ?_, ?_, ?_, ?_, ?_, ?_, ?_, ?_, ?_⟩ <;> omega
theorem setRunner_same (x : Warp) (e : Nat) (t : Strand) :
   (x.setRunner e t).vregs = x.vregs ∧ (x.setRunner e t).sregs = x.sregs ∧ (x.setRunner e t).kregs = x.kregs ∧ (x.setRunner e t).lclk = x.lclk ∧ (x.setRunner e t).fst = x.fst := by
  unfold Warp.setRunner
  split
  · split <;> exact ⟨rfl, rfl, rfl, rfl, rfl⟩
  · exact ⟨rfl, rfl, rfl, rfl, rfl⟩
theorem route_parts (s : State) (p : BitVec 128) (m : Msg) : (s.route p m).warps = s.warps ∧ (s.route p m).mem = s.mem ∧ (s.route p m).blocks = s.blocks := by
  unfold State.route; split <;> exact ⟨rfl, rfl, rfl⟩
theorem report_parts (s : State) (w : Nat) (r : TrapRec) : (s.reportTrap w r).warps = s.warps ∧ (s.reportTrap w r).mem = s.mem ∧ (s.reportTrap w r).blocks = s.blocks := by
  unfold State.reportTrap State.send
  dsimp only
  exact route_parts _ _ _
theorem resume_parts (s : State) (w : Nat) : ∃ m, (s.resumeEngines w).warps = (s.setWarp w { s.warp w with mprog := m }).warps ∧ (s.resumeEngines w).mem = s.mem ∧ (s.resumeEngines w).blocks = s.blocks ∧ (s.resumeEngines w).quarters = s.quarters :=
  ⟨_, rfl, rfl, rfl, rfl⟩
theorem all_run (i : Instr) (info : OpInfo) (hi : i.info = some info) (hx : ∀ v, i ≠ .ximm v) (hk : ∀ n m, i ≠ .ksel n m) (hu : ∀ w, i ≠ .unusedOpcode w) : ∃ body, Runs i info body := by
  have h0 : opInfo 0 = none := by decide
  cases i
  all_goals first
    | exact ⟨_, hi, fun s => rfl⟩
    | exact absurd rfl (hx _)
    | exact absurd rfl (hk _ _)
    | exact absurd rfl (hu _)
    | exact absurd (h0.symm.trans hi) (by simp)

end Sys2Proof.Laws
end

