-- ==== Sys2Proof/Laws/LaneMemory.lean ====
section
/-! SUPPORT. Loads, stores and atomics of lanes, and fences. -/

namespace Sys2Proof.Laws

open Sys2Proof Sys2Proof.Machine

theorem scalarLoad_reads {i : Instr} {info : OpInfo} {w : Nat} {d a imm : BitVec 7} (hr : Runs i info (scalarLoad w d a imm)) 
   (hd : ∀ s, ready i s = true → d.toNat < 64) : ∀ s x, ready i s = true →
    (s.atInstr i).locate true .read (objAddr (s.rdS a.toNat) (s.imm 7 imm.toNat)) w = .ok x →
    x.asked s.issue.resp 0 w (fun p pa => askRead p w pa) = .ok none →
    exec i s = .next (s.retired i (((s.atInstr i).loadLoc w x).2.wrS d.toNat (BitVec.ofNat 64 ((s.atInstr i).loadLoc w x).1))) ∧
    (∀ bs, (s.atInstr i).quietRead w x = some bs → ∃ t, exec i s = .next t ∧ t.regS d.toNat = BitVec.ofNat 64 (ofBytes bs) ∧
      t.cw.fst = s.cw.fst ∧ ScalarFrame s t (fun n => n = d.toNat)) := by
  intro s x h hl ha
  have hb : scalarLoad w d a imm (s.atInstr i) = .ok (((s.atInstr i).loadLoc w x).2.wrS d.toNat (BitVec.ofNat 64 ((s.atInstr i).loadLoc w x).1)) := by
    unfold scalarLoad
    rw [show (s.atInstr i).rdS a.toNat = s.rdS a.toNat from rfl, show (s.atInstr i).imm 7 imm.toNat = s.imm 7 imm.toNat from rfl, hl]
    dsimp only
    rw [show (s.atInstr i).issue.resp = s.issue.resp from rfl, ha]
  refine ⟨hr.ok h hb, fun bs hq => ?_⟩
  rw [quiet_load _ _ _ _ hq] at hb
  obtain ⟨h1, h2, h3, h4⟩ := wrS_spec (s.atInstr i) d.toNat (BitVec.ofNat 64 (ofBytes bs)) (ready_list h) (hd s h)
  refine ⟨_, hr.ok h hb, ?_, (wrote_retire h h1).1.fst.trans h1.fst, ?_⟩
  · rw [(wrote_retire h h1).1.reads.regS, h2 _ (hd s h), if_pos rfl]
  · refine scalarFrame_of d.toNat h h1 ?_ h3 h4
    intro n hn hd'
    rw [h2 n hn, if_neg hd']; rfl
theorem toBytes_get (n v j : Nat) (h : j < n) : (toBytes n v)[j]? = some (BitVec.ofNat 8 (v / 2 ^ (8 * j))) := by
  induction n generalizing v j with
  | zero => omega
  | succ n ih =>
    cases j with
    | zero => simp [toBytes]
    | succ j =>
      simp only [toBytes, List.getElem?_cons_succ]
      rw [ih _ _ (by omega), Nat.div_div_eq_div_mul, show 8 * (j + 1) = 8 + 8 * j by omega, Nat.pow_add]
theorem retire_of_aside {i : Instr} {s t : State} (h : ready i s = true) (ha : t.aside = (s.atInstr i).aside) : Stays t (s.retired i t) := by
  unfold State.aside at ha
  simp only [Prod.mk.injEq] at ha
  obtain ⟨h1, h2, h3, h4, -⟩ := ha
  have := fun c => retire_stays (s.atInstr i) t c (by rw [h4, h1]; exact ready_list h) (by rw [h4]; rfl) (by rw [h4])
  exact (this _).1
theorem retire_of_warps {i : Instr} {s t : State} (h : ready i s = true) (h1 : t.warps = s.warps) (h4 : t.issue = (s.atInstr i).issue) : Stays t (s.retired i t) := by
  have := fun c => retire_stays (s.atInstr i) t c (by rw [h4, h1]; exact ready_list h) (by rw [h4]; rfl) (by rw [h4])
  exact (this _).1
theorem aside_stays {s t : State} (ha : t.aside = s.aside) : SameReads s t ∧ t.warps = s.warps ∧ t.issue = s.issue ∧ t.blocks = s.blocks := by
  unfold State.aside at ha
  simp only [Prod.mk.injEq] at ha
  obtain ⟨h1, h2, h3, h4, h5, h6, h7⟩ := ha
  have hcw : t.cw = s.cw := by unfold State.cw State.warp; rw [h1, h4]
  have hcs : t.cs = s.cs := by unfold State.cs; rw [hcw, h4]
  have hq : t.quarter (t.quarterOf t.issue.warp) = s.quarter (s.quarterOf s.issue.warp) := by
    unfold State.quarter State.quarterOf State.coreOfWarp State.block State.warp; rw [h1, h2, h4, h6]
  refine ⟨⟨by rw [h4]; exact ⟨rfl, rfl, rfl⟩, ?_, by rw [hcw, hq]; exact ⟨rfl, rfl⟩, by rw [hcw, hq]; exact ⟨rfl, rfl⟩, by rw [hcw], by rw [hcw]; exact ⟨rfl, rfl, rfl, rfl⟩, by rw [hcs]⟩, h1, h4, h2⟩
  unfold State.inHandler
  rw [hcw, h4]
theorem scr_stays (s : State) (b off : Nat) (bs : List Byte) : SameReads s (s.scratchWrite b off bs) := by
  have hcw : (s.scratchWrite b off bs).cw = s.cw := rfl
  have hq : (s.scratchWrite b off bs).quarter ((s.scratchWrite b off bs).quarterOf s.issue.warp) = s.quarter (s.quarterOf s.issue.warp) := by
    unfold State.quarterOf State.coreOfWarp
    have : ((s.scratchWrite b off bs).block ((s.scratchWrite b off bs).warp s.issue.warp).blk).core = (s.block (s.warp s.issue.warp).blk).core := by
      show (nth (s.blocks.set b _) (s.warp s.issue.warp).blk _).core = _
      rw [nth_set]
      split
      · rename_i h; rw [h.1]
      · rfl
    rw [this]; rfl
  exact ⟨⟨rfl, rfl, rfl⟩, rfl, ⟨rfl, congrArg _ hq⟩, ⟨rfl, congrArg _ hq⟩, rfl, ⟨rfl, rfl, rfl, rfl⟩, rfl⟩
theorem store_stays (s : State) (bs : List Byte) (x : Loc) : SameReads s (s.storeLoc bs x) ∧ (s.storeLoc bs x).warps = s.warps ∧ (s.storeLoc bs x).issue = s.issue := by
  cases x with
  | scr b off => exact ⟨scr_stays s b off bs, rfl, rfl⟩
  | glob p t => have := aside_stays (storeLoc_aside s bs (.glob p t) (by intros; simp)); exact ⟨this.1, this.2.1, this.2.2.1⟩
  | ing off => exact ⟨SameReads.same s, rfl, rfl⟩
theorem scalarStore_stores {i : Instr} {info : OpInfo} {w : Nat} {d a imm : BitVec 7} (hr : Runs i info (scalarStore w d a imm)) : ∀ s x, ready i s = true →
    let bs := toBytes w (s.rdS d.toNat).toNat
    (s.atInstr i).locate true .write (objAddr (s.rdS a.toNat) (s.imm 7 imm.toNat)) w = .ok x →
    x.asked s.issue.resp 3 w (fun p pa => askWrite p pa bs) = .ok none →
    ∃ t, exec i s = .next t ∧ t = s.retired i ((s.atInstr i).storeLoc bs x) ∧
      (∀ b off, x = .scr b off → b < s.blocks.length →
        (∀ c n, t.scrByte c n = if c = b ∧ off ≤ n ∧ n < off + w
          then BitVec.ofNat 8 ((s.rdS d.toNat).toNat / 2 ^ (8 * (n - off))) else s.scrByte c n) ∧ t.mem = s.mem) ∧
      (∀ p tr, x = .glob p tr → (∀ q, (s.atInstr i).spares false x w q → t.memByte q = s.memByte q) ∧
        (∀ c n, t.scrByte c n = s.scrByte c n)) ∧
      (∀ n, t.regS n = s.regS n) ∧ (∀ n, t.regV n = s.regV n) ∧ (∀ n, t.regK n = s.regK n) ∧ t.cw.fst = s.cw.fst ∧
      SameControl s.cw t.cw ∧ (∀ v, v ≠ s.issue.warp → t.warp v = s.warp v) := by
  intro s x h
  dsimp only
  intro hl ha
  have hb : scalarStore w d a imm (s.atInstr i) = .ok ((s.atInstr i).storeLoc (toBytes w (s.rdS d.toNat).toNat) x) := by
    unfold scalarStore
    rw [show (s.atInstr i).rdS a.toNat = s.rdS a.toNat from rfl, show (s.atInstr i).rdS d.toNat = s.rdS d.toNat from rfl, show (s.atInstr i).imm 7 imm.toNat = s.imm 7 imm.toNat from rfl, hl]
    dsimp only
    rw [show (s.atInstr i).issue.resp = s.issue.resp from rfl, ha]
  obtain ⟨g, gw, gi⟩ := store_stays (s.atInstr i) (toBytes w (s.rdS d.toNat).toNat) x
  have k := retire_of_warps (i := i) h gw gi
  have hcw : ((s.atInstr i).storeLoc (toBytes w (s.rdS d.toNat).toNat) x).cw = s.cw := by unfold State.cw State.warp; rw [gw, gi]; rfl
  refine ⟨_, hr.ok h hb, rfl, ?_, ?_, fun n => by rw [k.reads.regS, g.regS]; rfl, fun n => by rw [k.reads.regV, g.regV]; rfl, fun n => by rw [k.reads.regK, g.regK]; rfl, ?_, ?_, ?_⟩
  · intro b off hx hbl
    refine ⟨fun c n => ?_, ?_⟩
    · have e : (s.retired i ((s.atInstr i).storeLoc (toBytes w (s.rdS d.toNat).toNat) x)).scrByte c n = ((s.atInstr i).scratchWrite b off (toBytes w (s.rdS d.toNat).toNat)).scrByte c n := by
        unfold State.scrByte State.block
        rw [k.elsewhere.blocks, hx]; rfl
      rw [e, scratchWrite_byte (s.atInstr i) b off _ hbl, toBytes_length]
      by_cases hc : c = b ∧ off ≤ n ∧ n < off + w
      · rw [if_pos hc, if_pos hc, toBytes_get _ _ _ (by omega)]; rfl
      · rw [if_neg hc, if_neg hc]; rfl
    · rw [k.elsewhere.mem, hx]; rfl
  · intro p tr hx
    refine ⟨fun q hq => ?_, fun c n => ?_⟩
    · unfold State.memByte
      rw [k.elsewhere.mem]
      exact storeLoc_spares (s.atInstr i) (toBytes w (s.rdS d.toNat).toNat) x q (by rw [toBytes_length]; exact hq)
    · unfold State.scrByte State.block
      rw [k.elsewhere.blocks]
      have := (aside_stays (storeLoc_aside (s.atInstr i) (toBytes w (s.rdS d.toNat).toNat) x (by rw [hx]; intros; simp))).2.2.2
      rw [this]; rfl
  · rw [k.fst, hcw]
  · have := k.control; rw [hcw] at this; exact this
  · intro v hv
    rw [k.elsewhere.warps v (by rw [gi]; exact hv)]
    unfold State.warp; rw [gw]; rfl
theorem mem_lanesOf (m : Mask) (l : Nat) : l ∈ lanesOf m ↔ l < 32 ∧ m.getLsbD l = true := by
  unfold lanesOf; simp
theorem gather_ok {α : Type} (f : Nat → Except (Err × Nat) α) (g : Nat → α) (ls : List Nat) (h : ∀ l ∈ ls, f l = .ok (g l)) :
    gather f ls = .ok (ls.map (fun l => (l, g l))) := by
  induction ls with
  | nil => rfl
  | cons l r ih =>
    simp only [gather, h l (List.mem_cons_self ..), ih (fun k hk => h k (List.mem_cons_of_mem _ hk)), List.map_cons]
theorem alGet_map {α : Type} (g : Nat → α) (ls : List Nat) (l : Nat) (h : l ∈ ls) : alGet (ls.map (fun l => (l, g l))) l = some (g l) := by
  induction ls with
  | nil => simp at h
  | cons k r ih =>
    simp only [List.map_cons, alGet]
    by_cases e : k = l
    · simp [e]
    · have : l ∈ r := by rcases List.mem_cons.mp h with h | h; exact absurd h.symm e; exact h
      simp [e, ih this]
theorem lanesAsked_none (rs : List HostResp) (kind : Nat) (n : Nat → Nat) (ask : Nat → Nat → Nat → HostAsk) (g : Nat → Loc) (ls : List Nat)
    (h : ∀ l ∈ ls, (g l).asked rs kind (n l) (ask l) = .ok none) : lanesAsked rs kind n ask (ls.map (fun l => (l, g l))) = .ok [] := by
  unfold lanesAsked
  have e : (ls.map (fun l => (l, g l))).map Prod.fst = ls := by simp [List.map_map, Function.comp_def]
  rw [e, gather_ok _ (fun _ => none) ls (by
    intro l hl
    rw [alGet_map g ls l hl]
    exact h l hl)]
  dsimp only
  have : (List.filterMap Prod.snd (ls.map (fun l => (l, (none : Option HostAsk))))) = [] := by
    induction ls with
    | nil => rfl
    | cons a r ih => simp
  rw [this]; rfl
theorem quiet_asked (s : State) (n : Nat) (x : Loc) (bs : List Byte) (ask) (h : s.quietRead n x = some bs) :
    x.asked s.issue.resp 0 n ask = .ok none := by
  unfold State.quietRead at h
  unfold Loc.asked
  cases x with
  | scr b off => rfl
  | ing off => rfl
  | glob p t =>
    dsimp only at h ⊢
    by_cases he : t.entry.isSome = true
    · simp [he] at h
    · rw [if_neg he] at h
      by_cases h2 : leafKind t.leaf = 2
      · rw [if_pos h2] at h ⊢
        split at h
        · rename_i v hv; rw [hv]
        · simp at h
      · rw [if_neg h2]
theorem quiet_hits (s : State) (n : Nat) (x : Loc) (bs : List Byte) (h : s.quietRead n x = some bs) : s.hitsL1 x = true := by
  unfold State.quietRead at h
  unfold State.hitsL1
  cases x with
  | scr b off => rfl
  | ing off => rfl
  | glob p t =>
    dsimp only at h ⊢
    by_cases he : t.entry.isSome = true
    · simp [he] at h
    · rw [if_neg he] at h
      by_cases h2 : leafKind t.leaf = 2
      · simp [h2]
      · rw [if_neg h2] at h
        by_cases h3 : leafKind t.leaf = 3
        · simp [h3]
        · rw [if_neg h3] at h
          by_cases h4 : leafNc t.leaf = true
          · simp [h4]
          · rw [if_neg h4] at h
            split at h
            · rename_i l hl; simp [hl]
            · simp at h
theorem loadLanes_quiet (s : State) (n : Nat) (g : Nat → Loc) (v : Nat → List Byte) (ls : List Nat) (h : ∀ l ∈ ls, s.quietRead n (g l) = some (v l)) :
    s.loadLanes n (ls.map (fun l => (l, g l))) = (ls.map (fun l => (l, ofBytes (v l))), s) := by
  induction ls with
  | nil => rfl
  | cons l r ih =>
    simp only [List.map_cons, State.loadLanes, quiet_load s n (g l) (v l) (h l (List.mem_cons_self ..)), ih (fun k hk => h k (List.mem_cons_of_mem _ hk))]
theorem maskOf_false (p : Nat → Bool) (h : ∀ l, p l = false) : maskOf p = 0 := by
  have : p = fun _ => false := funext h
  subst this
  apply BitVec.eq_of_getLsbD_eq
  intro i hi
  rw [maskOf_bit]; simp
theorem maySplit_none (s : State) (g : Nat → Loc) (ls : List Nat) (h : ∀ l ∈ ls, s.hitsL1 (g l) = true) :
    s.maySplit ((ls.map (fun l => (l, g l))).map (fun p => (p.1, [p.2]))) = s := by
  unfold State.maySplit
  have e : maskOf (fun l => match alGet ((ls.map (fun l => (l, g l))).map (fun p => (p.1, [p.2]))) l with
    | some xs => !xs.all s.hitsL1
    | none => false) = 0 := by
    apply maskOf_false
    intro l
    rw [List.map_map]
    by_cases hl : l ∈ ls
    · have := alGet_map (fun l => [g l]) ls l hl
      rw [show ((fun p : Nat × Loc => (p.1, [p.2])) ∘ fun l => (l, g l)) = (fun l => (l, [g l])) from rfl, this]
      simp [h l hl]
    · have : alGet (ls.map ((fun p : Nat × Loc => (p.1, [p.2])) ∘ fun l => (l, g l))) l = none := by
        have : ∀ r : List Nat, l ∉ r → alGet (r.map (fun l => (l, [g l]))) l = none := by
          intro r
          induction r with
          | nil => intro _; rfl
          | cons k r ih =>
            intro hk
            have : l ≠ k ∧ l ∉ r := by simpa using hk
            simp only [List.map_cons, alGet]
            rw [if_neg (fun e => this.1 e.symm), ih this.2]
        exact this ls hl
      rw [this]
  dsimp only
  generalize hm : maskOf _ = m
  have hm0 : m = 0 := by rw [← hm]; exact e
  rw [hm0]
  split
  · simp
  · rfl
theorem vecLoad_reads {i : Instr} {info : OpInfo} {w : Nat} {d : BitVec 7} {at_ : State → Nat → Addr} (hr : Runs i info (vecLoad w d at_))
   (hat : ∀ s l, at_ (s.atInstr i) l = at_ s l)
   (hd : ∀ s, ready i s = true → s.vname d.toNat = true ∧ (w = 8 → s.vname (d.toNat + 1) = true)) : ∀ s, ready i s = true →
    (∀ l, l < 32 → s.active.getLsbD l = true → ∃ x bs, (s.atInstr i).locate true .read (at_ s l) w = .ok x ∧
      (s.atInstr i).quietRead w x = some bs) →
    ∃ t, exec i s = .next t ∧
      (∀ l x bs, l < 32 → s.active.getLsbD l = true → (s.atInstr i).locate true .read (at_ s l) w = .ok x →
        (s.atInstr i).quietRead w x = some bs →
        if w = 8 then pairOf (t.regV d.toNat) (t.regV (d.toNat + 1)) l = BitVec.ofNat 64 (ofBytes bs)
        else laneOf (t.regV d.toNat) l = BitVec.ofNat 32 (ofBytes bs)) ∧
      t.cw.fst = s.cw.fst ∧ VectorFrame s t (fun n => n = d.toNat ∨ (w = 8 ∧ n = d.toNat + 1)) := by
  intro s h hall
  let u := s.atInstr i
  let g : Nat → Loc := fun l => match u.locate true .read (at_ s l) w with
    | .ok x => x
    | .error _ => .ing 0
  let v : Nat → List Byte := fun l => (u.quietRead w (g l)).getD []
  have hg : ∀ l, l < 32 → s.active.getLsbD l = true → u.locate true .read (at_ s l) w = .ok (g l) ∧ u.quietRead w (g l) = some (v l) := by
    intro l hl ha
    obtain ⟨x, bs, h1, h2⟩ := hall l hl ha
    have e : g l = x := by show (match u.locate true .read (at_ s l) w with | .ok x => x | .error _ => .ing 0) = x; rw [h1]
    rw [e]; refine ⟨h1, ?_⟩
    show _ = some ((u.quietRead w (g l)).getD [])
    rw [e, h2]; rfl
  let real := lanesOf s.activeReal
  let hlp := lanesOf (s.active &&& s.cw.helpers)
  have hreal : ∀ l ∈ real, l < 32 ∧ s.active.getLsbD l = true := by
    intro l hl
    have := (mem_lanesOf _ _).mp hl
    exact ⟨this.1, activeReal_sub s l this.2⟩
  have hhlp : ∀ l ∈ hlp, l < 32 ∧ s.active.getLsbD l = true := by
    intro l hl
    have := (mem_lanesOf _ _).mp hl
    rw [BitVec.getLsbD_and, Bool.and_eq_true] at this
    exact ⟨this.1, this.2.1⟩
  have hcov : ∀ l, l < 32 → s.active.getLsbD l = true → l ∈ real ++ hlp := by
    intro l hl ha
    rw [List.mem_append]
    by_cases hh : s.cw.helpers.getLsbD l = true
    · right; exact (mem_lanesOf _ _).mpr ⟨hl, by rw [BitVec.getLsbD_and, ha, hh]; rfl⟩
    · left; refine (mem_lanesOf _ _).mpr ⟨hl, ?_⟩
      unfold State.activeReal
      rw [BitVec.getLsbD_and, ha, BitVec.getLsbD_not]
      have hh' : s.cw.helpers.getLsbD l = false := by simpa using hh
      simp only [hl, hh']; rfl
  have hboth : ∀ l ∈ real ++ hlp, l < 32 ∧ s.active.getLsbD l = true := by
    intro l hl
    rcases List.mem_append.mp hl with h | h
    · exact hreal l h
    · exact hhlp l h
  have hask : ∀ (l : Nat), l < 32 → s.active.getLsbD l = true → (g l).asked u.issue.resp 0 w (fun p pa => askRead p w pa) = .ok none := by
    intro l hl ha
    exact quiet_asked u w (g l) (v l) _ (hg l hl ha).2
  have e1 : gather (fun l => u.locate true .read (at_ u l) w) (lanesOf u.activeReal) = .ok (real.map (fun l => (l, g l))) := by
    refine gather_ok _ g _ ?_
    intro l hl
    rw [hat s l]
    exact (hg l (hreal l hl).1 (hreal l hl).2).1
  have e2 : (lanesOf (u.active &&& u.cw.helpers)).filterMap (fun l => match u.locate true .read (at_ u l) w with
      | .ok x => some (l, x)
      | .error _ => none) = hlp.map (fun l => (l, g l)) := by
    show hlp.filterMap _ = _
    have : ∀ ls : List Nat, (∀ l ∈ ls, l < 32 ∧ s.active.getLsbD l = true) → ls.filterMap (fun l => match u.locate true .read (at_ u l) w with
      | .ok x => some (l, x)
      | .error _ => none) = ls.map (fun l => (l, g l)) := by
      intro ls
      induction ls with
      | nil => intro _; rfl
      | cons a r ih =>
        intro hls
        have ha := hls a (List.mem_cons_self ..)
        rw [List.filterMap_cons, List.map_cons, hat s a, (hg a ha.1 ha.2).1]
        dsimp only
        rw [ih (fun l hl => hls l (List.mem_cons_of_mem _ hl))]
    exact this hlp hhlp
  have e3 : (hlp.map (fun l => (l, g l))).filterMap (fun h => match h.2.asked u.issue.resp 0 w (fun p pa => askRead p w pa) with
      | .ok q => q
      | .error _ => none) = [] := by
    rw [List.filterMap_eq_nil_iff]
    intro x hx
    obtain ⟨l, hl, rfl⟩ := List.mem_map.mp hx
    dsimp only
    rw [hask l (hhlp l hl).1 (hhlp l hl).2]
  have e4 : (hlp.map (fun l => (l, g l))).filter (fun h => match h.2.asked u.issue.resp 0 w (fun p pa => askRead p w pa) with
      | .ok _ => true
      | .error _ => false) = hlp.map (fun l => (l, g l)) := by
    rw [List.filter_eq_self]
    intro x hx
    obtain ⟨l, hl, rfl⟩ := List.mem_map.mp hx
    dsimp only
    rw [hask l (hhlp l hl).1 (hhlp l hl).2]
  have e5 : lanesAsked u.issue.resp 0 (fun _ => w) (fun _ p pa => askRead p w pa) (real.map (fun l => (l, g l))) = .ok [] :=
    lanesAsked_none _ _ _ _ _ _ (fun l hl => hask l (hreal l hl).1 (hreal l hl).2)
  have e6 : u.maySplit ((real.map (fun l => (l, g l)) ++ hlp.map (fun l => (l, g l))).map (fun p => (p.1, [p.2]))) = u := by
    rw [← List.map_append]
    exact maySplit_none u g _ (fun l hl => quiet_hits u w (g l) (v l) (hg l (hboth l hl).1 (hboth l hl).2).2)
  have e7 : u.loadLanes w (real.map (fun l => (l, g l)) ++ hlp.map (fun l => (l, g l))) = ((real ++ hlp).map (fun l => (l, ofBytes (v l))), u) := by
    rw [← List.map_append]
    exact loadLanes_quiet u w g v _ (fun l hl => (hg l (hboth l hl).1 (hboth l hl).2).2)
  let val : Nat → DWord := fun l => BitVec.ofNat 64 ((alGet ((real ++ hlp).map (fun l => (l, ofBytes (v l)))) l).getD 0)
  have hb : vecLoad w d at_ u = .ok (if w = 8 then u.wrPair d.toNat u.active val else u.wrLanes d.toNat u.active (fun l => lowWord (val l))) := by
    unfold vecLoad
    dsimp only
    rw [e1]
    dsimp only
    rw [e5]
    generalize hH : List.filterMap _ (lanesOf (u.active &&& u.cw.helpers)) = H
    have hH' : H = hlp.map (fun l => (l, g l)) := by rw [← hH]; exact e2
    generalize hA : List.filterMap _ H = A
    have hA' : A = [] := by rw [← hA, hH']; exact e3
    generalize hF : List.filter _ H = F
    have hF' : F = hlp.map (fun l => (l, g l)) := by rw [← hF, hH']; exact e4
    rw [hA', hF']
    simp only [Except.map, List.append_nil, List.eraseDups_nil]
    rw [e6, e7]
  have hval : ∀ l, l < 32 → s.active.getLsbD l = true → val l = BitVec.ofNat 64 (ofBytes (v l)) := by
    intro l hl ha
    show BitVec.ofNat 64 ((alGet ((real ++ hlp).map (fun l => (l, ofBytes (v l)))) l).getD 0) = _
    rw [alGet_map (fun l => ofBytes (v l)) _ l (hcov l hl ha)]; rfl
  have hvv : ∀ l x bs, l < 32 → s.active.getLsbD l = true → u.locate true .read (at_ s l) w = .ok x → u.quietRead w x = some bs → v l = bs := by
    intro l x bs hl ha hx hq
    have h1 := (hg l hl ha)
    have : g l = x := by have := h1.1.symm.trans hx; simpa using this
    rw [this, hq] at h1
    simpa using h1.2.symm
  refine ⟨_, hr.ok h hb, ?_⟩
  by_cases h8 : w = 8
  · simp only [if_pos h8]
    obtain ⟨h1, h2, h3, h4, h5, h6⟩ := wrPair_spec u d.toNat u.active val (ready_list h) (hd s h).1 ((hd s h).2 h8)
    refine ⟨?_, (wrote_retire h h1).1.fst.trans h1.fst, ?_⟩
    · intro l x bs hl ha hx hq
      rw [(wrote_retire h h1).1.reads.regV, (wrote_retire h h1).1.reads.regV]
      refine pairOf_low_high _ _ _ _ ?_ ?_
      · rw [h5 l hl, if_pos (show u.active.getLsbD l = true from ha), hval l hl ha, hvv l x bs hl ha hx hq]
      · rw [h6 l hl, if_pos (show u.active.getLsbD l = true from ha), hval l hl ha, hvv l x bs hl ha hx hq]
    · refine vectorFrame_of _ h h1 h3 ?_ ?_ h4
      · intro n hn hp
        rw [not_or] at hp
        rw [h2 n hn hp.1 (fun e => hp.2 ⟨h8, e⟩)]; rfl
      · intro n l hn hl ha
        by_cases e : n = d.toNat
        · subst e; rw [h5 l hl, if_neg (by rw [show u.active = s.active from rfl, ha]; simp)]; rfl
        · by_cases e' : n = d.toNat + 1
          · subst e'; rw [h6 l hl, if_neg (by rw [show u.active = s.active from rfl, ha]; simp)]; rfl
          · rw [h2 n hn e e']; rfl
  · simp only [if_neg h8]
    obtain ⟨h1, h2, h3, h4, h5⟩ := wrLanes_spec u d.toNat u.active (fun l => lowWord (val l)) (ready_list h) (hd s h).1
    refine ⟨?_, (wrote_retire h h1).1.fst.trans h1.fst, ?_⟩
    · intro l x bs hl ha hx hq
      rw [(wrote_retire h h1).1.reads.regV, h5 l hl, if_pos (show u.active.getLsbD l = true from ha), hval l hl ha, hvv l x bs hl ha hx hq]
      unfold lowWord
      apply BitVec.eq_of_toNat_eq
      simp [BitVec.toNat_ofNat]
    · refine vectorFrame_of _ h h1 h3 ?_ ?_ h4
      · intro n hn hp
        rw [not_or] at hp
        rw [h2 n hn hp.1]; rfl
      · intro n l hn hl ha
        by_cases e : n = d.toNat
        · subst e; rw [h5 l hl, if_neg (by rw [show u.active = s.active from rfl, ha]; simp)]; rfl
        · rw [h2 n hn e]; rfl
theorem who_scr (s : State) (b off : Nat) (bs : List Byte) : (s.scratchWrite b off bs).who = s.who := by
  have hb : ∀ c, ((s.scratchWrite b off bs).block c).core = (s.block c).core ∧ ((s.scratchWrite b off bs).block c).launch = (s.block c).launch := by
    intro c
    rw [block_scratchWrite]
    split
    · rename_i h; rw [h.1]; exact ⟨rfl, rfl⟩
    · exact ⟨rfl, rfl⟩
  unfold State.who State.whoOfWarp State.coreOfWarp State.ctxOfWarp State.launchOf
  have h1 := (hb ((s.scratchWrite b off bs).warp (s.scratchWrite b off bs).issue.warp).blk)
  rw [h1.1, h1.2]
  rfl
theorem who_store (s : State) (bs : List Byte) (x : Loc) : (s.storeLoc bs x).who = s.who := by
  cases x with
  | scr b off => exact who_scr s b off bs
  | glob p t => exact who_aside (storeLoc_aside s bs (.glob p t) (by intros; simp))
  | ing off => rfl
theorem spares_kept (s u : State) (x : Loc) (n q : Nat) (hw : u.who = s.who) (k : Kept s.who.core q s u) (h : s.spares false x n q) : u.spares false x n q := by
  unfold State.spares at h ⊢
  cases x with
  | glob p t =>
    obtain ⟨h1, h2, h3, h4⟩ := h
    refine ⟨by rw [hw]; exact k.clean, h2, h3, fun a b => ?_⟩
    obtain ⟨e1, e2, e3⟩ := h4 a b
    refine ⟨e1, e2, fun kk m hk hm => e3 kk m (by rw [← k.key]; exact hk) ?_⟩
    unfold State.keyMat at hm ⊢; rw [← k.slots]; exact hm
  | scr b off => trivial
  | ing off => trivial
theorem fold_spares (bs : Nat → List Byte) (loc : Nat → Loc) (w q : Nat) (hbs : ∀ l, (bs l).length = w) (ls : List Nat) : ∀ s : State,
    s.lineClean s.who.core (q / 128) →
    (∀ l ∈ ls, s.spares false (loc l) w q ∧ ∀ p tr, loc l = .glob p tr → leafKind tr.leaf ≠ 2 → tr.pa / 128 ≠ q / 128) →
    (ls.foldl (fun u l => u.storeLoc (bs l) (loc l)) s).memByte q = s.memByte q := by
  induction ls with
  | nil => intro s _ _; rfl
  | cons a r ih =>
    intro s hc h
    have ha := h a (List.mem_cons_self ..)
    have k := storeLoc_kept s (bs a) (loc a) q (by rw [hbs]; exact ha.1) hc ha.2
    have hw := who_store s (bs a) (loc a)
    rw [List.foldl_cons, ih (s.storeLoc (bs a) (loc a)) (by rw [hw]; exact k.clean) ?_, k.byte]
    intro l hl
    have := h l (List.mem_cons_of_mem _ hl)
    exact ⟨spares_kept s _ _ _ _ hw k this.1, this.2⟩
theorem fold_noglob (bs : Nat → List Byte) (loc : Nat → Loc) (ls : List Nat) : ∀ s : State,
    (∀ l ∈ ls, ∀ p tr, loc l ≠ .glob p tr) → (ls.foldl (fun u l => u.storeLoc (bs l) (loc l)) s).mem = s.mem := by
  induction ls with
  | nil => intro s _; rfl
  | cons a r ih =>
    intro s h
    rw [List.foldl_cons, ih _ (fun l hl => h l (List.mem_cons_of_mem _ hl))]
    have := h a (List.mem_cons_self ..)
    cases e : loc a with
    | glob p t => exact absurd e (this p t)
    | scr b o => rfl
    | ing o => rfl
theorem fold_stays (bs : Nat → List Byte) (loc : Nat → Loc) (ls : List Nat) : ∀ s : State,
    SameReads s (ls.foldl (fun u l => u.storeLoc (bs l) (loc l)) s) ∧ (ls.foldl (fun u l => u.storeLoc (bs l) (loc l)) s).warps = s.warps ∧
     (ls.foldl (fun u l => u.storeLoc (bs l) (loc l)) s).issue = s.issue := by
  induction ls with
  | nil => intro s; exact ⟨SameReads.same s, rfl, rfl⟩
  | cons a r ih =>
    intro s
    obtain ⟨h1, h2, h3⟩ := store_stays s (bs a) (loc a)
    obtain ⟨k1, k2, k3⟩ := ih (s.storeLoc (bs a) (loc a))
    exact ⟨h1.trans k1, k2.trans h2, k3.trans h3⟩
theorem fold_scr (bs : Nat → List Byte) (loc : Nat → Loc) (w : Nat) (hbs : ∀ l, (bs l).length = w) (ls : List Nat) : ∀ s : State,
    (∀ l ∈ ls, ∃ c off, loc l = .scr c off ∧ c < s.blocks.length) →
    (∀ c n, (∀ l ∈ ls, ∀ off, loc l = .scr c off → ¬ (off ≤ n ∧ n < off + w)) →
      (ls.foldl (fun u l => u.storeLoc (bs l) (loc l)) s).scrByte c n = s.scrByte c n) := by
  induction ls with
  | nil => intro s _ c n _; rfl
  | cons a r ih =>
    intro s h c n hn
    obtain ⟨b, o, e, hb⟩ := h a (List.mem_cons_self ..)
    rw [List.foldl_cons, e]
    have hlen : (s.storeLoc (bs a) (.scr b o)).blocks.length = s.blocks.length := by
      show (s.blocks.set b _).length = _; simp
    rw [ih _ (fun l hl => by obtain ⟨c', o', e', h'⟩ := h l (List.mem_cons_of_mem _ hl); exact ⟨c', o', e', by rw [hlen]; exact h'⟩) c n
      (fun l hl => hn l (List.mem_cons_of_mem _ hl))]
    show (s.scratchWrite b o (bs a)).scrByte c n = _
    rw [scratchWrite_byte s b o _ hb, if_neg]
    rintro ⟨rfl, h1, h2⟩
    exact hn a (List.mem_cons_self ..) o e ⟨h1, by rw [hbs] at h2; exact h2⟩
theorem fold_scr_last (bs : Nat → List Byte) (loc : Nat → Loc) (w : Nat) (hbs : ∀ l, (bs l).length = w) (ls : List Nat) : ∀ s : State,
    ls.Pairwise (· < ·) → (∀ l ∈ ls, ∃ c off, loc l = .scr c off ∧ c < s.blocks.length) →
    (∀ l ∈ ls, ∀ c off k, loc l = .scr c off → k < w → (∀ m ∈ ls, ∀ o, l < m → loc m = .scr c o → ¬ (o ≤ off + k ∧ off + k < o + w)) →
      (ls.foldl (fun u l => u.storeLoc (bs l) (loc l)) s).scrByte c (off + k) = (bs l)[k]?.getD 0) := by
  induction ls with
  | nil => intro s _ _ l hl; simp at hl
  | cons a r ih =>
    intro s hp h l hl c off k e hk hm
    rw [List.pairwise_cons] at hp
    obtain ⟨b, o, ea, hb⟩ := h a (List.mem_cons_self ..)
    have hlen : (s.storeLoc (bs a) (.scr b o)).blocks.length = s.blocks.length := by
      show (s.blocks.set b _).length = _; simp
    have hr : ∀ l ∈ r, ∃ c off, loc l = .scr c off ∧ c < (s.storeLoc (bs a) (.scr b o)).blocks.length := by
      intro l hl
      obtain ⟨c', o', e', h'⟩ := h l (List.mem_cons_of_mem _ hl)
      exact ⟨c', o', e', by rw [hlen]; exact h'⟩
    rw [List.foldl_cons, ea]
    by_cases hlr : l ∈ r
    · exact ih _ hp.2 hr l hlr c off k e hk (fun m hm' => hm m (List.mem_cons_of_mem _ hm'))
    · have : l = a := by rcases List.mem_cons.mp hl with h | h; exact h; exact absurd h hlr
      subst this
      rw [ea] at e
      injection e with e1 e2
      subst e1; subst e2
      rw [fold_scr bs loc w hbs r _ hr b (o + k) (fun m hm' o' eo => hm m (List.mem_cons_of_mem _ hm') o' (hp.1 m hm') eo)]
      show (s.scratchWrite b o (bs l)).scrByte b (o + k) = _
      rw [scratchWrite_byte s b o _ hb, if_pos ⟨rfl, by omega, by rw [hbs]; omega⟩, show o + k - o = k by omega]
theorem lanesOf_sorted (m : Mask) : (lanesOf m).Pairwise (· < ·) := by
  unfold lanesOf
  exact List.Pairwise.filter _ List.pairwise_lt_range
theorem vecStore_stores {i : Instr} {info : OpInfo} {w : Nat} {d : BitVec 7} {at_ : State → Nat → Addr} (hr : Runs i info (vecStore w d at_))
    (hat : ∀ s l, at_ (s.atInstr i) l = at_ s l) : ∀ s (loc : Nat → Loc), ready i s = true →
    let on := fun (l : Nat) => l < 32 ∧ s.activeReal.getLsbD l = true
    let val := fun (l : Nat) => if w = 8 then (s.lane64 d.toNat l).toNat else (s.lane d.toNat l).toNat
    (∀ l, on l → (s.atInstr i).locate true .write (at_ s l) w = .ok (loc l) ∧
      (loc l).asked s.issue.resp 3 (w + 256 * (l + 1))
        (fun p pa => { askWrite p pa (toBytes w (val l)) with n := w + 256 * (l + 1) }) = .ok none) →
    ∃ t, exec i s = .next t ∧
      t = s.retired i ((lanesOf s.activeReal).foldl (fun u l => u.storeLoc (toBytes w (val l)) (loc l)) (s.atInstr i)) ∧
      ((∀ l, on l → ∃ c off, loc l = .scr c off ∧ c < s.blocks.length) →
        t.mem = s.mem ∧ (∀ c n, (∀ l off, on l → loc l = .scr c off → ¬ (off ≤ n ∧ n < off + w)) →
          t.scrByte c n = s.scrByte c n) ∧
        (∀ l c off k, on l → loc l = .scr c off → k < w →
          (∀ m o, on m → l < m → loc m = .scr c o → ¬ (o ≤ off + k ∧ off + k < o + w)) →
          t.scrByte c (off + k) = BitVec.ofNat 8 (val l / 2 ^ (8 * k)))) ∧
      (∀ q, (∀ l, on l → (s.atInstr i).spares false (loc l) w q ∧
          ∀ p tr, loc l = .glob p tr → leafKind tr.leaf ≠ 2 → tr.pa / 128 ≠ q / 128) → t.memByte q = s.memByte q) ∧
      (∀ n, t.regS n = s.regS n) ∧ (∀ n, t.regV n = s.regV n) ∧ (∀ n, t.regK n = s.regK n) ∧ t.cw.fst = s.cw.fst ∧
      SameControl s.cw t.cw ∧ (∀ v, v ≠ s.issue.warp → t.warp v = s.warp v) := by
  intro s loc h
  dsimp only
  intro hall
  have onLane : ∀ l ∈ lanesOf s.activeReal, l < 32 ∧ s.activeReal.getLsbD l = true := fun l hl => (mem_lanesOf _ _).mp hl
  let val := fun (l : Nat) => if w = 8 then (s.lane64 d.toNat l).toNat else (s.lane d.toNat l).toNat
  let bs := fun l => toBytes w (val l)
  have hbs : ∀ l, (bs l).length = w := fun l => toBytes_length _ _
  have hb : vecStore w d at_ (s.atInstr i) = .ok ((lanesOf s.activeReal).foldl (fun u l => u.storeLoc (bs l) (loc l)) (s.atInstr i)) := by
    unfold vecStore
    dsimp only
    have e1 : gather (fun l => (s.atInstr i).locate true .write (at_ (s.atInstr i) l) w) (lanesOf (s.atInstr i).activeReal) = .ok ((lanesOf s.activeReal).map (fun l => (l, loc l))) := by
      refine gather_ok _ loc _ ?_
      intro l hl
      rw [hat]
      exact (hall l (onLane l hl)).1
    rw [e1]
    dsimp only
    have e2 := lanesAsked_none s.issue.resp 3 (fun l => w + 256 * (l + 1))
      (fun l p pa => { askWrite p pa (bs l) with n := w + 256 * (l + 1) }) loc _ (fun l hl => (hall l (onLane l hl)).2)
    generalize hL : lanesAsked (s.atInstr i).issue.resp 3 _ _ _ = L
    have : L = .ok [] := by rw [← hL]; exact e2
    rw [this]
    dsimp only
    rw [List.foldl_map]
    rfl
  obtain ⟨g, gw, gi⟩ := fold_stays bs loc (lanesOf s.activeReal) (s.atInstr i)
  have hex := hr.ok h hb
  refine ⟨_, hex, rfl, ?_⟩
  generalize hT : (lanesOf s.activeReal).foldl (fun u l => u.storeLoc (bs l) (loc l)) (s.atInstr i) = T at *
  have k := retire_of_warps (i := i) h gw gi
  have hcw : T.cw = s.cw := by unfold State.cw State.warp; rw [gw, gi]; rfl
  have hscr : ∀ c n, (s.retired i T).scrByte c n = T.scrByte c n := by
    intro c n; unfold State.scrByte State.block; rw [k.elsewhere.blocks]
  refine ⟨?_, ?_, fun n => by rw [k.reads.regS, g.regS]; rfl, fun n => by rw [k.reads.regV, g.regV]; rfl, fun n => by rw [k.reads.regK, g.regK]; rfl, ?_, ?_, ?_⟩
  · intro hs
    have hs' : ∀ l ∈ lanesOf s.activeReal, ∃ c off, loc l = .scr c off ∧ c < (s.atInstr i).blocks.length := fun l hl => hs l (onLane l hl)
    refine ⟨?_, ?_, ?_⟩
    · rw [k.elsewhere.mem, ← hT]
      exact fold_noglob bs loc _ _ (fun l hl p tr e => by obtain ⟨c, o, e', _⟩ := hs' l hl; rw [e'] at e; simp at e)
    · intro c n hn
      rw [hscr, ← hT]
      exact fold_scr bs loc w hbs _ _ hs' c n (fun l hl off e => hn l off (onLane l hl) e)
    · intro l c off kk hl e hk hm
      rw [hscr, ← hT, fold_scr_last bs loc w hbs _ _ (lanesOf_sorted _) hs' l ((mem_lanesOf _ _).mpr hl) c off kk e hk
        (fun m hm' o hlt eo => hm m o (onLane m hm') hlt eo)]
      show (toBytes w (val l))[kk]?.getD 0 = _
      rw [toBytes_get _ _ _ hk]; rfl
  · intro q hq
    unfold State.memByte
    rw [k.elsewhere.mem]
    show T.memByte q = _
    rw [← hT]
    by_cases hc : (s.atInstr i).lineClean (s.atInstr i).who.core (q / 128)
    · exact fold_spares bs loc w q hbs _ _ hc (fun l hl => hq l (onLane l hl))
    · have := fold_noglob bs loc (lanesOf s.activeReal) (s.atInstr i) (fun l hl p tr e => by
        have := (hq l (onLane l hl)).1
        rw [e] at this
        exact hc this.1)
      unfold State.memByte; rw [this]; rfl
  · rw [k.fst, hcw]
  · have := k.control; rw [hcw] at this; exact this
  · intro v hv
    rw [k.elsewhere.warps v (by rw [gi]; exact hv)]
    unfold State.warp; rw [gw]; rfl
theorem settle_trap' (s0 : State) (info : OpInfo) (w : Word) (x : TrapInfo) (s : State) (h : x.cause ≠ .page ∨ x.sub ≠ 2) :
    State.settle s0 info w (.trap x s) = s.raise x := by
  show (if s.inMiss then s else s.markTrap x).raise x = _
  have : s.markTrap x = s := by
    unfold State.markTrap
    rw [if_neg (by simp; tauto)]
  rw [this, ite_self]
theorem stops_at {i : Instr} {info : OpInfo} {body : Body} (hr : Runs i info body) {s : State} {x : TrapInfo} (hx : x.cause ≠ .page ∨ x.sub ≠ 2)
    (h : ready i s = true) (hb : body (s.atInstr i) = .error (.trap x (s.atInstr i))) : exec i s = .next ((s.atInstr i).raise x) := by
  rw [hr.stop h hb, settle_trap' _ _ _ _ _ hx]
theorem updateLanes_get (n : Nat) (f : Nat → Nat → Nat × Nat) (ls : List (Nat × Loc)) : ∀ (s : State) (l : Nat), (l ∈ ls.map Prod.fst) → (alGet (s.updateLanes n f ls).1 l).isSome = true := by
  induction ls with
  | nil => intro s l h; simp at h
  | cons x r ih =>
    intro s l h
    obtain ⟨k, x⟩ := x
    unfold State.updateLanes
    simp only [alGet]
    by_cases e : k = l
    · simp [e]
    · rw [if_neg e]
      refine ih _ l ?_
      simp only [List.map_cons, List.mem_cons] at h
      rcases h with h | h
      · exact absurd h.symm e
      · exact h
theorem updateLoc_kept (s : State) (n : Nat) (f : Nat → Nat × Nat) (x : Loc) (q : Nat) (h : s.spares true x n q)
    (hc : s.lineClean s.who.core (q / 128))
    (ho : ∀ p t, x = .glob p t → t.pa / 128 ≠ q / 128) : Kept s.who.core q s (s.updateLoc n f x).2 := by
  unfold State.updateLoc
  cases x with
  | glob p t =>
    obtain ⟨h1, h2, h3, h4⟩ := h
    simp only
    have k1 : Kept s.who.core q s (s.homeRead s.who (field p 0 57) n t true).2 := by
      unfold State.homeRead
      simp only
      have k1 := touch_kept s s.who (field p 0 57) t true rfl h1 h2
      split
      · exact k1
      · simp only [show s.who.fab = false from rfl, Bool.false_eq_true, if_false]
        exact k1.trans (pullLine_kept _ _ k1.clean)
    have hwho := who_aside (homeRead_aside s s.who (field p 0 57) n t true rfl)
    generalize s.homeRead s.who (field p 0 57) n t true = r at *
    obtain ⟨bs, u⟩ := r
    dsimp only at k1 hwho ⊢
    generalize f (ofBytes bs) = z
    obtain ⟨new, ans⟩ := z
    dsimp only
    unfold State.homeWrite
    rw [hwho]
    have k2 := touch_kept u s.who (field p 0 57) t true rfl k1.clean h2
    generalize u.touch s.who (field p 0 57) t true = v at *
    dsimp only
    rw [if_neg (show ¬ s.who.fab = true from Bool.false_ne_true)]
    have k3 := (k1.trans k2).trans (pullLine_kept v (t.pa / 128) k2.clean)
    exact k3.trans (physWriteKey_kept _ _ _ _ k3.clean (by
      have := ho p t rfl
      rw [toBytes_length]; omega) (ho p t rfl))
  | scr b off => exact Kept.parts hc rfl rfl rfl rfl
  | ing off => exact Kept.same hc
theorem who_update (s : State) (n : Nat) (f : Nat → Nat × Nat) (x : Loc) : (s.updateLoc n f x).2.who = s.who := by
  cases x with
  | scr b off => exact who_scr s b off _
  | glob p t => exact who_aside (updateLoc_aside s n f p t)
  | ing off => rfl
theorem spares_kept' (hm : Bool) (s u : State) (x : Loc) (n q : Nat) (hw : u.who = s.who) (k : Kept s.who.core q s u) (h : s.spares hm x n q) : u.spares hm x n q := by
  unfold State.spares at h ⊢
  cases x with
  | glob p t =>
    obtain ⟨h1, h2, h3, h4⟩ := h
    refine ⟨by rw [hw]; exact k.clean, h2, h3, fun a b => ?_⟩
    obtain ⟨e1, e2, e3⟩ := h4 a b
    refine ⟨e1, e2, fun kk m hk hm => e3 kk m (by rw [← k.key]; exact hk) ?_⟩
    unfold State.keyMat at hm ⊢; rw [← k.slots]; exact hm
  | scr b off => trivial
  | ing off => trivial
/-- one lane of updateLanes -/
theorem lane_kept (s : State) (n : Nat) (f : Nat → Nat → Nat × Nat) (l : Nat) (x : Loc) (q : Nat) (h : s.spares true x n q)
    (hc : s.lineClean s.who.core (q / 128)) (ho : ∀ p t, x = .glob p t → leafKind t.leaf ≠ 2 → t.pa / 128 ≠ q / 128) :
    Kept s.who.core q s (s.updateLanes n f [(l, x)]).2 ∧ (s.updateLanes n f [(l, x)]).2.who = s.who := by
  unfold State.updateLanes
  simp only [State.updateLanes]
  cases x with
  | glob p t =>
    simp only
    by_cases hk : leafKind t.leaf = 2
    · rw [if_pos hk]
      obtain ⟨h1, h2, h3, h4⟩ := h
      exact ⟨touch_kept s s.who (field p 0 57) t true rfl h1 h2, who_aside (touch_aside s s.who _ t true rfl)⟩
    · rw [if_neg hk]
      refine ⟨updateLoc_kept s n (f l) _ q h hc (fun p' t' e => ?_), who_update s n (f l) _⟩
      exact ho p' t' e (by injection e with e1 e2; rw [← e2]; exact hk)
  | scr b off => exact ⟨updateLoc_kept s n (f l) _ q h hc (by intros; simp_all), who_update s n (f l) _⟩
  | ing off => exact ⟨updateLoc_kept s n (f l) _ q h hc (by intros; simp_all), who_update s n (f l) _⟩
theorem updateLanes_cons (s : State) (n : Nat) (f : Nat → Nat → Nat × Nat) (x : Nat × Loc) (r : List (Nat × Loc)) :
    (s.updateLanes n f (x :: r)).2 = ((s.updateLanes n f [x]).2.updateLanes n f r).2 := by
  obtain ⟨l, x⟩ := x
  simp only [State.updateLanes]
theorem lanes_spares (n : Nat) (f : Nat → Nat → Nat × Nat) (q : Nat) (ls : List (Nat × Loc)) : ∀ s : State, s.lineClean s.who.core (q / 128) →
    (∀ x ∈ ls, s.spares true x.2 n q ∧ ∀ p t, x.2 = .glob p t → leafKind t.leaf ≠ 2 → t.pa / 128 ≠ q / 128) →
    (s.updateLanes n f ls).2.memByte q = s.memByte q := by
  induction ls with
  | nil => intro s _ _; rfl
  | cons a r ih =>
    intro s hc h
    obtain ⟨h1, h2⟩ := h a (List.mem_cons_self ..)
    obtain ⟨k, kw⟩ := lane_kept s n f a.1 a.2 q h1 hc h2
    rw [updateLanes_cons, ih _ (by rw [kw]; exact k.clean) ?_, k.byte]
    intro x hx
    have := h x (List.mem_cons_of_mem _ hx)
    exact ⟨spares_kept' true s _ _ _ _ kw k this.1, this.2⟩
theorem lanes_noglob (n : Nat) (f : Nat → Nat → Nat × Nat) (ls : List (Nat × Loc)) : ∀ s : State, (∀ x ∈ ls, ∀ p t, x.2 ≠ .glob p t) →
    (s.updateLanes n f ls).2.mem = s.mem := by
  induction ls with
  | nil => intro s _; rfl
  | cons a r ih =>
    intro s h
    rw [updateLanes_cons, ih _ (fun x hx => h x (List.mem_cons_of_mem _ hx))]
    have := h a (List.mem_cons_self ..)
    obtain ⟨l, x⟩ := a
    cases x with
    | glob p t => exact absurd rfl (this p t)
    | scr b o => rfl
    | ing o => rfl
theorem scr_outside (s : State) (b off : Nat) (bs : List Byte) (c k : Nat) (h : c = b → ¬ (off ≤ k ∧ k < off + bs.length)) :
    (s.scratchWrite b off bs).scrByte c k = s.scrByte c k := by
  by_cases hb : b < s.blocks.length
  · rw [scratchWrite_byte s b off bs hb, if_neg (fun e => h e.1 e.2)]
  · unfold State.scrByte
    rw [block_scratchWrite, if_neg (fun e => hb e.2)]
theorem lanes_scr (n : Nat) (f : Nat → Nat → Nat × Nat) (c k : Nat) (ls : List (Nat × Loc)) : ∀ s : State,
    (∀ x ∈ ls, ∀ off, x.2 = .scr c off → ¬ (off ≤ k ∧ k < off + n)) → (s.updateLanes n f ls).2.scrByte c k = s.scrByte c k := by
  induction ls with
  | nil => intro s _; rfl
  | cons a r ih =>
    intro s h
    rw [updateLanes_cons, ih _ (fun x hx => h x (List.mem_cons_of_mem _ hx))]
    have ha := h a (List.mem_cons_self ..)
    obtain ⟨l, x⟩ := a
    cases x with
    | glob p t =>
      have : (s.updateLanes n f [(l, Loc.glob p t)]).2.aside = s.aside := by
        simp only [State.updateLanes]
        split
        · exact touch_aside s s.who _ t true rfl
        · exact updateLoc_aside s n (f l) p t
      unfold State.scrByte State.block
      unfold State.aside at this
      simp only [Prod.mk.injEq] at this
      rw [this.2.1]
    | scr b o =>
      show (s.scratchWrite b o _).scrByte c k = _
      refine scr_outside s b o _ c k (fun e => ?_)
      rw [toBytes_length]
      exact ha o (by rw [e])
    | ing o => rfl
theorem lanesOf_single (m : Mask) (l : Nat) (hl : l < 32 ∧ m.getLsbD l = true) (ho : ∀ k, (k < 32 ∧ m.getLsbD k = true) → k = l) : lanesOf m = [l] := by
  have hp : (lanesOf m).Pairwise (· < ·) := lanesOf_sorted m
  have hm : ∀ k, k ∈ lanesOf m ↔ k = l := fun k => by
    rw [mem_lanesOf]
    exact ⟨fun h => ho k h, fun h => h ▸ hl⟩
  generalize lanesOf m = ls at *
  match ls with
  | [] => exact absurd ((hm l).mpr rfl) (by simp)
  | [a] => rw [(hm a).mp (List.mem_singleton.mpr rfl)]
  | a :: b :: r =>
    have e1 := (hm a).mp (by simp)
    have e2 := (hm b).mp (by simp)
    rw [List.pairwise_cons] at hp
    have := hp.1 b (by simp)
    omega
theorem atom_ok {i : Instr} {info : OpInfo} {n op : Nat} {det : Bool} {a b : BitVec 7} {opnds : State → Nat → List DWord}
    {f : State → Nat → Nat → Nat × Nat} {wr : State → (Nat → DWord) → State} (hr : Runs i info (fun s => atomBody det n op a b opnds f (wr) s))
    {s : State} {loc : Nat → Loc} (h : ready i s = true)
    (hl : ∀ l, l < 32 → s.activeReal.getLsbD l = true → (s.atInstr i).locate false .write (objAddr (s.rdS a.toNat) ((s.lane b.toNat l).toNat : Int)) n = .ok (loc l) ∧
      (∀ p t, loc l = .glob p t → leafKind t.leaf = 2 → ∃ v, hostAns s.issue.resp 1 p (n + 256 * (l + 1)) = some (.ok v)))
    (hd : det = true → s.cw.det = true → fieldOf (s.rdS a.toNat) 57 3 = 1 ∧ (s.atInstr i).atomNext = true ∧
      ∀ l, l < 32 → s.activeReal.getLsbD l = true → (s.atInstr i).otherRank (objAddr (s.rdS a.toNat) ((s.lane b.toNat l).toNat : Int)) = false) :
    exec i s = .next (s.retired i (wr ((s.atInstr i).updateLanes n (f (s.atInstr i)) ((lanesOf s.activeReal).map (fun l => (l, loc l)))).2
      (fun l => BitVec.ofNat 64 ((alGet ((s.atInstr i).updateLanes n (f (s.atInstr i)) ((lanesOf s.activeReal).map (fun l => (l, loc l)))).1 l).getD 0)))) := by
  have onLane : ∀ l ∈ lanesOf s.activeReal, l < 32 ∧ s.activeReal.getLsbD l = true := fun l hl => (mem_lanesOf _ _).mp hl
  refine hr.ok h ?_
  unfold atomBody
  simp only
  have hdet : (s.atInstr i).cw.det = s.cw.det := rfl
  have hrd : (s.atInstr i).rdS a.toNat = s.rdS a.toNat := rfl
  have hact : lanesOf (s.atInstr i).activeReal = lanesOf s.activeReal := rfl
  have hln : ∀ l, (s.atInstr i).lane b.toNat l = s.lane b.toNat l := fun _ => rfl
  rw [hdet, hrd, hact]
  simp only [hln]
  have c1 : ¬ ((det && s.cw.det && (decide (fieldOf (s.rdS a.toNat) 57 3 = 0) || (decide (fieldOf (s.rdS a.toNat) 57 3 = 1) &&
      (lanesOf s.activeReal).any (fun l => (s.atInstr i).otherRank (objAddr (s.rdS a.toNat) ((s.lane b.toNat l).toNat : Int)))))) = true) := by
    intro hc
    simp only [Bool.and_eq_true, Bool.or_eq_true, decide_eq_true_eq] at hc
    obtain ⟨⟨h1, h2⟩, h3⟩ := hc
    obtain ⟨k1, -, k3⟩ := hd h1 h2
    rcases h3 with h3 | ⟨-, h3⟩
    · omega
    · obtain ⟨l, hl1, hl2⟩ := List.any_eq_true.mp h3
      have := onLane l hl1
      rw [k3 l this.1 this.2] at hl2
      simp at hl2
  rw [if_neg c1]
  rw [gather_ok _ loc _ (fun l hl' => (hl l (onLane l hl').1 (onLane l hl').2).1)]
  simp only
  have c2 : ¬ ((det && s.cw.det && decide (lanesOf s.activeReal ≠ []) && !(s.atInstr i).atomNext) = true) := by
    intro hc
    simp only [Bool.and_eq_true] at hc
    obtain ⟨⟨⟨h1, h2⟩, -⟩, h3⟩ := hc
    rw [(hd h1 h2).2.1] at h3
    simp at h3
  rw [if_neg c2]
  have e2 := lanesAsked_none s.issue.resp 1 (fun l => n + 256 * (l + 1)) (fun l p pa => ⟨1, p, n + 256 * (l + 1), pa, op, opnds (s.atInstr i) l, [], none⟩) loc (lanesOf s.activeReal) (by
    intro l hl'
    have := (hl l (onLane l hl').1 (onLane l hl').2).2
    unfold Loc.asked
    cases e : loc l with
    | glob p t =>
      simp only
      by_cases hk : leafKind t.leaf = 2
      · obtain ⟨v, hv⟩ := this p t e hk
        rw [if_pos hk, hv]
      · rw [if_neg hk]
    | scr b o => rfl
    | ing o => rfl)
  rw [show (s.atInstr i).issue.resp = s.issue.resp from rfl, e2]
theorem atom_all {i : Instr} {info : OpInfo} {n op : Nat} {det : Bool} {d a b : BitVec 7} {opnds : State → Nat → List DWord}
    {f g : State → Nat → Nat → Nat × Nat} {wr : State → (Nat → DWord) → State} (hr : Runs i info (fun s => atomBody det n op a b opnds f (wr) s))
    (hfg : ∀ s, f (s.atInstr i) = g s)
    (hwr : ∀ s u v, ready i s = true → Apart (s.atInstr i) u → Stays (wr u v) (s.retired i (wr u v)) ∧ (wr u v).blocks = u.blocks ∧ (wr u v).mem = u.mem ∧
       RegisterFrame s (s.retired i (wr u v)) (fun _ => False) (fun j => j = d.toNat ∨ (n = 8 ∧ j = d.toNat + 1)) ∧
       (∀ l, l < 32 → s.activeReal.getLsbD l = true → laneOf ((s.retired i (wr u v)).regV d.toNat) l = lowWord (v l) ∧
         (n = 8 → laneOf ((s.retired i (wr u v)).regV (d.toNat + 1)) l = highWord (v l)))) :
    ∀ s (loc : Nat → Loc),
    let u := s.atInstr i
    let on := fun (l : Nat) => l < 32 ∧ s.activeReal.getLsbD l = true
    let at_ := fun (l : Nat) => objAddr (s.rdS a.toNat) ((s.lane b.toNat l).toNat : Int)
    ready i s = true →
    (∀ l, on l → u.locate false .write (at_ l) n = .ok (loc l) ∧
      (∀ p t, loc l = .glob p t → leafKind t.leaf = 2 → ∃ v, hostAns s.issue.resp 1 p (n + 256 * (l + 1)) = some (.ok v))) →
    (det = true → s.cw.det = true → fieldOf (s.rdS a.toNat) 57 3 = 1 ∧ u.atomNext = true ∧ ∀ l, on l → u.otherRank (at_ l) = false) →
    let r := u.updateLanes n (g s) ((lanesOf s.activeReal).map (fun l => (l, loc l)))
    ∃ t, exec i s = .next t ∧ t.mem = r.2.mem ∧ t.blocks = r.2.blocks ∧
      (∀ l v, on l → alGet r.1 l = some v → laneOf (t.regV d.toNat) l = BitVec.ofNat 32 v ∧
        (n = 8 → laneOf (t.regV (d.toNat + 1)) l = BitVec.ofNat 32 (v / 2 ^ 32))) ∧
      (∀ l c off, on l → (∀ m, on m → m = l) → loc l = .scr c off → c < s.blocks.length →
        let old := ofBytes (u.scratchRead c off n)
        laneOf (t.regV d.toNat) l = BitVec.ofNat 32 (g s l old).2 ∧
        ∀ k, k < n → t.scrByte c (off + k) = BitVec.ofNat 8 ((g s l old).1 / 2 ^ (8 * k))) ∧
      (∀ c k, (∀ l off, on l → loc l = .scr c off → ¬ (off ≤ k ∧ k < off + n)) → t.scrByte c k = s.scrByte c k) ∧
      (∀ q, (∀ l, on l → u.spares true (loc l) n q ∧ ∀ p t, loc l = .glob p t → leafKind t.leaf ≠ 2 → t.pa / 128 ≠ q / 128) →
        t.memByte q = s.memByte q) ∧
      RegisterFrame s t (fun _ => False) (fun j => j = d.toNat ∨ (n = 8 ∧ j = d.toNat + 1)) := by
  intro s loc
  dsimp only
  intro h hl hd
  have onLane : ∀ l ∈ lanesOf s.activeReal, l < 32 ∧ s.activeReal.getLsbD l = true := fun l hl => (mem_lanesOf _ _).mp hl
  have hex := atom_ok hr h (loc := loc) (fun l h1 h2 => hl l ⟨h1, h2⟩) (fun h1 h2 => by
    obtain ⟨a1, a2, a3⟩ := hd h1 h2
    exact ⟨a1, a2, fun l x y => a3 l ⟨x, y⟩⟩)
  rw [hfg s] at hex
  have hap := Apart.updateLanes n (g s) ((lanesOf s.activeReal).map (fun l => (l, loc l))) (s.atInstr i)
  have hcons : ∀ l c off, lanesOf s.activeReal = [l] → loc l = .scr c off → (s.atInstr i).updateLanes n (g s) ((lanesOf s.activeReal).map (fun l => (l, loc l))) =
     ([(l, (g s l (ofBytes ((s.atInstr i).scratchRead c off n))).2)], (s.atInstr i).scratchWrite c off (toBytes n (g s l (ofBytes ((s.atInstr i).scratchRead c off n))).1)) := by
    intro l c off e1 e2
    rw [e1]
    simp only [List.map_cons, List.map_nil, e2, State.updateLanes, State.updateLoc]
  have hsp : ∀ q, (∀ l, (l < 32 ∧ s.activeReal.getLsbD l = true) → (s.atInstr i).spares true (loc l) n q ∧ ∀ p t, loc l = .glob p t → leafKind t.leaf ≠ 2 → t.pa / 128 ≠ q / 128) →
        ((s.atInstr i).updateLanes n (g s) ((lanesOf s.activeReal).map (fun l => (l, loc l)))).2.memByte q = s.memByte q := by
    intro q hq
    have hall : ∀ x ∈ (lanesOf s.activeReal).map (fun l => (l, loc l)), (s.atInstr i).spares true x.2 n q ∧ ∀ p t, x.2 = .glob p t → leafKind t.leaf ≠ 2 → t.pa / 128 ≠ q / 128 := by
      intro x hx
      obtain ⟨l, hl', rfl⟩ := List.mem_map.mp hx
      exact hq l (onLane l hl')
    by_cases hc : (s.atInstr i).lineClean (s.atInstr i).who.core (q / 128)
    · exact lanes_spares n (g s) q _ _ hc hall
    · have := lanes_noglob n (g s) ((lanesOf s.activeReal).map (fun l => (l, loc l))) (s.atInstr i) (fun x hx p t e => by
        have := (hall x hx).1
        rw [e] at this
        exact hc this.1)
      unfold State.memByte; rw [this]; rfl
  have hscr : ∀ c k, (∀ l off, (l < 32 ∧ s.activeReal.getLsbD l = true) → loc l = .scr c off → ¬ (off ≤ k ∧ k < off + n)) →
      ((s.atInstr i).updateLanes n (g s) ((lanesOf s.activeReal).map (fun l => (l, loc l)))).2.scrByte c k = s.scrByte c k := by
    intro c k hk
    exact lanes_scr n (g s) c k _ (s.atInstr i) (fun x hx off e => by
      obtain ⟨l, hl', rfl⟩ := List.mem_map.mp hx
      exact hk l off (onLane l hl') e)
  generalize (s.atInstr i).updateLanes n (g s) ((lanesOf s.activeReal).map (fun l => (l, loc l))) = r at *
  obtain ⟨k, k1, k2, k3, k4⟩ := hwr s r.2 (fun l => BitVec.ofNat 64 ((alGet r.1 l).getD 0)) h hap
  have eb : (s.retired i (wr r.2 (fun l => BitVec.ofNat 64 ((alGet r.1 l).getD 0)))).blocks = r.2.blocks := k.elsewhere.blocks.trans k1
  have em : (s.retired i (wr r.2 (fun l => BitVec.ofNat 64 ((alGet r.1 l).getD 0)))).mem = r.2.mem := k.elsewhere.mem.trans k2
  have esc : ∀ c k, (s.retired i (wr r.2 (fun l => BitVec.ofNat 64 ((alGet r.1 l).getD 0)))).scrByte c k = r.2.scrByte c k := by
    intro c k; unfold State.scrByte State.block; rw [eb]
  have low : ∀ v, lowWord (BitVec.ofNat 64 v) = BitVec.ofNat 32 v := by
    intro v; unfold lowWord; apply BitVec.eq_of_toNat_eq; simp [BitVec.toNat_ofNat]
  have high : ∀ v, highWord (BitVec.ofNat 64 v) = BitVec.ofNat 32 (v / 2 ^ 32) := by
    intro v; unfold highWord; apply BitVec.eq_of_toNat_eq
    simp only [BitVec.extractLsb'_toNat, BitVec.toNat_ofNat, Nat.shiftRight_eq_div_pow]
    omega
  refine ⟨_, hex, em, eb, ?_, ?_, ?_, ?_, k3⟩
  · intro l v ho hv
    have := k4 l ho.1 ho.2
    rw [hv] at this
    refine ⟨this.1.trans (low v), fun h8 => (this.2 h8).trans (high v)⟩
  · intro l c off ho hone e hc
    have e1 := lanesOf_single s.activeReal l ho hone
    have er := hcons l c off e1 e
    have := k4 l ho.1 ho.2
    constructor
    · have e3 := this.1
      rw [low] at e3
      rw [e3, er]; simp [alGet]
    · intro k' hk'
      rw [esc, er]
      show ((s.atInstr i).scratchWrite c off _).scrByte c (off + k') = _
      rw [scratchWrite_byte (s.atInstr i) c off _ hc, if_pos ⟨rfl, by omega, by rw [toBytes_length]; omega⟩, show off + k' - off = k' by omega, toBytes_get _ _ _ hk']; rfl
  · intro c k' hk
    rw [esc]; exact hscr c k' hk
  · intro q hq
    unfold State.memByte; rw [em]; exact hsp q hq
theorem wr_one {i : Instr} {n : Nat} {d : BitVec 7} (h8 : n ≠ 8) (hd : ∀ s, ready i s = true → s.vname d.toNat = true) : ∀ (s u : State) (v : Nat → DWord), ready i s = true → Apart (s.atInstr i) u →
    let wr := fun (s : State) (v : Nat → DWord) => s.wrLanes d.toNat s.active (fun l => lowWord (v l))
    Stays (wr u v) (s.retired i (wr u v)) ∧ (wr u v).blocks = u.blocks ∧ (wr u v).mem = u.mem ∧
       RegisterFrame s (s.retired i (wr u v)) (fun _ => False) (fun j => j = d.toNat ∨ (n = 8 ∧ j = d.toNat + 1)) ∧
       (∀ l, l < 32 → s.activeReal.getLsbD l = true → laneOf ((s.retired i (wr u v)).regV d.toNat) l = lowWord (v l) ∧
         (n = 8 → laneOf ((s.retired i (wr u v)).regV (d.toNat + 1)) l = highWord (v l))) := by
  intro s u v h a
  dsimp only
  have hu : u.issue.warp < u.warps.length := by rw [a.issue, a.warps]; exact ready_list h
  have hact : u.active = s.active := a.active
  obtain ⟨h1, h2, h3, h4, h5⟩ := wrLanes_spec u d.toNat u.active (fun l => lowWord (v l)) hu (by rw [a.vname]; exact hd s h)
  obtain ⟨k1, k2⟩ := registerFrame_of (i := i) (fun _ => False) (fun j => j = d.toNat ∨ (n = 8 ∧ j = d.toNat + 1)) h a h1 (fun j _ _ => h3 j)
    (fun j hj hn => h2 j (by rw [a.vname]; exact hj) (fun e => hn (Or.inl e)))
    (fun j l hj hl ha => by
      by_cases e : j = d.toNat
      · subst e; rw [h5 l hl, hact, if_neg (by rw [ha]; simp)]
      · rw [h2 j (by rw [a.vname]; exact hj) e]) h4
  refine ⟨k1, h1.elsewhere.blocks, h1.elsewhere.mem, k2, fun l hl ha => ⟨?_, fun e => absurd e h8⟩⟩
  rw [k1.reads.regV, h5 l hl, hact, if_pos (activeReal_sub s l ha)]
theorem wr_two {i : Instr} {d : BitVec 7} (hd : ∀ s, ready i s = true → s.vname d.toNat = true ∧ s.vname (d.toNat + 1) = true) : ∀ (s u : State) (v : Nat → DWord), ready i s = true → Apart (s.atInstr i) u →
    let wr := fun (s : State) (v : Nat → DWord) => (s.wrLanes d.toNat s.active (fun l => lowWord (v l))).wrLanes (d.toNat + 1) s.activeReal (fun l => highWord (v l))
    Stays (wr u v) (s.retired i (wr u v)) ∧ (wr u v).blocks = u.blocks ∧ (wr u v).mem = u.mem ∧
       RegisterFrame s (s.retired i (wr u v)) (fun _ => False) (fun j => j = d.toNat ∨ (8 = 8 ∧ j = d.toNat + 1)) ∧
       (∀ l, l < 32 → s.activeReal.getLsbD l = true → laneOf ((s.retired i (wr u v)).regV d.toNat) l = lowWord (v l) ∧
         (8 = 8 → laneOf ((s.retired i (wr u v)).regV (d.toNat + 1)) l = highWord (v l))) := by
  intro s u v h a
  dsimp only
  have hu : u.issue.warp < u.warps.length := by rw [a.issue, a.warps]; exact ready_list h
  have hact : u.active = s.active := a.active
  have hactr : u.activeReal = s.activeReal := by unfold State.activeReal; rw [hact, a.cw]; rfl
  obtain ⟨h1, h2, h3, h4, h5⟩ := wrLanes_spec u d.toNat u.active (fun l => lowWord (v l)) hu (by rw [a.vname]; exact (hd s h).1)
  have hv1 := h1.vname
  generalize u.wrLanes d.toNat u.active (fun l => lowWord (v l)) = w at *
  obtain ⟨g1, g2, g3, g4, g5⟩ := wrLanes_spec w (d.toNat + 1) u.activeReal (fun l => highWord (v l)) (by rw [h1.issue, h1.warps]; exact hu) (by rw [hv1, a.vname]; exact (hd s h).2)
  have g := h1.trans g1
  obtain ⟨k1, k2⟩ := registerFrame_of (i := i) (fun _ => False) (fun j => j = d.toNat ∨ (8 = 8 ∧ j = d.toNat + 1)) h a g (fun j _ _ => (g3 j).trans (h3 j))
    (fun j hj hn => by
      rw [g2 j (by rw [hv1, a.vname]; exact hj) (fun e => hn (Or.inr ⟨rfl, e⟩)), h2 j (by rw [a.vname]; exact hj) (fun e => hn (Or.inl e))])
    (fun j l hj hl ha => by
      by_cases e : j = d.toNat + 1
      · subst e
        rw [g5 l hl, hactr, if_neg (by rw [activeReal_not s l ha]; simp), h2 _ (by rw [a.vname]; exact hj) (by omega)]
      · rw [g2 j (by rw [hv1, a.vname]; exact hj) e]
        by_cases e' : j = d.toNat
        · subst e'; rw [h5 l hl, hact, if_neg (by rw [ha]; simp)]
        · rw [h2 j (by rw [a.vname]; exact hj) e']) (fun j => (g4 j).trans (h4 j))
  refine ⟨k1, g.elsewhere.blocks, g.elsewhere.mem, k2, fun l hl ha => ⟨?_, fun _ => ?_⟩⟩
  · rw [k1.reads.regV, g2 _ (by rw [hv1, a.vname]; exact (hd s h).1) (by omega), h5 l hl, hact, if_pos (activeReal_sub s l ha)]
  · rw [k1.reads.regV, g5 l hl, hactr, if_pos ha]
theorem apart_pc {i : Instr} {s u : State} (h : ready i s = true) (a : Apart (s.atInstr i) u) : (s.retired i u).cs.pc = s.seqPc := by
  have hok := ready_issueOk h
  have hrun := (s.issueOk_iff.mp hok).2.2.2
  have := fun c => retire_pc (s.atInstr i) u c (by rw [a.issue, a.warps]; exact ready_list h) (by rw [a.issue]) (by rw [a.cw]; exact hrun)
  rw [show s.retired i u = State.retire (s.atInstr i) _ u from rfl, this _, a.cs, a.issue]
  rfl
theorem core_setCore' (s : State) (c : Nat) (k : Core) : (s.setCore c k).core c = k := by rw [core_setCore, if_pos rfl]
theorem writeBack_core (s : State) (x : L1Line) (c : Nat) : (s.writeBack x).core c = s.core c ∧ (s.writeBack x).clusters = s.clusters := by
  unfold State.writeBack
  have pw : ∀ (s : State) (k pa : Nat) (bs : List Byte), (s.physWriteKey k pa bs).core c = s.core c ∧ (s.physWriteKey k pa bs).clusters = s.clusters := by
    intro s k pa bs
    unfold State.physWriteKey State.physWrite
    split
    · simp only
      split
      · split <;> exact ⟨rfl, rfl⟩
      · exact ⟨rfl, rfl⟩
    · exact ⟨rfl, rfl⟩
  simp only
  generalize List.filter _ (List.range 128) = ls
  induction ls generalizing s with
  | nil => exact ⟨rfl, rfl⟩
  | cons a r ih =>
    rw [List.foldl_cons]
    exact ⟨(ih _).1.trans (pw _ _ _ _).1, (ih _).2.trans (pw _ _ _ _).2⟩
theorem foldBack_core (ls : List L1Line) (c : Nat) : ∀ s : State, (ls.foldl State.writeBack s).core c = s.core c ∧ (ls.foldl State.writeBack s).clusters = s.clusters := by
  induction ls with
  | nil => intro s; exact ⟨rfl, rfl⟩
  | cons a r ih => intro s; rw [List.foldl_cons]; exact ⟨(ih _).1.trans (writeBack_core _ _ _).1, (ih _).2.trans (writeBack_core s a c).2⟩
theorem cleanLines_core (s : State) (c : Nat) : (s.cleanLines c (fun l => decide (l.dirty ≠ 0))).clusters = s.clusters ∧
    ∀ d, ∀ l ∈ ((s.cleanLines c (fun l => decide (l.dirty ≠ 0))).core d).l1, l.dirty = 0 ∨ (d ≠ c ∧ l ∈ (s.core d).l1) := by
  unfold State.cleanLines
  simp only
  have hk := fun d => foldBack_core (List.filter (fun l => decide (l.dirty ≠ 0)) (s.core c).l1) d s
  split
  · refine ⟨(hk c).2, fun d l hl => ?_⟩
    rw [core_setCore] at hl
    split at hl
    · obtain ⟨x, _, rfl⟩ := List.mem_map.mp hl
      split
      · exact .inl rfl
      · rename_i hd
        exact .inl (by simpa using hd)
    · rename_i e
      rw [(hk d).1] at hl
      exact .inr ⟨e, hl⟩
  · rename_i ha
    refine ⟨(hk c).2, fun d l hl => ?_⟩
    rw [(hk d).1] at hl
    by_cases e : d = c
    · subst e
      have : (s.core d).l1.any (fun l => decide (l.dirty ≠ 0)) = false := by simpa using ha
      rw [List.any_eq_false] at this
      exact .inl (by simpa using this l hl)
    · exact .inr ⟨e, hl⟩
/-- A release leaves no line of the cluster that awaits its write-back. -/
theorem release_clean (s : State) (c : Nat) :
    (∀ k ∈ coresOf (clusterOf c), ∀ l ∈ ((s.releaseL1 c).core k).l1, l.dirty = 0) ∧ (s.releaseL1 c).clusters = s.clusters := by
  unfold State.releaseL1
  generalize coresOf (clusterOf c) = ks
  have : ∀ (ks : List Nat) (s : State), (ks.foldl (fun s k => s.cleanLines k (fun l => decide (l.dirty ≠ 0))) s).clusters = s.clusters ∧
      ∀ d, ∀ l ∈ ((ks.foldl (fun s k => s.cleanLines k (fun l => decide (l.dirty ≠ 0))) s).core d).l1,
        l.dirty = 0 ∨ (d ∉ ks ∧ l ∈ (s.core d).l1) := by
    intro ks
    induction ks with
    | nil => intro s; exact ⟨rfl, fun d l hl => .inr ⟨List.not_mem_nil, hl⟩⟩
    | cons a r ih =>
      intro s
      rw [List.foldl_cons]
      obtain ⟨h1, h2⟩ := ih (s.cleanLines a (fun l => decide (l.dirty ≠ 0)))
      obtain ⟨k1, k2⟩ := cleanLines_core s a
      refine ⟨h1.trans k1, fun d l hl => ?_⟩
      rcases h2 d l hl with h | ⟨hn, h⟩
      · exact .inl h
      · rcases k2 d l h with h | ⟨e, h⟩
        · exact .inl h
        · exact .inr ⟨by simp [e, hn], h⟩
  exact ⟨fun k hk l hl => ((this ks s).2 k l hl).resolve_right (fun h => h.1 hk), (this ks s).1⟩
theorem removeLines_core (s : State) (c : Nat) (p : L1Line → Bool) : ((s.removeLines c p).core c).l1 = (s.core c).l1.filter (fun l => !p l) ∧
    (s.removeLines c p).clusters = s.clusters ∧ ∀ d, ∀ l ∈ ((s.removeLines c p).core d).l1, l ∈ (s.core d).l1 := by
  unfold State.removeLines
  simp only
  split
  · have hx := foldBack_core (List.filter p (s.core c).l1)
    refine ⟨?_, ?_, ?_⟩
    · rw [(hx c _).1, core_setCore']
    · rw [(hx c _).2]; rfl
    · intro d l hl
      rw [(hx d _).1, core_setCore] at hl
      split at hl
      · rename_i e; rw [e]; exact List.mem_of_mem_filter hl
      · exact hl
  · rename_i ha
    refine ⟨?_, rfl, fun d l hl => hl⟩
    symm
    rw [List.filter_eq_self]
    intro l hl
    have : (s.core c).l1.any p = false := by simpa using ha
    rw [List.any_eq_false] at this
    simpa using this l hl
/-- An acquire leaves no line in the cluster. -/
theorem acquire_empty (s : State) (c : Nat) :
    (∀ k ∈ coresOf (clusterOf c), ((s.acquireL1 c).core k).l1 = []) ∧ (s.acquireL1 c).clusters = s.clusters := by
  unfold State.acquireL1
  generalize coresOf (clusterOf c) = ks at *
  have : ∀ (ks : List Nat) (s : State),
      (ks.foldl (fun s k => s.removeLines k (fun _ => true)) s).clusters = s.clusters ∧
      ∀ d, (d ∈ ks ∨ (s.core d).l1 = []) → ((ks.foldl (fun s k => s.removeLines k (fun _ => true)) s).core d).l1 = [] := by
    intro ks
    induction ks with
    | nil => intro s; exact ⟨rfl, fun d hd => hd.resolve_left List.not_mem_nil⟩
    | cons a r ih =>
      intro s
      rw [List.foldl_cons]
      obtain ⟨k1, k2, k3⟩ := removeLines_core s a (fun _ => true)
      obtain ⟨h1, h2⟩ := ih (s.removeLines a (fun _ => true))
      refine ⟨h1.trans k2, fun d hd => h2 d ?_⟩
      by_cases e : d = a
      · subst e
        right
        rw [k1, List.filter_eq_nil_iff]
        intro l _
        simp
      · rcases hd with hd | hd
        · exact .inl ((List.mem_cons.mp hd).resolve_left e)
        · right
          rw [List.eq_nil_iff_forall_not_mem]
          intro l hl
          have := k3 d l hl
          rw [hd] at this
          exact List.not_mem_nil this
  exact ⟨fun k hk => (this ks s).2 k (.inl hk), (this ks s).1⟩
theorem releaseL1_aside (s : State) (c : Nat) : (s.releaseL1 c).aside = s.aside :=
  foldl_aside _ _ s (fun s k => cleanLines_aside s k _)
theorem acquireL1_aside (s : State) (c : Nat) : (s.acquireL1 c).aside = s.aside :=
  foldl_aside _ _ s (fun s k => removeLines_aside s k _)
theorem retired_same {i : Instr} {s u : State} (h : ready i s = true) (a : Apart (s.atInstr i) u) :
    (s.retired i u).cores = u.cores ∧ (s.retired i u).clusters = u.clusters ∧ (s.retired i u).blocks = u.blocks ∧ (s.retired i u).dies = u.dies ∧ (s.retired i u).launches = u.launches ∧ (s.retired i u).mem = u.mem := by
  have k := (registersKept_of h a).1.elsewhere
  exact ⟨k.cores, k.clusters, k.blocks, k.dies, k.launches, k.mem⟩
theorem aside_fields {s t : State} (h : t.aside = s.aside) : t.blocks = s.blocks ∧ t.dies = s.dies ∧ t.launches = s.launches := by
  unfold State.aside at h
  simp only [Prod.mk.injEq] at h
  exact ⟨h.2.1, h.2.2.1, h.2.2.2.2.1⟩
theorem fence_releases {i : Instr} {info : OpInfo} {p : Scope} (hr : Runs i info (fenceBody p)) (hp : p.wide = true) : ∀ s, ready i s = true →
    let c := s.coreOfWarp s.issue.warp
    ∃ t, exec i s = .next t ∧ t = s.retired i (((s.atInstr i).releaseL1 c).acquireL1 c) ∧
      (∀ k ∈ coresOf (clusterOf c), (t.core k).l1 = []) ∧
      t.cs.pc = s.seqPc ∧ RegistersKept s t ∧ t.blocks = s.blocks ∧ t.dies = s.dies ∧ t.launches = s.launches := by
  intro s h
  dsimp only
  have hb : fenceBody p (s.atInstr i) = .ok (((s.atInstr i).releaseL1 (s.coreOfWarp s.issue.warp)).acquireL1 (s.coreOfWarp s.issue.warp)) := by
    unfold fenceBody
    simp only [hp, if_true]; rfl
  have a1 := releaseL1_aside (s.atInstr i) (s.coreOfWarp s.issue.warp)
  have a2 := acquireL1_aside ((s.atInstr i).releaseL1 (s.coreOfWarp s.issue.warp)) (s.coreOfWarp s.issue.warp)
  have a3 : (((s.atInstr i).releaseL1 (s.coreOfWarp s.issue.warp)).acquireL1 (s.coreOfWarp s.issue.warp)).aside = (s.atInstr i).aside := a2.trans a1
  have a := Apart.aside a3
  obtain ⟨e1, e2, e3, e4, e5, e6⟩ := retired_same h a
  obtain ⟨f1, f2, f3⟩ := aside_fields a3
  refine ⟨_, hr.ok h hb, rfl, ?_, apart_pc h a, (registersKept_of h a).2, e3.trans f1, e4.trans f2, e5.trans f3⟩
  intro k hk
  have := (acquire_empty ((s.atInstr i).releaseL1 (s.coreOfWarp s.issue.warp)) (s.coreOfWarp s.issue.warp)).1 k hk
  unfold State.core at this ⊢
  rw [e1]; exact this
theorem drop_core (s : State) (asid : BitVec 16) (lo hi : Nat) (here : Nat → Bool) (sys : Bool) (c : Nat) :
    (∀ l ∈ ((s.dropTranslations asid lo hi here sys).core c).l1, l ∈ (s.core c).l1) ∧
    (∀ k e, here k = true → e ∈ ((s.dropTranslations asid lo hi here sys).cluster k).tlb → e.asid = asid → ¬ (e.base < hi ∧ lo < e.base + 2 ^ e.size)) := by
  unfold State.dropTranslations
  simp only
  constructor
  · show ∀ l ∈ ((s.cores.foldl (fun s c =>
      if here (clusterOf c.1) then
        s.removeLines c.1 (fun l => l.asid = asid && decide (lo ≤ l.vline * 128) && decide (l.vline * 128 < hi))
      else s) s).core c).l1, l ∈ (s.core c).l1
    generalize s.cores = cs
    induction cs generalizing s with
    | nil => intro l hl; exact hl
    | cons a r ih =>
      intro l hl
      rw [List.foldl_cons] at hl
      have := ih _ l hl
      split at this
      · exact (removeLines_core s a.1 _).2.2 c l this
      · exact this
  · intro k e hk he ha
    generalize hS : (s.cores.foldl (fun s c =>
      if here (clusterOf c.1) then
        s.removeLines c.1 (fun l => l.asid = asid && decide (lo ≤ l.vline * 128) && decide (l.vline * 128 < hi))
      else s) s) = S at he
    have hm : ∀ (cl : List (Nat × Cluster)) (g : Nat × Cluster → Nat × Cluster), (∀ p, (g p).1 = p.1) → alGet (cl.map g) k = (alGet cl k).map (fun x => (g (k, x)).2) := by
      intro cl g hg
      induction cl with
      | nil => rfl
      | cons p r ih =>
        obtain ⟨j, v⟩ := p
        rw [List.map_cons]
        have e1 := hg (j, v)
        generalize hz : g (j, v) = z at *
        obtain ⟨j', v'⟩ := z
        simp only at e1
        subst e1
        simp only [alGet]
        by_cases ej : j' = k
        · subst ej; simp [hz]
        · rw [if_neg ej, if_neg ej]; exact ih
    unfold State.cluster at he
    simp only at he
    rw [hm _ _ (fun p => by split <;> rfl)] at he
    cases hc : alGet S.clusters k with
    | none => rw [hc] at he; simp [Cluster.empty] at he
    | some x =>
      rw [hc] at he
      simp only [Option.map_some, Option.getD_some, hk, if_true] at he
      have := (List.mem_filter.mp he).2
      simp [ha] at this
      intro hh
      omega
theorem drop_fields (s : State) (asid : BitVec 16) (lo hi : Nat) (here : Nat → Bool) (sys : Bool) :
    (s.dropTranslations asid lo hi here sys).blocks = s.blocks ∧ (s.dropTranslations asid lo hi here sys).launches = s.launches := by
  have k := foldl_aside (fun (s : State) (c : Nat × Core) => if here (clusterOf c.1) then
    s.removeLines c.1 (fun l => l.asid = asid && decide (lo ≤ l.vline * 128) && decide (l.vline * 128 < hi))
    else s) s.cores s (fun s a => by split; exact removeLines_aside _ _ _; rfl)
  have f := aside_fields k
  unfold State.dropTranslations
  exact ⟨f.1, f.2.2⟩
theorem tfence_drops {i : Instr} {info : OpInfo} {p : Scope} {a b : BitVec 7} (hr : Runs i info (tfenceBody p a b)) : ∀ s, ready i s = true →
    let start := s.rdS a.toNat
    let len := (s.rdS b.toNat).toNat
    let c := s.coreOfWarp s.issue.warp
    let lo := if len = 0 then 0 else fieldOf start 0 57
    let hi := if len = 0 then 2 ^ 57 else min (fieldOf start 0 57 + len) (2 ^ 57)
    (fieldOf start 0 12 ≠ 0 ∨ len % 4096 ≠ 0 →
      exec i s = .next ((s.atInstr i).raise (TrapInfo.atAddr eAlign start.toNat))) ∧
    (fieldOf start 0 12 = 0 → len % 4096 = 0 → fieldOf start 57 3 ≠ 0 →
      exec i s = .next ((s.atInstr i).raise (TrapInfo.atAddr eNoncanon start.toNat))) ∧
    (fieldOf start 0 12 = 0 → len % 4096 = 0 → fieldOf start 57 3 = 0 → s.cs.wait = none →
      (s.atInstr i).accessesOf s.who.asid (p.clusters c) (p = .system) = [] → ∃ t, exec i s = .next t ∧
      (∀ k e, p.clusters c k = true → e ∈ (t.cluster k).tlb → e.asid = s.who.asid → ¬ (e.base < hi ∧ lo < e.base + 2 ^ e.size)) ∧
      (∀ k ∈ coresOf (clusterOf c), (t.core k).l1 = []) ∧ RegistersKept s t ∧ t.blocks = s.blocks ∧ t.launches = s.launches) := by
  intro s h
  dsimp only
  have er : (s.atInstr i).rdS a.toNat = s.rdS a.toNat := rfl
  have eb : (s.atInstr i).rdS b.toNat = s.rdS b.toNat := rfl
  refine ⟨fun hc => ?_, fun h1 h2 h3 => ?_, fun h1 h2 h3 h4 h5 => ?_⟩
  · refine stops_at hr (Or.inl (by show Cause.align ≠ Cause.page; decide)) h ?_
    unfold tfenceBody
    simp only [er, eb]
    rw [if_pos (by simpa using hc)]; rfl
  · refine stops_at hr (Or.inr (by show (4 : Nat) ≠ 2; decide)) h ?_
    unfold tfenceBody
    simp only [er, eb]
    rw [if_neg (by simp [h1, h2]), if_pos h3]; rfl
  · let lo := if (s.rdS b.toNat).toNat = 0 then 0 else fieldOf (s.rdS a.toNat) 0 57
    let hi := if (s.rdS b.toNat).toNat = 0 then 2 ^ 57 else min (fieldOf (s.rdS a.toNat) 0 57 + (s.rdS b.toNat).toNat) (2 ^ 57)
    let c := s.coreOfWarp s.issue.warp
    let u1 := (s.atInstr i).releaseL1 c
    let u2 := u1.dropTranslations s.who.asid lo hi (p.clusters c) (decide (p = .system))
    have hb : tfenceBody p a b (s.atInstr i) = .ok (u2.acquireL1 c) := by
      unfold tfenceBody
      simp only [er, eb]
      rw [if_neg (by simp [h1, h2]), if_neg (by simpa using h3)]
      have hz : (if (s.rdS b.toNat).toNat = 0 then (0, 2 ^ 57) else
          (fieldOf (s.rdS a.toNat) 0 57, min (fieldOf (s.rdS a.toNat) 0 57 + (s.rdS b.toNat).toNat) (2 ^ 57))) = (lo, hi) := by
        by_cases z : (s.rdS b.toNat).toNat = 0
        · simp only [lo, hi, if_pos z]
        · simp only [lo, hi, if_neg z]
      have hw : (s.atInstr i).cs.wait.any (fun v => decide (v.kind = .tfence)) = false := by
        rw [show (s.atInstr i).cs.wait = s.cs.wait from rfl, h4]; rfl
      simp only [hw, hz, Bool.false_eq_true, if_false]
      rw [show (s.atInstr i).accessesOf (s.atInstr i).who.asid
        (p.clusters ((s.atInstr i).coreOfWarp (s.atInstr i).issue.warp)) (decide (p = .system)) = [] from h5]
      have hn : ∀ ls : List HostReq, ls.any (List.contains []) = false := fun ls => by simp
      rw [hn, if_neg Bool.false_ne_true]
      rfl
    have a1 : Apart (s.atInstr i) u1 := Apart.releaseL1 (s.atInstr i) c
    have a2 : Apart u1 u2 := Apart.dropTranslations u1 s.who.asid lo hi (p.clusters c) (decide (p = .system))
    have a3 : Apart u2 (u2.acquireL1 c) := Apart.acquireL1 u2 c
    have a := (a1.trans a2).trans a3
    obtain ⟨e1, e2, e3, e4, e5, e6⟩ := retired_same h a
    have d := drop_core u1 s.who.asid lo hi (p.clusters c) (decide (p = .system)) c
    have hbl := drop_fields u1 s.who.asid lo hi (p.clusters c) (decide (p = .system))
    have f1 := aside_fields (releaseL1_aside (s.atInstr i) c)
    have f3 := aside_fields (acquireL1_aside u2 c)
    refine ⟨_, hr.ok h hb, ?_, ?_, (registersKept_of h a).2, ?_, ?_⟩
    · intro k e hk he ha
      refine d.2 k e hk ?_ ha
      have : ((u2.acquireL1 c)).cluster k = u2.cluster k := by
        unfold State.cluster; rw [(acquire_empty u2 c).2]
      rw [← this]
      unfold State.cluster at he ⊢
      rw [e2] at he; exact he
    · intro k hk
      have := (acquire_empty u2 c).1 k hk
      unfold State.core at this ⊢
      rw [e1]; exact this
    · exact e3.trans (f3.1.trans (hbl.1.trans f1.1))
    · exact e5.trans (f3.2.2.trans (hbl.2.trans f1.2.2))
theorem setWait_parts (s : State) (k : WaitKind) (u : Nat) (r : List HostReq) :
    ∃ W n, s.setWait k u r = { s.putS W with seq := n } ∧ W.held = s.cs.held ∧ W.st = .stalled ∧ W.pc = s.cs.pc := by
  unfold State.setWait
  cases hw : s.cs.wait with
  | none => exact ⟨_, _, rfl, rfl, rfl, rfl⟩
  | some v =>
    dsimp only
    split
    · exact ⟨_, _, rfl, rfl, rfl, rfl⟩
    · exact ⟨_, _, rfl, rfl, rfl, rfl⟩
/-- Keeping the operands of an instruction that stops only fills its place in the issue record. -/
theorem keep_parts (s : State) (b : Bool) (info : OpInfo) (w : Word) :
    ∃ r, s.keep b info w = { s with issue := { s.issue with replay := r } } := by
  unfold State.keep
  split
  · exact ⟨_, rfl⟩
  · exact ⟨s.issue.replay, rfl⟩
theorem issueOk_replay (s : State) (r : Option LogEntry) :
    ({ s with issue := { s.issue with replay := r } } : State).issueOk = s.issueOk := rfl
/-- A word that waits leaves its strand stalled where it stands and touches nothing else. -/
theorem waits_kept {i : Instr} {s : State} (info : OpInfo) (k : WaitKind) (n : Nat) (h : ready i s = true) :
    let t := ((s.atInstr i).keep false info (encode i)).setWait k n []
    RegistersKept s t ∧ t.cs.st = .stalled ∧ t.cs.pc = s.cs.pc ∧ t.mem = s.mem ∧ t.cores = s.cores := by
  obtain ⟨r, hr⟩ := keep_parts (s.atInstr i) false info (encode i)
  dsimp only
  rw [hr]
  let u : State := { s.atInstr i with issue := { (s.atInstr i).issue with replay := r } }
  show RegistersKept s (u.setWait k n []) ∧ (u.setWait k n []).cs.st = .stalled ∧ (u.setWait k n []).cs.pc = s.cs.pc ∧
    (u.setWait k n []).mem = s.mem ∧ (u.setWait k n []).cores = s.cores
  have hok : u.issueOk = true := (issueOk_replay _ _).trans (ready_issueOk h)
  obtain ⟨W, m, e, h1, h2, h3⟩ := setWait_parts u k n []
  rw [e]
  have hm := putS_moved u W hok h1
  have hw := u.issue_warp_in_list hok
  have hrun := (u.issueOk_iff.mp hok).2.2.2
  have hcw : (u.putS W).cw = u.cw.setRunner u.issue.entry W := State.cw_putW _ _ hw
  have hcs : (u.putS W).cs = W := by
    unfold State.cs
    rw [hcw]
    show ((u.cw.setRunner u.issue.entry W).runner u.issue.entry).getD _ = W
    rw [Warp.runner_setRunner _ _ _ hrun]; rfl
  have hrd := hm.reads hw
  have hrd' : SameReads u (u.putS W) := ⟨⟨rfl, rfl, rfl⟩, hrd.handler, hrd.sregs, hrd.vregs, hrd.kregs, hrd.window, hrd.mask⟩
  have e1 : ({ u.putS W with seq := m } : State).cw = (u.putS W).cw := rfl
  refine ⟨⟨?_, ⟨?_, ?_⟩, ?_, ?_, ?_, ?_, ?_, ?_, ?_⟩, ?_, ?_, rfl, rfl⟩
  · rw [e1, hcw]; exact hm.control
  · intro f; rw [e1, hcw]; exact hm.held f
  · intro f hf; rw [e1, hcw]; exact hm.still f hf
  · rw [e1, hcw]; exact hm.regs.2.2.2
  · intro j _ _ _; exact (hrd'.regS j)
  · intro j _ _; exact (hrd'.regV j)
  · intro j l _ _ _; exact congrArg (laneOf · l) (hrd'.regV j)
  · intro j; exact (hrd'.regK j)
  · intro v hv; exact u.warp_putW_ne _ v hv
  · intro b; rfl
  · show (u.putS W).cs.st = _; rw [hcs]; exact h2
  · show (u.putS W).cs.pc = _; rw [hcs]; exact h3

end Sys2Proof.Laws
end

