-- ==== Sys2Proof/Laws/PerInstr.lean ====
section
/-! SUPPORT. Statements made for every instruction, one lemma for each constructor. -/

namespace Sys2Proof.Laws.Decoding

open Sys2Proof Sys2Proof.Machine

/-- A well-formed instruction that has a word is what its word decodes to (R85, R86, R95). -/
def Statement (i : Instr) : Prop := i.wf = true → i.hasWord = true → decodeWord (encode i) = .ok i

theorem nop : Statement .nop := decodeWord_encode (by simp) ((ctorOf_class0 (op := 1) rfl).trans rfl)
theorem ximm (imm : BitVec 21) : Statement (.ximm imm) := decodeWord_encode (by simp) ((ctorOf_class0 (op := 2) rfl).trans rfl)
theorem ksel (n : BitVec 1) (m : BitVec 3) : Statement (.ksel n m) := decodeWord_encode (by simp) ((ctorOf_class0 (op := 3) rfl).trans (by show some (Instr.ksel (bits (0#17 ++ n ++ m : BitVec 21) 3 1) (bits (0#17 ++ n ++ m : BitVec 21) 0 3)) = _; rw [(part_ksel n m).1, (part_ksel n m).2]))
theorem bra (imm : BitVec 21) : Statement (.bra imm) := decodeWord_encode (by simp) ((ctorOf_class0 (op := 4) rfl).trans rfl)
theorem bscZ (d : BitVec 7) (imm : BitVec 14) : Statement (.bscZ d imm) := decodeWord_encode (by simp) ((ctorOf_class0 (op := 5) rfl).trans (by show some (Instr.bscZ (bits (d ++ imm) 14 7) (bits (d ++ imm) 0 14)) = _; rw [partJ_d, partJ_imm]))
theorem bscNz (d : BitVec 7) (imm : BitVec 14) : Statement (.bscNz d imm) := decodeWord_encode (by simp) ((ctorOf_class0 (op := 6) rfl).trans (by show some (Instr.bscNz (bits (d ++ imm) 14 7) (bits (d ++ imm) 0 14)) = _; rw [partJ_d, partJ_imm]))
theorem brvT (d : BitVec 7) (imm : BitVec 14) : Statement (.brvT d imm) := decodeWord_encode (by simp) ((ctorOf_class0 (op := 7) rfl).trans (by show some (Instr.brvT (bits (d ++ imm) 14 7) (bits (d ++ imm) 0 14)) = _; rw [partJ_d, partJ_imm]))
theorem brvF (d : BitVec 7) (imm : BitVec 14) : Statement (.brvF d imm) := decodeWord_encode (by simp) ((ctorOf_class0 (op := 8) rfl).trans (by show some (Instr.brvF (bits (d ++ imm) 14 7) (bits (d ++ imm) 0 14)) = _; rw [partJ_d, partJ_imm]))
theorem conv : Statement .conv := decodeWord_encode (by simp) ((ctorOf_class0 (op := 9) rfl).trans rfl)
theorem exit : Statement .exit := decodeWord_encode (by simp) ((ctorOf_class0 (op := 10) rfl).trans rfl)
theorem yield (imm : BitVec 21) : Statement (.yield imm) := decodeWord_encode (by simp) ((ctorOf_class0 (op := 11) rfl).trans rfl)
theorem wait (imm : BitVec 14) : Statement (.wait imm) := decodeWord_encode (by simp) ((ctorOf_class0 (op := 12) rfl).trans (by show some (Instr.wait (bits (0#7 ++ imm) 0 14)) = _; rw [partJ_imm]))
theorem mwait (a : BitVec 7) (b : BitVec 7) : Statement (.mwait a b) := decodeWord_encode (by simp) ((ctorOf_class0 (op := 13) rfl).trans (by show some (Instr.mwait (bits (0#7 ++ a ++ b) 7 7) (bits (0#7 ++ a ++ b) 0 7)) = _; rw [part_a, part_b]))
theorem idem : Statement .idem := decodeWord_encode (by simp) ((ctorOf_class0 (op := 14) rfl).trans rfl)
theorem bar (imm : BitVec 7) : Statement (.bar imm) := decodeWord_encode (by simp) ((ctorOf_class0 (op := 15) rfl).trans (by show some (Instr.bar (bits (0#7 ++ 0#7 ++ imm) 0 7)) = _; rw [part_b]))
theorem call (imm : BitVec 21) : Statement (.call imm) := decodeWord_encode (by simp) ((ctorOf_class0 (op := 16) rfl).trans rfl)
theorem calli (a : BitVec 7) : Statement (.calli a) := decodeWord_encode (by simp) ((ctorOf_class0 (op := 17) rfl).trans (by show some (Instr.calli (bits (0#7 ++ a ++ 0#7) 7 7)) = _; rw [part_a]))
theorem ret : Statement .ret := decodeWord_encode (by simp) ((ctorOf_class0 (op := 18) rfl).trans rfl)
theorem frame (imm : BitVec 14) : Statement (.frame imm) := decodeWord_encode (by simp) ((ctorOf_class0 (op := 19) rfl).trans (by show some (Instr.frame (bits (0#7 ++ imm) 0 14)) = _; rw [partJ_imm]))
theorem wbase (a : BitVec 7) : Statement (.wbase a) := decodeWord_encode (by simp) ((ctorOf_class0 (op := 20) rfl).trans (by show some (Instr.wbase (bits (0#7 ++ a ++ 0#7) 7 7)) = _; rw [part_a]))
theorem rgrow (d : BitVec 7) : Statement (.rgrow d) := decodeWord_encode (by simp) ((ctorOf_class0 (op := 21) rfl).trans (by show some (Instr.rgrow (bits (d ++ 0#7 ++ 0#7) 14 7)) = _; rw [part_d]))
theorem rshrink (d : BitVec 7) : Statement (.rshrink d) := decodeWord_encode (by simp) ((ctorOf_class0 (op := 22) rfl).trans (by show some (Instr.rshrink (bits (d ++ 0#7 ++ 0#7) 14 7)) = _; rw [part_d]))
theorem barg (imm : BitVec 7) : Statement (.barg imm) := decodeWord_encode (by simp) ((ctorOf_class0 (op := 23) rfl).trans (by show some (Instr.barg (bits (0#7 ++ 0#7 ++ imm) 0 7)) = _; rw [part_b]))
theorem lclk (d : BitVec 7) (a : BitVec 7) : Statement (.lclk d a) := decodeWord_encode (by simp) ((ctorOf_class0 (op := 24) rfl).trans (by show some (Instr.lclk (bits (d ++ a ++ 0#7) 14 7) (bits (d ++ a ++ 0#7) 7 7)) = _; rw [part_d, part_a]))
theorem trap (imm : BitVec 14) : Statement (.trap imm) := decodeWord_encode (by simp) ((ctorOf_class0 (op := 25) rfl).trans (by show some (Instr.trap (bits (0#7 ++ imm) 0 14)) = _; rw [partJ_imm]))
theorem eret (a : BitVec 7) (b : BitVec 7) : Statement (.eret a b) := decodeWord_encode (by simp) ((ctorOf_class0 (op := 26) rfl).trans (by show some (Instr.eret (bits (0#7 ++ a ++ b) 7 7) (bits (0#7 ++ a ++ b) 0 7)) = _; rw [part_a, part_b]))
theorem brkp (imm : BitVec 14) : Statement (.brkp imm) := decodeWord_encode (by simp) ((ctorOf_class0 (op := 27) rfl).trans (by show some (Instr.brkp (bits (0#7 ++ imm) 0 14)) = _; rw [partJ_imm]))
theorem ctlr (d : BitVec 7) (imm : BitVec 7) : Statement (.ctlr d imm) := decodeWord_encode (by simp) ((ctorOf_class0 (op := 28) rfl).trans (by show some (Instr.ctlr (bits (d ++ 0#7 ++ imm) 14 7) (bits (d ++ 0#7 ++ imm) 0 7)) = _; rw [part_d, part_b]))
theorem ctlw (a : BitVec 7) (imm : BitVec 7) : Statement (.ctlw a imm) := decodeWord_encode (by simp) ((ctorOf_class0 (op := 29) rfl).trans (by show some (Instr.ctlw (bits (0#7 ++ a ++ imm) 7 7) (bits (0#7 ++ a ++ imm) 0 7)) = _; rw [part_a, part_b]))
theorem sadd (d : BitVec 7) (a : BitVec 7) (b : BitVec 7) : Statement (.sadd d a b) := decodeWord_encode (by simp) ((ctorOf_class1 (op := 64) rfl).trans (by show some (Instr.sadd (bits (d ++ a ++ b) 14 7) (bits (d ++ a ++ b) 7 7) (bits (d ++ a ++ b) 0 7)) = _; rw [part_d, part_a, part_b]))
theorem saddImm (d : BitVec 7) (a : BitVec 7) (imm : BitVec 7) : Statement (.saddImm d a imm) := decodeWord_encode (by simp) ((ctorOf_class1 (op := 65) rfl).trans (by show some (Instr.saddImm (bits (d ++ a ++ imm) 14 7) (bits (d ++ a ++ imm) 7 7) (bits (d ++ a ++ imm) 0 7)) = _; rw [part_d, part_a, part_b]))
theorem ssub (d : BitVec 7) (a : BitVec 7) (b : BitVec 7) : Statement (.ssub d a b) := decodeWord_encode (by simp) ((ctorOf_class1 (op := 66) rfl).trans (by show some (Instr.ssub (bits (d ++ a ++ b) 14 7) (bits (d ++ a ++ b) 7 7) (bits (d ++ a ++ b) 0 7)) = _; rw [part_d, part_a, part_b]))
theorem smul (d : BitVec 7) (a : BitVec 7) (b : BitVec 7) : Statement (.smul d a b) := decodeWord_encode (by simp) ((ctorOf_class1 (op := 67) rfl).trans (by show some (Instr.smul (bits (d ++ a ++ b) 14 7) (bits (d ++ a ++ b) 7 7) (bits (d ++ a ++ b) 0 7)) = _; rw [part_d, part_a, part_b]))
theorem smulhS (d : BitVec 7) (a : BitVec 7) (b : BitVec 7) : Statement (.smulhS d a b) := decodeWord_encode (by simp) ((ctorOf_class1 (op := 68) rfl).trans (by show some (Instr.smulhS (bits (d ++ a ++ b) 14 7) (bits (d ++ a ++ b) 7 7) (bits (d ++ a ++ b) 0 7)) = _; rw [part_d, part_a, part_b]))
theorem smulhU (d : BitVec 7) (a : BitVec 7) (b : BitVec 7) : Statement (.smulhU d a b) := decodeWord_encode (by simp) ((ctorOf_class1 (op := 69) rfl).trans (by show some (Instr.smulhU (bits (d ++ a ++ b) 14 7) (bits (d ++ a ++ b) 7 7) (bits (d ++ a ++ b) 0 7)) = _; rw [part_d, part_a, part_b]))
theorem sand (d : BitVec 7) (a : BitVec 7) (b : BitVec 7) : Statement (.sand d a b) := decodeWord_encode (by simp) ((ctorOf_class1 (op := 70) rfl).trans (by show some (Instr.sand (bits (d ++ a ++ b) 14 7) (bits (d ++ a ++ b) 7 7) (bits (d ++ a ++ b) 0 7)) = _; rw [part_d, part_a, part_b]))
theorem sor (d : BitVec 7) (a : BitVec 7) (b : BitVec 7) : Statement (.sor d a b) := decodeWord_encode (by simp) ((ctorOf_class1 (op := 71) rfl).trans (by show some (Instr.sor (bits (d ++ a ++ b) 14 7) (bits (d ++ a ++ b) 7 7) (bits (d ++ a ++ b) 0 7)) = _; rw [part_d, part_a, part_b]))
theorem sxor (d : BitVec 7) (a : BitVec 7) (b : BitVec 7) : Statement (.sxor d a b) := decodeWord_encode (by simp) ((ctorOf_class1 (op := 72) rfl).trans (by show some (Instr.sxor (bits (d ++ a ++ b) 14 7) (bits (d ++ a ++ b) 7 7) (bits (d ++ a ++ b) 0 7)) = _; rw [part_d, part_a, part_b]))
theorem sshl (d : BitVec 7) (a : BitVec 7) (b : BitVec 7) : Statement (.sshl d a b) := decodeWord_encode (by simp) ((ctorOf_class1 (op := 73) rfl).trans (by show some (Instr.sshl (bits (d ++ a ++ b) 14 7) (bits (d ++ a ++ b) 7 7) (bits (d ++ a ++ b) 0 7)) = _; rw [part_d, part_a, part_b]))
theorem sshlImm (d : BitVec 7) (a : BitVec 7) (imm : BitVec 7) : Statement (.sshlImm d a imm) := decodeWord_encode (by simp) ((ctorOf_class1 (op := 74) rfl).trans (by show some (Instr.sshlImm (bits (d ++ a ++ imm) 14 7) (bits (d ++ a ++ imm) 7 7) (bits (d ++ a ++ imm) 0 7)) = _; rw [part_d, part_a, part_b]))
theorem sshr (d : BitVec 7) (a : BitVec 7) (b : BitVec 7) : Statement (.sshr d a b) := decodeWord_encode (by simp) ((ctorOf_class1 (op := 75) rfl).trans (by show some (Instr.sshr (bits (d ++ a ++ b) 14 7) (bits (d ++ a ++ b) 7 7) (bits (d ++ a ++ b) 0 7)) = _; rw [part_d, part_a, part_b]))
theorem sshrImm (d : BitVec 7) (a : BitVec 7) (imm : BitVec 7) : Statement (.sshrImm d a imm) := decodeWord_encode (by simp) ((ctorOf_class1 (op := 76) rfl).trans (by show some (Instr.sshrImm (bits (d ++ a ++ imm) 14 7) (bits (d ++ a ++ imm) 7 7) (bits (d ++ a ++ imm) 0 7)) = _; rw [part_d, part_a, part_b]))
theorem ssra (d : BitVec 7) (a : BitVec 7) (b : BitVec 7) : Statement (.ssra d a b) := decodeWord_encode (by simp) ((ctorOf_class1 (op := 77) rfl).trans (by show some (Instr.ssra (bits (d ++ a ++ b) 14 7) (bits (d ++ a ++ b) 7 7) (bits (d ++ a ++ b) 0 7)) = _; rw [part_d, part_a, part_b]))
theorem ssraImm (d : BitVec 7) (a : BitVec 7) (imm : BitVec 7) : Statement (.ssraImm d a imm) := decodeWord_encode (by simp) ((ctorOf_class1 (op := 78) rfl).trans (by show some (Instr.ssraImm (bits (d ++ a ++ imm) 14 7) (bits (d ++ a ++ imm) 7 7) (bits (d ++ a ++ imm) 0 7)) = _; rw [part_d, part_a, part_b]))
theorem sminS (d : BitVec 7) (a : BitVec 7) (b : BitVec 7) : Statement (.sminS d a b) := decodeWord_encode (by simp) ((ctorOf_class1 (op := 79) rfl).trans (by show some (Instr.sminS (bits (d ++ a ++ b) 14 7) (bits (d ++ a ++ b) 7 7) (bits (d ++ a ++ b) 0 7)) = _; rw [part_d, part_a, part_b]))
theorem sminU (d : BitVec 7) (a : BitVec 7) (b : BitVec 7) : Statement (.sminU d a b) := decodeWord_encode (by simp) ((ctorOf_class1 (op := 80) rfl).trans (by show some (Instr.sminU (bits (d ++ a ++ b) 14 7) (bits (d ++ a ++ b) 7 7) (bits (d ++ a ++ b) 0 7)) = _; rw [part_d, part_a, part_b]))
theorem smaxS (d : BitVec 7) (a : BitVec 7) (b : BitVec 7) : Statement (.smaxS d a b) := decodeWord_encode (by simp) ((ctorOf_class1 (op := 81) rfl).trans (by show some (Instr.smaxS (bits (d ++ a ++ b) 14 7) (bits (d ++ a ++ b) 7 7) (bits (d ++ a ++ b) 0 7)) = _; rw [part_d, part_a, part_b]))
theorem smaxU (d : BitVec 7) (a : BitVec 7) (b : BitVec 7) : Statement (.smaxU d a b) := decodeWord_encode (by simp) ((ctorOf_class1 (op := 82) rfl).trans (by show some (Instr.smaxU (bits (d ++ a ++ b) 14 7) (bits (d ++ a ++ b) 7 7) (bits (d ++ a ++ b) 0 7)) = _; rw [part_d, part_a, part_b]))
theorem scmpEq (d : BitVec 7) (a : BitVec 7) (b : BitVec 7) : Statement (.scmpEq d a b) := decodeWord_encode (by simp) ((ctorOf_class1 (op := 83) rfl).trans (by show some (Instr.scmpEq (bits (d ++ a ++ b) 14 7) (bits (d ++ a ++ b) 7 7) (bits (d ++ a ++ b) 0 7)) = _; rw [part_d, part_a, part_b]))
theorem scmpNe (d : BitVec 7) (a : BitVec 7) (b : BitVec 7) : Statement (.scmpNe d a b) := decodeWord_encode (by simp) ((ctorOf_class1 (op := 84) rfl).trans (by show some (Instr.scmpNe (bits (d ++ a ++ b) 14 7) (bits (d ++ a ++ b) 7 7) (bits (d ++ a ++ b) 0 7)) = _; rw [part_d, part_a, part_b]))
theorem scmpLt (d : BitVec 7) (a : BitVec 7) (b : BitVec 7) : Statement (.scmpLt d a b) := decodeWord_encode (by simp) ((ctorOf_class1 (op := 85) rfl).trans (by show some (Instr.scmpLt (bits (d ++ a ++ b) 14 7) (bits (d ++ a ++ b) 7 7) (bits (d ++ a ++ b) 0 7)) = _; rw [part_d, part_a, part_b]))
theorem scmpLe (d : BitVec 7) (a : BitVec 7) (b : BitVec 7) : Statement (.scmpLe d a b) := decodeWord_encode (by simp) ((ctorOf_class1 (op := 86) rfl).trans (by show some (Instr.scmpLe (bits (d ++ a ++ b) 14 7) (bits (d ++ a ++ b) 7 7) (bits (d ++ a ++ b) 0 7)) = _; rw [part_d, part_a, part_b]))
theorem scmpLtu (d : BitVec 7) (a : BitVec 7) (b : BitVec 7) : Statement (.scmpLtu d a b) := decodeWord_encode (by simp) ((ctorOf_class1 (op := 87) rfl).trans (by show some (Instr.scmpLtu (bits (d ++ a ++ b) 14 7) (bits (d ++ a ++ b) 7 7) (bits (d ++ a ++ b) 0 7)) = _; rw [part_d, part_a, part_b]))
theorem scmpLeu (d : BitVec 7) (a : BitVec 7) (b : BitVec 7) : Statement (.scmpLeu d a b) := decodeWord_encode (by simp) ((ctorOf_class1 (op := 88) rfl).trans (by show some (Instr.scmpLeu (bits (d ++ a ++ b) 14 7) (bits (d ++ a ++ b) 7 7) (bits (d ++ a ++ b) 0 7)) = _; rw [part_d, part_a, part_b]))
theorem ssel (d : BitVec 7) (a : BitVec 7) (b : BitVec 7) : Statement (.ssel d a b) := decodeWord_encode (by simp) ((ctorOf_class1 (op := 89) rfl).trans (by show some (Instr.ssel (bits (d ++ a ++ b) 14 7) (bits (d ++ a ++ b) 7 7) (bits (d ++ a ++ b) 0 7)) = _; rw [part_d, part_a, part_b]))
theorem smov (d : BitVec 7) (a : BitVec 7) : Statement (.smov d a) := decodeWord_encode (by simp) ((ctorOf_class1 (op := 90) rfl).trans (by show some (Instr.smov (bits (d ++ a ++ 0#7) 14 7) (bits (d ++ a ++ 0#7) 7 7)) = _; rw [part_d, part_a]))
theorem sli (d : BitVec 7) (imm : BitVec 14) : Statement (.sli d imm) := decodeWord_encode (by simp) ((ctorOf_class1 (op := 91) rfl).trans (by show some (Instr.sli (bits (d ++ imm) 14 7) (bits (d ++ imm) 0 14)) = _; rw [partJ_d, partJ_imm]))
theorem sadr (d : BitVec 7) (imm : BitVec 14) : Statement (.sadr d imm) := decodeWord_encode (by simp) ((ctorOf_class1 (op := 92) rfl).trans (by show some (Instr.sadr (bits (d ++ imm) 14 7) (bits (d ++ imm) 0 14)) = _; rw [partJ_d, partJ_imm]))
theorem spopc (d : BitVec 7) (a : BitVec 7) : Statement (.spopc d a) := decodeWord_encode (by simp) ((ctorOf_class1 (op := 93) rfl).trans (by show some (Instr.spopc (bits (d ++ a ++ 0#7) 14 7) (bits (d ++ a ++ 0#7) 7 7)) = _; rw [part_d, part_a]))
theorem sclz (d : BitVec 7) (a : BitVec 7) : Statement (.sclz d a) := decodeWord_encode (by simp) ((ctorOf_class1 (op := 94) rfl).trans (by show some (Instr.sclz (bits (d ++ a ++ 0#7) 14 7) (bits (d ++ a ++ 0#7) 7 7)) = _; rw [part_d, part_a]))
theorem sldB (d : BitVec 7) (a : BitVec 7) (imm : BitVec 7) : Statement (.sldB d a imm) := decodeWord_encode (by simp) ((ctorOf_class1 (op := 95) rfl).trans (by show some (Instr.sldB (bits (d ++ a ++ imm) 14 7) (bits (d ++ a ++ imm) 7 7) (bits (d ++ a ++ imm) 0 7)) = _; rw [part_d, part_a, part_b]))
theorem sldH (d : BitVec 7) (a : BitVec 7) (imm : BitVec 7) : Statement (.sldH d a imm) := decodeWord_encode (by simp) ((ctorOf_class1 (op := 96) rfl).trans (by show some (Instr.sldH (bits (d ++ a ++ imm) 14 7) (bits (d ++ a ++ imm) 7 7) (bits (d ++ a ++ imm) 0 7)) = _; rw [part_d, part_a, part_b]))
theorem sldW (d : BitVec 7) (a : BitVec 7) (imm : BitVec 7) : Statement (.sldW d a imm) := decodeWord_encode (by simp) ((ctorOf_class1 (op := 97) rfl).trans (by show some (Instr.sldW (bits (d ++ a ++ imm) 14 7) (bits (d ++ a ++ imm) 7 7) (bits (d ++ a ++ imm) 0 7)) = _; rw [part_d, part_a, part_b]))
theorem sldD (d : BitVec 7) (a : BitVec 7) (imm : BitVec 7) : Statement (.sldD d a imm) := decodeWord_encode (by simp) ((ctorOf_class1 (op := 98) rfl).trans (by show some (Instr.sldD (bits (d ++ a ++ imm) 14 7) (bits (d ++ a ++ imm) 7 7) (bits (d ++ a ++ imm) 0 7)) = _; rw [part_d, part_a, part_b]))
theorem sstB (d : BitVec 7) (a : BitVec 7) (imm : BitVec 7) : Statement (.sstB d a imm) := decodeWord_encode (by simp) ((ctorOf_class1 (op := 99) rfl).trans (by show some (Instr.sstB (bits (d ++ a ++ imm) 14 7) (bits (d ++ a ++ imm) 7 7) (bits (d ++ a ++ imm) 0 7)) = _; rw [part_d, part_a, part_b]))
theorem sstH (d : BitVec 7) (a : BitVec 7) (imm : BitVec 7) : Statement (.sstH d a imm) := decodeWord_encode (by simp) ((ctorOf_class1 (op := 100) rfl).trans (by show some (Instr.sstH (bits (d ++ a ++ imm) 14 7) (bits (d ++ a ++ imm) 7 7) (bits (d ++ a ++ imm) 0 7)) = _; rw [part_d, part_a, part_b]))
theorem sstW (d : BitVec 7) (a : BitVec 7) (imm : BitVec 7) : Statement (.sstW d a imm) := decodeWord_encode (by simp) ((ctorOf_class1 (op := 101) rfl).trans (by show some (Instr.sstW (bits (d ++ a ++ imm) 14 7) (bits (d ++ a ++ imm) 7 7) (bits (d ++ a ++ imm) 0 7)) = _; rw [part_d, part_a, part_b]))
theorem sstD (d : BitVec 7) (a : BitVec 7) (imm : BitVec 7) : Statement (.sstD d a imm) := decodeWord_encode (by simp) ((ctorOf_class1 (op := 102) rfl).trans (by show some (Instr.sstD (bits (d ++ a ++ imm) 14 7) (bits (d ++ a ++ imm) 7 7) (bits (d ++ a ++ imm) 0 7)) = _; rw [part_d, part_a, part_b]))
theorem vadd (d : BitVec 7) (a : BitVec 7) (b : BitVec 7) : Statement (.vadd d a b) := decodeWord_encode (by simp) ((ctorOf_class2 (op := 128) rfl).trans (by show some (Instr.vadd (bits (d ++ a ++ b) 14 7) (bits (d ++ a ++ b) 7 7) (bits (d ++ a ++ b) 0 7)) = _; rw [part_d, part_a, part_b]))
theorem vaddSat (d : BitVec 7) (a : BitVec 7) (b : BitVec 7) : Statement (.vaddSat d a b) := decodeWord_encode (by simp) ((ctorOf_class2 (op := 129) rfl).trans (by show some (Instr.vaddSat (bits (d ++ a ++ b) 14 7) (bits (d ++ a ++ b) 7 7) (bits (d ++ a ++ b) 0 7)) = _; rw [part_d, part_a, part_b]))
theorem vsub (d : BitVec 7) (a : BitVec 7) (b : BitVec 7) : Statement (.vsub d a b) := decodeWord_encode (by simp) ((ctorOf_class2 (op := 130) rfl).trans (by show some (Instr.vsub (bits (d ++ a ++ b) 14 7) (bits (d ++ a ++ b) 7 7) (bits (d ++ a ++ b) 0 7)) = _; rw [part_d, part_a, part_b]))
theorem vsubSat (d : BitVec 7) (a : BitVec 7) (b : BitVec 7) : Statement (.vsubSat d a b) := decodeWord_encode (by simp) ((ctorOf_class2 (op := 131) rfl).trans (by show some (Instr.vsubSat (bits (d ++ a ++ b) 14 7) (bits (d ++ a ++ b) 7 7) (bits (d ++ a ++ b) 0 7)) = _; rw [part_d, part_a, part_b]))
theorem vmulLo (d : BitVec 7) (a : BitVec 7) (b : BitVec 7) : Statement (.vmulLo d a b) := decodeWord_encode (by simp) ((ctorOf_class2 (op := 132) rfl).trans (by show some (Instr.vmulLo (bits (d ++ a ++ b) 14 7) (bits (d ++ a ++ b) 7 7) (bits (d ++ a ++ b) 0 7)) = _; rw [part_d, part_a, part_b]))
theorem vmulHiS (d : BitVec 7) (a : BitVec 7) (b : BitVec 7) : Statement (.vmulHiS d a b) := decodeWord_encode (by simp) ((ctorOf_class2 (op := 133) rfl).trans (by show some (Instr.vmulHiS (bits (d ++ a ++ b) 14 7) (bits (d ++ a ++ b) 7 7) (bits (d ++ a ++ b) 0 7)) = _; rw [part_d, part_a, part_b]))
theorem vmulHiU (d : BitVec 7) (a : BitVec 7) (b : BitVec 7) : Statement (.vmulHiU d a b) := decodeWord_encode (by simp) ((ctorOf_class2 (op := 134) rfl).trans (by show some (Instr.vmulHiU (bits (d ++ a ++ b) 14 7) (bits (d ++ a ++ b) 7 7) (bits (d ++ a ++ b) 0 7)) = _; rw [part_d, part_a, part_b]))
theorem vmad (d : BitVec 7) (a : BitVec 7) (b : BitVec 7) : Statement (.vmad d a b) := decodeWord_encode (by simp) ((ctorOf_class2 (op := 135) rfl).trans (by show some (Instr.vmad (bits (d ++ a ++ b) 14 7) (bits (d ++ a ++ b) 7 7) (bits (d ++ a ++ b) 0 7)) = _; rw [part_d, part_a, part_b]))
theorem vand (d : BitVec 7) (a : BitVec 7) (b : BitVec 7) : Statement (.vand d a b) := decodeWord_encode (by simp) ((ctorOf_class2 (op := 136) rfl).trans (by show some (Instr.vand (bits (d ++ a ++ b) 14 7) (bits (d ++ a ++ b) 7 7) (bits (d ++ a ++ b) 0 7)) = _; rw [part_d, part_a, part_b]))
theorem vor (d : BitVec 7) (a : BitVec 7) (b : BitVec 7) : Statement (.vor d a b) := decodeWord_encode (by simp) ((ctorOf_class2 (op := 137) rfl).trans (by show some (Instr.vor (bits (d ++ a ++ b) 14 7) (bits (d ++ a ++ b) 7 7) (bits (d ++ a ++ b) 0 7)) = _; rw [part_d, part_a, part_b]))
theorem vxor (d : BitVec 7) (a : BitVec 7) (b : BitVec 7) : Statement (.vxor d a b) := decodeWord_encode (by simp) ((ctorOf_class2 (op := 138) rfl).trans (by show some (Instr.vxor (bits (d ++ a ++ b) 14 7) (bits (d ++ a ++ b) 7 7) (bits (d ++ a ++ b) 0 7)) = _; rw [part_d, part_a, part_b]))
theorem vshl (d : BitVec 7) (a : BitVec 7) (b : BitVec 7) : Statement (.vshl d a b) := decodeWord_encode (by simp) ((ctorOf_class2 (op := 139) rfl).trans (by show some (Instr.vshl (bits (d ++ a ++ b) 14 7) (bits (d ++ a ++ b) 7 7) (bits (d ++ a ++ b) 0 7)) = _; rw [part_d, part_a, part_b]))
theorem vshr (d : BitVec 7) (a : BitVec 7) (b : BitVec 7) : Statement (.vshr d a b) := decodeWord_encode (by simp) ((ctorOf_class2 (op := 140) rfl).trans (by show some (Instr.vshr (bits (d ++ a ++ b) 14 7) (bits (d ++ a ++ b) 7 7) (bits (d ++ a ++ b) 0 7)) = _; rw [part_d, part_a, part_b]))
theorem vsra (d : BitVec 7) (a : BitVec 7) (b : BitVec 7) : Statement (.vsra d a b) := decodeWord_encode (by simp) ((ctorOf_class2 (op := 141) rfl).trans (by show some (Instr.vsra (bits (d ++ a ++ b) 14 7) (bits (d ++ a ++ b) 7 7) (bits (d ++ a ++ b) 0 7)) = _; rw [part_d, part_a, part_b]))
theorem vminS (d : BitVec 7) (a : BitVec 7) (b : BitVec 7) : Statement (.vminS d a b) := decodeWord_encode (by simp) ((ctorOf_class2 (op := 142) rfl).trans (by show some (Instr.vminS (bits (d ++ a ++ b) 14 7) (bits (d ++ a ++ b) 7 7) (bits (d ++ a ++ b) 0 7)) = _; rw [part_d, part_a, part_b]))
theorem vminU (d : BitVec 7) (a : BitVec 7) (b : BitVec 7) : Statement (.vminU d a b) := decodeWord_encode (by simp) ((ctorOf_class2 (op := 143) rfl).trans (by show some (Instr.vminU (bits (d ++ a ++ b) 14 7) (bits (d ++ a ++ b) 7 7) (bits (d ++ a ++ b) 0 7)) = _; rw [part_d, part_a, part_b]))
theorem vmaxS (d : BitVec 7) (a : BitVec 7) (b : BitVec 7) : Statement (.vmaxS d a b) := decodeWord_encode (by simp) ((ctorOf_class2 (op := 144) rfl).trans (by show some (Instr.vmaxS (bits (d ++ a ++ b) 14 7) (bits (d ++ a ++ b) 7 7) (bits (d ++ a ++ b) 0 7)) = _; rw [part_d, part_a, part_b]))
theorem vmaxU (d : BitVec 7) (a : BitVec 7) (b : BitVec 7) : Statement (.vmaxU d a b) := decodeWord_encode (by simp) ((ctorOf_class2 (op := 145) rfl).trans (by show some (Instr.vmaxU (bits (d ++ a ++ b) 14 7) (bits (d ++ a ++ b) 7 7) (bits (d ++ a ++ b) 0 7)) = _; rw [part_d, part_a, part_b]))
theorem vcmpEq (d : BitVec 7) (a : BitVec 7) (b : BitVec 7) : Statement (.vcmpEq d a b) := decodeWord_encode (by simp) ((ctorOf_class2 (op := 146) rfl).trans (by show some (Instr.vcmpEq (bits (d ++ a ++ b) 14 7) (bits (d ++ a ++ b) 7 7) (bits (d ++ a ++ b) 0 7)) = _; rw [part_d, part_a, part_b]))
theorem vcmpNe (d : BitVec 7) (a : BitVec 7) (b : BitVec 7) : Statement (.vcmpNe d a b) := decodeWord_encode (by simp) ((ctorOf_class2 (op := 147) rfl).trans (by show some (Instr.vcmpNe (bits (d ++ a ++ b) 14 7) (bits (d ++ a ++ b) 7 7) (bits (d ++ a ++ b) 0 7)) = _; rw [part_d, part_a, part_b]))
theorem vcmpLt (d : BitVec 7) (a : BitVec 7) (b : BitVec 7) : Statement (.vcmpLt d a b) := decodeWord_encode (by simp) ((ctorOf_class2 (op := 148) rfl).trans (by show some (Instr.vcmpLt (bits (d ++ a ++ b) 14 7) (bits (d ++ a ++ b) 7 7) (bits (d ++ a ++ b) 0 7)) = _; rw [part_d, part_a, part_b]))
theorem vcmpLe (d : BitVec 7) (a : BitVec 7) (b : BitVec 7) : Statement (.vcmpLe d a b) := decodeWord_encode (by simp) ((ctorOf_class2 (op := 149) rfl).trans (by show some (Instr.vcmpLe (bits (d ++ a ++ b) 14 7) (bits (d ++ a ++ b) 7 7) (bits (d ++ a ++ b) 0 7)) = _; rw [part_d, part_a, part_b]))
theorem vcmpLtu (d : BitVec 7) (a : BitVec 7) (b : BitVec 7) : Statement (.vcmpLtu d a b) := decodeWord_encode (by simp) ((ctorOf_class2 (op := 150) rfl).trans (by show some (Instr.vcmpLtu (bits (d ++ a ++ b) 14 7) (bits (d ++ a ++ b) 7 7) (bits (d ++ a ++ b) 0 7)) = _; rw [part_d, part_a, part_b]))
theorem vcmpLeu (d : BitVec 7) (a : BitVec 7) (b : BitVec 7) : Statement (.vcmpLeu d a b) := decodeWord_encode (by simp) ((ctorOf_class2 (op := 151) rfl).trans (by show some (Instr.vcmpLeu (bits (d ++ a ++ b) 14 7) (bits (d ++ a ++ b) 7 7) (bits (d ++ a ++ b) 0 7)) = _; rw [part_d, part_a, part_b]))
theorem vsel (d : BitVec 7) (a : BitVec 7) (b : BitVec 7) : Statement (.vsel d a b) := decodeWord_encode (by simp) ((ctorOf_class2 (op := 152) rfl).trans (by show some (Instr.vsel (bits (d ++ a ++ b) 14 7) (bits (d ++ a ++ b) 7 7) (bits (d ++ a ++ b) 0 7)) = _; rw [part_d, part_a, part_b]))
theorem vmov (d : BitVec 7) (a : BitVec 7) : Statement (.vmov d a) := decodeWord_encode (by simp) ((ctorOf_class2 (op := 153) rfl).trans (by show some (Instr.vmov (bits (d ++ a ++ 0#7) 14 7) (bits (d ++ a ++ 0#7) 7 7)) = _; rw [part_d, part_a]))
theorem vmovBc (d : BitVec 7) (a : BitVec 7) : Statement (.vmovBc d a) := decodeWord_encode (by simp) ((ctorOf_class2 (op := 154) rfl).trans (by show some (Instr.vmovBc (bits (d ++ a ++ 0#7) 14 7) (bits (d ++ a ++ 0#7) 7 7)) = _; rw [part_d, part_a]))
theorem vmovRd (d : BitVec 7) (a : BitVec 7) (b : BitVec 7) : Statement (.vmovRd d a b) := decodeWord_encode (by simp) ((ctorOf_class2 (op := 155) rfl).trans (by show some (Instr.vmovRd (bits (d ++ a ++ b) 14 7) (bits (d ++ a ++ b) 7 7) (bits (d ++ a ++ b) 0 7)) = _; rw [part_d, part_a, part_b]))
theorem vpopc (d : BitVec 7) (a : BitVec 7) : Statement (.vpopc d a) := decodeWord_encode (by simp) ((ctorOf_class2 (op := 156) rfl).trans (by show some (Instr.vpopc (bits (d ++ a ++ 0#7) 14 7) (bits (d ++ a ++ 0#7) 7 7)) = _; rw [part_d, part_a]))
theorem vclz (d : BitVec 7) (a : BitVec 7) : Statement (.vclz d a) := decodeWord_encode (by simp) ((ctorOf_class2 (op := 157) rfl).trans (by show some (Instr.vclz (bits (d ++ a ++ 0#7) 14 7) (bits (d ++ a ++ 0#7) 7 7)) = _; rw [part_d, part_a]))
theorem vbfeS (d : BitVec 7) (a : BitVec 7) (b : BitVec 7) : Statement (.vbfeS d a b) := decodeWord_encode (by simp) ((ctorOf_class2 (op := 158) rfl).trans (by show some (Instr.vbfeS (bits (d ++ a ++ b) 14 7) (bits (d ++ a ++ b) 7 7) (bits (d ++ a ++ b) 0 7)) = _; rw [part_d, part_a, part_b]))
theorem vbfeU (d : BitVec 7) (a : BitVec 7) (b : BitVec 7) : Statement (.vbfeU d a b) := decodeWord_encode (by simp) ((ctorOf_class2 (op := 159) rfl).trans (by show some (Instr.vbfeU (bits (d ++ a ++ b) 14 7) (bits (d ++ a ++ b) 7 7) (bits (d ++ a ++ b) 0 7)) = _; rw [part_d, part_a, part_b]))
theorem vbfi (d : BitVec 7) (a : BitVec 7) (b : BitVec 7) : Statement (.vbfi d a b) := decodeWord_encode (by simp) ((ctorOf_class2 (op := 160) rfl).trans (by show some (Instr.vbfi (bits (d ++ a ++ b) 14 7) (bits (d ++ a ++ b) 7 7) (bits (d ++ a ++ b) 0 7)) = _; rw [part_d, part_a, part_b]))
theorem fadd (d : BitVec 7) (a : BitVec 7) (b : BitVec 7) : Statement (.fadd d a b) := decodeWord_encode (by simp) ((ctorOf_class3 (op := 192) rfl).trans (by show some (Instr.fadd (bits (d ++ a ++ b) 14 7) (bits (d ++ a ++ b) 7 7) (bits (d ++ a ++ b) 0 7)) = _; rw [part_d, part_a, part_b]))
theorem faddRn (d : BitVec 7) (a : BitVec 7) (b : BitVec 7) : Statement (.faddRn d a b) := decodeWord_encode (by simp) ((ctorOf_class3 (op := 193) rfl).trans (by show some (Instr.faddRn (bits (d ++ a ++ b) 14 7) (bits (d ++ a ++ b) 7 7) (bits (d ++ a ++ b) 0 7)) = _; rw [part_d, part_a, part_b]))
theorem faddRz (d : BitVec 7) (a : BitVec 7) (b : BitVec 7) : Statement (.faddRz d a b) := decodeWord_encode (by simp) ((ctorOf_class3 (op := 194) rfl).trans (by show some (Instr.faddRz (bits (d ++ a ++ b) 14 7) (bits (d ++ a ++ b) 7 7) (bits (d ++ a ++ b) 0 7)) = _; rw [part_d, part_a, part_b]))
theorem fsub (d : BitVec 7) (a : BitVec 7) (b : BitVec 7) : Statement (.fsub d a b) := decodeWord_encode (by simp) ((ctorOf_class3 (op := 195) rfl).trans (by show some (Instr.fsub (bits (d ++ a ++ b) 14 7) (bits (d ++ a ++ b) 7 7) (bits (d ++ a ++ b) 0 7)) = _; rw [part_d, part_a, part_b]))
theorem fsubRn (d : BitVec 7) (a : BitVec 7) (b : BitVec 7) : Statement (.fsubRn d a b) := decodeWord_encode (by simp) ((ctorOf_class3 (op := 196) rfl).trans (by show some (Instr.fsubRn (bits (d ++ a ++ b) 14 7) (bits (d ++ a ++ b) 7 7) (bits (d ++ a ++ b) 0 7)) = _; rw [part_d, part_a, part_b]))
theorem fsubRz (d : BitVec 7) (a : BitVec 7) (b : BitVec 7) : Statement (.fsubRz d a b) := decodeWord_encode (by simp) ((ctorOf_class3 (op := 197) rfl).trans (by show some (Instr.fsubRz (bits (d ++ a ++ b) 14 7) (bits (d ++ a ++ b) 7 7) (bits (d ++ a ++ b) 0 7)) = _; rw [part_d, part_a, part_b]))
theorem fmul (d : BitVec 7) (a : BitVec 7) (b : BitVec 7) : Statement (.fmul d a b) := decodeWord_encode (by simp) ((ctorOf_class3 (op := 198) rfl).trans (by show some (Instr.fmul (bits (d ++ a ++ b) 14 7) (bits (d ++ a ++ b) 7 7) (bits (d ++ a ++ b) 0 7)) = _; rw [part_d, part_a, part_b]))
theorem fmulRn (d : BitVec 7) (a : BitVec 7) (b : BitVec 7) : Statement (.fmulRn d a b) := decodeWord_encode (by simp) ((ctorOf_class3 (op := 199) rfl).trans (by show some (Instr.fmulRn (bits (d ++ a ++ b) 14 7) (bits (d ++ a ++ b) 7 7) (bits (d ++ a ++ b) 0 7)) = _; rw [part_d, part_a, part_b]))
theorem fmulRz (d : BitVec 7) (a : BitVec 7) (b : BitVec 7) : Statement (.fmulRz d a b) := decodeWord_encode (by simp) ((ctorOf_class3 (op := 200) rfl).trans (by show some (Instr.fmulRz (bits (d ++ a ++ b) 14 7) (bits (d ++ a ++ b) 7 7) (bits (d ++ a ++ b) 0 7)) = _; rw [part_d, part_a, part_b]))
theorem ffma (d : BitVec 7) (a : BitVec 7) (b : BitVec 7) : Statement (.ffma d a b) := decodeWord_encode (by simp) ((ctorOf_class3 (op := 201) rfl).trans (by show some (Instr.ffma (bits (d ++ a ++ b) 14 7) (bits (d ++ a ++ b) 7 7) (bits (d ++ a ++ b) 0 7)) = _; rw [part_d, part_a, part_b]))
theorem ffmaRn (d : BitVec 7) (a : BitVec 7) (b : BitVec 7) : Statement (.ffmaRn d a b) := decodeWord_encode (by simp) ((ctorOf_class3 (op := 202) rfl).trans (by show some (Instr.ffmaRn (bits (d ++ a ++ b) 14 7) (bits (d ++ a ++ b) 7 7) (bits (d ++ a ++ b) 0 7)) = _; rw [part_d, part_a, part_b]))
theorem ffmaRz (d : BitVec 7) (a : BitVec 7) (b : BitVec 7) : Statement (.ffmaRz d a b) := decodeWord_encode (by simp) ((ctorOf_class3 (op := 203) rfl).trans (by show some (Instr.ffmaRz (bits (d ++ a ++ b) 14 7) (bits (d ++ a ++ b) 7 7) (bits (d ++ a ++ b) 0 7)) = _; rw [part_d, part_a, part_b]))
theorem fmin (d : BitVec 7) (a : BitVec 7) (b : BitVec 7) : Statement (.fmin d a b) := decodeWord_encode (by simp) ((ctorOf_class3 (op := 204) rfl).trans (by show some (Instr.fmin (bits (d ++ a ++ b) 14 7) (bits (d ++ a ++ b) 7 7) (bits (d ++ a ++ b) 0 7)) = _; rw [part_d, part_a, part_b]))
theorem fmax (d : BitVec 7) (a : BitVec 7) (b : BitVec 7) : Statement (.fmax d a b) := decodeWord_encode (by simp) ((ctorOf_class3 (op := 205) rfl).trans (by show some (Instr.fmax (bits (d ++ a ++ b) 14 7) (bits (d ++ a ++ b) 7 7) (bits (d ++ a ++ b) 0 7)) = _; rw [part_d, part_a, part_b]))
theorem fcmpEq (d : BitVec 7) (a : BitVec 7) (b : BitVec 7) : Statement (.fcmpEq d a b) := decodeWord_encode (by simp) ((ctorOf_class3 (op := 206) rfl).trans (by show some (Instr.fcmpEq (bits (d ++ a ++ b) 14 7) (bits (d ++ a ++ b) 7 7) (bits (d ++ a ++ b) 0 7)) = _; rw [part_d, part_a, part_b]))
theorem fcmpNe (d : BitVec 7) (a : BitVec 7) (b : BitVec 7) : Statement (.fcmpNe d a b) := decodeWord_encode (by simp) ((ctorOf_class3 (op := 207) rfl).trans (by show some (Instr.fcmpNe (bits (d ++ a ++ b) 14 7) (bits (d ++ a ++ b) 7 7) (bits (d ++ a ++ b) 0 7)) = _; rw [part_d, part_a, part_b]))
theorem fcmpLt (d : BitVec 7) (a : BitVec 7) (b : BitVec 7) : Statement (.fcmpLt d a b) := decodeWord_encode (by simp) ((ctorOf_class3 (op := 208) rfl).trans (by show some (Instr.fcmpLt (bits (d ++ a ++ b) 14 7) (bits (d ++ a ++ b) 7 7) (bits (d ++ a ++ b) 0 7)) = _; rw [part_d, part_a, part_b]))
theorem fcmpLe (d : BitVec 7) (a : BitVec 7) (b : BitVec 7) : Statement (.fcmpLe d a b) := decodeWord_encode (by simp) ((ctorOf_class3 (op := 209) rfl).trans (by show some (Instr.fcmpLe (bits (d ++ a ++ b) 14 7) (bits (d ++ a ++ b) 7 7) (bits (d ++ a ++ b) 0 7)) = _; rw [part_d, part_a, part_b]))
theorem fcmpUn (d : BitVec 7) (a : BitVec 7) (b : BitVec 7) : Statement (.fcmpUn d a b) := decodeWord_encode (by simp) ((ctorOf_class3 (op := 210) rfl).trans (by show some (Instr.fcmpUn (bits (d ++ a ++ b) 14 7) (bits (d ++ a ++ b) 7 7) (bits (d ++ a ++ b) 0 7)) = _; rw [part_d, part_a, part_b]))
theorem fcmpOrd (d : BitVec 7) (a : BitVec 7) (b : BitVec 7) : Statement (.fcmpOrd d a b) := decodeWord_encode (by simp) ((ctorOf_class3 (op := 211) rfl).trans (by show some (Instr.fcmpOrd (bits (d ++ a ++ b) 14 7) (bits (d ++ a ++ b) 7 7) (bits (d ++ a ++ b) 0 7)) = _; rw [part_d, part_a, part_b]))
theorem frcp (d : BitVec 7) (a : BitVec 7) : Statement (.frcp d a) := decodeWord_encode (by simp) ((ctorOf_class3 (op := 212) rfl).trans (by show some (Instr.frcp (bits (d ++ a ++ 0#7) 14 7) (bits (d ++ a ++ 0#7) 7 7)) = _; rw [part_d, part_a]))
theorem frsq (d : BitVec 7) (a : BitVec 7) : Statement (.frsq d a) := decodeWord_encode (by simp) ((ctorOf_class3 (op := 213) rfl).trans (by show some (Instr.frsq (bits (d ++ a ++ 0#7) 14 7) (bits (d ++ a ++ 0#7) 7 7)) = _; rw [part_d, part_a]))
theorem fsqrt (d : BitVec 7) (a : BitVec 7) : Statement (.fsqrt d a) := decodeWord_encode (by simp) ((ctorOf_class3 (op := 214) rfl).trans (by show some (Instr.fsqrt (bits (d ++ a ++ 0#7) 14 7) (bits (d ++ a ++ 0#7) 7 7)) = _; rw [part_d, part_a]))
theorem fdiv (d : BitVec 7) (a : BitVec 7) (b : BitVec 7) : Statement (.fdiv d a b) := decodeWord_encode (by simp) ((ctorOf_class3 (op := 215) rfl).trans (by show some (Instr.fdiv (bits (d ++ a ++ b) 14 7) (bits (d ++ a ++ b) 7 7) (bits (d ++ a ++ b) 0 7)) = _; rw [part_d, part_a, part_b]))
theorem fexp2 (d : BitVec 7) (a : BitVec 7) : Statement (.fexp2 d a) := decodeWord_encode (by simp) ((ctorOf_class3 (op := 216) rfl).trans (by show some (Instr.fexp2 (bits (d ++ a ++ 0#7) 14 7) (bits (d ++ a ++ 0#7) 7 7)) = _; rw [part_d, part_a]))
theorem flog2 (d : BitVec 7) (a : BitVec 7) : Statement (.flog2 d a) := decodeWord_encode (by simp) ((ctorOf_class3 (op := 217) rfl).trans (by show some (Instr.flog2 (bits (d ++ a ++ 0#7) 14 7) (bits (d ++ a ++ 0#7) 7 7)) = _; rw [part_d, part_a]))
theorem fsin (d : BitVec 7) (a : BitVec 7) : Statement (.fsin d a) := decodeWord_encode (by simp) ((ctorOf_class3 (op := 218) rfl).trans (by show some (Instr.fsin (bits (d ++ a ++ 0#7) 14 7) (bits (d ++ a ++ 0#7) 7 7)) = _; rw [part_d, part_a]))
theorem fcos (d : BitVec 7) (a : BitVec 7) : Statement (.fcos d a) := decodeWord_encode (by simp) ((ctorOf_class3 (op := 219) rfl).trans (by show some (Instr.fcos (bits (d ++ a ++ 0#7) 14 7) (bits (d ++ a ++ 0#7) 7 7)) = _; rw [part_d, part_a]))
theorem fcvtF32F16 (d : BitVec 7) (a : BitVec 7) : Statement (.fcvtF32F16 d a) := decodeWord_encode (by simp) ((ctorOf_class4 (op := 256) rfl).trans (by show some (Instr.fcvtF32F16 (bits (d ++ a ++ 0#7) 14 7) (bits (d ++ a ++ 0#7) 7 7)) = _; rw [part_d, part_a]))
theorem fcvtF32Bf16 (d : BitVec 7) (a : BitVec 7) : Statement (.fcvtF32Bf16 d a) := decodeWord_encode (by simp) ((ctorOf_class4 (op := 257) rfl).trans (by show some (Instr.fcvtF32Bf16 (bits (d ++ a ++ 0#7) 14 7) (bits (d ++ a ++ 0#7) 7 7)) = _; rw [part_d, part_a]))
theorem fcvtF16F32 (d : BitVec 7) (a : BitVec 7) : Statement (.fcvtF16F32 d a) := decodeWord_encode (by simp) ((ctorOf_class4 (op := 258) rfl).trans (by show some (Instr.fcvtF16F32 (bits (d ++ a ++ 0#7) 14 7) (bits (d ++ a ++ 0#7) 7 7)) = _; rw [part_d, part_a]))
theorem fcvtBf16F32 (d : BitVec 7) (a : BitVec 7) : Statement (.fcvtBf16F32 d a) := decodeWord_encode (by simp) ((ctorOf_class4 (op := 259) rfl).trans (by show some (Instr.fcvtBf16F32 (bits (d ++ a ++ 0#7) 14 7) (bits (d ++ a ++ 0#7) 7 7)) = _; rw [part_d, part_a]))
theorem fcvtF32E4m3 (d : BitVec 7) (a : BitVec 7) : Statement (.fcvtF32E4m3 d a) := decodeWord_encode (by simp) ((ctorOf_class4 (op := 260) rfl).trans (by show some (Instr.fcvtF32E4m3 (bits (d ++ a ++ 0#7) 14 7) (bits (d ++ a ++ 0#7) 7 7)) = _; rw [part_d, part_a]))
theorem fcvtF32E5m2 (d : BitVec 7) (a : BitVec 7) : Statement (.fcvtF32E5m2 d a) := decodeWord_encode (by simp) ((ctorOf_class4 (op := 261) rfl).trans (by show some (Instr.fcvtF32E5m2 (bits (d ++ a ++ 0#7) 14 7) (bits (d ++ a ++ 0#7) 7 7)) = _; rw [part_d, part_a]))
theorem fcvtE4m3F32Sat (d : BitVec 7) (a : BitVec 7) : Statement (.fcvtE4m3F32Sat d a) := decodeWord_encode (by simp) ((ctorOf_class4 (op := 262) rfl).trans (by show some (Instr.fcvtE4m3F32Sat (bits (d ++ a ++ 0#7) 14 7) (bits (d ++ a ++ 0#7) 7 7)) = _; rw [part_d, part_a]))
theorem fcvtE4m3F32 (d : BitVec 7) (a : BitVec 7) : Statement (.fcvtE4m3F32 d a) := decodeWord_encode (by simp) ((ctorOf_class4 (op := 263) rfl).trans (by show some (Instr.fcvtE4m3F32 (bits (d ++ a ++ 0#7) 14 7) (bits (d ++ a ++ 0#7) 7 7)) = _; rw [part_d, part_a]))
theorem fcvtE5m2F32Sat (d : BitVec 7) (a : BitVec 7) : Statement (.fcvtE5m2F32Sat d a) := decodeWord_encode (by simp) ((ctorOf_class4 (op := 264) rfl).trans (by show some (Instr.fcvtE5m2F32Sat (bits (d ++ a ++ 0#7) 14 7) (bits (d ++ a ++ 0#7) 7 7)) = _; rw [part_d, part_a]))
theorem fcvtE5m2F32 (d : BitVec 7) (a : BitVec 7) : Statement (.fcvtE5m2F32 d a) := decodeWord_encode (by simp) ((ctorOf_class4 (op := 265) rfl).trans (by show some (Instr.fcvtE5m2F32 (bits (d ++ a ++ 0#7) 14 7) (bits (d ++ a ++ 0#7) 7 7)) = _; rw [part_d, part_a]))
theorem fcvtF32T8 (d : BitVec 7) (a : BitVec 7) : Statement (.fcvtF32T8 d a) := decodeWord_encode (by simp) ((ctorOf_class4 (op := 266) rfl).trans (by show some (Instr.fcvtF32T8 (bits (d ++ a ++ 0#7) 14 7) (bits (d ++ a ++ 0#7) 7 7)) = _; rw [part_d, part_a]))
theorem fcvtT8F32 (d : BitVec 7) (a : BitVec 7) : Statement (.fcvtT8F32 d a) := decodeWord_encode (by simp) ((ctorOf_class4 (op := 267) rfl).trans (by show some (Instr.fcvtT8F32 (bits (d ++ a ++ 0#7) 14 7) (bits (d ++ a ++ 0#7) 7 7)) = _; rw [part_d, part_a]))
theorem fcvtF32T6 (d : BitVec 7) (a : BitVec 7) : Statement (.fcvtF32T6 d a) := decodeWord_encode (by simp) ((ctorOf_class4 (op := 268) rfl).trans (by show some (Instr.fcvtF32T6 (bits (d ++ a ++ 0#7) 14 7) (bits (d ++ a ++ 0#7) 7 7)) = _; rw [part_d, part_a]))
theorem fcvtT6F32 (d : BitVec 7) (a : BitVec 7) : Statement (.fcvtT6F32 d a) := decodeWord_encode (by simp) ((ctorOf_class4 (op := 269) rfl).trans (by show some (Instr.fcvtT6F32 (bits (d ++ a ++ 0#7) 14 7) (bits (d ++ a ++ 0#7) 7 7)) = _; rw [part_d, part_a]))
theorem fcvtF32E2m1 (d : BitVec 7) (a : BitVec 7) : Statement (.fcvtF32E2m1 d a) := decodeWord_encode (by simp) ((ctorOf_class4 (op := 270) rfl).trans (by show some (Instr.fcvtF32E2m1 (bits (d ++ a ++ 0#7) 14 7) (bits (d ++ a ++ 0#7) 7 7)) = _; rw [part_d, part_a]))
theorem fcvtE2m1F32 (d : BitVec 7) (a : BitVec 7) : Statement (.fcvtE2m1F32 d a) := decodeWord_encode (by simp) ((ctorOf_class4 (op := 271) rfl).trans (by show some (Instr.fcvtE2m1F32 (bits (d ++ a ++ 0#7) 14 7) (bits (d ++ a ++ 0#7) 7 7)) = _; rw [part_d, part_a]))
theorem fcvtF32Int (d : BitVec 7) (a : BitVec 7) : Statement (.fcvtF32Int d a) := decodeWord_encode (by simp) ((ctorOf_class4 (op := 272) rfl).trans (by show some (Instr.fcvtF32Int (bits (d ++ a ++ 0#7) 14 7) (bits (d ++ a ++ 0#7) 7 7)) = _; rw [part_d, part_a]))
theorem fcvtF32Uint (d : BitVec 7) (a : BitVec 7) : Statement (.fcvtF32Uint d a) := decodeWord_encode (by simp) ((ctorOf_class4 (op := 273) rfl).trans (by show some (Instr.fcvtF32Uint (bits (d ++ a ++ 0#7) 14 7) (bits (d ++ a ++ 0#7) 7 7)) = _; rw [part_d, part_a]))
theorem fcvtIntF32 (d : BitVec 7) (a : BitVec 7) : Statement (.fcvtIntF32 d a) := decodeWord_encode (by simp) ((ctorOf_class4 (op := 274) rfl).trans (by show some (Instr.fcvtIntF32 (bits (d ++ a ++ 0#7) 14 7) (bits (d ++ a ++ 0#7) 7 7)) = _; rw [part_d, part_a]))
theorem fcvtUintF32 (d : BitVec 7) (a : BitVec 7) : Statement (.fcvtUintF32 d a) := decodeWord_encode (by simp) ((ctorOf_class4 (op := 275) rfl).trans (by show some (Instr.fcvtUintF32 (bits (d ++ a ++ 0#7) 14 7) (bits (d ++ a ++ 0#7) 7 7)) = _; rw [part_d, part_a]))
theorem fcvtF64F32 (d : BitVec 7) (a : BitVec 7) : Statement (.fcvtF64F32 d a) := decodeWord_encode (by simp) ((ctorOf_class4 (op := 276) rfl).trans (by show some (Instr.fcvtF64F32 (bits (d ++ a ++ 0#7) 14 7) (bits (d ++ a ++ 0#7) 7 7)) = _; rw [part_d, part_a]))
theorem fcvtF32F64 (d : BitVec 7) (a : BitVec 7) : Statement (.fcvtF32F64 d a) := decodeWord_encode (by simp) ((ctorOf_class4 (op := 277) rfl).trans (by show some (Instr.fcvtF32F64 (bits (d ++ a ++ 0#7) 14 7) (bits (d ++ a ++ 0#7) 7 7)) = _; rw [part_d, part_a]))
theorem fcvtF64Int (d : BitVec 7) (a : BitVec 7) : Statement (.fcvtF64Int d a) := decodeWord_encode (by simp) ((ctorOf_class4 (op := 278) rfl).trans (by show some (Instr.fcvtF64Int (bits (d ++ a ++ 0#7) 14 7) (bits (d ++ a ++ 0#7) 7 7)) = _; rw [part_d, part_a]))
theorem fcvtIntF64 (d : BitVec 7) (a : BitVec 7) : Statement (.fcvtIntF64 d a) := decodeWord_encode (by simp) ((ctorOf_class4 (op := 279) rfl).trans (by show some (Instr.fcvtIntF64 (bits (d ++ a ++ 0#7) 14 7) (bits (d ++ a ++ 0#7) 7 7)) = _; rw [part_d, part_a]))
theorem hadd2F16 (d : BitVec 7) (a : BitVec 7) (b : BitVec 7) : Statement (.hadd2F16 d a b) := decodeWord_encode (by simp) ((ctorOf_class4 (op := 280) rfl).trans (by show some (Instr.hadd2F16 (bits (d ++ a ++ b) 14 7) (bits (d ++ a ++ b) 7 7) (bits (d ++ a ++ b) 0 7)) = _; rw [part_d, part_a, part_b]))
theorem hadd2Bf16 (d : BitVec 7) (a : BitVec 7) (b : BitVec 7) : Statement (.hadd2Bf16 d a b) := decodeWord_encode (by simp) ((ctorOf_class4 (op := 281) rfl).trans (by show some (Instr.hadd2Bf16 (bits (d ++ a ++ b) 14 7) (bits (d ++ a ++ b) 7 7) (bits (d ++ a ++ b) 0 7)) = _; rw [part_d, part_a, part_b]))
theorem hmul2F16 (d : BitVec 7) (a : BitVec 7) (b : BitVec 7) : Statement (.hmul2F16 d a b) := decodeWord_encode (by simp) ((ctorOf_class4 (op := 282) rfl).trans (by show some (Instr.hmul2F16 (bits (d ++ a ++ b) 14 7) (bits (d ++ a ++ b) 7 7) (bits (d ++ a ++ b) 0 7)) = _; rw [part_d, part_a, part_b]))
theorem hmul2Bf16 (d : BitVec 7) (a : BitVec 7) (b : BitVec 7) : Statement (.hmul2Bf16 d a b) := decodeWord_encode (by simp) ((ctorOf_class4 (op := 283) rfl).trans (by show some (Instr.hmul2Bf16 (bits (d ++ a ++ b) 14 7) (bits (d ++ a ++ b) 7 7) (bits (d ++ a ++ b) 0 7)) = _; rw [part_d, part_a, part_b]))
theorem hfma2F16 (d : BitVec 7) (a : BitVec 7) (b : BitVec 7) : Statement (.hfma2F16 d a b) := decodeWord_encode (by simp) ((ctorOf_class4 (op := 284) rfl).trans (by show some (Instr.hfma2F16 (bits (d ++ a ++ b) 14 7) (bits (d ++ a ++ b) 7 7) (bits (d ++ a ++ b) 0 7)) = _; rw [part_d, part_a, part_b]))
theorem hfma2Bf16 (d : BitVec 7) (a : BitVec 7) (b : BitVec 7) : Statement (.hfma2Bf16 d a b) := decodeWord_encode (by simp) ((ctorOf_class4 (op := 285) rfl).trans (by show some (Instr.hfma2Bf16 (bits (d ++ a ++ b) 14 7) (bits (d ++ a ++ b) 7 7) (bits (d ++ a ++ b) 0 7)) = _; rw [part_d, part_a, part_b]))
theorem dadd (d : BitVec 7) (a : BitVec 7) (b : BitVec 7) : Statement (.dadd d a b) := decodeWord_encode (by simp) ((ctorOf_class4 (op := 286) rfl).trans (by show some (Instr.dadd (bits (d ++ a ++ b) 14 7) (bits (d ++ a ++ b) 7 7) (bits (d ++ a ++ b) 0 7)) = _; rw [part_d, part_a, part_b]))
theorem dmul (d : BitVec 7) (a : BitVec 7) (b : BitVec 7) : Statement (.dmul d a b) := decodeWord_encode (by simp) ((ctorOf_class4 (op := 287) rfl).trans (by show some (Instr.dmul (bits (d ++ a ++ b) 14 7) (bits (d ++ a ++ b) 7 7) (bits (d ++ a ++ b) 0 7)) = _; rw [part_d, part_a, part_b]))
theorem dfma (d : BitVec 7) (a : BitVec 7) (b : BitVec 7) : Statement (.dfma d a b) := decodeWord_encode (by simp) ((ctorOf_class4 (op := 288) rfl).trans (by show some (Instr.dfma (bits (d ++ a ++ b) 14 7) (bits (d ++ a ++ b) 7 7) (bits (d ++ a ++ b) 0 7)) = _; rw [part_d, part_a, part_b]))
theorem ddiv (d : BitVec 7) (a : BitVec 7) (b : BitVec 7) : Statement (.ddiv d a b) := decodeWord_encode (by simp) ((ctorOf_class4 (op := 289) rfl).trans (by show some (Instr.ddiv (bits (d ++ a ++ b) 14 7) (bits (d ++ a ++ b) 7 7) (bits (d ++ a ++ b) 0 7)) = _; rw [part_d, part_a, part_b]))
theorem dsqrt (d : BitVec 7) (a : BitVec 7) : Statement (.dsqrt d a) := decodeWord_encode (by simp) ((ctorOf_class4 (op := 290) rfl).trans (by show some (Instr.dsqrt (bits (d ++ a ++ 0#7) 14 7) (bits (d ++ a ++ 0#7) 7 7)) = _; rw [part_d, part_a]))
theorem dcmpEq (d : BitVec 7) (a : BitVec 7) (b : BitVec 7) : Statement (.dcmpEq d a b) := decodeWord_encode (by simp) ((ctorOf_class4 (op := 291) rfl).trans (by show some (Instr.dcmpEq (bits (d ++ a ++ b) 14 7) (bits (d ++ a ++ b) 7 7) (bits (d ++ a ++ b) 0 7)) = _; rw [part_d, part_a, part_b]))
theorem dcmpLt (d : BitVec 7) (a : BitVec 7) (b : BitVec 7) : Statement (.dcmpLt d a b) := decodeWord_encode (by simp) ((ctorOf_class4 (op := 292) rfl).trans (by show some (Instr.dcmpLt (bits (d ++ a ++ b) 14 7) (bits (d ++ a ++ b) 7 7) (bits (d ++ a ++ b) 0 7)) = _; rw [part_d, part_a, part_b]))
theorem dcmpLe (d : BitVec 7) (a : BitVec 7) (b : BitVec 7) : Statement (.dcmpLe d a b) := decodeWord_encode (by simp) ((ctorOf_class4 (op := 293) rfl).trans (by show some (Instr.dcmpLe (bits (d ++ a ++ b) 14 7) (bits (d ++ a ++ b) 7 7) (bits (d ++ a ++ b) 0 7)) = _; rw [part_d, part_a, part_b]))
theorem dcmpUn (d : BitVec 7) (a : BitVec 7) (b : BitVec 7) : Statement (.dcmpUn d a b) := decodeWord_encode (by simp) ((ctorOf_class4 (op := 294) rfl).trans (by show some (Instr.dcmpUn (bits (d ++ a ++ b) 14 7) (bits (d ++ a ++ b) 7 7) (bits (d ++ a ++ b) 0 7)) = _; rw [part_d, part_a, part_b]))
theorem qswz (d : BitVec 7) (a : BitVec 7) (b : BitVec 7) : Statement (.qswz d a b) := decodeWord_encode (by simp) ((ctorOf_class5 (op := 320) rfl).trans (by show some (Instr.qswz (bits (d ++ a ++ b) 14 7) (bits (d ++ a ++ b) 7 7) (bits (d ++ a ++ b) 0 7)) = _; rw [part_d, part_a, part_b]))
theorem qddxFine (d : BitVec 7) (a : BitVec 7) : Statement (.qddxFine d a) := decodeWord_encode (by simp) ((ctorOf_class5 (op := 321) rfl).trans (by show some (Instr.qddxFine (bits (d ++ a ++ 0#7) 14 7) (bits (d ++ a ++ 0#7) 7 7)) = _; rw [part_d, part_a]))
theorem qddxCoarse (d : BitVec 7) (a : BitVec 7) : Statement (.qddxCoarse d a) := decodeWord_encode (by simp) ((ctorOf_class5 (op := 322) rfl).trans (by show some (Instr.qddxCoarse (bits (d ++ a ++ 0#7) 14 7) (bits (d ++ a ++ 0#7) 7 7)) = _; rw [part_d, part_a]))
theorem qddyFine (d : BitVec 7) (a : BitVec 7) : Statement (.qddyFine d a) := decodeWord_encode (by simp) ((ctorOf_class5 (op := 323) rfl).trans (by show some (Instr.qddyFine (bits (d ++ a ++ 0#7) 14 7) (bits (d ++ a ++ 0#7) 7 7)) = _; rw [part_d, part_a]))
theorem qddyCoarse (d : BitVec 7) (a : BitVec 7) : Statement (.qddyCoarse d a) := decodeWord_encode (by simp) ((ctorOf_class5 (op := 324) rfl).trans (by show some (Instr.qddyCoarse (bits (d ++ a ++ 0#7) 14 7) (bits (d ++ a ++ 0#7) 7 7)) = _; rw [part_d, part_a]))
theorem xshfIdx (d : BitVec 7) (a : BitVec 7) (b : BitVec 7) : Statement (.xshfIdx d a b) := decodeWord_encode (by simp) ((ctorOf_class5 (op := 325) rfl).trans (by show some (Instr.xshfIdx (bits (d ++ a ++ b) 14 7) (bits (d ++ a ++ b) 7 7) (bits (d ++ a ++ b) 0 7)) = _; rw [part_d, part_a, part_b]))
theorem xshfUp (d : BitVec 7) (a : BitVec 7) (b : BitVec 7) : Statement (.xshfUp d a b) := decodeWord_encode (by simp) ((ctorOf_class5 (op := 326) rfl).trans (by show some (Instr.xshfUp (bits (d ++ a ++ b) 14 7) (bits (d ++ a ++ b) 7 7) (bits (d ++ a ++ b) 0 7)) = _; rw [part_d, part_a, part_b]))
theorem xshfDown (d : BitVec 7) (a : BitVec 7) (b : BitVec 7) : Statement (.xshfDown d a b) := decodeWord_encode (by simp) ((ctorOf_class5 (op := 327) rfl).trans (by show some (Instr.xshfDown (bits (d ++ a ++ b) 14 7) (bits (d ++ a ++ b) 7 7) (bits (d ++ a ++ b) 0 7)) = _; rw [part_d, part_a, part_b]))
theorem xshfXor (d : BitVec 7) (a : BitVec 7) (b : BitVec 7) : Statement (.xshfXor d a b) := decodeWord_encode (by simp) ((ctorOf_class5 (op := 328) rfl).trans (by show some (Instr.xshfXor (bits (d ++ a ++ b) 14 7) (bits (d ++ a ++ b) 7 7) (bits (d ++ a ++ b) 0 7)) = _; rw [part_d, part_a, part_b]))
theorem xbal (d : BitVec 7) (a : BitVec 7) : Statement (.xbal d a) := decodeWord_encode (by simp) ((ctorOf_class5 (op := 329) rfl).trans (by show some (Instr.xbal (bits (d ++ a ++ 0#7) 14 7) (bits (d ++ a ++ 0#7) 7 7)) = _; rw [part_d, part_a]))
theorem xredAddInt (d : BitVec 7) (a : BitVec 7) : Statement (.xredAddInt d a) := decodeWord_encode (by simp) ((ctorOf_class5 (op := 330) rfl).trans (by show some (Instr.xredAddInt (bits (d ++ a ++ 0#7) 14 7) (bits (d ++ a ++ 0#7) 7 7)) = _; rw [part_d, part_a]))
theorem xredAddF32 (d : BitVec 7) (a : BitVec 7) : Statement (.xredAddF32 d a) := decodeWord_encode (by simp) ((ctorOf_class5 (op := 331) rfl).trans (by show some (Instr.xredAddF32 (bits (d ++ a ++ 0#7) 14 7) (bits (d ++ a ++ 0#7) 7 7)) = _; rw [part_d, part_a]))
theorem xredMinF32 (d : BitVec 7) (a : BitVec 7) : Statement (.xredMinF32 d a) := decodeWord_encode (by simp) ((ctorOf_class5 (op := 332) rfl).trans (by show some (Instr.xredMinF32 (bits (d ++ a ++ 0#7) 14 7) (bits (d ++ a ++ 0#7) 7 7)) = _; rw [part_d, part_a]))
theorem xredMaxF32 (d : BitVec 7) (a : BitVec 7) : Statement (.xredMaxF32 d a) := decodeWord_encode (by simp) ((ctorOf_class5 (op := 333) rfl).trans (by show some (Instr.xredMaxF32 (bits (d ++ a ++ 0#7) 14 7) (bits (d ++ a ++ 0#7) 7 7)) = _; rw [part_d, part_a]))
theorem xredAnd (d : BitVec 7) (a : BitVec 7) : Statement (.xredAnd d a) := decodeWord_encode (by simp) ((ctorOf_class5 (op := 334) rfl).trans (by show some (Instr.xredAnd (bits (d ++ a ++ 0#7) 14 7) (bits (d ++ a ++ 0#7) 7 7)) = _; rw [part_d, part_a]))
theorem xredOr (d : BitVec 7) (a : BitVec 7) : Statement (.xredOr d a) := decodeWord_encode (by simp) ((ctorOf_class5 (op := 335) rfl).trans (by show some (Instr.xredOr (bits (d ++ a ++ 0#7) 14 7) (bits (d ++ a ++ 0#7) 7 7)) = _; rw [part_d, part_a]))
theorem xscanAddInt (d : BitVec 7) (a : BitVec 7) : Statement (.xscanAddInt d a) := decodeWord_encode (by simp) ((ctorOf_class5 (op := 336) rfl).trans (by show some (Instr.xscanAddInt (bits (d ++ a ++ 0#7) 14 7) (bits (d ++ a ++ 0#7) 7 7)) = _; rw [part_d, part_a]))
theorem xscanAddF32 (d : BitVec 7) (a : BitVec 7) : Statement (.xscanAddF32 d a) := decodeWord_encode (by simp) ((ctorOf_class5 (op := 337) rfl).trans (by show some (Instr.xscanAddF32 (bits (d ++ a ++ 0#7) 14 7) (bits (d ++ a ++ 0#7) 7 7)) = _; rw [part_d, part_a]))
theorem xmaxiF16 (d : BitVec 7) (a : BitVec 7) (b : BitVec 7) : Statement (.xmaxiF16 d a b) := decodeWord_encode (by simp) ((ctorOf_class5 (op := 338) rfl).trans (by show some (Instr.xmaxiF16 (bits (d ++ a ++ b) 14 7) (bits (d ++ a ++ b) 7 7) (bits (d ++ a ++ b) 0 7)) = _; rw [part_d, part_a, part_b]))
theorem xmaxiF32 (d : BitVec 7) (a : BitVec 7) (b : BitVec 7) : Statement (.xmaxiF32 d a b) := decodeWord_encode (by simp) ((ctorOf_class5 (op := 339) rfl).trans (by show some (Instr.xmaxiF32 (bits (d ++ a ++ b) 14 7) (bits (d ++ a ++ b) 7 7) (bits (d ++ a ++ b) 0 7)) = _; rw [part_d, part_a, part_b]))
theorem vldBImm (d : BitVec 7) (a : BitVec 7) (imm : BitVec 7) : Statement (.vldBImm d a imm) := decodeWord_encode (by simp) ((ctorOf_class6 (op := 384) rfl).trans (by show some (Instr.vldBImm (bits (d ++ a ++ imm) 14 7) (bits (d ++ a ++ imm) 7 7) (bits (d ++ a ++ imm) 0 7)) = _; rw [part_d, part_a, part_b]))
theorem vldHImm (d : BitVec 7) (a : BitVec 7) (imm : BitVec 7) : Statement (.vldHImm d a imm) := decodeWord_encode (by simp) ((ctorOf_class6 (op := 385) rfl).trans (by show some (Instr.vldHImm (bits (d ++ a ++ imm) 14 7) (bits (d ++ a ++ imm) 7 7) (bits (d ++ a ++ imm) 0 7)) = _; rw [part_d, part_a, part_b]))
theorem vldWImm (d : BitVec 7) (a : BitVec 7) (imm : BitVec 7) : Statement (.vldWImm d a imm) := decodeWord_encode (by simp) ((ctorOf_class6 (op := 386) rfl).trans (by show some (Instr.vldWImm (bits (d ++ a ++ imm) 14 7) (bits (d ++ a ++ imm) 7 7) (bits (d ++ a ++ imm) 0 7)) = _; rw [part_d, part_a, part_b]))
theorem vldDImm (d : BitVec 7) (a : BitVec 7) (imm : BitVec 7) : Statement (.vldDImm d a imm) := decodeWord_encode (by simp) ((ctorOf_class6 (op := 387) rfl).trans (by show some (Instr.vldDImm (bits (d ++ a ++ imm) 14 7) (bits (d ++ a ++ imm) 7 7) (bits (d ++ a ++ imm) 0 7)) = _; rw [part_d, part_a, part_b]))
theorem vldBIdx (d : BitVec 7) (a : BitVec 7) (b : BitVec 7) : Statement (.vldBIdx d a b) := decodeWord_encode (by simp) ((ctorOf_class6 (op := 388) rfl).trans (by show some (Instr.vldBIdx (bits (d ++ a ++ b) 14 7) (bits (d ++ a ++ b) 7 7) (bits (d ++ a ++ b) 0 7)) = _; rw [part_d, part_a, part_b]))
theorem vldHIdx (d : BitVec 7) (a : BitVec 7) (b : BitVec 7) : Statement (.vldHIdx d a b) := decodeWord_encode (by simp) ((ctorOf_class6 (op := 389) rfl).trans (by show some (Instr.vldHIdx (bits (d ++ a ++ b) 14 7) (bits (d ++ a ++ b) 7 7) (bits (d ++ a ++ b) 0 7)) = _; rw [part_d, part_a, part_b]))
theorem vldWIdx (d : BitVec 7) (a : BitVec 7) (b : BitVec 7) : Statement (.vldWIdx d a b) := decodeWord_encode (by simp) ((ctorOf_class6 (op := 390) rfl).trans (by show some (Instr.vldWIdx (bits (d ++ a ++ b) 14 7) (bits (d ++ a ++ b) 7 7) (bits (d ++ a ++ b) 0 7)) = _; rw [part_d, part_a, part_b]))
theorem vldDIdx (d : BitVec 7) (a : BitVec 7) (b : BitVec 7) : Statement (.vldDIdx d a b) := decodeWord_encode (by simp) ((ctorOf_class6 (op := 391) rfl).trans (by show some (Instr.vldDIdx (bits (d ++ a ++ b) 14 7) (bits (d ++ a ++ b) 7 7) (bits (d ++ a ++ b) 0 7)) = _; rw [part_d, part_a, part_b]))
theorem vstBImm (d : BitVec 7) (a : BitVec 7) (imm : BitVec 7) : Statement (.vstBImm d a imm) := decodeWord_encode (by simp) ((ctorOf_class6 (op := 392) rfl).trans (by show some (Instr.vstBImm (bits (d ++ a ++ imm) 14 7) (bits (d ++ a ++ imm) 7 7) (bits (d ++ a ++ imm) 0 7)) = _; rw [part_d, part_a, part_b]))
theorem vstHImm (d : BitVec 7) (a : BitVec 7) (imm : BitVec 7) : Statement (.vstHImm d a imm) := decodeWord_encode (by simp) ((ctorOf_class6 (op := 393) rfl).trans (by show some (Instr.vstHImm (bits (d ++ a ++ imm) 14 7) (bits (d ++ a ++ imm) 7 7) (bits (d ++ a ++ imm) 0 7)) = _; rw [part_d, part_a, part_b]))
theorem vstWImm (d : BitVec 7) (a : BitVec 7) (imm : BitVec 7) : Statement (.vstWImm d a imm) := decodeWord_encode (by simp) ((ctorOf_class6 (op := 394) rfl).trans (by show some (Instr.vstWImm (bits (d ++ a ++ imm) 14 7) (bits (d ++ a ++ imm) 7 7) (bits (d ++ a ++ imm) 0 7)) = _; rw [part_d, part_a, part_b]))
theorem vstDImm (d : BitVec 7) (a : BitVec 7) (imm : BitVec 7) : Statement (.vstDImm d a imm) := decodeWord_encode (by simp) ((ctorOf_class6 (op := 395) rfl).trans (by show some (Instr.vstDImm (bits (d ++ a ++ imm) 14 7) (bits (d ++ a ++ imm) 7 7) (bits (d ++ a ++ imm) 0 7)) = _; rw [part_d, part_a, part_b]))
theorem vstBIdx (d : BitVec 7) (a : BitVec 7) (b : BitVec 7) : Statement (.vstBIdx d a b) := decodeWord_encode (by simp) ((ctorOf_class6 (op := 396) rfl).trans (by show some (Instr.vstBIdx (bits (d ++ a ++ b) 14 7) (bits (d ++ a ++ b) 7 7) (bits (d ++ a ++ b) 0 7)) = _; rw [part_d, part_a, part_b]))
theorem vstHIdx (d : BitVec 7) (a : BitVec 7) (b : BitVec 7) : Statement (.vstHIdx d a b) := decodeWord_encode (by simp) ((ctorOf_class6 (op := 397) rfl).trans (by show some (Instr.vstHIdx (bits (d ++ a ++ b) 14 7) (bits (d ++ a ++ b) 7 7) (bits (d ++ a ++ b) 0 7)) = _; rw [part_d, part_a, part_b]))
theorem vstWIdx (d : BitVec 7) (a : BitVec 7) (b : BitVec 7) : Statement (.vstWIdx d a b) := decodeWord_encode (by simp) ((ctorOf_class6 (op := 398) rfl).trans (by show some (Instr.vstWIdx (bits (d ++ a ++ b) 14 7) (bits (d ++ a ++ b) 7 7) (bits (d ++ a ++ b) 0 7)) = _; rw [part_d, part_a, part_b]))
theorem vstDIdx (d : BitVec 7) (a : BitVec 7) (b : BitVec 7) : Statement (.vstDIdx d a b) := decodeWord_encode (by simp) ((ctorOf_class6 (op := 399) rfl).trans (by show some (Instr.vstDIdx (bits (d ++ a ++ b) 14 7) (bits (d ++ a ++ b) 7 7) (bits (d ++ a ++ b) 0 7)) = _; rw [part_d, part_a, part_b]))
theorem vldsW (d : BitVec 7) (a : BitVec 7) (b : BitVec 7) : Statement (.vldsW d a b) := decodeWord_encode (by simp) ((ctorOf_class6 (op := 400) rfl).trans (by show some (Instr.vldsW (bits (d ++ a ++ b) 14 7) (bits (d ++ a ++ b) 7 7) (bits (d ++ a ++ b) 0 7)) = _; rw [part_d, part_a, part_b]))
theorem vldsD (d : BitVec 7) (a : BitVec 7) (b : BitVec 7) : Statement (.vldsD d a b) := decodeWord_encode (by simp) ((ctorOf_class6 (op := 401) rfl).trans (by show some (Instr.vldsD (bits (d ++ a ++ b) 14 7) (bits (d ++ a ++ b) 7 7) (bits (d ++ a ++ b) 0 7)) = _; rw [part_d, part_a, part_b]))
theorem vstsW (d : BitVec 7) (a : BitVec 7) (b : BitVec 7) : Statement (.vstsW d a b) := decodeWord_encode (by simp) ((ctorOf_class6 (op := 402) rfl).trans (by show some (Instr.vstsW (bits (d ++ a ++ b) 14 7) (bits (d ++ a ++ b) 7 7) (bits (d ++ a ++ b) 0 7)) = _; rw [part_d, part_a, part_b]))
theorem vstsD (d : BitVec 7) (a : BitVec 7) (b : BitVec 7) : Statement (.vstsD d a b) := decodeWord_encode (by simp) ((ctorOf_class6 (op := 403) rfl).trans (by show some (Instr.vstsD (bits (d ++ a ++ b) 14 7) (bits (d ++ a ++ b) 7 7) (bits (d ++ a ++ b) 0 7)) = _; rw [part_d, part_a, part_b]))
theorem vldi (d : BitVec 7) (a : BitVec 7) (b : BitVec 7) : Statement (.vldi d a b) := decodeWord_encode (by simp) ((ctorOf_class6 (op := 404) rfl).trans (by show some (Instr.vldi (bits (d ++ a ++ b) 14 7) (bits (d ++ a ++ b) 7 7) (bits (d ++ a ++ b) 0 7)) = _; rw [part_d, part_a, part_b]))
theorem atomAdd (d : BitVec 7) (a : BitVec 7) (b : BitVec 7) : Statement (.atomAdd d a b) := decodeWord_encode (by simp) ((ctorOf_class6 (op := 405) rfl).trans (by show some (Instr.atomAdd (bits (d ++ a ++ b) 14 7) (bits (d ++ a ++ b) 7 7) (bits (d ++ a ++ b) 0 7)) = _; rw [part_d, part_a, part_b]))
theorem atomMinS (d : BitVec 7) (a : BitVec 7) (b : BitVec 7) : Statement (.atomMinS d a b) := decodeWord_encode (by simp) ((ctorOf_class6 (op := 406) rfl).trans (by show some (Instr.atomMinS (bits (d ++ a ++ b) 14 7) (bits (d ++ a ++ b) 7 7) (bits (d ++ a ++ b) 0 7)) = _; rw [part_d, part_a, part_b]))
theorem atomMaxS (d : BitVec 7) (a : BitVec 7) (b : BitVec 7) : Statement (.atomMaxS d a b) := decodeWord_encode (by simp) ((ctorOf_class6 (op := 407) rfl).trans (by show some (Instr.atomMaxS (bits (d ++ a ++ b) 14 7) (bits (d ++ a ++ b) 7 7) (bits (d ++ a ++ b) 0 7)) = _; rw [part_d, part_a, part_b]))
theorem atomMinU (d : BitVec 7) (a : BitVec 7) (b : BitVec 7) : Statement (.atomMinU d a b) := decodeWord_encode (by simp) ((ctorOf_class6 (op := 408) rfl).trans (by show some (Instr.atomMinU (bits (d ++ a ++ b) 14 7) (bits (d ++ a ++ b) 7 7) (bits (d ++ a ++ b) 0 7)) = _; rw [part_d, part_a, part_b]))
theorem atomMaxU (d : BitVec 7) (a : BitVec 7) (b : BitVec 7) : Statement (.atomMaxU d a b) := decodeWord_encode (by simp) ((ctorOf_class6 (op := 409) rfl).trans (by show some (Instr.atomMaxU (bits (d ++ a ++ b) 14 7) (bits (d ++ a ++ b) 7 7) (bits (d ++ a ++ b) 0 7)) = _; rw [part_d, part_a, part_b]))
theorem atomAnd (d : BitVec 7) (a : BitVec 7) (b : BitVec 7) : Statement (.atomAnd d a b) := decodeWord_encode (by simp) ((ctorOf_class6 (op := 410) rfl).trans (by show some (Instr.atomAnd (bits (d ++ a ++ b) 14 7) (bits (d ++ a ++ b) 7 7) (bits (d ++ a ++ b) 0 7)) = _; rw [part_d, part_a, part_b]))
theorem atomOr (d : BitVec 7) (a : BitVec 7) (b : BitVec 7) : Statement (.atomOr d a b) := decodeWord_encode (by simp) ((ctorOf_class6 (op := 411) rfl).trans (by show some (Instr.atomOr (bits (d ++ a ++ b) 14 7) (bits (d ++ a ++ b) 7 7) (bits (d ++ a ++ b) 0 7)) = _; rw [part_d, part_a, part_b]))
theorem atomExch (d : BitVec 7) (a : BitVec 7) (b : BitVec 7) : Statement (.atomExch d a b) := decodeWord_encode (by simp) ((ctorOf_class6 (op := 412) rfl).trans (by show some (Instr.atomExch (bits (d ++ a ++ b) 14 7) (bits (d ++ a ++ b) 7 7) (bits (d ++ a ++ b) 0 7)) = _; rw [part_d, part_a, part_b]))
theorem atomCas (d : BitVec 7) (a : BitVec 7) (b : BitVec 7) : Statement (.atomCas d a b) := decodeWord_encode (by simp) ((ctorOf_class6 (op := 413) rfl).trans (by show some (Instr.atomCas (bits (d ++ a ++ b) 14 7) (bits (d ++ a ++ b) 7 7) (bits (d ++ a ++ b) 0 7)) = _; rw [part_d, part_a, part_b]))
theorem atomMaxi (d : BitVec 7) (a : BitVec 7) (b : BitVec 7) : Statement (.atomMaxi d a b) := decodeWord_encode (by simp) ((ctorOf_class6 (op := 414) rfl).trans (by show some (Instr.atomMaxi (bits (d ++ a ++ b) 14 7) (bits (d ++ a ++ b) 7 7) (bits (d ++ a ++ b) 0 7)) = _; rw [part_d, part_a, part_b]))
theorem atomq (d : BitVec 7) (a : BitVec 7) (b : BitVec 7) : Statement (.atomq d a b) := decodeWord_encode (by simp) ((ctorOf_class6 (op := 415) rfl).trans (by show some (Instr.atomq (bits (d ++ a ++ b) 14 7) (bits (d ++ a ++ b) 7 7) (bits (d ++ a ++ b) 0 7)) = _; rw [part_d, part_a, part_b]))
theorem fenceWarp : Statement .fenceWarp := decodeWord_encode (by simp) ((ctorOf_class6 (op := 416) rfl).trans rfl)
theorem fenceBlock : Statement .fenceBlock := decodeWord_encode (by simp) ((ctorOf_class6 (op := 417) rfl).trans rfl)
theorem fenceGang : Statement .fenceGang := decodeWord_encode (by simp) ((ctorOf_class6 (op := 418) rfl).trans rfl)
theorem fenceDie : Statement .fenceDie := decodeWord_encode (by simp) ((ctorOf_class6 (op := 419) rfl).trans rfl)
theorem fenceDevice : Statement .fenceDevice := decodeWord_encode (by simp) ((ctorOf_class6 (op := 420) rfl).trans rfl)
theorem fenceSystem : Statement .fenceSystem := decodeWord_encode (by simp) ((ctorOf_class6 (op := 421) rfl).trans rfl)
theorem tfenceDie (a : BitVec 7) (b : BitVec 7) : Statement (.tfenceDie a b) := decodeWord_encode (by simp) ((ctorOf_class6 (op := 422) rfl).trans (by show some (Instr.tfenceDie (bits (0#7 ++ a ++ b) 7 7) (bits (0#7 ++ a ++ b) 0 7)) = _; rw [part_a, part_b]))
theorem tfenceDevice (a : BitVec 7) (b : BitVec 7) : Statement (.tfenceDevice a b) := decodeWord_encode (by simp) ((ctorOf_class6 (op := 423) rfl).trans (by show some (Instr.tfenceDevice (bits (0#7 ++ a ++ b) 7 7) (bits (0#7 ++ a ++ b) 0 7)) = _; rw [part_a, part_b]))
theorem tfenceSystem (a : BitVec 7) (b : BitVec 7) : Statement (.tfenceSystem a b) := decodeWord_encode (by simp) ((ctorOf_class6 (op := 424) rfl).trans (by show some (Instr.tfenceSystem (bits (0#7 ++ a ++ b) 7 7) (bits (0#7 ++ a ++ b) 0 7)) = _; rw [part_a, part_b]))
theorem qfence (imm : BitVec 14) : Statement (.qfence imm) := decodeWord_encode (by simp) ((ctorOf_class6 (op := 425) rfl).trans (by show some (Instr.qfence (bits (0#7 ++ imm) 0 14)) = _; rw [partJ_imm]))
theorem pref (d : BitVec 7) (a : BitVec 7) (imm : BitVec 7) : Statement (.pref d a imm) := decodeWord_encode (by simp) ((ctorOf_class6 (op := 426) rfl).trans (by show some (Instr.pref (bits (d ++ a ++ imm) 14 7) (bits (d ++ a ++ imm) 7 7) (bits (d ++ a ++ imm) 0 7)) = _; rw [part_d, part_a, part_b]))
theorem copyG2s (a : BitVec 7) : Statement (.copyG2s a) := decodeWord_encode (by simp) ((ctorOf_class7 (op := 448) rfl).trans (by show some (Instr.copyG2s (bits (0#7 ++ a ++ 0#7) 7 7)) = _; rw [part_a]))
theorem copyS2g (a : BitVec 7) : Statement (.copyS2g a) := decodeWord_encode (by simp) ((ctorOf_class7 (op := 449) rfl).trans (by show some (Instr.copyS2g (bits (0#7 ++ a ++ 0#7) 7 7)) = _; rw [part_a]))
theorem copyG2g (a : BitVec 7) : Statement (.copyG2g a) := decodeWord_encode (by simp) ((ctorOf_class7 (op := 450) rfl).trans (by show some (Instr.copyG2g (bits (0#7 ++ a ++ 0#7) 7 7)) = _; rw [part_a]))
theorem copyIngot (a : BitVec 7) : Statement (.copyIngot a) := decodeWord_encode (by simp) ((ctorOf_class7 (op := 451) rfl).trans (by show some (Instr.copyIngot (bits (0#7 ++ a ++ 0#7) 7 7)) = _; rw [part_a]))
theorem copyHalo (a : BitVec 7) : Statement (.copyHalo a) := decodeWord_encode (by simp) ((ctorOf_class7 (op := 452) rfl).trans (by show some (Instr.copyHalo (bits (0#7 ++ a ++ 0#7) 7 7)) = _; rw [part_a]))
theorem copym (a : BitVec 7) (b : BitVec 7) : Statement (.copym a b) := decodeWord_encode (by simp) ((ctorOf_class7 (op := 453) rfl).trans (by show some (Instr.copym (bits (0#7 ++ a ++ b) 7 7) (bits (0#7 ++ a ++ b) 0 7)) = _; rw [part_a, part_b]))
theorem abarArrive (d : BitVec 7) (a : BitVec 7) : Statement (.abarArrive d a) := decodeWord_encode (by simp) ((ctorOf_class7 (op := 454) rfl).trans (by show some (Instr.abarArrive (bits (d ++ a ++ 0#7) 14 7) (bits (d ++ a ++ 0#7) 7 7)) = _; rw [part_d, part_a]))
theorem abarWait (a : BitVec 7) (b : BitVec 7) : Statement (.abarWait a b) := decodeWord_encode (by simp) ((ctorOf_class7 (op := 455) rfl).trans (by show some (Instr.abarWait (bits (0#7 ++ a ++ b) 7 7) (bits (0#7 ++ a ++ b) 0 7)) = _; rw [part_a, part_b]))
theorem stgaProd (d : BitVec 7) (a : BitVec 7) : Statement (.stgaProd d a) := decodeWord_encode (by simp) ((ctorOf_class7 (op := 456) rfl).trans (by show some (Instr.stgaProd (bits (d ++ a ++ 0#7) 14 7) (bits (d ++ a ++ 0#7) 7 7)) = _; rw [part_d, part_a]))
theorem stgaCons (d : BitVec 7) (a : BitVec 7) : Statement (.stgaCons d a) := decodeWord_encode (by simp) ((ctorOf_class7 (op := 457) rfl).trans (by show some (Instr.stgaCons (bits (d ++ a ++ 0#7) 14 7) (bits (d ++ a ++ 0#7) 7 7)) = _; rw [part_d, part_a]))
theorem stgrProd (a : BitVec 7) (b : BitVec 7) : Statement (.stgrProd a b) := decodeWord_encode (by simp) ((ctorOf_class7 (op := 458) rfl).trans (by show some (Instr.stgrProd (bits (0#7 ++ a ++ b) 7 7) (bits (0#7 ++ a ++ b) 0 7)) = _; rw [part_a, part_b]))
theorem stgrCons (a : BitVec 7) (b : BitVec 7) : Statement (.stgrCons a b) := decodeWord_encode (by simp) ((ctorOf_class7 (op := 459) rfl).trans (by show some (Instr.stgrCons (bits (0#7 ++ a ++ b) 7 7) (bits (0#7 ++ a ++ b) 0 7)) = _; rw [part_a, part_b]))
theorem mshp (d : BitVec 7) (a : BitVec 7) (b : BitVec 7) : Statement (.mshp d a b) := decodeWord_encode (by simp) ((ctorOf_class8 (op := 512) rfl).trans (by show some (Instr.mshp (bits (d ++ a ++ b) 14 7) (bits (d ++ a ++ b) 7 7) (bits (d ++ a ++ b) 0 7)) = _; rw [part_d, part_a, part_b]))
theorem mwin (a : BitVec 7) (b : BitVec 7) : Statement (.mwin a b) := decodeWord_encode (by simp) ((ctorOf_class8 (op := 513) rfl).trans (by show some (Instr.mwin (bits (0#7 ++ a ++ b) 7 7) (bits (0#7 ++ a ++ b) 0 7)) = _; rw [part_a, part_b]))
theorem mzero (a : BitVec 7) : Statement (.mzero a) := decodeWord_encode (by simp) ((ctorOf_class8 (op := 514) rfl).trans (by show some (Instr.mzero (bits (0#7 ++ a ++ 0#7) 7 7)) = _; rw [part_a]))
theorem mmaBf16 (d : BitVec 7) (a : BitVec 7) (b : BitVec 7) : Statement (.mmaBf16 d a b) := decodeWord_encode (by simp) ((ctorOf_class8 (op := 515) rfl).trans (by show some (Instr.mmaBf16 (bits (d ++ a ++ b) 14 7) (bits (d ++ a ++ b) 7 7) (bits (d ++ a ++ b) 0 7)) = _; rw [part_d, part_a, part_b]))
theorem mmaF16 (d : BitVec 7) (a : BitVec 7) (b : BitVec 7) : Statement (.mmaF16 d a b) := decodeWord_encode (by simp) ((ctorOf_class8 (op := 516) rfl).trans (by show some (Instr.mmaF16 (bits (d ++ a ++ b) 14 7) (bits (d ++ a ++ b) 7 7) (bits (d ++ a ++ b) 0 7)) = _; rw [part_d, part_a, part_b]))
theorem mmaE4m3 (d : BitVec 7) (a : BitVec 7) (b : BitVec 7) : Statement (.mmaE4m3 d a b) := decodeWord_encode (by simp) ((ctorOf_class8 (op := 517) rfl).trans (by show some (Instr.mmaE4m3 (bits (d ++ a ++ b) 14 7) (bits (d ++ a ++ b) 7 7) (bits (d ++ a ++ b) 0 7)) = _; rw [part_d, part_a, part_b]))
theorem mmaE5m2 (d : BitVec 7) (a : BitVec 7) (b : BitVec 7) : Statement (.mmaE5m2 d a b) := decodeWord_encode (by simp) ((ctorOf_class8 (op := 518) rfl).trans (by show some (Instr.mmaE5m2 (bits (d ++ a ++ b) 14 7) (bits (d ++ a ++ b) 7 7) (bits (d ++ a ++ b) 0 7)) = _; rw [part_d, part_a, part_b]))
theorem mmaT8 (d : BitVec 7) (a : BitVec 7) (b : BitVec 7) : Statement (.mmaT8 d a b) := decodeWord_encode (by simp) ((ctorOf_class8 (op := 519) rfl).trans (by show some (Instr.mmaT8 (bits (d ++ a ++ b) 14 7) (bits (d ++ a ++ b) 7 7) (bits (d ++ a ++ b) 0 7)) = _; rw [part_d, part_a, part_b]))
theorem mmaT6 (d : BitVec 7) (a : BitVec 7) (b : BitVec 7) : Statement (.mmaT6 d a b) := decodeWord_encode (by simp) ((ctorOf_class8 (op := 520) rfl).trans (by show some (Instr.mmaT6 (bits (d ++ a ++ b) 14 7) (bits (d ++ a ++ b) 7 7) (bits (d ++ a ++ b) 0 7)) = _; rw [part_d, part_a, part_b]))
theorem mmaxE2m1 (d : BitVec 7) (a : BitVec 7) (b : BitVec 7) : Statement (.mmaxE2m1 d a b) := decodeWord_encode (by simp) ((ctorOf_class8 (op := 521) rfl).trans (by show some (Instr.mmaxE2m1 (bits (d ++ a ++ b) 14 7) (bits (d ++ a ++ b) 7 7) (bits (d ++ a ++ b) 0 7)) = _; rw [part_d, part_a, part_b]))
theorem mmaxE4m3 (d : BitVec 7) (a : BitVec 7) (b : BitVec 7) : Statement (.mmaxE4m3 d a b) := decodeWord_encode (by simp) ((ctorOf_class8 (op := 522) rfl).trans (by show some (Instr.mmaxE4m3 (bits (d ++ a ++ b) 14 7) (bits (d ++ a ++ b) 7 7) (bits (d ++ a ++ b) 0 7)) = _; rw [part_d, part_a, part_b]))
theorem msca (d : BitVec 7) (a : BitVec 7) (b : BitVec 7) : Statement (.msca d a b) := decodeWord_encode (by simp) ((ctorOf_class8 (op := 523) rfl).trans (by show some (Instr.msca (bits (d ++ a ++ b) 14 7) (bits (d ++ a ++ b) 7 7) (bits (d ++ a ++ b) 0 7)) = _; rw [part_d, part_a, part_b]))
theorem maccRd (d : BitVec 7) (a : BitVec 7) : Statement (.maccRd d a) := decodeWord_encode (by simp) ((ctorOf_class8 (op := 524) rfl).trans (by show some (Instr.maccRd (bits (d ++ a ++ 0#7) 14 7) (bits (d ++ a ++ 0#7) 7 7)) = _; rw [part_d, part_a]))
theorem maccWr (a : BitVec 7) (b : BitVec 7) : Statement (.maccWr a b) := decodeWord_encode (by simp) ((ctorOf_class8 (op := 525) rfl).trans (by show some (Instr.maccWr (bits (0#7 ++ a ++ b) 7 7) (bits (0#7 ++ a ++ b) 0 7)) = _; rw [part_a, part_b]))
theorem mstaF32 (a : BitVec 7) (b : BitVec 7) : Statement (.mstaF32 a b) := decodeWord_encode (by simp) ((ctorOf_class8 (op := 526) rfl).trans (by show some (Instr.mstaF32 (bits (0#7 ++ a ++ b) 7 7) (bits (0#7 ++ a ++ b) 0 7)) = _; rw [part_a, part_b]))
theorem mstaBf16 (a : BitVec 7) (b : BitVec 7) : Statement (.mstaBf16 a b) := decodeWord_encode (by simp) ((ctorOf_class8 (op := 527) rfl).trans (by show some (Instr.mstaBf16 (bits (0#7 ++ a ++ b) 7 7) (bits (0#7 ++ a ++ b) 0 7)) = _; rw [part_a, part_b]))
theorem tlook (d : BitVec 7) (a : BitVec 7) (b : BitVec 7) : Statement (.tlook d a b) := decodeWord_encode (by simp) ((ctorOf_class9 (op := 576) rfl).trans (by show some (Instr.tlook (bits (d ++ a ++ b) 14 7) (bits (d ++ a ++ b) 7 7) (bits (d ++ a ++ b) 0 7)) = _; rw [part_d, part_a, part_b]))
theorem vldnS7 (d : BitVec 7) (a : BitVec 7) (b : BitVec 7) : Statement (.vldnS7 d a b) := decodeWord_encode (by simp) ((ctorOf_class9 (op := 577) rfl).trans (by show some (Instr.vldnS7 (bits (d ++ a ++ b) 14 7) (bits (d ++ a ++ b) 7 7) (bits (d ++ a ++ b) 0 7)) = _; rw [part_d, part_a, part_b]))
theorem vldnS19 (d : BitVec 7) (a : BitVec 7) (b : BitVec 7) : Statement (.vldnS19 d a b) := decodeWord_encode (by simp) ((ctorOf_class9 (op := 578) rfl).trans (by show some (Instr.vldnS19 (bits (d ++ a ++ b) 14 7) (bits (d ++ a ++ b) 7 7) (bits (d ++ a ++ b) 0 7)) = _; rw [part_d, part_a, part_b]))
theorem vldnB27 (d : BitVec 7) (a : BitVec 7) (b : BitVec 7) : Statement (.vldnB27 d a b) := decodeWord_encode (by simp) ((ctorOf_class9 (op := 579) rfl).trans (by show some (Instr.vldnB27 (bits (d ++ a ++ b) 14 7) (bits (d ++ a ++ b) 7 7) (bits (d ++ a ++ b) 0 7)) = _; rw [part_d, part_a, part_b]))
theorem vldnLine (d : BitVec 7) (a : BitVec 7) (b : BitVec 7) : Statement (.vldnLine d a b) := decodeWord_encode (by simp) ((ctorOf_class9 (op := 580) rfl).trans (by show some (Instr.vldnLine (bits (d ++ a ++ b) 14 7) (bits (d ++ a ++ b) 7 7) (bits (d ++ a ++ b) 0 7)) = _; rw [part_d, part_a, part_b]))
theorem vstv (d : BitVec 7) (a : BitVec 7) (b : BitVec 7) : Statement (.vstv d a b) := decodeWord_encode (by simp) ((ctorOf_class9 (op := 581) rfl).trans (by show some (Instr.vstv (bits (d ++ a ++ b) 14 7) (bits (d ++ a ++ b) 7 7) (bits (d ++ a ++ b) 0 7)) = _; rw [part_d, part_a, part_b]))
theorem tins (d : BitVec 7) (a : BitVec 7) (b : BitVec 7) : Statement (.tins d a b) := decodeWord_encode (by simp) ((ctorOf_class9 (op := 582) rfl).trans (by show some (Instr.tins (bits (d ++ a ++ b) 14 7) (bits (d ++ a ++ b) 7 7) (bits (d ++ a ++ b) 0 7)) = _; rw [part_d, part_a, part_b]))
theorem tactSet (d : BitVec 7) (a : BitVec 7) (b : BitVec 7) : Statement (.tactSet d a b) := decodeWord_encode (by simp) ((ctorOf_class9 (op := 583) rfl).trans (by show some (Instr.tactSet (bits (d ++ a ++ b) 14 7) (bits (d ++ a ++ b) 7 7) (bits (d ++ a ++ b) 0 7)) = _; rw [part_d, part_a, part_b]))
theorem tactClr (d : BitVec 7) (a : BitVec 7) (b : BitVec 7) : Statement (.tactClr d a b) := decodeWord_encode (by simp) ((ctorOf_class9 (op := 584) rfl).trans (by show some (Instr.tactClr (bits (d ++ a ++ b) 14 7) (bits (d ++ a ++ b) 7 7) (bits (d ++ a ++ b) 0 7)) = _; rw [part_d, part_a, part_b]))
theorem twalk (d : BitVec 7) (a : BitVec 7) (b : BitVec 7) : Statement (.twalk d a b) := decodeWord_encode (by simp) ((ctorOf_class9 (op := 585) rfl).trans (by show some (Instr.twalk (bits (d ++ a ++ b) 14 7) (bits (d ++ a ++ b) 7 7) (bits (d ++ a ++ b) 0 7)) = _; rw [part_d, part_a, part_b]))
theorem txb (a : BitVec 7) (imm : BitVec 7) : Statement (.txb a imm) := decodeWord_encode (by simp) ((ctorOf_classA (op := 640) rfl).trans (by show some (Instr.txb (bits (0#7 ++ a ++ imm) 7 7) (bits (0#7 ++ a ++ imm) 0 7)) = _; rw [part_a, part_b]))
theorem txsL (d : BitVec 7) (a : BitVec 7) (b : BitVec 7) : Statement (.txsL d a b) := decodeWord_encode (by simp) ((ctorOf_classA (op := 641) rfl).trans (by show some (Instr.txsL (bits (d ++ a ++ b) 14 7) (bits (d ++ a ++ b) 7 7) (bits (d ++ a ++ b) 0 7)) = _; rw [part_d, part_a, part_b]))
theorem txsG (d : BitVec 7) (a : BitVec 7) (b : BitVec 7) : Statement (.txsG d a b) := decodeWord_encode (by simp) ((ctorOf_classA (op := 642) rfl).trans (by show some (Instr.txsG (bits (d ++ a ++ b) 14 7) (bits (d ++ a ++ b) 7 7) (bits (d ++ a ++ b) 0 7)) = _; rw [part_d, part_a, part_b]))
theorem cull (d : BitVec 7) (a : BitVec 7) (b : BitVec 7) : Statement (.cull d a b) := decodeWord_encode (by simp) ((ctorOf_classA (op := 643) rfl).trans (by show some (Instr.cull (bits (d ++ a ++ b) 14 7) (bits (d ++ a ++ b) 7 7) (bits (d ++ a ++ b) 0 7)) = _; rw [part_d, part_a, part_b]))
theorem pexp (d : BitVec 7) (a : BitVec 7) (b : BitVec 7) : Statement (.pexp d a b) := decodeWord_encode (by simp) ((ctorOf_classA (op := 644) rfl).trans (by show some (Instr.pexp (bits (d ++ a ++ b) 14 7) (bits (d ++ a ++ b) 7 7) (bits (d ++ a ++ b) 0 7)) = _; rw [part_d, part_a, part_b]))
theorem obld (a : BitVec 7) (b : BitVec 7) : Statement (.obld a b) := decodeWord_encode (by simp) ((ctorOf_classA (op := 645) rfl).trans (by show some (Instr.obld (bits (0#7 ++ a ++ b) 7 7) (bits (0#7 ++ a ++ b) 0 7)) = _; rw [part_a, part_b]))
theorem oble (a : BitVec 7) (b : BitVec 7) : Statement (.oble a b) := decodeWord_encode (by simp) ((ctorOf_classA (op := 646) rfl).trans (by show some (Instr.oble (bits (0#7 ++ a ++ b) 7 7) (bits (0#7 ++ a ++ b) 0 7)) = _; rw [part_a, part_b]))
theorem ksrtK32 (a : BitVec 7) : Statement (.ksrtK32 a) := decodeWord_encode (by simp) ((ctorOf_classA (op := 647) rfl).trans (by show some (Instr.ksrtK32 (bits (0#7 ++ a ++ 0#7) 7 7)) = _; rw [part_a]))
theorem ksrtK64 (a : BitVec 7) : Statement (.ksrtK64 a) := decodeWord_encode (by simp) ((ctorOf_classA (op := 648) rfl).trans (by show some (Instr.ksrtK64 (bits (0#7 ++ a ++ 0#7) 7 7)) = _; rw [part_a]))
theorem binc (a : BitVec 7) : Statement (.binc a) := decodeWord_encode (by simp) ((ctorOf_classA (op := 649) rfl).trans (by show some (Instr.binc (bits (0#7 ++ a ++ 0#7) 7 7)) = _; rw [part_a]))
theorem vbrd (d : BitVec 7) (a : BitVec 7) (b : BitVec 7) : Statement (.vbrd d a b) := decodeWord_encode (by simp) ((ctorOf_classA (op := 650) rfl).trans (by show some (Instr.vbrd (bits (d ++ a ++ b) 14 7) (bits (d ++ a ++ b) 7 7) (bits (d ++ a ++ b) 0 7)) = _; rw [part_d, part_a, part_b]))
theorem fork (d : BitVec 7) (a : BitVec 7) (b : BitVec 7) : Statement (.fork d a b) := decodeWord_encode (by simp) ((ctorOf_classB (op := 704) rfl).trans (by show some (Instr.fork (bits (d ++ a ++ b) 14 7) (bits (d ++ a ++ b) 7 7) (bits (d ++ a ++ b) 0 7)) = _; rw [part_d, part_a, part_b]))
theorem fjoin (a : BitVec 7) : Statement (.fjoin a) := decodeWord_encode (by simp) ((ctorOf_classB (op := 705) rfl).trans (by show some (Instr.fjoin (bits (0#7 ++ a ++ 0#7) 7 7)) = _; rw [part_a]))
theorem lnch (d : BitVec 7) (a : BitVec 7) (b : BitVec 7) : Statement (.lnch d a b) := decodeWord_encode (by simp) ((ctorOf_classB (op := 706) rfl).trans (by show some (Instr.lnch (bits (d ++ a ++ b) 14 7) (bits (d ++ a ++ b) 7 7) (bits (d ++ a ++ b) 0 7)) = _; rw [part_d, part_a, part_b]))
theorem collRed (a : BitVec 7) : Statement (.collRed a) := decodeWord_encode (by simp) ((ctorOf_classB (op := 707) rfl).trans (by show some (Instr.collRed (bits (0#7 ++ a ++ 0#7) 7 7)) = _; rw [part_a]))
theorem collGather (a : BitVec 7) : Statement (.collGather a) := decodeWord_encode (by simp) ((ctorOf_classB (op := 708) rfl).trans (by show some (Instr.collGather (bits (0#7 ++ a ++ 0#7) 7 7)) = _; rw [part_a]))
theorem rld (d : BitVec 7) (a : BitVec 7) (b : BitVec 7) : Statement (.rld d a b) := decodeWord_encode (by simp) ((ctorOf_classB (op := 709) rfl).trans (by show some (Instr.rld (bits (d ++ a ++ b) 14 7) (bits (d ++ a ++ b) 7 7) (bits (d ++ a ++ b) 0 7)) = _; rw [part_d, part_a, part_b]))
theorem rst (d : BitVec 7) (a : BitVec 7) (b : BitVec 7) : Statement (.rst d a b) := decodeWord_encode (by simp) ((ctorOf_classB (op := 710) rfl).trans (by show some (Instr.rst (bits (d ++ a ++ b) 14 7) (bits (d ++ a ++ b) 7 7) (bits (d ++ a ++ b) 0 7)) = _; rw [part_d, part_a, part_b]))
theorem rred (d : BitVec 7) (a : BitVec 7) (b : BitVec 7) : Statement (.rred d a b) := decodeWord_encode (by simp) ((ctorOf_classB (op := 711) rfl).trans (by show some (Instr.rred (bits (d ++ a ++ b) 14 7) (bits (d ++ a ++ b) 7 7) (bits (d ++ a ++ b) 0 7)) = _; rw [part_d, part_a, part_b]))
theorem missGroupMerge (w : Nat) (e : Nat) : Statement (.missGroupMerge w e) := fun _ h => Bool.noConfusion (show false = true from h)
theorem scoreboardClear (w : Nat) (e : Nat) : Statement (.scoreboardClear w e) := fun _ h => Bool.noConfusion (show false = true from h)
theorem exitDrainComplete (w : Nat) : Statement (.exitDrainComplete w) := fun _ h => Bool.noConfusion (show false = true from h)
theorem registerDrainComplete (core : Nat) (quarter : Nat) : Statement (.registerDrainComplete core quarter) := fun _ h => Bool.noConfusion (show false = true from h)
theorem taskStart (w : Nat) : Statement (.taskStart w) := fun _ h => Bool.noConfusion (show false = true from h)
theorem taskSteal (core : Nat) : Statement (.taskSteal core) := fun _ h => Bool.noConfusion (show false = true from h)
theorem ladleOptionalSpill (w : Nat) : Statement (.ladleOptionalSpill w) := fun _ h => Bool.noConfusion (show false = true from h)
theorem ladleOptionalRefill (w : Nat) : Statement (.ladleOptionalRefill w) := fun _ h => Bool.noConfusion (show false = true from h)
theorem rgrowGrant (w : Nat) (e : Nat) : Statement (.rgrowGrant w e) := fun _ h => Bool.noConfusion (show false = true from h)
theorem stageRingGrant (w : Nat) (e : Nat) : Statement (.stageRingGrant w e) := fun _ h => Bool.noConfusion (show false = true from h)
theorem barhang (w : Nat) (e : Nat) : Statement (.barhang w e) := fun _ h => Bool.noConfusion (show false = true from h)
theorem qfenceCompletion (w : Nat) (e : Nat) : Statement (.qfenceCompletion w e) := fun _ h => Bool.noConfusion (show false = true from h)
theorem mwinApply (w : Nat) (e : Nat) : Statement (.mwinApply w e) := fun _ h => Bool.noConfusion (show false = true from h)
theorem weightCacheEntryGrant (w : Nat) (e : Nat) : Statement (.weightCacheEntryGrant w e) := fun _ h => Bool.noConfusion (show false = true from h)
theorem obldGrant (w : Nat) (e : Nat) : Statement (.obldGrant w e) := fun _ h => Bool.noConfusion (show false = true from h)
theorem abarWaitResume (w : Nat) (e : Nat) : Statement (.abarWaitResume w e) := fun _ h => Bool.noConfusion (show false = true from h)
theorem fjoinReturn (w : Nat) (e : Nat) : Statement (.fjoinReturn w e) := fun _ h => Bool.noConfusion (show false = true from h)
theorem mwaitReturn (w : Nat) (e : Nat) : Statement (.mwaitReturn w e) := fun _ h => Bool.noConfusion (show false = true from h)
theorem yieldContinuation (w : Nat) (e : Nat) : Statement (.yieldContinuation w e) := fun _ h => Bool.noConfusion (show false = true from h)
theorem waitPauseEnd (w : Nat) (e : Nat) : Statement (.waitPauseEnd w e) := fun _ h => Bool.noConfusion (show false = true from h)
theorem tinsLockRelease (w : Nat) (e : Nat) : Statement (.tinsLockRelease w e) := fun _ h => Bool.noConfusion (show false = true from h)
theorem pourPermitGrant (p : PermitFor) : Statement (.pourPermitGrant p) := fun _ h => Bool.noConfusion (show false = true from h)
theorem engineQueueEntry (w : Nat) (e : Nat) : Statement (.engineQueueEntry w e) := fun _ h => Bool.noConfusion (show false = true from h)
theorem riddleJobQueueEntry (w : Nat) (e : Nat) : Statement (.riddleJobQueueEntry w e) := fun _ h => Bool.noConfusion (show false = true from h)
theorem copyPerform (core : Nat) (q : Nat) (lines : Nat) : Statement (.copyPerform core q lines) := fun _ h => Bool.noConfusion (show false = true from h)
theorem ingotLoadState (die : Nat) : Statement (.ingotLoadState die) := fun _ h => Bool.noConfusion (show false = true from h)
theorem bankRefresh (die : Nat) : Statement (.bankRefresh die) := fun _ h => Bool.noConfusion (show false = true from h)
theorem followOnMmaEntry (core : Nat) (q : Nat) : Statement (.followOnMmaEntry core q) := fun _ h => Bool.noConfusion (show false = true from h)
theorem matrixOperationPerform (core : Nat) (mq : Nat) : Statement (.matrixOperationPerform core mq) := fun _ h => Bool.noConfusion (show false = true from h)
theorem engineOperationCompletion (core : Nat) (eq : Nat) : Statement (.engineOperationCompletion core eq) := fun _ h => Bool.noConfusion (show false = true from h)
theorem samplerFetchCompletion (w : Nat) (e : Nat) : Statement (.samplerFetchCompletion w e) := fun _ h => Bool.noConfusion (show false = true from h)
theorem deferredFaultDelivery (w : Nat) (e : Nat) : Statement (.deferredFaultDelivery w e) := fun _ h => Bool.noConfusion (show false = true from h)
theorem engineFaultDelivery (w : Nat) : Statement (.engineFaultDelivery w) := fun _ h => Bool.noConfusion (show false = true from h)
theorem trapAction (w : Nat) (act : DWord) (target : DWord) : Statement (.trapAction w act target) := fun _ h => Bool.noConfusion (show false = true from h)
theorem mchk (die : Nat) (ctx : Nat) : Statement (.mchk die ctx) := fun _ h => Bool.noConfusion (show false = true from h)
theorem junctionOvertemperature (die : Nat) : Statement (.junctionOvertemperature die) := fun _ h => Bool.noConfusion (show false = true from h)
theorem dieReset (die : Nat) (image : Image) : Statement (.dieReset die image) := fun _ h => Bool.noConfusion (show false = true from h)
theorem loadKey (slot : Nat) (key : BitVec 512) : Statement (.loadKey slot key) := fun _ h => Bool.noConfusion (show false = true from h)
theorem clearKey (slot : Nat) : Statement (.clearKey slot) := fun _ h => Bool.noConfusion (show false = true from h)
theorem setPowerCap (watts : Nat) : Statement (.setPowerCap watts) := fun _ h => Bool.noConfusion (show false = true from h)
theorem attestationReport (die : Nat) (nonce : BitVec 512) : Statement (.attestationReport die nonce) := fun _ h => Bool.noConfusion (show false = true from h)
theorem firmwareLoad (die : Nat) (image : Image) : Statement (.firmwareLoad die image) := fun _ h => Bool.noConfusion (show false = true from h)
theorem holdAdmission (die : Nat) : Statement (.holdAdmission die) := fun _ h => Bool.noConfusion (show false = true from h)
theorem admission (die : Nat) (core : Nat) (q0 : Nat) : Statement (.admission die core q0) := fun _ h => Bool.noConfusion (show false = true from h)
theorem blockMigration (blk : Nat) (core : Nat) (q0 : Nat) : Statement (.blockMigration blk core q0) := fun _ h => Bool.noConfusion (show false = true from h)
theorem launchCompletion (l : Nat) : Statement (.launchCompletion l) := fun _ h => Bool.noConfusion (show false = true from h)
theorem preEmptionRequest (blks : List Nat) : Statement (.preEmptionRequest blks) := fun _ h => Bool.noConfusion (show false = true from h)
theorem preEmptionSaveComplete (blk : Nat) : Statement (.preEmptionSaveComplete blk) := fun _ h => Bool.noConfusion (show false = true from h)
theorem resumption (blk : Nat) (core : Nat) (q0 : Nat) : Statement (.resumption blk core q0) := fun _ h => Bool.noConfusion (show false = true from h)
theorem killRequest (l : Nat) : Statement (.killRequest l) := fun _ h => Bool.noConfusion (show false = true from h)
theorem riddleJobCompletion (die : Nat) : Statement (.riddleJobCompletion die) := fun _ h => Bool.noConfusion (show false = true from h)
theorem binRasterisation (die : Nat) (draw : Nat) : Statement (.binRasterisation die draw) := fun _ h => Bool.noConfusion (show false = true from h)
theorem collectiveRequest (core : Nat) (q : Nat) : Statement (.collectiveRequest core q) := fun _ h => Bool.noConfusion (show false = true from h)
theorem collectiveResultCopy (core : Nat) (q : Nat) : Statement (.collectiveResultCopy core q) := fun _ h => Bool.noConfusion (show false = true from h)
theorem haloLeafDelivery (die : Nat) (leaf : HaloLeaf) : Statement (.haloLeafDelivery die leaf) := fun _ h => Bool.noConfusion (show false = true from h)
theorem write (die : Nat) (m : Msg) : Statement (.write die m) := fun _ h => Bool.noConfusion (show false = true from h)
theorem readRequest (die : Nat) (m : Msg) : Statement (.readRequest die m) := fun _ h => Bool.noConfusion (show false = true from h)
theorem readResponse (die : Nat) (m : Msg) : Statement (.readResponse die m) := fun _ h => Bool.noConfusion (show false = true from h)
theorem atomic (die : Nat) (m : Msg) : Statement (.atomic die m) := fun _ h => Bool.noConfusion (show false = true from h)
theorem atomicResponse (die : Nat) (m : Msg) : Statement (.atomicResponse die m) := fun _ h => Bool.noConfusion (show false = true from h)
theorem reduce (die : Nat) (m : Msg) : Statement (.reduce die m) := fun _ h => Bool.noConfusion (show false = true from h)
theorem launch (die : Nat) (m : Msg) : Statement (.launch die m) := fun _ h => Bool.noConfusion (show false = true from h)
theorem stepCounterUpdate (die : Nat) (m : Msg) : Statement (.stepCounterUpdate die m) := fun _ h => Bool.noConfusion (show false = true from h)
theorem ack (die : Nat) (m : Msg) : Statement (.ack die m) := fun _ h => Bool.noConfusion (show false = true from h)
theorem nack (die : Nat) (m : Msg) : Statement (.nack die m) := fun _ h => Bool.noConfusion (show false = true from h)
theorem retransmitTimeout (die : Nat) (conn : BitVec 32) (cls : BitVec 2) : Statement (.retransmitTimeout die conn cls) := fun _ h => Bool.noConfusion (show false = true from h)
theorem setState (cmd : Cmd) (st : CtxSet) : Statement (.setState cmd st) := fun _ h => Bool.noConfusion (show false = true from h)
theorem enable (cmd : Cmd) (ctx : Nat) : Statement (.enable cmd ctx) := fun _ h => Bool.noConfusion (show false = true from h)
theorem disable (cmd : Cmd) (ctx : Nat) : Statement (.disable cmd ctx) := fun _ h => Bool.noConfusion (show false = true from h)
theorem assignQueue (cmd : Cmd) (ctx : Nat) (queue : Nat) : Statement (.assignQueue cmd ctx queue) := fun _ h => Bool.noConfusion (show false = true from h)
theorem grantIngotSegment (cmd : Cmd) (ctx : Nat) (seg : Nat) : Statement (.grantIngotSegment cmd ctx seg) := fun _ h => Bool.noConfusion (show false = true from h)
theorem writePeerEntry (cmd : Cmd) (ctx : Nat) (idx : Nat) (entry : PeerEntry) : Statement (.writePeerEntry cmd ctx idx entry) := fun _ h => Bool.noConfusion (show false = true from h)
theorem clearPeerEntry (cmd : Cmd) (ctx : Nat) (idx : Nat) : Statement (.clearPeerEntry cmd ctx idx) := fun _ h => Bool.noConfusion (show false = true from h)
theorem removeHeldRecord (cmd : Cmd) (ctx : Nat) (tag : DWord) : Statement (.removeHeldRecord cmd ctx tag) := fun _ h => Bool.noConfusion (show false = true from h)
theorem readErrorLog (cmd : Cmd) : Statement (.readErrorLog cmd) := fun _ h => Bool.noConfusion (show false = true from h)
theorem invalidateTranslations (cmd : Cmd) (ctx : Nat) (start : DWord) (len : DWord) : Statement (.invalidateTranslations cmd ctx start len) := fun _ h => Bool.noConfusion (show false = true from h)
theorem unusedOpcode (word : Word) : Statement (.unusedOpcode word) := by
  intro h _
  have hw : encode (.unusedOpcode word) = word := by
    apply BitVec.eq_of_getLsbD_eq
    intro j hj
    show (BitVec.ofNat 11 (word.toNat / 2097152) ++ word.extractLsb' 0 21).getLsbD j = _
    rw [BitVec.getLsbD_append, BitVec.getLsbD_extractLsb', BitVec.getLsbD_ofNat, show (2097152 : Nat) = 2 ^ 21 from rfl,
      Nat.testBit_div_two_pow]
    by_cases h1 : j < 21
    · simp [h1]
    · simp [h1, show j - 21 < 11 by omega, show j - 21 + 21 = j by omega, BitVec.testBit_toNat]
  have hi : opInfo (opOf word) = none := by
    have e : opOf word = word.toNat / 2097152 := by
      have := opOf_encode (.unusedOpcode word)
      rw [hw] at this
      exact this
    rw [e]
    exact Option.isNone_iff_eq_none.mp h
  unfold decodeWord
  rw [hw, hi]
theorem bankRefreshEnd (die : Nat) : Statement (.bankRefreshEnd die) := fun _ h => Bool.noConfusion (show false = true from h)
theorem admissionHoldRelease (die : Nat) : Statement (.admissionHoldRelease die) := fun _ h => Bool.noConfusion (show false = true from h)
theorem setSystemAccessKey (die : Nat) (key : DWord) : Statement (.setSystemAccessKey die key) := fun _ h => Bool.noConfusion (show false = true from h)

end Sys2Proof.Laws.Decoding
end

