-- ==== Sys2Proof/Laws/Queues.lean ====
section
/-! SUPPORT. Engine queues, matrix windows, register runs, tree and ring helpers, and waits that end. -/

namespace Sys2Proof.Laws

open Sys2Proof Sys2Proof.Machine

theorem enqueues {i : Instr} {info : OpInfo} {body : Body} {pre : State → Prop} {n : State → Nat} {o : State → EngOp} (hr : Runs i info body)
    (hb : ∀ s, ready i s = true → pre (s.atInstr i) → body (s.atInstr i) = (s.atInstr i).enqueue (n (s.atInstr i)) (o (s.atInstr i)) ∨
      (((s.core (s.coreOfWarp s.issue.warp)).queue (n (s.atInstr i))).length < 16 → body (s.atInstr i) = (s.atInstr i).enqueue (n (s.atInstr i)) (o (s.atInstr i)))) : Enqueues i pre n o := by
  intro s h hp
  dsimp only
  intro hq
  have hbb : body (s.atInstr i) = (s.atInstr i).enqueue (n (s.atInstr i)) (o (s.atInstr i)) := by
    rcases hb s h hp with e | e
    · exact e
    · exact e hq
  let k := s.core (s.coreOfWarp s.issue.warp)
  let u : State := { ((s.atInstr i).setCore (s.coreOfWarp s.issue.warp) (k.setQueue (n (s.atInstr i)) (k.queue (n (s.atInstr i)) ++ [o (s.atInstr i)]))) with seq := s.seq + 1 }
  have hok : body (s.atInstr i) = .ok u := by
    rw [hbb]
    unfold State.enqueue
    simp only
    rw [if_neg]
    · rfl
    · show ¬ Config.queueDepth ≤ _
      have : Config.queueDepth = 16 := rfl
      rw [this]
      exact Nat.not_le.mpr hq
  have a : Apart (s.atInstr i) u := Apart.units rfl rfl rfl rfl
  obtain ⟨k1, k2⟩ := registersKept_of h a
  refine ⟨_, hr.ok h hok, ?_, k2, k1.elsewhere.mem, k1.elsewhere.lineKeys, k1.elsewhere.tags, k1.elsewhere.blocks, k1.elsewhere.launches, k1.elsewhere.dies, k1.elsewhere.sys, k1.elsewhere.clusters⟩
  intro d
  have : (s.retired i u).core d = u.core d := by unfold State.core; rw [k1.elsewhere.cores]
  rw [this]
  exact core_setCore (s.atInstr i) _ d _
theorem enterMat_free {s : State} {m : MatOp} {p : Bool} (h1 : s.rowsBusy m.rows = false) (h2 : p = true → s.cs.permit = true) 
   (hq : ((s.core (s.coreOfWarp s.issue.warp)).queue (4 + dQ m.desc)).length < 16) :
    s.enterMat m p = s.enqueue (4 + dQ m.desc) (s.newOp (.mat m) 0 false 0) := by
  unfold State.enterMat
  simp only [h1, Bool.false_eq_true, if_false]
  rw [if_neg (by show ¬ 16 ≤ _; omega), if_neg]
  simp
  exact fun hp => h2 hp
theorem firstSome_none {α β : Type} (f : α → Option β) (l : List α) (h : ∀ x ∈ l, f x = none) : firstSome f l = none := by
  induction l with
  | nil => rfl
  | cons a r ih =>
    unfold firstSome
    rw [h a (List.mem_cons_self ..)]
    exact ih (fun x hx => h x (List.mem_cons_of_mem _ hx))
theorem shapeCheck_cause (b g : DWord) (e : Err) (p : Nat) (h : shapeCheck b g = some (e, p)) : e.1 ≠ .page ∨ e.2 ≠ 2 := by
  unfold shapeCheck at h
  repeat' split at h
  all_goals first
    | (simp only [Option.some.injEq, Prod.mk.injEq] at h; obtain ⟨rfl, -⟩ := h; first | (left; decide) | (right; decide))
    | simp at h
theorem two_scalars {i : Instr} {s : State} (d : Nat) (x y : DWord) (h : ready i s = true) (hd : d + 1 < 64) :
   let t := ((s.atInstr i).wrS d x).wrS (d + 1) y
   (s.retired i t).regS d = x ∧ (s.retired i t).regS (d + 1) = y ∧ (s.retired i t).cw.fst = s.cw.fst ∧ ScalarFrame s (s.retired i t) (fun n => n = d ∨ n = d + 1) := by
  dsimp only
  obtain ⟨h1, h2, h3, h4⟩ := wrS_spec (s.atInstr i) d x (ready_list h) (by omega)
  obtain ⟨g1, g2, g3, g4⟩ := wrS_spec ((s.atInstr i).wrS d x) (d + 1) y (by rw [h1.issue, h1.warps]; exact ready_list h) hd
  have g := h1.trans g1
  have k := (wrote_retire h g).1
  refine ⟨?_, ?_, k.fst.trans g.fst, ?_⟩
  · rw [k.reads.regS, g2 d (by omega), if_neg (by omega), h2 d (by omega), if_pos rfl]
  · rw [k.reads.regS, g2 (d + 1) hd, if_pos rfl]
  · refine { elsewhere := g.elsewhere' h, control := g.control' h, strands := g.strands' h, clock := g.clock' h, scalars := ?_, vectors := ?_, masks := ?_ }
    · intro n hn _ hp
      rw [k.reads.regS, g2 n hn, if_neg (by tauto), h2 n hn, if_neg (by tauto)]; rfl
    · intro n _; rw [k.reads.regV, g3, h3]; rfl
    · intro n; rw [k.reads.regK, g4, h4]; rfl
theorem accSet_fold (r c : Nat) (f : Nat → Word) (ls : List Nat) : ∀ (k : Block), ls.Nodup → (∀ row col, (ls.foldl (fun k l => Block.accSet k r (c + l) (f l)) k).accGet row col =
    match ls.find? (fun l => decide (row * 128 + col = r * 128 + (c + l))) with
    | some l => f l
    | none => k.accGet row col) ∧ (ls.foldl (fun k l => Block.accSet k r (c + l) (f l)) k).core = k.core ∧ (ls.foldl (fun k l => Block.accSet k r (c + l) (f l)) k).launch = k.launch := by
  induction ls with
  | nil => intro k _; exact ⟨fun _ _ => rfl, rfl, rfl⟩
  | cons a t ih =>
    intro k hn
    rw [List.nodup_cons] at hn
    obtain ⟨h1, h2, h3⟩ := ih (Block.accSet k r (c + a) (f a)) hn.2
    refine ⟨fun row col => ?_, h2, h3⟩
    rw [List.foldl_cons, h1, List.find?_cons]
    by_cases e : row * 128 + col = r * 128 + (c + a)
    · simp only [e, decide_true]
      have : t.find? (fun l => decide (r * 128 + (c + a) = r * 128 + (c + l))) = none := by
        rw [List.find?_eq_none]
        intro l hl he
        have : a = l := by simpa using he
        exact hn.1 (this ▸ hl)
      rw [this]
      unfold Block.accGet Block.accSet
      simp only [e]
      rw [spGet_spSet, if_pos rfl]
    · simp only [e, decide_false]
      cases List.find? (fun l => decide (row * 128 + col = r * 128 + (c + l))) t with
      | some l => rfl
      | none =>
        unfold Block.accGet Block.accSet
        simp only
        rw [spGet_spSet, if_neg e]
theorem apartish {i : Instr} {s u : State} (h : ready i s = true) (hw : u.warps = s.warps) (hi : u.issue = (s.atInstr i).issue) (hr : SameReads (s.atInstr i) u) :
    Stays u (s.retired i u) ∧ (∀ n, (s.retired i u).regS n = s.regS n) ∧ (∀ n, (s.retired i u).regV n = s.regV n) ∧ (∀ n, (s.retired i u).regK n = s.regK n) ∧ (s.retired i u).cw.fst = s.cw.fst ∧ SameControl s.cw (s.retired i u).cw := by
  have k := fun c => (retire_stays (s.atInstr i) u c (by rw [hi, hw]; exact ready_list h) (by rw [hi]; rfl) (by rw [hi])).1
  have k : Stays u (s.retired i u) := k _
  have hcw : u.cw = s.cw := by unfold State.cw State.warp; rw [hw, hi]; rfl
  refine ⟨k, fun n => by rw [k.reads.regS, hr.regS]; rfl, fun n => by rw [k.reads.regV, hr.regV]; rfl, fun n => by rw [k.reads.regK, hr.regK]; rfl, by rw [k.fst, hcw], ?_⟩
  have := k.control; rw [hcw] at this; exact this
theorem setBlock_block (s : State) (b : Nat) (x : Block) (c : Nat) : (s.setBlock b x).block c = if c = b ∧ b < s.blocks.length then x else s.block c := by
  show nth (s.blocks.set b _) c _ = _
  rw [nth_set]; rfl
theorem setBlock_reads (s : State) (b : Nat) (x : Block) (h1 : x.core = (s.block b).core) : SameReads s (s.setBlock b x) := by
  have hq : (s.setBlock b x).quarterOf s.issue.warp = s.quarterOf s.issue.warp := by
    unfold State.quarterOf State.coreOfWarp
    have : ((s.setBlock b x).block ((s.setBlock b x).warp s.issue.warp).blk).core = (s.block (s.warp s.issue.warp).blk).core := by
      rw [setBlock_block]
      split
      · rename_i h
        rw [h1, ← h.1]; rfl
      · rfl
    rw [this]; rfl
  have hqq : (s.setBlock b x).quarter ((s.setBlock b x).quarterOf s.issue.warp) = s.quarter (s.quarterOf s.issue.warp) := by rw [hq]; rfl
  exact ⟨⟨rfl, rfl, rfl⟩, rfl, ⟨rfl, congrArg _ hqq⟩, ⟨rfl, congrArg _ hqq⟩, rfl, ⟨rfl, rfl, rfl, rfl⟩, rfl⟩
theorem mwin_fold (a9 : BitVec 9) (l10 : BitVec 10) (ts : List Nat) : ∀ s : State,
    let t := ts.foldl (fun s v => s.setWarp v { s.warp v with accb := a9, accl := l10 }) s
    t.issue = s.issue ∧ t.blocks = s.blocks ∧ t.mem = s.mem ∧ t.quarters = s.quarters ∧ t.warps.length = s.warps.length ∧
    ∀ v, t.warp v = if v ∈ ts ∧ v < s.warps.length then { s.warp v with accb := a9, accl := l10 } else s.warp v := by
  induction ts with
  | nil => intro s; exact ⟨rfl, rfl, rfl, rfl, rfl, fun v => by simp⟩
  | cons a r ih =>
    intro s
    obtain ⟨h1, h2, h3, h4, h5, h6⟩ := ih (s.setWarp a { s.warp a with accb := a9, accl := l10 })
    have hl : (s.setWarp a { s.warp a with accb := a9, accl := l10 }).warps.length = s.warps.length := by
      show (s.warps.set _ _).length = _; simp
    refine ⟨h1, h2, h3, h4, h5.trans hl, fun v => ?_⟩
    show State.warp (List.foldl _ _ r) v = _
    rw [h6 v, State.warp_setWarp, hl]
    by_cases e : v = a
    · subst e
      by_cases hv : v < s.warps.length
      · simp [hv]
      · simp [hv]
    · by_cases hr : v ∈ r
      · by_cases hv : v < s.warps.length <;> simp [e, hr, hv]
      · simp [e, hr]
theorem mwin_body (a b : BitVec 7) (s : State) :
    let w := s.rdS a.toNat
    let g := s.rdS b.toNat
    let blk := s.block s.cw.blk
    let ts := if w.getLsbD 5 then blk.warps else [nth blk.warps (fieldOf w 0 5) 0]
    s.cw.idx = 0 → fieldOf w 6 58 = 0 → fieldOf g 9 7 = 0 → fieldOf g 26 38 = 0 →
    (w.getLsbD 5 = true ∨ fieldOf w 0 5 < blk.warps.length) →
    fieldOf g 0 9 + fieldOf g 16 10 ≤ recAccRows (s.recOf s.cw.blk) →
    (∀ v ∈ ts, ∀ o ∈ s.opsOf v, ¬ ((∃ m, o.kind = .mat m) ∨ ∃ x y m, o.kind = .copym x y m)) →
    mwinBody a b s = .ok (ts.foldl (fun s v => s.setWarp v { s.warp v with accb := BitVec.ofNat 9 (fieldOf g 0 9), accl := BitVec.ofNat 10 (fieldOf g 16 10) }) s) := by
  dsimp only
  intro h1 h2 h3 h4 h5 h6 h7
  unfold mwinBody
  simp only
  rw [if_neg (by simpa using h1), if_neg (by simp [h2, h3, h4]), if_neg (by rcases h5 with h5 | h5 <;> simp [h5]), if_neg (by omega), if_neg]
  intro hany
  obtain ⟨v, hv, hv2⟩ := List.any_eq_true.mp hany
  obtain ⟨o, ho, ho2⟩ := List.any_eq_true.mp hv2
  have := h7 v hv o ho
  apply this
  split at ho2
  · rename_i m hm; exact Or.inl ⟨m, hm⟩
  · rename_i x y m hm; exact Or.inr ⟨x, y, m, hm⟩
  · simp at ho2
theorem remoteCheck_keys {s s' : State} {red : Bool} {w : Nat} {d a b : BitVec 7} {p : PeerEntry} {ls : List (Nat × Nat)} (h : s.remoteCheck red w d a b = .ok (p, ls)) :
    ls.map Prod.fst = lanesOf s.activeReal := by
  have g : ∀ {α : Type} (f : Nat → Except (Err × Nat) α) (l : List Nat) (r : List (Nat × α)), gather f l = .ok r → r.map Prod.fst = l := by
    intro α f l
    induction l with
    | nil => intro r hr; simp [gather] at hr; rw [hr]; rfl
    | cons x t ih =>
      intro r hr
      unfold gather at hr
      split at hr <;> simp at hr
      rename_i xs hxs
      rw [← hr, List.map_cons, ih _ (by assumption)]
  unfold State.remoteCheck at h
  simp only at h
  split at h
  · simp [trapE] at h
  · split at h
    · simp [trapE] at h
    · split at h
      · simp at h
      · rename_i ls' hls
        simp only [Except.ok.injEq, Prod.mk.injEq] at h
        rw [← h.2]
        exact g _ _ _ hls
theorem alGet_fst (ls : List (Nat × Nat)) (l : Nat) (h : l ∈ ls.map Prod.fst) : ∃ y, (l, y) ∈ ls ∧ alGet ls l = some y := by
  induction ls with
  | nil => simp at h
  | cons x r ih =>
    obtain ⟨k, y⟩ := x
    simp only [alGet]
    by_cases e : k = l
    · subst e; exact ⟨y, by simp, by simp⟩
    · have : l ∈ r.map Prod.fst := by
        simp only [List.map_cons, List.mem_cons] at h
        rcases h with h | h
        · exact absurd h.symm e
        · exact h
      obtain ⟨z, h1, h2⟩ := ih this
      exact ⟨z, List.mem_cons_of_mem _ h1, by rw [if_neg e]; exact h2⟩
theorem put_run {i : Instr} {info : OpInfo} {body : Body} (hr : Runs i info body) {s u : State} {d n : Nat} {f : Nat → Nat → Word}
    (h : ready i s = true) (hb : body (s.atInstr i) = .ok (u.wrRun d s.active n f)) (a : Apart (s.atInstr i) u)
    (hd : ∀ k, k < n → s.vname (d + k) = true) : ∃ t, exec i s = .next t ∧ t = s.retired i (u.wrRun d s.active n f) ∧
      (t.mem = u.mem ∧ t.lineKeys = u.lineKeys ∧ t.cores = u.cores ∧ t.blocks = u.blocks ∧ t.dies = u.dies ∧ t.launches = u.launches) ∧
      (∀ k l, k < n → l < 32 → s.active.getLsbD l = true → laneOf (t.regV (d + k)) l = f k l) ∧
      RegisterFrame s t (fun _ => False) (fun j => ∃ k, k < n ∧ j = d + k) := by
  obtain ⟨k1, k2, k3⟩ := registerFrame_wrRun d n f h a hd
  have hw := (wrRun_spec u d s.active n f (by rw [a.issue, a.warps]; exact ready_list h) (fun k hk => by rw [a.vname]; exact hd k hk)).1
  have e := k1.elsewhere
  have g := hw.elsewhere
  exact ⟨_, hr.ok h hb, rfl, ⟨e.mem.trans g.mem, e.lineKeys.trans g.lineKeys, e.cores.trans g.cores, e.blocks.trans g.blocks,
    e.dies.trans g.dies, e.launches.trans g.launches⟩, k3, k2⟩
/-- The names of a vector destination run. -/
theorem vdst_run {i : Instr} {s : State} {info : OpInfo} {d : BitVec 7} (hi : i.info = some info) (h : ready i s = true)
    (n : Nat) (hn : n ≤ 70) (hk : info.d = .vdst n ∨ info.d = .vboth n) (hd : i.fields.extractLsb' 14 7 = d) (k : Nat) (hk' : k < n) :
    s.vname (d.toNat + k) = true :=
  ready_vdst hi h n (by tauto) hd k hk' (by have := d.isLt; omega)
theorem fmtRegs_or (f : Nat) : fmtRegs f = 1 ∨ fmtRegs f = 2 := by
  unfold fmtRegs; split <;> simp
theorem vldnFind_runs {pts : DWord → List (Int × Int × Int)} {line big : Bool} {d a b : BitVec 7} {s s' : State}
    {r n : Nat} {xs : List (Nat × List (Nat × Vox))} (h : vldnFind pts line big d a b s = .ok ((r, n, xs), s')) :
    (r = 1 ∨ r = 2) ∧ s.runBad d.toNat ((pts (s.rdS b.toNat)).length * r) = false := by
  unfold vldnFind at h
  simp only at h
  split at h
  · simp [trapE] at h
  · split at h
    · simp [waitE] at h
    · split at h
      · simp at h
      · split at h
        · simp [trapE] at h
        · rename_i hb
          split at h
          · simp [trapE] at h
          · split at h
            · simp at h
            · simp only [Except.ok.injEq, Prod.mk.injEq] at h
              obtain ⟨⟨h1, -, -⟩, -⟩ := h
              rw [← h1]
              exact ⟨fmtRegs_or _, by simpa using hb⟩
theorem runBad_names {s : State} {d n : Nat} (h : s.runBad d n = false) (k : Nat) (hk : k < n) : s.vname (d + k) = true := by
  unfold State.runBad at h
  simp only [Bool.or_eq_false_iff, List.any_eq_false, List.mem_range] at h
  simpa using h.2 k hk
theorem wrRun_succ (s : State) (d : Nat) (m : Mask) (n : Nat) (f : Nat → Nat → Word) :
    s.wrRun d m (n + 1) f = (s.wrRun d m n f).wrLanes (d + n) m (f n) := by
  unfold State.wrRun
  rw [List.range_succ, List.foldl_append, List.foldl_cons, List.foldl_nil]
theorem pairs_run (s : State) (d : Nat) (m : Mask) (n : Nat) (f : Nat → Nat → DWord) :
    (List.range n).foldl (fun u k => u.wrPair (d + 2 * k) m (f k)) s =
      s.wrRun d m (2 * n) (fun k l => if k % 2 = 0 then lowWord (f (k / 2) l) else highWord (f (k / 2) l)) := by
  induction n with
  | zero => simp only [State.wrRun, Nat.mul_zero, List.range_zero, List.foldl_nil]
  | succ n ih =>
    have e1 : 2 * n % 2 = 0 := by omega
    have e2 : ¬ (2 * n + 1) % 2 = 0 := by omega
    have e3 : (2 * n + 1) / 2 = n := by omega
    have e4 : 2 * n / 2 = n := by omega
    rw [List.range_succ, List.foldl_append, ih, List.foldl_cons, List.foldl_nil, show 2 * (n + 1) = 2 * n + 1 + 1 by omega,
      wrRun_succ, wrRun_succ]
    generalize s.wrRun d m (2 * n) _ = z
    rw [State.wrPair, e3, e4, Nat.add_assoc]
    have f1 : (fun l => if 2 * n % 2 = 0 then lowWord (f n l) else highWord (f n l)) = fun l => lowWord (f n l) := by
      funext l; rw [if_pos e1]
    have f2 : (fun l => if (2 * n + 1) % 2 = 0 then lowWord (f n l) else highWord (f n l)) = fun l => highWord (f n l) := by
      funext l; rw [if_neg e2]
    rw [f1, f2]
theorem apart_storeLoc (s : State) (bs : List Byte) (x : Loc) : Apart s (s.storeLoc bs x) := by
  cases x with
  | scr b off => exact Apart.scratch s b off bs
  | glob p t => exact Apart.aside (storeLoc_aside s bs _ (by simp))
  | ing off => exact Apart.aside (storeLoc_aside s bs _ (by simp))
theorem stops_wait {i : Instr} {info : OpInfo} {body : Body} (hr : Runs i info body) {s : State} {k : WaitKind} {n : Nat}
    (h : ready i s = true) (hc : s.atChain) (hb : body (s.atInstr i) = .error (.wait k n (s.atInstr i))) :
    exec i s = .next (((s.atInstr i).keep false info (encode i)).setWait k n []) := by
  rw [hr.stop h hb]
  have h1 : (s.atInstr i).issue.src ≠ .flight := by rw [show (s.atInstr i).issue.src = s.issue.src from rfl, hc.1]; decide
  have h2 : (s.atInstr i).cs.flight = [] := hc.2
  show Host.Outcome.next (if _ then _ else if _ then _ else _) = _
  rw [if_neg h1, if_neg (by rw [h2]; simp)]
theorem retired_parts {i : Instr} {s u w : State} (h : ready i s = true) (a : Apart (s.atInstr i) u) (hw : Wrote u w) :
    (s.retired i w).mem = u.mem ∧ (s.retired i w).blocks = u.blocks ∧ (s.retired i w).dies = u.dies ∧
      (s.retired i w).launches = u.launches ∧ (s.retired i w).cores = u.cores := by
  have hu : u.issue.warp < u.warps.length := by rw [a.issue, a.warps]; exact ready_list h
  have k := fun c => (retire_stays (s.atInstr i) w c (by rw [hw.issue, hw.warps]; exact hu) (by rw [hw.issue, a.issue]; rfl)
    (by rw [hw.issue, a.issue])).1
  have k : Stays w (s.retired i w) := k _
  have e := k.elsewhere
  have f := hw.elsewhere
  exact ⟨e.mem.trans f.mem, e.blocks.trans f.blocks, e.dies.trans f.dies, e.launches.trans f.launches, e.cores.trans f.cores⟩
theorem obldStep_apart (s : State) (a : BitVec 7) (acc : Bool × State) (x : Nat × Loc) : Apart acc.2 (obldStep s a acc x).2 := by
  unfold obldStep
  obtain ⟨l, x⟩ := x
  cases x with
  | glob p t =>
    simp only
    split
    · exact Apart.touch _ _ _ _ _ rfl
    · exact Apart.homeRead _ _ _ _ _ _ rfl
  | scr b o => exact Apart.same _
  | ing o => exact Apart.same _
theorem obldFold_apart (s : State) (a : BitVec 7) (ls : List (Nat × Loc)) (acc : Bool × State) : Apart acc.2 (ls.foldl (obldStep s a) acc).2 := by
  induction ls generalizing acc with
  | nil => exact Apart.same _
  | cons x r ih => exact (obldStep_apart s a acc x).trans (ih _)
theorem find_die (s : State) (d : Nat) (x : Die) (h : d < s.dies.length) : (s.setDie d x).die d = x := by
  show nth (s.dies.set d x) d _ = x
  rw [nth_set]; simp [h]
theorem die_of_dies {s t : State} (h : t.dies = s.dies) (d : Nat) : t.die d = s.die d := by unfold State.die; rw [h]
theorem ioAdd_apart {s u : State} {w : Who} (hf : w.fab = false) {rs : List HostResp} {p x v : Nat} (h : s.ioAdd w rs p x = .ok (v, u)) : Apart s u := by
  unfold State.ioAdd State.ioAtomic at h
  split at h
  · simp only [Except.ok.injEq, Prod.mk.injEq] at h
    rw [← h.2]; exact Apart.same s
  · simp at h
  · split at h
    · simp at h
    · split at h
      · simp at h
      · simp only [Except.ok.injEq, Prod.mk.injEq] at h
        rw [← h.2]; exact (Apart.homeRead _ _ _ _ _ _ hf).trans (Apart.homeWrite _ _ _ _ _ hf)
theorem scr_kept {i : Instr} {s u w : State} (h : ready i s = true) (a : Apart (s.atInstr i) u) (hw : Wrote u w) (c k : Nat) :
    (s.retired i w).scrByte c k = u.scrByte c k := by
  unfold State.scrByte State.block
  rw [(retired_parts h a hw).2.1]
/-- A header of 16 bytes stored in the warp's own scratch. -/
theorem header_bytes (s : State) (c off v : Nat) (hc : c < s.blocks.length) :
    (∀ k, k < 16 → (s.scratchWrite c off (toBytes 16 v)).scrByte c (off + k) = BitVec.ofNat 8 (v / 2 ^ (8 * k))) ∧
    (∀ e k, ¬ (e = c ∧ off ≤ k ∧ k < off + 16) → (s.scratchWrite c off (toBytes 16 v)).scrByte e k = s.scrByte e k) := by
  constructor
  · intro k hk
    rw [scratchWrite_byte _ _ _ _ hc, if_pos ⟨rfl, by omega, by simp [toBytes_length]; omega⟩]
    rw [show off + k - off = k by omega, toBytes_get _ _ _ hk]; rfl
  · intro e k hn
    rw [scratchWrite_byte _ _ _ _ hc, if_neg (by rw [toBytes_length]; exact hn)]
theorem bits_word (op : Nat) (f : BitVec 21) (lo n : Nat) (h : lo + n ≤ 21) : bits (wordOf op f) lo n = f.extractLsb' lo n := by
  unfold wordOf bits
  apply BitVec.eq_of_getLsbD_eq
  intro i hi
  rw [BitVec.getLsbD_extractLsb', BitVec.getLsbD_extractLsb', BitVec.getLsbD_append]
  simp [hi, show lo + i < 21 by omega]
theorem bits_dab (op : Nat) (d a b : BitVec 7) : bits (wordDab op d a b) 14 7 = d ∧ bits (wordDab op d a b) 7 7 = a ∧ bits (wordDab op d a b) 0 7 = b := by
  unfold wordDab
  rw [bits_word _ _ _ _ (by omega), bits_word _ _ _ _ (by omega), bits_word _ _ _ _ (by omega)]
  refine ⟨dField d a b, ?_, ?_⟩
  · apply BitVec.eq_of_getLsbD_eq
    intro i hi
    rw [BitVec.getLsbD_extractLsb', BitVec.getLsbD_append, BitVec.getLsbD_append]
    simp [hi, show ¬ 7 + i < 7 by omega, show 7 + i - 7 = i by omega]
  · apply BitVec.eq_of_getLsbD_eq
    intro i hi
    rw [BitVec.getLsbD_extractLsb', BitVec.getLsbD_append]
    simp [hi]
theorem bits_di (op : Nat) (d : BitVec 7) (m : BitVec 14) : bits (wordDi op d m) 14 7 = d ∧ bits (wordDi op d m) 0 14 = m := by
  unfold wordDi
  rw [bits_word _ _ _ _ (by omega), bits_word _ _ _ _ (by omega)]
  refine ⟨dFieldJ d m, ?_⟩
  apply BitVec.eq_of_getLsbD_eq
  intro i hi
  rw [BitVec.getLsbD_extractLsb', BitVec.getLsbD_append]
  simp [hi]
theorem bits_j (op : Nat) (m : BitVec 21) : bits (wordOf op m) 0 21 = m := by
  rw [bits_word _ _ _ _ (by omega)]; simp
theorem wrote_pc {i : Instr} {s u w : State} (h : ready i s = true) (a : Apart (s.atInstr i) u) (hw : Wrote u w) : (s.retired i w).cs.pc = s.seqPc := by
  have hok := ready_issueOk h
  have hrun := (s.issueOk_iff.mp hok).2.2.2
  have hcw : w.cw.runner s.issue.entry = s.cw.runner s.issue.entry := by
    have e1 := hw.strandsEq
    have e2 := hw.handlers
    unfold Warp.runner Warp.strand
    rw [e1, e2, a.cw]; rfl
  have hcs : w.cs = u.cs := by
    unfold State.cs
    rw [hw.issue, a.issue]
    have : u.cw.runner s.issue.entry = s.cw.runner s.issue.entry := by rw [a.cw]; rfl
    show (w.cw.runner s.issue.entry).getD _ = (u.cw.runner s.issue.entry).getD _
    rw [hcw, this]
  have := fun c => retire_pc (s.atInstr i) w c (by rw [hw.issue, hw.warps, a.issue, a.warps]; exact ready_list h) (by rw [hw.issue, a.issue]) (by
    show (w.cw.runner s.issue.entry).isSome = true
    rw [hcw]; exact hrun)
  rw [show s.retired i w = State.retire (s.atInstr i) _ w from rfl, this _, hcs, a.cs, hw.issue, a.issue]
  rfl
theorem again_runner {s : State} {w e : Nat} {v : Wait} {k : WaitKind} {i : Instr} (h : WaitsAt s w e v k i) :
    ∃ t, (s.warp w).runner e = some t ∧ t.wait = some v ∧ (s.again w e v).cs = t := by
  have h1 := h.1
  unfold State.waitOf at h1
  cases hr : (s.warp w).runner e with
  | none => rw [hr] at h1; simp at h1
  | some t =>
    rw [hr] at h1
    refine ⟨t, rfl, h1, ?_⟩
    show ((s.warp w).runner e).getD _ = t
    rw [hr]; rfl
theorem grant_again {s : State} {w e : Nat} {v : Wait} {k : WaitKind} {i : Instr} (h : WaitsAt s w e v k i) :
    s.grant w e [k] = waitingRun (encode i) (s.again w e v) := by
  obtain ⟨t, h1, h2, -⟩ := again_runner h
  obtain ⟨h3, h4, h5, h6, h7⟩ := h
  unfold State.grant
  simp only
  rw [h3]
  simp only
  unfold State.warpLive at h6
  simp only [Bool.and_eq_true] at h6
  rw [if_pos (by simp [h4, h7, h6])]
  unfold State.retryWait
  rw [h1]
  simp only
  rw [h2]
  simp only
  rw [h5]
theorem endsWait_of {ev : Nat → Nat → Instr} {k : WaitKind} {i : Instr} {pre : Wait → State → Prop} {pc : State → Va}
    (hev : ∀ s w e v, WaitsAt s w e v k i → exec (ev w e) s = s.grant w e [k]) (hi : ∀ u, waitingRun (encode i) u = exec i u)
    (h : ∀ s w e v, WaitsAt s w e v k i → ready i (s.again w e v) = true → pre v ((s.again w e v).atInstr i) →
      (s.again w e v).cs.wait = some v → ∃ t, exec i (s.again w e v) = .next t ∧ t.cs.pc = pc (s.again w e v)) : EndsWait ev k i pre pc := by
  intro s w e v hw
  have e1 : exec (ev w e) s = exec i (s.again w e v) := by rw [hev s w e v hw, grant_again hw, hi]
  refine ⟨e1, fun hr hp => ?_⟩
  obtain ⟨t, h1, h2, h3⟩ := again_runner hw
  rw [e1]
  exact h s w e v hw hr hp (by rw [h3, h2])
/-- With a body that stands apart. -/
theorem endsWait_of_apart {ev : Nat → Nat → Instr} {k : WaitKind} {i : Instr} {pre : Wait → State → Prop} {info : OpInfo} {body : Body} (hr : Runs i info body)
    (hev : ∀ s w e v, WaitsAt s w e v k i → exec (ev w e) s = s.grant w e [k]) (hi : ∀ u, waitingRun (encode i) u = exec i u)
    (hb : ∀ v u, ready i u = true → pre v (u.atInstr i) → u.cs.wait = some v → v.kind = k → ∃ x y, body (u.atInstr i) = .ok y ∧ Apart (u.atInstr i) x ∧ Wrote x y) :
    EndsWait ev k i pre State.seqPc := by
  refine endsWait_of hev hi (fun s w e v hw hrd hp hc => ?_)
  obtain ⟨x, y, h1, h2, h3⟩ := hb v _ hrd hp hc hw.2.1
  exact ⟨_, hr.ok hrd h1, wrote_pc hrd h2 h3⟩
theorem wr_maccRd (d a : BitVec 7) (u : State) : waitingRun (encode (.maccRd d a)) u = exec (.maccRd d a) u := by
  unfold waitingRun
  rw [opOf_encode]
  show execMaccRd (bits (wordDab 0x20C d a 0) 14 7) (bits (wordDab 0x20C d a 0) 7 7) u = _
  rw [(bits_dab _ _ _ _).1, (bits_dab _ _ _ _).2.1]; rfl
theorem wr_rgrow (d : BitVec 7) (u : State) : waitingRun (encode (.rgrow d)) u = exec (.rgrow d) u := by
  unfold waitingRun
  rw [opOf_encode]
  show execRgrow (bits (wordDab 0x015 d 0 0) 14 7) u = _
  rw [(bits_dab _ _ _ _).1]; rfl
theorem wr_stgaProd (d a : BitVec 7) (u : State) : waitingRun (encode (.stgaProd d a)) u = exec (.stgaProd d a) u := by
  unfold waitingRun
  rw [opOf_encode]
  show execStgaProd (bits (wordDab 0x1C8 d a 0) 14 7) (bits (wordDab 0x1C8 d a 0) 7 7) u = _
  rw [(bits_dab _ _ _ _).1, (bits_dab _ _ _ _).2.1]; rfl
theorem wr_stgaCons (d a : BitVec 7) (u : State) : waitingRun (encode (.stgaCons d a)) u = exec (.stgaCons d a) u := by
  unfold waitingRun
  rw [opOf_encode]
  show execStgaCons (bits (wordDab 0x1C9 d a 0) 14 7) (bits (wordDab 0x1C9 d a 0) 7 7) u = _
  rw [(bits_dab _ _ _ _).1, (bits_dab _ _ _ _).2.1]; rfl
theorem wr_qfence (m : BitVec 14) (u : State) : waitingRun (encode (.qfence m)) u = exec (.qfence m) u := by
  unfold waitingRun
  rw [opOf_encode]
  show execQfence (bits (wordDi 0x1A9 0 m) 0 14) u = _
  rw [(bits_di _ _ _).2]; rfl
theorem wr_mwin (a b : BitVec 7) (u : State) : waitingRun (encode (.mwin a b)) u = exec (.mwin a b) u := by
  unfold waitingRun
  rw [opOf_encode]
  show execMwin (bits (wordDab 0x201 0 a b) 7 7) (bits (wordDab 0x201 0 a b) 0 7) u = _
  rw [(bits_dab _ _ _ _).2.1, (bits_dab _ _ _ _).2.2]; rfl
theorem wr_txb (a imm : BitVec 7) (u : State) : waitingRun (encode (.txb a imm)) u = exec (.txb a imm) u := by
  unfold waitingRun
  rw [opOf_encode]
  show execTxb (bits (wordDab 0x280 0 a imm) 7 7) (bits (wordDab 0x280 0 a imm) 0 7) u = _
  rw [(bits_dab _ _ _ _).2.1, (bits_dab _ _ _ _).2.2]; rfl
theorem wr_obld (a b : BitVec 7) (u : State) : waitingRun (encode (.obld a b)) u = exec (.obld a b) u := by
  unfold waitingRun
  rw [opOf_encode]
  show execObld (bits (wordDab 0x285 0 a b) 7 7) (bits (wordDab 0x285 0 a b) 0 7) u = _
  rw [(bits_dab _ _ _ _).2.1, (bits_dab _ _ _ _).2.2]; rfl
theorem wr_abarWait (a b : BitVec 7) (u : State) : waitingRun (encode (.abarWait a b)) u = exec (.abarWait a b) u := by
  unfold waitingRun
  rw [opOf_encode]
  show execAbarWait (bits (wordDab 0x1C7 0 a b) 7 7) (bits (wordDab 0x1C7 0 a b) 0 7) u = _
  rw [(bits_dab _ _ _ _).2.1, (bits_dab _ _ _ _).2.2]; rfl
theorem wr_fjoin (a : BitVec 7) (u : State) : waitingRun (encode (.fjoin a)) u = exec (.fjoin a) u := by
  unfold waitingRun
  rw [opOf_encode]
  show execFjoin (bits (wordDab 0x2C1 0 a 0) 7 7) u = _
  rw [(bits_dab _ _ _ _).2.1]; rfl
theorem wr_mwait (a b : BitVec 7) (u : State) : waitingRun (encode (.mwait a b)) u = exec (.mwait a b) u := by
  unfold waitingRun
  rw [opOf_encode]
  show execMwait (bits (wordDab 0x00D 0 a b) 7 7) (bits (wordDab 0x00D 0 a b) 0 7) u = _
  rw [(bits_dab _ _ _ _).2.1, (bits_dab _ _ _ _).2.2]; rfl
theorem wr_yield (m : BitVec 21) (u : State) : waitingRun (encode (.yield m)) u = exec (.yield m) u := by
  unfold waitingRun
  rw [opOf_encode]
  show execYield (bits (wordOf 0x00B m) 0 21) u = _
  rw [bits_j]; rfl
theorem wr_wait (m : BitVec 14) (u : State) : waitingRun (encode (.wait m)) u = exec (.wait m) u := by
  unfold waitingRun
  rw [opOf_encode]
  show execWait (bits (wordDi 0x00C 0 m) 0 14) u = _
  rw [(bits_di _ _ _).2]; rfl
theorem wr_tins (d a b : BitVec 7) (u : State) : waitingRun (encode (.tins d a b)) u = exec (.tins d a b) u := by
  unfold waitingRun
  rw [opOf_encode]
  show execTins (bits (wordDab 0x246 d a b) 14 7) (bits (wordDab 0x246 d a b) 7 7) (bits (wordDab 0x246 d a b) 0 7) u = _
  rw [(bits_dab _ _ _ _).1, (bits_dab _ _ _ _).2.1, (bits_dab _ _ _ _).2.2]; rfl
theorem wr_copyG2s (a : BitVec 7) (u : State) : waitingRun (encode (.copyG2s a)) u = exec (.copyG2s a) u := by
  unfold waitingRun
  rw [opOf_encode]
  show execCopyG2s (bits (wordDab 0x1C0 0 a 0) 7 7) u = _
  rw [(bits_dab _ _ _ _).2.1]; rfl
theorem wr_ksrtK32 (a : BitVec 7) (u : State) : waitingRun (encode (.ksrtK32 a)) u = exec (.ksrtK32 a) u := by
  unfold waitingRun
  rw [opOf_encode]
  show execKsrtK32 (bits (wordDab 0x287 0 a 0) 7 7) u = _
  rw [(bits_dab _ _ _ _).2.1]; rfl
theorem wr_ksrtK64 (a : BitVec 7) (u : State) : waitingRun (encode (.ksrtK64 a)) u = exec (.ksrtK64 a) u := by
  unfold waitingRun
  rw [opOf_encode]
  show execKsrtK64 (bits (wordDab 0x288 0 a 0) 7 7) u = _
  rw [(bits_dab _ _ _ _).2.1]; rfl
theorem wr_binc (a : BitVec 7) (u : State) : waitingRun (encode (.binc a)) u = exec (.binc a) u := by
  unfold waitingRun
  rw [opOf_encode]
  show execBinc (bits (wordDab 0x289 0 a 0) 7 7) u = _
  rw [(bits_dab _ _ _ _).2.1]; rfl
theorem wr_txsL (d a b : BitVec 7) (u : State) : waitingRun (encode (.txsL d a b)) u = exec (.txsL d a b) u := by
  unfold waitingRun
  rw [opOf_encode]
  show execTxsL (bits (wordDab 0x281 d a b) 14 7) (bits (wordDab 0x281 d a b) 7 7) (bits (wordDab 0x281 d a b) 0 7) u = _
  rw [(bits_dab _ _ _ _).1, (bits_dab _ _ _ _).2.1, (bits_dab _ _ _ _).2.2]; rfl
theorem wr_txsG (d a b : BitVec 7) (u : State) : waitingRun (encode (.txsG d a b)) u = exec (.txsG d a b) u := by
  unfold waitingRun
  rw [opOf_encode]
  show execTxsG (bits (wordDab 0x282 d a b) 14 7) (bits (wordDab 0x282 d a b) 7 7) (bits (wordDab 0x282 d a b) 0 7) u = _
  rw [(bits_dab _ _ _ _).1, (bits_dab _ _ _ _).2.1, (bits_dab _ _ _ _).2.2]; rfl

end Sys2Proof.Laws
end

