-- ==== Sys2Proof/Laws/Signature.lean ====
section
/-! SUPPORT. Lengths of what the sponges give, and signatures under a public key of zeros: the image of a witness. -/

namespace Sys2Proof.Machine

open Sys2Proof

/-! The sponge. -/

theorem planes_length (a : List DWord) (ha : a.length = 25) : ∀ p ∈ planes a, p.length = 5 := fun p hp => by
  obtain ⟨y, hy, rfl⟩ := List.mem_map.mp hp
  have := List.mem_range.mp hy
  rw [List.length_take, List.length_drop, ha]
  omega

/-- Five words for each of the five planes are 25 words. -/
theorem flatMap_planes_length (f : List DWord → List DWord) (a : List DWord) (ha : a.length = 25)
    (h : ∀ p : List DWord, p.length = 5 → (f p).length = 5) : ((planes a).flatMap f).length = 25 := by
  have hp : (planes a).map (fun p => (f p).length) = (planes a).map (fun _ => 5) :=
    List.map_congr_left fun p hp => h p (planes_length a ha p hp)
  rw [List.length_flatMap, hp, List.map_const', List.sum_replicate_nat]
  rfl

theorem parity_length (ps : List (List DWord)) (b : List DWord) (hb : b.length = 5) (h : ∀ p ∈ ps, p.length = 5) :
    (ps.foldl (List.zipWith (· ^^^ ·)) b).length = 5 := by
  induction ps generalizing b with
  | nil => exact hb
  | cons p ps ih =>
    exact ih _ (by rw [List.length_zipWith, hb, h p (List.mem_cons_self ..)]; rfl) (fun q hq => h q (List.mem_cons_of_mem _ hq))

theorem scatterLanes_length (a : List DWord) : (scatterLanes a).length = a.length := by
  unfold scatterLanes
  generalize List.range 24 = ts
  suffices h : ∀ (w : (Nat × Nat) × List DWord), w.2.length = a.length →
      (ts.foldl (fun (walk : (Nat × Nat) × List DWord) t =>
        ((walk.1.2, (2 * walk.1.1 + 3 * walk.1.2) % 5), walk.2.set (walk.1.2 + 5 * ((2 * walk.1.1 + 3 * walk.1.2) % 5))
          ((nth a (walk.1.1 + 5 * walk.1.2) 0).rotateLeft ((t + 1) * (t + 2) / 2 % 64)))) w).2.length = a.length from h _ rfl
  induction ts with
  | nil => exact fun _ h => h
  | cons t ts ih => exact fun w h => ih _ (by rw [List.length_set]; exact h)

theorem mixPlanes_length (a : List DWord) (h : a.length = 25) : (mixPlanes a).length = 25 := by
  unfold mixPlanes
  exact flatMap_planes_length _ a h (fun p hp => by simp [fromElem, hp])

theorem mixColumns_length (a : List DWord) (h : a.length = 25) : (mixColumns a).length = 25 := by
  have hc := parity_length (planes a) (List.replicate 5 0) rfl (planes_length a h)
  unfold mixColumns
  exact flatMap_planes_length _ a h (fun p hp => by
    simp only [List.length_zipWith, fromElem, List.length_append, List.length_drop, List.length_take, hc, hp, Nat.reduceSub,
      Nat.reduceAdd, Nat.min_self, Nat.reduceLeDiff, Nat.min_eq_left])

theorem permuteOnce_length (a : List DWord) (round : Nat) (h : a.length = 25) : (permuteOnce a round).length = 25 := by
  rw [permuteOnce, List.length_set, mixPlanes_length _ ((scatterLanes_length _).trans (mixColumns_length a h))]

theorem keccakF_length (a : List DWord) (h : a.length = 25) : (keccakF a).length = 25 := by
  unfold keccakF
  generalize List.range 24 = rounds
  induction rounds generalizing a with
  | nil => exact h
  | cons r rounds ih => rw [List.foldl_cons]; exact ih _ (permuteOnce_length a r h)

theorem absorb_length (r : Nat) (bs : List Byte) (n i : Nat) (a : List DWord) (h : a.length = 25) :
    (absorb r bs n i a).length = 25 := by
  induction n generalizing i a with
  | zero => exact h
  | succ n ih => exact ih _ _ (keccakF_length _ (by simp))

theorem squeeze_length (r n : Nat) (hr : r ≤ 200) (a : List DWord) (h : a.length = 25) : (squeeze r n a).length = n * r := by
  induction n generalizing a with
  | zero => simp [squeeze]
  | succ n ih =>
    have hl : (a.flatMap (fun w => toBytes 8 w.toNat)).length = 200 := by
      simp [List.length_flatMap, toBytes_length, h]
    simp only [squeeze, List.length_append, List.length_take, hl, ih _ (keccakF_length _ h)]
    rw [Nat.min_eq_left hr, Nat.succ_mul, Nat.add_comm]

/-- SHAKE256 gives as many bytes as it is asked for. -/
theorem shake256_length (n : Nat) (bs : List Byte) : (shake256 n bs).length = n := by
  unfold shake256 sponge
  rw [List.length_take, squeeze_length _ _ (by omega) _ (absorb_length _ _ _ _ _ (by simp))]
  exact Nat.min_eq_left (by omega)

namespace Mldsa

/-! Polynomials whose coefficients are all 0. -/

theorem mem_zip {α β γ : Type} (f : α → β → γ) (as : List α) (bs : List β) (x : γ) (h : x ∈ List.zipWith f as bs) :
    ∃ a ∈ as, ∃ b ∈ bs, x = f a b := by
  induction as generalizing bs with
  | nil => simp at h
  | cons a as ih =>
    cases bs with
    | nil => simp at h
    | cons b bs =>
      rcases List.mem_cons.1 h with rfl | h
      · exact ⟨a, by simp, b, by simp, rfl⟩
      · obtain ⟨a', ha, b', hb, e⟩ := ih bs h
        exact ⟨a', by simp [ha], b', by simp [hb], e⟩

theorem foldl_zeros {α : Type} (f : Nat → α → Nat) (l : List α) (h : ∀ x ∈ l, f 0 x = 0) : l.foldl f 0 = 0 := by
  induction l with
  | nil => rfl
  | cons a l ih => rw [List.foldl_cons, h a (by simp)]; exact ih (fun x hx => h x (by simp [hx]))

theorem foldr_zeros {α : Type} (f : α → Nat → Nat) (l : List α) (h : ∀ x ∈ l, f x 0 = 0) : l.foldr f 0 = 0 := by
  induction l with
  | nil => rfl
  | cons a l ih => rw [List.foldr_cons, ih (fun x hx => h x (by simp [hx]))]; exact h a (by simp)

def Zeros (f : Poly) : Prop := ∀ x ∈ f, x = 0

theorem zeros_ntt (f : Poly) (h : Zeros f) : Zeros (ntt f) := by
  intro x hx
  obtain ⟨r, -, rfl⟩ := List.mem_map.1 hx
  exact foldr_zeros _ _ (fun c hc => by simp [h c hc])

theorem zeros_mul (f g : Poly) (h : Zeros g) : Zeros (mul f g) := by
  intro x hx
  obtain ⟨a, -, b, hb, rfl⟩ := mem_zip _ _ _ _ hx
  simp [h b hb]

theorem zeros_add (f g : Poly) (hf : Zeros f) (hg : Zeros g) : Zeros (add f g) := by
  intro x hx
  obtain ⟨a, ha, b, hb, rfl⟩ := mem_zip _ _ _ _ hx
  simp [hf a ha, hg b hb]

theorem zeros_sub (f g : Poly) (hf : Zeros f) (hg : Zeros g) : Zeros (sub f g) := by
  intro x hx
  obtain ⟨a, ha, b, hb, rfl⟩ := mem_zip _ _ _ _ hx
  simp [hf a ha, hg b hb]

theorem zeros_unNtt (f : Poly) (h : Zeros f) : Zeros (unNtt f) := by
  intro x hx
  obtain ⟨j, -, rfl⟩ := List.mem_map.1 hx
  rw [foldl_zeros _ _ (fun v hv => by
    obtain ⟨a, ha, b, -, rfl⟩ := mem_zip _ _ _ _ hv
    simp [h a ha])]
  simp

theorem zeros_apply (m : List (List Poly)) (v : List Poly) (h : ∀ f ∈ v, Zeros f) : ∀ f ∈ apply m v, Zeros f := by
  intro f hf
  obtain ⟨row, -, rfl⟩ := List.mem_map.1 hf
  have go : ∀ (l : List Poly) (a : Poly), Zeros a → (∀ f ∈ l, Zeros f) → Zeros (l.foldl add a) := by
    intro l
    induction l with
    | nil => exact fun _ h _ => h
    | cons b l ih => exact fun a ha hl => ih _ (zeros_add _ _ ha (hl b (by simp))) (fun f hf => hl f (by simp [hf]))
  refine go _ _ (fun x hx => List.eq_of_mem_replicate hx) (fun g hg => ?_)
  obtain ⟨a, -, b, hb, rfl⟩ := mem_zip _ _ _ _ hg
  exact zeros_mul a b (h b hb)

theorem ofBytes_zeros (n : Nat) : ofBytes (List.replicate n 0) = 0 := by
  induction n with
  | zero => rfl
  | succ n ih => rw [List.replicate_succ, ofBytes, ih]; rfl

theorem zeros_unpack (b n : Nat) : Zeros (unpack b (List.replicate n 0)) := by
  intro x hx
  obtain ⟨i, -, rfl⟩ := List.mem_map.1 hx
  rw [bitsOfBytes, ofBytes_zeros, field, Nat.zero_div, Nat.zero_mod]

theorem pack_zeros (b : Nat) (f : Poly) (h : Zeros f) : pack b f = toBytes (32 * b) 0 := by
  unfold pack
  rw [foldr_zeros _ _ (fun c hc => by simp [h c hc])]

theorem pieces_cons (n len : Nat) (a b : List Byte) (h : a.length = len) : pieces (n + 1) len (a ++ b) = a :: pieces n len b := by
  subst h
  unfold pieces
  rw [List.range_succ_eq_map, List.map_cons, List.map_map]
  congr 1
  · simp
  · apply List.map_congr_left
    intro i _
    simp only [Function.comp, Nat.mul_succ, Nat.add_comm _ a.length, List.drop_length_add_append]

theorem norm_zeros (fs : List Poly) (h : ∀ f ∈ fs, Zeros f) : norm fs = 0 := by
  refine foldl_zeros _ _ (fun c hc => ?_)
  obtain ⟨f, hf, hc⟩ := List.mem_flatten.1 hc
  rw [h f hf c hc]
  rfl

/-- Eight polynomials of zeros as high parts. -/
theorem packHigh_zeros (w : List Poly) (n : Nat) (hn : w.length = n) (h : ∀ f ∈ w, Zeros f) :
    packHigh w = (List.replicate n (toBytes 128 0)).flatten := by
  subst hn
  induction w with
  | nil => rfl
  | cons f w ih =>
    rw [List.length_cons, List.replicate_succ, List.flatten_cons, packHigh, List.flatMap_cons, pack_zeros 4 f (h f (by simp))]
    exact congrArg _ (ih (fun g hg => h g (by simp [hg])))

theorem nth_zeros (n i : Nat) : nth (List.replicate n (0 : Byte)) i 0 = 0 := by
  unfold nth
  rw [List.getElem?_replicate]
  split <;> rfl

/-- The counts and positions of no hints at all. -/
theorem no_hints : ∃ h, unpackHints (List.replicate 83 0) = some h ∧ h.length = 8 ∧ ∀ p ∈ h, ∀ b ∈ p, b = false := by
  have at0 : ∀ i, (nth (List.replicate 83 (0 : Byte)) i 0).toNat = 0 := fun i => by rw [nth_zeros]; rfl
  unfold unpackHints
  simp only [at0]
  refine ⟨_, if_pos (by decide +kernel), by rw [List.length_map, List.length_range], ?_⟩
  intro p hp b hb
  obtain ⟨i, -, rfl⟩ := List.mem_map.1 hp
  obtain ⟨c, -, rfl⟩ := List.mem_map.1 hb
  simp

/-- The packed masking vector of zeros. -/
def noMask : List Byte := packFrom 20 gamma1 zero

theorem noMask_length : noMask.length = 640 := toBytes_length _ _

theorem unpack_noMask : unpackFrom 20 gamma1 noMask = zero := by decide +kernel

/-- Seven of them in a row. -/
def noMasks (rest : List Byte) : List Byte :=
  noMask ++ (noMask ++ (noMask ++ (noMask ++ (noMask ++ (noMask ++ (noMask ++ rest))))))

theorem noMasks_length (rest : List Byte) : (noMasks rest).length = 4480 + rest.length := by
  simp only [noMasks, List.length_append, noMask_length]; omega

theorem pieces_noMasks (rest : List Byte) : pieces 7 640 (noMasks rest) = List.replicate 7 noMask := by
  simp only [noMasks, pieces_cons _ 640 _ _ noMask_length]
  rfl

/-- Under the public key of zeros any message has a signature that verifies: a mask of zeros, no hints and the digest that goes
with them. -/
theorem verify_zeros (m : List Byte) :
    verify (List.replicate 2592 0) m (shake256 64 (message (shake256 64 (List.replicate 2592 0)) m ++
      (List.replicate 8 (toBytes 128 0)).flatten) ++ noMasks (List.replicate 83 0)) = true := by
  obtain ⟨h, hh, hl, hf⟩ := no_hints
  generalize hseed : shake256 64 (message (shake256 64 (List.replicate 2592 0)) m ++ (List.replicate 8 (toBytes 128 0)).flatten) = seed
  have hs : seed.length = 64 := by rw [← hseed, shake256_length]
  have hd : (seed ++ noMasks (List.replicate 83 0)).drop 64 = noMasks (List.replicate 83 0) := List.drop_left' hs
  have hy : (seed ++ noMasks (List.replicate 83 0)).drop 4544 = List.replicate 83 0 := by
    rw [show 4544 = 64 + 4480 from rfl, ← List.drop_drop, hd]
    simp only [noMasks, ← List.append_assoc]
    exact List.drop_left' (by simp only [List.length_append, noMask_length])
  unfold verify
  rw [if_neg (by rw [List.length_replicate, List.length_append, hs, noMasks_length, List.length_replicate]; decide), hy, hh]
  simp only
  rw [hd, pieces_noMasks, List.take_left' hs]
  simp only [List.map_replicate, unpack_noMask, Bool.and_eq_true, decide_eq_true_eq]
  have hz : ∀ n, ∀ f ∈ List.replicate n zero, Zeros f := fun n f hf x hx => by
    rw [List.eq_of_mem_replicate hf] at hx
    exact List.eq_of_mem_replicate hx
  refine ⟨by rw [norm_zeros _ (hz 7)]; decide, ?_⟩
  rw [packHigh_zeros _ 8, hseed]
  · rw [List.length_zipWith, List.length_zipWith, hl]; rfl
  · intro f hw
    obtain ⟨hs, hhs, g, hg, rfl⟩ := mem_zip _ _ _ _ hw
    obtain ⟨a, ha, u, hu, rfl⟩ := mem_zip _ _ _ _ hg
    intro x hx
    obtain ⟨b, hb, c, hc, rfl⟩ := mem_zip _ _ _ _ hx
    have hu0 : Zeros u := by
      obtain ⟨p, hp, rfl⟩ := List.mem_map.1 hu
      obtain ⟨i, -, rfl⟩ := List.mem_map.1 hp
      rw [List.drop_replicate, List.drop_replicate, List.take_replicate]
      exact zeros_unpack 10 _
    rw [hf hs hhs b hb, zeros_unNtt _ (zeros_sub _ _ (zeros_apply _ _ (fun v hv => ?_) a ha) (zeros_mul _ _ (zeros_ntt _ (fun y hy => ?_)))) c hc]
    · rfl
    · rw [List.eq_of_mem_replicate hv]; exact zeros_ntt _ (fun x hx => List.eq_of_mem_replicate hx)
    · obtain ⟨y', hy', rfl⟩ := List.mem_map.1 hy
      rw [hu0 y' hy']; rfl

end Mldsa

end Sys2Proof.Machine
end

