-- ==== Sys2Proof/Tests/Slice0.lean ====
section
/-! SUPPORT. Tests: words decoded bit by bit, ill-formed terms refused, single steps, and for every obligation with
hypotheses concrete states and operands that meet them. -/

open Sys2Proof Sys2Proof.Machine

namespace Sys2Proof.Tests

set_option Elab.async false

/-- One warp of 32 lanes about to run the instruction, as a placed program's first step finds it (log entry 5), but with a
frame of 96 vector and 48 scalar registers, 64 KiB of scratch and 64 accumulator rows. -/
def demo (i : Instr) : State :=
  let s := (State.reset.place (encodeBytes i)).setIssue 0 0 placeVa placeVa (encode i) false
  { s.putW { s.cw with base := 112, vf := 96, sf := 48, accl := 64 } with
    agenda := [], launches := s.launches.map (fun l => { l with record := l.record + BitVec.ofNat 1024 (65536 * 2 ^ 288 + 64 * 2 ^ 320) }) }

/-- The same in the handler of a SYS trap. -/
def inTrap (i : Instr) : State :=
  let s := demo i
  let t := (s.putW { s.cw with trapv := 0x1FFFF }).deliver 0 0 (TrapInfo.of (.sys, 0))
  t.setIssue 0 0 placeVa placeVa (encode i) false

/-- The issuing strand, or the issuing warp, changed. -/
def withS (s : State) (f : Strand → Strand) : State := s.putS (f s.cs)
def withW (s : State) (f : Warp → Warp) : State := s.putW (f s.cw)
/-- Every lane of a vector register set. -/
def setV (s : State) (n : Nat) (x : Word) : State := s.wrV n (vecOf (fun _ => x))
/-- A memory instruction of entry 1 whose accesses to host memory are still to come, among them one at byte 0x1000. -/
def pendingAt1 (s : State) : State := withW s (fun x => x.setStrand 1 (some { Strand.start 1 0x1000 with
  flight := [⟨encode .nop, none, [], 0x1000, 0x1000, 1, [], [], [], 0, [⟨0, 0x1000, 4, 0, 0, 0⟩], [], [], false⟩] }))
/-- Whether a result is a value for which p holds. -/
def okAnd {ε α : Type} (r : Except ε α) (p : α → Bool) : Bool :=
  match r with
  | .ok x => p x
  | .error _ => false
def someAnd {α : Type} (r : Option α) (p : α → Bool) : Bool :=
  match r with
  | some x => p x
  | none => false

/-! Every word instruction is ready somewhere. -/

/-- Operands that an opcode admits: s4, v16 and k1, a nonzero immediate where zero is none. -/
def plainField (k : FieldKind) : BitVec 7 :=
  match k with
  | .res0 | .imm | .max _ => 0
  | .vsrc _ | .vdst _ | .vboth _ | .vpsrc | .vpdst | .vpboth => 16
  | .ssrc | .sreg | .sdst | .sboth | .srun _ | .srecw => 4
  | .kdst | .ksrc => 1
noncomputable def plain (op : Nat) : Option Instr :=
  match opInfo op with
  | none => none
  | some i => ctorOf op (match i.fmt with
    | .J => plainField i.d ++ 1#14
    | _ => plainField i.d ++ plainField i.a ++ plainField i.b)

/-- Every opcode of a class, with its plain operands, is ready in the state built for it. -/
noncomputable def readyClass (c : Nat) : Bool :=
  (List.range 64).all (fun m => match plain (64 * c + m) with
    | none => true
    | some i => ready i (demo i))

theorem witness_ready0 : readyClass 0 = true := by decide +kernel
theorem witness_ready1 : readyClass 1 = true := by decide +kernel
theorem witness_ready2 : readyClass 2 = true := by decide +kernel
theorem witness_ready3 : readyClass 3 = true := by decide +kernel
theorem witness_ready4 : readyClass 4 = true := by decide +kernel
theorem witness_ready5 : readyClass 5 = true := by decide +kernel
theorem witness_ready6 : readyClass 6 = true := by decide +kernel
theorem witness_ready7 : readyClass 7 = true := by decide +kernel
theorem witness_ready8 : readyClass 8 = true := by decide +kernel
theorem witness_ready9 : readyClass 9 = true := by decide +kernel
theorem witness_ready10 : readyClass 10 = true := by decide +kernel
theorem witness_ready11 : readyClass 11 = true := by decide +kernel
theorem witness_count : ((List.range 768).filter (fun op => (plain op).isSome)).length = 288 := by decide +kernel

/-! Control. -/

theorem witness_ready_in_trap : [Instr.nop, .call 2, .calli 4, .frame 0, .wbase 4, .rgrow 4, .rshrink 4, .lclk 4 5, .exit,
    .eret 4 5].all (fun i => ready i (inTrap i) && (inTrap i).inHandler) = true := by decide +kernel

/-- A frame record with no registers, its return address 0x1004; a warp that has its frame area mapped. -/
def rec0 : FrameRec := ⟨0x1004, 8, 0, 8, 0, 0, 0, 0, 0, 0, 0, none⟩
def called (s : State) (n : Nat) : State :=
  let s := withW s (fun x => { x with callers := List.replicate n rec0, spb := 0x8000, flen := 4096 })
  s.setCluster 0 { s.cluster 0 with tlb := [⟨0, 0, 21, 0x83F⟩] }

/-- The four rows of R23, and a strand that is not topmost. -/
theorem witness_VectorBranchesFollowTheTable : let i : Instr := .brvT 1 4
    let s := fun (m : Mask) => (demo i).wrK 1 m
    let tk := fun (m : Mask) => (s m).active &&& (s m).rdK 1
    let deep := withS (s 0xFFFF) (fun t => { t with stack := [⟨1, 1, 0, false⟩] })
    let full := withW (s 0xFFFF) (fun x => [1, 2, 3].foldl (fun x e => x.setStrand e (some (Strand.start 0 0x1000))) x)
    [s 0, s 0xFFFFFFFF, s 0xFFFF, deep, full].all (ready i) = true ∧ tk 0 = 0 ∧ tk 0xFFFFFFFF ≠ 0 ∧
      (s 0xFFFFFFFF).k0 &&& ~~~tk 0xFFFFFFFF = 0 ∧ tk 0xFFFF ≠ 0 ∧ (s 0xFFFF).k0 &&& ~~~tk 0xFFFF ≠ 0 ∧
      (s 0xFFFF).topmost = true ∧ (List.range 4).find? (fun f => ((s 0xFFFF).cw.strand f).isNone) = some 1 ∧
      deep.topmost = false ∧ deep.cs.stack.length < 16 ∧ full.topmost = true ∧
      (List.range 4).find? (fun f => (full.cw.strand f).isNone) = none := by decide +kernel

/-- The rows of R24. -/
theorem witness_ConvergeRunsPendingPopsAndJoins :
    let on := fun (t : StackRec) => withS (demo .conv) (fun c => { c with stack := [t] })
    let arm := withS (demo .conv) (fun c => { c with kind := .arm })
    [on ⟨3, 2, 0x1000, false⟩, on ⟨3, 2, 0x1000, true⟩, on ⟨3, 0, 0x1000, false⟩, demo .conv, arm].all (ready .conv) = true ∧
      (on ⟨3, 2, 0x1000, true⟩).cs.spilledRecs = 0 ∧ (demo .conv).cs.stack = [] ∧ (demo .conv).cs.kind ≠ .arm ∧
      arm.cs.stack = [] ∧ arm.cs.kind = .arm ∧ arm.inHandler = false := by decide +kernel

theorem witness_ExitRemovesTheActiveLanes :
    let none_ := { demo .exit with issue := { (demo .exit).issue with ks := some (0, 1) } }
    let s := demo .exit
    let gone := s.active ||| leavingHelpers (s.cw.lanes &&& ~~~s.active) s.cw.helpers
    let s1 := (s.atInstr .exit).putW { s.cw with lanes := s.cw.lanes &&& ~~~gone }
    ready .exit none_ = true ∧ none_.inHandler = false ∧ none_.active = 0 ∧ ready .exit s = true ∧ s.active ≠ 0 ∧
      s.cw.anyParked = false ∧
      okAnd ((s1.putS (s1.afterChain s1.cs)).removeLanes 0 gone s.issue.resp [0, 1, 2, 3]) (fun _ => true) = true := by decide +kernel

/-- A copy of the issuing warp in queue 0 of its core. -/
def copying (s : State) : State := s.setCore 0 ((s.core 0).setQueue 0 [s.newOp (.copy 0 0 0 0) 128 false 0])

theorem witness_WaitsEndAtOnceOrStall :
    ready (.wait 1) (demo (.wait 1)) = true ∧ ready (.wait 3) (demo (.wait 3)) = true ∧
      ((demo (.wait 3)).opsOf 0).any (fun o => o.entry = 0 && o.writesRows) = false ∧ (demo (.wait 1)).cs.wait = none ∧
      ready (.wait 4) (demo (.wait 4)) = true ∧ (4#14).getLsbD 1 = false ∧
      ready (.yield 2) (demo (.yield 2)) = true ∧ (demo (.yield 2)).copiesOut 0 = false ∧
      ready (.yield 2) (copying (demo (.yield 2))) = true ∧ (copying (demo (.yield 2))).copiesOut 0 = true ∧
      ready .idem (demo .idem) = true ∧ (demo (.lclk 4 5)).cw.missGroup 0 = [] ∧ (demo (.lclk 4 5)).inHandler = false ∧
      (inTrap (.lclk 4 5)).inHandler = true ∧ ready (.bar 15) (demo (.bar 15)) = true ∧
      ready (.barg 3) (demo (.barg 3)) = true ∧ (demo (.wait 4)).issue.src = .chain ∧ (demo (.wait 4)).cs.flight = [] ∧
      (demo (.lclk 4 5)).issue.src ≠ .flight := by decide +kernel

/-- A page of the placed program, at byte 64 of which a counter stands at 2^63 + 5. -/
theorem witness_mwait : let i : Instr := .mwait 4 5
    let s := ((demo i).physWrite 0 0x1040 (toBytes 8 (2 ^ 63 + 5))).wrS 4 0x1040
    ready i s = true ∧ (s.rdS 4).toNat % 64 = 0 ∧ (s.rdS 5).toNat.testBit 63 = false ∧
      okAnd ((s.atInstr i).atomicLoad .mwait 0x1040) (fun r => r.1 = 2 ^ 63 + 5) = true := by decide +kernel

theorem witness_CallsSlideTheWindowAndReturnsMerge :
    let c := (demo (.calli 4)).wrS 4 0x1004
    let odd := (demo (.calli 4)).wrS 4 0x1001
    let deep := called (demo .ret) 1
    let stacked := withS deep (fun t => { t with stack := [⟨1, 1, 0, false⟩] })
    let at_ := fun (s : State) => (s.atInstr .ret).setWait .ret 0 []
    let shallow := fun (s : State) => s.cw.atRet.all (fun e => someAnd (s.cw.strand e) (fun t => t.depth = rec0.kdepth))
    let two := withW (demo .ret) (fun x => x.setStrand 1 (some (Strand.start 1 0x1000)))
    let full := called (demo (.call 2)) 8
    [(Instr.call 2, demo (.call 2)), (.call 2, full), (.calli 4, c), (.calli 4, odd), (.ret, two), (.ret, deep), (.ret, stacked),
      (.ret, demo .ret)].all (fun x => ready x.1 x.2 && !x.2.inHandler && !x.2.cw.othersPending x.2.issue.entry) = true ∧
      (demo (.call 2)).cw.callers.length ≠ 8 ∧ full.cw.callers.length = 8 ∧
      okAnd ((full.atInstr (.call 2)).spillOldest 0) (fun _ => true) = true ∧
      (c.rdS 4).toNat % 4 = 0 ∧ (odd.rdS 4).toNat % 4 ≠ 0 ∧
      two.issue.src = .chain ∧ two.cs.flight = [] ∧ (at_ two).cw.allAtRet = false ∧
      (at_ deep).cw.allAtRet = true ∧ (at_ deep).cw.callers.getLast? = some rec0 ∧ shallow (at_ deep) = true ∧
      (at_ stacked).cw.allAtRet = true ∧ (at_ stacked).cw.callers.getLast? = some rec0 ∧ shallow (at_ stacked) = false ∧
      (at_ (demo .ret)).cw.allAtRet = true ∧ (at_ (demo .ret)).cw.depth = 0 := by decide +kernel
/-- A return to a caller whose record the Ladle has spilled. -/
theorem witness_spilled_return : okAnd ((called (demo .ret) 1).spillOldest 0) (fun s =>
    let s' := (s.atInstr .ret).setWait .ret 0 []
    ready .ret s && !s.inHandler && s'.cw.allAtRet && decide (s'.cw.callers = [] ∧ s'.cw.depth ≠ 0) &&
      okAnd (s'.refillNewest s.issue.warp s.issue.resp s'.cw.retDepths) (fun u => match u.cw.callers with
        | [r] => u.cw.atRet.all (fun e => someAnd (u.cw.strand e) (fun t => t.depth = r.kdepth))
        | _ => false)) = true := by decide +kernel
/-- Another strand's memory instruction that a window instruction waits for. -/
theorem witness_window_waits : [Instr.call 2, .calli 4, .frame 0xA34, .wbase 4, .rgrow 4, .rshrink 4].all (fun i =>
    let s := pendingAt1 (demo i)
    ready i s && !s.inHandler && s.cw.othersPending s.issue.entry && decide (s.issue.src = .chain ∧ s.cs.flight = [])
      && !(demo i).cw.othersPending 0) = true := by decide +kernel

theorem witness_WindowInstructionsSetTheFrame :
    let f := demo (.frame 0xA34)
    let g := demo (.rgrow 4)
    let h := demo (.rshrink 4)
    let e := fun (s : State) => withW s (fun x => { x with ext := true })
    ready (.frame 0xA34) f = true ∧ ((f.atInstr (.frame 0xA34)).spillFor 0 32 16 9).2.isNone = true ∧
      ready (.wbase 4) (demo (.wbase 4)) = true ∧ (demo (.wbase 4)).inHandler = false ∧
      ready (.rgrow 4) (e g) = true ∧ (e g).cw.ext = true ∧ ready (.rgrow 4) g = true ∧ g.cw.ext = false ∧ g.cs.wait = none ∧
      64 ≤ g.pool (g.quarterOf 0) ∧ g.firstToGrow 0 g.seq = true ∧ ((g.atInstr (.rgrow 4)).spillAll 0 9).2.isNone = true ∧
      ready (.rshrink 4) h = true ∧ h.cw.ext = false ∧ ready (.rshrink 4) (e h) = true ∧
      (((e h).atInstr (.rshrink 4)).spillAll 0 9).2.isNone = true := by decide +kernel

/-- CTLW to every control register, without and with spilled data. -/
theorem witness_control_registers :
    (List.range 12).all (fun n => let i : Instr := .ctlw 4 (BitVec.ofNat 7 n)
      ready i (demo i) && !(demo i).cw.hasSpilled && ready (.ctlr 4 (BitVec.ofNat 7 n)) (demo (.ctlr 4 (BitVec.ofNat 7 n)))) = true ∧
    (let s := withW (demo (.ctlw 4 7)) (fun x => { x with sptr := 256 })
     ready (.ctlw 4 7) s = true ∧ s.cw.hasSpilled = true ∧ s.cw.sptr ≠ 0) ∧
    (let s := withS (demo (.ctlw 4 6)) (fun t => { t with spilledRecs := 1 })
     ready (.ctlw 4 6) s = true ∧ someAnd (s.cw.strand 0) (fun t => t.spilledRecs ≠ 0) = true) ∧
    (let s := withS (inTrap (.ctlw 4 6)) (fun t => { t with spilledRecs := 1 })
     ready (.ctlw 4 6) s = true ∧ s.cw.handlers.any (fun h => h.strand.spilledRecs ≠ 0) = true) := by decide +kernel
/-- The names of R56 in an SMOV, which is no instruction of an operand log. -/
theorem witness_special_names : (List.range 13).all (fun k => let i : Instr := .smov 4 (BitVec.ofNat 7 (64 + k))
    ready i (demo i) && (demo i).issue.replay.isNone) = true := by decide +kernel

/-! Traps. -/

theorem witness_EnabledTrapsEnterTheHandler : let s := withW (demo .nop) (fun x => { x with trapv := 0x1FFFF })
    let i := TrapInfo.of (.sys, 0)
    0 < s.warps.length ∧ (s.warp 0).phase = .running ∧ ((s.warp 0).runner 0).isSome = true ∧ (s.warp 0).handlers = [] ∧
      i.cause ≠ .mchk ∧ (s.warp 0).trapv.getLsbD i.cause.num = true ∧ (s.quarter (s.quarterOf 0)).owner = none ∧ i.sub < 256 ∧
      i.logN ≤ 8 ∧ i.lane < 32 := by decide +kernel

/-- A cause that is not enabled, a machine check, and a trap in handler code of its own cause. -/
theorem witness_OtherTrapsStopTheWarp :
    ((demo .nop).warp 0).trapv.getLsbD (TrapInfo.of (.sys, 0)).cause.num = false ∧ ((demo .nop).warp 0).runner 0 ≠ none ∧
      (TrapInfo.of (.mchk, 0)).cause = .mchk ∧
      someAnd (((inTrap .nop).warp 0).handlerAt 0) (fun h => h.cause = (TrapInfo.of (.sys, 0)).cause.num) = true := by decide +kernel

theorem witness_EretTakesItsAction : let i : Instr := .eret 4 5
    let s := fun (act to_ : DWord) => ((inTrap i).wrS 4 act).wrS 5 to_
    [s 0 0, s 1 0, s 2 0x1000, s 2 0x1002, s 3 0, s 4 0].all (fun u => ready i u && u.inHandler) = true ∧
      (s 0 0).cw.handlers.length = 1 ∧ (s 0 0).cw.handlers.all (fun h => ((s 0 0).cw.strand h.entry).isSome) = true ∧
      ((s 2 0x1000).rdS 5).toNat % 4 = 0 ∧ ((s 2 0x1002).rdS 5).toNat % 4 ≠ 0 ∧ ((s 4 0).rdS 4).toNat = 4 ∧
      ready i (demo i) = true ∧ (demo i).inHandler = false ∧
      someAnd ((s 3 0).launches[((s 3 0).block (s 3 0).cw.blk).launch]?) (fun x => x.phase = .running) = true := by decide +kernel

/-- An unused word, one with a reserved bit set and a QFENCE of no queue, at a chain and in handler code. -/
theorem witness_UnusedOpcodesRaiseIllop : let s := demo .nop
    let x : Word := encode (.xbal 20 12) ||| 1
    opInfo (opOf 0xFFFFFFFF) = none ∧ someAnd (opInfo (opOf x)) (fun i => !fieldsOk (opOf x) i (bits x 0 21)) = true ∧
      opOf 0x35200000 = 0x1A9 ∧ fieldOf (bits (0x35200000 : Word) 0 14) 0 6 = 0 ∧
      fieldOf (bits (0x35202001 : Word) 0 14) 6 8 ≠ 0 ∧ opOf 0x35202001 = 0x1A9 ∧
      s.issueOk = true ∧ s.inMiss = false ∧ s.issue.src = .chain ∧ s.cs.flight = [] ∧ s.cs.fault = none ∧
      (inTrap .nop).issueOk = true ∧ (inTrap .nop).inMiss = false ∧ (inTrap .nop).inHandler = true := by decide +kernel

/-- A prefix that NOP may not take, a warp of the copy role at an MMA, and a name outside the frame. -/
theorem witness_PrefixesRolesAndNamesAreChecked :
    let p := { demo .nop with issue := { (demo .nop).issue with xs := [0] } }
    let m : Instr := .mmaBf16 4 4 4
    let r := withW (demo m) (fun x => { x with role := 1 })
    let n : Instr := .vmov 127 16
    p.issueOk = true ∧ p.inMiss = false ∧ p.cs.fault = none ∧ someAnd Instr.nop.info (fun i => !i.x) = true ∧
      r.issueOk = true ∧ r.inMiss = false ∧ r.cs.fault = none ∧ someAnd m.info (fun i => !roleOk i.role r.cw.role) = true ∧
      (demo n).issueOk = true ∧ (demo n).inMiss = false ∧
      someAnd n.info (fun i => roleOk i.role (demo n).cw.role && !(demo n).namesOk i (encode n)) = true := by decide +kernel

/-! Memory instructions. -/

/-- Scratch byte 0x100 and byte 0x1080 of the placed page, as object addresses. -/
def scr : DWord := 0x0200000000000100
def page : DWord := 0x1080
/-- What an access by the issuing strand meets. -/
def meets (s : State) (l1 : Bool) (k : AccKind) (a : Addr) (n : Nat) (p : Loc → Bool) : Bool := okAnd (s.locate l1 k a n) p
/-- The same state once the page's line is in the L1. -/
def warm (s : State) : State :=
  match s.locate true .read (.glob 0x1080) 4 with
  | .ok x => (s.loadLoc 4 x).2
  | .error _ => s

/-- Loads of each width from scratch and from a line that the L1 holds. -/
theorem witness_ScalarLoadsReadTheirBytes :
    [(Instr.sldB 4 5 0, 1), (.sldH 4 5 0, 2), (.sldW 4 5 0, 4), (.sldD 4 5 0, 8)].all (fun x =>
      [scr, page].all (fun p => let s := (warm (demo x.1)).wrS 5 p
        ready x.1 s && meets (s.atInstr x.1) true .read (objAddr (s.rdS 5) (s.imm 7 0)) x.2 (fun y =>
          okAnd (y.asked s.issue.resp 0 x.2 (fun p pa => askRead p x.2 pa)) (fun r => r.isNone)
            && ((s.atInstr x.1).quietRead x.2 y).isSome))) = true := by decide +kernel

/-- Stores of each width to scratch and to the page; the access spares a byte of another line. -/
theorem witness_ScalarStoresStoreTheirBytes :
    [(Instr.sstB 4 5 0, 1), (.sstH 4 5 0, 2), (.sstW 4 5 0, 4), (.sstD 4 5 0, 8)].all (fun x =>
      [scr, page].all (fun p => let s := (demo x.1).wrS 5 p
        ready x.1 s && meets (s.atInstr x.1) true .write (objAddr (s.rdS 5) (s.imm 7 0)) x.2 (fun y =>
          okAnd (y.asked s.issue.resp 3 x.2 (fun p pa => askWrite p pa (toBytes x.2 (s.rdS 4).toNat))) (fun r => r.isNone)))) = true := by
  decide +kernel
theorem witness_spares : let s := (demo (.sstW 4 5 0)).wrS 5 page
    ∃ x, s.locate true .write (.glob 0x1080) 4 = .ok x ∧ (∃ p t, x = .glob p t) ∧ s.spares false x 4 0x2000 := by
  refine ⟨.glob 0x1080 ⟨0x103F, 0x1080, 12, none, []⟩, by decide +kernel, ⟨_, _, rfl⟩, ?_⟩
  refine ⟨?_, fun e k h => by simp at h, by decide, fun _ h => by simp at h⟩
  unfold State.lineClean
  decide +kernel

/-- Every vector load, from scratch, from the Ingot store or from a line that the L1 holds, in lane 0. -/
theorem witness_VectorLoadsReadActiveLanes :
    let lane0 := fun (s : State) => { s with issue := { s.issue with ks := some (0, 2) } }
    let set := fun (i : Instr) => ((warm (demo i)).wrK 2 1).setCtx 0 0 { ((demo i).die 0).ctx 0 with ingot := [0] }
    [(Instr.vldBImm 16 5 0, 1, Addr.glob 0x1080), (.vldHImm 16 5 0, 2, .glob 0x1080), (.vldWImm 16 5 0, 4, .glob 0x1080),
     (.vldDImm 16 5 0, 8, .glob 0x1080), (.vldBIdx 16 5 18, 1, .glob 0x1080), (.vldHIdx 16 5 18, 2, .glob 0x1080),
     (.vldWIdx 16 5 18, 4, .glob 0x1080), (.vldDIdx 16 5 18, 8, .glob 0x1080), (.vldsW 16 5 18, 4, .scr 0x1080),
     (.vldsD 16 5 18, 8, .scr 0x1080), (.vldi 16 5 18, 4, .ing 0x1080)].all (fun x =>
      let s := lane0 ((set x.1).wrS 5 page)
      ready x.1 s && decide (s.active = 1) && meets (s.atInstr x.1) true .read x.2.2 x.2.1 (fun y =>
        ((s.atInstr x.1).quietRead x.2.1 y).isSome)) = true := by decide +kernel

/-- Every vector store: 32 lanes at scratch or at the page. -/
theorem witness_VectorStoresStoreActiveLanes :
    [(Instr.vstBImm 16 5 0, 1, false), (.vstHImm 16 5 0, 2, false), (.vstWImm 16 5 0, 4, false), (.vstDImm 16 5 0, 8, false),
     (.vstBIdx 16 5 18, 1, false), (.vstHIdx 16 5 18, 2, false), (.vstWIdx 16 5 18, 4, false), (.vstDIdx 16 5 18, 8, false),
     (.vstsW 16 5 18, 4, true), (.vstsD 16 5 18, 8, true)].all (fun x => let s := (demo x.1).wrS 5 page
      ready x.1 s && (lanesOf s.activeReal).all (fun l => let a := 0x1080 + x.2.1 * l
        meets (s.atInstr x.1) true .write (if x.2.2 then .scr a else .glob a) x.2.1 (fun y =>
          okAnd (y.asked s.issue.resp 3 x.2.1 (fun p pa => askWrite p pa (toBytes x.2.1 0))) (fun r => r.isNone)))) = true := by
  decide +kernel

/-- Each condition that an address meets alone. -/
theorem witness_AddressTraps : let s := demo .nop
    s.issue.memo = [] ∧ [(Addr.glob 0x1082, eAlign), (.glob 0x0200000000000000, eNoncanon), (.scr 0x102, eAlign), (.scr 0x10000, eRange),
      (.scr 0x11000000, eRange), (.ing 0x102, eAlign), (.ing 0x10000000, eRange), (.dirty 0x102, eAlign), (.dirty 0x100, eRange),
      (.noSpace 0x0400000000000002, eNoncanon), (.noSpace 0x0400000000000000, eNoncanon)].all (fun x =>
        someAnd (s.addressBad x.1 4) (fun y => decide (y.1 = x.2))) = true := by decide +kernel
/-- The error of an access, its order among the conditions of R143 included. -/
def errs (s : State) (l1 : Bool) (k : AccKind) (a : Addr) (n : Nat) (p : Nat → Bool) : Bool :=
  match s.locate l1 k a n with
  | .ok _ => false
  | .error e => p (errRank e.1)
/-- A misaligned access and one of a page that is not mapped, of each width, outside handler code. -/
theorem witness_accesses_trap :
    [(Instr.sldW 4 5 0, true, AccKind.read), (.sstW 4 5 0, true, .write)].all (fun x => [(0x1082, 1), (0x900000, 5)].all (fun p =>
      let s := (demo x.1).wrS 5 p.1
      ready x.1 s && errs (s.atInstr x.1) x.2.1 x.2.2 (objAddr (s.rdS 5) (s.imm 7 0)) 4 (fun r => r = p.2)
        && !s.inHandler && !s.later && !s.inMiss)) = true ∧
    [(Instr.vldWIdx 16 4 18, true, AccKind.read), (.vstWIdx 16 4 18, true, .write), (.atomAdd 16 4 18, false, .write)].all (fun x =>
      [(0x1082, 1), (0x900000, 5)].all (fun p => let s := (demo x.1).wrS 4 p.1
        ready x.1 s && decide (s.cw.det = false) && (lanesOf s.activeReal).all (fun l =>
          errs (s.atInstr x.1) x.2.1 x.2.2 (.glob (add64 (s.rdS 4) ((s.lane 18 l).toNat : Int))) 4 (fun r => r = p.2))
          && !s.inHandler && !s.later && !s.inMiss)) = true := by decide +kernel
/-- Of lanes that meet different conditions the earliest order decides: lane 3 is misaligned, the others' page is not mapped. -/
theorem witness_earliest_order : let i : Instr := .vldWIdx 16 4 18
    let s := ((demo i).wrS 4 0x900000).wrV 18 (vecOf (fun l => if l = 3 then 2 else 0))
    ready i s = true ∧ (lanesOf s.activeReal).all (fun l => errs (s.atInstr i) true .read
      (.glob (add64 (s.rdS 4) ((s.lane 18 l).toNat : Int))) 4 (fun r => r = if l = 3 then 1 else 5)) = true := by decide +kernel

/-- Every atomic, on scratch and on the page, outside and inside deterministic mode. -/
theorem witness_AtomicsUpdateEachLane :
    [(Instr.atomAdd 16 4 18, 4), (.atomMinS 16 4 18, 4), (.atomMaxS 16 4 18, 4), (.atomMinU 16 4 18, 4), (.atomMaxU 16 4 18, 4),
     (.atomAnd 16 4 18, 4), (.atomOr 16 4 18, 4), (.atomExch 16 4 18, 4), (.atomCas 16 4 18, 4), (.atomMaxi 16 4 18, 8),
     (.atomq 16 4 18, 32)].all (fun x => [(scr, false), (page, false), (scr, true)].all (fun p =>
      let s := withW ((demo x.1).wrS 4 p.1) (fun w => { w with det := p.2 })
      let u := s.atInstr x.1
      ready x.1 s && (lanesOf s.activeReal).all (fun l => meets u false .write (objAddr p.1 ((s.lane 18 l).toNat : Int)) x.2 (fun y =>
        match y with
        | .glob _ t => decide (leafKind t.leaf ≠ 2)
        | _ => true) && !u.otherRank (objAddr p.1 ((s.lane 18 l).toNat : Int))) && u.atomNext)) = true ∧
    (let s := withW ((demo (.atomAdd 16 4 18)).wrS 4 page) (fun w => { w with det := true })
     ready (.atomAdd 16 4 18) s = true ∧ s.cw.det = true ∧ fieldOf (s.rdS 4) 57 3 = 0) := by decide +kernel

/-- Aligned and misaligned ranges of a translation fence, and a start outside the global space. -/
theorem witness_FencesReleaseAcquireAndDropTranslations :
    [Instr.tfenceDie 4 5, .tfenceDevice 4 5, .tfenceSystem 4 5].all (fun i => ready i ((demo i).wrS 4 0x1000)) = true ∧
    fieldOf (0x1000 : DWord) 0 12 = 0 ∧ fieldOf (0x1008 : DWord) 0 12 ≠ 0 ∧ fieldOf (0x1000 : DWord) 57 3 = 0 ∧
    fieldOf (0x0200000000000000 : DWord) 57 3 ≠ 0 ∧ fieldOf (0x0200000000000000 : DWord) 0 12 = 0 ∧
    [(Instr.tfenceDie 4 5, Scope.die), (.tfenceDevice 4 5, .device), (.tfenceSystem 4 5, .system)].all (fun x =>
      let s := ((demo x.1).wrS 4 0x1000).wrS 5 0x1000
      let away := fun (s : State) => (s.atInstr x.1).accessesOf s.who.asid (x.2.clusters 0) (x.2 = .system)
      decide (s.cs.wait = none ∧ away s = [] ∧ away (pendingAt1 s) ≠ []) && ready x.1 (pendingAt1 s)) = true := by decide +kernel

theorem witness_PrefetchesAndQueueFences : let i : Instr := .qfence 33
    ready i (demo i) = true ∧ (demo i).cs.wait = none ∧ fieldOf (33#14) 6 8 = 0 ∧ fieldOf (33#14) 0 6 ≠ 0 ∧
      ((demo i).atInstr i).outstanding 0 33 (demo i).seq = false ∧
      (let s := { copying (demo i) with seq := (demo i).seq + 1 }
       ready i s = true ∧ s.cs.wait = none ∧ s.issue.src = .chain ∧ s.cs.flight = [] ∧ (s.atInstr i).outstanding 0 33 s.seq = true) := by
  decide +kernel

/-! Engines. -/

/-- A run of four scalars from s4, and one from s8. -/
def run4 (s : State) (n : Nat) (w : List DWord) : State := (List.range 4).foldl (fun s k => s.wrS (n + k) (nth w k 0)) s

theorem witness_CopiesEnterTheirQueue :
    [(Instr.copyG2s 4, 0, [0x100, 0x2000, 256, 0]), (.copyS2g 4, 1, [0x2000, 0x100, 256, 0]),
     (.copyG2g 4, 2, [0x2000, 0x3000, 256, 0]), (.copyIngot 4, 3, [0x1000, 0x2000, 256, 0]), (.copyHalo 4, 4, [0x2000, 0x3000, 0x300000000, 0])].all
      (fun x => let s := run4 (demo x.1) 4 x.2.2
        ready x.1 s && decide ((s.atInstr x.1).copyCheck x.2.1 (s.rdS 4) (s.rdS 5) (s.rdS 6) (s.rdS 7) = none)
          && decide (((s.core 0).queue (cQ (s.rdS 6))).length < 16)) = true := by decide +kernel

/-- A descriptor record of one shape: rows, columns, ok, in scratch, lines of 128 bytes. -/
def shape (base rows cols : Nat) : List DWord := [BitVec.ofNat 64 base, BitVec.ofNat 64 (0x80 + rows * 2 ^ 8 + cols * 2 ^ 21 + 128 * 2 ^ 34), 0, 0x4000]

theorem witness_copym : let i : Instr := .copym 4 8
    let s := (run4 (demo i) 4 [0x100, 0x2000, 256, 0]).wrS 8 0x200
    let cmd := toBytes 8 0x203 ++ toBytes 8 0 ++ (shape 0x1000 16 32 ++ shape 0x3000 32 16).flatMap (fun w => toBytes 8 w.toNat)
    let t := s.scratchWrite 0 0x200 cmd
    let blk := commandBlock (t.scratchRead 0 0x200 80)
    ready i t = true ∧ cOpt (t.rdS 6) = 0 ∧ cHeld (t.rdS 6) = false ∧
      (t.atInstr i).copyCheck 0 (t.rdS 4) (t.rdS 5) (t.rdS 6) (t.rdS 7) = none ∧ (t.rdS 8).toNat % 16 = 0 ∧
      (t.rdS 8).toNat + 80 ≤ recScratch (t.recOf 0) ∧ 0x203 ≤ blk.1.toNat ∧ blk.1.toNat ≤ 0x208 ∧
      (t.atInstr i).mmaCheck blk.2 = none ∧ (t.atInstr i).rowsBusy blk.2.rows = false := by decide +kernel

theorem witness_collectives : [Instr.collRed 4, .collGather 4].all (fun i =>
    let s := run4 (demo i) 4 [0x100, 8 + 2 ^ 32 * 1, 0, 0]
    ready i s && decide (fieldOf (s.rdS 4) 34 30 = 0 ∧ 1 ≤ fieldOf (s.rdS 5) 0 32 ∧ fieldOf (s.rdS 5) 0 32 ≤ 2 ^ 24 ∧
      fieldOf (s.rdS 5) 32 32 ≠ 0 ∧ fieldOf (s.rdS 4) 0 32 % 128 = 0 ∧ fieldOf (s.rdS 6) 0 4 = 0 ∧ fieldOf (s.rdS 7) 0 6 = 0 ∧
      fieldOf (s.rdS 4) 0 32 + 4 * fieldOf (s.rdS 5) 0 32 ≤ recScratch (s.recOf 0))) = true := by decide +kernel

/-- A context whose peer 0 is context 0 of die 0 of package 0. -/
def peered (s : State) : State :=
  s.setCtx 0 0 { (s.die 0).ctx 0 with enabled := true, peers := [(0, { valid := true, pkg := 0, die := 0, ctx := 0, addr := 1, cbase := 0, akey := 7, res0 := false })] }

theorem witness_remote : [(Instr.rst 16 18 4, false), (.rred 16 18 4, true), (.rld 16 18 4, false)].all (fun x =>
    let s := peered ((demo x.1).wrS 4 0x1000)
    ready x.1 s && !s.cw.det && okAnd ((s.atInstr x.1).remoteCheck x.2 4 16 18 4) (fun r => r.2.length = 32)) = true ∧
    (let i : Instr := .rld 16 18 4
     let s := peered ((demo i).wrS 4 0x1000)
     let t := { s with issue := { s.issue with resp := [⟨2, 0x1000, 4, 9, none⟩] } }
     ready i t = true ∧ okAnd ((t.atInstr i).remoteCheck false 4 16 18 4)
       (fun r => r.2.all (fun x => decide (hostAns t.issue.resp 2 x.2 4 = some (.ok 9)))) = true) := by decide +kernel

/-- A matrix operation of 16 by 32 by 16 of each opcode, one of a bad shape and one outside the window. -/
theorem witness_MatrixOperationsEnterTheirQueue :
    [(Instr.mmaBf16 4 8 12, 0x203), (.mmaF16 4 8 12, 0x204), (.mmaE4m3 4 8 12, 0x205), (.mmaE5m2 4 8 12, 0x206), (.mmaT8 4 8 12, 0x207),
     (.mmaT6 4 8 12, 0x208), (.mmaxE2m1 4 8 12, 0x209), (.mmaxE4m3 4 8 12, 0x20A), (.msca 4 8 12, 0x20B)].all (fun x =>
      let d : DWord := if x.2 ≤ 0x208 then 0 else BitVec.ofNat 64 (32 * 2 ^ 32)
      let s := (run4 (run4 (demo x.1) 8 (shape 0x1000 16 32)) 12 (shape 0x3000 32 16)).wrS 4 d
      let m : MatOp := ⟨x.2, s.rdS 4, s.rdRun 8, s.rdRun 12⟩
      let far : MatOp := { m with desc := d + (if x.2 ≤ 0x208 then 128 else BitVec.ofNat 64 (128 * 2 ^ 32)) }
      ready x.1 s && decide ((s.atInstr x.1).mmaCheck m = none ∧ m.needsPermit = false ∧ (s.atInstr x.1).rowsBusy m.rows = false ∧
        ((s.core 0).queue (4 + dQ m.desc)).length < 16 ∧ { m with arec := [] }.badShape = true ∧ far.badShape = false ∧
        far.badWindow s.cw = true)) = true := by decide +kernel

theorem witness_mzero_msta :
    (let x : DWord := BitVec.ofNat 64 (16 * 2 ^ 42)
     ready (.mzero 4) ((demo (.mzero 4)).wrS 4 x) = true ∧ descOk x true false true false true 1 = true ∧
       (demo (.mzero 4)).cw.inWindow (dRow0 x) (dNrows x) = true ∧ descOk 0 true false true false true 1 = false ∧
       descOk (x + 63) true false true false true 1 = true ∧ (demo (.mzero 4)).cw.inWindow (dRow0 (x + 63)) (dNrows (x + 63)) = false) ∧
    [(Instr.mstaF32 4 8, 0x20E), (.mstaBf16 4 8, 0x20F)].all (fun y =>
      let s := run4 ((demo y.1).wrS 4 0) 8 (shape 0x1000 16 32)
      let r := s.rdRun 8
      ready y.1 s && recOk r && decide (recSpace r < 2 ∧ recSp r = 0 ∧ recRows r ≤ 512 ∧ dCol0 (s.rdS 4) + recCols r ≤ 128 ∧
        mstaLine y.2 r ≤ recStride r ∧ descOk (s.rdS 4) true true true false false 16 = true) && s.cw.inWindow 0 (recRows r)
        && (List.range (recRows r)).all (fun k => okAnd (s.scratchLoc 0 (recBase r + k * recStride r) (mstaLine y.2 r)) (fun _ => true))) = true := by
  decide +kernel

theorem witness_ShapesAccumulatorsAndWindows :
    (let g : DWord := BitVec.ofNat 64 (16 * 2 ^ 8 + 32 * 2 ^ 21 + 128 * 2 ^ 34)
     ready (.mshp 4 8 9) (((demo (.mshp 4 8 9)).wrS 8 0x1000).wrS 9 g) = true ∧ shapeCheck 0x1000 g = none ∧
       shapeCheck 0x1000 0 = some ((.shape, 0), 0)) ∧
    [Instr.maccRd 16 4, .maccWr 4 16].all (fun i => ready i (demo i) && decide (descOk 0 true true false false false 32 = true)
      && (demo i).cw.inWindow 0 1 && !(demo i).rowsBusy [(0, 1)] && decide ((demo i).cw.blk < (demo i).blocks.length)) = true ∧
    (let i : Instr := .mwin 4 5
     let s := ((demo i).wrS 4 0x20).wrS 5 (BitVec.ofNat 64 (32 * 2 ^ 16))
     ready i s = true ∧ s.cw.idx = 0 ∧ fieldOf (s.rdS 4) 6 58 = 0 ∧ fieldOf (s.rdS 5) 9 7 = 0 ∧ fieldOf (s.rdS 5) 26 38 = 0 ∧
       (s.rdS 4).getLsbD 5 = true ∧ fieldOf (s.rdS 5) 0 9 + fieldOf (s.rdS 5) 16 10 ≤ recAccRows (s.recOf 0) ∧ s.opsOf 0 = []) := by
  decide +kernel

/-! Trees, textures, draws and work. -/

def mapped (s : State) : State := s.setCluster 0 { s.cluster 0 with tlb := [⟨0, 0, 21, 0x3F⟩] }
def poke (s : State) (a n v : Nat) : State := s.physWrite 0 a (toBytes n v)
def tree (s : State) (b : Nat) : State :=
  let s := withS ((mapped s).wrS b 0x1800) (fun t => { t with permit := true })
  s.setCluster 0 { s.cluster 0 with leafs := [⟨0, 0x1800, 0, 0, 0, 0x2000, 0⟩] }

def textured (s : State) : State :=
  poke (poke ((mapped s).setBlock 0 ((s.block 0).setSlot 0 ⟨0, 0x3000, 0x504E0001, true⟩)) 0x3000 4 0x504E0001) 0x184C 4 1

def crowded (s : State) : State :=
  { s with blocks := s.blocks ++ (List.range 4).map (fun k => { s.block 0 with
      slots := (List.range 16).map (fun n => (n, ⟨0, BitVec.ofNat 64 (0x10000 + 2048 * (16 * k + n)), 0, true⟩)) }) }

def drawing (s : State) : State :=
  poke (poke (poke (poke (poke (mapped s) 0x1840 8 0x8000) 0x1848 2 63) 0x1860 4 0x10000) 0x1880 8 0x9000) 0x1888 8 (32 + 2 ^ 32)

def pool (s : State) : State := { s with launches := s.launches.map (fun l => { l with record := l.record + BitVec.ofNat 1024 (2 * 2 ^ 224) }) }

def ring (s : State) (st : Nat) : State := (s.scratchWrite 0 0x100 (toBytes 16 (st + 256 * 2 ^ 64 + 2 ^ 56 + 0x400 * 2 ^ 96))).wrS 5 0x100

/-- Lane 0 alone active. -/
def lane0 (s : State) : State := { (s.wrK 1 1) with issue := { s.issue with ks := some (0, 1) } }

theorem witness_VoxelReadsWriteEveryLane :
    (let i : Instr := .tlook 16 20 4
     let s := lane0 (tree (demo i) 4)
     ready i s = true ∧ s.active = 1 ∧ okAnd (tlookFind 20 4 (s.atInstr i)) (fun _ => true) = true) ∧
    (let i : Instr := .twalk 16 32 4
     let s := lane0 (tree (demo i) 4)
     ready i s = true ∧ okAnd (twalkFind 32 4 (s.atInstr i)) (fun _ => true) = true) := by decide +kernel
theorem witness_stencils :
    [(Instr.vldnS7 16 48 4, fun (_ : DWord) => stencil.take 7, false, false), (.vldnS19 16 48 4, fun _ => stencil.take 19, false, true),
     (.vldnB27 16 48 4, fun _ => stencil, false, true), (.vldnLine 16 48 4, fun x => lineStencil (fieldOf x 0 2), true, false)].all
      (fun x => let s := lane0 (tree (demo x.1) 4)
        ready x.1 s && s.splitEntry.isNone && okAnd (vldnFind x.2.1 x.2.2.1 x.2.2.2 16 48 4 (s.atInstr x.1)) (fun _ => true)
          && optBad 3 x.2.2.1) = true := by decide +kernel

theorem witness_VoxelWritesUpdateTheirLeaves :
    (let i : Instr := .vstv 16 20 4
     ready i (tree (demo i) 4) = true ∧ okAnd (vstvFind 16 20 4 ((tree (demo i) 4).atInstr i)) (fun _ => true) = true) ∧
    [(Instr.tactSet 16 20 4, true), (.tactClr 16 20 4, false)].all (fun x => let s := tree (demo x.1) 4
      ready x.1 s && okAnd (tactFind x.2 20 4 (s.atInstr x.1)) (fun _ => true)) = true ∧
    (let i : Instr := .tins 16 20 4
     let s := poke (tree (demo i) 4) 0x1800 8 0x4000
     ready i s = true ∧ s.issue.ins = none ∧ okAnd (tinsFind 20 4 (s.atInstr i)) (fun r => r.1.all (fun x => x.2.1 = 2)) = true) ∧
    optBad 1 false = true := by decide +kernel

theorem witness_TexturesBindAndSample :
    (let i : Instr := .txb 4 3
     let s := (textured (demo i)).wrS 4 0x3000
     let t := crowded s
     let entry := fun (v : Nat) => (⟨0, 0x3000, BitVec.ofNat 9216 v, true⟩ : TexSlot)
     ready i s = true ∧ fieldOf (s.rdS 4) 0 7 = 0 ∧ fieldOf (0x3040 : DWord) 0 7 ≠ 0 ∧
       okAnd ((s.atInstr i).tableLines 0x3000 9 0) (fun r => !tableBad r.1 && r.2.weightRoom 0 3 (entry r.1)) = true ∧
       okAnd ((s.atInstr i).tableLines 0x4000 9 0) (fun r => tableBad r.1) = true ∧
       ready i t = true ∧ t.issue.src = .chain ∧ t.cs.flight = [] ∧ okAnd ((t.atInstr i).tableLines 0x3000 9 0) (fun r => !tableBad r.1 && !r.2.weightRoom 5 3 (entry (r.1 + 2 ^ 8000))) = true) ∧
    [(Instr.txsL 16 20 4, false), (.txsG 16 20 4, true)].all (fun x =>
      let s := { (((textured (demo x.1)).wrS 4 0x1840).wrK 1 1) with issue := { (demo x.1).issue with ks := some (0, 1) } }
      ready x.1 s && decide (s.active = 1) && okAnd (txsFind x.2 20 4 (s.atInstr x.1)) (fun _ => true)) = true := by decide +kernel

theorem witness_DrawsBlendsAndJobs :
    [Instr.cull 16 20 4, .pexp 16 20 4].all (fun i => let s := (drawing (demo i)).wrS 4 0x1840
      ready i s && okAnd ((s.atInstr i).drawOpen 4 false) (fun _ => true)) = true ∧
    (let i : Instr := .vbrd 16 20 4
     let s := (drawing (demo i)).wrS 4 0x1840
     ready i s = true ∧ okAnd (vbrdFind 20 4 (s.atInstr i)) (fun _ => true) = true) ∧
    (let i : Instr := .obld 20 4
     let s := ((drawing (demo i)).wrS 4 0x1880).wrV 20 (vecOf (fun l => BitVec.ofNat 32 l))
     ready i s = true ∧ okAnd ((s.atInstr i).domainOpen .read 20 4) (fun r =>
       okAnd (lanesAsked s.issue.resp 0 (fun _ => 4) (fun _ p pa => askRead p 4 pa) r.1) (fun q => q.isEmpty)
         && (r.1.foldl (obldStep (s.atInstr i) 20) (true, r.2)).1) = true) ∧
    (let i : Instr := .oble 20 4
     let s := ((drawing (demo i)).wrS 4 0x1880).wrV 20 (vecOf (fun l => BitVec.ofNat 32 l))
     ready i s = true ∧ okAnd ((s.atInstr i).domainOpen .write 20 4) (fun r =>
       okAnd (lanesAsked s.issue.resp 1 (fun l => 4 + 256 * (l + 1))
         (fun l p pa => ⟨1, p, 4 + 256 * (l + 1), pa, 0, [1], [], none⟩) r.1) (fun q => q.isEmpty)) = true) ∧
    [Instr.ksrtK32 4, .ksrtK64 4, .binc 4].all (fun i => let s := (demo i).wrS 4 0x1040
      ready i s && decide (fieldOf (s.rdS 4) 0 6 = 0 ∧ (s.die 0).jobs.length < Config.jobDepth ∧ 0 < s.dies.length ∧
        fieldOf (0x1020 : DWord) 0 6 ≠ 0)) = true := by decide +kernel

theorem witness_pexp_open : let i : Instr := .pexp 16 20 4
    let s := (drawing (demo i)).wrS 4 0x1840
    let t := s.setDie 0 { s.die 0 with draws := [⟨0, 0x1840, 0, 0, [], 0, false, none, [], []⟩] }
    ready i t = true ∧ okAnd ((t.atInstr i).drawOpen 4 false) (fun r => r.1 = 0x1840 &&
      someAnd (r.2.2.drawAt 0 0) (fun x => !x.flushing && x.stopped.isNone && x.prims.all (fun q => q.binned))
        && decide (firstIdx (fun (x : Draw) => x.launch = 0 && fieldOf x.desc 0 57 = field r.1 0 57) (t.die 0).draws = some 0)) = true ∧
    firstIdx (fun (x : Draw) => x.launch = 0 && fieldOf x.desc 0 57 = 0x1840) (s.die 0).draws = none ∧
    (let u := s.setDie 0 { s.die 0 with draws := [⟨0, 0x1840, 0, 0, [], 0, true, none, [], []⟩] }
     ready i u = true ∧ u.issue.src = .chain ∧ u.cs.flight = [] ∧
       okAnd ((u.atInstr i).drawOpen 4 false) (fun r => someAnd (r.2.2.drawAt 0 0) (fun x => x.flushing)) = true) := by decide +kernel

theorem witness_ForksJoinsAndLaunches :
    (let i : Instr := .fork 4 8 12
     let s := fun (pc cnt : DWord) => ((demo i).wrS 12 pc).wrS 13 cnt
     ready i (s 0x1000 0x1040) = true ∧ fieldOf (0x1002 : DWord) 0 2 ≠ 0 ∧ fieldOf (0x0200000000001000 : DWord) 57 3 ≠ 0 ∧
       (0x1044 : DWord).toNat % 8 ≠ 0 ∧ (s 0x1000 0x1040).taskPool 0 = false ∧
       (let t := pool (s 0x1000 0x1040)
        let u := t.setCore 0 { t.core 0 with deque := List.replicate Config.dequeDepth ⟨0x1000, [], 0x1040, 0⟩ }
        ready i t = true ∧ t.taskPool 0 = true ∧ (t.core 0).deque.length < Config.dequeDepth ∧
          ready i u = true ∧ Config.dequeDepth ≤ (u.core 0).deque.length ∧ respOf u.issue.resp 1 0x1040 8 = none ∧
          okAnd ((t.atInstr i).ioAdd t.who t.issue.resp 0x1040 1) (fun _ => true) = true)) ∧
    (let i : Instr := .fjoin 4
     let s := (demo i).wrS 4 0x1040
     ready i s = true ∧ (s.rdS 4).toNat % 8 = 0 ∧ okAnd ((s.atInstr i).atomicLoad .fjoin 0x1040) (fun r => r.1 = 0) = true) ∧
    (let i : Instr := .lnch 4 5 6
     let s := ((demo i).physWrite 0 0x1080 (toBytes 128 placeRecord.toNat)).wrS 5 0x1080
     let q := fun (s : State) => s.setDie 0 { s.die 0 with qctx := [(0, 0)] }
     ready i s = true ∧ fieldOf (s.rdS 5) 0 7 = 0 ∧ fieldOf (0x1040 : DWord) 0 7 ≠ 0 ∧
       okAnd ((s.atInstr i).lineRead8 0 0x1080 128) (fun r => r.1 = placeRecord.toNat &&
         decide (r.2.acceptStatus 0 0 0 (BitVec.ofNat 1024 r.1) = 3 ∧ (q r.2).acceptStatus 0 0 0 (BitVec.ofNat 1024 r.1) = 0)) = true) := by
  decide +kernel

theorem witness_RingsAndAsyncBarriers :
    [(Instr.stgaProd 4 5, 48, 0), (.stgaCons 4 5, 52, 2)].all (fun x => let s := ring (demo x.1) x.2.2
      ready x.1 s && decide (s.cw.blk < s.blocks.length) && okAnd ((s.atInstr x.1).ringHeader 5) (fun r =>
        !(s.atInstr x.1).ringBlocked r.1 && decide (field r.2.1 (2 * field r.2.1 x.2.1 4) 2 = x.2.2))) = true ∧
    [(Instr.stgrProd 5 6, 1), (.stgrCons 5 6, 3)].all (fun x => let s := ring (demo x.1) x.2
      ready x.1 s && okAnd ((s.atInstr x.1).ringHeader 5) (fun r => let i := fieldOf (s.rdS 6) 32 4
        decide (i < r.2.2 ∧ field r.2.1 (2 * i) 2 = x.2 ∧ field r.2.1 2 2 ≠ x.2 ∧ r.2.2 ≤ 2) &&
          !((s.atInstr x.1).opsOf 0).any (fun o => (s.atInstr x.1).touchesSlot (x.2 = 1) o
            (field r.2.1 96 32 + i * field r.2.1 64 24) (field r.2.1 64 24)))) = true ∧
    (let i : Instr := .abarArrive 4 5
     let s := fun (h : Nat) => ((demo i).scratchWrite 0 0x100 (toBytes 16 h)).wrS 5 scr
     let h := 2 + 2 ^ 65
     ready i (s h) = true ∧ meets ((s h).atInstr i) false .write (objAddr scr 0) 16 (fun x => x = .scr 0 0x100) = true ∧
       (abArrive (objAddr scr 0) h).isSome = true ∧ abArrive (objAddr scr 0) 0 = none ∧ abScopeOk (objAddr scr 0) (abScope h) = true ∧
       abArr h < abExp h ∧ abArr (h + 2 ^ 32) + 1 = abExp (h + 2 ^ 32)) ∧
    (let i : Instr := .abarWait 5 6
     let s := fun (ph want : Nat) => (((demo i).scratchWrite 0 0x100 (toBytes 16 (2 + ph * 2 ^ 64))).wrS 5 scr).wrS 6 (BitVec.ofNat 64 want)
     let h := fun (ph : Nat) => ofBytes ((s ph 0).scratchRead 0 0x108 8)
     ready i (s 2 0) = true ∧ (s 2 0).issue.src = .chain ∧ (s 2 0).cs.flight = [] ∧ meets ((s 2 0).atInstr i) false .read (objAddr scr 0) 16 (fun x => x = .scr 0 0x100) = true ∧
       field (h 0) 1 3 = 0 ∧ 5 < field (h 12) 1 3 ∧ field (h 2) 1 3 = 1 ∧ field (h 10) 1 3 = 5 ∧ h 2 % 2 = 0 ∧ h 3 % 2 ≠ 0) := by decide +kernel

/-! The steps that the machine takes of itself. -/

/-- The strand waits at instruction i for what k names, and the state in which it is tried again. -/
def waitFor (k : WaitKind) (i : Instr) : Wait := ⟨k, encode i, none, [], placeVa, placeVa, 0, 0, 0, none, .chain, [], [], [], none⟩
def waits (k : WaitKind) (i : Instr) (s : State) : State := withS s (fun t => { t with st := .stalled, wait := some (waitFor k i) })
def granted (k : WaitKind) (i : Instr) (s : State) (p : State → Bool) : Bool :=
  let u := waits k i s
  let v := u.again 0 0 (waitFor k i)
  decide (u.waitOf 0 0 = some (waitFor k i)) && u.warpLive 0 && !(u.warp 0).stuck 0 (waitFor k i) && (waitFor k i).answered &&
    ready i v && p (v.atInstr i)

theorem witness_GrantedWaitsEnd :
    granted .board (.maccRd 16 4) (demo (.maccRd 16 4)) (fun s => !s.rowsBusy [(0, 1)] && s.cw.inWindow 0 1) = true ∧
    granted .rgrow (.rgrow 4) (demo (.rgrow 4)) (fun s => !s.inHandler && !s.cw.ext && decide (64 ≤ s.pool (s.quarterOf 0)) &&
      s.firstToGrow 0 0 && (s.spillAll 0 9).2.isNone) = true ∧
    [(Instr.stgaProd 4 5, 48, 0), (.stgaCons 4 5, 52, 2)].all (fun x => granted .ring x.1 (ring (demo x.1) x.2.2) (fun s =>
      okAnd (s.ringHeader 5) (fun r => !s.ringBlocked r.1 && decide (field r.2.1 (2 * field r.2.1 x.2.1 4) 2 = x.2.2)))) = true ∧
    granted .qfence (.qfence 33) (demo (.qfence 33)) (fun s => !s.outstanding 0 33 0) = true ∧
    granted .mwin (.mwin 4 5) (((demo (.mwin 4 5)).wrS 4 0x20).wrS 5 (BitVec.ofNat 64 (32 * 2 ^ 16))) (fun s =>
      decide (s.cw.idx = 0 ∧ (s.rdS 4).getLsbD 5 = true ∧ fieldOf (s.rdS 4) 6 58 = 0 ∧ s.opsOf 0 = [])) = true ∧
    granted .weight (.txb 4 3) ((textured (demo (.txb 4 3))).wrS 4 0x3000) (fun s => okAnd (s.tableLines 0x3000 9 0) (fun r =>
      !tableBad r.1 && r.2.weightRoom 0 3 ⟨0, 0x3000, BitVec.ofNat 9216 r.1, true⟩)) = true ∧
    granted .abar (.abarWait 5 6) (((demo (.abarWait 5 6)).scratchWrite 0 0x100 (toBytes 16 (2 * 2 ^ 64))).wrS 5 scr |>.wrS 6 1) (fun s =>
      meets s false .read (objAddr scr 0) 16 (fun x => x = .scr 0 0x100)) = true ∧
    granted .fjoin (.fjoin 4) ((demo (.fjoin 4)).wrS 4 0x1040) (fun s => okAnd (s.atomicLoad .fjoin 0x1040) (fun r => r.1 = 0)) = true ∧
    granted .mwait (.mwait 4 5) ((demo (.mwait 4 5)).wrS 4 0x1040) (fun s => okAnd (s.atomicLoad .mwait 0x1040) (fun r => r.1 = 0)) = true ∧
    granted .yield (.yield 2) (demo (.yield 2)) (fun s => !s.copiesOut 0) = true ∧
    granted .pause (.wait 4) (demo (.wait 4)) (fun _ => true) = true := by decide +kernel

theorem witness_GrantedWaitsEnd_more :
    granted .obld (.obld 20 4) (((drawing (demo (.obld 20 4))).wrS 4 0x1880).wrV 20 (vecOf (fun l => BitVec.ofNat 32 l))) (fun s =>
      okAnd (s.domainOpen .read 20 4) (fun r => (r.1.foldl (obldStep s 20) (true, r.2)).1)) = true ∧
    granted .tins (.tins 16 20 4) (poke (tree (demo (.tins 16 20 4)) 4) 0x1800 8 0x4000) (fun s => okAnd (tinsFind 20 4 s) (fun _ => true)) = true ∧
    granted .engineQueue (.copyG2s 4) (run4 (demo (.copyG2s 4)) 4 [0x100, 0x2000, 256, 0]) (fun s =>
      decide (s.copyCheck 0 (s.rdS 4) (s.rdS 5) (s.rdS 6) (s.rdS 7) = none ∧ ((s.core 0).queue (cQ (s.rdS 6))).length < 16)) = true ∧
    [Instr.ksrtK32 4, .ksrtK64 4, .binc 4].all (fun i => granted .riddle i ((demo i).wrS 4 0x1040) (fun s =>
      decide (fieldOf (s.rdS 4) 0 6 = 0 ∧ (s.die 0).jobs.length < Config.jobDepth))) = true ∧
    (let u := waits .permit (.vldnB27 16 48 4) (demo (.vldnB27 16 48 4))
     u.waitOf 0 0 = some (waitFor .permit (.vldnB27 16 48 4)) ∧ u.warpLive 0 = true ∧ (u.warp 0).held 0 = false) ∧
    (let u := waits .load .nop (demo .nop)
     u.warpLive 0 = true ∧ someAnd ((u.warp 0).strand 0) (fun t => t.wait = some (waitFor .load .nop)) = true) ∧
    (let u := waits .flights .nop (demo .nop)
     u.warpLive 0 = true ∧ (u.warp 0).held 0 = false ∧ u.waitOf 0 0 = some (waitFor .flights .nop) ∧
       someAnd ((u.warp 0).strand 0) (fun t => u.flightsClear 0 0 t (waitFor .flights .nop)) = true) ∧
    (let s := demo .nop
     let u := s.setCore 0 ((s.core 0).setQueue 0 [s.newOp (.copy 0 0x100 0x2000 0) 1048576 false 0])
     someAnd (u.headOp 0 0) (fun o => o.copyAsks && !o.held && !o.performed) = true) := by decide +kernel

theorem witness_event_merge :
    (let s := demo .nop
     let miss := withW s (fun x => (x.setStrand 0 (some { s.cs with kind := .miss, group := 0, mask := 1, st := .stalled, wait := some (waitFor .miss .exit) })).setStrand 1
       (some { s.cs with kind := .miss, group := 0, mask := 2, st := .stalled, wait := some (waitFor .miss .exit) }))
     miss.warpLive 0 = true ∧ (miss.warp 0).handlers = [] ∧ (miss.warp 0).missGroup 0 = [0, 1] ∧
       (miss.warp 0).atWaitPoint 0 = true ∧ (miss.warp 0).atWaitPoint 1 = true ∧ (miss.warp 0).held 0 = false ∧
       (miss.warp 0).held 1 = false) := by decide +kernel
theorem witness_event_drain :
    (let s := withW (demo .nop) (fun x => { x with phase := .exiting })
     (s.warp 0).phase = .exiting ∧ (s.block 0).resid = .resident ∧
       (s.dropOps (fun o => o.warp = 0 && o.stopped)).opsOf 0 = [] ∧ s.taskPool 0 = false) := by decide +kernel
theorem witness_event_tasks :
    (let t : Task := ⟨0x1000, [], 0x1040, 0⟩
     let s := withW (pool (demo .nop)) (fun x => { x with phase := .freeTask })
     let u := s.setCore 0 { s.core 0 with deque := [t] }
     let v := s.setCore 1 { s.core 1 with deque := [t] }
     (u.warp 0).phase = .freeTask ∧ (u.core 0).deque.find? (fun t => t.launch = (u.block 0).launch) = some t ∧
       v.freeTasker 0 = some 0 ∧ (v.core 0).deque.any (fun t => t.launch = 0) = false ∧
       ((List.range 7).map (fun i => 0 / 8 * 8 + (0 % 8 + i + 1) % 8)).find? (fun c => (v.core c).deque.any (fun t => t.launch = 0)) = some 1) := by decide +kernel
theorem witness_event_barhang :
    (let i : Instr := .abarWait 5 6
     let s : State := { withW (waits .abar i (demo i)) (fun x => { x with barlim := 5 }) with clock := 5 }
     someAnd (s.waitOf 0 0) (fun (v : Wait) => v.kind.limited && decide ((s.warp 0).barlim.toNat ≤ s.clock - v.since)) = true ∧
       s.warpLive 0 = true ∧ (s.warp 0).held 0 = false ∧ (s.warp 0).barlim ≠ 0) := by decide +kernel
theorem witness_event_deferred :
    (let s := withS (demo (.bar 0)) (fun t => { t with fault := some (TrapInfo.of (.align, 0)) })
     let u := s.setIssue 0 0 placeVa placeVa 0 false
     s.candidate 0 0 = true ∧ (s.warp 0).handlers = [] ∧ u.inMiss = false ∧ someAnd ((s.warp 0).strand 0) (fun t => u.runsAhead t = some false) = true) := by decide +kernel
theorem witness_event_engine :
    (let s := withW (demo .nop) (fun x => { x with engFaults := [⟨0, TrapInfo.of (.align, 0), 0⟩] })
     s.warpLive 0 = true ∧ ((s.warp 0).faultFor 0).isSome = true ∧ (s.warp 0).held 0 = false ∧
       someAnd ((s.warp 0).strand 0) (fun t => t.takesFault) = true) := by decide +kernel
theorem witness_event_stopped :
    (let s := (demo .nop).deliver 0 0 (TrapInfo.of (.sys, 0))
     (s.warp 0).stopped.isSome = true ∧ (s.block 0).resid = .resident ∧ fieldOf (0x1000 : DWord) 0 2 = 0 ∧
       fieldOf (0x1002 : DWord) 0 2 ≠ 0) := by decide +kernel
/-- A drained register run, a frame that the Ladle spills and one that it has spilled. -/
theorem witness_ladle :
    (let s := (demo .nop).setQuarter 0 { (demo .nop).quarter 0 with draining := [(0, 8)] }
     (s.quarter 0).draining = [(0, 8)]) ∧
    (let s := called (demo .nop) 1
     s.warpLive 0 = true ∧ okAnd (s.spillOldest 0) (fun u => (u.warp 0).spilled ≠ 0 && okAnd (u.refillNewest 0 [] (u.warp 0).fits) (fun _ => true)) = true) := by
  decide +kernel

/-! Engines and the Runner. -/

/-- An operation of kind k at the head of queue q of core 0. -/
def headed (s : State) (q : Nat) (k : EngKind) (f : EngOp → EngOp) : State :=
  s.setCore 0 ((s.core 0).setQueue q [f (s.newOp k 128 false 0)])
def fabMapped (s : State) : State := s.setDie 0 { s.die 0 with fabTlb := [⟨0, 0, 21, 0x3F⟩] }
/-- A matrix operation of one group. -/
def mat0 (op : Nat) : MatOp := ⟨op, BitVec.ofNat 64 (0x80 * 2 ^ 16), shape 0x1000 16 32, shape 0x3000 32 16⟩

theorem witness_copy_engine : let s := demo .nop
    let c := headed s 0 (.copy 0 0x100 0x1080 0) id
    let m := headed s 0 (.copym 0x100 0x1080 (mat0 0x203)) id
    someAnd (c.headOp 0 0) (fun o => o.ready && decide (o.pos < o.len) && okAnd (c.copyLine o 0 0 0x100 0x1080) (fun r => decide (r.1.pos ≤ 128))
      && match c.copyLine o 0 0 0x100 0x900000 with | .error _ => true | .ok _ => false) = true ∧
    someAnd (m.headOp 0 0) (fun o => o.ready && okAnd (m.copyLine o 0 0 0x100 0x1080) (fun _ => true)) = true ∧
    someAnd ((headed s 0 (.copym 0x100 0x1080 (mat0 0x203)) (fun o => { o with stage := 1 })).headOp 0 0) (fun o => o.stage = 1) = true ∧
    (let i := headed s 0 (.copy 3 0 0x1080 0) id
     let j := i.setDie 0 { i.die 0 with loader := some 0, ingotLoad := false }
     (j.die 0).loader = some 0 ∧ (j.die 0).ingotLoad = false ∧ j.ingotHeld 0 0 = true ∧ j.foreignBlock 0 0 = false) ∧
    (let d := headed s 0 (.copy 0 0x100 0x1080 0) (fun o => { o with performed := true })
     someAnd (d.headOp 0 0) (fun o => o.performed && !(d.core 0).mq.any (fun l => l.any (fun p => p.parent = some o.id))) = true) := by
  decide +kernel

theorem witness_matrix_engine : let s := demo .nop
    let z := headed s 4 (.mat (mat0 0x202)) id
    let b := headed s 4 (.mat ⟨0x20E, 0, shape 0x1000 16 32, shape 0x3FFFFFF 16 32⟩) id
    someAnd (z.headOp 0 4) (fun o => o.ready && !o.followAsks && okAnd (z.matGroup o (mat0 0x202) 0) (fun _ => true)) = true ∧
    (let half := (headed z 5 (.mat ⟨0x20E, 0, shape 0x1000 16 32, shape 0x3000 32 16⟩) (fun o => { o with pos := 1, id := o.id + 1 }))
     someAnd (half.headOp 0 4) (fun o => half.matWaits o (mat0 0x203)) = true ∧ someAnd (z.headOp 0 4) (fun o => !z.matWaits o (mat0 0x202)) = true) ∧
    someAnd (b.headOp 0 4) (fun o => o.ready && match b.matGroup o ⟨0x20E, 0, shape 0x1000 16 32, shape 0x3FFFFFF 16 32⟩ 0 with
      | .error (.bad _ _) => true | _ => false) = true := by decide +kernel

/-- A COLL of two words: the group's record at 0x1800 names an area at 0x2000 of one entry and a buffer at 0x3000. -/
theorem witness_collective_engine : let s := demo .nop
    let c := headed (poke (poke (mapped s) 0x1808 16 (0x2000 + 0x3000 * 2 ^ 64)) 0x2008 4 1) 0 (.coll false 0x100 2 0 scr 0x1800)
    let q := c id
    let r := (c (fun o => { o with stage := 1 })).scratchWrite 0 0x100 (toBytes 16 (2 + 2 ^ 65))
    someAnd (q.headOp 0 0) (fun o => o.ready && o.stage = 0 && okAnd (q.collStage o false 0x100 2 0 0x1800) (fun _ => true)) = true ∧
    someAnd (r.headOp 0 0) (fun o => o.ready && o.stage = 1 && (r.block o.blk).resid = .resident &&
      okAnd (r.collResult o false 0x200 2 0 scr 0x1800) (fun x => x.isSome)) = true := by decide +kernel

/-- A receive record at 0x1800 that expects one leaf, its arrival maps at 0x1900; a destination tree at 0x2000 whose leaf
stands at 0x20000. -/
def haloState : State :=
  let s := fabMapped (demo .nop)
  let s := poke (poke s 0x1808 4 1) 0x1810 8 0x1900
  let s := poke s 0x2000 8 0x4000
  let s := poke (poke s 0x4000 1 1) (0x4000 + 2048 + 32768) 8 0x10000
  let s := poke (poke s 0x10000 1 1) (0x10000 + 2048 + 32768) 8 0x1C000
  poke (poke s 0x1C000 1 1) (0x1C000 + 256 + 4096) 8 0x20000
def haloLeaf (step : Nat) : HaloLeaf := ⟨0, 0x2000, 0, 0, 0, [1], [7], 0x1800, 0, step, none⟩

/-- A delivery that may be made, turn by turn to its end; one that is too far ahead, one that another waits before, and one for a
disabled context. -/
theorem witness_halo : let s := (haloState.setCtx 0 0 { (haloState.die 0).ctx 0 with enabled := true })
    let turn := fun (j : HaloJob) => s.haloTurn 0 j
    let goes := fun (n : Nat) => match turn { HaloJob.start (haloLeaf 1) with stage := n, ptr := 0x20000, ctr := 0 } with
      | .ok (.on j, _) => j.stage
      | .ok (.hold _, _) => 20
      | .ok (.done, _) => 21
      | .error _ => 22
    (match turn (HaloJob.start (haloLeaf 3)) with | .ok (.hold _, _) => true | _ => false) = true ∧
    goes 0 = 1 ∧ goes 1 = 3 ∧ goes 3 = 4 ∧ goes 4 = 5 ∧ goes 5 = 21 ∧ goes 6 = 7 ∧ goes 7 = 5 ∧ goes 8 = 21 ∧
    (s.haloRun 0 (HaloJob.start (haloLeaf 1)) 4096).1 = none ∧ (s.haloRun 0 (HaloJob.start (haloLeaf 3)) 4096).1.isSome = true ∧
    answeredAll (HaloJob.start (haloLeaf 1)).reqs (HaloJob.start (haloLeaf 1)).resp = true ∧
    ((s.die 0).ctx 0).enabled = true ∧ ((haloState.die 0).ctx 0).enabled = false := by decide +kernel

/-- A sort of one key at 0x1900 to 0x1A00 with its status word at 0x1B00, and a draw with one bin of one primitive. -/
theorem witness_riddle :
    (let rec_ := 0x1900 + 0x1A00 * 2 ^ 128 + 2 ^ 256 + 0x1B00 * 2 ^ 448
     let s := (fabMapped (poke (demo .nop) 0x1880 64 rec_))
     let t := s.setDie 0 { s.die 0 with jobs := [⟨0, 0x1880, 0, 0, 0, [], [], none⟩] }
     let f := s.setDie 0 { s.die 0 with jobs := [⟨0, 0x1880, 0, 0, 0, [], [], some (0x1B00, 1)⟩] }
     (f.die 0).jobs = [⟨0, 0x1880, 0, 0, 0, [], [], some (0x1B00, 1)⟩] ∧
     okAnd (f.ioWrite (whoFab f 0 0) [] 0x1B00 (toBytes 8 1)) (fun _ => true) = true ∧
     okAnd (t.ioRead (whoFab t 0 0) [] 0x1880 64) (fun r => decide (field (ofBytes r.1) 448 64 = 0x1B00) &&
       okAnd (r.2.ksrt (whoFab t 0 0) [] 4 (ofBytes r.1)) (fun u =>
         okAnd (u.ioWrite (whoFab t 0 0) [] 0x1B00 (toBytes 8 1)) (fun _ => true))) = true) ∧
    (let p : Prim := ⟨1, [], [(0, 0)], 1, false, true, false, true, true, 0, 0, 0, 0, 0⟩
     let s := demo .nop
     let t := s.setDie 0 { s.die 0 with draws := [⟨0, 0x1840, 0, 0, [p], 64, false, none, [], []⟩] }
     someAnd (t.drawAt 0 0) (fun x => x.stopped.isNone && answeredAll x.reqs x.resp && !t.suspended x.launch &&
       decide (x.prims.any (fun p => !p.binned) = false ∧ (x.prims.filter (fun p => p.binned)).flatMap (fun p => p.bins) = [(0, 0)])) = true) := by
  decide +kernel

/-! The die's and the package's own steps. -/

/-- Context 0 of die 0 enabled; queue 0 assigned to it with one record accepted. -/
def enabled (s : State) : State := s.setCtx 0 0 { (s.die 0).ctx 0 with enabled := true }
def queued : State :=
  let s := enabled (demo .nop)
  (s.setDie 0 { s.die 0 with qctx := [(0, 0)] }).accept 0 0 0 placeRecord
/-- The block pre-empted, of a pre-emptible launch. -/
def preemptible : State := let s := enabled (demo .nop)
  { s with launches := s.launches.map (fun l => { l with record := l.record + BitVec.ofNat 1024 (2 ^ 229) }) }
def savedBlock : State := (preemptible.beginSave 0).endSave 0

theorem witness_admission : let s := queued
    (s.die 0).holdAdm = false ∧ (s.die 0).inReset = false ∧
      (match s.pick 0 [0, 1, 2, 3] with | (.record 0 1, _) => true | _ => false) = true ∧
      ((s.setDie 0 { s.die 0 with holdAdm := true }).die 0).holdAdm = true := by decide +kernel
theorem witness_completion : let s := (demo .nop).dropBlock 0
    let tok := fabMapped { s with launches := s.launches.map (fun l => { l with record := l.record + BitVec.ofNat 1024 (0x1080 * 2 ^ 768) }) }
    someAnd (s.launches[0]?) (fun x => s.launchEnded 0 x && decide (recBytes x.record 96 8 = 0)) = true ∧
    someAnd (tok.launches[0]?) (fun x => tok.launchEnded 0 x && decide (recBytes x.record 96 8 = 0x1080) && answeredAll x.reqs x.resp
      && okAnd (tok.ioAdd (whoFab tok x.die x.ctx) x.resp 0x1080 1) (fun _ => true)) = true := by decide +kernel
/-- A launch of an enabled context that a kill, a machine check or an overheated die ends; one that is still queued. -/
theorem witness_live_launches :
    someAnd ((enabled (demo .nop)).launches[0]?) (fun x => decide (x.die = 0 ∧ x.ctx = 0 ∧ x.phase = .running)) = true ∧
    someAnd (queued.launches[1]?) (fun x => decide (x.die = 0 ∧ x.ctx = 0 ∧ x.phase = .queued)) = true ∧
    (((enabled (demo .nop)).die 0).ctx 0).enabled = true := by decide +kernel
theorem witness_preemption : let s := preemptible
    (s.block 0).resid = .resident ∧ ((s.beginSave 0).block 0).resid = .saving ∧ (s.beginSave 0).saveDone 0 = true := by decide +kernel
theorem witness_resumption : let s := savedBlock
    (s.block 0).resid = .saved ∧ (s.launchOf 0).die = 0 ∧ dieOf 0 = 0 ∧ (s.die 0).inReset = false ∧
      (match s.pick 0 [0, 1, 2, 3] with
       | (.resume l, u) => decide (l = (s.block 0).launch) && !(u.comrades 0).any (fun c => (u.block c).resid = .saving) &&
          (u.resumeAll 0 0 0 (0 :: (u.comrades 0).filter (fun c => c ≠ 0 && (u.block c).resid = .saved))).isSome
       | _ => false) = true := by decide +kernel
theorem witness_migration : let s := preemptible
    (s.block 0).resid = .resident ∧ recFlag (s.recOf 0) 5 = true ∧ 1 ≠ (s.block 0).core ∧ dieOf 1 = dieOf (s.block 0).core ∧
      s.gangMates 0 = [] ∧ (s.beginSave 0).saveDone 0 = true ∧
      (savedBlock.roomOf 1 []).fits (savedBlock.blockNeed 0) 0 = true ∧ savedBlock.reservesFree 0 1 0 = true := by decide +kernel
theorem witness_boot : let s := State.reset
    (s.die 0).rollback ≤ 0 ∧ 0 < s.dies.length ∧ (s.die 0).ctxs.all (fun c => !c.2.enabled) = true ∧
      ((enabled s).die 0).ctxs.any (fun c => c.2.enabled) = true ∧ (4095 : Nat) < 4096 ∧
      Mldsa.verify [] (signedBytes ⟨[], 0, [], []⟩) [] = false := by decide +kernel
/-- An image that boots: its public key is all zeros, and the die's fuse holds that key's digest. -/
theorem witness_signed_image : ∃ (s : State) (m : Image), 0 < s.dies.length ∧ sha3 m.pubkey = (s.die 0).fuse ∧
    Mldsa.verify m.pubkey (signedBytes m) m.signature = true ∧ (s.die 0).rollback ≤ m.version := by
  generalize hk : List.replicate 2592 (0 : Byte) = pk
  obtain ⟨sig, hs⟩ : ∃ sig, Mldsa.verify pk (signedBytes ⟨[], 0, pk, []⟩) sig = true := ⟨_, hk ▸ Mldsa.verify_zeros _⟩
  exact ⟨State.reset.setDie 0 { State.reset.die 0 with fuse := sha3 pk }, ⟨[], 0, pk, sig⟩, Nat.zero_lt_succ 3, rfl, hs,
    Nat.le_refl 0⟩
/-- SHA3-512 of the empty string, as the published examples of FIPS 202 give it; the S-box, MixColumns and the key expansion of FIPS 197. -/
theorem test_sha3 : sha3 [] = 0x26cd1d2886857501e3d3b6959d1900f558c53a2c40e9e3114cf9f5f13a12b215a6805c47c1dcd1e05958e24f1682c9976e755a18dc67b5c8c59a3aa2cc739fa6 := by
  decide +kernel
theorem test_aes : aesSub 0x53 = 0xED ∧ aesUnsub 0xED = 0x53 ∧ aesMul 0x57 0x83 = 0xC1 ∧
    (aesMix [2, 3, 1, 1] ([0xDB, 0x13, 0x53, 0x45] ++ List.replicate 12 0)).take 4 = [0x8E, 0x4D, 0xA1, 0xBC] := by
  decide +kernel

/-! Messages and commands. -/

/-- A request to context 0 of die 0. -/
def req (k c : Nat) : Msg := Msg.framed { Msg.blank with kind := BitVec.ofNat 8 k, cls := BitVec.ofNat 2 c, addr := 0x1080 } 0

theorem witness_admitted : let s := fabMapped (enabled (demo .nop))
    [(1, 1), (2, 1), (4, 1), (6, 1), (7, 0), (10, 0)].all (fun x => let m := req x.1 x.2
      (s.die 0).admits 0 x.1 m && !(State.reset.die 0).admits 0 x.1 m && decide (m.psn = ((s.die 0).rxOf m).next ∧ (s.die 0).mustWait m = false)) = true := by
  decide +kernel
theorem witness_performed : let s := fabMapped (enabled (demo .nop))
    let far : Nat := 0x900000
    okAnd (s.netWrite 0 0 0x1080 [1, 2]) (fun _ => true) = true ∧ okAnd (s.netWrite 0 0 far [1, 2]) (fun _ => true) = false ∧
      okAnd (s.netRead 0 0 0x1080 8) (fun _ => true) = true ∧
      someAnd (atomicOp 6 [5]) (fun q => okAnd (s.netAtomic 0 0 0x1080 q.1 q.2) (fun _ => true)) = true ∧
      someAnd (redOp 0 5) (fun q => okAnd (s.netAtomic 0 0 0x1080 q.1 q.2) (fun _ => true)) = true ∧
      s.acceptStatus 0 0 0 placeRecord = 3 ∧ queued.acceptStatus 0 0 0 placeRecord = 0 := by decide +kernel
/-- A message that comes again, with its answer kept or not, and one that comes early. -/
theorem witness_repeated : let s := fabMapped (enabled (demo .nop))
    let m := { req 2 1 with psn := 4 }
    let heard := fun (q : List Msg) => s.setDie 0 ((s.die 0).setRx ⟨0, 1, 0, 5, 5, q⟩)
    let r := fun (q : List Msg) => ((heard q).die 0).rxOf m
    let kept := { ackOf m with kind := 3, psn := m.psn }
    (s.die 0).admits 0 2 m = true ∧ m.psn ≠ (r []).next ∧ ((r []).next - m.psn).toNat < 2 ^ 31 ∧
      (r [kept]).stored.find? (fun q => q.psn = m.psn) = some kept ∧ (r []).stored.find? (fun q => q.psn = m.psn) = none ∧
      ((heard []).die 0).unperformed m (fun q => q.psn = m.psn && q.cls = m.cls) = false ∧ 2 ^ 31 ≤ (((s.die 0).rxOf m).next - m.psn).toNat := by decide +kernel
/-- An answer to a message that is unacknowledged, to another target, to none, and one whose header is unsound. -/
theorem witness_answers : [(3, 1), (5, 1), (0x0D, 1), (0x0E, 1)].all (fun x =>
    let m := req x.1 x.2
    let sent := fun (q : Msg) => State.reset.setDie 0 ((State.reset.die 0).setTx ⟨0, 1, 0, 1, [q]⟩)
    let named := fun (s : State) => someAnd ((s.die 0).answersFor m) (fun q => decide (q.ctx = m.ctx ∧ q.die = m.die ∧ q.akey = m.akey))
    (State.reset.die 0).wellFormed 0 x.1 { m with die := BitVec.ofNat 2 0 } &&
      !(State.reset.die 0).wellFormed 0 x.1 { m with ver := 2, die := BitVec.ofNat 2 0 } &&
      named (sent (req 1 1)) && !named (sent { req 1 1 with ctx := 5 }) &&
      ((sent { req 1 1 with ctx := 5 }).die 0).answersFor m ≠ none && ((State.reset.die 0).answersFor m).isNone) = true ∧
    fieldOf (req 14 1).status 0 4 = 0 ∧ fieldOf (4#16) 0 4 ≠ 0 := by decide +kernel
/-- A header whose fields are all different from 0, and a request to stop launch 0. -/
theorem witness_header_and_kill : let s := enabled (demo .nop)
    let m := { req 9 0 with opnds := [0, 1], plen := 16 }
    let h : Msg := { Msg.blank with
      ver := 1, cls := 1, kind := 5, plen := 258, conn := 0x01020304, psn := 0x05060708, apsn := 0x090A0B0C, ctx := 33, die := 2,
      ackReq := true, coded := true, fence := true, resClass := 2, resFlags := 17, resTail := 0xDEADBEEF, status := 0x1234,
      addr := 0x1122334455667788, akey := 0x99AABBCCDDEEFF00 }
    h.plen < 65536 ∧ Msg.withHeader (Msg.header h) h = h ∧ (s.die 0).admits 0 9 m = true ∧ m.kind = 9 ∧
      nth m.opnds 0 0 = BitVec.ofNat 64 0 ∧ nth m.opnds 1 0 = 1 ∧
      someAnd (s.launches[0]?) (fun x => decide (x.die = 0 ∧ x.ctx = 0 ∧ x.phase = .running)) = true := by decide +kernel
/-- An atomic operation and a reduction that the spec does not list. -/
theorem witness_unknown_operations : atomicOp 0x1FF [] = none ∧ redOp 7 0 = none := by decide +kernel

theorem witness_CommandsNeedTheSystemAccessKey : let s := enabled State.reset
    let p : PeerEntry := ⟨0, 1, 0, true, false, 0, 0, 0⟩
    let t := s.setCtx 0 63 { (s.die 0).ctx 63 with peers := [(255, p)] }
    (0 : DWord) = (s.die 0).sysKey ∧ (1 : DWord) ≠ (s.die 0).sysKey ∧ (s.die 0).inReset = false ∧
      (let c : Cmd := ⟨0, 0, 0, 0, 0, false, 0⟩
       let d := { c with psn := 4 }
       let r := ⟨0, 0, 0, 5, 5, []⟩
       let v := s.setDie 0 ((s.die 0).setRx r)
       c.psn = ((s.die 0).rxOf (Cmd.msg c)).next ∧ (v.die 0).rxOf (Cmd.msg d) = r ∧ d.psn ≠ r.next ∧ (r.next - d.psn).toNat < 2 ^ 31 ∧
         (v.die 0).unperformed (Cmd.msg d) (fun q => q.psn = (Cmd.msg d).psn && q.cls = (Cmd.msg d).cls) = false ∧ (s.die 0).mustWait (Cmd.msg c) = false ∧ (s.die 0).cmdWaits.find? (fun x => x.1 = (c.src, c.conn, c.psn)) = none) ∧
      (let busy := t.setDie 0 ((t.die 0).setTx ⟨0, 1, 0, 1, [req 1 1]⟩)
       (busy.die 0).peerBusy p = true ∧ alGet ((busy.die 0).ctx 63).peers 255 = some p) ∧
      (let q : PeerEntry := { p with res0 := true }
       q.res0 = true ∧ ((t.die 0).ctx 63).peers.any (fun x => decide (x.1 ≠ 0 ∧ x.2.valid = true ∧ x.2.pkg = p.pkg ∧
         x.2.die = p.die ∧ x.2.ctx = p.ctx)) = true ∧ ((s.die 0).ctx 63).peers = []) ∧
      fieldOf (0x1000 : DWord) 0 12 = 0 ∧ fieldOf (0x1008 : DWord) 0 12 ≠ 0 ∧ fieldOf (0x1000 : DWord) 57 3 = 0 ∧
      alGet ((t.die 0).ctx 63).peers 255 = some p ∧ (t.die 0).peerBusy p = false ∧
      (queued.removeHeld 0 0 7).isNone = true ∧
      ({ queued with launches := queued.launches.map (fun l => { l with held := true, record := l.record + BitVec.ofNat 1024 (7 * 2 ^ 832) }) } : State).removeHeld 0 0 7 ≠ none := by
  decide +kernel

/-! Strands that are parked, frames and reserves. -/

/-- EXIT where a strand is parked, of all that is not and of one lane, and in handler code. -/
theorem witness_exit_parked_and_in_trap :
    (let park := fun (s : State) => withW (withS s (fun t => { t with mask := 0xFFFF })) (fun x =>
       x.setStrand 1 (some { Strand.start 0xFFFF0000 0x1000 with st := .parked }))
     let s := park (demo .exit)
     let one := park (lane0 (demo .exit))
     ready .exit s = true ∧ s.active ≠ 0 ∧ s.cw.anyParked = true ∧ s.active = s.cw.lanes &&& ~~~s.cw.parkedLanes ∧
       ready .exit one = true ∧ one.active = 1 ∧ one.active ≠ one.cw.lanes &&& ~~~one.cw.parkedLanes ∧
       someAnd (s.cw.strand 1) (fun t => decide (t.st = .parked ∧ t.spilledRecs = 0)) = true) ∧
    (let s := inTrap .exit
     let gone := s.active ||| leavingHelpers (s.cw.lanes &&& ~~~s.active) s.cw.helpers
     let s1 := (s.atInstr .exit).putW { s.cw with lanes := s.cw.lanes &&& ~~~gone }
     let s2 := s1.putS (s1.afterChain s1.cs)
     ready .exit s = true ∧ s.active ≠ 0 ∧ s.cw.anyParked = false ∧ s.inHandler = true ∧
       okAnd (s2.drainHandlers 0 gone s.issue.resp (s2.warp 0).handlers) (fun r =>
         okAnd (((r.2.setWarp 0 { r.2.warp 0 with handlers := r.1 }).endHandlers 0 r.1.length).removeLanes 0 gone s.issue.resp [0, 1, 2, 3])
           (fun _ => true)) = true) := by decide +kernel

/-- A return to a spilled caller whose header is of no block, and one to a caller of another mask-stack depth. -/
theorem witness_bad_spilled_return :
    (let s := withW (called (demo .ret) 0) (fun x => { x with spilled := 1, sptr := 64 })
     let s' := (s.atInstr .ret).setWait .ret 0 []
     ready .ret s = true ∧ s.inHandler = false ∧ s'.cw.allAtRet = true ∧ s'.cw.callers = [] ∧ s'.cw.depth ≠ 0 ∧ 32 ≤ s'.cw.sptr.toNat ∧
       okAnd (s'.ladleRead 0 s.issue.resp (s'.cw.sptr.toNat - 32) 32) (fun r => !headerOk (ofBytes r.1) s'.cw.sptr.toNat s'.cw.ring) = true) ∧
    okAnd ((withW (called (demo .ret) 1) (fun x => { x with callers := [{ rec0 with kdepth := 1 }] })).spillOldest 0) (fun s =>
      let s' := (s.atInstr .ret).setWait .ret 0 []
      ready .ret s && s'.cw.allAtRet && decide (s'.cw.callers = [] ∧ s'.cw.depth ≠ 0 ∧ 32 ≤ s'.cw.sptr.toNat) &&
        okAnd (s'.ladleRead 0 s.issue.resp (s'.cw.sptr.toNat - 32) 32) (fun r => !s'.cw.retDepths (headerRec (ofBytes r.1)))) = true := by
  decide +kernel

/-- A handler that traps again: its reserve is spilled where the frame area has room, and stands there; where it has none, not. -/
theorem witness_reserve_spills : let s := called (inTrap .nop) 0
    let i := TrapInfo.of (.brkp, 0)
    let small := withW s (fun x => { x with flen := 64 })
    let far := withW s (fun x => { x with spb := 0x900000 })
    (s.quarter 0).owner = some 0 ∧ (s.warp 0).phase = .running ∧ ((s.warp 0).runner 0).isSome = true ∧ i.cause ≠ .mchk ∧
      (s.warp 0).trapv.getLsbD i.cause.num = true ∧ someAnd ((s.warp 0).handlerAt 0) (fun h => h.cause ≠ i.cause.num) = true ∧
      0 < s.warps.length ∧ 0 < s.quarters.length ∧ (small.spillReserve 0).isNone = true ∧
      (match far.ladleRun 0 [] (far.warp 0).sptr.toNat ((far.quarter 0).reserveBytes ++ toBytes 32 reserveHeader) with
        | .error _ => true | .ok _ => false) = true ∧
      okAnd (s.ladleRun 0 [] (s.warp 0).sptr.toNat ((s.quarter 0).reserveBytes ++ toBytes 32 reserveHeader)) (fun r => runAsks r = []) = true ∧
      (s.spillReserve 0).isSome = true := by decide +kernel
/-- A reserve that has been spilled, its block in the frame area. -/
theorem witness_reserve_refills :
    let s := poke (withW (called (inTrap .nop) 0) (fun x => { x with sptr := 2208 })) (0x8000 + 2176) 32 reserveHeader
    let s := s.setQuarter 0 { s.quarter 0 with owner := none, spilledOwners := [0] }
    (s.quarter 0).spilledOwners = [0] ∧ 0 < s.quarters.length ∧ 0 < s.warps.length ∧ 2208 ≤ (s.warp 0).sptr.toNat ∧
      okAnd (s.ladleRead 0 [] 2176 32) (fun r => decide (ofBytes r.1 = reserveHeader) &&
        okAnd (r.2.ladleRead 0 [] 0 2176) (fun _ => true)) = true := by decide +kernel

/-! Accesses that fill lines or set bits, and those of other ranks. -/

/-- Stores to the page stand in one line and one page of kind 0. -/
theorem witness_stores_hold : [(Instr.sstD 4 5 0, 8), (.vstWImm 16 5 0, 4)].all (fun x => let s := (demo x.1).wrS 5 page
    ready x.1 s && meets (s.atInstr x.1) true .write (.glob 0x1080) x.2 (fun y => match y with
      | .glob p t => decide (leafKind t.leaf < 2 ∧ field p 0 57 % 128 + x.2 ≤ 128 ∧ t.pa % 128 + x.2 ≤ 128)
      | _ => false)) = true := by decide +kernel

/-- Lane 0 fills a line; lane 1, a helper, meets a page that is not mapped and receives zero. -/
theorem witness_loads_fill : let i : Instr := .vldWIdx 16 4 18
    let s := withW ((((demo i).wrS 4 0x1080).wrV 18 (vecOf (fun l => if l = 0 then 0 else 0x900000))).wrK 1 3) (fun x => { x with helpers := 2 })
    let s := { s with issue := { s.issue with ks := some (0, 1) } }
    let u := s.atInstr i
    ready i s = true ∧ s.activeReal = 1 ∧ lanesOf (s.active &&& s.cw.helpers) = [1] ∧ u.splitEntry = none ∧
      meets u true .read (.glob 0x1080) 4 (fun y => (u.quietRead 4 y).isNone && okAnd (y.asked [] 0 4 (fun p pa => askRead p 4 pa)) (fun r => r.isNone)
        && match y with
        | .glob p t => decide (leafKind t.leaf < 2 ∧ leafNc t.leaf = false ∧ t.pa % 128 = field p 0 57 % 128 ∧ t.pa % 128 + 4 ≤ 128) &&
            (u.l1Find u.who (field p 0 57)).isNone
        | _ => false) = true ∧
      meets u true .read (.glob 0x901080) 4 (fun _ => true) = false := by decide +kernel
theorem witness_line_clean : (demo .nop).lineClean 0 0x21 := by unfold State.lineClean; decide +kernel

/-- A block of a gang of two whose lanes name the other rank's scratch in deterministic mode. -/
theorem witness_gang_window : let i : Instr := .atomAdd 16 4 18
    let s := withW ((demo i).wrS 4 0x0200000011000000) (fun x => { x with det := true })
    let s := { s with launches := s.launches.map (fun l => { l with record := l.record + BitVec.ofNat 1024 (2 ^ 96) }) }
    ready i s = true ∧ s.cw.det = true ∧ fieldOf (s.rdS 4) 57 3 = 1 ∧ recGang (s.recOf s.cw.blk) = 2 ∧
      (lanesOf s.activeReal).any (fun l => s.otherRank (objAddr (s.rdS 4) ((s.lane 18 l).toNat : Int))) = true := by decide +kernel

/-! Trees node by node: those of `haloState` from 0x4000 down, and an empty node at 0x60000. -/

def fab (s : State) : Who := whoFab s 0 0
/-- A tree read of n bytes, and its value. -/
def reads (s : State) (p n v : Nat) : Bool := okAnd (s.treeRead (fab s) p n) (fun r => r.1 = v)

/-- A child, a tile and the background at the first slot of a node, a leaf of the right and of another origin, a value in a leaf. -/
theorem witness_descent : let s := haloState
    let tile := poke (poke s (0x60000 + 512) 1 1) (0x60000 + 2048) 8 77
    reads s 0x4000 1 1 = true ∧ reads s (0x4000 + 2048 + 32768) 8 0x10000 = true ∧ 0x10000 % 128 = 0 ∧
      reads s 0x60000 1 0 = true ∧ reads s (0x60000 + 512) 1 0 = true ∧ reads tile (0x60000 + 512) 1 1 = true ∧
      reads tile (0x60000 + 2048) 8 77 = true ∧ slotOf 3 (0, 0, 0) = 0 ∧ reads s 0x20000 4 0 = true ∧ reads s 0x20004 4 0 = true ∧
      reads s 0x20008 4 0 = true ∧ (s.leafCached (fab s) 0x2000 (leafOrigin (0, 0, 0))).isNone = true ∧
      okAnd (s.descend (fab s) (treeHead 0x4000) (0, 0, 0) 3 0x4000) (fun r => r.1.kind = 0 && r.1.leaf = 0x20000) = true ∧
      okAnd (s.treeBit (fab s) 0x20040 0) (fun r => !r.1) = true ∧
      okAnd ((poke s 0x20040 1 1).treeBit (fab s) 0x20040 0) (fun r => r.1) = true ∧ reads s 0x20100 4 0 = true := by decide +kernel

/-- A lane whose voxel lies in a leaf, one in a tile or the background, and one outside the span; a ray that is not finite. -/
theorem witness_voxel_ties :
    (let s := lane0 (tree (demo (.tlook 16 20 4)) 4)
     okAnd (tlookFind 20 4 s) (fun _ => true) = true ∧ okAnd (tlookFind 20 4 (setV s 20 0x40000000)) (fun r =>
       r.1.all (fun x => decide (x.2.1 / 2 ^ 12 % 8 = 5))) = true) ∧
    (let s := lane0 (tree (demo (.vldnLine 16 48 4)) 4)
     okAnd (vldnFind (fun x => lineStencil (fieldOf x 0 2)) true false 16 48 4 s) (fun _ => true) = true) ∧
    (let s := lane0 (tree (demo (.twalk 16 32 4)) 4)
     okAnd (twalkFind 32 4 (setV s 32 0x7FC00000)) (fun r => r.1.all (fun x => decide (x.2.2.2.1 = 7))) = true ∧
       okAnd (twalkFind 32 4 (setV s 39 0x3F800000)) (fun _ => true) = true ∧
       decodeF fp32 0x7FC00000 = .nan) := by decide +kernel

/-- An insertion that finds its leaf, one that makes it, one that finds the lock held and one that has no room. -/
theorem witness_insertion : let s := haloState
    let h := treeHead (0x4000 + 2 ^ 160)
    let at_ := fun (s : State) (pend lv n : Nat) => s.insertFrom (fab s) 0x2000 h 0x80000 pend (0, 0, 0) lv n 0
    okAnd (at_ s 0 3 0x4000) (fun r => r.1 = (0, 0, 0x20000)) = true ∧ okAnd (at_ s 0x100000 1 0x60000) (fun r => r.1.1 = 1) = true ∧
      okAnd (at_ s 0 1 0x60000) (fun r => r.1.1 = 2) = true ∧
      (match at_ (poke s (0x60000 + offLock 512) 1 1) 0x100000 1 0x60000 with | .error .wait => true | _ => false) = true ∧
      reads s 0x60000 1 0 = true ∧ okAnd (s.treeAtomic (fab s) (0x60000 + offLock 512) 0x19B 1 (fun x => x ||| 1)) (fun r => r.1 = 0) = true ∧
      okAnd (s.treeAtomic (fab s) 0x2030 0x195 768 (fun x => x + 768)) (fun r => r.1 = 0) = true := by decide +kernel

/-- Each access of an insertion that goes on access by access, at the empty node; its end. -/
theorem witness_insertion_steps : let s := haloState
    let r := { Insert.start (0x4000 + 0x80000 * 2 ^ 256 + 0x100000 * 2 ^ 320) [0] with node := 0x60000, lv := 1 }
    [0, 1, 2, 3, 4, 8, 9, 10, 11, 12].all (fun k =>
      okAnd (s.insertStep (fab s) 0x2000 (0, 0, 0) { r with phase := k }) (fun _ => true)) = true ∧ r.lv ≠ 0 ∧
    okAnd (s.insRead (fab s) 0x60000 8) (fun v => v.1 = 0) = true ∧ okAnd (s.insRead (fab s) 0x4000 8) (fun v => v.1 % 2 = 1) = true ∧
    okAnd (s.insAtomic (fab s) 0x60000 0x19B 1 (fun x => x ||| 1)) (fun _ => true) = true ∧
    okAnd (s.insWrite (fab s) 0x60000 (toBytes 8 0x80000)) (fun _ => true) = true := by decide +kernel
/-- A TINS under way that has nothing left to do. -/
theorem witness_insertion_ends : let i : Instr := .tins 16 20 4
    let r : Insert := { Insert.start 0x4000 [] with out := [(0, 0, 0, 0x2000)] }
    let s := tree (demo i) 4
    let s := { s with issue := { s.issue with ins := some r } }
    ready i s = true ∧ s.issue.ins = some r ∧
      okAnd (State.insertGo s.who (descOf (s.rdS 4)) (s.tinsVox 20 (treeHead r.desc.toNat)) 2048 r (s.atInstr i)) (fun _ => true) = true := by
  decide +kernel

/-- The checks of TXS in their order: option bits, slot, the descriptor's read, its form; lanes that stop. -/
theorem witness_texture_order : let i : Instr := .txsL 16 20 4
    let s := fun (b : DWord) => lane0 ((textured (demo i)).wrS 4 b)
    [0x1850, 0x1841, 0x0400000000001840, 0x1880].all (fun b => ready i (s b)) = true ∧
      fieldOf (0x1850 : DWord) 4 2 ≠ 0 ∧ ((s 0x1841).block 0).slot 1 = none ∧ fieldOf (0x1841 : DWord) 4 2 = 0 ∧
      someAnd (((s 0x1840).block 0).slot 0) (fun k => k.installed) = true ∧ ((s 0x1840).atInstr i).fetchBefore = false ∧
      (match ((s 0x0400000000001840).atInstr i).lineRead8 0 0x0400000000001840 64 with
        | .error (.bad _ e _ _) => decide (errRank e < 5) | _ => false) = true ∧
      okAnd (((s 0x1880).atInstr i).lineRead8 0 0x1880 64) (fun r => texBad r.1) = true ∧
      okAnd (txsFind false 20 4 (s 0x1840)) (fun _ => true) = true ∧
      [(0, 300, eBadnode, 0, s 0), (1, 200, eNoncanon, 0, s 0)].all (fun x => decide (x.2.1 ≤ 100000)) = true := by decide +kernel

/-! Rings and barriers in memory. -/

/-- A ring whose index lies beyond its slots; objects of ABAR on the page. -/
theorem witness_ring_range :
    [(Instr.stgaProd 4 5, 48), (.stgaCons 4 5, 52)].all (fun x => let s := ring (demo x.1) (15 * 2 ^ 48 + 15 * 2 ^ 52)
      ready x.1 s && okAnd ((s.atInstr x.1).ringHeader 5) (fun r => decide (r.2.2 ≤ field r.2.1 x.2 4))) = true ∧
    (let i : Instr := .stgrProd 5 6
     let s := (ring (demo i) 0).wrS 6 (BitVec.ofNat 64 (15 * 2 ^ 32))
     ready i s = true ∧ okAnd ((s.atInstr i).ringHeader 5) (fun r => decide (r.2.2 ≤ fieldOf (s.rdS 6) 32 4)) = true) := by decide +kernel
theorem witness_abar_global :
    (let i : Instr := .abarArrive 4 5
     let s := (poke (mapped (demo i)) 0x1080 16 (2 + 2 ^ 65)).wrS 5 page
     ready i s = true ∧ meets (s.atInstr i) false .write (objAddr page 0) 16 (fun x => match x with
       | .glob _ t => t.entry.isNone && decide (leafKind t.leaf < 2 ∧ t.pa % 128 + 16 ≤ 128) && (s.keyMat (leafKey t.leaf)).isSome
       | _ => false) = true) ∧
    (let i : Instr := .abarWait 5 6
     let s := fun (h want : Nat) => ((poke (mapped (demo i)) 0x1080 16 (2 + h * 2 ^ 64)).wrS 5 page).wrS 6 (BitVec.ofNat 64 want)
     [(12, 0), (2, 1), (2, 0)].all (fun x => ready i (s x.1 x.2) && decide ((s x.1 x.2).issue.src = .chain ∧ (s x.1 x.2).cs.flight = []) &&
       meets ((s x.1 x.2).atInstr i) false .read (objAddr page 0) 16 (fun y => match y with
         | .glob p t => decide (leafKind t.leaf ≠ 2) &&
             decide (ofBytes (((s x.1 x.2).atInstr i).homeRead (s x.1 x.2).who (field p 0 57) 16 t false).1 / 2 ^ 64 = x.1)
         | _ => false)) = true ∧
       field 12 1 3 = 6 ∧ field 2 1 3 = 1) := by decide +kernel

/-! Waits behind handlers, exits of task warps, operations of the copy queues, messages that wait. -/

/-- A TXS that waits for room, one in the sampler queue, and one behind its warp's handler. -/
theorem witness_sampler_waits : let i : Instr := .txsL 16 20 4
    let s := lane0 ((textured (demo i)).wrS 4 0x1840)
    let at_ := fun (k : WaitKind) (s : State) => waits k i s
    [WaitKind.weight, .sample].all (fun k => let u := at_ k s
      decide (u.waitOf 0 0 = some (waitFor k i)) && u.warpLive 0 && !(u.warp 0).stuck 0 (waitFor k i) && (waitFor k i).answered &&
        !u.goesBehind 0 0 && ready i (u.again 0 0 (waitFor k i))) = true ∧
    (let u := withW (at_ .sample s) (fun x => { x with handlers := (inTrap i).cw.handlers })
     let bare := u.setWarp 0 { u.warp 0 with handlers := [], stopped := none }
     u.goesBehind 0 0 = true ∧ someAnd ((u.warp 0).strand 0) (fun t => t.wait = some (waitFor .sample i)) = true ∧
       (match exec i (bare.again 0 0 (waitFor .sample i)) with
        | .next v => decide ((v.warp 0).phase = .running ∧ (v.warp 0).handlers = [] ∧ (v.warp 0).stopped = none)
        | _ => false) = true) := by decide +kernel

/-- A task warp that ends with no task, with a counter in memory, with one that is misaligned and with one in host memory. -/
theorem witness_task_exits :
    let s := fun (c : Option DWord) => withW (pool (mapped (demo .nop))) (fun x => { x with phase := .exiting, task := c })
    let v := fun (s : State) => (s.dropOps (fun o => o.warp = 0 && o.stopped)).releaseL1 0
    let h := fun (c : Option DWord) => (s c).setCluster 0 { (s c).cluster 0 with tlb := [⟨0, 0, 21, 0x13F⟩] }
    let add := fun (s : State) (c : Nat) => (v s).ioAdd ((v s).whoOfWarp 0) [] c (2 ^ 64 - 1)
    (s none).taskPool 0 = true ∧ ((s none).warp 0).phase = .exiting ∧ ((s none).block 0).resid = .resident ∧
      ((s none).dropOps (fun o => o.warp = 0 && o.stopped)).opsOf 0 = [] ∧ ((s (some 0x1040)).warp 0).task = some 0x1040 ∧
      okAnd (add (s (some 0x1040)) 0x1040) (fun _ => true) = true ∧
      (match add (s (some 0x1041)) 0x1041 with | .error (.bad _ _) => true | _ => false) = true ∧
      (match add (h (some 0x1040)) 0x1040 with | .error (.ask _) => true | _ => false) = true ∧ dieOf 0 < (v (h none)).dies.length := by
  decide +kernel

/-- A deferred fault of entry 1 that is due while entry 0 has none, and an engine fault of entry 1. -/
theorem witness_fault_order :
    let two := withW (demo .nop) (fun x => x.setStrand 1 (some { Strand.start 1 0x1000 with fault := some (TrapInfo.of (.align, 0)) }))
    let eng := withW (withW (demo .nop) (fun x => x.setStrand 1 (some (Strand.start 1 0x1000)))) (fun x =>
      { x with engFaults := [⟨1, TrapInfo.of (.align, 0), 0⟩] })
    (two.warp 0).handlers = [] ∧ ((two.warp 0).faultFor 0).isNone = true ∧ two.deferredDue 0 0 = false ∧ two.candidate 0 1 = true ∧
      (eng.warp 0).handlers = [] ∧ ((eng.warp 0).faultFor 1).isSome = true ∧ ((eng.warp 0).faultFor 0).isNone = true ∧
      eng.deferredDue 0 0 = false ∧ eng.warpLive 0 = true ∧ (eng.warp 0).held 1 = false ∧
      someAnd ((eng.warp 0).strand 1) (fun t => t.takesFault) = true := by decide +kernel

/-- A line of a copy read, and one written. -/
theorem witness_copy_units : let c := fun (f : EngOp → EngOp) => headed (demo .nop) 0 (.copy 0 0x100 0x1080 0) f
    someAnd ((c id).headOp 0 0) (fun o => okAnd ((c id).copyLine o 0 0 0x100 0x1080) (fun r => decide (r.1.pos = 0 ∧ r.1.buf.length = 128))) = true ∧
    (let f := fun (o : EngOp) => { o with buf := List.replicate 128 (7 : Byte) }
     someAnd ((c f).headOp 0 0) (fun o => okAnd ((c f).copyLine o 0 0 0x100 0x1080) (fun r => decide (r.1.pos = 128 ∧ r.1.buf = []))) = true) := by
  decide +kernel

/-- Surfaces at 0x1900 and 0x1940 of one tile of mode 2; the parts of a tile packed and of one unpacked. -/
def surfaced : State :=
  let s := mapped (demo .nop)
  poke (poke (poke s 0x1900 24 (0x2000 + 0x3000 * 2 ^ 64 + 64 * 2 ^ 128)) 0x1940 24 (0x2800 + 0x3800 * 2 ^ 64 + 64 * 2 ^ 128)) 0x3800 1 2
theorem witness_surfaces : let s := surfaced
    let raw := (List.range 256).map (fun i => BitVec.ofNat 8 (if i = 0 then 1 else 0))
    let bytes := fun (p : Nat) => match s.ioRead (s.whoOfWarp 0) [] p 32 with | .ok r => r.1 | .error _ => []
    let o := fun (opt : Nat) (desc buf : List Byte) => { s.newOp (.copy 1 0x1900 0x100 opt) 256 false 0 with desc := desc, buf := buf }
    let packs := fun (d b : List Byte) => okAnd (s.compressTile (o 2 d b) 0x1900 0x100) (fun _ => true)
    let unpacks := fun (d b : List Byte) => okAnd (s.expandTile (o 3 d b) 0x1900 0x1940) (fun _ => true)
    let db := bytes 0x1900 ++ bytes 0x1940
    (bytes 0x1900).length = 32 ∧ packs [] [] = true ∧ packs (bytes 0x1900) [] = true ∧
      packs (bytes 0x1900) (BitVec.ofNat 8 (packTile 0 raw).1 :: (packTile 0 raw).2) = true ∧ packs (bytes 0x1900 ++ [2]) [] = true ∧
      unpacks [] [] = true ∧ unpacks db [] = true ∧ unpacks db [2] = true ∧ unpacks db raw = true ∧ unpacks (db ++ [0]) [] = true ∧
      surfacesMeet (surfaceOf (bytes 0x1900)) (surfaceOf (bytes 0x1940)) 1 = false ∧ (packTile 0 raw).1 = 3 ∧
      (let c := headed s 0 (.copy 1 0x1900 0x100 2) (fun o => { o with len := 256 })
       someAnd (c.headOp 0 0) (fun o => o.ready && !o.copyAsks && decide (o.pos < o.len)) = true) := by decide +kernel

/-- A plan of one leaf for die 0 of the package, its list at 0x1A00: the leaf's message, and the counter's. -/
theorem witness_halo_plan :
    let s := peered (mapped haloState)
    let plan := 0x2000 + 0x5000 * 2 ^ 128 + 0x1A00 * 2 ^ 192 + 2 ^ 256 + 0x1800 * 2 ^ 320
    let c := fun (f : EngOp → EngOp) => headed s 0 (.copy 4 0x1880 3 0) (fun o => f { o with desc := toBytes 64 plan, len := 1 })
    planCount plan = 1 ∧ someAnd ((c id).headOp 0 0) (fun o => o.ready && !o.copyAsks && decide (o.desc ≠ [] ∧ o.pos < planCount (ofBytes o.desc))) = true ∧
    okAnd (s.engTree [] (fun s => s.haloSource (s.whoOfWarp 0) (field plan 0 64) (0, 0, 0))) (fun _ => true) = true ∧
    someAnd ((c (fun o => { o with pos := 1 })).headOp 0 0) (fun o => o.ready && decide (planCount (ofBytes o.desc) ≤ o.pos)) = true ∧
    (s.haloPeer 0 (s.ctxOfWarp 0) plan).isSome = true ∧ dieOf 0 < s.dies.length ∧
    (let o := { s.newOp (.copy 4 0x1880 3 0) 1 false 0 with resp := [⟨3, 0, 0, 0, none⟩] }
     okAnd (s.haloLeaf 0 0 o plan 3) (fun r => r.1.pos = 1) = true ∧
     (match s.haloLeaf 0 0 { o with resp := [⟨3, 0, 0, 0, some (9, 0)⟩] } plan 3 with | .error (.bad _ _) => true | _ => false) = true) := by
  decide +kernel

/-- An RST of two lanes: unsent, sent, acknowledged, and to a peer that is not there. -/
theorem witness_remote_engine : let s := peered (demo .nop)
    let c := fun (die : BitVec 2) (l : List RemLane) => headed s 0 (.rem false 0 0 die 0 true 0 l) id
    let l : RemLane := ⟨0, 0x1080, 7, none, false⟩
    let peer := fun (die : BitVec 2) => ((s.die 0).ctx (s.ctxOfWarp 0)).peer 0 die 0
    [c 0 [l, { l with lane := 1 }], c 1 [l], c 0 [{ l with sent := some ⟨3, 0x1080, 4, 0, 0, 1⟩ }], c 0 [{ l with acked := true }]].all (fun x =>
      someAnd (x.headOp 0 0) (fun o => o.ready && !o.copyAsks)) = true ∧ (peer 0).isSome = true ∧ (peer 1).isNone = true ∧
      someAnd (peer 0) (fun p => !(s.die 0).otherClass (peerConn p 0 0) 1 p.addr &&
        ((s.die 0).setTx ⟨peerConn p 0 0, 0, p.addr, 1, [req 10 0]⟩).otherClass (peerConn p 0 0) 1 p.addr) = true := by decide +kernel

/-- An MSTA that stores all that it has left. -/
theorem witness_msta_engine : let m : MatOp := ⟨0x20E, 0, shape 0x1000 16 32, shape 0x3000 16 32⟩
    let z := headed (demo .nop) 4 (.mat m) id
    someAnd (z.headOp 0 4) (fun o => o.ready && !o.followAsks && m.isSta && !z.matWaits o m &&
      (match z.mstaReach o m (m.groups - o.pos) o.pos with
       | (k, none, []) => okAnd (z.matGroups o m k o.pos) (fun _ => true)
       | _ => false)) = true := by decide +kernel

/-- A block of a killed launch that is about to leave. -/
theorem witness_kill_ends : let s := (preemptible.beginSave 0)
    let k : State := { s with launches := s.launches.map (fun (l : Launch) => { l with phase := .killed }) }
    (k.block 0).resid = .saving ∧ k.saveDone 0 = true ∧ (k.launchOf 0).phase = .killed ∧ (s.launchOf 0).phase ≠ .killed := by
  decide +kernel

/-- A request that must follow one that waits, and a command that must; a halo leaf. -/
theorem witness_waiting_messages : let s := fabMapped (enabled (demo .nop))
    let m := { req 2 1 with psn := 0 }
    let w := s.setDie 0 { s.die 0 with waiting := [req 1 1] }
    let c : Cmd := ⟨0, 0, 0, 0, 0, false, 0⟩
    let v := s.setDie 0 { s.die 0 with waiting := [Cmd.msg c] }
    (w.die 0).admits 0 2 m = true ∧ m.psn = ((w.die 0).rxOf m).next ∧ (w.die 0).mustWait m = true ∧
      (v.die 0).mustWait (Cmd.msg c) = true ∧ c.psn = ((v.die 0).rxOf (Cmd.msg c)).next ∧ c.key = (v.die 0).sysKey ∧
      (let h := Msg.framed { Msg.blank with kind := 1, cls := 1, op := 0x1C4, addr := 0x1800 } 0
       (s.die 0).admits 0 1 h = true ∧ h.psn = ((s.die 0).rxOf h).next ∧ (s.die 0).mustWait h = false) := by decide +kernel

/-! The step, and floating-point traps. -/

theorem witness_StepRunsTheDecodedInstruction :
    let word := fun (w : Word) => State.reset.place (toBytes 4 w.toNat)
    let two := State.reset.place (toBytes 8 (0x00400001 + 0x00C57FFC * 2 ^ 32))
    let s := word 0x00200000
    let u := { s with clock := s.clock + 1, freeCtr := s.freeCtr + 1, agenda := [] }
    let v := u.setIssue 0 0 placeVa placeVa 0 false
    s.agenda = [.issue 0 0 false] ∧ u.candidate 0 0 = true ∧ (u.warp 0).handlerAt 0 = none ∧ (u.warp 0).faultFor 0 = none ∧
      someAnd ((u.warp 0).runner 0) (fun t => decide (t.pc = placeVa ∧ t.fault = none ∧ t.log = [])) = true ∧
      (v.fetchWord placeVa).1 = .word 0x00200000 ∧ okAnd (v.insideChain placeVa) (fun b => !b) = true ∧ u.pickOf (u.quarterOf 0) = some (0, 0) ∧ decodeWord 0x00200000 = .ok .nop ∧
      ((two.setIssue 0 0 placeVa placeVa 0 false).fetchChain 4 placeVa [] 0).1 = .words [0x00400001] 0x1004 0x00C57FFC ∧ badPrefix 0x00400001 = false ∧
      s.issue = Issue.idle ∧ s.memoriesWf = true ∧ State.reset.issue = Issue.idle ∧ State.reset.memoriesWf = true := by decide +kernel

/-- Infinities of both signs in v16 and v17 and packed in v18 and v19, zero in v20 to v23, a NaN in v24, 1 + 2^-23 in v25, every flag enabled. -/
def trapping (i : Instr) : State :=
  withW (setV (setV (setV (setV (setV (setV (demo i) 16 0x7F800000) 17 0xFF800000) 18 0x7C007C00) 19 0xFC00FC00) 24 0x7FC00000) 25 0x3F800001) (fun x => { x with fpm := 0x3F0 })

theorem witness_EnabledFlagsTakeFpx :
    let s := fun (i : Instr) => trapping i
    let on := fun (i : Instr) (f : State → Nat → Flags) => ready i (s i) && decide (orFlags (s i).activeReal (f (s i)) &&& (s i).cw.fpEnables ≠ 0)
    on (.fadd 20 16 17) (fun s l => (finish fp32 s.cw.rmode s.cw.fz (addExact s.cw.rmode (s.f32 16 l) (s.f32 17 l))).fl) = true ∧
    on (.ffma 20 16 22) (fun s l => (finish fp32 s.cw.rmode s.cw.fz (fmaExact s.cw.rmode (s.f32 16 l) (s.f32 22 l) (s.f32 20 l))).fl) = true ∧
    on (.fdiv 20 22 22) (fun s l => (finish fp32 s.cw.rmode s.cw.fz (divExact (s.f32 22 l) (s.f32 22 l))).fl) = true ∧
    on (.fsqrt 20 17) (fun s l => (finish fp32 s.cw.rmode s.cw.fz (sqrtExact (s.f32 17 l))).fl) = true ∧
    on (.fcmpLt 3 24 16) (fun s l => (cmpVal .lt (s.f32 24 l) (s.f32 16 l)).2) = true ∧
    on (.fcvtF16F32 20 25) (fun s l => (convert s.cw.rmode (.fp fp16) (Elem.decode .fp32 (s.lane 25 l).toNat)).fl) = true ∧
    on (.fcvtIntF32 20 16) (fun s l => (convert s.cw.rmode .int (Elem.decode .fp32 (s.lane 16 l).toNat)).fl) = true ∧
    on (.hadd2F16 20 18 19) (fun s l => (packedLane fp16 s (fun x y _ => addExact s.cw.rmode x y) (s.lane 18 l) (s.lane 19 l) (s.lane 20 l)).fl) = true ∧
    on (.ddiv 20 22 22) (fun s l => (finish fp64 s.cw.rmode s.cw.fz64 (divExact (s.f64 22 l) (s.f64 22 l))).fl) = true ∧
    on (.qddxFine 20 16) (fun s l => (finish fp32 s.cw.rmode false (addExact s.cw.rmode (s.f32 16 (l / 4 * 4)) (s.f32 16 (l / 4 * 4)).neg)).fl) = true ∧
    [Instr.xredAddF32 20 16, .xscanAddF32 20 16].all (fun i =>
      let s := withW ((trapping i).wrV 16 (vecOf (fun l => if l % 2 = 0 then 0x7F800000 else 0xFF800000))) (fun x => { x with det := true })
      ready i s && decide (partialFlags (treeSum 5 (partials s 16)) &&& s.cw.fpEnables ≠ 0) &&
        decide (orFlags s.activeReal (fun l => partialFlags (scanBlocks (partials s 16) (l + 1) 6 0 none)) &&& s.cw.fpEnables ≠ 0)) = true := by decide +kernel

/-! Words of every family written from the encoding tables: bits [31:21] opcode, [20:14] d, [13:7] a, [6:0] b. -/

theorem test_decode_control : decodeTableWord 32 0b00000000111_0000010_00000000000100 = some (.brvT 2 4) := by decide
theorem test_decode_call : decodeTableWord 32 0b00000010001_0000000_0010100_0000000 = some (.calli 20) := by decide
theorem test_decode_scalar : decodeTableWord 32 0b00001000000_0010100_0000100_0000101 = some (.sadd 20 4 5) := by decide
theorem test_decode_vector : decodeTableWord 32 0b00010000111_0001110_0001101_0001110 = some (.vmad 14 13 14) := by decide
theorem test_decode_float : decodeTableWord 32 0b00011010000_0000011_0001100_0001101 = some (.fcmpLt 3 12 13) := by decide
theorem test_decode_wide : decodeTableWord 32 0b00100100000_0010100_0010110_0011000 = some (.dfma 20 22 24) := by decide
theorem test_decode_exchange : decodeTableWord 32 0b00101001001_0010100_0001100_0000000 = some (.xbal 20 12) := by decide
theorem test_decode_memory : decodeTableWord 32 0b00110010101_0010100_0000100_0001100 = some (.atomAdd 20 4 12) := by decide
theorem test_decode_order : decodeTableWord 32 0b00110101001_0000000_00000000100001 = some (.qfence 33) := by decide
theorem test_decode_engine : decodeTableWord 32 0b00111000000_0000000_0011000_0000000 = some (.copyG2s 24) := by decide
theorem test_decode_matrix : decodeTableWord 32 0b01000000011_0010100_0011000_0011100 = some (.mmaBf16 20 24 28) := by decide
theorem test_decode_voxel : decodeTableWord 32 0b01001001001_0101010_0010000_0010100 = some (.twalk 42 16 20) := by decide
theorem test_decode_render : decodeTableWord 32 0b01010000000_0000000_0010110_0000011 = some (.txb 22 3) := by decide
theorem test_decode_work : decodeTableWord 32 0b01011000000_0010100_0011000_0010110 = some (.fork 20 24 22) := by decide
/-- Words of opcodes outside the map. -/
theorem test_decode_unused : decodeTableWord 32 0 = some (.unusedOpcode 0) ∧ decodeTableWord 32 0xFFFFFFFF = some (.unusedOpcode 0xFFFFFFFF) := by decide

/-! Each check of WellFormed refuses a term. -/

theorem test_wf_reserved_field : encode (.xbal 20 12) &&& 127 = 0 ∧ (match decodeWord (encode (.xbal 20 12) ||| 1) with | .ok _ => true | .error _ => false) = false := by decide
theorem test_wf_shift : (Instr.sshlImm 4 4 63).wf = true ∧ (Instr.sshlImm 4 4 64).wf = false := by decide
theorem test_wf_vector_run : (Instr.cull 16 122 4).wf = false ∧ (Instr.cull 16 4 4).wf = false ∧ (Instr.cull 16 8 4).wf = true := by decide
theorem test_wf_pair : (Instr.dadd 20 21 22).wf = false ∧ (Instr.dadd 21 20 22).wf = false ∧ (Instr.dfma 21 20 22).wf = false := by decide
theorem test_wf_scalar_source : (Instr.sadd 4 77 5).wf = false ∧ (Instr.sadd 4 76 5).wf = true := by decide
theorem test_wf_scalar_destination : (Instr.sadd 64 4 5).wf = false ∧ (Instr.sstW 64 4 0).wf = false ∧ (Instr.ssel 64 4 5).wf = false := by decide
theorem test_wf_scalar_run : (Instr.copyG2s 5).wf = false ∧ (Instr.copyG2s 64).wf = false ∧ (Instr.mshp 5 8 9).wf = false := by decide
theorem test_wf_mask : (Instr.vcmpEq 0 16 17).wf = false ∧ (Instr.vcmpEq 8 16 17).wf = false ∧ (Instr.brvT 8 4).wf = false := by decide
theorem test_wf_frame : (Instr.frame 0x021).wf = false ∧ (Instr.frame 0x700).wf = false ∧ (Instr.frame 0x1900).wf = false := by decide
theorem test_wf_qfence : (Instr.qfence 0).wf = false ∧ (Instr.qfence 64).wf = false := by decide
theorem test_wf_prefix : (Instr.ksel 1 0).wf = false := by decide
theorem test_wf_unused : (Instr.unusedOpcode 0x00200000).wf = false ∧ (Instr.unusedOpcode 0).wf = true := by decide
theorem test_wf_events : (Instr.bankRefresh 4).wf = false ∧ (Instr.loadKey 4096 0).wf = false ∧ (Instr.taskSteal 1120).wf = false ∧
    (Instr.missGroupMerge 0 4).wf = false ∧ (Instr.enable ⟨0, 0, 0, 0, 0, false, 0⟩ 64).wf = false ∧ (Instr.assignQueue ⟨0, 0, 0, 0, 0, false, 0⟩ 0 64).wf = false ∧
    (Instr.matrixOperationPerform 0 2).wf = false ∧ (Instr.admission 0 0 4).wf = false := by decide

/-! Single steps, expected results from the spec's rules. -/

/-- The state after an outcome. -/
def after (o : Host.Outcome State Fault Refusal) (p : State → Bool) : Bool :=
  match o with
  | .next s => p s
  | _ => false

theorem test_step_nop : after (Sys2Proof.Machine.step (State.reset.withFetchWord 32 0x00200000)) (fun t =>
    someAnd ((t.warp 0).strand 0) (fun x => x.pc = 0x1004) && decide ((t.warp 0).lclk = 1)) = true := by decide +kernel
/-- R86, R295: an unused word traps ILLOP, and with no cause enabled the warp stops with its record. -/
theorem test_step_unused : after (Sys2Proof.Machine.step (State.reset.withFetchWord 32 0)) (fun t => (t.warp 0).stopped.isSome) = true := by
  decide +kernel
/-- R389: SADD wraps. -/
theorem test_sadd_wraps : after (exec (.sadd 4 5 6) (((demo (.sadd 4 5 6)).wrS 5 0xFFFFFFFFFFFFFFFF).wrS 6 2)) (fun t => t.regS 4 = 1) = true := by
  decide +kernel
/-- R395: VADD.sat saturates at the largest positive number. -/
theorem test_vadd_saturates : after (exec (.vaddSat 16 17 18) (setV (setV (demo (.vaddSat 16 17 18)) 17 0x7FFFFFFF) 18 1)) (fun t =>
    laneOf (t.regV 16) 31 = 0x7FFFFFFF) = true := by decide +kernel
/-- R129: 1.0 + 1.0 is 2.0. -/
theorem test_fadd : after (exec (.fadd 16 17 17) (setV (demo (.fadd 16 17 17)) 17 0x3F800000)) (fun t =>
    laneOf (t.regV 16) 0 = 0x40000000) = true := by decide +kernel
/-- R129: a division of 1.0 by zero gives an infinity and the divide-by-zero flag. -/
theorem test_fdiv_zero : after (exec (.fdiv 16 17 18) (setV (demo (.fdiv 16 17 18)) 17 0x3F800000)) (fun t =>
    laneOf (t.regV 16) 0 = 0x7F800000 && decide (t.cw.fst ≠ 0)) = true := by decide +kernel
/-- R119, R127, R134: 0.375 becomes E2M1's subnormal 0.5, with uf and nx; 15/16 becomes 1, its smallest normal, with nx. -/
theorem test_e2m1_tiny : convert .rne .e2m1 (.fin false 3 (-3)) = ⟨1, flUf ||| flNx, true⟩ ∧
    convert .rne .e2m1 (.fin false 15 (-4)) = ⟨2, flNx, false⟩ := by decide +kernel
/-- R403: lanes exchanged in neighbouring pairs. -/
theorem test_xshf_xor : after (exec (.xshfXor 16 17 4)
    (((demo (.xshfXor 16 17 4)).wrV 17 (vecOf (fun l => BitVec.ofNat 32 l))).wrS 4 1)) (fun t =>
      decide (laneOf (t.regV 16) 6 = 7 ∧ laneOf (t.regV 16) 7 = 6)) = true := by decide +kernel
/-- R142: SST.w stores its four bytes lowest first. -/
theorem test_sst_order : after (exec (.sstW 4 5 0) (((demo (.sstW 4 5 0)).wrS 4 0x11223344).wrS 5 0x0200000000000100)) (fun t =>
    t.scratchRead 0 0x100 4 = [0x44, 0x33, 0x22, 0x11]) = true := by decide +kernel
/-- R326: a chunk of one exponent is 256 values of 1.0; with two exponents of one-bit codes element 1 is 2.0. -/
theorem test_coded_chunk : (decodeChunk ([0, 0x7F, 0] ++ List.replicate 768 0)).1.drop 1020 = [0, 0, 0x80, 0x3F] ∧
    ((decodeChunk ([1, 0x7F, 1, 0x80, 1, 2] ++ List.replicate 799 0)).1.drop 4).take 4 = [0, 0, 0, 0x40] := by decide +kernel
/-- R287's example: with the table at 0x200000010000 a breakpoint enters at 0x200000010340. -/
theorem test_brkp_enters : after (exec (.brkp 0) (withW (demo (.brkp 0)) (fun x => { x with trapv := 0x200000017FFF }))) (fun t =>
    someAnd ((t.warp 0).handlerAt 0) (fun h => h.strand.pc = 0x200000010340)) = true := by decide +kernel

end Sys2Proof.Tests
end

section
namespace Sys2Proof.Machine
open Sys2Proof

/-! Control registers: CTLR and CTLW (R356, R357). -/

theorem runs_ctlr (d imm : BitVec 7) : ∃ info, info.fmt ≠ .B ∧ info.d = .sdst ∧
    Runs (.ctlr d imm) info (fun s => .ok (s.wrS d.toNat (BitVec.ofNat 64 (s.ctl imm.toNat)))) :=
  ⟨_, by decide, rfl, runs (fun _ => rfl) rfl rfl rfl⟩

theorem runs_ctlw (a n : BitVec 7) : ∃ info, Runs (.ctlw a n) info (ctlwBody a n) :=
  ⟨_, runs (fun _ => rfl) rfl rfl rfl⟩

/-- CTLR writes the control register that its immediate numbers. -/
theorem ctlr_result (d imm : BitVec 7) :
    ScalarResult (.ctlr d imm) d (fun s => BitVec.ofNat 64 (s.ctl imm.toNat)) := by
  obtain ⟨info, hfmt, hdst, hr⟩ := runs_ctlr d imm
  exact scalarResult hr (fun _ h => ready_sdst hr.info h hfmt (.inl hdst) (dField d 0 imm)) (fun _ _ => rfl)

/-- CTLW completes with the effect that its body has. -/
theorem ctlw_completes {a n : BitVec 7} {pre : State → Prop} {eff : State → State}
    (hb : ∀ s, pre s → ctlwBody a n s = .ok (eff s)) : CompletesWhen (.ctlw a n) pre eff := by
  obtain ⟨info, hr⟩ := runs_ctlw a n
  exact fun s h hp => hr.ok h (hb _ hp)

/-- The write of ctl.spb and of ctl.spl, which spilled data forbids (R77). -/
theorem ctlwBody_spb (a : BitVec 7) (s : State) : ctlwBody a 6 s =
    if s.cw.hasSpilled then trapE s (.prot, 0)
    else .ok (s.putW { s.cw with spb := BitVec.ofNat 64 (fieldOf (s.rdS a.toNat) 8 49 * 256) }) := rfl

theorem ctlwBody_spl (a : BitVec 7) (s : State) : ctlwBody a 7 s =
    if s.cw.hasSpilled then trapE s (.prot, 0)
    else .ok (s.putW { s.cw with flen := BitVec.ofNat 32 (fieldOf (s.rdS a.toNat) 8 24 * 256) }) := rfl

theorem ctlwBody_trapv (a : BitVec 7) (s : State) : ctlwBody a 9 s =
    .ok (s.putW { s.cw with trapv := BitVec.ofNat 64 (fieldOf (s.rdS a.toNat) 0 57) }) := rfl

/-- The control registers that CTLW ignores. -/
theorem ctlwBody_readOnly (a : BitVec 7) {n : BitVec 7} (hn : n.toNat ∈ [2, 3, 4, 5, 8, 11]) (s : State) :
    ctlwBody a n s = .ok s := by
  unfold ctlwBody
  simp only [List.mem_cons, List.not_mem_nil, or_false] at hn
  obtain e | e | e | e | e | e := hn <;> simp only [e]

/-- CTLW of ctl.spb or ctl.spl traps where spilled data stands in the warp's region. -/
theorem ctlw_traps_of_spilled {a n : BitVec 7} (hn : n = 6 ∨ n = 7) :
    TrapsWhen (.ctlw a n) (fun s => s.cw.hasSpilled = true) (.prot, 0) := by
  obtain ⟨info, hr⟩ := runs_ctlw a n
  refine Laws.traps_when hr (by decide) fun s _ hp => ?_
  obtain rfl | rfl := hn
  · rw [ctlwBody_spb, if_pos hp]; rfl
  · rw [ctlwBody_spl, if_pos hp]; rfl

/-- Settles O31: CTLR by its scalar result, CTLW by what its body does with each control register. -/
theorem controlRegistersReadAndWrite : Obligations.ControlRegistersReadAndWrite := by
  unfold Obligations.ControlRegistersReadAndWrite
  refine ⟨fun d imm => ctlr_result d imm, fun a => ⟨?_, ?_, ?_, ?_, ?_, ?_, fun n hn => ?_, ?_, ?_⟩⟩
  · exact ctlw_completes fun s _ => rfl
  · exact ctlw_completes fun s _ => rfl
  · refine ctlw_completes fun s hp => ?_
    rw [ctlwBody_spb, if_neg (by simp [hp (.inl rfl)])]; rfl
  · refine ctlw_completes fun s hp => ?_
    rw [ctlwBody_spl, if_neg (by simp [hp (.inr rfl)])]; rfl
  · refine ctlw_completes fun s _ => ?_
    rw [ctlwBody_trapv]
    simp only [fieldOf, field, Nat.pow_zero, Nat.div_one]
  · exact ctlw_completes fun s _ => rfl
  · exact ctlw_completes fun s _ => ctlwBody_readOnly a hn s
  · exact ctlw_traps_of_spilled (.inl rfl)
  · exact ctlw_traps_of_spilled (.inr rfl)

end Sys2Proof.Machine
end

section
/-! Every operation of the machine keeps the canonical form of its sparse memories (R8, R145, R151, R162): the predicate,
and what storage, links, the Ladle and the shell of an instruction do. -/

namespace Sys2Proof.Machine

open Sys2Proof

/-- The sparse memories of a state are in canonical form. -/
def State.Canon (s : State) : Prop := s.memoriesWf = true

/-- The state in an answer is canonical, where there is an answer; `st` says where it stands. -/
def KeepsOk {ε α : Type} (st : α → State) : Except ε α → Prop
  | .ok a => (st a).Canon
  | .error _ => True

/-- The state that a stop carries. -/
def Stop.left : Stop → State
  | .trap _ s | .deferred _ s | .after _ s | .wait _ _ s | .ask _ s | .poll _ _ s | .done s => s

/-- The state that a meaning leaves is canonical, whether it completes or stops. -/
def Settles {α : Type} (st : α → State) : Except Stop α → Prop
  | .ok a => (st a).Canon
  | .error p => p.left.Canon

/-- The next state, where there is one, is canonical. -/
def OutCanon : Host.Outcome State Fault Refusal → Prop
  | .next s => s.Canon
  | _ => True

theorem KeepsOk.ok {ε α : Type} {st : α → State} {r : Except ε α} {a : α} (h : KeepsOk st r) (e : r = .ok a) :
    (st a).Canon := by
  subst e; exact h
theorem KeepsOk.ret {ε : Type} {s : State} (h : s.Canon) : KeepsOk (ε := ε) id (.ok s) := h
theorem KeepsOk.pair {ε α : Type} {a : α} {s : State} (h : s.Canon) : KeepsOk (ε := ε) Prod.snd (.ok (a, s)) := h
theorem Settles.ok {α : Type} {st : α → State} {r : Except Stop α} {a : α} (h : Settles st r) (e : r = .ok a) :
    (st a).Canon := by
  subst e; exact h
theorem Settles.ret {s : State} (h : s.Canon) : Settles id (.ok s) := h
theorem Settles.pair {α : Type} {a : α} {s : State} (h : s.Canon) : Settles Prod.snd (.ok (a, s)) := h
theorem Settles.ask {α : Type} {st : α → State} {as : List HostAsk} {s : State} (h : s.Canon) :
    Settles st (.error (.ask as s)) := h
theorem Settles.stop {α : Type} {st : α → State} {r : Except Stop α} {p : Stop} (h : Settles st r) (e : r = .error p) :
    p.left.Canon := by
  subst e; exact h
theorem OutCanon.next {o : Host.Outcome State Fault Refusal} {t : State} (h : OutCanon o) (e : o = .next t) : t.Canon := by
  subst e; exact h

theorem KeepsOk.ite {ε α : Type} {st : α → State} {a b : Except ε α} {c : Prop} [Decidable c] (ha : KeepsOk st a) (hb : KeepsOk st b) :
    KeepsOk st (if c then a else b) := by
  split <;> assumption
theorem Settles.ite {α : Type} {st : α → State} {a b : Except Stop α} {c : Prop} [Decidable c] (ha : Settles st a) (hb : Settles st b) :
    Settles st (if c then a else b) := by
  split <;> assumption
theorem OutCanon.ite {a b : Host.Outcome State Fault Refusal} {c : Prop} [Decidable c] (ha : OutCanon a) (hb : OutCanon b) :
    OutCanon (if c then a else b) := by
  split <;> assumption

/-- A meaning whose every answer is canonical where the state that it runs in is. -/
def BodyKeeps (b : Body) : Prop := ∀ s : State, s.Canon → Settles id (b s)

/-- Messages expected anew leave a die its Ingot store. -/
theorem foldr_setRx_ingot {f : Msg → Die → RxConn} (ms : List Msg) (x : Die) :
    (ms.foldr (fun m y => y.setRx (f m y)) x).ingot = x.ingot := by
  induction ms with
  | nil => rfl
  | cons m r ih => exact ih

namespace State.Canon

section
variable {s t : State}

/-! The predicate: its parts, what does not touch them, and writes to a block and to a die. -/

theorem parts : s.Canon ↔ Memory.wf s.mem = true ∧ spWf 0 s.tags = true ∧
    (∀ b ∈ s.blocks, spWf 0 b.scratch = true ∧ spWf 0 b.acc = true) ∧ ∀ d ∈ s.dies, spWf Config.memInit d.ingot = true := by
  simp only [State.Canon, memoriesWf, Bool.and_eq_true, List.all_eq_true, and_assoc]

/-- A state with the same memory, tags, blocks and dies. -/
theorem frame (h : s.Canon) (hm : t.mem = s.mem) (ht : t.tags = s.tags) (hb : t.blocks = s.blocks) (hd : t.dies = s.dies) :
    t.Canon := by
  unfold State.Canon memoriesWf at h ⊢
  rwa [hm, ht, hb, hd]

/-- What a state holds beside memory, tags, blocks and dies does not matter. -/
theorem other {lk ks sy cl co qu la wa ag ir ck fc sq} (h : s.Canon) :
    State.Canon ⟨s.mem, lk, s.tags, ks, sy, s.dies, cl, co, qu, la, s.blocks, wa, ag, ir, ck, fc, sq⟩ := h.frame rfl rfl rfl rfl

theorem of_mem (h : s.Canon) (hm : Memory.wf t.mem = true) (ht : t.tags = s.tags) (hb : t.blocks = s.blocks)
    (hd : t.dies = s.dies) : t.Canon := by
  rw [parts] at h ⊢
  rw [ht, hb, hd]
  exact ⟨hm, h.2⟩

theorem block (h : s.Canon) (b : Nat) : spWf 0 (s.block b).scratch = true ∧ spWf 0 (s.block b).acc = true := by
  obtain ⟨-, -, hb, -⟩ := parts.mp h
  unfold State.block nth
  cases e : s.blocks[b]? with
  | none => exact ⟨rfl, rfl⟩
  | some x => exact hb x (List.mem_of_getElem? e)

theorem die (h : s.Canon) (d : Nat) : spWf Config.memInit (s.die d).ingot = true := by
  obtain ⟨-, -, -, hd⟩ := parts.mp h
  unfold State.die nth
  cases e : s.dies[d]? with
  | none => rfl
  | some x => exact hd x (List.mem_of_getElem? e)

theorem setTags (h : s.Canon) {k : Nat} {v : BitVec 4} : State.Canon { s with tags := spSet 0 s.tags k v } := by
  rw [parts] at h ⊢
  obtain ⟨hm, ht, hb, hd⟩ := h
  exact ⟨hm, spSet_wf _ _ _ _ ht, hb, hd⟩

theorem setBlock {b : Nat} {x : Block} (h : s.Canon) (hs : spWf 0 x.scratch = true) (ha : spWf 0 x.acc = true) :
    (s.setBlock b x).Canon := by
  rw [parts] at h ⊢
  obtain ⟨hm, ht, hb, hd⟩ := h
  refine ⟨hm, ht, fun y hy => ?_, hd⟩
  rcases List.mem_or_eq_of_mem_set hy with hy | rfl
  · exact hb y hy
  · exact ⟨hs, ha⟩

theorem setDie {d : Nat} {x : Die} (h : s.Canon) (hi : spWf Config.memInit x.ingot = true) : (s.setDie d x).Canon := by
  rw [parts] at h ⊢
  obtain ⟨hm, ht, hb, hd⟩ := h
  refine ⟨hm, ht, hb, fun y hy => ?_⟩
  rcases List.mem_or_eq_of_mem_set hy with hy | rfl
  · exact hd y hy
  · exact hi

/-- A block keeps its scratch and its accumulator rows. -/
theorem blockKept {b : Nat} {x : Block} (h : s.Canon) (hs : x.scratch = (s.block b).scratch) (ha : x.acc = (s.block b).acc) :
    (s.setBlock b x).Canon :=
  h.setBlock (hs ▸ (h.block b).1) (ha ▸ (h.block b).2)

/-- A die keeps its Ingot store. -/
theorem dieKept {d : Nat} {x : Die} (h : s.Canon) (hi : x.ingot = (s.die d).ingot) : (s.setDie d x).Canon :=
  h.setDie (hi ▸ h.die d)

theorem mapBlocks {f : Block → Block} (h : s.Canon)
    (hf : ∀ b, spWf 0 b.scratch = true → spWf 0 b.acc = true → spWf 0 (f b).scratch = true ∧ spWf 0 (f b).acc = true) :
    State.Canon { s with blocks := s.blocks.map f } := by
  rw [parts] at h ⊢
  obtain ⟨hm, ht, hb, hd⟩ := h
  refine ⟨hm, ht, fun y hy => ?_, hd⟩
  obtain ⟨x, hx, rfl⟩ := List.mem_map.mp hy
  exact hf x (hb x hx).1 (hb x hx).2

theorem mapDies {f : Die → Die} (h : s.Canon) (hf : ∀ d, (f d).ingot = d.ingot) : State.Canon { s with dies := s.dies.map f } := by
  rw [parts] at h ⊢
  obtain ⟨hm, ht, hb, hd⟩ := h
  refine ⟨hm, ht, hb, fun y hy => ?_⟩
  obtain ⟨x, hx, rfl⟩ := List.mem_map.mp hy
  exact (hf x).symm ▸ hd x hx

theorem foldl {α : Type} {f : State → α → State} {l : List α} (h : s.Canon) (hf : ∀ s a, s.Canon → (f s a).Canon) :
    (l.foldl f s).Canon := by
  induction l generalizing s with
  | nil => exact h
  | cons a r ih => exact ih (hf s a h)

theorem ofPair {α : Type} {x : α × State} {a : α} (h : x.2.Canon) (e : x = (a, t)) : t.Canon := by subst e; exact h
theorem ofFst {α : Type} {x : State × α} {a : α} (h : x.1.Canon) (e : x = (t, a)) : t.Canon := by subst e; exact h

theorem ite {c : Prop} [Decidable c] (hs : s.Canon) (ht : t.Canon) : (if c then s else t).Canon := by
  split <;> assumption

/-! Storage (R148 to R190). -/

theorem setCore {c : Nat} {k : Core} (h : s.Canon) : (s.setCore c k).Canon := h.other
theorem setCluster {c : Nat} {k : Cluster} (h : s.Canon) : (s.setCluster c k).Canon := h.other
theorem setQuarter {q : Nat} {k : Quarter} (h : s.Canon) : (s.setQuarter q k).Canon := h.other
theorem setWarp {w : Nat} {x : Warp} (h : s.Canon) : (s.setWarp w x).Canon := h.other
theorem setLaunch {l : Nat} {x : Launch} (h : s.Canon) : (s.setLaunch l x).Canon := h.other
theorem putW {x : Warp} (h : s.Canon) : (s.putW x).Canon := h.setWarp
theorem putS {u : Strand} (h : s.Canon) : (s.putS u).Canon := h.setWarp
theorem setCtx {d c : Nat} {x : Ctx} (h : s.Canon) : (s.setCtx d c x).Canon := h.dieKept rfl

theorem physWriteKey {k pa : Nat} {bs : List Byte} (h : s.Canon) : (s.physWriteKey k pa bs).Canon := by
  refine h.of_mem (physWriteKey_wf s k pa bs (parts.mp h).1) ?_ ?_ ?_ <;>
    (unfold State.physWriteKey State.physWrite; dsimp only; split <;> (try split) <;> (try split) <;> rfl)

theorem writeBack {l : L1Line} (h : s.Canon) : (s.writeBack l).Canon := h.foldl fun _ _ h => h.physWriteKey

theorem removeLines {c : Nat} {p : L1Line → Bool} (h : s.Canon) : (s.removeLines c p).Canon :=
  .ite (h.setCore.foldl fun _ _ h => h.writeBack) h

theorem cleanLines {c : Nat} {p : L1Line → Bool} (h : s.Canon) : (s.cleanLines c p).Canon :=
  have hf := h.foldl (l := (s.core c).l1.filter p) fun _ _ h => h.writeBack
  .ite hf.setCore hf

theorem pullLine {c l : Nat} (h : s.Canon) : (s.pullLine c l).Canon := h.foldl fun _ _ h => h.removeLines
theorem releaseL1 {c : Nat} (h : s.Canon) : (s.releaseL1 c).Canon := h.foldl fun _ _ h => h.cleanLines
theorem acquireL1 {c : Nat} (h : s.Canon) : (s.acquireL1 c).Canon := h.foldl fun _ _ h => h.removeLines

theorem touch {w : Who} {va : Nat} {u : Trans} {b : Bool} (h : s.Canon) : (s.touch w va u b).Canon := by
  unfold State.touch
  split
  · exact h
  · dsimp only
    refine .ite (dieKept ?_ rfl) (setCluster ?_) <;> exact .ite h (physWriteKey (.ite h h.pullLine))

theorem markDiscarded {w : Who} {p : Nat} (h : s.Canon) : (s.markDiscarded w p).Canon := by
  unfold State.markDiscarded
  split
  · exact .ite h.touch h
  · exact h

theorem fill {w : Who} {vline : Nat} {u : Trans} (h : s.Canon) : (s.fill w vline u).Canon := by
  unfold State.fill
  dsimp only
  apply setCore
  have hp := h.pullLine (c := clusterOf w.core) (l := u.pa / 128)
  generalize s.pullLine (clusterOf w.core) (u.pa / 128) = v at hp ⊢
  split
  · exact hp
  · split
    · dsimp only; exact hp.removeLines
    · exact hp

theorem ensureLine {w : Who} {va : Nat} {u : Trans} {b : Bool} (h : s.Canon) : (s.ensureLine w va u b).Canon := by
  unfold State.ensureLine
  dsimp only
  split
  · exact .ite (.ite h h.setCore) h.removeLines.fill
  · exact h.fill

theorem loadBytes {w : Who} {va n : Nat} {u : Trans} (h : s.Canon) : (s.loadBytes w va n u).2.Canon := by
  unfold State.loadBytes
  dsimp only
  split
  · exact h.touch
  · split
    · dsimp only; exact h.touch.pullLine
    · split <;> exact h.touch.ensureLine

theorem storeBytes {w : Who} {va : Nat} {bs : List Byte} {u : Trans} (h : s.Canon) : (s.storeBytes w va bs u).Canon :=
  .ite h.touch.pullLine.physWriteKey h.touch.ensureLine.setCore

theorem homeRead {w : Who} {va n : Nat} {u : Trans} {b : Bool} (h : s.Canon) : (s.homeRead w va n u b).2.Canon := by
  unfold State.homeRead
  dsimp only
  split
  · exact h.touch
  · exact .ite h.touch h.touch.pullLine

theorem homeWrite {w : Who} {va : Nat} {bs : List Byte} {u : Trans} (h : s.Canon) : (s.homeWrite w va bs u).Canon :=
  physWriteKey (.ite h.touch h.touch.pullLine)

theorem takeRun {w : Who} {ps : List (Nat × Nat × (List Byte ⊕ Trans))} (h : s.Canon) : (s.takeRun w ps).2.Canon := by
  induction ps generalizing s with
  | nil => exact h
  | cons p r ih =>
    obtain ⟨a, n, bs | u⟩ := p
    · exact ih h
    · exact ih h.homeRead

theorem readRun {w : Who} {rs : List HostResp} {ps : List (Nat × Nat)} (h : s.Canon) : (s.readRun w rs ps).2.Canon := by
  unfold State.readRun
  split
  · exact h
  · split
    · exact h.takeRun
    · exact h

theorem readMem {w : Who} {rs : List HostResp} {p n : Nat} (h : s.Canon) : (s.readMem w rs p n).2.Canon := h.readRun

theorem scratchWrite {b off : Nat} {bs : List Byte} (h : s.Canon) : (s.scratchWrite b off bs).Canon :=
  h.setBlock (bytesSet_wf _ _ _ _ (h.block b).1) (h.block b).2

/-! Registers (R12, R64, R81). -/

theorem wrV {n : Nat} {v : Vec} (h : s.Canon) : (s.wrV n v).Canon := .ite h.setQuarter h.putW
theorem wrS {n : Nat} {v : DWord} (h : s.Canon) : (s.wrS n v).Canon := .ite h.setQuarter h.putW
theorem wrK {n : Nat} {v : Mask} (h : s.Canon) : (s.wrK n v).Canon := h.putW
theorem wrLanes {n : Nat} {m : Mask} {f : Nat → Word} (h : s.Canon) : (s.wrLanes n m f).Canon := h.wrV
theorem wrPair {n : Nat} {m : Mask} {f : Nat → DWord} (h : s.Canon) : (s.wrPair n m f).Canon := h.wrLanes.wrLanes
theorem wrMask {n : Nat} {m : Mask} {p : Nat → Bool} (h : s.Canon) : (s.wrMask n m p).Canon := h.wrK

/-! Messages that leave (R314 to R321). -/

theorem route {p : BitVec 128} {m : Msg} (h : s.Canon) : (s.route p m).Canon := by
  unfold State.route
  split <;> exact h.other

theorem send {d : Nat} {p : BitVec 128} {m : Msg} (h : s.Canon) : (s.send d p m).2.Canon := by
  unfold State.send
  exact route (dieKept h rfl)

theorem answer {d : Nat} {q m : Msg} (h : s.Canon) : (s.answer d q m).Canon := .ite h h.route
theorem dropMsg {d port : Nat} (h : s.Canon) : (s.dropMsg d port).Canon := h.dieKept rfl

theorem wake {d : Nat} (h : s.Canon) : (s.wake d).Canon := by
  refine .ite h (other (dieKept h ?_))
  exact foldr_setRx_ingot (f := fun m y => { y.rxOf m with
    next := m.psn, high := if (y.rxOf m).high = (y.rxOf m).next then m.psn else (y.rxOf m).high }) _ _

theorem sendAsk {d c : Nat} {a : HostAsk} (h : s.Canon) : (s.sendAsk d c a).2.Canon := by
  unfold State.sendAsk
  dsimp only
  split <;> exact h.send

theorem sendAsks {d c : Nat} {as : List HostAsk} (h : s.Canon) : (s.sendAsks d c as).2.Canon := by
  induction as generalizing s with
  | nil => exact h
  | cons a r ih => exact ih h.sendAsk

theorem markAsks {w : Who} {as : List HostAsk} (h : s.Canon) : (s.markAsks w as).Canon := by
  refine h.foldl fun s a h => .ite h ?_
  split
  · exact h.touch
  · exact h

theorem putRun {w : Who} {r : List (Nat × List Byte × Trans)} (h : s.Canon) : (s.putRun w r).Canon := by
  induction r generalizing s with
  | nil => exact h
  | cons a r ih => exact ih h.homeWrite

theorem writeMem {w : Who} {p : Nat} {bs : List Byte} (h : s.Canon) : KeepsOk id (s.writeMem w p bs) := by
  unfold State.writeMem
  split
  · trivial
  · split
    · trivial
    · exact h.putRun

/-! The Ladle (R72 to R82). -/

theorem putHome {w : Who} {r : List (Nat × List Byte × Trans)} (h : s.Canon) : (s.putHome w r).Canon := h.putRun

theorem ladleWrite {w : Nat} {rs : List HostResp} {off : Nat} {bs : List Byte} (h : s.Canon) :
    KeepsOk id (s.ladleWrite w rs off bs) := by
  unfold State.ladleWrite
  split
  · trivial
  · split
    · trivial
    · exact h.putHome

theorem ladlePieces {w : Who} {rs : List HostResp} {ps : List (Nat × Nat)} (h : s.Canon) :
    KeepsOk Prod.snd (s.ladlePieces w rs ps) := by
  induction ps generalizing s with
  | nil => exact h
  | cons p r ih =>
    obtain ⟨p, n⟩ := p
    unfold State.ladlePieces
    dsimp only
    split
    · trivial
    next bs u e =>
      have hu : u.Canon := by
        split at e
        · cases e; exact h
        · cases e
        · split at e
          · cases e
          · split at e
            · cases e
            · have e := congrArg Prod.snd (Except.ok.inj e)
              exact (congrArg State.Canon e).mp h.homeRead
      split
      · trivial
      next e =>
        have hc := (ih hu).ok e
        exact hc

theorem ladleRead {w : Nat} {rs : List HostResp} {off n : Nat} (h : s.Canon) : KeepsOk Prod.snd (s.ladleRead w rs off n) :=
  h.ladlePieces

theorem spillOldest {w : Nat} (h : s.Canon) : KeepsOk id (s.spillOldest w) := by
  unfold State.spillOldest
  dsimp only
  split
  · exact h
  · split
    · trivial
    · split
      · trivial
      next e => exact (h.ladleWrite.ok e).setWarp

theorem spillAll {w n : Nat} (h : s.Canon) : (s.spillAll w n).1.Canon := by
  induction n generalizing s with
  | zero => exact h
  | succ n ih =>
    unfold State.spillAll
    split
    · exact h
    · split
      · exact h
      next e => exact ih (h.spillOldest.ok e)

theorem spillFor {w f g n : Nat} (h : s.Canon) : (s.spillFor w f g n).1.Canon := by
  induction n generalizing s with
  | zero => exact h
  | succ n ih =>
    unfold State.spillFor
    dsimp only
    split
    · exact h
    · split
      · exact h
      next e => exact ih (h.spillOldest.ok e)

theorem refillNewest {w : Nat} {rs : List HostResp} {ok : FrameRec → Bool} (h : s.Canon) : KeepsOk id (s.refillNewest w rs ok) := by
  unfold State.refillNewest
  dsimp only
  split
  · trivial
  · split
    · trivial
    next e =>
      split
      · trivial
      · split
        · trivial
        next e' => exact ((h.ladleRead.ok e).ladleRead.ok e').setWarp

theorem pushRec {w e base : Nat} {u : Strand} {r : StackRec} (h : s.Canon) : KeepsOk Prod.snd (s.pushRec w e base u r) := by
  unfold State.pushRec
  dsimp only
  split
  · exact h
  · split
    · trivial
    · split
      · trivial
      next e => exact h.ladleWrite.ok e

theorem popRec {w e base : Nat} {rs : List HostResp} {u : Strand} (h : s.Canon) : KeepsOk Prod.snd (s.popRec w e base rs u) := by
  unfold State.popRec
  dsimp only
  split
  · exact h
  · split
    · trivial
    next e => exact h.ladleRead.ok e

theorem post {d : Nat} {b : Bool} {w : Nat} {rs : List HostReq} (h : s.Canon) : (s.post d b w rs).Canon := h.dieKept rfl

theorem spillReserve {q : Nat} (h : s.Canon) (e : s.spillReserve q = some t) : t.Canon := by
  unfold State.spillReserve at e
  split at e
  · cases e; exact h
  · dsimp only at e
    split at e
    · cases e
    · split at e
      · cases e
      · cases e
        exact h.markAsks.sendAsks.post.putHome.setWarp.other.setQuarter

theorem refillReserve {q : Nat} {rs : List HostResp} (h : s.Canon) : KeepsOk id (s.refillReserve q rs) := by
  unfold State.refillReserve
  dsimp only
  split
  · exact h
  · split
    · trivial
    · split
      · trivial
      next e =>
        split
        · trivial
        · split
          · trivial
          next e' => exact ((h.ladleRead.ok e).ladleRead.ok e').setWarp.setQuarter

/-! Ends of warps, blocks and launches (R83, R145, R192, R280, R281, R290, R304). -/

theorem freeReserves {w : Nat} (h : s.Canon) : (s.freeReserves w).Canon := h.setQuarter
theorem dropWarp {w : Nat} (h : s.Canon) : (s.dropWarp w).Canon := h.freeReserves.setQuarter.setWarp
theorem dropOps {p : EngOp → Bool} (h : s.Canon) : (s.dropOps p).Canon := h.other
theorem logError {d l a : Nat} (h : s.Canon) : (s.logError d l a).Canon := h.dieKept rfl

theorem launchWrite {l a v : Nat} (h : s.Canon) : (s.launchWrite l a v).Canon := by
  unfold State.launchWrite
  split
  · exact h
  · dsimp only
    split
    · exact h.logError
    · exact h.putRun.markAsks.sendAsks.setLaunch

theorem putStatus {l c : Nat} (h : s.Canon) : (s.putStatus l c).Canon := by
  unfold State.putStatus
  split
  · exact h
  · exact .ite h.setLaunch h.setLaunch.launchWrite

theorem dropBlock {b : Nat} (h : s.Canon) : (s.dropBlock b).Canon := (h.foldl fun _ _ h => h.dropWarp).setBlock rfl rfl
theorem dropLaunch {l : Nat} (h : s.Canon) : (s.dropLaunch l).Canon :=
  (h.mapDies fun _ => by rfl).other

theorem killBlock {b : Nat} (h : s.Canon) : (s.killBlock b).Canon :=
  have hw := h.dropOps.foldl fun _ _ h => h.setWarp
  .ite (hw.blockKept rfl rfl) hw.dropBlock

theorem killEnd {l : Nat} (h : s.Canon) : (s.killEnd l).Canon := .ite h.putStatus h

theorem killLaunch {l : Nat} (h : s.Canon) : (s.killLaunch l).Canon := by
  unfold State.killLaunch
  split
  · exact h
  · exact .ite h (h.foldl fun _ _ h => h.killBlock).dropLaunch.setLaunch.killEnd

theorem mchk {d c : Nat} (h : s.Canon) : (s.mchk d c).Canon := by
  unfold State.mchk
  exact (h.foldl fun _ _ h => h.killLaunch).other.send

/-! Traps and their returns (R285 to R295, R424). -/

theorem enterHandler {w e : Nat} {u : Strand} {i : TrapInfo} (h : s.Canon) : (s.enterHandler w e u i).Canon := by
  unfold State.enterHandler
  dsimp only
  refine .ite ?_ (setWarp (setQuarter ?_)) <;>
  · split
    next e => exact h.spillReserve e
    · split
      · exact h.mchk
      · exact h

theorem reportTrap {w : Nat} {r : TrapRec} (h : s.Canon) : (s.reportTrap w r).Canon := by
  unfold State.reportTrap
  exact h.other.send
theorem stopWarp {w e : Nat} {i : TrapInfo} (h : s.Canon) : (s.stopWarp w e i).Canon := h.setWarp.reportTrap

theorem deliver {w e : Nat} {i : TrapInfo} (h : s.Canon) : (s.deliver w e i).Canon := by
  unfold State.deliver
  dsimp only
  split
  · exact h
  · exact .ite h.setWarp.enterHandler h.setWarp.stopWarp

theorem resumeEngines {w : Nat} (h : s.Canon) : (s.resumeEngines w).Canon :=
  (h.mapDies fun _ => by rfl).other

theorem actThree {w : Nat} {r : TrapRec} (h : s.Canon) : (s.actThree w r).Canon := h.reportTrap.killLaunch

theorem leaveHandler {w act : Nat} {v : Va} (h : s.Canon) : (s.leaveHandler w act v).Canon := by
  unfold State.leaveHandler
  dsimp only
  split
  · exact h
  · split
    · split
      · exact h.setQuarter.setWarp.resumeEngines
      · exact h.setQuarter.setWarp.actThree
    · split
      · exact h.setQuarter.setWarp
      · split
        · exact h.setQuarter.setWarp.resumeEngines
        · exact h.setQuarter.setWarp.actThree

theorem answerStopped {w act : Nat} {v : Va} (h : s.Canon) : (s.answerStopped w act v).Canon := by
  unfold State.answerStopped
  dsimp only
  split
  · exact h
  · split
    · exact h.setWarp
    · split
      · exact h.setWarp.setWarp.resumeEngines
      · exact h.setWarp.killLaunch

/-! The shell of an instruction word (R91 to R94, R291 to R298). -/

theorem setWait {k : WaitKind} {n : Nat} {rs : List HostReq} (h : s.Canon) : (s.setWait k n rs).Canon := by
  unfold State.setWait
  exact h.putS.other

theorem await {k : WaitKind} {as : List HostAsk} (h : s.Canon) : (s.await k as).Canon := h.markAsks.sendAsks.setWait
theorem deliverFault {f : TrapInfo} (h : s.Canon) : (s.deliverFault f).Canon := h.putS.deliver

theorem raise {i : TrapInfo} (h : s.Canon) : (s.raise i).Canon := by
  refine .ite h.setWait (.ite h.deliver ?_)
  split
  · exact h.putS
  · exact h.putS
  · exact .ite h.setWait h.deliver

theorem raiseChain {i : TrapInfo} (h : s.Canon) : (s.raiseChain i).Canon := by
  unfold State.raiseChain
  split
  · exact .ite h.setWait h.deliverFault
  · exact h.raise

theorem count {s0 : State} (h : s.Canon) : (State.count s0 s).Canon := .ite h.putW (.ite h.putW h.putW)

theorem advance {s0 : State} {c : Bool} (h : s.Canon) : (State.advance s0 c s).Canon := by
  unfold State.advance
  split
  · exact h
  · exact h.putW

theorem noteStep {s0 : State} (h : s.Canon) : (State.noteStep s0 s).Canon := .ite h.putW h
theorem retire {s0 : State} {c : Bool} (h : s.Canon) : (State.retire s0 c s).Canon :=
  .ite h.advance (.ite h.advance h.advance.count.noteStep)

theorem markTrap {i : TrapInfo} (h : s.Canon) : (s.markTrap i).Canon := .ite (h.foldl fun _ _ h => h.markDiscarded) h
theorem keep {b : Bool} {info : OpInfo} {w : Word} (h : s.Canon) : (s.keep b info w).Canon :=
  .ite h.other h
theorem joinFlight {s0 : State} {info : OpInfo} {l : LogEntry} (h : s.Canon) : (State.joinFlight s0 info l s).Canon :=
  h.putS.retire

theorem settle {info : OpInfo} {w : Word} {p : Stop} (h : s.Canon) (hp : p.left.Canon) : (State.settle s info w p).Canon := by
  cases p with
  | trap i u => exact raise (.ite hp hp.markTrap)
  | deferred i u =>
    have hm : State.Canon (if u.inMiss then u else u.markTrap i) := .ite hp hp.markTrap
    exact .ite hm.setWait (.ite hm.raise (.ite hm.setWait hm.putS))
  | after i u => exact hp.retire.deliver
  | wait k n u => exact .ite hp (.ite hp.setWait hp.keep.setWait)
  | ask as u => exact .ite hp.sendAsks.putS (.ite (.ite h.joinFlight hp.sendAsks.joinFlight) hp.keep.await)
  | poll k as u => exact hp.keep.await
  | done u => exact hp

end

section
variable {s : State} {body : Body} {info : OpInfo} {w : Word}

theorem runChecked (h : s.Canon) (hb : BodyKeeps body) : (s.runChecked info w body).Canon := by
  refine .ite h.raise (.ite h.setWait (.ite h.setWait (.ite h.raise (.ite h.raise ?_))))
  split
  next e => exact .ite h.joinFlight ((hb s h).ok e).retire
  next e => exact h.settle ((hb s h).stop e)

theorem runBody (h : s.Canon) (hb : BodyKeeps body) : (s.runBody info w body).Canon := by
  have hi : State.Canon { s with issue := { s.issue with word := w, moved := false, count := 1 } } := h.other
  unfold State.runBody
  dsimp only
  split
  · exact .ite (hi.runChecked hb) (.ite hi.setWait hi.deliverFault)
  · exact hi.runChecked hb

/-- The shell of every instruction word keeps the forms where the word's meaning does. -/
theorem perform (h : s.Canon) (hb : BodyKeeps body) : OutCanon (perform w body s) := by
  unfold Machine.perform
  split
  · exact h.runBody hb
  · trivial

theorem jump {v : Va} (h : s.Canon) : (s.jump v).Canon := by
  unfold State.jump
  exact h.putS.other
theorem settled (h : s.Canon) : s.settled.Canon := h.other
theorem stepTrap {w e : Nat} {c p : Va} {i : Word} (h : s.Canon) : (s.stepTrap w e c p i).Canon := .ite h.setWarp h

theorem finishWait {w e : Nat} (h : s.Canon) : (s.finishWait w e).Canon := by
  unfold State.finishWait
  dsimp only
  split
  · exact h
  · split
    · exact h
    · exact h.setWarp.stepTrap

end
end State.Canon
end Sys2Proof.Machine
end

section
/-! Fetching, issue and control keep the canonical form. -/

namespace Sys2Proof.Machine

open Sys2Proof

theorem settles_ladleStop {α : Type} {st : α → State} {s : State} {e : LadleErr} (h : s.Canon) : Settles st (ladleStop s e) := by
  cases e <;> exact h

namespace State.Canon

section
variable {s t : State}

/-! Fetching and the issue of a chain (R84 to R96, R284 to R302). -/

theorem fetchWord {a : Va} (h : s.Canon) : (s.fetchWord a).2.Canon := by
  unfold State.fetchWord
  dsimp only
  split
  · exact h
  · split
    · split <;> exact h
    · exact h.homeRead

theorem fetchChain {n : Nat} {a : Va} {pre : List Word} {xs : Nat} (h : s.Canon) : (s.fetchChain n a pre xs).2.Canon := by
  induction n generalizing s a pre xs with
  | zero => exact h
  | succ n ih =>
    have hw := h.fetchWord (a := a)
    unfold State.fetchChain
    split
    next e => exact hw.ofPair e
    next e => exact hw.ofPair e
    next e =>
      have hu := hw.ofPair e
      split
      · split
        · exact ih hu
        · exact hu
      · split
        · split
          · exact hu
          · exact ih hu
        · exact hu

theorem setIssue {w e : Nat} {c p : Va} {i : Word} {b : Bool} (h : s.Canon) : (s.setIssue w e c p i b).Canon := h.other
theorem setLater {w e : Nat} {l : LogEntry} {src : Source} (h : s.Canon) : (s.setLater w e l src).Canon := h.other
theorem waitIssue {w e : Nat} {v : Wait} (h : s.Canon) : (s.waitIssue w e v).Canon := h.other

theorem takeFault {w e : Nat} {f : EngFault} (h : s.Canon) : (s.takeFault w e f).Canon := h.setWarp.deliver

theorem readyReserve {w e : Nat} (h : s.Canon) : (s.readyReserve w e).1.Canon := by
  unfold State.readyReserve
  dsimp only
  split
  · exact h
  · split
    · exact h
    · split
      · exact h
      · split
        next e => exact h.setIssue.refillReserve.ok e
        · exact h.setIssue.await
        · exact h.setIssue.mchk

theorem passClocks {n : Nat} (h : s.Canon) : (s.passClocks n).Canon := .ite h h.other

theorem takeDeferred {w e : Nat} {f : TrapInfo} (h : s.Canon) : (s.takeDeferred w e f).Canon := by
  unfold State.takeDeferred
  split
  · exact h.setIssue.deliverFault.other
  · exact h

theorem unusedOpcode {w : Word} (h : s.Canon) : OutCanon (execUnusedOpcode w s) := by
  unfold execUnusedOpcode
  split
  · exact (raiseChain h.other).other
  · trivial

end

section
variable {s : State} {run : Word → State → Host.Outcome State Fault Refusal} {w e : Nat} {b : Bool}

theorem runWords {pre : List Word} {i : Word} (h : s.Canon) (hr : ∀ i s, s.Canon → OutCanon (run i s)) :
    OutCanon (runWords run pre i s) := by
  induction pre generalizing s with
  | nil => exact hr _ _ h.other
  | cons p r ih =>
    have hp := hr p { s with issue := { s.issue with word := p } } h.other
    unfold Machine.runWords
    split
    next e =>
      have hu := hp.next e
      exact .ite (ih hu) hu
    · trivial
    · trivial

theorem issueChain (h : s.Canon) (hr : ∀ i s, s.Canon → OutCanon (run i s)) : OutCanon (s.issueChain run w e b) := by
  unfold State.issueChain
  split
  · exact h
  next t _ =>
    have hf := (h.setIssue (w := w) (e := e) (c := t.pc) (p := t.pc) (i := 0) (b := b)).fetchChain (n := 4) (a := t.pc) (pre := []) (xs := 0)
    dsimp only
    split
    next e => exact (hf.ofPair e).await
    next e => exact raiseChain (hf.ofPair e).other
    next e => exact raiseChain (hf.ofPair e).other
    next e =>
      have hu := hf.ofPair e
      split
      · exact await hu.other
      · split
        · exact raiseChain hu.other
        · exact runWords hu.other hr

theorem issueStrand (h : s.Canon) (hr : ∀ i s, s.Canon → OutCanon (run i s)) : OutCanon (s.issueStrand run w e b) := by
  unfold State.issueStrand
  split
  · exact h
  · split
    · exact h.takeFault
    · split
      · exact h.takeDeferred
      · exact h
    · split
      · exact h
      · have hq := h.readyReserve (w := w) (e := e)
        split
        next e =>
        have hu := hq.ofFst e
        split
        · exact hu
        · split
          · exact hu
          · split
            · exact hr _ _ hu.setLater
            · exact hu.issueChain hr

theorem retryWait (h : s.Canon) (hr : ∀ i s, s.Canon → OutCanon (run i s)) : OutCanon (s.retryWait run w e) := by
  unfold State.retryWait
  split
  · exact h
  · split
    · exact h
    · exact hr _ _ h.waitIssue

theorem landFlight (h : s.Canon) (hr : ∀ i s, s.Canon → OutCanon (run i s)) : OutCanon (s.landFlight run w e) := by
  unfold State.landFlight
  split
  · exact h
  · exact .ite (hr _ _ h.setLater) h

end

section
variable {s t : State}

/-! Divergence, barriers, returns and exits (R20 to R39, R69, R344, R345, R360). -/

theorem push {r : StackRec} (h : s.Canon) : KeepsOk Prod.snd (s.push r) := h.pushRec

theorem joinGroup {w g : Nat} (h : s.Canon) : (s.joinGroup w g).Canon := by
  unfold State.joinGroup
  dsimp only
  refine .ite h (.ite ?_ ?_) <;>
  · split
    · exact h
    · exact h.setWarp.stepTrap

theorem drainFrom {w e base n : Nat} {rs : List HostResp} {u : Strand} (h : s.Canon) :
    KeepsOk Prod.snd (s.drainFrom w e base rs n u) := by
  induction n generalizing s u with
  | zero => exact h
  | succ n ih =>
    unfold State.drainFrom
    refine .ite h ?_
    split
    · exact h
    · split
      · exact h
      · split
        · trivial
        next e => exact ih (h.popRec.ok e)

theorem removeLanes {w : Nat} {m : Mask} {rs : List HostResp} {es : List Nat} (h : s.Canon) :
    KeepsOk id (s.removeLanes w m rs es) := by
  induction es generalizing s with
  | nil => exact h
  | cons e r ih =>
    unfold State.removeLanes
    split
    · exact ih h
    · refine .ite (ih h) ?_
      split
      · trivial
      next e => exact ih (h.drainFrom.ok e).setWarp

theorem releaseBar {k : WaitKind} {n : Nat} {ws : List Nat} (h : s.Canon) : (s.releaseBar k n ws).Canon := by
  refine h.foldl fun s w h => h.foldl fun s e h => ?_
  split
  · split
    · exact .ite h.finishWait h
    · exact h
  · exact h

theorem settleBars {b : Nat} (h : s.Canon) : (s.settleBars b).Canon :=
  (h.foldl fun _ _ h => .ite h.releaseBar h).foldl fun _ _ h => .ite h.releaseBar h

theorem settleJoins {w : Nat} (h : s.Canon) : (s.settleJoins w).Canon := h.foldl fun _ _ h => h.joinGroup

theorem returnAll {w : Nat} {rs : List HostResp} (h : s.Canon) : Settles id (s.returnAll w rs) := by
  unfold State.returnAll
  dsimp only
  refine .ite h ?_
  split
  · exact settles_ladleStop h
  next u e =>
    have hu : u.Canon := by
      split at e
      · exact h.refillNewest.ok e
      · cases e; exact h
    split
    · exact h
    · refine .ite h ?_
      split
      · exact h
      · show State.Canon _
        dsimp only [id]
        split
        · exact hu.setWarp.stepTrap
        · exact hu.setWarp

theorem settleRet {w : Nat} (h : s.Canon) : (s.settleRet w).Canon := by
  have hr := h.returnAll (w := w) (rs := [])
  refine .ite ?_ h
  split
  next e => exact hr.ok e
  next e =>
    have hu := hr.stop e
    dsimp only
    split
    · exact hu.deliver
    · exact hu
  next e =>
    have hu := hr.stop e
    dsimp only
    split
    · exact hu.waitIssue.await
    · exact hu
  · exact h

theorem endHandlers {w n : Nat} (h : s.Canon) : (s.endHandlers w n).Canon := by
  induction n generalizing s with
  | zero => exact h
  | succ n ih =>
    unfold State.endHandlers
    dsimp only
    split
    · exact h
    · exact .ite h (ih h.setQuarter.setWarp)

theorem drainHandlers {w : Nat} {m : Mask} {rs : List HostResp} {hs : List Handler} (h : s.Canon) :
    KeepsOk Prod.snd (s.drainHandlers w m rs hs) := by
  induction hs generalizing s with
  | nil => exact h
  | cons x r ih =>
    unfold State.drainHandlers
    split
    · trivial
    next e =>
      split
      · trivial
      next e' =>
        have hu := (ih (h.drainFrom.ok e)).ok e'
        exact hu

theorem exitHandler {m : Mask} (h : s.Canon) : KeepsOk id (s.exitHandler m) := by
  unfold State.exitHandler
  dsimp only
  split
  · trivial
  next e => exact (h.drainHandlers.ok e).setWarp.endHandlers

theorem afterExit {w : Nat} (h : s.Canon) : (s.afterExit w).Canon :=
  .ite h.freeReserves.setWarp.settleBars h.settleJoins.settleRet.settleBars

/-! Waits for memory (R364, R375). -/

theorem atomicLoad {k : WaitKind} {p : Nat} (h : s.Canon) : Settles Prod.snd (s.atomicLoad k p) := by
  unfold State.atomicLoad
  split
  · exact h
  · split
    · split
      · exact h
      · exact h.other
      · exact h.touch
    · exact h.homeRead

theorem pollAgain {p : Nat} {k : WaitKind} (h : s.Canon) : Settles id (s.pollAgain p k) := by
  unfold State.pollAgain
  split
  · exact .ite h h
  · exact h

end
end State.Canon

/-! The meanings of the control instructions. -/

namespace BodyKeeps

theorem branchScalar {d : BitVec 7} {imm : BitVec 14} {p : DWord → Bool} : BodyKeeps (branchScalar d imm p) :=
  fun _ h => State.Canon.ite h.jump h

theorem branchVector {b : Bool} {d : BitVec 7} {imm : BitVec 14} : BodyKeeps (branchVector b d imm) := by
  intro s h
  refine .ite h (.ite h.jump ?_)
  dsimp only
  split
  · exact h.putW.settled
  · split
    · exact settles_ladleStop h
    next e => exact State.Canon.putS (h.push.ok e)

theorem converge : BodyKeeps converge := by
  intro s h
  unfold Machine.converge
  dsimp only
  split
  · refine .ite h.putS.jump ?_
    split
    · exact settles_ladleStop h
    next e => exact State.Canon.putS (h.popRec.ok e)
  · exact .ite h.putS.joinGroup h

theorem returnBody : BodyKeeps returnBody := by
  intro s h
  have hr := (h.setWait (k := .ret) (n := 0) (rs := [])).returnAll (w := s.issue.warp) (rs := s.issue.resp)
  refine .ite h (.ite ?_ h)
  split
  next e => exact hr.ok e
  next e => exact hr.stop e
  next e => exact hr.stop e

theorem exitBody : BodyKeeps exitBody := by
  intro s h
  refine .ite h (.ite h ?_)
  dsimp only
  split
  · exact settles_ladleStop h
  next u e =>
    have hu : u.Canon := by
      split at e
      · exact h.putW.putS.exitHandler.ok e
      · cases e; exact h.putW.putS
    split
    · exact settles_ladleStop h
    next e => exact (hu.removeLanes.ok e).afterExit.settled

theorem windowBody {b : Body} (hb : BodyKeeps b) : BodyKeeps (windowBody b) := fun s h => .ite h (.ite h (hb s h))

theorem callBody {f : State → Except Stop Va} (hf : ∀ s, s.Canon → ∀ p, f s = .error p → p.left.Canon) : BodyKeeps (callBody f) := by
  refine windowBody fun s h => ?_
  dsimp only
  split
  next e => exact hf s h _ e
  · split
    · exact settles_ladleStop h
    next u e =>
      have hu : u.Canon := by
        split at e
        · exact h.spillOldest.ok e
        · cases e; exact h
      exact hu.putW.jump

theorem frameBody {imm : BitVec 14} : BodyKeeps (frameBody imm) := by
  refine windowBody fun s h => .ite h ?_
  split
  next e => exact settles_ladleStop (h.spillFor.ofFst e)
  next e => exact (h.spillFor.ofFst e).putW

theorem wbaseBody {a : BitVec 7} : BodyKeeps (wbaseBody a) := windowBody fun _ h => h.putW

theorem rgrowBody {d : BitVec 7} : BodyKeeps (rgrowBody d) := by
  refine windowBody fun s h => .ite h.wrS (.ite h ?_)
  split
  next e => exact settles_ladleStop (h.spillAll.ofFst e)
  next e => exact (h.spillAll.ofFst e).putW.wrS

theorem rshrinkBody {d : BitVec 7} : BodyKeeps (rshrinkBody d) := by
  refine windowBody fun s h => .ite h.wrS ?_
  split
  next e => exact settles_ladleStop (h.spillAll.ofFst e)
  next e => exact (h.spillAll.ofFst e).putW.wrS

theorem yieldBody {imm : BitVec 21} : BodyKeeps (yieldBody imm) := fun _ h => .ite h h.jump

theorem waitBody {imm : BitVec 14} : BodyKeeps (waitBody imm) := by
  intro s h
  unfold Machine.waitBody
  dsimp only
  split
  · exact .ite h h
  · exact .ite h (.ite h h)

theorem mwaitBody {a b : BitVec 7} : BodyKeeps (mwaitBody a b) := by
  intro s h
  refine .ite h (.ite h ?_)
  split
  next e => exact h.atomicLoad.stop e
  next e =>
    have hu := h.atomicLoad.ok e
    exact .ite hu.pollAgain (.ret hu.acquireL1)

theorem idemBody : BodyKeeps idemBody := fun _ h => h.putS
theorem barBody {k : WaitKind} : BodyKeeps (barBody k) := fun _ h => h.setWait.settleBars
theorem lclkBody {d a : BitVec 7} : BodyKeeps (lclkBody d a) := fun _ h => h.wrS.putS.putW
theorem eretBody {a b : BitVec 7} : BodyKeeps (eretBody a b) := fun _ h => .ite h (.ite h (.ite h h.leaveHandler))

theorem ctlwBody {a imm : BitVec 7} : BodyKeeps (ctlwBody a imm) := by
  intro s h
  unfold Machine.ctlwBody
  dsimp only
  split
  · exact h.putW
  · exact h.putW
  · exact .ite h h.putW
  · exact .ite h h.putW
  · exact h.putW
  · exact h.putW
  · exact h

end BodyKeeps
end Sys2Proof.Machine
end

section
/-! The memory instructions keep the canonical form. -/

namespace Sys2Proof.Machine

open Sys2Proof

theorem memStop_left (s : State) (e : Err) (i : TrapInfo) : (memStop s e i).left = s := by
  unfold memStop
  split <;> rfl

theorem settles_memStop {α : Type} {st : α → State} {s : State} {e : Err} {i : TrapInfo} (h : s.Canon) :
    Settles st (.error (memStop s e i)) := (congrArg State.Canon (memStop_left s e i)).mpr h
theorem settles_scalarStop {α : Type} {st : α → State} {s : State} {e : Err} {a : Nat} (h : s.Canon) :
    Settles st (.error (scalarStop s e a)) := settles_memStop h
theorem settles_laneStop {α : Type} {st : α → State} {s : State} {cs : Conds} (h : s.Canon) :
    Settles st (.error (laneStop s cs)) := settles_memStop h

namespace State.Canon

section
variable {s t : State}

/-! Accesses of strands (R143, R159, R170 to R172, R189, R190, R321). -/

theorem touchLocs {b : Bool} {xs : List Loc} (h : s.Canon) : (s.touchLocs b xs).Canon := by
  refine h.foldl fun s x h => ?_
  split
  · exact h.touch
  · exact h

theorem sending {b : Bool} {xs : List Loc} (h : s.Canon) : (s.sending b xs).Canon := by
  unfold State.sending
  exact h.touchLocs.other

theorem markLanes {b : Bool} {f : Nat → Except (Err × Nat) Loc} {ls : List Nat} (h : s.Canon) : (s.markLanes b f ls).Canon := by
  refine h.foldl fun s x h => ?_
  split
  · exact h.touchLocs
  · exact .ite h.markDiscarded h

theorem loadLoc {n : Nat} {x : Loc} (h : s.Canon) : (s.loadLoc n x).2.Canon := by
  unfold State.loadLoc
  split
  · split
    · dsimp only; exact h.touch
    · dsimp only; exact h.loadBytes
  · exact h
  · exact h

theorem storeLoc {bs : List Byte} {x : Loc} (h : s.Canon) : (s.storeLoc bs x).Canon := by
  unfold State.storeLoc
  split
  · exact .ite h.touch h.storeBytes
  · exact h.scratchWrite
  · exact h

theorem updateLoc {n : Nat} {f : Nat → Nat × Nat} {x : Loc} (h : s.Canon) : (s.updateLoc n f x).2.Canon := by
  unfold State.updateLoc
  split
  · dsimp only; exact h.homeRead.homeWrite
  · exact h.scratchWrite
  · exact h

theorem loadLanes {n : Nat} {ls : List (Nat × Loc)} (h : s.Canon) : (s.loadLanes n ls).2.Canon := by
  induction ls generalizing s with
  | nil => exact h
  | cons x r ih => exact ih h.loadLoc

theorem updateLanes {n : Nat} {f : Nat → Nat → Nat × Nat} {ls : List (Nat × Loc)} (h : s.Canon) : (s.updateLanes n f ls).2.Canon := by
  induction ls generalizing s with
  | nil => exact h
  | cons x r ih =>
    obtain ⟨l, x⟩ := x
    refine ih ?_
    split
    · split
      · exact h.touch
      · exact h.updateLoc
    · exact h.updateLoc

theorem dropTranslations {a : BitVec 16} {lo hi : Nat} {p : Nat → Bool} {b : Bool} (h : s.Canon) :
    (s.dropTranslations a lo hi p b).Canon := by
  have hc := h.foldl (l := s.cores) fun s c h => .ite (c := p (clusterOf c.1)) (h.removeLines (c := c.1)
    (p := fun l => l.asid = a && decide (lo ≤ l.vline * 128) && decide (l.vline * 128 < hi))) h
  cases b
  · exact hc.other
  · exact (hc.mapDies fun _ => by rfl).other

theorem prefetch {p : Nat} (h : s.Canon) : (s.prefetch p).Canon := by
  refine .ite h ?_
  split
  · exact h
  · exact .ite h h.fill

end
end State.Canon

/-! The meanings of the memory instructions. -/

namespace BodyKeeps

theorem vecLoad {w : Nat} {d : BitVec 7} {f : State → Nat → Addr} : BodyKeeps (vecLoad w d f) := by
  intro s h
  unfold Machine.vecLoad
  dsimp only
  split
  · exact settles_laneStop h.markLanes
  · split
    · exact settles_laneStop h
    · exact .ret (.ite h.loadLanes.other.wrPair h.loadLanes.other.wrLanes)
    · exact h.sending

theorem vecStore {w : Nat} {d : BitVec 7} {f : State → Nat → Addr} : BodyKeeps (vecStore w d f) := by
  intro s h
  unfold Machine.vecStore
  dsimp only
  split
  · exact settles_laneStop h.markLanes
  · split
    · exact settles_laneStop h
    · exact .ret (h.foldl fun _ _ h => h.storeLoc)
    · exact h.sending

theorem scalarLoad {w : Nat} {d a imm : BitVec 7} : BodyKeeps (scalarLoad w d a imm) := by
  intro s h
  unfold Machine.scalarLoad
  split
  · exact settles_scalarStop h
  · split
    · exact settles_scalarStop h
    · exact h.sending
    · exact h.loadLoc.wrS

theorem scalarStore {w : Nat} {d a imm : BitVec 7} : BodyKeeps (scalarStore w d a imm) := by
  intro s h
  unfold Machine.scalarStore
  dsimp only
  split
  · exact settles_scalarStop h
  · split
    · exact settles_scalarStop h
    · exact h.sending
    · exact h.storeLoc

theorem atomBody {det : Bool} {n op : Nat} {a b : BitVec 7} {opnds : State → Nat → List DWord} {f : State → Nat → Nat → Nat × Nat}
    {wr : State → (Nat → DWord) → State} (hw : ∀ (t : State) v, t.Canon → (wr t v).Canon) :
    BodyKeeps (atomBody det n op a b opnds f wr) := by
  intro s h
  refine .ite h ?_
  dsimp only
  split
  · exact settles_laneStop h.markLanes
  · refine .ite h ?_
    split
    · exact settles_laneStop h
    · exact .ret (hw _ _ h.updateLanes)
    · exact h.sending

theorem atomWord {f : Word → Word → Word → Word} {op : Nat} {d a b : BitVec 7} : BodyKeeps (atomWord op d a b f) :=
  atomBody fun _ _ h => h.wrLanes
theorem atomMaxi {d a b : BitVec 7} : BodyKeeps (atomMaxi d a b) := atomBody fun _ _ h => h.wrLanes.wrLanes
theorem atomqBody {d a b : BitVec 7} : BodyKeeps (atomqBody d a b) := atomBody fun _ _ h => h.wrLanes

theorem fenceBody {p : Scope} : BodyKeeps (fenceBody p) := by
  intro s h
  unfold Machine.fenceBody
  exact .ret (.ite h.releaseL1.acquireL1 h)

theorem tfenceBody {p : Scope} {a b : BitVec 7} : BodyKeeps (tfenceBody p a b) := by
  intro s h
  unfold Machine.tfenceBody
  refine .ite h (.ite h ?_)
  extract_lets
  split
  extract_lets u
  have hu : u.Canon := .ite h h.releaseL1.dropTranslations
  clear_value u
  exact .ite hu.other (.ret hu.acquireL1)

theorem prefBody {d a imm : BitVec 7} : BodyKeeps (prefBody d a imm) := fun _ h => .ret (h.foldl fun _ _ h => h.prefetch)

end BodyKeeps
end Sys2Proof.Machine
end

section
/-! The matrix instructions, and those that queue work or meet other strands, keep the canonical form. -/

namespace Sys2Proof.Machine

open Sys2Proof

theorem foldl_accSet_scratch {α : Type} (f : α → Nat × Nat × Word) (l : List α) (b : Block) :
    (l.foldl (fun b x => b.accSet (f x).1 (f x).2.1 (f x).2.2) b).scratch = b.scratch := by
  induction l generalizing b with
  | nil => rfl
  | cons x r ih => exact ih _

theorem foldl_accSet_wf {α : Type} (f : α → Nat × Nat × Word) (l : List α) (b : Block) (h : spWf 0 b.acc = true) :
    spWf 0 (l.foldl (fun b x => b.accSet (f x).1 (f x).2.1 (f x).2.2) b).acc = true := by
  induction l generalizing b with
  | nil => exact h
  | cons x r ih => exact ih _ (accSet_wf _ _ _ _ h)

namespace State.Canon

section
variable {s t : State}

/-! The matrix engine (R192 to R215). -/

/-- Accumulator rows written one after the other. -/
theorem accSets {α : Type} {f : α → Nat × Nat × Word} {l : List α} {b : Nat} (h : s.Canon) :
    (s.setBlock b (l.foldl (fun b x => b.accSet (f x).1 (f x).2.1 (f x).2.2) (s.block b))).Canon :=
  h.setBlock ((foldl_accSet_scratch f l _).symm ▸ (h.block b).1) (foldl_accSet_wf f l _ (h.block b).2)

theorem enqueue {n : Nat} {o : EngOp} (h : s.Canon) : Settles id (s.enqueue n o) := .ite h h.setCore.other

theorem enterMat {m : MatOp} {b : Bool} (h : s.Canon) : Settles id (s.enterMat m b) := .ite h (.ite h (.ite h h.enqueue))

theorem ioWrite {w : Who} {rs : List HostResp} {a : Nat} {bs : List Byte} (h : s.Canon) : KeepsOk id (s.ioWrite w rs a bs) := by
  unfold State.ioWrite
  dsimp only
  split
  · trivial
  · split
    · trivial
    · split
      · exact h.putRun
      · trivial

theorem ioRead {w : Who} {rs : List HostResp} {a n : Nat} (h : s.Canon) : KeepsOk Prod.snd (s.ioRead w rs a n) := by
  unfold State.ioRead
  split
  next e => exact h.readMem.ofPair e
  · trivial
  · trivial

theorem ioAtomic {w : Who} {rs : List HostResp} {a n k op : Nat} {os : List DWord} {f : Nat → Nat} (h : s.Canon) :
    KeepsOk Prod.snd (s.ioAtomic w rs a n k op os f) := by
  unfold State.ioAtomic
  split
  · exact h
  · trivial
  · split
    · trivial
    · split
      · trivial
      · exact (show State.Canon (State.homeWrite _ _ _ _ _) from h.homeRead.homeWrite)

theorem ioAdd {w : Who} {rs : List HostResp} {a x : Nat} (h : s.Canon) : KeepsOk Prod.snd (s.ioAdd w rs a x) := h.ioAtomic

theorem engRead {o : EngOp} {sp a n : Nat} (h : s.Canon) : KeepsOk Prod.snd (s.engRead o sp a n) := by
  unfold State.engRead
  dsimp only
  split
  · split
    · exact h
    · trivial
  · exact h.ioRead
  · split
    · trivial
    · exact h

theorem engWrite {o : EngOp} {sp a : Nat} {bs : List Byte} (h : s.Canon) : KeepsOk id (s.engWrite o sp a bs) := by
  unfold State.engWrite
  split
  · split
    · exact h.scratchWrite
    · trivial
  · exact h.ioWrite

theorem engWrites {o : EngOp} {sp : Nat} {rs : List (Nat × List Byte)} (h : s.Canon) : KeepsOk id (s.engWrites o sp rs) := by
  induction rs generalizing s with
  | nil => exact h
  | cons r rs ih =>
    unfold State.engWrites
    split
    · trivial
    next e => exact ih (h.engWrite.ok e)

theorem lineRead {o : EngOp} {sp b acc : Nat} {us : List Nat} (h : s.Canon) : KeepsOk Prod.snd (s.lineRead o sp b us acc) := by
  induction us generalizing s acc with
  | nil => exact h
  | cons u us ih =>
    unfold State.lineRead
    split
    · trivial
    next e => exact ih (h.engRead.ok e)

theorem linesRead {o : EngOp} {w : Nat} {r : List DWord} {ls : List (Nat × (Nat → Bool))} (h : s.Canon) :
    KeepsOk Prod.snd (s.linesRead o w r ls) := by
  induction ls generalizing s with
  | nil => exact h
  | cons l ls ih =>
    unfold State.linesRead
    split
    · trivial
    next e =>
      split
      · trivial
      next e' =>
        have hu := (ih (h.lineRead.ok e)).ok e'
        exact hu

theorem mmaGroup {o : EngOp} {m : MatOp} {g : Nat} (h : s.Canon) : KeepsOk Prod.snd (s.mmaGroup o m g) := by
  unfold State.mmaGroup
  extract_lets
  split
  · trivial
  next la u e =>
    have hu : u.Canon := by
      split at e
      · cases e; exact h
      · exact h.linesRead.ok e
    split
    · trivial
    next e => exact hu.linesRead.ok e

theorem mscaGroup {o : EngOp} {m : MatOp} {g : Nat} (h : s.Canon) : KeepsOk Prod.snd (s.mscaGroup o m g) := by
  unfold State.mscaGroup
  extract_lets
  split
  · trivial
  next e =>
    split
    · trivial
    next e' => exact (h.engRead.ok e).engRead.ok e'

theorem matGroup {o : EngOp} {m : MatOp} {g : Nat} (h : s.Canon) : KeepsOk id (s.matGroup o m g) := by
  unfold State.matGroup
  extract_lets commit
  have hc : ∀ (out : AccWrites) (u : State), u.Canon → (commit out u).Canon := fun _ _ hu => hu.accSets (f := fun x => x)
  clear_value commit
  refine .ite (hc _ _ h) (.ite ?_ (.ite ?_ h.engWrites)) <;> split
  · trivial
  next e => exact hc _ _ (h.mmaGroup.ok e)
  · trivial
  next e => exact hc _ _ (h.mscaGroup.ok e)

theorem matGroups {o : EngOp} {m : MatOp} {n g : Nat} (h : s.Canon) : KeepsOk id (s.matGroups o m n g) := by
  induction n generalizing s g with
  | zero => exact h
  | succ n ih =>
    unfold State.matGroups
    split
    · trivial
    next e => exact ih (h.matGroup.ok e)

theorem remoteCheck {b : Bool} {w : Nat} {d a c : BitVec 7} (h : s.Canon) : Settles (fun _ => s) (s.remoteCheck b w d a c) := by
  unfold State.remoteCheck
  extract_lets
  refine .ite h ?_
  split
  · exact h
  · split <;> exact h

theorem ringHeader {a : BitVec 7} (h : s.Canon) : Settles (fun _ => s) (s.ringHeader a) := .ite h (.ite h (.ite h h))

end
end State.Canon

/-! The meanings of the matrix instructions, and of those that hand work to engines or meet other strands (R42 to R46, R183,
R192 to R215, R338 to R355, R383 to R386, R394). -/

theorem maccCheck_left {s : State} {x : DWord} {p : Stop} (h : maccCheck s x = some p) : p.left = s := by
  unfold maccCheck at h
  split at h
  · cases h; rfl
  · split at h
    · cases h; rfl
    · split at h
      · cases h; rfl
      · cases h

namespace BodyKeeps

theorem mshpBody {d a b : BitVec 7} : BodyKeeps (mshpBody d a b) := by
  intro s h
  unfold Machine.mshpBody
  extract_lets
  split
  · exact h
  · exact h.wrS.wrS

theorem mmaBody {op : Nat} {d a b : BitVec 7} : BodyKeeps (mmaBody op d a b) := by
  intro s h
  unfold Machine.mmaBody
  extract_lets
  split
  · exact h
  · exact h.enterMat

theorem mzeroBody {a : BitVec 7} : BodyKeeps (mzeroBody a) := fun _ h => .ite h (.ite h h.enterMat)

theorem mstaBody {op : Nat} {a b : BitVec 7} : BodyKeeps (mstaBody op a b) := by
  intro s h
  refine .ite h (.ite h ?_)
  extract_lets
  split
  · exact h
  · exact h.enterMat

theorem maccRdBody {d a : BitVec 7} : BodyKeeps (maccRdBody d a) := by
  intro s h
  unfold Machine.maccRdBody
  extract_lets
  split
  next e => exact (congrArg State.Canon (maccCheck_left e)).mpr h
  · exact h.wrLanes

theorem maccWrBody {a b : BitVec 7} : BodyKeeps (maccWrBody a b) := by
  intro s h
  unfold Machine.maccWrBody
  extract_lets x
  split
  next e => exact (congrArg State.Canon (maccCheck_left e)).mpr h
  · refine .ret (State.Canon.setBlock h ?_ ?_)
    · exact (foldl_accSet_scratch (fun l => (dRow0 x, dCol0 x + l, s.lane b.toNat l)) _ _).symm ▸ (h.block _).1
    · exact foldl_accSet_wf (fun l => (dRow0 x, dCol0 x + l, s.lane b.toNat l)) _ _ (h.block _).2

theorem mwinBody {a b : BitVec 7} : BodyKeeps (mwinBody a b) := fun _ h =>
  .ite h (.ite h (.ite h (.ite h (.ite h (h.foldl fun _ _ h => h.setWarp)))))

theorem copyBody {v : Nat} {a : BitVec 7} : BodyKeeps (copyBody v a) := by
  intro s h
  unfold Machine.copyBody
  extract_lets
  split
  · exact h
  · exact h.enqueue

theorem copymBody {a b : BitVec 7} : BodyKeeps (copymBody a b) := by
  intro s h
  refine .ite h ?_
  extract_lets
  split
  · exact h
  · refine .ite h (.ite h ?_)
    split
    refine .ite h ?_
    split
    · exact h
    · exact .ite h h.enqueue

theorem collBody {g : Bool} {a : BitVec 7} : BodyKeeps (collBody g a) := fun _ h =>
  .ite h (.ite h (.ite h (.ite h (.ite h h.enqueue))))

theorem rldBody {d a b : BitVec 7} : BodyKeeps (rldBody d a b) := by
  intro s h
  unfold Machine.rldBody
  split
  next e => exact h.remoteCheck.stop e
  · extract_lets
    refine .ite (.ite h h) ?_
    split
    · exact h
    · exact h.wrLanes

theorem remoteBody {r : Bool} {d a b : BitVec 7} : BodyKeeps (remoteBody r d a b) := by
  intro s h
  unfold Machine.remoteBody
  split
  next e => exact h.remoteCheck.stop e
  · exact h.enqueue

theorem qfenceBody {imm : BitVec 14} : BodyKeeps (qfenceBody imm) := fun _ h => .ite h (.ite h h)

theorem abarArriveBody {d a : BitVec 7} : BodyKeeps (abarArriveBody d a) := by
  intro s h
  unfold Machine.abarArriveBody
  extract_lets
  split
  · exact h
  · split
    · exact h
    · exact .ret h.sending.releaseL1
    · extract_lets host
      clear_value host
      split
      · exact h.wrS
      · split
        · exact h
        next u _ _ _ _ =>
          have hu : u.Canon := .ite h.releaseL1 h
          split
          next e => exact (hu.updateLoc.ofPair e).wrS

theorem abarWaitBody {a b : BitVec 7} : BodyKeeps (abarWaitBody a b) := by
  intro s h
  unfold Machine.abarWaitBody
  extract_lets
  split
  · exact h
  · extract_lets half
    have hf : Settles (fun x => x.2.1) half := by
      unfold half
      split
      · split
        · split
          · exact h
          · exact h
          · exact h.sending
        · exact h.homeRead
      · exact h
      · exact h
    clear_value half
    split
    · exact hf
    next u _ =>
      have hu : u.Canon := hf
      refine .ite hu (.ite ?_ (.ret (.ite hu.acquireL1 hu)))
      split
      · exact hu.other
      · exact hu

theorem stgaBody {p : Bool} {d a : BitVec 7} : BodyKeeps (stgaBody p d a) := by
  intro s h
  unfold Machine.stgaBody
  split
  next e => exact h.ringHeader.stop e
  · exact .ite h (.ite h h.scratchWrite.wrS)

theorem stgrBody {p : Bool} {a b : BitVec 7} : BodyKeeps (stgrBody p a b) := by
  intro s h
  unfold Machine.stgrBody
  split
  next e => exact h.ringHeader.stop e
  · exact .ite h (.ite h (.ite h h.scratchWrite))

end BodyKeeps
end Sys2Proof.Machine
end

section
/-! Walks of a sparse voxel tree keep the canonical form, also where they stop. -/

namespace Sys2Proof.Machine

open Sys2Proof

/-- What a stop of a tree walk leaves of the state is canonical (R159). -/
def TreeStop.Kept : TreeStop → Prop
  | .bad _ _ _ u => u.Canon
  | _ => True

/-- A walk leaves a canonical state, whether it ends or stops. -/
def TreeKept {α : Type} : Tree α → Prop
  | .ok x => x.2.Canon
  | .error e => e.Kept

theorem TreeStop.Kept.left {e : TreeStop} {s : State} (he : e.Kept) (h : s.Canon) : (e.left s).Canon := by
  cases e with
  | bad _ _ _ u => exact he
  | _ => exact h

theorem TreeStop.Kept.worse {e e2 : TreeStop} (h : e.Kept) (h2 : e2.Kept) : (e.worse e2).Kept := by
  unfold TreeStop.worse
  split
  · split <;> exact h2
  · exact h2
  · exact h

theorem TreeKept.ok {α : Type} {r : Tree α} {a : α} {s : State} (h : TreeKept r) (e : r = .ok (a, s)) : s.Canon := by subst e; exact h
theorem TreeKept.stop {α : Type} {r : Tree α} {p : TreeStop} (h : TreeKept r) (e : r = .error p) : p.Kept := by subst e; exact h
theorem TreeKept.ret {α : Type} {a : α} {s : State} (h : s.Canon) : TreeKept (.ok (a, s)) := h
theorem TreeKept.ite {α : Type} {x y : Tree α} {c : Prop} [Decidable c] (hx : TreeKept x) (hy : TreeKept y) :
    TreeKept (if c then x else y) := by
  split <;> assumption

theorem treeStop_canon {s z : State} {k : WaitKind} {n : Nat} {es : List (Nat × TreeStop)} (h : s.Canon) (hz : z.Canon) :
    (treeStop s z k n es).left.Canon := by
  unfold treeStop
  extract_lets
  split
  · exact h
  · split
    · split
      · exact h
      · exact h
    · exact (congrArg State.Canon (memStop_left z _ _)).mpr hz

theorem EngErr.tree_kept {s : State} {e : EngErr} (h : s.Canon) : (e.tree s).Kept := by
  cases e with
  | bad => exact h
  | ask => trivial

theorem insertStop_canon {s : State} {r : Insert} {e : TreeStop} (h : s.Canon) : (insertStop s r e).left.Canon := by
  unfold insertStop
  extract_lets _ u
  have hu : u.Canon := h.other
  clear_value u
  split
  · split
    · exact hu
    · exact hu
  · exact hu
  · exact (congrArg State.Canon (memStop_left u _ _)).mpr hu

/-- Lanes one after the other, each of which leaves a canonical state. -/
theorem runLanes_canon {α : Type} {f : Nat → State → Tree α} {ls : List Nat} {s : State} (h : s.Canon)
    (hf : ∀ l s, s.Canon → TreeKept (f l s)) : (runLanes f ls s).2.2.Canon := by
  induction ls generalizing s with
  | nil => exact h
  | cons l r ih =>
    unfold runLanes
    split
    next e => exact ih ((hf l s h).ok e)
    next e => exact ih (((hf l s h).stop e).left h)

theorem quietLane_kept {α : Type} {f : Nat → State → Tree α} {l : Nat} {s : State} (h : s.Canon) (hf : TreeKept (f l s)) :
    TreeKept (quietLane f l s) := by
  unfold quietLane
  split
  · exact h
  · exact hf

theorem treePoints_kept {α : Type} {f : Int × Int × Int → State → Tree α} {ps : List (Int × Int × Int)} {s : State} (h : s.Canon)
    (hf : ∀ p s, s.Canon → TreeKept (f p s)) : TreeKept (treePoints f ps s) := by
  induction ps generalizing s with
  | nil => exact h
  | cons p r ih =>
    unfold treePoints
    split
    next x e =>
      have hx := (hf p s h).stop e
      split
      next e' => exact hx.worse ((ih (hx.left h)).stop e')
      next e' =>
        have hu := (ih (hx.left h)).ok e'
        cases x with
        | bad _ _ _ _ => exact hu
        | _ => trivial
    next e =>
      have hu := (hf p s h).ok e
      split
      next e' => exact (ih hu).stop e'
      next e' => exact (ih hu).ok e'

namespace State.Canon

section
variable {s t : State}

theorem ofTriple {α β : Type} {x : α × β × State} {a : α} {b : β} (h : x.2.2.Canon) (e : x = (a, b, t)) : t.Canon := by
  subst e; exact h

/-! Walks of a sparse voxel tree (R216 to R223, R234, R236). -/

theorem treeBytes {w : Who} {i p n : Nat} (h : s.Canon) : TreeKept (s.treeBytes w i p n) := by
  unfold State.treeBytes
  split
  next e => exact h.readMem.ofPair e
  next e => exact h.readMem.ofPair e
  · trivial

theorem treeRead {w : Who} {p n : Nat} (h : s.Canon) : TreeKept (s.treeRead w p n) := by
  unfold State.treeRead
  split
  next e => exact h.treeBytes.ok e
  next e => exact h.treeBytes.stop e

theorem treeBit {w : Who} {p i : Nat} (h : s.Canon) : TreeKept (s.treeBit w p i) := by
  unfold State.treeBit
  split
  next e => exact h.treeRead.ok e
  next e => exact h.treeRead.stop e

theorem checkLeafNode {w : Who} {u : Nat × Nat × Nat} {p : Nat} (h : s.Canon) : TreeKept (s.checkLeafNode w u p) := by
  unfold State.checkLeafNode
  split
  next e _ _ => exact .ite (h.treeRead.ok e) (h.treeRead.ok e)
  next e => exact h.treeRead.stop e
  next e _ => exact h.treeRead.stop e
  next e _ _ => exact h.treeRead.stop e

theorem descend {w : Who} {d : TreeHead} {u : Nat × Nat × Nat} {lv n : Nat} (h : s.Canon) : TreeKept (s.descend w d u lv n) := by
  induction lv generalizing s n with
  | zero => exact h.checkLeafNode
  | succ lv ih =>
    unfold State.descend
    extract_lets
    split
    next e => exact h.treeBit.stop e
    next e =>
      have hu := h.treeBit.ok e
      split
      next e' => exact hu.treeRead.stop e'
      next e' => exact .ite (hu.treeRead.ok e') (ih (hu.treeRead.ok e'))
    next e =>
      have hu := h.treeBit.ok e
      split
      next e' => exact hu.treeBit.stop e'
      next e' => exact hu.treeBit.ok e'
      next e' =>
        have hv := hu.treeBit.ok e'
        split
        next e'' => exact hv.treeRead.stop e''
        next e'' => exact hv.treeRead.ok e''

theorem leafKeep {w : Who} {d : Nat} {o : Nat × Nat × Nat} {x p : Nat} (h : s.Canon) : (s.leafKeep w d o x p).Canon :=
  .ite h h.setCluster

theorem resolveVox {w : Who} {d x : Nat} {u : Option (Nat × Nat × Nat)} (h : s.Canon) : TreeKept (s.resolveVox w d x u) := by
  unfold State.resolveVox
  extract_lets
  split
  · exact h
  · split
    · exact h.checkLeafNode
    · split
      next e => exact h.descend.stop e
      next e =>
        have hu := h.descend.ok e
        exact .ret (.ite hu.leafKeep hu)

theorem voxValue {w : Who} {d : TreeHead} {v : Vox} (h : s.Canon) : TreeKept (s.voxValue w d v) := by
  refine .ite h ?_
  split
  next e => exact h.treeBit.stop e
  next e => exact h.treeBit.ok e
  next e => exact (h.treeBit.ok e).treeRead

theorem treeOpen {w : Who} {d n : Nat} {f : TreeHead → List (Option (Nat × Nat × Nat))} (h : s.Canon) :
    Settles Prod.snd (s.treeOpen w d n f) := by
  unfold State.treeOpen
  extract_lets cached hit
  clear_value hit cached
  split
  · exact h
  · split
    · exact settles_memStop h
    · exact h
    · exact h
    next e =>
      have hu := h.treeBytes.ok e
      exact .ite h (.pair hu.acquireL1)

theorem treeLanes {α : Type} {n : Nat} {k : WaitKind} {f : Nat → State → Tree α} (h : s.Canon)
    (hf : ∀ l s, s.Canon → TreeKept (f l s)) : Settles Prod.snd (s.treeLanes n k f) := by
  have hr := runLanes_canon (ls := lanesOf s.activeReal) h hf
  unfold State.treeLanes
  split
  next e =>
    have hq := runLanes_canon (ls := lanesOf (s.active &&& s.cw.helpers)) (hr.ofTriple e) fun l s h => quietLane_kept h (hf l s h)
    dsimp only
    split
    · exact hq
    · exact h
  next e => exact treeStop_canon h (hr.ofTriple e)

theorem voxLanes {α : Type} {n : Nat} {f : Nat → State → Tree α} {g : Nat → α} (h : s.Canon)
    (hf : ∀ l s, s.Canon → TreeKept (f l s)) : Settles Prod.snd (s.voxLanes n f g) := by
  have hr := runLanes_canon (ls := lanesOf s.activeReal) h hf
  unfold State.voxLanes
  split
  next e => exact hr.ofTriple e
  next e => exact treeStop_canon h (hr.ofTriple e)

theorem leafAccess {b : Bool} {p n : Nat} {e : TreeStop} (h : s.Canon) (he : s.leafAccess b p n = .error e) : e.Kept := by
  unfold State.leafAccess at he
  split at he
  · cases he
  · cases he
    exact State.Canon.ite h.markDiscarded h

theorem allocPiece {w : Who} {p n : Nat} {e : TreeStop} (h : s.Canon) (he : s.allocPiece w p n = .error e) : e.Kept := by
  unfold State.allocPiece at he
  split at he
  · cases he
  · cases he
    exact h

theorem treeWrite {w : Who} {p : Nat} {bs : List Byte} (h : s.Canon) : TreeKept (s.treeWrite w p bs) := by
  unfold State.treeWrite
  split
  next e => exact h.ioWrite.ok e
  · exact EngErr.tree_kept h

theorem treeAtomic {w : Who} {p op a : Nat} {f : Nat → Nat} (h : s.Canon) : TreeKept (s.treeAtomic w p op a f) := by
  unfold State.treeAtomic
  split
  next e => exact h.allocPiece e
  · split
    · trivial
    · dsimp only
      exact .ret h.homeRead.homeWrite

theorem insertFrom {w : Who} {desc pb pe : Nat} {d : TreeHead} {u : Nat × Nat × Nat} {lv n c : Nat} (h : s.Canon) :
    TreeKept (s.insertFrom w desc d pb pe u lv n c) := by
  induction lv generalizing s n c with
  | zero =>
    unfold State.insertFrom
    split
    next e => exact h.checkLeafNode.ok e
    next e => exact h.checkLeafNode.stop e
  | succ lv ih =>
    unfold State.insertFrom
    extract_lets
    split
    next e => exact h.treeBit.stop e
    next e =>
      have hu := h.treeBit.ok e
      split
      next e' => exact hu.treeRead.stop e'
      next e' => exact .ite (hu.treeRead.ok e') (ih (hu.treeRead.ok e'))
    next free _ _ e =>
      have hu := h.treeBit.ok e
      have hfree : ∀ v : State, v.Canon → TreeKept (free v) := fun v hv => hv.treeAtomic
      split
      next e' => exact hu.treeAtomic.stop e'
      next e' =>
        have h1 := hu.treeAtomic.ok e'
        split
        · trivial
        · split
          next e2 => exact h1.treeAtomic.stop e2
          next e2 =>
            have h2 := h1.treeAtomic.ok e2
            split
            · split
              next e3 => exact (hfree _ h2).ok e3
              next e3 => exact (hfree _ h2).stop e3
            · split
              next s3 _ e3 =>
                have h3 := h2.treeRead.ok e3
                extract_lets
                generalize e4 : s3.treeWrite w _ _ = r4
                obtain _ | ⟨_, s4⟩ := r4
                · exact h3.treeWrite.stop e4
                have h4 := h3.treeWrite.ok e4
                dsimp only
                generalize e5 : s4.treeWrite w _ _ = r5
                obtain _ | ⟨_, s5⟩ := r5
                · exact h4.treeWrite.stop e5
                have h5 := h4.treeWrite.ok e5
                have h6 : State.Canon (if w.fab then s5 else s5.releaseL1 w.core) := .ite h5 h5.releaseL1
                dsimp only
                generalize (if w.fab then s5 else s5.releaseL1 w.core) = s6 at h6 ⊢
                split
                next e6 => exact h6.treeAtomic.stop e6
                next e6 =>
                  have h7 := h6.treeAtomic.ok e6
                  split
                  next e7 => exact (hfree _ h7).stop e7
                  next e7 => exact ih ((hfree _ h7).ok e7)
              next e3 => exact h2.treeBit.stop e3
              next e3 _ => exact h2.treeRead.stop e3

theorem tinsMarks {w : Who} {d : TreeHead} {f : Nat → Option (Nat × Nat × Nat)} {ls : List Nat} (h : s.Canon) :
    (s.tinsMarks w d f ls).Canon := by
  refine runLanes_canon h fun l s h => ?_
  split
  · exact h
  · split
    next e => exact h.descend.ok e
    next e => exact h.descend.stop e

theorem heard (h : s.Canon) : s.heard.Canon := h.other

theorem insRead {w : Who} {p n : Nat} (h : s.Canon) : TreeKept (s.insRead w p n) := by
  unfold State.insRead
  split
  next e => exact (h.treeRead.ok e).heard
  next e => exact h.treeRead.stop e

theorem insAtomic {w : Who} {p op a : Nat} {f : Nat → Nat} (h : s.Canon) : TreeKept (s.insAtomic w p op a f) := by
  unfold State.insAtomic
  split
  next e => exact (h.ioAtomic.ok e).heard
  · exact EngErr.tree_kept h

theorem insWrite {w : Who} {p : Nat} {bs : List Byte} (h : s.Canon) : TreeKept (s.insWrite w p bs) := by
  unfold State.insWrite
  split
  next e => exact (h.ioWrite.ok e).heard
  · exact EngErr.tree_kept h

end
end State.Canon
end Sys2Proof.Machine
end

section
/-! The voxel instructions keep the canonical form. -/

namespace Sys2Proof.Machine

open Sys2Proof

namespace State.Canon

section
variable {s t : State}

/-! An insertion access by access (R231, R321). -/

theorem insertStep {w : Who} {d : Nat} {u : Nat × Nat × Nat} {r : Insert} (h : s.Canon) : TreeKept (s.insertStep w d u r) := by
  have hr : ∀ p n, TreeKept (s.insRead w p n) := fun _ _ => h.insRead
  have ha : ∀ p o a f, TreeKept (s.insAtomic w p o a f) := fun _ _ _ _ => h.insAtomic
  have hw : ∀ p bs, TreeKept (s.insWrite w p bs) := fun _ _ => h.insWrite
  unfold State.insertStep
  extract_lets dd fmt i c bit child lock step isSet free
  have hfree : TreeKept free := ha ..
  clear_value free
  split
  · split
    next e => exact (hr ..).stop e
    next e => exact .ite (.ret ((hr ..).ok e)) ((hr ..).ok e)
  · split
    · split
      next e => exact (hr ..).stop e
      next e => exact .ret (.ite ((hr ..).ok e).acquireL1 ((hr ..).ok e))
    · split
      next e => exact (hr ..).stop e
      next e => exact .ite ((hr ..).ok e) (.ret ((hr ..).ok e))
    · split
      next e => exact (ha ..).stop e
      next e => exact .ret ((ha ..).ok e)
    · split
      next e => exact (hr ..).stop e
      next e => exact .ret (.ite ((hr ..).ok e).acquireL1 ((hr ..).ok e))
    · split
      next e => exact (ha ..).stop e
      next e => exact .ret ((ha ..).ok e)
    · split
      next e => exact (hr ..).stop e
      next e => exact .ret ((hr ..).ok e)
    · split
      next e => exact (hr ..).stop e
      next e => exact .ret ((hr ..).ok e)
    · split
      next e => exact (hw ..).stop e
      next e => exact .ret ((hw ..).ok e)
    · split
      next e => exact (hw ..).stop e
      next e => exact .ret (.ite ((hw ..).ok e) ((hw ..).ok e).releaseL1)
    · split
      next e => exact (ha ..).stop e
      next e => exact .ret ((ha ..).ok e)
    · split
      · exact hfree
      · exact .ret hfree
    · split
      · exact hfree
      · exact .ret hfree
    · split
      · exact hfree
      · exact .ret hfree

theorem insertGo {w : Who} {d : Nat} {f : Nat → Option (Nat × Nat × Nat)} {n : Nat} {r : Insert} (h : s.Canon) :
    Settles Prod.snd (State.insertGo w d f n r s) := by
  induction n generalizing s r with
  | zero => exact insertStop_canon h
  | succ n ih =>
    unfold State.insertGo
    split
    · exact h
    · split
      · exact ih h
      · split
        · exact insertStop_canon h
        next e => exact .ite (insertStop_canon (h.insertStep.ok e)) (ih (h.insertStep.ok e))

theorem tinsOpen {b : BitVec 7} (h : s.Canon) : Settles Prod.snd (tinsOpen b s) := by
  unfold Machine.tinsOpen
  extract_lets
  refine .ite h (.ite h ?_)
  split
  · exact settles_memStop h
  · exact h
  · exact h
  next e => exact .ite h (.pair (h.treeBytes.ok e).acquireL1)

theorem tinsPut {d : BitVec 7} {xs : List (Nat × Nat × Nat × Nat)} (h : t.Canon) : (tinsPut d s xs t).Canon :=
  h.wrLanes.wrLanes.wrLanes

theorem tinsFind {a b : BitVec 7} (h : s.Canon) : Settles Prod.snd (tinsFind a b s) := by
  unfold Machine.tinsFind
  split
  next e => exact h.tinsOpen.stop e
  next dd s1 e =>
    have h1 := h.tinsOpen.ok e
    extract_lets d w pb
    have hr : ∀ l (u : State), u.Canon → TreeKept (quietLane (fun l s => match s.tinsVox a d l with
        | none => .ok ((3, 0, 0), s)
        | some u => s.insertFrom w (descOf (s.rdS b.toNat)) d pb (field dd 320 64) u 3 d.root 0) l u) := by
      refine fun l u hu => quietLane_kept hu ?_
      split
      · exact hu
      · exact hu.insertFrom
    split
    next e' => exact (runLanes_canon h1 hr).ofTriple e'
    · exact treeStop_canon h h1.tinsMarks

theorem tinsGo {u : State} {d a b : BitVec 7} {r : Insert} (h : s.Canon) : Settles id (tinsGo d a b u r s) := by
  unfold Machine.tinsGo
  split
  next e => exact h.insertGo.stop e
  next e => exact (h.insertGo.ok e).tinsPut

theorem tinsStart {d a b : BitVec 7} {n : Nat} (h : s.Canon) (ht : t.Canon) : Settles id (tinsStart d a b s n t) :=
  .ite (treeStop_canon h ht.tinsMarks) ht.heard.tinsGo

/-! A ray's way and the active leaves (R234, R236). -/

theorem walkNode {w : Who} {r : Ray} {d : TreeHead} {lv n : Nat} {o : List Nat} {b : Option Cell} (h : s.Canon) :
    TreeKept (s.walkNode w r d lv n o b) := by
  induction lv generalizing s n o b with
  | zero => exact h
  | succ lv ih =>
    unfold State.walkNode
    extract_lets c
    split
    next e => exact h.treeBytes.stop e
    next e =>
      refine List.foldlRecOn (motive := TreeKept) _ _ (h.treeBytes.ok e) fun acc ha x _ => ?_
      split
      · exact ha
      next u =>
        have hu : u.Canon := ha
        refine .ite hu (.ite ?_ ?_)
        · split
          next e => exact hu.treeRead.stop e
          next e =>
            have hv := hu.treeRead.ok e
            refine .ite hv (.ite ?_ (ih hv))
            extract_lets
            split
            next e => exact hv.checkLeafNode.stop e
            next e =>
              split
              next e' => exact (hv.checkLeafNode.ok e).treeBytes.stop e'
              next e' => exact (hv.checkLeafNode.ok e).treeBytes.ok e'
        · split
          next e => exact hu.treeRead.stop e
          next e => exact hu.treeRead.ok e

theorem activeLeaves {w : Who} {lv n : Nat} {o : List Nat} (h : s.Canon) : TreeKept (s.activeLeaves w lv n o) := by
  induction lv generalizing s n o with
  | zero =>
    unfold State.activeLeaves
    split
    next e => exact h.checkLeafNode.stop e
    next e =>
      split
      next e' => exact (h.checkLeafNode.ok e).treeBytes.stop e'
      next e' => exact (h.checkLeafNode.ok e).treeBytes.ok e'
  | succ lv ih =>
    unfold State.activeLeaves
    extract_lets c
    split
    next e => exact h.treeBytes.stop e
    next e =>
      refine List.foldlRecOn (motive := TreeKept) _ _ (h.treeBytes.ok e) fun acc ha x _ => ?_
      split
      · exact ha
      next u =>
        have hu : u.Canon := ha
        split
        next e => exact hu.treeRead.stop e
        next e =>
          have hv := hu.treeRead.ok e
          refine .ite hv ?_
          split
          next e => exact (ih hv).stop e
          next e => exact (ih hv).ok e

theorem enumerate {w : Who} {d : Nat} (h : s.Canon) : TreeKept (s.enumerate w d) := by
  unfold State.enumerate
  split
  next e => exact h.treeBytes.stop e
  next e =>
    have hu := h.treeBytes.ok e
    refine .ite hu ?_
    split
    next e => exact hu.activeLeaves.stop e
    next e => exact hu.activeLeaves.ok e

/-! What the voxel instructions find (R226 to R236). -/

theorem tlookFind {a b : BitVec 7} (h : s.Canon) : Settles Prod.snd (tlookFind a b s) := by
  unfold Machine.tlookFind
  extract_lets
  refine .ite h ?_
  split
  next e => exact h.treeOpen.stop e
  next e =>
    refine (h.treeOpen.ok e).voxLanes fun l u hu => ?_
    split
    next e => exact hu.resolveVox.stop e
    next e =>
      have hv := hu.resolveVox.ok e
      refine .ite hv ?_
      split
      next e => exact hv.treeBit.stop e
      next e =>
        have hx := hv.treeBit.ok e
        split
        next e => exact hx.treeBit.stop e
        next e => exact hx.treeBit.ok e

theorem vldnFind {f : DWord → List (Int × Int × Int)} {l g : Bool} {d a b : BitVec 7} (h : s.Canon) :
    Settles Prod.snd (vldnFind f l g d a b s) := by
  unfold Machine.vldnFind
  extract_lets
  refine .ite h (.ite h ?_)
  split
  next e => exact h.treeOpen.stop e
  next e =>
    have h1 := h.treeOpen.ok e
    extract_lets
    refine .ite h (.ite h ?_)
    generalize e0 : State.voxLanes _ _ _ _ = r
    have hr : Settles Prod.snd r := by
      rw [← e0]
      refine h1.voxLanes fun l u hu => treePoints_kept hu fun p v hv => ?_
      split
      next e => exact hv.resolveVox.stop e
      next e =>
        split
        next e' => exact (hv.resolveVox.ok e).voxValue.stop e'
        next e' => exact (hv.resolveVox.ok e).voxValue.ok e'
    split
    next => exact hr
    next => exact other hr

theorem vldnPut {f : DWord → List (Int × Int × Int)} {d b : BitVec 7} {x : Nat × Nat × List (Nat × List (Nat × Vox))}
    (h : t.Canon) : (vldnPut f d b s x t).Canon :=
  h.foldl fun _ _ h => .ite h.wrLanes h.wrPair

theorem vstvFind {d a b : BitVec 7} (h : s.Canon) : Settles Prod.snd (vstvFind d a b s) := by
  unfold Machine.vstvFind
  extract_lets _ _ at_
  refine .ite h ?_
  split
  next e => exact h.treeOpen.stop e
  next e =>
    have h1 := h.treeOpen.ok e
    extract_lets
    refine .ite h (.ite h ?_)
    generalize e0 : runLanes _ _ _ = x
    have hx : x.2.2.Canon := by
      rw [← e0]
      refine runLanes_canon h1 fun l u hu => ?_
      split
      · exact hu
      · split
        next e => exact hu.resolveVox.stop e
        next e =>
          have hv := hu.resolveVox.ok e
          refine .ite hv ?_
          split
          next p e =>
            have he : p.Kept := hv.leafAccess e
            split
            next e2 => exact he.worse ((he.left hv).leafAccess e2)
            next =>
              cases p with
              | bad _ _ _ u => exact touchLocs he
              | _ => trivial
          next =>
            split
            next e2 => exact hv.touchLocs.leafAccess e2
            next => exact hv.touchLocs
    clear e0
    split
    next =>
      extract_lets
      exact .ite (treeStop_canon h.sending hx) hx
    next => exact treeStop_canon h hx

theorem tactFind {set : Bool} {a b : BitVec 7} (h : s.Canon) : Settles Prod.snd (tactFind set a b s) := by
  unfold Machine.tactFind
  extract_lets _ _ at_
  refine .ite h (.ite h ?_)
  split
  next e => exact h.treeOpen.stop e
  next e =>
    have h1 := h.treeOpen.ok e
    extract_lets
    generalize e0 : runLanes _ _ _ = x
    have hx : x.2.2.Canon := by
      rw [← e0]
      refine runLanes_canon h1 fun l u hu => ?_
      split
      next e => exact hu.resolveVox.stop e
      next e =>
        have hv := hu.resolveVox.ok e
        refine .ite hv (.ite hv ?_)
        split
        next => exact hv.touchLocs
        next e => exact hv.leafAccess e
    clear e0
    split
    next =>
      extract_lets
      exact .ite (treeStop_canon h.sending hx) hx
    next => exact treeStop_canon h hx

theorem tactPut {set : Bool} {d : BitVec 7} {xs : List (Nat × Nat × Nat × Option Loc)} (h : t.Canon) :
    (tactPut set d s xs t).Canon := by
  unfold Machine.tactPut
  exact h.updateLanes.wrLanes

theorem tlookPut {d : BitVec 7} {xs : List (Nat × Nat × Nat)} (h : t.Canon) : (tlookPut d s xs t).Canon :=
  h.wrLanes.wrLanes.wrLanes

theorem twalkFind {a b : BitVec 7} (h : s.Canon) : Settles Prod.snd (twalkFind a b s) := by
  unfold Machine.twalkFind
  extract_lets
  refine .ite h ?_
  split
  next e => exact h.treeOpen.stop e
  next e =>
    extract_lets
    refine (h.treeOpen.ok e).voxLanes fun l u hu => ?_
    extract_lets
    refine .ite hu ?_
    split
    next e => exact hu.walkNode.stop e
    next e => exact hu.walkNode.ok e
    next e => exact hu.walkNode.ok e

theorem twalkPut {d : BitVec 7} {xs : List (Nat × Nat × Nat × Nat × Nat)} (h : t.Canon) : (twalkPut d s xs t).Canon :=
  h.wrLanes.wrLanes.wrLanes.wrLanes.wrLanes

end
end State.Canon

/-! The meanings of the voxel instructions. -/

namespace BodyKeeps

theorem tlookBody {d a b : BitVec 7} : BodyKeeps (tlookBody d a b) := by
  intro s h
  unfold Machine.tlookBody
  split
  next e => exact h.tlookFind.stop e
  next e => exact (h.tlookFind.ok e).tlookPut

theorem vldnBody {f : DWord → List (Int × Int × Int)} {l g : Bool} {d a b : BitVec 7} : BodyKeeps (vldnBody f l g d a b) := by
  intro s h
  unfold Machine.vldnBody
  split
  next e => exact h.vldnFind.stop e
  next e => exact (h.vldnFind.ok e).vldnPut

theorem vstvBody {d a b : BitVec 7} : BodyKeeps (vstvBody d a b) := by
  intro s h
  unfold Machine.vstvBody
  split
  next e => exact h.vstvFind.stop e
  next e => exact (h.vstvFind.ok e).foldl fun _ _ h => h.storeLoc.updateLanes

theorem tactBody {set : Bool} {d a b : BitVec 7} : BodyKeeps (tactBody set d a b) := by
  intro s h
  unfold Machine.tactBody
  split
  next e => exact h.tactFind.stop e
  next e => exact (h.tactFind.ok e).tactPut

theorem tinsBody {d a b : BitVec 7} : BodyKeeps (tinsBody d a b) := by
  intro s h
  unfold Machine.tinsBody
  split
  · exact h.tinsGo
  · split
    next e => exact (h.tinsFind.ok e).tinsPut
    next e =>
      refine .ite (h.tinsFind.stop e) ?_
      split
      next e' => exact h.tinsOpen.stop e'
      next e' => exact h.tinsStart (h.tinsOpen.ok e')
    next e => exact h.tinsFind.stop e

theorem twalkBody {d a b : BitVec 7} : BodyKeeps (twalkBody d a b) := by
  intro s h
  unfold Machine.twalkBody
  split
  next e => exact h.twalkFind.stop e
  next e => exact (h.twalkFind.ok e).twalkPut

end BodyKeeps
end Sys2Proof.Machine
end

section
/-! The sampler keeps the canonical form. -/

namespace Sys2Proof.Machine

open Sys2Proof

namespace State.Canon

section
variable {s t : State}

/-! Tables, slots and samples (R246 to R254). -/

theorem lineReadBy {u o p n : Nat} (h : s.Canon) : TreeKept (s.lineReadBy u o p n) := by
  unfold State.lineReadBy
  extract_lets
  split
  · exact h
  · split
    · exact h
    · split
      · exact h
      · exact .ite trivial (.ret h.loadBytes)
      · exact h

theorem lineRead8 {o p n : Nat} (h : s.Canon) : TreeKept (s.lineRead8 o p n) := h.lineReadBy

theorem tableLines {p k i : Nat} (h : s.Canon) : TreeKept (s.tableLines p k i) := by
  induction k generalizing s i with
  | zero => exact h
  | succ k ih =>
    unfold State.tableLines
    split
    · split
      · trivial
      next e => exact (ih h).stop e
      · trivial
    next e => exact h.lineRead8.stop e
    next e =>
      split
      next e' => exact (ih (h.lineRead8.ok e)).stop e'
      next e' => exact (ih (h.lineRead8.ok e)).ok e'

theorem setSlot {b n : Nat} {x : TexSlot} (h : s.Canon) : (s.setBlock b ((s.block b).setSlot n x)).Canon := h.blockKept rfl rfl

theorem sampleLane {g : Bool} {d : TexDesc} {n : Nat} {u v : Word} (h : s.Canon) : TreeKept (s.sampleLane g d n u v) := by
  unfold State.sampleLane
  split
  · exact h
  · generalize e0 : treePoints _ _ _ = r
    have hr : TreeKept r := by
      rw [← e0]
      exact treePoints_kept h fun _ _ hu => hu.lineRead8
    clear e0
    split
    · exact hr
    · exact hr

theorem txsFind {g : Bool} {a b : BitVec 7} (h : s.Canon) : Settles Prod.snd (txsFind g a b s) := by
  unfold Machine.txsFind
  extract_lets
  refine .ite h ?_
  split
  · exact h
  · refine .ite h ?_
    extract_lets u
    have hu : u.Canon := .ite h h.setSlot
    clear_value u
    refine .ite hu ?_
    split
    · exact hu
    next e => exact settles_memStop hu
    · exact hu
    next e =>
      refine .ite hu ?_
      have hv := hu.lineRead8.ok e
      extract_lets
      generalize e0 : State.treeLanes _ _ _ _ = r
      have hr : Settles Prod.snd r := by
        rw [← e0]
        exact hv.treeLanes fun _ _ hx => hx.sampleLane
      clear e0
      split
      · exact hr
      · exact .ite hu hr

theorem txsPut {d : BitVec 7} {xs : List (Nat × List Nat)} (h : t.Canon) : (txsPut d s xs t).Canon :=
  h.foldl fun _ _ h => h.wrLanes

end
end State.Canon

namespace BodyKeeps

theorem txbBody {a i : BitVec 7} : BodyKeeps (txbBody a i) := by
  intro s h
  unfold Machine.txbBody
  extract_lets
  refine .ite h ?_
  split
  · exact h
  · exact h
  · exact h
  next e =>
    have hu := h.tableLines.ok e
    exact .ite h (.ite hu.setSlot (State.Canon.other hu))

theorem txsBody {g : Bool} {d a b : BitVec 7} : BodyKeeps (txsBody g d a b) := by
  intro s h
  unfold Machine.txsBody
  split
  next e => exact h.txsFind.stop e
  next e => exact (h.txsFind.ok e).txsPut

end BodyKeeps
end Sys2Proof.Machine
end

section
/-! Rendering, Riddle jobs and work made on the device keep the canonical form. -/

namespace Sys2Proof.Machine

open Sys2Proof

theorem KeepsOk.jobIo {α : Type} {st : α → State} {x : Except EngErr α} (h : KeepsOk st x) : KeepsOk st (jobIo x) := by
  unfold Machine.jobIo
  split
  · exact h
  · trivial
  · trivial

/-- An answer put beside the state. -/
theorem KeepsOk.answered {ε α : Type} {r : Except ε State} (h : KeepsOk id r) (a : α) :
    KeepsOk Prod.snd (r.map (fun s => (a, s))) := by
  cases r with
  | ok s => exact h
  | error e => trivial

namespace State.Canon

section
variable {s t : State}

/-! Draws (R256 to R263). -/

theorem drawOpen {b : BitVec 7} {dfr : Bool} (h : s.Canon) : Settles (fun x => x.2.2) (s.drawOpen b dfr) := by
  unfold State.drawOpen
  extract_lets
  refine .ite h ?_
  split
  next e a _ _ =>
    cases dfr with
    | false => exact h
    | true => exact settles_memStop h
  · exact h
  · exact h
  next e => exact .ite h (h.lineRead8.ok e)

theorem setDraw {d k : Nat} {x : Draw} (h : s.Canon) : (s.setDraw d k x).Canon := h.dieKept rfl

theorem drawFault {d k i : Nat} {p : Prim} {e : Err} {a : Nat} (h : s.Canon) : (s.drawFault d k i p e a).Canon := by
  unfold State.drawFault
  split
  · exact h
  · exact .ite h.setWarp.setDraw.other h.setDraw.logError

theorem drawAsk {d k : Nat} {as : List HostAsk} (h : s.Canon) : (s.drawAsk d k as).Canon := by
  unfold State.drawAsk
  split
  · exact h
  · exact h.markAsks.sendAsks.setDraw

theorem drawCount {w : Who} {rs : List HostResp} {n : Nat} {l : List (Nat × Nat)} (h : s.Canon) :
    KeepsOk id (s.drawCount w rs n l) := by
  induction l generalizing s with
  | nil => exact h
  | cons x r ih =>
    unfold State.drawCount
    refine .ite (ih h) ?_
    split
    · trivial
    next e => exact ih (h.ioAdd.ok e)

theorem binNext {d k : Nat} (h : s.Canon) : (s.binNext d k).1.Canon := by
  unfold State.binNext
  split
  · exact h
  · split
    · exact h
    · split
      · exact h
      · split
        · exact h
        · extract_lets who dv fail put n
          have hfail : ∀ e, (fail e).1.Canon := fun e => by
            cases e with
            | bad => exact h.drawFault
            | ask => exact h.drawAsk
          have hput : ∀ u ps us fl, State.Canon u → (put u ps us fl).Canon := fun _ _ _ _ hu => hu.setDraw
          clear_value fail put
          split
          · split
            · exact hfail _
            next e => exact hput _ _ _ _ (h.drawCount.ok e)
          · split
            · split
              · exact hfail _
              next e => exact hput _ _ _ _ (h.drawCount.ok e)
            · split
              · exact hput _ _ _ _ h
              · split
                · split <;> exact hput _ _ _ _ h
                · split
                  · exact hfail _
                  next e => exact hput _ _ _ _ (h.ioWrite.ok e)

theorem binAll {d k n : Nat} (h : s.Canon) : (s.binAll d k n).Canon := by
  induction n generalizing s with
  | zero => exact h
  | succ n ih =>
    unfold State.binAll
    split
    next e => exact ih (h.binNext.ofFst e)
    next e => exact h.binNext.ofFst e

theorem visWrites {w : Who} {rs : List HostResp} {d key : Nat} {i : DWord} {l : List (Nat × Nat × Nat × Nat)} (h : s.Canon) :
    KeepsOk id (s.visWrites w rs d key i l) := by
  induction l generalizing s with
  | nil => exact h
  | cons x r ih =>
    unfold State.visWrites
    split
    · trivial
    next e => exact ih (h.ioAtomic.ok e)

theorem visBin {w : Who} {rs : List HostResp} {d : Nat} {bin : Nat × Nat} {l : List (Nat × Prim)} (h : s.Canon) :
    KeepsOk Prod.snd (s.visBin w rs d bin l) := by
  induction l generalizing s with
  | nil => exact h
  | cons x r ih =>
    unfold State.visBin
    extract_lets
    split
    · trivial
    next e =>
      split
      · trivial
      next e' => exact .pair ((ih (h.visWrites.ok e)).ok e')

theorem rasterBin {d k : Nat} {x : Draw} {bin : Nat × Nat} (h : s.Canon) : (s.rasterBin d k x bin).Canon := by
  unfold State.rasterBin
  extract_lets who dv idx fail
  have hfail : ∀ i e, (fail i e).Canon := fun i e => by
    cases e with
    | bad =>
      dsimp only [fail]
      split
      · exact h.drawFault
      · exact h
    | ask => exact h.drawAsk
  clear_value fail
  split
  · exact hfail _ _
  next e =>
    extract_lets
    split
    · exact hfail _ _
    next e' => exact ((h.visBin.ok e).drawCount.ok e').setDraw

theorem rasterNext {d k : Nat} (h : s.Canon) : (s.rasterNext d k).Canon := by
  unfold State.rasterNext
  split
  · exact h
  · refine .ite h (.ite h.binAll ?_)
    split
    · exact h
    · exact h.rasterBin

theorem vbrdFind {a b : BitVec 7} (h : s.Canon) : Settles Prod.snd (vbrdFind a b s) := by
  unfold Machine.vbrdFind
  split
  next e => exact h.drawOpen.stop e
  next e =>
    have hu := h.drawOpen.ok e
    exact hu.treeLanes fun _ _ hv => .ite hv hv.lineReadBy

theorem vbrdPut {d : BitVec 7} {xs : List (Nat × Nat)} (h : t.Canon) : (vbrdPut d s xs t).Canon :=
  h.foldl fun _ _ h => h.wrLanes

/-! Ordered blending (R267, R377). -/

theorem domainOpen {k : AccKind} {a b : BitVec 7} (h : s.Canon) : Settles Prod.snd (s.domainOpen k a b) := by
  unfold State.domainOpen
  extract_lets
  refine .ite h ?_
  split
  · exact h
  · exact h
  · exact h
  next e =>
    refine .ite h (.ite h (.ite h ?_))
    split
    · exact h
    · exact h.lineRead8.ok e

theorem obldStep {a : BitVec 7} {acc : Bool × State} {x : Nat × Loc} (h : acc.2.Canon) : (obldStep s a acc x).2.Canon := by
  unfold Machine.obldStep
  dsimp only
  split
  · split
    · exact h.touch
    · exact h.homeRead
  · exact h

/-! Riddle jobs (R266, R275, R346, R354, R370). -/

theorem ksrt {w : Who} {rs : List HostResp} {n j : Nat} (h : s.Canon) : KeepsOk id (s.ksrt w rs n j) := by
  unfold State.ksrt
  extract_lets
  refine .ite trivial ?_
  split
  · trivial
  next e =>
    have hu := h.ioRead.jobIo.ok e
    split
    · trivial
    next e' =>
      have hv := (KeepsOk.ite (.pair hu) hu.ioRead.jobIo).ok e'
      extract_lets
      split
      · trivial
      next e'' =>
        have hx := hv.ioWrite.jobIo.ok e''
        exact .ite hx hx.ioWrite.jobIo

theorem patch {d c g v : Nat} (h : s.Canon) : (s.patch d c g v).2.Canon := by
  unfold State.patch
  extract_lets
  split
  · exact h
  · split
    · exact h
    · split
      · exact h.setLaunch
      · exact h
  · split
    · exact h
    · extract_lets go
      exact other (h.mapBlocks (f := fun b => { b with savedOps := b.savedOps.map (fun o => (o.1, go o.2)) })
        fun _ ha hb => ⟨ha, hb⟩)

theorem patches {d c : Nat} {ns : List Nat} {l : List (Nat × Nat × Nat)} (h : s.Canon) : (s.patches d c ns l).2.Canon := by
  induction l generalizing s with
  | nil => exact h
  | cons x r ih =>
    unfold State.patches
    dsimp only
    refine ih ?_
    split
    · exact h
    · exact h.patch

theorem binc {d c : Nat} {w : Who} {rs : List HostResp} {j : Nat} (h : s.Canon) : KeepsOk Prod.snd (s.binc d c w rs j) := by
  unfold State.binc
  extract_lets
  refine .ite trivial (.ite trivial (.ite trivial (.ite trivial ?_)))
  split
  · trivial
  next e =>
    extract_lets
    split
    · trivial
    next e' =>
      split
      · trivial
      next e'' => exact (((h.ioRead.jobIo.ok e).ioRead.jobIo.ok e').ioWrite.jobIo.ok e'').patches

theorem jobRun {d : Nat} (h : s.Canon) : (s.jobRun d).Canon := by
  unfold State.jobRun
  split
  · exact h
  · refine .ite h ?_
    extract_lets who drop ask status
    have hdrop : ∀ u, State.Canon u → (drop u).Canon := fun _ hu => hu.dieKept rfl
    have hask : ∀ as, (ask as).Canon := fun _ => h.markAsks.sendAsks.dieKept rfl
    have hstatus : ∀ u rs p st, State.Canon u → (status u rs p st).Canon := fun u rs p st hu => by
      dsimp only [status]
      split
      next e => exact hdrop _ (hu.ioWrite.ok e)
      · exact hdrop _ hu
      · exact hu.markAsks.sendAsks.dieKept rfl
    clear_value drop ask status
    split
    · exact hstatus _ _ _ _ h
    · split
      · exact hask _
      · exact hdrop _ h
      next e =>
        have hu := h.ioRead.ok e
        extract_lets v p done
        have hdone : ∀ u c a, State.Canon u → (done u c a).Canon := fun u c a hv => .ite (hdrop _ hv) (hstatus _ _ _ _ hv)
        clear_value done
        split
        next e' =>
          exact hdone _ _ _ (KeepsOk.ok (.ite (h.ioRead.ok e).binc ((h.ioRead.ok e).ksrt.answered 1)) e')
        · exact hask _
        · exact hdone _ _ _ hu

/-! Launch records that a queue takes (R272). -/

theorem accept {d q c : Nat} {r : Vec} (h : s.Canon) : (s.accept d q c r).Canon := by
  unfold State.accept
  exact h.other.dieKept rfl

end
end State.Canon

/-! The meanings of the rendering and work instructions. -/

namespace BodyKeeps

theorem cullBody {d a b : BitVec 7} : BodyKeeps (cullBody d a b) := by
  intro s h
  unfold Machine.cullBody
  split
  next e => exact h.drawOpen.stop e
  next u e =>
    have hu : u.Canon := h.drawOpen.ok e
    exact hu.wrLanes

theorem pexpBody {d a b : BitVec 7} : BodyKeeps (pexpBody d a b) := by
  intro s h
  unfold Machine.pexpBody
  split
  next e => exact h.drawOpen.stop e
  next u e =>
    have hu : u.Canon := h.drawOpen.ok e
    extract_lets
    split
    · split
      · exact hu
      · exact .ite h hu.setDraw.binAll
    · refine .ret (State.Canon.binAll ?_)
      exact hu.dieKept rfl

theorem vbrdBody {d a b : BitVec 7} : BodyKeeps (vbrdBody d a b) := by
  intro s h
  unfold Machine.vbrdBody
  split
  next e => exact h.vbrdFind.stop e
  next e => exact (h.vbrdFind.ok e).vbrdPut

theorem obldBody {a b : BitVec 7} : BodyKeeps (obldBody a b) := by
  intro s h
  unfold Machine.obldBody
  split
  next e => exact h.domainOpen.stop e
  next locs s1 e =>
    have hu : s1.Canon := h.domainOpen.ok e
    split
    · exact h
    · exact h
    · split
      next all s2 e' =>
        have hv : s2.Canon := by
          have hf : (locs.foldl (obldStep s a) (true, s1)).2.Canon :=
            List.foldlRecOn (motive := fun x : Bool × State => x.2.Canon) _ _ hu fun _ hb _ _ => hb.obldStep
          exact hf.ofPair e'
        split
        · exact .ret hv.acquireL1
        · extract_lets
          exact .ite h h.other

theorem obleBody {a b : BitVec 7} : BodyKeeps (obleBody a b) := by
  intro s h
  unfold Machine.obleBody
  split
  next e => exact h.domainOpen.stop e
  next u e =>
    have hu : u.Canon := h.domainOpen.ok e
    extract_lets
    split
    · exact h
    · exact .ask h.releaseL1
    · exact .ret hu.releaseL1.updateLanes

theorem jobBody {k : Nat} {a : BitVec 7} : BodyKeeps (jobBody k a) := by
  intro s h
  unfold Machine.jobBody
  extract_lets p core d u j
  have hu : u.Canon := h.releaseL1
  clear_value u
  exact .ite h (.ite h (.ret (hu.dieKept rfl)))

theorem forkBody {d a b : BitVec 7} : BodyKeeps (forkBody d a b) := by
  intro s h
  unfold Machine.forkBody
  extract_lets pc cnt core answer
  have ha : ∀ u v, State.Canon u → (answer u v).Canon := fun _ _ hu => hu.wrS
  clear_value answer
  refine .ite h (.ite h (.ite h (.ite (ha _ _ h) (.ite h ?_))))
  split
  · exact h
  · exact h
  next u e =>
    have hu : u.Canon := h.ioAdd.ok e
    exact .ret (ha _ _ hu.releaseL1.setCore)

theorem fjoinBody {a : BitVec 7} : BodyKeeps (fjoinBody a) := by
  intro s h
  unfold Machine.fjoinBody
  extract_lets
  refine .ite h ?_
  split
  next e => exact h.atomicLoad.stop e
  next u e =>
    have hu : u.Canon := h.atomicLoad.ok e
    exact .ite (.ret hu.acquireL1) hu.pollAgain

theorem lnchBody {d a b : BitVec 7} : BodyKeeps (lnchBody d a b) := by
  intro s h
  unfold Machine.lnchBody
  extract_lets
  refine .ite h ?_
  split
  · exact h
  · exact h
  · exact h
  next u e =>
    have hu : u.Canon := h.lineRead8.ok e
    extract_lets
    exact .ret (State.Canon.wrS (.ite hu.releaseL1.accept hu))

end BodyKeeps
end Sys2Proof.Machine
end

section
/-! Waiting instructions that go on, and the steps of warps, keep the canonical form. -/

namespace Sys2Proof.Machine

open Sys2Proof

theorem BodyKeeps.rredBody {d a b : BitVec 7} :
    BodyKeeps (fun s => if s.cw.det then trapE s (.detatom, 0) else Machine.remoteBody true d a b s) :=
  fun s h => .ite h (BodyKeeps.remoteBody s h)

namespace State.Canon

section
variable {s t : State}

/-! Waiting instructions tried again (R22, R54, R296). -/

theorem waitingRun {w : Word} (h : s.Canon) : OutCanon (waitingRun w s) := by
  unfold Machine.waitingRun
  split
  · exact h.perform .yieldBody
  · exact h.perform .waitBody
  · exact h.perform .mwaitBody
  · exact h.perform .returnBody
  · exact h.perform .rgrowBody
  · exact h.perform .atomWord
  · exact h.perform .atomWord
  · exact h.perform .atomWord
  · exact h.perform .atomWord
  · exact h.perform .atomWord
  · exact h.perform .atomWord
  · exact h.perform .atomWord
  · exact h.perform .atomWord
  · exact h.perform .atomWord
  · exact h.perform .atomMaxi
  · exact h.perform .atomqBody
  · exact h.perform .tfenceBody
  · exact h.perform .tfenceBody
  · exact h.perform .tfenceBody
  · exact h.perform .qfenceBody
  · exact h.perform .copyBody
  · exact h.perform .copyBody
  · exact h.perform .copyBody
  · exact h.perform .copyBody
  · exact h.perform .copyBody
  · exact h.perform .copymBody
  · exact h.perform .abarWaitBody
  · exact h.perform .stgaBody
  · exact h.perform .stgaBody
  · exact h.perform .stgrBody
  · exact h.perform .stgrBody
  · exact h.perform .mwinBody
  · exact h.perform .mzeroBody
  · exact h.perform .mmaBody
  · exact h.perform .mmaBody
  · exact h.perform .mmaBody
  · exact h.perform .mmaBody
  · exact h.perform .mmaBody
  · exact h.perform .mmaBody
  · exact h.perform .mmaBody
  · exact h.perform .mmaBody
  · exact h.perform .mmaBody
  · exact h.perform .maccRdBody
  · exact h.perform .maccWrBody
  · exact h.perform .mstaBody
  · exact h.perform .mstaBody
  · exact h.perform .vldnBody
  · exact h.perform .vldnBody
  · exact h.perform .vldnBody
  · exact h.perform .vldnBody
  · exact h.perform .tinsBody
  · exact h.perform .txbBody
  · exact h.perform .txsBody
  · exact h.perform .txsBody
  · exact h.perform .pexpBody
  · exact h.perform .obldBody
  · exact h.perform .jobBody
  · exact h.perform .jobBody
  · exact h.perform .jobBody
  · exact h.perform .forkBody
  · exact h.perform .fjoinBody
  · exact h.perform .collBody
  · exact h.perform .collBody
  · exact h.perform .remoteBody
  · exact h.perform .rredBody
  · exact h

theorem grant {w e : Nat} {ks : List WaitKind} (h : s.Canon) : OutCanon (s.grant w e ks) := by
  unfold State.grant
  extract_lets
  split
  · exact h
  · exact .ite (h.retryWait fun _ _ => waitingRun) h

theorem behindTrap {w e : Nat} {f : State → Out} (h : s.Canon) (hf : ∀ s, s.Canon → OutCanon (f s)) :
    OutCanon (s.behindTrap w e f) := by
  unfold State.behindTrap
  extract_lets
  refine .ite (hf s h) ?_
  split
  next t e =>
    have ht : t.Canon := (hf _ h.setWarp).next e
    exact .ite ht (.ite ht.setWarp h.setWarp)
  · exact hf _ h.setWarp

/-! The steps that a warp takes of itself. -/

theorem mergeMiss {w e : Nat} (h : s.Canon) : (s.mergeMiss w e).Canon := by
  unfold State.mergeMiss
  extract_lets
  refine .ite h ?_
  extract_lets
  split
  · exact h
  · exact .ite h.setWarp h.setWarp

theorem missGroupMerge {w e : Nat} (h : s.Canon) : OutCanon (execMissGroupMerge w e s) :=
  State.Canon.ite h.mergeMiss h

theorem scoreboardClear {w e : Nat} (h : s.Canon) : OutCanon (execScoreboardClear w e s) := by
  refine .ite h.grant ?_
  split
  · exact h
  · split
    · exact h
    · exact .ite h.setWarp h

theorem samplerFetchCompletion {w e : Nat} (h : s.Canon) : OutCanon (execSamplerFetchCompletion w e s) :=
  .ite (h.behindTrap fun _ h => h.retryWait fun _ _ => waitingRun) h.grant

theorem barhang {w e : Nat} (h : s.Canon) : OutCanon (execBarhang w e s) := by
  unfold execBarhang
  extract_lets
  split
  · exact h
  · exact .ite h.waitIssue.raise h

theorem putHead {c q : Nat} {o : EngOp} (h : s.Canon) : (s.putHead c q o).Canon := h.setCore
theorem popHead {c q : Nat} (h : s.Canon) : (s.popHead c q).Canon := h.setCore

theorem pourPermitGrant {p : PermitFor} (h : s.Canon) : OutCanon (execPourPermitGrant p s) := by
  unfold execPourPermitGrant
  split
  · split
    · exact .ite h.setWarp.grant h
    · exact h
  · split
    · exact State.Canon.ite h.putHead h
    · exact h
  · split
    · exact h.setCore
    · exact h

theorem joinDone {w : Nat} {v : DWord} (h : s.Canon) : (s.joinDone w v).Canon := by
  unfold State.joinDone
  extract_lets
  split
  next e => exact h.ioAdd.ok e
  · exact h.markAsks.sendAsks.post
  · exact h.logError

theorem exitDrained {w : Nat} (h : s.Canon) : (s.exitDrained w).Canon := by
  unfold State.exitDrained
  extract_lets x b u v
  have hu : u.Canon := h.releaseL1
  have hv : v.Canon := by
    dsimp only [v]
    split
    · exact hu.joinDone
    · exact hu
  clear_value u v
  exact .ite hv.setWarp (.ite hu.dropWarp.dropBlock hu.dropWarp.settleBars)

theorem exitDrainComplete {w : Nat} (h : s.Canon) : OutCanon (execExitDrainComplete w s) :=
  .ite (.ite h.dropOps.exitDrained h) h

theorem registerDrainComplete {c q : Nat} (h : s.Canon) : OutCanon (execRegisterDrainComplete c q s) :=
  State.Canon.ite h h.setQuarter

theorem taskStart {w : Nat} (h : s.Canon) : OutCanon (execTaskStart w s) := by
  refine .ite ?_ h
  split
  · exact h
  · extract_lets k u
    have hu : u.Canon := h.setCore.acquireL1
    clear_value u
    exact hu.setWarp

theorem taskSteal {c : Nat} (h : s.Canon) : OutCanon (execTaskSteal c s) := by
  unfold execTaskSteal
  split
  · exact h
  · refine .ite h ?_
    extract_lets
    split
    · exact h
    · extract_lets
      split
      · exact h
      · exact h.setCore.setCore

theorem ladleOptionalSpill {w : Nat} (h : s.Canon) : OutCanon (execLadleOptionalSpill w s) := by
  refine .ite ?_ h
  split
  next e => exact h.spillOldest.ok e
  · exact h

theorem ladleOptionalRefill {w : Nat} (h : s.Canon) : OutCanon (execLadleOptionalRefill w s) := by
  refine .ite ?_ h
  split
  next e => exact h.refillNewest.ok e
  · exact h

theorem deferredFaultDelivery {w e : Nat} (h : s.Canon) : OutCanon (execDeferredFaultDelivery w e s) := by
  unfold execDeferredFaultDelivery
  split
  · exact h
  · split
    · exact h
    · exact .ite h h.takeDeferred

theorem engineFaultDelivery {w : Nat} (h : s.Canon) : OutCanon (execEngineFaultDelivery w s) := by
  refine .ite ?_ h
  split
  · exact h.takeFault
  · exact h

theorem trapAnswer {w : Nat} {a v : DWord} (h : s.Canon) : KeepsOk id (s.trapAnswer w a v) :=
  .ite h (.ite trivial (.ite trivial h.answerStopped))

theorem trapAction {w : Nat} {a v : DWord} (h : s.Canon) : OutCanon (execTrapAction w a v s) := by
  unfold execTrapAction
  split
  next e => exact h.trapAnswer.ok e
  · exact h.route

end
end State.Canon
end Sys2Proof.Machine
end

section
/-! The engines, the Ingot store's calendar and the Runner keep the canonical form. -/

namespace Sys2Proof.Machine

open Sys2Proof

namespace State.Canon

section
variable {s t : State}

/-! What a step of an operation leaves (R212, R289, R354). -/

theorem engFail {c q : Nat} {o : EngOp} {b : Bool} {e : Err} {a : Nat} (h : s.Canon) : (s.engFail c q o b e a).Canon := by
  unfold State.engFail
  extract_lets u x
  have hu : u.Canon := .ite h.markDiscarded h
  clear_value u
  exact .ite hu.setWarp.putHead hu.dropOps.logError

theorem engAsk {c q : Nat} {o : EngOp} {as : List HostAsk} (h : s.Canon) : (s.engAsk c q o as).Canon :=
  h.markAsks.sendAsks.putHead

theorem engStop {c q : Nat} {o : EngOp} {b : Bool} {e : EngErr} (h : s.Canon) : (s.engStop c q o b e).Canon := by
  cases e with
  | bad => exact h.engFail
  | ask => exact h.engAsk

/-! Copies (R268, R351 to R354). -/

theorem putTags {w : Who} {p n : Nat} (h : s.Canon) : (s.putTags w p n).Canon := by
  refine h.foldl fun s i h => ?_
  split
  · exact .ite h.setTags h
  · exact h

theorem copyPut {o : EngOp} {v x w : Nat} {bs : List Byte} (h : s.Canon) : KeepsOk id (s.copyPut o v x w bs) := by
  unfold State.copyPut
  extract_lets
  split
  · exact h.engWrite
  · refine .ite trivial ?_
    exact h.setDie (bytesSet_wf _ _ _ _ (h.die _))
  · split
    · exact h.putTags.engWrite
    · exact h.engWrite

theorem copyRead {o : EngOp} {v w : Nat} (h : s.Canon) : KeepsOk Prod.snd (s.copyRead o v w) := by
  refine .ite trivial ?_
  split
  · trivial
  next e => exact h.engRead.ok e

theorem copyLine {o : EngOp} {v x w0 w1 : Nat} (h : s.Canon) : KeepsOk Prod.snd (s.copyLine o v x w0 w1) := by
  refine .ite h.copyRead ?_
  split
  · trivial
  next e => exact h.copyPut.ok e

theorem surface {o : EngOp} {p : Nat} (h : s.Canon) : KeepsOk Prod.snd (s.surface o p) := by
  unfold State.surface
  split
  · trivial
  next e => exact .ite trivial (h.ioRead.ok e)

theorem putMode {o : EngOp} {f : Surface} {n k : Nat} (h : s.Canon) : KeepsOk Prod.snd (s.putMode o f n k) := by
  unfold State.putMode
  split
  · trivial
  next e => exact h.engWrite.ok e

theorem compressTile {o : EngOp} {w0 w1 : Nat} (h : s.Canon) : KeepsOk Prod.snd (s.compressTile o w0 w1) := by
  refine .ite ?_ (.ite h.putMode ?_)
  · split
    · trivial
    next e => exact h.surface.ok e
  · split
    · split
      · trivial
      next e => exact h.engRead.ok e
    · split
      · trivial
      next e => exact h.engWrite.ok e

theorem expandTile {o : EngOp} {w0 w1 : Nat} (h : s.Canon) : KeepsOk Prod.snd (s.expandTile o w0 w1) := by
  refine .ite ?_ (.ite h.putMode ?_)
  · split
    · trivial
    next e =>
      split
      · trivial
      next e' => exact .ite trivial ((h.surface.ok e).surface.ok e')
  · split
    · split
      · trivial
      next e => exact h.engRead.ok e
    · split
      · trivial
      next e =>
        split
        · trivial
        · exact h.engRead.ok e
    · split
      · trivial
      next e => exact h.engWrite.ok e

/-! Halos sent (R237). -/

theorem engTree {α : Type} {rs : List HostResp} {f : State → Tree α} (h : s.Canon) (hf : ∀ s, s.Canon → TreeKept (f s)) :
    KeepsOk Prod.snd (s.engTree rs f) := by
  unfold State.engTree
  split
  next e => exact other ((hf _ h.other).ok e)
  · trivial
  · trivial
  · trivial

theorem haloLeaf {c q : Nat} {o : EngOp} {p n : Nat} (h : s.Canon) : KeepsOk Prod.snd (s.haloLeaf c q o p n) := by
  refine .ite trivial ?_
  split
  · trivial
  next e =>
    refine .ite trivial ?_
    split
    · exact h.ioRead.ok e
    · trivial
    · split
      · trivial
      · split
        · trivial
        · trivial

theorem haloPlan {o : EngOp} {w : Nat} (h : s.Canon) : KeepsOk Prod.snd (s.haloPlan o w) := by
  refine .ite h ?_
  split
  · trivial
  next e => exact h.ioRead.ok e

theorem haloCounter {c q : Nat} {o : EngOp} {p n : Nat} (h : s.Canon) : (s.haloCounter c q o p n).Canon := by
  unfold State.haloCounter
  split
  · exact h
  · exact h.send

/-! RST and RRED (R386). -/

theorem sendLane {d : Nat} {p : PeerEntry} {c : BitVec 32} {r : Bool} {op : Nat} {b : Bool} {l : RemLane} (h : s.Canon) :
    (s.sendLane d p c r op b l).2.Canon := by
  unfold State.sendLane
  exact h.send

theorem sendLanes {d : Nat} {p : PeerEntry} {c : BitVec 32} {r : Bool} {op : Nat} {b : Bool} {ls : List RemLane} (h : s.Canon) :
    (s.sendLanes d p c r op b ls).2.Canon := by
  induction ls generalizing s with
  | nil => exact h
  | cons l ls ih =>
    unfold State.sendLanes
    dsimp only
    refine ih ?_
    split
    · exact h.sendLane
    · exact h

theorem remoteStep {c q : Nat} {o : EngOp} (h : s.Canon) : (s.remoteStep c q o).Canon := by
  unfold State.remoteStep
  split
  · refine .ite h.putHead (.ite h ?_)
    split
    · exact h.engFail
    · exact .ite h h.sendLanes.putHead
  · exact h

/-! COPY_PERFORM (R353). -/

theorem copyUnits {c q total n : Nat} {f : State → EngOp → Except EngErr (EngOp × State)} (h : s.Canon)
    (hf : ∀ s o, s.Canon → KeepsOk Prod.snd (f s o)) : (s.copyUnits c q total f n).Canon := by
  induction n generalizing s with
  | zero => exact h
  | succ n ih =>
    unfold State.copyUnits
    split
    · exact h
    · refine .ite h ?_
      split
      · exact h.engStop
      next u e =>
        have hu : u.Canon := (hf _ _ h).ok e
        exact ih hu.putHead

theorem copyEnd {c q i total : Nat} {b : Bool} (h : s.Canon) : (s.copyEnd c q i total b).Canon := by
  unfold State.copyEnd
  split
  · exact h
  · exact .ite h h.putHead

theorem ingotGate {d l : Nat} {b : Bool} (h : s.Canon) (e : s.ingotGate d l = some (b, t)) : t.Canon := by
  unfold State.ingotGate at e
  split at e
  · cases e
    exact h.dieKept rfl
  · split at e
    · cases e
      exact h
    · cases e

theorem copyPerform {c q n : Nat} (h : s.Canon) : (s.copyPerform c q n).Canon := by
  unfold State.copyPerform
  split
  · exact h
  · refine .ite h ?_
    split
    · exact h.remoteStep
    · split
      · exact h.engStop
      next u e =>
        have hu : u.Canon := h.haloPlan.ok e
        extract_lets plan v
        have hv : v.Canon := hu.putHead.copyUnits fun _ _ hx => hx.haloLeaf
        clear_value v
        split
        · exact hv
        · exact .ite hv hv.haloCounter.putHead
    · refine .ite h.putHead ?_
      split
      · exact h.engFail
      next e => exact h.ingotGate e
      next e => exact ((h.ingotGate e).copyUnits fun _ _ hx => hx.copyLine).copyEnd
    · extract_lets unit
      have hunit : ∀ s o, State.Canon s → KeepsOk Prod.snd (unit s o) :=
        fun _ _ hx => .ite hx.compressTile (.ite hx.expandTile hx.copyLine)
      exact (h.copyUnits hunit).copyEnd
    · exact .ite h (h.copyUnits fun _ _ hx => hx.copyLine).copyEnd
    · exact h

/-! The Ingot store's calendar (R152, R154). -/

theorem ingotLoadState {d : Nat} (h : s.Canon) : OutCanon (execIngotLoadState d s) := by
  show State.Canon _
  split
  · exact .ite (h.dieKept rfl) h
  · exact h

theorem bankRefresh {d : Nat} (h : s.Canon) : OutCanon (execBankRefresh d s) := h.passClocks
theorem bankRefreshEnd {d : Nat} (h : s.Canon) : OutCanon (execBankRefreshEnd d s) := State.Canon.ite h.passClocks h

/-! The matrix engine and completion (R182, R201, R211 to R214). -/

theorem followOnMmaEntry {c q : Nat} (h : s.Canon) : OutCanon (execFollowOnMmaEntry c q s) := by
  unfold execFollowOnMmaEntry
  split
  · exact h
  · split
    · extract_lets
      refine .ite h ?_
      exact h.putHead.setCore.other
    · exact h

theorem matFail {c q n : Nat} {o : EngOp} {m : MatOp} {g : Nat} {e : Err} {a : Nat} (h : s.Canon) :
    (s.matFail c q n o m g e a).Canon := h.engFail.setWarp

theorem mstaPerform {c q n : Nat} {o : EngOp} {m : MatOp} (h : s.Canon) : (s.mstaPerform c q n o m).Canon := by
  unfold State.mstaPerform
  split
  refine .ite h.engAsk ?_
  split
  · exact h.matFail
  · exact h.engAsk
  next u e =>
    have hu : u.Canon := h.matGroups.ok e
    split
    · exact hu.matFail
    · exact hu.putHead

theorem matrixOperationPerform {c q : Nat} (h : s.Canon) : OutCanon (execMatrixOperationPerform c q s) := by
  unfold execMatrixOperationPerform
  extract_lets
  split
  · exact h
  · split
    · refine .ite h (.ite h.mstaPerform ?_)
      split
      next u e =>
        have hu : u.Canon := h.matGroup.ok e
        exact hu.putHead
      · exact h.engAsk
      · exact h.matFail
    · exact h

theorem engineOperationCompletion {c q : Nat} (h : s.Canon) : OutCanon (execEngineOperationCompletion c q s) := by
  unfold execEngineOperationCompletion
  extract_lets
  split
  · exact h
  · exact State.Canon.ite h h.popHead

/-! Collectives (R324, R349, R350). -/

theorem collStage {o : EngOp} {b : Bool} {x n k g : Nat} (h : s.Canon) : KeepsOk id (s.collStage o b x n k g) := by
  unfold State.collStage
  extract_lets
  split
  · trivial
  next e =>
    have h1 := h.ioRead.ok e
    extract_lets
    split
    · trivial
    next e =>
      have h2 := h1.ioRead.ok e
      refine .ite trivial ?_
      split
      · trivial
      next e =>
        have h3 := h2.ioWrite.ok e
        split
        · trivial
        next e =>
          have h4 := h3.ioAdd.ok e
          extract_lets
          split
          · trivial
          next e =>
            have h5 := h4.ioWrite.ok e
            split
            · trivial
            next e => exact (h5.ioWrite.ok e).releaseL1.ioWrite

theorem collectiveRequest {c q : Nat} (h : s.Canon) : OutCanon (execCollectiveRequest c q s) := by
  unfold execCollectiveRequest
  split
  · exact h
  · split
    · refine .ite h ?_
      split
      next u e =>
        have hu : u.Canon := h.collStage.ok e
        exact hu.putHead
      · exact h.engStop
    · exact h

theorem engArrive {o : EngOp} {p : DWord} (h : s.Canon) : KeepsOk id (s.engArrive o p) := by
  unfold State.engArrive
  extract_lets x
  clear_value x
  split
  · split
    · trivial
    next u e =>
      have hu : u.Canon := h.ioAtomic.ok e
      split
      · exact hu
      · exact .ite trivial (.ret (.ite hu.releaseL1 hu))
  · split
    · trivial
    · split
      · trivial
      · exact .ret h.scratchWrite
  · trivial
  · trivial
  · trivial

theorem collResult {o : EngOp} {b : Bool} {x n k g : Nat} {v : DWord} (h : s.Canon) :
    KeepsOk (fun r => r.getD s) (s.collResult o b x n k v g) := by
  unfold State.collResult
  extract_lets
  split
  · trivial
  next u e =>
    have hu : u.Canon := h.ioRead.ok e
    refine .ite h (.ite trivial ?_)
    split
    · trivial
    next e' =>
      split
      · trivial
      next e'' => exact (hu.ioRead.ok e').scratchWrite.engArrive.ok e''

theorem collectiveResultCopy {c q : Nat} (h : s.Canon) : OutCanon (execCollectiveResultCopy c q s) := by
  unfold execCollectiveResultCopy
  split
  · exact h
  · split
    · refine .ite h ?_
      split
      · exact h.putHead
      next u e =>
        have hu : u.Canon := h.collResult.ok e
        exact hu.putHead
      · exact h.engStop
    · exact h

/-! Halos received (R238). -/

theorem haloReply {d : Nat} {l : HaloLeaf} (h : s.Canon) : (s.haloReply d l).Canon := by
  unfold State.haloReply
  split
  · exact h.answer
  · exact h

theorem haloInsert {d : Nat} {j : HaloJob} (h : s.Canon) : KeepsOk Prod.snd (s.haloInsert d j) := by
  unfold State.haloInsert
  extract_lets
  split
  · trivial
  next u e =>
    have hu : u.Canon := h.ioRead.ok e
    refine .ite trivial ?_
    split
    · exact hu
    · trivial
    · exact .ite trivial hu
    next e => exact other ((insertFrom hu.other).ok e)

theorem haloAccess {d : Nat} {j : HaloJob} {r : Insert} (h : s.Canon) : KeepsOk Prod.snd (s.haloAccess d j r) := by
  unfold State.haloAccess
  split
  · exact h
  · split
    · exact h
    · trivial
    · trivial
    next e => exact other ((insertStep h.other).ok e)

theorem haloTurn {d : Nat} {j : HaloJob} (h : s.Canon) : KeepsOk Prod.snd (s.haloTurn d j) := by
  unfold State.haloTurn
  extract_lets who rrec next half
  split
  · split
    · trivial
    next e => exact h.ioRead.ok e
  · exact h.haloInsert
  · split
    · exact h.haloAccess
    · exact h
  · split
    · trivial
    next e =>
      split
      · trivial
      next e' => exact (h.ioWrite.ok e).ioWrite.ok e'
  · split
    · trivial
    next e =>
      extract_lets
      split
      · trivial
      next e' => exact (h.ioRead.ok e).ioAtomic.ok e'
  · split
    · trivial
    next e =>
      refine .ite (h.ioRead.ok e) ?_
      split
      · trivial
      next e' => exact (h.ioRead.ok e).ioRead.ok e'
  · split
    · trivial
    next e =>
      split
      · trivial
      next e' => exact (h.ioRead.ok e).ioWrite.ok e'
  · split
    · trivial
    next e => exact h.ioWrite.ok e
  · split
    · exact h.logError
    · trivial
    next e => exact h.ioAtomic.ok e

theorem haloRun {d n : Nat} {j : HaloJob} (h : s.Canon) : (s.haloRun d j n).2.Canon := by
  induction n generalizing s j with
  | zero => exact h
  | succ n ih =>
    unfold State.haloRun
    split
    next u e =>
      have hu : u.Canon := h.haloTurn.ok e
      exact hu.haloReply
    next e => exact h.haloTurn.ok e
    next e => exact ih (h.haloTurn.ok e)
    · exact ih h
    · exact h.markAsks.sendAsks

theorem haloLeafDelivery {d : Nat} {l : HaloLeaf} (h : s.Canon) : OutCanon (execHaloLeafDelivery d l s) := by
  unfold execHaloLeafDelivery
  extract_lets x j others put
  have hput : ∀ u js, State.Canon u → (put u js).Canon := fun _ _ hu => hu.dieKept rfl
  clear_value put
  refine .ite (hput _ _ h).dropMsg.wake (.ite (hput _ _ h) ?_)
  split
  next e => exact (hput _ _ (h.haloRun.ofPair e)).wake
  next e => exact hput _ _ (h.haloRun.ofPair e)

end
end State.Canon
end Sys2Proof.Machine
end

section
/-! Pre-emption, resumption and the launch unit keep the canonical form. -/

namespace Sys2Proof.Machine

open Sys2Proof

namespace State.Canon

section
variable {s t : State}

/-! Pre-emption, saving, resumption and migration (R54, R146, R152, R180, R300 to R304). -/

theorem takeScratch {c n : Nat} (h : s.Canon) : (s.takeScratch c n).2.Canon := by
  unfold State.takeScratch
  exact .setCore h.removeLines

theorem endLoad {l : Nat} (h : s.Canon) : (s.endLoad l).Canon := by
  refine .ite ?_ h
  exact other (h.mapDies fun d => by split <;> rfl)

theorem beginSave {b : Nat} (h : s.Canon) : (s.beginSave b).Canon := by
  unfold State.beginSave
  extract_lets x k parts u v
  have hv : v.Canon := h.setCore.setBlock (h.block b).1 (h.block b).2
  clear_value u v
  exact .ite h (hv.foldl fun _ _ h => h.setWarp)

theorem saveReserve {w : Nat} (h : s.Canon) : (s.saveReserve w).Canon := by
  unfold State.saveReserve
  extract_lets q k _ u
  have hu : u.Canon := .ite h.setWarp h
  exact .ite hu.setQuarter hu

theorem endSave {b : Nat} (h : s.Canon) : (s.endSave b).Canon := by
  unfold State.endSave
  extract_lets x k left last tasks drop u v
  have hv : v.Canon := (h.setCore.foldl fun _ _ h => h.saveReserve).releaseL1
  clear_value u v
  exact hv.blockKept rfl rfl

theorem seatWarp {c w : Nat} {x : Nat × Nat} (h : s.Canon) : (s.seatWarp c w x).Canon := by
  unfold State.seatWarp
  extract_lets y q _ u
  have hu : u.Canon := by
    dsimp only [u]
    split
    · exact h.setQuarter
    · exact h
  exact hu.setWarp

theorem resumeBlock {b c q : Nat} (h : s.Canon) : (s.resumeBlock b c q).Canon := by
  unfold State.resumeBlock
  extract_lets x n live
  split
  next g s1 e =>
    have h1 : s1.Canon := h.takeScratch.ofPair e
    extract_lets seats s2 s3 s4 k s5
    have h2 : s2.Canon := h1.acquireL1.setBlock (h.block b).1 (h.block b).2
    clear_value s2
    have h3 : s3.Canon := h2.foldl fun _ _ h => h.seatWarp
    clear_value s3
    have h4 : s4.Canon := h3.foldl fun _ _ h => .ite h h.setQuarter
    clear_value s4
    have h5 : s5.Canon := h4.setCore
    clear_value s5
    exact h5.foldl fun _ _ h => .ite h.setSlot h

theorem preEmptionRequest {bs : List Nat} (h : s.Canon) : OutCanon (execPreEmptionRequest bs s) :=
  h.foldl fun _ _ h => .ite h.beginSave.endLoad h

theorem endKill {b : Nat} (h : s.Canon) : (s.endKill b).Canon := h.dropOps.dropBlock.killEnd

theorem preEmptionSaveComplete {b : Nat} (h : s.Canon) : OutCanon (execPreEmptionSaveComplete b s) :=
  State.Canon.ite (.ite h.endKill h.endSave) h

theorem blockMigration {b c q : Nat} (h : s.Canon) : OutCanon (execBlockMigration b c q s) := by
  unfold execBlockMigration
  extract_lets x mates s1 s2
  refine .ite h ?_
  have h1 : s1.Canon := h.beginSave
  clear_value s1
  refine .ite h ?_
  have h2 : s2.Canon := h1.endSave
  clear_value s2
  exact .ite h2.resumeBlock h

/-! The launch unit (R152, R234, R269 to R281). -/

theorem refuseLaunch {l c : Nat} (h : s.Canon) : (s.refuseLaunch l c).Canon := by
  unfold State.refuseLaunch
  split
  · exact h
  · exact h.dropLaunch.setLaunch.putStatus

theorem launchAsk {l : Nat} {as : List HostAsk} (h : s.Canon) : (s.launchAsk l as).Canon := by
  unfold State.launchAsk
  split
  · exact h
  · exact h.markAsks.sendAsks.setLaunch

theorem pollToken {l : Nat} (h : s.Canon) : (s.pollToken l).2.Canon := by
  unfold State.pollToken
  split
  · exact h
  · extract_lets
    split
    · exact h
    · split
      · exact h
      · split
        · exact h.refuseLaunch
        · exact h.launchAsk
        next u e =>
          have hu : u.Canon := h.ioRead.ok e
          split
          · exact hu
          · exact hu.setLaunch

theorem pickQueue {d : Nat} {qs : List Nat} (h : s.Canon) : (s.pickQueue d qs).2.Canon := by
  induction qs generalizing s with
  | nil => exact h
  | cons q r ih =>
    unfold State.pickQueue
    split
    · exact h
    · split
      · exact ih h
      · split
        · exact ih h
        · split
          next e => exact h.pollToken.ofPair e
          next e => exact ih (h.pollToken.ofPair e)

theorem pick {d : Nat} {cs : List Nat} (h : s.Canon) : (s.pick d cs).2.Canon := by
  induction cs generalizing s with
  | nil => exact h
  | cons c r ih =>
    unfold State.pick
    split
    next e => exact ih (h.pickQueue.ofPair e)
    · exact h.pickQueue

theorem readLaunch {x : Launch} {n : Nat} (h : s.Canon) : KeepsOk Prod.snd (s.readLaunch x n) := by
  unfold State.readLaunch
  extract_lets who r p ra
  have hra : KeepsOk Prod.snd ra := by
    refine .ite h ?_
    split
    · trivial
    next e => exact h.ioRead.ok e
  clear_value ra
  split
  · trivial
  next u =>
    have hu : u.Canon := hra
    refine .ite hu ?_
    split
    · trivial
    next e => exact hu.ioRead.ok e

theorem startLaunch {l : Nat} (h : s.Canon) : (s.startLaunch l).Canon := by
  unfold State.startLaunch
  split
  · exact h
  · extract_lets r n leafy grid go
    have hgo : ∀ u a b c d, State.Canon u → (go u a b c d).Canon := fun _ _ _ _ _ hu => hu.other.setLaunch
    clear_value go
    refine .ite h.refuseLaunch (.ite (hgo _ _ _ _ _ h) ?_)
    split
    · exact h.launchAsk
    · exact h.refuseLaunch
    next u e =>
      have hu : u.Canon := h.readLaunch.ok e
      extract_lets found
      have hf : KeepsOk Prod.snd found := .ite (hu.engTree fun _ hv => hv.enumerate) hu
      clear_value found
      split
      · exact hu.launchAsk
      · exact hu.refuseLaunch
      next v =>
        have hv : v.Canon := hf
        exact .ite hv.refuseLaunch (hgo _ _ _ _ _ hv)

/-- A state whose blocks are those of another and one more, with empty scratch and accumulator rows. -/
theorem addBlock {b : Block} (h : s.Canon) (ht : t.Canon) (hs : b.scratch = []) (ha : b.acc = []) :
    State.Canon { s with blocks := t.blocks ++ [b] } := by
  rw [parts] at h ht ⊢
  obtain ⟨hm, htags, -, hd⟩ := h
  obtain ⟨-, -, hb, -⟩ := ht
  refine ⟨hm, htags, fun y hy => ?_, hd⟩
  rcases List.mem_append.mp hy with hy | hy
  · exact hb y hy
  · obtain rfl := List.mem_singleton.mp hy
    rw [hs, ha]
    exact ⟨rfl, rfl⟩

theorem placeBlock {l : Nat} {p : Nat × Nat} (h : s.Canon) : (s.placeBlock l p).Canon := by
  unfold State.placeBlock
  split
  · exact h
  · obtain ⟨core, q0⟩ := p
    dsimp only
    next x _ =>
      have hu := h.takeScratch (c := core) (n := recGran x.record)
      generalize s.takeScratch core (recGran x.record) = r at hu ⊢
      have hv := hu.acquireL1 (c := core)
      generalize r.2.acquireL1 core = v at hv ⊢
      exact setLaunch (other (hv.addBlock hu rfl rfl))

theorem placeUnits {l c q n : Nat} (h : s.Canon) : (s.placeUnits l c q n).Canon := by
  induction n generalizing s with
  | zero => exact h
  | succ n ih =>
    unfold State.placeUnits
    split
    · exact h
    · refine .ite h ?_
      split
      · exact h
      · exact ih (h.foldl fun _ _ h => h.placeBlock)

theorem reserveCores {l c : Nat} {x : Launch} (h : s.Canon) : (s.reserveCores l c x).2.Canon := by
  unfold State.reserveCores
  split
  · exact h
  · exact h.foldl fun _ _ h => h.setCore

theorem makeRoom {l c q : Nat} {x : Launch} (h : s.Canon) : (s.makeRoom l c q x).Canon := by
  unfold State.makeRoom
  extract_lets
  refine .ite h ?_
  extract_lets
  split
  · exact h
  · exact h.foldl fun _ _ h => .ite (h.foldl fun _ _ h => h.beginSave.endLoad) h

theorem serveHead {d q l c k : Nat} (h : s.Canon) : (s.serveHead d q l c k).Canon := by
  unfold State.serveHead
  extract_lets _ u v
  have hu : u.Canon := h.dieKept rfl
  have hv : v.Canon := by
    dsimp only [v]
    split
    · exact hu
    · exact hu.startLaunch
  clear_value u v
  split
  · exact hv
  · refine .ite hv ?_
    split
    next ok y e =>
      have hy : y.Canon := hv.reserveCores.ofPair e
      extract_lets z
      have hz : z.Canon := .ite hy.placeUnits hy
      clear_value z
      split
      · exact hz
      · exact .ite (hz.dieKept rfl) (.ite hz.makeRoom hz)

theorem admission {d c q : Nat} (h : s.Canon) : OutCanon (execAdmission d c q s) := by
  refine .ite h ?_
  split
  next e => exact (h.pick.ofPair e).serveHead
  next e => exact h.pick.ofPair e

theorem resumeAll {d c q : Nat} {bs : List Nat} (h : s.Canon) (e : s.resumeAll d c q bs = some t) : t.Canon := by
  induction bs generalizing s with
  | nil =>
    cases e
    exact h
  | cons b r ih =>
    unfold State.resumeAll at e
    extract_lets at e
    split at e
    · cases e
    · exact ih h.resumeBlock e

theorem resumption {b c q : Nat} (h : s.Canon) : OutCanon (execResumption b c q s) := by
  unfold execResumption
  extract_lets
  refine .ite h ?_
  split
  next u e =>
    have hu : u.Canon := h.pick.ofPair e
    extract_lets bs
    refine .ite hu ?_
    show State.Canon _
    cases er : u.resumeAll _ c (q % 4) bs with
    | none => exact hu
    | some v => exact hu.resumeAll er
  next e => exact h.pick.ofPair e

theorem dropLeaves {d c : Nat} (h : s.Canon) : (s.dropLeaves d c).Canon := .ite h h.other

theorem finishLaunch {l : Nat} {x : Launch} (h : s.Canon) : (s.finishLaunch l x).Canon :=
  (h.foldl fun _ _ h => h.dropBlock).dropLaunch.setLaunch.putStatus.dropLeaves

theorem launchCompletion {l : Nat} (h : s.Canon) : OutCanon (execLaunchCompletion l s) := by
  unfold execLaunchCompletion
  split
  · exact h
  · refine .ite h ?_
    extract_lets a u tok
    have hu : u.Canon := h.foldl fun _ _ h => .ite h.cleanLines h
    clear_value u
    refine .ite hu.finishLaunch ?_
    split
    next v e =>
      have hv : v.Canon := hu.ioAdd.ok e
      exact hv.finishLaunch
    · exact hu.launchAsk
    · exact hu.logError.finishLaunch

theorem killRequest {l : Nat} (h : s.Canon) : OutCanon (execKillRequest l s) := by
  unfold execKillRequest
  split
  · exact h
  · exact h.killLaunch.dropLeaves

end
end State.Canon
end Sys2Proof.Machine
end

section
/-! The management plane and what arrives over the transport keep the canonical form. -/

namespace Sys2Proof.Machine

open Sys2Proof

/-- Entries left out of a sparse memory leave it canonical. -/
theorem filter_wf {α : Type} [DecidableEq α] (d : α) (p : Nat × α → Bool) (l : List (Nat × α)) (h : spWf d l = true) :
    spWf d (l.filter p) = true := by
  induction l with
  | nil => exact h
  | cons e r ih =>
    obtain ⟨k, v⟩ := e
    obtain ⟨hv, hk, hr⟩ := (spWf_cons d k v r).mp h
    rw [List.filter_cons]
    split
    · exact (spWf_cons d k v _).mpr ⟨hv, fun e he => hk e (List.mem_of_mem_filter he), ih hr⟩
    · exact ih hr

namespace State.Canon

section
variable {s t : State}

/-! Keys, reset and boot, errors (R290, R331 to R335). -/

theorem clearKey {k : Nat} (h : s.Canon) : OutCanon (execClearKey k s) :=
  State.Canon.other (h.foldl fun _ _ h => h.removeLines)

theorem loadKey {k : Nat} {v : BitVec 512} (h : s.Canon) : OutCanon (execLoadKey k v s) := State.Canon.ite h.other h

theorem setPowerCap {n : Nat} (h : s.Canon) : OutCanon (execSetPowerCap n s) := State.Canon.ite h.other h

theorem filterTags {p : Nat × BitVec 4 → Bool} (h : s.Canon) : State.Canon { s with tags := s.tags.filter p } := by
  rw [parts] at h ⊢
  obtain ⟨hm, ht, hb, hd⟩ := h
  exact ⟨hm, filter_wf _ _ _ ht, hb, hd⟩

/-- The blocks of a die that resets stand empty. -/
theorem emptyBlocks {p : Block → Prop} [DecidablePred p] (h : s.Canon) :
    State.Canon { s with blocks := s.blocks.map (fun b => if p b then
      { b with resid := .gone, scratch := [], acc := [], slots := [], savedOps := [], tasks := [] } else b) } :=
  h.mapBlocks fun b hs ha => by
    split
    · exact ⟨rfl, rfl⟩
    · exact ⟨hs, ha⟩

theorem clearDie {d : Nat} (h : s.Canon) : (s.clearDie d).Canon :=
  setDie (other h.emptyBlocks.filterTags) rfl

theorem bootDie {d : Nat} {m : Image} (h : s.Canon) : (s.bootDie d m).Canon := by
  unfold State.bootDie
  extract_lets u
  have hu : u.Canon := h.clearDie
  clear_value u
  exact .ite (hu.dieKept rfl) (hu.dieKept rfl)

theorem rebootDie {d : Nat} (h : s.Canon) : (s.rebootDie d).Canon := by
  unfold State.rebootDie
  split
  · exact h.bootDie
  · exact h.clearDie

theorem firmwareLoad {d : Nat} {m : Image} (h : s.Canon) : OutCanon (execFirmwareLoad d m s) := State.Canon.ite h.bootDie h

theorem junctionOvertemperature {d : Nat} (h : s.Canon) : OutCanon (execJunctionOvertemperature d s) :=
  State.Canon.rebootDie (h.foldl fun _ _ h => h.mchk)

/-! Messages taken in order (R314 to R320, R327). -/

theorem receive {d : Nat} {m : Msg} {b : Bool} {f : State → Option Msg × State} (h : s.Canon)
    (hf : ∀ s, s.Canon → (f s).2.Canon) : (s.receive d m b f).Canon := by
  unfold State.receive
  extract_lets x r y high
  have hy : (s.setDie d y).Canon := h.dieKept rfl
  refine .ite (.ite (h.dieKept rfl) ?_) (.ite ?_ ?_)
  · split
    next u e =>
      have hu : u.Canon := (hf _ hy).ofPair e
      split
      · exact hu
      · extract_lets r' v
        have hv : v.Canon := .ite (hu.dieKept rfl) hu
        clear_value v
        exact hv.answer.wake
  · split
    · exact h.answer
    · exact .ite h h.answer
  · refine answer ?_
    exact h.dieKept rfl

theorem request {d k : Nat} {m : Msg} {b : Bool} {f : State → Option Msg × State} (h : s.Canon)
    (hf : ∀ s, s.Canon → (f s).2.Canon) : (s.request d k m b f).Canon := .ite (h.receive hf) h.dropMsg

/-! Accesses for other agents (R320). -/

theorem writeMem_mapError {w : Who} {p : Nat} {bs : List Byte} {ε : Type} {f : Err × Nat → ε} (h : s.Canon) :
    KeepsOk id ((s.writeMem w p bs).mapError f) := by
  have hw : KeepsOk id (s.writeMem w p bs) := h.writeMem
  cases e : s.writeMem w p bs with
  | ok u => exact hw.ok e
  | error e => trivial

theorem netWrite {d c p : Nat} {bs : List Byte} (h : s.Canon) : KeepsOk id (s.netWrite d c p bs) := h.writeMem_mapError

theorem netRead {d c p n : Nat} (h : s.Canon) : KeepsOk Prod.snd (s.netRead d c p n) := by
  unfold State.netRead
  split
  · trivial
  · split
    next e => exact h.readMem.ofPair e
    · trivial
    · trivial

theorem netTags {d c p n g : Nat} (h : s.Canon) : KeepsOk id (s.netTags d c p n g) := by
  unfold State.netTags
  extract_lets who gs untagged
  split
  · trivial
  · refine .ret (h.foldl fun s g h => ?_)
    split
    · exact h.touch.setTags
    · exact h

theorem netAtomic {d c p n : Nat} {f : Nat → Nat} (h : s.Canon) : KeepsOk Prod.snd (s.netAtomic d c p n f) := by
  unfold State.netAtomic
  extract_lets
  split
  · trivial
  · exact .pair h.homeRead.homeWrite

theorem markNet {d : Nat} {m : Msg} {e : Err} (h : s.Canon) : (s.markNet d m e).Canon :=
  .ite (h.foldl fun _ _ h => h.markDiscarded) h

theorem stateOf {o : Out} (h : s.Canon) (ho : OutCanon o) : (stateOf s o).Canon := by
  cases o with
  | next u => exact ho
  | fault => exact h
  | refused => exact h

theorem write {d : Nat} {m : Msg} (h : s.Canon) : OutCanon (execWrite d m s) := by
  refine State.Canon.request h fun u hu => ?_
  split
  · exact hu.stateOf hu.haloLeafDelivery
  · extract_lets r
    have hr : KeepsOk id r := .ite hu.netTags hu.netWrite
    clear_value r
    split
    · exact hr
    · exact hu.markNet

theorem readRequest {d : Nat} {m : Msg} (h : s.Canon) : OutCanon (execReadRequest d m s) := by
  refine State.Canon.request h fun u hu => ?_
  split
  next e => exact hu.netRead.ok e
  · exact hu

theorem atomic {d : Nat} {m : Msg} (h : s.Canon) : OutCanon (execAtomic d m s) := by
  unfold execAtomic
  split
  · exact h.dropMsg
  · refine State.Canon.request h fun u hu => ?_
    split
    next e => exact hu.netAtomic.ok e
    · exact hu.markNet

theorem reduce {d : Nat} {m : Msg} (h : s.Canon) : OutCanon (execReduce d m s) := by
  unfold execReduce
  split
  · exact h.dropMsg
  · refine State.Canon.request h fun u hu => ?_
    split
    next e => exact hu.netAtomic.ok e
    · exact hu.markNet

theorem launch {d : Nat} {m : Msg} (h : s.Canon) : OutCanon (execLaunch d m s) := by
  refine State.Canon.request h fun u hu => ?_
  extract_lets
  split
  · exact hu.accept
  · exact hu

theorem stepCounterUpdate {d : Nat} {m : Msg} (h : s.Canon) : OutCanon (execStepCounterUpdate d m s) :=
  State.Canon.request h fun _ hu => hu.stateOf hu.haloLeafDelivery

/-! Answers (R319 to R321, R385, R386). -/

theorem nackOp {c q n k : Nat} {a : DWord} (h : s.Canon) : (s.nackOp c q n k a).Canon := by
  unfold State.nackOp
  split
  · exact .ite h h.engFail
  · exact h

theorem hearLaunch {m : Msg} {b : Option (Nat × Nat)} {l : Nat} (h : s.Canon) : (s.hearLaunch m b l).Canon := by
  unfold State.hearLaunch
  split
  · exact h
  · refine .ite h ?_
    split
    · exact h
    · exact .ite h.setLaunch.logError h.setLaunch

theorem hearPosts {d : Nat} {m : Msg} {b : Option (Nat × Nat)} (h : s.Canon) : (s.hearPosts d m b).Canon := by
  unfold State.hearPosts
  extract_lets k mine u
  have hu : u.Canon := h.dieKept rfl
  clear_value u
  exact .ite h (.ite hu (hu.foldl fun _ _ h => .ite h.mchk h.logError))

theorem hear {d : Nat} {m : Msg} {v : BitVec 128} {b : Option (Nat × Nat)} (h : s.Canon) : (s.hear d m v b).Canon := by
  unfold State.hear
  extract_lets nacked ops u k w
  have hu : u.Canon := other (h.mapBlocks (f := fun b' => if dieOf b'.core = d then
    { b' with savedOps := b'.savedOps.map (fun p => (p.1, p.2.hear m v b)) } else b') fun b' hs ha => by split <;> exact ⟨hs, ha⟩)
  have hw : w.Canon := hu.dieKept rfl
  clear_value w
  split
  exact (hw.foldl fun _ _ h => h.nackOp).hearPosts.foldl fun _ _ h => h.hearLaunch

theorem release {d : Nat} {m : Msg} (h : s.Canon) : (s.release d m).Canon := h.dieKept rfl

theorem answers {d k : Nat} {m : Msg} {f : State → State} (h : s.Canon) (hf : ∀ s, s.Canon → (f s).Canon) :
    (s.answers d k m f).Canon := by
  refine .ite h.dropMsg ?_
  split
  · exact h
  · exact .ite h.dropMsg (hf s h)

theorem answered {d k : Nat} {m : Msg} {v : BitVec 128} {b : Option (Nat × Nat)} (h : s.Canon) : (s.answered d k m v b).Canon :=
  h.answers fun _ hu => .ite hu.release.hear hu.release

theorem resend {d : Nat} {p : TxConn → Bool} {f : Msg → Bool} (h : s.Canon) : (s.resend d p f).Canon :=
  h.foldl fun _ _ h => h.foldl fun _ _ h => h.route

theorem nack {d : Nat} {m : Msg} (h : s.Canon) : OutCanon (execNack d m s) :=
  .ite (h.answers fun _ hu => hu.resend) h.answered

/-! Messages that stop launches and answer traps (R295, R300, R304, R316). -/

theorem stopRequest {d : Nat} {m : Msg} (h : s.Canon) : (s.stopRequest d m).Canon := by
  refine h.request fun u hu => ?_
  extract_lets
  split
  · exact hu
  · split
    · exact hu
    · exact hu.stateOf (.ite hu.preEmptionRequest hu.killRequest)

theorem trapRequest {d : Nat} {m : Msg} (h : s.Canon) : (s.trapRequest d m).Canon := by
  refine h.request fun u hu => ?_
  extract_lets
  split
  · exact hu
  · split
    next e => exact hu.trapAnswer.ok e
    · exact hu

theorem arrive {d : Nat} {m : Msg} (h : s.Canon) : (s.arrive d m).Canon := by
  unfold State.arrive
  split
  · exact h.answered
  · exact h.stopRequest
  · exact h.trapRequest
  · exact h.dropMsg

/-! Context commands (R327 to R330). -/

theorem commandWith {c : Cmd} {f : State → Verdict × State} (h : s.Canon) (hf : ∀ s, s.Canon → (f s).2.Canon) :
    OutCanon (s.commandWith c f) := by
  refine .ite h.dropMsg (.ite h (.ite (hf s h) (State.Canon.receive h fun u hu => ?_)))
  split
  next e => exact (hf u hu).ofPair e
  next e => exact (hf u hu).ofPair e

theorem command {c : Cmd} {f : State → Option State} (h : s.Canon) (hf : ∀ s t, s.Canon → f s = some t → t.Canon) :
    OutCanon (s.command c f) := by
  refine h.commandWith fun u hu => ?_
  split
  next e => exact hf u _ hu e
  · exact hu

theorem invalidate {c : Cmd} {a : BitVec 16} {lo hi : Nat} (h : s.Canon) : (s.invalidate c a lo hi).2.Canon := by
  unfold State.invalidate
  extract_lets key begun awaited u k others
  have hu : u.Canon := .ite h h.dropTranslations
  split
  · exact hu.dieKept rfl
  · exact hu.dieKept rfl

theorem setState {c : Cmd} {x : CtxSet} (h : s.Canon) : OutCanon (execSetState c x s) := by
  refine h.command fun u v hu e => ?_
  split at e
  · cases e
  · cases e
    exact hu.setCtx

theorem enable {c : Cmd} {x : Nat} (h : s.Canon) : OutCanon (execEnable c x s) := by
  refine h.command fun u v hu e => ?_
  split at e
  · cases e
  · cases e
    exact hu.setCtx

theorem disable {c : Cmd} {x : Nat} (h : s.Canon) : OutCanon (execDisable c x s) := by
  refine h.commandWith fun u hu => ?_
  split
  · exact hu
  · extract_lets ls v k
    have hv : v.Canon := hu.foldl fun _ _ h => h.killLaunch
    exact hv.setCtx.dropLeaves.invalidate

theorem assignQueue {c : Cmd} {x q : Nat} (h : s.Canon) : OutCanon (execAssignQueue c x q s) := by
  refine h.command fun u v hu e => ?_
  split at e
  · cases e
  · cases e
    exact hu.dieKept rfl

theorem grantIngotSegment {c : Cmd} {x g : Nat} (h : s.Canon) : OutCanon (execGrantIngotSegment c x g s) := by
  refine h.command fun u v hu e => ?_
  split at e
  · cases e
  · cases e
    exact hu.setCtx

theorem writePeerEntry {c : Cmd} {x i : Nat} {p : PeerEntry} (h : s.Canon) : OutCanon (execWritePeerEntry c x i p s) := by
  refine h.command fun u v hu e => ?_
  extract_lets at e
  split at e
  · cases e
  · cases e
    exact hu.setCtx

theorem clearPeerEntry {c : Cmd} {x i : Nat} (h : s.Canon) : OutCanon (execClearPeerEntry c x i s) := by
  refine h.commandWith fun u hu => ?_
  extract_lets
  split
  · exact hu
  · split
    · exact hu
    · exact hu.setCtx

theorem removeHeld {d c : Nat} {g : DWord} (h : s.Canon) (e : s.removeHeld d c g = some t) : t.Canon := by
  unfold State.removeHeld at e
  extract_lets at e
  split at e
  · cases e
  · split at e
    · cases e
    · obtain ⟨x, -, rfl⟩ := Option.map_eq_some_iff.mp e
      exact h.dropLaunch.setLaunch
    · cases e
      exact h.dropOps.mapBlocks fun _ hs ha => ⟨hs, ha⟩

theorem removeHeldRecord {c : Cmd} {x : Nat} {g : DWord} (h : s.Canon) : OutCanon (execRemoveHeldRecord c x g s) :=
  h.command fun _ _ hu e => hu.removeHeld e

theorem readErrorLog {c : Cmd} (h : s.Canon) : OutCanon (execReadErrorLog c s) := by
  unfold execReadErrorLog
  exact h.commandWith fun _ hu => hu.other

theorem invalidateTranslations {c : Cmd} {x : Nat} {a n : DWord} (h : s.Canon) :
    OutCanon (execInvalidateTranslations c x a n s) := by
  refine h.commandWith fun u hu => ?_
  split
  · exact hu
  · exact hu.invalidate

end
end State.Canon
end Sys2Proof.Machine
end

section
/-! The instructions that compute, every instruction and event, and every step keep the canonical form: O8. -/

namespace Sys2Proof.Machine

open Sys2Proof

/-! The meanings of the instructions that compute. -/

theorem settles_withFlags {s : State} {fl : Flags} {k : State → State} (h : s.Canon) (hk : ∀ s, s.Canon → (k s).Canon) :
    Settles id (s.withFlags fl k) :=
  .ite h (hk _ h.putW)

namespace BodyKeeps

section
variable {n : Nat}

theorem writesScalar {f : State → DWord} : BodyKeeps (fun s => .ok (s.wrS n (f s))) := fun _ h => h.wrS

theorem writesLanes {m : State → Mask} {f : State → Nat → Word} : BodyKeeps (fun s => .ok (s.wrLanes n (m s) (f s))) :=
  fun _ h => h.wrLanes

theorem writesMask {m : State → Mask} {p : State → Nat → Bool} : BodyKeeps (fun s => .ok (s.wrMask n (m s) (p s))) :=
  fun _ h => h.wrMask

theorem fpLanes {f : State → Nat → FRes} : BodyKeeps (fpLanes n f) := fun _ h => settles_withFlags h fun _ hu => hu.wrLanes
theorem fpPairs {f : State → Nat → FRes} : BodyKeeps (fpPairs n f) := fun _ h => settles_withFlags h fun _ hu => hu.wrPair

theorem fpCompare {c : Cmp} {x y : State → Nat → FVal} : BodyKeeps (fpCompare n c x y) :=
  fun _ h => settles_withFlags h fun _ hu => hu.wrMask

theorem reduceAddF32 {d a : BitVec 7} : BodyKeeps (reduceAddF32 d a) := fun _ h => settles_withFlags h fun _ hu => hu.wrS
theorem scanAddF32 {d a : BitVec 7} : BodyKeeps (scanAddF32 d a) := fun _ h => settles_withFlags h fun _ hu => hu.wrLanes

theorem maxIndex {f : Fmt} {d a b : BitVec 7} : BodyKeeps (maxIndex f d a b) := by
  intro s h
  unfold Machine.maxIndex
  split
  · exact h
  · exact h.wrLanes.wrLanes

theorem callImm {imm : BitVec 21} :
    BodyKeeps (Machine.callBody (fun s => .ok (s.issue.pc + BitVec.ofInt 57 (sext 21 imm.toNat * 4)))) :=
  callBody fun _ _ _ e => nomatch e

theorem callReg {a : BitVec 7} : BodyKeeps (Machine.callBody (fun s =>
    if fieldOf (s.rdS a.toNat) 0 2 ≠ 0 then trapE s eAlign else .ok ((s.rdS a.toNat).setWidth 57))) :=
  callBody fun s h p e => by
    split at e
    · cases e
      exact h
    · cases e

end
end BodyKeeps

namespace State.Canon

section
variable {s t : State}

/-! Prefixes (R87, R88) and the report of a die (R332). -/

theorem ximm {imm : BitVec 21} (h : s.Canon) : OutCanon (execXimm imm s) := .ite h.other trivial
theorem ksel {n : BitVec 1} {m : BitVec 3} (h : s.Canon) : OutCanon (execKsel n m s) := .ite h.other trivial
theorem attestationReport {d : Nat} {x : BitVec 512} (h : s.Canon) : OutCanon (execAttestationReport d x s) := h.other

/-- Every instruction and every event keeps the forms. -/
theorem exec {i : Instr} (h : s.Canon) : OutCanon (exec i s) := by
  cases i with
  | nop | trap | brkp => exact h.perform fun _ hu => hu
  | ximm => exact h.ximm
  | ksel => exact h.ksel
  | missGroupMerge => exact h.missGroupMerge
  | scoreboardClear => exact h.scoreboardClear
  | exitDrainComplete => exact h.exitDrainComplete
  | registerDrainComplete => exact h.registerDrainComplete
  | taskStart => exact h.taskStart
  | taskSteal => exact h.taskSteal
  | ladleOptionalSpill => exact h.ladleOptionalSpill
  | ladleOptionalRefill => exact h.ladleOptionalRefill
  | rgrowGrant | stageRingGrant | qfenceCompletion | mwinApply | weightCacheEntryGrant | obldGrant | abarWaitResume |
    fjoinReturn | mwaitReturn | yieldContinuation | waitPauseEnd | tinsLockRelease | engineQueueEntry | riddleJobQueueEntry =>
    exact h.grant
  | barhang => exact h.barhang
  | pourPermitGrant => exact h.pourPermitGrant
  | copyPerform => exact h.copyPerform
  | ingotLoadState => exact h.ingotLoadState
  | bankRefresh => exact h.bankRefresh
  | followOnMmaEntry => exact h.followOnMmaEntry
  | matrixOperationPerform => exact h.matrixOperationPerform
  | engineOperationCompletion => exact h.engineOperationCompletion
  | samplerFetchCompletion => exact h.samplerFetchCompletion
  | deferredFaultDelivery => exact h.deferredFaultDelivery
  | engineFaultDelivery => exact h.engineFaultDelivery
  | trapAction => exact h.trapAction
  | mchk => exact h.mchk
  | junctionOvertemperature => exact h.junctionOvertemperature
  | dieReset => exact h.bootDie
  | loadKey => exact h.loadKey
  | clearKey => exact h.clearKey
  | setPowerCap => exact h.setPowerCap
  | attestationReport => exact h.attestationReport
  | firmwareLoad => exact h.firmwareLoad
  | holdAdmission | admissionHoldRelease | setSystemAccessKey => exact h.dieKept rfl
  | admission => exact h.admission
  | blockMigration => exact h.blockMigration
  | launchCompletion => exact h.launchCompletion
  | preEmptionRequest => exact h.preEmptionRequest
  | preEmptionSaveComplete => exact h.preEmptionSaveComplete
  | resumption => exact h.resumption
  | killRequest => exact h.killRequest
  | riddleJobCompletion => exact h.jobRun
  | binRasterisation => exact h.rasterNext
  | collectiveRequest => exact h.collectiveRequest
  | collectiveResultCopy => exact h.collectiveResultCopy
  | haloLeafDelivery => exact h.haloLeafDelivery
  | write => exact h.write
  | readRequest => exact h.readRequest
  | readResponse | atomicResponse | ack => exact h.answered
  | atomic => exact h.atomic
  | reduce => exact h.reduce
  | launch => exact h.launch
  | stepCounterUpdate => exact h.stepCounterUpdate
  | nack => exact h.nack
  | retransmitTimeout => exact h.resend
  | setState => exact h.setState
  | enable => exact h.enable
  | disable => exact h.disable
  | assignQueue => exact h.assignQueue
  | grantIngotSegment => exact h.grantIngotSegment
  | writePeerEntry => exact h.writePeerEntry
  | clearPeerEntry => exact h.clearPeerEntry
  | removeHeldRecord => exact h.removeHeldRecord
  | readErrorLog => exact h.readErrorLog
  | invalidateTranslations => exact h.invalidateTranslations
  | unusedOpcode => exact h.unusedOpcode
  | bankRefreshEnd => exact h.bankRefreshEnd
  | bra => exact h.perform fun _ hu => hu.jump
  | bscZ | bscNz => exact h.perform .branchScalar
  | brvT | brvF => exact h.perform .branchVector
  | conv => exact h.perform .converge
  | exit => exact h.perform .exitBody
  | yield => exact h.perform .yieldBody
  | wait => exact h.perform .waitBody
  | mwait => exact h.perform .mwaitBody
  | idem => exact h.perform .idemBody
  | bar | barg => exact h.perform .barBody
  | call => exact h.perform .callImm
  | calli => exact h.perform .callReg
  | ret => exact h.perform .returnBody
  | frame => exact h.perform .frameBody
  | wbase => exact h.perform .wbaseBody
  | rgrow => exact h.perform .rgrowBody
  | rshrink => exact h.perform .rshrinkBody
  | lclk => exact h.perform .lclkBody
  | eret => exact h.perform .eretBody
  | ctlr | saddImm | ssel | vmovRd | xbal | sadd | ssub | smul | smulhS | smulhU | sand | sor | sxor | sshl | sshr | ssra |
    sminS | sminU | smaxS | smaxU | scmpEq | scmpNe | scmpLt | scmpLe | scmpLtu | scmpLeu | sshlImm | sshrImm | ssraImm | smov
    | spopc | sclz | sli | sadr | xredAddInt | xredAnd | xredOr | xredMinF32 | xredMaxF32 =>
    exact h.perform .writesScalar
  | ctlw => exact h.perform .ctlwBody
  | sldB | sldH | sldW | sldD => exact h.perform .scalarLoad
  | sstB | sstH | sstW | sstD => exact h.perform .scalarStore
  | vadd | vaddSat | vsub | vsubSat | vmulLo | vmulHiS | vmulHiU | vand | vor | vxor | vshl | vshr | vsra | vminS | vminU |
    vmaxS | vmaxU | vbfeS | vbfeU | vmad | vsel | vbfi | vmov | vpopc | vclz | vmovBc | qswz | xshfIdx | xshfUp | xshfDown |
    xshfXor | xscanAddInt =>
    exact h.perform .writesLanes
  | vcmpEq | vcmpNe | vcmpLt | vcmpLe | vcmpLtu | vcmpLeu => exact h.perform .writesMask
  | fadd | faddRn | faddRz | fsub | fsubRn | fsubRz | fmul | fmulRn | fmulRz | fdiv | ffma | ffmaRn | ffmaRz | fmin | fmax |
    frcp | frsq | fsqrt | fexp2 | flog2 | fsin | fcos | fcvtF32F16 | fcvtF32Bf16 | fcvtF16F32 | fcvtBf16F32 | fcvtF32E4m3 |
    fcvtF32E5m2 | fcvtE4m3F32Sat | fcvtE4m3F32 | fcvtE5m2F32Sat | fcvtE5m2F32 | fcvtF32T8 | fcvtT8F32 | fcvtF32T6 | fcvtT6F32
    | fcvtF32E2m1 | fcvtE2m1F32 | fcvtF32Int | fcvtF32Uint | fcvtIntF32 | fcvtUintF32 | fcvtF32F64 | fcvtIntF64 | hadd2F16 |
    hadd2Bf16 | hmul2F16 | hmul2Bf16 | hfma2F16 | hfma2Bf16 | qddxFine | qddxCoarse | qddyFine | qddyCoarse =>
    exact h.perform .fpLanes
  | fcmpEq | fcmpNe | fcmpLt | fcmpLe | fcmpUn | fcmpOrd | dcmpEq | dcmpLt | dcmpLe | dcmpUn => exact h.perform .fpCompare
  | fcvtF64F32 | fcvtF64Int | dadd | dmul | dfma | ddiv | dsqrt => exact h.perform .fpPairs
  | xredAddF32 => exact h.perform .reduceAddF32
  | xscanAddF32 => exact h.perform .scanAddF32
  | xmaxiF16 | xmaxiF32 => exact h.perform .maxIndex
  | vldBImm | vldHImm | vldWImm | vldDImm | vldBIdx | vldHIdx | vldWIdx | vldDIdx | vldsW | vldsD | vldi =>
    exact h.perform .vecLoad
  | vstBImm | vstHImm | vstWImm | vstDImm | vstBIdx | vstHIdx | vstWIdx | vstDIdx | vstsW | vstsD => exact h.perform .vecStore
  | atomAdd | atomMinS | atomMaxS | atomMinU | atomMaxU | atomAnd | atomOr | atomExch | atomCas => exact h.perform .atomWord
  | atomMaxi => exact h.perform .atomMaxi
  | atomq => exact h.perform .atomqBody
  | fenceWarp | fenceBlock | fenceGang | fenceDie | fenceDevice | fenceSystem => exact h.perform .fenceBody
  | tfenceDie | tfenceDevice | tfenceSystem => exact h.perform .tfenceBody
  | qfence => exact h.perform .qfenceBody
  | pref => exact h.perform .prefBody
  | copyG2s | copyS2g | copyG2g | copyIngot | copyHalo => exact h.perform .copyBody
  | copym => exact h.perform .copymBody
  | abarArrive => exact h.perform .abarArriveBody
  | abarWait => exact h.perform .abarWaitBody
  | stgaProd | stgaCons => exact h.perform .stgaBody
  | stgrProd | stgrCons => exact h.perform .stgrBody
  | mshp => exact h.perform .mshpBody
  | mwin => exact h.perform .mwinBody
  | mzero => exact h.perform .mzeroBody
  | mmaBf16 | mmaF16 | mmaE4m3 | mmaE5m2 | mmaT8 | mmaT6 | mmaxE2m1 | mmaxE4m3 | msca => exact h.perform .mmaBody
  | maccRd => exact h.perform .maccRdBody
  | maccWr => exact h.perform .maccWrBody
  | mstaF32 | mstaBf16 => exact h.perform .mstaBody
  | tlook => exact h.perform .tlookBody
  | vldnS7 | vldnS19 | vldnB27 | vldnLine => exact h.perform .vldnBody
  | vstv => exact h.perform .vstvBody
  | tins => exact h.perform .tinsBody
  | tactSet | tactClr => exact h.perform .tactBody
  | twalk => exact h.perform .twalkBody
  | txb => exact h.perform .txbBody
  | txsL | txsG => exact h.perform .txsBody
  | cull => exact h.perform .cullBody
  | pexp => exact h.perform .pexpBody
  | obld => exact h.perform .obldBody
  | oble => exact h.perform .obleBody
  | ksrtK32 | ksrtK64 | binc => exact h.perform .jobBody
  | vbrd => exact h.perform .vbrdBody
  | fork => exact h.perform .forkBody
  | fjoin => exact h.perform .fjoinBody
  | lnch => exact h.perform .lnchBody
  | collRed | collGather => exact h.perform .collBody
  | rld => exact h.perform .rldBody
  | rst => exact h.perform .remoteBody
  | rred => exact h.perform .rredBody

theorem runWord {w : Word} (h : s.Canon) : OutCanon (runWord w s) := by
  unfold Machine.runWord
  split
  · exact h.exec
  · exact h.unusedOpcode

/-! Actions and steps (R89, R154, R283, R284). -/

theorem begin (h : s.Canon) : s.begin.Canon := other h.passClocks

theorem tally {b : Bool} {w e : Nat} (ht : t.Canon) : (s.tally t b w e).Canon := by
  unfold State.tally
  extract_lets i waited q _ u
  have hu : u.Canon := ht.setQuarter
  clear_value u
  refine .ite ht ?_
  split
  · exact hu.setWarp
  · exact hu

theorem dropAct {a : Act} (h : s.Canon) : (s.dropAct a).Canon := by
  unfold State.dropAct
  split
  · split
    · exact h.removeLines
    · exact h
  · exact h.setCluster
  · exact h.setCluster
  · exact h.setCluster
  · exact h.passClocks
  · exact h

end
end State.Canon

namespace OutCanon

section
variable {o : Out}

theorem ended (h : OutCanon o) : OutCanon (ended o) := by
  cases o with
  | next u => exact State.Canon.other h
  | fault => trivial
  | refused => trivial

theorem ending {w : Nat} (h : OutCanon o) : OutCanon (ending w o) := by
  cases o with
  | next u => exact State.Canon.ite (State.Canon.setWarp h) h
  | fault => trivial
  | refused => trivial

theorem counted {s : State} {a : Act} (h : OutCanon o) : OutCanon (s.counted a o) := by
  unfold State.counted
  extract_lets who
  clear_value who
  split
  · exact State.Canon.tally h
  · exact h

end
end OutCanon

namespace State.Canon

section
variable {s : State} {w e : Nat}

theorem retryAct (h : s.Canon) : OutCanon (s.retryAct Machine.runWord w e) := by
  unfold State.retryAct
  split
  · split
    · exact State.Canon.ite h.settleRet h
    · exact State.Canon.ite h.settleBars h
    · exact State.Canon.ite h.settleBars h
    · exact .ite (h.retryWait fun _ _ => runWord).ending h
    · exact .ite (h.retryWait fun _ _ => runWord).ending h
    · exact h.grant
  · exact h

theorem endAct (h : s.Canon) : OutCanon (s.endAct Machine.runWord w e) := by
  have hb : OutCanon (s.behindTrap w e fun u => u.retryWait Machine.runWord w e) :=
    h.behindTrap fun _ hu => hu.retryWait fun _ _ => runWord
  unfold State.endAct
  split
  · exact .ite hb.ending (.ite hb h)
  · exact h

theorem landAct (h : s.Canon) : OutCanon (s.landAct Machine.runWord w e) :=
  .ite (h.behindTrap fun _ hu => hu.landFlight fun _ _ => runWord).ending h

theorem act {a : Act} (h : s.Canon) : OutCanon (s.act Machine.runWord Machine.exec a) := by
  unfold State.act
  split
  · exact .ite h h.exec
  · exact .ite (h.issueStrand fun _ _ => runWord) h
  · exact .ite h.retryAct h.endAct
  · exact h.landAct
  · split
    · exact h.exec
    · exact h.arrive
  · exact h.dropAct

/-- Every step keeps the forms. -/
theorem step (h : s.Canon) : OutCanon (step s) := by
  unfold Machine.step State.stepWith
  extract_lets u
  have hu : u.Canon := h.begin
  clear_value u
  split
  · exact (State.Canon.act hu.other).counted.ended
  · split
    · exact hu.act.counted.ended
    · exact hu

end
end State.Canon

/-- Settles O8: every operation of the machine keeps the forms, so every action does, and so every step. -/
theorem everyStepKeepsTheCanonicalForms : Obligations.EveryStepKeepsTheCanonicalForms := by
  unfold Obligations.EveryStepKeepsTheCanonicalForms
  exact fun s t h e => (State.Canon.step h).next e

end Sys2Proof.Machine
end

section
/-! The exchanges within a quad (R381, R382). -/

namespace Sys2Proof.Machine
open Sys2Proof

theorem runs_qswz (d a b : BitVec 7) : ∃ info, info.d = .vdst 1 ∧ Runs (.qswz d a b) info (quadSwizzle d a b) :=
  ⟨_, rfl, runs (fun _ => rfl) rfl rfl rfl⟩

/-- QSWZ reads lane 4q + sel, the selector being two bits of s[b] for each lane of a quad (R382). -/
theorem qswz_result (d a b : BitVec 7) : VectorResult (.qswz d a b) d
    (fun s l => s.lane a.toNat (l / 4 * 4 + (s.rdS b.toNat).toNat / 2 ^ (2 * (l % 4)) % 4)) := by
  obtain ⟨info, hdst, hr⟩ := runs_qswz d a b
  exact Laws.lanes_of_body hr (dField d a b) (.inl hdst) _ (fun _ => rfl) (fun _ _ => rfl)

/-- The rounded difference of the quad's lanes that `plus` and `minus` select (R381). -/
theorem quadDiff_result {i : Instr} {d a : BitVec 7} (plus minus : Nat → Nat) (hfl : i.fields.extractLsb' 14 7 = d)
    (hr : ∃ info, info.d = .vdst 1 ∧ Runs i info (quadDiff d a plus minus)) :
    FpResult i d (fun s l =>
      let at_ := fun (k : Nat) => decodeF fp32 (s.lane a.toNat (l / 4 * 4 + k)).toNat
      finish fp32 s.cw.rmode false (addExact s.cw.rmode (at_ (plus (l % 4))) (at_ (minus (l % 4))).neg)) := by
  obtain ⟨info, hdst, hr⟩ := hr
  exact Laws.fp_of_lanes hr hfl (.inl hdst) (fun _ _ => rfl)

/-- Settles O19: QSWZ by its lanes, the four differences as one meaning with other selections. -/
theorem quadExchangesStayInTheQuad : Obligations.QuadExchangesStayInTheQuad := by
  unfold Obligations.QuadExchangesStayInTheQuad
  refine fun d a b => ⟨qswz_result d a b, ?_, ?_, ?_, ?_⟩
  · exact quadDiff_result (fun i => if i < 2 then 1 else 3) (fun i => if i < 2 then 0 else 2) (dField d a 0)
      ⟨_, rfl, runs (fun _ => rfl) rfl rfl rfl⟩
  · exact quadDiff_result (fun _ => 1) (fun _ => 0) (dField d a 0) ⟨_, rfl, runs (fun _ => rfl) rfl rfl rfl⟩
  · exact quadDiff_result (fun i => if i % 2 = 0 then 2 else 3) (fun i => i % 2) (dField d a 0)
      ⟨_, rfl, runs (fun _ => rfl) rfl rfl rfl⟩
  · exact quadDiff_result (fun _ => 2) (fun _ => 0) (dField d a 0) ⟨_, rfl, runs (fun _ => rfl) rfl rfl rfl⟩
end Sys2Proof.Machine
end

section
/-! BRV (R23): both senses of the one meaning. -/

namespace Sys2Proof.Machine
open Sys2Proof

theorem runs_brvT (d : BitVec 7) (imm : BitVec 14) : ∃ info, Runs (.brvT d imm) info (branchVector true d imm) :=
  ⟨_, runs (fun _ => rfl) rfl rfl rfl⟩

theorem runs_brvF (d : BitVec 7) (imm : BitVec 14) : ∃ info, Runs (.brvF d imm) info (branchVector false d imm) :=
  ⟨_, runs (fun _ => rfl) rfl rfl rfl⟩

/-- Settles O25: BRV.t and BRV.f are one meaning with either sense; it is uniform where one of the two lane sets is empty. -/
theorem vectorBranchesFollowTheTable : Obligations.VectorBranchesFollowTheTable := by
  unfold Obligations.VectorBranchesFollowTheTable
  refine ⟨fun d imm s => ⟨fun h => ?_, fun h => ?_⟩, fun d imm s => ⟨?_, ?_⟩⟩
  · obtain ⟨_, hr⟩ := runs_brvT d imm
    exact Laws.branchVector_uniform true hr s h _ rfl
  · obtain ⟨_, hr⟩ := runs_brvF d imm
    exact Laws.branchVector_uniform false hr s h _ rfl
  · obtain ⟨_, hr⟩ := runs_brvT d imm
    exact Laws.branchVector_divergent true hr s _ rfl
  · obtain ⟨_, hr⟩ := runs_brvF d imm
    exact Laws.branchVector_divergent false hr s _ rfl
end Sys2Proof.Machine
end

section
/-! CONV (R24). -/

namespace Sys2Proof.Machine
open Sys2Proof

theorem runs_conv : ∃ info, Runs .conv info converge := ⟨_, runs (fun _ => rfl) rfl rfl rfl⟩

theorem converge_pending {s : State} {top : StackRec} {rest : List StackRec} (hs : s.cs.stack = top :: rest)
    (hd : top.done = false) (hp : top.pending ≠ 0) : converge s = .ok ((s.putS { s.cs with
      mask := top.pending, stack := { top with ppc := s.issue.chain, done := true } :: rest, region := none }).jump top.ppc) := by
  unfold converge
  simpa [hs, hd] using fun h0 => absurd h0 hp

/-- A pop that leaves a resident record, or has none spilled below it, only drops the top (R27). -/
theorem popRec_resident {s : State} {w e base : Nat} {rs : List HostResp} {t : Strand} {top : StackRec} {rest : List StackRec}
    (hs : t.stack = top :: rest) (hr : rest ≠ [] ∨ t.spilledRecs = 0) :
    s.popRec w e base rs t = .ok ({ t with stack := rest }, s) := by
  unfold State.popRec
  rcases hr with hr | hr <;> simp [hs, hr]

theorem converge_pops {s : State} {top : StackRec} {rest : List StackRec} (hs : s.cs.stack = top :: rest)
    (hd : top.done = true ∨ top.pending = 0) (hr : rest ≠ [] ∨ s.cs.spilledRecs = 0) :
    converge s = .ok (s.putS { s.cs with
      mask := top.saved, stack := rest, region := if top.saved = s.cs.mask then s.cs.region else none }) := by
  unfold converge
  rcases hd with hd | hd <;> simp [hs, hd, popRec_resident hs hr]

theorem converge_root {s : State} (hs : s.cs.stack = []) (hk : s.cs.kind ≠ .arm ∨ s.inHandler = true) : converge s = .ok s := by
  unfold converge
  rcases hk with hk | hk <;> simp [hs, hk]

theorem converge_arm {s : State} (hs : s.cs.stack = []) (hk : s.cs.kind = .arm) (hh : s.inHandler = false) :
    converge s = .error (.done ((s.putS { s.cs with st := .joining, wait := none }).joinGroup s.issue.warp s.cs.group)) := by
  unfold converge
  simp [hs, hk, hh]

/-- Settles O26: one equation of CONV's meaning for each case. -/
theorem convergeRunsPendingPopsAndJoins : Obligations.ConvergeRunsPendingPopsAndJoins := by
  unfold Obligations.ConvergeRunsPendingPopsAndJoins
  intro s h
  obtain ⟨info, hr⟩ := runs_conv
  refine ⟨fun top rest hs hd hp => ?_, fun top rest hs hd hsp => ?_, fun hs hk => ?_, fun hs hk hh => ?_⟩
  · exact hr.ok h (converge_pending hs hd hp)
  · exact hr.ok h (converge_pops hs hd hsp)
  · exact Laws.goes_of_body hr none s h (converge_root hs hk)
  · exact Laws.settle_done hr h (converge_arm hs hk hh)
end Sys2Proof.Machine
end

section
/-! Lanes that leave the warp (R26, R39, R360). -/

namespace Sys2Proof.Machine
open Sys2Proof

theorem runs_exit : ∃ info, Runs .exit info exitBody := ⟨_, runs (fun _ => rfl) rfl rfl rfl⟩

/-! Masks without the lanes that leave. -/

/-- No record of a stack holds one of some lanes. -/
def StackAvoids (m : Mask) (rs : List StackRec) : Prop := ∀ r ∈ rs, r.saved &&& m = 0 ∧ r.pending &&& m = 0

/-- A strand runs none of some lanes, and holds none in its stack. -/
def Strand.Avoids (t : Strand) (m : Mask) : Prop := t.mask &&& m = 0 ∧ StackAvoids m t.stack

theorem andNot_and (x m : Mask) : x &&& ~~~m &&& m = 0 := by
  rw [BitVec.and_assoc, BitVec.and_comm (~~~m) m, BitVec.and_not_self]
  exact BitVec.and_zero

theorem and_and_zero {x y m : Mask} (h : y &&& m = 0) : x &&& y &&& m = 0 := by
  rw [BitVec.and_assoc, h]
  exact BitVec.and_zero

theorem without_avoids (t : Strand) (m : Mask) : (t.without m).Avoids m := by
  refine ⟨andNot_and _ _, fun r hr => ?_⟩
  obtain ⟨r, -, rfl⟩ := List.mem_map.mp hr
  exact ⟨andNot_and _ _, andNot_and _ _⟩

/-! Reads of the Ladle and pops leave the warps. -/

theorem ladlePieces_aside {w : Who} (hf : w.fab = false) {rs : List HostResp} {ps : List (Nat × Nat)} {s u : State} {bs : List Byte}
    (h : s.ladlePieces w rs ps = .ok (bs, u)) : u.aside = s.aside := by
  induction ps generalizing s u bs with
  | nil =>
    cases h
    rfl
  | cons p ps ih =>
    unfold State.ladlePieces at h
    dsimp only at h
    split at h
    · cases h
    · next here cs v hone =>
      have hv : v.aside = s.aside := by
        split at hone
        · cases hone; rfl
        · cases hone
        · split at hone
          · cases hone
          · split at hone
            · cases hone
            · injection hone with hone
              rw [show v = _ from (congrArg Prod.snd hone).symm]
              exact homeRead_aside _ _ _ _ _ _ hf
      split at h
      · cases h
      · next hrest =>
        cases h
        exact (ih hrest).trans hv

theorem ladleRead_warps {s u : State} {w off n : Nat} {rs : List HostResp} {bs : List Byte}
    (h : s.ladleRead w rs off n = .ok (bs, u)) : u.warps = s.warps := (Apart.aside (ladlePieces_aside rfl h)).warps

theorem warp_of_warps {s u : State} (h : u.warps = s.warps) (w : Nat) : u.warp w = s.warp w := by
  unfold State.warp
  rw [h]

/-- The lanes of a warp that may come back from its frame area are live ones. -/
theorem freeLanes_sub (x : Warp) (e : Nat) : ∃ y, x.freeLanes e = x.lanes &&& y := by
  unfold Warp.freeLanes
  generalize List.range 4 = l
  suffices h : ∀ m : Mask, (∃ y, m = x.lanes &&& y) → ∃ y, l.foldl (fun m f => if f = e then m else match x.strand f with
      | some u => m &&& ~~~u.mask
      | none => m) m = x.lanes &&& y from h _ ⟨BitVec.allOnes 32, (BitVec.and_allOnes).symm⟩
  induction l with
  | nil => exact fun m hm => hm
  | cons f l ih =>
    rintro m ⟨y, rfl⟩
    refine ih _ ?_
    dsimp only
    split
    · exact ⟨y, rfl⟩
    · split
      · exact ⟨_, BitVec.and_assoc ..⟩
      · exact ⟨y, rfl⟩

theorem freeLanes_avoid {x : Warp} {m : Mask} (e : Nat) (h : x.lanes &&& m = 0) : x.freeLanes e &&& m = 0 := by
  obtain ⟨y, hy⟩ := freeLanes_sub x e
  rw [hy, BitVec.and_comm x.lanes y]
  exact and_and_zero h

/-- A pop changes no warp, and brings back no lane but live ones. -/
theorem popRec_avoids {s v : State} {w e base : Nat} {rs : List HostResp} {t u : Strand} {m : Mask}
    (hl : (s.warp w).lanes &&& m = 0) (ht : StackAvoids m t.stack) (h : s.popRec w e base rs t = .ok (u, v)) :
    StackAvoids m u.stack ∧ v.warps = s.warps := by
  unfold State.popRec at h
  dsimp only at h
  split at h
  · cases h
    exact ⟨fun r hr => ht r (List.mem_of_mem_drop hr), rfl⟩
  · split at h
    · cases h
    · next hread =>
      cases h
      have hw := ladleRead_warps hread
      refine ⟨fun r hr => ?_, hw⟩
      rw [List.mem_singleton] at hr
      subst hr
      rw [warp_of_warps hw]
      exact ⟨and_and_zero (freeLanes_avoid e hl), and_and_zero (freeLanes_avoid e hl)⟩

/-- A strand that has lost lanes ends with none of them, whatever it pops (R360). -/
theorem drainFrom_avoids {w e base : Nat} {rs : List HostResp} {m : Mask} {n : Nat} {s v : State} {t u : Strand}
    (hl : (s.warp w).lanes &&& m = 0) (ht : t.Avoids m) (h : s.drainFrom w e base rs n t = .ok (u, v)) :
    u.mask &&& m = 0 ∧ v.warps = s.warps := by
  induction n generalizing s t with
  | zero =>
    cases h
    exact ⟨ht.1, rfl⟩
  | succ n ih =>
    obtain ⟨hmask, hstack⟩ := ht
    unfold State.drainFrom at h
    split at h
    · cases h
      exact ⟨hmask, rfl⟩
    · split at h
      · cases h
        exact ⟨hmask, rfl⟩
      · next top rest htop =>
        have hrec := hstack top (htop ▸ List.mem_cons_self ..)
        split at h
        · cases h
          exact ⟨hrec.2, rfl⟩
        · split at h
          · cases h
          · next p s' hpop =>
            obtain ⟨hp, hw⟩ := popRec_avoids hl hstack hpop
            have hidle : p.idle.stack = p.stack := by unfold Strand.idle; split <;> rfl
            dsimp only at h
            have hq : ∀ q : Strand, q.mask = top.saved → q.stack = p.idle.stack → q.Avoids m := fun q hm hs =>
              ⟨by rw [hm]; exact hrec.1, by rw [hs, hidle]; exact hp⟩
            obtain ⟨hu, hv⟩ := ih (by rw [warp_of_warps hw]; exact hl) (hq _ (by split <;> rfl) (by split <;> rfl)) h
            exact ⟨hu, hv.trans hw⟩

theorem absent_strand : ∀ e, Warp.absent.strand e = none
  | 0 | 1 | 2 | 3 => rfl
  | _ + 4 => rfl

theorem warp_in_list_of_strand {s : State} {w e : Nat} {t : Strand} (h : (s.warp w).strand e = some t) : w < s.warps.length := by
  by_contra hw
  have habsent : s.warp w = Warp.absent := by
    unfold State.warp nth
    rw [List.getElem?_eq_none (Nat.le_of_not_lt hw)]
    rfl
  rw [habsent, absent_strand] at h
  cases h

/-- No strand in the entries that are looked at keeps one of the lanes (R26, R360). -/
theorem removeLanes_avoids {w : Nat} {m : Mask} {rs : List HostResp} {l : List Nat} {s v : State}
    (hl : (s.warp w).lanes &&& m = 0) (h : s.removeLanes w m rs l = .ok v) {e : Nat}
    (he : e ∈ l ∨ ∀ u, (s.warp w).strand e = some u → u.mask &&& m = 0) {u : Strand} (hu : (v.warp w).strand e = some u) :
    u.mask &&& m = 0 := by
  induction l generalizing s with
  | nil =>
    cases h
    exact he.resolve_left (List.not_mem_nil) u hu
  | cons f l ih =>
    unfold State.removeLanes at h
    split at h
    · next hf =>
      refine ih hl h ?_
      obtain he | he := he
      · obtain rfl | he := List.mem_cons.mp he
        · exact .inr fun u hu => by rw [hf] at hu; cases hu
        · exact .inl he
      · exact .inr he
    · next t hf =>
      split at h
      · next hskip =>
        refine ih hl h ?_
        obtain he | he := he
        · obtain rfl | he := List.mem_cons.mp he
          · refine .inr fun u hu => ?_
            rw [hf] at hu
            cases hu
            simp only [Bool.and_eq_true, decide_eq_true_eq] at hskip
            exact hskip.1
          · exact .inl he
        · exact .inr he
      · split at h
        · cases h
        · next p s' hdrain =>
          obtain ⟨hp, hw⟩ := drainFrom_avoids hl (without_avoids t m) hdrain
          let y := (s'.warp w).setStrand f (if p.mask = 0 then none else some p)
          have hset : (s'.setWarp w y).warp w = (s.warp w).setStrand f (if p.mask = 0 then none else some p) := by
            rw [State.warp_setWarp, if_pos ⟨rfl, by rw [hw]; exact warp_in_list_of_strand hf⟩, ← warp_of_warps hw]
          refine ih (by rw [hset]; exact hl) h ?_
          have hstrand := fun g => Warp.strand_setStrand (s.warp w) f g (if p.mask = 0 then none else some p)
          by_cases hef : e = f
          · refine .inr fun u hu => ?_
            rw [hset, hstrand, if_pos ⟨hef, Warp.strand_in_list _ _ (by rw [hf]; rfl)⟩] at hu
            split at hu
            · cases hu
            · cases hu
              exact hp
          · refine he.imp (fun he => (List.mem_cons.mp he).resolve_left hef) fun he u hu => ?_
            rw [hset, hstrand, if_neg (fun h => hef h.1)] at hu
            exact he u hu

/-! Handlers' strands (R39, R360). -/

theorem drainHandlers_avoids {w : Nat} {m : Mask} {rs : List HostResp} {l hs : List Handler} {s v : State}
    (hl : (s.warp w).lanes &&& m = 0) (h : s.drainHandlers w m rs l = .ok (hs, v)) : ∀ x ∈ hs, x.strand.mask &&& m = 0 := by
  induction l generalizing s v hs with
  | nil =>
    cases h
    exact fun x hx => absurd hx (List.not_mem_nil)
  | cons x l ih =>
    unfold State.drainHandlers at h
    split at h
    · cases h
    · next p s' hdrain =>
      obtain ⟨hp, hw⟩ := drainFrom_avoids hl (without_avoids x.strand m) hdrain
      split at h
      · cases h
      · next r u hrest =>
        cases h
        intro y hy
        obtain rfl | hy := List.mem_cons.mp hy
        · exact hp
        · exact ih (by rw [warp_of_warps hw]; exact hl) hrest y hy

/-! The lanes of parked strands (R360). -/

theorem foldl_or_getLsbD {α : Type} (f : α → Mask) (l : List α) (m : Mask) (i : Nat) :
    (l.foldl (fun m a => m ||| f a) m).getLsbD i = true ↔ m.getLsbD i = true ∨ ∃ a ∈ l, (f a).getLsbD i = true := by
  induction l generalizing m with
  | nil => simp
  | cons a l ih =>
    rw [List.foldl_cons, ih, BitVec.getLsbD_or, Bool.or_eq_true, List.exists_mem_cons_iff, or_assoc]

theorem owned_getLsbD (t : Strand) (l : Nat) : t.owned.getLsbD l = true ↔
    t.mask.getLsbD l = true ∨ ∃ r ∈ t.stack, r.saved.getLsbD l = true ∨ r.pending.getLsbD l = true := by
  have h := foldl_or_getLsbD (fun (r : StackRec) => r.saved ||| r.pending) t.stack t.mask l
  simp only [← BitVec.or_assoc, BitVec.getLsbD_or, Bool.or_eq_true] at h
  exact h

/-- The lanes of the strand in an entry, where it is parked. -/
def Warp.parkedAt (x : Warp) (e : Nat) : Mask :=
  match x.strand e with
  | some t => if t.st = .parked then t.owned else 0
  | none => 0

theorem lanesWhere_parked (x : Warp) : x.lanesWhere true = x.entries.foldl (fun m e => m ||| x.parkedAt e) 0 := by
  unfold Warp.lanesWhere
  congr 1
  funext m e
  unfold Warp.parkedAt
  cases x.strand e with
  | none => simp
  | some t => by_cases h : t.st = .parked <;> simp [h]

theorem parkedLanes_getLsbD {x : Warp} (h : ∀ e t, e < 4 → x.strand e = some t → t.st = .parked → t.spilledRecs = 0) (l : Nat) :
    x.parkedLanes.getLsbD l = true ↔ ∃ e t, e < 4 ∧ x.strand e = some t ∧ t.st = .parked ∧
      (t.mask.getLsbD l = true ∨ ∃ r ∈ t.stack, r.saved.getLsbD l = true ∨ r.pending.getLsbD l = true) := by
  have hentry : ∀ e, e ∈ x.entries ↔ e < 4 ∧ (x.strand e).isSome = true := fun e => by
    unfold Warp.entries
    simp
  have hnone : ¬ x.entries.any (fun e => (x.strand e).any (fun t => decide (t.st = .parked) && decide (t.spilledRecs ≠ 0))) = true := by
    rw [List.any_eq_true]
    rintro ⟨e, he, hany⟩
    obtain ⟨t, ht⟩ := Option.isSome_iff_exists.mp ((hentry e).mp he).2
    rw [ht] at hany
    simp only [Option.any_some, Bool.and_eq_true, decide_eq_true_eq] at hany
    exact hany.2 (h e t ((hentry e).mp he).1 ht hany.1)
  unfold Warp.parkedLanes
  rw [if_neg hnone, lanesWhere_parked, foldl_or_getLsbD]
  constructor
  · rintro (h0 | ⟨e, he, hl⟩)
    · simp at h0
    · obtain ⟨t, ht⟩ := Option.isSome_iff_exists.mp ((hentry e).mp he).2
      unfold Warp.parkedAt at hl
      rw [ht] at hl
      dsimp only at hl
      split at hl
      · next hp => exact ⟨e, t, ((hentry e).mp he).1, ht, hp, (owned_getLsbD t l).mp hl⟩
      · simp at hl
  · rintro ⟨e, t, he, ht, hp, hl⟩
    refine .inr ⟨e, (hentry e).mpr ⟨he, by rw [ht]; rfl⟩, ?_⟩
    unfold Warp.parkedAt
    rw [ht]
    dsimp only
    rw [if_pos hp]
    exact (owned_getLsbD t l).mpr hl

/-! The meaning of EXIT, case by case. -/

/-- No lane of a parked strand would be left to go on. -/
def exitBlocked (s : State) : Prop := s.cw.anyParked = true ∧ s.active = s.cw.lanes &&& ~~~s.cw.parkedLanes

/-- The lanes that an EXIT removes. -/
def exitGone (s : State) : Mask := s.active ||| leavingHelpers (s.cw.lanes &&& ~~~s.active) s.cw.helpers

/-- The warp without them, its strand past the EXIT. -/
def exitBegun (s : State) : State :=
  let s1 := s.putW { s.cw with lanes := s.cw.lanes &&& ~~~exitGone s }
  s1.putS (s1.afterChain s1.cs)

theorem exitBody_blocked {s : State} (ha : s.active ≠ 0) (hb : exitBlocked s) :
    exitBody s = .error (.trap (TrapInfo.of (.stacklim, 0)) s) := by
  unfold exitBody
  dsimp only
  rw [if_neg ha, if_pos (by rw [Bool.and_eq_true, decide_eq_true_eq]; exact hb)]
  rfl

theorem exitBody_goes {s : State} (ha : s.active ≠ 0) (hb : ¬ exitBlocked s) : exitBody s =
    match (if s.inHandler then (exitBegun s).exitHandler (exitGone s) else .ok (exitBegun s)) with
    | .error e => ladleStop s e
    | .ok s3 => match s3.removeLanes s.issue.warp (exitGone s) s.issue.resp [0, 1, 2, 3] with
      | .error e => ladleStop s e
      | .ok s4 => .ok (s4.afterExit s.issue.warp).settled := by
  refine (if_neg ha).trans ((if_neg ?_).trans rfl)
  rw [Bool.and_eq_true, decide_eq_true_eq]
  exact hb

theorem exitBody_program {s v : State} (ha : s.active ≠ 0) (hb : ¬ exitBlocked s) (hh : s.inHandler = false)
    (hr : (exitBegun s).removeLanes s.issue.warp (exitGone s) s.issue.resp [0, 1, 2, 3] = .ok v) :
    exitBody s = .ok (v.afterExit s.issue.warp).settled := by
  rw [exitBody_goes ha hb, hh, if_neg Bool.false_ne_true]
  dsimp only
  rw [hr]

theorem exitBody_handler {s u v : State} {hs : List Handler} (ha : s.active ≠ 0) (hb : ¬ exitBlocked s) (hh : s.inHandler = true)
    (hd : (exitBegun s).drainHandlers s.issue.warp (exitGone s) s.issue.resp ((exitBegun s).warp s.issue.warp).handlers = .ok (hs, u))
    (hr : ((u.setWarp s.issue.warp { u.warp s.issue.warp with handlers := hs }).endHandlers s.issue.warp hs.length).removeLanes
      s.issue.warp (exitGone s) s.issue.resp [0, 1, 2, 3] = .ok v) :
    exitBody s = .ok (v.afterExit s.issue.warp).settled := by
  have hhandler : (exitBegun s).exitHandler (exitGone s) =
      .ok ((u.setWarp s.issue.warp { u.warp s.issue.warp with handlers := hs }).endHandlers s.issue.warp hs.length) := by
    unfold State.exitHandler
    dsimp only
    rw [show (exitBegun s).issue.warp = s.issue.warp from rfl, show (exitBegun s).issue.resp = s.issue.resp from rfl, hd]
  rw [exitBody_goes ha hb, hh, if_pos rfl, hhandler]
  dsimp only
  rw [hr]

/-- The lanes that leave are no lanes of the warp from the first. -/
theorem exitBegun_lanes {s : State} (hw : s.issue.warp < s.warps.length) :
    ((exitBegun s).warp s.issue.warp).lanes &&& exitGone s = 0 := by
  have hlanes : ∀ (x : Warp) e t, (x.setRunner e t).lanes = x.lanes := fun x e t => by
    unfold Warp.setRunner
    split
    · split <;> rfl
    · rfl
  let s1 := s.putW { s.cw with lanes := s.cw.lanes &&& ~~~exitGone s }
  have h1 : s1.cw = { s.cw with lanes := s.cw.lanes &&& ~~~exitGone s } := State.cw_putW s _ hw
  have h2 : (exitBegun s).warp s.issue.warp = s1.cw.setRunner s.issue.entry (s1.afterChain s1.cs) :=
    State.cw_putW s1 _ (by show _ < (s.warps.set _ _).length; rw [List.length_set]; exact hw)
  rw [h2, hlanes, h1]
  exact andNot_and _ _

/-- Settles O27: the meaning's cases, and what is left of the lanes after the loop of R360. -/
theorem exitRemovesTheActiveLanes : Obligations.ExitRemovesTheActiveLanes := by
  unfold Obligations.ExitRemovesTheActiveLanes
  intro s hready
  obtain ⟨_, hr⟩ := runs_exit
  have hbegun := exitBegun_lanes (s := s.atInstr .exit) (show s.issue.warp < s.warps.length from ready_list hready)
  refine ⟨fun ha => ?_, fun ha hb => ?_, parkedLanes_getLsbD, fun ha hb hh s3 hrem => ⟨fun e u he hu => ?_, ?_⟩,
    fun ha hb hh hs s3 s4 hdrain hrem => ⟨?_, ?_⟩⟩
  · exact Laws.goes_of_body hr none s hready (if_pos ha)
  · exact Laws.stops_at hr (.inl (show Cause.stacklim ≠ .page by decide)) hready (exitBody_blocked (s := s.atInstr .exit) ha hb)
  · exact removeLanes_avoids hbegun hrem (.inl (by simp; omega)) hu
  · exact hr.ok hready (exitBody_program (s := s.atInstr .exit) ha hb hh hrem)
  · exact drainHandlers_avoids hbegun hdrain
  · exact hr.ok hready (exitBody_handler (s := s.atInstr .exit) ha hb hh hdrain hrem)

end Sys2Proof.Machine
end

section
/-! Returns of a warp with more entries than a warp has (R20, R34, R69). -/

namespace Sys2Proof.Machine
open Sys2Proof

/-- The record of a caller with the default frame, at depth 0 of the mask stack. -/
def plainCaller : FrameRec := ⟨placeVa, 56, 0, 48, 0, 0, 0, 0, 0, 0, 0, none⟩

/-- A placed warp about to run its RET, with one caller and a fifth entry, whose strand the CALL of that depth parked. -/
def retWithFifthEntry : State :=
  let s := (State.reset.place []).setIssue 0 0 placeVa placeVa 0 false
  s.putW { s.cw with
    strands := s.cw.strands ++ [some { Strand.start 2 placeVa with st := .parked, parkSt := .ready, parkDepth := 1 }],
    callers := [plainCaller] }

/-- That state with its strand waiting at the RET. -/
def fifthEntryAtRet : State := (retWithFifthEntry.atInstr .ret).setWait .ret 0 []

/-- The strand in entry 4 of the issuing warp, after a step. -/
def fifthStateAfter (o : Out) : Option SState :=
  match o with
  | .next t => (t.cw.strand 4).map Strand.st
  | _ => none

theorem retWithFifthEntry_ready : ready .ret retWithFifthEntry = true ∧ retWithFifthEntry.inHandler = false := by decide +kernel

/-- All that the return looks at is as R69 asks: every strand of entries 0 to 3 stands at a RET, at the caller's depth. -/
theorem fifthEntryAtRet_returns : fifthEntryAtRet.cw.allAtRet = true ∧
    fifthEntryAtRet.cw.callers.getLast? = some plainCaller ∧ fifthEntryAtRet.cw.retDepths plainCaller = true := by decide +kernel

theorem fifthEntryAtRet_parked : ∃ t, fifthEntryAtRet.cw.strand 4 = some t ∧ t.st = .parked ∧ t.parkSt = .ready ∧
    t.parkDepth = fifthEntryAtRet.cw.depth :=
  ⟨{ Strand.start 2 placeVa with st := .parked, parkSt := .ready, parkDepth := 1 }, by decide +kernel⟩

/-- The return performed looks at entries 0 to 3 alone. -/
theorem fifth_stays_parked : fifthStateAfter (exec .ret retWithFifthEntry) = some .parked := by decide +kernel

/-- Refutes O29: the last part of its second clause, that a return lets every strand go on which the matching CALL parked, fails
of a state whose warp has a fifth entry. The statement is over such states too, and the model's return looks at four entries. -/
theorem not_callsSlideTheWindowAndReturnsMerge : ¬ Obligations.CallsSlideTheWindowAndReturnsMerge := by
  unfold Obligations.CallsSlideTheWindowAndReturnsMerge
  rintro ⟨-, hret, -⟩
  obtain ⟨hready, hin⟩ := retWithFifthEntry_ready
  obtain ⟨hall, hlast, hdepths⟩ := fifthEntryAtRet_returns
  obtain ⟨t, ht, hst, hpark, hdepth⟩ := fifthEntryAtRet_parked
  obtain ⟨-, hreturns, -⟩ := hret retWithFifthEntry retWithFifthEntry plainCaller hready hin
  obtain ⟨u, hexec, hreturned, -⟩ := hreturns hall hlast fun e he t (ht : fifthEntryAtRet.cw.strand e = some t) => by
    have hshallow := List.all_eq_true.mp hdepths e he
    rw [ht] at hshallow
    exact of_decide_eq_true hshallow
  obtain ⟨v, hv, hvst, -⟩ := hreturned.released 4 t ht hst hdepth
  have hstays := fifth_stays_parked
  rw [hexec] at hstays
  unfold fifthStateAfter at hstays
  dsimp only at hstays
  rw [hv, Option.map_some, hvst, hpark] at hstays
  cases hstays

end Sys2Proof.Machine
end

section
/-! What stands before the checks of roles and names: the scoreboard of other strands' memory instructions (R41, R62). -/

namespace Sys2Proof.Machine
open Sys2Proof

/-- A placed warp about to run an MMA that its role does not allow, while a load of its other strand, in flight, is still to
write s4, which the MMA reads. -/
def mmaBehindLoad : State :=
  let s := (State.reset.place []).setIssue 0 0 placeVa placeVa 0 false
  let load : LogEntry := ⟨encode (.sldD 4 5 0), none, [], placeVa, placeVa, 1, [], [], [], 0, [], [], [], true⟩
  s.putW { (s.cw.setStrand 1 (some { Strand.start 1 placeVa with flight := [load] })) with role := 1 }

/-- Whether a step leaves warp 0 with no trap reported. -/
def warp0Goes (o : Out) : Bool :=
  match o with
  | .next t => (t.warp 0).stopped.isNone
  | _ => false

/-- R62 holds the word back before R41 looks at its role: it waits, and no trap is taken. -/
theorem mmaBehindLoad_waits : warp0Goes (exec (.mmaBf16 4 4 4) mmaBehindLoad) = true := by decide +kernel

/-- ROLE would stop the warp, whose ctl.trapv enables no cause (R295). -/
theorem mmaBehindLoad_role_stops :
    warp0Goes (.next ((mmaBehindLoad.atInstr (.mmaBf16 4 4 4)).raise (TrapInfo.of (.role, 0)))) = false := by
  decide +kernel

theorem mmaBehindLoad_admitted : mmaBehindLoad.issueOk = true ∧ mmaBehindLoad.cs.fault = none ∧
    mmaBehindLoad.inMiss = false ∧ mmaBehindLoad.issue.ks = none ∧ mmaBehindLoad.issue.xs = [] := by decide +kernel

theorem mmaBf16_role_refused : ∃ info, (Instr.mmaBf16 4 4 4).info = some info ∧ roleOk info.role mmaBehindLoad.cw.role = false :=
  ⟨_, rfl, by decide +kernel⟩

/-- Refutes O37: a word with the wrong role that names the destination of another strand's load in flight does not raise ROLE;
it waits (R62). -/
theorem not_prefixesRolesAndNamesAreChecked : ¬ Obligations.PrefixesRolesAndNamesAreChecked := by
  unfold Obligations.PrefixesRolesAndNamesAreChecked
  intro h
  obtain ⟨info, hinfo, hrole⟩ := mmaBf16_role_refused
  obtain ⟨hok, hfault, hmiss, hks, hxs⟩ := mmaBehindLoad_admitted
  obtain ⟨-, hraises, -⟩ := h (.mmaBf16 4 4 4) info mmaBehindLoad hinfo (by simp) (by simp) (by simp) hok (.inr (.inr hfault)) hmiss
  have hexec : exec (.mmaBf16 4 4 4) mmaBehindLoad = _ := hraises ⟨.inl hks, .inl hxs⟩ hrole
  have hwaits := mmaBehindLoad_waits
  rw [hexec, mmaBehindLoad_role_stops] at hwaits
  exact Bool.noConfusion hwaits
end Sys2Proof.Machine
end

section
/-! Work made on the device: FORK, FJOIN and LNCH (R48, R51, R282). -/

namespace Sys2Proof.Machine
open Sys2Proof

/-- A meaning that meets a condition with an address traps there, unless the page is one that is discarded. -/
theorem trapsAt_of_body {i : Instr} {info : OpInfo} {body : Body} {pre : State → Prop} {e : Err} {a : State → Nat}
    (hr : Runs i info body) (he : e.1 ≠ .page ∨ e.2 ≠ 2)
    (hb : ∀ s, pre s → body s = .error (.trap (TrapInfo.atAddr e (a s)) s)) : TrapsAt i pre e a :=
  fun _ h hp => Laws.stops_at hr he h (hb _ hp)

/-- What a scalar answer leaves where the meaning does nothing else. -/
theorem answer_frame {i : Instr} {info : OpInfo} {body : Body} {s : State} {d : BitVec 7} {v : DWord} (hr : Runs i info body)
    (h : ready i s = true) (hd : d.toNat < 64) (hb : body (s.atInstr i) = .ok ((s.atInstr i).wrS d.toNat v)) :
    ∃ t, exec i s = .next t ∧ t.regS d.toNat = v ∧ t.cw.fst = s.cw.fst ∧ ScalarFrame s t (fun n => n = d.toNat) := by
  obtain ⟨hw, hS, hV, hK⟩ := wrS_spec (s.atInstr i) d.toNat v (ready_list h) hd
  have hst := (wrote_retire h hw).1
  refine ⟨_, hr.ok h hb, ?_, hst.fst.trans hw.fst, scalarFrame_of d.toNat h hw (fun n hn hne => ?_) hV hK⟩
  · rw [hst.reads.regS, hS _ hd, if_pos rfl]
  · rw [hS n hn, if_neg hne]; rfl

/-- What retires from a scalar answer in a state that stands apart from the registers. -/
theorem answer_apart {i : Instr} {info : OpInfo} {body : Body} {s u : State} {d : BitVec 7} {v : DWord} (hr : Runs i info body)
    (h : ready i s = true) (hd : d.toNat < 64) (ha : Apart (s.atInstr i) u) (hb : body (s.atInstr i) = .ok (u.wrS d.toNat v)) :
    ∃ t, exec i s = .next t ∧ t.regS d.toNat = v ∧ RegisterFrame s t (fun n => n = d.toNat) (fun _ => False) ∧
      t.mem = u.mem ∧ t.dies = u.dies ∧ t.launches = u.launches ∧ t.cores = u.cores ∧ t.blocks = u.blocks := by
  obtain ⟨-, hframe, hreg⟩ := registerFrame_wrS d.toNat v h ha hd
  have hw := (wrS_spec u d.toNat v (by rw [ha.issue, ha.warps]; exact ready_list h) hd).1
  obtain ⟨hmem, hblocks, hdies, hlaunches, hcores⟩ := Laws.retired_parts h ha hw
  exact ⟨_, hr.ok h hb, hreg, hframe, hmem, hdies, hlaunches, hcores, hblocks⟩

theorem runs_fork (d a b : BitVec 7) : ∃ info, info.fmt ≠ .B ∧ info.d = .sdst ∧ Runs (.fork d a b) info (forkBody d a b) :=
  ⟨_, by decide, rfl, runs (fun _ => rfl) rfl rfl rfl⟩

theorem runs_fjoin (a : BitVec 7) : ∃ info, Runs (.fjoin a) info (fjoinBody a) := ⟨_, runs (fun _ => rfl) rfl rfl rfl⟩

theorem runs_lnch (d a b : BitVec 7) : ∃ info, info.fmt ≠ .B ∧ info.d = .sdst ∧ Runs (.lnch d a b) info (lnchBody d a b) :=
  ⟨_, by decide, rfl, runs (fun _ => rfl) rfl rfl rfl⟩

theorem fork_dst {d a b : BitVec 7} {s : State} (h : ready (.fork d a b) s = true) : d.toNat < 64 := by
  obtain ⟨_, hfmt, hdst, hr⟩ := runs_fork d a b
  exact ready_sdst hr.info h hfmt (.inl hdst) (dField d a b)

theorem lnch_dst {d a b : BitVec 7} {s : State} (h : ready (.lnch d a b) s = true) : d.toNat < 64 := by
  obtain ⟨_, hfmt, hdst, hr⟩ := runs_lnch d a b
  exact ready_sdst hr.info h hfmt (.inl hdst) (dField d a b)

/-- The three conditions on FORK's operands that raise a trap are absent. -/
def forkOperandsOk (b : BitVec 7) (s : State) : Prop :=
  fieldOf (s.rdS b.toNat) 0 2 = 0 ∧ fieldOf (s.rdS b.toNat) 57 3 = 0 ∧ (s.rdS (b.toNat + 1)).toNat % 8 = 0

/-- FORK answers 1 where no task can be made. -/
theorem forkBody_refuses {d a b : BitVec 7} {s : State} (hok : forkOperandsOk b s)
    (hno : s.taskPool s.issue.warp = false ∨ (Config.dequeDepth ≤ (s.core (s.coreOfWarp s.issue.warp)).deque.length ∧
      respOf s.issue.resp 1 (s.rdS (b.toNat + 1)).toNat 8 = none)) : forkBody d a b s = .ok (s.wrS d.toNat 1) := by
  obtain ⟨hpc, hspace, hcnt⟩ := hok
  unfold forkBody
  rcases hno with hno | ⟨hfull, hresp⟩
  · simp [hpc, hspace, hcnt, hno]
  · simp [hpc, hspace, hcnt, hfull, hresp]

/-- The record that FORK makes: entry, arguments, counter and launch (R48). -/
def forkTask (a b : BitVec 7) (s : State) : Task :=
  ⟨(s.rdS b.toNat).setWidth 57, s.rdRun a.toNat, s.rdS (b.toNat + 1), (s.block s.cw.blk).launch⟩

/-- A task is pushed on a core's deque after a release. -/
def State.pushTask (u : State) (core : Nat) (t : Task) : State :=
  let w := u.releaseL1 core
  w.setCore core { w.core core with deque := t :: (w.core core).deque }

theorem Apart.pushTask (u : State) (core : Nat) (t : Task) : Apart u (u.pushTask core t) :=
  (Apart.releaseL1 u core).trans (Apart.aside (setCore_aside _ _ _))

theorem pushTask_deque (u : State) (core : Nat) (t : Task) :
    ((u.pushTask core t).core core).deque = t :: ((u.releaseL1 core).core core).deque := by
  unfold State.pushTask
  rw [Laws.core_setCore']

/-- FORK counts its task and pushes the record on its core's deque (R48, R365). -/
theorem forkBody_pushes {d a b : BitVec 7} {s u : State} {v : Nat} (hok : forkOperandsOk b s)
    (hpool : s.taskPool s.issue.warp = true)
    (hroom : ¬ Config.dequeDepth ≤ (s.core (s.coreOfWarp s.issue.warp)).deque.length)
    (hadd : s.ioAdd s.who s.issue.resp (s.rdS (b.toNat + 1)).toNat 1 = .ok (v, u)) :
    forkBody d a b s = .ok ((u.pushTask (s.coreOfWarp s.issue.warp) (forkTask a b s)).wrS d.toNat 0) := by
  obtain ⟨hpc, hspace, hcnt⟩ := hok
  unfold forkBody
  simp [hpc, hspace, hcnt, hpool, hroom, hadd, State.pushTask, forkTask]

theorem fjoinBody_ends {a : BitVec 7} {s u : State} (hp : (s.rdS a.toNat).toNat % 8 = 0)
    (hload : s.atomicLoad .fjoin (s.rdS a.toNat).toNat = .ok (0, u)) :
    fjoinBody a s = .ok (u.acquireL1 (u.coreOfWarp u.issue.warp)) := by
  unfold fjoinBody
  simp [hp, hload]

/-- The status that LNCH answers for a record that it has read (R282). -/
def lnchStatus (b : BitVec 7) (s u : State) (v : Nat) : Nat :=
  let q := s.rdS b.toNat
  if fieldOf q 8 56 ≠ 0 then 3
  else u.acceptStatus (fieldOf q 6 2) (fieldOf q 0 6) (s.ctxOfWarp s.issue.warp) (BitVec.ofNat 1024 v)

/-- The record enters its queue after a release, where the status is 0. -/
def lnchEnters (b : BitVec 7) (s u : State) (v : Nat) : State :=
  let q := s.rdS b.toNat
  (u.releaseL1 (s.coreOfWarp s.issue.warp)).accept (fieldOf q 6 2) (fieldOf q 0 6) (s.ctxOfWarp s.issue.warp) (BitVec.ofNat 1024 v)

theorem lnchBody_answers {d a b : BitVec 7} {s u : State} {v : Nat} (hp : fieldOf (s.rdS a.toNat) 0 7 = 0)
    (hread : s.lineRead8 0 (s.rdS a.toNat).toNat 128 = .ok (v, u)) :
    lnchBody d a b s = .ok ((if lnchStatus b s u v = 0 then lnchEnters b s u v else u).wrS d.toNat
      (BitVec.ofNat 64 (lnchStatus b s u v))) := by
  unfold lnchBody
  simp only [hp, hread]
  rfl

theorem Apart.accept (s : State) (d q ctx : Nat) (r : Vec) : Apart s (s.accept d q ctx r) := Apart.units rfl rfl rfl rfl

theorem Apart.lnchEnters {b : BitVec 7} {s u : State} {v : Nat} (h : Apart s u) : Apart s (lnchEnters b s u v) :=
  (h.trans (Apart.releaseL1 _ _)).trans (Apart.accept _ _ _ _ _)

theorem Apart.ite {s t u : State} {c : Prop} [Decidable c] (ht : Apart s t) (hu : Apart s u) : Apart s (if c then t else u) := by
  split <;> assumption

/-- FORK's three clauses beside its traps. -/
theorem fork_answers_one {d a b : BitVec 7} {s : State} (h : ready (.fork d a b) s = true) (hok : forkOperandsOk b s)
    (hno : s.taskPool s.issue.warp = false ∨ (Config.dequeDepth ≤ (s.core (s.coreOfWarp s.issue.warp)).deque.length ∧
      respOf s.issue.resp 1 (s.rdS (b.toNat + 1)).toNat 8 = none)) :
    ∃ t, exec (.fork d a b) s = .next t ∧ t.regS d.toNat = 1 ∧ t.cw.fst = s.cw.fst ∧ ScalarFrame s t (fun n => n = d.toNat) := by
  obtain ⟨_, -, -, hr⟩ := runs_fork d a b
  exact answer_frame hr h (fork_dst h) (forkBody_refuses (s := s.atInstr (.fork d a b)) hok hno)

theorem fork_pushes {d a b : BitVec 7} {s u : State} {v : Nat} (h : ready (.fork d a b) s = true) (hok : forkOperandsOk b s)
    (hpool : s.taskPool s.issue.warp = true)
    (hroom : ¬ Config.dequeDepth ≤ (s.core (s.coreOfWarp s.issue.warp)).deque.length)
    (hadd : (s.atInstr (.fork d a b)).ioAdd s.who s.issue.resp (s.rdS (b.toNat + 1)).toNat 1 = .ok (v, u)) :
    let w := u.releaseL1 (s.coreOfWarp s.issue.warp)
    ∃ t, exec (.fork d a b) s = .next t ∧ t.regS d.toNat = 0 ∧ t.mem = w.mem ∧
      (t.core (s.coreOfWarp s.issue.warp)).deque = forkTask a b s :: (w.core (s.coreOfWarp s.issue.warp)).deque ∧
      RegisterFrame s t (fun n => n = d.toNat) (fun _ => False) := by
  obtain ⟨_, -, -, hr⟩ := runs_fork d a b
  have hbody := forkBody_pushes (d := d) (a := a) (s := s.atInstr (.fork d a b)) hok hpool hroom hadd
  have hapart := (Laws.ioAdd_apart rfl hadd).trans (Apart.pushTask u (s.coreOfWarp s.issue.warp) (forkTask a b s))
  obtain ⟨t, hexec, hreg, hframe, hmem, -, -, hcores, -⟩ := answer_apart hr h (fork_dst h) hapart hbody
  have hcore : t.core (s.coreOfWarp s.issue.warp) = (u.pushTask (s.coreOfWarp s.issue.warp) (forkTask a b s)).core
      (s.coreOfWarp s.issue.warp) := by
    unfold State.core
    rw [hcores]
  have hkept : (u.pushTask (s.coreOfWarp s.issue.warp) (forkTask a b s)).mem = (u.releaseL1 (s.coreOfWarp s.issue.warp)).mem := by
    unfold State.pushTask
    rw [State.setCore_mem]
  refine ⟨t, hexec, hreg, hmem.trans hkept, ?_, hframe⟩
  rw [hcore, pushTask_deque]

/-- LNCH answers its status, and moves launches and queues only where that is 0. -/
theorem lnch_answers {d a b : BitVec 7} {s u : State} {v : Nat} (h : ready (.lnch d a b) s = true)
    (hp : fieldOf (s.rdS a.toNat) 0 7 = 0)
    (hread : (s.atInstr (.lnch d a b)).lineRead8 0 (s.rdS a.toNat).toNat 128 = .ok (v, u)) :
    let w := if lnchStatus b s u v = 0 then lnchEnters b s u v else u
    ∃ t, exec (.lnch d a b) s = .next t ∧ t.regS d.toNat = BitVec.ofNat 64 (lnchStatus b s u v) ∧
      t.launches = w.launches ∧ t.dies = w.dies ∧ t.mem = w.mem ∧ RegisterFrame s t (fun n => n = d.toNat) (fun _ => False) := by
  obtain ⟨_, -, -, hr⟩ := runs_lnch d a b
  have hu := lineRead8_apart hread
  obtain ⟨t, hexec, hreg, hframe, hmem, hdies, hlaunches, -, -⟩ :=
    answer_apart hr h (lnch_dst h) (Apart.ite hu.lnchEnters hu) (lnchBody_answers (s := s.atInstr (.lnch d a b)) hp hread)
  exact ⟨t, hexec, hreg, hlaunches, hdies, hmem, hframe⟩

/-- Settles O53: FORK, FJOIN and LNCH by what their meanings answer in each case. -/
theorem forksJoinsAndLaunches : Obligations.ForksJoinsAndLaunches := by
  unfold Obligations.ForksJoinsAndLaunches
  intro d a b
  obtain ⟨_, -, -, hfork⟩ := runs_fork d a b
  obtain ⟨_, hfjoin⟩ := runs_fjoin a
  obtain ⟨_, -, -, hlnch⟩ := runs_lnch d a b
  refine ⟨⟨?_, ?_, ?_, ?_, ?_⟩, ?_, ?_, ?_⟩
  · refine trapsAt_of_body hfork (by decide) fun s hp => ?_
    simp [forkBody, hp, trapA]
  · refine trapsAt_of_body hfork (by decide) fun s hp => ?_
    simp [forkBody, hp, trapA]
  · refine trapsAt_of_body hfork (by decide) fun s hp => ?_
    simp [forkBody, hp, trapA]
  · exact fun s h hok hno => fork_answers_one h hok hno
  · exact fun s v u h hok hpool hroom hadd => fork_pushes h hok hpool hroom hadd
  · exact fun s u h hp hload => hfjoin.ok h (fjoinBody_ends hp hload)
  · refine trapsAt_of_body hlnch (by decide) fun s hp => ?_
    simp [lnchBody, hp, trapA]
  · intro s v u h hp hread
    obtain ⟨t, hexec, hreg, hlaunches, hdies, hmem, hframe⟩ := lnch_answers h hp hread
    refine ⟨t, hexec, hreg, fun hst => ?_, fun hst => ?_, hframe⟩
    · rw [if_neg (show lnchStatus b s u v ≠ 0 from hst)] at hlaunches hdies hmem
      exact ⟨hlaunches, hdies, hmem⟩
    · rw [if_pos (show lnchStatus b s u v = 0 from hst)] at hlaunches hdies hmem
      exact ⟨hlaunches, hdies, hmem⟩
end Sys2Proof.Machine
end

section
/-! Stage rings and asynchronous barriers (R42 to R46, R322, R338, R339, R394). -/

namespace Sys2Proof.Machine
open Sys2Proof

theorem runs_stgaProd (d a : BitVec 7) : ∃ info, info.fmt ≠ .B ∧ info.d = .sdst ∧ Runs (.stgaProd d a) info (stgaBody true d a) :=
  ⟨_, by decide, rfl, runs (fun _ => rfl) rfl rfl rfl⟩
theorem runs_stgaCons (d a : BitVec 7) : ∃ info, info.fmt ≠ .B ∧ info.d = .sdst ∧ Runs (.stgaCons d a) info (stgaBody false d a) :=
  ⟨_, by decide, rfl, runs (fun _ => rfl) rfl rfl rfl⟩
theorem runs_stgrProd (a b : BitVec 7) : ∃ info, Runs (.stgrProd a b) info (stgrBody true a b) :=
  ⟨_, runs (fun _ => rfl) rfl rfl rfl⟩
theorem runs_stgrCons (a b : BitVec 7) : ∃ info, Runs (.stgrCons a b) info (stgrBody false a b) :=
  ⟨_, runs (fun _ => rfl) rfl rfl rfl⟩
theorem runs_abarArrive (d a : BitVec 7) :
    ∃ info, info.fmt ≠ .B ∧ info.d = .sdst ∧ Runs (.abarArrive d a) info (abarArriveBody d a) :=
  ⟨_, by decide, rfl, runs (fun _ => rfl) rfl rfl rfl⟩
theorem runs_abarWait (a b : BitVec 7) : ∃ info, info.mem = false ∧ Runs (.abarWait a b) info (abarWaitBody a b) :=
  ⟨_, rfl, runs (fun _ => rfl) rfl rfl rfl⟩

/-! Rings: the place of a variant's index, the state that it asks of its slot and the one that it leaves (R42). -/

def ringAt (prod : Bool) : Nat := if prod then 48 else 52
def slotFree (prod : Bool) : Nat := if prod then 0 else 2
def slotTaken (prod : Bool) : Nat := if prod then 1 else 3

/-- The header after a claim of the next slot (R43). -/
def claimed (prod : Bool) (h n : Nat) : Nat :=
  let i := field h (ringAt prod) 4
  setField (setField h (2 * i) 2 (slotTaken prod)) (ringAt prod) 4 ((i + 1) % n)

/-- What STGA answers of slot i. -/
def slotAnswer (h i : Nat) : DWord :=
  BitVec.ofNat 64 ((field h 96 32 + i * field h 64 24) % 2 ^ 32 + i * 2 ^ 32 + field h (32 + i) 1 * 2 ^ 36)

theorem stgaBody_range {prod : Bool} {d a : BitVec 7} {s : State} {off h n : Nat} (hd : s.ringHeader a = .ok (off, h, n))
    (hi : n ≤ field h (ringAt prod) 4) : stgaBody prod d a s = .error (.trap (TrapInfo.atAddr eRange off) s) := by
  unfold stgaBody
  rw [hd]
  exact if_pos hi

theorem stgaBody_claims {prod : Bool} {d a : BitVec 7} {s : State} {off h n : Nat} (hd : s.ringHeader a = .ok (off, h, n))
    (hi : field h (ringAt prod) 4 < n) (hb : s.ringBlocked off = false)
    (hs : field h (2 * field h (ringAt prod) 4) 2 = slotFree prod) :
    stgaBody prod d a s = .ok ((s.scratchWrite s.cw.blk off (toBytes 16 (claimed prod h n))).wrS d.toNat
      (slotAnswer h (field h (ringAt prod) 4))) := by
  unfold stgaBody
  rw [hd]
  refine (if_neg (Nat.not_le.mpr hi)).trans (if_neg ?_)
  simp only [hb, Bool.false_or, decide_eq_true_eq]
  exact not_not.mpr hs

/-- The bytes of a header, and of no other byte of scratch, are those that an instruction leaves which stores one and answers. -/
theorem header_answered {i : Instr} {info : OpInfo} {body : Body} {s : State} {d : BitVec 7} {v : DWord} {off g : Nat}
    (hr : Runs i info body) (h : ready i s = true) (hd : d.toNat < 64) (hblk : s.cw.blk < s.blocks.length)
    (hb : body (s.atInstr i) = .ok (((s.atInstr i).scratchWrite s.cw.blk off (toBytes 16 g)).wrS d.toNat v)) :
    ∃ t, exec i s = .next t ∧ t.regS d.toNat = v ∧
      (∀ k, k < 16 → t.scrByte s.cw.blk (off + k) = BitVec.ofNat 8 (g / 2 ^ (8 * k))) ∧
      (∀ c k, ¬ (c = s.cw.blk ∧ off ≤ k ∧ k < off + 16) → t.scrByte c k = s.scrByte c k) ∧
      t.mem = s.mem ∧ RegisterFrame s t (fun j => j = d.toNat) (fun _ => False) := by
  obtain ⟨hin, hout⟩ := Laws.header_bytes (s.atInstr i) s.cw.blk off g hblk
  obtain ⟨t, hexec, hreg, hframe, hmem, -, -, -, hblocks⟩ := answer_apart hr h hd (Apart.scratch _ _ _ _) hb
  have hscr : ∀ c k, t.scrByte c k = ((s.atInstr i).scratchWrite s.cw.blk off (toBytes 16 g)).scrByte c k := fun c k => by
    unfold State.scrByte State.block
    rw [hblocks]
  refine ⟨t, hexec, hreg, fun k hk => ?_, fun c k hk => ?_, hmem, hframe⟩
  · rw [hscr, hin k hk]
  · rw [hscr, hout c k hk]; rfl

theorem stga_range {i : Instr} {info : OpInfo} {prod : Bool} {d a : BitVec 7} {s : State} {off h n : Nat}
    (hr : Runs i info (stgaBody prod d a)) (hready : ready i s = true) (hd : (s.atInstr i).ringHeader a = .ok (off, h, n))
    (hi : n ≤ field h (ringAt prod) 4) : exec i s = .next ((s.atInstr i).raise (TrapInfo.atAddr eRange off)) :=
  Laws.stops_at hr (.inl (show eRange.1 ≠ .page by decide)) hready (stgaBody_range hd hi)

theorem stgrBody_range {prod : Bool} {a b : BitVec 7} {s : State} {off h n : Nat} (hd : s.ringHeader a = .ok (off, h, n))
    (hi : n ≤ fieldOf (s.rdS b.toNat) 32 4) : stgrBody prod a b s = .error (.trap (TrapInfo.atAddr eRange off) s) := by
  unfold stgrBody
  rw [hd]
  exact if_pos hi

theorem stgrBody_prot {prod : Bool} {a b : BitVec 7} {s : State} {off h n : Nat} (hd : s.ringHeader a = .ok (off, h, n))
    (hi : fieldOf (s.rdS b.toNat) 32 4 < n) (hs : field h (2 * fieldOf (s.rdS b.toNat) 32 4) 2 ≠ slotTaken prod) :
    stgrBody prod a b s = .error (.trap (TrapInfo.of (.prot, 0)) s) := by
  unfold stgrBody
  rw [hd]
  exact (if_neg (Nat.not_le.mpr hi)).trans (if_pos hs)

/-- The header after slot i is handed on: a consumer turns the slot's phase (R44). -/
def handedOn (prod : Bool) (h i : Nat) : Nat :=
  let g := setField h (2 * i) 2 (if prod then 2 else 0)
  if prod then g else setField g (32 + i) 1 (1 - field h (32 + i) 1)

theorem stgrBody_hands {prod : Bool} {a b : BitVec 7} {s : State} {off h n : Nat} (hd : s.ringHeader a = .ok (off, h, n))
    (hi : fieldOf (s.rdS b.toNat) 32 4 < n) (hs : field h (2 * fieldOf (s.rdS b.toNat) 32 4) 2 = slotTaken prod)
    (ho : (s.opsOf s.issue.warp).any (fun o => s.touchesSlot prod o
      (field h 96 32 + fieldOf (s.rdS b.toNat) 32 4 * field h 64 24) (field h 64 24)) = false) :
    stgrBody prod a b s = .ok (s.scratchWrite s.cw.blk off (toBytes 16 (handedOn prod h (fieldOf (s.rdS b.toNat) 32 4)))) := by
  unfold stgrBody
  rw [hd]
  exact (if_neg (Nat.not_le.mpr hi)).trans ((if_neg (not_not.mpr hs)).trans (if_neg (Bool.eq_false_iff.mp ho)))

/-! Reading a line again after a release, and the bytes of a write at home (R164, R172, R174). -/

theorem cleanLines_kept {core q : Nat} (s : State) (c : Nat) (p : L1Line → Bool) (hc : c ∈ coresOf (clusterOf core))
    (h : s.lineClean core (q / 128)) : Kept core q s (s.cleanLines c p) := by
  have hback : Kept core q s (((s.core c).l1.filter p).foldl State.writeBack s) :=
    Kept.foldl _ _ s h fun t x hx ht => writeBack_kept t x ht (h c hc x (List.mem_of_mem_filter hx))
  unfold State.cleanLines
  dsimp only
  split
  · refine ⟨hback.byte, hback.key, hback.slots, fun d hd l hl hp => ?_⟩
    rw [core_setCore] at hl
    split at hl
    · obtain ⟨x, hx, rfl⟩ := List.mem_map.mp hl
      split
      · rfl
      · next hpx =>
        rw [if_neg hpx] at hp
        exact h c hc x hx hp
    · exact hback.clean d hd l hl hp
  · exact hback

theorem releaseL1_kept {core q : Nat} (s : State) (h : s.lineClean core (q / 128)) : Kept core q s (s.releaseL1 core) :=
  Kept.foldl _ _ s h fun t c hc ht => cleanLines_kept t c _ hc ht

theorem bytesGet_congr (d : Byte) (l m : List (Nat × Byte)) (n a : Nat)
    (h : ∀ q, a ≤ q → q < a + n → spGet d l q = spGet d m q) : bytesGet d l a n = bytesGet d m a n := by
  induction n generalizing a with
  | zero => rfl
  | succ n ih =>
    unfold bytesGet
    rw [h a (by omega) (by omega), ih (a + 1) fun q h1 h2 => h q (by omega) (by omega)]

/-- A read within a line that is kept gives the same bytes. -/
theorem physReadKey_kept {core : Nat} {s u : State} {k pa n : Nat} (hk : ∀ q, q / 128 = pa / 128 → Kept core q s u)
    (hn : pa % 128 + n ≤ 128) : u.physReadKey k pa n = s.physReadKey k pa n := by
  have hbyte : ∀ q, q / 128 = pa / 128 → spGet Config.memInit u.mem q = spGet Config.memInit s.mem q := fun q hq => (hk q hq).byte
  have hrun : bytesGet Config.memInit u.mem pa n = bytesGet Config.memInit s.mem pa n :=
    bytesGet_congr _ _ _ n pa fun q h1 h2 => hbyte q (by omega)
  have hline : u.plainLine (pa / 128) = s.plainLine (pa / 128) :=
    bytesGet_congr _ _ _ 128 _ fun q h1 h2 => hbyte q (by omega)
  have hkey : alGet u.lineKeys (pa / 128) = alGet s.lineKeys (pa / 128) := (hk pa rfl).key
  have hslots : u.keyMat k = s.keyMat k := congrArg (alGet · k) (hk pa rfl).slots
  unfold State.physReadKey State.physRead State.lineUnder
  rw [hslots, hkey, hrun, hline]

/-- A write within a line under a loaded key stores its bytes. -/
theorem physWriteKey_bytes {s : State} {k pa : Nat} {m : BitVec 512} {bs : List Byte} (hm : s.keyMat k = some m) {j : Nat}
    (hj : j < bs.length) : (s.physWriteKey k pa bs).memByte (pa + j) = bs[j]?.getD Config.memInit := by
  have hput : ∀ l : List (Nat × Byte), spGet Config.memInit (bytesSet Config.memInit l pa bs) (pa + j) = bs[j]?.getD Config.memInit := by
    intro l
    rw [spGet_bytesSet, if_pos ⟨by omega, by omega⟩, Nat.add_sub_cancel_left]
  unfold State.physWriteKey State.physWrite
  rw [hm]
  dsimp only
  split
  · split <;> exact hput _
  · exact hput _

theorem homeRead_kept {q : Nat} (s : State) (w : Who) (va n : Nat) (t : Trans) (b : Bool) (hf : w.fab = false)
    (hc : s.lineClean w.core (q / 128)) (ht : t.entry = none) : Kept w.core q s (s.homeRead w va n t b).2 := by
  unfold State.homeRead
  rw [touch_none _ _ _ _ _ (by rw [ht]; rfl)]
  dsimp only
  split
  · exact Kept.same hc
  · rw [if_neg (by simp [hf])]
    dsimp only
    exact pullLine_kept s (t.pa / 128) hc

/-- What a read at home answers where the translation is held already: the bytes of a line that is clean. -/
theorem homeRead_value (s : State) (w : Who) (va n : Nat) (t : Trans) (b : Bool) (hf : w.fab = false) (ht : t.entry = none)
    (hk : leafKind t.leaf ≠ 3) (hc : s.lineClean w.core (t.pa / 128)) (hn : t.pa % 128 + n ≤ 128) :
    (s.homeRead w va n t b).1 = s.physReadKey (leafKey t.leaf) t.pa n := by
  unfold State.homeRead
  rw [touch_none _ _ _ _ _ (by rw [ht]; rfl)]
  dsimp only
  rw [if_neg hk, if_neg (by simp [hf])]
  dsimp only
  exact physReadKey_kept (fun q hq => pullLine_kept (q := q) s (t.pa / 128) (by rw [hq]; exact hc)) hn

/-- The bytes that an update at home leaves, with a value found before a state that kept its line. -/
theorem updateLoc_bytes {s u : State} {n p : Nat} {f : Nat → Nat × Nat} {t : Trans} {m : BitVec 512} (ht : t.entry = none)
    (hk : leafKind t.leaf ≠ 3) (hm : s.keyMat (leafKey t.leaf) = some m) (hn : t.pa % 128 + n ≤ 128) (hw : u.who = s.who)
    (hkept : ∀ q, q / 128 = t.pa / 128 → Kept s.who.core q s u) {j : Nat} (hj : j < n) :
    (u.updateLoc n f (.glob p t)).2.memByte (t.pa + j) =
      BitVec.ofNat 8 ((f (ofBytes (s.physReadKey (leafKey t.leaf) t.pa n))).1 / 2 ^ (8 * j)) := by
  have hclean : u.lineClean u.who.core (t.pa / 128) := by rw [hw]; exact (hkept t.pa rfl).clean
  have hval : (u.homeRead u.who (field p 0 57) n t true).1 = s.physReadKey (leafKey t.leaf) t.pa n :=
    (homeRead_value u u.who _ n t true rfl ht hk hclean hn).trans (physReadKey_kept hkept hn)
  have hread := homeRead_kept (q := t.pa) u u.who (field p 0 57) n t true rfl hclean ht
  have hwho := who_aside (homeRead_aside u u.who (field p 0 57) n t true rfl)
  unfold State.updateLoc
  dsimp only
  rw [hval]
  generalize (u.homeRead u.who (field p 0 57) n t true).2 = v at *
  unfold State.homeWrite
  rw [touch_none _ _ _ _ _ (by rw [ht]; rfl), hwho]
  dsimp only
  rw [if_neg (show ¬ u.who.fab = true from Bool.false_ne_true)]
  have hpull := pullLine_kept v (t.pa / 128) hread.clean
  have hslots : (v.pullLine (clusterOf u.who.core) (t.pa / 128)).keySlots = s.keySlots :=
    hpull.slots.trans (hread.slots.trans (hkept t.pa rfl).slots)
  rw [physWriteKey_bytes (m := m) (by unfold State.keyMat; rw [hslots]; exact hm) (by rw [toBytes_length]; exact hj),
    Laws.toBytes_get _ _ _ hj]
  rfl

/-! ABAR.arrive (R338, R339). -/

/-- The object at a location, as an arrival finds it. -/
def abarObject (s : State) (loc : Loc) : Nat := (s.updateLoc 16 (fun h => (h, h)) loc).1

/-- The state in which an object is updated: an arrival of die scope or wider releases first. -/
def abarReleased (s : State) (h : Nat) : State := if 3 ≤ abScope h then s.releaseL1 (s.coreOfWarp s.issue.warp) else s

/-- The state after an arrival at the object h. -/
def abarUpdated (s : State) (x : Addr) (loc : Loc) (h : Nat) : State :=
  ((abarReleased s h).updateLoc 16 (fun g => ((abArrive x g).getD g, g)) loc).2

section
variable {d a : BitVec 7} {s : State} {loc : Loc}

theorem asked_none {rs : List HostResp} {kind n : Nat} {ask : Nat → Nat → HostAsk}
    (hh : ∀ p t, loc = .glob p t → leafKind t.leaf ≠ 2) : loc.asked rs kind n ask = .ok none := by
  cases loc with
  | glob p t => exact if_neg (hh p t rfl)
  | scr b off => rfl
  | ing off => rfl

theorem abarArriveBody_eq (hl : s.locate false .write (objAddr (s.rdS a.toNat) 0) 16 = .ok loc)
    (hh : ∀ p t, loc = .glob p t → leafKind t.leaf ≠ 2) :
    abarArriveBody d a s = match abArrive (objAddr (s.rdS a.toNat) 0) (abarObject s loc) with
      | none => trapE s eShape
      | some _ => .ok ((abarUpdated s (objAddr (s.rdS a.toNat) 0) loc (abarObject s loc)).wrS d.toNat
          (BitVec.ofNat 64 (abPh (abarObject s loc)))) := by
  unfold abarArriveBody
  dsimp only
  rw [hl]
  dsimp only
  rw [asked_none hh]
  cases loc with
  | glob p t =>
    dsimp only
    rw [if_neg (hh p t rfl)]
    rfl
  | scr b off => rfl
  | ing off => rfl

theorem abarReleased_apart (s : State) (h : Nat) : Apart s (abarReleased s h) := Apart.ite (Apart.releaseL1 _ _) (Apart.same s)

theorem abarUpdated_apart (s : State) (x : Addr) (loc : Loc) (h : Nat) : Apart s (abarUpdated s x loc h) :=
  (abarReleased_apart s h).trans (Apart.updateLoc _ _ _ _)

theorem abarReleased_aside (s : State) (h : Nat) : (abarReleased s h).aside = s.aside := by
  unfold abarReleased
  split
  · exact Laws.releaseL1_aside _ _
  · rfl

theorem abarReleased_kept {q : Nat} (s : State) (h : Nat) (hc : s.lineClean s.who.core (q / 128)) :
    Kept s.who.core q s (abarReleased s h) := by
  unfold abarReleased
  split
  · exact releaseL1_kept s hc
  · exact Kept.same hc

/-- An object in scratch holds what the arrival makes of it. -/
theorem abarUpdated_scratch {x : Addr} {c off g : Nat} (ha : abArrive x (abarObject s (.scr c off)) = some g)
    (hc : c < s.blocks.length) {k : Nat} (hk : k < 16) :
    (abarUpdated s x (.scr c off) (abarObject s (.scr c off))).scrByte c (off + k) = BitVec.ofNat 8 (g / 2 ^ (8 * k)) := by
  have hblocks := (Laws.aside_fields (abarReleased_aside s (abarObject s (.scr c off)))).1
  have hval : ofBytes ((abarReleased s (abarObject s (.scr c off))).scratchRead c off 16) = abarObject s (.scr c off) := by
    unfold State.scratchRead State.block
    rw [hblocks]
    rfl
  unfold abarUpdated State.updateLoc
  dsimp only
  rw [hval, ha]
  exact (Laws.header_bytes _ c off g (by rw [hblocks]; exact hc)).1 k hk

/-- So does an object in a clean line of the module's memory. -/
theorem abarUpdated_global {x : Addr} {p g : Nat} {t : Trans} {m : BitVec 512} (ht : t.entry = none) (hk : leafKind t.leaf < 2)
    (hm : s.keyMat (leafKey t.leaf) = some m) (hc : s.lineClean s.who.core (t.pa / 128)) (hn : t.pa % 128 + 16 ≤ 128)
    (ha : abArrive x (abarObject s (.glob p t)) = some g) {k : Nat} (hj : k < 16) :
    (abarUpdated s x (.glob p t) (abarObject s (.glob p t))).memByte (t.pa + k) = BitVec.ofNat 8 (g / 2 ^ (8 * k)) := by
  have hval : abarObject s (.glob p t) = ofBytes (s.physReadKey (leafKey t.leaf) t.pa 16) :=
    congrArg ofBytes (homeRead_value s s.who _ 16 t true rfl ht (by omega) hc hn)
  unfold abarUpdated
  rw [updateLoc_bytes (s := s) ht (by omega) hm hn (who_aside (abarReleased_aside _ _))
    (fun q hq => abarReleased_kept s _ (by rw [hq]; exact hc)) hj, ← hval, ha]
  rfl

end

/-- An object's number by its fields: expected and counted arrivals, phase, and the rest from the scope up. -/
def abarWord (e n p r : Nat) : Nat := e + 2 ^ 32 * n + 2 ^ 64 * p + 2 ^ 65 * r

theorem abar_parts (h : Nat) : ∃ r, h = abarWord (abExp h) (abArr h) (abPh h) r := by
  refine ⟨h / 2 ^ 65, ?_⟩
  unfold abarWord abExp abArr abPh field
  omega

theorem abarWord_fields {e n p : Nat} (r : Nat) (he : e < 2 ^ 32) (hn : n < 2 ^ 32) (hp : p < 2) :
    abExp (abarWord e n p r) = e ∧ abArr (abarWord e n p r) = n ∧ abPh (abarWord e n p r) = p ∧
      abScope (abarWord e n p r) = r % 8 := by
  unfold abarWord abExp abArr abPh abScope field
  refine ⟨?_, ?_, ?_, ?_⟩ <;> omega

/-- The phase turns with the last arrival, and each other one is counted. -/
theorem abArrive_counts {x : Addr} {h : Nat} (hs : abScopeOk x (abScope h) = true) (hlt : abArr h < abExp h) :
    ∃ h', abArrive x h = some h' ∧ abExp h' = abExp h ∧ abScope h' = abScope h ∧
      (abArr h + 1 = abExp h → abArr h' = 0 ∧ abPh h' = 1 - abPh h) ∧
      (abArr h + 1 ≠ abExp h → abArr h' = abArr h + 1 ∧ abPh h' = abPh h) := by
  have hsome : abArrive x h = some (if abArr h + 1 = abExp h then h - abArr h * 2 ^ 32 - abPh h * 2 ^ 64 + (1 - abPh h) * 2 ^ 64
      else h - abArr h * 2 ^ 32 - abPh h * 2 ^ 64 + (abArr h + 1) * 2 ^ 32 + abPh h * 2 ^ 64) := by
    unfold abArrive
    rw [if_neg (by simp [hs]; omega)]
  refine ⟨_, hsome, ?_⟩
  obtain ⟨r, hr⟩ := abar_parts h
  have he : abExp h < 2 ^ 32 := Nat.mod_lt _ (by decide)
  have hn : abArr h < 2 ^ 32 := Nat.mod_lt _ (by decide)
  have hp : abPh h < 2 := Nat.mod_lt _ (by decide)
  have hscope : abScope h = r % 8 := (congrArg abScope hr).trans (abarWord_fields r he hn hp).2.2.2
  split
  · next hlast =>
    have hg : h - abArr h * 2 ^ 32 - abPh h * 2 ^ 64 + (1 - abPh h) * 2 ^ 64 = abarWord (abExp h) 0 (1 - abPh h) r := by
      unfold abarWord at hr ⊢; omega
    obtain ⟨f1, f2, f3, f4⟩ := abarWord_fields (n := 0) (p := 1 - abPh h) r he (by decide) (by omega)
    rw [hg, f1, f2, f3, f4, hscope]
    exact ⟨rfl, rfl, fun _ => ⟨rfl, rfl⟩, fun hne => absurd hlast hne⟩
  · next hmore =>
    have hg : h - abArr h * 2 ^ 32 - abPh h * 2 ^ 64 + (abArr h + 1) * 2 ^ 32 + abPh h * 2 ^ 64 =
        abarWord (abExp h) (abArr h + 1) (abPh h) r := by
      unfold abarWord at hr ⊢; omega
    obtain ⟨f1, f2, f3, f4⟩ := abarWord_fields r he (show abArr h + 1 < 2 ^ 32 by omega) hp
    rw [hg, f1, f2, f3, f4, hscope]
    exact ⟨rfl, rfl, fun heq => absurd heq hmore, fun _ => ⟨rfl, rfl⟩⟩

/-! ABAR.wait (R339). -/

/-- What ABAR.wait makes of the half of the object that holds phase and scope. -/
def abarAnswer (p h : Nat) (u : State) : Except Stop State :=
  if field h 1 3 = 0 || decide (5 < field h 1 3) then trapE u eShape
  else if h % 2 = p then waitE u .abar
  else .ok (if 3 ≤ field h 1 3 then u.acquireL1 (u.coreOfWarp u.issue.warp) else u)

theorem abarWaitBody_scratch {a b : BitVec 7} {s : State} {c off : Nat}
    (hl : s.locate false .read (objAddr (s.rdS a.toNat) 0) 16 = .ok (.scr c off)) :
    abarWaitBody a b s = abarAnswer (fieldOf (s.rdS b.toNat) 0 1) (ofBytes (s.scratchRead c (off + 8) 8)) s := by
  unfold abarWaitBody
  dsimp only
  rw [hl]
  rfl

theorem abarWaitBody_global {a b : BitVec 7} {s : State} {p : Nat} {t : Trans}
    (hl : s.locate false .read (objAddr (s.rdS a.toNat) 0) 16 = .ok (.glob p t)) (hk : leafKind t.leaf ≠ 2) :
    abarWaitBody a b s = abarAnswer (fieldOf (s.rdS b.toNat) 0 1)
      (ofBytes (s.homeRead s.who (field p 0 57) 16 t false).1 / 2 ^ 64) (s.homeRead s.who (field p 0 57) 16 t false).2 := by
  unfold abarWaitBody
  dsimp only
  rw [hl]
  dsimp only
  rw [if_neg hk]
  rfl

/-- A word of no memory access that waits at a chain with nothing in flight stands where its meaning left it. -/
theorem stops_waiting {i : Instr} {info : OpInfo} {body : Body} {s u : State} {k : WaitKind} {n : Nat} (hr : Runs i info body)
    (hm : info.mem = false) (h : ready i s = true) (hc : s.atChain) (ha : Apart (s.atInstr i) u)
    (hb : body (s.atInstr i) = .error (.wait k n u)) : exec i s = .next (u.setWait k n []) := by
  rw [hr.stop h hb]
  have hsrc : u.issue.src ≠ .flight := by
    rw [ha.issue, show (s.atInstr i).issue.src = .chain from hc.1]
    decide
  have hflight : u.cs.flight = [] := by
    rw [ha.cs]
    exact hc.2
  have hkeep : u.keep false info (encode i) = u := if_neg (by simp [hm])
  show Host.Outcome.next (if _ then _ else if _ then _ else _) = _
  rw [if_neg hsrc, if_neg (by simp [hflight]), hkeep]

section
variable {a b : BitVec 7} {s u : State} {p h : Nat} (hready : ready (.abarWait a b) s = true)
  (hb : abarWaitBody a b (s.atInstr (.abarWait a b)) = abarAnswer p h u)
include hready hb

theorem abarWait_shape (hs : field h 1 3 = 0 ∨ 5 < field h 1 3) :
    exec (.abarWait a b) s = .next (u.raise (TrapInfo.of eShape)) := by
  obtain ⟨info, -, hr⟩ := runs_abarWait a b
  rw [hr.stop hready (hb.trans (if_pos (by simpa using hs))), settle_trap _ _ _ _ _ (by decide)]

theorem abarWait_waits (ha : Apart (s.atInstr (.abarWait a b)) u) (h1 : 1 ≤ field h 1 3) (h5 : field h 1 3 ≤ 5)
    (hp : h % 2 = p) (hc : s.atChain) : exec (.abarWait a b) s = .next (u.setWait .abar 0 []) := by
  obtain ⟨info, hmem, hr⟩ := runs_abarWait a b
  exact stops_waiting hr hmem hready hc ha (hb.trans ((if_neg (by simp; omega)).trans (if_pos hp)))

theorem abarWait_ends (ha : u.aside = (s.atInstr (.abarWait a b)).aside) (h1 : 1 ≤ field h 1 3) (h5 : field h 1 3 ≤ 5)
    (hp : h % 2 ≠ p) : ∃ t, exec (.abarWait a b) s = .next t ∧ t = s.retired (.abarWait a b)
      (if 3 ≤ field h 1 3 then u.acquireL1 (s.coreOfWarp s.issue.warp) else u) ∧ RegistersKept s t := by
  obtain ⟨info, -, hr⟩ := runs_abarWait a b
  have hcore : u.coreOfWarp u.issue.warp = s.coreOfWarp s.issue.warp := congrArg Who.core (who_aside ha)
  have hbody := hb.trans ((if_neg (by simp; omega)).trans (if_neg hp))
  rw [hcore] at hbody
  exact ⟨_, hr.ok hready hbody, rfl,
    (registersKept_of hready (Apart.ite ((Apart.aside ha).trans (Apart.acquireL1 _ _)) (Apart.aside ha))).2⟩

end

/-! The obligation's clauses. -/

/-- STGA claims its slot, or raises RANGE (R43, R45). -/
theorem stga_clauses {i : Instr} {info : OpInfo} {prod : Bool} {d a : BitVec 7} (hr : Runs i info (stgaBody prod d a))
    (hfmt : info.fmt ≠ .B) (hdst : info.d = .sdst) (hfl : i.fields.extractLsb' 14 7 = d) (s : State) (off h n : Nat)
    (hready : ready i s = true) (hd : (s.atInstr i).ringHeader a = .ok (off, h, n)) (hblk : s.cw.blk < s.blocks.length) :
    let k := field h (ringAt prod) 4
    (n ≤ k → exec i s = .next ((s.atInstr i).raise (TrapInfo.atAddr eRange off))) ∧
    (k < n → (s.atInstr i).ringBlocked off = false → field h (2 * k) 2 = slotFree prod →
      ∃ t, exec i s = .next t ∧ t.regS d.toNat = slotAnswer h k ∧
        (∀ j, j < 16 → t.scrByte s.cw.blk (off + j) = BitVec.ofNat 8 (claimed prod h n / 2 ^ (8 * j))) ∧
        (∀ c j, ¬ (c = s.cw.blk ∧ off ≤ j ∧ j < off + 16) → t.scrByte c j = s.scrByte c j) ∧
        t.mem = s.mem ∧ RegisterFrame s t (fun j => j = d.toNat) (fun _ => False)) :=
  ⟨fun hi => stga_range hr hready hd hi, fun hi hb hs => header_answered hr hready
    (ready_sdst hr.info hready hfmt (.inl hdst) hfl) hblk (stgaBody_claims hd hi hb hs)⟩

/-- STGR hands its slot on, or raises RANGE, or PROT for a slot that is in another state (R44, R45). -/
theorem stgr_clauses {i : Instr} {info : OpInfo} {prod : Bool} {a b : BitVec 7} (hr : Runs i info (stgrBody prod a b))
    (s : State) (off h n : Nat) (hready : ready i s = true) (hd : (s.atInstr i).ringHeader a = .ok (off, h, n))
    (hblk : s.cw.blk < s.blocks.length) :
    let k := fieldOf (s.rdS b.toNat) 32 4
    (n ≤ k → exec i s = .next ((s.atInstr i).raise (TrapInfo.atAddr eRange off))) ∧
    (k < n → field h (2 * k) 2 ≠ slotTaken prod → exec i s = .next ((s.atInstr i).raise (TrapInfo.of (.prot, 0)))) ∧
    (k < n → field h (2 * k) 2 = slotTaken prod →
      ((s.atInstr i).opsOf s.issue.warp).any (fun o => (s.atInstr i).touchesSlot prod o
        (field h 96 32 + k * field h 64 24) (field h 64 24)) = false →
      ∃ t, exec i s = .next t ∧
        (∀ j, j < 16 → t.scrByte s.cw.blk (off + j) = BitVec.ofNat 8 (handedOn prod h k / 2 ^ (8 * j))) ∧
        (∀ c j, ¬ (c = s.cw.blk ∧ off ≤ j ∧ j < off + 16) → t.scrByte c j = s.scrByte c j) ∧
        t.mem = s.mem ∧ RegistersKept s t) := by
  refine ⟨fun hi => Laws.stops_at hr (.inl (show eRange.1 ≠ .page by decide)) hready (stgrBody_range hd hi),
    fun hi hs => Laws.stops_at hr (.inl (show Cause.prot ≠ .page by decide)) hready (stgrBody_prot hd hi hs),
    fun hi hs ho => ?_⟩
  have ha := Apart.scratch (s.atInstr i) s.cw.blk off (toBytes 16 (handedOn prod h (fieldOf (s.rdS b.toNat) 32 4)))
  obtain ⟨hin, hout⟩ := Laws.header_bytes (s.atInstr i) s.cw.blk off (handedOn prod h (fieldOf (s.rdS b.toNat) 32 4)) hblk
  have hscr := fun c k => Laws.scr_kept hready ha (Wrote.same _) c k
  refine ⟨_, hr.ok hready (stgrBody_hands hd hi hs ho), fun j hj => (hscr _ _).trans (hin j hj),
    fun c j hj => (hscr _ _).trans (hout c j hj), (Laws.retired_same hready ha).2.2.2.2.2, (registersKept_of hready ha).2⟩

/-- ABAR.arrive raises SHAPE, or counts its arrival and answers the phase that it arrived in (R338, R339). -/
theorem abarArrive_clauses {d a : BitVec 7} {s : State} {loc : Loc} (hready : ready (.abarArrive d a) s = true)
    (hl : (s.atInstr (.abarArrive d a)).locate false .write (objAddr (s.rdS a.toNat) 0) 16 = .ok loc)
    (hh : ∀ p t, loc = .glob p t → leafKind t.leaf ≠ 2) :
    let i : Instr := .abarArrive d a
    let x := objAddr (s.rdS a.toNat) 0
    let h := abarObject (s.atInstr i) loc
    (abArrive x h = none → exec i s = .next ((s.atInstr i).raise (TrapInfo.of eShape))) ∧
    (∀ h', abArrive x h = some h' → ∃ t, exec i s = .next t ∧ t.regS d.toNat = BitVec.ofNat 64 (abPh h) ∧
       (∀ c off, loc = .scr c off → c < s.blocks.length → ∀ k, k < 16 →
         t.scrByte c (off + k) = BitVec.ofNat 8 (h' / 2 ^ (8 * k))) ∧
       (∀ p tr m, loc = .glob p tr → tr.entry = none → leafKind tr.leaf < 2 → s.keyMat (leafKey tr.leaf) = some m →
         s.lineClean (s.coreOfWarp s.issue.warp) (tr.pa / 128) → tr.pa % 128 + 16 ≤ 128 →
         ∀ k, k < 16 → t.memByte (tr.pa + k) = BitVec.ofNat 8 (h' / 2 ^ (8 * k))) ∧
       RegisterFrame s t (fun n => n = d.toNat) (fun _ => False)) := by
  obtain ⟨info, hfmt, hdst, hr⟩ := runs_abarArrive d a
  have hbody := abarArriveBody_eq (d := d) (a := a) (s := s.atInstr (.abarArrive d a)) hl hh
  have hat : objAddr ((s.atInstr (.abarArrive d a)).rdS a.toNat) 0 = objAddr (s.rdS a.toNat) 0 := rfl
  rw [hat] at hbody
  refine ⟨fun hn => ?_, fun h' hs => ?_⟩
  · refine Laws.stops_at hr (.inl (show eShape.1 ≠ .page by decide)) hready (hbody.trans ?_)
    rw [hn]
    rfl
  · rw [hs] at hbody
    obtain ⟨t, hexec, hreg, hframe, hmem, -, -, -, hblocks⟩ := answer_apart hr hready
      (ready_sdst hr.info hready hfmt (.inl hdst) (dField d a 0)) (abarUpdated_apart _ _ _ _) hbody
    refine ⟨t, hexec, hreg, fun c off hc hlen k hk => ?_, fun p tr m hg ht hkind hm hclean hfit k hk => ?_, hframe⟩
    · subst hc
      have hscr : ∀ n, t.scrByte c n = (abarUpdated (s.atInstr (.abarArrive d a)) _ _ _).scrByte c n := fun n => by
        unfold State.scrByte State.block
        rw [hblocks]
      rw [hscr]
      exact abarUpdated_scratch hs hlen hk
    · subst hg
      unfold State.memByte
      rw [hmem]
      exact abarUpdated_global (s := s.atInstr (.abarArrive d a)) ht hkind hm hclean hfit hs hk

/-- Settles O54: each clause is the one of its instruction, with the variants' constants put in. -/
theorem ringsAndAsyncBarriers : Obligations.RingsAndAsyncBarriers := by
  unfold Obligations.RingsAndAsyncBarriers
  refine fun d a b => ⟨fun x hx s off h n hready hd hblk => ?_, fun x hx s off h n hready hd hblk => ?_,
    fun s loc hready hl hh => abarArrive_clauses hready hl hh, fun x h hs hlt => abArrive_counts hs hlt,
    fun s c off hready hl => ?_, fun s p tr hready hl hk => ?_⟩
  · simp only [List.mem_cons, List.not_mem_nil, or_false] at hx
    obtain rfl | rfl := hx
    · obtain ⟨_, hfmt, hdst, hr⟩ := runs_stgaProd d a
      exact stga_clauses hr hfmt hdst (dField d a 0) s off h n hready hd hblk
    · obtain ⟨_, hfmt, hdst, hr⟩ := runs_stgaCons d a
      exact stga_clauses hr hfmt hdst (dField d a 0) s off h n hready hd hblk
  · simp only [List.mem_cons, List.not_mem_nil, or_false] at hx
    obtain rfl | rfl := hx
    · obtain ⟨_, hr⟩ := runs_stgrProd a b
      exact stgr_clauses hr s off h n hready hd hblk
    · obtain ⟨_, hr⟩ := runs_stgrCons a b
      exact stgr_clauses hr s off h n hready hd hblk
  · have hbody := abarWaitBody_scratch (b := b) hl
    exact ⟨abarWait_shape hready hbody, abarWait_waits hready hbody (Apart.same _), abarWait_ends hready hbody rfl⟩
  · have hbody := abarWaitBody_global (b := b) hl hk
    have haside := homeRead_aside (s.atInstr (.abarWait a b)) s.who (field p 0 57) 16 tr false rfl
    exact ⟨abarWait_shape hready hbody, abarWait_waits hready hbody (Apart.aside haside), abarWait_ends hready hbody haside⟩

end Sys2Proof.Machine
end

section
/-! Waits that end (R22, R43, R62, R165, R183, R194, R201, R215, R231, R249, R253, R254, R267, R339, R352, R375, R408). -/

namespace Sys2Proof.Machine
open Sys2Proof

/-! Words whose meaning ends with an answer in lanes, or aside from the registers. -/

theorem runs_maccRd (d a : BitVec 7) : ∃ info, info.d = .vdst 1 ∧ Runs (.maccRd d a) info (maccRdBody d a) :=
  ⟨_, rfl, runs (fun _ => rfl) rfl rfl rfl⟩
theorem runs_rgrow (d : BitVec 7) : ∃ info, Runs (.rgrow d) info (rgrowBody d) := ⟨_, runs (fun _ => rfl) rfl rfl rfl⟩
theorem runs_qfence (m : BitVec 14) : ∃ info, Runs (.qfence m) info (qfenceBody m) := ⟨_, runs (fun _ => rfl) rfl rfl rfl⟩
theorem runs_mwin (a b : BitVec 7) : ∃ info, Runs (.mwin a b) info (mwinBody a b) := ⟨_, runs (fun _ => rfl) rfl rfl rfl⟩
theorem runs_txb (a m : BitVec 7) : ∃ info, Runs (.txb a m) info (txbBody a m) := ⟨_, runs (fun _ => rfl) rfl rfl rfl⟩
theorem runs_obld (a b : BitVec 7) : ∃ info, Runs (.obld a b) info (obldBody a b) := ⟨_, runs (fun _ => rfl) rfl rfl rfl⟩
theorem runs_mwait (a b : BitVec 7) : ∃ info, Runs (.mwait a b) info (mwaitBody a b) := ⟨_, runs (fun _ => rfl) rfl rfl rfl⟩
theorem runs_yield (m : BitVec 21) : ∃ info, Runs (.yield m) info (yieldBody m) := ⟨_, runs (fun _ => rfl) rfl rfl rfl⟩
theorem runs_wait (m : BitVec 14) : ∃ info, Runs (.wait m) info (waitBody m) := ⟨_, runs (fun _ => rfl) rfl rfl rfl⟩
theorem runs_tins (d a b : BitVec 7) : ∃ info, info.d = .vdst 3 ∧ Runs (.tins d a b) info (tinsBody d a b) :=
  ⟨_, rfl, runs (fun _ => rfl) rfl rfl rfl⟩
theorem runs_copyG2s (a : BitVec 7) : ∃ info, Runs (.copyG2s a) info (copyBody 0 a) := ⟨_, runs (fun _ => rfl) rfl rfl rfl⟩
theorem runs_ksrtK32 (a : BitVec 7) : ∃ info, Runs (.ksrtK32 a) info (jobBody 0 a) := ⟨_, runs (fun _ => rfl) rfl rfl rfl⟩
theorem runs_ksrtK64 (a : BitVec 7) : ∃ info, Runs (.ksrtK64 a) info (jobBody 1 a) := ⟨_, runs (fun _ => rfl) rfl rfl rfl⟩
theorem runs_binc (a : BitVec 7) : ∃ info, Runs (.binc a) info (jobBody 2 a) := ⟨_, runs (fun _ => rfl) rfl rfl rfl⟩
theorem runs_txsL (d a b : BitVec 7) : ∃ info, info.d = .vdst 4 ∧ Runs (.txsL d a b) info (txsBody false d a b) :=
  ⟨_, rfl, runs (fun _ => rfl) rfl rfl rfl⟩
theorem runs_txsG (d a b : BitVec 7) : ∃ info, info.d = .vdst 4 ∧ Runs (.txsG d a b) info (txsBody true d a b) :=
  ⟨_, rfl, runs (fun _ => rfl) rfl rfl rfl⟩

/-- The names of a run that an instruction writes, where what it has done first stands apart from the registers. -/
theorem wroteRun_of_apart {i : Instr} {info : OpInfo} {body : Body} {s u : State} {d : BitVec 7} {n : Nat} {m : Mask}
    {f : Nat → Nat → Word} (hr : Runs i info body) (h : ready i s = true) (ha : Apart (s.atInstr i) u) (hn : n ≤ 70)
    (hd : info.d = .vdst n) (hf : i.fields.extractLsb' 14 7 = d) : Wrote u (u.wrRun d.toNat m n f) := by
  refine (wrRun_spec u d.toNat m n f (by rw [ha.issue, ha.warps]; exact ready_list h) fun k hk => ?_).1
  rw [ha.vname]
  exact Laws.vdst_run hr.info h n hn (.inl hd) hf k hk

/-- A strand whose instruction has left the chain of its issue stands at the next one. -/
theorem retired_pc {i : Instr} {s u : State} (h : ready i s = true) (hw : u.warps = s.warps)
    (hi : u.issue.warp = s.issue.warp ∧ u.issue.entry = s.issue.entry ∧ u.issue.moved = (s.atInstr i).issue.moved) :
    (s.retired i u).cs.pc = s.seqPc := by
  obtain ⟨hwarp, hentry, hmoved⟩ := hi
  have hcw : u.cw = s.cw := by unfold State.cw State.warp; rw [hw, hwarp]
  have hcs : u.cs = s.cs := by unfold State.cs; rw [hcw, hentry]
  have hrun := (s.issueOk_iff.mp (ready_issueOk h)).2.2.2
  have hpc := fun c => retire_pc (s.atInstr i) u c (by rw [hwarp, hw]; exact ready_list h) hentry (by rw [hcw]; exact hrun)
  rw [show s.retired i u = State.retire (s.atInstr i) _ u from rfl, hpc _, hcs, hmoved]
  rfl

/-! The meanings where their wait is over. -/

theorem maccRdBody_ends {d a : BitVec 7} {s : State}
    (hfree : let x := s.rdS a.toNat
      descOk x true true false false false 32 = true ∧ s.cw.inWindow (dRow0 x) 1 = true ∧ s.rowsBusy [(dRow0 x, 1)] = false) :
    ∃ f, maccRdBody d a s = .ok (s.wrLanes d.toNat s.active f) := by
  obtain ⟨hdesc, hwin, hrows⟩ := hfree
  refine ⟨fun l => (s.block s.cw.blk).accGet (dRow0 (s.rdS a.toNat)) (dCol0 (s.rdS a.toNat) + l), ?_⟩
  have hcheck : maccCheck s (s.rdS a.toNat) = none := by
    unfold maccCheck
    simp [hdesc, hwin, hrows]
  unfold maccRdBody
  simp only [hcheck]

theorem qfenceBody_ends {m : BitVec 14} {s : State} {v : Wait} (hv : s.cs.wait = some v) (hk : v.kind = .qfence)
    (h0 : fieldOf m 6 8 = 0) (hq : fieldOf m 0 6 ≠ 0) (hout : s.outstanding s.issue.warp (fieldOf m 0 6) v.seq = false) :
    qfenceBody m s = .ok s := by
  unfold qfenceBody
  simp [hv, hk, h0, hq, hout]

theorem waitBody_ends {m : BitVec 14} {s : State} {v : Wait} (hv : s.cs.wait = some v) (hk : v.kind = .pause)
    (hu : v.until_ ≤ s.clock) : waitBody m s = .ok s := by
  unfold waitBody
  simp [hv, hk, hu]

theorem rgrowBody_ends {d : BitVec 7} {s s1 : State} {v : Wait} (hv : s.cs.wait = some v) (hk : v.kind = .rgrow)
    (hin : s.inHandler = false) (hpend : s.cw.othersPending s.issue.entry = false) (hext : s.cw.ext = false)
    (hpool : 64 ≤ s.pool (s.quarterOf s.issue.warp)) (hfirst : s.firstToGrow s.issue.warp v.seq = true)
    (hspill : s.spillAll s.issue.warp 9 = (s1, none)) :
    let s2 := s1.putW (rebase s1.cw { s1.cw with ext := true } s1.cw.effF)
    rgrowBody d s = .ok (s2.wrS d.toNat (BitVec.ofNat 64 s2.cw.allot)) := by
  unfold rgrowBody windowBody
  simp [hv, hk, hin, hpend, hext, hpool, hfirst, hspill]

theorem txbBody_ends {a imm : BitVec 7} {s u : State} {v : Nat} (hp : fieldOf (s.rdS a.toNat) 0 7 = 0)
    (hl : s.tableLines (s.rdS a.toNat).toNat 9 0 = .ok (v, u)) (hb : tableBad v = false)
    (hroom : u.weightRoom s.cw.blk (fieldOf imm 0 4)
      ⟨s.who.asid, BitVec.ofNat 64 (fieldOf (s.rdS a.toNat) 0 57), BitVec.ofNat 9216 v, true⟩ = true) :
    txbBody a imm s = .ok (u.setBlock s.cw.blk ((u.block s.cw.blk).setSlot (fieldOf imm 0 4)
      ⟨s.who.asid, BitVec.ofNat 64 (fieldOf (s.rdS a.toNat) 0 57), BitVec.ofNat 9216 v, true⟩)) := by
  unfold txbBody
  simp [hp, hl, hb, hroom]

theorem obldBody_ends {a b : BitVec 7} {s u : State} {locs : List (Nat × Loc)} (ho : s.domainOpen .read a b = .ok (locs, u))
    (hasked : lanesAsked s.issue.resp 0 (fun _ => 4) (fun _ p pa => askRead p 4 pa) locs = .ok [])
    (hall : (locs.foldl (obldStep s a) (true, u)).1 = true) :
    obldBody a b s = .ok ((locs.foldl (obldStep s a) (true, u)).2.acquireL1 (s.coreOfWarp s.issue.warp)) := by
  unfold obldBody
  simp [ho, hasked, hall]

theorem mwaitBody_ends {a b : BitVec 7} {s u : State} {c : Nat} (ha : (s.rdS a.toNat).toNat % 64 = 0)
    (hb : (s.rdS b.toNat).getLsbD 63 = false) (hload : s.atomicLoad .mwait (s.rdS a.toNat).toNat = .ok (c, u))
    (hc : (s.rdS b.toNat).toNat ≤ c % 2 ^ 63 ∨ c / 2 ^ 63 % 2 = 1) :
    mwaitBody a b s = .ok (u.acquireL1 (u.coreOfWarp u.issue.warp)) := by
  unfold mwaitBody
  simp only [ha, hb, hload, ne_eq, not_true_eq_false, if_false, Bool.false_eq_true]
  refine if_neg ?_
  simp only [field, pow_zero, Nat.div_one, Bool.and_eq_true, decide_eq_true_eq]
  rintro ⟨hlt, herr⟩
  have hclear := of_decide_eq_true herr
  omega

theorem jobBody_ends {kind : Nat} {a : BitVec 7} {s : State} (hp : fieldOf (s.rdS a.toNat) 0 6 = 0)
    (hroom : (s.die (dieOf (s.coreOfWarp s.issue.warp))).jobs.length < Config.jobDepth) :
    ∃ u, jobBody kind a s = .ok u ∧ Apart s u := by
  refine ⟨_, (if_neg (not_not.mpr hp)).trans (if_neg (Nat.not_le.mpr hroom)), ?_⟩
  exact (Apart.releaseL1 _ _).trans (Apart.setDie _ _ _)

theorem copyBody_ends {variant : Nat} {a : BitVec 7} {s : State}
    (hc : s.copyCheck variant (s.rdS a.toNat) (s.rdS (a.toNat + 1)) (s.rdS (a.toNat + 2)) (s.rdS (a.toNat + 3)) = none)
    (hroom : ((s.core (s.coreOfWarp s.issue.warp)).queue (cQ (s.rdS (a.toNat + 2)))).length < 16) :
    ∃ u, copyBody variant a s = .ok u ∧ Apart s u := by
  unfold copyBody
  simp only [hc]
  unfold State.enqueue
  refine ⟨_, if_neg (Nat.not_le.mpr hroom), ?_⟩
  exact Apart.units rfl rfl rfl rfl

theorem tinsBody_ends {d a b : BitVec 7} {s u : State} {xs : List (Nat × Nat × Nat × Nat)} (hi : s.issue.ins = none)
    (hf : tinsFind a b s = .ok (xs, u)) : tinsBody d a b s = .ok (tinsPut d s xs u) := by
  unfold tinsBody
  rw [hi]
  dsimp only
  rw [hf]

theorem txsBody_ends {g : Bool} {d a b : BitVec 7} {s u : State} {xs : List (Nat × List Nat)}
    (hf : txsFind g a b s = .ok (xs, u)) : txsBody g d a b s = .ok (txsPut d s xs u) := by
  unfold txsBody
  rw [hf]

/-- What TINS writes is a run of three registers. -/
theorem tinsPut_eq_wrRun (d : BitVec 7) (s : State) (xs : List (Nat × Nat × Nat × Nat)) (u : State) :
    ∃ f, tinsPut d s xs u = u.wrRun d.toNat s.active 3 f := by
  let v := fun l => (alGet xs l).getD (0, 0, 0)
  exact ⟨fun k => match k with
    | 0 => fun l => BitVec.ofNat 32 ((v l).1 + (v l).2.1 % 4 * 4)
    | 1 => fun l => BitVec.ofNat 32 (v l).2.2
    | _ => fun l => BitVec.ofNat 32 ((v l).2.2 / 2 ^ 32), rfl⟩

theorem txsPut_eq_wrRun (d : BitVec 7) (s : State) (xs : List (Nat × List Nat)) (u : State) :
    txsPut d s xs u = u.wrRun d.toNat s.active 4 (fun n l => BitVec.ofNat 32 (nth ((alGet xs l).getD []) n 0)) := rfl

/-- An atomic load touches no warp, and of the issue only the answers that it has used. -/
theorem atomicLoad_warps {s u : State} {k : WaitKind} {p c : Nat} (h : s.atomicLoad k p = .ok (c, u)) :
    u.warps = s.warps ∧ u.issue.warp = s.issue.warp ∧ u.issue.entry = s.issue.entry ∧ u.issue.moved = s.issue.moved := by
  unfold State.atomicLoad at h
  split at h
  · cases h
  · next t _ =>
    split at h
    · split at h
      · cases h
      · cases h
        exact ⟨rfl, rfl, rfl, rfl⟩
      · cases h
    · cases h
      have ha := Apart.homeRead s s.who (field p 0 57) 8 t false (fab_who s)
      exact ⟨ha.warps, congrArg Issue.warp ha.issue, congrArg Issue.entry ha.issue, congrArg Issue.moved ha.issue⟩

/-- An instruction that ends in an acquire after an atomic load goes on at the next chain. -/
theorem acquired_pc {i : Instr} {info : OpInfo} {body : Body} {s u : State} {k : WaitKind} {p c n : Nat} (hr : Runs i info body)
    (h : ready i s = true) (hl : (s.atInstr i).atomicLoad k p = .ok (c, u)) (hb : body (s.atInstr i) = .ok (u.acquireL1 n)) :
    ∃ t, exec i s = .next t ∧ t.cs.pc = s.seqPc := by
  obtain ⟨hw, hwarp, hentry, hmoved⟩ := atomicLoad_warps hl
  have ha := Apart.acquireL1 u n
  refine ⟨_, hr.ok h hb, retired_pc h (ha.warps.trans hw) ?_⟩
  rw [ha.issue]
  exact ⟨hwarp, hentry, hmoved⟩

/-! Each event and its instruction. -/

theorem endsWait_maccRd (d a : BitVec 7) : EndsWait .scoreboardClear .board (.maccRd d a) (fun _ s => let x := s.rdS a.toNat
    descOk x true true false false false 32 = true ∧ s.cw.inWindow (dRow0 x) 1 = true ∧ s.rowsBusy [(dRow0 x, 1)] = false)
    State.seqPc := by
  obtain ⟨_, hd, hr⟩ := runs_maccRd d a
  refine Laws.endsWait_of_apart hr (fun s w e v hw => ?_) (Laws.wr_maccRd d a) fun _ u hready hfree _ _ => ?_
  · obtain ⟨hwait, hkind, -⟩ := hw
    show execScoreboardClear w e s = _
    unfold execScoreboardClear
    rw [if_pos (by simp [hwait, hkind])]
  · obtain ⟨f, hf⟩ := maccRdBody_ends (d := d) hfree
    have hname : (u.atInstr (.maccRd d a)).vname d.toNat = true :=
      Laws.vdst_run hr.info hready 1 (by omega) (.inl hd) (dField d a 0) 0 (by omega)
    have hlist : (u.atInstr (.maccRd d a)).issue.warp < (u.atInstr (.maccRd d a)).warps.length := ready_list hready
    exact ⟨_, _, hf, Apart.same _, (wrLanes_spec _ _ _ _ hlist hname).1⟩

theorem endsWait_ring {i : Instr} {info : OpInfo} {prod : Bool} {d a : BitVec 7} (hr : Runs i info (stgaBody prod d a))
    (hfmt : info.fmt ≠ .B) (hdst : info.d = .sdst) (hf : i.fields.extractLsb' 14 7 = d)
    (hwr : ∀ u, waitingRun (encode i) u = exec i u) :
    EndsWait .stageRingGrant .ring i (fun _ s => ∃ off h n, s.ringHeader a = .ok (off, h, n) ∧ s.ringBlocked off = false ∧
      field h (ringAt prod) 4 < n ∧ field h (2 * field h (ringAt prod) 4) 2 = slotFree prod) State.seqPc := by
  refine Laws.endsWait_of_apart hr (fun _ _ _ _ _ => rfl) hwr fun _ u hready hpre _ _ => ?_
  obtain ⟨off, h, n, hd, hb, hi, hs⟩ := hpre
  have ha := Apart.scratch (u.atInstr i) (u.atInstr i).cw.blk off (toBytes 16 (claimed prod h n))
  exact ⟨_, _, stgaBody_claims hd hi hb hs, ha,
    (wrS_spec _ _ _ (by rw [ha.issue, ha.warps]; exact ready_list hready) (ready_sdst hr.info hready hfmt (.inl hdst) hf)).1⟩

theorem endsWait_qfence (q : BitVec 14) : EndsWait .qfenceCompletion .qfence (.qfence q) (fun v s => fieldOf q 6 8 = 0 ∧
    fieldOf q 0 6 ≠ 0 ∧ s.outstanding s.issue.warp (fieldOf q 0 6) v.seq = false) State.seqPc := by
  obtain ⟨_, hr⟩ := runs_qfence q
  refine Laws.endsWait_of_apart hr (fun _ _ _ _ _ => rfl) (Laws.wr_qfence q) fun v u _ hpre hv hk => ?_
  obtain ⟨h0, hq, hout⟩ := hpre
  exact ⟨_, _, qfenceBody_ends (s := u.atInstr (.qfence q)) hv hk h0 hq hout, Apart.same _, Wrote.same _⟩

theorem endsWait_pause (m : BitVec 14) :
    EndsWait .waitPauseEnd .pause (.wait m) (fun v s => v.until_ ≤ s.clock) State.seqPc := by
  obtain ⟨_, hr⟩ := runs_wait m
  refine Laws.endsWait_of_apart hr (fun _ _ _ _ _ => rfl) (Laws.wr_wait m) fun v u _ hpre hv hk => ?_
  exact ⟨_, _, waitBody_ends (s := u.atInstr (.wait m)) hv hk hpre, Apart.same _, Wrote.same _⟩

theorem endsWait_txb (a imm : BitVec 7) : EndsWait .weightCacheEntryGrant .weight (.txb a imm) (fun _ s =>
    fieldOf (s.rdS a.toNat) 0 7 = 0 ∧ ∃ v u, s.tableLines (s.rdS a.toNat).toNat 9 0 = .ok (v, u) ∧ tableBad v = false ∧
      u.weightRoom s.cw.blk (fieldOf imm 0 4)
        ⟨s.who.asid, BitVec.ofNat 64 (fieldOf (s.rdS a.toNat) 0 57), BitVec.ofNat 9216 v, true⟩ = true) State.seqPc := by
  obtain ⟨_, hr⟩ := runs_txb a imm
  refine Laws.endsWait_of_apart hr (fun _ _ _ _ _ => rfl) (Laws.wr_txb a imm) fun _ u _ hpre _ _ => ?_
  obtain ⟨hp, v, y, hl, hb, hroom⟩ := hpre
  exact ⟨_, _, txbBody_ends hp hl hb hroom,
    (tableLines_apart _ _ _ _ _ _ hl).trans (Apart.setBlock _ _ (Block.setSlot _ _ _) rfl rfl), Wrote.same _⟩

theorem endsWait_obld (a b : BitVec 7) : EndsWait .obldGrant .obld (.obld a b) (fun _ s => ∃ locs u,
    s.domainOpen .read a b = .ok (locs, u) ∧
    lanesAsked s.issue.resp 0 (fun _ => 4) (fun _ p pa => askRead p 4 pa) locs = .ok [] ∧
    (locs.foldl (obldStep s a) (true, u)).1 = true) State.seqPc := by
  obtain ⟨_, hr⟩ := runs_obld a b
  refine Laws.endsWait_of_apart hr (fun _ _ _ _ _ => rfl) (Laws.wr_obld a b) fun _ u _ hpre _ _ => ?_
  obtain ⟨locs, y, ho, hasked, hall⟩ := hpre
  exact ⟨_, _, obldBody_ends ho hasked hall,
    ((domainOpen_apart ho).trans (Laws.obldFold_apart _ _ locs (true, y))).trans (Apart.acquireL1 _ _), Wrote.same _⟩

theorem endsWait_abar (a b : BitVec 7) : EndsWait .abarWaitResume .abar (.abarWait a b) (fun _ s => ∃ c off,
    s.locate false .read (objAddr (s.rdS a.toNat) 0) 16 = .ok (.scr c off) ∧
    let h := ofBytes (s.scratchRead c (off + 8) 8)
    1 ≤ field h 1 3 ∧ field h 1 3 ≤ 5 ∧ h % 2 ≠ fieldOf (s.rdS b.toNat) 0 1) State.seqPc := by
  obtain ⟨_, -, hr⟩ := runs_abarWait a b
  refine Laws.endsWait_of_apart hr (fun _ _ _ _ _ => rfl) (Laws.wr_abarWait a b) fun _ u _ hpre _ _ => ?_
  obtain ⟨c, off, hl, h1, h5, hp⟩ := hpre
  exact ⟨_, _, (abarWaitBody_scratch hl).trans ((if_neg (by simp; omega)).trans (if_neg hp)),
    Apart.ite (Apart.acquireL1 _ _) (Apart.same _), Wrote.same _⟩

theorem endsWait_fjoin (a : BitVec 7) : EndsWait .fjoinReturn .fjoin (.fjoin a) (fun _ s => (s.rdS a.toNat).toNat % 8 = 0 ∧
    ∃ u, s.atomicLoad .fjoin (s.rdS a.toNat).toNat = .ok (0, u)) State.seqPc := by
  obtain ⟨_, hr⟩ := runs_fjoin a
  refine Laws.endsWait_of (fun _ _ _ _ _ => rfl) (Laws.wr_fjoin a) fun s w e v _ hready hpre _ => ?_
  obtain ⟨hp, u, hload⟩ := hpre
  exact acquired_pc hr hready hload (fjoinBody_ends hp hload)

theorem endsWait_mwait (a b : BitVec 7) : EndsWait .mwaitReturn .mwait (.mwait a b) (fun _ s =>
    (s.rdS a.toNat).toNat % 64 = 0 ∧ (s.rdS b.toNat).getLsbD 63 = false ∧
    ∃ c u, s.atomicLoad .mwait (s.rdS a.toNat).toNat = .ok (c, u) ∧
      ((s.rdS b.toNat).toNat ≤ c % 2 ^ 63 ∨ c / 2 ^ 63 % 2 = 1)) State.seqPc := by
  obtain ⟨_, hr⟩ := runs_mwait a b
  refine Laws.endsWait_of (fun _ _ _ _ _ => rfl) (Laws.wr_mwait a b) fun s w e v _ hready hpre _ => ?_
  obtain ⟨ha, hb, c, u, hload, hc⟩ := hpre
  exact acquired_pc hr hready hload (mwaitBody_ends ha hb hload hc)

theorem endsWait_yield (m : BitVec 21) : EndsWait .yieldContinuation .yield (.yield m)
    (fun _ s => s.copiesOut s.issue.warp = false)
    (fun s => BitVec.ofInt 57 ((s.issue.pc.toNat : Int) + s.imm 21 m.toNat * 4)) := by
  obtain ⟨_, hr⟩ := runs_yield m
  refine Laws.endsWait_of (fun _ _ _ _ _ => rfl) (Laws.wr_yield m) fun s w e v _ hready hpre _ => ?_
  obtain ⟨t, hexec, hpc, -⟩ := Laws.goes_of_body hr
    (some (BitVec.ofInt 57 (((s.again w e v).issue.pc.toNat : Int) + (s.again w e v).imm 21 m.toNat * 4))) _ hready
    (if_neg (by simpa using hpre))
  exact ⟨t, hexec, hpc⟩

theorem endsWait_tins (d a b : BitVec 7) : EndsWait .tinsLockRelease .tins (.tins d a b)
    (fun _ s => s.issue.ins = none ∧ ∃ r, tinsFind a b s = .ok r) State.seqPc := by
  obtain ⟨_, hd, hr⟩ := runs_tins d a b
  refine Laws.endsWait_of_apart hr (fun _ _ _ _ _ => rfl) (Laws.wr_tins d a b) fun _ u hready hpre _ _ => ?_
  obtain ⟨hi, ⟨xs, y⟩, hf⟩ := hpre
  obtain ⟨f, hput⟩ := tinsPut_eq_wrRun d (u.atInstr (.tins d a b)) xs y
  have ha := tinsFind_apart hf
  exact ⟨_, _, (tinsBody_ends hi hf).trans (congrArg Except.ok hput), ha,
    wroteRun_of_apart hr hready ha (by omega) hd (dField d a b)⟩

theorem endsWait_copy (a : BitVec 7) : EndsWait .engineQueueEntry .engineQueue (.copyG2s a) (fun _ s =>
    s.copyCheck 0 (s.rdS a.toNat) (s.rdS (a.toNat + 1)) (s.rdS (a.toNat + 2)) (s.rdS (a.toNat + 3)) = none ∧
    ((s.core (s.coreOfWarp s.issue.warp)).queue (cQ (s.rdS (a.toNat + 2)))).length < 16) State.seqPc := by
  obtain ⟨_, hr⟩ := runs_copyG2s a
  refine Laws.endsWait_of_apart hr (fun _ _ _ _ _ => rfl) (Laws.wr_copyG2s a) fun _ u _ hpre _ _ => ?_
  obtain ⟨y, hb, ha⟩ := copyBody_ends hpre.1 hpre.2
  exact ⟨_, _, hb, ha, Wrote.same _⟩

theorem endsWait_job {i : Instr} {info : OpInfo} {kind : Nat} {a : BitVec 7} (hr : Runs i info (jobBody kind a))
    (hwr : ∀ u, waitingRun (encode i) u = exec i u) : EndsWait .riddleJobQueueEntry .riddle i (fun _ s =>
    fieldOf (s.rdS a.toNat) 0 6 = 0 ∧ (s.die (dieOf (s.coreOfWarp s.issue.warp))).jobs.length < Config.jobDepth) State.seqPc := by
  refine Laws.endsWait_of_apart hr (fun _ _ _ _ _ => rfl) hwr fun _ u _ hpre _ _ => ?_
  obtain ⟨y, hb, ha⟩ := jobBody_ends hpre.1 hpre.2
  exact ⟨_, _, hb, ha, Wrote.same _⟩

section
variable {i : Instr} {info : OpInfo} {g : Bool} {d a b : BitVec 7} (hr : Runs i info (txsBody g d a b)) (hd : info.d = .vdst 4)
  (hf : i.fields.extractLsb' 14 7 = d) (hwr : ∀ u, waitingRun (encode i) u = exec i u)
include hr hd hf

theorem txs_ends {u : State} (h : ready i u = true) (hfind : ∃ r, txsFind g a b (u.atInstr i) = .ok r) :
    ∃ x y, txsBody g d a b (u.atInstr i) = .ok y ∧ Apart (u.atInstr i) x ∧ Wrote x y := by
  obtain ⟨⟨xs, y⟩, hfind⟩ := hfind
  have ha := txsFind_apart hfind
  exact ⟨_, _, txsBody_ends hfind, ha, wroteRun_of_apart hr h ha (by omega) hd hf⟩

include hwr

theorem endsWait_txs :
    EndsWait .weightCacheEntryGrant .weight i (fun _ s => ∃ r, txsFind g a b s = .ok r) State.seqPc :=
  Laws.endsWait_of_apart hr (fun _ _ _ _ _ => rfl) hwr fun _ _ hready hpre _ _ => txs_ends hr hd hf hready hpre

/-- A fetch of a warp that runs its program (R253). -/
theorem sampler_ends {s : State} {w e : Nat} {v : Wait} (hw : WaitsAt s w e v .sample i) (hb : s.goesBehind w e = false) :
    exec (.samplerFetchCompletion w e) s = exec i (s.again w e v) ∧
      (ready i (s.again w e v) = true → (∃ r, txsFind g a b ((s.again w e v).atInstr i) = .ok r) →
        ∃ t, exec (.samplerFetchCompletion w e) s = .next t ∧ t.cs.pc = (s.again w e v).seqPc) := by
  have hexec : exec (.samplerFetchCompletion w e) s = exec i (s.again w e v) := by
    show execSamplerFetchCompletion w e s = _
    unfold execSamplerFetchCompletion
    rw [hb, Laws.grant_again hw, hwr]
    rfl
  refine ⟨hexec, fun hready hfind => ?_⟩
  obtain ⟨x, y, hbody, ha, hwrote⟩ := txs_ends hr hd hf hready hfind
  exact ⟨_, hexec.trans (hr.ok hready hbody), Laws.wrote_pc hready ha hwrote⟩

end

/-- A fetch in the sampler queue of a warp that is stopped or in handler code is performed on its program (R254). -/
theorem sampler_goes_behind {i : Instr} {s u : State} {w e : Nat} {v : Wait} {t : Strand}
    (hwr : ∀ u, waitingRun (encode i) u = exec i u) (hb : s.goesBehind w e = true)
    (ht : (s.warp w).strand e = some t) (hv : t.wait = some v) (hword : v.word = encode i)
    (hexec : exec i ((s.setWarp w { s.warp w with handlers := [], stopped := none }).again w e v) = .next u)
    (hphase : (u.warp w).phase = .running) (hhandlers : (u.warp w).handlers = []) (hstopped : (u.warp w).stopped = none) :
    exec (.samplerFetchCompletion w e) s =
      .next (u.setWarp w { u.warp w with handlers := (s.warp w).handlers, stopped := (s.warp w).stopped }) := by
  have hlist : w < s.warps.length := by
    refine State.warp_in_list s w fun hgone => ?_
    unfold State.goesBehind at hb
    simp [hgone] at hb
  have hnot : ¬ ((decide ((s.warp w).handlers = []) && (s.warp w).stopped.isNone) = true) := by
    unfold State.goesBehind at hb
    simp only [Bool.and_eq_true, Bool.or_eq_true, decide_eq_true_eq] at hb
    obtain ⟨⟨⟨hbehind, -⟩, -⟩, -⟩ := hb
    cases hs : (s.warp w).stopped <;> simp_all
  have hretry : (s.setWarp w { s.warp w with handlers := [], stopped := none }).retryWait waitingRun w e = .next u := by
    have hrun : ((s.setWarp w { s.warp w with handlers := [], stopped := none }).warp w).runner e = some t := by
      rw [State.warp_setWarp, if_pos ⟨rfl, hlist⟩]
      exact ht
    unfold State.retryWait
    rw [hrun]
    dsimp only
    rw [hv]
    dsimp only
    rw [hword, hwr]
    exact hexec
  show execSamplerFetchCompletion w e s = _
  unfold execSamplerFetchCompletion
  rw [if_pos hb]
  unfold State.behindTrap
  dsimp only
  rw [if_neg hnot, hretry]
  simp [hphase, hhandlers, hstopped]

/-- A live strand whose loads have come, or whose chain may issue again, is ready (R22, R203, R291). -/
theorem scoreboardClear_readies {s : State} {w e : Nat} {t : Strand} {v : Wait} (hw : s.waitOf w e = some v)
    (ht : (s.warp w).strand e = some t) (hv : t.wait = some v)
    (hk : v.kind = .load ∨ (v.kind = .flights ∧ s.flightsClear w e t v = true)) (hl : s.warpLive w = true)
    (hh : (s.warp w).held e = false) : exec (.scoreboardClear w e) s =
      .next (s.setWarp w ((s.warp w).setStrand e (some { t with st := .ready, wait := none }))) := by
  have hboard : v.kind ≠ .board := by
    rintro hb
    rcases hk with hk | ⟨hk, -⟩ <;> rw [hb] at hk <;> cases hk
  show execScoreboardClear w e s = _
  unfold execScoreboardClear
  rw [if_neg (by simp [hw, hboard])]
  simp only [ht, hv]
  refine if_pos ?_
  rcases hk with hk | ⟨hk, hclear⟩
  · simp [hl, hh, hk]
  · simp [hl, hh, hk, hclear]

theorem rgrow_grows {d : BitVec 7} {s s1 : State} {w e : Nat} {v : Wait} (hw : WaitsAt s w e v .rgrow (.rgrow d))
    (hready : ready (.rgrow d) (s.again w e v) = true) (hin : (s.again w e v).inHandler = false)
    (hpend : (s.again w e v).cw.othersPending (s.again w e v).issue.entry = false) (hext : (s.again w e v).cw.ext = false)
    (hpool : 64 ≤ (s.again w e v).pool ((s.again w e v).quarterOf w)) (hfirst : (s.again w e v).firstToGrow w v.seq = true)
    (hspill : ((s.again w e v).atInstr (.rgrow d)).spillAll w 9 = (s1, none)) :
    let s2 := s1.putW (rebase s1.cw { s1.cw with ext := true } s1.cw.effF)
    exec (.rgrowGrant w e) s = .next ((s.again w e v).retired (.rgrow d) (s2.wrS d.toNat (BitVec.ofNat 64 s2.cw.allot))) := by
  obtain ⟨_, hr⟩ := runs_rgrow d
  obtain ⟨t, -, hv, hcs⟩ := Laws.again_runner hw
  have hwait : ((s.again w e v).atInstr (.rgrow d)).cs.wait = some v := (congrArg Strand.wait hcs).trans hv
  show s.grant w e [.rgrow] = _
  rw [Laws.grant_again hw, Laws.wr_rgrow]
  exact hr.ok hready (rgrowBody_ends hwait hw.2.1 hin hpend hext hpool hfirst hspill)

/-- A strand takes its permit and tries again (R215). -/
theorem permit_to_strand {i : Instr} {s : State} {w e : Nat} {v : Wait} {t : Strand} (hw : WaitsAt s w e v .permit i)
    (ht : (s.warp w).runner e = some t) : exec (.pourPermitGrant (.strand w e)) s =
      (s.setWarp w ((s.warp w).setRunner e { t with permit := true })).grant w e [.permit] := by
  obtain ⟨hwait, hkind, -, hlive, hstuck, -⟩ := hw
  have hheld : (s.warp w).held e = false := by
    unfold Warp.stuck Wait.underway at hstuck
    simpa [hkind] using hstuck
  show execPourPermitGrant (.strand w e) s = _
  unfold execPourPermitGrant
  simp only [hwait, ht]
  exact if_pos (by simp [hkind, hlive, hheld])

/-- Settles O55: each event has its instruction tried again, whose meaning then ends. -/
theorem grantedWaitsEnd : Obligations.GrantedWaitsEnd := by
  unfold Obligations.GrantedWaitsEnd
  intro d a b imm
  refine ⟨endsWait_maccRd d a, fun s w e t v => scoreboardClear_readies, fun s w e v s1 => rgrow_grows, ?_, endsWait_qfence, ?_,
    endsWait_txb a imm, endsWait_obld a b, endsWait_abar a b, endsWait_fjoin a, endsWait_mwait a b, endsWait_yield, endsWait_pause,
    endsWait_tins d a b, endsWait_copy a, ?_, ?_, fun s w e v t => permit_to_strand, ?_, ?_⟩
  · intro x hx
    simp only [List.mem_cons, List.not_mem_nil, or_false] at hx
    obtain rfl | rfl := hx
    · obtain ⟨_, hfmt, hdst, hr⟩ := runs_stgaProd d a
      exact endsWait_ring hr hfmt hdst (dField d a 0) (Laws.wr_stgaProd d a)
    · obtain ⟨_, hfmt, hdst, hr⟩ := runs_stgaCons d a
      exact endsWait_ring hr hfmt hdst (dField d a 0) (Laws.wr_stgaCons d a)
  · intro s w e v hw
    dsimp only
    intro hready hidx hx hg hg' hts hrows hops
    obtain ⟨_, hr⟩ := runs_mwin a b
    show s.grant w e [.mwin] = _
    rw [Laws.grant_again hw, Laws.wr_mwin]
    exact hr.ok hready (Laws.mwin_body a b _ hidx hx hg hg' hts hrows hops)
  · intro i hi
    simp only [List.mem_cons, List.not_mem_nil, or_false] at hi
    obtain rfl | rfl | rfl := hi
    · obtain ⟨_, hr⟩ := runs_ksrtK32 a
      exact endsWait_job hr (Laws.wr_ksrtK32 a)
    · obtain ⟨_, hr⟩ := runs_ksrtK64 a
      exact endsWait_job hr (Laws.wr_ksrtK64 a)
    · obtain ⟨_, hr⟩ := runs_binc a
      exact endsWait_job hr (Laws.wr_binc a)
  · intro x hx
    simp only [List.mem_cons, List.not_mem_nil, or_false] at hx
    obtain rfl | rfl := hx
    · obtain ⟨_, hd, hr⟩ := runs_txsL d a b
      exact ⟨endsWait_txs hr hd (dField d a b) (Laws.wr_txsL d a b),
        fun s w e v hw hb => sampler_ends hr hd (dField d a b) (Laws.wr_txsL d a b) hw hb,
        fun s w e v t hb ht hv hword u => sampler_goes_behind (Laws.wr_txsL d a b) hb ht hv hword⟩
    · obtain ⟨_, hd, hr⟩ := runs_txsG d a b
      exact ⟨endsWait_txs hr hd (dField d a b) (Laws.wr_txsG d a b),
        fun s w e v hw hb => sampler_ends hr hd (dField d a b) (Laws.wr_txsG d a b) hw hb,
        fun s w e v t hb ht hv hword u => sampler_goes_behind (Laws.wr_txsG d a b) hb ht hv hword⟩
  · intro s core q o hhead hasks hheld hperf
    show execPourPermitGrant (.copyHead core q) s = _
    unfold execPourPermitGrant
    simp [hhead, hasks, hheld, hperf]
  · intro s core q o hhead
    show execPourPermitGrant (.followOn core q) s = _
    unfold execPourPermitGrant
    simp only [hhead]

end Sys2Proof.Machine
end

section
/-! The steps that warps take of themselves (R29, R30, R47 to R50, R74, R82, R83, R178, R289, R292, R294 to R296, R360). -/

namespace Sys2Proof.Machine
open Sys2Proof

/-! Miss groups (R29, R30). -/

theorem foldl_min_const {ms : List Nat} {k : Nat → Nat} {n : Nat} (hk : ∀ g ∈ ms, k g = n) (hne : ms ≠ []) {m : Nat}
    (hm : n ≤ m) : ms.foldl (fun m g => min m (k g)) m = n := by
  induction ms generalizing m with
  | nil => exact absurd rfl hne
  | cons f r ih =>
    have hf : k f = n := hk f (List.mem_cons_self ..)
    rw [List.foldl_cons, hf, Nat.min_eq_right hm]
    cases r with
    | nil => rfl
    | cons g r => exact ih (fun h hh => hk h (List.mem_cons_of_mem _ hh)) (by simp) (Nat.le_refl n)

/-- The PC of the strand in an entry, and the lowest of a miss group's. -/
def Warp.pcAt (x : Warp) (g : Nat) : Nat :=
  match x.strand g with
  | some t => t.pc.toNat
  | none => 0
def Warp.lowestPc (x : Warp) (ms : List Nat) : Nat := ms.foldl (fun m g => min m (x.pcAt g)) (2 ^ 57)

theorem mergeMiss_eq (s : State) (w e : Nat) : s.mergeMiss w e =
    let x := s.warp w
    let ms := x.missGroup e
    let first := (ms.find? (fun g => decide (x.pcAt g = x.lowestPc ms))).getD 0
    if ms = [] || !ms.all (fun g => x.atWaitPoint g && !x.held g) then s
    else match x.strand first with
      | none => s
      | some t =>
        if ms.all (fun g => decide (x.pcAt g = x.lowestPc ms)) then
          s.setWarp w ((ms.foldl (fun y g => y.setStrand g none) x).setStrand first (some (x.mergedMiss ms t)))
        else s.setWarp w (x.setStrand first (some { t with st := .ready, wait := none, alone := true })) := rfl

/-- A miss group that stands at one PC merges into its lowest entry. -/
theorem missGroup_merges {s : State} {w e f : Nat} {ms : List Nat} {t : Strand} (hl : s.warpLive w = true)
    (hh : (s.warp w).handlers = []) (hg : (s.warp w).missGroup e = f :: ms) (ht : (s.warp w).strand f = some t)
    (hall : ∀ g ∈ f :: ms, (s.warp w).atWaitPoint g = true ∧ (s.warp w).held g = false ∧
      ∃ u, (s.warp w).strand g = some u ∧ u.pc = t.pc) :
    exec (.missGroupMerge w e) s = .next (s.setWarp w (((f :: ms).foldl (fun y g => y.setStrand g none) (s.warp w)).setStrand f
      (some ((s.warp w).mergedMiss (f :: ms) t)))) := by
  have hne : f :: ms ≠ [] := by simp
  have hpc : ∀ g ∈ f :: ms, (s.warp w).pcAt g = t.pc.toNat := fun g hg => by
    obtain ⟨-, -, u, hu, hup⟩ := hall g hg
    unfold Warp.pcAt
    rw [hu, ← hup]
  have hlow : (s.warp w).lowestPc (f :: ms) = t.pc.toNat := foldl_min_const hpc hne t.pc.isLt.le
  have hready : (f :: ms).all (fun g => (s.warp w).atWaitPoint g && !(s.warp w).held g) = true := by
    rw [List.all_eq_true]
    intro g hg
    obtain ⟨hw, hh, -⟩ := hall g hg
    simp [hw, hh]
  have hsame : (f :: ms).all (fun g => decide ((s.warp w).pcAt g = t.pc.toNat)) = true := by
    rw [List.all_eq_true]
    exact fun g hg => decide_eq_true (hpc g hg)
  have hfirst : (f :: ms).find? (fun g => decide ((s.warp w).pcAt g = t.pc.toNat)) = some f :=
    List.find?_cons_of_pos (decide_eq_true (hpc f (List.mem_cons_self ..)))
  show execMissGroupMerge w e s = _
  unfold execMissGroupMerge
  rw [if_pos (by simp [hl, hh]), mergeMiss_eq]
  dsimp only
  rw [hg, hready, hlow, hfirst, Option.getD_some, ht, hsame, if_neg (by simp)]
  rfl

/-! Exits (R49, R83, R178, R360). -/

theorem exitDrain_drained {s : State} {w : Nat} (hp : (s.warp w).phase = .exiting)
    (hr : (s.block (s.warp w).blk).resid = .resident)
    (ho : (s.dropOps (fun o => o.warp = w && o.stopped)).opsOf w = []) :
    exec (.exitDrainComplete w) s = .next ((s.dropOps (fun o => o.warp = w && o.stopped)).exitDrained w) := by
  show execExitDrainComplete w s = _
  unfold execExitDrainComplete
  dsimp only
  rw [if_pos (by simp [hp, hr]), if_pos ho]

theorem taskPool_releaseL1 (s : State) (w c : Nat) : (s.releaseL1 c).taskPool w = s.taskPool w := by
  have ha := Laws.releaseL1_aside s c
  obtain ⟨hblocks, -, hlaunches⟩ := Laws.aside_fields ha
  have hwarps := (Apart.releaseL1 s c).warps
  unfold State.taskPool State.recOf State.launchOf State.block State.warp
  rw [hwarps, hblocks, hlaunches]

/-- A task warp that is free again. -/
def State.freeTask (s : State) (w : Nat) : State :=
  s.setWarp w { s.warp w with
    phase := .freeTask, task := none, engFaults := [], handlers := [], strands := [none, none, none, none] }

theorem exitDrained_of_taskPool {u : State} {w : Nat} (ht : u.taskPool w = true) :
    u.exitDrained w = (match (u.warp w).task with
      | some c => (u.releaseL1 (u.coreOfWarp w)).joinDone w c
      | none => u.releaseL1 (u.coreOfWarp w)).freeTask w := by
  unfold State.exitDrained
  dsimp only
  rw [taskPool_releaseL1, if_pos ht]
  rfl

theorem exitDrained_of_not_taskPool {u : State} {w : Nat} (ht : u.taskPool w = false) :
    u.exitDrained w =
      let v := (u.releaseL1 (u.coreOfWarp w)).dropWarp w
      let b := (u.warp w).blk
      if (v.block b).warps.all (fun x => (v.warp x).phase = .gone) then v.dropBlock b else v.settleBars b := by
  unfold State.exitDrained
  dsimp only
  rw [taskPool_releaseL1, if_neg (Bool.eq_false_iff.mp ht)]

/-! Messages of a join counter in host memory (R49). -/

/-- What sending messages leaves: warps, blocks, launches, and the posts of every die. -/
structure SentAside (s t : State) : Prop where
  warps : t.warps = s.warps
  blocks : t.blocks = s.blocks
  launches : t.launches = s.launches
  dies : t.dies.length = s.dies.length
  posts : ∀ c, (t.die c).posts = (s.die c).posts

theorem SentAside.trans {s t u : State} (h : SentAside s t) (k : SentAside t u) : SentAside s u :=
  ⟨k.warps.trans h.warps, k.blocks.trans h.blocks, k.launches.trans h.launches, k.dies.trans h.dies,
    fun c => (k.posts c).trans (h.posts c)⟩

theorem SentAside.aside {s t : State} (h : t.aside = s.aside) : SentAside s t := by
  obtain ⟨hblocks, hdies, hlaunches⟩ := Laws.aside_fields h
  exact ⟨(Apart.aside h).warps, hblocks, hlaunches, congrArg List.length hdies, fun c => congrArg Die.posts (Laws.die_of_dies hdies c)⟩

theorem SentAside.setDie (s : State) (d : Nat) (x : Die) (h : x.posts = (s.die d).posts) : SentAside s (s.setDie d x) := by
  refine ⟨rfl, rfl, rfl, List.length_set .., fun c => ?_⟩
  show (nth (s.dies.set d x) c _).posts = _
  rw [nth_set]
  split
  · next hc => rw [hc.1, h]
  · rfl

theorem SentAside.route (s : State) (p : BitVec 128) (m : Msg) : SentAside s (s.route p m) := by
  unfold State.route
  split <;> exact ⟨rfl, rfl, rfl, rfl, fun _ => rfl⟩

theorem SentAside.send (s : State) (d : Nat) (p : BitVec 128) (m : Msg) : SentAside s (s.send d p m).2 :=
  (SentAside.setDie s d ((s.die d).setTx _) rfl).trans (SentAside.route _ _ _)

/-- The message of a need is awaited under the need's kind, address and length (R321). -/
def Awaits (a : HostAsk) (r : HostReq) : Prop := r.kind = a.kind ∧ r.addr = BitVec.ofNat 64 a.addr ∧ r.n = a.n

theorem sendAsk_awaits (s : State) (d c : Nat) (a : HostAsk) :
    Awaits a (s.sendAsk d c a).1 ∧ SentAside s (s.sendAsk d c a).2 := by
  unfold State.sendAsk
  dsimp only
  split <;> exact ⟨⟨rfl, rfl, rfl⟩, SentAside.send ..⟩

theorem sendAsks_awaits (d c : Nat) (q : List HostAsk) (s : State) :
    (∀ a ∈ q, ∃ r ∈ (s.sendAsks d c q).1, Awaits a r) ∧ SentAside s (s.sendAsks d c q).2 := by
  induction q generalizing s with
  | nil => exact ⟨fun a ha => absurd ha (List.not_mem_nil), SentAside.aside rfl⟩
  | cons a q ih =>
    obtain ⟨hone, hs⟩ := sendAsk_awaits s d c a
    obtain ⟨hrest, ht⟩ := ih (s.sendAsk d c a).2
    refine ⟨fun b hb => ?_, hs.trans ht⟩
    obtain rfl | hb := List.mem_cons.mp hb
    · exact ⟨_, List.mem_cons_self .., hone⟩
    · obtain ⟨r, hr, hw⟩ := hrest b hb
      exact ⟨r, List.mem_cons_of_mem _ hr, hw⟩

theorem markAsks_aside (s : State) (w : Who) (hf : w.fab = false) (q : List HostAsk) : (s.markAsks w q).aside = s.aside := by
  refine foldl_aside _ q s fun u a => ?_
  split
  · rfl
  · split
    · exact touch_aside _ _ _ _ _ hf
    · rfl

theorem SentAside.coreOfWarp {s t : State} (h : SentAside s t) (w : Nat) : t.coreOfWarp w = s.coreOfWarp w := by
  unfold State.coreOfWarp State.block State.warp
  rw [h.warps, h.blocks]

theorem SentAside.ctxOfWarp {s t : State} (h : SentAside s t) (w : Nat) : t.ctxOfWarp w = s.ctxOfWarp w := by
  unfold State.ctxOfWarp State.launchOf State.block State.warp
  rw [h.warps, h.blocks, h.launches]

theorem SentAside.launchOfWarp {s t : State} (h : SentAside s t) (w : Nat) :
    (t.block (t.warp w).blk).launch = (s.block (s.warp w).blk).launch := by
  unfold State.block State.warp
  rw [h.warps, h.blocks]

/-- A counter in host memory is sent its update, whose answer the die keeps as posts of the warp. -/
theorem joinDone_asks {v : State} {w : Nat} {c : DWord} {q : List HostAsk}
    (h : v.ioAdd (v.whoOfWarp w) [] c.toNat (2 ^ 64 - 1) = .error (.ask q)) :
    ∃ r : List HostReq, (∀ a ∈ q, ∃ m ∈ r, Awaits a m) ∧ (dieOf (v.coreOfWarp w) < v.dies.length →
      ((v.joinDone w c).die (dieOf (v.coreOfWarp w))).posts = (v.die (dieOf (v.coreOfWarp w))).posts ++
        r.map (fun m => ⟨false, w, (v.block (v.warp w).blk).launch, v.ctxOfWarp w, m⟩)) := by
  let d := dieOf (v.coreOfWarp w)
  let u := v.markAsks (v.whoOfWarp w) q
  have hu : SentAside v u := SentAside.aside (markAsks_aside v _ rfl q)
  obtain ⟨hr, ht⟩ := sendAsks_awaits d (v.ctxOfWarp w) q u
  have hsent := hu.trans ht
  refine ⟨(u.sendAsks d (v.ctxOfWarp w) q).1, ?_, fun hd => ?_⟩
  · exact hr
  · have hjoin : v.joinDone w c = (u.sendAsks d (v.ctxOfWarp w) q).2.post d false w (u.sendAsks d (v.ctxOfWarp w) q).1 := by
      have hctx : u.ctxOfWarp w = v.ctxOfWarp w := hu.ctxOfWarp w
      unfold State.joinDone
      simp only [h]
      rfl
    rw [hjoin]
    unfold State.post
    dsimp only
    rw [Laws.find_die _ _ _ (by rw [hsent.dies]; exact hd), hsent.posts, hsent.ctxOfWarp, hsent.launchOfWarp]

/-! Tasks (R49, R50). -/

/-- The last record of a launch leaves its deque. -/
theorem erase_last {ys zs : List Task} {t : Task} {l : Nat} (ht : t.launch = l) (hz : ∀ z ∈ zs, z.launch ≠ l) :
    (ys ++ t :: zs).reverse.find? (fun t => t.launch = l) = some t ∧ ((ys ++ t :: zs).reverse.erase t).reverse = ys ++ zs := by
  have hrev : (ys ++ t :: zs).reverse = zs.reverse ++ t :: ys.reverse := by simp
  have hmem : t ∉ zs.reverse := fun h => hz t (List.mem_reverse.mp h) ht
  rw [hrev]
  constructor
  · rw [List.find?_append, List.find?_eq_none.mpr (fun z h => by simpa using hz z (List.mem_reverse.mp h))]
    simp [ht]
  · rw [List.erase_append_right _ hmem, List.erase_cons_head]
    simp

theorem task_steals {s : State} {core l c : Nat} {t : Task} {ys zs : List Task} (hf : s.freeTasker core = some l)
    (hown : (s.core core).deque.any (fun t => t.launch = l) = false)
    (hring : ((List.range 7).map (fun i => core / 8 * 8 + (core % 8 + i + 1) % 8)).find?
      (fun c => (s.core c).deque.any (fun t => t.launch = l)) = some c)
    (hd : (s.core c).deque = ys ++ t :: zs) (ht : t.launch = l) (hz : ∀ z ∈ zs, z.launch ≠ l) :
    let u := s.setCore c { s.core c with deque := ys ++ zs }
    exec (.taskSteal core) s = .next (u.setCore core { u.core core with deque := (u.core core).deque ++ [t] }) := by
  obtain ⟨hfind, herase⟩ := erase_last (ys := ys) ht hz
  show execTaskSteal core s = _
  unfold execTaskSteal
  simp only [hf, hown, hring, hd, hfind, herase]
  rfl

/-! The Ladle's own moves (R74). -/

theorem ladle_spills {s u : State} {w : Nat} (hl : s.warpLive w = true) (hs : s.spillOldest w = .ok u) :
    exec (.ladleOptionalSpill w) s = .next (if ∃ h ∈ (s.warp w).handlers, h.inReserve = false then s else u) := by
  show execLadleOptionalSpill w s = _
  unfold execLadleOptionalSpill
  by_cases hr : ∃ h ∈ (s.warp w).handlers, h.inReserve = false
  · rw [if_pos hr, if_neg]
    obtain ⟨h, hm, hi⟩ := hr
    rw [Bool.and_eq_true, List.all_eq_true]
    exact fun hall => by simpa [hi] using hall.2 h hm
  · rw [if_neg hr, if_pos, hs]
    rw [Bool.and_eq_true, List.all_eq_true]
    exact ⟨hl, fun h hm => by simpa using fun hi => hr ⟨h, hm, hi⟩⟩

theorem ladle_refills {s u : State} {w : Nat} (hl : s.warpLive w = true) (hn : (s.warp w).spilled ≠ 0)
    (hs : s.refillNewest w [] (s.warp w).fits = .ok u) : exec (.ladleOptionalRefill w) s = .next u := by
  show execLadleOptionalRefill w s = _
  unfold execLadleOptionalRefill
  rw [if_pos (by simp [hl, hn]), hs]

/-! Wait limits and faults (R289, R292, R296). -/

theorem barhang_traps {s : State} {w e : Nat} {v : Wait} (hv : s.waitOf w e = some v) (hl : s.warpLive w = true)
    (hh : (s.warp w).held e = false) (hk : v.kind.limited = true) (hx : ¬ (v.kind = .weight ∧ opOf v.word ≠ 0x280))
    (hb : (s.warp w).barlim ≠ 0) (hc : (s.warp w).barlim.toNat ≤ s.clock - v.since) :
    exec (.barhang w e) s = .next ((s.waitIssue w e v).raise (TrapInfo.of (.barhang, 0))) := by
  show execBarhang w e s = _
  unfold execBarhang
  simp only [hv]
  refine if_pos ?_
  simp only [hl, hh, hk, hb, hc, Bool.not_false, Bool.and_self, Bool.and_true, Bool.true_and, ne_eq, not_false_eq_true,
    decide_true, Bool.not_eq_eq_eq_not, Bool.not_true, Bool.and_eq_false_imp, decide_eq_true_eq, decide_eq_false_iff_not]
  exact fun h1 h2 => hx ⟨h1, h2⟩

/-- The first entry that has one decides. -/
theorem firstSome_of_before {β : Type} {f : Nat → Option β} {e a n : Nat} {b : β} (ha : a ≤ e) (he : e < a + n)
    (hbefore : ∀ g, g < e → f g = none) (hat : f e = some b) : firstSome f (List.range' a n) = some b := by
  induction n generalizing a with
  | zero => omega
  | succ n ih =>
    rw [List.range'_succ]
    unfold firstSome
    obtain rfl | hlt := Nat.eq_or_lt_of_le ha
    · rw [hat]
    · rw [hbefore a hlt]
      exact ih hlt (by omega)

/-- No fault of the strand in an entry may be taken. -/
def Warp.noneTaken (x : Warp) (g : Nat) : Prop :=
  ∀ u, x.strand g = some u → u.takesFault = true → x.held g = false → x.faultFor g = none

/-- The fault of the strand in an entry that is due. -/
def State.dueAt (s : State) (w e : Nat) : Option (Nat × Option EngFault) :=
  match (s.warp w).strand e with
  | none => none
  | some t => match (if t.takesFault && !(s.warp w).held e then (s.warp w).faultFor e else none) with
    | some f => some (e, some f)
    | none => if s.deferredDue w e then some (e, none) else none

theorem dueFault_eq {s : State} {w : Nat} (h : (s.warp w).handlers = []) : s.dueFault w = firstSome (s.dueAt w) [0, 1, 2, 3] := by
  unfold State.dueFault
  simp only [h, ne_eq, not_true_eq_false, if_false]
  rfl

theorem dueAt_of_noneTaken {s : State} {w e : Nat} (hn : (s.warp w).noneTaken e) :
    s.dueAt w e = if s.deferredDue w e then some (e, none) else none := by
  unfold State.dueAt
  cases ht : (s.warp w).strand e with
  | none =>
    have hd : s.deferredDue w e = false := by unfold State.deferredDue; rw [ht]
    simp [hd]
  | some t =>
    have hf : (if t.takesFault && !(s.warp w).held e then (s.warp w).faultFor e else none) = none := by
      split
      · next h =>
        simp only [Bool.and_eq_true, Bool.not_eq_true'] at h
        exact hn t ht h.1 h.2
      · rfl
    simp only [hf]

section
variable {s : State} {w e : Nat} {t : Strand} (hh : (s.warp w).handlers = []) (he : e < 4) (ht : (s.warp w).strand e = some t)
  (hbefore : ∀ g, g < e → (s.warp w).noneTaken g ∧ s.deferredDue w g = false)
include hh he hbefore

theorem dueFault_of_dueAt {x : Nat × Option EngFault} (hat : s.dueAt w e = some x) : s.dueFault w = some x := by
  rw [dueFault_eq hh]
  refine firstSome_of_before (a := 0) (n := 4) (Nat.zero_le e) (by omega) (fun g hg => ?_) hat
  obtain ⟨hn, hd⟩ := hbefore g hg
  rw [dueAt_of_noneTaken hn, hd]
  rfl

include ht

/-- A deferred fault is delivered at the first chain that may not run ahead (R292). -/
theorem deferred_delivered {f : TrapInfo} (hs : (s.warp w).stopped = none) (hf : t.fault = some f) (hn : (s.warp w).noneTaken e)
    (hc : s.candidate w e = true) (hm : (s.setIssue w e t.pc t.pc 0 false).inMiss = false)
    (hr : (s.setIssue w e t.pc t.pc 0 false).runsAhead t = some false) : exec (.deferredFaultDelivery w e) s =
      .next { (s.setIssue w e t.pc t.pc 0 false).deliverFault f with issue := Issue.idle } := by
  have hdue : s.deferredDue w e = true := by
    unfold State.deferredDue
    rw [ht]
    dsimp only
    rw [hf, hc, hm, hr]
    rfl
  have hfirst : s.dueFault w = some (e, none) := dueFault_of_dueAt hh he hbefore (by rw [dueAt_of_noneTaken hn, if_pos hdue])
  show execDeferredFaultDelivery w e s = _
  unfold execDeferredFaultDelivery State.takeDeferred
  simp [ht, hf, hs, hfirst]

/-- An engine fault is taken by the lowest entry that may take one (R289). -/
theorem engine_delivered {f : EngFault} (hl : s.warpLive w = true) (htake : t.takesFault = true) (hheld : (s.warp w).held e = false)
    (hf : (s.warp w).faultFor e = some f) : exec (.engineFaultDelivery w) s = .next (s.takeFault w e f) := by
  have hat : s.dueAt w e = some (e, some f) := by
    unfold State.dueAt
    simp [ht, htake, hheld, hf]
  show execEngineFaultDelivery w s = _
  unfold execEngineFaultDelivery
  simp [hl, hh, dueFault_of_dueAt hh he hbefore hat]

end

/-! Answers to a stopped warp (R294, R295). -/

/-- An answer that ERET would take is one of four actions, with an aligned target where it jumps. -/
theorem trapAnswer_eq {s : State} {w : Nat} (act target : DWord) (hs : (s.warp w).stopped.isSome = true)
    (hr : (s.block (s.warp w).blk).resid = .resident) :
    s.trapAnswer w act target = if 4 ≤ act.toNat then .error (.illop, 0)
      else if act.toNat = 2 ∧ fieldOf target 0 2 ≠ 0 then .error eAlign
      else .ok (s.answerStopped w act.toNat (target.setWidth 57)) := by
  have hact : fieldOf act 2 62 ≠ 0 ↔ 4 ≤ act.toNat := by
    have := act.isLt
    unfold fieldOf field
    omega
  unfold State.trapAnswer
  cases hst : (s.warp w).stopped with
  | none => rw [hst] at hs; cases hs
  | some r => simp [hst, hr, hact]

theorem trapAction_answers {s : State} {w : Nat} {act target : DWord} (hs : (s.warp w).stopped.isSome = true)
    (hr : (s.block (s.warp w).blk).resid = .resident) (ha : act.toNat < 4) (h2 : act = 2 → fieldOf target 0 2 = 0) :
    exec (.trapAction w act target) s = .next (s.answerStopped w act.toNat (target.setWidth 57)) := by
  show execTrapAction w act target s = _
  unfold execTrapAction
  rw [trapAnswer_eq act target hs hr, if_neg (Nat.not_le.mpr ha), if_neg]
  rintro ⟨hact, ht⟩
  exact ht (h2 (BitVec.eq_of_toNat_eq hact))

theorem trapAction_refuses {s : State} {w : Nat} {act target : DWord} (hs : (s.warp w).stopped.isSome = true)
    (hr : (s.block (s.warp w).blk).resid = .resident) (ha : 4 ≤ act.toNat ∨ (act = 2 ∧ fieldOf target 0 2 ≠ 0)) :
    ∃ t, exec (.trapAction w act target) s = .next t ∧ t.warps = s.warps := by
  have herr : ∃ e, s.trapAnswer w act target = .error e := by
    rw [trapAnswer_eq act target hs hr]
    by_cases h4 : 4 ≤ act.toNat
    · exact ⟨_, if_pos h4⟩
    · obtain ⟨hact, ht⟩ := ha.resolve_left h4
      exact ⟨_, (if_neg h4).trans (if_pos ⟨by rw [hact]; rfl, ht⟩)⟩
  obtain ⟨e, he⟩ := herr
  show ∃ t, execTrapAction w act target s = .next t ∧ t.warps = s.warps
  unfold execTrapAction
  rw [he]
  exact ⟨_, rfl, (Laws.route_parts _ _ _).1⟩

/-! Drains of register runs, and starts of tasks (R49, R83). -/

theorem register_drains {s : State} {core q : Nat} {n : Nat × Nat} {r : List (Nat × Nat)}
    (hd : (s.quarter (core * 4 + q % 4)).draining = n :: r) : exec (.registerDrainComplete core q) s =
      .next (s.setQuarter (core * 4 + q % 4) { s.quarter (core * 4 + q % 4) with draining := r }) := by
  show execRegisterDrainComplete core q s = _
  unfold execRegisterDrainComplete
  simp only [hd]
  rfl

theorem task_starts {s : State} {w : Nat} {t : Task} (hp : (s.warp w).phase = .freeTask)
    (hr : (s.block (s.warp w).blk).resid = .resident)
    (ht : (s.core (s.coreOfWarp w)).deque.find? (fun t => t.launch = (s.block (s.warp w).blk).launch) = some t) :
    let core := s.coreOfWarp w
    let u := (s.setCore core { s.core core with deque := (s.core core).deque.erase t }).acquireL1 core
    exec (.taskStart w) s = .next (u.setWarp w
      ((s.warp w).startTask (u.recOf (s.warp w).blk) (u.launchOf (s.warp w).blk).cover (u.block (s.warp w).blk).idx t)) := by
  show execTaskStart w s = _
  unfold execTaskStart
  dsimp only
  rw [if_pos (by simp [hp, hr]), ht]

/-- A task-pool warp whose operations have completed is free, with its task's join counter decreased (R49). -/
theorem taskWarp_freed {s : State} {w : Nat} (hp : (s.warp w).phase = .exiting)
    (hr : (s.block (s.warp w).blk).resid = .resident) :
    let u := s.dropOps (fun o => o.warp = w && o.stopped)
    let v := u.releaseL1 (u.coreOfWarp w)
    u.opsOf w = [] → u.taskPool w = true → exec (.exitDrainComplete w) s = .next ((match (s.warp w).task with
      | some c => v.joinDone w c
      | none => v).freeTask w) := by
  dsimp only
  intro ho ht
  rw [exitDrain_drained hp hr ho, exitDrained_of_taskPool ht]
  rfl

/-- Settles O56: each event by what its meaning does where its conditions hold. -/
theorem warpEventsHappen : Obligations.WarpEventsHappen := by
  unfold Obligations.WarpEventsHappen
  refine ⟨fun s w e f ms t => missGroup_merges, ?_, ?_, fun s core q n r => register_drains, fun s w t => task_starts,
    fun s core l c t ys zs => task_steals, fun s w u => ladle_spills, fun s w u => ladle_refills, fun s w e v => barhang_traps, ?_,
    fun s w act target => trapAction_answers, fun s w act target => trapAction_refuses⟩
  · intro s w hp hr
    dsimp only
    intro ho ht
    rw [exitDrain_drained hp hr ho, exitDrained_of_not_taskPool ht]
  · intro s w hp hr
    dsimp only
    intro ho ht
    have hexec := taskWarp_freed hp hr ho ht
    refine ⟨fun htask => ?_, fun c n y htask hadd => ?_, fun c e p htask hadd => ?_, fun c q htask hadd => ?_⟩
    · rw [hexec, htask]
      rfl
    · rw [hexec, htask]
      dsimp only
      unfold State.joinDone
      simp only [hadd]
      rfl
    · rw [hexec, htask]
      dsimp only
      unfold State.joinDone
      simp only [hadd]
      rfl
    · rw [htask] at hexec
      obtain ⟨r, hasked, hposts⟩ := joinDone_asks (c := c) hadd
      exact ⟨r, hasked, _, hexec, hposts⟩
  · intro s w e t
    dsimp only
    intro hh he ht hbefore
    exact ⟨fun f hs hf hn hc hm hr => deferred_delivered hh he ht hbefore hs hf hn hc hm hr,
      fun f hl htake hheld hf => engine_delivered hh he ht hbefore hl htake hheld hf⟩

end Sys2Proof.Machine
end

section
/-! Spilled data in a warp's region (R77). -/

namespace Sys2Proof.Machine
open Sys2Proof

/-- Spilled data stands in the region where sptr is nonzero or a strand of the warp or of its handler code has spilled a record. -/
theorem Warp.hasSpilled_of_data {x : Warp} (h : x.sptr ≠ 0 ∨ (∃ e t, e < 4 ∧ x.strand e = some t ∧ t.spilledRecs ≠ 0) ∨
    ∃ h ∈ x.handlers, h.strand.spilledRecs ≠ 0) : x.hasSpilled = true := by
  unfold Warp.hasSpilled
  rw [Bool.or_eq_true, Bool.or_eq_true]
  obtain hsptr | ⟨e, t, he, ht, hrecs⟩ | ⟨g, hg, hrecs⟩ := h
  · exact .inl (.inl (decide_eq_true hsptr))
  · have hvalid : e ∈ x.entries := List.mem_filter.mpr ⟨List.mem_range.mpr he, by rw [ht]; rfl⟩
    exact .inr (List.any_eq_true.mpr ⟨e, hvalid, by rw [ht]; exact decide_eq_true hrecs⟩)
  · exact .inl (.inr (List.any_eq_true.mpr ⟨g, hg, decide_eq_true hrecs⟩))

/-- Settles O32: data that stands in the region is what CTLW of ctl.spb and ctl.spl looks for. -/
theorem spillRegionWritesNeedNoSpilledData : Obligations.SpillRegionWritesNeedNoSpilledData := by
  unfold Obligations.SpillRegionWritesNeedNoSpilledData
  intro a n hn s hready hdata
  have hreg : n = 6 ∨ n = 7 := hn.imp (fun h => BitVec.eq_of_toNat_eq h) (fun h => BitVec.eq_of_toNat_eq h)
  exact ctlw_traps_of_spilled hreg s hready (Warp.hasSpilled_of_data hdata)

end Sys2Proof.Machine
end

section
/-! Scalar compares, selects, moves, counts and immediates (R56, R389 to R391). -/

namespace Sys2Proof.Machine
open Sys2Proof

/-- A compare writes 1 where its predicate holds of s[a] and s[b], and 0 elsewhere (R390). -/
theorem compare_result {i : Instr} {d a b : BitVec 7} {info : OpInfo} {f : DWord → DWord → DWord} {p : DWord → DWord → Prop}
    [∀ x y, Decidable (p x y)] (hr : Runs i info (sArith d a b f)) (hd : i.fields.extractLsb' 14 7 = d)
    (hinfo : info.fmt ≠ .B ∧ (info.d = .sdst ∨ info.d = .sboth)) (hf : ∀ x y, f x y = if p x y then 1 else 0) :
    ScalarResult i d (fun s => if p (s.rdS a.toNat) (s.rdS b.toNat) then 1 else 0) :=
  Laws.scalar_of_body hr hd hinfo fun s => Laws.wrS_congr _ _ _ _ (hf (s.rdS a.toNat) (s.rdS b.toNat))

theorem runs_smov (d a : BitVec 7) : ∃ info, info.fmt ≠ .B ∧ (info.d = .sdst ∨ info.d = .sboth) ∧
    Runs (.smov d a) info (sUnary d a id) := ⟨_, by decide, .inl rfl, runs (fun _ => rfl) rfl rfl rfl⟩

theorem smov_result (d a : BitVec 7) : ScalarResult (.smov d a) d (fun s => s.rdS a.toNat) := by
  obtain ⟨_, hfmt, hdst, hr⟩ := runs_smov d a
  exact Laws.scalar_of_body hr (dField d a 0) ⟨hfmt, hdst⟩ fun _ => rfl

/-- The names from 64 on read the special registers, but in an instruction of an operand log (R56, R292). -/
theorem rdS_special {s : State} {n : Nat} (hn : 64 ≤ n) (hr : s.issue.replay = none) : s.rdS n = s.special n := by
  unfold State.rdS
  rw [hr, if_pos hn]
  rfl

theorem smov_special {d a : BitVec 7} {s : State} (h : ready (.smov d a) s = true) (hr : s.issue.replay = none)
    (ha : 64 ≤ a.toNat) : ∃ t, exec (.smov d a) s = .next t ∧ t.regS d.toNat = s.special a.toNat := by
  obtain ⟨t, hexec, hreg, -⟩ := smov_result d a s h
  exact ⟨t, hexec, hreg.trans (rdS_special ha hr)⟩

/-- The special registers by name (R19, R56). -/
theorem special_reads (s : State) :
    let w := s.cw
    let b := s.block w.blk
    let gang := recGang (s.recOf w.blk)
    ∀ x ∈ [(64, w.idx), (65, b.warps.length), (66, b.idx), (67, b.bx.toNat), (68, b.by_.toNat), (69, b.bz.toNat),
      (70, b.idx % gang + 8 * (b.idx / gang)), (71, b.core % 280), (72, dieOf b.core), (73, w.role), (74, w.lclk.toNat),
      (75, b.leafo.toNat), (76, b.leafp.toNat)], 64 ≤ x.1 ∧ s.special x.1 = BitVec.ofNat 64 x.2 := by
  simp only [List.forall_mem_cons, List.not_mem_nil, false_implies, implies_true, and_true]
  refine ⟨?_, ?_, ?_, ?_, ?_, ?_, ?_, ?_, ?_, ?_, ?_, ?_, ?_⟩ <;> exact ⟨by decide, rfl⟩

/-- Settles O10: the compares as one form with six predicates, each other instruction by what its meaning writes. -/
theorem scalarComparesSelectsAndCounts : Obligations.ScalarComparesSelectsAndCounts := by
  unfold Obligations.ScalarComparesSelectsAndCounts
  intro d a b
  refine ⟨?_, ?_, ?_, ?_, ?_, ?_, ?_, smov_result d a, ?_, ?_, ?_, fun imm => ⟨?_, ?_⟩⟩
  · exact compare_result (p := fun x y => x = y) (runs (fun _ => rfl) rfl rfl rfl) (dField d a b) ⟨by decide, .inl rfl⟩ Laws.bool64_eq
  · exact compare_result (p := fun x y => x ≠ y) (runs (fun _ => rfl) rfl rfl rfl) (dField d a b) ⟨by decide, .inl rfl⟩ Laws.bool64_ne
  · exact compare_result (p := fun x y => x.toInt < y.toInt) (runs (fun _ => rfl) rfl rfl rfl) (dField d a b) ⟨by decide, .inl rfl⟩ Laws.bool64_slt
  · exact compare_result (p := fun x y => x.toInt ≤ y.toInt) (runs (fun _ => rfl) rfl rfl rfl) (dField d a b) ⟨by decide, .inl rfl⟩ Laws.bool64_sle
  · exact compare_result (p := fun x y => x.toNat < y.toNat) (runs (fun _ => rfl) rfl rfl rfl) (dField d a b) ⟨by decide, .inl rfl⟩ Laws.bool64_ult
  · exact compare_result (p := fun x y => x.toNat ≤ y.toNat) (runs (fun _ => rfl) rfl rfl rfl) (dField d a b) ⟨by decide, .inl rfl⟩ Laws.bool64_ule
  · exact Laws.scalar_of_body (runs (fun _ => rfl) rfl rfl rfl) (dField d a b) ⟨by decide, .inr rfl⟩ fun _ => rfl
  · intro s hready hreplay
    dsimp only
    intro x hx ha
    obtain ⟨hname, hspecial⟩ := special_reads s x hx
    rw [← ha] at hname hspecial
    obtain ⟨t, hexec, hreg⟩ := smov_special hready hreplay hname
    exact ⟨t, hexec, hreg.trans hspecial⟩
  · exact Laws.scalar_of_body (runs (fun _ => rfl) rfl rfl rfl) (dField d a 0) ⟨by decide, .inl rfl⟩ fun s =>
      Laws.wrS_congr _ _ _ _ (congrArg (BitVec.ofNat 64) (Laws.popCount_eq 64 (s.rdS a.toNat).toNat))
  · exact Laws.scalar_of_body (runs (fun _ => rfl) rfl rfl rfl) (dField d a 0) ⟨by decide, .inl rfl⟩ fun s =>
      Laws.wrS_congr _ _ _ _ (congrArg (BitVec.ofNat 64) (Laws.leadZeros_eq 64 (s.rdS a.toNat)))
  · exact Laws.scalar_of_body (runs (fun _ => rfl) rfl rfl rfl) (dFieldJ d imm) ⟨by decide, .inl rfl⟩ fun _ => rfl
  · exact Laws.scalar_of_body (runs (fun _ => rfl) rfl rfl rfl) (dFieldJ d imm) ⟨by decide, .inl rfl⟩ fun _ => rfl

end Sys2Proof.Machine
end

section
/-! FRAME, WBASE, RGROW and RSHRINK (R62, R66, R70). -/

namespace Sys2Proof.Machine
open Sys2Proof

/-! What a window instruction does before its own effect (R62, R81). -/

theorem windowBody_runs {b : Body} {s : State} (hin : s.inHandler = false) (hpend : s.cw.othersPending s.issue.entry = false) :
    windowBody b s = b s := by
  unfold windowBody
  simp [hin, hpend]

theorem windowBody_waits {b : Body} {s : State} (hin : s.inHandler = false) (hpend : s.cw.othersPending s.issue.entry = true) :
    windowBody b s = .error (.wait .flights 0 s) := by
  unfold windowBody
  simp [hin, hpend, waitE]

theorem windowBody_traps {b : Body} {s : State} (hin : s.inHandler = true) :
    windowBody b s = .error (.trap (TrapInfo.of (.prot, 11)) s) := by
  unfold windowBody
  simp [hin, trapE]

theorem window_ok {i : Instr} {info : OpInfo} {b : Body} (hr : Runs i info (windowBody b)) {s t : State} (h : ready i s = true)
    (hin : s.inHandler = false) (hpend : s.cw.othersPending s.issue.entry = false) (hb : b (s.atInstr i) = .ok t) :
    exec i s = .next (s.retired i t) :=
  hr.ok h ((windowBody_runs (s := s.atInstr i) hin hpend).trans hb)

/-- The operands of an instruction that accesses no memory are not kept where it waits. -/
theorem keep_of_not_mem {s : State} {info : OpInfo} (hm : info.mem = false) (w : Word) : s.keep false info w = s := by
  unfold State.keep
  simp [hm]

theorem window_waits {i : Instr} {info : OpInfo} {b : Body} (hr : Runs i info (windowBody b)) (hm : info.mem = false) {s : State}
    (h : ready i s = true) (hc : s.atChain) (hin : s.inHandler = false) (hpend : s.cw.othersPending s.issue.entry = true) :
    exec i s = .next ((s.atInstr i).setWait .flights 0 []) := by
  rw [Laws.stops_wait hr h hc (windowBody_waits (s := s.atInstr i) hin hpend), keep_of_not_mem hm]

theorem window_traps {i : Instr} {info : OpInfo} {b : Body} (hr : Runs i info (windowBody b)) :
    TrapsWhen i (fun s => s.inHandler = true) (.prot, 11) :=
  Laws.traps_when hr (by decide) fun _ _ hin => windowBody_traps hin

theorem runs_frame (imm : BitVec 14) : ∃ info, info.fmt = .J ∧ Runs (.frame imm) info (frameBody imm) :=
  ⟨_, rfl, runs (fun _ => rfl) rfl rfl rfl⟩

theorem runs_wbase (a : BitVec 7) : ∃ info, Runs (.wbase a) info (wbaseBody a) := ⟨_, runs (fun _ => rfl) rfl rfl rfl⟩

theorem runs_rshrink (d : BitVec 7) : ∃ info, Runs (.rshrink d) info (rshrinkBody d) := ⟨_, runs (fun _ => rfl) rfl rfl rfl⟩

/-- The window instructions, none of which accesses memory by itself. -/
theorem runs_window (m : BitVec 21) (imm : BitVec 14) (a : BitVec 7) :
    ∀ i ∈ [Instr.call m, .calli a, .frame imm, .wbase a, .rgrow a, .rshrink a],
      ∃ info b, info.mem = false ∧ Runs i info (windowBody b) := by
  simp only [List.forall_mem_cons, List.not_mem_nil, false_implies, implies_true, and_true]
  exact ⟨⟨_, _, rfl, runs (fun _ => rfl) rfl rfl rfl⟩, ⟨_, _, rfl, runs (fun _ => rfl) rfl rfl rfl⟩,
    ⟨_, _, rfl, runs (fun _ => rfl) rfl rfl rfl⟩, ⟨_, _, rfl, runs (fun _ => rfl) rfl rfl rfl⟩,
    ⟨_, _, rfl, runs (fun _ => rfl) rfl rfl rfl⟩, ⟨_, _, rfl, runs (fun _ => rfl) rfl rfl rfl⟩⟩

/-! FRAME (R66). -/

/-- The sizes of a FRAME that decodes: outgoing registers lie in the frame, and a frame has at most 48 scalar names. -/
theorem frame_sizes {imm : BitVec 14} {s : State} (h : ready (.frame imm) s = true) :
    imm.toNat / 16 % 16 ≤ imm.toNat % 16 ∧ imm.toNat / 256 % 8 ≤ 6 ∧ imm.toNat / 2048 % 8 ≤ imm.toNat / 256 % 8 := by
  obtain ⟨info, hfmt, hr⟩ := runs_frame imm
  have hfields := ready_fields hr.info h
  unfold fieldsOk at hfields
  rw [hfmt] at hfields
  have himm : (0#7 ++ imm).extractLsb' 0 14 = imm := partJ_imm 0 imm
  have hok : imm14Ok 0x013 ((0#7 ++ imm).extractLsb' 0 14) = true := (Bool.and_eq_true_iff.mp hfields).2
  rw [himm] at hok
  simpa [imm14Ok, and_assoc] using hok

/-- The sizes that a FRAME declares. -/
def Warp.framed (x : Warp) (imm : BitVec 14) : Warp :=
  { x with vf := imm.toNat % 16 * 8, vo := imm.toNat / 16 % 16 * 8, sf := imm.toNat / 256 % 8 * 8, so := imm.toNat / 2048 % 8 * 8 }

theorem frame_sets {imm : BitVec 14} {s s1 : State} (h : ready (.frame imm) s = true) (hin : s.inHandler = false)
    (hpend : s.cw.othersPending s.issue.entry = false)
    (hspill : (s.atInstr (.frame imm)).spillFor s.issue.warp (imm.toNat % 16 * 8) (imm.toNat / 256 % 8 * 8) 9 = (s1, none)) :
    exec (.frame imm) s = .next (s.retired (.frame imm) (s1.putW (s1.cw.framed imm))) := by
  obtain ⟨info, -, hr⟩ := runs_frame imm
  obtain ⟨hv, hs, ho⟩ := frame_sizes h
  refine window_ok hr h hin hpend ((if_neg ?_).trans ?_)
  · simp only [Bool.or_eq_true, decide_eq_true_eq]
    simp only [field, Nat.pow_zero, Nat.div_one, Nat.reducePow]
    omega
  · simp only [field, Nat.pow_zero, Nat.div_one, Nat.reducePow]
    rw [show (s.atInstr (.frame imm)).issue.warp = s.issue.warp from rfl, hspill]
    rfl

/-! WBASE (R70). -/

theorem wbase_starts {a : BitVec 7} {s : State} (h : ready (.wbase a) s = true) (hin : s.inHandler = false)
    (hpend : s.cw.othersPending s.issue.entry = false) :
    exec (.wbase a) s = .next (s.retired (.wbase a) ((s.atInstr (.wbase a)).putW { s.cw with
      strands := s.cw.strands.map (fun t => t.map (fun u => if u.st = .parked then { u with parkDepth := 0 } else u)),
      callers := [], spilled := 0, sptr := 0, vb := (s.rdS a.toNat).toNat % 256 % s.cw.ring,
      sb := (s.rdS a.toNat).toNat / 256 % 256 % 64 })) := by
  obtain ⟨info, hr⟩ := runs_wbase a
  refine window_ok hr h hin hpend ?_
  simp only [fieldOf, field, Nat.pow_zero, Nat.div_one]
  rfl

/-! RGROW and RSHRINK (R62). -/

theorem rgrow_extended {d : BitVec 7} {s : State} (h : ready (.rgrow d) s = true) (hin : s.inHandler = false)
    (hpend : s.cw.othersPending s.issue.entry = false) (hext : s.cw.ext = true) :
    exec (.rgrow d) s = .next (s.retired (.rgrow d) ((s.atInstr (.rgrow d)).wrS d.toNat (BitVec.ofNat 64 s.cw.allot))) := by
  obtain ⟨info, hr⟩ := runs_rgrow d
  exact window_ok hr h hin hpend (if_pos hext)

/-- Registers of the pool extend the allotment once every caller is spilled. -/
theorem rgrow_takes {d : BitVec 7} {s s1 : State} (h : ready (.rgrow d) s = true) (hin : s.inHandler = false)
    (hpend : s.cw.othersPending s.issue.entry = false) (hext : s.cw.ext = false) (hwait : s.cs.wait = none)
    (hpool : 64 ≤ s.pool (s.quarterOf s.issue.warp)) (hfirst : s.firstToGrow s.issue.warp s.seq = true)
    (hspill : (s.atInstr (.rgrow d)).spillAll s.issue.warp 9 = (s1, none)) :
    let s2 := s1.putW (rebase s1.cw { s1.cw with ext := true } s1.cw.effF)
    exec (.rgrow d) s = .next (s.retired (.rgrow d) (s2.wrS d.toNat (BitVec.ofNat 64 s2.cw.allot))) := by
  obtain ⟨info, hr⟩ := runs_rgrow d
  refine window_ok hr h hin hpend ((if_neg (Bool.eq_false_iff.mp hext)).trans ?_)
  have hw : (s.atInstr (.rgrow d)).cs.wait = none := hwait
  have hroom : ¬ ((decide (s.pool (s.quarterOf s.issue.warp) < 64) || !s.firstToGrow s.issue.warp s.seq) = true) := by
    simp [hpool, hfirst]
  rw [hw]
  refine (if_neg hroom).trans ?_
  rw [show (s.atInstr (.rgrow d)).issue.warp = s.issue.warp from rfl, hspill]

theorem rshrink_base {d : BitVec 7} {s : State} (h : ready (.rshrink d) s = true) (hin : s.inHandler = false)
    (hpend : s.cw.othersPending s.issue.entry = false) (hext : s.cw.ext = false) :
    exec (.rshrink d) s = .next (s.retired (.rshrink d) ((s.atInstr (.rshrink d)).wrS d.toNat (BitVec.ofNat 64 s.cw.allot))) := by
  obtain ⟨info, hr⟩ := runs_rshrink d
  exact window_ok hr h hin hpend (if_pos (by rw [show (s.atInstr (.rshrink d)).cw = s.cw from rfl, hext]; rfl))

theorem rshrink_shrinks {d : BitVec 7} {s s1 : State} (h : ready (.rshrink d) s = true) (hin : s.inHandler = false)
    (hpend : s.cw.othersPending s.issue.entry = false) (hext : s.cw.ext = true)
    (hspill : (s.atInstr (.rshrink d)).spillAll s.issue.warp 9 = (s1, none)) :
    let x := s1.cw
    let y := { x with ext := false }
    let z := { y with vf := min x.vf y.ring, vo := min x.vo (min x.vf y.ring) }
    exec (.rshrink d) s = .next (s.retired (.rshrink d)
      ((s1.putW (rebase x z z.effF)).wrS d.toNat (BitVec.ofNat 64 (s1.putW (rebase x z z.effF)).cw.allot))) := by
  obtain ⟨info, hr⟩ := runs_rshrink d
  refine window_ok hr h hin hpend ((if_neg ?_).trans ?_)
  · rw [show (s.atInstr (.rshrink d)).cw = s.cw from rfl, hext]
    exact Bool.false_ne_true
  · rw [show (s.atInstr (.rshrink d)).issue.warp = s.issue.warp from rfl, hspill]

/-- Settles O30: each instruction's effect past the two checks that the window instructions share, and those checks. -/
theorem windowInstructionsSetTheFrame : Obligations.WindowInstructionsSetTheFrame := by
  unfold Obligations.WindowInstructionsSetTheFrame
  refine ⟨fun imm s s1 h hin hpend => frame_sets h hin hpend, fun a s h hin hpend => wbase_starts h hin hpend,
    fun d s h hin hpend => ⟨rgrow_extended h hin hpend, fun s1 hext hwait hpool hfirst hspill => ?_⟩,
    fun d s h hin hpend => ⟨rshrink_base h hin hpend, fun s1 hext hspill => ?_⟩, fun m imm a i hi s h hc hin hpend => ?_,
    fun imm a => ?_⟩
  · exact rgrow_takes h hin hpend hext hwait hpool hfirst hspill
  · exact rshrink_shrinks h hin hpend hext hspill
  · obtain ⟨info, b, hm, hr⟩ := runs_window m imm a i hi
    exact window_waits hr hm h hc hin hpend
  · obtain ⟨_, -, hframe⟩ := runs_frame imm
    obtain ⟨_, hwbase⟩ := runs_wbase a
    obtain ⟨_, hrgrow⟩ := runs_rgrow a
    obtain ⟨_, hrshrink⟩ := runs_rshrink a
    exact ⟨window_traps hframe, window_traps hwbase, window_traps hrgrow, window_traps hrshrink⟩

end Sys2Proof.Machine
end

section
/-! What a kill makes of the launches of the machine (R281, R290, R304). -/

namespace Sys2Proof.Machine
open Sys2Proof

/-- The phase of a launch of the list. -/
def State.phaseOf (s : State) (l : Nat) : Option LPhase := s.launches[l]?.map Launch.phase

theorem phaseOf_of_launches {s t : State} (h : t.launches = s.launches) (l : Nat) : t.phaseOf l = s.phaseOf l := by
  unfold State.phaseOf
  rw [h]

theorem phaseOf_eq {s : State} {l : Nat} {x : Launch} (h : s.launches[l]? = some x) : s.phaseOf l = some x.phase := by
  unfold State.phaseOf
  rw [h]
  rfl

theorem setLaunch_phaseOf {s : State} {k : Nat} {x : Launch} (hx : s.launches[k]? = some x) (y : Launch) (l : Nat) :
    (s.setLaunch k y).phaseOf l = if l = k then some y.phase else s.phaseOf l := by
  obtain ⟨hk, -⟩ := List.getElem?_eq_some_iff.mp hx
  unfold State.phaseOf State.setLaunch
  rw [List.getElem?_set]
  by_cases h : k = l
  · subst h
    simp [hk]
  · simp [h, Ne.symm h]

/-! What stores, messages and ends of blocks leave of the launches. -/

theorem touch_launches (s : State) (w : Who) (va : Nat) (t : Trans) (b : Bool) : (s.touch w va t b).launches = s.launches := by
  cases hf : w.fab with
  | false => exact (Laws.aside_fields (touch_aside s w va t b hf)).2.2
  | true =>
    unfold State.touch
    cases t.entry with
    | none => rfl
    | some k =>
      simp only [hf, if_true]
      rw [State.setDie_launches]
      split
      · rfl
      · exact (Laws.aside_fields (physWriteKey_aside ..)).2.2

theorem homeWrite_launches (s : State) (w : Who) (va : Nat) (bs : List Byte) (t : Trans) :
    (s.homeWrite w va bs t).launches = s.launches := by
  cases hf : w.fab with
  | false => exact (Laws.aside_fields (homeWrite_aside s w va bs t hf)).2.2
  | true =>
    unfold State.homeWrite
    simp only [hf, if_true]
    exact (Laws.aside_fields (physWriteKey_aside ..)).2.2.trans (touch_launches s w va t true)

theorem putRun_launches (s : State) (w : Who) (r : List (Nat × List Byte × Trans)) : (s.putRun w r).launches = s.launches := by
  induction r generalizing s with
  | nil => rfl
  | cons p r ih => exact (ih _).trans (homeWrite_launches ..)

theorem foldl_launches {α : Type} {f : State → α → State} (hf : ∀ s a, (f s a).launches = s.launches) (l : List α) (s : State) :
    (l.foldl f s).launches = s.launches := by
  induction l generalizing s with
  | nil => rfl
  | cons a l ih => exact (ih _).trans (hf s a)

theorem markAsks_launches (s : State) (w : Who) (q : List HostAsk) : (s.markAsks w q).launches = s.launches := by
  refine foldl_launches (fun u a => ?_) q s
  split
  · rfl
  · split
    · exact touch_launches ..
    · rfl

theorem sendAsks_launches (s : State) (d c : Nat) (q : List HostAsk) : (s.sendAsks d c q).2.launches = s.launches :=
  (sendAsks_awaits d c q s).2.launches

theorem dropBlock_launches (s : State) (b : Nat) : (s.dropBlock b).launches = s.launches :=
  foldl_launches (f := State.dropWarp) (fun _ _ => rfl) _ s

theorem killBlock_launches (s : State) (b : Nat) : (s.killBlock b).launches = s.launches := by
  have hhalted : ∀ u : State, ((s.block b).warps.foldl (fun s w => s.setWarp w (s.warp w).halted) u).launches = u.launches :=
    foldl_launches (f := fun s w => s.setWarp w (s.warp w).halted) (fun _ _ => rfl) _
  unfold State.killBlock
  dsimp only
  split
  · exact hhalted _
  · exact (dropBlock_launches _ b).trans (hhalted _)

theorem launchWrite_phaseOf (s : State) (k a v l : Nat) : (s.launchWrite k a v).phaseOf l = s.phaseOf l := by
  unfold State.launchWrite
  split
  · rfl
  · next x hx =>
    dsimp only
    split
    · rfl
    · next ts hts =>
      have hkept : ∀ (u : State) (w : Who) (q : List HostAsk), u.launches = s.launches →
          ((u.markAsks w q).sendAsks x.die x.ctx q).2.launches = s.launches := fun u w q hu =>
        (sendAsks_launches ..).trans ((markAsks_launches ..).trans hu)
      rw [setLaunch_phaseOf (x := x) ((congrArg (·[k]?) (hkept _ _ _ (putRun_launches ..))).trans hx),
        phaseOf_of_launches (hkept _ _ _ (putRun_launches ..))]
      split
      · next hl => rw [hl, phaseOf_eq hx]
      · rfl

/-- The status word of a launch leaves every phase. -/
theorem putStatus_phaseOf (s : State) (k c l : Nat) : (s.putStatus k c).phaseOf l = s.phaseOf l := by
  unfold State.putStatus
  split
  · rfl
  · next x hx =>
    have hset : (s.setLaunch k { x with status := c }).phaseOf l = s.phaseOf l := by
      rw [setLaunch_phaseOf hx]
      split
      · next hl => rw [hl, phaseOf_eq hx]
      · rfl
    dsimp only
    split
    · exact hset
    · exact (launchWrite_phaseOf ..).trans hset

/-- What a kill makes of the phase of its launch: one that is queued or running is killed (R304). -/
def LPhase.afterKill (p : LPhase) : LPhase := if p = .queued ∨ p = .running then .killed else p

theorem killLaunch_phaseOf (s : State) (k l : Nat) :
    (s.killLaunch k).phaseOf l = if l = k then (s.phaseOf l).map LPhase.afterKill else s.phaseOf l := by
  have hsame : (∀ p, s.phaseOf k = some p → p.afterKill = p) →
      s.phaseOf l = if l = k then (s.phaseOf l).map LPhase.afterKill else s.phaseOf l := by
    intro hp
    split
    · next hl =>
      rw [hl]
      cases h : s.phaseOf k with
      | none => rfl
      | some p => rw [Option.map_some, hp p h]
    · rfl
  unfold State.killLaunch
  split
  · next hx =>
    refine hsame fun p hp => ?_
    unfold State.phaseOf at hp
    rw [hx] at hp
    cases hp
  · next x hx =>
    split
    · next hended =>
      refine hsame fun p hp => ?_
      rw [phaseOf_eq hx] at hp
      cases hp
      simp only [Bool.and_eq_true, decide_eq_true_eq] at hended
      exact if_neg (not_or.mpr hended)
    · next hlive =>
      have hu : (((s.blocksOf k).foldl State.killBlock s).dropLaunch k).launches = s.launches :=
        foldl_launches (f := State.killBlock) killBlock_launches _ s
      have hkill : x.phase.afterKill = .killed := by
        refine if_pos ?_
        simp only [Bool.and_eq_true, decide_eq_true_eq] at hlive
        by_contra h
        exact hlive (not_or.mp h)
      have hend : ∀ u : State, (u.killEnd k).phaseOf l = u.phaseOf l := fun u => by
        unfold State.killEnd
        split
        · exact putStatus_phaseOf ..
        · rfl
      dsimp only
      rw [hend, setLaunch_phaseOf (x := x) (by rw [hu]; exact hx), phaseOf_of_launches hu]
      split
      · next hl => rw [hl, phaseOf_eq hx, Option.map_some, hkill]
      · rfl

/-- A launch that is queued or running is killed by kills of a list of launches that holds it. -/
theorem killLaunches_kill {l : Nat} {ls : List Nat} {s : State}
    (h : s.phaseOf l = some .killed ∨ (l ∈ ls ∧ (s.phaseOf l = some .queued ∨ s.phaseOf l = some .running))) :
    (ls.foldl State.killLaunch s).phaseOf l = some .killed := by
  induction ls generalizing s with
  | nil => exact h.resolve_right fun h => absurd h.1 List.not_mem_nil
  | cons k ls ih =>
    refine ih ?_
    rw [killLaunch_phaseOf]
    obtain hkilled | ⟨hmem, hlive⟩ := h
    · rw [hkilled]
      exact .inl (ite_self _)
    · by_cases hl : l = k
      · rw [if_pos hl]
        exact .inl (by rcases hlive with h | h <;> rw [h] <;> rfl)
      · rw [if_neg hl]
        exact .inr ⟨(List.mem_cons.mp hmem).resolve_left hl, hlive⟩

theorem send_reports (s : State) (d : Nat) (p : BitVec 128) (m : Msg) : (s.send d p m).2.sys.reports = s.sys.reports := by
  unfold State.send State.route
  dsimp only
  split <;> rfl

/-- A machine check is reported (R290). -/
theorem mchk_reports (s : State) (d c : Nat) : Report.mchk d c ∈ (s.mchk d c).sys.reports := by
  unfold State.mchk
  dsimp only
  rw [send_reports]
  exact List.mem_append_right _ (List.mem_singleton.mpr rfl)

/-- A machine check of a context kills each of its launches on the die that is queued or running (R290). -/
theorem mchk_kills {s : State} {d c l : Nat} (h : s.liveLaunch d c l) : (s.mchk d c).phaseOf l = some .killed := by
  obtain ⟨x, hx, hdie, hctx, hlive⟩ := h
  obtain ⟨hlen, -⟩ := List.getElem?_eq_some_iff.mp hx
  unfold State.mchk
  dsimp only
  rw [phaseOf_of_launches (SentAside.send ..).launches]
  refine killLaunches_kill (.inr ⟨?_, ?_⟩)
  · exact List.mem_filter.mpr ⟨List.mem_range.mpr hlen, by simp [hx, hdie, hctx]⟩
  · rw [phaseOf_eq hx]
    exact hlive.imp (congrArg some) (congrArg some)

end Sys2Proof.Machine
end

section
/-! A reserve's registers as a block, and its way to the frame area and back (R82). -/

namespace Sys2Proof.Machine
open Sys2Proof

/-! The block's bytes. -/

/-- Chunk i of m chunks of n elements each. -/
theorem chunk_of_flatMap {α : Type} {n : Nat} {f : Nat → List α} (hf : ∀ i, (f i).length = n) (m : Nat) (tail : List α) {i : Nat}
    (hi : i < m) : (((List.range m).flatMap f ++ tail).drop (n * i)).take n = f i := by
  induction m generalizing tail with
  | zero => omega
  | succ m ih =>
    have hlen : ((List.range m).flatMap f).length = n * m := by
      rw [List.length_flatMap, List.map_congr_left (fun i _ => hf i)]
      simp [Nat.mul_comm]
    rw [List.range_succ, List.flatMap_append, List.flatMap_cons, List.flatMap_nil, List.append_nil, List.append_assoc]
    by_cases h : i < m
    · exact ih _ h
    · rw [show i = m by omega, ← hlen, List.drop_left, List.take_left' (hf m)]

/-- A sparse list written at each index below m. -/
theorem spGet_writes {α : Type} [DecidableEq α] (d : α) (g : Nat → α) (m : Nat) (l : List (Nat × α)) (n : Nat) :
    spGet d ((List.range m).foldl (fun r i => spSet d r i (g i)) l) n = if n < m then g n else spGet d l n := by
  induction m with
  | zero => rfl
  | succ m ih =>
    rw [List.range_succ, List.foldl_append, List.foldl_cons, List.foldl_nil, spGet_spSet, ih]
    by_cases h : n = m
    · rw [if_pos h, if_pos (by omega), h]
    · rw [if_neg h]
      exact if_congr (by omega) rfl rfl

theorem ofNat_ofBytes_toBytes {n : Nat} (x : BitVec (8 * n)) : BitVec.ofNat (8 * n) (ofBytes (toBytes n x.toNat)) = x := by
  rw [ofBytes_toBytes, Nat.mod_eq_of_lt x.isLt, BitVec.ofNat_toNat, BitVec.setWidth_eq]

theorem reserve_roundtrip (q : Quarter) {n : Nat} (hn : n < 16) :
    spGet 0 (q.putReserve q.reserveBytes).rs n = spGet 0 q.rs n ∧ spGet 0 (q.putReserve q.reserveBytes).rv n = spGet 0 q.rv n := by
  let vs := (List.range 16).flatMap (fun i => toBytes 128 (spGet 0 q.rv i).toNat)
  have hvs : vs.length = 2048 := by
    rw [List.length_flatMap, List.map_congr_left (fun i _ => toBytes_length ..)]
    rfl
  have hs := chunk_of_flatMap (fun i => toBytes_length 8 (spGet 0 q.rs i).toNat) 16 [] hn
  have hv := chunk_of_flatMap (fun i => toBytes_length 128 (spGet 0 q.rv i).toNat) 16
    ((List.range 16).flatMap (fun i => toBytes 8 (spGet 0 q.rs i).toNat)) hn
  unfold Quarter.putReserve Quarter.reserveBytes
  dsimp only
  rw [spGet_writes, spGet_writes, if_pos hn, if_pos hn, hv]
  refine ⟨?_, ofNat_ofBytes_toBytes (n := 128) _⟩
  rw [← List.drop_drop, List.drop_left' hvs, ← List.append_nil (List.flatMap _ _), hs]
  exact ofNat_ofBytes_toBytes (n := 8) _

/-! What sending and storing the block leaves as it was. -/

theorem putRun_aside (s : State) (w : Who) (hf : w.fab = false) (r : List (Nat × List Byte × Trans)) :
    (s.putRun w r).aside = s.aside := by
  induction r generalizing s with
  | nil => rfl
  | cons p r ih => exact (ih _).trans (homeWrite_aside s w _ _ _ hf)

theorem send_quarters (s : State) (d : Nat) (p : BitVec 128) (m : Msg) : (s.send d p m).2.quarters = s.quarters := by
  unfold State.send State.route
  dsimp only
  split <;> rfl

theorem sendAsk_quarters (s : State) (d c : Nat) (a : HostAsk) : (s.sendAsk d c a).2.quarters = s.quarters := by
  unfold State.sendAsk
  dsimp only
  split <;> exact send_quarters ..

theorem sendAsks_quarters (d c : Nat) (q : List HostAsk) (s : State) : (s.sendAsks d c q).2.quarters = s.quarters := by
  induction q generalizing s with
  | nil => rfl
  | cons a q ih => exact (ih _).trans (sendAsk_quarters s d c a)

theorem aside_quarters {s t : State} (h : t.aside = s.aside) : t.quarters = s.quarters :=
  congrArg (fun x => x.2.2.2.2.2.1) h

/-- A reserve's block on its way to the frame area of warp o: what host memory takes is sent, and the rest is stored. -/
def State.spillSent (s : State) (o : Nat) (run : List (Nat × List Byte × Trans)) : State :=
  let d := dieOf (s.coreOfWarp o)
  let sent := (s.markAsks (s.whoOfWarp o) (runAsks run)).sendAsks d (s.ctxOfWarp o) (runAsks run)
  (sent.2.post d true o sent.1).putHome (s.whoOfWarp o) run

theorem spillSent_keeps (s : State) (o : Nat) (run : List (Nat × List Byte × Trans)) :
    (s.spillSent o run).warps = s.warps ∧ (s.spillSent o run).quarters = s.quarters := by
  have hmark := markAsks_aside s (s.whoOfWarp o) rfl (runAsks run)
  have hput := fun u : State => putRun_aside u (s.whoOfWarp o) rfl (run.filter (fun t => leafKind t.2.2.leaf ≠ 2))
  constructor
  · exact (SentAside.aside (hput _)).warps.trans ((sendAsks_awaits _ _ _ _).2.warps.trans (SentAside.aside hmark).warps)
  · exact (aside_quarters (hput _)).trans ((sendAsks_quarters _ _ _ _).trans (aside_quarters hmark))

/-- Where host memory takes none of the block, it is only stored. -/
theorem spillSent_home {s : State} {o : Nat} {run : List (Nat × List Byte × Trans)} (h : runAsks run = []) :
    (s.spillSent o run).mem = (s.putHome (s.whoOfWarp o) run).mem := by
  have hpost : ∀ d, s.post d true o [] = s := by
    intro d
    unfold State.post
    dsimp only
    rw [List.map_nil, List.append_nil]
    show { s with dies := s.dies.set d (s.die d) } = s
    have hset : s.dies.set d (s.die d) = s.dies := by
      by_cases hd : d < s.dies.length
      · unfold State.die nth
        rw [List.getElem?_eq_getElem hd]
        exact List.set_getElem_self hd
      · exact List.set_eq_of_length_le (by omega)
    rw [hset]
  unfold State.spillSent
  rw [h]
  show ((s.post _ true o []).putHome _ run).mem = _
  rw [hpost]

/-- The handlers of a warp whose innermost one has given up the reserve. -/
def spilledHandlers (n : Nat) : List Handler → List Handler
  | h :: r => { h with inReserve := false, spillNo := n } :: r
  | [] => []

/-- Once its block has gone to the frame area of warp o, the reserve of a quarter is free. -/
def State.reserveLeft (s : State) (q o : Nat) : State :=
  let x := s.warp o
  let u : State := { (s.setWarp o { x with handlers := spilledHandlers s.seq x.handlers, sptr := x.sptr + 2208 }) with
    seq := s.seq + 1 }
  u.setQuarter q { s.quarter q with owner := none, rv := [], rs := [], spilledOwners := o :: (s.quarter q).spilledOwners }

theorem reserveLeft_quarter (s : State) (q o : Nat) :
    ((s.reserveLeft q o).quarter q).spilledOwners = o :: (s.quarter q).spilledOwners := by
  unfold State.reserveLeft
  rw [State.quarter_setQuarter, if_pos rfl]

theorem reserveLeft_warp (s : State) (q o v : Nat) : (s.reserveLeft q o).warp v = if v = o ∧ o < s.warps.length then
    { s.warp o with handlers := spilledHandlers s.seq (s.warp o).handlers, sptr := (s.warp o).sptr + 2208 } else s.warp v :=
  s.warp_setWarp o v _

theorem reserveLeft_sptr {s : State} (q : Nat) {o : Nat} (ho : o < s.warps.length) :
    ((s.reserveLeft q o).warp o).sptr = (s.warp o).sptr + 2208 := by
  rw [reserveLeft_warp, if_pos ⟨rfl, ho⟩]

theorem reserveLeft_running (s : State) (q o v : Nat) :
    ((s.reserveLeft q o).warp v).phase = (s.warp v).phase ∧ ((s.reserveLeft q o).warp v).trapv = (s.warp v).trapv := by
  rw [reserveLeft_warp]
  split
  · next h => rw [h.1]; exact ⟨rfl, rfl⟩
  · exact ⟨rfl, rfl⟩

/-! The spill, case by case. -/

section
variable {s : State} {q o : Nat} (ho : (s.quarter q).owner = some o)
include ho

theorem spillReserve_full (h : (s.warp o).flen.toNat < (s.warp o).sptr.toNat + 2208) : s.spillReserve q = none := by
  unfold State.spillReserve
  rw [ho]
  exact if_pos h

theorem spillReserve_unstored {a : LadleErr}
    (h : s.ladleRun o [] (s.warp o).sptr.toNat ((s.quarter q).reserveBytes ++ toBytes 32 reserveHeader) = .error a) :
    s.spillReserve q = none := by
  unfold State.spillReserve
  rw [ho]
  refine ite_eq_left_iff.mpr fun _ => ?_
  rw [h]

theorem spillReserve_stored {run : List (Nat × List Byte × Trans)} (hfit : (s.warp o).sptr.toNat + 2208 ≤ (s.warp o).flen.toNat)
    (h : s.ladleRun o [] (s.warp o).sptr.toNat ((s.quarter q).reserveBytes ++ toBytes 32 reserveHeader) = .ok run) :
    s.spillReserve q = some ((s.spillSent o run).reserveLeft q o) := by
  unfold State.spillReserve
  rw [ho]
  refine (if_neg (Nat.not_lt.mpr hfit)).trans ?_
  rw [h]
  rfl

theorem spillReserve_some {s1 : State} (h : s.spillReserve q = some s1) : ∃ run, s1 = (s.spillSent o run).reserveLeft q o := by
  by_cases hfull : (s.warp o).flen.toNat < (s.warp o).sptr.toNat + 2208
  · rw [spillReserve_full ho hfull] at h
    cases h
  · cases hrun : s.ladleRun o [] (s.warp o).sptr.toNat ((s.quarter q).reserveBytes ++ toBytes 32 reserveHeader) with
    | error a =>
      rw [spillReserve_unstored ho hrun] at h
      cases h
    | ok run =>
      rw [spillReserve_stored ho (Nat.not_lt.mp hfull) hrun] at h
      exact ⟨run, (Option.some.inj h).symm⟩

/-- What a reserve that was spilled leaves: the owner's handler has its block in the frame area, and every warp runs on. -/
theorem spillReserve_left {s1 : State} (h : s.spillReserve q = some s1) (hlen : o < s.warps.length) :
    (s1.quarter q).spilledOwners = o :: (s.quarter q).spilledOwners ∧ (s1.warp o).sptr = (s.warp o).sptr + 2208 ∧
      s1.warps.length = s.warps.length ∧ ∀ v, (s1.warp v).phase = (s.warp v).phase ∧ (s1.warp v).trapv = (s.warp v).trapv := by
  obtain ⟨run, rfl⟩ := spillReserve_some ho h
  obtain ⟨hwarps, hquarters⟩ := spillSent_keeps s o run
  have hquarter : (s.spillSent o run).quarter q = s.quarter q := by
    unfold State.quarter
    rw [hquarters]
  refine ⟨?_, ?_, ?_, fun v => ?_⟩
  · rw [reserveLeft_quarter, hquarter]
  · rw [reserveLeft_sptr q (by rw [hwarps]; exact hlen), warp_of_warps hwarps]
  · exact (List.length_set ..).trans (congrArg List.length hwarps)
  · rw [← warp_of_warps hwarps v]
    exact reserveLeft_running ..

end

/-! The refill (R82). -/

theorem reserveHeader_fields : (field reserveHeader 160 1 = 0 || field reserveHeader 78 7 ≠ 16 || field reserveHeader 85 6 ≠ 16 ||
    field reserveHeader 128 32 ≠ 2208) = false := by decide

/-- The handlers of a warp whose innermost one has its reserve again. -/
def refilledHandlers : List Handler → List Handler
  | h :: r => { h with inReserve := true } :: r
  | [] => []

theorem refillReserve_reads {s s1 s2 : State} {q o : Nat} {rest : List Nat} {rs : List HostResp} {hb bs : List Byte}
    (hq : (s.quarter q).spilledOwners = o :: rest) (hsp : 2208 ≤ (s.warp o).sptr.toNat)
    (hread : s.ladleRead o rs ((s.warp o).sptr.toNat - 32) 32 = .ok (hb, s1)) (hhead : ofBytes hb = reserveHeader)
    (hread' : s1.ladleRead o rs ((s.warp o).sptr.toNat - 2208) 2176 = .ok (bs, s2)) :
    s.refillReserve q rs = .ok ((s2.setWarp o { s2.warp o with
      handlers := refilledHandlers (s2.warp o).handlers, sptr := BitVec.ofNat 32 ((s.warp o).sptr.toNat - 2208) }).setQuarter q
        { (s2.quarter q).putReserve bs with owner := some o, spilledOwners := rest }) := by
  unfold State.refillReserve
  rw [hq]
  refine (if_neg (Nat.not_lt.mpr hsp)).trans ?_
  rw [hread]
  dsimp only
  rw [hhead, if_neg (by rw [reserveHeader_fields]; exact Bool.false_ne_true), hread']
  rfl

theorem reserve_comes_back {s s1 s2 : State} {q o : Nat} {rest : List Nat} {rs : List HostResp} {hb bs : List Byte}
    (hq : (s.quarter q).spilledOwners = o :: rest) (hlen : o < s.warps.length) (hsp : 2208 ≤ (s.warp o).sptr.toNat)
    (hread : s.ladleRead o rs ((s.warp o).sptr.toNat - 32) 32 = .ok (hb, s1)) (hhead : ofBytes hb = reserveHeader)
    (hread' : s1.ladleRead o rs ((s.warp o).sptr.toNat - 2208) 2176 = .ok (bs, s2)) :
    ∃ t, s.refillReserve q rs = .ok t ∧ (t.quarter q).owner = some o ∧ (t.quarter q).spilledOwners = rest ∧
      (t.warp o).sptr.toNat = (s.warp o).sptr.toNat - 2208 ∧ (t.quarter q).rs = ((s2.quarter q).putReserve bs).rs ∧
      (t.quarter q).rv = ((s2.quarter q).putReserve bs).rv := by
  have hwarps : s2.warps = s.warps := (ladleRead_warps hread').trans (ladleRead_warps hread)
  refine ⟨_, refillReserve_reads hq hsp hread hhead hread', ?_⟩
  rw [State.quarter_setQuarter, if_pos rfl, State.warp_setQuarter, State.warp_setWarp,
    if_pos ⟨rfl, by rw [hwarps]; exact hlen⟩]
  refine ⟨rfl, rfl, ?_, rfl, rfl⟩
  show (BitVec.ofNat 32 ((s.warp o).sptr.toNat - 2208)).toNat = _
  rw [BitVec.toNat_ofNat, Nat.mod_eq_of_lt (Nat.lt_of_le_of_lt (Nat.sub_le ..) (s.warp o).sptr.isLt)]

end Sys2Proof.Machine
end

section
/-! The trap record (R288). -/

namespace Sys2Proof.Machine
open Sys2Proof

theorem Cause.num_lt (c : Cause) : c.num < 16 := by cases c <;> decide

theorem bit_eq (b : Bool) (n : Nat) : (if b = true then 2 ^ n else 0) = b.toNat * 2 ^ n := by cases b <;> simp

/-- Setting bit 30 of a number whose bits 31 and 30 are clear leaves its other fields. -/
theorem fields_of_bit30 {a n : Nat} (ha : a < 2 ^ 64) (h : a / 2 ^ 30 % 4 = 0) (hn : n ≤ 1) :
    let b := a + n * 2 ^ 30
    b < 2 ^ 64 ∧ b % 16 = a % 16 ∧ b / 2 ^ 4 % 16 = a / 2 ^ 4 % 16 ∧ b / 2 ^ 8 % 256 = a / 2 ^ 8 % 256 ∧
      b / 2 ^ 19 % 2 = a / 2 ^ 19 % 2 ∧ b / 2 ^ 20 % 8 = a / 2 ^ 20 % 8 ∧ b / 2 ^ 23 % 4 = a / 2 ^ 23 % 4 ∧
      b / 2 ^ 25 % 32 = a / 2 ^ 25 % 32 ∧ b / 2 ^ 30 % 4 = n ∧ b / 2 ^ 32 = a / 2 ^ 32 := by
  dsimp only
  norm_num at ha h ⊢
  refine ⟨?_, ?_, ?_, ?_, ?_, ?_, ?_, ?_, ?_, ?_⟩ <;> omega

/-- The fields of the record's first doubleword: cause, subcode, log, entry, lane, whether the handler is nested, and code. -/
theorem trapRecord_word (x : Warp) {e : Nat} {i : TrapInfo} (he : e < 4) (hsub : i.sub < 256) (hlog : i.logN ≤ 8)
    (hlane : i.lane < 32) :
    let s0 := (trapRecord x e i).s0.toNat
    s0 % 16 = i.cause.num ∧ s0 / 2 ^ 4 % 16 = 0 ∧ s0 / 2 ^ 8 % 256 = i.sub ∧ s0 / 2 ^ 19 % 2 = (if i.logN = 0 then 0 else 1) ∧
      s0 / 2 ^ 20 % 8 = i.logN - 1 ∧ s0 / 2 ^ 23 % 4 = e ∧ s0 / 2 ^ 25 % 32 = i.lane ∧
      s0 / 2 ^ 30 % 4 = (x.handlerAt e).isSome.toNat ∧ s0 / 2 ^ 32 = i.imm.toNat := by
  let lb := if i.logN = 0 then 0 else 1
  have hfields := Laws.trapInfo_fields i.cause.num i.sub i.logN e i.lane i.imm.toNat i.spill.toNat i.copyF.toNat i.matF.toNat
    (Bool.toNat_le _) (Bool.toNat_le _) (Bool.toNat_le _) i.cause.num_lt hsub hlog he hlane i.imm.isLt lb rfl
  have hlb : (decide (i.logN ≠ 0)).toNat = lb := by
    by_cases h : i.logN = 0 <;> simp [lb, h]
  have hword : ∃ a, (trapRecord x e i).s0 = BitVec.ofNat 64 (a + (x.handlerAt e).isSome.toNat * 2 ^ 30) ∧ a < 2 ^ 64 ∧
      a % 16 = i.cause.num ∧ a / 2 ^ 4 % 16 = 0 ∧ a / 2 ^ 8 % 256 = i.sub ∧ a / 2 ^ 19 % 2 = lb ∧ a / 2 ^ 20 % 8 = i.logN - 1 ∧
      a / 2 ^ 23 % 4 = e ∧ a / 2 ^ 25 % 32 = i.lane ∧ a / 2 ^ 30 % 4 = 0 ∧ a / 2 ^ 32 = i.imm.toNat := by
    refine ⟨_, ?_, hfields⟩
    unfold trapRecord
    simp only [bit_eq, hlb]
    refine congrArg (BitVec.ofNat 64) ?_
    omega
  obtain ⟨a, hs0, hlt, hcause, hres, hsub', hlog', hlogN, hentry, hlane', hnest, himm⟩ := hword
  obtain ⟨hlt', kcause, kres, ksub, klog, klogN, kentry, klane, knest, kimm⟩ :=
    fields_of_bit30 hlt hnest (Bool.toNat_le (x.handlerAt e).isSome)
  dsimp only
  rw [hs0, BitVec.toNat_ofNat, Nat.mod_eq_of_lt hlt']
  exact ⟨kcause.trans hcause, kres.trans hres, ksub.trans hsub', klog.trans hlog', klogN.trans hlogN, kentry.trans hentry,
    klane.trans hlane', knest, kimm.trans himm⟩

/-- The reserve's scalar registers at handler entry. -/
theorem entryRegs_scalars (r : TrapRec) :
    let rs := fun n => spGet 0 (entryRegs r).2 n
    rs 0 = r.s0 ∧ rs 1 = r.s1 ∧ rs 2 = r.s2 ∧ rs 3 = r.s3 ∧ rs 4 = r.s4 ∧ rs 5 = r.s5 ∧ ∀ n, 6 ≤ n → rs n = 0 := by
  simp only [entryRegs, spGet_spSet]
  refine ⟨rfl, rfl, rfl, rfl, rfl, rfl, fun n hn => ?_⟩
  rw [if_neg (by omega), if_neg (by omega), if_neg (by omega), if_neg (by omega), if_neg (by omega), if_neg (by omega)]
  rfl

/-- The reserve's vector registers at handler entry. -/
theorem entryRegs_vectors (r : TrapRec) :
    let rv := fun n => spGet 0 (entryRegs r).1 n
    rv 0 = r.v0 ∧ rv 1 = r.v1 ∧ rv 2 = r.v2 ∧ ∀ n, 3 ≤ n → rv n = 0 := by
  simp only [entryRegs, spGet_spSet]
  refine ⟨rfl, rfl, rfl, fun n hn => ?_⟩
  rw [if_neg (by omega), if_neg (by omega), if_neg (by omega)]
  rfl

/-- The low half of the fifth doubleword is the word that trapped. -/
theorem trapRecord_instr (x : Warp) (e : Nat) (i : TrapInfo) : (trapRecord x e i).s4.setWidth 32 = i.word := by
  apply BitVec.eq_of_toNat_eq
  unfold trapRecord
  rw [BitVec.toNat_setWidth, BitVec.toNat_ofNat]
  have hword := i.word.isLt
  split <;> omega

theorem lowWord_eq (x : DWord) : lowWord x = x.setWidth 32 := by
  ext j hj
  simp [lowWord]

theorem highWord_eq (x : DWord) : highWord x = (x >>> 32).setWidth 32 := by
  ext j hj
  simp [highWord]

/-- The lanes that met the condition, and their addresses. -/
theorem trapRecord_lanes (x : Warp) (e : Nat) (i : TrapInfo) {l : Nat} (hl : l < 32) :
    let at_ := (alGet i.addrs l).getD 0
    laneOf (trapRecord x e i).v0 l = (if i.met.getLsbD l then 1 else 0) ∧
      laneOf (trapRecord x e i).v1 l ++ laneOf (trapRecord x e i).v2 l = at_.setWidth 32 ++ (at_ >>> 32).setWidth 32 := by
  unfold trapRecord
  dsimp only
  rw [laneOf_vecOf _ _ hl, laneOf_vecOf _ _ hl, laneOf_vecOf _ _ hl]
  refine ⟨rfl, ?_⟩
  rw [lowWord_eq, highWord_eq]

/-- The reserve's registers at handler entry hold the trap record, and the others are zero (R288). -/
theorem entryRegs_hold_record (x : Warp) {e : Nat} {i : TrapInfo} (he : e < 4) (hsub : i.sub < 256) (hlog : i.logN ≤ 8)
    (hlane : i.lane < 32) :
    let rs := fun n => spGet 0 (entryRegs (trapRecord x e i)).2 n
    let rv := fun n => spGet 0 (entryRegs (trapRecord x e i)).1 n
    let at_ := fun l => (alGet i.addrs l).getD 0
    (rs 0).toNat % 16 = i.cause.num ∧ (rs 0).toNat / 2 ^ 4 % 16 = 0 ∧ (rs 0).toNat / 2 ^ 8 % 256 = i.sub ∧
    (rs 0).toNat / 2 ^ 19 % 2 = (if i.logN = 0 then 0 else 1) ∧ (rs 0).toNat / 2 ^ 20 % 8 = i.logN - 1 ∧
    (rs 0).toNat / 2 ^ 23 % 4 = e ∧ (rs 0).toNat / 2 ^ 25 % 32 = i.lane ∧
    (rs 0).toNat / 2 ^ 30 % 4 = (x.handlerAt e).isSome.toNat ∧ (rs 0).toNat / 2 ^ 32 = i.imm.toNat ∧
    rs 1 = i.fpc.setWidth 64 ∧ rs 2 = i.rpc.setWidth 64 ∧ rs 3 = i.addr ∧ (rs 4).setWidth 32 = i.word ∧ rs 5 = x.lclk ∧
    (∀ n, 6 ≤ n → rs n = 0) ∧
    (∀ l, l < 32 → laneOf (rv 0) l = (if i.met.getLsbD l then 1 else 0) ∧
      laneOf (rv 1) l ++ laneOf (rv 2) l = (at_ l).setWidth 32 ++ ((at_ l) >>> 32).setWidth 32) ∧
    ∀ n, 3 ≤ n → rv n = 0 := by
  obtain ⟨h0, h1, h2, h3, h4, h5, hs⟩ := entryRegs_scalars (trapRecord x e i)
  obtain ⟨k0, k1, k2, hv⟩ := entryRegs_vectors (trapRecord x e i)
  obtain ⟨hcause, hres, hsub', hlog', hlogN, hentry, hlane', hnest, himm⟩ := trapRecord_word x he hsub hlog hlane
  dsimp only at h0 h1 h2 h3 h4 h5 k0 k1 k2 ⊢
  rw [h0, h1, h2, h3, h4, h5, k0, k1, k2]
  exact ⟨hcause, hres, hsub', hlog', hlogN, hentry, hlane', hnest, himm, rfl, rfl, rfl, trapRecord_instr x e i, rfl, hs,
    fun l hl => trapRecord_lanes x e i hl, hv⟩

theorem getLsbD_of_div_mod {x : DWord} {n : Nat} {b : Bool} (h : x.toNat / 2 ^ n % 4 = b.toNat) : x.getLsbD n = b := by
  rw [BitVec.getLsbD, Nat.testBit_eq_decide_div_mod_eq]
  cases b <;> simp only [Bool.toNat_false, Bool.toNat_true] at h
  · exact decide_eq_false (by omega)
  · exact decide_eq_true (by omega)

/-- Bit 30 of the record's first doubleword says whether the handler is nested. -/
theorem entryRegs_nested (x : Warp) {e : Nat} {i : TrapInfo} (he : e < 4) (hsub : i.sub < 256) (hlog : i.logN ≤ 8)
    (hlane : i.lane < 32) : (spGet 0 (entryRegs (trapRecord x e i)).2 0).getLsbD 30 = (x.handlerAt e).isSome := by
  obtain ⟨h0, -⟩ := entryRegs_scalars (trapRecord x e i)
  obtain ⟨-, -, -, -, -, -, -, hnest, -⟩ := trapRecord_word x he hsub hlog hlane
  dsimp only at h0
  rw [h0]
  exact getLsbD_of_div_mod hnest

end Sys2Proof.Machine
end

section
/-! The way of a trap to its handler (R82, R287). -/

namespace Sys2Proof.Machine
open Sys2Proof

/-- What a trap makes of its strand: it waits for nothing. -/
def Strand.trapped (t : Strand) : Strand :=
  { t with wait := none, st := if t.st = .stalled then .ready else t.st, alone := false, permit := false }

/-- The state in which a trap of the strand u in entry e of warp w is taken. -/
def State.trapping (s : State) (w e : Nat) (u : Strand) : State := s.setWarp w ((s.warp w).setRunner e u.trapped)

theorem trapping_self {s : State} {w : Nat} (hw : w < s.warps.length) (e : Nat) (u : Strand) :
    (s.trapping w e u).warp w = (s.warp w).setRunner e u.trapped :=
  (State.warp_setWarp ..).trans (if_pos ⟨rfl, hw⟩)

theorem trapping_warp_ne (s : State) {w v : Nat} (hv : v ≠ w) (e : Nat) (u : Strand) : (s.trapping w e u).warp v = s.warp v :=
  (State.warp_setWarp ..).trans (if_neg fun h => hv h.1)

theorem trapping_length (s : State) (w e : Nat) (u : Strand) : (s.trapping w e u).warps.length = s.warps.length :=
  List.length_set ..

/-- A part of every warp that its strand does not hold is as it was. -/
theorem trapping_kept {α : Type} {f : Warp → α} {e : Nat} {u : Strand} (hf : ∀ x : Warp, f (x.setRunner e u.trapped) = f x)
    (s : State) (w v : Nat) : f ((s.trapping w e u).warp v) = f (s.warp v) := by
  unfold State.trapping
  rw [State.warp_setWarp]
  split
  · next h => rw [hf, h.1]
  · rfl

section
variable (s : State) (w e v : Nat) (u : Strand)

theorem trapping_coreOfWarp : (s.trapping w e u).coreOfWarp v = s.coreOfWarp v :=
  congrArg (fun b => (s.block b).core) (trapping_kept (fun x => x.setRunner_blk e _) s w v)

theorem trapping_ctxOfWarp : (s.trapping w e u).ctxOfWarp v = s.ctxOfWarp v :=
  congrArg (fun b => (s.launchOf b).ctx) (trapping_kept (fun x => x.setRunner_blk e _) s w v)

theorem trapping_quarterOf : (s.trapping w e u).quarterOf v = s.quarterOf v :=
  quarterOf_of_place v rfl (trapping_kept (fun x => x.setRunner_blk e _) s w v) (trapping_kept (fun x => x.setRunner_quarter e _) s w v)

end

theorem handlerAt_setRunner (x : Warp) (e : Nat) (t : Strand) :
    ((x.setRunner e t).handlerAt e).isSome = (x.handlerAt e).isSome := by
  unfold Warp.setRunner Warp.handlerAt
  cases hx : x.handlers with
  | nil => simp [hx]
  | cons h r =>
    by_cases he : h.entry = e <;> simp [hx, he]

theorem trapRecord_setRunner (x : Warp) (e : Nat) (t : Strand) (i : TrapInfo) :
    trapRecord (x.setRunner e t) e i = trapRecord x e i := by
  unfold trapRecord
  rw [handlerAt_setRunner, Warp.setRunner_lclk]

theorem handlerAt_none {x : Warp} (h : x.handlers = []) (e : Nat) : x.handlerAt e = none := by
  unfold Warp.handlerAt
  rw [h]

/-- The handler that a trap starts, at base + 64 × cause (R287, R288). -/
def Warp.entered (x : Warp) (e : Nat) (m : Mask) (c : Nat) (r : TrapRec) (nested : Bool) : Handler :=
  { entry := e, strand := Strand.start m (BitVec.ofNat 57 (fieldOf x.trapv 16 41 * 65536 + 64 * c)), trec := r, cause := c,
    nested := nested, inReserve := true, spillNo := 0, kbase := x.stackBase e }

/-- A handler of warp w starts in the reserve of a quarter, which is free. -/
def State.enterFree (s : State) (q w : Nat) (h : Handler) : State :=
  (s.setQuarter q { s.quarter q with owner := some w, rv := (entryRegs h.trec).1, rs := (entryRegs h.trec).2 }).setWarp w
    { s.warp w with handlers := h :: (s.warp w).handlers }

theorem enterFree_quarter (s : State) (q w : Nat) (h : Handler) : (s.enterFree q w h).quarter q =
    { s.quarter q with owner := some w, rv := (entryRegs h.trec).1, rs := (entryRegs h.trec).2 } :=
  (State.quarter_setQuarter s q q _).trans (if_pos rfl)

theorem enterFree_warp {s : State} (q : Nat) {w : Nat} (hw : w < s.warps.length) (h : Handler) :
    (s.enterFree q w h).warp w = { s.warp w with handlers := h :: (s.warp w).handlers } :=
  (State.warp_setWarp _ w w _).trans (if_pos ⟨rfl, hw⟩)

theorem enterFree_warp_ne (s : State) (q : Nat) {w v : Nat} (h : Handler) (hv : v ≠ w) : (s.enterFree q w h).warp v = s.warp v :=
  (State.warp_setWarp _ w v _).trans (if_neg fun hvw => hv hvw.1)

theorem enterFree_sptr (s : State) (q w v : Nat) (h : Handler) : ((s.enterFree q w h).warp v).sptr = (s.warp v).sptr := by
  unfold State.enterFree
  rw [State.warp_setWarp]
  split
  · next hv => rw [hv.1]
  · rfl

/-- The state in which a quarter's reserve is free for a handler: its registers are stored, or it is a machine check of its
owner's context (R82). -/
def State.reserveFreed (s : State) (q : Nat) : State :=
  match s.spillReserve q with
  | some s => s
  | none => match (s.quarter q).owner with
    | some o => s.mchk (dieOf (s.coreOfWarp o)) (s.ctxOfWarp o)
    | none => s

theorem reserveFreed_spilled {s s1 : State} {q : Nat} (h : s.spillReserve q = some s1) : s.reserveFreed q = s1 := by
  unfold State.reserveFreed
  rw [h]

theorem reserveFreed_unstored {s : State} {q o : Nat} (h : s.spillReserve q = none) (ho : (s.quarter q).owner = some o) :
    s.reserveFreed q = s.mchk (dieOf (s.coreOfWarp o)) (s.ctxOfWarp o) := by
  unfold State.reserveFreed
  rw [h, ho]

theorem enterHandler_eq (s : State) (w e : Nat) (t : Strand) (i : TrapInfo) : s.enterHandler w e t i =
    if ((s.reserveFreed (s.quarterOf w)).warp w).phase = .gone then s.reserveFreed (s.quarterOf w)
    else (s.reserveFreed (s.quarterOf w)).enterFree (s.quarterOf w) w
      (((s.reserveFreed (s.quarterOf w)).warp w).entered e t.mask i.cause.num (trapRecord (s.warp w) e i)
        ((s.warp w).handlerAt e).isSome) := rfl

theorem enterHandler_spilled {s s1 : State} {w e : Nat} {t : Strand} {i : TrapInfo} (h : s.spillReserve (s.quarterOf w) = some s1)
    (hp : (s1.warp w).phase ≠ .gone) : s.enterHandler w e t i = s1.enterFree (s.quarterOf w) w
      ((s1.warp w).entered e t.mask i.cause.num (trapRecord (s.warp w) e i) ((s.warp w).handlerAt e).isSome) := by
  rw [enterHandler_eq, reserveFreed_spilled h, if_neg hp]

/-- Whether or not the handler then starts, its launches and reports are those of the state with the reserve free. -/
theorem enterHandler_kept (s : State) (w e : Nat) (t : Strand) (i : TrapInfo) :
    (s.enterHandler w e t i).sys = (s.reserveFreed (s.quarterOf w)).sys ∧
      (s.enterHandler w e t i).launches = (s.reserveFreed (s.quarterOf w)).launches := by
  rw [enterHandler_eq]
  generalize s.reserveFreed (s.quarterOf w) = f
  split <;> exact ⟨rfl, rfl⟩

/-- A reserve that cannot be stored is a machine check of its owner's context (R82). -/
theorem enterHandler_unstored {s : State} {w e o : Nat} {t : Strand} {i : TrapInfo} (h : s.spillReserve (s.quarterOf w) = none)
    (ho : (s.quarter (s.quarterOf w)).owner = some o) :
    let m := s.mchk (dieOf (s.coreOfWarp o)) (s.ctxOfWarp o)
    (s.enterHandler w e t i).sys = m.sys ∧ (s.enterHandler w e t i).launches = m.launches := by
  have hkept := enterHandler_kept s w e t i
  rwa [reserveFreed_unstored h ho] at hkept

section
variable {s : State} {w e : Nat} {u : Strand} {i : TrapInfo} (hu : (s.warp w).runner e = some u) (hc : i.cause ≠ .mchk)
  (hv : (s.warp w).trapv.getLsbD i.cause.num = true) (hn : ∀ h, (s.warp w).handlerAt e = some h → h.cause ≠ i.cause.num)
include hu hc hv hn

/-- An enabled trap goes to the handler, unless it arises in handler code of its own cause. -/
theorem deliver_enters : s.deliver w e i = (s.trapping w e u).enterHandler w e u.trapped i := by
  unfold State.deliver
  simp only [hu]
  refine if_pos ?_
  rw [hv, decide_eq_true hc]
  cases hh : (s.warp w).handlerAt e with
  | none => rfl
  | some h => simp [hn h hh]

/-- Once its quarter's reserve is free, the trap's handler has it, with the trap record. -/
theorem deliver_spilled {s1 : State} (hw : w < s.warps.length) (h : (s.trapping w e u).spillReserve (s.quarterOf w) = some s1)
    (hp : (s1.warp w).phase ≠ .gone) : s.deliver w e i = s1.enterFree (s.quarterOf w) w
      ((s1.warp w).entered e u.mask i.cause.num (trapRecord (s.warp w) e i) ((s.warp w).handlerAt e).isSome) := by
  have hq := trapping_quarterOf s w e w u
  rw [deliver_enters hu hc hv hn, enterHandler_spilled (by rw [hq]; exact h) hp, hq, trapping_self hw,
    trapRecord_setRunner, handlerAt_setRunner]
  rfl

/-- Where the reserve's registers cannot be stored, the launches of its owner's context are killed (R82, R290). -/
theorem deliver_unstored {o : Nat} (h : (s.trapping w e u).spillReserve (s.quarterOf w) = none)
    (ho : (s.quarter (s.quarterOf w)).owner = some o) :
    let d := dieOf (s.coreOfWarp o)
    Report.mchk d (s.ctxOfWarp o) ∈ (s.deliver w e i).sys.reports ∧ ∀ l, s.liveLaunch d (s.ctxOfWarp o) l →
      ∃ y, (s.deliver w e i).launches[l]? = some y ∧ y.phase = .killed := by
  have hq := trapping_quarterOf s w e w u
  obtain ⟨hsys, hlaunches⟩ := enterHandler_unstored (s := s.trapping w e u) (w := w) (e := e) (t := u.trapped) (i := i) (o := o)
    (by rw [hq]; exact h) (by rw [hq]; exact ho)
  rw [trapping_coreOfWarp, trapping_ctxOfWarp] at hsys hlaunches
  dsimp only
  rw [deliver_enters hu hc hv hn, hsys, hlaunches]
  exact ⟨mchk_reports .., fun l hl => Option.map_eq_some_iff.mp (mchk_kills (s := s.trapping w e u) hl)⟩

end

end Sys2Proof.Machine
end

section
/-! An enabled trap enters its handler (R82, R287, R288, R424). -/

namespace Sys2Proof.Machine
open Sys2Proof

/-- Where the reserve is free, the handler starts in the state in which the trap is taken. -/
theorem deliver_free {s : State} {w e : Nat} {u : Strand} {i : TrapInfo} (hw : w < s.warps.length)
    (hrun : (s.warp w).phase = .running) (hu : (s.warp w).runner e = some u) (hh : (s.warp w).handlers = [])
    (hc : i.cause ≠ .mchk) (hv : (s.warp w).trapv.getLsbD i.cause.num = true) (hq : (s.quarter (s.quarterOf w)).owner = none) :
    s.deliver w e i = (s.trapping w e u).enterFree (s.quarterOf w) w
      (((s.trapping w e u).warp w).entered e u.mask i.cause.num (trapRecord (s.warp w) e i) false) := by
  have hnone := handlerAt_none hh e
  have hphase := trapping_kept (f := Warp.phase) (fun x => x.setRunner_phase e _) s w w (u := u)
  have henter := deliver_spilled hu hc hv (by simp [hnone]) hw (Laws.spillRes_none (s := s.trapping w e u) hq)
    (by simp [hphase, hrun])
  rwa [hnone] at henter

/-- A handler's entry leaves the other warps, memory and the blocks. -/
theorem trapping_enterFree_keeps (s : State) (w e q : Nat) (u : Strand) (h : Handler) :
    let t := (s.trapping w e u).enterFree q w h
    (∀ v, v ≠ w → t.warp v = s.warp v) ∧ t.mem = s.mem ∧ t.blocks = s.blocks :=
  ⟨fun _ hv => (enterFree_warp_ne _ q h hv).trans (trapping_warp_ne s hv e u), rfl, rfl⟩

/-- Settles O34: the reserve is freed first where another handler holds it, and the handler starts in it with the record. -/
theorem enabledTrapsEnterTheHandler : Obligations.EnabledTrapsEnterTheHandler := by
  unfold Obligations.EnabledTrapsEnterTheHandler
  refine ⟨?free, ?held, ?spill, ?refill, fun q n hn => reserve_roundtrip q hn⟩
  case free =>
    intro s w e i u
    dsimp only
    intro hw hrun hu hh hc hv hq he hsub hlog hlane
    obtain ⟨hcause, hres, hsub', hlog', hlogN, hentry, hlane', hnest, himm, hfpc, hrpc, haddr, hword, hlclk, hscalars, hlanes,
      hvectors⟩ := entryRegs_hold_record (s.warp w) (i := i) he hsub hlog hlane
    rw [handlerAt_none hh e] at hnest
    rw [deliver_free hw hrun hu hh hc hv hq, enterFree_warp _ (by rw [trapping_length]; exact hw), enterFree_quarter,
      trapping_self hw, Laws.setRunner_none hh]
    exact ⟨⟨_, congrArg _ hh, rfl, rfl, rfl, rfl⟩, rfl, hcause, hres, hsub', hlog', hlogN, hentry, hlane', hnest, himm, hfpc,
      hrpc, haddr, hword, hlclk, hscalars, hlanes, hvectors, rfl, rfl, rfl, rfl, rfl, rfl, rfl, rfl,
      fun f hf => ((s.warp w).strand_setStrand e f _).trans (if_neg fun h => hf h.1), trapping_enterFree_keeps ..⟩
  case held =>
    intro s w e o i u
    dsimp only
    intro hw ho he hrun hu hc hv hn howner hsub hlog hlane
    refine ⟨fun s1 h => ?_, fun h => deliver_unstored hu hc hv hn h howner⟩
    obtain ⟨howners, hsptr, hlen, hkept⟩ := spillReserve_left (s := s.trapping w e u) howner h
      (by rw [trapping_length]; exact ho)
    obtain ⟨hphase, htrapv⟩ := hkept w
    rw [trapping_kept (f := Warp.phase) (fun x => x.setRunner_phase e _)] at hphase
    rw [trapping_kept (f := Warp.trapv) (fun x => x.setRunner_trapv e _)] at htrapv
    rw [trapping_kept (f := Warp.sptr) (fun x => x.setRunner_sptr e _)] at hsptr
    rw [deliver_spilled hu hc hv hn hw h (by simp [hphase, hrun]), enterFree_warp _ (by rw [hlen, trapping_length]; exact hw),
      enterFree_quarter]
    refine ⟨⟨_, rfl, rfl, rfl, rfl, ?_, rfl, rfl⟩, rfl, howners, ?_, ?_, rfl⟩
    · rw [← htrapv]; rfl
    · exact entryRegs_nested _ he hsub hlog hlane
    · exact (enterFree_sptr ..).trans hsptr
  case spill =>
    intro s q o ho
    refine ⟨spillReserve_full ho, fun a h => spillReserve_unstored ho h, fun run hfit hrun hasks => ?_⟩
    exact ⟨_, spillReserve_stored ho hfit hrun, spillSent_home hasks⟩
  case refill =>
    intro s s1 s2 q o rest rs hb bs hq _ hlen hsp
    exact reserve_comes_back hq hlen hsp

end Sys2Proof.Machine
end

section
/-! The encoder and the decoder (R85, R86, R95): each is the other's inverse. -/

namespace Sys2Proof.Machine
open Sys2Proof

/-- The tables of R97 to R104 give back an instruction from its own opcode and fields. -/
theorem ctorOf_self {i : Instr} (hw : i.hasWord = true) (hu : ∀ w, i ≠ .unusedOpcode w) :
    ctorOf i.opcode i.fields = some i := by
  cases i
  case unusedOpcode w => exact absurd rfl (hu w)
  all_goals try exact absurd hw Bool.false_ne_true
  all_goals
    delta Instr.opcode Instr.fields
    dsimp only
    refine congrArg some ?_
    simp only [part_d, part_a, part_b, partJ_d, partJ_imm, part_ksel]

/-- The word of an unused opcode is the word itself. -/
theorem encode_unusedOpcode (w : Word) : encode (.unusedOpcode w) = w := by
  have hparts := word_parts w
  rw [opOf_div] at hparts
  exact hparts

/-- A word whose opcode is not in the map is an unused opcode (R86). -/
theorem decodeWord_unused {w : Word} (h : opInfo (opOf w) = none) : decodeWord w = .ok (.unusedOpcode w) := by
  unfold decodeWord
  rw [h]

/-- The map and the tables of instructions have the same opcodes. -/
theorem ctorOf_of_opInfo {op : Nat} {info : OpInfo} (h : opInfo op = some info) (f : BitVec 21) :
    ∃ i, ctorOf op f = some i := by
  have hsame := info_isNone op f
  rw [h] at hsame
  exact Option.isSome_iff_exists.mp (Option.isNone_eq_false_iff.mp hsame)

/-- A word of the map with a field that its entry does not admit is refused (R95). -/
theorem decodeWord_badField {w : Word} {info : OpInfo} (h : opInfo (opOf w) = some info)
    (hk : fieldsOk (opOf w) info (bits w 0 21) = false) : decodeWord w = .error (.badField (opOf w)) := by
  obtain ⟨i, hi⟩ := ctorOf_of_opInfo h (bits w 0 21)
  unfold decodeWord
  rw [h, hi]
  simp [hk]

/-- Everything that the decoder can accept: a word of the map whose fields its entry admits, or one outside the map. -/
theorem decodeWord_cases {w : Word} {i : Instr} (h : decodeWord w = .ok i) :
    (∃ info, opInfo (opOf w) = some info ∧ ctorOf (opOf w) (bits w 0 21) = some i ∧
      fieldsOk (opOf w) info (bits w 0 21) = true) ∨ (opInfo (opOf w) = none ∧ i = .unusedOpcode w) := by
  cases hinfo : opInfo (opOf w) with
  | none =>
    rw [decodeWord_unused hinfo] at h
    exact .inr ⟨rfl, (Except.ok.inj h).symm⟩
  | some info =>
    cases hk : fieldsOk (opOf w) info (bits w 0 21) with
    | false =>
      rw [decodeWord_badField hinfo hk] at h
      cases h
    | true =>
      obtain ⟨j, hj⟩ := ctorOf_of_opInfo hinfo (bits w 0 21)
      unfold decodeWord at h
      rw [hinfo, hj] at h
      simp only [hk, if_true, Except.ok.injEq] at h
      exact .inl ⟨info, rfl, h ▸ hj, hk⟩

/-- An instruction whose fields its entry of the map admits is well-formed. -/
theorem wf_of_fieldsOk {i : Instr} {info : OpInfo} (hu : ∀ w, i ≠ .unusedOpcode w) (hw : i.hasWord = true)
    (hinfo : opInfo i.opcode = some info) (hk : fieldsOk i.opcode info i.fields = true) : i.wf = true := by
  unfold Instr.wf
  split
  · exact absurd rfl (hu _)
  · rw [if_pos hw, show i.info = some info from hinfo]
    exact hk

/-- An unused opcode is well-formed when the map does not have it. -/
theorem wf_unusedOpcode (w : Word) : (Instr.unusedOpcode w).wf = (opInfo (opOf w)).isNone := by
  rw [opOf_div]
  rfl

/-- The word of a well-formed instruction decodes to it, one of an unused opcode too. -/
theorem decodeWord_encode_wf {i : Instr} (h : i.wf = true) (hw : i.hasWord = true) : decodeWord (encode i) = .ok i := by
  by_cases hu : ∃ w, i = .unusedOpcode w
  · obtain ⟨w, rfl⟩ := hu
    rw [encode_unusedOpcode]
    exact decodeWord_unused (Option.isNone_iff_eq_none.mp (wf_unusedOpcode w ▸ h))
  · exact decodeWord_encode (not_exists.mp hu) (ctorOf_self hw (not_exists.mp hu)) h hw

/-- Settles O2: the bytes make up the word again, and the tables give back each instruction from its opcode and fields. -/
theorem decodeInvertsEncode : Obligations.DecodeInvertsEncode := by
  unfold Obligations.DecodeInvertsEncode
  intro i h hw rest
  have hword : i.hasWord = true := hw.elim id fun ⟨_, e⟩ => e ▸ rfl
  show (decodeWord (wordOfBytes _ _ _ _)).map (fun j => (j, rest)) = _
  rw [wordOfBytes_bits, decodeWord_encode_wf h hword]
  rfl

/-- Settles O3: the opcode and fields of what the tables give are the word's own, and the word is the two side by side. -/
theorem encodeInvertsDecode : Obligations.EncodeInvertsDecode := by
  unfold Obligations.EncodeInvertsDecode
  intro w i h
  obtain ⟨_, hinfo, hctor, hk⟩ | ⟨hinfo, rfl⟩ := decodeWord_cases h
  · obtain ⟨hop, hfields⟩ := ctorOf_fields hinfo hctor hk
    obtain ⟨hword, hu⟩ := ctorOf_hasWord hctor
    refine ⟨?_, wf_of_fieldsOk hu hword (hop ▸ hinfo) (by rw [hop, hfields]; exact hk), .inl hword⟩
    unfold encode
    rw [hop, hfields, word_parts]
  · exact ⟨encode_unusedOpcode w, by rw [wf_unusedOpcode, hinfo]; rfl, .inr rfl⟩

/-- Settles O1: each of the words is four bytes that the decoder takes apart by its tables. -/
theorem knownWordsDecode : Obligations.KnownWordsDecode := by
  unfold Obligations.KnownWordsDecode
  decide +kernel

end Sys2Proof.Machine
end

section
/-! Words that are no instruction (R86, R95). -/

namespace Sys2Proof.Machine
open Sys2Proof

/-- R85: an opcode is its class times 64 and its minor opcode. -/
theorem opOf_class_minor (w : Word) : opOf w = (bits w 27 5).toNat * 64 + (bits w 21 6).toNat := by
  unfold opOf bits
  simp only [BitVec.extractLsb'_toNat, Nat.shiftRight_eq_div_pow]
  have := w.isLt
  omega

/-- R97 to R104: the map has 288 opcodes. -/
theorem opInfo_count : ((List.range 2048).filter (fun op => (opInfo op).isSome)).length = 288 := by decide +kernel

/-- A trap of a chain that is no instruction word is delivered at that chain, where neither a fault that is pending nor a memory
instruction in flight comes first (R91, R292). -/
theorem raiseChain_delivers {s : State} {x : TrapInfo} (hmiss : s.inMiss = false)
    (hfirst : s.inHandler = true ∨ (s.atChain ∧ s.cs.fault = none)) :
    s.raiseChain x = s.deliver s.issue.warp s.issue.entry (s.fillInfo x) := by
  unfold State.raiseChain State.raise
  obtain hin | ⟨⟨hsrc, hflight⟩, hfault⟩ := hfirst
  · simp [hin, hmiss]
  · cases hin : s.inHandler <;> simp [hmiss, hsrc, hflight, hfault]

/-- An unused opcode raises ILLOP at its chain (R86). -/
theorem execUnusedOpcode_illopAt {w : Word} {s : State} (hok : s.issueOk = true) (hmiss : s.inMiss = false)
    (hfirst : s.inHandler = true ∨ (s.atChain ∧ s.cs.fault = none)) : execUnusedOpcode w s = .next (s.illopAt w) := by
  have hraise : State.raiseChain { s with issue := { s.issue with word := w } } (TrapInfo.of (.illop, 0)) = _ :=
    raiseChain_delivers hmiss hfirst
  unfold execUnusedOpcode
  rw [if_pos hok, hraise]
  rfl

theorem runWord_ok {w : Word} {i : Instr} {s : State} (h : decodeWord w = .ok i) : runWord w s = exec i s := by
  unfold runWord
  rw [h]

theorem runWord_error {w : Word} {x : DecodeError} {s : State} (h : decodeWord w = .error x) :
    runWord w s = execUnusedOpcode w s := by
  unfold runWord
  rw [h]

/-- Settles O4: both kinds of word come to the same ILLOP, the one as the row UNUSED_OPCODE, the other refused by the decoder. -/
theorem unusedOpcodesRaiseIllop : Obligations.UnusedOpcodesRaiseIllop := by
  unfold Obligations.UnusedOpcodesRaiseIllop
  refine ⟨opOf_class_minor, opInfo_count, rfl, rfl, fun w s hinfo hok hmiss hfirst => ?_,
    fun w info s hinfo hk hok hmiss hfirst => ?_⟩
  · have hdecode := decodeWord_unused hinfo
    exact ⟨hdecode, runWord_ok hdecode, execUnusedOpcode_illopAt hok hmiss hfirst⟩
  · rw [runWord_error (decodeWord_badField hinfo hk)]
    exact execUnusedOpcode_illopAt hok hmiss hfirst

end Sys2Proof.Machine
end

section
/-! NOP and the scalar branches (R307, R347, R376). -/

namespace Sys2Proof.Machine
open Sys2Proof

theorem runs_nop : ∃ info, Runs .nop info (fun s => .ok s) := ⟨_, runs (fun _ => rfl) rfl rfl rfl⟩

theorem runs_bra (imm : BitVec 21) : ∃ info, Runs (.bra imm) info (fun s => .ok (s.jump (s.target 21 imm.toNat))) :=
  ⟨_, runs (fun _ => rfl) rfl rfl rfl⟩

theorem runs_bscZ (d : BitVec 7) (imm : BitVec 14) :
    ∃ info, Runs (.bscZ d imm) info (branchScalar d imm (fun x => x = 0)) := ⟨_, runs (fun _ => rfl) rfl rfl rfl⟩

theorem runs_bscNz (d : BitVec 7) (imm : BitVec 14) :
    ∃ info, Runs (.bscNz d imm) info (branchScalar d imm (fun x => x ≠ 0)) := ⟨_, runs (fun _ => rfl) rfl rfl rfl⟩

/-- BSC transfers where its condition holds of the scalar, and else goes on (R347). -/
theorem branchScalar_goesTo {i : Instr} {info : OpInfo} {d : BitVec 7} {imm : BitVec 14} {c : DWord → Prop} [DecidablePred c]
    (hr : Runs i info (branchScalar d imm (fun x => decide (c x)))) :
    GoesTo i (fun s => if c (s.rdS d.toNat) then s.target 14 imm.toNat else s.seqPc) := by
  have hgo := goesTo hr (fun s => if c (s.rdS d.toNat) then some (s.target 14 imm.toNat) else none) fun s _ => by
    show Except.ok (if decide (c (s.rdS d.toNat)) then _ else _) = _
    by_cases h : c (s.rdS d.toNat)
    · simp only [h, decide_true, if_true]; rfl
    · simp only [h, decide_false, if_false]; rfl
  intro s h
  obtain ⟨t, hexec, hpc, hrest⟩ := hgo s h
  refine ⟨t, hexec, hpc.trans ?_, hrest⟩
  dsimp only
  split <;> rfl

/-- A retired NOP counts once on the clock outside handler code and miss groups; in handler code the clock stands (R307). -/
theorem nop_lclk {s : State} (h : ready .nop s = true) : ∃ t, exec .nop s = .next t ∧
    (s.inHandler = true → t.cw.lclk = s.cw.lclk) ∧
    (s.inHandler = false → s.ranBefore = false → s.cw.missGroup s.issue.entry = [] → t.cw.lclk = s.cw.lclk + 1) := by
  obtain ⟨info, hr⟩ := runs_nop
  exact ⟨_, hr.ok h rfl, retire_lclk (s.atInstr .nop) (s.atInstr .nop) _ (ready_list (i := .nop) h) rfl⟩

/-- Settles O23: NOP's meaning moves nothing, BRA's transfers, and BSC's does where its condition holds. -/
theorem straightLineAndScalarBranches : Obligations.StraightLineAndScalarBranches := by
  unfold Obligations.StraightLineAndScalarBranches
  refine ⟨⟨?nop, fun imm => ?bra, fun d imm => ⟨?bscZ, ?bscNz⟩⟩, fun s h => nop_lclk h⟩
  case nop =>
    obtain ⟨_, hr⟩ := runs_nop
    exact goesTo hr (fun _ => none) fun _ _ => rfl
  case bra =>
    obtain ⟨_, hr⟩ := runs_bra imm
    exact goesTo hr (fun s => some (s.target 21 imm.toNat)) fun _ _ => rfl
  case bscZ =>
    obtain ⟨_, hr⟩ := runs_bscZ d imm
    exact branchScalar_goesTo hr
  case bscNz =>
    obtain ⟨_, hr⟩ := runs_bscNz d imm
    exact branchScalar_goesTo hr

end Sys2Proof.Machine
end

section
/-! The prefixes of a chain (R87, R88) and the immediates that they make up (R90). -/

namespace Sys2Proof.Machine
open Sys2Proof

/-- The value of two bit strings side by side. -/
theorem append_toNat {m n : Nat} (x : BitVec m) (y : BitVec n) : (x ++ y).toNat = x.toNat * 2 ^ n + y.toNat := by
  rw [BitVec.toNat_append, ← Nat.shiftLeft_add_eq_or_of_lt y.isLt, Nat.shiftLeft_eq]

theorem imm_no_prefix {s : State} {w : Nat} (f : BitVec w) (hw : 0 < w) (h : s.issue.xs = []) : s.imm w f.toNat = f.toInt := by
  unfold State.imm
  rw [h]
  exact Laws.sext_eq_toInt w f hw

theorem imm_one_prefix {s : State} {w : Nat} {x : BitVec 21} (f : BitVec w) (h : s.issue.xs = [x]) :
    s.imm w f.toNat = (x ++ f).toInt := by
  unfold State.imm
  rw [h]
  dsimp only
  rw [← append_toNat]
  exact Laws.sext_eq_toInt (21 + w) (x ++ f) (by omega)

theorem imm_two_prefixes {s : State} {w : Nat} {x y : BitVec 21} (f : BitVec w) (h : s.issue.xs = [x, y]) :
    s.imm w f.toNat = (x ++ y ++ f).toInt := by
  unfold State.imm
  rw [h]
  dsimp only
  rw [← append_toNat, ← append_toNat]
  exact Laws.sext_eq_toInt (42 + w) (x ++ y ++ f) (by omega)

/-- Settles O24: the prefixes note what they bring, and an immediate is the value of its parts side by side. -/
theorem prefixesExtendTheChain : Obligations.PrefixesExtendTheChain := by
  unfold Obligations.PrefixesExtendTheChain
  exact ⟨fun _ _ h => if_pos h, fun _ _ _ h => if_pos h,
    fun _ f _ _ _ hw => ⟨imm_no_prefix f hw, imm_one_prefix f, imm_two_prefixes f⟩⟩

end Sys2Proof.Machine
end

section
/-! A step that issues a strand (R89, R93, R284), and what every step leaves of the issue. -/

namespace Sys2Proof.Machine
open Sys2Proof

@[simp] theorem begin_issue (s : State) : s.begin.issue = s.issue := s.passClocks_issue 1
@[simp] theorem begin_agenda (s : State) : s.begin.agenda = s.agenda := s.passClocks_agenda 1

/-- What ends a step leaves no chain being issued. -/
theorem ended_issue {o : Out} {t : State} (h : ended o = .next t) : t.issue = Issue.idle := by
  cases o with
  | next s => cases h; rfl
  | fault f => cases h
  | refused r => cases h

/-- A step takes the head of the agenda. -/
theorem step_agenda {s : State} {a : Act} {r : List Act} (h : s.agenda = a :: r) :
    step s = ended (State.counted { s.begin with agenda := r } a (State.act runWord exec { s.begin with agenda := r } a)) := by
  simp only [step, State.stepWith, begin_agenda, h]

/-- With nothing on the agenda a step takes what the machine does of itself. -/
theorem step_choose {s : State} {a : Act} (h : s.agenda = []) (hc : s.begin.choose = some a) :
    step s = ended (s.begin.counted a (s.begin.act runWord exec a)) := by
  simp only [step, State.stepWith, begin_agenda, h, hc]

/-- With nothing to do a step lets its clock pass. -/
theorem step_rest {s : State} (h : s.agenda = []) (hc : s.begin.choose = none) : step s = .next s.begin := by
  simp only [step, State.stepWith, begin_agenda, h, hc]

/-- Settles O7: every action is ended, and a step without one leaves the issue as it was. -/
theorem noIssueBetweenSteps : Obligations.NoIssueBetweenSteps := by
  unfold Obligations.NoIssueBetweenSteps
  intro s t hidle h
  cases hagenda : s.agenda with
  | cons a r => exact ended_issue (step_agenda hagenda ▸ h)
  | nil =>
    cases hchoose : s.begin.choose with
    | some a => exact ended_issue (step_choose hagenda hchoose ▸ h)
    | none =>
      rw [step_rest hagenda hchoose] at h
      cases h
      rw [begin_issue, hidle]

/-- A handler whose registers are in the reserve, or none, goes on at once (R82). -/
theorem readyReserve_self {s : State} {w e : Nat} (h : ∀ k, (s.warp w).handlerAt e = some k → k.inReserve = true) :
    s.readyReserve w e = (s, true) := by
  unfold State.readyReserve
  split
  · rfl
  · next k hk => rw [if_pos (h k hk)]

/-- A candidate issues the chain at its PC where no trap is due, it awaits no engine fault and no logged instruction comes first
(R289, R292, R294, R302). -/
theorem issueStrand_chain {run : Word → State → Out} {s : State} {w e : Nat} {split : Bool} {t : Strand}
    (hcand : s.candidate w e = true) (hrun : (s.warp w).runner e = some t)
    (hres : ∀ k, (s.warp w).handlerAt e = some k → k.inReserve = true) (hdue : s.dueFault w = none)
    (hfirst : s.faultFirst w e = false) (hlog : (s.warp w).handlerAt e = none → t.fault = none → t.log = []) :
    s.issueStrand run w e split = s.issueChain run w e split := by
  have hhead : (if t.fault.isSome || ((s.warp w).handlerAt e).isSome then none else t.log.head?) = none := by
    cases hh : (s.warp w).handlerAt e with
    | some k => simp
    | none => cases hf : t.fault with
      | some f => simp
      | none => simp [hlog hh hf]
  unfold State.issueStrand
  rw [hcand, hdue, hfirst, readyReserve_self hres]
  simp only [Bool.not_true, Bool.false_eq_true, if_false, hrun]
  rw [hhead]

/-- The state in which the word at `pc` runs: its chain is read, and the next one follows it. -/
def State.reached (s : State) (pc : Va) (wd : Word) : State :=
  { s with issue := { s.issue with pc := pc, next := pc + 4, word := wd } }

/-- A chain whose words are read, which starts no chain within another and whose prefixes are admitted, runs its words in order (R89, R93). -/
theorem issueChain_words {run : Word → State → Out} {s s2 : State} {w e : Nat} {split : Bool} {t : Strand} {pre : List Word}
    {pc : Va} {wd : Word} (hrun : (s.warp w).runner e = some t)
    (hfetch : (s.setIssue w e t.pc t.pc 0 split).fetchChain 4 t.pc [] 0 = (.words pre pc wd, s2))
    (hproper : t.jumped = true → (s2.reached pc wd).insideChain t.pc = .ok false) (hpre : pre.any badPrefix = false) :
    s.issueChain run w e split = runWords run pre wd (s2.reached pc wd) := by
  have hin : (if t.jumped then (s2.reached pc wd).insideChain t.pc else .ok false) = .ok false := by
    cases hj : t.jumped with
    | true => exact hproper hj
    | false => rfl
  unfold State.reached at hin
  unfold State.issueChain
  rw [hrun]
  dsimp only
  rw [hfetch]
  dsimp only
  rw [hin]
  simp only [hpre, Bool.or_false, Bool.false_eq_true, if_false]
  rfl

/-- A chain that starts with its instruction word is that word (R89). -/
theorem fetchChain_single {s s2 : State} {n : Nat} {pc : Va} {wd : Word} (h : s.fetchWord pc = (.word wd, s2))
    (hx : opOf wd ≠ 2) (hk : opOf wd ≠ 3) : s.fetchChain (n + 1) pc [] 0 = (.words [] pc wd, s2) := by
  unfold State.fetchChain
  rw [h]
  dsimp only
  rw [if_neg hk, if_neg hx]

/-- Settles O6: the action is the strand's issue, the issue that of the chain at its PC, and the chain runs its words. -/
theorem stepRunsTheDecodedInstruction : Obligations.StepRunsTheDecodedInstruction := by
  unfold Obligations.StepRunsTheDecodedInstruction
  intro s u w e split t hact hpick hcand hrun hres hdue hfirst hlog
  have hstep : step s = ended (u.counted (.issue w e split) (u.act runWord exec (.issue w e split))) := by
    obtain ⟨r, hagenda, rfl⟩ | ⟨hagenda, hchoose, rfl⟩ := hact
    · exact step_agenda hagenda
    · exact step_choose hagenda hchoose
  have hissue : u.act runWord exec (.issue w e split) = u.issueChain runWord w e split :=
    (if_pos hpick).trans (issueStrand_chain hcand hrun hres hdue hfirst hlog)
  rw [hissue] at hstep
  have hwords := fun pre pc wd s2 hfetch hproper hpre =>
    hstep.trans (congrArg (fun o => ended (u.counted (.issue w e split) o))
      (issueChain_words (pre := pre) (pc := pc) (wd := wd) (s2 := s2) hrun hfetch hproper hpre))
  refine ⟨fun wd s2 i hfetch hx hk hproper hdecode => ?_, fun wd s2 x hfetch hx hk hproper hdecode => ?_, hwords⟩
  · rw [← runWord_ok hdecode]
    exact hwords [] t.pc wd s2 (fetchChain_single hfetch hx hk) hproper rfl
  · rw [← runWord_error hdecode]
    exact hwords [] t.pc wd s2 (fetchChain_single hfetch hx hk) hproper rfl

end Sys2Proof.Machine
end

section
/-! Floating-point lanes (R126, R131, R361, R362): what a meaning in the shell of R362 writes, and how it traps. -/

namespace Sys2Proof.Machine
open Sys2Proof

/-- An instruction that runs a meaning whose destination is the vector register that the word's d field names. -/
structure LaneWord (i : Instr) (d : BitVec 7) (body : Body) : Prop where
  dest : i.fields.extractLsb' 14 7 = d
  runs : ∃ info, (info.d = .vdst 1 ∨ info.d = .vboth 1) ∧ Runs i info body

/-- The same where the destination is a register pair (R120). -/
structure PairWord (i : Instr) (d : BitVec 7) (body : Body) : Prop where
  dest : i.fields.extractLsb' 14 7 = d
  runs : ∃ info, (info.d = .vpdst ∨ info.d = .vpboth) ∧ Runs i info body

section
variable {i : Instr} {d a b : BitVec 7} {body : Body} {info : OpInfo} {n : Nat} {f : State → Nat → FRes}

theorem LaneWord.dab (hx : ∀ s, exec i s = perform (wordDab n d a b) body s) (hin : opInfo n = some info)
    (hdst : info.d = .vdst 1 ∨ info.d = .vboth 1) (ho : i.opcode = n) (hg : i.fields = d ++ a ++ b) : LaneWord i d body :=
  ⟨hg ▸ dField d a b, info, hdst, Machine.runs hx hin ho hg⟩

theorem PairWord.dab (hx : ∀ s, exec i s = perform (wordDab n d a b) body s) (hin : opInfo n = some info)
    (hdst : info.d = .vpdst ∨ info.d = .vpboth) (ho : i.opcode = n) (hg : i.fields = d ++ a ++ b) : PairWord i d body :=
  ⟨hg ▸ dField d a b, info, hdst, Machine.runs hx hin ho hg⟩

theorem LaneWord.result (h : LaneWord i d (fpLanes d.toNat f)) (hf : ∀ s l, f (s.atInstr i) l = f s l) : FpResult i d f := by
  obtain ⟨hdest, _, hdst, hr⟩ := h
  exact Laws.fp_of_lanes hr hdest hdst hf

theorem PairWord.result (h : PairWord i d (fpPairs d.toNat f)) (hf : ∀ s l, f (s.atInstr i) l = f s l) :
    FpPairResult i d f := by
  obtain ⟨hdest, _, hdst, hr⟩ := h
  exact Laws.fpPair_of_pairs hr hdest hdst hf

theorem LaneWord.traps (h : LaneWord i d (fpLanes d.toNat f)) (hf : ∀ s l, f (s.atInstr i) l = f s l) :
    FpTraps i (fun s l => (f s l).fl) := by
  obtain ⟨_, _, _, hr⟩ := h
  exact fp_raises hr fun s => ⟨_, fpLanes_eq d.toNat s i f hf⟩

theorem PairWord.traps (h : PairWord i d (fpPairs d.toNat f)) (hf : ∀ s l, f (s.atInstr i) l = f s l) :
    FpTraps i (fun s l => (f s l).fl) := by
  obtain ⟨_, _, _, hr⟩ := h
  exact fp_raises hr fun s => ⟨_, fpPairs_eq d.toNat s i f hf⟩

end

end Sys2Proof.Machine
end

section
/-! FP32 arithmetic (R361, R362): a unary, a binary, a fused and a selecting meaning, each under any rounding mode. -/

namespace Sys2Proof.Machine
open Sys2Proof

section
variable {i : Instr} {d a b : BitVec 7} (m : State → RMode)

theorem fUnary_result (f : FVal → Exact) (hm : ∀ s, m (s.atInstr i) = m s) (h : LaneWord i d (fUnary d a m f)) :
    FpResult i d (fun s l => finish fp32 (m s) s.cw.fz (f (s.f32 a.toNat l))) :=
  LaneWord.result h fun s l =>
    congrArg (fun r => finish fp32 r s.cw.fz (f (s.f32 a.toNat l))) (hm s)

theorem fBinary_result (f : RMode → FVal → FVal → Exact) (hm : ∀ s, m (s.atInstr i) = m s)
    (h : LaneWord i d (fBinary d a b m f)) :
    FpResult i d (fun s l => finish fp32 (m s) s.cw.fz (f (m s) (s.f32 a.toNat l) (s.f32 b.toNat l))) :=
  LaneWord.result h fun s l =>
    congrArg (fun r => finish fp32 r s.cw.fz (f r (s.f32 a.toNat l) (s.f32 b.toNat l))) (hm s)

theorem fFused_result (hm : ∀ s, m (s.atInstr i) = m s) (h : LaneWord i d (fFused d a b m)) :
    FpResult i d (fun s l => finish fp32 (m s) s.cw.fz
      (fmaExact (m s) (s.f32 a.toNat l) (s.f32 b.toNat l) (s.f32 d.toNat l))) :=
  LaneWord.result h fun s l =>
    congrArg (fun r => finish fp32 r s.cw.fz (fmaExact r (s.f32 a.toNat l) (s.f32 b.toNat l) (s.f32 d.toNat l))) (hm s)

theorem fMinMax_result (isMax : Bool) (h : LaneWord i d (fMinMax isMax d a b)) :
    FpResult i d (fun s l => ⟨minMaxBits fp32 isMax (flushIn fp32 s.cw.fz (s.lane a.toNat l).toNat)
      (flushIn fp32 s.cw.fz (s.lane b.toNat l).toNat), 0, false⟩) :=
  LaneWord.result h fun _ _ => rfl

end

theorem fadd_word (d a b : BitVec 7) : LaneWord (.fadd d a b) d (fBinary d a b modeRm addExact) :=
  .dab (fun _ => rfl) rfl (.inl rfl) rfl rfl

theorem fdiv_word (d a b : BitVec 7) : LaneWord (.fdiv d a b) d (fBinary d a b modeRm (fun _ => divExact)) :=
  .dab (fun _ => rfl) rfl (.inl rfl) rfl rfl

theorem ffma_word (d a b : BitVec 7) : LaneWord (.ffma d a b) d (fFused d a b modeRm) :=
  .dab (fun _ => rfl) rfl (.inr rfl) rfl rfl

theorem fsqrt_word (d a : BitVec 7) : LaneWord (.fsqrt d a) d (fUnary d a modeRm sqrtExact) :=
  .dab (fun _ => rfl) rfl (.inl rfl) rfl rfl

/-- Settles O13: each instruction is its shape's meaning, with its exact function and its rounding mode. -/
theorem fp32ArithmeticRoundsAndNotesFlags : Obligations.Fp32ArithmeticRoundsAndNotesFlags := by
  unfold Obligations.Fp32ArithmeticRoundsAndNotesFlags
  intro d a b
  refine ⟨?fadd, ?faddRn, ?faddRz, ?fsub, ?fsubRn, ?fsubRz, ?fmul, ?fmulRn, ?fmulRz, ?fdiv, ?ffma, ?ffmaRn, ?ffmaRz,
    ?fmin, ?fmax, ?fsqrt, ?frcp, ?frsq, ?fexp2, ?flog2, ?fsin, ?fcos⟩
  case fadd => exact fBinary_result modeRm addExact (fun _ => rfl) (fadd_word d a b)
  case faddRn => exact fBinary_result modeRn addExact (fun _ => rfl) (.dab (fun _ => rfl) rfl (.inl rfl) rfl rfl)
  case faddRz => exact fBinary_result modeRz addExact (fun _ => rfl) (.dab (fun _ => rfl) rfl (.inl rfl) rfl rfl)
  case fsub => exact fBinary_result modeRm subExact (fun _ => rfl) (.dab (fun _ => rfl) rfl (.inl rfl) rfl rfl)
  case fsubRn => exact fBinary_result modeRn subExact (fun _ => rfl) (.dab (fun _ => rfl) rfl (.inl rfl) rfl rfl)
  case fsubRz => exact fBinary_result modeRz subExact (fun _ => rfl) (.dab (fun _ => rfl) rfl (.inl rfl) rfl rfl)
  case fmul => exact fBinary_result modeRm (fun _ => mulExact) (fun _ => rfl) (.dab (fun _ => rfl) rfl (.inl rfl) rfl rfl)
  case fmulRn => exact fBinary_result modeRn (fun _ => mulExact) (fun _ => rfl) (.dab (fun _ => rfl) rfl (.inl rfl) rfl rfl)
  case fmulRz => exact fBinary_result modeRz (fun _ => mulExact) (fun _ => rfl) (.dab (fun _ => rfl) rfl (.inl rfl) rfl rfl)
  case fdiv => exact fBinary_result modeRm (fun _ => divExact) (fun _ => rfl) (fdiv_word d a b)
  case ffma => exact fFused_result modeRm (fun _ => rfl) (ffma_word d a b)
  case ffmaRn => exact fFused_result modeRn (fun _ => rfl) (.dab (fun _ => rfl) rfl (.inr rfl) rfl rfl)
  case ffmaRz => exact fFused_result modeRz (fun _ => rfl) (.dab (fun _ => rfl) rfl (.inr rfl) rfl rfl)
  case fmin => exact fMinMax_result false (.dab (fun _ => rfl) rfl (.inl rfl) rfl rfl)
  case fmax => exact fMinMax_result true (.dab (fun _ => rfl) rfl (.inl rfl) rfl rfl)
  case fsqrt => exact fUnary_result modeRm sqrtExact (fun _ => rfl) (fsqrt_word d a)
  case frcp => exact fUnary_result modeRn rcpExact (fun _ => rfl) (.dab (fun _ => rfl) rfl (.inl rfl) rfl rfl)
  case frsq => exact fUnary_result modeRn rsqExact (fun _ => rfl) (.dab (fun _ => rfl) rfl (.inl rfl) rfl rfl)
  case fexp2 => exact fUnary_result modeRn exp2Exact (fun _ => rfl) (.dab (fun _ => rfl) rfl (.inl rfl) rfl rfl)
  case flog2 => exact fUnary_result modeRn log2Exact (fun _ => rfl) (.dab (fun _ => rfl) rfl (.inl rfl) rfl rfl)
  case fsin => exact fUnary_result modeRn (trigExact false) (fun _ => rfl) (.dab (fun _ => rfl) rfl (.inl rfl) rfl rfl)
  case fcos => exact fUnary_result modeRn (trigExact true) (fun _ => rfl) (.dab (fun _ => rfl) rfl (.inl rfl) rfl rfl)

end Sys2Proof.Machine
end

section
/-! Conversion (R132 to R135): between lanes, from lanes to pairs and from pairs to lanes. -/

namespace Sys2Proof.Machine
open Sys2Proof

section
variable {i : Instr} {d a : BitVec 7}

theorem cvtLanes_result (dst : CvtDst) (src : Nat → FVal) (h : LaneWord i d (cvtLanes d a dst src)) :
    FpResult i d (fun s l => convert s.cw.rmode dst (src (s.lane a.toNat l).toNat)) :=
  LaneWord.result h fun _ _ => rfl

theorem cvtWide_result (src : Nat → FVal)
    (h : PairWord i d (fpPairs d.toNat fun s l => convert s.cw.rmode (.fp fp64) (src (s.lane a.toNat l).toNat))) :
    FpPairResult i d (fun s l => convert s.cw.rmode (.fp fp64) (src (s.lane a.toNat l).toNat)) :=
  h.result fun _ _ => rfl

theorem cvtNarrow_result (dst : CvtDst)
    (h : LaneWord i d (fpLanes d.toNat fun s l => convert s.cw.rmode dst (decodeF fp64 (s.lane64 a.toNat l).toNat))) :
    FpResult i d (fun s l => convert s.cw.rmode dst (decodeF fp64 (s.lane64 a.toNat l).toNat)) :=
  h.result fun _ _ => rfl

end

theorem fcvtF16F32_word (d a : BitVec 7) : LaneWord (.fcvtF16F32 d a) d (cvtLanes d a (.fp fp16) (Elem.decode .fp32)) :=
  .dab (fun _ => rfl) rfl (.inl rfl) rfl rfl

theorem fcvtIntF32_word (d a : BitVec 7) : LaneWord (.fcvtIntF32 d a) d (cvtLanes d a .int (Elem.decode .fp32)) :=
  .dab (fun _ => rfl) rfl (.inl rfl) rfl rfl

/-- Settles O15: each FCVT is its shape's meaning, with its source's values and its destination. -/
theorem conversionsConvertEachLane : Obligations.ConversionsConvertEachLane := by
  unfold Obligations.ConversionsConvertEachLane
  intro d a
  refine ⟨?f32F16, ?f32Bf16, ?f16F32, ?bf16F32, ?f32E4m3, ?f32E5m2, ?e4m3F32Sat, ?e4m3F32, ?e5m2F32Sat, ?e5m2F32,
    ?f32T8, ?t8F32, ?f32T6, ?t6F32, ?f32E2m1, ?e2m1F32, ?f32Int, ?f32Uint, ?intF32, ?uintF32, ?f64F32, ?f64Int,
    ?f32F64, ?intF64⟩
  case f32F16 => exact cvtLanes_result (.fp fp32) (Elem.decode .fp16) (.dab (fun _ => rfl) rfl (.inl rfl) rfl rfl)
  case f32Bf16 => exact cvtLanes_result (.fp fp32) (Elem.decode .bf16) (.dab (fun _ => rfl) rfl (.inl rfl) rfl rfl)
  case f16F32 => exact cvtLanes_result (.fp fp16) (Elem.decode .fp32) (fcvtF16F32_word d a)
  case bf16F32 => exact cvtLanes_result (.fp bf16) (Elem.decode .fp32) (.dab (fun _ => rfl) rfl (.inl rfl) rfl rfl)
  case f32E4m3 => exact cvtLanes_result (.fp fp32) (Elem.decode .e4m3) (.dab (fun _ => rfl) rfl (.inl rfl) rfl rfl)
  case f32E5m2 => exact cvtLanes_result (.fp fp32) (Elem.decode .e5m2) (.dab (fun _ => rfl) rfl (.inl rfl) rfl rfl)
  case e4m3F32Sat => exact cvtLanes_result (.e4m3 true) (Elem.decode .fp32) (.dab (fun _ => rfl) rfl (.inl rfl) rfl rfl)
  case e4m3F32 => exact cvtLanes_result (.e4m3 false) (Elem.decode .fp32) (.dab (fun _ => rfl) rfl (.inl rfl) rfl rfl)
  case e5m2F32Sat => exact cvtLanes_result (.e5m2 true) (Elem.decode .fp32) (.dab (fun _ => rfl) rfl (.inl rfl) rfl rfl)
  case e5m2F32 => exact cvtLanes_result (.e5m2 false) (Elem.decode .fp32) (.dab (fun _ => rfl) rfl (.inl rfl) rfl rfl)
  case f32T8 => exact cvtLanes_result (.fp fp32) (Elem.decode .t8) (.dab (fun _ => rfl) rfl (.inl rfl) rfl rfl)
  case t8F32 => exact cvtLanes_result .t8 (Elem.decode .fp32) (.dab (fun _ => rfl) rfl (.inl rfl) rfl rfl)
  case f32T6 => exact cvtLanes_result (.fp fp32) (Elem.decode .t6) (.dab (fun _ => rfl) rfl (.inl rfl) rfl rfl)
  case t6F32 => exact cvtLanes_result .t6 (Elem.decode .fp32) (.dab (fun _ => rfl) rfl (.inl rfl) rfl rfl)
  case f32E2m1 => exact cvtLanes_result (.fp fp32) (Elem.decode .e2m1) (.dab (fun _ => rfl) rfl (.inl rfl) rfl rfl)
  case e2m1F32 => exact cvtLanes_result .e2m1 (Elem.decode .fp32) (.dab (fun _ => rfl) rfl (.inl rfl) rfl rfl)
  case f32Int => exact cvtLanes_result (.fp fp32) (fun x => intVal (sext 32 x)) (.dab (fun _ => rfl) rfl (.inl rfl) rfl rfl)
  case f32Uint => exact cvtLanes_result (.fp fp32) (fun x => intVal x) (.dab (fun _ => rfl) rfl (.inl rfl) rfl rfl)
  case intF32 => exact cvtLanes_result .int (Elem.decode .fp32) (fcvtIntF32_word d a)
  case uintF32 => exact cvtLanes_result .uint (Elem.decode .fp32) (.dab (fun _ => rfl) rfl (.inl rfl) rfl rfl)
  case f64F32 => exact cvtWide_result (Elem.decode .fp32) (.dab (fun _ => rfl) rfl (.inl rfl) rfl rfl)
  case f64Int => exact cvtWide_result (fun x => intVal (sext 32 x)) (.dab (fun _ => rfl) rfl (.inl rfl) rfl rfl)
  case f32F64 => exact cvtNarrow_result (.fp fp32) (.dab (fun _ => rfl) rfl (.inl rfl) rfl rfl)
  case intF64 => exact cvtNarrow_result .int (.dab (fun _ => rfl) rfl (.inl rfl) rfl rfl)

end Sys2Proof.Machine
end

section
/-! Enabled flags (R126, R131): the meanings that are not lanes in the shell of R362, and one instruction of each shape. -/

namespace Sys2Proof.Machine
open Sys2Proof

/-- What XRED.add.f32 gives (R311, R405). -/
def reduceSum (s : State) (a : BitVec 7) : Partial :=
  if s.cw.det then treeSum 5 (partials s a)
  else anySum (s.draw 0) 32 ((partials s a).filter (fun p => p.isSome))

/-- What XSCAN.add.f32 gives lane l (R311, R406). -/
def scanSum (s : State) (a : BitVec 7) (l : Nat) : Partial :=
  if s.cw.det then scanBlocks (partials s a) (l + 1) 6 0 none
  else anySum (s.draw (1000 + 64 * l)) 32 (((partials s a).take (l + 1)).filter (fun p => p.isSome))

/-- A reduction notes the flags of the additions of its one sum. -/
theorem reduceAddF32_eq (s : State) (d a : BitVec 7) : reduceAddF32 d a s =
    s.withFlags (partialFlags (reduceSum s a)) (fun u => u.wrS d.toNat (BitVec.ofNat 64 (partialBits (reduceSum s a)))) := rfl

/-- A scan notes the flags of the sums of the lanes that take part. -/
theorem scanAddF32_eq (s : State) (d a : BitVec 7) : scanAddF32 d a s =
    s.withFlags (orFlags s.activeReal (fun l => partialFlags (scanSum s a l))) (fun u =>
      u.wrLanes d.toNat u.activeReal
        (fun l => BitVec.ofNat 32 (partialBits (nth ((List.range 32).map (scanSum s a)) l none)))) := by
  have hflags : orFlags s.activeReal (fun l => partialFlags (nth ((List.range 32).map (scanSum s a)) l none)) =
      orFlags s.activeReal (fun l => partialFlags (scanSum s a l)) :=
    orFlags_congr _ _ _ fun l hl _ => congrArg partialFlags (nth_map_range _ _ l hl)
  rw [← hflags]
  rfl

section
variable {i : Instr} {info : OpInfo} {d a : BitVec 7}

theorem fpCompare_traps {n : Nat} {c : Cmp} {x y : State → Nat → FVal} (hr : Runs i info (fpCompare n c x y))
    (hx : ∀ s l, x (s.atInstr i) l = x s l) (hy : ∀ s l, y (s.atInstr i) l = y s l) :
    FpTraps i (fun s l => (cmpVal c (x s l) (y s l)).2) := by
  refine fp_raises hr fun s => ⟨fun u => u.wrMask n u.active fun l => (cmpVal c (x s l) (y s l)).1, ?_⟩
  unfold fpCompare
  simp only [hx, hy]
  rfl

theorem reduceAddF32_traps (hr : Runs i info (reduceAddF32 d a)) :
    FpRaises i (fun s => partialFlags (reduceSum s a)) :=
  fp_raises hr fun s => ⟨_, reduceAddF32_eq (s.atInstr i) d a⟩

theorem scanAddF32_traps (hr : Runs i info (scanAddF32 d a)) :
    FpTraps i (fun s l => partialFlags (scanSum s a l)) :=
  fp_raises hr fun s => ⟨_, scanAddF32_eq (s.atInstr i) d a⟩

end

/-- Settles O17: each instruction's flags are those of its lanes, or of the additions of its sums. -/
theorem enabledFlagsTakeFpx : Obligations.EnabledFlagsTakeFpx := by
  unfold Obligations.EnabledFlagsTakeFpx
  refine fun d a b => ⟨?fadd, ?ffma, ?fdiv, ?fsqrt, ?fcmp, ?cvtFp, ?cvtInt, ?packed, ?ddiv,
    ⟨?qddx, ?qddy⟩, ?reduction, ?scan⟩
  case fadd => exact LaneWord.traps (fadd_word d a b) fun _ _ => rfl
  case ffma => exact LaneWord.traps (ffma_word d a b) fun _ _ => rfl
  case fdiv => exact LaneWord.traps (fdiv_word d a b) fun _ _ => rfl
  case fsqrt => exact LaneWord.traps (fsqrt_word d a) fun _ _ => rfl
  case fcmp => exact fpCompare_traps (runs (fun _ => rfl) rfl rfl rfl) (fun _ _ => rfl) (fun _ _ => rfl)
  case cvtFp => exact LaneWord.traps (fcvtF16F32_word d a) fun _ _ => rfl
  case cvtInt => exact LaneWord.traps (fcvtIntF32_word d a) fun _ _ => rfl
  case packed => exact LaneWord.traps (.dab (fun _ => rfl) rfl (.inl rfl) rfl rfl) fun _ _ => rfl
  case ddiv => exact PairWord.traps (.dab (fun _ => rfl) rfl (.inl rfl) rfl rfl) fun _ _ => rfl
  case qddx => exact LaneWord.traps (.dab (fun _ => rfl) rfl (.inl rfl) rfl rfl) fun _ _ => rfl
  case qddy => exact LaneWord.traps (.dab (fun _ => rfl) rfl (.inl rfl) rfl rfl) fun _ _ => rfl
  case reduction => exact reduceAddF32_traps (runs (fun _ => rfl) rfl rfl rfl)
  case scan => exact scanAddF32_traps (runs (fun _ => rfl) rfl rfl rfl)

end Sys2Proof.Machine
end

section
/-! Reductions and scans over the active lanes that are not helpers (R402, R405 to R407). -/

namespace Sys2Proof.Machine
open Sys2Proof

section
variable {i : Instr} {info : OpInfo} {d a : BitVec 7}

/-- A reduction combines the values of the lanes that take part, from its identity on (R405). -/
theorem reduce_result (ident : Nat) (f : Nat → Nat → Nat) (hr : Runs i info (reduce d a ident f))
    (hdest : i.fields.extractLsb' 14 7 = d) (hinfo : info.fmt ≠ .B ∧ (info.d = .sdst ∨ info.d = .sboth)) :
    ScalarResult i d (fun s => BitVec.ofNat 64
      ((lanesOf s.activeReal).foldl (fun acc l => f acc (s.lane a.toNat l).toNat) ident)) :=
  Laws.scalar_of_body hr hdest hinfo fun s =>
    Laws.wrS_congr _ _ _ _ (congrArg (BitVec.ofNat 64) (Laws.fold_lanes s a f ident (lanesOf s.activeReal)))

/-- The minimum or maximum starts from the lowest lane's value, without a NaN's payload; with no lane it is the canonical
NaN (R405). -/
theorem reduceMinMax_result (isMax : Bool) (hr : Runs i info (reduceMinMax isMax d a))
    (hdest : i.fields.extractLsb' 14 7 = d) (hinfo : info.fmt ≠ .B ∧ (info.d = .sdst ∨ info.d = .sboth)) :
    ScalarResult i d (fun s => BitVec.ofNat 64 (match lanesOf s.activeReal with
      | [] => canonNan fp32
      | k :: r => r.foldl (fun acc l => minMaxBits fp32 isMax acc (s.lane a.toNat l).toNat)
        (canonF32 (s.lane a.toNat k).toNat))) := by
  refine Laws.scalar_of_body hr hdest hinfo fun s => Laws.wrS_congr _ _ _ _ (congrArg (BitVec.ofNat 64) ?_)
  change (match (lanesOf s.activeReal).map (fun l => (l, (s.lane a.toNat l).toNat)) with
    | [] => canonNan fp32
    | p :: r => r.foldl (fun acc (q : Nat × Nat) => minMaxBits fp32 isMax acc q.2) (canonF32 p.2)) = _
  cases lanesOf s.activeReal with
  | nil => rfl
  | cons k r => exact Laws.fold_lanes s a (minMaxBits fp32 isMax) (canonF32 (s.lane a.toNat k).toNat) r

/-- The sum of the lanes that take part, up to lane l. -/
theorem taking_upto_sum (s : State) (a : BitVec 7) (l : Nat) :
    ((taking s a).filter (fun p => p.1 ≤ l)).foldl (fun acc p => acc + p.2) 0 =
      ((lanesOf s.activeReal).filter (fun k => k ≤ l)).foldl (fun acc k => acc + (s.lane a.toNat k).toNat) 0 := by
  unfold taking
  rw [List.filter_map, List.foldl_map]
  rfl

/-- Each lane that takes part takes the sum of those up to itself (R406). -/
theorem scanAddInt_result (hr : Runs i info (scanAddInt d a)) (hdest : i.fields.extractLsb' 14 7 = d)
    (hdst : info.d = .vdst 1) : LanesResult i d State.activeReal (fun s l =>
      BitVec.ofNat 32 (((lanesOf s.activeReal).filter (fun k => k ≤ l)).foldl
        (fun acc k => acc + (s.lane a.toNat k).toNat) 0)) := by
  have hname : ∀ s, ready i s = true → s.vname d.toNat = true := fun s h =>
    ready_vdst hr.info h 1 (.inl hdst) hdest 0 Nat.one_pos (by omega)
  refine lanesResult hr hname activeReal_not fun s _ => ?_
  unfold scanAddInt
  simp only [taking_upto_sum]
  rfl

end

/-- Settles O21: the reductions and the scan fold over the lanes that take part, XMAXI gives them the one winner. -/
theorem reductionsAndScans : Obligations.ReductionsAndScans := by
  unfold Obligations.ReductionsAndScans
  refine fun d a b => ⟨?sum, ?and, ?or, ?min, ?max, ?scan, ?maxF16, ?maxF32⟩
  case sum =>
    exact reduce_result 0 (fun x y => (x + y) % 2 ^ 32) (runs (fun _ => rfl) rfl rfl rfl)
      (dField d a 0) ⟨by decide, .inl rfl⟩
  case and =>
    exact reduce_result 0xFFFFFFFF (fun x y => x &&& y) (runs (fun _ => rfl) rfl rfl rfl)
      (dField d a 0) ⟨by decide, .inl rfl⟩
  case or => exact reduce_result 0 (fun x y => x ||| y) (runs (fun _ => rfl) rfl rfl rfl) (dField d a 0) ⟨by decide, .inl rfl⟩
  case min => exact reduceMinMax_result false (runs (fun _ => rfl) rfl rfl rfl) (dField d a 0) ⟨by decide, .inl rfl⟩
  case max => exact reduceMinMax_result true (runs (fun _ => rfl) rfl rfl rfl) (dField d a 0) ⟨by decide, .inl rfl⟩
  case scan => exact scanAddInt_result (runs (fun _ => rfl) rfl rfl rfl) (dField d a 0) rfl
  case maxF16 => exact Laws.xmaxi_ok (runs (fun _ => rfl) rfl rfl rfl) (dField d a b) rfl
  case maxF32 => exact Laws.xmaxi_ok (runs (fun _ => rfl) rfl rfl rfl) (dField d a b) rfl

end Sys2Proof.Machine
end

section
/-! The state right after reset (R335). -/

namespace Sys2Proof.Machine
open Sys2Proof

/-- A die of the package right after reset differs from the others in its endpoint only. -/
theorem reset_die {d : Nat} (h : d < 4) :
    State.reset.die d = { Die.reset with endpoint := BitVec.ofNat 128 d } := by
  interval_cases d <;> rfl

/-- Settles O5: memory and tags hold no entry, and each die is a reset die with its own endpoint. -/
theorem resetState : Obligations.ResetState := by
  unfold Obligations.ResetState
  refine ⟨⟨fun _ => rfl, fun _ => rfl, fun _ => rfl, rfl, rfl, rfl, rfl, rfl, rfl, fun d hd => ?_⟩, by decide, rfl⟩
  have hdie := reset_die hd
  refine ⟨by simp [State.calPhase, State.reset], ?_⟩
  unfold State.ingotRead
  rw [hdie]
  exact ⟨rfl, rfl, rfl, fun _ => rfl, fun _ => rfl, rfl, rfl⟩

end Sys2Proof.Machine
end

section
/-! What a kill leaves of warps, blocks, engine operations and queues (R281, R301, R304). -/

namespace Sys2Proof.Machine
open Sys2Proof

/-- Reading an association list whose values are changed key by key. -/
theorem alGet_mapKeyed {α : Type} (l : List (Nat × α)) (g : Nat × α → Nat × α) (hg : ∀ p, (g p).1 = p.1) (k : Nat) :
    alGet (l.map g) k = (alGet l k).map (fun x => (g (k, x)).2) := by
  induction l with
  | nil => rfl
  | cons p r ih =>
    obtain ⟨j, x⟩ := p
    have hj : (g (j, x)).1 = j := hg (j, x)
    simp only [List.map_cons, alGet, hj, ih]
    by_cases h : j = k
    · subst h
      simp
    · simp [h]

theorem nth_map {α β : Type} (f : α → β) (l : List α) (n : Nat) (d : α) : nth (l.map f) n (f d) = f (nth l n d) := by
  unfold nth
  rw [List.getElem?_map]
  cases l[n]? <;> rfl

/-! Strands and warps at a request to stop. -/

theorem Strand.halt_mustEnd (t : Strand) : t.halt.mustEnd = t.mustEnd := by
  unfold Strand.halt
  split
  · rfl
  · next h =>
    have ht : t.mustEnd = false := by simpa using h
    rw [ht]
    unfold Strand.mustEnd at ht
    rw [Bool.or_eq_false_iff] at ht
    obtain ⟨hwait, -⟩ := ht
    have hgone : ∀ u : Strand, u.wait = none → u.flight = [] → u.mustEnd = false := fun u h1 h2 => by
      unfold Strand.mustEnd
      rw [h1, h2]
      rfl
    dsimp only
    cases hw : t.wait with
    | none => exact hgone _ rfl rfl
    | some v =>
      dsimp only
      split
      · rw [hw] at hwait
        unfold Strand.mustEnd
        dsimp only
        rw [hwait]
        rfl
      · split
        · exact hgone _ rfl rfl
        · split
          · exact hgone _ rfl rfl
          · split <;> exact hgone _ rfl rfl

/-- No strand of a list of entries holds an instruction that must complete (R300). -/
def Calm (l : List (Option Strand)) : Prop := ∀ t, some t ∈ l → t.mustEnd = false

theorem Calm.set {l : List (Option Strand)} (h : Calm l) (n : Nat) {u : Option Strand}
    (hu : ∀ t, u = some t → t.mustEnd = false) : Calm (l.set n u) := fun t ht => by
  obtain h1 | h2 := List.mem_or_eq_of_mem_set ht
  · exact h t h1
  · exact hu t h2.symm

theorem Warp.mustEnd_false (x : Warp) : x.mustEnd = false ↔
    Calm x.strands ∧ ∀ h ∈ x.handlers, h.strand.mustEnd = false := by
  unfold Warp.mustEnd Calm
  rw [Bool.or_eq_false_iff, List.any_eq_false, List.any_eq_false]
  refine and_congr ⟨fun h t ht => ?_, fun h t ht => ?_⟩ ⟨fun h t ht => ?_, fun h t ht => ?_⟩
  · simpa using h _ ht
  · cases t with
    | none => simp
    | some t => simp [h t ht]
  · simpa using h t ht
  · simp [h t ht]

/-- What a restart changes of a warp: the strands of its entries. -/
structure Restarted (x y : Warp) : Prop where
  phase : y.phase = x.phase
  handlers : y.handlers = x.handlers
  calm : Calm x.strands → Calm y.strands

theorem Restarted.same (x : Warp) : Restarted x x := ⟨rfl, rfl, id⟩
theorem Restarted.trans {x y z : Warp} (h : Restarted x y) (k : Restarted y z) : Restarted x z :=
  ⟨k.phase.trans h.phase, k.handlers.trans h.handlers, k.calm ∘ h.calm⟩
theorem Restarted.setStrand (x : Warp) (e : Nat) {u : Option Strand} (hu : ∀ t, u = some t → t.mustEnd = false) :
    Restarted x (x.setStrand e u) := ⟨rfl, rfl, fun h => h.set e hu⟩
theorem Restarted.clear (x : Warp) (es : List Nat) : Restarted x (es.foldl (fun y f => y.setStrand f none) x) := by
  induction es generalizing x with
  | nil => exact Restarted.same x
  | cons e es ih => exact (Restarted.setStrand x e fun _ h => by cases h).trans (ih _)

theorem restartEntry_restarted (x : Warp) (acc : Warp × Nat) (e : Nat) : Restarted acc.1 (x.restartEntry acc e).1 := by
  obtain ⟨y, n⟩ := acc
  unfold Warp.restartEntry
  dsimp only
  split
  · exact Restarted.same y
  · next t _ =>
    split
    · exact Restarted.same y
    · next r _ =>
      split
      · exact Restarted.same y
      · split
        · exact Restarted.setStrand y e fun u hu => by cases hu; rfl
        · split
          · exact Restarted.same y
          · exact (Restarted.clear y _).trans (Restarted.setStrand _ _ fun u hu => by cases hu; rfl)

theorem restart_restarted (x : Warp) : Restarted x x.restart := by
  have hfold : ∀ (es : List Nat) (acc : Warp × Nat), Restarted acc.1 (es.foldl x.restartEntry acc).1 := by
    intro es
    induction es with
    | nil => exact fun acc => Restarted.same acc.1
    | cons e es ih => exact fun acc => (restartEntry_restarted x acc e).trans (ih _)
  unfold Warp.restart
  split
  · exact Restarted.same x
  · obtain ⟨hphase, hhandlers, hcalm⟩ := hfold [0, 1, 2, 3] (x, 0)
    exact ⟨hphase, hhandlers, hcalm⟩

theorem Warp.halted_phase (x : Warp) : x.halted.phase = x.phase := (restart_restarted _).phase

theorem Warp.halted_mustEnd {x : Warp} (h : x.mustEnd = false) : x.halted.mustEnd = false := by
  obtain ⟨hstrands, hhandlers⟩ := x.mustEnd_false.mp h
  have hr := restart_restarted { x with
    strands := x.strands.map (fun (t : Option Strand) => t.map Strand.halt),
    handlers := x.handlers.map (fun (h : Handler) => { h with strand := h.strand.halt }) }
  refine Warp.mustEnd_false _ |>.mpr ⟨hr.calm fun t ht => ?_, fun k hk => ?_⟩
  · obtain ⟨u, hu, he⟩ := List.mem_map.mp ht
    cases u with
    | none => cases he
    | some u =>
      cases he
      rw [Strand.halt_mustEnd]
      exact hstrands u hu
  · rw [show x.halted.handlers = _ from hr.handlers] at hk
    obtain ⟨j, hj, rfl⟩ := List.mem_map.mp hk
    exact (Strand.halt_mustEnd _).trans (hhandlers j hj)

end Sys2Proof.Machine
end

section
/-! A kill of a launch, and of the launches of a context (R281, R304, R330). -/

namespace Sys2Proof.Machine
open Sys2Proof

/-- What accesses of memory leave of what a kill is about: warps, blocks, engine operations, queues. -/
structure Spared (s t : State) : Prop where
  warps : t.warps = s.warps
  blocks : t.blocks = s.blocks
  queue : ∀ c q, (t.core c).queue q = (s.core c).queue q
  queues : ∀ d, (t.die d).queues = (s.die d).queues

theorem Spared.same (s : State) : Spared s s := ⟨rfl, rfl, fun _ _ => rfl, fun _ => rfl⟩
theorem Spared.trans {s t u : State} (h : Spared s t) (k : Spared t u) : Spared s u :=
  ⟨k.warps.trans h.warps, k.blocks.trans h.blocks, fun c q => (k.queue c q).trans (h.queue c q),
    fun d => (k.queues d).trans (h.queues d)⟩

theorem Spared.foldl {α : Type} {f : State → α → State} (hf : ∀ s a, Spared s (f s a)) (l : List α) (s : State) :
    Spared s (l.foldl f s) := by
  induction l generalizing s with
  | nil => exact Spared.same s
  | cons a l ih => exact (hf s a).trans (ih _)

/-- What stores of the fabric and messages leave: the list of cores has the same copy queues besides. -/
structure Stored (s t : State) : Prop extends Spared s t where
  copies : t.cores.map (fun c => c.2.cq) = s.cores.map (fun c => c.2.cq)

theorem Stored.same (s : State) : Stored s s := ⟨Spared.same s, rfl⟩
theorem Stored.trans {s t u : State} (h : Stored s t) (k : Stored t u) : Stored s u :=
  ⟨h.toSpared.trans k.toSpared, k.copies.trans h.copies⟩

theorem Stored.fields {s t : State} (hw : t.warps = s.warps) (hb : t.blocks = s.blocks) (hc : t.cores = s.cores)
    (hd : ∀ d, (t.die d).queues = (s.die d).queues) : Stored s t :=
  ⟨⟨hw, hb, fun c q => by unfold State.core; rw [hc], hd⟩, by rw [hc]⟩

theorem Stored.foldl {α : Type} {f : State → α → State} (hf : ∀ s a, Stored s (f s a)) (l : List α) (s : State) :
    Stored s (l.foldl f s) := by
  induction l generalizing s with
  | nil => exact Stored.same s
  | cons a l ih => exact (hf s a).trans (ih _)

theorem State.die_setDie (s : State) (d c : Nat) (x : Die) :
    (s.setDie d x).die c = if c = d ∧ d < s.dies.length then x else s.die c := nth_set s.dies d c x Die.reset

theorem Stored.setDie (s : State) (d : Nat) {x : Die} (h : x.queues = (s.die d).queues) : Stored s (s.setDie d x) :=
  Stored.fields rfl rfl rfl fun c => by
    rw [State.die_setDie]
    split
    · next hc => rw [h, hc.1]
    · rfl

theorem physWriteKey_cores (s : State) (k pa : Nat) (bs : List Byte) : (s.physWriteKey k pa bs).cores = s.cores := by
  unfold State.physWriteKey State.physWrite
  split
  · dsimp only
    split
    · split <;> rfl
    · rfl
  · rfl

theorem Stored.physWriteKey (s : State) (k pa : Nat) (bs : List Byte) : Stored s (s.physWriteKey k pa bs) := by
  have h := physWriteKey_aside s k pa bs
  obtain ⟨hblocks, hdies, -⟩ := Laws.aside_fields h
  exact Stored.fields (Apart.aside h).warps hblocks (physWriteKey_cores ..) fun d => congrArg Die.queues (Laws.die_of_dies hdies d)

theorem Stored.touch (s : State) {w : Who} (hf : w.fab = true) (va : Nat) (t : Trans) (b : Bool) : Stored s (s.touch w va t b) := by
  unfold State.touch
  cases t.entry with
  | none => exact Stored.same s
  | some e =>
    simp only [hf, if_true]
    refine Stored.trans ?_ (Stored.setDie _ _ rfl)
    split
    · exact Stored.same s
    · exact Stored.physWriteKey ..

theorem Stored.homeWrite (s : State) {w : Who} (hf : w.fab = true) (va : Nat) (bs : List Byte) (t : Trans) :
    Stored s (s.homeWrite w va bs t) := by
  unfold State.homeWrite
  simp only [hf, if_true]
  exact (Stored.touch s hf va t true).trans (Stored.physWriteKey ..)

theorem Stored.putRun (s : State) {w : Who} (hf : w.fab = true) (r : List (Nat × List Byte × Trans)) : Stored s (s.putRun w r) := by
  induction r generalizing s with
  | nil => exact Stored.same s
  | cons p r ih => exact (Stored.homeWrite s hf ..).trans (ih _)

theorem Stored.markAsks (s : State) {w : Who} (hf : w.fab = true) (q : List HostAsk) : Stored s (s.markAsks w q) := by
  refine Stored.foldl (fun s a => ?_) q s
  split
  · exact Stored.same s
  · split
    · exact Stored.touch s hf ..
    · exact Stored.same s

theorem Stored.route (s : State) (p : BitVec 128) (m : Msg) : Stored s (s.route p m) := by
  unfold State.route
  split <;> exact Stored.fields rfl rfl rfl fun _ => rfl

theorem Stored.send (s : State) (d : Nat) (p : BitVec 128) (m : Msg) : Stored s (s.send d p m).2 :=
  (Stored.setDie s d (x := (s.die d).setTx _) rfl).trans (Stored.route ..)

theorem Stored.sendAsks (d c : Nat) (q : List HostAsk) (s : State) : Stored s (s.sendAsks d c q).2 := by
  induction q generalizing s with
  | nil => exact Stored.same s
  | cons a q ih =>
    refine Stored.trans ?_ (ih (s.sendAsk d c a).2)
    unfold State.sendAsk
    dsimp only
    split <;> exact Stored.send ..

/-! Stores of a launch's status (R281). -/

/-- What a store for launch k leaves: what a kill is about, the other launches, and of its own all but messages. -/
structure LaunchStored (k : Nat) (s t : State) : Prop where
  stored : Stored s t
  others : ∀ l, l ≠ k → t.launches[l]? = s.launches[l]?
  own : ∀ x, s.launches[k]? = some x → ∃ q r, t.launches[k]? = some { x with reqs := q, resp := r }

theorem LaunchStored.of_launches {k : Nat} {s t : State} (h : Stored s t) (hl : t.launches = s.launches) : LaunchStored k s t :=
  ⟨h, fun _ _ => by rw [hl], fun x hx => ⟨x.reqs, x.resp, by rw [hl]; exact hx⟩⟩

theorem LaunchStored.setLaunch {k : Nat} {s t : State} (h : Stored s t) (hl : t.launches = s.launches) {x : Launch}
    (hx : s.launches[k]? = some x) (q : List HostReq) (r : List HostResp) :
    LaunchStored k s (t.setLaunch k { x with reqs := q, resp := r }) := by
  obtain ⟨hk, -⟩ := List.getElem?_eq_some_iff.mp hx
  refine ⟨h.trans (Stored.fields rfl rfl rfl fun _ => rfl), fun l hne => ?_, fun y hy => ⟨q, r, ?_⟩⟩
  · unfold State.setLaunch
    dsimp only
    rw [List.getElem?_set_ne (Ne.symm hne), hl]
  · rw [hx] at hy
    cases hy
    unfold State.setLaunch
    dsimp only
    rw [hl, List.getElem?_set_self hk]

theorem launchWrite_stored (s : State) (k a v : Nat) : LaunchStored k s (s.launchWrite k a v) := by
  unfold State.launchWrite
  split
  · exact LaunchStored.of_launches (Stored.same s) rfl
  · next x hx =>
    dsimp only
    split
    · exact LaunchStored.of_launches (Stored.setDie _ _ rfl) rfl
    · refine LaunchStored.setLaunch (((Stored.putRun s rfl _).trans (Stored.markAsks _ rfl _)).trans (Stored.sendAsks ..)) ?_ hx _ _
      exact (sendAsks_launches ..).trans ((markAsks_launches ..).trans (putRun_launches ..))

theorem putStatus_stored (s : State) (k c : Nat) : Stored s (s.putStatus k c) ∧
    (∀ l, l ≠ k → (s.putStatus k c).launches[l]? = s.launches[l]?) ∧
    ∀ x, s.launches[k]? = some x → ∃ y, (s.putStatus k c).launches[k]? = some y ∧ y.phase = x.phase ∧ y.status = c := by
  unfold State.putStatus
  split
  · next hx => exact ⟨Stored.same s, fun _ _ => rfl, fun x h => by rw [hx] at h; cases h⟩
  · next x hx =>
    obtain ⟨hk, -⟩ := List.getElem?_eq_some_iff.mp hx
    have hset : (s.setLaunch k { x with status := c }).launches[k]? = some { x with status := c } := List.getElem?_set_self hk
    have hother : ∀ l, l ≠ k → (s.setLaunch k { x with status := c }).launches[l]? = s.launches[l]? :=
      fun l hl => List.getElem?_set_ne (Ne.symm hl)
    have hst : Stored s (s.setLaunch k { x with status := c }) := Stored.fields rfl rfl rfl fun _ => rfl
    dsimp only
    split
    · exact ⟨hst, hother, fun y hy => ⟨_, hset, by rw [hx] at hy; cases hy; exact ⟨rfl, rfl⟩⟩⟩
    · obtain ⟨hw, hl, hself⟩ := launchWrite_stored (s.setLaunch k { x with status := c }) k (recBytes x.record 120 8) c
      obtain ⟨q, r, hqr⟩ := hself _ hset
      exact ⟨hst.trans hw, fun l h => (hl l h).trans (hother l h), fun y hy =>
        ⟨_, hqr, by rw [hx] at hy; cases hy; exact ⟨rfl, rfl⟩⟩⟩

end Sys2Proof.Machine
end

section
/-! The blocks of a killed launch (R304). -/

namespace Sys2Proof.Machine
open Sys2Proof

/-- What kills of the blocks of p leave of the machine: warps that have left stay away, none comes to hold an instruction that
must complete, the other blocks are as they were, and no queue takes anything. -/
structure Fades (p : Nat → Prop) (s t : State) : Prop where
  warps : t.warps.length = s.warps.length
  gone : ∀ w, (s.warp w).phase = .gone → (t.warp w).phase = .gone
  calm : ∀ w, (s.warp w).mustEnd = false → (t.warp w).mustEnd = false
  length : t.blocks.length = s.blocks.length
  blocks : ∀ b, (t.block b).launch = (s.block b).launch ∧ (t.block b).warps = (s.block b).warps
  others : ∀ b, ¬ p b → t.block b = s.block b
  ops : ∀ c q, (t.core c).queue q ⊆ (s.core c).queue q
  copies : ∀ f : EngOp → Bool, s.cores.any (fun c => c.2.cq.flatten.any f) = false → t.cores.any (fun c => c.2.cq.flatten.any f) = false
  queues : ∀ d l, (∀ q ∈ (s.die d).queues, l ∉ q) → ∀ q ∈ (t.die d).queues, l ∉ q

section
variable {p : Nat → Prop} {s t u : State}

theorem Fades.same (s : State) : Fades p s s :=
  ⟨rfl, fun _ => id, fun _ => id, rfl, fun _ => ⟨rfl, rfl⟩, fun _ _ => rfl, fun _ _ => List.Subset.refl _, fun _ => id, fun _ _ => id⟩

theorem Fades.trans (h : Fades p s t) (k : Fades p t u) : Fades p s u where
  warps := k.warps.trans h.warps
  gone w hw := k.gone w (h.gone w hw)
  calm w hw := k.calm w (h.calm w hw)
  length := k.length.trans h.length
  blocks b := ⟨(k.blocks b).1.trans (h.blocks b).1, (k.blocks b).2.trans (h.blocks b).2⟩
  others b hb := (k.others b hb).trans (h.others b hb)
  ops c q := List.Subset.trans (k.ops c q) (h.ops c q)
  copies f hf := k.copies f (h.copies f hf)
  queues d l hq := k.queues d l (h.queues d l hq)

theorem Fades.mono {q : Nat → Prop} (h : Fades p s t) (hpq : ∀ b, p b → q b) : Fades q s t :=
  { h with others := fun b hb => h.others b fun hp => hb (hpq b hp) }

theorem Fades.foldl {α : Type} {f : State → α → State} (l : List α) (s : State) (hf : ∀ s, ∀ a ∈ l, Fades p s (f s a)) :
    Fades p s (l.foldl f s) := by
  induction l generalizing s with
  | nil => exact Fades.same s
  | cons a l ih => exact (hf s a (List.mem_cons_self ..)).trans (ih _ fun s b hb => hf s b (List.mem_cons_of_mem _ hb))

theorem Fades.stored (h : Stored s t) : Fades p s t where
  warps := by rw [h.warps]
  gone w hw := by unfold State.warp at hw ⊢; rw [h.warps]; exact hw
  calm w hw := by unfold State.warp at hw ⊢; rw [h.warps]; exact hw
  length := by rw [h.blocks]
  blocks b := by unfold State.block; rw [h.blocks]; exact ⟨rfl, rfl⟩
  others b _ := by unfold State.block; rw [h.blocks]
  ops c q := by rw [h.queue]; exact List.Subset.refl _
  copies f hf := by
    have hany : ∀ v : State, v.cores.any (fun c => c.2.cq.flatten.any f) = (v.cores.map (fun c => c.2.cq)).any (fun c => c.flatten.any f) :=
      fun v => by rw [List.any_map]; rfl
    rw [hany] at hf ⊢
    rw [h.copies]
    exact hf
  queues d l hq := by rw [h.queues]; exact hq

/-- A warp that is written as a kill writes it. -/
theorem Fades.setWarp (s : State) (w : Nat) (x : Warp) (hgone : (s.warp w).phase = .gone → x.phase = .gone)
    (hcalm : (s.warp w).mustEnd = false → x.mustEnd = false) : Fades p s (s.setWarp w x) := by
  refine { Fades.same s with warps := List.length_set .., gone := fun v hv => ?_, calm := fun v hv => ?_ } <;>
    rw [State.warp_setWarp] <;> split
  · next h => exact hgone (h.1 ▸ hv)
  · exact hv
  · next h => exact hcalm (h.1 ▸ hv)
  · exact hv

theorem Fades.setBlock (s : State) (b : Nat) (x : Block) (hb : p b) (hl : x.launch = (s.block b).launch)
    (hw : x.warps = (s.block b).warps) : Fades p s (s.setBlock b x) := by
  refine { Fades.same (p := p) s with length := List.length_set .., blocks := fun c => ?_, others := fun c hc => ?_ }
  · rw [Laws.setBlock_block]
    split
    · next h => rw [h.1]; exact ⟨hl, hw⟩
    · exact ⟨rfl, rfl⟩
  · rw [Laws.setBlock_block, if_neg]
    rintro ⟨rfl, -⟩
    exact hc hb

end

/-- A queue of a core without the operations for which f holds. -/
theorem dropOps_queue (s : State) (f : EngOp → Bool) (c q : Nat) :
    ((s.dropOps f).core c).queue q = ((s.core c).queue q).filter (fun o => !f o) := by
  have hcore : (s.dropOps f).core c = { s.core c with
      cq := (s.core c).cq.map (fun q => q.filter (fun o => !f o)), mq := (s.core c).mq.map (fun q => q.filter (fun o => !f o)) } := by
    unfold State.dropOps State.core
    dsimp only
    rw [alGet_mapKeyed]
    · cases alGet s.cores c <;> rfl
    · exact fun _ => rfl
  rw [hcore]
  unfold Core.queue
  split
  · exact nth_map (fun q : List EngOp => q.filter (fun o => !f o)) _ q []
  · exact nth_map (fun q : List EngOp => q.filter (fun o => !f o)) _ (q - 4) []

theorem Fades.dropOps {p : Nat → Prop} (s : State) (f : EngOp → Bool) : Fades p s (s.dropOps f) := by
  refine { Fades.same s with ops := fun c q => ?_, copies := fun g hg => ?_ }
  · rw [dropOps_queue]
    exact fun o ho => List.mem_of_mem_filter ho
  · unfold State.dropOps
    rw [List.any_map, List.any_eq_false] at *
    intro c hc hany
    refine hg c hc ?_
    rw [Function.comp, List.any_eq_true] at hany
    obtain ⟨o, ho, hgo⟩ := hany
    rw [List.any_eq_true]
    refine ⟨o, ?_, hgo⟩
    obtain ⟨q, hq, hoq⟩ := List.mem_flatten.mp ho
    obtain ⟨r, hr, rfl⟩ := List.mem_map.mp hq
    exact List.mem_flatten.mpr ⟨r, hr, List.mem_of_mem_filter hoq⟩

theorem dropWarp_fades {p : Nat → Prop} (s : State) (w : Nat) : Fades p s (s.dropWarp w) := by
  have hquarter : ∀ (u : State) q k, Fades p u (u.setQuarter q k) :=
    fun u q k => Fades.stored (Stored.fields rfl rfl rfl fun _ => rfl)
  unfold State.dropWarp
  dsimp only
  exact ((hquarter ..).trans (hquarter ..)).trans (Fades.setWarp _ w _ (fun _ => rfl) fun _ => rfl)

theorem dropWarp_gone {s : State} {w : Nat} (h : w < s.warps.length) : ((s.dropWarp w).warp w).phase = .gone := by
  unfold State.dropWarp
  dsimp only
  rw [State.warp_setWarp, if_pos ⟨rfl, h⟩]

theorem dropWarps_gone (ws : List Nat) {s : State} {w : Nat} (hw : w ∈ ws) (h : w < s.warps.length) :
    ((ws.foldl State.dropWarp s).warp w).phase = .gone := by
  induction ws generalizing s with
  | nil => cases hw
  | cons v ws ih =>
    have hstep := dropWarp_fades (p := fun _ => False) s v
    obtain rfl | hw := List.mem_cons.mp hw
    · exact (Fades.foldl (p := fun _ => False) ws _ fun s v _ => dropWarp_fades s v).gone w (dropWarp_gone h)
    · exact ih hw (by rw [hstep.warps]; exact h)

theorem Fades.endsLater {p : Nat → Prop} {s t : State} (h : Fades p s t) {b : Nat} (hb : ¬ p b) (hs : s.endsLater b = false) :
    t.endsLater b = false := by
  unfold State.endsLater at hs ⊢
  rw [h.others b hb]
  obtain hsaved | hrest := Bool.and_eq_false_iff.mp hs
  · rw [hsaved, Bool.false_and]
  · obtain ⟨hwarps, hcopies⟩ := Bool.or_eq_false_iff.mp hrest
    rw [h.copies _ hcopies, Bool.or_false, List.any_eq_false.mpr, Bool.and_false]
    intro w hw
    rw [Bool.not_eq_true]
    exact h.calm w (by simpa using List.any_eq_false.mp hwarps w hw)

/-- A block of a killed launch without the operations that need not complete, and with its strands stopped. -/
def State.stopBlock (s : State) (b : Nat) : State :=
  (s.block b).warps.foldl (fun s w => s.setWarp w (s.warp w).halted) (s.dropOps (fun o => o.blk = b && !o.completes))

theorem killBlock_eq (s : State) (b : Nat) : s.killBlock b =
    if (s.stopBlock b).endsLater b then (s.stopBlock b).setBlock b { (s.stopBlock b).block b with resid := .saving }
    else (s.stopBlock b).dropBlock b := rfl

theorem stopBlock_fades (s : State) (b : Nat) : Fades (fun _ => False) s (s.stopBlock b) :=
  (Fades.dropOps s _).trans (Fades.foldl _ _ fun s w _ =>
    Fades.setWarp s w _ (fun h => (Warp.halted_phase _).trans h) Warp.halted_mustEnd)

theorem dropBlock_fades (s : State) (b : Nat) : Fades (fun c => c = b) s (s.dropBlock b) :=
  (Fades.foldl _ s fun s w _ => dropWarp_fades s w).trans (Fades.setBlock _ b _ rfl rfl rfl)

theorem killBlock_fades (s : State) (b : Nat) : Fades (fun c => c = b) s (s.killBlock b) := by
  rw [killBlock_eq]
  refine ((stopBlock_fades s b).mono fun _ h => h.elim).trans ?_
  split
  · exact Fades.setBlock _ b _ rfl rfl rfl
  · exact dropBlock_fades ..

theorem stopBlock_ops (s : State) (b c q : Nat) : ∀ o ∈ ((s.stopBlock b).core c).queue q, o.blk = b → o.completes = true := by
  have hstop : Fades (fun _ => False) (s.dropOps (fun o => o.blk = b && !o.completes)) (s.stopBlock b) :=
    Fades.foldl _ _ fun s w _ => Fades.setWarp s w _ (fun h => (Warp.halted_phase _).trans h) Warp.halted_mustEnd
  intro o ho hb
  have hmem := hstop.ops c q ho
  rw [dropOps_queue] at hmem
  simpa [hb] using (List.mem_filter.mp hmem).2

/-- Of a killed block's operations only those that must complete stay (R304). -/
theorem killBlock_ops (s : State) (b c q : Nat) : ∀ o ∈ ((s.killBlock b).core c).queue q, o.blk = b → o.completes = true := by
  intro o ho
  refine stopBlock_ops s b c q o ?_
  rw [killBlock_eq] at ho
  split at ho
  · exact ho
  · exact (dropBlock_fades ..).ops c q ho

/-- A block without work that must complete has left its core, with its warps and accumulator rows (R145, R192, R304). -/
theorem killBlock_left {s : State} {b : Nat} (hb : b < s.blocks.length) (h : s.endsLater b = false) :
    ((s.killBlock b).block b).resid = .gone ∧ ((s.killBlock b).block b).acc = [] ∧
      ∀ w ∈ (s.block b).warps, w < s.warps.length → ((s.killBlock b).warp w).phase = .gone := by
  have hstop := stopBlock_fades s b
  have hdrop : Fades (fun _ => False) (s.stopBlock b) (((s.stopBlock b).block b).warps.foldl State.dropWarp (s.stopBlock b)) :=
    Fades.foldl _ _ fun s w _ => dropWarp_fades s w
  rw [killBlock_eq, hstop.endsLater not_false h, if_neg Bool.false_ne_true]
  unfold State.dropBlock
  dsimp only
  rw [Laws.setBlock_block, if_pos ⟨rfl, by rw [hdrop.length, hstop.length]; exact hb⟩]
  refine ⟨rfl, rfl, fun w hw hlen => ?_⟩
  exact dropWarps_gone _ (by rw [hstop.others b not_false]; exact hw) (by rw [hstop.warps]; exact hlen)

/-- A killed block has left its core, or stops until what must complete has completed (R304). -/
theorem killBlock_resid {s : State} {b : Nat} (hb : b < s.blocks.length) : ((s.killBlock b).block b).resid = .gone ∨
    (s.endsLater b = true ∧ ((s.killBlock b).block b).resid = .saving) := by
  cases h : s.endsLater b with
  | false => exact .inl (killBlock_left hb h).1
  | true =>
    rw [killBlock_eq]
    split
    · refine .inr ⟨rfl, ?_⟩
      rw [Laws.setBlock_block, if_pos ⟨rfl, by rw [(stopBlock_fades s b).length]; exact hb⟩]
    · refine .inl ?_
      have hlen : b < (((s.stopBlock b).block b).warps.foldl State.dropWarp (s.stopBlock b)).blocks.length := by
        rw [(Fades.foldl (p := fun _ => False) _ _ fun s w _ => dropWarp_fades s w).length, (stopBlock_fades s b).length]
        exact hb
      unfold State.dropBlock
      dsimp only
      rw [Laws.setBlock_block, if_pos ⟨rfl, hlen⟩]

end Sys2Proof.Machine
end

section
/-! Kills of launches, one after the other (R281, R304, R330). -/

namespace Sys2Proof.Machine
open Sys2Proof

/-- What a kill makes of one block of its launch (R304). -/
structure BlockKilled (s t : State) (b : Nat) : Prop where
  resid : (t.block b).resid = .gone ∨ (s.endsLater b = true ∧ (t.block b).resid = .saving)
  left : s.endsLater b = false → (t.block b).resid = .gone ∧ (t.block b).acc = [] ∧
    ∀ w ∈ (s.block b).warps, w < s.warps.length → (t.warp w).phase = .gone
  ops : ∀ c q, ∀ o ∈ (t.core c).queue q, o.blk = b → o.completes = true

section
variable {p : Nat → Prop} {s t u : State} {b : Nat}

theorem BlockKilled.after (h : BlockKilled s t b) (k : Fades p t u) (hb : ¬ p b) : BlockKilled s u b where
  resid := by rw [k.others b hb]; exact h.resid
  left he := by
    obtain ⟨hr, ha, hw⟩ := h.left he
    rw [k.others b hb]
    exact ⟨hr, ha, fun w hm hl => k.gone w (hw w hm hl)⟩
  ops c q o ho := h.ops c q o (k.ops c q ho)

theorem BlockKilled.before (k : Fades p s t) (hb : ¬ p b) (h : BlockKilled t u b) : BlockKilled s u b where
  resid := by
    refine h.resid.imp_right fun ⟨he, hr⟩ => ⟨?_, hr⟩
    by_contra hs
    rw [k.endsLater hb (by simpa using hs)] at he
    cases he
  left he := by
    obtain ⟨hr, ha, hw⟩ := h.left (k.endsLater hb he)
    exact ⟨hr, ha, fun w hm hl => hw w (by rw [k.others b hb]; exact hm) (by rw [k.warps]; exact hl)⟩
  ops := h.ops

end

theorem killBlocks_fades (bs : List Nat) (s : State) : Fades (· ∈ bs) s (bs.foldl State.killBlock s) :=
  Fades.foldl bs s fun s b hb => (killBlock_fades s b).mono fun _ h => h ▸ hb

theorem killBlocks_killed {bs : List Nat} (hbs : bs.Nodup) {s : State} (hlen : ∀ b ∈ bs, b < s.blocks.length) :
    ∀ b ∈ bs, BlockKilled s (bs.foldl State.killBlock s) b := by
  induction bs generalizing s with
  | nil => exact fun b hb => absurd hb List.not_mem_nil
  | cons a bs ih =>
    obtain ⟨ha, hnd⟩ := List.nodup_cons.mp hbs
    have hstep := killBlock_fades s a
    have hlenA := hlen a (List.mem_cons_self ..)
    intro b hb
    obtain rfl | hb := List.mem_cons.mp hb
    · exact BlockKilled.after ⟨killBlock_resid hlenA, killBlock_left hlenA, killBlock_ops s b⟩ (killBlocks_fades bs _) ha
    · refine BlockKilled.before hstep (fun h => ha (h ▸ hb)) (ih hnd (fun c hc => ?_) b hb)
      rw [hstep.length]
      exact hlen c (List.mem_cons_of_mem _ hc)

theorem mem_blocksOf {s : State} {l b : Nat} :
    b ∈ s.blocksOf l ↔ b < s.blocks.length ∧ (s.block b).launch = l ∧ (s.block b).resid ≠ .gone := by
  unfold State.blocksOf
  simp

/-! What a launch holds on its die. -/

theorem dropLaunch_queues (s : State) (l d : Nat) :
    ∀ q ∈ ((s.dropLaunch l).die d).queues, l ∉ q ∧ (q = [] ∨ ∃ r ∈ (s.die d).queues, q ⊆ r) := by
  unfold State.die nth State.dropLaunch
  dsimp only
  rw [List.getElem?_map]
  cases s.dies[d]? with
  | none =>
    intro q hq
    rw [List.eq_of_mem_replicate (show q ∈ List.replicate 64 [] from hq)]
    exact ⟨List.not_mem_nil, .inl rfl⟩
  | some x =>
    intro q hq
    obtain ⟨r, hr, rfl⟩ := List.mem_map.mp hq
    exact ⟨by simp, .inr ⟨r, hr, fun k hk => List.mem_of_mem_filter hk⟩⟩

theorem dropLaunch_fades {p : Nat → Prop} (s : State) (l : Nat) : Fades p s (s.dropLaunch l) := by
  refine { Fades.same (p := p) s with ops := fun c q => ?_, copies := fun f hf => ?_, queues := fun d k hq q hqm => ?_ }
  · have hqueue : ((s.dropLaunch l).core c).queue q = (s.core c).queue q := by
      unfold State.dropLaunch State.core
      dsimp only
      rw [alGet_mapKeyed]
      · cases alGet s.cores c <;> rfl
      · exact fun _ => rfl
    rw [hqueue]
    exact List.Subset.refl _
  · unfold State.dropLaunch
    rw [List.any_map]
    exact hf
  · obtain ⟨-, rfl | ⟨r, hr, hsub⟩⟩ := dropLaunch_queues s l d q hqm
    · exact List.not_mem_nil
    · exact fun hk => hq r hr (hsub hk)

/-! A kill of one launch. -/

/-- A killed launch before its status is written: its blocks stopped, what it holds on its die given up (R304). -/
def State.cutLaunch (s : State) (l : Nat) (x : Launch) : State :=
  (((s.blocksOf l).foldl State.killBlock s).dropLaunch l).setLaunch l { x with phase := .killed }

theorem killLaunch_live {s : State} {l : Nat} {x : Launch} (hx : s.launches[l]? = some x)
    (hl : x.phase = .queued ∨ x.phase = .running) : s.killLaunch l = (s.cutLaunch l x).killEnd l := by
  unfold State.killLaunch
  rw [hx]
  dsimp only
  rw [if_neg]
  · rfl
  · rcases hl with h | h <;> simp [h]

theorem killLaunch_ended {s : State} {l : Nat} (h : ∀ x, s.launches[l]? = some x → x.phase ≠ .queued ∧ x.phase ≠ .running) :
    s.killLaunch l = s := by
  unfold State.killLaunch
  split
  · rfl
  · next x hx => rw [if_pos (by simpa using h x hx)]

theorem cutLaunch_launches (s : State) (l : Nat) (x : Launch) :
    (s.cutLaunch l x).launches = s.launches.set l { x with phase := .killed } := by
  have hkeep : ((s.blocksOf l).foldl State.killBlock s).launches = s.launches := foldl_launches killBlock_launches _ s
  unfold State.cutLaunch State.setLaunch State.dropLaunch
  dsimp only
  rw [hkeep]

theorem cutLaunch_rest_fades {p : Nat → Prop} (u : State) (l : Nat) (x : Launch) :
    Fades p u ((u.dropLaunch l).setLaunch l { x with phase := .killed }) :=
  (dropLaunch_fades u l).trans (Fades.stored (Stored.fields rfl rfl rfl fun _ => rfl))

theorem cutLaunch_fades (s : State) (l : Nat) (x : Launch) : Fades (· ∈ s.blocksOf l) s (s.cutLaunch l x) :=
  (killBlocks_fades _ s).trans (cutLaunch_rest_fades ..)

theorem cutLaunch_blocks (s : State) (l : Nat) (x : Launch) : ∀ b ∈ s.blocksOf l, BlockKilled s (s.cutLaunch l x) b := by
  have hnd : (s.blocksOf l).Nodup := List.Nodup.filter _ List.nodup_range
  intro b hb
  exact (killBlocks_killed hnd (fun c hc => (mem_blocksOf.mp hc).1) b hb).after (p := fun _ => False)
    (cutLaunch_rest_fades ..) not_false

theorem killEnd_stored (s : State) (l : Nat) : Stored s (s.killEnd l) := by
  unfold State.killEnd
  split
  · exact (putStatus_stored s l 5).1
  · exact Stored.same s

theorem killLaunch_fades (s : State) (l : Nat) : Fades (· ∈ s.blocksOf l) s (s.killLaunch l) := by
  by_cases h : ∃ x, s.launches[l]? = some x ∧ (x.phase = .queued ∨ x.phase = .running)
  · obtain ⟨x, hx, hl⟩ := h
    rw [killLaunch_live hx hl]
    exact (cutLaunch_fades s l x).trans (Fades.stored (killEnd_stored ..))
  · rw [killLaunch_ended fun x hx => not_or.mp fun hl => h ⟨x, hx, hl⟩]
    exact Fades.same s

/-- A kill keeps every other launch. -/
theorem killLaunch_others (s : State) {l k : Nat} (hk : k ≠ l) : (s.killLaunch l).launches[k]? = s.launches[k]? := by
  by_cases h : ∃ x, s.launches[l]? = some x ∧ (x.phase = .queued ∨ x.phase = .running)
  · obtain ⟨x, hx, hl⟩ := h
    have hcut : (s.cutLaunch l x).launches[k]? = s.launches[k]? := by
      rw [cutLaunch_launches, List.getElem?_set_ne (Ne.symm hk)]
    rw [killLaunch_live hx hl]
    unfold State.killEnd
    split
    · exact ((putStatus_stored _ l 5).2.1 k hk).trans hcut
    · exact hcut
  · rw [killLaunch_ended fun x hx => not_or.mp fun hl => h ⟨x, hx, hl⟩]

/-- Where no block of a killed launch has work that must complete, all have left. -/
theorem cutLaunch_empty {s : State} {l : Nat} (x : Launch) (h : ∀ b ∈ s.blocksOf l, s.endsLater b = false) :
    (s.cutLaunch l x).blocksOf l = [] := by
  have hf := cutLaunch_fades s l x
  rw [List.eq_nil_iff_forall_not_mem]
  intro b hb
  obtain ⟨hlen, hlaunch, hresid⟩ := mem_blocksOf.mp hb
  by_cases hs : b ∈ s.blocksOf l
  · exact hresid ((cutLaunch_blocks s l x b hs).left (h b hs)).1
  · rw [hf.others b hs] at hlaunch hresid
    exact hs (mem_blocksOf.mpr ⟨by rw [← hf.length]; exact hlen, hlaunch, hresid⟩)

/-- A launch that is queued or running is killed (R281, R304). -/
theorem killLaunch_killed {s : State} {l : Nat} {x : Launch} (hx : s.launches[l]? = some x)
    (hl : x.phase = .queued ∨ x.phase = .running) : Killed s (s.killLaunch l) l := by
  have hend := killEnd_stored (s.cutLaunch l x) l
  have hblocks : ∀ b ∈ s.blocksOf l, BlockKilled s ((s.cutLaunch l x).killEnd l) b := fun b hb =>
    (cutLaunch_blocks s l x b hb).after (p := fun _ => False) (Fades.stored hend) not_false
  obtain ⟨hlen, -⟩ := List.getElem?_eq_some_iff.mp hx
  have hcut : (s.cutLaunch l x).launches[l]? = some { x with phase := .killed } := by
    rw [cutLaunch_launches, List.getElem?_set_self hlen]
  rw [killLaunch_live hx hl]
  refine ⟨?_, fun b hb => (hblocks b hb).resid, fun b hb he => ((hblocks b hb).left he).2, fun b hb => (hblocks b hb).ops,
    fun d q hq => ?_⟩
  · unfold State.killEnd
    split
    · obtain ⟨y, hy, hphase, hstatus⟩ := (putStatus_stored (s.cutLaunch l x) l 5).2.2 _ hcut
      exact ⟨y, hy, hphase, fun _ => hstatus⟩
    · next hne => exact ⟨_, hcut, rfl, fun h => absurd (cutLaunch_empty x h) hne⟩
  · rw [hend.queues] at hq
    exact (dropLaunch_queues _ l d q hq).1

/-! Kills of several launches. -/

/-- What comes after a kill keeps it, where it spares the launch and its blocks. -/
theorem Killed.after {p : Nat → Prop} {s t u : State} {l : Nat} (h : Killed s t l) (k : Fades p t u)
    (hp : ∀ b ∈ s.blocksOf l, ¬ p b) (hl : u.launches[l]? = t.launches[l]?) : Killed s u l where
  launch := by rw [hl]; exact h.launch
  blocks b hb := by rw [k.others b (hp b hb)]; exact h.blocks b hb
  left b hb he := by
    obtain ⟨ha, hw⟩ := h.left b hb he
    rw [k.others b (hp b hb)]
    exact ⟨ha, fun w hm hlen => k.gone w (hw w hm hlen)⟩
  ops b hb c q o ho := h.ops b hb c q o (k.ops c q ho)
  queues d := k.queues d l (h.queues d)

/-- What spares what a kill is about keeps the kill. -/
theorem Killed.spared {s t u : State} {l : Nat} (h : Killed s t l) (k : Spared t u) (hl : u.launches = t.launches) : Killed s u l := by
  have hblock : ∀ b, u.block b = t.block b := fun b => by unfold State.block; rw [k.blocks]
  have hwarp : ∀ w, u.warp w = t.warp w := fun w => by unfold State.warp; rw [k.warps]
  obtain ⟨hlaunch, hblocks, hleft, hops, hqueues⟩ := h
  refine ⟨by rw [hl]; exact hlaunch, fun b hb => by rw [hblock]; exact hblocks b hb, fun b hb he => ?_,
    fun b hb c q => by rw [k.queue]; exact hops b hb c q, fun d => by rw [k.queues]; exact hqueues d⟩
  obtain ⟨ha, hw⟩ := hleft b hb he
  exact ⟨by rw [hblock]; exact ha, fun w hm hlen => by rw [hwarp]; exact hw w hm hlen⟩

theorem Fades.blocksOf {p : Nat → Prop} {s t : State} {l : Nat} (k : Fades p s t) (hp : ∀ b, (s.block b).launch = l → ¬ p b) :
    t.blocksOf l = s.blocksOf l := by
  unfold State.blocksOf
  rw [k.length]
  refine List.filter_congr fun b _ => ?_
  rw [(k.blocks b).1]
  by_cases h : (s.block b).launch = l
  · rw [k.others b (hp b h)]
  · simp [h]

/-- A kill after what spares the launch and its blocks is one of the state before. -/
theorem Killed.before {p : Nat → Prop} {s t u : State} {l : Nat} (k : Fades p s t) (hp : ∀ b, (s.block b).launch = l → ¬ p b)
    (h : Killed t u l) : Killed s u l := by
  have hbs := k.blocksOf hp
  have hne : ∀ b ∈ s.blocksOf l, ¬ p b := fun b hb => hp b (mem_blocksOf.mp hb).2.1
  have hkill : ∀ b ∈ s.blocksOf l, (u.block b).resid = .gone ∨ (s.endsLater b = true ∧ (u.block b).resid = .saving) := by
    intro b hb
    refine (h.blocks b (hbs ▸ hb)).imp_right fun ⟨he, hr⟩ => ⟨?_, hr⟩
    by_contra hs
    rw [k.endsLater (hne b hb) (by simpa using hs)] at he
    cases he
  refine ⟨?_, hkill, fun b hb he => ?_, fun b hb => h.ops b (hbs ▸ hb), h.queues⟩
  · obtain ⟨x, hx, hphase, hstatus⟩ := h.launch
    exact ⟨x, hx, hphase, fun hall => hstatus fun b hb => k.endsLater (hne b (hbs ▸ hb)) (hall b (hbs ▸ hb))⟩
  · obtain ⟨ha, hw⟩ := h.left b (hbs ▸ hb) (k.endsLater (hne b hb) he)
    exact ⟨ha, fun w hm hlen => hw w (by rw [k.others b (hne b hb)]; exact hm) (by rw [k.warps]; exact hlen)⟩

/-- Kills of other launches, or of the same again, keep what a kill has done. -/
theorem Killed.killLaunches {s t : State} {l : Nat} (h : Killed s t l) (hb : ∀ b, (t.block b).launch = (s.block b).launch)
    (ks : List Nat) : Killed s (ks.foldl State.killLaunch t) l := by
  induction ks generalizing t with
  | nil => exact h
  | cons k ks ih =>
    have hstep := killLaunch_fades t k
    refine ih ?_ fun b => (hstep.blocks b).1.trans (hb b)
    by_cases hk : k = l
    · subst hk
      obtain ⟨y, hy, hphase, -⟩ := h.launch
      rw [killLaunch_ended fun z hz => by rw [hy] at hz; cases hz; rw [hphase]; decide]
      exact h
    · refine h.after hstep (fun b hmem hin => hk ?_) (killLaunch_others t (Ne.symm hk))
      rw [← (mem_blocksOf.mp hin).2.1, hb, (mem_blocksOf.mp hmem).2.1]

/-- Kills of a list of launches kill each of them that is queued or running. -/
theorem killLaunches_killed {ls : List Nat} {s : State} {l : Nat} {x : Launch} (hmem : l ∈ ls) (hx : s.launches[l]? = some x)
    (hl : x.phase = .queued ∨ x.phase = .running) : Killed s (ls.foldl State.killLaunch s) l := by
  induction ls generalizing s with
  | nil => cases hmem
  | cons k ls ih =>
    have hstep := killLaunch_fades s k
    by_cases hk : k = l
    · subst hk
      exact (killLaunch_killed hx hl).killLaunches (fun b => (hstep.blocks b).1) ls
    · refine Killed.before hstep (fun b hb hin => hk ?_) (ih ((List.mem_cons.mp hmem).resolve_left (Ne.symm hk)) ?_)
      · exact (mem_blocksOf.mp hin).2.1.symm.trans hb
      · exact (killLaunch_others s (Ne.symm hk)).trans hx

end Sys2Proof.Machine
end

section
/-! Requests and commands in the order of their connection (R319, R320, R330). -/

namespace Sys2Proof.Machine
open Sys2Proof

/-- The state in which a message of a die has taken its turn (R319). -/
def State.takeTurn (s : State) (d : Nat) (m : Msg) : State :=
  let r := (s.die d).rxOf m
  s.setDie d ((s.die d).setRx { r with next := r.next + 1, high := if r.high = r.next then r.next + 1 else r.high })

section
variable {s t : State} {d : Nat} {m q : Msg} {keep : Bool} {perform : State → Option Msg × State}

theorem receive_turn (hpsn : m.psn = ((s.die d).rxOf m).next) (hwait : (s.die d).mustWait m = false)
    (hp : perform (s.takeTurn d m) = (some q, t)) : s.receive d m false perform = (t.answer d m q).wake d := by
  unfold State.takeTurn at hp
  unfold State.receive
  simp only [hpsn, if_true, hwait, Bool.false_eq_true, if_false, hp]

theorem receive_kept (hpsn : m.psn = ((s.die d).rxOf m).next) (hwait : (s.die d).mustWait m = false)
    (hp : perform (s.takeTurn d m) = (some q, t)) : s.receive d m true perform =
      ((t.setDie d ((t.die d).setRx { (t.die d).rxOf m with
        stored := (({ q with psn := m.psn } :: ((t.die d).rxOf m).stored).take 256) })).answer d m q).wake d := by
  unfold State.takeTurn at hp
  unfold State.receive
  simp only [if_pos hpsn, hwait, Bool.false_eq_true, if_false, hp, if_true]

theorem receive_silent (hpsn : m.psn = ((s.die d).rxOf m).next) (hwait : (s.die d).mustWait m = false)
    (hp : perform (s.takeTurn d m) = (none, t)) : s.receive d m keep perform = t := by
  unfold State.takeTurn at hp
  unfold State.receive
  simp only [if_pos hpsn, hwait, Bool.false_eq_true, if_false, hp]

/-- A request that must follow another is put aside (R320). -/
theorem receive_waits (hpsn : m.psn = ((s.die d).rxOf m).next) (hwait : (s.die d).mustWait m = true) :
    let r := (s.die d).rxOf m
    let y := (s.die d).setRx { r with next := r.next + 1, high := if r.high = r.next then r.next + 1 else r.high }
    s.receive d m keep perform = s.setDie d { y with waiting := y.waiting ++ [m] } := by
  unfold State.receive
  simp only [if_pos hpsn, hwait, if_true]

section
variable (hpsn : m.psn ≠ ((s.die d).rxOf m).next)
include hpsn

theorem receive_again (hback : (((s.die d).rxOf m).next - m.psn).toNat < 2 ^ 31)
    (hq : ((s.die d).rxOf m).stored.find? (fun q => q.psn = m.psn) = some q) :
    s.receive d m keep perform = s.answer d m q := by
  unfold State.receive
  simp only [if_neg hpsn, if_pos hback, hq]

theorem receive_repeated (hback : (((s.die d).rxOf m).next - m.psn).toNat < 2 ^ 31)
    (hq : ((s.die d).rxOf m).stored.find? (fun q => q.psn = m.psn) = none) :
    s.receive d m keep perform =
      if (s.die d).unperformed m (fun q => q.psn = m.psn && q.cls = m.cls) then s else s.answer d m (ackOf m) := by
  unfold State.receive
  simp only [if_neg hpsn, if_pos hback, hq]

theorem receive_early (hahead : 2 ^ 31 ≤ (((s.die d).rxOf m).next - m.psn).toNat) : ∃ h, s.receive d m keep perform =
    (s.setDie d ((s.die d).setRx { (s.die d).rxOf m with high := h })).answer d m (nackOf m (.illop, 0)) := by
  unfold State.receive
  simp only [if_neg hpsn, if_neg (Nat.not_lt.mpr hahead)]
  exact ⟨_, rfl⟩

end
end

/-! What a turn, an answer and a look at waiting messages keep. -/

theorem takeTurn_die (s : State) (d : Nat) (m : Msg) : ((s.takeTurn d m).die d).ctxs = (s.die d).ctxs ∧
    ((s.takeTurn d m).die d).tx = (s.die d).tx ∧ ((s.takeTurn d m).die d).cmdWaits = (s.die d).cmdWaits := by
  unfold State.takeTurn
  dsimp only
  rw [State.die_setDie]
  split <;> exact ⟨rfl, rfl, rfl⟩

/-- What turns, answers and looks at waiting messages leave: blocks, launches, warps, caches, and of the dies contexts and queues. -/
structure Answered (s t : State) : Prop where
  warps : t.warps = s.warps
  blocks : t.blocks = s.blocks
  cores : t.cores = s.cores
  clusters : t.clusters = s.clusters
  launches : t.launches = s.launches
  dies : ∀ c, (t.die c).ctxs = (s.die c).ctxs ∧ (t.die c).queues = (s.die c).queues

theorem Answered.same (s : State) : Answered s s := ⟨rfl, rfl, rfl, rfl, rfl, fun _ => ⟨rfl, rfl⟩⟩
theorem Answered.trans {s t u : State} (h : Answered s t) (k : Answered t u) : Answered s u :=
  ⟨k.warps.trans h.warps, k.blocks.trans h.blocks, k.cores.trans h.cores, k.clusters.trans h.clusters,
    k.launches.trans h.launches, fun c => ⟨(k.dies c).1.trans (h.dies c).1, (k.dies c).2.trans (h.dies c).2⟩⟩
theorem Answered.stored {s t : State} (h : Answered s t) : Stored s t :=
  Stored.fields h.warps h.blocks h.cores fun c => (h.dies c).2

theorem Answered.setDie (s : State) (d : Nat) {x : Die} (hx : x.ctxs = (s.die d).ctxs ∧ x.queues = (s.die d).queues) :
    Answered s (s.setDie d x) := by
  refine ⟨rfl, rfl, rfl, rfl, rfl, fun c => ?_⟩
  rw [State.die_setDie]
  split
  · next hc => rw [hc.1]; exact hx
  · exact ⟨rfl, rfl⟩

theorem Answered.takeTurn (s : State) (d : Nat) (m : Msg) : Answered s (s.takeTurn d m) :=
  Answered.setDie s d (x := (s.die d).setRx _) ⟨rfl, rfl⟩

theorem Answered.answer (s : State) (d : Nat) (q m : Msg) : Answered s (s.answer d q m) := by
  unfold State.answer
  split
  · exact Answered.same s
  · unfold State.route
    split <;> exact ⟨rfl, rfl, rfl, rfl, rfl, fun _ => ⟨rfl, rfl⟩⟩

theorem Answered.wake (s : State) (d : Nat) : Answered s (s.wake d) := by
  have hfold : ∀ (f : Msg → Die → RxConn) (ms : List Msg) (x : Die),
      let y := ms.foldr (fun m y => y.setRx (f m y)) x
      y.ctxs = x.ctxs ∧ y.queues = x.queues := by
    intro f ms x
    induction ms with
    | nil => exact ⟨rfl, rfl⟩
    | cons m ms ih => exact ih
  unfold State.wake
  dsimp only
  split
  · exact Answered.same s
  · exact (Answered.setDie s d (x := { List.foldr _ (s.die d) (s.die d).waiting with waiting := [] }) (hfold _ _ _)).trans
      ⟨rfl, rfl, rfl, rfl, rfl, fun _ => ⟨rfl, rfl⟩⟩

theorem Answered.done (s : State) (d : Nat) (q m : Msg) : Answered s ((s.answer d q m).wake d) :=
  (Answered.answer ..).trans (Answered.wake ..)

/-! Commands (R330). -/

/-- A command with the die's system access key that is next in its connection's order and need not wait. -/
structure State.Commands (s : State) (c : Cmd) : Prop where
  key : c.key = (s.die c.die).sysKey
  live : (s.die c.die).inReset = false
  psn : c.psn = ((s.die c.die).rxOf (Cmd.msg c)).next
  free : (s.die c.die).mustWait (Cmd.msg c) = false

/-- The answer to a command, with its effect: an ack where it is carried out, else a nack. -/
def Cmd.reply (c : Cmd) (p : Verdict × State) : Option Msg × State :=
  (some (if p.1 = .done then ackOf (Cmd.msg c) else nackOf (Cmd.msg c) ePerm), p.2)

section
variable {s t : State} {c : Cmd} {f : State → Verdict × State}

theorem commandWith_dropped (h : c.key ≠ (s.die c.die).sysKey) : s.commandWith c f = .next (s.dropMsg c.die c.inPort) := by
  unfold State.commandWith
  simp [h]

theorem commandWith_keyed (hkey : c.key = (s.die c.die).sysKey) (hlive : (s.die c.die).inReset = false) :
    s.commandWith c f =
      if c.psn = ((s.die c.die).rxOf (Cmd.msg c)).next && (s.die c.die).mustWait (Cmd.msg c) then .next s
      else if c.psn = ((s.die c.die).rxOf (Cmd.msg c)).next && (f s).1 = .later then .next (f s).2
      else .next (s.receive c.die (Cmd.msg c) false (fun s => Cmd.reply c (f s))) := by
  have hreply : (fun s => Cmd.reply c (f s)) = fun s => match f s with
      | (.done, s) => (some (ackOf (Cmd.msg c)), s)
      | (_, s) => (some (nackOf (Cmd.msg c) ePerm), s) := by
    funext s
    obtain ⟨v, t⟩ := f s
    cases v <;> rfl
  rw [hreply]
  unfold State.commandWith
  exact (if_neg (by simp [hkey, hlive])).trans rfl

theorem commandWith_repeated (hkey : c.key = (s.die c.die).sysKey) (hlive : (s.die c.die).inReset = false)
    (hpsn : c.psn ≠ ((s.die c.die).rxOf (Cmd.msg c)).next)
    (hback : (((s.die c.die).rxOf (Cmd.msg c)).next - c.psn).toNat < 2 ^ 31)
    (hstored : ((s.die c.die).rxOf (Cmd.msg c)).stored = [])
    (hopen : (s.die c.die).unperformed (Cmd.msg c) (fun q => q.psn = (Cmd.msg c).psn && q.cls = (Cmd.msg c).cls) = false) :
    s.commandWith c f = .next (s.answer c.die (Cmd.msg c) (ackOf (Cmd.msg c))) := by
  rw [commandWith_keyed hkey hlive, if_neg (by simp [hpsn]), if_neg (by simp [hpsn]),
    receive_repeated (m := Cmd.msg c) hpsn hback (by rw [hstored]; rfl), hopen]
  rfl

theorem commandWith_waits (hkey : c.key = (s.die c.die).sysKey) (hlive : (s.die c.die).inReset = false)
    (hpsn : c.psn = ((s.die c.die).rxOf (Cmd.msg c)).next) (hwait : (s.die c.die).mustWait (Cmd.msg c) = true) :
    s.commandWith c f = .next s := by
  rw [commandWith_keyed hkey hlive, if_pos (by simp [hpsn, hwait])]

section
variable (h : s.Commands c)
include h

/-- A command that cannot be carried out yet comes again. -/
theorem commandWith_later (hf : f s = (.later, t)) : s.commandWith c f = .next t := by
  rw [commandWith_keyed h.key h.live, if_neg (by simp [h.free]), hf, if_pos (by simp [h.psn])]

/-- A command is carried out and acknowledged. -/
theorem commandWith_done (hs : (f s).1 ≠ .later) (hf : f (s.takeTurn c.die (Cmd.msg c)) = (.done, t)) :
    s.commandWith c f = .next ((t.answer c.die (Cmd.msg c) (ackOf (Cmd.msg c))).wake c.die) := by
  rw [commandWith_keyed h.key h.live, if_neg (by simp [h.free]), if_neg (by simp [hs])]
  exact congrArg _ (receive_turn h.psn h.free (by rw [hf]; rfl))

/-- A command that cannot be carried out is refused by a nack. -/
theorem commandWith_refused {v : Verdict} (hs : (f s).1 ≠ .later) (hv : v ≠ .done)
    (hf : f (s.takeTurn c.die (Cmd.msg c)) = (v, t)) :
    s.commandWith c f = .next ((t.answer c.die (Cmd.msg c) (nackOf (Cmd.msg c) ePerm)).wake c.die) := by
  rw [commandWith_keyed h.key h.live, if_neg (by simp [h.free]), if_neg (by simp [hs])]
  refine congrArg _ (receive_turn h.psn h.free ?_)
  rw [hf]
  unfold Cmd.reply
  rw [if_neg hv]

/-- However a command ends, the state is that of its effect, before or in its turn, but for answers. -/
theorem commandWith_leaves : ∃ t, s.commandWith c f = .next t ∧
    (Answered (f s).2 t ∨ Answered (f (s.takeTurn c.die (Cmd.msg c))).2 t) := by
  by_cases hs : (f s).1 = .later
  · exact ⟨_, commandWith_later h (Prod.ext hs rfl), .inl (Answered.same _)⟩
  · by_cases hv : (f (s.takeTurn c.die (Cmd.msg c))).1 = .done
    · exact ⟨_, commandWith_done h hs (Prod.ext hv rfl), .inr (Answered.done ..)⟩
    · exact ⟨_, commandWith_refused h hs hv rfl, .inr (Answered.done ..)⟩

theorem command_done {g : State → Option State} (hg : g (s.takeTurn c.die (Cmd.msg c)) = some t) :
    s.command c g = .next ((t.answer c.die (Cmd.msg c) (ackOf (Cmd.msg c))).wake c.die) := by
  refine commandWith_done h ?_ (by rw [hg])
  cases g s <;> simp

theorem command_refused {g : State → Option State} (hg : g (s.takeTurn c.die (Cmd.msg c)) = none) :
    s.command c g = .next (((s.takeTurn c.die (Cmd.msg c)).answer c.die (Cmd.msg c) (nackOf (Cmd.msg c) ePerm)).wake c.die) := by
  refine commandWith_refused h (v := .refused) ?_ (by simp) (by rw [hg])
  cases g s <;> simp

end
end

end Sys2Proof.Machine
end

section
/-! Context commands (R151, R187, R272, R275, R280, R327 to R330). -/

namespace Sys2Proof.Machine
open Sys2Proof

/-! Translations dropped (R187). -/

theorem removeLines_spared (s : State) (c : Nat) (p : L1Line → Bool) : Spared s (s.removeLines c p) := by
  have h := removeLines_aside s c p
  obtain ⟨hblocks, hdies, -⟩ := Laws.aside_fields h
  refine ⟨(Apart.aside h).warps, hblocks, fun d q => ?_, fun d => congrArg Die.queues (Laws.die_of_dies hdies d)⟩
  unfold State.removeLines
  dsimp only
  split
  · rw [(Laws.foldBack_core _ d _).1, core_setCore]
    split
    · next hd => rw [hd]; rfl
    · rfl
  · rfl

theorem die_map_keeps {α : Type} (s : State) (g : Die → Die) (f : Die → α) (hg : ∀ x, f (g x) = f x) (d : Nat) :
    f ((({ s with dies := s.dies.map g } : State)).die d) = f (s.die d) := by
  unfold State.die nth
  dsimp only
  rw [List.getElem?_map]
  cases s.dies[d]? with
  | none => rfl
  | some x => exact hg x

/-- Dropping translations keeps blocks, launches, what a kill is about, and the contexts of the dies. -/
theorem dropTranslations_keeps (s : State) (asid : BitVec 16) (lo hi : Nat) (here : Nat → Bool) (sys : Bool) :
    Spared s (s.dropTranslations asid lo hi here sys) ∧ (s.dropTranslations asid lo hi here sys).launches = s.launches ∧
      ∀ d, ((s.dropTranslations asid lo hi here sys).die d).ctxs = (s.die d).ctxs := by
  let u := s.cores.foldl (fun s c =>
    if here (clusterOf c.1) then
      s.removeLines c.1 (fun l => l.asid = asid && decide (lo ≤ l.vline * 128) && decide (l.vline * 128 < hi))
    else s) s
  have hstep : ∀ (v : State) (c : Nat × Core) (p : L1Line → Bool),
      (if here (clusterOf c.1) then v.removeLines c.1 p else v).aside = v.aside ∧
      Spared v (if here (clusterOf c.1) then v.removeLines c.1 p else v) := by
    intro v c p
    split
    · exact ⟨removeLines_aside .., removeLines_spared ..⟩
    · exact ⟨rfl, Spared.same v⟩
  have haside : u.aside = s.aside := foldl_aside _ _ s fun v c => (hstep v c _).1
  have hspared : Spared s u := Spared.foldl (fun v c => (hstep v c _).2) _ s
  obtain ⟨-, hdies, hlaunches⟩ := Laws.aside_fields haside
  have hrest : ∀ v : State, v.warps = u.warps → v.blocks = u.blocks → v.cores = u.cores → v.launches = u.launches →
      (∀ d, (v.die d).queues = (u.die d).queues ∧ (v.die d).ctxs = (u.die d).ctxs) →
      Spared s v ∧ v.launches = s.launches ∧ ∀ d, (v.die d).ctxs = (s.die d).ctxs := fun v hw hb hc hl hd =>
    ⟨hspared.trans (Stored.fields hw hb hc fun d => (hd d).1).toSpared, hl.trans hlaunches,
      fun d => (hd d).2.trans (congrArg Die.ctxs (Laws.die_of_dies hdies d))⟩
  let g : Die → Die := fun d => { d with
    fabTlb := d.fabTlb.filter (fun e => !(e.asid = asid && decide (e.base < hi) && decide (lo < e.base + 2 ^ e.size))),
    fabPtrs := d.fabPtrs.filter (fun p => p.asid ≠ asid) }
  refine hrest _ rfl rfl rfl rfl fun d => ?_
  cases sys with
  | true => exact ⟨die_map_keeps u g Die.queues (fun _ => rfl) d, die_map_keeps u g Die.ctxs (fun _ => rfl) d⟩
  | false => exact ⟨rfl, rfl⟩

/-- No translation of an address-space ID that meets the range is left in a cluster (R187). -/
theorem dropTranslations_tlb (s : State) (asid : BitVec 16) (lo hi : Nat) (sys : Bool) (k : Nat) (e : TlbEntry)
    (he : e ∈ ((s.dropTranslations asid lo hi (fun _ => true) sys).cluster k).tlb) (ha : e.asid = asid) :
    ¬ (e.base < hi ∧ lo < e.base + 2 ^ e.size) := by
  unfold State.dropTranslations State.cluster at he
  dsimp only [if_true] at he
  rw [alGet_mapKeyed] at he
  · revert he
    generalize alGet _ k = r
    cases r with
    | none => exact fun he => absurd he List.not_mem_nil
    | some x =>
      intro he hmeets
      have := (List.mem_filter.mp he).2
      simp [ha, hmeets] at this
  · exact fun _ => rfl

/-! INVALIDATE_TRANSLATIONS and DISABLE. -/

theorem invalidate_keeps (s : State) (c : Cmd) (asid : BitVec 16) (lo hi : Nat) :
    Spared s (s.invalidate c asid lo hi).2 ∧ (s.invalidate c asid lo hi).2.launches = s.launches ∧
      ∀ d, ((s.invalidate c asid lo hi).2.die d).ctxs = (s.die d).ctxs := by
  have hset : ∀ (u : State) (x : Die), x.queues = (u.die c.die).queues → x.ctxs = (u.die c.die).ctxs →
      Spared s u ∧ u.launches = s.launches ∧ (∀ d, (u.die d).ctxs = (s.die d).ctxs) →
      Spared s (u.setDie c.die x) ∧ (u.setDie c.die x).launches = s.launches ∧ ∀ d, ((u.setDie c.die x).die d).ctxs = (s.die d).ctxs := by
    intro u x hq hc ⟨h1, h2, h3⟩
    have ha := Answered.setDie u c.die (x := x) ⟨hc, hq⟩
    exact ⟨h1.trans ha.stored.toSpared, h2, fun d => ((ha.dies d).1).trans (h3 d)⟩
  unfold State.invalidate
  dsimp only
  generalize Option.map Prod.snd _ = begun
  generalize hu : (if begun.isSome = true then s else s.dropTranslations asid lo hi (fun _ => true) true) = u
  have hdrop : Spared s u ∧ u.launches = s.launches ∧ ∀ d, (u.die d).ctxs = (s.die d).ctxs := by
    subst hu
    split
    · exact ⟨Spared.same s, rfl, fun _ => rfl⟩
    · exact dropTranslations_keeps ..
  split
  · exact hset _ _ rfl rfl hdrop
  · exact hset _ _ rfl rfl hdrop

/-- The first time that it is presented, an INVALIDATE_TRANSLATIONS drops the translations (R330). -/
theorem invalidate_clusters {s : State} {c : Cmd} (h : (s.die c.die).cmdWaits.find? (fun x => x.1 = (c.src, c.conn, c.psn)) = none)
    (asid : BitVec 16) (lo hi k : Nat) :
    (s.invalidate c asid lo hi).2.cluster k = (s.dropTranslations asid lo hi (fun _ => true) true).cluster k := by
  unfold State.invalidate
  simp only [h, Option.map_none, Option.isSome_none, Bool.false_eq_true, if_false]
  split <;> rfl

theorem ctx_setCtx (s : State) (d c k : Nat) (x : Ctx) : ((s.setCtx d c x).die d).ctx k =
    if k = c ∧ d < s.dies.length then x else (s.die d).ctx k := by
  unfold State.setCtx
  rw [State.die_setDie]
  by_cases hd : d < s.dies.length
  · simp only [hd, and_true, if_true]
    unfold Die.ctx
    dsimp only
    rw [alGet_alSet]
    split <;> rfl
  · simp [hd]

theorem setCtx_spared (s : State) (d c : Nat) (x : Ctx) : Spared s (s.setCtx d c x) :=
  (Stored.setDie s d (x := { s.die d with ctxs := alSet (s.die d).ctxs c x }) rfl).toSpared

theorem ctx_of_ctxs {x y : Die} (h : x.ctxs = y.ctxs) (k : Nat) : x.ctx k = y.ctx k := by
  unfold Die.ctx
  rw [h]

theorem die_outside {s : State} {d : Nat} (h : ¬ d < s.dies.length) : s.die d = Die.reset := by
  unfold State.die nth
  rw [List.getElem?_eq_none (by omega)]
  rfl

/-- The launches of a context on a die, ended or not. -/
def State.launchesOf (s : State) (d ctx : Nat) : List Nat :=
  (List.range s.launches.length).filter (fun l => match s.launches[l]? with
    | some x => x.die = d && x.ctx = ctx
    | none => false)

theorem liveLaunch_mem {s : State} {d ctx l : Nat} (h : s.liveLaunch d ctx l) : l ∈ s.launchesOf d ctx := by
  obtain ⟨x, hx, hdie, hctx, -⟩ := h
  obtain ⟨hlen, -⟩ := List.getElem?_eq_some_iff.mp hx
  exact List.mem_filter.mpr ⟨List.mem_range.mpr hlen, by simp [hx, hdie, hctx]⟩

/-- Kills of the launches of a context leave none of them running (R290, R330). -/
theorem killLaunchesOf_killed {s : State} {d ctx l : Nat} (h : s.liveLaunch d ctx l) :
    Killed s ((s.launchesOf d ctx).foldl State.killLaunch s) l := by
  have hmem := liveLaunch_mem h
  obtain ⟨x, hx, -, -, hlive⟩ := h
  exact killLaunches_killed hmem hx hlive

theorem dropLeaves_keeps (s : State) (d ctx : Nat) : Spared s (s.dropLeaves d ctx) ∧
    (s.dropLeaves d ctx).launches = s.launches ∧ (s.dropLeaves d ctx).dies = s.dies := by
  unfold State.dropLeaves
  split
  · exact ⟨Spared.same s, rfl, rfl⟩
  · exact ⟨⟨rfl, rfl, fun _ _ => rfl, fun _ => rfl⟩, rfl, rfl⟩

/-- A context whose launches have been killed, and whose bit is cleared (R330). -/
def State.unbound (s : State) (d ctx : Nat) : State :=
  let t := (s.launchesOf d ctx).foldl State.killLaunch s
  t.setCtx d ctx { (t.die d).ctx ctx with enabled := false }

theorem unbound_killed {s : State} {d ctx l : Nat} (h : s.liveLaunch d ctx l) : Killed s (s.unbound d ctx) l :=
  (killLaunchesOf_killed h).spared (setCtx_spared _ d ctx _) rfl

theorem unbound_ctx (s : State) (d ctx : Nat) : (((s.unbound d ctx).die d).ctx ctx).enabled = false := by
  unfold State.unbound
  dsimp only
  generalize (s.launchesOf d ctx).foldl State.killLaunch s = t
  rw [ctx_setCtx]
  split
  · rfl
  · next h =>
    rw [die_outside (s := t) fun hd => h ⟨rfl, hd⟩]
    rfl

/-- What DISABLE does of a context: its leaf pointers and translations are dropped besides. -/
def State.disabled (s : State) (c : Cmd) (ctx : Nat) : Verdict × State :=
  ((s.unbound c.die ctx).dropLeaves c.die ctx).invalidate c
    ((((s.launchesOf c.die ctx).foldl State.killLaunch s).die c.die).ctx ctx).asid 0 (2 ^ 57)

theorem disabled_ends (s : State) (c : Cmd) (ctx : Nat) : (((s.disabled c ctx).2.die c.die).ctx ctx).enabled = false ∧
    ∀ l, s.liveLaunch c.die ctx l → Killed s (s.disabled c ctx).2 l := by
  unfold State.disabled
  obtain ⟨hleaves, hlaunches, hdies⟩ := dropLeaves_keeps (s.unbound c.die ctx) c.die ctx
  obtain ⟨hspared, hkept, hctxs⟩ := invalidate_keeps ((s.unbound c.die ctx).dropLeaves c.die ctx) c
    ((((s.launchesOf c.die ctx).foldl State.killLaunch s).die c.die).ctx ctx).asid 0 (2 ^ 57)
  refine ⟨?_, fun l hl => (unbound_killed hl).spared (hleaves.trans hspared) (hkept.trans hlaunches)⟩
  rw [ctx_of_ctxs ((hctxs c.die).trans (congrArg Die.ctxs (Laws.die_of_dies hdies c.die)))]
  exact unbound_ctx ..

/-! Each command. -/

section
variable (s : State) (c : Cmd) (ctx queue seg idx : Nat) (st : CtxSet) (p : PeerEntry) (tag start len : DWord)

theorem exec_setState : exec (.setState c st) s = execSetState c st s := rfl
theorem exec_enable : exec (.enable c ctx) s = execEnable c ctx s := rfl
theorem exec_disable : exec (.disable c ctx) s = execDisable c ctx s := rfl
theorem exec_assignQueue : exec (.assignQueue c ctx queue) s = execAssignQueue c ctx queue s := rfl
theorem exec_grantIngotSegment : exec (.grantIngotSegment c ctx seg) s = execGrantIngotSegment c ctx seg s := rfl
theorem exec_writePeerEntry : exec (.writePeerEntry c ctx idx p) s = execWritePeerEntry c ctx idx p s := rfl
theorem exec_clearPeerEntry : exec (.clearPeerEntry c ctx idx) s = execClearPeerEntry c ctx idx s := rfl
theorem exec_removeHeldRecord : exec (.removeHeldRecord c ctx tag) s = execRemoveHeldRecord c ctx tag s := rfl
theorem exec_readErrorLog : exec (.readErrorLog c) s = execReadErrorLog c s := rfl
theorem exec_invalidateTranslations :
    exec (.invalidateTranslations c ctx start len) s = execInvalidateTranslations c ctx start len s := rfl

theorem command_with (g : State → Option State) : ∃ f, s.command c g = s.commandWith c f := ⟨_, rfl⟩

/-- Every command is carried out under the system access key and in its turn. -/
theorem command_keyed {i : Instr} (hi : i ∈ [Instr.setState c st, .enable c ctx, .disable c ctx, .assignQueue c ctx queue,
      .grantIngotSegment c ctx seg, .writePeerEntry c ctx idx p, .clearPeerEntry c ctx idx, .removeHeldRecord c ctx tag,
      .readErrorLog c, .invalidateTranslations c ctx start len]) : ∃ f, exec i s = s.commandWith c f := by
  simp only [List.mem_cons, List.not_mem_nil, or_false] at hi
  rcases hi with rfl | rfl | rfl | rfl | rfl | rfl | rfl | rfl | rfl | rfl
  · rw [exec_setState]
    exact command_with ..
  · rw [exec_enable]
    exact command_with ..
  · rw [exec_disable]
    exact ⟨_, rfl⟩
  · rw [exec_assignQueue]
    exact command_with ..
  · rw [exec_grantIngotSegment]
    exact command_with ..
  · rw [exec_writePeerEntry]
    exact command_with ..
  · rw [exec_clearPeerEntry]
    exact ⟨_, rfl⟩
  · rw [exec_removeHeldRecord]
    exact command_with ..
  · rw [exec_readErrorLog]
    unfold execReadErrorLog
    exact ⟨_, rfl⟩
  · rw [exec_invalidateTranslations]
    exact ⟨_, rfl⟩

end

section
variable {s : State} {c : Cmd} (h : s.Commands c)
include h

/-- A command that is carried out where p holds, and else refused. -/
theorem command_where (p : Prop) [Decidable p] {t : State} {g : State → Option State}
    (hyes : p → g (s.takeTurn c.die (Cmd.msg c)) = some t) (hno : ¬ p → g (s.takeTurn c.die (Cmd.msg c)) = none) :
    s.command c g = .next (if p then (t.answer c.die (Cmd.msg c) (ackOf (Cmd.msg c))).wake c.die
      else ((s.takeTurn c.die (Cmd.msg c)).answer c.die (Cmd.msg c) (nackOf (Cmd.msg c) ePerm)).wake c.die) := by
  split
  · next hp => exact command_done h (hyes hp)
  · next hp => exact command_refused h (hno hp)

theorem setState_ends (st : CtxSet) : exec (.setState c st) s =
    let u := s.takeTurn c.die (Cmd.msg c)
    .next (if st.ctx < 64 then ((u.setCtx c.die st.ctx { (u.die c.die).ctx st.ctx with
      asid := st.asid, root := st.root, rootkey := st.rootkey, akey := st.akey, host := st.host, hconn := st.hconn,
      save := st.save }).answer c.die (Cmd.msg c) (ackOf (Cmd.msg c))).wake c.die
    else (u.answer c.die (Cmd.msg c) (nackOf (Cmd.msg c) ePerm)).wake c.die) :=
  (exec_setState s c st).trans (command_where h (st.ctx < 64) (fun hp => if_neg (by omega)) fun hp => if_pos (by omega))

theorem enable_ends (ctx : Nat) : exec (.enable c ctx) s =
    let u := s.takeTurn c.die (Cmd.msg c)
    .next (if ctx < 64 then ((u.setCtx c.die ctx { (u.die c.die).ctx ctx with enabled := true }).answer
      c.die (Cmd.msg c) (ackOf (Cmd.msg c))).wake c.die
    else (u.answer c.die (Cmd.msg c) (nackOf (Cmd.msg c) ePerm)).wake c.die) :=
  (exec_enable s c ctx).trans (command_where h (ctx < 64) (fun hp => if_neg (by omega)) fun hp => if_pos (by omega))

theorem assignQueue_ends (ctx queue : Nat) : exec (.assignQueue c ctx queue) s =
    let u := s.takeTurn c.die (Cmd.msg c)
    .next (if ctx < 64 ∧ queue < 64 then ((u.setDie c.die { u.die c.die with
      qctx := alSet (u.die c.die).qctx queue ctx }).answer c.die (Cmd.msg c) (ackOf (Cmd.msg c))).wake c.die
    else (u.answer c.die (Cmd.msg c) (nackOf (Cmd.msg c) ePerm)).wake c.die) :=
  (exec_assignQueue s c ctx queue).trans (command_where h (ctx < 64 ∧ queue < 64) (fun hp => if_neg (by simp; omega))
    fun hp => if_pos (by simp; omega))

theorem grantIngotSegment_ends (ctx seg : Nat) : exec (.grantIngotSegment c ctx seg) s =
    let u := s.takeTurn c.die (Cmd.msg c)
    let x := (u.die c.die).ctx ctx
    .next (if ctx < 64 ∧ seg < 256 then ((u.setCtx c.die ctx { x with
      ingot := if x.ingot.contains seg then x.ingot else seg :: x.ingot }).answer c.die (Cmd.msg c) (ackOf (Cmd.msg c))).wake c.die
    else (u.answer c.die (Cmd.msg c) (nackOf (Cmd.msg c) ePerm)).wake c.die) :=
  (exec_grantIngotSegment s c ctx seg).trans (command_where h (ctx < 64 ∧ seg < 256) (fun hp => if_neg (by simp; omega))
    fun hp => if_pos (by simp; omega))

/-- The error log goes to system software as it was before the command's turn (R280). -/
theorem readErrorLog_ends : exec (.readErrorLog c) s =
    let u := s.takeTurn c.die (Cmd.msg c)
    .next ((({ u with sys := { u.sys with reports := u.sys.reports ++ [Report.errLog c.die (s.die c.die).errLog] } } : State).answer
      c.die (Cmd.msg c) (ackOf (Cmd.msg c))).wake c.die) := by
  let f : State → Verdict × State := fun u =>
    (.done, { u with sys := { u.sys with reports := u.sys.reports ++ [Report.errLog c.die (s.die c.die).errLog] } })
  exact (exec_readErrorLog s c).trans (commandWith_done h (f := f) (by simp [f]) rfl)

/-- A peer entry is written unless a valid one of another index names the same target (R328). -/
theorem writePeerEntry_ends (ctx idx : Nat) (p : PeerEntry) :
    let u := s.takeTurn c.die (Cmd.msg c)
    let x := (u.die c.die).ctx ctx
    let twice := p.valid = true ∧ ∃ q ∈ x.peers, q.1 ≠ idx ∧ q.2.valid = true ∧ q.2.pkg = p.pkg ∧ q.2.die = p.die ∧ q.2.ctx = p.ctx
    (ctx < 64 → idx < 256 → p.res0 = false → ¬ twice → exec (.writePeerEntry c ctx idx p) s =
      .next (((u.setCtx c.die ctx { x with peers := alSet x.peers idx p }).answer c.die (Cmd.msg c) (ackOf (Cmd.msg c))).wake c.die)) ∧
    (64 ≤ ctx ∨ 256 ≤ idx ∨ p.res0 = true ∨ twice → exec (.writePeerEntry c ctx idx p) s =
      .next ((u.answer c.die (Cmd.msg c) (nackOf (Cmd.msg c) ePerm)).wake c.die)) := by
  intro u x twice
  have htwice : (p.valid && x.peers.any (fun q => decide (q.1 ≠ idx) && q.2.valid && q.2.pkg = p.pkg
      && q.2.die = p.die && q.2.ctx = p.ctx)) = true ↔ twice := by
    simp [twice, and_assoc]
  rw [exec_writePeerEntry]
  refine ⟨fun hctx hidx hres hno => command_done h (if_neg ?_), fun hbad => command_refused h (if_pos ?_)⟩
  · rw [Bool.or_eq_true, Bool.or_eq_true, htwice]
    simp [hres, hno]
    omega
  · rw [Bool.or_eq_true, Bool.or_eq_true, htwice]
    simp only [Bool.or_eq_true, decide_eq_true_eq]
    rcases hbad with hc | hi | hr | ht
    · exact .inl (.inl (.inl hc))
    · exact .inl (.inl (.inr hi))
    · exact .inr hr
    · exact .inl (.inr ht)

theorem disable_ends {ctx : Nat} (hctx : ctx < 64) : ∃ t, exec (.disable c ctx) s = .next t ∧
    ((t.die c.die).ctx ctx).enabled = false ∧ ∀ l, s.liveLaunch c.die ctx l → Killed s t l := by
  let f : State → Verdict × State := fun s => if 64 ≤ ctx then (.refused, s) else s.disabled c ctx
  have hf : ∀ u, f u = u.disabled c ctx := fun u => if_neg (Nat.not_le.mpr hctx)
  have hexec : exec (.disable c ctx) s = s.commandWith c f := exec_disable s c ctx
  obtain ⟨t, ht, hleft⟩ := commandWith_leaves h (f := f)
  refine ⟨t, hexec.trans ht, ?_⟩
  rw [hf, hf] at hleft
  have hends : ∀ u, Answered s u → Answered (u.disabled c ctx).2 t →
      ((t.die c.die).ctx ctx).enabled = false ∧ ∀ l, s.liveLaunch c.die ctx l → Killed s t l := by
    intro u hu ha
    obtain ⟨henabled, hkilled⟩ := disabled_ends u c ctx
    refine ⟨by rw [ctx_of_ctxs (ha.dies c.die).1]; exact henabled, fun l hl => ?_⟩
    have hlive : u.liveLaunch c.die ctx l := by
      obtain ⟨x, hx, hrest⟩ := hl
      exact ⟨x, by rw [hu.launches]; exact hx, hrest⟩
    exact Killed.before (p := fun _ => False) (Fades.stored hu.stored) (fun _ _ => not_false)
      ((hkilled l hlive).spared ha.stored.toSpared ha.launches)
  rcases hleft with hleft | hleft
  · exact hends s (Answered.same s) hleft
  · exact hends _ (Answered.takeTurn s c.die (Cmd.msg c)) hleft

theorem clearPeer_ends {ctx idx : Nat} {q : PeerEntry} (hctx : ctx < 64) (hidx : idx < 256)
    (hq : alGet (((s.takeTurn c.die (Cmd.msg c)).die c.die).ctx ctx).peers idx = some q) :
    (q.valid = true → (s.die c.die).peerBusy q = true → exec (.clearPeerEntry c ctx idx) s = .next s) ∧
    ((q.valid = false ∨ (s.die c.die).peerBusy q = false) → exec (.clearPeerEntry c ctx idx) s =
      let u := s.takeTurn c.die (Cmd.msg c)
      .next (((u.setCtx c.die ctx { (u.die c.die).ctx ctx with peers := alErase ((u.die c.die).ctx ctx).peers idx }).answer
        c.die (Cmd.msg c) (ackOf (Cmd.msg c))).wake c.die)) := by
  obtain ⟨hctxs, htx, -⟩ := takeTurn_die s c.die (Cmd.msg c)
  let g : State → Verdict × State := fun s =>
    let k := (s.die c.die).ctx ctx
    if 64 ≤ ctx || 256 ≤ idx then (.refused, s)
    else if (alGet k.peers idx).any (fun p => p.valid && (s.die c.die).peerBusy p) then (.later, s)
    else (.done, s.setCtx c.die ctx { k with peers := alErase k.peers idx })
  have hexec : exec (.clearPeerEntry c ctx idx) s = s.commandWith c g := exec_clearPeerEntry s c ctx idx
  have hg : ∀ u, (u.die c.die).ctxs = (s.die c.die).ctxs → (u.die c.die).tx = (s.die c.die).tx →
      g u = if q.valid && (s.die c.die).peerBusy q then (.later, u)
        else (.done, u.setCtx c.die ctx { (u.die c.die).ctx ctx with peers := alErase ((u.die c.die).ctx ctx).peers idx }) := by
    intro u hu hv
    have hbusy : (u.die c.die).peerBusy q = (s.die c.die).peerBusy q := by
      unfold Die.peerBusy
      rw [hv]
    dsimp only [g]
    rw [if_neg (by simp; omega), ctx_of_ctxs (hu.trans hctxs.symm), hq, ← hbusy]
    rfl
  refine ⟨fun hv hb => ?_, fun hfree => ?_⟩
  · exact hexec.trans (commandWith_later h (by rw [hg s rfl rfl, hv, hb]; rfl))
  · have hno : (q.valid && (s.die c.die).peerBusy q) = false := by rcases hfree with h | h <;> simp [h]
    refine hexec.trans (commandWith_done h ?_ ?_)
    · rw [hg s rfl rfl, hno]
      simp
    · rw [hg _ hctxs htx, hno]
      rfl

theorem invalidate_ends {ctx : Nat} {start len : DWord} (hctx : ctx < 64)
    (hok : fieldOf start 0 12 = 0 ∧ fieldOf len 0 12 = 0 ∧ fieldOf start 57 3 = 0)
    (hbegun : (s.die c.die).cmdWaits.find? (fun x => x.1 = (c.src, c.conn, c.psn)) = none) :
    let lo := if len = 0 then 0 else fieldOf start 0 57
    let hi := if len = 0 then 2 ^ 57 else min (fieldOf start 0 57 + len.toNat) (2 ^ 57)
    ∃ t, exec (.invalidateTranslations c ctx start len) s = .next t ∧
      (∀ k e, e ∈ (t.cluster k).tlb → e.asid = (((s.takeTurn c.die (Cmd.msg c)).die c.die).ctx ctx).asid →
        ¬ (e.base < hi ∧ lo < e.base + 2 ^ e.size)) ∧ t.blocks = s.blocks ∧ t.launches = s.launches := by
  intro lo hi
  obtain ⟨hctxs, -, hwaits⟩ := takeTurn_die s c.die (Cmd.msg c)
  obtain ⟨hstart, hlen, hspace⟩ := hok
  let f : State → Verdict × State := fun s =>
    if 64 ≤ ctx || fieldOf start 0 12 ≠ 0 || fieldOf len 0 12 ≠ 0 || fieldOf start 57 3 ≠ 0 then (.refused, s)
    else
      let lo := fieldOf start 0 57
      let (lo, hi) := if len = 0 then (0, 2 ^ 57) else (lo, min (lo + len.toNat) (2 ^ 57))
      s.invalidate c ((s.die c.die).ctx ctx).asid lo hi
  have hf : ∀ u, f u = u.invalidate c ((u.die c.die).ctx ctx).asid lo hi := by
    intro u
    dsimp only [f, lo, hi]
    rw [if_neg (by simp [hstart, hlen, hspace]; omega)]
    split <;> rfl
  have hexec : exec (.invalidateTranslations c ctx start len) s = s.commandWith c f :=
    exec_invalidateTranslations s c ctx start len
  obtain ⟨t, ht, hleft⟩ := commandWith_leaves h (f := f)
  refine ⟨t, hexec.trans ht, ?_⟩
  rw [hf, hf] at hleft
  have hends : ∀ u, Answered s u → (u.die c.die).ctxs = (s.die c.die).ctxs → (u.die c.die).cmdWaits = (s.die c.die).cmdWaits →
      Answered (u.invalidate c ((u.die c.die).ctx ctx).asid lo hi).2 t →
      (∀ k e, e ∈ (t.cluster k).tlb → e.asid = (((s.takeTurn c.die (Cmd.msg c)).die c.die).ctx ctx).asid →
        ¬ (e.base < hi ∧ lo < e.base + 2 ^ e.size)) ∧ t.blocks = s.blocks ∧ t.launches = s.launches := by
    intro u hu hc hw ha
    obtain ⟨hspared, hlaunches, -⟩ := invalidate_keeps u c ((u.die c.die).ctx ctx).asid lo hi
    refine ⟨fun k e he hasid => ?_, (ha.blocks.trans hspared.blocks).trans hu.blocks, (ha.launches.trans hlaunches).trans hu.launches⟩
    have hcl : t.cluster k = (u.invalidate c ((u.die c.die).ctx ctx).asid lo hi).2.cluster k := by
      unfold State.cluster
      rw [ha.clusters]
    rw [hcl, invalidate_clusters (by rw [hw]; exact hbegun)] at he
    refine dropTranslations_tlb u _ lo hi true k e he ?_
    rw [hasid, ctx_of_ctxs (hctxs.trans hc.symm)]
  rcases hleft with hleft | hleft
  · exact hends s (Answered.same s) rfl rfl hleft
  · exact hends _ (Answered.takeTurn s c.die (Cmd.msg c)) hctxs hwaits hleft

theorem invalidate_refused {ctx : Nat} {start len : DWord}
    (hbad : 64 ≤ ctx ∨ ¬ (fieldOf start 0 12 = 0 ∧ fieldOf len 0 12 = 0 ∧ fieldOf start 57 3 = 0)) :
    exec (.invalidateTranslations c ctx start len) s =
      .next (((s.takeTurn c.die (Cmd.msg c)).answer c.die (Cmd.msg c) (nackOf (Cmd.msg c) ePerm)).wake c.die) := by
  have hc : (decide (64 ≤ ctx) || decide (fieldOf start 0 12 ≠ 0) || decide (fieldOf len 0 12 ≠ 0) || decide (fieldOf start 57 3 ≠ 0)) = true := by
    simp only [Bool.or_eq_true, decide_eq_true_eq]
    tauto
  rw [exec_invalidateTranslations]
  refine commandWith_refused h (v := .refused) ?_ (by simp) ?_
  · dsimp only
    rw [if_pos hc]
    simp
  · dsimp only
    rw [if_pos hc]

end

/-- Settles O60: each command by its condition and its effect, under the shell that all share. -/
theorem commandsNeedTheSystemAccessKey : Obligations.CommandsNeedTheSystemAccessKey := by
  unfold Obligations.CommandsNeedTheSystemAccessKey
  intro c s ctx queue seg idx st p tag start len
  refine ⟨fun hkey i hi => ?_, fun hkey hlive hpsn hback hstored hopen i hi => ?_, fun hkey hlive hpsn hwait i hi => ?_,
    fun hkey hlive hpsn hfree => ?_⟩
  · obtain ⟨f, hf⟩ := command_keyed _ _ _ _ _ _ _ _ _ _ _ hi
    exact hf.trans (commandWith_dropped hkey)
  · obtain ⟨f, hf⟩ := command_keyed _ _ _ _ _ _ _ _ _ _ _ hi
    exact hf.trans (commandWith_repeated hkey hlive hpsn hback hstored hopen)
  · obtain ⟨f, hf⟩ := command_keyed _ _ _ _ _ _ _ _ _ _ _ hi
    exact hf.trans (commandWith_waits hkey hlive hpsn hwait)
  have h : s.Commands c := ⟨hkey, hlive, hpsn, hfree⟩
  exact ⟨setState_ends h st, enable_ends h ctx, fun hctx => disable_ends h hctx, assignQueue_ends h ctx queue,
    grantIngotSegment_ends h ctx seg, writePeerEntry_ends h ctx idx p, fun q hctx hidx hq => clearPeer_ends h hctx hidx hq,
    fun v hv => (exec_removeHeldRecord s c ctx tag).trans (command_done h hv),
    fun hv => (exec_removeHeldRecord s c ctx tag).trans (command_refused h hv),
    readErrorLog_ends h,
    fun hbad => invalidate_refused h hbad, fun hctx hok hbegun => invalidate_ends h hctx hok hbegun⟩

end Sys2Proof.Machine
end

section
/-! Messages of the transport: the header, requests in their order, and answers (R314 to R321). -/

namespace Sys2Proof.Machine
open Sys2Proof

/-- Reading a header back: each field stands where R315 puts it. -/
theorem withHeader_header (m : Msg) (h : m.plen < 65536) : Msg.withHeader (Msg.header m) m = m := by
  obtain ⟨⟩ := m
  simp only [Msg.withHeader, Msg.header]
  congr 1
  case e_ackReq => simp only [BitVec.getLsbD_append]; simp
  case e_coded => simp only [BitVec.getLsbD_append]; simp
  case e_fence => simp only [BitVec.getLsbD_append]; simp
  case e_plen =>
    simp (disch := omega) only [BitVec.extractLsb'_append_eq_of_add_le, BitVec.extractLsb'_append_eq_of_le]
    simpa using h
  all_goals
    simp (disch := omega) only [BitVec.extractLsb'_append_eq_of_add_le, BitVec.extractLsb'_append_eq_of_le]
    exact BitVec.extractLsb'_eq_self

/-! Requests. -/

section
variable (s : State) (d : Nat) (m : Msg)

theorem exec_write : exec (.write d m) s = execWrite d m s := rfl
theorem exec_readRequest : exec (.readRequest d m) s = execReadRequest d m s := rfl
theorem exec_atomic : exec (.atomic d m) s = execAtomic d m s := rfl
theorem exec_reduce : exec (.reduce d m) s = execReduce d m s := rfl
theorem exec_launch : exec (.launch d m) s = execLaunch d m s := rfl
theorem exec_stepCounterUpdate : exec (.stepCounterUpdate d m) s = execStepCounterUpdate d m s := rfl
theorem exec_readResponse : exec (.readResponse d m) s = execReadResponse d m s := rfl
theorem exec_atomicResponse : exec (.atomicResponse d m) s = execAtomicResponse d m s := rfl
theorem exec_ack : exec (.ack d m) s = execAck d m s := rfl
theorem exec_nack : exec (.nack d m) s = execNack d m s := rfl
theorem exec_haloLeafDelivery (leaf : HaloLeaf) : exec (.haloLeafDelivery d leaf) s = execHaloLeafDelivery d leaf s := rfl

/-- A plain request is one of its kind, however it is performed. -/
theorem exec_request {x : Instr × Nat}
    (hx : x ∈ [(Instr.write d m, 1), (.readRequest d m, 2), (.launch d m, 7), (.stepCounterUpdate d m, 10)]) :
    ∃ keep perform, exec x.1 s = .next (s.request d x.2 m keep perform) := by
  simp only [List.mem_cons, List.not_mem_nil, or_false] at hx
  rcases hx with rfl | rfl | rfl | rfl
  · exact ⟨false, _, exec_write s d m⟩
  · exact ⟨true, _, exec_readRequest s d m⟩
  · exact ⟨false, _, exec_launch s d m⟩
  · exact ⟨false, _, exec_stepCounterUpdate s d m⟩

end

section
variable {s t : State} {d k : Nat} {m q : Msg} {keep : Bool} {perform : State → Option Msg × State}

theorem request_dropped (h : (s.die d).admits d k m = false) : s.request d k m keep perform = s.dropMsg d m.inPort := by
  unfold State.request
  rw [h]
  rfl

theorem request_admitted (h : (s.die d).admits d k m = true) : s.request d k m keep perform = s.receive d m keep perform := by
  unfold State.request
  rw [h]
  rfl

/-- Every request that is not admitted is dropped and counted (R314 to R317, R327). -/
theorem exec_dropped {x : Instr × Nat} (hx : x ∈ [(Instr.write d m, 1), (.readRequest d m, 2), (.atomic d m, 4), (.reduce d m, 6),
    (.launch d m, 7), (.stepCounterUpdate d m, 10)]) (h : (s.die d).admits d x.2 m = false) :
    exec x.1 s = .next (s.dropMsg d m.inPort) := by
  simp only [List.mem_cons, List.not_mem_nil, or_false] at hx
  rcases hx with rfl | rfl | rfl | rfl | rfl | rfl
  · exact (exec_write s d m).trans (congrArg _ (request_dropped h))
  · exact (exec_readRequest s d m).trans (congrArg _ (request_dropped h))
  · rw [exec_atomic]
    unfold execAtomic
    split
    · rfl
    · exact congrArg _ (request_dropped h)
  · rw [exec_reduce]
    unfold execReduce
    split
    · rfl
    · exact congrArg _ (request_dropped h)
  · exact (exec_launch s d m).trans (congrArg _ (request_dropped h))
  · exact (exec_stepCounterUpdate s d m).trans (congrArg _ (request_dropped h))

/-- A message of a connection that has not been performed holds up those of its class, and those with the fence flag (R320). -/
theorem mustWait_of_unperformed (x : Die) (hconn : q.conn = m.conn) (hsrc : q.src = m.src) (hcls : q.cls = m.cls ∨ m.fence = true)
    (hq : q ∈ x.waiting ∨ ∃ j ∈ x.halos, j.leaf.reply = some q) : x.mustWait m = true := by
  have hp : (decide (q.conn = m.conn) && decide (q.src = m.src) && (decide (q.cls = m.cls) || m.fence)) = true := by
    simp [hconn, hsrc, hcls]
  unfold Die.mustWait Die.unperformed
  rw [Bool.or_eq_true]
  left
  dsimp only
  rw [Bool.or_eq_true, List.any_eq_true, List.any_eq_true]
  rcases hq with hq | ⟨j, hj, hr⟩
  · exact .inr ⟨q, hq, hp⟩
  · exact .inl ⟨j, hj, by rw [hr]; exact hp⟩

end

/-- A request that is next in its connection's order and need not wait (R319, R320). -/
structure State.NextRequest (s : State) (d k : Nat) (m : Msg) : Prop where
  admits : (s.die d).admits d k m = true
  psn : m.psn = ((s.die d).rxOf m).next
  free : (s.die d).mustWait m = false

section
variable {s t : State} {d k : Nat} {m q : Msg} {perform : State → Option Msg × State}

theorem request_turn (h : s.NextRequest d k m) (hp : perform (s.takeTurn d m) = (some q, t)) :
    s.request d k m false perform = (t.answer d m q).wake d :=
  (request_admitted h.admits).trans (receive_turn h.psn h.free hp)

theorem request_kept (h : s.NextRequest d k m) (hp : perform (s.takeTurn d m) = (some q, t)) : s.request d k m true perform =
    ((t.setDie d ((t.die d).setRx { (t.die d).rxOf m with
      stored := (({ q with psn := m.psn } :: ((t.die d).rxOf m).stored).take 256) })).answer d m q).wake d :=
  (request_admitted h.admits).trans (receive_kept h.psn h.free hp)

theorem request_silent (h : s.NextRequest d k m) (hp : perform (s.takeTurn d m) = (none, t)) : s.request d k m false perform = t :=
  (request_admitted h.admits).trans (receive_silent h.psn h.free hp)

/-- A write is performed all or none, then answered (R320). -/
theorem write_performed (h : s.NextRequest d 1 m) (htag : m.op ≠ 1) (hhalo : m.op ≠ 0x1C4) :
    let r := (s.takeTurn d m).netWrite d m.ctx.toNat m.addr.toNat (Msg.payload m)
    (∀ t, r = .ok t → exec (.write d m) s = .next ((t.answer d m (ackOf m)).wake d)) ∧
    (∀ e, r = .error e → exec (.write d m) s = .next ((((s.takeTurn d m).markNet d m e).answer d m (nackOf m e)).wake d)) := by
  refine ⟨fun t hr => ?_, fun e hr => ?_⟩
  · exact (exec_write s d m).trans (congrArg _ (request_turn h (by simp only [if_neg htag, if_neg hhalo, hr])))
  · exact (exec_write s d m).trans (congrArg _ (request_turn h (by simp only [if_neg htag, if_neg hhalo, hr])))

/-- A delivery's step always comes to a state. -/
theorem haloLeafDelivery_next (d : Nat) (leaf : HaloLeaf) (s : State) : ∃ t, execHaloLeafDelivery d leaf s = .next t := by
  unfold execHaloLeafDelivery
  dsimp only
  split
  · exact ⟨_, rfl⟩
  · split
    · exact ⟨_, rfl⟩
    · split <;> exact ⟨_, rfl⟩

theorem write_delivers (h : s.NextRequest d 1 m) (hop : m.op = 0x1C4) :
    exec (.write d m) s = exec (.haloLeafDelivery d (haloOf m)) (s.takeTurn d m) := by
  obtain ⟨t, ht⟩ := haloLeafDelivery_next d (haloOf m) (s.takeTurn d m)
  rw [exec_haloLeafDelivery, ht, exec_write]
  exact congrArg _ (request_silent h (by simp only [if_pos hop, ht]))

theorem stepCounterUpdate_delivers (h : s.NextRequest d 10 m) :
    exec (.stepCounterUpdate d m) s = exec (.haloLeafDelivery d
      { ctx := m.ctx.toNat, dtree := 0, lx := 0, ly := 0, lz := 0, vmask := [], vals := [], rrec := m.addr, bit := 0,
        step := (nth m.opnds 0 0).toNat, reply := some m }) (s.takeTurn d m) := by
  obtain ⟨t, ht⟩ := haloLeafDelivery_next d
    { ctx := m.ctx.toNat, dtree := 0, lx := 0, ly := 0, lz := 0, vmask := [], vals := [], rrec := m.addr, bit := 0,
      step := (nth m.opnds 0 0).toNat, reply := some m } (s.takeTurn d m)
  rw [exec_haloLeafDelivery, ht, exec_stepCounterUpdate]
  exact congrArg _ (request_silent h (by simp only [ht]))

theorem readRequest_performed (h : s.NextRequest d 2 m) {bs : List Byte}
    (hr : (s.takeTurn d m).netRead d m.ctx.toNat m.addr.toNat (min m.len 8192) = .ok (bs, t)) :
    let q : Msg := { ackOf m with kind := 3, len := bs.length, data := bs }
    exec (.readRequest d m) s = .next (((t.setDie d ((t.die d).setRx { (t.die d).rxOf m with
      stored := (({ q with psn := m.psn } :: ((t.die d).rxOf m).stored).take 256) })).answer d m q).wake d) :=
  (exec_readRequest s d m).trans (congrArg _ (request_kept h (by simp only [hr])))

theorem atomic_performed {n v : Nat} {f : Nat → Nat} (hop : atomicOp m.op m.opnds = some (n, f)) (h : s.NextRequest d 4 m)
    (hr : (s.takeTurn d m).netAtomic d m.ctx.toNat m.addr.toNat n f = .ok (v, t)) :
    let q : Msg := { ackOf m with kind := 5, len := n, data := toBytes n v }
    exec (.atomic d m) s = .next (((t.setDie d ((t.die d).setRx { (t.die d).rxOf m with
      stored := (({ q with psn := m.psn } :: ((t.die d).rxOf m).stored).take 256) })).answer d m q).wake d) := by
  rw [exec_atomic]
  unfold execAtomic
  simp only [hop]
  exact congrArg _ (request_kept h (by simp only [hr]))

theorem reduce_performed {n v : Nat} {f : Nat → Nat} (hop : redOp m.op (nth m.opnds 0 0).toNat = some (n, f))
    (h : s.NextRequest d 6 m) (hr : (s.takeTurn d m).netAtomic d m.ctx.toNat m.addr.toNat n f = .ok (v, t)) :
    exec (.reduce d m) s = .next ((t.answer d m (ackOf m)).wake d) := by
  rw [exec_reduce]
  unfold execReduce
  simp only [hop]
  exact congrArg _ (request_turn h (by simp only [hr]))

/-- A launch is accepted or refused, and its response carries the status (R271, R272). -/
theorem launch_performed (h : s.NextRequest d 7 m) :
    let u := s.takeTurn d m
    let r : Vec := BitVec.ofNat 1024 (ofBytes (m.data.take 128))
    let st := u.acceptStatus d (fieldOf m.addr 0 6) m.ctx.toNat r
    let a : Msg := { ackOf m with kind := 8, status := BitVec.ofNat 16 st }
    (st ≠ 0 → exec (.launch d m) s = .next ((u.answer d m a).wake d)) ∧
    (st = 0 → exec (.launch d m) s = .next (((u.accept d (fieldOf m.addr 0 6) m.ctx.toNat r).answer d m
      { a with addr := BitVec.ofNat 64 (u.launches.length % 2 ^ 32) }).wake d)) := by
  refine ⟨fun hst => ?_, fun hst => ?_⟩
  · exact (exec_launch s d m).trans (congrArg _ (request_turn h (if_neg hst)))
  · exact (exec_launch s d m).trans (congrArg _ (request_turn h (if_pos hst)))

/-- A request to kill a launch of its context kills it (R304). -/
theorem stopRequest_kills (hkind : m.kind = 9) (h : s.NextRequest d 9 m) {l : Nat} (hl : nth m.opnds 0 0 = BitVec.ofNat 64 l)
    (hlt : l < 2 ^ 64) (hkill : nth m.opnds 1 0 = 1) (hlive : s.liveLaunch d m.ctx.toNat l) : Killed s (s.arrive d m) l := by
  have hturn := Answered.takeTurn s d m
  obtain ⟨x, hx, hdie, hctx, hphase⟩ := hlive
  have hxu : (s.takeTurn d m).launches[l]? = some x := hx
  have hnum : (nth m.opnds 0 0).toNat = l := by rw [hl, BitVec.toNat_ofNat, Nat.mod_eq_of_lt hlt]
  have hexec : execKillRequest l (s.takeTurn d m) = .next (((s.takeTurn d m).killLaunch l).dropLeaves x.die x.ctx) := by
    unfold execKillRequest
    simp only [hxu]
  have harrive : s.arrive d m = ((((s.takeTurn d m).killLaunch l).dropLeaves x.die x.ctx).answer d m (ackOf m)).wake d := by
    unfold State.arrive State.stopRequest
    rw [show m.kind.toNat = 9 by rw [hkind]; rfl]
    refine request_turn h ?_
    simp only [hnum, hxu, hdie, hctx, hkill, hexec, ne_eq, not_true_eq_false, decide_false, Bool.or_self, Bool.false_eq_true, if_false]
    rfl
  obtain ⟨hspared, hlaunches, -⟩ := dropLeaves_keeps ((s.takeTurn d m).killLaunch l) x.die x.ctx
  have hdone := Answered.done (((s.takeTurn d m).killLaunch l).dropLeaves x.die x.ctx) d m (ackOf m)
  rw [harrive]
  refine Killed.before (p := fun _ => False) (Fades.stored hturn.stored) (fun _ _ => not_false) ?_
  exact (killLaunch_killed hxu hphase).spared (hspared.trans hdone.stored.toSpared) (hdone.launches.trans hlaunches)

end

/-! Answers. -/

section
variable {s : State} {d k : Nat} {m q : Msg} {f : State → State}

theorem answers_unsound (h : ¬ (s.die d).wellFormed d k { m with die := BitVec.ofNat 2 d } = true) :
    s.answers d k m f = s.dropMsg d m.inPort := by
  unfold State.answers
  rw [Bool.not_eq_true] at h
  simp [h]

section
variable (h : (s.die d).wellFormed d k { m with die := BitVec.ofNat 2 d } = true)
include h

theorem answers_unknown (hq : (s.die d).answersFor m = none) : s.answers d k m f = s := by
  unfold State.answers
  simp [h, hq]

theorem answers_mismatched (hq : (s.die d).answersFor m = some q) (hne : ¬ (q.ctx = m.ctx ∧ q.die = m.die ∧ q.akey = m.akey)) :
    s.answers d k m f = s.dropMsg d m.inPort := by
  unfold State.answers
  have hbad : (decide (q.ctx ≠ m.ctx) || decide (q.die ≠ m.die) || decide (q.akey ≠ m.akey)) = true := by
    simp only [Bool.or_eq_true, decide_eq_true_eq]
    tauto
  simp only [h, hq, Bool.not_true, Bool.false_eq_true, if_false]
  rw [if_pos hbad]

theorem answers_named (hq : (s.die d).answersFor m = some q) (heq : q.ctx = m.ctx ∧ q.die = m.die ∧ q.akey = m.akey) :
    s.answers d k m f = f s := by
  unfold State.answers
  obtain ⟨hctx, hdie, hkey⟩ := heq
  simp [h, hq, hctx, hdie, hkey]

end
end

/-- Every answer is checked as one. -/
theorem exec_answers (s : State) (d : Nat) (m : Msg) {x : Instr × Nat}
    (hx : x ∈ [(Instr.readResponse d m, 3), (.atomicResponse d m, 5), (.ack d m, 13), (.nack d m, 14)]) :
    ∃ f, exec x.1 s = .next (s.answers d x.2 m f) := by
  simp only [List.mem_cons, List.not_mem_nil, or_false] at hx
  rcases hx with rfl | rfl | rfl | rfl
  · exact ⟨_, exec_readResponse s d m⟩
  · exact ⟨_, exec_atomicResponse s d m⟩
  · exact ⟨_, exec_ack s d m⟩
  · rw [exec_nack]
    unfold execNack
    dsimp only
    split <;> exact ⟨_, rfl⟩

theorem exec_answered (s : State) (d : Nat) (m : Msg) {x : Instr × Nat × BitVec 128}
    (hx : x ∈ [(Instr.readResponse d m, 3, BitVec.ofNat 128 (ofBytes ((Msg.payload m).take 16))),
       (.atomicResponse d m, 5, BitVec.ofNat 128 (ofBytes (m.data.take 16))), (.ack d m, 13, 0)]) :
    exec x.1 s = .next (s.answered d x.2.1 m x.2.2 none) := by
  simp only [List.mem_cons, List.not_mem_nil, or_false] at hx
  rcases hx with rfl | rfl | rfl
  · exact exec_readResponse s d m
  · exact exec_atomicResponse s d m
  · exact exec_ack s d m

/-- Settles O59: requests by their shell and what each performs, answers by their checks and what they bring. -/
theorem messagesArePerformedInOrder : Obligations.MessagesArePerformedInOrder := by
  unfold Obligations.MessagesArePerformedInOrder
  intro d m s ctx r next taken u stored counts dropped
  refine ⟨withHeader_header m, fun x hx h => exec_dropped hx h, fun h => ?_, fun h => ?_, fun x hx h hpsn hwait => ?_,
    fun q hconn hsrc hcls hq => mustWait_of_unperformed _ hconn hsrc hcls hq, fun x hx h hpsn => ?_,
    fun h hn htag hhalo => write_performed ⟨h, hn.1, hn.2⟩ htag hhalo, fun h hn hop => write_delivers ⟨h, hn.1, hn.2⟩ hop,
    fun h hn bs t hr => readRequest_performed ⟨h, hn.1, hn.2⟩ hr,
    fun n f v t hop h hn hr => atomic_performed hop ⟨h, hn.1, hn.2⟩ hr,
    fun n f v t hop h hn hr => reduce_performed hop ⟨h, hn.1, hn.2⟩ hr,
    fun h hn => launch_performed ⟨h, hn.1, hn.2⟩, fun h hn => stepCounterUpdate_delivers ⟨h, hn.1, hn.2⟩,
    fun l hkind h hn hl hlt hkill hlive => stopRequest_kills hkind ⟨h, hn.1, hn.2⟩ hl hlt hkill hlive,
    ⟨fun x hx => ⟨fun hs => ?_, fun q hs hq hne => ?_, fun hs hq => ?_⟩, fun x hx q hs hq => ?_, fun q hs hq => ⟨fun hc => ?_, fun hc hcls => ?_⟩⟩,
    fun conn cls => rfl⟩
  · rw [exec_atomic]
    unfold execAtomic
    rw [h]
    rfl
  · rw [exec_reduce]
    unfold execReduce
    rw [h]
    rfl
  · obtain ⟨keep, perform, hexec⟩ := exec_request s d m hx
    rw [hexec, request_admitted h, receive_waits hpsn hwait]
  · obtain ⟨keep, perform, hexec⟩ := exec_request s d m hx
    rw [hexec, request_admitted h]
    refine ⟨fun hback => ⟨fun q hq => congrArg _ (receive_again hpsn hback hq), fun hq => ?_⟩, fun hahead => ?_⟩
    · rw [receive_repeated hpsn hback hq]
      exact ⟨fun ho => congrArg _ (if_neg (by rw [ho]; decide)), fun ho => congrArg _ (if_pos ho)⟩
    · obtain ⟨high, hh⟩ := receive_early (keep := keep) (perform := perform) hpsn hahead
      exact ⟨high, congrArg _ hh⟩
  · obtain ⟨f, hf⟩ := exec_answers s d m hx
    exact hf.trans (congrArg _ (answers_unsound hs))
  · obtain ⟨f, hf⟩ := exec_answers s d m hx
    exact hf.trans (congrArg _ (answers_mismatched hs hq fun h => hne ⟨hq, h⟩))
  · obtain ⟨f, hf⟩ := exec_answers s d m hx
    exact hf.trans (congrArg _ (answers_unknown hs hq))
  · exact (exec_answered s d m hx).trans (congrArg _ (answers_named hs hq.1 hq.2))
  · rw [exec_nack]
    unfold execNack
    dsimp only
    rw [if_pos hc]
    exact congrArg _ (answers_named hs hq.1 hq.2)
  · rw [exec_nack]
    unfold execNack
    dsimp only
    rw [if_neg hc]
    exact congrArg _ ((answers_named hs hq.1 hq.2).trans (if_pos hcls))

end Sys2Proof.Machine
end

section
/-! The heads of the engines' queues and the copies they move (R268, R353, R386): the facts that O57 asks of COPY_PERFORM. -/

namespace Sys2Proof.Machine

open Sys2Proof

/-! The head of a queue. -/

theorem nth_set_same (l : List (List EngOp)) (n : Nat) (q : List EngOp) (h : nth l n [] ≠ [] ∨ q = []) :
    nth (l.set n q) n [] = q := by
  rw [nth_set]
  split
  · rfl
  · next hlt =>
    have hnone : nth l n [] = [] := by simp [nth, List.getElem?_eq_none (by simpa using hlt)]
    exact hnone.trans (h.resolve_left (fun hne => hne hnone)).symm

theorem Core.queue_setQueue {k : Core} {n : Nat} {q : List EngOp} (h : k.queue n ≠ [] ∨ q = []) :
    (k.setQueue n q).queue n = q := by
  unfold Core.queue at h ⊢
  unfold Core.setQueue
  split at h <;> rename_i hn <;> simp only [hn, if_true, if_false] <;> exact nth_set_same _ _ _ h

/-- A queue that has its head replaced begins with the new one, or is empty still. -/
theorem headOp_putHead_eq (s : State) (core n : Nat) (p : EngOp) :
    (s.putHead core n p).headOp core n = (s.headOp core n).map (fun _ => p) := by
  unfold State.headOp State.putHead
  rw [core_setCore, if_pos rfl]
  cases h : (s.core core).queue n with
  | nil => simp [Core.queue_setQueue (.inr rfl)]
  | cons x r => simp [Core.queue_setQueue (.inl (h ▸ List.cons_ne_nil x r))]

theorem eq_of_headOp_putHead {s : State} {core n : Nat} {o p : EngOp} (h : (s.putHead core n o).headOp core n = some p) : p = o := by
  rw [headOp_putHead_eq] at h
  obtain ⟨_, _, rfl⟩ := Option.map_eq_some_iff.1 h
  rfl

theorem headOp_putHead {s : State} {core n : Nat} {o : EngOp} (p : EngOp) (h : s.headOp core n = some o) :
    (s.putHead core n p).headOp core n = some p := by
  rw [headOp_putHead_eq, h]; rfl

/-! One unit of a copy. -/

section
variable {s u : State} {core q total : Nat} {o o' : EngOp} {unit : State → EngOp → Except EngErr (EngOp × State)}

theorem EngOp.left_iff {o : EngOp} {total : Nat} : o.left total = true ↔ o.pos < total := by simp [EngOp.left]

theorem copyUnits_rest (h : s.headOp core q = some o) (hpos : total ≤ o.pos) (n : Nat) :
    s.copyUnits core q total unit n = s := by
  cases n with
  | zero => rfl
  | succ n => simp [State.copyUnits, h, EngOp.left, Nat.not_lt.2 hpos]

theorem copyUnits_one (h : s.headOp core q = some o) (hr : o.ready = true) (hpos : o.pos < total)
    (hu : unit s o = .ok (o', u)) : s.copyUnits core q total unit 1 = u.putHead core q { o' with reqs := [], resp := [] } := by
  simp [State.copyUnits, h, hr, EngOp.left_iff.2 hpos, hu]

theorem copyUnits_stop {e : EngErr} (h : s.headOp core q = some o) (hr : o.ready = true) (hpos : o.pos < total)
    (hu : unit s o = .error e) (n : Nat) : s.copyUnits core q total unit (n + 1) = s.engStop core q o false e := by
  simp [State.copyUnits, h, hr, EngOp.left_iff.2 hpos, hu]

theorem copyEnd_unfinished {id : Nat} {land : Bool} (h : ∀ p, s.headOp core q = some p → p.pos < total) :
    s.copyEnd core q id total land = s := by
  unfold State.copyEnd
  split
  · rfl
  · next p hp => rw [if_pos (by simp [EngOp.left_iff.2 (h p hp)])]

end

/-! A line of a copy of bytes. -/

section
variable {s u : State} {o o' : EngOp} {v opt w0 w1 : Nat}

theorem copyLine_reads (hn : o.buf.length < min (128 - (w0 + o.pos) % 128) (o.len - o.pos))
    (h : s.copyLine o v opt w0 w1 = .ok (o', u)) :
    let at_ := (w1 + o.pos + o.buf.length) % 2 ^ 64
    o'.pos = o.pos ∧ at_ % 8 = 0 ∧ ∃ bs, o'.buf = o.buf ++ bs ∧
      s.engRead o (if v = 1 then 0 else 1) at_ (min (128 - at_ % 128) (o.len - (o.pos + o.buf.length))) = .ok (bs, u) := by
  rw [State.copyLine, if_pos hn, State.copyRead] at h
  split at h
  · cases h
  · next hal =>
    split at h
    · cases h
    · next bs s' hr => cases h; exact ⟨rfl, by simpa using hal, bs, rfl, hr⟩

theorem copyLine_writes (hn : min (128 - (w0 + o.pos) % 128) (o.len - o.pos) ≤ o.buf.length)
    (h : s.copyLine o v opt w0 w1 = .ok (o', u)) :
    let c := min (128 - (w0 + o.pos) % 128) (o.len - o.pos)
    o'.pos = o.pos + c ∧ o'.buf = o.buf.drop c ∧ s.copyPut o v opt w0 (o.buf.take c) = .ok u := by
  rw [State.copyLine, if_neg (Nat.not_lt.2 hn)] at h
  split at h
  · cases h
  · next s' hp => cases h; exact ⟨rfl, rfl, hp⟩

end

/-! COPY_PERFORM. -/

/-- The end of a turn of a COPY.halo: once its last leaf has been acknowledged the step counter follows (R237). -/
def State.planEnd (s : State) (core n id plan step : Nat) : State :=
  match s.headOp core n with
  | none => s
  | some o => if o.id ≠ id || o.left (planCount plan) || !o.ready then s
    else (s.haloCounter core n o plan step).putHead core n { o with performed := true }

theorem planEnd_unfinished {s : State} {core n id plan step : Nat} (h : ∀ p, s.headOp core n = some p → p.pos < planCount plan) :
    s.planEnd core n id plan step = s := by
  unfold State.planEnd
  split
  · rfl
  · next p hp => rw [if_pos (by simp [EngOp.left_iff.2 (h p hp)])]

theorem planEnd_finished {s : State} {core n plan step : Nat} {o : EngOp} (h : s.headOp core n = some o) (hr : o.ready = true)
    (hpos : planCount plan ≤ o.pos) :
    s.planEnd core n o.id plan step = (s.haloCounter core n o plan step).putHead core n { o with performed := true } := by
  unfold State.planEnd
  simp only [h]
  exact if_neg (by simp [EngOp.left, hr, Nat.not_lt.2 hpos])

theorem exec_copyPerform (core q lines : Nat) (s : State) :
    exec (.copyPerform core q lines) s = .next (s.copyPerform core (q % 4) lines) := rfl

section
variable {s u : State} {core n : Nat} {o : EngOp} {w0 w1 : DWord}
variable (h : s.headOp core n = some o) (hr : o.ready = true) (hp : o.copyAsks = true → o.permit = true)
include hr hp

theorem mayPerform : (!o.ready || (o.copyAsks && !o.permit)) = false := by
  cases ha : o.copyAsks with
  | true => simp [hr, hp ha]
  | false => simp [hr]

include h

theorem copyPerform_lines {v opt : Nat} (hk : o.kind = .copy v w0 w1 opt) (hv : v < 3) (ho : opt < 2) (lines : Nat) :
    s.copyPerform core n lines =
      (s.copyUnits core n o.len (fun s o => s.copyLine o v opt w0.toNat w1.toNat) (lines + 1)).copyEnd core n o.id o.len false := by
  have h2 : opt ≠ 2 := by omega
  have h3 : opt ≠ 3 := by omega
  have hle : ¬ 2 ≤ opt := by omega
  unfold State.copyPerform
  interval_cases v <;> simp [h, hk, mayPerform hr hp, h2, h3, hle]

theorem copyPerform_compress {v : Nat} (hk : o.kind = .copy v w0 w1 2) (hv : v < 3) (lines : Nat) :
    s.copyPerform core n lines = (s.copyUnits core n o.len (fun s o => s.compressTile o w0.toNat w1.toNat)
      (o.len / 64 + 2)).copyEnd core n o.id o.len false := by
  unfold State.copyPerform
  interval_cases v <;> simp [h, hk, mayPerform hr hp]

theorem copyPerform_expand {v : Nat} (hk : o.kind = .copy v w0 w1 3) (hv : v < 3) (lines : Nat) :
    s.copyPerform core n lines = (s.copyUnits core n o.len (fun s o => s.expandTile o w0.toNat w1.toNat)
      (o.len / 64 + 2)).copyEnd core n o.id o.len false := by
  unfold State.copyPerform
  interval_cases v <;> simp [h, hk, mayPerform hr hp]

theorem copyPerform_ingot {opt : Nat} (hk : o.kind = .copy 3 w0 w1 opt) (hl : o.len ≠ 0)
    (hg : s.ingotGate (dieOf core) (s.block o.blk).launch = some (true, u)) (lines : Nat) :
    s.copyPerform core n lines =
      (u.copyUnits core n o.len (fun s o => s.copyLine o 3 0 w0.toNat w1.toNat) (lines + 1)).copyEnd core n o.id o.len false := by
  unfold State.copyPerform
  simp [h, hk, mayPerform hr hp, hl, hg]

theorem copyPerform_copym {m : MatOp} (hk : o.kind = .copym w0 w1 m) (hs : o.stage = 0) (lines : Nat) :
    s.copyPerform core n lines =
      (s.copyUnits core n o.len (fun s o => s.copyLine o 0 0 w0.toNat w1.toNat) (lines + 1)).copyEnd core n o.id o.len true := by
  unfold State.copyPerform
  simp [h, hk, mayPerform hr hp, hs]

theorem copyPerform_plan {opt : Nat} (hk : o.kind = .copy 4 w0 w1 opt) (hd : o.desc ≠ []) (lines : Nat) :
    s.copyPerform core n lines =
      ((s.putHead core n o).copyUnits core n (planCount (ofBytes o.desc))
        (fun s p => s.haloLeaf core n p (ofBytes o.desc) w1.toNat) (lines + 1)).planEnd core n o.id (ofBytes o.desc) w1.toNat := by
  unfold State.copyPerform
  simp only [h, hk, mayPerform hr hp, State.haloPlan, if_pos hd] <;> rfl

theorem copyPerform_rem {red fence : Bool} {op : Nat} {pkg : BitVec 16} {die : BitVec 2} {ctx : BitVec 6} {qn : Nat}
    {ls : List RemLane} (hk : o.kind = .rem red op pkg die ctx fence qn ls) (lines : Nat) :
    s.copyPerform core n lines = s.remoteStep core n o := by
  unfold State.copyPerform
  simp [h, hk, mayPerform hr hp]

end

end Sys2Proof.Machine
end

section
/-! Colour-delta compression (R268): a turn of a tile of COPY.s2g with opt 2 and of COPY.g2g with opt 3. -/

namespace Sys2Proof.Machine

open Sys2Proof

theorem putMode_writes {s u : State} {o : EngOp} {f : Surface} {ds : List Byte} {mode : Byte} {n k : Nat}
    (hd : o.desc = ds ++ [mode]) (hn : ds.length = n) (h : s.engWrite o 1 ((f.mode + (f.t0 + k)) % 2 ^ 64) [mode] = .ok u) :
    s.putMode o f n k = .ok ({ o with pos := o.pos + 256, desc := ds }, u) := by
  subst hn
  simp [-Nat.reducePow, State.putMode, hd, h]

section
variable {s u v : State} {o : EngOp} {w0 w1 : Nat}

theorem compressTile_surface {bs : List Byte} (hd : o.desc = []) (h : s.surface o w0 = .ok (bs, u)) :
    s.compressTile o w0 w1 = .ok ({ o with desc := bs }, u) := by
  simp [-Nat.reducePow, State.compressTile, hd, h]

theorem ne_nil_of_length {bs : List Byte} {n : Nat} (h : bs.length = n + 1) : bs ≠ [] := by
  rintro rfl; simp at h

theorem compressTile_packs {raw : List Byte} (hd : o.desc.length = 32) (hb : o.buf = [])
    (h : s.engRead o 0 (w1 + o.pos) 256 = .ok (raw, u)) :
    s.compressTile o w0 w1 = .ok ({ o with buf := BitVec.ofNat 8 (packTile (surfaceOf o.desc).clear raw).1 ::
      (packTile (surfaceOf o.desc).clear raw).2 }, u) := by
  simp [-Nat.reducePow, State.compressTile, ne_nil_of_length hd, hd, hb, h, List.take_of_length_le hd.le]

theorem compressTile_writes {mode : Byte} {bs : List Byte} (hd : o.desc.length = 32) (hb : o.buf = mode :: bs)
    (h : s.engWrite o 1 (((surfaceOf o.desc).data + 256 * ((surfaceOf o.desc).t0 + o.pos / 256)) % 2 ^ 64) bs = .ok u) :
    s.compressTile o w0 w1 = .ok ({ o with desc := o.desc ++ [mode], buf := [] }, u) := by
  simp [-Nat.reducePow, State.compressTile, ne_nil_of_length hd, hd, hb, h, List.take_of_length_le hd.le]

theorem compressTile_mode {ds : List Byte} {mode : Byte} (hd : o.desc = ds ++ [mode]) (hn : ds.length = 32)
    (h : s.engWrite o 1 (((surfaceOf ds).mode + ((surfaceOf ds).t0 + o.pos / 256)) % 2 ^ 64) [mode] = .ok u) :
    s.compressTile o w0 w1 = .ok ({ o with pos := o.pos + 256, desc := ds }, u) := by
  have htake : o.desc.take 32 = ds := by simp [hd, ← hn]
  have hlen : 32 < o.desc.length := by simp [hd, hn]
  rw [State.compressTile, if_neg (by simp [hd]), if_pos hlen, htake]
  exact putMode_writes hd hn h

theorem expandTile_surfaces {db fb : List Byte} (hd : o.desc = []) (hdb : s.surface o w0 = .ok (db, u))
    (hfb : u.surface o w1 = .ok (fb, v)) :
    s.expandTile o w0 w1 =
      if !decide (field w0 0 57 = field w1 0 57) && surfacesMeet (surfaceOf db) (surfaceOf fb) (o.len / 256) then
        .error (.bad eBadtex w1)
      else .ok ({ o with desc := db ++ fb }, v) := by
  simp [State.expandTile, hd, hdb, hfb]

section
variable {db fb : List Byte} (hd : o.desc = db ++ fb) (hdb : db.length = 32) (hfb : fb.length = 32)
include hd hdb hfb

theorem expandTile_described :
    s.expandTile o w0 w1 =
      let d := surfaceOf db
      let f := surfaceOf fb
      let k := o.pos / 256
      match o.buf with
      | [] => match s.engRead o 1 ((f.mode + (f.t0 + k)) % 2 ^ 64) 1 with
        | .error e => .error e
        | .ok (mb, s) => .ok (if decide (field w0 0 57 = field w1 0 57) && decide (ofBytes mb = 0) then
            { o with pos := o.pos + 256 } else { o with buf := mb }, s)
      | [mb] => match s.engRead o 1 ((f.data + 256 * (f.t0 + k)) % 2 ^ 64) (slotBytes mb.toNat) with
        | .error e => .error e
        | .ok (slot, s) => match unpackTile f.clear mb.toNat slot with
          | none => .error (.bad eBadtex ((f.mode + (f.t0 + k)) % 2 ^ 64))
          | some raw => .ok ({ o with buf := raw }, s)
      | raw => match s.engWrite o 1 ((d.data + 256 * (d.t0 + k)) % 2 ^ 64) raw with
        | .error e => .error e
        | .ok s => .ok ({ o with desc := o.desc ++ [0], buf := [] }, s) := by
  have hlen : o.desc.length = 64 := by simp [hd, hdb, hfb]
  have ht : o.desc.take 32 = db := by simp [hd, ← hdb]
  have hr : (o.desc.drop 32).take 32 = fb := by simp [hd, ← hdb, hfb]
  rw [State.expandTile, if_neg (ne_nil_of_length hlen), if_neg (by omega), ht, hr] <;> rfl

theorem expandTile_reads_mode {mb : List Byte} (hb : o.buf = [])
    (h : s.engRead o 1 (((surfaceOf fb).mode + ((surfaceOf fb).t0 + o.pos / 256)) % 2 ^ 64) 1 = .ok (mb, u)) :
    s.expandTile o w0 w1 = .ok (if decide (field w0 0 57 = field w1 0 57) && decide (ofBytes mb = 0) then
      { o with pos := o.pos + 256 } else { o with buf := mb }, u) := by
  rw [expandTile_described hd hdb hfb]
  simp [-Nat.reducePow, hb, h]

theorem expandTile_unpacks {mb : Byte} {slot : List Byte} (hb : o.buf = [mb])
    (h : s.engRead o 1 (((surfaceOf fb).data + 256 * ((surfaceOf fb).t0 + o.pos / 256)) % 2 ^ 64) (slotBytes mb.toNat) =
      .ok (slot, u)) :
    s.expandTile o w0 w1 = match unpackTile (surfaceOf fb).clear mb.toNat slot with
      | none => .error (.bad eBadtex (((surfaceOf fb).mode + ((surfaceOf fb).t0 + o.pos / 256)) % 2 ^ 64))
      | some raw => .ok ({ o with buf := raw }, u) := by
  rw [expandTile_described hd hdb hfb]
  simp [-Nat.reducePow, hb, h]

theorem expandTile_writes (hb : 1 < o.buf.length)
    (h : s.engWrite o 1 (((surfaceOf db).data + 256 * ((surfaceOf db).t0 + o.pos / 256)) % 2 ^ 64) o.buf = .ok u) :
    s.expandTile o w0 w1 = .ok ({ o with desc := o.desc ++ [0], buf := [] }, u) := by
  rw [expandTile_described hd hdb hfb]
  match hbuf : o.buf, hb with
  | x :: y :: r, _ => simp [-Nat.reducePow, ← hbuf, h]

end

theorem expandTile_mode {ds : List Byte} {mode : Byte} (hd : o.desc = ds ++ [mode]) (hn : ds.length = 64)
    (h : s.engWrite o 1 (((surfaceOf (ds.take 32)).mode + ((surfaceOf (ds.take 32)).t0 + o.pos / 256)) % 2 ^ 64) [mode] = .ok u) :
    s.expandTile o w0 w1 = .ok ({ o with pos := o.pos + 256, desc := ds }, u) := by
  have htake : o.desc.take 32 = ds.take 32 := by rw [hd, List.take_append_of_le_length (by omega)]
  have hlen : 64 < o.desc.length := by simp [hd, hn]
  rw [State.expandTile, if_neg (by simp [hd]), if_pos hlen, htake]
  exact putMode_writes hd hn h

end

/-! Modes. -/

theorem packTile_uniform {clear : Nat} {raw : List Byte} (h : ∀ n, n < 64 → ofBytes ((raw.drop (4 * n)).take 4) = clear) :
    packTile clear raw = (1, []) := by
  rw [packTile, if_pos (by simpa using h)]

theorem unpackTile_reserved (clear : Nat) (slot : List Byte) {mode : Nat} (h : 10 ≤ mode) : unpackTile clear mode slot = none := by
  rw [unpackTile, if_neg (by omega), if_neg (by omega), if_neg (by omega)]

end Sys2Proof.Machine
end

section
/-! What the copy engine sends (R237, R386): the leaves of a halo plan and its step counter, and the lanes of an RST or RRED. -/

namespace Sys2Proof.Machine

open Sys2Proof

/-! A message sent stands last among those that its connection holds unacknowledged (R319). -/

theorem route_dies (s : State) (p : BitVec 128) (m : Msg) : (s.route p m).dies = s.dies := by
  unfold State.route
  split <;> rfl

theorem route_die (s : State) (p : BitVec 128) (m : Msg) (d : Nat) : (s.route p m).die d = s.die d :=
  congrArg (fun l => nth l d Die.reset) (route_dies s p m)

theorem txOf_keys (x : Die) (conn : BitVec 32) (cls : BitVec 2) (peer : BitVec 128) :
    (x.txOf conn cls peer).conn = conn ∧ (x.txOf conn cls peer).cls = cls ∧ (x.txOf conn cls peer).peer = peer := by
  unfold Die.txOf
  cases h : x.tx.find? (fun t => t.conn = conn && t.cls = cls && t.peer = peer) with
  | none => exact ⟨rfl, rfl, rfl⟩
  | some t => simpa [and_assoc] using List.find?_some h

theorem txOf_setTx (x : Die) (t : TxConn) : (x.setTx t).txOf t.conn t.cls t.peer = t := by
  simp [Die.txOf, Die.setTx]

theorem send_txOf {s : State} {d : Nat} (hd : d < s.dies.length) (peer : BitVec 128) (m : Msg) :
    ((s.send d peer m).2.die d).txOf m.conn m.cls peer =
      let t := (s.die d).txOf m.conn m.cls peer
      { t with
        next := t.next + 1
        unacked := t.unacked ++ [{ m with
          psn := t.next, src := (s.die d).endpoint, apsn := (s.die d).apsnOf m.cls peer, ackReq := true }] } := by
  obtain ⟨hconn, hcls, hpeer⟩ := txOf_keys (s.die d) m.conn m.cls peer
  unfold State.send
  rw [route_die, State.die_setDie, if_pos ⟨rfl, hd⟩]
  have h := txOf_setTx (s.die d) { (s.die d).txOf m.conn m.cls peer with
    next := ((s.die d).txOf m.conn m.cls peer).next + 1
    unacked := ((s.die d).txOf m.conn m.cls peer).unacked ++ [{ m with
      psn := ((s.die d).txOf m.conn m.cls peer).next, src := (s.die d).endpoint, apsn := (s.die d).apsnOf m.cls peer,
      ackReq := true }] }
  simpa only [hconn, hcls, hpeer] using h

theorem send_dies (s : State) (d : Nat) (peer : BitVec 128) (m : Msg) :
    (s.send d peer m).2.dies.length = s.dies.length := by
  unfold State.send
  rw [route_dies]
  exact List.length_set

/-- The step counter of a plan (R237). -/
theorem haloCounter_sends {s : State} {core q : Nat} {o : EngOp} {plan step : Nat} {p : PeerEntry}
    (hp : s.haloPeer core (s.ctxOfWarp o.warp) plan = some p) (hd : dieOf core < s.dies.length) :
    let tx := fun (t : State) => ((t.die (dieOf core)).txOf (peerConn p core q) 0 p.addr).unacked.map
      (fun m => (m.kind, m.addr, m.opnds))
    tx (s.haloCounter core q o plan step) =
      tx s ++ [(0x0A, BitVec.ofNat 64 (field plan 320 64), [BitVec.ofNat 64 step])] := by
  dsimp only
  unfold State.haloCounter
  simp only [hp]
  have h := send_txOf hd p.addr { Msg.blank with
    kind := 0x0A, cls := 0, conn := peerConn p core q, die := p.die, ctx := p.ctx, akey := p.akey,
    addr := BitVec.ofNat 64 (field plan 320 64), opnds := [BitVec.ofNat 64 step] }
  dsimp only at h
  rw [h, List.map_append]
  rfl

/-! The lanes of an RST or RRED (R386). -/

/-- The kinds, addresses and fences of what a connection of class 1 to a peer holds unacknowledged. -/
def State.sentOn (s : State) (d : Nat) (conn : BitVec 32) (peer : BitVec 128) : List (BitVec 8 × DWord × Bool) :=
  ((s.die d).txOf conn 1 peer).unacked.map (fun m => (m.kind, m.addr, m.fence))

theorem send_sentOn {s : State} {d : Nat} (hd : d < s.dies.length) (peer : BitVec 128) {m : Msg} (hcls : m.cls = 1) :
    (s.send d peer m).2.sentOn d m.conn peer = s.sentOn d m.conn peer ++ [(m.kind, m.addr, m.fence)] := by
  have h := send_txOf hd peer m
  rw [hcls] at h
  rw [State.sentOn, h, List.map_append]
  rfl

/-- The message of a lane. -/
def laneMsg (p : PeerEntry) (conn : BitVec 32) (red : Bool) (op : Nat) (fence : Bool) (l : RemLane) : Msg :=
  { Msg.blank with
    kind := if red then 6 else 1, conn := conn, die := p.die, ctx := p.ctx, akey := p.akey, fence := fence, addr := l.addr,
    len := 4, op := if red then op else 0, opnds := if red then [l.data] else [],
    data := if red then [] else toBytes 4 l.data.toNat }

section
variable {d : Nat} {p : PeerEntry} {conn : BitVec 32} {red : Bool} {op : Nat} {fence : Bool}

theorem sendLane_eq (s : State) (l : RemLane) :
    s.sendLane d p conn red op fence l =
      ({ l with sent := some ⟨3, l.addr, 4, conn, (s.send d p.addr (laneMsg p conn red op fence l)).1, p.addr⟩ },
        (s.send d p.addr (laneMsg p conn red op fence l)).2) := rfl

theorem sendLane_sends {s : State} (hd : d < s.dies.length) (l : RemLane) :
    ∃ u r, s.sendLane d p conn red op fence l = ({ l with sent := some r }, u) ∧ u.dies.length = s.dies.length ∧
      u.sentOn d conn p.addr = s.sentOn d conn p.addr ++ [((if red then 6 else 1 : BitVec 8), l.addr, fence)] :=
  ⟨_, _, sendLane_eq s l, send_dies .., send_sentOn hd p.addr (m := laneMsg p conn red op fence l) rfl⟩

/-- Each lane that has not been sent is sent, in ascending order; of a lane only what was sent changes. -/
theorem sendLanes_sends (ls : List RemLane) : ∀ {s : State}, d < s.dies.length →
    ∃ ls' u, s.sendLanes d p conn red op fence ls = (ls', u) ∧
      ls'.map (fun l => (l.lane, l.addr, l.data, l.acked)) = ls.map (fun l => (l.lane, l.addr, l.data, l.acked)) ∧
      (∀ l ∈ ls', l.acked = true ∨ l.sent ≠ none) ∧
      u.sentOn d conn p.addr = s.sentOn d conn p.addr ++
        (ls.filter (fun l => l.sent.isNone && !l.acked)).map (fun l => ((if red then 6 else 1 : BitVec 8), l.addr, fence)) := by
  induction ls with
  | nil => exact fun {s} _ => ⟨[], s, rfl, rfl, by simp, by simp⟩
  | cons l ls ih =>
    intro s hd
    by_cases hl : (l.sent.isNone && !l.acked) = true
    · obtain ⟨t, r, hlane, hlen, htx⟩ := sendLane_sends (p := p) (conn := conn) (red := red) (op := op) (fence := fence) hd l
      obtain ⟨ls', u, hrest, hsame, hall, hsent⟩ := ih (s := t) (hlen ▸ hd)
      refine ⟨{ l with sent := some r } :: ls', u, ?_, ?_, ?_, ?_⟩
      · simp [State.sendLanes, hl, hlane, hrest]
      · simp [hsame]
      · simpa using hall
      · simp [hl, hsent, htx]
    · obtain ⟨ls', u, hrest, hsame, hall, hsent⟩ := ih hd
      refine ⟨l :: ls', u, ?_, ?_, ?_, ?_⟩
      · simp [State.sendLanes, hl, hrest]
      · simp [hsame]
      · refine List.forall_mem_cons.2 ⟨?_, hall⟩
        cases hs : l.sent <;> simp_all
      · simp [hl, hsent]

end

section
variable {s : State} {core n : Nat} {o : EngOp} {red fence : Bool} {op : Nat} {pkg : BitVec 16} {die : BitVec 2} {ctx : BitVec 6}
  {qn : Nat} {ls : List RemLane}
variable (hk : o.kind = .rem red op pkg die ctx fence qn ls)
include hk

theorem remoteStep_performed (h : ∀ l ∈ ls, l.acked = true) : s.remoteStep core n o = s.putHead core n { o with performed := true } := by
  unfold State.remoteStep
  simp only [hk]
  exact if_pos (List.all_eq_true.2 h)

section
variable (hne : ∃ l ∈ ls, l.acked = false)
include hne

theorem remoteStep_awaits (h : ∀ l ∈ ls, l.acked = true ∨ l.sent ≠ none) : s.remoteStep core n o = s := by
  obtain ⟨l, hl, hacked⟩ := hne
  have hsent : ∀ x ∈ ls, (x.acked || x.sent.isSome) = true := fun x hx => by simpa [Option.isSome_iff_ne_none] using h x hx
  unfold State.remoteStep
  simp only [hk]
  exact (if_neg fun hall => by simp [List.all_eq_true.1 hall l hl] at hacked).trans (if_pos (List.all_eq_true.2 hsent))

end

section
variable (hne : ∃ l ∈ ls, l.acked = false ∧ l.sent = none)
include hne

theorem remoteStep_unsent :
    s.remoteStep core n o = match ((s.die (dieOf core)).ctx (s.ctxOfWarp o.warp)).peer pkg die ctx with
      | none => s.engFail core n o false (.prot, 11) 0
      | some p =>
        if fence && (s.die (dieOf core)).otherClass (peerConn p core qn) 1 p.addr then s
        else
          (s.sendLanes (dieOf core) p (peerConn p core qn) red op fence ls).2.putHead core n
            { o with
              kind := .rem red op pkg die ctx fence qn (s.sendLanes (dieOf core) p (peerConn p core qn) red op fence ls).1 } := by
  obtain ⟨l, hl, hacked, hsent⟩ := hne
  unfold State.remoteStep
  simp only [hk]
  exact (if_neg fun hall => by simp [List.all_eq_true.1 hall l hl] at hacked).trans
    (if_neg fun hall => by simpa [hacked, hsent] using List.all_eq_true.1 hall l hl)

theorem remoteStep_noPeer (hp : ((s.die (dieOf core)).ctx (s.ctxOfWarp o.warp)).peer pkg die ctx = none) :
    s.remoteStep core n o = s.engFail core n o false (.prot, 11) 0 := by
  rw [remoteStep_unsent hk hne, hp]

variable {p : PeerEntry} (hp : ((s.die (dieOf core)).ctx (s.ctxOfWarp o.warp)).peer pkg die ctx = some p)
include hp

theorem remoteStep_fenced (hf : fence = true) (hc : (s.die (dieOf core)).otherClass (peerConn p core qn) 1 p.addr = true) :
    s.remoteStep core n o = s := by
  rw [remoteStep_unsent hk hne, hp]
  exact if_pos (by rw [hf, hc]; rfl)

theorem remoteStep_sends (hf : fence = false ∨ (s.die (dieOf core)).otherClass (peerConn p core qn) 1 p.addr = false)
    {ls' : List RemLane} {u : State}
    (hs : s.sendLanes (dieOf core) p (peerConn p core qn) red op fence ls = (ls', u)) :
    s.remoteStep core n o = u.putHead core n { o with kind := .rem red op pkg die ctx fence qn ls' } := by
  rw [remoteStep_unsent hk hne, hp]
  refine (if_neg (by rcases hf with h | h <;> rw [h] <;> simp)).trans ?_
  simp only [hs]

end

end

end Sys2Proof.Machine
end

section
/-! The leaves of a halo plan (R237), one turn of COPY.halo after the other. -/

namespace Sys2Proof.Machine

open Sys2Proof

section
variable {s u v : State} {core n : Nat} {o o' : EngOp} {w0 w1 : DWord} {opt : Nat}

theorem engAsk_head {asks : List HostAsk} {p : EngOp} (h : (s.engAsk core n o asks).headOp core n = some p) : p.pos = o.pos := by
  unfold State.engAsk at h
  rw [eq_of_headOp_putHead h]

theorem engFail_head {mat : Bool} {e : Err} {a : Nat} {p : EngOp} (he : e ≠ eDiscarded) (hw : (s.warp o.warp).phase = .running)
    (hne : (s.warp o.warp).entries ≠ []) (h : (s.engFail core n o mat e a).headOp core n = some p) : p.pos = o.pos := by
  unfold State.engFail at h
  simp only [if_neg he] at h
  rw [if_pos (by simp [hw, hne])] at h
  rw [eq_of_headOp_putHead h]

section
variable (h : s.headOp core n = some o) (hr : o.ready = true) (hp : o.copyAsks = true → o.permit = true)
  (hk : o.kind = .copy 4 w0 w1 opt) (hd : o.desc ≠ [])
include h hr hp hk hd

section
variable (hpos : o.pos < planCount (ofBytes o.desc))
include hpos

theorem planLeaf_sent (hl : (s.putHead core n o).haloLeaf core n o (ofBytes o.desc) w1.toNat = .ok (o', v))
    (hpos' : o'.pos < planCount (ofBytes o.desc)) :
    s.copyPerform core n 0 = v.putHead core n { o' with reqs := [], resp := [] } := by
  rw [copyPerform_plan h hr hp hk hd, copyUnits_one (headOp_putHead o h) hr hpos hl]
  exact planEnd_unfinished fun p hhead => eq_of_headOp_putHead hhead ▸ hpos'

theorem planLeaf_stops {e : EngErr} (hl : (s.putHead core n o).haloLeaf core n o (ofBytes o.desc) w1.toNat = .error e)
    (hpos' : ∀ p, ((s.putHead core n o).engStop core n o false e).headOp core n = some p → p.pos = o.pos) :
    s.copyPerform core n 0 = (s.putHead core n o).engStop core n o false e := by
  rw [copyPerform_plan h hr hp hk hd, copyUnits_stop (headOp_putHead o h) hr hpos hl]
  exact planEnd_unfinished fun p hhead => hpos' p hhead ▸ hpos

end

theorem plan_ends (hpos : planCount (ofBytes o.desc) ≤ o.pos) :
    s.copyPerform core n 0 = ((s.putHead core n o).haloCounter core n o (ofBytes o.desc) w1.toNat).putHead core n
      { o with performed := true } := by
  have hhead := headOp_putHead o h
  rw [copyPerform_plan h hr hp hk hd, copyUnits_rest hhead hpos]
  exact planEnd_finished hhead hr hpos

end

/-! A leaf. -/

section
variable {plan step q : Nat}

theorem haloLeaf_unaligned (h : (field plan 192 64 + 8 * o.pos) % 2 ^ 64 % 8 ≠ 0) :
    s.haloLeaf core q o plan step = .error (.bad eAlign ((field plan 192 64 + 8 * o.pos) % 2 ^ 64)) := by
  unfold State.haloLeaf
  exact if_pos h

variable {ob : List Byte} (hal : (field plan 192 64 + 8 * o.pos) % 2 ^ 64 % 8 = 0)
  (hrd : s.ioRead (s.whoOfWarp o.warp) o.resp ((field plan 192 64 + 8 * o.pos) % 2 ^ 64) 8 = .ok (ob, u))
  (hin : ∀ i ∈ [0, 16, 32], field (ofBytes ob) i 16 < 16384)
include hal hrd hin

theorem haloLeaf_read :
    s.haloLeaf core q o plan step = match hostAns o.resp 3 o.pos 0 with
      | some (.ok _) => .ok ({ o with pos := o.pos + 1 }, u)
      | some (.error e) => .error (.bad e (field plan 320 64))
      | none => match u.engTree o.resp (fun t => t.haloSource (s.whoOfWarp o.warp) (field plan 0 64)
          (leafOrigin (field (ofBytes ob) 0 16, field (ofBytes ob) 16 16, field (ofBytes ob) 32 16))) with
        | .error e => .error e
        | .ok ((vm, xs), t) => match t.haloPeer core (t.ctxOfWarp o.warp) plan with
          | none => .error (.bad (.prot, 11) (field plan 64 64))
          | some p => .error (.ask [⟨3, o.pos, 0, field plan 320 64, 0x1C4,
              [BitVec.ofNat 64 (field plan 128 64), BitVec.ofNat 64 (ofBytes ob), BitVec.ofNat 64 (field plan 320 64),
                BitVec.ofNat 64 (field plan 288 32 + o.pos), BitVec.ofNat 64 step],
              vm ++ xs, some (peerConn p core q, p.addr, p.die, p.ctx, p.akey, false)⟩]) := by
  have hany : ¬ ([0, 16, 32].any (fun i => decide (16384 ≤ field (ofBytes ob) i 16))) = true := by
    simpa [List.any_eq_true] using hin
  unfold State.haloLeaf
  simp only [hrd]
  exact (if_neg (not_not.2 hal)).trans ((if_neg hany).trans rfl)

theorem haloLeaf_acknowledged {x : Nat} (ha : hostAns o.resp 3 o.pos 0 = some (.ok x)) :
    s.haloLeaf core q o plan step = .ok ({ o with pos := o.pos + 1 }, u) := by
  rw [haloLeaf_read hal hrd hin, ha]

theorem haloLeaf_refused {e : Err} (ha : hostAns o.resp 3 o.pos 0 = some (.error e)) :
    s.haloLeaf core q o plan step = .error (.bad e (field plan 320 64)) := by
  rw [haloLeaf_read hal hrd hin, ha]

variable {vm xs : List Byte} (ha : hostAns o.resp 3 o.pos 0 = none)
  (hsrc : u.engTree o.resp (fun t => t.haloSource (s.whoOfWarp o.warp) (field plan 0 64)
    (leafOrigin (field (ofBytes ob) 0 16, field (ofBytes ob) 16 16, field (ofBytes ob) 32 16))) = .ok ((vm, xs), v))
include ha hsrc

theorem haloLeaf_noPeer (hpeer : v.haloPeer core (v.ctxOfWarp o.warp) plan = none) :
    s.haloLeaf core q o plan step = .error (.bad (.prot, 11) (field plan 64 64)) := by
  rw [haloLeaf_read hal hrd hin, ha]
  simp only [hsrc, hpeer]

theorem haloLeaf_sends {p : PeerEntry} (hpeer : v.haloPeer core (v.ctxOfWarp o.warp) plan = some p) :
    s.haloLeaf core q o plan step = .error (.ask [⟨3, o.pos, 0, field plan 320 64, 0x1C4,
      [BitVec.ofNat 64 (field plan 128 64), BitVec.ofNat 64 (ofBytes ob), BitVec.ofNat 64 (field plan 320 64),
        BitVec.ofNat 64 (field plan 288 32 + o.pos), BitVec.ofNat 64 step],
      vm ++ xs, some (peerConn p core q, p.addr, p.die, p.ctx, p.akey, false)⟩]) := by
  rw [haloLeaf_read hal hrd hin, ha]
  simp only [hsrc, hpeer]

end

end

end Sys2Proof.Machine
end

section
/-! The Ingot store's calendar, the matrix queues and the collectives (R152, R154, R201, R212, R214, R324, R325). -/

namespace Sys2Proof.Machine

open Sys2Proof

section
variable (s : State) (die core q : Nat)

theorem exec_ingotLoadState : exec (.ingotLoadState die) s = execIngotLoadState die s := rfl
theorem exec_bankRefresh : exec (.bankRefresh die) s = execBankRefresh die s := rfl
theorem exec_bankRefreshEnd : exec (.bankRefreshEnd die) s = execBankRefreshEnd die s := rfl
theorem exec_followOnMmaEntry : exec (.followOnMmaEntry core q) s = execFollowOnMmaEntry core q s := rfl
theorem exec_matrixOperationPerform :
    exec (.matrixOperationPerform core q) s = execMatrixOperationPerform core q s := rfl
theorem exec_engineOperationCompletion :
    exec (.engineOperationCompletion core q) s = execEngineOperationCompletion core q s := rfl
theorem exec_collectiveRequest : exec (.collectiveRequest core q) s = execCollectiveRequest core q s := rfl
theorem exec_collectiveResultCopy : exec (.collectiveResultCopy core q) s = execCollectiveResultCopy core q s := rfl
theorem exec_riddleJobCompletion : exec (.riddleJobCompletion die) s = execRiddleJobCompletion die s := rfl
theorem exec_binRasterisation : exec (.binRasterisation die q) s = execBinRasterisation die q s := rfl

end

theorem ingotLoadState_loads {s : State} {die l : Nat} (hl : (s.die die).loader = some l) (hload : (s.die die).ingotLoad = false)
    (hheld : s.ingotHeld die l = true) (hfree : s.foreignBlock die l = false) :
    exec (.ingotLoadState die) s = .next (s.setDie die { s.die die with ingotLoad := true }) := by
  rw [exec_ingotLoadState, execIngotLoadState]
  simp [hl, hload, hheld, hfree]

/-- Clocks pass and nothing but what counts them changes. -/
theorem passClocks_passes (s : State) (n : Nat) :
    (s.passClocks n).clock = s.clock + n ∧ (s.passClocks n).mem = s.mem ∧ (s.passClocks n).dies = s.dies ∧
      (s.passClocks n).cores = s.cores ∧ (s.passClocks n).blocks = s.blocks ∧ (s.passClocks n).launches = s.launches := by
  simp

theorem exec_bankRefreshEnd_eq (s : State) (die : Nat) :
    let phase := s.calPhase die % Config.bankPeriod
    exec (.bankRefreshEnd die) s =
      .next (s.passClocks (if phase < Config.bankRefresh then Config.bankRefresh - phase else 0)) := by
  rw [exec_bankRefreshEnd, execBankRefreshEnd]
  dsimp only
  split <;> rfl

/-! Matrix operations. -/

section
variable {s u : State} {core mq q : Nat} {o : EngOp} {m : MatOp} {w0 w1 : DWord}

theorem followOn_enters (h : s.headOp core (q % 4) = some o) (hk : o.kind = .copym w0 w1 m) (hs : o.stage = 1)
    (hroom : ((s.core core).queue (4 + dQ m.desc)).length < 16) :
    let u := s.putHead core (q % 4) { o with stage := 2, performed := true }
    let k := u.core core
    exec (.followOnMmaEntry core q) s = .next { (u.setCore core (k.setQueue (4 + dQ m.desc) (k.queue (4 + dQ m.desc) ++
      [{ o with id := s.seq, kind := .mat m, len := 0, pos := 0, stage := 0, desc := [], buf := [], permit := false,
                parent := some o.id, reqs := [], resp := [] }]))) with seq := u.seq + 1 } := by
  have hdepth : ¬ Config.queueDepth ≤ ((s.core core).queue (4 + dQ m.desc)).length := Nat.not_le.2 hroom
  rw [exec_followOnMmaEntry, execFollowOnMmaEntry]
  simp only [h, hk]
  exact if_neg (by simp [hs, hdepth])

section
variable (h : s.headOp core (4 + mq % 2) = some o) (hk : o.kind = .mat m) (hr : o.ready = true)
  (hp : o.followAsks = true → o.permit = true)
include h hk

theorem matrix_waits (hw : s.matWaits o m = true) : exec (.matrixOperationPerform core mq) s = .next s := by
  rw [exec_matrixOperationPerform, execMatrixOperationPerform]
  simp only [h, hk]
  exact if_pos (by simp [hw])

include hr hp

theorem matrix_performs (hw : s.matWaits o m = false) :
    exec (.matrixOperationPerform core mq) s =
      if m.isSta then .next (s.mstaPerform core (4 + mq % 2) mq o m)
      else match s.matGroup o m o.pos with
        | .ok s => .next (s.putHead core (4 + mq % 2) { o with
            pos := o.pos + 1, performed := decide (m.groups ≤ o.pos + 1), reqs := [], resp := [] })
        | .error (.ask asks) => .next (s.engAsk core (4 + mq % 2) o asks)
        | .error (.bad e a) => .next (s.matFail core (4 + mq % 2) mq o m o.pos e a) := by
  have hpermit : (o.followAsks && !o.permit) = false := by
    cases ha : o.followAsks with
    | true => simp [hp ha]
    | false => rfl
  rw [exec_matrixOperationPerform, execMatrixOperationPerform]
  simp only [h, hk]
  exact (if_neg (by simp [hr, hpermit, hw])).trans rfl

theorem matrix_commits (hw : s.matWaits o m = false) (hsta : m.isSta = false) (hg : s.matGroup o m o.pos = .ok u) :
    exec (.matrixOperationPerform core mq) s = .next (u.putHead core (4 + mq % 2)
      { o with pos := o.pos + 1, performed := decide (m.groups ≤ o.pos + 1), reqs := [], resp := [] }) := by
  rw [matrix_performs h hk hr hp hw, hsta, hg]
  rfl

theorem matrix_fails {e : Err} {a : Nat} (hw : s.matWaits o m = false) (hsta : m.isSta = false)
    (hg : s.matGroup o m o.pos = .error (.bad e a)) :
    exec (.matrixOperationPerform core mq) s = .next (s.matFail core (4 + mq % 2) mq o m o.pos e a) := by
  rw [matrix_performs h hk hr hp hw, hsta, hg]
  rfl

theorem matrix_stores (hw : s.matWaits o m = false) (hsta : m.isSta = true) :
    exec (.matrixOperationPerform core mq) s = .next (s.mstaPerform core (4 + mq % 2) mq o m) := by
  rw [matrix_performs h hk hr hp hw, hsta]
  rfl

end

theorem mstaPerform_asks {n k : Nat} {bad : Option (Err × Nat)} {asks : List HostAsk}
    (h : s.mstaReach o m (m.groups - o.pos) o.pos = (k, bad, asks)) (ha : asks ≠ []) :
    s.mstaPerform core n mq o m = s.engAsk core n { o with stage := 1 } asks := by
  unfold State.mstaPerform
  simp only [h]
  exact if_pos ha

theorem mstaPerform_stores {n k : Nat} (h : s.mstaReach o m (m.groups - o.pos) o.pos = (k, none, []))
    (hg : s.matGroups o m k o.pos = .ok u) :
    s.mstaPerform core n mq o m = u.putHead core n { o with pos := m.groups, performed := true, reqs := [], resp := [] } := by
  unfold State.mstaPerform
  simp only [h, hg]
  exact if_neg (by simp)

theorem mstaPerform_fails {n k : Nat} {e : Err} {a : Nat}
    (h : s.mstaReach o m (m.groups - o.pos) o.pos = (k, some (e, a), [])) (hg : s.matGroups o m k o.pos = .ok u) :
    s.mstaPerform core n mq o m = u.matFail core n mq o m (o.pos + k) e a := by
  unfold State.mstaPerform
  simp only [h, hg]
  exact if_neg (by simp)

end

/-! Completion and collectives. -/

section
variable {s u : State} {core q : Nat} {o : EngOp}

theorem completion_leaves (h : s.headOp core (q % 6) = some o) (hp : o.performed = true)
    (hc : (s.core core).mq.any (fun l => l.any (fun p => p.parent = some o.id)) = false) :
    exec (.engineOperationCompletion core q) s = .next (s.popHead core (q % 6)) := by
  rw [exec_engineOperationCompletion, execEngineOperationCompletion]
  simp only [h, hp, hc]
  rfl

variable {gather : Bool} {tile cnt seq : Nat} {abar grp : DWord}
variable (h : s.headOp core (q % 4) = some o) (hk : o.kind = .coll gather tile cnt seq abar grp) (hr : o.ready = true)
include h hk hr

theorem collectiveRequest_stages (hs : o.stage = 0) (hu : s.collStage o gather tile cnt seq grp.toNat = .ok u) :
    exec (.collectiveRequest core q) s = .next (u.putHead core (q % 4)
      { o with stage := 1, performed := decide ((u.block o.blk).resid = .gone), reqs := [], resp := [] }) := by
  rw [exec_collectiveRequest, execCollectiveRequest]
  simp only [h, hk]
  refine (if_neg (by simp [hr, hs])).trans ?_
  rw [hu]

theorem collectiveResult_copies (hs : o.stage = 1 ∨ o.stage = 3) (hb : (s.block o.blk).resid = .resident)
    (hu : s.collResult o gather tile cnt seq abar grp.toNat = .ok (some u)) :
    exec (.collectiveResultCopy core q) s =
      .next (u.putHead core (q % 4) { o with stage := 2, performed := true, reqs := [], resp := [] }) := by
  rw [exec_collectiveResultCopy, execCollectiveResultCopy]
  simp only [h, hk]
  refine (if_neg (by rcases hs with hs | hs <;> simp [hr, hs, hb])).trans ?_
  rw [hu]

end

/-! The sum of a collective does not depend on the order of the contributions (R325). -/

theorem topExponent_perm {xs ys : List Nat} (h : xs.Perm ys) : topExponent xs = topExponent ys := by
  unfold topExponent
  refine List.Perm.foldl_eq' (h.filterMap _) (fun a _ b _ z => ?_) none
  cases z <;> simp [max_comm, max_left_comm]

theorem collBlock_perm {cs ds : List (List Nat)} (h : cs.Perm ds) : collBlock cs = collBlock ds := by
  have hany : ∀ p : Nat → Bool, cs.flatten.any p = ds.flatten.any p := fun p => h.flatten.any_eq
  have hwidth : (cs.map List.length).foldl max 0 = (ds.map List.length).foldl max 0 :=
    List.Perm.foldl_eq' (h.map _) (fun a _ b _ z => by omega) 0
  have hsum : ∀ f : List Nat → Int, (cs.map f).foldl (· + ·) 0 = (ds.map f).foldl (· + ·) 0 := fun f =>
    List.Perm.foldl_eq' (h.map f) (fun a _ b _ z => by omega) 0
  unfold collBlock
  simp only [hany, hwidth, hsum, topExponent_perm h.flatten]

theorem collBlock_rounds_once : collBlock [[0x4B800000], [0x3F800000], [0x3F800000]] = [0x4B800001] := by
  decide

end Sys2Proof.Machine
end

section
/-! The Runner's deliveries (R238), the Riddle engine's jobs (R266) and bins (R262). -/

namespace Sys2Proof.Machine

open Sys2Proof

/-! The turns of a delivery. -/

section
variable {s u : State} {die : Nat} {j : HaloJob} {rb : List Byte}

/-- Half n % 2 of the arrival bitmaps of a record. -/
def haloHalf (v n : Nat) : Nat := field v 128 64 + n % 2 * haloBytes (field v 64 32)

section
variable (hr : s.ioRead (whoFab s die j.leaf.ctx) j.resp j.leaf.rrec.toNat 24 = .ok (rb, u))
include hr

theorem haloTurn_looks (hs : j.stage = 0) :
    s.haloTurn die j = .ok (if field (ofBytes rb) 0 63 + 2 < j.leaf.step then .hold { j with resp := [] }
      else .on { j with stage := 1, resp := [] }, u) := by
  unfold State.haloTurn
  simp only [hs, hr]

theorem haloTurn_marks (hs : j.stage = 4) {o : Nat} {t : State} :
    let p := (haloHalf (ofBytes rb) j.leaf.step + j.leaf.bit / 8) % 2 ^ 64
    let bit := 2 ^ (8 * (p % 4) + j.leaf.bit % 8)
    u.ioAtomic (whoFab s die j.leaf.ctx) j.resp (p / 4 * 4) 4 0 0x19B [BitVec.ofNat 64 bit] (fun x => x ||| bit) = .ok (o, t) →
    s.haloTurn die j = .ok (.on { j with stage := 5, resp := [] }, t) := by
  intro p bit h
  dsimp only [p, bit, haloHalf] at h
  unfold State.haloTurn
  simp only [hs, hr, h]

theorem haloTurn_ends (hs : j.stage = 5) (h : 2 ^ 63 ≤ field (ofBytes rb) 0 64 ∨ field (ofBytes rb) 64 32 = 0 ∨ j.turns = 0) :
    s.haloTurn die j = .ok (.done, u) := by
  unfold State.haloTurn
  simp only [hs, hr]
  exact if_pos (by simpa [or_assoc] using h)

theorem haloTurn_arrivals (hs : j.stage = 5) (hctr : field (ofBytes rb) 0 64 < 2 ^ 63) (hexp : field (ofBytes rb) 64 32 ≠ 0)
    (ht : j.turns ≠ 0) {bits : List Byte} {t : State} :
    let p := haloHalf (ofBytes rb) (field (ofBytes rb) 0 64 + 1) % 2 ^ 64
    u.ioRead (whoFab s die j.leaf.ctx) j.resp p (haloBytes (field (ofBytes rb) 64 32)) = .ok (bits, t) →
    s.haloTurn die j = .ok (if field (ofBytes bits) 0 (field (ofBytes rb) 64 32) = 2 ^ field (ofBytes rb) 64 32 - 1 then
      .on { j with stage := 6, ctr := field (ofBytes rb) 0 64, ptr := p, turns := j.turns - 1, resp := [] } else .done, t) := by
  intro p h
  dsimp only [p, haloHalf] at h ⊢
  unfold State.haloTurn
  simp only [hs, hr, h]
  refine (if_neg (by simp [hexp, ht]; omega)).trans ?_
  simp only [ne_eq, ite_not]

theorem haloTurn_clears (hs : j.stage = 6) {t : State}
    (h : u.ioWrite (whoFab s die j.leaf.ctx) j.resp j.ptr (List.replicate (haloBytes (field (ofBytes rb) 64 32)) 0) = .ok t) :
    s.haloTurn die j = .ok (.on { j with stage := 7, resp := [] }, t) := by
  unfold State.haloTurn
  simp only [hs, hr, h]

end

theorem haloTurn_writes (hs : j.stage = 3) {t : State}
    (hm : s.ioWrite (whoFab s die j.leaf.ctx) j.resp (ptrAdd j.ptr 64) j.leaf.vmask = .ok u)
    (hv : u.ioWrite (whoFab s die j.leaf.ctx) j.resp (ptrAdd j.ptr 256) j.leaf.vals = .ok t) :
    s.haloTurn die j = .ok (.on { j with stage := 4, resp := [] }, t) := by
  unfold State.haloTurn
  simp only [hs, hm, hv]

theorem haloTurn_advances (hs : j.stage = 7)
    (h : s.ioWrite (whoFab s die j.leaf.ctx) j.resp j.leaf.rrec.toNat (toBytes 8 (j.ctr + 1)) = .ok u) :
    s.haloTurn die j = .ok (.on { j with stage := 5, resp := [] }, u) := by
  unfold State.haloTurn
  simp only [hs, h]

theorem haloTurn_errs (hs : j.stage = 8) {o : Nat}
    (h : s.ioAtomic (whoFab s die j.leaf.ctx) j.resp (ptrAdd j.leaf.rrec.toNat 4) 4 0 0x19B [0x80000000] (fun x => x ||| 2 ^ 31) =
      .ok (o, u)) :
    s.haloTurn die j = .ok (.done, u) := by
  unfold State.haloTurn
  simp only [hs, h]

end

/-! The turns together, and the delivery. -/

theorem haloRun_turns (s u : State) (die n : Nat) (j j' : HaloJob) :
    (s.haloTurn die j = .ok (.done, u) → s.haloRun die j (n + 1) = (none, u.haloReply die j.leaf)) ∧
    (s.haloTurn die j = .ok (.hold j', u) → s.haloRun die j (n + 1) = (some j', u)) ∧
    (s.haloTurn die j = .ok (.on j', u) → s.haloRun die j (n + 1) = u.haloRun die j' n) ∧
    (∀ e a, s.haloTurn die j = .error (.bad e a) →
      s.haloRun die j (n + 1) = s.haloRun die { j with stage := 8, ins := none, resp := [] } n) :=
  ⟨fun h => by rw [State.haloRun, h], fun h => by rw [State.haloRun, h], fun h => by rw [State.haloRun, h],
    fun _ _ h => by rw [State.haloRun, h]⟩

section
variable {s u : State} {die : Nat} {leaf : HaloLeaf}

/-- The delivery of a leaf as it stands at the Runner, and the others that stand there. -/
def State.haloJob (s : State) (die : Nat) (leaf : HaloLeaf) : HaloJob :=
  ((s.die die).halos.find? (fun j => j.leaf = leaf)).getD (HaloJob.start leaf)
def State.otherHalos (s : State) (die : Nat) (leaf : HaloLeaf) : List HaloJob := (s.die die).halos.filter (fun k => k.leaf ≠ leaf)
def State.putHalos (s : State) (die : Nat) (js : List HaloJob) : State := s.setDie die { s.die die with halos := js }

/-- Whether a delivery waits: for answers of its own, or for another one that is under way in host memory. -/
def State.deliveryWaits (s : State) (die : Nat) (leaf : HaloLeaf) : Prop :=
  answeredAll (s.haloJob die leaf).reqs (s.haloJob die leaf).resp = false ∨
    ((s.haloJob die leaf).reqs = [] ∧ ∃ k ∈ s.otherHalos die leaf, k.reqs ≠ [])

theorem deliveryWaits_iff (s : State) (die : Nat) (leaf : HaloLeaf) :
    s.deliveryWaits die leaf ↔ (!answeredAll (s.haloJob die leaf).reqs (s.haloJob die leaf).resp ||
      ((s.haloJob die leaf).reqs = [] && (s.otherHalos die leaf).any (fun k => k.reqs ≠ []))) = true := by
  simp only [State.deliveryWaits, Bool.or_eq_true, Bool.not_eq_true', Bool.and_eq_true, decide_eq_true_eq, List.any_eq_true]

theorem delivery_dropped (h : ((s.die die).ctx leaf.ctx).enabled = false) :
    exec (.haloLeafDelivery die leaf) s =
      .next (((s.putHalos die (s.otherHalos die leaf)).dropMsg die ((leaf.reply.map Msg.inPort).getD 4)).wake die) := by
  rw [exec_haloLeafDelivery, execHaloLeafDelivery]
  exact if_pos (by simp [h])

section
variable (h : ((s.die die).ctx leaf.ctx).enabled = true)
include h

theorem delivery_waits (hw : s.deliveryWaits die leaf) :
    exec (.haloLeafDelivery die leaf) s = .next (s.putHalos die (s.otherHalos die leaf ++ [s.haloJob die leaf])) := by
  rw [exec_haloLeafDelivery, execHaloLeafDelivery]
  exact (if_neg (by simp [h])).trans (if_pos ((deliveryWaits_iff s die leaf).1 hw))

section
variable (hw : ¬ s.deliveryWaits die leaf)
include hw

theorem delivery_over (hrun : s.haloRun die { s.haloJob die leaf with reqs := [] } 4096 = (none, u)) :
    exec (.haloLeafDelivery die leaf) s = .next ((u.putHalos die (s.otherHalos die leaf)).wake die) := by
  rw [exec_haloLeafDelivery, execHaloLeafDelivery]
  refine (if_neg (by simp [h])).trans ((if_neg fun hc => hw ((deliveryWaits_iff s die leaf).2 hc)).trans ?_)
  split
  · next v heq => cases heq.symm.trans hrun; rfl
  · next k v heq => cases heq.symm.trans hrun

theorem delivery_left {j : HaloJob} (hrun : s.haloRun die { s.haloJob die leaf with reqs := [] } 4096 = (some j, u)) :
    exec (.haloLeafDelivery die leaf) s = .next (u.putHalos die (s.otherHalos die leaf ++ [j])) := by
  rw [exec_haloLeafDelivery, execHaloLeafDelivery]
  refine (if_neg (by simp [h])).trans ((if_neg fun hc => hw ((deliveryWaits_iff s die leaf).2 hc)).trans ?_)
  split
  · next v heq => cases heq.symm.trans hrun
  · next k v heq => cases heq.symm.trans hrun; rfl

end

end

end

/-! Jobs and bins of the Riddle engine. -/

section
variable {s u s1 s2 : State} {die : Nat} {j : Job} {rest : List Job}
variable (h : (s.die die).jobs = j :: rest) (ha : answeredAll j.reqs j.resp = true)
include h ha

theorem job_sorted {bs : List Byte} (hf : j.fin = none) (hk : j.kind < 2)
    (hr : s.ioRead (whoFab s die j.ctx) j.resp j.addr.toNat 64 = .ok (bs, s1)) (hal : field (ofBytes bs) 448 64 % 8 = 0)
    (hsort : s1.ksrt (whoFab s die j.ctx) j.resp (if j.kind = 1 then 8 else 4) (ofBytes bs) = .ok s2)
    (hw : s2.ioWrite (whoFab s die j.ctx) [] (field (ofBytes bs) 448 64) (toBytes 8 1) = .ok u) :
    exec (.riddleJobCompletion die) s = .next (u.setDie die { u.die die with jobs := (u.die die).jobs.drop 1 }) := by
  have hk2 : j.kind ≠ 2 := by omega
  rw [exec_riddleJobCompletion, execRiddleJobCompletion, State.jobRun]
  simp only [h, ha, hf, hr, if_neg hk2, hsort]
  simp [hal, hw, Except.map]

theorem job_status {p st : DWord} (hf : j.fin = some (p, st))
    (hw : s.ioWrite (whoFab s die j.ctx) j.resp p.toNat (toBytes 8 st.toNat) = .ok u) :
    exec (.riddleJobCompletion die) s = .next (u.setDie die { u.die die with jobs := (u.die die).jobs.drop 1 }) := by
  rw [exec_riddleJobCompletion, execRiddleJobCompletion, State.jobRun]
  simp [h, ha, hf, hw]

end

theorem bin_rasterised {s : State} {die k : Nat} {x : Draw} {bin : Nat × Nat} {r : List (Nat × Nat)} (h : s.drawAt die k = some x)
    (hs : x.stopped = none) (ha : answeredAll x.reqs x.resp = true) (hl : s.suspended x.launch = false)
    (hp : x.flushing = true ∨ x.prims.any (fun p => !p.binned) = false)
    (hb : (x.prims.filter (fun p => p.binned)).flatMap (fun p => p.bins) = bin :: r) :
    exec (.binRasterisation die k) s = .next (s.rasterBin die k x bin) := by
  rw [exec_binRasterisation, execBinRasterisation, State.rasterNext]
  simp only [h]
  refine congrArg Host.Outcome.next ((if_neg (by simp [hs, ha, hl])).trans ((if_neg ?_).trans ?_))
  · rcases hp with hp | hp <;> rw [hp] <;> simp
  · rw [hb]

end Sys2Proof.Machine
end

section
/-! O57: the engines perform the heads of their queues. -/

namespace Sys2Proof.Machine

open Sys2Proof

/-- Settles O57: each clause is an equation of the engines' steps, in the order of the statement; the two that are more are that
the lanes of an RST or RRED are sent one after the other (`sendLanes_sends`, by induction on the lanes) and that the sum of a
collective does not depend on the order of its contributions (`collBlock_perm`). -/
theorem enginesPerformTheirHeads : Obligations.EnginesPerformTheirHeads := by
  unfold Obligations.EnginesPerformTheirHeads
  refine ⟨?copies, ?compress, ?expand, fun _ _ => packTile_uniform,
    fun clear slot => ⟨rfl, rfl, fun _ => unpackTile_reserved clear slot⟩, ?plan, ?leaf, ?counter, ?lanes, ?load, ?refresh,
    ?followOn, ?matrix, ?completion, ?collectives, fun _ _ => collBlock_perm, collBlock_rounds_once, ?delivery, haloRun_turns, ?turns,
    ?sorted, ?status, ?bins⟩
  case copies =>
    intro s core q o n h hr hp hpos moved line
    have hline : ∀ {v opt w0 w1 o' u}, s.copyLine o v opt w0 w1 = .ok (o', u) → line v opt w0 w1 o' u := fun hu =>
      ⟨fun hlt => copyLine_reads hlt hu, fun hle => copyLine_writes hle hu⟩
    refine ⟨fun v w0 w1 opt o' u hk hv ho hu => ⟨hline hu, ?_⟩, fun w0 w1 opt s1 o' u hk hg hh hu => ?_,
      fun v w0 w1 opt e hk hv ho hu => ?_, fun v w0 w1 hk hv => ?_, fun v w0 w1 hk hv => ?_,
      fun w0 w1 m o' u hk hs hu => ⟨hline hu, ?_⟩⟩ <;> rw [exec_copyPerform]
    · rw [copyPerform_lines h hr hp hk hv ho, copyUnits_one h hr hpos hu]
    · rw [copyPerform_ingot h hr hp hk (by omega) hg, copyUnits_one hh hr hpos hu]
    · rw [copyPerform_lines h hr hp hk hv ho, copyUnits_stop h hr hpos hu]
    · rw [copyPerform_compress h hr hp hk hv]
    · rw [copyPerform_expand h hr hp hk hv]
    · rw [copyPerform_copym h hr hp hk hs, copyUnits_one h hr hpos hu]
  case compress =>
    exact fun s o w0 w1 => ⟨fun bs u => compressTile_surface,
      fun hd => ⟨fun raw u => compressTile_packs hd, fun mode bs u => compressTile_writes hd⟩,
      fun ds mode u => compressTile_mode⟩
  case expand =>
    refine fun s o w0 w1 => ⟨fun db fb u v hd hdb hfb => ?_, fun db fb hd hdb hfb =>
      ⟨fun mb u hb hu => ?_, fun mb slot u hb hu => ?_, fun u => expandTile_writes hd hdb hfb⟩, fun ds mode u => expandTile_mode⟩
    · dsimp only
      rw [expandTile_surfaces hd hdb hfb]
      exact ⟨fun h => if_neg (by rcases h with h | h <;> simp [h]), fun hne hm => if_pos (by simp [hne, hm])⟩
    · rw [expandTile_reads_mode hd hdb hfb hb hu]
      exact ⟨fun hhere h0 => by simp [hhere, h0], fun h => by rcases h with h | h <;> simp [h]⟩
    · rw [expandTile_unpacks hd hdb hfb hb hu]
      exact ⟨fun raw h => by rw [h], fun h => by rw [h]⟩
  case plan =>
    intro s core q o w0 w1 opt n h hr hp hk hd plan u
    rw [exec_copyPerform]
    refine ⟨fun hpos => ⟨fun o' v hl hpos' => ?_, fun asks hl => ?_, fun e a hl hrun hne he => ?_⟩, fun hpos => ?_⟩
    · rw [planLeaf_sent h hr hp hk hd hpos hl hpos']
    · rw [planLeaf_stops h hr hp hk hd hpos hl fun _ => engAsk_head]
      rfl
    · rw [planLeaf_stops h hr hp hk hd hpos hl fun _ => engFail_head he hrun hne]
      rfl
    · rw [plan_ends h hr hp hk hd hpos]
  case leaf =>
    exact fun s core q o plan step ob u => ⟨haloLeaf_unaligned, fun hal hrd hin =>
      ⟨fun v => haloLeaf_acknowledged hal hrd hin, fun e => haloLeaf_refused hal hrd hin, fun vm xs v ha hsrc =>
        ⟨haloLeaf_noPeer hal hrd hin ha hsrc, fun p => haloLeaf_sends hal hrd hin ha hsrc⟩⟩⟩
  case counter => exact fun s core q o plan step p => haloCounter_sends
  case lanes =>
    intro s core q o red op pkg die ctx fence qn ls n h hr hp hk d
    rw [exec_copyPerform, copyPerform_rem h hr hp hk]
    refine ⟨fun hall => by rw [remoteStep_performed hk hall], fun hne hall => by rw [remoteStep_awaits hk hne hall], fun hne =>
      ⟨fun hpeer => by rw [remoteStep_noPeer hk hne hpeer], fun p hpeer =>
        ⟨fun hf hc => by rw [remoteStep_fenced hk hne hpeer hf hc], fun hf hd => ?_⟩⟩⟩
    obtain ⟨ls', u, hsend, hsame, hall, htx⟩ := sendLanes_sends (p := p) (conn := peerConn p core qn) (red := red) (op := op)
      (fence := fence) ls hd
    exact ⟨ls', u, by rw [remoteStep_sends hk hne hpeer hf hsend], hsame, hall, htx⟩
  case load => exact fun s die l => ingotLoadState_loads
  case refresh =>
    exact fun s die => ⟨⟨_, exec_bankRefresh s die, passClocks_passes ..⟩, ⟨_, exec_bankRefreshEnd_eq s die, passClocks_passes ..⟩⟩
  case followOn => exact fun s core q o w0 w1 m => followOn_enters
  case matrix =>
    intro s core mq o m n h hk hr hp fails
    refine ⟨matrix_waits h hk, fun hw hsta => ⟨fun u => matrix_commits h hk hr hp hw hsta, fun e a => matrix_fails h hk hr hp hw hsta⟩,
      fun hw hsta k bad asks hreach => ?_⟩
    rw [matrix_stores h hk hr hp hw hsta]
    refine ⟨fun ha => by rw [mstaPerform_asks hreach ha], ?_⟩
    rintro u rfl hg
    exact ⟨fun hb => by subst hb; rw [mstaPerform_stores hreach hg], fun e a hb => by subst hb; rw [mstaPerform_fails hreach hg]; rfl⟩
  case completion => exact fun s core q o => completion_leaves
  case collectives =>
    intro s core q o gather tile cnt seq abar grp n h hk hr
    exact ⟨fun u => collectiveRequest_stages h hk hr, fun u => collectiveResult_copies h hk hr⟩
  case delivery =>
    intro s die leaf x j others put waits
    refine ⟨fun he => ⟨_, fun m hm => ?_, delivery_dropped he⟩, fun he => delivery_waits he, fun he hw =>
      ⟨fun u => delivery_over he hw, fun j' u => delivery_left he hw⟩⟩
    rw [hm]
    rfl
  case turns =>
    intro s u die j rb who rrec v half goes
    refine ⟨fun hr => ⟨fun hs => ?_, fun o t hs => haloTurn_marks hr hs, fun hs => ⟨haloTurn_ends hr hs, ?_⟩, fun t hs => haloTurn_clears hr hs⟩,
      fun t hs hm hv => haloTurn_writes hs hm hv, haloTurn_advances, fun o hs => haloTurn_errs hs⟩
    · dsimp only [goes]
      rw [haloTurn_looks hr hs]
      exact ⟨fun h => by rw [if_pos h], fun h => by rw [if_neg (Nat.not_lt.2 h)]⟩
    · exact fun hctr hexp ht bits t => haloTurn_arrivals hr hs hctr hexp ht
  case sorted => exact fun s die j rest bs s1 s2 u h hf hk ha => job_sorted h ha hf hk
  case status => exact fun s die j rest p st u h hf ha => job_status h ha hf
  case bins => exact fun s die k x bin r => bin_rasterised

end Sys2Proof.Machine
end

section
/-! Accesses that trap (R143, R285, R292): a condition of the first orders is a precise trap, one of orders 5 to 11 leaves the
strand's chain issued and its instruction in the operand log. -/

namespace Sys2Proof.Machine

open Sys2Proof Laws

/-! Conditions that follow from the address (R143, R144, R151, R337). -/

theorem locate_glob {s : State} (l1 : Bool) (k : AccKind) (p n : Nat) (hm : s.issue.memo = []) :
    s.locate l1 k (.glob p) n = match s.resolve s.who l1 k p n with
      | .ok t => .ok (.glob p t)
      | .error e => .error (e, p) := by
  unfold State.locate
  rw [hm]
  rfl

theorem scratchLoc_range {s : State} {b a n : Nat} (hsize : recScratch (s.recOf b) < a + n)
    (h : a < 0x10000000 ∨ recGang (s.recOf b) ≤ (a - 0x10000000) / 0x1000000 ∨
      recScratch (s.recOf b) < (a - 0x10000000) % 0x1000000 + n) : s.scratchLoc b a n = .error eRange := by
  unfold State.scratchLoc
  refine (if_neg (Nat.not_le.2 hsize)).trans (if_neg ?_)
  simp only [Bool.and_eq_true, decide_eq_true_eq]
  omega

theorem addressTraps : AddressTraps := by
  intro s l1 k x n e p hm hbad
  cases x with
  | glob q =>
    rw [locate_glob l1 k q n hm]
    simp only [State.addressBad] at hbad
    unfold State.resolve
    split at hbad
    · next h => cases hbad; exact ⟨by rw [if_pos h], by decide⟩
    · next h =>
      split at hbad
      · next h2 => cases hbad; exact ⟨by rw [if_neg h, if_pos h2], by decide⟩
      · cases hbad
  | scr a =>
    simp only [State.addressBad] at hbad
    unfold State.locate
    dsimp only
    split at hbad
    · next h => cases hbad; exact ⟨by rw [if_pos h], by decide⟩
    · next h =>
      split at hbad
      · next h2 => cases hbad; exact ⟨by rw [if_neg h, scratchLoc_range h2.1 h2.2], by decide⟩
      · cases hbad
  | ing a =>
    simp only [State.addressBad] at hbad
    unfold State.locate
    dsimp only
    split at hbad
    · next h => cases hbad; exact ⟨by rw [if_pos h], by decide⟩
    · next h =>
      split at hbad
      · next h2 =>
        cases hbad
        refine ⟨?_, by decide⟩
        rw [if_neg h, State.ingotBad, if_pos (by simp [h2])]
      · cases hbad
  | dirty a =>
    cases hbad
    exact ⟨rfl, by split <;> decide⟩
  | noSpace q =>
    cases hbad
    exact ⟨rfl, by decide⟩

/-! The strand after a deferred condition. -/

/-- A strand that is put back with the place it holds keeps every register. -/
theorem putS_kept {u : State} {W : Strand} (hok : u.issueOk = true) (hheld : W.held = u.cs.held) :
    RegistersKept u (u.putS W) ∧ (u.putS W).cs = W := by
  have hm := putS_moved u W hok hheld
  have hw := u.issue_warp_in_list hok
  have hrun := (u.issueOk_iff.mp hok).2.2.2
  have hcw : (u.putS W).cw = u.cw.setRunner u.issue.entry W := State.cw_putW _ _ hw
  have hcs : (u.putS W).cs = W := by
    unfold State.cs
    rw [hcw]
    show ((u.cw.setRunner u.issue.entry W).runner u.issue.entry).getD _ = W
    rw [Warp.runner_setRunner _ _ _ hrun]
    rfl
  have hrd : SameReads u (u.putS W) := hm.reads hw
  refine ⟨⟨?_, ⟨fun f => ?_, fun f hf => ?_⟩, ?_, fun n _ _ _ => hrd.regS n, fun n _ _ => hrd.regV n,
    fun n l _ _ _ => congrArg (laneOf · l) (hrd.regV n), hrd.regK, fun v hv => u.warp_putW_ne _ v hv, fun _ => rfl⟩, hcs⟩
  · rw [hcw]; exact hm.control
  · rw [hcw]; exact hm.held f
  · rw [hcw]; exact hm.still f hf
  · rw [hcw]; exact hm.regs.2.2.2

/-- What keeps the registers of a state that stands apart keeps those of the first. -/
theorem Apart.registersKept {i : Instr} {s u t : State} (a : Apart (s.atInstr i) u) (h : RegistersKept u t) : RegistersKept s t := by
  have hcw : u.cw = s.cw := a.cw
  have hvname : ∀ n, u.vname n = s.vname n := a.vname
  have hsname : ∀ n, u.sname n = s.sname n := fun n => by
    show _ = (s.atInstr i).sname n
    unfold State.sname
    rw [a.cw, a.reads.handler]
  have hreads : (∀ n, u.regS n = s.regS n) ∧ (∀ n, u.regV n = s.regV n) ∧ ∀ n, u.regK n = s.regK n :=
    ⟨a.reads.regS, a.reads.regV, a.reads.regK⟩
  obtain ⟨hregS, hregV, hregK⟩ := hreads
  refine ⟨hcw ▸ h.control, ⟨fun e => ?_, fun e he => ?_⟩, hcw ▸ h.fst, fun n hn hv hd => ?_, fun n hv hd => ?_, fun n l hv hl ha => ?_,
    fun n => (h.masks n).trans (hregK n), fun v hv => ?_, fun b => (h.accs b).trans (a.accs b)⟩
  · rw [h.strands.held e, hcw]
  · rw [h.strands.still e (by rw [a.issue]; exact he), hcw]
  · rw [h.scalars n hn (by rw [hsname]; exact hv) hd, hregS]
  · rw [h.vectors n (by rw [hvname]; exact hv) hd, hregV]
  · rw [h.vectors n (by rw [hvname]; exact hv) not_false, hregV]
  · rw [h.warps v (by rw [a.issue]; exact hv)]
    unfold State.warp
    rw [a.warps]
    rfl

theorem rdS_atInstr (s : State) (i : Instr) (n : Nat) : (s.atInstr i).rdS n = s.rdS n := rfl
theorem rdV_atInstr (s : State) (i : Instr) (n : Nat) : (s.atInstr i).rdV n = s.rdV n := rfl

section
variable {s u : State} (ha : u.aside = s.aside)
include ha

theorem special_aside (n : Nat) : u.special n = s.special n := by
  obtain ⟨hblocks, -, hlaunches⟩ := aside_fields ha
  have hrec : ∀ b, u.recOf b = s.recOf b := fun b => by
    unfold State.recOf State.launchOf State.block
    rw [hblocks, hlaunches]
  unfold State.special
  dsimp only
  rw [hrec, (Apart.aside ha).cw]
  unfold State.block
  rw [hblocks]

theorem rdS_aside (n : Nat) : u.rdS n = s.rdS n := by
  have a := Apart.aside ha
  unfold State.rdS
  rw [a.issue, a.reads.regS, special_aside ha]

theorem rdV_aside (n : Nat) : u.rdV n = s.rdV n := by
  have a := Apart.aside ha
  unfold State.rdV
  rw [a.issue, a.reads.regV]

theorem k0_aside : u.k0 = s.k0 := by
  have a := Apart.aside ha
  unfold State.k0
  rw [a.issue, a.cs]

end

/-! What an access that met a discarded page leaves. -/

theorem markDiscarded_aside (s : State) (w : Who) (p : Nat) (hf : w.fab = false) : (s.markDiscarded w p).aside = s.aside := by
  unfold State.markDiscarded
  split
  · split
    · exact touch_aside _ _ _ _ _ hf
    · rfl
  · rfl

theorem markTrap_aside (s : State) (x : TrapInfo) : (s.markTrap x).aside = s.aside := by
  unfold State.markTrap
  split
  · exact foldl_aside _ _ _ fun s p => markDiscarded_aside s s.who p rfl
  · rfl

theorem markTrap_other {x : TrapInfo} (h : (x.cause, x.sub) ≠ eDiscarded) (s : State) : s.markTrap x = s := by
  unfold State.markTrap
  refine if_neg fun hc => h ?_
  simp only [Bool.and_eq_true, decide_eq_true_eq] at hc
  rw [hc.1, hc.2]
  rfl

/-! Stops of memory instructions. -/

/-- What a stop at a condition leaves of a ready memory instruction. -/
structure StopsAt (i : Instr) (s u : State) (e : Err) (x : TrapInfo) : Prop where
  precise : errRank e < 5 → exec i s = .next (u.raise x)
  deferred : 5 ≤ errRank e → errRank e ≤ 11 → s.inHandler = false → s.later = false → s.inMiss = false →
    ∃ t, exec i s = .next t ∧ (∀ p, x.addr = BitVec.ofNat 64 p → Deferred i s t e x.lane p) ∧
      (e ≠ eDiscarded → t.mem = u.mem ∧ t.clusters = u.clusters)

section
variable {i : Instr} {info : OpInfo} {body : Body} {s u : State} {e : Err} {x : TrapInfo}
variable (hr : Runs i info body) (hmem : info.mem = true) (h : ready i s = true) (ha : u.aside = (s.atInstr i).aside)
include hr hmem h ha

theorem settle_deferred (hh : s.inHandler = false) (hl : s.later = false) (hm : s.inMiss = false) :
    State.settle (s.atInstr i) info (encode i) (.deferred x u) =
      let v := u.markTrap x
      v.putS { v.cs with
        st := .ready, wait := none, pc := v.issue.pc + 4, jumped := false, permit := false, alone := false,
        log := v.cs.log ++ [v.logEntry info (encode i) x.run], fault := some { v.fillInfo x with logN := 1 } } := by
  have ap := Apart.aside ha
  have av : Apart (s.atInstr i) (u.markTrap x) := Apart.aside ((markTrap_aside u x).trans ha)
  have hmiss : ∀ v : State, Apart (s.atInstr i) v → v.inMiss = false := fun v a => by
    unfold State.inMiss
    rw [a.cw, a.cs, a.issue, a.reads.handler]
    exact hm
  have hin : (u.markTrap x).inHandler = false := av.reads.handler.trans hh
  have hlater : (u.markTrap x).later = false := by
    unfold State.later
    rw [av.issue]
    exact hl
  have hflight : (u.markTrap x).cs.flight = [] := by
    rw [av.cs]
    show s.cs.flight = []
    obtain ⟨-, -, -, -, -, -, -, -, -, hfree⟩ := ready_parts hr.info h
    simpa [hh, hl, hmem] using hfree
  unfold State.settle
  simp only [hmiss u ap, hmiss _ av, hin, hlater, hflight, Bool.false_eq_true, if_false, Bool.or_self, ne_eq, not_true_eq_false]

/-- A stop at a condition of R143, whatever the record gives beside its cause. -/
theorem memStop_stops (hb : body (s.atInstr i) = .error (memStop u e x)) (hx : (x.cause, x.sub) = e) : StopsAt i s u e x := by
  have hcause : x.cause = e.1 := by rw [← hx]
  have hsub : x.sub = e.2 := by rw [← hx]
  refine ⟨fun hlt => ?_, fun hlo hhi hh hl hm => ?_⟩
  · have hne : e ≠ eDiscarded := by rintro rfl; exact absurd hlt (by decide)
    have hstop : memStop u e x = .trap x u := if_neg (by simp; omega)
    rw [hr.stop h (hb.trans (congrArg _ hstop)), settle_trap']
    by_contra hc
    push Not at hc
    exact hne (by rw [← hx, hc.1, hc.2]; rfl)
  · have hstop : memStop u e x = .deferred x u := if_pos (by simp [hlo, hhi])
    have av : (u.markTrap x).aside = (s.atInstr i).aside := (markTrap_aside u x).trans ha
    have ap := Apart.aside av
    have hblocks : (u.markTrap x).blocks = s.blocks := (aside_fields av).1
    have hchain : (u.markTrap x).issue.chain = s.issue.chain := by rw [ap.issue]; rfl
    have hpc : (u.markTrap x).issue.pc + 4 = s.issue.pc + 4 := by rw [ap.issue]; rfl
    have hok : (u.markTrap x).issueOk = true := by
      unfold State.issueOk
      rw [ap.cw, ap.issue]
      exact ready_issueOk h
    refine ⟨_, (hr.stop h (hb.trans (congrArg _ hstop))).trans (congrArg _ (settle_deferred hr hmem h ha hh hl hm)), ?_⟩
    dsimp only
    obtain ⟨hkept, hcs⟩ := putS_kept (W := { (u.markTrap x).cs with
      st := .ready, wait := none, pc := (u.markTrap x).issue.pc + 4, jumped := false, permit := false, alone := false,
      log := (u.markTrap x).cs.log ++ [(u.markTrap x).logEntry info (encode i) x.run],
      fault := some { (u.markTrap x).fillInfo x with logN := 1 } }) hok rfl
    refine ⟨fun p hp => ⟨{ (u.markTrap x).fillInfo x with logN := 1 }, (u.markTrap x).logEntry info (encode i) x.run, ?_⟩, fun hne => ?_⟩
    · rw [hcs]
      refine ⟨rfl, hcause, hsub, rfl, hp, rfl, hchain, congrArg (· ++ _) (congrArg Strand.log ap.cs), rfl,
        hchain, k0_aside (s := s.atInstr i) av, fun w hw => ?_, fun w hw => ?_, hpc, rfl,
        ap.registersKept hkept, hblocks⟩
      · obtain ⟨n, -, rfl⟩ := List.mem_map.1 hw
        exact (rdS_aside (s := s.atInstr i) av _).trans (rdS_atInstr s i _)
      · obtain ⟨n, -, rfl⟩ := List.mem_map.1 hw
        exact (rdV_aside (s := s.atInstr i) av _).trans (rdV_atInstr s i _)
    · rw [markTrap_other (hx ▸ hne)]
      exact ⟨rfl, rfl⟩

end

/-! SLD and SST. -/

section
variable {i : Instr} {info : OpInfo} {w : Nat} {d a imm : BitVec 7} {body : Body} {acc : State → Except (Err × Nat) Loc}

/-- A scalar access traps where its body stops with the condition that its location meets. -/
theorem scalarAccess_traps (hr : Runs i info body) (hmem : info.mem = true)
    (hb : ∀ s e p, acc s = .error (e, p) → body s = .error (scalarStop s e p)) : ScalarAccessTraps i acc := by
  intro s e p h hl
  have hstops : StopsAt i s (s.atInstr i) e (TrapInfo.atAddr e p) := memStop_stops hr hmem h rfl (hb _ e p hl) rfl
  refine ⟨hstops.precise, fun hlo hhi hh hlater hm => ?_⟩
  obtain ⟨t, ht, hdef, hsame⟩ := hstops.deferred hlo hhi hh hlater hm
  exact ⟨t, ht, hdef p rfl, hsame⟩

theorem scalarLoad_traps (hr : Runs i info (scalarLoad w d a imm)) (hmem : info.mem = true) :
    ScalarAccessTraps i (fun s => s.locate true .read (objAddr (s.rdS a.toNat) (s.imm 7 imm.toNat)) w) :=
  scalarAccess_traps hr hmem fun s e p h => by simp only [scalarLoad, h]

theorem scalarStore_traps (hr : Runs i info (scalarStore w d a imm)) (hmem : info.mem = true) :
    ScalarAccessTraps i (fun s => s.locate true .write (objAddr (s.rdS a.toNat) (s.imm 7 imm.toNat)) w) :=
  scalarAccess_traps hr hmem fun s e p h => by simp only [scalarStore, h]

end

/-- Settles O38: what a load reads is `scalarLoad_reads`, where it traps `scalarLoad_traps`, and what an address meets by itself
`addressTraps`. -/
theorem scalarLoadsReadTheirBytes : Obligations.ScalarLoadsReadTheirBytes := by
  have loads {i : Instr} {info : OpInfo} {w : Nat} {d a imm : BitVec 7} (hr : Runs i info (scalarLoad w d a imm))
      (hmem : info.mem = true) (hfmt : info.fmt ≠ .B) (hd : info.d = .sdst) (hf : i.fields.extractLsb' 14 7 = d) :=
    And.intro (scalarLoad_traps hr hmem) (scalarLoad_reads hr fun s h => ready_sdst hr.info h hfmt (.inl hd) hf)
  refine ⟨addressTraps, fun d a imm => ⟨?_, ?_, ?_, ?_⟩⟩ <;>
    exact loads (runs (fun _ => rfl) rfl rfl rfl) rfl (by decide) rfl (dField d a imm)

end Sys2Proof.Machine
end

section
/-! Stores that stand in memory or in a line of L1 (R147, R148, R150, R164), and SST. -/

namespace Sys2Proof.Machine

open Sys2Proof Laws

/-! Bytes of a line. -/

/-- Byte n of a line with byte i replaced. -/
theorem extract_putByte (v : Vec) (b : Byte) {i n : Nat} (hn : n < 128) :
    ((v &&& ~~~((255 : Vec) <<< (8 * i))) ||| (b.setWidth 1024 <<< (8 * i))).extractLsb' (8 * n) 8 =
      if n = i then b else v.extractLsb' (8 * n) 8 := by
  have h255 : ∀ k, (255 : Vec).getLsbD k = decide (k < 8) := fun k => by
    rw [show (255 : Vec) = BitVec.ofNat 1024 255 from rfl, BitVec.getLsbD_ofNat, show (255 : Nat) = 2 ^ 8 - 1 by norm_num,
      Nat.testBit_two_pow_sub_one]
    by_cases hk : k < 8
    · simp [hk, show k < 1024 by omega]
    · simp [hk]
  apply BitVec.eq_of_getLsbD_eq
  intro j hj
  simp only [BitVec.getLsbD_extractLsb', BitVec.getLsbD_or, BitVec.getLsbD_and, BitVec.getLsbD_not, BitVec.getLsbD_shiftLeft,
    BitVec.getLsbD_setWidth, h255]
  split
  · next h =>
    subst h
    have h1 : 8 * n + j < 1024 := by omega
    simp [hj, h1, show j < 1024 by omega]
  · next h =>
    by_cases hlt : n < i
    · have h1 : 8 * n + j < 8 * i := by omega
      simp [hj, h1]
      omega
    · have h1 : ¬ 8 * n + j < 8 * i := by omega
      have h2 : ¬ 8 * n + j - 8 * i < 8 := by omega
      have h3 : b.getLsbD (8 * n + j - 8 * i) = false := BitVec.getLsbD_of_ge _ _ (by omega)
      simp [hj, h1, h2, h3]
      omega

/-- Byte n of a line with a run of bytes replaced. -/
theorem extract_lineSet (bs : List Byte) : ∀ (v : Vec) (i : Nat) {n : Nat}, n < 128 →
    (lineSet v i bs).extractLsb' (8 * n) 8 = if i ≤ n ∧ n < i + bs.length then bs.getD (n - i) 0 else v.extractLsb' (8 * n) 8 := by
  induction bs with
  | nil => intro v i n _; rw [if_neg (by simp)]; rfl
  | cons b r ih =>
    intro v i n hn
    rw [lineSet, ih _ _ hn, extract_putByte v b hn, List.length_cons]
    by_cases h0 : n = i
    · subst h0; simp
    · by_cases h1 : i + 1 ≤ n ∧ n < i + 1 + r.length
      · rw [if_pos h1, if_pos ⟨by omega, by omega⟩, show n - i = (n - (i + 1)) + 1 by omega]
        rfl
      · rw [if_neg h1, if_neg h0, if_neg (by omega)]

theorem lineBytes_lineSet {v : Vec} {i : Nat} {bs : List Byte} (h : i + bs.length ≤ 128) :
    lineBytes (lineSet v i bs) i bs.length = bs := by
  apply List.ext_getElem
  · simp [lineBytes]
  · intro n h1 h2
    simp only [lineBytes, List.getElem_map, List.getElem_range]
    rw [extract_lineSet bs v i (by omega), if_pos ⟨by omega, by omega⟩, Nat.add_sub_cancel_left]
    simp [h2]

/-- The dirty bits of a run of bytes. -/
theorem dirtyRun_bit {i n k : Nat} (hk : k < n) (h : i + n ≤ 128) :
    (BitVec.ofNat 128 ((2 ^ n - 1) * 2 ^ i)).getLsbD (i + k) = true := by
  rw [BitVec.getLsbD_ofNat, ← Nat.shiftLeft_eq, Nat.testBit_shiftLeft, Nat.testBit_two_pow_sub_one]
  simp
  omega

/-! A line under a translation. -/

theorem leafKey_lt (e : DWord) : leafKey e < 2 ^ 12 := Nat.mod_lt _ (by decide)

theorem leafKey_eq (e : DWord) : leafKey e = (e.extractLsb' 52 12).toNat := by
  rw [BitVec.extractLsb'_toNat, Nat.shiftRight_eq_div_pow]
  rfl

theorem leafKey_markLeaf (b : Bool) (e : DWord) : leafKey (markLeaf b e) = leafKey e := by
  rw [leafKey_eq, leafKey_eq, markLeaf]
  have h4 : (0x10 : DWord).extractLsb' 52 12 = 0 := by decide
  have h5 : (if b && leafKind e ≠ 3 then (0x20 : DWord) else 0).extractLsb' 52 12 = 0 := by split <;> decide
  rw [BitVec.extractLsb'_or, BitVec.extractLsb'_or, h4, h5]
  simp

/-- Whether a line is the requester's for an address, of a translation's physical line and key. -/
def LineOf (w : Who) (va : Nat) (t : Trans) (l : L1Line) : Prop :=
  l.asid = w.asid ∧ l.vline = va / 128 ∧ l.pline = t.pa / 128 ∧ l.key.toNat = leafKey t.leaf

theorem fill_line (s : State) (w : Who) (va : Nat) (t : Trans) :
    ∃ l ∈ ((s.fill w (va / 128) t).core w.core).l1, LineOf w va t l := by
  have hkey : (BitVec.ofNat 12 (leafKey t.leaf)).toNat = leafKey t.leaf := by
    rw [BitVec.toNat_ofNat, Nat.mod_eq_of_lt (leafKey_lt _)]
  unfold State.fill
  dsimp only
  rw [core_setCore, if_pos rfl]
  exact ⟨_, List.mem_append_right _ (List.mem_singleton_self _), rfl, rfl, rfl, hkey⟩

theorem LineOf.of_markLeaf {w : Who} {va : Nat} {t : Trans} {b : Bool} {l : L1Line}
    (h : LineOf w va { t with leaf := markLeaf b t.leaf } l) : LineOf w va t l := by
  obtain ⟨h1, h2, h3, h4⟩ := h
  exact ⟨h1, h2, h3, h4.trans (leafKey_markLeaf b t.leaf)⟩

theorem ensureLine_line (s : State) {w : Who} (va : Nat) (t : Trans) (b : Bool) :
    ∃ l ∈ ((s.ensureLine w va t b).core w.core).l1, LineOf w va t l := by
  unfold State.ensureLine
  dsimp only
  split
  · next l hl =>
    split
    · next hc =>
      simp only [Bool.and_eq_true, decide_eq_true_eq] at hc
      obtain ⟨hmem, hasid, hvline⟩ : l ∈ (s.core w.core).l1 ∧ l.asid = w.asid ∧ l.vline = va / 128 := by
        unfold State.l1Find at hl
        split at hl
        · cases hl
        · exact ⟨List.mem_of_find?_eq_some hl, by simpa using List.find?_some hl⟩
      split
      · exact ⟨l, hmem, hasid, hvline, hc.1, hc.2⟩
      · rw [core_setCore, if_pos rfl]
        exact ⟨_, List.mem_map_of_mem hmem, by simp [LineOf, hasid, hvline, hc.1, hc.2]⟩
    · obtain ⟨x, hx, hline⟩ := fill_line (s.removeLines w.core (fun x => x = l)) w va { t with leaf := markLeaf b t.leaf }
      exact ⟨x, hx, hline.of_markLeaf⟩
  · obtain ⟨x, hx, hline⟩ := fill_line s w va { t with leaf := markLeaf b t.leaf }
    exact ⟨x, hx, hline.of_markLeaf⟩

/-! What has been stored. -/

theorem physWriteKey_key {s : State} {k pa : Nat} {m : BitVec 512} (bs : List Byte) (hm : s.keyMat k = some m) :
    alGet (s.physWriteKey k pa bs).lineKeys (pa / 128) = some m := by
  have hset : alGet (alSet s.lineKeys (pa / 128) m) (pa / 128) = some m := by rw [alGet_alSet, if_pos rfl]
  unfold State.physWriteKey State.physWrite
  rw [hm]
  dsimp only
  split
  · next k' hk =>
    split
    · next h => rw [← h]; exact hk
    · exact hset
  · exact hset

theorem physWriteKey_slots (s : State) (k pa : Nat) (bs : List Byte) : (s.physWriteKey k pa bs).keySlots = s.keySlots := by
  unfold State.physWriteKey State.physWrite
  split
  · dsimp only
    split
    · split <;> rfl
    · rfl
  · rfl

theorem storeBytes_holds (s : State) (w : Who) (p : Nat) (t : Trans) (bs : List Byte)
    (hva : field p 0 57 % 128 + bs.length ≤ 128) : (s.storeBytes w (field p 0 57) bs t).holds w p t bs := by
  unfold State.holds State.storeBytes
  dsimp only
  by_cases hnc : leafNc t.leaf = true
  · rw [if_pos hnc, if_pos hnc]
    intro m hm
    unfold State.keyMat at hm
    rw [physWriteKey_slots] at hm
    refine ⟨physWriteKey_key bs hm, fun k hk => ?_⟩
    rw [physWriteKey_bytes hm hk]
    simp [hk]
  · rw [if_neg hnc, if_neg hnc, core_setCore, if_pos rfl]
    obtain ⟨l, hl, hasid, hvline, hpline, hkey⟩ := ensureLine_line (s.touch w (field p 0 57) t true) (w := w) (field p 0 57) t true
    refine ⟨_, List.mem_map_of_mem hl, ?_⟩
    rw [if_pos (by simp [hasid, hvline, hpline])]
    refine ⟨hasid, hvline, hpline, hkey, lineBytes_lineSet hva, fun k hk => ?_⟩
    rw [BitVec.getLsbD_or, dirtyRun_bit hk hva, Bool.or_true]

/-- A store to module memory through a translation. -/
theorem storeLoc_holds (s : State) {p : Nat} {t : Trans} {bs : List Byte} (hk : leafKind t.leaf < 2)
    (hva : field p 0 57 % 128 + bs.length ≤ 128) : (s.storeLoc bs (.glob p t)).holds s.who p t bs := by
  have h : s.storeLoc bs (.glob p t) = s.storeBytes s.who (field p 0 57) bs t := if_neg (by omega)
  rw [h]
  exact storeBytes_holds s s.who p t bs hva

/-- What is stored stays stored where memory, its keys and the caches do. -/
theorem holds_congr {s t : State} {w : Who} {p : Nat} {tr : Trans} {bs : List Byte} (hmem : t.mem = s.mem)
    (hkeys : t.lineKeys = s.lineKeys) (hslots : t.keySlots = s.keySlots) (hcores : t.cores = s.cores)
    (h : s.holds w p tr bs) : t.holds w p tr bs := by
  unfold State.holds State.keyMat State.memByte State.core at *
  rw [hmem, hkeys, hslots, hcores]
  exact h

theorem retired_holds {i : Instr} {s u : State} {w : Who} {p : Nat} {tr : Trans} {bs : List Byte}
    (k : Stays u (s.retired i u)) (h : u.holds w p tr bs) : (s.retired i u).holds w p tr bs :=
  holds_congr k.elsewhere.mem k.elsewhere.lineKeys k.elsewhere.keySlots k.elsewhere.cores h

/-- Settles O39: `scalarStore_stores` says what a store changes, `storeLoc_holds` where its bytes stand, and `scalarStore_traps`
where it traps. -/
theorem scalarStoresStoreTheirBytes : Obligations.ScalarStoresStoreTheirBytes := by
  intro d a imm stores
  have all {i : Instr} {info : OpInfo} {w : Nat} (hr : Runs i info (scalarStore w d a imm)) (hmem : info.mem = true) : stores i w := by
    refine ⟨scalarStore_traps hr hmem, ?_⟩
    intro s x h bs hl ha
    obtain ⟨t, ht, heq, hscr, hglob, hrest⟩ := scalarStore_stores hr s x h hl ha
    refine ⟨t, ht, heq, hscr, fun p tr hx => ?_, hrest⟩
    obtain ⟨hspares, hsame⟩ := hglob p tr hx
    refine ⟨hspares, hsame, fun hk hva _ => ?_⟩
    have hlen : bs.length = w := toBytes_length _ _
    obtain ⟨-, hwarps, hissue⟩ := store_stays (s.atInstr i) bs x
    subst hx
    rw [heq]
    exact retired_holds (retire_of_warps h hwarps hissue) (storeLoc_holds (s.atInstr i) hk (by rw [hlen]; exact hva))
  refine ⟨?_, ?_, ?_, ?_⟩ <;> exact all (runs (fun _ => rfl) rfl rfl rfl) rfl

end Sys2Proof.Machine
end

section
/-! Accesses of lanes that trap (R143, R288): the conditions that lanes meet, and the one that is taken. -/

namespace Sys2Proof.Machine

open Sys2Proof Laws

/-- The conditions that lanes meet, in the order of the lanes. -/
def condsOf {α : Type} (f : Nat → Except (Err × Nat) α) (ls : List Nat) : Conds :=
  ls.filterMap (fun l => match f l with
    | .ok _ => none
    | .error (e, p) => some (l, e, p))

section
variable {α : Type} {f : Nat → Except (Err × Nat) α} {ls : List Nat}

theorem condsOf_cons_ok {l : Nat} {x : α} (h : f l = .ok x) : condsOf f (l :: ls) = condsOf f ls := by
  simp [condsOf, h]

theorem condsOf_cons_error {l : Nat} {e : Err} {p : Nat} (h : f l = .error (e, p)) : condsOf f (l :: ls) = (l, e, p) :: condsOf f ls := by
  simp [condsOf, h]

theorem mem_condsOf {m : Nat} {e : Err} {p : Nat} : (m, e, p) ∈ condsOf f ls ↔ m ∈ ls ∧ f m = .error (e, p) := by
  unfold condsOf
  rw [List.mem_filterMap]
  constructor
  · rintro ⟨l, hl, h⟩
    cases hf : f l with
    | ok x => simp [hf] at h
    | error c =>
      obtain ⟨rfl, rfl⟩ : l = m ∧ c = (e, p) := by simpa [hf] using h
      exact ⟨hl, hf⟩
  · rintro ⟨hm, h⟩
    exact ⟨m, hm, by simp [h]⟩

/-- The lanes are all resolved, or every condition that one meets is there. -/
theorem gather_eq : (condsOf f ls = [] → ∃ xs, gather f ls = .ok xs) ∧ (condsOf f ls ≠ [] → gather f ls = .error (condsOf f ls)) := by
  induction ls with
  | nil => exact ⟨fun _ => ⟨[], rfl⟩, fun h => absurd rfl h⟩
  | cons l r ih =>
    obtain ⟨hnone, hsome⟩ := ih
    cases hf : f l with
    | ok x =>
      rw [condsOf_cons_ok hf]
      refine ⟨fun h => ?_, fun h => ?_⟩
      · obtain ⟨xs, hxs⟩ := hnone h
        exact ⟨(l, x) :: xs, by simp only [gather, hf, hxs]⟩
      · simp only [gather, hf, hsome h]
    | error c =>
      obtain ⟨e, p⟩ := c
      rw [condsOf_cons_error hf]
      refine ⟨fun h => absurd h (List.cons_ne_nil _ _), fun _ => ?_⟩
      by_cases h : condsOf f r = []
      · obtain ⟨xs, hxs⟩ := hnone h
        simp only [gather, hf, hxs, h]
      · simp only [gather, hf, hsome h]

theorem condsOf_sorted (h : ls.Pairwise (· < ·)) : (condsOf f ls).Pairwise (fun a b => a.1 < b.1) := by
  refine h.filterMap _ fun a b hab x hx y hy => ?_
  cases ha : f a with
  | ok => simp [ha] at hx
  | error c =>
    cases hb : f b with
    | ok => simp [hb] at hy
    | error c' =>
      obtain rfl : (a, c) = x := by simpa [ha] using hx
      obtain rfl : (b, c') = y := by simpa [hb] using hy
      exact hab

end

/-! The condition that is taken. -/

theorem foldl_min_eq {β : Type} (g : β → Nat) {r : Nat} (cs : List β) : ∀ {m : Nat}, r ≤ m → (∀ c ∈ cs, r ≤ g c) →
    (m = r ∨ ∃ c ∈ cs, g c = r) → cs.foldl (fun m c => min m (g c)) m = r := by
  induction cs with
  | nil => intro m _ _ h; simpa using h
  | cons c cs ih =>
    intro m hm hall h
    rw [List.foldl_cons]
    refine ih (le_min hm (hall c (List.mem_cons_self ..))) (fun x hx => hall x (List.mem_cons_of_mem _ hx)) ?_
    have hc := hall c (List.mem_cons_self ..)
    rcases h with h | ⟨x, hx, h⟩
    · exact .inl (by omega)
    · rcases List.mem_cons.1 hx with rfl | hx
      · exact .inl (by omega)
      · exact .inr ⟨x, hx, h⟩

theorem errRank_le (e : Err) : errRank e ≤ 99 := by
  unfold errRank
  repeat' split
  all_goals omega

section
variable {α : Type} {f : Nat → Except (Err × Nat) α} {ls : List Nat} {l p : Nat} {e : Err}
variable (hls : ls.Pairwise (· < ·)) (hl : l ∈ ls) (he : f l = .error (e, p))
  (hfirst : ∀ m e' p', m ∈ ls → f m = .error (e', p') → errRank e < errRank e' ∨ (errRank e = errRank e' ∧ l ≤ m))
include hl he hfirst

theorem best_eq : (condsOf f ls).foldl (fun m c => min m (errRank c.2.1)) 99 = errRank e := by
  refine foldl_min_eq (fun c : Nat × Err × Nat => errRank c.2.1) _ (errRank_le e) ?_ (.inr ⟨(l, e, p), mem_condsOf.2 ⟨hl, he⟩, rfl⟩)
  rintro ⟨m, e', p'⟩ hc
  obtain ⟨hm, h⟩ := mem_condsOf.1 hc
  have := hfirst m e' p' hm h
  show errRank e ≤ errRank e'
  omega

include hls

/-- The first of the conditions of the earliest order is that of its lowest lane. -/
theorem hit_first : ∃ tl, (condsOf f ls).filter (fun c => errRank c.2.1 = errRank e) = (l, e, p) :: tl := by
  have hin : (l, e, p) ∈ (condsOf f ls).filter (fun c => errRank c.2.1 = errRank e) :=
    List.mem_filter.2 ⟨mem_condsOf.2 ⟨hl, he⟩, by simp⟩
  have hsorted := (condsOf_sorted (f := f) hls).filter (fun c => decide (errRank c.2.1 = errRank e))
  cases hhit : (condsOf f ls).filter (fun c => errRank c.2.1 = errRank e) with
  | nil => rw [hhit] at hin; cases hin
  | cons c tl =>
    obtain ⟨m, e', p'⟩ := c
    rw [hhit] at hin hsorted
    rcases List.mem_cons.1 hin with h | h
    · exact ⟨tl, by rw [h]⟩
    · have hlt : m < l := (List.pairwise_cons.1 hsorted).1 _ h
      obtain ⟨hc, hr⟩ := List.mem_filter.1 (hhit ▸ List.mem_cons_self .. : (m, e', p') ∈ _)
      obtain ⟨hm, hf⟩ := mem_condsOf.1 hc
      have := hfirst m e' p' hm hf
      have hr : errRank e' = errRank e := by simpa using hr
      omega

/-- The record of the trap. -/
theorem condInfo_first : let j := condInfo (condsOf f ls)
    (j.cause, j.sub) = e ∧ j.lane = l ∧ j.addr = BitVec.ofNat 64 p ∧
      ∀ m, m < 32 → (j.met.getLsbD m = true ↔ ∃ e' p', m ∈ ls ∧ f m = .error (e', p') ∧ errRank e' = errRank e) := by
  obtain ⟨tl, htl⟩ := hit_first hls hl he hfirst
  have hmem : ∀ m, ((l, e, p) :: tl).any (fun c => c.1 = m) = true ↔
      ∃ e' p', m ∈ ls ∧ f m = .error (e', p') ∧ errRank e' = errRank e := fun m => by
    rw [← htl, List.any_eq_true]
    constructor
    · rintro ⟨⟨m', e', p'⟩, hc, hm⟩
      obtain rfl : m' = m := by simpa using hm
      obtain ⟨hc, hr⟩ := List.mem_filter.1 hc
      obtain ⟨hin, hf⟩ := mem_condsOf.1 hc
      exact ⟨e', p', hin, hf, by simpa using hr⟩
    · rintro ⟨e', p', hin, hf, hr⟩
      exact ⟨(m, e', p'), List.mem_filter.2 ⟨mem_condsOf.2 ⟨hin, hf⟩, by simpa using hr⟩, by simp⟩
  have hinfo : condInfo (condsOf f ls) = { TrapInfo.atAddr e p with
      lane := l, met := maskOf (fun i => ((l, e, p) :: tl).any (fun c => c.1 = i)),
      addrs := ((l, e, p) :: tl).map (fun c => (c.1, BitVec.ofNat 64 c.2.2)) } := by
    unfold condInfo
    simp only [best_eq hl he hfirst, htl]
  rw [hinfo]
  refine ⟨rfl, rfl, rfl, fun m hm => ?_⟩
  rw [maskOf_bit, decide_eq_true hm, Bool.true_and, hmem]

end

/-! What the accesses that have passed every order leave (R159). -/

theorem touchLocs_aside (s : State) (b : Bool) (xs : List Loc) : (s.touchLocs b xs).aside = s.aside := by
  unfold State.touchLocs
  refine foldl_aside _ _ _ fun s x => ?_
  cases x with
  | glob p t => exact touch_aside _ _ _ _ _ rfl
  | scr => rfl
  | ing => rfl

theorem markLanes_aside (s : State) (b : Bool) (f : Nat → Except (Err × Nat) Loc) (ls : List Nat) :
    (s.markLanes b f ls).aside = s.aside := by
  unfold State.markLanes
  refine foldl_aside _ _ _ fun s l => ?_
  split
  · exact touchLocs_aside s b _
  · split
    · exact markDiscarded_aside s _ _ rfl
    · rfl

/-- The accesses of lanes trap where the body stops with the conditions that they meet. -/
theorem laneAccess_traps {i : Instr} {info : OpInfo} {body : Body} {store : Bool} {pre : State → Prop}
    {acc : State → Nat → Except (Err × Nat) Loc} (hr : Runs i info body) (hmem : info.mem = true)
    (hb : ∀ s, pre s → condsOf (acc (s.atInstr i)) (lanesOf s.activeReal) ≠ [] → body (s.atInstr i) =
      .error (laneStop ((s.atInstr i).markLanes store (acc (s.atInstr i)) (lanesOf s.activeReal))
        (condsOf (acc (s.atInstr i)) (lanesOf s.activeReal)))) :
    LaneAccessTraps i store pre acc := by
  intro s l e p h hpre u meets hl hfirst
  have hin : ∀ m, m ∈ lanesOf s.activeReal ↔ m < 32 ∧ s.activeReal.getLsbD m = true := mem_lanesOf _
  obtain ⟨hl32, hact, herr⟩ := hl
  have hlane : l ∈ lanesOf s.activeReal := (hin l).2 ⟨hl32, hact⟩
  obtain ⟨hcause, hlaneEq, haddr, hmet⟩ := condInfo_first (lanesOf_sorted _) hlane herr fun m e' p' hm hf =>
    hfirst m e' p' ⟨((hin m).1 hm).1, ((hin m).1 hm).2, hf⟩
  have hne : condsOf (acc u) (lanesOf s.activeReal) ≠ [] := List.ne_nil_of_mem (mem_condsOf.2 ⟨hlane, herr⟩)
  have hbody := hb s hpre hne
  unfold laneStop at hbody
  dsimp only at hbody
  rw [hcause] at hbody
  obtain ⟨hprecise, hdeferred⟩ := memStop_stops hr hmem h (markLanes_aside u store (acc u) _) hbody hcause
  refine ⟨fun hlt => ⟨_, ?_, ?_, hlaneEq, haddr, fun m hm => (hmet m hm).trans ?_, hprecise hlt⟩, fun hlo hhi hh hlater hm => ?_⟩
  · rw [← hcause]
  · rw [← hcause]
  · exact ⟨fun ⟨e', p', h1, h2, h3⟩ => ⟨e', p', ⟨hm, ((hin m).1 h1).2, h2⟩, h3⟩,
      fun ⟨e', p', ⟨h1, h2, h3⟩, h4⟩ => ⟨e', p', (hin m).2 ⟨h1, h2⟩, h3, h4⟩⟩
  · obtain ⟨t, ht, hdef, -⟩ := hdeferred hlo hhi hh hlater hm
    exact ⟨t, ht, hlaneEq ▸ hdef p haddr⟩

end Sys2Proof.Machine
end

section
/-! Vector stores (R400, R401): where the bytes of a lane stand after its store, and where the stores trap. -/

namespace Sys2Proof.Machine

open Sys2Proof Laws

theorem vecStore_traps {i : Instr} {info : OpInfo} {w : Nat} {d : BitVec 7} {at_ : State → Nat → Addr}
    (hr : Runs i info (vecStore w d at_)) (hmem : info.mem = true) :
    LaneAccessTraps i true (fun _ => True) (fun s l => s.locate true .write (at_ s l) w) := by
  refine laneAccess_traps hr hmem fun s _ hne => ?_
  have hg : gather (fun l => (s.atInstr i).locate true .write (at_ (s.atInstr i) l) w) (lanesOf (s.atInstr i).activeReal) =
    .error _ := gather_eq.2 hne
  unfold vecStore
  simp only [hg]
  rfl

/-- The members of an ascending list up to one of them end with it. -/
theorem filter_le_eq {l : Nat} {ls : List Nat} (hls : ls.Pairwise (· < ·)) (hl : l ∈ ls) :
    ls.filter (fun m => m ≤ l) = ls.filter (fun m => m < l) ++ [l] := by
  induction ls with
  | nil => cases hl
  | cons m r ih =>
    obtain ⟨hm, hr⟩ := List.pairwise_cons.1 hls
    rcases List.mem_cons.1 hl with rfl | hl
    · have hnone : ∀ {p : Nat → Bool}, (∀ x, p x = true → x ≤ l) → r.filter p = [] := fun h =>
        List.filter_eq_nil_iff.2 fun x hx hp => absurd (h x hp) (Nat.not_le.2 (hm x hx))
      rw [List.filter_cons_of_pos (by simp), List.filter_cons_of_neg (by simp), hnone (by simp), hnone (by simp; omega)]
      rfl
    · have hlt := hm l hl
      rw [List.filter_cons_of_pos (by simp; omega), List.filter_cons_of_pos (by simpa using hlt), ih hr hl]
      rfl

theorem foldl_storeLoc_who (bs : Nat → List Byte) (loc : Nat → Loc) (ls : List Nat) :
    ∀ s : State, (ls.foldl (fun u l => u.storeLoc (bs l) (loc l)) s).who = s.who := by
  induction ls with
  | nil => exact fun _ => rfl
  | cons l r ih => exact fun s => (ih _).trans (who_store s (bs l) (loc l))

/-- After the stores of the lanes up to one of them, the bytes of that lane stand. -/
theorem foldl_storeLoc_holds {bs : Nat → List Byte} {loc : Nat → Loc} {ls : List Nat} (hls : ls.Pairwise (· < ·)) (s : State)
    {l p : Nat} {t : Trans} (hl : l ∈ ls) (hloc : loc l = .glob p t) (hk : leafKind t.leaf < 2)
    (hva : field p 0 57 % 128 + (bs l).length ≤ 128) :
    ((ls.filter (fun m => m ≤ l)).foldl (fun u m => u.storeLoc (bs m) (loc m)) s).holds s.who p t (bs l) := by
  have hwho := foldl_storeLoc_who bs loc (ls.filter (fun m => m < l)) s
  rw [filter_le_eq hls hl, List.foldl_append, List.foldl_cons, List.foldl_nil, hloc, ← hwho]
  exact storeLoc_holds _ hk hva

/-- Settles O41: `vecStore_stores` says what the stores change, `foldl_storeLoc_holds` where the bytes of each lane stand after its
store, and `vecStore_traps` where they trap. -/
theorem vectorStoresStoreActiveLanes : Obligations.VectorStoresStoreActiveLanes := by
  intro d a b stores byImm byLane inScratch
  have all {i : Instr} {info : OpInfo} {w : Nat} {at_ : State → Nat → Addr} (hr : Runs i info (vecStore w d at_))
      (hmem : info.mem = true) (hat : ∀ s l, at_ (s.atInstr i) l = at_ s l) : stores i w at_ := by
    refine ⟨vecStore_traps hr hmem, ?_⟩
    intro s loc h on val hall
    obtain ⟨t, ht, heq, hscr, hspares, hrest⟩ := vecStore_stores hr hat s loc h hall
    refine ⟨t, ht, heq, hscr, hspares, fun l p tr hl hloc hk hva _ => ?_, hrest⟩
    have hin : ∀ m, m ∈ lanesOf s.activeReal ↔ on m := mem_lanesOf _
    have hholds := foldl_storeLoc_holds (bs := fun l => toBytes w (val l)) (lanesOf_sorted s.activeReal) (s.atInstr i)
      ((hin l).2 hl) hloc hk (by rw [toBytes_length]; exact hva)
    refine ⟨hholds, fun hlast => ?_⟩
    have hfilter : (lanesOf s.activeReal).filter (fun m => m ≤ l) = lanesOf s.activeReal :=
      List.filter_eq_self.2 fun m hm => by simpa using hlast m ((hin m).1 hm)
    rw [hfilter] at hholds
    obtain ⟨-, hwarps, hissue⟩ := fold_stays (fun l => toBytes w (val l)) loc (lanesOf s.activeReal) (s.atInstr i)
    rw [heq]
    exact retired_holds (retire_of_warps h hwarps hissue) hholds
  refine ⟨?_, ?_, ?_, ?_, ?_, ?_, ?_, ?_, ?_, ?_⟩ <;>
    exact all (runs (fun _ => rfl) rfl rfl rfl) rfl fun _ _ => rfl

end Sys2Proof.Machine
end

section
/-! Vector loads (R28, R38, R148, R149, R159, R161, R400): the walk before the read, a line that no core holds, the lanes that are
served, and where the loads trap. -/

namespace Sys2Proof.Machine

open Sys2Proof Laws

/-! Bytes as numbers. -/

theorem ofBytes_drop (k : Nat) : ∀ bs : List Byte, ofBytes (bs.drop k) = ofBytes bs / 2 ^ (8 * k) := by
  induction k with
  | zero => intro bs; simp
  | succ k ih =>
    intro bs
    cases bs with
    | nil => simp [ofBytes]
    | cons b r =>
      have hb : (b.toNat + 256 * ofBytes r) / 256 = ofBytes r := by have := b.isLt; omega
      rw [List.drop_succ_cons, ih, ofBytes, show 8 * (k + 1) = 8 + 8 * k by omega, Nat.pow_add, ← Nat.div_div_eq_div_mul,
        show (2 : Nat) ^ 8 = 256 by norm_num, hb]

theorem ofBytes_take (n : Nat) : ∀ bs : List Byte, ofBytes (bs.take n) = ofBytes bs % 2 ^ (8 * n) := by
  induction n with
  | zero => intro bs; simp [ofBytes, Nat.mod_one]
  | succ n ih =>
    intro bs
    cases bs with
    | nil => simp [ofBytes]
    | cons b r =>
      have hb := b.isLt
      rw [List.take_succ_cons, ofBytes, ofBytes, ih, show 8 * (n + 1) = 8 + 8 * n by omega, Nat.pow_add, Nat.mod_mul,
        show (2 : Nat) ^ 8 = 256 by norm_num, Nat.add_mul_mod_self_left, Nat.mod_eq_of_lt hb, Nat.add_mul_div_left _ _ (by norm_num),
        Nat.div_eq_of_lt hb, Nat.zero_add]

theorem ofBytes_lt (bs : List Byte) : ofBytes bs < 2 ^ (8 * bs.length) := by
  have h := ofBytes_take bs.length bs
  rw [List.take_length] at h
  rw [h]
  exact Nat.mod_lt _ (by positivity)

theorem lineBytes_eq (v : Vec) (i n : Nat) : lineBytes v i n = toBytes n (v.toNat / 2 ^ (8 * i)) := by
  apply List.ext_getElem?
  intro j
  by_cases hj : j < n
  · rw [toBytes_get _ _ _ hj, Nat.div_div_eq_div_mul, ← Nat.pow_add, show 8 * i + 8 * j = 8 * (i + j) by omega]
    simp only [lineBytes, List.getElem?_map, List.getElem?_range hj, Option.map_some]
    rw [← Nat.shiftRight_eq_div_pow]
    rfl
  · rw [List.getElem?_eq_none (by simp [lineBytes]; omega), List.getElem?_eq_none (by rw [toBytes_length]; omega)]

theorem toNat_ofBytes {bs : List Byte} {w : Nat} (h : 8 * bs.length ≤ w) : (BitVec.ofNat w (ofBytes bs)).toNat = ofBytes bs := by
  rw [BitVec.toNat_ofNat, Nat.mod_eq_of_lt ((ofBytes_lt bs).trans_le (Nat.pow_le_pow_right Nat.two_pos h))]

/-- The bytes of a line taken from a run of at most 128, as a number. -/
theorem ofBytes_lineBytes {bs : List Byte} (h : bs.length ≤ 128) (i n : Nat) :
    ofBytes (lineBytes (BitVec.ofNat 1024 (ofBytes bs)) i n) = ofBytes ((bs.drop i).take n) := by
  rw [lineBytes_eq, ofBytes_toBytes, ofBytes_take, ofBytes_drop, toNat_ofBytes (by omega)]

/-! A read within one line. -/

theorem bytesGet_drop (d : Byte) (l : List (Nat × Byte)) (k : Nat) : ∀ a m, (bytesGet d l a m).drop k = bytesGet d l (a + k) (m - k) := by
  induction k with
  | zero => exact fun _ _ => rfl
  | succ k ih =>
    intro a m
    cases m with
    | zero => rw [Nat.zero_sub]; rfl
    | succ m => rw [bytesGet, List.drop_succ_cons, ih, Nat.succ_sub_succ, show a + 1 + k = a + (k + 1) by omega]

theorem bytesGet_take (d : Byte) (l : List (Nat × Byte)) (n : Nat) : ∀ {m : Nat} (a : Nat), n ≤ m →
    (bytesGet d l a m).take n = bytesGet d l a n := by
  induction n with
  | zero => exact fun _ _ => List.take_zero
  | succ n ih =>
    intro m a h
    obtain ⟨m, rfl⟩ := Nat.exists_eq_add_of_le' (Nat.one_le_of_lt h)
    rw [bytesGet, List.take_succ_cons, ih (a + 1) (by omega)]
    rfl

theorem physReadKey_slice (s : State) (k pa n : Nat) (hn : pa % 128 + n ≤ 128) :
    ((s.physReadKey k (pa / 128 * 128) 128).drop (pa % 128)).take n = s.physReadKey k pa n := by
  have hbase : pa / 128 * 128 + pa % 128 = pa := by omega
  have hline : pa / 128 * 128 / 128 = pa / 128 := by omega
  have hoff : pa / 128 * 128 % 128 = 0 := by omega
  have hmem : ((bytesGet Config.memInit s.mem (pa / 128 * 128) 128).drop (pa % 128)).take n = bytesGet Config.memInit s.mem pa n := by
    rw [bytesGet_drop, bytesGet_take _ _ _ _ (by omega), hbase]
  unfold State.physReadKey State.physRead
  rw [hline, hoff]
  split
  · split
    · split
      · exact hmem
      · rw [List.drop_zero, List.drop_take, List.take_take, Nat.min_eq_left (by omega)]
    · exact hmem
  · exact hmem

theorem physReadKey_length (s : State) (k pa n : Nat) : (s.physReadKey k pa n).length ≤ n := by
  unfold State.physReadKey State.physRead
  split
  · split
    · split
      · exact (bytesGet_length ..).le
      · exact List.length_take_le _ _
    · exact (bytesGet_length ..).le
  · exact (bytesGet_length ..).le

/-! The walk comes first (R159). -/

theorem fill_found (s : State) (w : Who) (vline : Nat) (tr : Trans) (leaf : DWord) :
    s.fill w vline { tr with leaf := leaf, entry := none, ptrs := [] } = s.fill w vline { tr with leaf := leaf } := by
  simp only [State.fill]

/-- A line is filled from where a translation leads, however it was found. -/
theorem ensureLine_found (s : State) (w : Who) (va : Nat) (tr : Trans) (b : Bool) :
    s.ensureLine w va { tr with entry := none, ptrs := [] } b = s.ensureLine w va tr b := by
  unfold State.ensureLine
  simp only [fill_found]

theorem loadLoc_walks (s : State) (p : Nat) (tr : Trans) (n : Nat) :
    s.loadLoc n (.glob p tr) =
      (s.touch s.who (field p 0 57) tr false).loadLoc n (.glob p { tr with entry := none, ptrs := [] }) := by
  have ha := touch_aside s s.who (field p 0 57) tr false rfl
  have hwho := who_aside ha
  have hresp : (s.touch s.who (field p 0 57) tr false).issue.resp = s.issue.resp := congrArg Issue.resp (Apart.aside ha).issue
  have hagain : ∀ u : State, u.touch s.who (field p 0 57) { tr with entry := none, ptrs := [] } false = u := fun u =>
    touch_none u _ _ _ _ rfl
  unfold State.loadLoc State.loadBytes
  simp only [hwho, hresp, hagain, ensureLine_found]

/-! A line that no core of the cluster holds (R149). -/

theorem pullLine_l1 (s : State) (cl pl c : Nat) : ∀ l ∈ ((s.pullLine cl pl).core c).l1, l ∈ (s.core c).l1 := by
  have key : ∀ (cs : List Nat) (t : State), ∀ l ∈ ((cs.foldl (fun s c => s.removeLines c (fun l => l.pline = pl)) t).core c).l1,
      l ∈ (t.core c).l1 := by
    intro cs
    induction cs with
    | nil => exact fun _ _ h => h
    | cons d r ih => exact fun t l hl => (removeLines_core t d _).2.2 c l (ih _ l hl)
  exact key _ s

/-- A fill puts a line behind those that stay, with the bytes that memory holds once the cluster has given up the line. -/
theorem fill_l1 (s : State) (w : Who) (vline : Nat) (t : Trans) :
    ∃ u way tags, ((s.fill w vline t).core w.core).l1 = (u.core w.core).l1 ++
        [⟨w.asid, vline, t.pa / 128, BitVec.ofNat 12 (leafKey t.leaf), t.leaf, way, tags,
          BitVec.ofNat 1024 (ofBytes (u.physReadKey (leafKey t.leaf) (t.pa / 128 * 128) 128)), 0⟩] ∧
      (∀ l ∈ (u.core w.core).l1, l ∈ (s.core w.core).l1) ∧
      ∀ q, s.lineClean w.core (q / 128) → Kept w.core q s u := by
  have hpull := pullLine_l1 s (clusterOf w.core) (t.pa / 128) w.core
  have hkept := fun q hq => pullLine_kept (core := w.core) (q := q) s (t.pa / 128) hq
  unfold State.fill
  dsimp only
  split
  · exact ⟨_, _, _, by rw [core_setCore, if_pos rfl], hpull, hkept⟩
  · split
    · refine ⟨_, _, _, by rw [core_setCore, if_pos rfl], fun l hl => hpull l ((removeLines_core _ _ _).2.2 w.core l hl), fun q hq => ?_⟩
      exact (hkept q hq).trans (removeLines_kept _ _ _ (own_core w.core) (hkept q hq).clean)
    · exact ⟨_, _, _, by rw [core_setCore, if_pos rfl], hpull, hkept⟩

theorem loadLoc_misses (s : State) (p : Nat) (tr : Trans) (n : Nat) (he : tr.entry = none) (hk : leafKind tr.leaf < 2)
    (hnc : leafNc tr.leaf = false) (hmiss : s.l1Find s.who (field p 0 57) = none) (hclean : s.lineClean s.who.core (tr.pa / 128))
    (hoff : tr.pa % 128 = field p 0 57 % 128) (hn : tr.pa % 128 + n ≤ 128) :
    (s.loadLoc n (.glob p tr)).1 = ofBytes (s.physReadKey (leafKey tr.leaf) tr.pa n) := by
  obtain ⟨u, way, tags, hl1, hsub, hkept⟩ := fill_l1 s s.who (field p 0 57 / 128) { tr with leaf := markLeaf false tr.leaf }
  have hfind : (s.fill s.who (field p 0 57 / 128) { tr with leaf := markLeaf false tr.leaf }).l1Find s.who (field p 0 57) =
      some ⟨s.who.asid, field p 0 57 / 128, tr.pa / 128, BitVec.ofNat 12 (leafKey (markLeaf false tr.leaf)), markLeaf false tr.leaf, way,
        tags, BitVec.ofNat 1024 (ofBytes (u.physReadKey (leafKey (markLeaf false tr.leaf)) (tr.pa / 128 * 128) 128)), 0⟩ := by
    have hnone : ∀ l ∈ (s.core s.who.core).l1, ¬ (l.asid = s.who.asid ∧ l.vline = field p 0 57 / 128) := by
      have h : (s.core s.who.core).l1.find? (fun l => l.asid = s.who.asid && l.vline = field p 0 57 / 128) = none := hmiss
      simpa using List.find?_eq_none.1 h
    show List.find? _ _ = _
    rw [hl1, List.find?_append, List.find?_eq_none.2 fun l hl => by simpa using hnone l (hsub l hl)]
    simp
  have hline : u.physReadKey (leafKey tr.leaf) (tr.pa / 128 * 128) 128 = s.physReadKey (leafKey tr.leaf) (tr.pa / 128 * 128) 128 :=
    physReadKey_kept (core := s.who.core) (fun q hq => hkept q (by rw [hq]; simpa using hclean)) (by omega)
  have hload : (s.loadLoc n (.glob p tr)).1 = ofBytes (lineBytes
      (BitVec.ofNat 1024 (ofBytes (s.physReadKey (leafKey tr.leaf) (tr.pa / 128 * 128) 128))) (field p 0 57 % 128) n) := by
    unfold State.loadLoc State.loadBytes State.ensureLine
    rw [leafKey_markLeaf, hline] at hfind
    simp only [touch_none s s.who (field p 0 57) tr false (by rw [he]; rfl), hmiss, hnc, hfind,
      if_neg (show ¬ leafKind tr.leaf = 2 by omega), if_neg (show ¬ leafKind tr.leaf = 3 by omega), Bool.false_eq_true, if_false]
  rw [hload, ofBytes_lineBytes (physReadKey_length ..), ← hoff, physReadKey_slice _ _ _ _ hn]

end Sys2Proof.Machine
end

section
/-! The lanes that a vector load serves (R28, R38, R400, R401), and where its accesses trap. -/

namespace Sys2Proof.Machine

open Sys2Proof Laws

theorem vecLoad_traps {i : Instr} {info : OpInfo} {w : Nat} {d : BitVec 7} {at_ : State → Nat → Addr}
    (hr : Runs i info (vecLoad w d at_)) (hmem : info.mem = true) :
    LaneAccessTraps i false (fun _ => True) (fun s l => s.locate true .read (at_ s l) w) := by
  refine laneAccess_traps hr hmem fun s _ hne => ?_
  have hg : gather (fun l => (s.atInstr i).locate true .read (at_ (s.atInstr i) l) w) (lanesOf (s.atInstr i).activeReal) =
    .error _ := gather_eq.2 hne
  unfold vecLoad
  simp only [hg]
  rfl

/-! Helper lanes. -/

/-- The lanes that are located, with their locations. -/
def locatedLanes (f : Nat → Except (Err × Nat) Loc) (ls : List Nat) : List (Nat × Loc) :=
  ls.filterMap (fun l => match f l with
    | .ok x => some (l, x)
    | .error _ => none)

/-- What a helper lane does: it is served at its location, or its access would trap. -/
def HelperLane (f : Nat → Except (Err × Nat) Loc) (had : Loc → Except (Err × Nat) (Option HostAsk)) (loc : Nat → Loc)
    (served : Nat → Bool) (l : Nat) : Prop :=
  if served l then f l = .ok (loc l) ∧ had (loc l) = .ok none
  else (∃ e, f l = .error e) ∨ ∃ x e, f l = .ok x ∧ had x = .error e

section
variable {f : Nat → Except (Err × Nat) Loc} {had : Loc → Except (Err × Nat) (Option HostAsk)} {loc : Nat → Loc} {served : Nat → Bool}

/-- A located helper lane is one that is served, or one whose answer is a condition. -/
theorem mem_locatedLanes {ls : List Nat} (h : ∀ l ∈ ls, HelperLane f had loc served l) {p : Nat × Loc} (hp : p ∈ locatedLanes f ls) :
    had p.2 = .ok none ∨ ∃ e, had p.2 = .error e := by
  obtain ⟨l, hl, hx⟩ := List.mem_filterMap.1 hp
  have hlane := h l hl
  unfold HelperLane at hlane
  cases hf : f l with
  | error e => simp [hf] at hx
  | ok x =>
    obtain rfl : (l, x) = p := by simpa [hf] using hx
    split at hlane
    · obtain ⟨hloc, hhad⟩ := hlane
      cases hf.symm.trans hloc
      exact .inl hhad
    · rcases hlane with ⟨e, he⟩ | ⟨y, e, hy, he⟩
      · cases hf.symm.trans he
      · cases hf.symm.trans hy
        exact .inr ⟨e, he⟩

theorem helpers_ask_nothing {ls : List Nat} (h : ∀ l ∈ ls, HelperLane f had loc served l) :
    (locatedLanes f ls).filterMap (fun p => match had p.2 with
      | .ok q => q
      | .error _ => none) = [] := by
  rw [List.filterMap_eq_nil_iff]
  intro p hp
  rcases mem_locatedLanes h hp with h | ⟨e, h⟩ <;> simp [h]

theorem helpers_served {ls : List Nat} (h : ∀ l ∈ ls, HelperLane f had loc served l) :
    (locatedLanes f ls).filter (fun p => match had p.2 with
      | .ok _ => true
      | .error _ => false) = (ls.filter served).map (fun l => (l, loc l)) := by
  induction ls with
  | nil => rfl
  | cons l r ih =>
    have hlane := h l (List.mem_cons_self ..)
    have ih := ih fun m hm => h m (List.mem_cons_of_mem _ hm)
    unfold HelperLane at hlane
    unfold locatedLanes at ih ⊢
    split at hlane
    · next hs =>
      obtain ⟨hloc, hhad⟩ := hlane
      rw [List.filter_cons_of_pos hs, List.map_cons, List.filterMap_cons_some (by rw [hloc]), List.filter_cons_of_pos (by rw [hhad]), ih]
    · next hs =>
      rw [List.filter_cons_of_neg hs]
      rcases hlane with ⟨e, he⟩ | ⟨x, e, hx, he⟩
      · rw [List.filterMap_cons_none (by rw [he]), ih]
      · rw [List.filterMap_cons_some (by rw [hx]), List.filter_cons_of_neg (by rw [he]; simp), ih]

end

/-! The values of the lanes. -/

theorem loadLanes_keys (n : Nat) (ls : List (Nat × Loc)) : ∀ s : State, (s.loadLanes n ls).1.map Prod.fst = ls.map Prod.fst := by
  induction ls with
  | nil => exact fun _ => rfl
  | cons x r ih => exact fun s => congrArg (x.1 :: ·) (ih _)

theorem loadLanes_aside (n : Nat) (ls : List (Nat × Loc)) : ∀ s : State, (s.loadLanes n ls).2.aside = s.aside := by
  induction ls with
  | nil => exact fun _ => rfl
  | cons x r ih => exact fun s => (ih _).trans (loadLoc_aside s n x.2)

theorem alGet_absent {α : Type} {ls : List (Nat × α)} {l : Nat} (h : l ∉ ls.map Prod.fst) : alGet ls l = none := by
  induction ls with
  | nil => rfl
  | cons x r ih =>
    rw [List.map_cons, List.mem_cons, not_or] at h
    unfold alGet
    rw [if_neg (Ne.symm h.1), ih h.2]

theorem maySplit_stays {s : State} (h : s.splitEntry = none) (locs : List (Nat × List Loc)) : s.maySplit locs = s := by
  unfold State.maySplit
  rw [h]

/-- A vector load that is served writes what its lanes read: the active real ones, then the helper lanes that are served. -/
theorem vecLoad_serves {s : State} {w : Nat} {d : BitVec 7} {at_ : State → Nat → Addr} {loc : Nat → Loc} {served : Nat → Bool}
    (hsplit : s.splitEntry = none)
    (hreal : ∀ l ∈ lanesOf s.activeReal, s.locate true .read (at_ s l) w = .ok (loc l) ∧
      (loc l).asked s.issue.resp 0 w (fun p pa => askRead p w pa) = .ok none)
    (hhelp : ∀ l ∈ lanesOf (s.active &&& s.cw.helpers), HelperLane (fun l => s.locate true .read (at_ s l) w)
      (fun x => x.asked s.issue.resp 0 w (fun p pa => askRead p w pa)) loc served l) :
    let r := s.loadLanes w ((lanesOf s.activeReal ++ (lanesOf (s.active &&& s.cw.helpers)).filter served).map (fun l => (l, loc l)))
    let v := fun l => BitVec.ofNat 64 ((alGet r.1 l).getD 0)
    vecLoad w d at_ s =
      .ok (if w = 8 then r.2.wrPair d.toNat s.active v else r.2.wrLanes d.toNat s.active (fun l => lowWord (v l))) := by
  intro r v
  have hgather : gather (fun l => s.locate true .read (at_ s l) w) (lanesOf s.activeReal) =
      .ok ((lanesOf s.activeReal).map (fun l => (l, loc l))) := gather_ok _ loc _ fun l hl => (hreal l hl).1
  have hasked := lanesAsked_none s.issue.resp 0 (fun _ => w) (fun _ p pa => askRead p w pa) loc _ fun l hl => (hreal l hl).2
  have hwarps : { r.2 with warps := s.warps } = r.2 := by
    rw [← (aside_stays (loadLanes_aside w _ s)).2.1]
  unfold vecLoad
  dsimp only
  rw [hgather]
  dsimp only
  rw [hasked]
  generalize hH : List.filterMap _ (lanesOf (s.active &&& s.cw.helpers)) = H
  have hH : H = locatedLanes (fun l => s.locate true .read (at_ s l) w) (lanesOf (s.active &&& s.cw.helpers)) := hH.symm
  generalize hA : List.filterMap _ H = A
  have hA : A = [] := by rw [← hA, hH]; exact helpers_ask_nothing hhelp
  generalize hF : List.filter _ H = F
  have hF : F = ((lanesOf (s.active &&& s.cw.helpers)).filter served).map (fun l => (l, loc l)) := by
    rw [← hF, hH]; exact helpers_served hhelp
  rw [hA, hF]
  simp only [Except.map, List.append_nil, List.eraseDups_nil, maySplit_stays hsplit, ← List.map_append]
  exact congrArg _ (by rw [hwarps])

end Sys2Proof.Machine
end

section
/-! O40: the vector loads. -/

namespace Sys2Proof.Machine

open Sys2Proof Laws

theorem lowWord_ofNat (v : Nat) : lowWord (BitVec.ofNat 64 v) = BitVec.ofNat 32 v := by
  apply BitVec.eq_of_toNat_eq
  simp [lowWord, BitVec.toNat_ofNat]

/-- What a ready vector load leaves that writes vd, or its pair, from a state which its accesses have made. -/
structure LoadWrites (s u t : State) (w : Nat) (d : BitVec 7) (v : Nat → DWord) : Prop where
  units : t.mem = u.mem ∧ t.cores = u.cores ∧ t.clusters = u.clusters
  frame : RegisterFrame s t (fun _ => False) (fun n => n = d.toNat ∨ (w = 8 ∧ n = d.toNat + 1))
  values : ∀ l, l < 32 → s.active.getLsbD l = true →
    if w = 8 then pairOf (t.regV d.toNat) (t.regV (d.toNat + 1)) l = v l else laneOf (t.regV d.toNat) l = lowWord (v l)

section
variable {i : Instr} {s u : State} {d : BitVec 7} (h : ready i s = true) (a : Apart (s.atInstr i) u) (hd : s.vname d.toNat = true)
include h a hd

theorem wrPair_loads (hd1 : s.vname (d.toNat + 1) = true) (v : Nat → DWord) :
    LoadWrites s u (s.retired i (u.wrPair d.toNat u.active v)) 8 d v := by
  have hw : u.issue.warp < u.warps.length := by rw [a.issue, a.warps]; exact ready_list h
  have hact : u.active = s.active := a.active
  have hname : ∀ n, u.vname n = s.vname n := a.vname
  obtain ⟨hwrote, hother, hS, hK, hlo, hhi⟩ := wrPair_spec u d.toNat u.active v hw (by rw [hname]; exact hd) (by rw [hname]; exact hd1)
  obtain ⟨hstays, hframe⟩ := registerFrame_of (i := i) (fun _ => False) (fun n => n = d.toNat ∨ (8 = 8 ∧ n = d.toNat + 1)) h a hwrote
    (fun n _ _ => hS n)
    (fun n hn hne => hother n (by rw [hname]; exact hn) (fun e => hne (.inl e)) (fun e => hne (.inr ⟨rfl, e⟩)))
    (fun n l hn hl ha => by
      by_cases e : n = d.toNat
      · rw [e, hlo l hl, hact, ha]; rfl
      · by_cases e' : n = d.toNat + 1
        · rw [e', hhi l hl, hact, ha]; rfl
        · rw [hother n (by rw [hname]; exact hn) e e']) hK
  refine ⟨⟨hstays.elsewhere.mem.trans hwrote.elsewhere.mem, hstays.elsewhere.cores.trans hwrote.elsewhere.cores,
    hstays.elsewhere.clusters.trans hwrote.elsewhere.clusters⟩, hframe, fun l hl ha => ?_⟩
  rw [if_pos rfl, hstays.reads.regV, hstays.reads.regV]
  exact pairOf_low_high _ _ _ _ (by rw [hlo l hl, hact, ha]; rfl) (by rw [hhi l hl, hact, ha]; rfl)

theorem wrLanes_loads {w : Nat} (h8 : w ≠ 8) (v : Nat → DWord) :
    LoadWrites s u (s.retired i (u.wrLanes d.toNat u.active (fun l => lowWord (v l)))) w d v := by
  have hw : u.issue.warp < u.warps.length := by rw [a.issue, a.warps]; exact ready_list h
  have hact : u.active = s.active := a.active
  have hname : ∀ n, u.vname n = s.vname n := a.vname
  obtain ⟨hwrote, hother, hS, hK, hlanes⟩ := wrLanes_spec u d.toNat u.active (fun l => lowWord (v l)) hw (by rw [hname]; exact hd)
  obtain ⟨hstays, hframe⟩ := registerFrame_of (i := i) (fun _ => False) (fun n => n = d.toNat ∨ (w = 8 ∧ n = d.toNat + 1)) h a hwrote
    (fun n _ _ => hS n) (fun n hn hne => hother n (by rw [hname]; exact hn) (fun e => hne (.inl e)))
    (fun n l hn hl ha => by
      by_cases e : n = d.toNat
      · rw [e, hlanes l hl, hact, ha]; rfl
      · rw [hother n (by rw [hname]; exact hn) e]) hK
  refine ⟨⟨hstays.elsewhere.mem.trans hwrote.elsewhere.mem, hstays.elsewhere.cores.trans hwrote.elsewhere.cores,
    hstays.elsewhere.clusters.trans hwrote.elsewhere.clusters⟩, hframe, fun l hl ha => ?_⟩
  rw [if_neg h8, hstays.reads.regV, hlanes l hl, hact, ha]
  rfl

end

/-- A helper lane that is not served takes 0. -/
theorem unserved_takes_zero {s u : State} {w l : Nat} {loc : Nat → Loc} {served : Nat → Bool}
    (hl : (s.cw.helpers.getLsbD l && !served l) = true) :
    (alGet (u.loadLanes w ((lanesOf s.activeReal ++ (lanesOf (s.active &&& s.cw.helpers)).filter served).map
      (fun l => (l, loc l)))).1 l).getD 0 = 0 := by
  obtain ⟨hhelp, hserved⟩ : s.cw.helpers.getLsbD l = true ∧ served l = false := by simpa using hl
  rw [alGet_absent]
  · rfl
  · rw [loadLanes_keys, List.map_map, show (Prod.fst ∘ fun l => (l, loc l)) = id from rfl, List.map_id, List.mem_append, not_or]
    refine ⟨fun hreal => ?_, fun hmem => ?_⟩
    · obtain ⟨hl32, hact⟩ := (mem_lanesOf _ _).1 hreal
      unfold State.activeReal at hact
      simp [hhelp] at hact
    · have := (List.mem_filter.1 hmem).2
      simp [hserved] at this

/-- A ready vector load whose accesses are answered: what it writes, and what its reads leave of memory and the caches. -/
theorem vecLoad_completes {i : Instr} {info : OpInfo} {w : Nat} {d : BitVec 7} {at_ : State → Nat → Addr}
    (hr : Runs i info (vecLoad w d at_)) (hat : ∀ s l, at_ (s.atInstr i) l = at_ s l)
    (hd : ∀ s, ready i s = true → s.vname d.toNat = true ∧ (w = 8 → s.vname (d.toNat + 1) = true))
    {s : State} {loc : Nat → Loc} {served : Nat → Bool} (h : ready i s = true) (hsplit : (s.atInstr i).splitEntry = none)
    (hreal : ∀ l ∈ lanesOf s.activeReal, (s.atInstr i).locate true .read (at_ s l) w = .ok (loc l) ∧
      (loc l).asked s.issue.resp 0 w (fun p pa => askRead p w pa) = .ok none)
    (hhelp : ∀ l ∈ lanesOf (s.active &&& s.cw.helpers), HelperLane (fun l => (s.atInstr i).locate true .read (at_ s l) w)
      (fun x => x.asked s.issue.resp 0 w (fun p pa => askRead p w pa)) loc served l) :
    let r := (s.atInstr i).loadLanes w
      ((lanesOf s.activeReal ++ (lanesOf (s.active &&& s.cw.helpers)).filter served).map (fun l => (l, loc l)))
    ∃ t, exec i s = .next t ∧ LoadWrites s r.2 t w d (fun l => BitVec.ofNat 64 ((alGet r.1 l).getD 0)) := by
  intro r
  have hbody : vecLoad w d at_ (s.atInstr i) = .ok (if w = 8
      then r.2.wrPair d.toNat (s.atInstr i).active (fun l => BitVec.ofNat 64 ((alGet r.1 l).getD 0))
      else r.2.wrLanes d.toNat (s.atInstr i).active (fun l => lowWord (BitVec.ofNat 64 ((alGet r.1 l).getD 0)))) :=
    vecLoad_serves hsplit (fun l hl => by rw [hat]; exact hreal l hl) (by simp only [hat]; exact hhelp)
  have ap : Apart (s.atInstr i) r.2 := Apart.aside (loadLanes_aside w _ _)
  clear_value r
  have hact : r.2.active = (s.atInstr i).active := ap.active
  obtain ⟨hname, hname1⟩ := hd s h
  refine ⟨_, hr.ok h hbody, ?_⟩
  rw [← hact]
  by_cases h8 : w = 8
  · rw [if_pos h8]
    subst h8
    exact wrPair_loads h ap hname (hname1 rfl) _
  · rw [if_neg h8]
    exact wrLanes_loads h ap hname h8 _

/-- Settles O40: `loadLoc_walks` and `loadLoc_misses` say what one lane's read leaves and gives, `vecLoad_completes` what all of them
write, `vecLoad_reads` that quiet reads change nothing else, and `vecLoad_traps` where they trap. -/
theorem vectorLoadsReadActiveLanes : Obligations.VectorLoadsReadActiveLanes := by
  refine ⟨loadLoc_walks, loadLoc_misses, ?_⟩
  intro d a b loads byImm byLane inScratch inIngot
  have all {i : Instr} {info : OpInfo} {w : Nat} {at_ : State → Nat → Addr} (hr : Runs i info (vecLoad w d at_))
      (hmem : info.mem = true) (hat : ∀ s l, at_ (s.atInstr i) l = at_ s l)
      (hd : ∀ s, ready i s = true → s.vname d.toNat = true ∧ (w = 8 → s.vname (d.toNat + 1) = true)) : loads i w at_ := by
    refine ⟨vecLoad_traps hr hmem, ?_, vecLoad_reads hr hat hd⟩
    intro s loc served h u had help hsplit hreal hhelp r
    obtain ⟨t, ht, ⟨hmem, hcores, hclusters⟩, hframe, hvalues⟩ := vecLoad_completes hr hat hd h hsplit hreal hhelp
    refine ⟨t, ht, hmem, hcores, hclusters, fun l hl => ?_, hframe⟩
    obtain ⟨hl32, hact⟩ := (mem_lanesOf _ _).1 hl
    have hv := hvalues l hl32 hact
    have hzero : (if s.cw.helpers.getLsbD l && !served l then 0 else (alGet r.1 l).getD 0) = (alGet r.1 l).getD 0 := by
      split
      · next hno => exact (unserved_takes_zero hno).symm
      · rfl
    dsimp only
    rw [hzero, ← lowWord_ofNat]
    exact hv
  have hd : d.toNat + 1 < 200 := by have := d.isLt; omega
  have word {i : Instr} {info : OpInfo} {w : Nat} {at_ : State → Nat → Addr} (hr : Runs i info (vecLoad w d at_)) (h8 : w ≠ 8)
      (hmem : info.mem = true) (hinfo : info.d = .vdst 1) (hf : i.fields.extractLsb' 14 7 = d)
      (hat : ∀ s l, at_ (s.atInstr i) l = at_ s l) : loads i w at_ :=
    all hr hmem hat fun s h => ⟨ready_vdst hr.info h 1 (.inl hinfo) hf 0 (by decide) (by omega), fun e => absurd e h8⟩
  have pair {i : Instr} {info : OpInfo} {at_ : State → Nat → Addr} (hr : Runs i info (vecLoad 8 d at_))
      (hmem : info.mem = true) (hinfo : info.d = .vpdst) (hf : i.fields.extractLsb' 14 7 = d)
      (hat : ∀ s l, at_ (s.atInstr i) l = at_ s l) : loads i 8 at_ :=
    all hr hmem hat fun s h => 
      have hname := ready_vdst hr.info h 2 (.inr (.inr ⟨rfl, .inl hinfo⟩)) hf
      ⟨hname 0 (by decide) (by omega), fun _ => hname 1 (by decide) hd⟩
  have field := dField d a b
  refine ⟨?_, ?_, ?_, ?_, ?_, ?_, ?_, ?_, ?_, ?_, ?_⟩
  · exact word (runs (fun _ => rfl) rfl rfl rfl) (by decide) rfl rfl field fun _ _ => rfl
  · exact word (runs (fun _ => rfl) rfl rfl rfl) (by decide) rfl rfl field fun _ _ => rfl
  · exact word (runs (fun _ => rfl) rfl rfl rfl) (by decide) rfl rfl field fun _ _ => rfl
  · exact pair (runs (fun _ => rfl) rfl rfl rfl) rfl rfl field fun _ _ => rfl
  · exact word (runs (fun _ => rfl) rfl rfl rfl) (by decide) rfl rfl field fun _ _ => rfl
  · exact word (runs (fun _ => rfl) rfl rfl rfl) (by decide) rfl rfl field fun _ _ => rfl
  · exact word (runs (fun _ => rfl) rfl rfl rfl) (by decide) rfl rfl field fun _ _ => rfl
  · exact pair (runs (fun _ => rfl) rfl rfl rfl) rfl rfl field fun _ _ => rfl
  · exact word (runs (fun _ => rfl) rfl rfl rfl) (by decide) rfl rfl field fun _ _ => rfl
  · exact pair (runs (fun _ => rfl) rfl rfl rfl) rfl rfl field fun _ _ => rfl
  · exact word (runs (fun _ => rfl) rfl rfl rfl) (by decide) rfl rfl field fun _ _ => rfl

end Sys2Proof.Machine
end

section
/-! O42: a TINS under way does not look at the deterministic mode again. -/

namespace Sys2Proof.Machine

open Sys2Proof

/-- A placed warp in deterministic mode whose TINS, access by access, has answered all its lanes. -/
def tinsAnsweredInDet : State :=
  let s := (State.reset.place []).setIssue 0 0 placeVa placeVa 0 false
  let s := s.putW { s.cw with base := 112, vf := 96, sf := 48, det := true }
  { s with issue := { s.issue with ins := some (Insert.start 0 []) } }

theorem tinsAnsweredInDet_ready : ready (.tins 16 20 4) tinsAnsweredInDet = true := by decide +kernel

theorem tinsAnsweredInDet_det : (tinsAnsweredInDet.atInstr (.tins 16 20 4)).cw.det = true := by decide +kernel

/-- With no lane left the insertion is over: the accesses that remain, none, are made without a check of the mode. -/
theorem tinsAnsweredInDet_completes : warp0Goes (exec (.tins 16 20 4) tinsAnsweredInDet) = true := by decide +kernel

/-- DETATOM would stop the warp, whose ctl.trapv enables no cause (R295). -/
theorem tinsAnsweredInDet_detatom_stops :
    warp0Goes (.next ((tinsAnsweredInDet.atInstr (.tins 16 20 4)).raise (TrapInfo.of (.detatom, 0)))) = false := by
  decide +kernel

/-- Refutes O42: its last part, that a ready TINS in deterministic mode traps with DETATOM, fails of one that is under way
(`issue.ins`). The mode is checked where a TINS begins (`tinsOpen`), and a TINS that goes on access by access completes. -/
theorem not_atomicsUpdateEachLane : ¬ Obligations.AtomicsUpdateEachLane := by
  unfold Obligations.AtomicsUpdateEachLane
  rintro ⟨-, htraps⟩
  obtain ⟨-, hdetatom⟩ := htraps 16 20 4
  have hgoes := tinsAnsweredInDet_completes
  rw [hdetatom (.tins 16 20 4) (by simp) tinsAnsweredInDet tinsAnsweredInDet_ready tinsAnsweredInDet_det,
    tinsAnsweredInDet_detatom_stops] at hgoes
  cases hgoes

end Sys2Proof.Machine
end

section
/-! Fences and translation fences (R174, R176, R187, R188). -/

namespace Sys2Proof.Machine
open Sys2Proof

/-! A byte of memory whose line no core has still to write back. -/

/-- No core holds a byte of a physical line that awaits its write-back (R147 to R149). -/
def State.cleanEverywhere (s : State) (pl : Nat) : Prop := ∀ k l, l ∈ (s.core k).l1 → l.pline = pl → l.dirty = 0

theorem State.cleanEverywhere.lineClean {s : State} {pl : Nat} (h : s.cleanEverywhere pl) (c : Nat) : s.lineClean c pl :=
  fun k _ => h k

/-- Byte q of memory is as it was, and still no core has a byte of its line to write back. -/
structure KeptClean (q : Nat) (s t : State) : Prop where
  byte : t.memByte q = s.memByte q
  clean : t.cleanEverywhere (q / 128)

theorem KeptClean.same {q : Nat} {s : State} (h : s.cleanEverywhere (q / 128)) : KeptClean q s s := ⟨rfl, h⟩

theorem KeptClean.trans {q : Nat} {s t u : State} (h : KeptClean q s t) (k : KeptClean q t u) : KeptClean q s u :=
  ⟨k.byte.trans h.byte, k.clean⟩

theorem KeptClean.foldl {α : Type} {q : Nat} {f : State → α → State}
    (hf : ∀ s a, s.cleanEverywhere (q / 128) → KeptClean q s (f s a)) (l : List α) (s : State)
    (h : s.cleanEverywhere (q / 128)) : KeptClean q s (l.foldl f s) := by
  induction l generalizing s with
  | nil => exact KeptClean.same h
  | cons a r ih =>
    have k := hf s a h
    exact k.trans (ih _ k.clean)

theorem removeLines_keptClean {q : Nat} (s : State) (c : Nat) (p : L1Line → Bool) (h : s.cleanEverywhere (q / 128)) :
    KeptClean q s (s.removeLines c p) :=
  ⟨(removeLines_kept s c p (own_core c) (h.lineClean c)).byte,
    fun d l hl => h d l ((Laws.removeLines_core s c p).2.2 d l hl)⟩

theorem releaseL1_keptClean {q : Nat} (s : State) (c : Nat) (h : s.cleanEverywhere (q / 128)) :
    KeptClean q s (s.releaseL1 c) := by
  refine KeptClean.foldl (fun s k h => ⟨(cleanLines_kept s k _ (own_core k) (h.lineClean k)).byte, fun d l hl hp => ?_⟩) _ s h
  obtain hclean | ⟨-, hmem⟩ := (Laws.cleanLines_core s k).2 d l hl
  · exact hclean
  · exact h d l hmem hp

theorem acquireL1_keptClean {q : Nat} (s : State) (c : Nat) (h : s.cleanEverywhere (q / 128)) :
    KeptClean q s (s.acquireL1 c) :=
  KeptClean.foldl (fun s k h => removeLines_keptClean s k _ h) _ s h

theorem dropTranslations_keptClean {q : Nat} (s : State) (asid : BitVec 16) (lo hi : Nat) (here : Nat → Bool) (sys : Bool)
    (h : s.cleanEverywhere (q / 128)) : KeptClean q s (s.dropTranslations asid lo hi here sys) := by
  have hlines := KeptClean.foldl (q := q) (f := fun (s : State) (c : Nat × Core) => if here (clusterOf c.1) then
      s.removeLines c.1 (fun l => l.asid = asid && decide (lo ≤ l.vline * 128) && decide (l.vline * 128 < hi)) else s)
    (fun s c h => by
      split
      · exact removeLines_keptClean s c.1 _ h
      · exact KeptClean.same h) s.cores s h
  exact ⟨hlines.byte, hlines.clean⟩

/-- The acquire of a cluster with no dirty byte of a line writes none of that line. -/
theorem acquireL1_kept {core q : Nat} (s : State) (h : s.lineClean core (q / 128)) : Kept core q s (s.acquireL1 core) :=
  Kept.foldl _ _ s h fun t c hc ht => removeLines_kept t c _ hc ht

/-! FENCE (R174). -/

theorem runs_fenceNarrow : ∀ i ∈ [Instr.fenceWarp, .fenceBlock, .fenceGang],
    ∃ info p, p.wide = false ∧ Runs i info (fenceBody p) := by
  simp only [List.forall_mem_cons, List.not_mem_nil, false_implies, implies_true, and_true]
  exact ⟨⟨_, .warp, rfl, runs (fun _ => rfl) rfl rfl rfl⟩, ⟨_, .block, rfl, runs (fun _ => rfl) rfl rfl rfl⟩,
    ⟨_, .gang, rfl, runs (fun _ => rfl) rfl rfl rfl⟩⟩

theorem runs_fenceWide : ∀ i ∈ [Instr.fenceDie, .fenceDevice, .fenceSystem],
    ∃ info p, p.wide = true ∧ Runs i info (fenceBody p) := by
  simp only [List.forall_mem_cons, List.not_mem_nil, false_implies, implies_true, and_true]
  exact ⟨⟨_, .die, rfl, runs (fun _ => rfl) rfl rfl rfl⟩, ⟨_, .device, rfl, runs (fun _ => rfl) rfl rfl rfl⟩,
    ⟨_, .system, rfl, runs (fun _ => rfl) rfl rfl rfl⟩⟩

/-- A fence within the coherent cluster has nothing to write back or drop (R167, R174). -/
theorem fence_goesOn {i : Instr} {info : OpInfo} {p : Scope} (hr : Runs i info (fenceBody p)) (hp : p.wide = false) :
    GoesTo i State.seqPc :=
  goesTo hr (fun _ => none) fun s _ => by simp [fenceBody, hp]

/-- What a release and an acquire leave of memory when the instruction that made them retires. -/
theorem fence_memByte {i : Instr} {s : State} (hready : ready i s = true) {q c : Nat} (hq : s.lineClean c (q / 128)) :
    (s.retired i (((s.atInstr i).releaseL1 c).acquireL1 c)).memByte q = s.memByte q := by
  have hrelease : Kept c q (s.atInstr i) ((s.atInstr i).releaseL1 c) := releaseL1_kept (s.atInstr i) hq
  have hkept := hrelease.trans (acquireL1_kept _ hrelease.clean)
  obtain ⟨-, -, -, -, -, hmem⟩ := Laws.retired_same hready ((Apart.releaseL1 (s.atInstr i) c).trans (Apart.acquireL1 _ c))
  unfold State.memByte
  rw [hmem]
  exact hkept.byte

/-! What a TFENCE drops (R187). -/

/-- The addresses that a TFENCE names: a length of 0 means all of them. -/
def State.tfenceRange (s : State) (a b : BitVec 7) : Nat × Nat :=
  let lo := fieldOf (s.rdS a.toNat) 0 57
  let len := (s.rdS b.toNat).toNat
  (if len = 0 then 0 else lo, if len = 0 then 2 ^ 57 else min (lo + len) (2 ^ 57))

/-- What a TFENCE leaves before it waits: the release, and the translations and lines of its range dropped. -/
def State.tfenceDropped (s : State) (p : Scope) (a b : BitVec 7) : State :=
  let c := s.coreOfWarp s.issue.warp
  (s.releaseL1 c).dropTranslations s.who.asid (s.tfenceRange a b).1 (s.tfenceRange a b).2 (p.clusters c) (p = .system)

/-- The accesses that a TFENCE awaits in a state (R188). -/
def State.tfenceAwaits (s : State) (p : Scope) (t : State) : List HostReq :=
  t.accessesOf s.who.asid (p.clusters (s.coreOfWarp s.issue.warp)) (p = .system)

section
variable (s : State) (p : Scope) (a b : BitVec 7)

theorem tfenceDropped_apart : Apart s (s.tfenceDropped p a b) :=
  (Apart.releaseL1 _ _).trans (Apart.dropTranslations _ _ _ _ _ _)

theorem tfenceDropped_keptClean {q : Nat} (h : s.cleanEverywhere (q / 128)) : KeptClean q s (s.tfenceDropped p a b) :=
  have hrelease := releaseL1_keptClean s _ h
  hrelease.trans (dropTranslations_keptClean _ _ _ _ _ _ hrelease.clean)

theorem tfenceDropped_tlb {k : Nat} {e : TlbEntry} (hk : p.clusters (s.coreOfWarp s.issue.warp) k = true)
    (he : e ∈ ((s.tfenceDropped p a b).cluster k).tlb) (hasid : e.asid = s.who.asid) :
    ¬ (e.base < (s.tfenceRange a b).2 ∧ (s.tfenceRange a b).1 < e.base + 2 ^ e.size) :=
  (Laws.drop_core _ _ _ _ _ _ 0).2 k e hk he hasid

theorem tfenceDropped_fields :
    (s.tfenceDropped p a b).blocks = s.blocks ∧ (s.tfenceDropped p a b).launches = s.launches := by
  obtain ⟨hblocks, -, hlaunches⟩ := Laws.aside_fields (Laws.releaseL1_aside s (s.coreOfWarp s.issue.warp))
  obtain ⟨hb, hl⟩ := Laws.drop_fields (s.releaseL1 (s.coreOfWarp s.issue.warp)) s.who.asid (s.tfenceRange a b).1
    (s.tfenceRange a b).2 (p.clusters (s.coreOfWarp s.issue.warp)) (p = .system)
  exact ⟨hb.trans hblocks, hl.trans hlaunches⟩

end

/-! The accesses under way are the same after the drop (R188, R189). -/

/-- Every core of s stands in t with the same engine operations. -/
def CoresKept (s t : State) : Prop := ∀ c ∈ s.cores, ∃ d ∈ t.cores, d.1 = c.1 ∧ d.2.ops = c.2.ops

theorem CoresKept.of_eq {s t : State} (h : t.cores = s.cores) : CoresKept s t := fun c hc => ⟨c, h ▸ hc, rfl, rfl⟩

theorem CoresKept.trans {s t u : State} (h : CoresKept s t) (k : CoresKept t u) : CoresKept s u := by
  intro c hc
  obtain ⟨d, hd, hd1, hd2⟩ := h c hc
  obtain ⟨e, he, he1, he2⟩ := k d hd
  exact ⟨e, he, he1.trans hd1, he2.trans hd2⟩

theorem CoresKept.foldl {α : Type} {f : State → α → State} (hf : ∀ s a, CoresKept s (f s a)) (l : List α) (s : State) :
    CoresKept s (l.foldl f s) := by
  induction l generalizing s with
  | nil => exact .of_eq rfl
  | cons a r ih => exact (hf s a).trans (ih _)

/-- An entry of a list of pairs is still there after another is set, or gave way to what is set at its key. -/
theorem mem_alSet {α : Type} {l : List (Nat × α)} {k : Nat} (v : α) {e : Nat × α} (he : e ∈ l) :
    e ∈ alSet l k v ∨ (e.1 = k ∧ alGet l k = some e.2 ∧ (k, v) ∈ alSet l k v) := by
  induction l with
  | nil => cases he
  | cons x r ih =>
    obtain ⟨j, u⟩ := x
    unfold alSet alGet
    by_cases hlt : k < j
    · rw [if_pos hlt]
      exact .inl (List.mem_cons_of_mem _ he)
    · rw [if_neg hlt]
      by_cases hj : j = k
      · rw [if_pos hj, if_pos hj]
        obtain rfl | hr := List.mem_cons.mp he
        · exact .inr ⟨hj, rfl, List.mem_cons_self⟩
        · exact .inl (List.mem_cons_of_mem _ hr)
      · rw [if_neg hj, if_neg hj]
        obtain rfl | hr := List.mem_cons.mp he
        · exact .inl List.mem_cons_self
        · obtain h | ⟨h1, h2, h3⟩ := ih hr
          · exact .inl (List.mem_cons_of_mem _ h)
          · exact .inr ⟨h1, h2, List.mem_cons_of_mem _ h3⟩

theorem setCore_coresKept (s : State) (c : Nat) (k : Core) (h : k.ops = (s.core c).ops) : CoresKept s (s.setCore c k) := by
  intro e he
  obtain hmem | ⟨hkey, hget, hmem⟩ := mem_alSet (k := c) k he
  · exact ⟨e, hmem, rfl, rfl⟩
  · refine ⟨(c, k), hmem, hkey.symm, ?_⟩
    rw [h, State.core, hget]
    rfl

theorem writeBack_coresKept (s : State) (x : L1Line) : CoresKept s (s.writeBack x) :=
  CoresKept.foldl (fun s _ => .of_eq (physWriteKey_cores s _ _ _)) _ s

theorem removeLines_coresKept (s : State) (c : Nat) (p : L1Line → Bool) : CoresKept s (s.removeLines c p) := by
  unfold State.removeLines
  dsimp only
  split
  · exact (setCore_coresKept s c { s.core c with l1 := (s.core c).l1.filter (fun l => !p l) } rfl).trans
      (CoresKept.foldl writeBack_coresKept _ _)
  · exact .of_eq rfl

theorem cleanLines_coresKept (s : State) (c : Nat) (p : L1Line → Bool) : CoresKept s (s.cleanLines c p) := by
  have hback := CoresKept.foldl writeBack_coresKept ((s.core c).l1.filter p) s
  unfold State.cleanLines
  dsimp only
  split
  · refine hback.trans (setCore_coresKept _ c _ ?_)
    rw [(Laws.foldBack_core _ c s).1]
    rfl
  · exact hback

/-- Where the warps, blocks, dies and launches are the same and no core has lost an operation, every access under way still is. -/
theorem accessesOf_subset {s t : State} (ha : t.aside = s.aside) (hc : CoresKept s t) (asid : BitVec 16) (here : Nat → Bool)
    (sys : Bool) : s.accessesOf asid here sys ⊆ t.accessesOf asid here sys := by
  obtain ⟨hblocks, hdies, hlaunches⟩ := Laws.aside_fields ha
  have hwarps : t.warps = s.warps := (Apart.aside ha).warps
  have hcore : t.coreOfWarp = s.coreOfWarp := by unfold State.coreOfWarp State.block State.warp; rw [hblocks, hwarps]
  have hctx : t.ctxOfWarp = s.ctxOfWarp := by
    unfold State.ctxOfWarp State.launchOf State.block State.warp; rw [hblocks, hwarps, hlaunches]
  have hdie : t.die = s.die := by unfold State.die; rw [hdies]
  have hwarp : t.warp = s.warp := by unfold State.warp; rw [hwarps]
  unfold State.accessesOf
  rw [hcore, hctx, hdie, hwarp, hdies, hlaunches, hwarps]
  intro r hr
  simp only [List.mem_filter, List.mem_append] at hr ⊢
  refine hr.imp_left (Or.imp_left (Or.imp_left (Or.imp_right fun hops => ?_)))
  obtain ⟨c, hcs, hr⟩ := List.mem_flatMap.mp hops
  obtain ⟨d, hdt, hkey, hd⟩ := hc c hcs
  exact List.mem_flatMap.mpr ⟨d, hdt, by rw [hkey, hd]; exact hr⟩

/-- The translations of the clusters and of the fabric endpoints changed. -/
def State.withTranslations (s : State) (cls : List (Nat × Cluster)) (tlb : Die → List TlbEntry) (ptrs : Die → List PtrEntry) :
    State :=
  { s with clusters := cls, dies := s.dies.map (fun d => { d with fabTlb := tlb d, fabPtrs := ptrs d }) }

section
variable (s : State) (cls : List (Nat × Cluster)) (tlb : Die → List TlbEntry) (ptrs : Die → List PtrEntry)

theorem withTranslations_die (n : Nat) : ((s.withTranslations cls tlb ptrs).die n).ctx = (s.die n).ctx ∧
    ((s.withTranslations cls tlb ptrs).die n).posts = (s.die n).posts := by
  unfold State.die State.withTranslations nth
  rw [List.getElem?_map]
  cases s.dies[n]? <;> exact ⟨rfl, rfl⟩

/-- No access is looked up by what a translation cache holds. -/
theorem withTranslations_accessesOf (asid : BitVec 16) (here : Nat → Bool) (sys : Bool) :
    (s.withTranslations cls tlb ptrs).accessesOf asid here sys = s.accessesOf asid here sys := by
  have hctx := fun n => (withTranslations_die s cls tlb ptrs n).1
  have hposts := fun n => (withTranslations_die s cls tlb ptrs n).2
  have hdies : (s.withTranslations cls tlb ptrs).dies = s.dies.map (fun d => { d with fabTlb := tlb d, fabPtrs := ptrs d }) := rfl
  unfold State.accessesOf
  simp only [hctx, hposts, hdies, List.length_map, List.flatMap_map]
  rfl

end

theorem dropTranslations_accesses (s : State) (asid : BitVec 16) (lo hi : Nat) (here : Nat → Bool) (sys : Bool)
    (asid' : BitVec 16) (here' : Nat → Bool) (sys' : Bool) :
    s.accessesOf asid' here' sys' ⊆ (s.dropTranslations asid lo hi here sys).accessesOf asid' here' sys' := by
  have hsub : s.accessesOf asid' here' sys' ⊆ (s.cores.foldl (fun s c => if here (clusterOf c.1) then
      s.removeLines c.1 (fun l => l.asid = asid && decide (lo ≤ l.vline * 128) && decide (l.vline * 128 < hi)) else s) s).accessesOf
      asid' here' sys' := by
    refine accessesOf_subset (foldl_aside _ _ s fun s c => ?_) (CoresKept.foldl (fun s c => ?_) _ s) asid' here' sys'
    · split
      · exact removeLines_aside _ _ _
      · rfl
    · split
      · exact removeLines_coresKept _ _ _
      · exact .of_eq rfl
  unfold State.dropTranslations
  cases sys with
  | true => exact fun _ hr => (congrArg (_ ∈ ·) (withTranslations_accessesOf _ _ _ _ asid' here' sys')).mpr (hsub hr)
  | false => exact hsub

/-- What is under way when a TFENCE drops its translations still is. -/
theorem tfenceDropped_accesses (s : State) (p : Scope) (a b : BitVec 7) :
    s.tfenceAwaits p s ⊆ s.tfenceAwaits p (s.tfenceDropped p a b) :=
  List.Subset.trans
    (accessesOf_subset (Laws.releaseL1_aside s _) (CoresKept.foldl (fun s k => cleanLines_coresKept s k _) _ s) _ _ _)
    (dropTranslations_accesses _ _ _ _ _ _ _ _ _)

/-! TFENCE (R187, R188). -/

theorem runs_tfence (a b : BitVec 7) : ∀ x ∈ [(Instr.tfenceDie a b, Scope.die), (.tfenceDevice a b, .device),
    (.tfenceSystem a b, .system)], ∃ info, Runs x.1 info (tfenceBody x.2 a b) := by
  simp only [List.forall_mem_cons, List.not_mem_nil, false_implies, implies_true, and_true]
  exact ⟨⟨_, runs (fun _ => rfl) rfl rfl rfl⟩, ⟨_, runs (fun _ => rfl) rfl rfl rfl⟩, ⟨_, runs (fun _ => rfl) rfl rfl rfl⟩⟩

/-- A TFENCE that has not begun drops, and then waits if any access that it found under way still is. -/
theorem tfenceBody_begins {s : State} {p : Scope} {a b : BitVec 7} (halign : fieldOf (s.rdS a.toNat) 0 12 = 0)
    (hlen : (s.rdS b.toNat).toNat % 4096 = 0) (hcanon : fieldOf (s.rdS a.toNat) 57 3 = 0) (hwait : s.cs.wait = none) :
    tfenceBody p a b s = if (s.tfenceAwaits p (s.tfenceDropped p a b)).any (s.tfenceAwaits p s).contains
      then .error (.poll .tfence [] { s.tfenceDropped p a b with
        issue := { (s.tfenceDropped p a b).issue with sent := s.tfenceAwaits p s } })
      else .ok ((s.tfenceDropped p a b).acquireL1 (s.coreOfWarp s.issue.warp)) := by
  have hrange : (if (s.rdS b.toNat).toNat = 0 then (0, 2 ^ 57) else
      (fieldOf (s.rdS a.toNat) 0 57, min (fieldOf (s.rdS a.toNat) 0 57 + (s.rdS b.toNat).toNat) (2 ^ 57))) =
    s.tfenceRange a b := by
    unfold State.tfenceRange
    dsimp only
    split <;> rfl
  have hbegun : s.cs.wait.any (fun v => decide (v.kind = .tfence)) = false := by rw [hwait]; rfl
  unfold tfenceBody State.tfenceDropped
  dsimp only
  rw [if_neg (by simp [halign, hlen]), if_neg (by simp [hcanon]), hrange]
  generalize s.tfenceRange a b = r
  obtain ⟨lo, hi⟩ := r
  simp only [hbegun, Bool.false_eq_true, if_false]
  rfl

/-- With nothing under way it ends where it begins. -/
theorem tfenceBody_ends {s : State} {p : Scope} {a b : BitVec 7} (halign : fieldOf (s.rdS a.toNat) 0 12 = 0)
    (hlen : (s.rdS b.toNat).toNat % 4096 = 0) (hcanon : fieldOf (s.rdS a.toNat) 57 3 = 0) (hwait : s.cs.wait = none)
    (hnone : s.tfenceAwaits p s = []) :
    tfenceBody p a b s = .ok ((s.tfenceDropped p a b).acquireL1 (s.coreOfWarp s.issue.warp)) := by
  rw [tfenceBody_begins halign hlen hcanon hwait, hnone, if_neg (by simp)]

/-- Else it waits for what was under way. -/
theorem tfenceBody_waits {s : State} {p : Scope} {a b : BitVec 7} (halign : fieldOf (s.rdS a.toNat) 0 12 = 0)
    (hlen : (s.rdS b.toNat).toNat % 4096 = 0) (hcanon : fieldOf (s.rdS a.toNat) 57 3 = 0) (hwait : s.cs.wait = none)
    (hsome : s.tfenceAwaits p s ≠ []) :
    tfenceBody p a b s = .error (.poll .tfence [] { s.tfenceDropped p a b with
      issue := { (s.tfenceDropped p a b).issue with sent := s.tfenceAwaits p s } }) := by
  obtain ⟨r, hr⟩ := List.exists_mem_of_ne_nil _ hsome
  rw [tfenceBody_begins halign hlen hcanon hwait, if_pos]
  exact List.any_eq_true.mpr ⟨r, tfenceDropped_accesses s p a b hr, List.contains_iff_mem.mpr hr⟩

/-! A strand that waits (R22). -/

/-- A wait is put in the issuing strand's place: its reason and the messages it awaits are noted, and only the count of waits
changes beside. -/
theorem setWait_shape (s : State) (k : WaitKind) (n : Nat) (r : List HostReq) :
    ∃ W m v, s.setWait k n r = { s.putS W with seq := m } ∧ W.held = s.cs.held ∧ W.st = .stalled ∧ W.pc = s.cs.pc ∧
      W.wait = some v ∧ v.kind = k ∧ v.reqs = r :=
  ⟨_, _, _, rfl, rfl, rfl, rfl, rfl, rfl, rfl⟩

/-- What a word leaves that waits with nothing new to ask, in a state that its meaning has made apart from the registers. -/
theorem polls_waiting {i : Instr} {info : OpInfo} {body : Body} {s u : State} {k : WaitKind} {sent : List HostReq}
    (hr : Runs i info body) (hready : ready i s = true) (ha : Apart (s.atInstr i) u)
    (hb : body (s.atInstr i) = .error (.poll k [] { u with issue := { u.issue with sent := sent } })) :
    ∃ t v, exec i s = .next t ∧ t.mem = u.mem ∧ t.clusters = u.clusters ∧ t.blocks = u.blocks ∧ t.launches = u.launches ∧
      t.cs.st = .stalled ∧ t.cs.pc = s.cs.pc ∧ t.cs.wait = some v ∧ v.kind = k ∧ v.reqs = sent ∧
      (∀ n, t.regS n = s.regS n) ∧ ∀ n, t.regV n = s.regV n := by
  obtain ⟨r, hkeep⟩ := Laws.keep_parts { u with issue := { u.issue with sent := sent } } true info (encode i)
  let z : State := { u with issue := { u.issue with sent := sent, replay := r } }
  have hexec : exec i s = .next (z.setWait k 0 sent) := by
    rw [hr.stop hready hb]
    show Host.Outcome.next (State.await (State.keep _ true info (encode i)) k []) = _
    rw [hkeep]
    rfl
  have hok : z.issueOk = true := by
    show (u.issue.live && u.cw.phase = .running && u.cw.stopped.isNone && (u.cw.runner u.issue.entry).isSome) = true
    rw [ha.issue, ha.cw]
    exact ready_issueOk hready
  have hpc : z.cs.pc = s.cs.pc := congrArg Strand.pc ha.cs
  obtain ⟨W, m, v, heq, hheld, hst, hWpc, hwait, hkind, hreqs⟩ := setWait_shape z k 0 sent
  obtain ⟨-, hcs⟩ := putS_kept hok hheld
  have hreads : SameReads z (z.putS W) := (putS_moved z W hok hheld).reads (z.issue_warp_in_list hok)
  rw [heq] at hexec
  refine ⟨_, v, hexec, rfl, rfl, rfl, rfl, ?_, ?_, ?_, hkind, hreqs, fun n => (hreads.regS n).trans (ha.reads.regS n),
    fun n => (hreads.regV n).trans (ha.reads.regV n)⟩
  · exact (congrArg Strand.st hcs).trans hst
  · exact (congrArg Strand.pc hcs).trans (hWpc.trans hpc)
  · exact (congrArg Strand.wait hcs).trans hwait

/-! The obligation's clauses. -/

/-- The range's translations of the address space are gone from the scope's clusters, and memory is as it was but for what was
written back. -/
def TfenceDropped (p : Scope) (a b : BitVec 7) (s t : State) : Prop :=
  (∀ k e, p.clusters (s.coreOfWarp s.issue.warp) k = true → e ∈ (t.cluster k).tlb → e.asid = s.who.asid →
    ¬ (e.base < (s.tfenceRange a b).2 ∧ (s.tfenceRange a b).1 < e.base + 2 ^ e.size)) ∧
  (∀ q, s.cleanEverywhere (q / 128) → t.memByte q = s.memByte q) ∧ t.blocks = s.blocks ∧ t.launches = s.launches

/-- Of a state that has the parts which the drop left, memory up to later write-backs. -/
theorem TfenceDropped.of_parts {p : Scope} {a b : BitVec 7} {s t : State}
    (hclusters : t.clusters = (s.tfenceDropped p a b).clusters)
    (hmem : ∀ q, (s.tfenceDropped p a b).cleanEverywhere (q / 128) → t.memByte q = (s.tfenceDropped p a b).memByte q)
    (hblocks : t.blocks = (s.tfenceDropped p a b).blocks) (hlaunches : t.launches = (s.tfenceDropped p a b).launches) :
    TfenceDropped p a b s t := by
  obtain ⟨hb, hl⟩ := tfenceDropped_fields s p a b
  refine ⟨fun k e hk he hasid => tfenceDropped_tlb s p a b hk ?_ hasid, fun q hq => ?_, hblocks.trans hb, hlaunches.trans hl⟩
  · unfold State.cluster at he ⊢
    rwa [← hclusters]
  · have hkept := tfenceDropped_keptClean s p a b hq
    exact (hmem q hkept.clean).trans hkept.byte

section
variable {i : Instr} {info : OpInfo} {p : Scope} {a b : BitVec 7} {s : State} (hr : Runs i info (tfenceBody p a b))
  (hready : ready i s = true) (halign : fieldOf (s.rdS a.toNat) 0 12 = 0) (hlen : (s.rdS b.toNat).toNat % 4096 = 0)
  (hcanon : fieldOf (s.rdS a.toNat) 57 3 = 0) (hwait : s.cs.wait = none)
include hr hready halign hlen hcanon hwait

theorem tfence_completes (hnone : (s.atInstr i).tfenceAwaits p (s.atInstr i) = []) :
    ∃ t, exec i s = .next t ∧ TfenceDropped p a b (s.atInstr i) t ∧
      (∀ k ∈ coresOf (clusterOf (s.coreOfWarp s.issue.warp)), (t.core k).l1 = []) ∧ RegistersKept s t := by
  have ha : Apart (s.atInstr i) _ := (tfenceDropped_apart (s.atInstr i) p a b).trans (Apart.acquireL1 _ (s.coreOfWarp s.issue.warp))
  have hexec : exec i s = .next (s.retired i (((s.atInstr i).tfenceDropped p a b).acquireL1 (s.coreOfWarp s.issue.warp))) :=
    hr.ok hready (tfenceBody_ends halign hlen hcanon hwait hnone)
  obtain ⟨hcores, hclusters, hblocks, -, hlaunches, hmem⟩ := Laws.retired_same hready ha
  obtain ⟨hempty, hkeptClusters⟩ := Laws.acquire_empty ((s.atInstr i).tfenceDropped p a b) (s.coreOfWarp s.issue.warp)
  obtain ⟨hb, -, hl⟩ := Laws.aside_fields (Laws.acquireL1_aside ((s.atInstr i).tfenceDropped p a b) (s.coreOfWarp s.issue.warp))
  refine ⟨_, hexec, .of_parts (hclusters.trans hkeptClusters) (fun q hq => ?_) (hblocks.trans hb) (hlaunches.trans hl),
    fun k hk => ?_, (registersKept_of hready ha).2⟩
  · unfold State.memByte
    rw [hmem]
    exact (acquireL1_keptClean _ _ hq).byte
  · have hline := hempty k hk
    unfold State.core at hline ⊢
    rw [hcores]
    exact hline

theorem tfence_waits (hsome : (s.atInstr i).tfenceAwaits p (s.atInstr i) ≠ []) :
    ∃ t v, exec i s = .next t ∧ TfenceDropped p a b (s.atInstr i) t ∧ t.cs.st = .stalled ∧ t.cs.pc = s.cs.pc ∧
      t.cs.wait = some v ∧ v.kind = .tfence ∧ v.reqs = (s.atInstr i).tfenceAwaits p (s.atInstr i) ∧
      (∀ n, t.regS n = s.regS n) ∧ ∀ n, t.regV n = s.regV n := by
  have hb := tfenceBody_waits (s := s.atInstr i) (p := p) (a := a) (b := b) halign hlen hcanon hwait hsome
  obtain ⟨t, v, hexec, hmem, hclusters, hblocks, hlaunches, hstrand⟩ := polls_waiting hr hready (tfenceDropped_apart _ p a b) hb
  exact ⟨t, v, hexec, .of_parts hclusters (fun q _ => by unfold State.memByte; rw [hmem]) hblocks hlaunches, hstrand⟩

end

/-- The clauses of a TFENCE, for each of its scopes. -/
theorem tfence_clauses {i : Instr} {info : OpInfo} {p : Scope} {a b : BitVec 7} (hr : Runs i info (tfenceBody p a b)) (s : State)
    (hready : ready i s = true) :
    let start := s.rdS a.toNat
    let len := (s.rdS b.toNat).toNat
    let awaited := (s.atInstr i).tfenceAwaits p (s.atInstr i)
    (fieldOf start 0 12 ≠ 0 ∨ len % 4096 ≠ 0 →
      exec i s = .next ((s.atInstr i).raise (TrapInfo.atAddr eAlign start.toNat))) ∧
    (fieldOf start 0 12 = 0 → len % 4096 = 0 → fieldOf start 57 3 ≠ 0 →
      exec i s = .next ((s.atInstr i).raise (TrapInfo.atAddr eNoncanon start.toNat))) ∧
    (fieldOf start 0 12 = 0 → len % 4096 = 0 → fieldOf start 57 3 = 0 → s.cs.wait = none →
      (awaited = [] → ∃ t, exec i s = .next t ∧ TfenceDropped p a b (s.atInstr i) t ∧
        (∀ k ∈ coresOf (clusterOf (s.coreOfWarp s.issue.warp)), (t.core k).l1 = []) ∧ RegistersKept s t) ∧
      (awaited ≠ [] → ∃ t v, exec i s = .next t ∧ TfenceDropped p a b (s.atInstr i) t ∧ t.cs.st = .stalled ∧
        t.cs.pc = s.cs.pc ∧ t.cs.wait = some v ∧ v.kind = .tfence ∧ v.reqs = awaited ∧ (∀ n, t.regS n = s.regS n) ∧
        ∀ n, t.regV n = s.regV n)) := by
  obtain ⟨halign, hcanon, -⟩ := Laws.tfence_drops hr s hready
  exact ⟨halign, hcanon, fun h1 h2 h3 hwait =>
    ⟨tfence_completes hr hready h1 h2 h3 hwait, tfence_waits hr hready h1 h2 h3 hwait⟩⟩

/-- Settles O43: what a fence leaves of memory follows from the write-backs it makes; a TFENCE that begins drops, and then
completes or waits as the accesses under way, which the drop does not touch, are none or some. -/
theorem fencesReleaseAcquireAndDropTranslations : Obligations.FencesReleaseAcquireAndDropTranslations := by
  unfold Obligations.FencesReleaseAcquireAndDropTranslations
  refine ⟨⟨fun i hi => ?_, fun i hi s hready => ?_⟩, fun a b => ?_⟩
  · obtain ⟨info, p, hp, hr⟩ := runs_fenceNarrow i hi
    exact fence_goesOn hr hp
  · obtain ⟨info, p, hp, hr⟩ := runs_fenceWide i hi
    obtain ⟨t, hexec, rfl, hempty, hrest⟩ := Laws.fence_releases hr hp s hready
    exact ⟨_, hexec, rfl, hempty, fun q hq => fence_memByte hready hq, hrest⟩
  · have hruns := runs_tfence a b
    simp only [List.forall_mem_cons] at hruns
    obtain ⟨⟨_, hdie⟩, ⟨_, hdevice⟩, ⟨_, hsystem⟩, -⟩ := hruns
    exact ⟨tfence_clauses hdie, tfence_clauses hdevice, tfence_clauses hsystem⟩

end Sys2Proof.Machine
end

section
/-! PREF and QFENCE (R183, R379, R380). -/

namespace Sys2Proof.Machine
open Sys2Proof

/-! What a fill never touches. -/

/-- The translations that the clusters hold, and the tags of memory. -/
def State.marks (s : State) : List (Nat × Cluster) × List (Nat × BitVec 4) := (s.clusters, s.tags)

theorem foldl_marks {α : Type} {f : State → α → State} (hf : ∀ s a, (f s a).marks = s.marks) (l : List α) (s : State) :
    (l.foldl f s).marks = s.marks := by
  induction l generalizing s with
  | nil => rfl
  | cons a r ih => exact (ih _).trans (hf s a)

theorem physWriteKey_marks (s : State) (k pa : Nat) (bs : List Byte) : (s.physWriteKey k pa bs).marks = s.marks := by
  unfold State.physWriteKey State.physWrite
  split
  · dsimp only
    split
    · split <;> rfl
    · rfl
  · rfl

theorem writeBack_marks (s : State) (x : L1Line) : (s.writeBack x).marks = s.marks :=
  foldl_marks (fun s _ => physWriteKey_marks s _ _ _) _ s

theorem removeLines_marks (s : State) (c : Nat) (p : L1Line → Bool) : (s.removeLines c p).marks = s.marks := by
  unfold State.removeLines
  dsimp only
  split
  · exact foldl_marks writeBack_marks _ _
  · rfl

theorem pullLine_marks (s : State) (cl pl : Nat) : (s.pullLine cl pl).marks = s.marks :=
  foldl_marks (fun s c => removeLines_marks s c _) _ s

theorem fill_marks (s : State) (w : Who) (vline : Nat) (t : Trans) : (s.fill w vline t).marks = s.marks := by
  have hset : ∀ (u : State) (c : Nat) (k : Core), (u.setCore c k).marks = u.marks := fun _ _ _ => rfl
  have hpull := pullLine_marks s (clusterOf w.core) (t.pa / 128)
  unfold State.fill
  dsimp only
  rw [hset, ← hpull]
  generalize s.pullLine (clusterOf w.core) (t.pa / 128) = u
  split
  · rfl
  · split
    · exact removeLines_marks _ _ _
    · rfl

/-! PREF (R379, R380). -/

/-- A prefetch is dropped, or fills a line through the requester's core. -/
theorem prefetch_cases (s : State) (p : Nat) : s.prefetch p = s ∨ ∃ vline t, s.prefetch p = s.fill s.who vline t := by
  unfold State.prefetch
  split
  · exact .inl rfl
  · split
    · exact .inl rfl
    · split
      · exact .inl rfl
      · exact .inr ⟨_, _, rfl⟩

theorem prefetch_aside (s : State) (p : Nat) : (s.prefetch p).aside = s.aside := by
  obtain h | ⟨vline, t, h⟩ := prefetch_cases s p <;> rw [h]
  exact fill_aside _ _ _ _

theorem prefetch_marks (s : State) (p : Nat) : (s.prefetch p).marks = s.marks := by
  obtain h | ⟨vline, t, h⟩ := prefetch_cases s p <;> rw [h]
  exact fill_marks _ _ _ _

theorem prefetch_kept {q : Nat} (s : State) (p : Nat) (hq : s.lineClean s.who.core (q / 128)) :
    Kept s.who.core q s (s.prefetch p) := by
  obtain h | ⟨vline, t, h⟩ := prefetch_cases s p <;> rw [h]
  · exact Kept.same hq
  · exact fill_kept _ _ _ _ hq

section
variable (at_ : State → Nat → Nat) (ls : List Nat)

theorem prefetches_aside (s : State) : (ls.foldl (fun s l => s.prefetch (at_ s l)) s).aside = s.aside :=
  foldl_aside _ _ s fun s _ => prefetch_aside s _

theorem prefetches_marks (s : State) : (ls.foldl (fun s l => s.prefetch (at_ s l)) s).marks = s.marks :=
  foldl_marks (fun s _ => prefetch_marks s _) _ s

/-- Each lane prefetches for the same requester, since no fill changes who that is. -/
theorem prefetches_kept {q : Nat} (s : State) (hq : s.lineClean s.who.core (q / 128)) :
    Kept s.who.core q s (ls.foldl (fun s l => s.prefetch (at_ s l)) s) := by
  induction ls generalizing s with
  | nil => exact Kept.same hq
  | cons l r ih =>
    have hfirst := prefetch_kept s (at_ s l) hq
    have hwho : (s.prefetch (at_ s l)).who = s.who := who_aside (prefetch_aside s _)
    have hrest := ih (s.prefetch (at_ s l)) (by rw [hwho]; exact hfirst.clean)
    rw [hwho] at hrest
    exact hfirst.trans hrest

end

/-- The address that a PREF names for a lane (R379). -/
def prefAddr (d a imm : BitVec 7) (s : State) (l : Nat) : Nat :=
  add64 (s.rdS a.toNat) (((s.lane d.toNat l).toNat : Int) + s.imm 7 imm.toNat)

theorem runs_pref (d a imm : BitVec 7) : ∃ info, Runs (.pref d a imm) info (prefBody d a imm) :=
  ⟨_, runs (fun _ => rfl) rfl rfl rfl⟩

theorem pref_clauses (d a imm : BitVec 7) (s : State) (hready : ready (.pref d a imm) s = true) :
    ∃ t, exec (.pref d a imm) s = .next t ∧ t.cs.pc = s.seqPc ∧ RegistersKept s t ∧
      t.blocks = s.blocks ∧ t.dies = s.dies ∧ t.launches = s.launches ∧ t.clusters = s.clusters ∧ t.tags = s.tags ∧
      ∀ q, s.lineClean s.who.core (q / 128) → t.memByte q = s.memByte q := by
  obtain ⟨_, hr⟩ := runs_pref d a imm
  have haside := prefetches_aside (prefAddr d a imm) (lanesOf s.activeReal) (s.atInstr (.pref d a imm))
  obtain ⟨hclusters, htags⟩ :=
    Prod.ext_iff.mp (prefetches_marks (prefAddr d a imm) (lanesOf s.activeReal) (s.atInstr (.pref d a imm)))
  obtain ⟨hblocks, hdies, hlaunches⟩ := Laws.aside_fields haside
  obtain ⟨hstays, hregs⟩ := registersKept_of hready (Apart.aside haside)
  have hsame := hstays.elsewhere
  refine ⟨_, hr.ok hready rfl, Laws.apart_pc hready (Apart.aside haside), hregs, hsame.blocks.trans hblocks,
    hsame.dies.trans hdies, hsame.launches.trans hlaunches, hsame.clusters.trans hclusters, hsame.tags.trans htags,
    fun q hq => ?_⟩
  refine Eq.trans ?_ (prefetches_kept (prefAddr d a imm) (lanesOf s.activeReal) (s.atInstr (.pref d a imm)) hq).byte
  exact congrArg (spGet Config.memInit · q) hsame.mem

/-! QFENCE (R183). -/

/-- The imm14 of a QFENCE that names no queue, or has a reserved bit set, is reserved. -/
theorem imm14Ok_qfence {v : BitVec 14} (h : fieldOf v 6 8 ≠ 0 ∨ fieldOf v 0 6 = 0) : imm14Ok 0x1A9 v = false := by
  have hv := v.isLt
  have hnot : ¬ (v.toNat < 64 ∧ v.toNat ≠ 0) := by
    unfold fieldOf field at h
    omega
  unfold imm14Ok
  rw [if_neg (by decide), if_pos rfl, ← Bool.decide_and, decide_eq_false hnot]

/-- So its word is no instruction (R95, R183). -/
theorem qfence_illop {w : Word} {s : State} (hop : opOf w = 0x1A9)
    (h : fieldOf (bits w 0 14) 6 8 ≠ 0 ∨ fieldOf (bits w 0 14) 0 6 = 0) (hok : s.issueOk = true) (hmiss : s.inMiss = false)
    (hfirst : s.inHandler = true ∨ (s.atChain ∧ s.cs.fault = none)) : runWord w s = .next (s.illopAt w) := by
  have hinfo : ∃ info, info.fmt = .J ∧ opInfo 0x1A9 = some info := ⟨_, rfl, rfl⟩
  obtain ⟨info, hfmt, hinfo⟩ := hinfo
  have himm : (bits w 0 21).extractLsb' 0 14 = bits w 0 14 := by
    apply BitVec.eq_of_toNat_eq
    simp only [bits, BitVec.extractLsb'_toNat, Nat.shiftRight_zero]
    omega
  have hbad : fieldsOk (opOf w) info (bits w 0 21) = false := by
    unfold fieldsOk
    rw [hfmt]
    dsimp only
    rw [hop, himm, imm14Ok_qfence h, Bool.and_false]
  rw [runWord_error (decodeWord_badField (hop ▸ hinfo) hbad)]
  exact execUnusedOpcode_illopAt hok hmiss hfirst

section
variable {q : BitVec 14} {s : State} (hwait : s.cs.wait = none) (hres : fieldOf q 6 8 = 0) (hnames : fieldOf q 0 6 ≠ 0)
include hwait hres hnames

/-- A QFENCE that has not begun waits for what is outstanding now. -/
theorem qfenceBody_begins : qfenceBody q s =
    if s.outstanding s.issue.warp (fieldOf q 0 6) s.seq then .error (.wait .qfence 0 s) else .ok s := by
  unfold qfenceBody
  simp [hwait, hres, hnames, waitE]

end

/-- The clauses of a QFENCE that decodes. -/
theorem qfence_clauses {q : BitVec 14} {s : State} (hready : ready (.qfence q) s = true) (hwait : s.cs.wait = none)
    (hres : fieldOf q 6 8 = 0) (hnames : fieldOf q 0 6 ≠ 0) :
    let busy := (s.atInstr (.qfence q)).outstanding s.issue.warp (fieldOf q 0 6) s.seq
    (busy = false → ∃ t, exec (.qfence q) s = .next t ∧ t.cs.pc = s.seqPc ∧ ScalarFrame s t (fun _ => False)) ∧
    (s.atChain → busy = true → ∃ t, exec (.qfence q) s = .next t ∧ t.cs.st = .stalled ∧ t.cs.pc = s.cs.pc ∧
      RegistersKept s t ∧ t.mem = s.mem ∧ t.cores = s.cores) := by
  obtain ⟨info, hr⟩ := runs_qfence q
  have hbegins := qfenceBody_begins (s := s.atInstr (.qfence q)) hwait hres hnames
  refine ⟨fun hfree => ?_, fun hchain hbusy => ?_⟩
  · exact Laws.goes_of_body hr none s hready (hbegins.trans (if_neg (Bool.eq_false_iff.mp hfree)))
  · obtain ⟨hkept, hst, hpc, hrest⟩ := Laws.waits_kept info .qfence 0 hready
    exact ⟨_, Laws.stops_wait hr hready hchain (hbegins.trans (if_pos hbusy)), hst, hpc, hkept, hrest⟩

/-- Settles O44: a prefetch only fills lines, whose victims are all that is written back; a QFENCE turns on what is outstanding
in the queues it names, and one that names none is refused by the decoder. -/
theorem prefetchesAndQueueFences : Obligations.PrefetchesAndQueueFences := by
  unfold Obligations.PrefetchesAndQueueFences
  exact fun d a imm q => ⟨pref_clauses d a imm, fun w s hop hbad hok hmiss hfirst => qfence_illop hop hbad hok hmiss hfirst,
    fun s hready hwait hres hnames => qfence_clauses hready hwait hres hnames⟩

end Sys2Proof.Machine
end

section
/-! Instructions that hand work to an engine queue (R201, R206 to R208, R210, R214, R349, R352, R386). -/

namespace Sys2Proof.Machine
open Sys2Proof

/-! COPY (R351, R352). -/

theorem runs_copy (a : BitVec 7) : ∀ x ∈ [(Instr.copyG2s a, 0), (.copyS2g a, 1), (.copyG2g a, 2), (.copyIngot a, 3),
    (.copyHalo a, 4)], ∃ info, Runs x.1 info (copyBody x.2 a) := by
  simp only [List.forall_mem_cons, List.not_mem_nil, false_implies, implies_true, and_true]
  and_intros <;> exact ⟨_, runs (fun _ => rfl) rfl rfl rfl⟩

theorem copyBody_enters {variant : Nat} {a : BitVec 7} {s : State}
    (hcheck : s.copyCheck variant (s.rdS a.toNat) (s.rdS (a.toNat + 1)) (s.rdS (a.toNat + 2)) (s.rdS (a.toNat + 3)) = none) :
    copyBody variant a s = s.enqueue (cQ (s.rdS (a.toNat + 2))) (s.newOp (.copy variant (s.rdS a.toNat) (s.rdS (a.toNat + 1))
      (cOpt (s.rdS (a.toNat + 2)))) (cLen (s.rdS (a.toNat + 2))) (cHeld (s.rdS (a.toNat + 2))) (s.rdS (a.toNat + 3))) := by
  unfold copyBody
  simp only [hcheck]

/-! COPYM (R214, R355). -/

theorem runs_copym (a b : BitVec 7) : ∃ info, Runs (.copym a b) info (copymBody a b) := ⟨_, runs (fun _ => rfl) rfl rfl rfl⟩

/-- The matrix command block that a COPYM names, which lies in its block's scratch (R214). -/
def copymBlock (b : BitVec 7) (s : State) : DWord × MatOp :=
  commandBlock (s.scratchRead s.cw.blk (s.rdS b.toNat).toNat 80)

theorem copymBody_enters {a b : BitVec 7} {s : State} (hopt : cOpt (s.rdS (a.toNat + 2)) = 0)
    (hheld : cHeld (s.rdS (a.toNat + 2)) = false)
    (hcopy : s.copyCheck 0 (s.rdS a.toNat) (s.rdS (a.toNat + 1)) (s.rdS (a.toNat + 2)) (s.rdS (a.toNat + 3)) = none)
    (halign : (s.rdS b.toNat).toNat % 16 = 0) (hrange : (s.rdS b.toNat).toNat + 80 ≤ recScratch (s.recOf s.cw.blk))
    (hlow : 0x203 ≤ (copymBlock b s).1.toNat) (hhigh : (copymBlock b s).1.toNat ≤ 0x208)
    (hmma : s.mmaCheck (copymBlock b s).2 = none) (hrows : s.rowsBusy (copymBlock b s).2.rows = false) :
    copymBody a b s = s.enqueue (cQ (s.rdS (a.toNat + 2)))
      (s.newOp (.copym (s.rdS a.toNat) (s.rdS (a.toNat + 1)) (copymBlock b s).2) (cLen (s.rdS (a.toNat + 2))) false 0) := by
  unfold copymBlock at *
  unfold copymBody
  dsimp only
  rw [if_neg (by simp [hopt, hheld])]
  simp only [hcopy]
  rw [if_neg (not_not.mpr halign), if_neg (Nat.not_lt.mpr hrange)]
  generalize commandBlock (s.scratchRead s.cw.blk (s.rdS b.toNat).toNat 80) = blk at *
  obtain ⟨op, m⟩ := blk
  simp only at hlow hhigh hmma hrows ⊢
  rw [if_neg (by simpa using ⟨hlow, hhigh⟩), hmma]
  exact if_neg (Bool.eq_false_iff.mp hrows)

/-! COLL (R349). -/

theorem runs_coll (a : BitVec 7) : ∀ x ∈ [(Instr.collRed a, false), (.collGather a, true)],
    ∃ info, Runs x.1 info (collBody x.2 a) := by
  simp only [List.forall_mem_cons, List.not_mem_nil, false_implies, implies_true, and_true]
  and_intros <;> exact ⟨_, runs (fun _ => rfl) rfl rfl rfl⟩

theorem collBody_enters {g : Bool} {a : BitVec 7} {s : State}
    (hres : fieldOf (s.rdS a.toNat) 34 30 = 0) (hsome : 1 ≤ fieldOf (s.rdS (a.toNat + 1)) 0 32)
    (hmost : fieldOf (s.rdS (a.toNat + 1)) 0 32 ≤ 2 ^ 24) (hcount : fieldOf (s.rdS (a.toNat + 1)) 32 32 ≠ 0)
    (htile : fieldOf (s.rdS a.toNat) 0 32 % 128 = 0) (habar : fieldOf (s.rdS (a.toNat + 2)) 0 4 = 0)
    (hgroup : fieldOf (s.rdS (a.toNat + 3)) 0 6 = 0)
    (hrange : fieldOf (s.rdS a.toNat) 0 32 + 4 * fieldOf (s.rdS (a.toNat + 1)) 0 32 ≤ recScratch (s.recOf s.cw.blk)) :
    collBody g a s = s.enqueue (fieldOf (s.rdS a.toNat) 32 2) (s.newOp (.coll g (fieldOf (s.rdS a.toNat) 0 32)
      (fieldOf (s.rdS (a.toNat + 1)) 0 32) (fieldOf (s.rdS (a.toNat + 1)) 32 32) (s.rdS (a.toNat + 2)) (s.rdS (a.toNat + 3)))
      (4 * fieldOf (s.rdS (a.toNat + 1)) 0 32) false 0) := by
  have hshape : ¬ (fieldOf (s.rdS a.toNat) 34 30 ≠ 0 ∨ fieldOf (s.rdS (a.toNat + 1)) 0 32 = 0 ∨
      2 ^ 24 < fieldOf (s.rdS (a.toNat + 1)) 0 32 ∨ fieldOf (s.rdS (a.toNat + 1)) 32 32 = 0) := by
    omega
  unfold collBody
  dsimp only
  rw [if_neg (by simpa [or_assoc] using hshape), if_neg (not_not.mpr htile), if_neg (not_not.mpr habar),
    if_neg (not_not.mpr hgroup), if_neg (Nat.not_lt.mpr hrange)]

/-! RST and RRED (R384, R386). -/

/-- The meaning of an RST, and of an RRED, which deterministic mode refuses first (R309, R386). -/
def remoteEntry (red : Bool) (d a b : BitVec 7) : Body :=
  fun s => if red && s.cw.det then trapE s (.detatom, 0) else remoteBody red d a b s

theorem runs_remote (d a b : BitVec 7) : ∀ x ∈ [(Instr.rst d a b, false), (.rred d a b, true)],
    ∃ info, Runs x.1 info (remoteEntry x.2 d a b) := by
  simp only [List.forall_mem_cons, List.not_mem_nil, false_implies, implies_true, and_true]
  and_intros <;> exact ⟨_, runs (fun _ => rfl) rfl rfl rfl⟩

theorem remoteEntry_enters {red : Bool} {d a b : BitVec 7} {s : State} {p : PeerEntry} {ls : List (Nat × Nat)}
    (hcheck : s.remoteCheck red 4 d a b = .ok (p, ls)) (hdet : red = true → s.cw.det = false) :
    let f := s.rdS (b.toNat + 1)
    let op := fieldOf f 24 3
    remoteEntry red d a b s = s.enqueue (fieldOf f 27 2) (s.newOp (.rem red op (BitVec.ofNat 16 (fieldOf f 0 16))
      (BitVec.ofNat 2 (fieldOf f 16 2)) (BitVec.ofNat 6 (fieldOf f 18 6)) (f.getLsbD 29) (fieldOf f 27 2)
      (ls.map (fun l => ⟨l.1, BitVec.ofNat 64 l.2,
        if op = 6 then s.lane64 d.toNat l.1 else (s.lane d.toNat l.1).setWidth 64, none, false⟩))) 0 false 0) := by
  unfold remoteEntry remoteBody
  rw [if_neg (by simpa using hdet)]
  simp only [hcheck]

/-- Settles O45: each of these meanings, its checks passed, is the entry into the queue that its operands name. -/
theorem copiesEnterTheirQueue : Obligations.CopiesEnterTheirQueue := by
  unfold Obligations.CopiesEnterTheirQueue
  intro d a b
  refine ⟨fun x hx => ?_, ?_, fun x hx => ?_, fun x hx p ls => ?_⟩
  · obtain ⟨_, hr⟩ := runs_copy a x hx
    exact Laws.enqueues hr fun s _ hcheck => .inl (copyBody_enters hcheck)
  · obtain ⟨_, hr⟩ := runs_copym a b
    refine Laws.enqueues hr fun s _ hpre => .inl ?_
    obtain ⟨hopt, hheld, hcopy, halign, hrange, hlow, hhigh, hmma, hrows⟩ := hpre
    exact copymBody_enters hopt hheld hcopy halign hrange hlow hhigh hmma hrows
  · obtain ⟨_, hr⟩ := runs_coll a x hx
    refine Laws.enqueues hr fun s _ hpre => .inl ?_
    obtain ⟨hres, hsome, hmost, hcount, htile, habar, hgroup, hrange⟩ := hpre
    exact collBody_enters hres hsome hmost hcount htile habar hgroup hrange
  · obtain ⟨_, hr⟩ := runs_remote d a b x hx
    exact Laws.enqueues hr fun s _ hpre => .inl (remoteEntry_enters hpre.1 hpre.2)

/-! Matrix operations (R195, R201, R206 to R208, R210, R215, R374). -/

/-- A meaning that comes to the matrix queue, with the permit that it asks for held, appends its operation where its rows are
free. -/
theorem enqueues_enterMat {i : Instr} {info : OpInfo} {body : Body} {pre : State → Prop} {m : State → MatOp}
    {permit : State → Bool} (hr : Runs i info body) (hheld : ∀ s, pre s → permit s = true → s.cs.permit = true)
    (hbody : ∀ s, pre s → body s = s.enterMat (m s) (permit s)) :
    Enqueues i (fun s => pre s ∧ s.rowsBusy (m s).rows = false) (fun s => 4 + dQ (m s).desc)
      (fun s => s.newOp (.mat (m s)) 0 false 0) :=
  Laws.enqueues hr fun _ _ hpre => .inr fun hroom =>
    (hbody _ hpre.1).trans (Laws.enterMat_free hpre.2 (hheld _ hpre.1) hroom)

theorem runs_mzero (a : BitVec 7) : ∃ info, Runs (.mzero a) info (mzeroBody a) := ⟨_, runs (fun _ => rfl) rfl rfl rfl⟩

theorem runs_mma (d a b : BitVec 7) : ∀ x ∈ [(Instr.mmaBf16 d a b, 0x203), (.mmaF16 d a b, 0x204), (.mmaE4m3 d a b, 0x205),
    (.mmaE5m2 d a b, 0x206), (.mmaT8 d a b, 0x207), (.mmaT6 d a b, 0x208), (.mmaxE2m1 d a b, 0x209), (.mmaxE4m3 d a b, 0x20A),
    (.msca d a b, 0x20B)], ∃ info, Runs x.1 info (mmaBody x.2 d a b) := by
  simp only [List.forall_mem_cons, List.not_mem_nil, false_implies, implies_true, and_true]
  and_intros <;> exact ⟨_, runs (fun _ => rfl) rfl rfl rfl⟩

theorem runs_msta (a b : BitVec 7) : ∀ x ∈ [(Instr.mstaF32 a b, 0x20E), (.mstaBf16 a b, 0x20F)],
    ∃ info, Runs x.1 info (mstaBody x.2 a b) := by
  simp only [List.forall_mem_cons, List.not_mem_nil, false_implies, implies_true, and_true]
  and_intros <;> exact ⟨_, runs (fun _ => rfl) rfl rfl rfl⟩

section
variable {a : BitVec 7} {s : State}

theorem mzeroBody_badShape (hdesc : descOk (s.rdS a.toNat) true false true false true 1 = false) :
    mzeroBody a s = trapE s eShape := by
  unfold mzeroBody
  simp [hdesc]

variable (hdesc : descOk (s.rdS a.toNat) true false true false true 1 = true)
include hdesc

theorem mzeroBody_badWindow (hwin : s.cw.inWindow (dRow0 (s.rdS a.toNat)) (dNrows (s.rdS a.toNat)) = false) :
    mzeroBody a s = trapE s eAccwin := by
  unfold mzeroBody
  simp [hdesc, hwin]

theorem mzeroBody_enters (hwin : s.cw.inWindow (dRow0 (s.rdS a.toNat)) (dNrows (s.rdS a.toNat)) = true) :
    mzeroBody a s = s.enterMat ⟨0x202, s.rdS a.toNat, [], []⟩ false := by
  unfold mzeroBody
  simp [hdesc, hwin]

end

/-- The checks of R201 end at a bad shape. -/
theorem mmaCheck_badShape {s : State} {m : MatOp} (h : m.badShape = true) : s.mmaCheck m = some (eShape, 0) := if_pos h

/-- Where the shape is good, a bad window comes next. -/
theorem mmaCheck_badWindow {s : State} {m : MatOp} (hshape : m.badShape = false) (hwin : m.badWindow s.cw = true) :
    s.mmaCheck m = some (eAccwin, 0) := by
  unfold State.mmaCheck
  simp [hshape, hwin]

/-- The operation that an MMA, MMAX or MSCA makes of its operands. -/
def mmaOp (op : Nat) (d a b : BitVec 7) (s : State) : MatOp := ⟨op, s.rdS d.toNat, s.rdRun a.toNat, s.rdRun b.toNat⟩

theorem mmaBody_fails {op : Nat} {d a b : BitVec 7} {s : State} {e : Err} {p : Nat}
    (h : s.mmaCheck (mmaOp op d a b s) = some (e, p)) : mmaBody op d a b s = trapA s e p := by
  unfold mmaOp at h
  unfold mmaBody
  simp only [h]

theorem mmaBody_enters {op : Nat} {d a b : BitVec 7} {s : State} (h : s.mmaCheck (mmaOp op d a b s) = none) :
    mmaBody op d a b s = s.enterMat (mmaOp op d a b s) (mmaOp op d a b s).needsPermit := by
  unfold mmaOp at *
  unfold mmaBody
  simp only [h]

theorem mstaBody_enters {op : Nat} {a b : BitVec 7} {s : State} :
    let r := s.rdRun b.toNat
    let x := s.rdS a.toNat
    recOk r = true → recSpace r < 2 → recSp r = 0 → recRows r ≤ 512 → dCol0 x + recCols r ≤ 128 →
    mstaLine op r ≤ recStride r → descOk x true true true false false 16 = true →
    s.cw.inWindow (dRow0 x) (recRows r) = true →
    (recSpace r = 0 → ∀ k, k < (if recT r then recCols r else recRows r) →
      ∃ y, s.scratchLoc s.cw.blk (recBase r + k * recStride r) (mstaLine op r) = .ok y) →
    mstaBody op a b s = s.enterMat ⟨op, x, [], r⟩ false := by
  dsimp only
  intro hrec hspace hsp hrows hcols hstride hdesc hwin hlines
  unfold mstaBody
  dsimp only
  rw [if_neg (by simp [hrec, hspace, hsp, hrows, hcols, hstride, hdesc]), if_neg (by simp [hwin])]
  split
  · next e p hbad =>
    split at hbad
    · next hscratch =>
      rw [Laws.firstSome_none _ _ fun k hk => ?_] at hbad
      · cases hbad
      · obtain ⟨y, hy⟩ := hlines hscratch k (List.mem_range.mp hk)
        simp only [hy]
    · cases hbad
  · rfl

theorem mzero_clauses (a : BitVec 7) :
    Enqueues (.mzero a) (fun s => (descOk (s.rdS a.toNat) true false true false true 1 = true ∧
        s.cw.inWindow (dRow0 (s.rdS a.toNat)) (dNrows (s.rdS a.toNat)) = true) ∧
        s.rowsBusy (MatOp.rows ⟨0x202, s.rdS a.toNat, [], []⟩) = false)
      (fun s => 4 + dQ (s.rdS a.toNat)) (fun s => s.newOp (.mat ⟨0x202, s.rdS a.toNat, [], []⟩) 0 false 0) ∧
    TrapsWhen (.mzero a) (fun s => descOk (s.rdS a.toNat) true false true false true 1 = false) (.shape, 0) ∧
    TrapsWhen (.mzero a) (fun s => descOk (s.rdS a.toNat) true false true false true 1 = true ∧
      s.cw.inWindow (dRow0 (s.rdS a.toNat)) (dNrows (s.rdS a.toNat)) = false) (.accwin, 0) := by
  obtain ⟨_, hr⟩ := runs_mzero a
  exact ⟨enqueues_enterMat (permit := fun _ => false) hr (fun _ _ h => absurd h Bool.false_ne_true)
      fun _ hpre => mzeroBody_enters hpre.1 hpre.2,
    Laws.traps_when hr (by decide) fun _ _ hdesc => mzeroBody_badShape hdesc,
    Laws.traps_when hr (by decide) fun _ _ hpre => mzeroBody_badWindow hpre.1 hpre.2⟩

/-- Settles O46: each of these meanings, its checks passed, comes to the matrix queue; of the failing checks SHAPE comes first. -/
theorem matrixOperationsEnterTheirQueue : Obligations.MatrixOperationsEnterTheirQueue := by
  unfold Obligations.MatrixOperationsEnterTheirQueue
  refine ⟨fun d a b => ⟨(mzero_clauses a).1, fun x hx => ?_, fun x hx => ?_⟩, fun d a b => ⟨fun x hx => ?_, (mzero_clauses a).2⟩⟩
  · obtain ⟨_, hr⟩ := runs_mma d a b x hx
    exact enqueues_enterMat (m := mmaOp x.2 d a b) hr (fun _ hpre => hpre.2) fun _ hpre => mmaBody_enters hpre.1
  · obtain ⟨_, hr⟩ := runs_msta a b x hx
    refine enqueues_enterMat (permit := fun _ => false) hr (fun _ _ h => absurd h Bool.false_ne_true) fun s hpre => ?_
    obtain ⟨hrec, hspace, hsp, hrows, hcols, hstride, hdesc, hwin, hlines⟩ := hpre
    exact mstaBody_enters hrec hspace hsp hrows hcols hstride hdesc hwin hlines
  · obtain ⟨_, hr⟩ := runs_mma d a b x hx
    exact ⟨trapsAt_of_body hr (by decide) fun _ hshape => mmaBody_fails (mmaCheck_badShape hshape),
      trapsAt_of_body hr (by decide) fun _ hpre => mmaBody_fails (mmaCheck_badWindow hpre.1 hpre.2)⟩

end Sys2Proof.Machine
end

section
/-! MSHP, MACC and MWIN (R192, R194, R198, R209, R371). -/

namespace Sys2Proof.Machine
open Sys2Proof

/-! MSHP (R198). -/

theorem runs_mshp (d a b : BitVec 7) : ∃ info, info.fmt = .A ∧ info.d = .srecw ∧ Runs (.mshp d a b) info (mshpBody d a b) :=
  ⟨_, rfl, rfl, runs (fun _ => rfl) rfl rfl rfl⟩

/-- A shape record lies within the 64 scalar names (R198). -/
theorem mshp_dst {d a b : BitVec 7} {s : State} (h : ready (.mshp d a b) s = true) : d.toNat + 4 ≤ 64 := by
  obtain ⟨info, hfmt, hkind, hr⟩ := runs_mshp d a b
  have hfield := ready_dOk hr.info h (by rw [hfmt]; decide)
  rw [show (Instr.mshp d a b).fields.extractLsb' 14 7 = d from dField d a b, hkind] at hfield
  exact of_decide_eq_true (Bool.and_eq_true_iff.mp hfield).2

theorem mshpBody_completes {d a b : BitVec 7} {s : State} (h : shapeCheck (s.rdS a.toNat) (s.rdS b.toNat) = none) :
    mshpBody d a b s = .ok ((s.wrS d.toNat (s.rdS a.toNat)).wrS (d.toNat + 1) (s.rdS b.toNat ||| 0x80)) := by
  unfold mshpBody
  simp only [h]

theorem mshpBody_fails {d a b : BitVec 7} {s : State} {e : Err} {p : Nat}
    (h : shapeCheck (s.rdS a.toNat) (s.rdS b.toNat) = some (e, p)) : mshpBody d a b s = trapA s e p := by
  unfold mshpBody
  simp only [h]

section
variable {d a b : BitVec 7} {s : State} (hready : ready (.mshp d a b) s = true)
include hready

theorem mshp_completes (hshape : shapeCheck (s.rdS a.toNat) (s.rdS b.toNat) = none) :
    ∃ t, exec (.mshp d a b) s = .next t ∧ t.regS d.toNat = s.rdS a.toNat ∧ t.regS (d.toNat + 1) = s.rdS b.toNat ||| 0x80 ∧
      t.cw.fst = s.cw.fst ∧ ScalarFrame s t (fun n => n = d.toNat ∨ n = d.toNat + 1) := by
  obtain ⟨_, -, -, hr⟩ := runs_mshp d a b
  have hdst := mshp_dst hready
  exact ⟨_, hr.ok hready (mshpBody_completes (s := s.atInstr (.mshp d a b)) hshape),
    Laws.two_scalars d.toNat _ _ hready (by omega)⟩

theorem mshp_fails {e : Err} {p : Nat} (hshape : shapeCheck (s.rdS a.toNat) (s.rdS b.toNat) = some (e, p)) :
    exec (.mshp d a b) s = .next ((s.atInstr (.mshp d a b)).raise (TrapInfo.atAddr e p)) := by
  obtain ⟨_, -, -, hr⟩ := runs_mshp d a b
  exact Laws.stops_at hr (Laws.shapeCheck_cause _ _ e p hshape) hready (mshpBody_fails (s := s.atInstr (.mshp d a b)) hshape)

end

/-! MACC (R192, R209, R371). -/

/-- What MACC asks of a descriptor and of its row: a good shape, a row in the warp's window that no operation of it holds. -/
structure MaccFree (s : State) (x : DWord) : Prop where
  desc : descOk x true true false false false 32 = true
  window : s.cw.inWindow (dRow0 x) 1 = true
  rows : s.rowsBusy [(dRow0 x, 1)] = false

theorem maccCheck_free {s : State} {x : DWord} (h : MaccFree s x) : maccCheck s x = none := by
  unfold maccCheck
  simp [h.desc, h.window, h.rows]

theorem maccRdBody_free {d a : BitVec 7} {s : State} (h : MaccFree s (s.rdS a.toNat)) :
    maccRdBody d a s = .ok (s.wrLanes d.toNat s.active
      (fun l => (s.block s.cw.blk).accGet (dRow0 (s.rdS a.toNat)) (dCol0 (s.rdS a.toNat) + l))) := by
  unfold maccRdBody
  simp only [maccCheck_free h]

/-- What a merge into the active lanes of a register leaves where the meaning does nothing else. -/
theorem answer_lanes {i : Instr} {info : OpInfo} {body : Body} {s : State} {d : Nat} {f : Nat → Word} (hr : Runs i info body)
    (hready : ready i s = true) (hname : s.vname d = true)
    (hbody : body (s.atInstr i) = .ok ((s.atInstr i).wrLanes d s.active f)) :
    ∃ t, exec i s = .next t ∧ (∀ l, l < 32 → s.active.getLsbD l = true → laneOf (t.regV d) l = f l) ∧ t.cw.fst = s.cw.fst ∧
      VectorFrame s t (fun n => n = d) := by
  obtain ⟨hw, hV, hS, hK, hlane⟩ := wrLanes_spec (s.atInstr i) d s.active f (ready_list hready) hname
  have hst := (wrote_retire hready hw).1
  refine ⟨_, hr.ok hready hbody, fun l hl hact => ?_, hst.fst.trans hw.fst,
    vectorFrame_of _ hready hw hS hV (fun n l hn hl hact => ?_) hK⟩
  · rw [hst.reads.regV, hlane l hl, if_pos hact]
  · by_cases hnd : n = d
    · subst hnd
      rw [hlane l hl, hact]
      rfl
    · rw [hV n hn hnd]
      rfl

theorem maccRd_reads {d a : BitVec 7} {s : State} (hready : ready (.maccRd d a) s = true)
    (hfree : MaccFree (s.atInstr (.maccRd d a)) (s.rdS a.toNat)) :
    ∃ t, exec (.maccRd d a) s = .next t ∧
      (∀ l, l < 32 → s.active.getLsbD l = true → laneOf (t.regV d.toNat) l =
        (s.block s.cw.blk).accGet (dRow0 (s.rdS a.toNat)) (dCol0 (s.rdS a.toNat) + l)) ∧
      t.cw.fst = s.cw.fst ∧ VectorFrame s t (fun n => n = d.toNat) := by
  obtain ⟨_, hkind, hr⟩ := runs_maccRd d a
  exact answer_lanes hr hready (Laws.vdst_run hr.info hready 1 (by omega) (.inl hkind) (dField d a 0) 0 (by omega))
    (maccRdBody_free (s := s.atInstr (.maccRd d a)) hfree)

theorem runs_maccWr (a b : BitVec 7) : ∃ info, Runs (.maccWr a b) info (maccWrBody a b) := ⟨_, runs (fun _ => rfl) rfl rfl rfl⟩

/-- A block with one accumulator cell of a row written for each of some lanes, from column c on (R371). -/
def Block.accLanes (k : Block) (r c : Nat) (f : Nat → Word) (ls : List Nat) : Block :=
  ls.foldl (fun k l => k.accSet r (c + l) (f l)) k

section
variable (k : Block) (r c : Nat) (f : Nat → Word) {ls : List Nat} (hls : ls.Nodup)
include hls

theorem accLanes_core : (k.accLanes r c f ls).core = k.core := by
  obtain ⟨-, hcore, -⟩ := Laws.accSet_fold r c f ls k hls
  exact hcore

theorem accLanes_same {l : Nat} (hl : l ∈ ls) : (k.accLanes r c f ls).accGet r (c + l) = f l := by
  refine ((Laws.accSet_fold r c f ls k hls).1 r (c + l)).trans ?_
  split
  · next l' hfound =>
    have hcell : r * 128 + (c + l) = r * 128 + (c + l') := by simpa using List.find?_some hfound
    rw [show l = l' by omega]
  · next hnone => simpa using List.find?_eq_none.mp hnone l hl

theorem accLanes_other {row col : Nat} (hcell : ∀ l ∈ ls, row * 128 + col ≠ r * 128 + (c + l)) :
    (k.accLanes r c f ls).accGet row col = k.accGet row col := by
  refine ((Laws.accSet_fold r c f ls k hls).1 row col).trans ?_
  rw [List.find?_eq_none.mpr fun l hl => by simpa using hcell l hl]

end

theorem lanesOf_nodup (m : Mask) : (lanesOf m).Nodup := (Laws.lanesOf_sorted m).imp Nat.ne_of_lt

theorem maccWrBody_free {a b : BitVec 7} {s : State} (h : MaccFree s (s.rdS a.toNat)) :
    maccWrBody a b s = .ok (s.setBlock s.cw.blk ((s.block s.cw.blk).accLanes (dRow0 (s.rdS a.toNat)) (dCol0 (s.rdS a.toNat))
      (s.lane b.toNat) (lanesOf s.activeReal))) := by
  unfold maccWrBody
  simp only [maccCheck_free h]
  rfl

theorem maccWr_writes {a b : BitVec 7} {s : State} (hready : ready (.maccWr a b) s = true)
    (hfree : MaccFree (s.atInstr (.maccWr a b)) (s.rdS a.toNat)) (hblk : s.cw.blk < s.blocks.length) :
    let row0 := dRow0 (s.rdS a.toNat)
    let col0 := dCol0 (s.rdS a.toNat)
    ∃ t, exec (.maccWr a b) s = .next t ∧
      (∀ l, l < 32 → s.activeReal.getLsbD l = true → (t.block s.cw.blk).accGet row0 (col0 + l) = s.lane b.toNat l) ∧
      (∀ c row col, (c ≠ s.cw.blk ∨
          ∀ l, l < 32 → s.activeReal.getLsbD l = true → row * 128 + col ≠ row0 * 128 + (col0 + l)) →
        (t.block c).accGet row col = (s.block c).accGet row col) ∧
      (∀ n, t.regS n = s.regS n) ∧ (∀ n, t.regV n = s.regV n) ∧ (∀ n, t.regK n = s.regK n) ∧ t.mem = s.mem ∧
      t.cw.fst = s.cw.fst ∧ SameControl s.cw t.cw := by
  intro row0 col0
  obtain ⟨_, hr⟩ := runs_maccWr a b
  have hnd := lanesOf_nodup s.activeReal
  let k := (s.block s.cw.blk).accLanes row0 col0 (s.lane b.toNat) (lanesOf s.activeReal)
  have hreads := Laws.setBlock_reads (s.atInstr (.maccWr a b)) s.cw.blk k (accLanes_core _ _ _ _ hnd)
  obtain ⟨hst, hS, hV, hK, hfst, hctl⟩ :=
    Laws.apartish (u := (s.atInstr (.maccWr a b)).setBlock s.cw.blk k) hready rfl rfl hreads
  have hblocks : ∀ c, (s.retired (.maccWr a b) ((s.atInstr (.maccWr a b)).setBlock s.cw.blk k)).block c =
      if c = s.cw.blk ∧ s.cw.blk < s.blocks.length then k else s.block c := fun c =>
    (congrArg (nth · c _) hst.elsewhere.blocks).trans (Laws.setBlock_block (s.atInstr (.maccWr a b)) s.cw.blk k c)
  refine ⟨_, hr.ok hready (maccWrBody_free (s := s.atInstr (.maccWr a b)) hfree), fun l hl hact => ?_, fun c row col hcell => ?_,
    hS, hV, hK, hst.elsewhere.mem, hfst, hctl⟩
  · refine (congrArg (Block.accGet · row0 (col0 + l)) (hblocks _)).trans ?_
    rw [if_pos ⟨rfl, hblk⟩]
    exact accLanes_same _ _ _ _ hnd ((Laws.mem_lanesOf _ _).mpr ⟨hl, hact⟩)
  · refine (congrArg (Block.accGet · row col) (hblocks c)).trans ?_
    split
    · next hc =>
      rw [hc.1]
      refine accLanes_other _ _ _ _ hnd fun l hl => ?_
      obtain ⟨hlt, hact⟩ := (Laws.mem_lanesOf _ _).mp hl
      exact hcell.resolve_left (not_not.mpr hc.1) l hlt hact
    · rfl

/-! MWIN (R194). -/

/-- Some warps given a row window. -/
def State.setWindows (s : State) (ts : List Nat) (base : BitVec 9) (len : BitVec 10) : State :=
  ts.foldl (fun s v => s.setWarp v { s.warp v with accb := base, accl := len }) s

section
variable (s : State) (ts : List Nat) (base : BitVec 9) (len : BitVec 10)

theorem warp_setWindows (v : Nat) : (s.setWindows ts base len).warp v =
    if v ∈ ts ∧ v < s.warps.length then { s.warp v with accb := base, accl := len } else s.warp v := by
  obtain ⟨-, -, -, -, -, hwarp⟩ := Laws.mwin_fold base len ts s
  exact hwarp v

/-- Row windows are none of what the registers read as. -/
theorem setWindows_reads : SameReads s (s.setWindows ts base len) := by
  obtain ⟨hissue, hblocks, -, hquarters, -, -⟩ := Laws.mwin_fold base len ts s
  change (s.setWindows ts base len).issue = s.issue at hissue
  change (s.setWindows ts base len).blocks = s.blocks at hblocks
  change (s.setWindows ts base len).quarters = s.quarters at hquarters
  obtain ⟨x, y, hcw⟩ : ∃ x y, (s.setWindows ts base len).cw = { s.cw with accb := x, accl := y } := by
    unfold State.cw
    rw [hissue, warp_setWindows]
    split
    · exact ⟨_, _, rfl⟩
    · exact ⟨_, _, rfl⟩
  generalize s.setWindows ts base len = u at *
  have hplace : u.quarterOf u.issue.warp = s.quarterOf s.issue.warp := by
    rw [hissue]
    have hwarp : u.warp s.issue.warp = u.cw := by rw [State.cw, hissue]
    exact quarterOf_of_place _ hblocks (by rw [hwarp, hcw]; rfl) (by rw [hwarp, hcw]; rfl)
  have hquarter : u.quarter (u.quarterOf u.issue.warp) = s.quarter (s.quarterOf s.issue.warp) := by
    rw [hplace]
    unfold State.quarter
    rw [hquarters]
  refine ⟨⟨congrArg _ hissue, congrArg _ hissue, congrArg _ hissue⟩, ?_, ⟨?_, congrArg _ hquarter⟩, ⟨?_, congrArg _ hquarter⟩,
    ?_, ?_, ?_⟩
  · unfold State.inHandler
    rw [hcw, hissue]
    rfl
  · rw [hcw]
  · rw [hcw]
  · rw [hcw]
  · rw [hcw]
    exact ⟨rfl, rfl, rfl, rfl⟩
  · unfold State.cs
    rw [hcw, hissue]
    rfl

end

/-- No warp's row window changes with what stays when an instruction retires. -/
theorem Stays.window {s t : State} (h : Stays s t) (v : Nat) :
    (t.warp v).accb = (s.warp v).accb ∧ (t.warp v).accl = (s.warp v).accl := by
  by_cases hv : v = s.issue.warp
  · have hcw : t.cw = t.warp v := by rw [State.cw, h.reads.issue.1, hv]
    obtain ⟨-, -, hbase, hlen, -⟩ := h.control.ctl
    rw [hcw] at hbase hlen
    rw [hbase, hlen, hv]
    exact ⟨rfl, rfl⟩
  · rw [h.elsewhere.warps v hv]
    exact ⟨rfl, rfl⟩

/-- What retires where a meaning has set row windows. -/
theorem retired_setWindows {i : Instr} {s : State} (hready : ready i s = true) (ts : List Nat) (base : BitVec 9)
    (len : BitVec 10) :
    let t := s.retired i ((s.atInstr i).setWindows ts base len)
    (∀ v ∈ ts, v < s.warps.length → (t.warp v).accb = base ∧ (t.warp v).accl = len) ∧
    (∀ v, v ∉ ts → v ≠ s.issue.warp → t.warp v = s.warp v) ∧
    (∀ n, t.regS n = s.regS n) ∧ (∀ n, t.regV n = s.regV n) ∧ (∀ n, t.regK n = s.regK n) ∧ t.mem = s.mem ∧
    t.blocks = s.blocks := by
  intro t
  have hwarp := warp_setWindows (s.atInstr i) ts base len
  have hreads := setWindows_reads (s.atInstr i) ts base len
  obtain ⟨hissue, hblocks, hmem, -, hlen, -⟩ := Laws.mwin_fold base len ts (s.atInstr i)
  change ((s.atInstr i).setWindows ts base len).issue = (s.atInstr i).issue at hissue
  change ((s.atInstr i).setWindows ts base len).warps.length = s.warps.length at hlen
  have hst : Stays ((s.atInstr i).setWindows ts base len) t := (retire_stays (s.atInstr i) _ _
    (by rw [hissue, hlen]; exact ready_list hready) (by rw [hissue]; rfl) (by rw [hissue])).1
  refine ⟨fun v hv hlt => ?_, fun v hv hne => ?_, fun n => (hst.reads.regS n).trans (hreads.regS n),
    fun n => (hst.reads.regV n).trans (hreads.regV n), fun n => (hst.reads.regK n).trans (hreads.regK n),
    hst.elsewhere.mem.trans hmem, hst.elsewhere.blocks.trans hblocks⟩
  · obtain ⟨hb, hl⟩ := hst.window v
    rw [hb, hl, hwarp, if_pos ⟨hv, hlt⟩]
    exact ⟨rfl, rfl⟩
  · rw [hst.elsewhere.warps v (by rw [hissue]; exact hne), hwarp, if_neg fun h => hv h.1]
    rfl

/-- Settles O47: MSHP's check decides between the record and the trap; MACC's cells are the lanes' own; MWIN writes windows, which
no register and no retirement reads. -/
theorem shapesAccumulatorsAndWindows : Obligations.ShapesAccumulatorsAndWindows := by
  unfold Obligations.ShapesAccumulatorsAndWindows
  refine fun d a b => ⟨fun s hready => mshp_completes hready, fun s e p hready => mshp_fails hready,
    ⟨fun s hready hfree => ?_, fun s hready hfree hblk => ?_⟩, fun s hready => ?_⟩
  · obtain ⟨hdesc, hwin, hrows⟩ := hfree
    exact maccRd_reads hready ⟨hdesc, hwin, hrows⟩
  · obtain ⟨hdesc, hwin, hrows⟩ := hfree
    exact maccWr_writes hready ⟨hdesc, hwin, hrows⟩ hblk
  · dsimp only
    intro hidx hword hgap hhigh hwarps hrows hops
    obtain ⟨_, hr⟩ := runs_mwin a b
    exact ⟨_, hr.ok hready (Laws.mwin_body a b (s.atInstr (.mwin a b)) hidx hword hgap hhigh hwarps hrows hops),
      retired_setWindows hready _ _ _⟩

end Sys2Proof.Machine
end

section
/-! A walk down a tree, and what the lanes of a voxel instruction find (R218, R219, R221, R226). -/

namespace Sys2Proof.Machine

open Sys2Proof Laws

/-! One level of a walk (R221). -/

theorem lvSlots_succ {lv : Nat} (h : lv < 3) : lvSlots (lv + 1) = if lv = 0 then 512 else 4096 := by
  interval_cases lv <;> rfl

/-- A bit of a mask, where the byte that holds it is read. -/
theorem treeBit_of_read {s s1 : State} {w : Who} {p i c : Nat} {v : Bool}
    (hread : s.treeRead w (ptrAdd p (i / 8)) 1 = .ok (c, s1)) (hbit : v = true ↔ c / 2 ^ (i % 8) % 2 = 1) :
    s.treeBit w p i = .ok (v, s1) := by
  have hv : decide (c / 2 ^ (i % 8) % 2 = 1) = v := by simp [← hbit]
  unfold State.treeBit
  simp only [hread, hv]

section
variable {s s1 s2 s3 : State} {w : Who} {h : TreeHead} {u : Nat × Nat × Nat} {lv n : Nat}

theorem descend_child {p : Nat} (hbit : s.treeBit w n (slotOf (lv + 1) u) = .ok (true, s1))
    (hptr : s1.treeRead w (ptrAdd n (offCptr (lvSlots (lv + 1)) (slotOf (lv + 1) u))) 8 = .ok (p, s2)) :
    s.descend w h u (lv + 1) n = if p % 128 = 0 then s2.descend w h u lv p else .error (.bad 600 eBadnode n s2) := by
  rw [State.descend]
  simp only [hbit, hptr, ite_not]

theorem descend_tile {v : Nat} (hbit : s.treeBit w n (slotOf (lv + 1) u) = .ok (false, s1))
    (htile : s1.treeBit w (ptrAdd n (offTile (lvSlots (lv + 1)))) (slotOf (lv + 1) u) = .ok (true, s2))
    (hval : s2.treeRead w (ptrAdd n (offTval (lvSlots (lv + 1)) (slotOf (lv + 1) u))) 8 = .ok (v, s3)) :
    s.descend w h u (lv + 1) n = .ok (⟨lv + 1, v, 0, voxIdx u⟩, s3) := by
  rw [State.descend]
  simp only [hbit, htile, hval]

theorem descend_background (hbit : s.treeBit w n (slotOf (lv + 1) u) = .ok (false, s1))
    (htile : s1.treeBit w (ptrAdd n (offTile (lvSlots (lv + 1)))) (slotOf (lv + 1) u) = .ok (false, s2)) :
    s.descend w h u (lv + 1) n = .ok (⟨4, h.bg, 0, voxIdx u⟩, s2) := by
  rw [State.descend]
  simp only [hbit, htile]

theorem leafOrigin_eq (u : Nat × Nat × Nat) : leafOrigin u = (u.1 - u.1 % 8, u.2.1 - u.2.1 % 8, u.2.2 - u.2.2 % 8) := by
  unfold leafOrigin
  refine Prod.ext ?_ (Prod.ext ?_ ?_) <;> dsimp only <;> omega

theorem voxIdx_eq (u : Nat × Nat × Nat) : voxIdx u = u.1 % 8 + 8 * (u.2.1 % 8) + 64 * (u.2.2 % 8) := by
  simp [voxIdx, slotOf, lvSide, lvShift]

/-- The walk ends in a leaf whose first three words are its origin (item 6 of R226). -/
theorem checkLeafNode_reads {x y z : Nat} (hx : s.treeRead w n 4 = .ok (x, s1))
    (hy : s.treeRead w (ptrAdd n 4) 4 = .ok (y, s2)) (hz : s.treeRead w (ptrAdd n 8) 4 = .ok (z, s3)) :
    s.checkLeafNode w u n =
      if (x, y, z) = leafOrigin u then .ok (⟨0, 0, n, voxIdx u⟩, s1) else .error (.bad 600 eBadnode n s1) := by
  unfold State.checkLeafNode
  simp only [hx, hy, hz]

/-- A voxel whose leaf is not cached is resolved by the walk from the root (R221, R223). -/
theorem resolveVox_walks {desc head : Nat} {v : Vox} (hcache : s.leafCached w desc (leafOrigin u) = none)
    (hwalk : s.descend w (treeHead head) u 3 (treeHead head).root = .ok (v, s1)) :
    ∃ s2, s.resolveVox w desc head (some u) = .ok (v, s2) := by
  unfold State.resolveVox
  simp only [hcache, hwalk]
  exact ⟨_, rfl⟩

/-! The value of a resolved voxel (R221). -/

theorem voxValue_tile {v : Vox} (hkind : v.kind ≠ 0) : s.voxValue w h v = .ok (v.val, s) := if_pos hkind

theorem voxValue_unset {v : Vox} (hkind : v.kind = 0) (hbit : s.treeBit w (ptrAdd v.leaf 64) v.j = .ok (false, s1)) :
    s.voxValue w h v = .ok (h.bg, s1) := by
  unfold State.voxValue
  rw [if_neg (not_not.mpr hkind)]
  simp only [hbit]

theorem voxValue_set {v : Vox} {x : Nat} (hkind : v.kind = 0) (hbit : s.treeBit w (ptrAdd v.leaf 64) v.j = .ok (true, s1))
    (hval : s1.treeRead w (ptrAdd v.leaf (256 + v.j * fmtBytes h.fmt)) (fmtBytes h.fmt) = .ok (x, s2)) :
    s.voxValue w h v = .ok (x, s2) := by
  unfold State.voxValue
  rw [if_neg (not_not.mpr hkind)]
  simp only [hbit, hval]

end

/-! Lanes one after the other, and the points of a lane. -/

theorem alGet_append {α : Type} (xs ys : List (Nat × α)) (l : Nat) : alGet (xs ++ ys) l = (alGet xs l).or (alGet ys l) := by
  induction xs with
  | nil => rfl
  | cons x r ih =>
    rw [List.cons_append, alGet, alGet]
    split
    · rfl
    · exact ih

/-- Where no lane stops, each has its result from some state, of which `P` holds where every lane keeps it. -/
theorem runLanes_results {α : Type} {f : Nat → State → Tree α} {P : State → Prop}
    (hkeep : ∀ l s x s', P s → f l s = .ok (x, s') → P s') {ls : List Nat} : ∀ {s s' : State} {xs : List (Nat × α)}, P s →
    runLanes f ls s = ([], xs, s') →
      xs.map Prod.fst = ls ∧ ∀ l ∈ ls, ∃ s1 x s3, P s1 ∧ f l s1 = .ok (x, s3) ∧ alGet xs l = some x := by
  induction ls with
  | nil =>
    intro s s' xs _ hrun
    obtain ⟨-, rfl, -⟩ := by simpa only [runLanes, Prod.mk.injEq] using hrun
    exact ⟨rfl, by simp⟩
  | cons k r ih =>
    intro s s' xs hs hrun
    unfold runLanes at hrun
    split at hrun
    · next x u hx =>
      rcases hrest : runLanes f r u with ⟨es, ys, v⟩
      rw [hrest] at hrun
      simp only [Prod.mk.injEq] at hrun
      obtain ⟨rfl, rfl, rfl⟩ := hrun
      obtain ⟨hkeys, hres⟩ := ih (hkeep k s x u hs hx) hrest
      refine ⟨by rw [List.map_cons, hkeys], fun l hl => ?_⟩
      by_cases hkl : k = l
      · exact hkl ▸ ⟨s, x, u, hs, hx, if_pos rfl⟩
      · obtain ⟨s1, y, s3, hs1, hy, hget⟩ := hres l ((List.mem_cons.1 hl).resolve_left (Ne.symm hkl))
        exact ⟨s1, y, s3, hs1, hy, (if_neg hkl).trans hget⟩
    · simp at hrun

theorem Apart.lane {s u : State} (h : Apart s u) (n l : Nat) : u.lane n l = s.lane n l := by
  unfold State.lane State.rdV
  rw [h.issue, h.reads.regV]

theorem Apart.activeReal {s u : State} (h : Apart s u) : u.activeReal = s.activeReal := by
  unfold State.activeReal
  rw [h.active, h.cw]

/-- A real lane of a voxel instruction has what it finds, a helper lane what `g` gives it (R226). -/
theorem voxLanes_results {α : Type} {s s' : State} {run : Nat} {f : Nat → State → Tree α} {g : Nat → α}
    {xs : List (Nat × α)} {P : State → Prop} (hkeep : ∀ l s x s', P s → f l s = .ok (x, s') → P s') (hs : P s)
    (hlanes : s.voxLanes run f g = .ok (xs, s')) :
    (∀ l ∈ lanesOf s.activeReal, ∃ s1 x s3, P s1 ∧ f l s1 = .ok (x, s3) ∧ alGet xs l = some x) ∧
      ∀ l ∈ lanesOf (s.active &&& s.cw.helpers), alGet xs l = some (g l) := by
  unfold State.voxLanes at hlanes
  split at hlanes
  · next ys s1 hrun =>
    obtain ⟨rfl, rfl⟩ := by simpa using hlanes
    obtain ⟨hkeys, hres⟩ := runLanes_results hkeep hs hrun
    refine ⟨fun l hl => ?_, fun l hl => ?_⟩
    · obtain ⟨s2, x, s3, hs2, hx, hget⟩ := hres l hl
      exact ⟨s2, x, s3, hs2, hx, by rw [alGet_append, hget]; rfl⟩
    · have hreal : l ∉ ys.map Prod.fst := by
        obtain ⟨-, hhelp⟩ := (mem_lanesOf _ _).1 hl
        rw [hkeys, mem_lanesOf]
        unfold State.activeReal
        simp only [BitVec.getLsbD_and, Bool.and_eq_true, BitVec.getLsbD_not] at hhelp ⊢
        simp [hhelp.2]
      rw [alGet_append, alGet_absent hreal, alGet_map g _ l hl]
      rfl
  · cases hlanes

/-- Where no point stops, each has its value from some state, in its place. -/
theorem treePoints_results {α : Type} (f : Int × Int × Int → State → Tree α) (o : Int × Int × Int) (e : α)
    (ps : List (Int × Int × Int)) : ∀ (s s' : State) (xs : List α), treePoints f ps s = .ok (xs, s') →
      xs.length = ps.length ∧ ∀ k, k < ps.length → ∃ s1 s3, f (nth ps k o) s1 = .ok (nth xs k e, s3) := by
  induction ps with
  | nil =>
    intro s s' xs hpoints
    obtain ⟨rfl, -⟩ := by simpa [treePoints] using hpoints
    exact ⟨rfl, by simp⟩
  | cons p r ih =>
    intro s s' xs hpoints
    unfold treePoints at hpoints
    split at hpoints
    · split at hpoints <;> cases hpoints
    · next x u hx =>
      split at hpoints
      · cases hpoints
      · next ys v hys =>
        obtain ⟨rfl, rfl⟩ := by simpa using hpoints
        obtain ⟨hlen, hres⟩ := ih _ _ _ hys
        refine ⟨by rw [List.length_cons, List.length_cons, hlen], fun k hk => ?_⟩
        cases k with
        | zero => exact ⟨s, u, hx⟩
        | succ k => exact hres k (Nat.lt_of_succ_lt_succ hk)

end Sys2Proof.Machine
end

section
/-! O49: TLOOK, VLDN and TWALK (R226 to R228, R236). -/

namespace Sys2Proof.Machine

open Sys2Proof Laws

/-! TLOOK (R227). -/

theorem runs_tlook (d a b : BitVec 7) : ∃ info, info.d = .vdst 3 ∧ Runs (.tlook d a b) info (tlookBody d a b) :=
  ⟨_, rfl, runs (fun _ => rfl) rfl rfl rfl⟩

theorem tlookBody_of_find {d a b : BitVec 7} {s s2 : State} {xs : List (Nat × Nat × Nat)} (hfind : tlookFind a b s = .ok (xs, s2)) :
    tlookBody d a b s = .ok (tlookPut d s xs s2) := by
  unfold tlookBody
  simp only [hfind]

/-- The three words that TLOOK writes for a lane. -/
def tlookWord (xs : List (Nat × Nat × Nat)) (k l : Nat) : Word :=
  let v := (alGet xs l).getD (0, 0)
  match k with
  | 0 => BitVec.ofNat 32 v.1
  | 1 => BitVec.ofNat 32 v.2
  | _ => BitVec.ofNat 32 (v.2 / 2 ^ 32)

theorem tlookPut_eq_wrRun (d : BitVec 7) (s : State) (xs : List (Nat × Nat × Nat)) (u : State) :
    tlookPut d s xs u = u.wrRun d.toNat s.active 3 (tlookWord xs) := rfl

theorem tlook_writes {d a b : BitVec 7} {s s2 : State} {xs : List (Nat × Nat × Nat)} (hready : ready (.tlook d a b) s = true)
    (hfind : tlookFind a b (s.atInstr (.tlook d a b)) = .ok (xs, s2)) :
    ∃ t, exec (.tlook d a b) s = .next t ∧
      (∀ k l, k < 3 → l < 32 → s.active.getLsbD l = true → laneOf (t.regV (d.toNat + k)) l = tlookWord xs k l) ∧
      RegisterFrame s t (fun _ => False) (fun j => ∃ k, k < 3 ∧ j = d.toNat + k) := by
  obtain ⟨_, hd, hr⟩ := runs_tlook d a b
  obtain ⟨t, hexec, -, -, hlanes, hframe⟩ := put_run hr hready ((tlookBody_of_find hfind).trans
    (congrArg Except.ok (tlookPut_eq_wrRun d _ xs s2))) (tlookFind_apart hfind)
    (vdst_run hr.info hready 3 (by decide) (.inl hd) (dField d a b))
  exact ⟨t, hexec, hlanes, hframe⟩

/-- TLOOK's descriptor is open, and each lane has what its walk, and the leaf's bits, give. -/
theorem tlookFind_results {a b : BitVec 7} {s s2 : State} {xs : List (Nat × Nat × Nat)} (hfind : tlookFind a b s = .ok (xs, s2)) :
    let desc := descOf (s.rdS b.toNat)
    let at_ := fun (h : TreeHead) l => treeCoord h (s.lane a.toNat l) (s.lane (a.toNat + 1) l) (s.lane (a.toNat + 2) l) 0 0 0
    ∃ head s0, s.treeOpen s.who desc 0 (fun h => (lanesOf s.activeReal).map (at_ h)) = .ok (head, s0) ∧
      let h := treeHead head
      (∀ l ∈ lanesOf s.activeReal, ∃ (s1 : State) (v : Vox) (s3 : State), s1.resolveVox s.who desc head (at_ h l) = .ok (v, s3) ∧
        (v.kind = 5 → alGet xs l = some (5 * 2 ^ 12, v.val % 2 ^ (8 * fmtBytes h.fmt))) ∧
        (v.kind ≠ 5 → v.kind ≠ 0 → alGet xs l = some (v.j + v.kind * 2 ^ 12, v.val % 2 ^ (8 * fmtBytes h.fmt))) ∧
        (v.kind = 0 → ∃ (vbit abit : Bool) (s4 s5 : State), s3.treeBit s.who (ptrAdd v.leaf 64) v.j = .ok (vbit, s4) ∧
          s4.treeBit s.who (ptrAdd v.leaf 128) v.j = .ok (abit, s5) ∧
          alGet xs l = some (v.j + (if vbit then 2 ^ 15 else 0) + (if abit then 2 ^ 16 else 0), v.leaf))) ∧
      ∀ l ∈ lanesOf (s.active &&& s.cw.helpers), alGet xs l = some (match at_ h l with
        | none => (5 * 2 ^ 12, h.bg % 2 ^ (8 * fmtBytes h.fmt))
        | some _ => (s.helperValue l 0, s.helperValue l 1)) := by
  intro desc at_
  unfold tlookFind at hfind
  dsimp only at hfind
  split at hfind
  · cases hfind
  split at hfind
  · cases hfind
  next head s1 hopen =>
  have ha := treeOpen_apart (fab_who s) hopen
  obtain ⟨hreal, hhelp⟩ := voxLanes_results (P := fun _ => True) (fun _ _ _ _ _ _ => trivial) trivial hfind
  rw [ha.activeReal] at hreal
  rw [ha.active, ha.cw] at hhelp
  refine ⟨head, s1, hopen, fun l hl => ?_, fun l hl => hhelp l hl⟩
  obtain ⟨s2, x, s3, -, hx, hget⟩ := hreal l hl
  split at hx
  · cases hx
  next v s4 hv =>
  refine ⟨s2, v, s4, hv, ?_⟩
  split at hx
  · next hk =>
    obtain ⟨rfl, -⟩ := Prod.mk.inj (Except.ok.inj hx)
    rw [hget]
    exact ⟨fun h5 => by rw [if_pos h5]; rfl, fun h5 _ => by rw [if_neg h5]; rfl, fun h0 => absurd h0 hk⟩
  · next hk =>
    have h0 : v.kind = 0 := not_not.mp hk
    split at hx
    · cases hx
    next vbit s5 hvbit =>
    split at hx
    · cases hx
    next abit s6 habit =>
    obtain ⟨rfl, -⟩ := Prod.mk.inj (Except.ok.inj hx)
    refine ⟨fun h5 => absurd (h0.symm.trans h5) (by decide), fun _ hne => absurd h0 hne, fun _ =>
      ⟨vbit, abit, s5, s6, hvbit, habit, ?_⟩⟩
    rw [hget]
    cases vbit <;> cases abit <;> rfl

/-! VLDN (R228). -/

theorem runs_vldn (d a b : BitVec 7) :
    ∀ x ∈ [(Instr.vldnS7 d a b, fun (_ : DWord) => stencil.take 7, false, false),
      (.vldnS19 d a b, fun _ => stencil.take 19, false, true), (.vldnB27 d a b, fun _ => stencil, false, true),
      (.vldnLine d a b, fun x => lineStencil (fieldOf x 0 2), true, false)],
    ∃ info, Runs x.1 info (vldnBody x.2.1 x.2.2.1 x.2.2.2 d a b) := by
  simp only [List.forall_mem_cons, List.not_mem_nil, false_implies, implies_true, and_true]
  and_intros <;> exact ⟨_, runs (fun _ => rfl) rfl rfl rfl⟩

section
variable {pts : DWord → List (Int × Int × Int)} {line big : Bool} {d a b : BitVec 7}

theorem vldnBody_of_find {s s3 : State} {x : Nat × Nat × List (Nat × List (Nat × Vox))}
    (hfind : vldnFind pts line big d a b s = .ok (x, s3)) : vldnBody pts line big d a b s = .ok (vldnPut pts d b s x s3) := by
  unfold vldnBody
  simp only [hfind]

/-- Item 1 of R226 comes first. -/
theorem vldnBody_badOption {s : State} (hbad : optBad (s.rdS b.toNat) line = true) :
    vldnBody pts line big d a b s = .error (.trap (TrapInfo.of eShape) s) := by
  have hfind : vldnFind pts line big d a b s = .error (.trap (TrapInfo.of eShape) s) := if_pos hbad
  unfold vldnBody
  simp only [hfind]

/-- The value of point k that a lane of VLDN takes. -/
def vldnValue (n : Nat) (xs : List (Nat × List (Nat × Vox))) (k l : Nat) : Nat :=
  (nth ((alGet xs l).getD []) k (0, ⟨0, 0, 0, 0⟩)).1 % 2 ^ (8 * n)

/-- The words that VLDN writes: one for each point, or the low and high words of a pair. -/
def vldnWord (r n : Nat) (xs : List (Nat × List (Nat × Vox))) (k l : Nat) : Word :=
  if r = 1 then BitVec.ofNat 32 (vldnValue n xs k l)
  else if k % 2 = 0 then lowWord (BitVec.ofNat 64 (vldnValue n xs (k / 2) l))
  else highWord (BitVec.ofNat 64 (vldnValue n xs (k / 2) l))

theorem vldnPut_eq_wrRun {r : Nat} (hr : r = 1 ∨ r = 2) (n : Nat) (xs : List (Nat × List (Nat × Vox))) (s u : State) :
    vldnPut pts d b s (r, n, xs) u = u.wrRun d.toNat s.active ((pts (s.rdS b.toNat)).length * r) (vldnWord r n xs) := by
  obtain rfl | rfl := hr
  · rw [Nat.mul_one]
    rfl
  · rw [Nat.mul_comm _ 2]
    exact pairs_run u d.toNat s.active _ (fun k l => BitVec.ofNat 64 (vldnValue n xs k l))

theorem vldn_writes {i : Instr} {info : OpInfo} (hr : Runs i info (vldnBody pts line big d a b)) {s s3 : State} {r n : Nat}
    {xs : List (Nat × List (Nat × Vox))} (hready : ready i s = true) (hsplit : s.splitEntry = none)
    (hfind : vldnFind pts line big d a b (s.atInstr i) = .ok ((r, n, xs), s3)) :
    let points := (pts (s.rdS b.toNat)).length
    ∃ t, exec i s = .next t ∧
      (∀ k l, k < points → l < 32 → s.active.getLsbD l = true →
        if r = 1 then laneOf (t.regV (d.toNat + k)) l = BitVec.ofNat 32 (vldnValue n xs k l)
        else pairOf (t.regV (d.toNat + 2 * k)) (t.regV (d.toNat + 2 * k + 1)) l = BitVec.ofNat 64 (vldnValue n xs k l)) ∧
      RegisterFrame s t (fun _ => False) (fun j => ∃ k, k < points * r ∧ j = d.toNat + k) := by
  intro points
  obtain ⟨hregs, hrun⟩ := vldnFind_runs hfind
  obtain ⟨t, hexec, -, -, hlanes, hframe⟩ := put_run (n := points * r) hr hready ((vldnBody_of_find hfind).trans
    (congrArg Except.ok (vldnPut_eq_wrRun hregs n xs _ s3))) (vldnFind_apart hsplit hfind) (fun k hk => runBad_names hrun k hk)
  refine ⟨t, hexec, fun k l hk hl hact => ?_, hframe⟩
  obtain rfl | rfl := hregs
  · exact hlanes k l (by omega) hl hact
  · rw [if_neg (by decide)]
    refine pairOf_low_high _ _ _ _ ((hlanes (2 * k) l (by omega) hl hact).trans ?_)
      ((hlanes (2 * k + 1) l (by omega) hl hact).trans ?_)
    · simp [vldnWord]
    · have hdiv : (2 * k + 1) / 2 = k := by omega
      simp [vldnWord, hdiv]

/-- Each real lane of VLDN has the value of each of its points. -/
theorem vldnFind_results {s s3 : State} {r n : Nat} {xs : List (Nat × List (Nat × Vox))}
    (hfind : vldnFind pts line big d a b s = .ok ((r, n, xs), s3)) :
    let ps := pts (s.rdS b.toNat)
    let at_ := fun (h : TreeHead) l (o : Int × Int × Int) =>
      treeCoord h (s.lane a.toNat l) (s.lane (a.toNat + 1) l) (s.lane (a.toNat + 2) l) o.1 o.2.1 o.2.2
    ∃ head, let h := treeHead head
      r = fmtRegs h.fmt ∧ n = fmtBytes h.fmt ∧ ∀ l ∈ lanesOf s.activeReal, ∃ vs, alGet xs l = some vs ∧ vs.length = ps.length ∧
        ∀ k, k < ps.length → ∃ s1 s2 s4 : State,
          s1.resolveVox s.who (descOf (s.rdS b.toNat)) head (at_ h l (nth ps k (0, 0, 0))) =
            .ok ((nth vs k (0, ⟨0, 0, 0, 0⟩)).2, s2) ∧
          s2.voxValue s.who h (nth vs k (0, ⟨0, 0, 0, 0⟩)).2 = .ok ((nth vs k (0, ⟨0, 0, 0, 0⟩)).1, s4) := by
  intro ps at_
  unfold vldnFind at hfind
  dsimp only at hfind
  split at hfind
  · cases hfind
  split at hfind
  · cases hfind
  split at hfind
  · cases hfind
  next head s1 hopen =>
  split at hfind
  · cases hfind
  split at hfind
  · cases hfind
  split at hfind
  · cases hfind
  next ys s2 hlanes =>
  obtain ⟨⟨rfl, rfl, rfl⟩, -⟩ := by simpa using hfind
  obtain ⟨hreal, -⟩ := voxLanes_results (P := fun _ => True) (fun _ _ _ _ _ _ => trivial) trivial hlanes
  rw [(treeOpen_apart (fab_who s) hopen).activeReal] at hreal
  refine ⟨head, rfl, rfl, fun l hl => ?_⟩
  obtain ⟨u1, vs, u3, -, hpoints, hget⟩ := hreal l hl
  obtain ⟨hlen, hres⟩ := treePoints_results _ (0, 0, 0) (0, ⟨0, 0, 0, 0⟩) _ _ _ _ hpoints
  refine ⟨vs, hget, hlen, fun k hk => ?_⟩
  obtain ⟨v1, v3, hpoint⟩ := hres k hk
  split at hpoint
  · cases hpoint
  next v u hv =>
  split at hpoint
  · cases hpoint
  next x u' hx =>
  obtain ⟨hpair, rfl⟩ := by simpa only [Except.ok.injEq, Prod.mk.injEq] using hpoint
  rw [← hpair]
  exact ⟨v1, u, u', hv, hx⟩

end

/-! TWALK (R236). -/

theorem runs_twalk (d a b : BitVec 7) : ∃ info, info.d = .vdst 5 ∧ Runs (.twalk d a b) info (twalkBody d a b) :=
  ⟨_, rfl, runs (fun _ => rfl) rfl rfl rfl⟩

theorem twalkBody_of_find {d a b : BitVec 7} {s s2 : State} {xs : List (Nat × Nat × Nat × Nat × Nat)}
    (hfind : twalkFind a b s = .ok (xs, s2)) : twalkBody d a b s = .ok (twalkPut d s xs s2) := by
  unfold twalkBody
  simp only [hfind]

/-- The five words that TWALK writes for a lane. -/
def twalkWord (xs : List (Nat × Nat × Nat × Nat × Nat)) (k l : Nat) : Word :=
  let v := (alGet xs l).getD (0, 0, 0, 0)
  match k with
  | 0 => BitVec.ofNat 32 v.1
  | 1 => BitVec.ofNat 32 v.2.1
  | 2 => BitVec.ofNat 32 v.2.2.1
  | 3 => BitVec.ofNat 32 v.2.2.2
  | _ => BitVec.ofNat 32 (v.2.2.2 / 2 ^ 32)

theorem twalkPut_eq_wrRun (d : BitVec 7) (s : State) (xs : List (Nat × Nat × Nat × Nat × Nat)) (u : State) :
    twalkPut d s xs u = u.wrRun d.toNat s.active 5 (twalkWord xs) := by
  unfold twalkPut State.wrRun
  rfl

theorem twalk_writes {d a b : BitVec 7} {s s2 : State} {xs : List (Nat × Nat × Nat × Nat × Nat)}
    (hready : ready (.twalk d a b) s = true) (hfind : twalkFind a b (s.atInstr (.twalk d a b)) = .ok (xs, s2)) :
    ∃ t, exec (.twalk d a b) s = .next t ∧
      (∀ k l, k < 5 → l < 32 → s.active.getLsbD l = true → laneOf (t.regV (d.toNat + k)) l = twalkWord xs k l) ∧
      RegisterFrame s t (fun _ => False) (fun j => ∃ k, k < 5 ∧ j = d.toNat + k) := by
  obtain ⟨_, hd, hr⟩ := runs_twalk d a b
  obtain ⟨t, hexec, -, -, hlanes, hframe⟩ := put_run hr hready ((twalkBody_of_find hfind).trans
    (congrArg Except.ok (twalkPut_eq_wrRun d _ xs s2))) (twalkFind_apart hfind)
    (vdst_run hr.info hready 5 (by decide) (.inl hd) (dField d a b))
  exact ⟨t, hexec, hlanes, hframe⟩

/-- Eight words of which one is not finite. -/
theorem any_not_finite (v : Nat → Nat) :
    (List.range 8).any (fun i => match decodeF fp32 (v i) with
      | .fin _ _ _ => false
      | _ => true) = true ↔ ¬ ∀ i, i < 8 → ∃ g m e, decodeF fp32 (v i) = .fin g m e := by
  rw [List.any_eq_true, not_forall]
  refine exists_congr fun i => ?_
  rw [List.mem_range, Classical.not_imp]
  refine and_congr_right fun _ => ?_
  cases decodeF fp32 (v i) <;> simp

/-- What TWALK does for a lane. -/
def twalkLane (a : BitVec 7) (w : Who) (h : TreeHead) (l : Nat) (s : State) : Tree (Nat × Nat × Nat × Nat) :=
  let v := fun i => (s.lane (a.toNat + i) l).toNat
  if (List.range 8).any (fun i => match decodeF fp32 (v i) with
      | .fin _ _ _ => false
      | _ => true) then .ok ((canonNan fp32, canonNan fp32, 7, 0), s)
  else match s.walkNode w ⟨[v 0, v 1, v 2], [v 3, v 4, v 5], v 6, v 7⟩ h 3 h.root [0, 0, 0] none with
    | .error e => .error e
    | .ok (none, s) => .ok ((v 7, v 7, 6, 0), s)
    | .ok (some c, s) => .ok ((c.tin, c.tout, c.kind, c.p), s)

/-- A ray that is not finite has code 7; another one has the cell of its walk, or code 6. -/
theorem twalkLane_ok {a : BitVec 7} {w : Who} {h : TreeHead} {l : Nat} {s s' : State} {x : Nat × Nat × Nat × Nat}
    (hlane : twalkLane a w h l s = .ok (x, s')) :
    let v := fun i => (s.lane (a.toNat + i) l).toNat
    let finite := ∀ i, i < 8 → ∃ g m e, decodeF fp32 (v i) = .fin g m e
    (¬ finite → x = (canonNan fp32, canonNan fp32, 7, 0) ∧ s' = s) ∧
    (finite → ∃ c : Option Cell,
      s.walkNode w ⟨[v 0, v 1, v 2], [v 3, v 4, v 5], v 6, v 7⟩ h 3 h.root [0, 0, 0] none = .ok (c, s') ∧
      x = match c with
        | none => (v 7, v 7, 6, 0)
        | some c => (c.tin, c.tout, c.kind, c.p)) := by
  intro v finite
  have hnot : _ ↔ ¬ finite := any_not_finite v
  unfold twalkLane at hlane
  dsimp only at hlane
  split at hlane
  · next hany =>
    obtain ⟨hans, hs⟩ := Prod.mk.inj (Except.ok.inj hlane)
    exact ⟨fun _ => ⟨hans.symm, hs.symm⟩, fun hfinite => absurd hfinite (hnot.1 hany)⟩
  next hall =>
  refine ⟨fun hfinite => absurd (hnot.2 hfinite) hall, fun _ => ?_⟩
  split at hlane
  · cases hlane
  · next u hwalk =>
    obtain ⟨hans, rfl⟩ := Prod.mk.inj (Except.ok.inj hlane)
    exact ⟨none, hwalk, hans.symm⟩
  · next c u hwalk =>
    obtain ⟨hans, rfl⟩ := Prod.mk.inj (Except.ok.inj hlane)
    exact ⟨some c, hwalk, hans.symm⟩

theorem twalkLane_apart {a : BitVec 7} {w : Who} {h : TreeHead} {l : Nat} {s s' : State} {x : Nat × Nat × Nat × Nat}
    (hfab : w.fab = false) (hlane : twalkLane a w h l s = .ok (x, s')) : Apart s s' := by
  obtain ⟨hnan, hwalks⟩ := twalkLane_ok hlane
  by_cases hfinite : ∀ i, i < 8 → ∃ g m e, decodeF fp32 (s.lane (a.toNat + i) l).toNat = .fin g m e
  · obtain ⟨c, hwalk, -⟩ := hwalks hfinite
    exact walkNode_apart w hfab _ h 3 _ _ _ _ _ _ hwalk
  · rw [(hnan hfinite).2]
    exact Apart.same s

theorem twalkFind_results {a b : BitVec 7} {s s2 : State} {xs : List (Nat × Nat × Nat × Nat × Nat)}
    (hfind : twalkFind a b s = .ok (xs, s2)) : ∃ head, ∀ l ∈ lanesOf s.activeReal,
    let h := treeHead head
    let v := fun i => (s.lane (a.toNat + i) l).toNat
    let finite := ∀ i, i < 8 → ∃ g m e, decodeF fp32 (v i) = .fin g m e
    (¬ finite → alGet xs l = some (canonNan fp32, canonNan fp32, 7, 0)) ∧
    (finite → ∃ (s1 : State) (c : Option Cell) (s3 : State),
      s1.walkNode s.who ⟨[v 0, v 1, v 2], [v 3, v 4, v 5], v 6, v 7⟩ h 3 h.root [0, 0, 0] none = .ok (c, s3) ∧
      alGet xs l = some (match c with
        | none => (v 7, v 7, 6, 0)
        | some c => (c.tin, c.tout, c.kind, c.p))) := by
  unfold twalkFind at hfind
  dsimp only at hfind
  split at hfind
  · cases hfind
  split at hfind
  · cases hfind
  next head s1 hopen =>
  have ha := treeOpen_apart (fab_who s) hopen
  obtain ⟨hreal, -⟩ := voxLanes_results (f := twalkLane a s.who (treeHead head)) (P := Apart s)
    (fun _ _ _ _ hu hlane => hu.trans (twalkLane_apart (fab_who s) hlane)) ha hfind
  rw [ha.activeReal] at hreal
  refine ⟨head, fun l hl => ?_⟩
  obtain ⟨u, x, s3, hu, hlane, hget⟩ := hreal l hl
  obtain ⟨hnan, hwalks⟩ := twalkLane_ok hlane
  simp only [hu.lane] at hnan hwalks
  refine ⟨fun hfinite => by rw [hget, (hnan hfinite).1], fun hfinite => ?_⟩
  obtain ⟨c, hwalk, rfl⟩ := hwalks hfinite
  exact ⟨u, c, s3, hwalk, hget⟩

/-- Settles O49: one level of a walk by its bit, the lanes by what they find, and the registers by the runs that the three write. -/
theorem voxelReadsWriteEveryLane : Obligations.VoxelReadsWriteEveryLane := by
  unfold Obligations.VoxelReadsWriteEveryLane
  refine ⟨fun s w h u lv n => ?walk, ?leaf, ?resolve, fun d a b =>
    ⟨?tlook, ?tlookFinds, ?value, ?vldnFinds, ?vldn, ?twalk, ?twalkFinds⟩⟩
  case walk =>
    intro i m bit hlv
    have hm : lvSlots (lv + 1) = m := lvSlots_succ hlv
    have hbit : ∀ {x y : State} {p : Nat} {v : Bool}, bit x p v y → x.treeBit w p i = .ok (v, y) :=
      fun ⟨_, hread, hv⟩ => treeBit_of_read hread hv
    refine ⟨fun s1 s2 p hchild hptr => descend_child (hbit hchild) (by rw [hm]; exact hptr),
      fun s1 s2 s3 v hchild htile hval => descend_tile (hbit hchild) (by rw [hm]; exact hbit htile) (by rw [hm]; exact hval),
      fun s1 s2 hchild htile => descend_background (hbit hchild) (by rw [hm]; exact hbit htile)⟩
  case leaf =>
    intro s s1 s2 s3 w h u n x y z hx hy hz
    rw [← leafOrigin_eq, ← voxIdx_eq]
    exact checkLeafNode_reads hx hy hz
  case resolve => exact fun s w desc head => ⟨rfl, fun u v s1 hcache hwalk => resolveVox_walks hcache hwalk⟩
  case tlook =>
    intro s xs s2 hready hfind
    obtain ⟨t, hexec, hlanes, hframe⟩ := tlook_writes hready hfind
    exact ⟨t, hexec, fun l hl hact => ⟨hlanes 0 l (by decide) hl hact, hlanes 1 l (by decide) hl hact,
      hlanes 2 l (by decide) hl hact⟩, hframe⟩
  case tlookFinds => exact fun s xs s2 hfind => tlookFind_results hfind
  case value => exact fun s w h v => ⟨voxValue_tile, fun s1 => voxValue_unset, fun s1 x s2 => voxValue_set⟩
  case vldnFinds => exact fun x _ s r n xs s3 hfind => vldnFind_results hfind
  case vldn =>
    intro x hx
    obtain ⟨_, hr⟩ := runs_vldn d a b x hx
    exact ⟨traps_when hr (by decide) fun s _ hbad => vldnBody_badOption hbad,
      fun s r n xs s3 hready hsplit hfind => vldn_writes hr hready hsplit hfind⟩
  case twalk =>
    intro s xs s2 hready hfind
    obtain ⟨t, hexec, hlanes, hframe⟩ := twalk_writes hready hfind
    exact ⟨t, hexec, fun l hl hact => ⟨hlanes 0 l (by decide) hl hact, hlanes 1 l (by decide) hl hact,
      hlanes 2 l (by decide) hl hact, hlanes 3 l (by decide) hl hact, hlanes 4 l (by decide) hl hact⟩, hframe⟩
  case twalkFinds => exact fun s xs s2 hfind => twalkFind_results hfind

end Sys2Proof.Machine
end

section
/-! The loop of TINS in one step (R231, R232), level by level. -/

namespace Sys2Proof.Machine

open Sys2Proof Laws

/-- The bit of a slot in its doubleword of a mask, and the doubleword that holds its lock. -/
abbrev slotBit (lv : Nat) (u : Nat × Nat × Nat) : Nat := 2 ^ (slotOf lv u % 64)
abbrev slotLock (lv : Nat) (u : Nat × Nat × Nat) (n : Nat) : Nat := ptrAdd n (offLock (lvSlots lv) + 8 * (slotOf lv u / 64))

/-- The lock of a slot is taken, and freed, by atomics that answer its old doubleword. -/
abbrev State.lockSlot (s : State) (w : Who) (lv : Nat) (u : Nat × Nat × Nat) (n : Nat) : Tree Nat :=
  s.treeAtomic w (slotLock lv u n) 0x19B (slotBit lv u) (fun x => x ||| slotBit lv u)
abbrev State.unlockSlot (s : State) (w : Who) (lv : Nat) (u : Nat × Nat × Nat) (n : Nat) : Tree Nat :=
  s.treeAtomic w (slotLock lv u n) 0x19A (2 ^ 64 - 1 - slotBit lv u) (fun x => x - (x &&& slotBit lv u))

section
variable {s s1 s2 s3 s4 s5 s6 s7 s8 : State} {w : Who} {desc pbase pend lv n cnt : Nat} {h : TreeHead} {u : Nat × Nat × Nat}

/-- A child is followed. -/
theorem insertFrom_child {p : Nat} (hbit : s.treeBit w n (slotOf (lv + 1) u) = .ok (true, s1))
    (hptr : s1.treeRead w (ptrAdd n (offCptr (lvSlots (lv + 1)) (slotOf (lv + 1) u))) 8 = .ok (p, s2)) (halign : p % 128 = 0) :
    s.insertFrom w desc h pbase pend u (lv + 1) n cnt = s2.insertFrom w desc h pbase pend u lv p cnt := by
  rw [State.insertFrom]
  simp only [hbit, hptr]
  exact if_neg (not_not.mpr halign)

/-- A lock that is held makes the insertion wait. -/
theorem insertFrom_locked {old : Nat} (hbit : s.treeBit w n (slotOf (lv + 1) u) = .ok (false, s1))
    (hlock : s1.lockSlot w (lv + 1) u n = .ok (old, s2)) (hheld : old / slotBit (lv + 1) u % 2 = 1) :
    s.insertFrom w desc h pbase pend u (lv + 1) n cnt = .error .wait := by
  rw [State.insertFrom]
  simp only [hbit, hlock]
  exact if_pos hheld

/-- A pool used up ends it with status 2, the lock freed. -/
theorem insertFrom_full {old room v : Nat} (hbit : s.treeBit w n (slotOf (lv + 1) u) = .ok (false, s1))
    (hlock : s1.lockSlot w (lv + 1) u n = .ok (old, s2)) (hopen : old / slotBit (lv + 1) u % 2 = 0)
    (hroom : s2.treeAtomic w (ptrAdd desc 48) 0x195 (nodeBytes lv h.fmt) (fun x => x + nodeBytes lv h.fmt) = .ok (room, s3))
    (hend : pend < room + nodeBytes lv h.fmt) (hfree : s3.unlockSlot w (lv + 1) u n = .ok (v, s4)) :
    s.insertFrom w desc h pbase pend u (lv + 1) n cnt = .ok ((2, cnt, 0), s4) := by
  rw [State.insertFrom]
  simp only [hbit, hlock, hroom, hfree]
  rw [if_neg (by rw [hopen]; decide), if_pos hend]

/-- With room in the pool the node is made, filled from the slot's tile, linked before a release and the child bit, and entered. -/
theorem insertFrom_makes {old room v t o : Nat} {tile : Bool} {x : State}
    (hbit : s.treeBit w n (slotOf (lv + 1) u) = .ok (false, s1))
    (hlock : s1.lockSlot w (lv + 1) u n = .ok (old, s2)) (hopen : old / slotBit (lv + 1) u % 2 = 0)
    (hroom : s2.treeAtomic w (ptrAdd desc 48) 0x195 (nodeBytes lv h.fmt) (fun x => x + nodeBytes lv h.fmt) = .ok (room, s3))
    (hend : room + nodeBytes lv h.fmt ≤ pend)
    (htile : s3.treeBit w (ptrAdd n (offTile (lvSlots (lv + 1)))) (slotOf (lv + 1) u) = .ok (tile, x))
    (hval : s3.treeRead w (ptrAdd n (offTval (lvSlots (lv + 1)) (slotOf (lv + 1) u))) 8 = .ok (t, s4))
    (hnode : s4.treeWrite w (nodePtr pbase room) (newNode lv h.fmt (slotCorner (lv + 1) u) (if tile then some t else none)) =
      .ok ((), s5))
    (hlink : s5.treeWrite w (ptrAdd n (offCptr (lvSlots (lv + 1)) (slotOf (lv + 1) u))) (toBytes 8 (nodePtr pbase room)) =
      .ok ((), s6))
    (hchild : (if w.fab then s6 else s6.releaseL1 w.core).treeAtomic w (ptrAdd n (8 * (slotOf (lv + 1) u / 64))) 0x19B
      (slotBit (lv + 1) u) (fun x => x ||| slotBit (lv + 1) u) = .ok (o, s7))
    (hfree : s7.unlockSlot w (lv + 1) u n = .ok (v, s8)) :
    s.insertFrom w desc h pbase pend u (lv + 1) n cnt =
      s8.insertFrom w desc h pbase pend u lv (nodePtr pbase room) (cnt + 1) := by
  rw [State.insertFrom]
  simp only [hbit, hlock, hroom]
  rw [if_neg (by rw [hopen]; decide), if_neg (Nat.not_lt.mpr hend)]
  simp only [htile, hval, hnode, hlink, hchild, hfree]

/-- At the leaf the status tells whether a node was made (R231). -/
theorem insertFrom_leaf {v : Vox} (hleaf : s.checkLeafNode w u n = .ok (v, s1)) :
    s.insertFrom w desc h pbase pend u 0 n cnt = .ok ((if cnt = 0 then 0 else 1, cnt, n), s1) := by
  rw [State.insertFrom]
  simp only [hleaf]

end

/-- A new node's pointer has the tag of pbase and the address that the pool gave. -/
theorem nodePtr_parts {pbase : Nat} (room : Nat) (hbase : pbase < 2 ^ 64) :
    nodePtr pbase room / 2 ^ 60 = pbase / 2 ^ 60 ∧ nodePtr pbase room % 2 ^ 60 = room % 2 ^ 60 := by
  unfold nodePtr field
  omega

end Sys2Proof.Machine
end

section
/-! What a step of a walk or of an insertion leaves: all that an access through the caches leaves as it was. -/

namespace Sys2Proof.Machine

open Sys2Proof Laws

/-- Where an access, or a step, goes on, `R` holds of the state it leaves. -/
def Tree.Leaves {α : Type} (R : State → Prop) (x : Tree α) : Prop := ∀ y u, x = .ok (y, u) → R u

namespace Tree.Leaves
variable {α : Type} {R : State → Prop}

theorem stop {e : TreeStop} : Leaves R (.error e : Tree α) := fun _ _ h => nomatch h

theorem ret {y : α} {u : State} (h : R u) : Leaves R (.ok (y, u)) := by
  rintro z t hz
  obtain ⟨-, rfl⟩ := Prod.mk.inj (Except.ok.inj hz)
  exact h

theorem ite {c : Prop} [Decidable c] {x y : Tree α} (h : Leaves R x) (k : Leaves R y) : Leaves R (if c then x else y) := by
  split
  · exact h
  · exact k

end Tree.Leaves

/-- The accesses, and the walks made of them, leave aside what accesses through the caches do. -/
def SameAside (s u : State) : Prop := u.aside = s.aside

theorem SameAside.trans {s t u : State} (h : SameAside s t) (k : SameAside t u) : SameAside s u := Eq.trans k h

theorem SameAside.releaseL1 {s t : State} (h : SameAside s t) (c : Nat) : SameAside s (t.releaseL1 c) :=
  h.trans (foldl_aside _ _ t fun _ _ => cleanLines_aside _ _ _)
theorem SameAside.acquireL1 {s t : State} (h : SameAside s t) (c : Nat) : SameAside s (t.acquireL1 c) :=
  h.trans (foldl_aside _ _ t fun _ _ => removeLines_aside _ _ _)

section
variable {w : Who} (hfab : w.fab = false)
include hfab

theorem takeRun_aside (xs : List (Nat × Nat × (List Byte ⊕ Trans))) : ∀ s : State, (s.takeRun w xs).2.aside = s.aside := by
  induction xs with
  | nil => exact fun _ => rfl
  | cons x r ih =>
    intro s
    obtain ⟨p, n, bs | t⟩ := x
    · exact ih s
    · exact (ih _).trans (homeRead_aside s w _ n t false hfab)

theorem treeBytes_aside (s : State) (item p n : Nat) : (s.treeBytes w item p n).Leaves (SameAside s) := by
  unfold State.treeBytes State.readMem State.readRun
  split
  · next u hrun =>
    refine .ret ?_
    split at hrun
    · cases hrun
    · split at hrun
      · obtain ⟨-, rfl⟩ := Prod.mk.inj hrun
        exact takeRun_aside hfab _ s
      · cases hrun
  · exact .stop
  · exact .stop

theorem treeRead_aside (s : State) (p n : Nat) : (s.treeRead w p n).Leaves (SameAside s) := by
  unfold State.treeRead
  split
  · next e => exact .ret (treeBytes_aside hfab s _ p n _ _ e)
  · exact .stop

theorem treeBit_aside (s : State) (p i : Nat) : (s.treeBit w p i).Leaves (SameAside s) := by
  unfold State.treeBit
  split
  · next e => exact .ret (treeRead_aside hfab s _ _ _ _ e)
  · exact .stop

theorem treeWrite_aside (s : State) (p : Nat) (bs : List Byte) : (s.treeWrite w p bs).Leaves (SameAside s) := by
  unfold State.treeWrite
  split
  · next u e =>
    refine .ret ?_
    unfold State.ioWrite at e
    dsimp only at e
    split at e
    · cases e
    · split at e
      · cases e
      · split at e
        · cases e
          exact putRun_aside s w hfab _
        · cases e
  · exact .stop

theorem treeAtomic_aside (s : State) (p op arg : Nat) (f : Nat → Nat) : (s.treeAtomic w p op arg f).Leaves (SameAside s) := by
  unfold State.treeAtomic
  split
  · exact .stop
  · refine .ite .stop (.ret ?_)
    exact (homeWrite_aside _ w _ _ _ hfab).trans (homeRead_aside s w _ 8 _ true hfab)

theorem checkLeafNode_aside (s : State) (u : Nat × Nat × Nat) (p : Nat) : (s.checkLeafNode w u p).Leaves (SameAside s) := by
  unfold State.checkLeafNode
  split
  · next e _ _ => exact .ite (.ret (treeRead_aside hfab s _ _ _ _ e)) .stop
  · exact .stop
  · exact .stop
  · exact .stop

theorem insertFrom_aside (desc pbase pend : Nat) (h : TreeHead) (u : Nat × Nat × Nat) (lv : Nat) : ∀ (s : State) (n cnt : Nat),
    (s.insertFrom w desc h pbase pend u lv n cnt).Leaves (SameAside s) := by
  induction lv with
  | zero =>
    intro s n cnt
    unfold State.insertFrom
    split
    · next e => exact .ret (checkLeafNode_aside hfab s u n _ _ e)
    · exact .stop
  | succ lv ih =>
    intro s n cnt
    have hgo : ∀ {t : State} {p cnt : Nat}, SameAside s t →
        (t.insertFrom w desc h pbase pend u lv p cnt).Leaves (SameAside s) := fun ht y v e => ht.trans (ih _ _ _ y v e)
    unfold State.insertFrom
    extract_lets i c lock sz unlock
    split
    · exact .stop
    · next hbit =>
      split
      · exact .stop
      · next hptr => exact .ite .stop (hgo ((treeBit_aside hfab s n i _ _ hbit).trans (treeRead_aside hfab _ _ _ _ _ hptr)))
    · next hbit =>
      split
      · exact .stop
      next hlock =>
      have h2 := (treeBit_aside hfab s n i _ _ hbit).trans (treeAtomic_aside hfab _ _ _ _ _ _ _ hlock)
      refine .ite .stop ?_
      have hunlock : ∀ {t : State}, SameAside s t → (unlock t).Leaves (SameAside s) :=
        fun ht y v e => ht.trans (treeAtomic_aside hfab _ _ _ _ _ y v e)
      clear_value unlock
      split
      · exact .stop
      next hroom =>
      have h3 := h2.trans (treeAtomic_aside hfab _ _ _ _ _ _ _ hroom)
      refine .ite ?_ ?_
      · split
        · next e => exact .ret (hunlock h3 _ _ e)
        · exact .stop
      · split
        · next hval =>
          have h4 := h3.trans (treeRead_aside hfab _ _ _ _ _ hval)
          extract_lets p
          generalize newNode _ _ _ _ = node
          split
          · exact .stop
          next hnode =>
          have h5 := h4.trans (treeWrite_aside hfab _ _ _ _ _ hnode)
          split
          · exact .stop
          next t6 hlink =>
          have h6 := h5.trans (treeWrite_aside hfab _ _ _ _ _ hlink)
          rw [hfab]
          split
          · exact .stop
          next hchild =>
          have h7 := (h6.releaseL1 w.core).trans (treeAtomic_aside hfab _ _ _ _ _ _ _ hchild)
          split
          · exact .stop
          · next e => exact hgo (hunlock h7 _ _ e)
        · exact .stop
        · exact .stop

end

end Sys2Proof.Machine
end

section
/-! TINS on nodes in host memory: its accesses (R231, R321), and what they leave of the registers. -/

namespace Sys2Proof.Machine

open Sys2Proof Laws

section
variable {s s1 : State} {w : Who} {desc : Nat} {u : Nat × Nat × Nat} {r : Insert} {v : Nat}

/-- The lock of a slot, freed access by access. -/
abbrev State.insUnlock (s : State) (w : Who) (u : Nat × Nat × Nat) (r : Insert) : Tree Nat :=
  s.insAtomic w (slotLock r.lv u r.node) 0x19A (2 ^ 64 - 1 - slotBit r.lv u) (fun x => x - (x &&& slotBit r.lv u))

/-- What reading a child bit leaves: a bit that is set is an acquire (R222). -/
abbrev State.sawChild (s : State) (w : Who) (u : Nat × Nat × Nat) (r : Insert) (v : Nat) : State :=
  if v / slotBit r.lv u % 2 = 1 ∧ w.fab = false then s.acquireL1 w.core else s

variable (hlv : r.lv ≠ 0)
include hlv

theorem insertStep_looks (hphase : r.phase = 0) (hread : s.insRead w (ptrAdd r.node (8 * (slotOf r.lv u / 64))) 8 = .ok (v, s1)) :
    s.insertStep w desc u r =
      .ok ({ r with phase := if v / slotBit r.lv u % 2 = 1 then 1 else 2 }, s1.sawChild w u r v) := by
  unfold State.insertStep
  simp only [if_neg hlv, hphase, hread, decide_eq_true_eq, Bool.and_eq_true, Bool.not_eq_true']

theorem insertStep_follows (hphase : r.phase = 1)
    (hread : s.insRead w (ptrAdd r.node (offCptr (lvSlots r.lv) (slotOf r.lv u))) 8 = .ok (v, s1)) (halign : v % 128 = 0) :
    s.insertStep w desc u r = .ok ({ r with phase := 0, blocked := false, lv := r.lv - 1, node := v }, s1) := by
  unfold State.insertStep
  simp only [if_neg hlv, hphase, hread]
  exact if_neg (not_not.mpr halign)

theorem insertStep_locks (hphase : r.phase = 2)
    (hlock : s.insAtomic w (slotLock r.lv u r.node) 0x19B (slotBit r.lv u) (fun x => x ||| slotBit r.lv u) = .ok (v, s1)) :
    s.insertStep w desc u r = .ok (if v / slotBit r.lv u % 2 = 1 then { r with phase := 0, blocked := true }
      else { r with phase := 3, blocked := false }, s1) := by
  unfold State.insertStep
  simp only [if_neg hlv, hphase, hlock, decide_eq_true_eq]

theorem insertStep_looksAgain (hphase : r.phase = 3)
    (hread : s.insRead w (ptrAdd r.node (8 * (slotOf r.lv u / 64))) 8 = .ok (v, s1)) :
    s.insertStep w desc u r = .ok ({ r with phase := if v / slotBit r.lv u % 2 = 1 then 11 else 4, blocked := false },
      s1.sawChild w u r v) := by
  unfold State.insertStep
  simp only [if_neg hlv, hphase, hread, decide_eq_true_eq, Bool.and_eq_true, Bool.not_eq_true']

theorem insertStep_takesRoom (hphase : r.phase = 4)
    (hroom : let sz := nodeBytes (r.lv - 1) (treeHead r.desc.toNat).fmt
      s.insAtomic w (ptrAdd desc 48) 0x195 sz (fun x => x + sz) = .ok (v, s1)) :
    s.insertStep w desc u r =
      .ok (if field r.desc.toNat 320 64 < v + nodeBytes (r.lv - 1) (treeHead r.desc.toNat).fmt
        then { r with phase := 12, blocked := false }
        else { r with phase := 5, blocked := false, new := nodePtr (field r.desc.toNat 256 64) v }, s1) := by
  unfold State.insertStep
  simp only [if_neg hlv, hphase, hroom]

theorem insertStep_links (hphase : r.phase = 8)
    (hwrite : s.insWrite w (ptrAdd r.node (offCptr (lvSlots r.lv) (slotOf r.lv u))) (toBytes 8 r.new) = .ok ((), s1)) :
    s.insertStep w desc u r = .ok ({ r with phase := 9, blocked := false }, if w.fab then s1 else s1.releaseL1 w.core) := by
  unfold State.insertStep
  simp only [if_neg hlv, hphase, hwrite]

theorem insertStep_setsChild (hphase : r.phase = 9)
    (hchild : s.insAtomic w (ptrAdd r.node (8 * (slotOf r.lv u / 64))) 0x19B (slotBit r.lv u) (fun x => x ||| slotBit r.lv u)
      = .ok (v, s1)) :
    s.insertStep w desc u r = .ok ({ r with phase := 10, blocked := false }, s1) := by
  unfold State.insertStep
  simp only [if_neg hlv, hphase, hchild]

/-- The lock is freed by three: with the node made, with a child found after all, and with the pool used up. -/
theorem insertStep_frees (hfree : s.insUnlock w u r = .ok (v, s1)) :
    (r.phase = 10 → s.insertStep w desc u r =
      .ok ({ r with phase := 0, blocked := false, lv := r.lv - 1, node := r.new, cnt := r.cnt + 1 }, s1)) ∧
    (r.phase = 11 → s.insertStep w desc u r = .ok ({ r with phase := 1, blocked := false }, s1)) ∧
    (r.phase = 12 → s.insertStep w desc u r = .ok (r.answer 2 0, s1)) := by
  unfold State.insertStep
  refine ⟨fun hphase => ?_, fun hphase => ?_, fun hphase => ?_⟩ <;> simp only [if_neg hlv, hphase, hfree]

end

/-! What the accesses leave: all that stands apart, and of the issue all but the answers used. -/

def ApartHeard (s u : State) : Prop := Apart s u ∨ Apart s.heard u

theorem Apart.heard {s u : State} (h : Apart s u) : Apart s.heard u.heard where
  reads := ⟨h.reads.issue, h.reads.handler, h.reads.sregs, h.reads.vregs, h.reads.kregs, h.reads.window, h.reads.mask⟩
  warps := h.warps
  issue := congrArg (fun i : Issue => { i with sent := [], resp := [] }) h.issue
  accs := h.accs

theorem ApartHeard.trans {s t u : State} (h : ApartHeard s t) (k : ApartHeard t u) : ApartHeard s u := by
  rcases h with h | h <;> rcases k with k | k
  · exact .inl (h.trans k)
  · exact .inr (h.heard.trans k)
  · exact .inr (h.trans k)
  · exact .inr (h.heard.trans k)

theorem ApartHeard.acquireL1 {s t : State} (h : ApartHeard s t) (c : Nat) : ApartHeard s (t.acquireL1 c) :=
  h.trans (.inl (Apart.acquireL1 t c))
theorem ApartHeard.releaseL1 {s t : State} (h : ApartHeard s t) (c : Nat) : ApartHeard s (t.releaseL1 c) :=
  h.trans (.inl (Apart.releaseL1 t c))
theorem ApartHeard.ite {s t u : State} {c : Prop} [Decidable c] (h : ApartHeard s t) (k : ApartHeard s u) :
    ApartHeard s (if c then t else u) := by
  split
  · exact h
  · exact k

section
variable {s u : State} {w : Who}

theorem ioAtomic_apart (hfab : w.fab = false) {rs : List HostResp} {p n k op v : Nat} {os : List DWord} {f : Nat → Nat}
    (h : s.ioAtomic w rs p n k op os f = .ok (v, u)) : Apart s u := by
  unfold State.ioAtomic at h
  split at h
  · obtain ⟨-, rfl⟩ := Prod.mk.inj (Except.ok.inj h)
    exact Apart.same s
  · cases h
  · split at h
    · cases h
    · split at h
      · cases h
      · obtain ⟨-, rfl⟩ := Prod.mk.inj (Except.ok.inj h)
        exact (Apart.homeRead _ _ _ _ _ _ hfab).trans (Apart.homeWrite _ _ _ _ _ hfab)

theorem insRead_heard (hfab : w.fab = false) (p n : Nat) : Tree.Leaves (ApartHeard s) (s.insRead w p n) := by
  unfold State.insRead
  split
  · next hread => exact .ret (.inr (treeRead_apart hfab hread).heard)
  · exact .stop

theorem insAtomic_heard (hfab : w.fab = false) (p op arg : Nat) (f : Nat → Nat) :
    Tree.Leaves (ApartHeard s) (s.insAtomic w p op arg f) := by
  unfold State.insAtomic
  split
  · next hatomic => exact .ret (.inr (ioAtomic_apart hfab hatomic).heard)
  · exact .stop

theorem insWrite_heard (hfab : w.fab = false) (p : Nat) (bs : List Byte) : Tree.Leaves (ApartHeard s) (s.insWrite w p bs) := by
  unfold State.insWrite
  split
  · next hwrite => exact .ret (.inr (ioWrite_apart hfab hwrite).heard)
  · exact .stop

theorem insertStep_heard (hfab : w.fab = false) (desc : Nat) (v : Nat × Nat × Nat) (r : Insert) :
    Tree.Leaves (ApartHeard s) (s.insertStep w desc v r) := by
  have hread : ∀ p n, Tree.Leaves (ApartHeard s) (s.insRead w p n) := insRead_heard hfab
  have hatomic : ∀ p op arg f, Tree.Leaves (ApartHeard s) (s.insAtomic w p op arg f) := insAtomic_heard hfab
  have hwrite : ∀ p bs, Tree.Leaves (ApartHeard s) (s.insWrite w p bs) := insWrite_heard hfab
  unfold State.insertStep
  extract_lets dd fmt i c bit child lock step isSet free
  have hfree : Tree.Leaves (ApartHeard s) free := hatomic _ _ _ _
  clear_value free
  split
  · split
    · exact .stop
    · next e => exact .ite (.ret (hread _ _ _ _ e)) .stop
  · split
    · split
      · exact .stop
      · next e => exact .ret (.ite ((hread _ _ _ _ e).acquireL1 _) (hread _ _ _ _ e))
    · split
      · exact .stop
      · next e => exact .ite .stop (.ret (hread _ _ _ _ e))
    · split
      · exact .stop
      · next e => exact .ret (hatomic _ _ _ _ _ _ e)
    · split
      · exact .stop
      · next e => exact .ret (.ite ((hread _ _ _ _ e).acquireL1 _) (hread _ _ _ _ e))
    · split
      · exact .stop
      · next e => exact .ret (hatomic _ _ _ _ _ _ e)
    · split
      · exact .stop
      · next e => exact .ret (hread _ _ _ _ e)
    · split
      · exact .stop
      · next e => exact .ret (hread _ _ _ _ e)
    · split
      · exact .stop
      · next e => exact .ret (hwrite _ _ _ _ e)
    · split
      · exact .stop
      · next e => exact .ret (.ite (hwrite _ _ _ _ e) ((hwrite _ _ _ _ e).releaseL1 _))
    · split
      · exact .stop
      · next e => exact .ret (hatomic _ _ _ _ _ _ e)
    · split
      · exact .stop
      · exact .ret (hfree _ _ rfl)
    · split
      · exact .stop
      · exact .ret (hfree _ _ rfl)
    · split
      · exact .stop
      · exact .ret (hfree _ _ rfl)

theorem insertGo_heard (hfab : w.fab = false) (desc : Nat) (vox : Nat → Option (Nat × Nat × Nat)) (fuel : Nat) :
    ∀ (s u : State) (r : Insert) (xs : List (Nat × Nat × Nat × Nat)),
      State.insertGo w desc vox fuel r s = .ok (xs, u) → ApartHeard s u := by
  induction fuel with
  | zero => exact fun s u r xs h => nomatch h
  | succ fuel ih =>
    intro s u r xs h
    unfold State.insertGo at h
    split at h
    · obtain ⟨-, rfl⟩ := Prod.mk.inj (Except.ok.inj h)
      exact .inl (Apart.same s)
    · split at h
      · exact ih _ _ _ _ h
      · split at h
        · cases h
        · next hstep =>
          split at h
          · cases h
          · exact (insertStep_heard hfab desc _ r _ _ hstep).trans (ih _ _ _ _ h)

end

@[simp] theorem State.heard_active (s : State) : s.heard.active = s.active := rfl
@[simp] theorem State.heard_retired (s : State) (i : Instr) (t : State) : s.heard.retired i t = s.retired i t := rfl

theorem RegisterFrame.of_heard {s t : State} {ds dv : Nat → Prop} (h : RegisterFrame s.heard t ds dv) : RegisterFrame s t ds dv :=
  ⟨h.control, ⟨h.strands.held, h.strands.still⟩, h.fst, h.scalars, h.vectors, h.lanes, h.masks, h.warps, h.accs⟩

/-- An instruction that writes a run of vector registers after accesses to host memory. -/
theorem put_run_heard {i : Instr} {info : OpInfo} {body : Body} (hr : Runs i info body) {s u : State} {d n : Nat}
    {f : Nat → Nat → Word} (hready : ready i s = true) (hbody : body (s.atInstr i) = .ok (u.wrRun d s.active n f))
    (ha : ApartHeard (s.atInstr i) u) (hd : ∀ k, k < n → s.vname (d + k) = true) :
    ∃ t, exec i s = .next t ∧ t.mem = u.mem ∧ t.lineKeys = u.lineKeys ∧ t.cores = u.cores ∧
      (∀ k l, k < n → l < 32 → s.active.getLsbD l = true → laneOf (t.regV (d + k)) l = f k l) ∧
      RegisterFrame s t (fun _ => False) (fun j => ∃ k, k < n ∧ j = d + k) := by
  rcases ha with ha | ha
  · obtain ⟨t, hexec, -, ⟨hmem, hkeys, hcores, -⟩, hlanes, hframe⟩ := put_run hr hready hbody ha hd
    exact ⟨t, hexec, hmem, hkeys, hcores, hlanes, hframe⟩
  · have hready' : ready i s.heard = true := hready
    have ha' : Apart (s.heard.atInstr i) u := ha
    obtain ⟨hstays, hframe, hlanes⟩ := registerFrame_wrRun d n f hready' ha' hd
    simp only [State.heard_active, State.heard_retired] at hstays hframe hlanes
    obtain ⟨hwrote, -⟩ := wrRun_spec u d s.active n f (by rw [ha'.issue, ha'.warps]; exact ready_list hready')
      fun k hk => by rw [ha'.vname]; exact hd k hk
    exact ⟨_, hr.ok hready hbody, hstays.elsewhere.mem.trans hwrote.elsewhere.mem,
      hstays.elsewhere.lineKeys.trans hwrote.elsewhere.lineKeys, hstays.elsewhere.cores.trans hwrote.elsewhere.cores, hlanes,
      hframe.of_heard⟩

end Sys2Proof.Machine
end

section
/-! O50: VSTV, TACT and TINS (R226, R229 to R231). -/

namespace Sys2Proof.Machine

open Sys2Proof Laws

/-! VSTV (R229). -/

theorem runs_vstv (d a b : BitVec 7) : ∃ info, Runs (.vstv d a b) info (vstvBody d a b) := ⟨_, runs (fun _ => rfl) rfl rfl rfl⟩

/-- A lane of VSTV stores its value and then sets its bit of the vmask. -/
def vstvStore (s : State) (x : Nat × List Byte × Loc × Loc × Nat) : State :=
  ((s.storeLoc x.2.1 x.2.2.1).updateLanes 8 (fun _ old => (old ||| 2 ^ (x.2.2.2.2 % 64), old)) [(x.1, x.2.2.2.1)]).2

theorem vstvStore_apart (s : State) (x : Nat × List Byte × Loc × Loc × Nat) : Apart s (vstvStore s x) :=
  (apart_storeLoc s _ _).trans (Apart.updateLanes _ _ _ _)

theorem vstvBody_of_find {d a b : BitVec 7} {s s2 : State} {xs : List (Nat × List Byte × Loc × Loc × Nat)}
    (hfind : vstvFind d a b s = .ok (xs, s2)) : vstvBody d a b s = .ok (xs.foldl vstvStore s2) := by
  unfold vstvBody
  simp only [hfind]
  rfl

/-- An instruction that touches no register. -/
theorem keeps_registers {i : Instr} {info : OpInfo} {body : Body} (hr : Runs i info body) {s u : State} (hready : ready i s = true)
    (hbody : body (s.atInstr i) = .ok u) (ha : Apart (s.atInstr i) u) :
    ∃ t, exec i s = .next t ∧ t.mem = u.mem ∧ t.lineKeys = u.lineKeys ∧ t.cores = u.cores ∧ t.blocks = u.blocks ∧
      RegistersKept s t := by
  obtain ⟨hstays, hkept⟩ := registersKept_of hready ha
  obtain ⟨hmem, hkeys, -, -, -, -, -, hcores, -, hblocks, -⟩ := hstays.elsewhere
  exact ⟨_, hr.ok hready hbody, hmem, hkeys, hcores, hblocks, hkept⟩

theorem vstv_stores {d a b : BitVec 7} {s s2 : State} {xs : List (Nat × List Byte × Loc × Loc × Nat)}
    (hready : ready (.vstv d a b) s = true) (hfind : vstvFind d a b (s.atInstr (.vstv d a b)) = .ok (xs, s2)) :
    let u := xs.foldl vstvStore s2
    ∃ t, exec (.vstv d a b) s = .next t ∧ t.mem = u.mem ∧ t.lineKeys = u.lineKeys ∧ t.cores = u.cores ∧ t.blocks = u.blocks ∧
      RegistersKept s t := by
  obtain ⟨_, hr⟩ := runs_vstv d a b
  exact keeps_registers hr hready (vstvBody_of_find hfind)
    ((vstvFind_apart hfind).trans (Apart.foldl _ _ _ vstvStore_apart))

/-! TACT (R230). -/

theorem runs_tact (d a b : BitVec 7) : ∀ x ∈ [(Instr.tactSet d a b, true), (.tactClr d a b, false)],
    ∃ info, info.d = .vdst 1 ∧ Runs x.1 info (tactBody x.2 d a b) ∧ x.1.fields.extractLsb' 14 7 = d := by
  simp only [List.forall_mem_cons, List.not_mem_nil, false_implies, implies_true, and_true]
  and_intros <;> exact ⟨_, rfl, runs (fun _ => rfl) rfl rfl rfl, dField d a b⟩

theorem tactBody_of_find {set : Bool} {d a b : BitVec 7} {s s2 : State} {xs : List (Nat × Nat × Nat × Option Loc)}
    (hfind : tactFind set a b s = .ok (xs, s2)) : tactBody set d a b s = .ok (tactPut set d s xs s2) := by
  unfold tactBody
  simp only [hfind]

/-- The doublewords that a TACT updates. -/
def tactLocs (xs : List (Nat × Nat × Nat × Option Loc)) : List (Nat × Loc) :=
  xs.filterMap (fun y => y.2.2.2.map (fun z => (y.1, z)))

/-- What TACT writes for a lane: its code, or the old bit. -/
def tactWord (xs : List (Nat × Nat × Nat × Option Loc)) (vals : List (Nat × Nat)) (l : Nat) : Word :=
  match alGet xs l with
  | some (c, _, none) => BitVec.ofNat 32 c
  | some (_, j, some _) => BitVec.ofNat 32 ((alGet vals l).getD 0 / 2 ^ (j % 64) % 2)
  | none => 0

theorem tactPut_eq_wrRun (set : Bool) (d : BitVec 7) (s : State) (xs : List (Nat × Nat × Nat × Option Loc)) (u : State) :
    let r := u.updateLanes 8 (tactUpdate set xs) (tactLocs xs)
    tactPut set d s xs u = r.2.wrRun d.toNat s.active 1 (fun _ => tactWord xs r.1) := rfl

theorem tact_updates {i : Instr} {info : OpInfo} {set : Bool} {d a b : BitVec 7} (hr : Runs i info (tactBody set d a b))
    (hd : info.d = .vdst 1) (hfield : i.fields.extractLsb' 14 7 = d) {s s2 : State} {xs : List (Nat × Nat × Nat × Option Loc)}
    (hready : ready i s = true) (hfind : tactFind set a b (s.atInstr i) = .ok (xs, s2)) :
    let r := s2.updateLanes 8 (tactUpdate set xs) (tactLocs xs)
    ∃ t, exec i s = .next t ∧ t.mem = r.2.mem ∧ t.lineKeys = r.2.lineKeys ∧ t.cores = r.2.cores ∧ t.blocks = r.2.blocks ∧
      (∀ l, l < 32 → s.active.getLsbD l = true → laneOf (t.regV d.toNat) l = tactWord xs r.1 l) ∧
      RegisterFrame s t (fun _ => False) (fun j => j = d.toNat) := by
  intro r
  obtain ⟨t, hexec, -, ⟨hmem, hkeys, hcores, hblocks, -⟩, hlanes, hframe⟩ := put_run hr hready ((tactBody_of_find hfind).trans
    (congrArg Except.ok (tactPut_eq_wrRun set d _ xs s2))) ((tactFind_apart hfind).trans (Apart.updateLanes _ _ _ _))
    (vdst_run hr.info hready 1 (by decide) (.inl hd) hfield)
  refine ⟨t, hexec, hmem, hkeys, hcores, hblocks, fun l hl hact => hlanes 0 l (by decide) hl hact, ?_⟩
  have hone : (fun j => j = d.toNat) = fun j => ∃ k, k < 1 ∧ j = d.toNat + k := by
    funext j
    simp
  exact hone ▸ hframe

/-! TINS (R231). -/

/-- The three words that TINS writes for a lane: the status with the nodes made, and the leaf pointer. -/
def tinsWord (xs : List (Nat × Nat × Nat × Nat)) (k l : Nat) : Word :=
  let v := (alGet xs l).getD (0, 0, 0)
  match k with
  | 0 => BitVec.ofNat 32 (v.1 + v.2.1 % 4 * 4)
  | 1 => BitVec.ofNat 32 v.2.2
  | _ => BitVec.ofNat 32 (v.2.2 / 2 ^ 32)

theorem tinsPut_eq_words (d : BitVec 7) (s : State) (xs : List (Nat × Nat × Nat × Nat)) (u : State) :
    tinsPut d s xs u = u.wrRun d.toNat s.active 3 (tinsWord xs) := rfl

/-- A TINS completes from its answers, made in one step or access by access. -/
theorem tins_writes {d a b : BitVec 7} {s s2 : State} {xs : List (Nat × Nat × Nat × Nat)} (hready : ready (.tins d a b) s = true)
    (hbody : tinsBody d a b (s.atInstr (.tins d a b)) = .ok (tinsPut d (s.atInstr (.tins d a b)) xs s2))
    (ha : ApartHeard (s.atInstr (.tins d a b)) s2) :
    ∃ t, exec (.tins d a b) s = .next t ∧ t.mem = s2.mem ∧ t.lineKeys = s2.lineKeys ∧ t.cores = s2.cores ∧
      (∀ l, l < 32 → s.active.getLsbD l = true → let v := (alGet xs l).getD (0, 0, 0)
        laneOf (t.regV d.toNat) l = BitVec.ofNat 32 (v.1 + v.2.1 % 4 * 4) ∧
        laneOf (t.regV (d.toNat + 1)) l = BitVec.ofNat 32 v.2.2 ∧
        laneOf (t.regV (d.toNat + 2)) l = BitVec.ofNat 32 (v.2.2 / 2 ^ 32)) ∧
      RegisterFrame s t (fun _ => False) (fun j => ∃ k, k < 3 ∧ j = d.toNat + k) := by
  obtain ⟨_, hd, hr⟩ := runs_tins d a b
  obtain ⟨t, hexec, hmem, hkeys, hcores, hlanes, hframe⟩ := put_run_heard hr hready
    (hbody.trans (congrArg Except.ok (tinsPut_eq_words d _ xs s2))) ha
    (vdst_run hr.info hready 3 (by decide) (.inl hd) (dField d a b))
  exact ⟨t, hexec, hmem, hkeys, hcores, fun l hl hact => ⟨hlanes 0 l (by decide) hl hact, hlanes 1 l (by decide) hl hact,
    hlanes 2 l (by decide) hl hact⟩, hframe⟩

theorem tinsBody_goes_on {d a b : BitVec 7} {s s2 : State} {r : Insert} {xs : List (Nat × Nat × Nat × Nat)}
    (hins : s.issue.ins = some r)
    (hgo : State.insertGo s.who (descOf (s.rdS b.toNat)) (s.tinsVox a (treeHead r.desc.toNat)) 2048 r s = .ok (xs, s2)) :
    tinsBody d a b s = .ok (tinsPut d s xs s2) := by
  unfold tinsBody
  rw [hins]
  dsimp only
  unfold tinsGo
  rw [hgo]

/-- A lane's answer, the leaf pointer with the tag of pbase. -/
def tinsAnswer (pbase : Nat) (x : Nat × Nat × Nat × Nat) : Nat × Nat × Nat × Nat :=
  (x.1, x.2.1, x.2.2.1, if x.2.1 < 2 then nodePtr pbase x.2.2.2 else 0)

theorem tinsOpen_aside {b : BitVec 7} {s u : State} {dd : Nat} (hopen : tinsOpen b s = .ok (dd, u)) : SameAside s u := by
  unfold tinsOpen at hopen
  dsimp only at hopen
  split at hopen
  · cases hopen
  split at hopen
  · cases hopen
  split at hopen
  · cases hopen
  · cases hopen
  · cases hopen
  · next bs t hbytes =>
    split at hopen
    · cases hopen
    · obtain ⟨-, rfl⟩ := Prod.mk.inj (Except.ok.inj hopen)
      exact SameAside.acquireL1 (treeBytes_aside (fab_who s) s _ _ _ _ _ hbytes) _

/-- What TINS does for a lane in one step. -/
def tinsLane (a b : BitVec 7) (w : Who) (dd l : Nat) (s : State) : Tree (Nat × Nat × Nat) :=
  match s.tinsVox a (treeHead dd) l with
  | none => .ok ((3, 0, 0), s)
  | some u => s.insertFrom w (descOf (s.rdS b.toNat)) (treeHead dd) (field dd 256 64) (field dd 320 64) u 3 (treeHead dd).root 0

section
variable {a b : BitVec 7} {w : Who} {dd l : Nat} {s s' : State} {x : Nat × Nat × Nat}

theorem tinsLane_outside (hlane : tinsLane a b w dd l s = .ok (x, s')) (hvox : s.tinsVox a (treeHead dd) l = none) :
    x = (3, 0, 0) := by
  unfold tinsLane at hlane
  rw [hvox] at hlane
  exact (Prod.mk.inj (Except.ok.inj hlane)).1.symm

theorem tinsLane_inserts (hlane : tinsLane a b w dd l s = .ok (x, s')) {u : Nat × Nat × Nat}
    (hvox : s.tinsVox a (treeHead dd) l = some u) :
    s.insertFrom w (descOf (s.rdS b.toNat)) (treeHead dd) (field dd 256 64) (field dd 320 64) u 3 (treeHead dd).root 0 =
      .ok (x, s') := by
  unfold tinsLane at hlane
  rwa [hvox] at hlane

theorem tinsLane_aside (hfab : w.fab = false) : (tinsLane a b w dd l s).Leaves (SameAside s) := by
  unfold tinsLane
  split
  · exact .ret rfl
  · exact insertFrom_aside hfab _ _ _ _ _ 3 s _ _

end

theorem tinsVox_aside {s u : State} (h : SameAside s u) (a : BitVec 7) (d : TreeHead) (l : Nat) :
    u.tinsVox a d l = s.tinsVox a d l := by
  unfold State.tinsVox State.voxOf
  simp only [(Apart.aside h).lane]

/-- Each lane of TINS has status 3 where its voxel is outside the span, else what its insertion answers, the leaf pointer with
the tag of pbase. -/
theorem tinsFind_results {a b : BitVec 7} {s s2 : State} {xs : List (Nat × Nat × Nat × Nat)}
    (hfind : tinsFind a b s = .ok (xs, s2)) :
    ∃ dd s0, tinsOpen b s = .ok (dd, s0) ∧ ∀ l ∈ lanesOf s.activeReal,
      (s.tinsVox a (treeHead dd) l = none → alGet xs l = some (3, 0, 0)) ∧
      ∀ u, s.tinsVox a (treeHead dd) l = some u → ∃ (s1 : State) (st cnt p : Nat) (s3 : State),
        s1.insertFrom s.who (descOf (s.rdS b.toNat)) (treeHead dd) (field dd 256 64) (field dd 320 64) u 3 (treeHead dd).root 0 =
          .ok ((st, cnt, p), s3) ∧
        alGet xs l = some (st, cnt, if st < 2 then nodePtr (field dd 256 64) p else 0) := by
  unfold tinsFind at hfind
  dsimp only at hfind
  split at hfind
  · cases hfind
  next dd s1 hopen =>
  split at hfind
  · next ys s3 hrun =>
    obtain ⟨rfl, -⟩ := Prod.mk.inj (Except.ok.inj hfind)
    obtain ⟨-, hres⟩ := runLanes_results (f := quietLane (tinsLane a b s.who dd)) (P := SameAside s)
      (fun _ _ _ _ hu hlane => hu.trans (tinsLane_aside (fab_who s) _ _ (quietLane_ok hlane))) (tinsOpen_aside hopen) hrun
    refine ⟨dd, s1, hopen, fun l hl => ?_⟩
    obtain ⟨u, ⟨st, cnt, p⟩, s4, hu, hlane, hget⟩ := hres l hl
    replace hlane := quietLane_ok hlane
    have hans : alGet (ys.map (tinsAnswer (field dd 256 64))) l =
        some (st, cnt, if st < 2 then nodePtr (field dd 256 64) p else 0) := by
      rw [alGet_mapKeyed ys (tinsAnswer _) fun _ => rfl, hget]
      rfl
    rw [← tinsVox_aside hu, ← rdS_aside hu]
    refine ⟨fun hvox => hans.trans ?_, fun v hvox => ⟨u, st, cnt, p, s4, tinsLane_inserts hlane hvox, hans⟩⟩
    obtain ⟨rfl, rfl, rfl⟩ := by simpa only [Prod.mk.injEq] using tinsLane_outside hlane hvox
    rfl
  · cases hfind

/-! Item 1 of R226 comes first. -/

section
variable {d a b : BitVec 7} {s : State} (hbad : optBad (s.rdS b.toNat) false = true)
include hbad

theorem tlookBody_badOption : tlookBody d a b s = .error (.trap (TrapInfo.of eShape) s) := by
  unfold tlookBody tlookFind
  dsimp only
  rw [if_pos hbad]
  rfl

theorem vstvBody_badOption : vstvBody d a b s = .error (.trap (TrapInfo.of eShape) s) := by
  unfold vstvBody vstvFind
  dsimp only
  rw [if_pos hbad]
  rfl

theorem twalkBody_badOption : twalkBody d a b s = .error (.trap (TrapInfo.of eShape) s) := by
  unfold twalkBody twalkFind
  dsimp only
  rw [if_pos hbad]
  rfl

end

theorem badOption_traps (d a b : BitVec 7) : ∀ i ∈ [Instr.tlook d a b, .vstv d a b, .twalk d a b],
    TrapsWhen i (fun s => optBad (s.rdS b.toNat) false = true) (.shape, 0) := by
  obtain ⟨_, -, hlook⟩ := runs_tlook d a b
  obtain ⟨_, hstore⟩ := runs_vstv d a b
  obtain ⟨_, -, hwalk⟩ := runs_twalk d a b
  simp only [List.forall_mem_cons, List.not_mem_nil, false_implies, implies_true, and_true]
  exact ⟨traps_when hlook (by decide) fun _ _ => tlookBody_badOption, traps_when hstore (by decide) fun _ _ => vstvBody_badOption,
    traps_when hwalk (by decide) fun _ _ => twalkBody_badOption⟩

/-- Settles O50: R231's loop level by level and access by access, the lanes by what they find, and what each instruction leaves. -/
theorem voxelWritesUpdateTheirLeaves : Obligations.VoxelWritesUpdateTheirLeaves := by
  unfold Obligations.VoxelWritesUpdateTheirLeaves
  refine ⟨?level, fun pbase room hbase => nodePtr_parts room hbase, ?access, fun d a b => ⟨badOption_traps d a b, ?vstv, ?tact,
    ?tins, ?tinsFinds, ?tinsUnderWay⟩⟩
  case level =>
    intro s s1 w desc pbase pend lv n cnt h u
    refine ⟨fun s2 p hbit hptr halign => insertFrom_child hbit hptr halign, fun s2 old hbit hlock =>
      ⟨insertFrom_locked hbit hlock, fun hopen s3 room => ?_⟩, fun v hleaf => insertFrom_leaf hleaf⟩
    intro sz hroom
    refine ⟨fun s4 hend ⟨v, hfree⟩ => insertFrom_full hbit hlock hopen hroom hend hfree, ?_⟩
    intro tile x t s4 s5 s6 s7 s8 o hend p htile hval hnode hlink hchild ⟨v, hfree⟩
    exact insertFrom_makes hbit hlock hopen hroom hend htile hval hnode hlink hchild hfree
  case access =>
    intro s s1 w desc u r v hlv
    exact ⟨insertStep_looks hlv, insertStep_follows hlv, insertStep_locks hlv, insertStep_looksAgain hlv, insertStep_takesRoom hlv,
      insertStep_setsChild hlv, fun hphase hfree => (insertStep_frees hlv hfree).1 hphase,
      fun hphase hfree => (insertStep_frees hlv hfree).2.1 hphase, fun hphase hfree => (insertStep_frees hlv hfree).2.2 hphase,
      insertStep_links hlv⟩
  case vstv => exact fun s xs s2 hready hfind => vstv_stores hready hfind
  case tact =>
    intro x hx s xs s2 hready hfind
    obtain ⟨_, hd, hr, hfield⟩ := runs_tact d a b x hx
    exact tact_updates hr hd hfield hready hfind
  case tins =>
    exact fun s xs s2 hready hins hfind => tins_writes hready (tinsBody_ends hins hfind) (.inl (tinsFind_apart hfind))
  case tinsFinds =>
    intro s xs s2 hfind
    obtain ⟨dd, s0, hopen, hlanes⟩ := tinsFind_results hfind
    refine ⟨dd, s0, hopen, fun l hl => ?_⟩
    obtain ⟨hout, hin⟩ := hlanes l hl
    dsimp only
    split
    · next hvox => exact hout hvox
    · next u hvox => exact hin u hvox
  case tinsUnderWay =>
    exact fun s r xs s2 hready hins hgo => tins_writes hready (tinsBody_goes_on hins hgo)
      (insertGo_heard (fab_who s) _ _ _ _ _ _ _ hgo)

end Sys2Proof.Machine
end

section
/-! O51: TXB and TXS (R248, R249, R251 to R254). -/

namespace Sys2Proof.Machine

open Sys2Proof Laws

/-! TXB (R248, R249). -/

theorem runs_txb_mem (a imm : BitVec 7) : ∃ info, info.mem = false ∧ Runs (.txb a imm) info (txbBody a imm) :=
  ⟨_, rfl, runs (fun _ => rfl) rfl rfl rfl⟩

/-- The entry that a TXB installs: its table's address without the tag, and the bytes that it has read. -/
abbrev txbEntry (a : BitVec 7) (s : State) (v : Nat) : TexSlot :=
  ⟨s.who.asid, BitVec.ofNat 64 (fieldOf (s.rdS a.toNat) 0 57), BitVec.ofNat 9216 v, true⟩

section
variable {a imm : BitVec 7} {s u : State} {v : Nat}

theorem txbBody_unaligned (hp : fieldOf (s.rdS a.toNat) 0 7 ≠ 0) :
    txbBody a imm s = .error (.trap (TrapInfo.atAddr eAlign (s.rdS a.toNat).toNat) s) :=
  if_pos hp

variable (hp : fieldOf (s.rdS a.toNat) 0 7 = 0) (hlines : s.tableLines (s.rdS a.toNat).toNat 9 0 = .ok (v, u))
include hp hlines

theorem txbBody_malformed (hbad : tableBad v = true) :
    txbBody a imm s = .error (.trap (TrapInfo.atAddr eBadtable (s.rdS a.toNat).toNat) s) := by
  unfold txbBody
  simp [hp, hlines, hbad, trapA]

theorem txbBody_waits (hgood : tableBad v = false) (hroom : u.weightRoom s.cw.blk (fieldOf imm 0 4) (txbEntry a s v) = false) :
    txbBody a imm s =
      .error (.wait .weight 0 { u with issue := { u.issue with resp := tableKept (s.rdS a.toNat).toNat v } }) := by
  unfold txbBody
  simp [hp, hlines, hgood, hroom, waitE]

end

/-- A word of no memory access that waits at a chain with nothing in flight, with what it has read as answers. -/
theorem stops_waiting_answered {i : Instr} {info : OpInfo} {body : Body} {s u : State} {k : WaitKind} {n : Nat}
    {rs : List HostResp} (hr : Runs i info body) (hm : info.mem = false) (hready : ready i s = true) (hc : s.atChain)
    (ha : Apart (s.atInstr i) u)
    (hb : body (s.atInstr i) = .error (.wait k n { u with issue := { u.issue with resp := rs } })) :
    exec i s = .next (({ u with issue := { u.issue with resp := rs } } : State).setWait k n []) := by
  obtain ⟨hchain, hnone⟩ := hc
  have hsrc : u.issue.src ≠ .flight := by
    rw [ha.issue, show (s.atInstr i).issue.src = .chain from hchain]
    decide
  have hflight : u.cs.flight = [] := (congrArg Strand.flight ha.cs).trans hnone
  have hkeep : ∀ w, State.keep { u with issue := { u.issue with resp := rs } } false info w =
      { u with issue := { u.issue with resp := rs } } := fun _ => if_neg (by simp [hm])
  rw [hr.stop hready hb]
  show Host.Outcome.next (if u.issue.src = .flight then _ else if u.cs.flight ≠ [] && _ then _ else _) = _
  rw [if_neg hsrc, if_neg (by simp [hflight]), hkeep]

section
variable {a imm : BitVec 7} {s u : State} {v : Nat} (hready : ready (.txb a imm) s = true)
  (hp : fieldOf (s.rdS a.toNat) 0 7 = 0)
  (hlines : (s.atInstr (.txb a imm)).tableLines (s.rdS a.toNat).toNat 9 0 = .ok (v, u)) (hgood : tableBad v = false)
include hready hp hlines hgood

theorem txb_installs (hroom : u.weightRoom s.cw.blk (fieldOf imm 0 4) (txbEntry a s v) = true) :
    ∃ t, exec (.txb a imm) s = .next t ∧
      t.blocks = (u.setBlock s.cw.blk ((u.block s.cw.blk).setSlot (fieldOf imm 0 4) (txbEntry a s v))).blocks ∧
      t.mem = u.mem ∧ RegistersKept s t := by
  obtain ⟨_, -, hr⟩ := runs_txb_mem a imm
  obtain ⟨t, hexec, hmem, -, -, hblocks, hkept⟩ := keeps_registers hr hready
    (txbBody_ends (s := s.atInstr (.txb a imm)) hp hlines hgood hroom)
    ((tableLines_apart _ _ _ _ _ _ hlines).trans (Apart.setBlock _ _ (Block.setSlot _ _ _) rfl rfl))
  exact ⟨t, hexec, hblocks, hmem, hkept⟩

theorem txb_waits (hroom : u.weightRoom s.cw.blk (fieldOf imm 0 4) (txbEntry a s v) = false) (hc : s.atChain) :
    exec (.txb a imm) s =
      .next (({ u with issue := { u.issue with resp := tableKept (s.rdS a.toNat).toNat v } } : State).setWait .weight 0 []) := by
  obtain ⟨_, hm, hr⟩ := runs_txb_mem a imm
  exact stops_waiting_answered hr hm hready hc (tableLines_apart _ _ _ _ _ _ hlines)
    (txbBody_waits (s := s.atInstr (.txb a imm)) hp hlines hgood hroom)

end

/-! TXS (R251 to R254). -/

theorem runs_txs (d a b : BitVec 7) : ∀ x ∈ [(Instr.txsL d a b, false), (.txsG d a b, true)],
    ∃ info, info.mem = true ∧ info.d = .vdst 4 ∧ Runs x.1 info (txsBody x.2 d a b) ∧ x.1.fields.extractLsb' 14 7 = d := by
  simp only [List.forall_mem_cons, List.not_mem_nil, false_implies, implies_true, and_true]
  and_intros <;> exact ⟨_, rfl, rfl, runs (fun _ => rfl) rfl rfl rfl, dField d a b⟩

theorem txs_writes {i : Instr} {info : OpInfo} {g : Bool} {d a b : BitVec 7} (hr : Runs i info (txsBody g d a b))
    (hd : info.d = .vdst 4) (hfield : i.fields.extractLsb' 14 7 = d) {s s2 : State} {xs : List (Nat × List Nat)}
    (hready : ready i s = true) (hfind : txsFind g a b (s.atInstr i) = .ok (xs, s2)) :
    ∃ t, exec i s = .next t ∧
      (∀ k l, k < 4 → l < 32 → s.active.getLsbD l = true →
        laneOf (t.regV (d.toNat + k)) l = BitVec.ofNat 32 (nth ((alGet xs l).getD []) k 0)) ∧
      RegisterFrame s t (fun _ => False) (fun j => ∃ k, k < 4 ∧ j = d.toNat + k) := by
  obtain ⟨t, hexec, -, -, hlanes, hframe⟩ := put_run hr hready ((txsBody_ends hfind).trans
    (congrArg Except.ok (txsPut_eq_wrRun d _ xs s2))) (txsFind_apart hfind)
    (vdst_run hr.info hready 4 (by decide) (.inl hd) hfield)
  exact ⟨t, hexec, hlanes, hframe⟩

/-! R252's checks, in their order. -/

theorem txsBody_of_stop {g : Bool} {d a b : BitVec 7} {s : State} {p : Stop} (hfind : txsFind g a b s = .error p) :
    txsBody g d a b s = .error p := by
  unfold txsBody
  rw [hfind]

/-- The slot that a TXS names is bound and its table installed, its option bits are clear, and no fetch issued earlier is in the
sampler queue. -/
structure TxsBound (b : BitVec 7) (s : State) (k : TexSlot) : Prop where
  options : fieldOf (s.rdS b.toNat) 4 2 = 0
  slot : (s.block s.cw.blk).slot (fieldOf (s.rdS b.toNat) 0 4) = some k
  installed : k.installed = true
  first : s.fetchBefore = false

section
variable {g : Bool} {a b : BitVec 7} {s : State}

theorem txsFind_badOptions (hoptions : fieldOf (s.rdS b.toNat) 4 2 ≠ 0) :
    txsFind g a b s = .error (.trap (TrapInfo.of eShape) s) :=
  if_pos hoptions

theorem txsFind_unbound (hoptions : fieldOf (s.rdS b.toNat) 4 2 = 0)
    (hslot : (s.block s.cw.blk).slot (fieldOf (s.rdS b.toNat) 0 4) = none) :
    txsFind g a b s = .error (.trap (TrapInfo.of eBadtable) s) := by
  unfold txsFind
  simp [hoptions, hslot, trapE]

variable {k : TexSlot} (hbound : TxsBound b s k)
include hbound

theorem txsFind_unread {o p : Nat} {e : Err} {u : State}
    (hread : s.lineRead8 0 ((s.rdS b.toNat).toNat / 64 * 64) 64 = .error (.bad o e p u)) :
    txsFind g a b s = .error (memStop s e (TrapInfo.atAddr e p)) := by
  obtain ⟨hoptions, hslot, hinstalled, hfirst⟩ := hbound
  unfold txsFind
  simp [hoptions, hslot, hinstalled, hfirst, hread]

theorem txsFind_malformed {dv : Nat} {u : State}
    (hread : s.lineRead8 0 ((s.rdS b.toNat).toNat / 64 * 64) 64 = .ok (dv, u)) (hbad : texBad dv = true) :
    txsFind g a b s = .error (.trap (TrapInfo.atAddr eBadtex ((s.rdS b.toNat).toNat / 64 * 64)) s) := by
  obtain ⟨hoptions, hslot, hinstalled, hfirst⟩ := hbound
  unfold txsFind
  simp [hoptions, hslot, hinstalled, hfirst, hread, hbad, trapA]

end

/-! The lanes' samples (R253). -/

/-- A real lane of an instruction whose helper lanes load too has what it finds (R38). -/
theorem treeLanes_results {α : Type} {s s' : State} {run : Nat} {k : WaitKind} {f : Nat → State → Tree α}
    {xs : List (Nat × α)} {P : State → Prop} (hkeep : ∀ l s x s', P s → f l s = .ok (x, s') → P s') (hs : P s)
    (hlanes : s.treeLanes run k f = .ok (xs, s')) :
    ∀ l ∈ lanesOf s.activeReal, ∃ s1 x s3, P s1 ∧ f l s1 = .ok (x, s3) ∧ alGet xs l = some x := by
  unfold State.treeLanes at hlanes
  split at hlanes
  · next ys s1 hrun =>
    obtain ⟨-, hres⟩ := runLanes_results hkeep hs hrun
    dsimp only at hlanes
    split at hlanes
    · obtain ⟨rfl, -⟩ := Prod.mk.inj (Except.ok.inj hlanes)
      intro l hl
      obtain ⟨s2, x, s3, hs2, hx, hget⟩ := hres l hl
      exact ⟨s2, x, s3, hs2, hx, by rw [alGet_append, hget]; rfl⟩
    · cases hlanes
  · cases hlanes

/-- A TXS that finds its lanes' samples has passed R252's checks, and each real lane has what it samples through the slot. -/
theorem txsFind_results {g : Bool} {a b : BitVec 7} {s s2 : State} {xs : List (Nat × List Nat)}
    (hfind : txsFind g a b s = .ok (xs, s2)) :
    ∃ k dv, (s.block s.cw.blk).slot (fieldOf (s.rdS b.toNat) 0 4) = some k ∧ texBad dv = false ∧
      ∀ l ∈ lanesOf s.activeReal, ∃ (s1 : State) (v : List Nat) (s3 : State),
        s1.sampleLane g (texDesc dv) k.table.toNat (s.lane a.toNat l) (s.lane (a.toNat + 1) l) = .ok (v, s3) ∧
        alGet xs l = some v := by
  unfold txsFind at hfind
  dsimp only at hfind
  split at hfind
  · cases hfind
  split at hfind
  · cases hfind
  next k hslot =>
  split at hfind
  · cases hfind
  generalize hinstalled : (if k.installed = true then s
      else s.setBlock s.cw.blk ((s.block s.cw.blk).setSlot (fieldOf (s.rdS b.toNat) 0 4) { k with installed := true })) = s0 at hfind
  have ha : Apart s s0 := hinstalled ▸ Apart.ite (Apart.same s) (Apart.setBlock s _ (Block.setSlot _ _ _) rfl rfl)
  split at hfind
  · cases hfind
  split at hfind
  · cases hfind
  · cases hfind
  · cases hfind
  next dv s1 hread =>
  split at hfind
  · cases hfind
  next hgood =>
  split at hfind
  · cases hfind
  next ys s3 hlanes =>
  have ha1 := ha.trans (lineRead8_apart hread)
  have hreal := treeLanes_results (P := Apart s) (fun _ _ _ _ hu hlane => hu.trans (sampleLane_apart hlane)) ha1 hlanes
  rw [ha1.activeReal] at hreal
  split at hfind
  · cases hfind
  obtain ⟨rfl, -⟩ := Prod.mk.inj (Except.ok.inj hfind)
  refine ⟨k, dv, hslot, Bool.eq_false_iff.2 hgood, fun l hl => ?_⟩
  obtain ⟨u, v, u', hu, hsample, hget⟩ := hreal l hl
  rw [hu.lane, hu.lane] at hsample
  exact ⟨u, v, u', hsample, hget⟩

section
variable {s : State} {t : TexDesc} {table : Nat} {u v : Word}
  (hnot : ¬ (∃ g m e, decodeF fp32 u.toNat = .fin g m e) ∨ ¬ (∃ g m e, decodeF fp32 v.toNat = .fin g m e))
include hnot

theorem texTaps_notFinite : texTaps false t u v = none := by
  unfold texTaps
  rw [if_neg Bool.false_ne_true]
  split
  · next hu hv => exact absurd hnot (by simp [hu, hv])
  · rfl

theorem sampleLane_notFinite : s.sampleLane false t table u v = .ok (List.replicate 4 0x7FC00000, s) := by
  unfold State.sampleLane
  rw [texTaps_notFinite hnot]
  rfl

end

/-! The stop of lanes each of which meets a condition (R159, R252). -/

/-- A lane with the order of its condition, the condition, its address and the state that its reads have left. -/
abbrev LaneCond := Nat × Nat × Err × Nat × State

abbrev LaneCond.stop (x : LaneCond) : Nat × TreeStop := (x.1, .bad x.2.1 x.2.2.1 x.2.2.2.1 x.2.2.2.2)

/-- The first of the conditions of the earliest order is that of its lowest lane. -/
theorem earliest_lane {cs : List LaneCond} (hne : cs ≠ []) (hlanes : cs.Pairwise (fun x y => x.1 < y.1)) {n : Nat}
    (hn : ∀ x ∈ cs, x.2.1 ≤ n) :
    ∃ c tl, cs.filter (fun x => x.2.1 = cs.foldl (fun m x => min m x.2.1) n) = c :: tl ∧ c ∈ cs ∧
      ∀ x ∈ cs, c.2.1 ≤ x.2.1 ∧ (x.2.1 = c.2.1 → c.1 ≤ x.1) := by
  obtain ⟨y, hy⟩ := Option.ne_none_iff_exists'.1 (mt List.argmin_eq_none.1 hne : cs.argmin (fun x => x.2.1) ≠ none)
  have hmem : y ∈ cs := List.argmin_mem hy
  have hmin : ∀ x ∈ cs, y.2.1 ≤ x.2.1 := fun x hx => List.le_of_mem_argmin (f := fun x : LaneCond => x.2.1) hx hy
  rw [foldl_min_eq (fun x : LaneCond => x.2.1) cs (hn y hmem) hmin (.inr ⟨y, hmem, rfl⟩)]
  have hin : ∀ {x}, x ∈ cs → x.2.1 = y.2.1 → x ∈ cs.filter (fun x => x.2.1 = y.2.1) :=
    fun hx hxy => List.mem_filter.2 ⟨hx, by simpa using hxy⟩
  have hsorted := hlanes.filter (fun x => decide (x.2.1 = y.2.1))
  cases hhit : cs.filter (fun x => x.2.1 = y.2.1) with
  | nil => exact absurd (hin hmem rfl) (by simp [hhit])
  | cons c tl =>
    obtain ⟨hc, horder⟩ := List.mem_filter.1 (hhit ▸ List.mem_cons_self .. : c ∈ cs.filter (fun x => x.2.1 = y.2.1))
    have hcy : c.2.1 = y.2.1 := by simpa using horder
    refine ⟨c, tl, rfl, hc, fun x hx => ⟨hcy ▸ hmin x hx, fun hxc => ?_⟩⟩
    rw [hhit] at hsorted
    rcases List.mem_cons.1 (hhit ▸ hin hx (hxc.trans hcy)) with rfl | htl
    · exact le_rfl
    · exact ((List.pairwise_cons.1 hsorted).1 x htl).le

/-- The earliest condition that a lane meets decides, and its lowest lane is recorded with its address. -/
theorem treeStop_conditions {cs : List LaneCond} (hne : cs ≠ []) (hlanes : cs.Pairwise (fun x y => x.1 < y.1))
    (horder : ∀ x ∈ cs, x.2.1 ≤ 100000) (s z : State) (k : WaitKind) (run : Nat) :
    ∃ l o e p u i, (l, o, e, p, u) ∈ cs ∧ (∀ x ∈ cs, o ≤ x.2.1 ∧ (x.2.1 = o → l ≤ x.1)) ∧
      treeStop s z k run (cs.map LaneCond.stop) = memStop z e i ∧
      i.cause = e.1 ∧ i.sub = e.2 ∧ i.lane = l ∧ i.addr = BitVec.ofNat 64 p := by
  obtain ⟨⟨l, o, e, p, u⟩, tl, hhit, hmem, hfirst⟩ := earliest_lane hne hlanes horder
  unfold treeStop
  dsimp only
  simp only [List.flatMap_map, List.filterMap_map, Function.comp_def, List.flatMap_eq_nil_iff.2 fun _ _ => rfl, List.filterMap_eq_map', List.foldl_map,
    List.filter_map, hhit]
  exact ⟨l, o, e, p, u, _, hmem, hfirst, rfl, rfl, rfl, rfl, rfl⟩

/-- Settles O51: TXB by what it reads and the room for it, TXS by R252's checks one by one and by what its lanes sample, and the
lanes' conditions by the first of the earliest order. -/
theorem texturesBindAndSample : Obligations.TexturesBindAndSample := by
  unfold Obligations.TexturesBindAndSample
  intro d a b imm
  refine ⟨?txb, ?writes, ?checks, fun s t table u v => sampleLane_notFinite, fun s z k run bs hne hlanes horder =>
    treeStop_conditions hne hlanes horder s z k run⟩
  case txb =>
    obtain ⟨_, -, hr⟩ := runs_txb_mem a imm
    refine ⟨trapsAt_of_body hr (by decide) fun _ => txbBody_unaligned, trapsAt_of_body hr (by decide) ?_,
      fun s v u hready hp hlines hgood => ⟨txb_installs hready hp hlines hgood, txb_waits hready hp hlines hgood⟩⟩
    exact fun _ ⟨hp, _, _, hlines, hbad⟩ => txbBody_malformed hp hlines hbad
  case writes =>
    intro x hx s xs s2 hready hfind
    obtain ⟨_, -, hd, hr, hfield⟩ := runs_txs d a b x hx
    exact txs_writes hr hd hfield hready hfind
  case checks =>
    intro x hx
    obtain ⟨_, hmem, -, hr, -⟩ := runs_txs d a b x hx
    refine ⟨traps_when hr (by decide) ?options, traps_when hr (by decide) ?slot, ?unread, trapsAt_of_body hr (by decide) ?malformed,
      fun _ _ _ => txsFind_results⟩
    case options => exact fun _ _ hoptions => txsBody_of_stop (txsFind_badOptions hoptions)
    case slot => exact fun _ _ ⟨hoptions, hslot⟩ => txsBody_of_stop (txsFind_unbound hoptions hslot)
    case unread =>
      intro s k o e p u hready ⟨h1, h2, h3, h4⟩ hread hearly
      exact (memStop_stops hr hmem hready rfl (txsBody_of_stop (txsFind_unread ⟨h1, h2, h3, h4⟩ hread)) rfl).precise hearly
    case malformed =>
      exact fun _ ⟨_, _, _, ⟨h1, h2, h3, h4⟩, hread, hbad⟩ => txsBody_of_stop (txsFind_malformed ⟨h1, h2, h3, h4⟩ hread hbad)

end Sys2Proof.Machine
end

section
/-! O52: CULL, VBRD, PEXP, OBLD, OBLE, KSRT and BINC (R259, R260, R264, R266, R267, R346, R370, R377). -/

namespace Sys2Proof.Machine

open Sys2Proof Laws

/-- A word that leaves the registers alone retires from the state of its meaning. -/
theorem retires_kept {i : Instr} {info : OpInfo} {body : Body} (hr : Runs i info body) {s u : State} (hready : ready i s = true)
    (hbody : body (s.atInstr i) = .ok u) (ha : Apart (s.atInstr i) u) :
    ∃ t, exec i s = .next t ∧ t = s.retired i u ∧ RegistersKept s t :=
  ⟨_, hr.ok hready hbody, rfl, (registersKept_of hready ha).2⟩

/-! CULL (R259, R358) and VBRD (R264). -/

theorem runs_cull (d a b : BitVec 7) : ∃ info, info.d = .vdst 1 ∧ Runs (.cull d a b) info (cullBody d a b) :=
  ⟨_, rfl, runs (fun _ => rfl) rfl rfl rfl⟩

theorem runs_vbrd (d a b : BitVec 7) : ∃ info, info.d = .vdst 3 ∧ Runs (.vbrd d a b) info (vbrdBody d a b) :=
  ⟨_, rfl, runs (fun _ => rfl) rfl rfl rfl⟩

theorem cullBody_of_open {d a b : BitVec 7} {s u : State} {p dv : Nat} (hopen : s.drawOpen b false = .ok (p, dv, u)) :
    cullBody d a b s =
      .ok (u.wrRun d.toNat s.active 1 fun _ l => BitVec.ofNat 32 (cullCode dv (s.triOf a l))) := by
  unfold cullBody
  rw [hopen]
  rfl

theorem cull_writes {d a b : BitVec 7} {s u : State} {p dv : Nat} (hready : ready (.cull d a b) s = true)
    (hopen : (s.atInstr (.cull d a b)).drawOpen b false = .ok (p, dv, u)) :
    ∃ t, exec (.cull d a b) s = .next t ∧
      (∀ l, l < 32 → s.active.getLsbD l = true → laneOf (t.regV d.toNat) l = BitVec.ofNat 32 (cullCode dv (s.triOf a l))) ∧
      RegisterFrame s t (fun _ => False) (fun j => j = d.toNat) := by
  obtain ⟨_, hd, hr⟩ := runs_cull d a b
  obtain ⟨t, hexec, -, -, hlanes, hframe⟩ := put_run hr hready (cullBody_of_open hopen) (drawOpen_apart hopen)
    (vdst_run hr.info hready 1 (by decide) (.inl hd) (dField d a b))
  have hone : (fun j => ∃ k, k < 1 ∧ j = d.toNat + k) = fun j => j = d.toNat := by
    funext j
    simp
  exact ⟨t, hexec, fun l hl hact => hlanes 0 l Nat.one_pos hl hact, hone ▸ hframe⟩

theorem vbrdBody_of_find {d a b : BitVec 7} {s s2 : State} {xs : List (Nat × Nat)} (hfind : vbrdFind a b s = .ok (xs, s2)) :
    vbrdBody d a b s =
      .ok (s2.wrRun d.toNat s.active 3 fun k l => BitVec.ofNat 32 ((alGet xs l).getD 0 / 2 ^ (32 * k))) := by
  unfold vbrdBody
  rw [hfind]
  rfl

theorem vbrd_writes {d a b : BitVec 7} {s s2 : State} {xs : List (Nat × Nat)} (hready : ready (.vbrd d a b) s = true)
    (hfind : vbrdFind a b (s.atInstr (.vbrd d a b)) = .ok (xs, s2)) :
    ∃ t, exec (.vbrd d a b) s = .next t ∧
      (∀ k l, k < 3 → l < 32 → s.active.getLsbD l = true →
        laneOf (t.regV (d.toNat + k)) l = BitVec.ofNat 32 ((alGet xs l).getD 0 / 2 ^ (32 * k))) ∧
      RegisterFrame s t (fun _ => False) (fun j => ∃ k, k < 3 ∧ j = d.toNat + k) := by
  obtain ⟨_, hd, hr⟩ := runs_vbrd d a b
  obtain ⟨t, hexec, -, -, hlanes, hframe⟩ := put_run hr hready (vbrdBody_of_find hfind) (vbrdFind_apart hfind)
    (vdst_run hr.info hready 3 (by decide) (.inl hd) (dField d a b))
  exact ⟨t, hexec, hlanes, hframe⟩

/-! PEXP (R260, R261, R378). -/

theorem runs_pexp (d a b : BitVec 7) : ∃ info, info.mem = false ∧ Runs (.pexp d a b) info (pexpBody d a b) :=
  ⟨_, rfl, runs (fun _ => rfl) rfl rfl rfl⟩

/-- A draw takes no primitives: it flushes, stands at a fault, or has binning left. -/
def Draw.occupied (x : Draw) : Bool := x.flushing || x.stopped.isSome || x.prims.any (fun q => !q.binned)

theorem Draw.occupied_iff (x : Draw) :
    x.occupied = true ↔ x.flushing = true ∨ x.stopped ≠ none ∨ ∃ q ∈ x.prims, q.binned = false := by
  simp only [Draw.occupied, Bool.or_eq_true, List.any_eq_true, Bool.not_eq_true', Option.isSome_iff_ne_none, or_assoc]

theorem Draw.not_occupied {x : Draw} (hflush : x.flushing = false) (hstop : x.stopped = none)
    (hbinned : ∀ q ∈ x.prims, q.binned = true) : ¬ x.occupied = true := by
  rw [Draw.occupied_iff]
  rintro (h | h | ⟨q, hq, h⟩)
  · exact Bool.false_ne_true (hflush.symm.trans h)
  · exact h hstop
  · exact Bool.false_ne_true (h.symm.trans (hbinned q hq))

/-- The die on which an instruction issues. -/
abbrev State.issueDie (s : State) : Nat := dieOf (s.coreOfWarp s.issue.warp)

/-- The place of the draw that the issuing launch has open at a descriptor's address. -/
def State.openDraw (s : State) (p : Nat) : Option Nat :=
  firstIdx (fun (x : Draw) => x.launch = (s.block s.cw.blk).launch && fieldOf x.desc 0 57 = field p 0 57) (s.die s.issueDie).draws

/-- The primitives that PEXP exports, one for each real lane. -/
def State.pexpPrims (s : State) (dv : Nat) (d a : BitVec 7) : List Prim := (lanesOf s.activeReal).map (s.primOf dv d a)

/-- A draw takes further primitives, and is binned as far as it may be. -/
def State.addPrims (u : State) (die k : Nat) (x : Draw) (ps : List Prim) : State :=
  (u.setDraw die k { x with prims := x.prims ++ ps }).binAll die k (3 * ps.length + 1)

/-- A die has a draw more, which is binned as far as it may be. -/
def State.addDraw (u : State) (die : Nat) (x : Draw) : State :=
  (u.setDie die { u.die die with draws := (u.die die).draws ++ [x] }).binAll die (u.die die).draws.length (3 * x.prims.length + 1)

/-- The draw that a PEXP opens. -/
def State.newDraw (s : State) (p dv : Nat) (ps : List Prim) : Draw :=
  ⟨s.ctxOfWarp s.issue.warp, BitVec.ofNat 64 p, BitVec.ofNat 512 dv, (s.block s.cw.blk).launch, ps, 0, false, none, [], []⟩

section
variable {d a b : BitVec 7} {s u : State} {p dv : Nat} (hopen : s.drawOpen b false = .ok (p, dv, u))
include hopen

theorem pexpBody_at_open {k : Nat} {x : Draw} (hk : s.openDraw p = some k) (hx : u.drawAt s.issueDie k = some x) :
    pexpBody d a b s =
      if x.occupied = true then waitE s .flush else .ok (u.addPrims s.issueDie k x (s.pexpPrims dv d a)) := by
  unfold State.openDraw State.issueDie at hk
  unfold State.issueDie at hx
  unfold pexpBody
  simp only [hopen, hk, hx]
  rfl

theorem pexpBody_opens (hnone : s.openDraw p = none) :
    pexpBody d a b s = .ok (u.addDraw s.issueDie (s.newDraw p dv (s.pexpPrims dv d a))) := by
  unfold State.openDraw State.issueDie at hnone
  unfold pexpBody
  simp only [hopen, hnone]
  rfl

end

/-! OBLE (R267, R377). -/

theorem runs_oble (a b : BitVec 7) : ∃ info, Runs (.oble a b) info (obleBody a b) := ⟨_, runs (fun _ => rfl) rfl rfl rfl⟩

theorem obleBody_raises {a b : BitVec 7} {s u : State} {locs : List (Nat × Loc)}
    (hopen : s.domainOpen .write a b = .ok (locs, u))
    (hasked : lanesAsked s.issue.resp 1 (fun l => 4 + 256 * (l + 1))
      (fun l p pa => ⟨1, p, 4 + 256 * (l + 1), pa, 0, [1], [], none⟩) locs = .ok []) :
    obleBody a b s =
      .ok ((u.releaseL1 (s.coreOfWarp s.issue.warp)).updateLanes 4 (fun _ v => (v + 1, v)) locs).2 := by
  unfold obleBody
  simp only [hopen, hasked]

/-! Riddle jobs (R266, R346, R370). -/

theorem runs_job (a : BitVec 7) : ∀ x ∈ [(Instr.ksrtK32 a, 0), (.ksrtK64 a, 1), (.binc a, 2)],
    ∃ info, Runs x.1 info (jobBody x.2 a) := by
  simp only [List.forall_mem_cons, List.not_mem_nil, false_implies, implies_true, and_true]
  exact ⟨runs_ksrtK32 a, runs_ksrtK64 a, runs_binc a⟩

/-- The job that KSRT or BINC submits. -/
def State.newJob (s : State) (kind : Nat) (a : BitVec 7) : Job :=
  ⟨s.ctxOfWarp s.issue.warp, s.rdS a.toNat, kind, s.issue.warp, s.coreOfWarp s.issue.warp, [], [], none⟩

/-- A job is appended to its die's queue. -/
def State.addJob (u : State) (die : Nat) (j : Job) : State := u.setDie die { u.die die with jobs := (u.die die).jobs ++ [j] }

@[simp] theorem addJob_mem (u : State) (die : Nat) (j : Job) : (u.addJob die j).mem = u.mem := rfl

theorem addJob_jobs {u : State} {die : Nat} (j : Job) (hdie : die < u.dies.length) :
    ((u.addJob die j).die die).jobs = (u.die die).jobs ++ [j] := by
  unfold State.addJob
  rw [find_die u die _ hdie]

theorem Apart.addJob {s u : State} (h : Apart s u) (die : Nat) (j : Job) : Apart s (u.addJob die j) := h.trans (Apart.setDie u die _)

theorem ctxOfWarp_aside {s t : State} (h : t.aside = s.aside) (w : Nat) : t.ctxOfWarp w = s.ctxOfWarp w := by
  obtain ⟨hblocks, -, hlaunches⟩ := aside_fields h
  unfold State.ctxOfWarp State.launchOf State.block State.warp
  rw [hblocks, hlaunches, (Apart.aside h).warps]

theorem jobBody_submits {kind : Nat} {a : BitVec 7} {s : State} (hp : fieldOf (s.rdS a.toNat) 0 6 = 0)
    (hroom : (s.die s.issueDie).jobs.length < Config.jobDepth) :
    jobBody kind a s = .ok ((s.releaseL1 (s.coreOfWarp s.issue.warp)).addJob s.issueDie (s.newJob kind a)) := by
  have haside := releaseL1_aside s (s.coreOfWarp s.issue.warp)
  unfold jobBody
  dsimp only
  rw [if_neg (not_not.mpr hp), if_neg (Nat.not_le.mpr hroom), ctxOfWarp_aside haside, (Apart.aside haside).issue]
  rfl

theorem job_submits {i : Instr} {info : OpInfo} {kind : Nat} {a : BitVec 7} (hr : Runs i info (jobBody kind a)) {s : State}
    (hready : ready i s = true) (hp : fieldOf (s.rdS a.toNat) 0 6 = 0)
    (hroom : (s.die s.issueDie).jobs.length < Config.jobDepth) (hdie : s.issueDie < s.dies.length) :
    ∃ t, exec i s = .next t ∧ t.mem = ((s.atInstr i).releaseL1 (s.coreOfWarp s.issue.warp)).mem ∧
      (t.die s.issueDie).jobs = (s.die s.issueDie).jobs ++ [s.newJob kind a] ∧ RegistersKept s t := by
  have hbody : jobBody kind a (s.atInstr i) =
      .ok (((s.atInstr i).releaseL1 (s.coreOfWarp s.issue.warp)).addJob s.issueDie (s.newJob kind a)) :=
    jobBody_submits (s := s.atInstr i) hp hroom
  have haside := releaseL1_aside (s.atInstr i) (s.coreOfWarp s.issue.warp)
  have hdies : ((s.atInstr i).releaseL1 (s.coreOfWarp s.issue.warp)).dies = s.dies := (aside_fields haside).2.1
  have ha := (Apart.aside haside).addJob s.issueDie (s.newJob kind a)
  obtain ⟨-, -, -, hretired, -, hmem⟩ := retired_same hready ha
  refine ⟨_, hr.ok hready hbody, hmem.trans (addJob_mem _ _ _), ?_, (registersKept_of hready ha).2⟩
  rw [die_of_dies hretired, addJob_jobs _ (hdies.symm ▸ hdie), die_of_dies hdies]

/-- Settles O52: each meaning where its checks pass, by what it answers; PEXP by the draw that is open, free or occupied. -/
theorem drawsBlendsAndJobs : Obligations.DrawsBlendsAndJobs := by
  unfold Obligations.DrawsBlendsAndJobs
  intro d a b
  refine ⟨fun s p dv u hready hopen => cull_writes hready hopen, fun s xs s2 hready hfind => vbrd_writes hready hfind,
    ?pexp, ?obld, ?oble, ?jobs⟩
  case pexp =>
    intro s p dv u hready hopen
    obtain ⟨_, hmem, hr⟩ := runs_pexp d a b
    refine ⟨?adds, ?waits, fun hnone => hr.ok hready (pexpBody_opens hopen hnone)⟩
    case adds =>
      intro k x hk hx hflush hstop hbinned
      exact hr.ok hready ((pexpBody_at_open hopen hk hx).trans (if_neg (Draw.not_occupied hflush hstop hbinned)))
    case waits =>
      intro k x hk hx hoccupied hchain
      exact stops_waiting hr hmem hready hchain (Apart.same _)
        ((pexpBody_at_open hopen hk hx).trans (if_pos (x.occupied_iff.2 hoccupied)))
  case obld =>
    intro s locs u hready hopen hasked r hall
    obtain ⟨_, hr⟩ := runs_obld a b
    exact retires_kept hr hready (obldBody_ends hopen hasked hall)
      (((domainOpen_apart hopen).trans (obldFold_apart _ _ locs (true, u))).trans (Apart.acquireL1 _ _))
  case oble =>
    intro s locs u hready hopen hasked
    obtain ⟨_, hr⟩ := runs_oble a b
    exact retires_kept hr hready (obleBody_raises hopen hasked)
      (((domainOpen_apart hopen).trans (Apart.releaseL1 _ _)).trans (Apart.updateLanes _ _ _ _))
  case jobs =>
    intro x hx
    obtain ⟨_, hr⟩ := runs_job a x hx
    exact ⟨trapsAt_of_body hr (by decide) fun _ hp => if_pos hp,
      fun s hready hp hroom hdie => job_submits hr hready hp hroom hdie⟩

end Sys2Proof.Machine
end

section
/-! Scalar arithmetic (R389, R390). -/

namespace Sys2Proof.Machine
open Sys2Proof

/-- An instruction that runs a meaning whose destination is the scalar register that the word's d field names. -/
structure ScalarWord (i : Instr) (d : BitVec 7) (body : Body) : Prop where
  dest : i.fields.extractLsb' 14 7 = d
  runs : ∃ info, (info.fmt ≠ .B ∧ (info.d = .sdst ∨ info.d = .sboth)) ∧ Runs i info body

section
variable {i : Instr} {d a b : BitVec 7} {body : Body} {f : DWord → DWord → DWord}

theorem ScalarWord.dab {info : OpInfo} {n : Nat} (hx : ∀ s, exec i s = perform (wordDab n d a b) body s)
    (hin : opInfo n = some info) (hdst : info.fmt ≠ .B ∧ info.d = .sdst) (ho : i.opcode = n) (hg : i.fields = d ++ a ++ b) :
    ScalarWord i d body :=
  ⟨hg ▸ dField d a b, info, ⟨hdst.1, .inl hdst.2⟩, Machine.runs hx hin ho hg⟩

theorem ScalarWord.result (h : ScalarWord i d body) (g : State → DWord)
    (hb : ∀ s : State, body (s.atInstr i) = .ok ((s.atInstr i).wrS d.toNat (g s))) : ScalarResult i d g := by
  obtain ⟨hdest, _, hinfo, hr⟩ := h
  exact Laws.scalar_of_body hr hdest hinfo hb

/-- A meaning that is one function of s[a] and s[b] gives any function equal to it. -/
theorem sArith_result (g : DWord → DWord → DWord) (h : ScalarWord i d (sArith d a b f)) (hfg : ∀ x y, f x y = g x y) :
    ScalarResult i d (fun s => g (s.rdS a.toNat) (s.rdS b.toNat)) :=
  h.result _ fun s => Laws.wrS_congr _ _ _ _ (hfg (s.rdS a.toNat) (s.rdS b.toNat))

theorem sUnary_result (g : DWord → DWord) (h : ScalarWord i d (sUnary d a g)) :
    ScalarResult i d (fun s => g (s.rdS a.toNat)) := h.result _ fun _ => rfl

end

theorem mulHighS_eq (x y : DWord) : mulHighS x y = BitVec.ofInt 64 (x.toInt * y.toInt / 2 ^ 64) := by
  unfold mulHighS
  rw [Laws.wrap_high64, Laws.sext_eq_toInt 64 x (by decide), Laws.sext_eq_toInt 64 y (by decide)]

/-- A sum modulo 2^64 with a signed addend (R390). -/
theorem ofNat_add64 (x : DWord) (n : Int) : BitVec.ofNat 64 (add64 x n) = x + BitVec.ofInt 64 n := by
  apply BitVec.eq_of_toNat_eq
  rw [BitVec.toNat_ofNat, BitVec.toNat_add, BitVec.toNat_ofInt]
  unfold add64 wrap
  norm_num
  omega

theorem slt_iff {n : Nat} (x y : BitVec n) : x.slt y = true ↔ x.toInt < y.toInt := BitVec.slt_iff_toInt_lt
theorem ult_iff {n : Nat} (x y : BitVec n) : x.ult y = true ↔ x.toNat < y.toNat := BitVec.ult_iff_toNat_lt

/-- The lesser or greater of two words by a comparison of their values. -/
theorem pick_slt {n : Nat} (x y : BitVec n) {α : Type} (u v : α) :
    (if x.slt y then u else v) = if x.toInt < y.toInt then u else v := if_congr (slt_iff x y) rfl rfl
theorem pick_ult {n : Nat} (x y : BitVec n) {α : Type} (u v : α) :
    (if x.ult y then u else v) = if x.toNat < y.toNat then u else v := if_congr (ult_iff x y) rfl rfl

theorem saddImm_word (d a imm : BitVec 7) : ScalarWord (.saddImm d a imm) d
    (fun s => .ok (s.wrS d.toNat (BitVec.ofNat 64 (add64 (s.rdS a.toNat) (s.imm 7 imm.toNat))))) :=
  .dab (fun _ => rfl) rfl ⟨by decide, rfl⟩ rfl rfl

/-- Settles O9: each instruction is its function of two registers, or of one and an immediate. -/
theorem scalarArithmeticWritesItsResult : Obligations.ScalarArithmeticWritesItsResult := by
  unfold Obligations.ScalarArithmeticWritesItsResult
  intro d a b
  refine ⟨?sadd, ?saddImm, ?ssub, ?smul, ?smulhS, ?smulhU, ?sand, ?sor, ?sxor, ?sshl, ?sshlImm, ?sshr, ?sshrImm, ?ssra,
    ?ssraImm, ?sminS, ?sminU, ?smaxS, ?smaxU⟩
  case sadd => exact sArith_result (fun x y => x + y) (.dab (fun _ => rfl) rfl ⟨by decide, rfl⟩ rfl rfl) fun _ _ => rfl
  case saddImm =>
    exact (saddImm_word d a b).result _ fun s =>
      Laws.wrS_congr _ _ _ _ (ofNat_add64 (s.rdS a.toNat) (s.imm 7 b.toNat))
  case ssub => exact sArith_result (fun x y => x - y) (.dab (fun _ => rfl) rfl ⟨by decide, rfl⟩ rfl rfl) fun _ _ => rfl
  case smul => exact sArith_result (fun x y => x * y) (.dab (fun _ => rfl) rfl ⟨by decide, rfl⟩ rfl rfl) fun _ _ => rfl
  case smulhS =>
    exact sArith_result (fun x y => BitVec.ofInt 64 (x.toInt * y.toInt / 2 ^ 64))
      (.dab (fun _ => rfl) rfl ⟨by decide, rfl⟩ rfl rfl) mulHighS_eq
  case smulhU =>
    exact sArith_result (fun x y => BitVec.ofNat 64 (x.toNat * y.toNat / 2 ^ 64))
      (.dab (fun _ => rfl) rfl ⟨by decide, rfl⟩ rfl rfl) fun _ _ => rfl
  case sand => exact sArith_result (fun x y => x &&& y) (.dab (fun _ => rfl) rfl ⟨by decide, rfl⟩ rfl rfl) fun _ _ => rfl
  case sor => exact sArith_result (fun x y => x ||| y) (.dab (fun _ => rfl) rfl ⟨by decide, rfl⟩ rfl rfl) fun _ _ => rfl
  case sxor => exact sArith_result (fun x y => x ^^^ y) (.dab (fun _ => rfl) rfl ⟨by decide, rfl⟩ rfl rfl) fun _ _ => rfl
  case sshl =>
    exact sArith_result (fun x y => x <<< (y.toNat % 64))
      (.dab (fun _ => rfl) rfl ⟨by decide, rfl⟩ rfl rfl) fun x y => congrArg (x <<< ·) (Laws.sCount_eq y)
  case sshlImm => exact sUnary_result (fun x => x <<< b.toNat) (.dab (fun _ => rfl) rfl ⟨by decide, rfl⟩ rfl rfl)
  case sshr =>
    exact sArith_result (fun x y => x >>> (y.toNat % 64))
      (.dab (fun _ => rfl) rfl ⟨by decide, rfl⟩ rfl rfl) fun x y => congrArg (x >>> ·) (Laws.sCount_eq y)
  case sshrImm => exact sUnary_result (fun x => x >>> b.toNat) (.dab (fun _ => rfl) rfl ⟨by decide, rfl⟩ rfl rfl)
  case ssra =>
    exact sArith_result (fun x y => x.sshiftRight (y.toNat % 64))
      (.dab (fun _ => rfl) rfl ⟨by decide, rfl⟩ rfl rfl) fun x y => congrArg x.sshiftRight (Laws.sCount_eq y)
  case ssraImm => exact sUnary_result (fun x => x.sshiftRight b.toNat) (.dab (fun _ => rfl) rfl ⟨by decide, rfl⟩ rfl rfl)
  case sminS =>
    exact sArith_result (fun x y => if x.toInt < y.toInt then x else y)
      (.dab (fun _ => rfl) rfl ⟨by decide, rfl⟩ rfl rfl) fun x y => pick_slt x y x y
  case sminU =>
    exact sArith_result (fun x y => if x.toNat < y.toNat then x else y)
      (.dab (fun _ => rfl) rfl ⟨by decide, rfl⟩ rfl rfl) fun x y => pick_ult x y x y
  case smaxS =>
    exact sArith_result (fun x y => if x.toInt < y.toInt then y else x)
      (.dab (fun _ => rfl) rfl ⟨by decide, rfl⟩ rfl rfl) fun x y => pick_slt x y y x
  case smaxU =>
    exact sArith_result (fun x y => if x.toNat < y.toNat then y else x)
      (.dab (fun _ => rfl) rfl ⟨by decide, rfl⟩ rfl rfl) fun x y => pick_ult x y y x

end Sys2Proof.Machine
end

section
/-! The vector integer instructions (R395 to R397). -/

namespace Sys2Proof.Machine
open Sys2Proof

section
variable {i : Instr} {d a b : BitVec 7} {body : Body}

theorem LaneWord.writes (h : LaneWord i d body) (f g : State → Nat → Word)
    (hb : ∀ s : State, body (s.atInstr i) = .ok ((s.atInstr i).wrLanes d.toNat s.active (f s)))
    (hfg : ∀ s l, f s l = g s l) :
    VectorResult i d g := by
  obtain ⟨hdest, _, hdst, hr⟩ := h
  exact Laws.lanes_of_body hr hdest hdst f hb hfg

theorem vArith_result {f : Word → Word → Word} (g : Word → Word → Word) (h : LaneWord i d (vArith d a b f))
    (hfg : ∀ x y, f x y = g x y) : VectorResult i d (fun s l => g (s.lane a.toNat l) (s.lane b.toNat l)) :=
  h.writes _ _ (fun _ => rfl) fun _ _ => hfg _ _

theorem vTernary_result (f : Word → Word → Word → Word) (h : LaneWord i d (vTernary d a b f)) :
    VectorResult i d (fun s l => f (s.lane a.toNat l) (s.lane b.toNat l) (s.lane d.toNat l)) :=
  h.writes _ _ (fun _ => rfl) fun _ _ => rfl

theorem vUnary_result {f : Word → Word} (g : Word → Word) (h : LaneWord i d (vUnary d a f)) (hfg : ∀ x, f x = g x) :
    VectorResult i d (fun s l => g (s.lane a.toNat l)) :=
  h.writes _ _ (fun _ => rfl) fun _ _ => hfg _

theorem vCompare_result {info : OpInfo} {f : Word → Word → Bool} (p : Word → Word → Prop) [∀ x y, Decidable (p x y)]
    (hr : Runs i info (vCompare d a b f)) (hd : i.fields.extractLsb' 14 7 = d) (hinfo : info.fmt ≠ .B ∧ info.d = .kdst)
    (hfp : ∀ x y, f x y = true ↔ p x y) : MaskResult i d (fun s l => decide (p (s.lane a.toNat l) (s.lane b.toNat l))) :=
  Laws.mask_of_body hr hd hinfo (fun s l => f (s.lane a.toNat l) (s.lane b.toNat l)) (fun _ => rfl) fun _ _ =>
    Bool.eq_iff_iff.mpr ((hfp _ _).trans decide_eq_true_iff.symm)

end

theorem signed_eq (x : Word) : signed x = x.toInt := Laws.sext_eq_toInt 32 x (by decide)

/-- A clamped sum or difference of signed words (R118). -/
theorem satWord_eq (op : Int → Int → Int) (x y : Word) : satWord (op (signed x) (signed y)) =
    BitVec.ofInt 32 (max (-2147483648) (min 2147483647 (op x.toInt y.toInt))) := by
  rw [signed_eq, signed_eq]
  exact Laws.clamp32_eq _

theorem vMulHighS_eq (x y : Word) : vMulHighS x y = BitVec.ofInt 32 (x.toInt * y.toInt / 2 ^ 32) := by
  unfold vMulHighS
  rw [Laws.wrap_high32, signed_eq, signed_eq]

/-- Settles O11: each instruction is its function of two or three lanes, each compare its predicate of two. -/
theorem vectorIntegerWritesActiveLanes : Obligations.VectorIntegerWritesActiveLanes := by
  unfold Obligations.VectorIntegerWritesActiveLanes
  refine ⟨fun d a b => ?_, fun d a b => ?_⟩
  · refine ⟨?vadd, ?vaddSat, ?vsub, ?vsubSat, ?vmulLo, ?vmulHiS, ?vmulHiU, ?vmad, ?vand, ?vor, ?vxor, ?vshl, ?vshr, ?vsra,
      ?vminS, ?vminU, ?vmaxS, ?vmaxU, ?vsel⟩
    case vadd => exact vArith_result (fun x y => x + y) (.dab (fun _ => rfl) rfl (.inl rfl) rfl rfl) fun _ _ => rfl
    case vaddSat =>
      exact vArith_result (fun x y => BitVec.ofInt 32 (max (-2147483648) (min 2147483647 (x.toInt + y.toInt))))
        (.dab (fun _ => rfl) rfl (.inl rfl) rfl rfl) (satWord_eq (· + ·))
    case vsub => exact vArith_result (fun x y => x - y) (.dab (fun _ => rfl) rfl (.inl rfl) rfl rfl) fun _ _ => rfl
    case vsubSat =>
      exact vArith_result (fun x y => BitVec.ofInt 32 (max (-2147483648) (min 2147483647 (x.toInt - y.toInt))))
        (.dab (fun _ => rfl) rfl (.inl rfl) rfl rfl) (satWord_eq (· - ·))
    case vmulLo => exact vArith_result (fun x y => x * y) (.dab (fun _ => rfl) rfl (.inl rfl) rfl rfl) fun _ _ => rfl
    case vmulHiS =>
      exact vArith_result (fun x y => BitVec.ofInt 32 (x.toInt * y.toInt / 2 ^ 32))
        (.dab (fun _ => rfl) rfl (.inl rfl) rfl rfl) vMulHighS_eq
    case vmulHiU =>
      exact vArith_result (fun x y => BitVec.ofNat 32 (x.toNat * y.toNat / 2 ^ 32))
        (.dab (fun _ => rfl) rfl (.inl rfl) rfl rfl) fun _ _ => rfl
    case vmad => exact vTernary_result (fun x y z => x * y + z) (.dab (fun _ => rfl) rfl (.inr rfl) rfl rfl)
    case vand => exact vArith_result (fun x y => x &&& y) (.dab (fun _ => rfl) rfl (.inl rfl) rfl rfl) fun _ _ => rfl
    case vor => exact vArith_result (fun x y => x ||| y) (.dab (fun _ => rfl) rfl (.inl rfl) rfl rfl) fun _ _ => rfl
    case vxor => exact vArith_result (fun x y => x ^^^ y) (.dab (fun _ => rfl) rfl (.inl rfl) rfl rfl) fun _ _ => rfl
    case vshl =>
      exact vArith_result (fun x y => x <<< (y.toNat % 32))
        (.dab (fun _ => rfl) rfl (.inl rfl) rfl rfl) fun x y => congrArg (x <<< ·) (Laws.vCount_eq y)
    case vshr =>
      exact vArith_result (fun x y => x >>> (y.toNat % 32))
        (.dab (fun _ => rfl) rfl (.inl rfl) rfl rfl) fun x y => congrArg (x >>> ·) (Laws.vCount_eq y)
    case vsra =>
      exact vArith_result (fun x y => x.sshiftRight (y.toNat % 32))
        (.dab (fun _ => rfl) rfl (.inl rfl) rfl rfl) fun x y => congrArg x.sshiftRight (Laws.vCount_eq y)
    case vminS =>
      exact vArith_result (fun x y => if x.toInt < y.toInt then x else y)
        (.dab (fun _ => rfl) rfl (.inl rfl) rfl rfl) fun x y => pick_slt x y x y
    case vminU =>
      exact vArith_result (fun x y => if x.toNat < y.toNat then x else y)
        (.dab (fun _ => rfl) rfl (.inl rfl) rfl rfl) fun x y => pick_ult x y x y
    case vmaxS =>
      exact vArith_result (fun x y => if x.toInt < y.toInt then y else x)
        (.dab (fun _ => rfl) rfl (.inl rfl) rfl rfl) fun x y => pick_slt x y y x
    case vmaxU =>
      exact vArith_result (fun x y => if x.toNat < y.toNat then y else x)
        (.dab (fun _ => rfl) rfl (.inl rfl) rfl rfl) fun x y => pick_ult x y y x
    case vsel => exact vTernary_result (fun x y z => if z ≠ 0 then x else y) (.dab (fun _ => rfl) rfl (.inr rfl) rfl rfl)
  · refine ⟨?eq, ?ne, ?lt, ?le, ?ltu, ?leu⟩
    case eq =>
      exact vCompare_result (fun x y => x = y) (runs (fun _ => rfl) rfl rfl rfl) (dField d a b) ⟨by decide, rfl⟩
        fun _ _ => beq_iff_eq
    case ne =>
      exact vCompare_result (fun x y => x ≠ y) (runs (fun _ => rfl) rfl rfl rfl) (dField d a b) ⟨by decide, rfl⟩
        fun _ _ => bne_iff_ne
    case lt =>
      exact vCompare_result (fun x y => x.toInt < y.toInt) (runs (fun _ => rfl) rfl rfl rfl) (dField d a b) ⟨by decide, rfl⟩
        slt_iff
    case le =>
      exact vCompare_result (fun x y => x.toInt ≤ y.toInt) (runs (fun _ => rfl) rfl rfl rfl) (dField d a b) ⟨by decide, rfl⟩
        fun _ _ => BitVec.sle_iff_toInt_le
    case ltu =>
      exact vCompare_result (fun x y => x.toNat < y.toNat) (runs (fun _ => rfl) rfl rfl rfl) (dField d a b) ⟨by decide, rfl⟩
        ult_iff
    case leu =>
      exact vCompare_result (fun x y => x.toNat ≤ y.toNat) (runs (fun _ => rfl) rfl rfl rfl) (dField d a b) ⟨by decide, rfl⟩
        fun _ _ => BitVec.ule_iff_toNat_le

theorem vmovBc_word (d a : BitVec 7) : LaneWord (.vmovBc d a) d
    (fun s => .ok (s.wrLanes d.toNat s.active fun _ => lowWord (s.rdS a.toNat))) :=
  .dab (fun _ => rfl) rfl (.inl rfl) rfl rfl

theorem vmovRd_word (d a b : BitVec 7) : ScalarWord (.vmovRd d a b) d
    (fun s => .ok (s.wrS d.toNat ((s.lane a.toNat (fieldOf (s.rdS b.toNat) 0 5)).setWidth 64))) :=
  .dab (fun _ => rfl) rfl ⟨by decide, rfl⟩ rfl rfl

theorem vbfeU_word (d a b : BitVec 7) : LaneWord (.vbfeU d a b) d (vArith d a b (bitExtract false)) :=
  .dab (fun _ => rfl) rfl (.inl rfl) rfl rfl

theorem vbfeS_word (d a b : BitVec 7) : LaneWord (.vbfeS d a b) d (vArith d a b (bitExtract true)) :=
  .dab (fun _ => rfl) rfl (.inl rfl) rfl rfl

theorem vbfi_result (d a b : BitVec 7) : VectorResult (.vbfi d a b) d
    (fun s l => bitInsert (s.lane a.toNat l) (s.lane b.toNat l) (s.lane d.toNat l)) :=
  vTernary_result bitInsert (.dab (fun _ => rfl) rfl (.inr rfl) rfl rfl)

/-- Settles O12: each instruction is its function of lanes; VMOV.rd reads the lane that s[b] names. -/
theorem vectorMovesCountsAndBitFields : Obligations.VectorMovesCountsAndBitFields := by
  unfold Obligations.VectorMovesCountsAndBitFields
  intro d a b
  refine ⟨?vmov, ?vmovBc, ?vpopc, ?vclz, ?vbfeU, ?vbfeS, ?vbfi, ?vmovRd⟩
  case vmov => exact vUnary_result (fun x => x) (.dab (fun _ => rfl) rfl (.inl rfl) rfl rfl) fun _ => rfl
  case vmovBc =>
    exact (vmovBc_word d a).writes _ _ (fun _ => rfl) fun s _ => lowWord_eq (s.rdS a.toNat)
  case vpopc =>
    exact vUnary_result (fun x => BitVec.ofNat 32 (((List.range 32).filter (fun i => x.getLsbD i)).length))
      (.dab (fun _ => rfl) rfl (.inl rfl) rfl rfl) fun x => congrArg (BitVec.ofNat 32) (Laws.popCount_eq 32 x.toNat)
  case vclz =>
    exact vUnary_result (fun x => BitVec.ofNat 32 (if x = 0 then 32 else 31 - Nat.log2 x.toNat))
      (.dab (fun _ => rfl) rfl (.inl rfl) rfl rfl) fun x => congrArg (BitVec.ofNat 32) (Laws.leadZeros_eq 32 x)
  case vbfeU =>
    exact (vbfeU_word d a b).writes _ _ (fun _ => rfl) fun _ _ => Laws.bitExtract_unsigned _ _
  case vbfeS =>
    exact (vbfeS_word d a b).writes _ _ (fun _ => rfl) fun _ _ => Laws.bitExtract_signed _ _
  case vbfi =>
    intro s hready
    obtain ⟨t, hexec, hlanes, hfst, hframe⟩ := vbfi_result d a b s hready
    refine ⟨t, hexec, hfst, fun l hl hact k hk => ?_, hframe⟩
    rw [hlanes l hl, if_pos hact]
    exact Laws.bitInsert_bit _ _ _ k hk
  case vmovRd =>
    exact (vmovRd_word d a b).result _ fun s =>
      Laws.wrS_congr _ _ _ _ (congrArg (fun l => (s.lane a.toNat l).setWidth 64) (Laws.shuffleCount_eq s b))

end Sys2Proof.Machine
end

section
/-! Comparisons (R363), packed 16-bit and FP64 arithmetic (R359, R368, R369). -/

namespace Sys2Proof.Machine
open Sys2Proof

section
variable {i : Instr} {info : OpInfo} {d a b : BitVec 7}

/-- A comparison writes its predicate's bits and notes the flags of the lanes that are no helpers (R363). -/
theorem fpCompare_result (c : Cmp) (x y : State → Nat → FVal) (hr : Runs i info (fpCompare d.toNat c x y))
    (hd : i.fields.extractLsb' 14 7 = d) (hinfo : info.fmt ≠ .B ∧ info.d = .kdst) (hx : ∀ s l, x (s.atInstr i) l = x s l)
    (hy : ∀ s l, y (s.atInstr i) l = y s l) : FpMaskResult i d (fun s l => cmpVal c (x s l) (y s l)) := by
  refine Laws.fpMask_of_body hr hd hinfo fun s => ?_
  unfold fpCompare
  simp only [hx, hy]
  rfl

theorem fCompare_result (c : Cmp) (hr : Runs i info (fCompare c d a b)) (hd : i.fields.extractLsb' 14 7 = d)
    (hinfo : info.fmt ≠ .B ∧ info.d = .kdst) :
    FpMaskResult i d (fun s l => cmpVal c (s.f32 a.toNat l) (s.f32 b.toNat l)) :=
  fpCompare_result c _ _ hr hd hinfo (fun _ _ => rfl) fun _ _ => rfl

theorem dCompare_result (c : Cmp) (hr : Runs i info (dCompare c d a b)) (hd : i.fields.extractLsb' 14 7 = d)
    (hinfo : info.fmt ≠ .B ∧ info.d = .kdst) :
    FpMaskResult i d (fun s l => cmpVal c (s.f64 a.toNat l) (s.f64 b.toNat l)) :=
  fpCompare_result c _ _ hr hd hinfo (fun _ _ => rfl) fun _ _ => rfl

theorem packed_result (f : Fmt) (op : RMode → FVal → FVal → FVal → Exact) (h : LaneWord i d (packed f d a b op)) :
    FpResult i d (fun s l => packedLane f s (op s.cw.rmode) (s.lane a.toNat l) (s.lane b.toNat l) (s.lane d.toNat l)) :=
  h.result fun _ _ => rfl

theorem dArith_result (f : State → Nat → Exact) (hf : ∀ s l, f (s.atInstr i) l = f s l) (h : PairWord i d (dArith d f)) :
    FpPairResult i d (fun s l => finish fp64 s.cw.rmode s.cw.fz64 (f s l)) :=
  PairWord.result h fun s l => congrArg (finish fp64 s.cw.rmode s.cw.fz64) (hf s l)

end

/-- Settles O14: each is one comparison, of single or of double lanes. -/
theorem fpComparesWriteMaskBits : Obligations.FpComparesWriteMaskBits := by
  unfold Obligations.FpComparesWriteMaskBits
  intro d a b
  refine ⟨?fEq, ?fNe, ?fLt, ?fLe, ?fUn, ?fOrd, ?dEq, ?dLt, ?dLe, ?dUn⟩
  case fEq => exact fCompare_result .eq (runs (fun _ => rfl) rfl rfl rfl) (dField d a b) ⟨by decide, rfl⟩
  case fNe => exact fCompare_result .ne (runs (fun _ => rfl) rfl rfl rfl) (dField d a b) ⟨by decide, rfl⟩
  case fLt => exact fCompare_result .lt (runs (fun _ => rfl) rfl rfl rfl) (dField d a b) ⟨by decide, rfl⟩
  case fLe => exact fCompare_result .le (runs (fun _ => rfl) rfl rfl rfl) (dField d a b) ⟨by decide, rfl⟩
  case fUn => exact fCompare_result .un (runs (fun _ => rfl) rfl rfl rfl) (dField d a b) ⟨by decide, rfl⟩
  case fOrd => exact fCompare_result .ord (runs (fun _ => rfl) rfl rfl rfl) (dField d a b) ⟨by decide, rfl⟩
  case dEq => exact dCompare_result .eq (runs (fun _ => rfl) rfl rfl rfl) (dField d a b) ⟨by decide, rfl⟩
  case dLt => exact dCompare_result .lt (runs (fun _ => rfl) rfl rfl rfl) (dField d a b) ⟨by decide, rfl⟩
  case dLe => exact dCompare_result .le (runs (fun _ => rfl) rfl rfl rfl) (dField d a b) ⟨by decide, rfl⟩
  case dUn => exact dCompare_result .un (runs (fun _ => rfl) rfl rfl rfl) (dField d a b) ⟨by decide, rfl⟩

/-- Settles O16: each packed instruction is its operation on both halves, each FP64 one its operation on pairs. -/
theorem packedAndDoubleArithmetic : Obligations.PackedAndDoubleArithmetic := by
  unfold Obligations.PackedAndDoubleArithmetic
  intro d a b
  refine ⟨?haddF16, ?haddBf16, ?hmulF16, ?hmulBf16, ?hfmaF16, ?hfmaBf16, ?dadd, ?dmul, ?dfma, ?ddiv, ?dsqrt⟩
  case haddF16 => exact packed_result fp16 (fun m x y _ => addExact m x y) (.dab (fun _ => rfl) rfl (.inl rfl) rfl rfl)
  case haddBf16 => exact packed_result bf16 (fun m x y _ => addExact m x y) (.dab (fun _ => rfl) rfl (.inl rfl) rfl rfl)
  case hmulF16 => exact packed_result fp16 (fun _ x y _ => mulExact x y) (.dab (fun _ => rfl) rfl (.inl rfl) rfl rfl)
  case hmulBf16 => exact packed_result bf16 (fun _ x y _ => mulExact x y) (.dab (fun _ => rfl) rfl (.inl rfl) rfl rfl)
  case hfmaF16 => exact packed_result fp16 fmaExact (.dab (fun _ => rfl) rfl (.inr rfl) rfl rfl)
  case hfmaBf16 => exact packed_result bf16 fmaExact (.dab (fun _ => rfl) rfl (.inr rfl) rfl rfl)
  case dadd =>
    exact dArith_result (fun s l => addExact s.cw.rmode (s.f64 a.toNat l) (s.f64 b.toNat l)) (fun _ _ => rfl)
      (.dab (fun _ => rfl) rfl (.inl rfl) rfl rfl)
  case dmul =>
    exact dArith_result (fun s l => mulExact (s.f64 a.toNat l) (s.f64 b.toNat l)) (fun _ _ => rfl)
      (.dab (fun _ => rfl) rfl (.inl rfl) rfl rfl)
  case dfma =>
    exact dArith_result (fun s l => fmaExact s.cw.rmode (s.f64 a.toNat l) (s.f64 b.toNat l) (s.f64 d.toNat l)) (fun _ _ => rfl)
      (.dab (fun _ => rfl) rfl (.inr rfl) rfl rfl)
  case ddiv =>
    exact dArith_result (fun s l => divExact (s.f64 a.toNat l) (s.f64 b.toNat l)) (fun _ _ => rfl)
      (.dab (fun _ => rfl) rfl (.inl rfl) rfl rfl)
  case dsqrt =>
    exact dArith_result (fun s l => sqrtExact (s.f64 a.toNat l)) (fun _ _ => rfl) (.dab (fun _ => rfl) rfl (.inl rfl) rfl rfl)

end Sys2Proof.Machine
end

section
/-! XSHF and XBAL (R403, R404), and the floating sums of XRED and XSCAN (R311, R405, R406). -/

namespace Sys2Proof.Machine
open Sys2Proof

/-- XSHF gives each active lane the value of its source lane, zero from a dead one (R403). -/
theorem shuffle_result {i : Instr} {d a : BitVec 7} {f : State → Nat → Nat} (g : State → Nat → Nat)
    (h : LaneWord i d (shuffle d a f)) (hf : ∀ s l, f (s.atInstr i) l = f s l) (hfg : ∀ s l, f s l = g s l) :
    VectorResult i d (fun s l => if s.cw.lanes.getLsbD (g s l) then s.lane a.toNat (g s l) else 0) := by
  refine h.writes (fun s l => if s.cw.lanes.getLsbD (f s l) then s.lane a.toNat (f s l) else 0) _ (fun s => ?_)
    fun s l => Laws.live_lane_congr s a _ _ (hfg s l)
  unfold shuffle
  simp only [hf]
  rfl

/-- Settles O18: each variant by its source lane. -/
theorem xshfReadsItsSourceLane : Obligations.XshfReadsItsSourceLane := by
  unfold Obligations.XshfReadsItsSourceLane
  intro d a b
  refine ⟨?idx, ?up, ?down, ?xor⟩
  case idx =>
    exact shuffle_result (fun s l => (s.lane b.toNat l).toNat % 32) (.dab (fun _ => rfl) rfl (.inl rfl) rfl rfl)
      (fun _ _ => rfl) fun s l => Laws.vCount_eq (s.lane b.toNat l)
  case up =>
    exact shuffle_result (fun s l => if (s.rdS b.toNat).toNat % 32 ≤ l then l - (s.rdS b.toNat).toNat % 32 else l)
      (.dab (fun _ => rfl) rfl (.inl rfl) rfl rfl) (fun _ _ => rfl) fun s l =>
      congrArg (fun n => if n ≤ l then l - n else l) (Laws.shuffleCount_eq s b)
  case down =>
    exact shuffle_result (fun s l => if l + (s.rdS b.toNat).toNat % 32 ≤ 31 then l + (s.rdS b.toNat).toNat % 32 else l)
      (.dab (fun _ => rfl) rfl (.inl rfl) rfl rfl) (fun _ _ => rfl) fun s l =>
      congrArg (fun n => if l + n ≤ 31 then l + n else l) (Laws.shuffleCount_eq s b)
  case xor =>
    exact shuffle_result (fun s l => l ^^^ (s.rdS b.toNat).toNat % 32) (.dab (fun _ => rfl) rfl (.inl rfl) rfl rfl)
      (fun _ _ => rfl) fun s l => congrArg (l ^^^ ·) (Laws.shuffleCount_eq s b)

/-- The lanes that XBAL gathers (R404). -/
def State.nonzeroLanes (s : State) (a : BitVec 7) : Mask := s.activeReal &&& maskOf (fun l => s.lane a.toNat l ≠ 0)

theorem nonzeroLanes_bit (s : State) (a : BitVec 7) (l : Nat) : (s.nonzeroLanes a).getLsbD l =
    decide (l < 32 ∧ s.active.getLsbD l = true ∧ s.cw.helpers.getLsbD l = false ∧ s.lane a.toNat l ≠ 0) := by
  unfold State.nonzeroLanes State.activeReal
  rw [BitVec.getLsbD_and, BitVec.getLsbD_and, BitVec.getLsbD_not, maskOf_bit]
  by_cases hl : l < 32 <;> cases s.active.getLsbD l <;> cases s.cw.helpers.getLsbD l <;> simp [hl]

theorem xbal_result (d a : BitVec 7) : ScalarResult (.xbal d a) d (fun s => (s.nonzeroLanes a).setWidth 64) :=
  ScalarWord.result (body := fun s => .ok (s.wrS d.toNat ((s.nonzeroLanes a).setWidth 64)))
    (.dab (a := a) (b := 0) (n := 0x149) (fun _ => rfl) rfl ⟨by decide, rfl⟩ rfl rfl) _ fun _ => rfl

/-- Settles O20: the bits of the mask that XBAL writes. -/
theorem xbalGathersTheNonzeroLanes : Obligations.XbalGathersTheNonzeroLanes := by
  unfold Obligations.XbalGathersTheNonzeroLanes
  intro d a s hready
  obtain ⟨t, hexec, hreg, hfst, hframe⟩ := xbal_result d a s hready
  refine ⟨t, hexec, fun l hl => ?_, hfst, hframe⟩
  rw [hreg, BitVec.getLsbD_setWidth, nonzeroLanes_bit]
  simp [hl]

theorem xredAddF32_word (d a : BitVec 7) : ScalarWord (.xredAddF32 d a) d (reduceAddF32 d a) :=
  .dab (fun _ => rfl) rfl ⟨by decide, rfl⟩ rfl rfl

theorem xredAddF32_result (d a : BitVec 7) : FpScalarResult (.xredAddF32 d a) d
    (fun s => (BitVec.ofNat 64 (partialBits (reduceSum s a)), partialFlags (reduceSum s a))) := by
  obtain ⟨hdest, _, ⟨hfmt, hdst⟩, hr⟩ := xredAddF32_word d a
  exact fpScalar_result hr (fun _ h => ready_sdst hr.info h hfmt hdst hdest) fun s => reduceAddF32_eq (s.atInstr _) d a

theorem xscanAddF32_word (d a : BitVec 7) : LaneWord (.xscanAddF32 d a) d (scanAddF32 d a) :=
  .dab (fun _ => rfl) rfl (.inl rfl) rfl rfl

theorem scanAddF32_scans {i : Instr} {d a : BitVec 7} (h : LaneWord i d (scanAddF32 d a)) {s : State}
    (hready : ready i s = true)
    (hflags : orFlags s.activeReal (fun l => partialFlags (scanSum s a l)) &&& s.cw.fpEnables = 0) :
    ∃ t, exec i s = .next t ∧
      (∀ l, l < 32 → s.activeReal.getLsbD l = true →
        laneOf (t.regV d.toNat) l = BitVec.ofNat 32 (partialBits (scanSum s a l))) ∧
      t.cw.fst = s.cw.fst ||| orFlags s.activeReal (fun l => partialFlags (scanSum s a l)) ∧
      VectorFrame s t (fun n => n = d.toNat) := by
  obtain ⟨hdest, _, hdst, hr⟩ := h
  have hname : s.vname d.toNat = true := ready_vdst hr.info hready 1 (hdst.imp_right .inl) hdest 0 Nat.one_pos (by omega)
  have hbody := (scanAddF32_eq (s.atInstr i) d a).trans (withFlags_ok (s.atInstr i) _ _ hflags)
  rw [(noted (s.atInstr i) _ (ready_list hready)).activeReal] at hbody
  obtain ⟨hlanes, hfst, hframe⟩ := flagLanes_result hready hname (activeReal_not s) rfl
  refine ⟨_, hr.ok hready hbody, fun l hl hact => (hlanes l hl hact).trans ?_, hfst, hframe⟩
  rw [nth_map_range _ _ _ hl]
  rfl

/-- Settles O22: the reduction notes the flags of its one sum, the scan those of every lane's. -/
theorem floatingSumsFollowTheTree : Obligations.FloatingSumsFollowTheTree := by
  unfold Obligations.FloatingSumsFollowTheTree
  intro d a
  exact ⟨xredAddF32_result d a, fun _ hready hflags => scanAddF32_scans (xscanAddF32_word d a) hready hflags⟩

end Sys2Proof.Machine
end

section
/-! RLD with every request answered (R384, R385). -/

namespace Sys2Proof.Machine
open Sys2Proof

theorem rld_word (d a b : BitVec 7) : LaneWord (.rld d a b) d (rldBody d a b) := .dab (fun _ => rfl) rfl (.inl rfl) rfl rfl

/-- A ready instruction whose meaning merges the active lanes of vd from this state. -/
theorem LaneWord.merges {i : Instr} {d : BitVec 7} {body : Body} (h : LaneWord i d body) {s : State} {f : Nat → Word}
    (hready : ready i s = true) (hbody : body (s.atInstr i) = .ok ((s.atInstr i).wrLanes d.toNat s.active f)) :
    ∃ t, exec i s = .next t ∧ (∀ l, l < 32 → s.active.getLsbD l = true → laneOf (t.regV d.toNat) l = f l) ∧
      t.cw.fst = s.cw.fst ∧ VectorFrame s t (fun n => n = d.toNat) := by
  obtain ⟨hdest, _, hdst, hr⟩ := h
  have hname : s.vname d.toNat = true :=
    ready_vdst hr.info hready 1 (hdst.imp_right .inl) hdest 0 Nat.one_pos (by omega)
  obtain ⟨hwrote, hvec, hscalar, hmask, hlane⟩ := wrLanes_spec (s.atInstr i) d.toNat s.active f (ready_list hready) hname
  have hstays := (wrote_retire hready hwrote).1
  refine ⟨_, hr.ok hready hbody, fun l hl hact => ?_, hstays.fst.trans hwrote.fst, ?_⟩
  · rw [hstays.reads.regV, hlane l hl, if_pos hact]
  · refine vectorFrame_of _ hready hwrote hscalar hvec (fun n l hn hl hact => ?_) hmask
    by_cases e : n = d.toNat
    · rw [e, hlane l hl, hact]
      rfl
    · rw [hvec n hn e]
      rfl

/-- What RLD writes where every request of its lanes has its answer. -/
theorem rldBody_answered {d a b : BitVec 7} {s : State} {p : PeerEntry} {ls : List (Nat × Nat)} {v : Nat → Nat}
    (hcheck : s.remoteCheck false 4 d a b = .ok (p, ls))
    (hans : ∀ x ∈ ls, hostAns s.issue.resp 2 x.2 4 = some (.ok (v x.1))) :
    rldBody d a b s = .ok (s.wrLanes d.toNat s.active
      (fun l => BitVec.ofNat 32 ((alGet ((lanesOf s.activeReal).map (fun l => (l, v l))) l).getD 0))) := by
  have hkeys := Laws.remoteCheck_keys (s' := s) hcheck
  have hnone : ls.filter (fun l => (hostAns s.issue.resp 2 l.2 4).isNone) = [] := by
    rw [List.filter_eq_nil_iff]
    intro x hx
    rw [hans x hx]
    exact Bool.false_ne_true
  unfold rldBody
  simp only [hcheck, hnone, List.map_nil, ne_eq, not_true_eq_false, if_false, hkeys]
  rw [Laws.gather_ok _ v]
  intro l hl
  obtain ⟨y, hy, hget⟩ := Laws.alGet_fst ls l (hkeys ▸ hl)
  simp only [hget, Option.bind_some, hans _ hy]

/-- Settles O48: the lanes that take part are those that were asked for, and each has its answer. -/
theorem remoteLoadsTakeTheirAnswers : Obligations.RemoteLoadsTakeTheirAnswers := by
  unfold Obligations.RemoteLoadsTakeTheirAnswers
  intro d a b s p ls v hready hcheck hans
  obtain ⟨t, hexec, hlanes, hfst, hframe⟩ := (rld_word d a b).merges hready (rldBody_answered (s := s.atInstr _) hcheck hans)
  refine ⟨t, hexec, fun l hl hact => ?_, hfst, hframe⟩
  rw [hlanes l hl (activeReal_sub s l hact)]
  exact congrArg (fun o => BitVec.ofNat 32 (Option.getD o 0))
    (Laws.alGet_map v (lanesOf s.activeReal) l ((Laws.mem_lanesOf _ _).mpr ⟨hl, hact⟩))

end Sys2Proof.Machine
end

section
/-! Traps and returns from them: TRAP and BRKP, a trap that stops its warp, and ERET. -/

namespace Sys2Proof.Machine

open Sys2Proof

/-- A ready instruction whose meaning stops with a trap that comes after it retires, and then the trap is delivered. -/
theorem Runs.after {i : Instr} {info : OpInfo} {body : Body} (hr : Runs i info body) {s : State} {x : TrapInfo}
    (h : ready i s = true) (hb : body (s.atInstr i) = .error (.after x (s.atInstr i))) :
    Machine.exec i s = .next ((s.retired i (s.atInstr i)).deliver s.issue.warp s.issue.entry { x with
      fpc := s.issue.chain, rpc := s.issue.pc + 4, after := s.issue.pc + 4, word := encode i }) := by
  rw [hr.stop h hb]
  unfold State.retired
  rw [hr.info]
  rfl

/-- Settles O33: both meanings stop with `.after`, which retires the word and then delivers the trap. -/
theorem trapAndBreakpointRetireAndTrap : Obligations.TrapAndBreakpointRetireAndTrap := by
  unfold Obligations.TrapAndBreakpointRetireAndTrap
  intro imm
  refine ⟨fun s h => ?_, fun s h => ?_⟩
  · have hr := runs (i := .trap imm) (fun _ => rfl) rfl rfl rfl
    exact hr.after (x := { TrapInfo.of (.sys, 0) with imm := imm }) h rfl
  · have hr := runs (i := .brkp imm) (fun _ => rfl) rfl rfl rfl
    exact hr.after (x := { TrapInfo.of (.brkp, 0) with imm := imm }) h rfl

/-! A trap that no handler takes (R287, R295). -/

/-- A trap that is not enabled, is a machine check, or arises in handler code of its own cause goes to no handler. -/
theorem deliver_stops {s : State} {w e : Nat} {u : Strand} {i : TrapInfo} (hu : (s.warp w).runner e = some u)
    (h : (s.warp w).trapv.getLsbD i.cause.num = false ∨ i.cause = .mchk ∨
      ∃ g, (s.warp w).handlerAt e = some g ∧ g.cause = i.cause.num) :
    s.deliver w e i = (s.trapping w e u).stopWarp w e i := by
  unfold State.deliver
  simp only [hu]
  refine if_neg ?_
  rcases h with hv | hc | ⟨g, hg, hsame⟩
  · simp [hv]
  · simp [hc]
  · simp [hg, hsame]

/-- What stops a warp and reports it leaves: its record and entry, every other warp, memory and scratch. -/
theorem stopWarp_left {s : State} {w : Nat} (hw : w < s.warps.length) (e : Nat) (i : TrapInfo) :
    let t := s.stopWarp w e i
    t.warp w = { s.warp w with stopped := some (trapRecord (s.warp w) e i), stopEntry := e } ∧
      (∀ v, v ≠ w → t.warp v = s.warp v) ∧ t.mem = s.mem ∧ t.blocks = s.blocks := by
  obtain ⟨hwarps, hmem, hblocks⟩ := Laws.report_parts
    (s.setWarp w { s.warp w with stopped := some (trapRecord (s.warp w) e i), stopEntry := e }) w (trapRecord (s.warp w) e i)
  refine ⟨?_, fun v hv => ?_, hmem, hblocks⟩
  · exact (warp_of_warps hwarps w).trans ((State.warp_setWarp ..).trans (if_pos ⟨rfl, hw⟩))
  · exact (warp_of_warps hwarps v).trans ((State.warp_setWarp ..).trans (if_neg fun h => hv h.1))

/-- Settles O35: no handler takes the trap, so the warp that the trap leaves stops with its record. -/
theorem otherTrapsStopTheWarp : Obligations.OtherTrapsStopTheWarp := by
  unfold Obligations.OtherTrapsStopTheWarp
  intro s w e i u
  dsimp only
  intro hw hu h
  obtain ⟨hself, hothers, hmem, hblocks⟩ :=
    stopWarp_left (s := s.trapping w e u) (w := w) (by rw [trapping_length]; exact hw) e i
  rw [trapping_self hw, trapRecord_setRunner] at hself
  obtain ⟨hv, hs, hk, hl, hf⟩ := Laws.setRunner_same (s.warp w) e u.trapped
  rw [deliver_stops hu h, hself]
  exact ⟨⟨_, rfl, rfl, rfl, rfl, rfl⟩, rfl, hv, hs, hk, hl, hf,
    fun v hne => (hothers v hne).trans (trapping_warp_ne s hne e u), hmem, hblocks⟩

end Sys2Proof.Machine
end

section
/-! What kills, stores of the fabric and messages leave of the dies' contexts and of the reports so far. -/

namespace Sys2Proof.Machine

open Sys2Proof

/-- The dies have the contexts that they had, and no report is taken back. -/
structure Reported (s t : State) : Prop where
  reports : s.sys.reports ⊆ t.sys.reports
  length : t.dies.length = s.dies.length
  ctxs : ∀ d, (t.die d).ctxs = (s.die d).ctxs

theorem Reported.same (s : State) : Reported s s := ⟨List.Subset.refl _, rfl, fun _ => rfl⟩
theorem Reported.trans {s t u : State} (h : Reported s t) (k : Reported t u) : Reported s u :=
  ⟨List.Subset.trans h.reports k.reports, k.length.trans h.length, fun d => (k.ctxs d).trans (h.ctxs d)⟩

theorem Reported.foldl {α : Type} {f : State → α → State} (hf : ∀ s a, Reported s (f s a)) (l : List α) (s : State) :
    Reported s (l.foldl f s) := by
  induction l generalizing s with
  | nil => exact Reported.same s
  | cons a l ih => exact (hf s a).trans (ih _)

theorem Reported.fields {s t : State} (hs : t.sys = s.sys) (hd : t.dies = s.dies) : Reported s t :=
  ⟨by rw [hs]; exact List.Subset.refl _, by rw [hd], fun d => congrArg Die.ctxs (Laws.die_of_dies hd d)⟩

theorem Reported.setDie (s : State) (d : Nat) {x : Die} (h : x.ctxs = (s.die d).ctxs) : Reported s (s.setDie d x) := by
  refine ⟨List.Subset.refl _, List.length_set, fun c => ?_⟩
  rw [State.die_setDie]
  split
  · next hc => rw [h, hc.1]
  · rfl

theorem Reported.mapDies (s : State) {t : State} {g : Die → Die} (hs : t.sys = s.sys) (hd : t.dies = s.dies.map g)
    (hg : ∀ x, (g x).ctxs = x.ctxs) : Reported s t := by
  refine ⟨by rw [hs]; exact List.Subset.refl _, by rw [hd, List.length_map], fun d => ?_⟩
  exact (congrArg Die.ctxs (Laws.die_of_dies (s := { s with dies := s.dies.map g }) hd d)).trans (die_map_keeps s g Die.ctxs hg d)

theorem Reported.physWriteKey (s : State) (k pa : Nat) (bs : List Byte) : Reported s (s.physWriteKey k pa bs) := by
  obtain ⟨-, hdies, -⟩ := Laws.aside_fields (physWriteKey_aside s k pa bs)
  refine Reported.fields ?_ hdies
  unfold State.physWriteKey State.physWrite
  split
  · dsimp only
    split
    · split <;> rfl
    · rfl
  · rfl

/-! Stores of the launch unit. -/

section
variable (s : State) {w : Who} (hf : w.fab = true)
include hf

theorem Reported.touch (va : Nat) (t : Trans) (b : Bool) : Reported s (s.touch w va t b) := by
  unfold State.touch
  cases t.entry with
  | none => exact Reported.same s
  | some e =>
    simp only [hf, if_true]
    refine Reported.trans ?_ (Reported.setDie _ _ rfl)
    split
    · exact Reported.same s
    · exact Reported.physWriteKey ..

theorem Reported.homeWrite (va : Nat) (bs : List Byte) (t : Trans) : Reported s (s.homeWrite w va bs t) := by
  unfold State.homeWrite
  simp only [hf, if_true]
  exact (Reported.touch s hf va t true).trans (Reported.physWriteKey ..)

theorem Reported.putRun (r : List (Nat × List Byte × Trans)) : Reported s (s.putRun w r) := by
  induction r generalizing s with
  | nil => exact Reported.same s
  | cons p r ih => exact (Reported.homeWrite s hf ..).trans (ih _)

theorem Reported.markAsks (q : List HostAsk) : Reported s (s.markAsks w q) := by
  refine Reported.foldl (fun s a => ?_) q s
  split
  · exact Reported.same s
  · split
    · exact Reported.touch s hf ..
    · exact Reported.same s

end

theorem Reported.send (s : State) (d : Nat) (p : BitVec 128) (m : Msg) : Reported s (s.send d p m).2 := by
  refine ⟨by rw [send_reports]; exact List.Subset.refl _, send_dies .., fun c => ?_⟩
  unfold State.send
  rw [route_die]
  exact (Reported.setDie s d (x := (s.die d).setTx _) rfl).ctxs c

theorem Reported.sendAsks (d c : Nat) (q : List HostAsk) (s : State) : Reported s (s.sendAsks d c q).2 := by
  induction q generalizing s with
  | nil => exact Reported.same s
  | cons a q ih =>
    refine Reported.trans ?_ (ih (s.sendAsk d c a).2)
    unfold State.sendAsk
    dsimp only
    split <;> exact Reported.send ..

theorem launchWrite_reported (s : State) (k a v : Nat) : Reported s (s.launchWrite k a v) := by
  unfold State.launchWrite
  split
  · exact Reported.same s
  · dsimp only
    split
    · exact Reported.setDie _ _ rfl
    · exact (((Reported.putRun s rfl _).trans (Reported.markAsks _ rfl _)).trans (Reported.sendAsks ..)).trans
        (Reported.fields rfl rfl)

theorem putStatus_reported (s : State) (k c : Nat) : Reported s (s.putStatus k c) := by
  unfold State.putStatus
  split
  · exact Reported.same s
  · next x _ =>
    have hset : Reported s (s.setLaunch k { x with status := c }) := Reported.fields rfl rfl
    dsimp only
    split
    · exact hset
    · exact hset.trans (launchWrite_reported ..)

/-! Reports. -/

/-- The state in which one more report is noted. -/
def State.noted (s : State) (r : Report) : State := { s with sys := { s.sys with reports := s.sys.reports ++ [r] } }

theorem noted_stored (s : State) (r : Report) : Stored s (s.noted r) :=
  Stored.fields rfl rfl rfl fun _ => rfl

theorem noted_reported (s : State) (r : Report) : Reported s (s.noted r) :=
  ⟨List.subset_append_left _ _, rfl, fun _ => rfl⟩

theorem send_launches (s : State) (d : Nat) (p : BitVec 128) (m : Msg) : (s.send d p m).2.launches = s.launches := by
  unfold State.send State.route
  dsimp only
  split <;> rfl

/-! Kills. -/

theorem dropBlock_reported (s : State) (b : Nat) : Reported s (s.dropBlock b) :=
  (Reported.foldl (f := State.dropWarp) (fun _ _ => Reported.fields rfl rfl) _ s).trans (Reported.fields rfl rfl)

theorem killBlock_reported (s : State) (b : Nat) : Reported s (s.killBlock b) := by
  have hhalted : ∀ u : State, Reported u ((s.block b).warps.foldl (fun s w => s.setWarp w (s.warp w).halted) u) :=
    Reported.foldl (f := fun s w => s.setWarp w (s.warp w).halted) (fun _ _ => Reported.fields rfl rfl) _
  have hstopped : Reported s (s.stopBlock b) :=
    (Reported.fields (s := s) (t := s.dropOps fun o => o.blk = b && !o.completes) rfl rfl).trans (hhalted _)
  rw [killBlock_eq]
  split
  · exact hstopped.trans (Reported.fields rfl rfl)
  · exact hstopped.trans (dropBlock_reported ..)

theorem dropLaunch_reported (s : State) (l : Nat) : Reported s (s.dropLaunch l) := by
  have hdies : (s.dropLaunch l).dies = s.dies.map _ := rfl
  exact Reported.mapDies s rfl hdies fun _ => rfl

theorem killLaunch_reported (s : State) (l : Nat) : Reported s (s.killLaunch l) := by
  by_cases h : ∃ x, s.launches[l]? = some x ∧ (x.phase = .queued ∨ x.phase = .running)
  · obtain ⟨x, hx, hl⟩ := h
    have hcut : Reported s (s.cutLaunch l x) :=
      ((Reported.foldl killBlock_reported _ s).trans (dropLaunch_reported ..)).trans (Reported.fields rfl rfl)
    rw [killLaunch_live hx hl]
    unfold State.killEnd
    split
    · exact hcut.trans (putStatus_reported ..)
    · exact hcut
  · rw [killLaunch_ended fun x hx => not_or.mp fun hl => h ⟨x, hx, hl⟩]
    exact Reported.same s

end Sys2Proof.Machine
end

section
/-! ERET (R294). -/

namespace Sys2Proof.Machine

open Sys2Proof

/-- The state that a warp's innermost handler leaves: its quarter's reserve is free, and the warp is x. -/
def State.leftReserve (s : State) (w : Nat) (x : Warp) : State :=
  (s.setQuarter (s.quarterOf w) { s.quarter (s.quarterOf w) with owner := none, rv := [], rs := [] }).setWarp w x

/-- The four actions, as fields of a word whose bits above them are clear. -/
theorem action_fields {v : DWord} {n : Nat} (h : v.toNat = n) (hn : n < 4) : fieldOf v 0 2 = n ∧ fieldOf v 2 62 = 0 := by
  unfold fieldOf field
  rw [h]
  omega

theorem actStrand_resumes (u : Strand) (r : TrapRec) {act : Nat} (h : act < 3) (target : Va) :
    ∃ v n, actStrand u r act target = some (v, n) ∧
      v.pc = (if act = 0 then r.s2.setWidth 57
        else if act = 1 then (if r.s2.setWidth 57 = r.s1.setWidth 57 then r.after else r.s2.setWidth 57) else target) ∧
      v.mask = u.mask ∧ v.stack = u.stack ∧ (act ≠ 0 → v.log = [] ∧ v.fault = none) ∧
      (act = 0 → v.log = u.log ∧ (r.s0.getLsbD 19 = true → v.fault = none)) := by
  match act, h with
  | 0, _ => exact ⟨_, _, rfl, rfl, rfl, rfl, fun h => absurd rfl h, fun _ => ⟨rfl, fun hlog => if_pos hlog⟩⟩
  | 1, _ => exact ⟨_, _, rfl, rfl, rfl, rfl, fun _ => ⟨rfl, rfl⟩, fun h => absurd h (by decide)⟩
  | 2, _ => exact ⟨_, _, rfl, rfl, rfl, rfl, fun _ => ⟨rfl, rfl⟩, fun h => absurd h (by decide)⟩

/-! What leaving a handler makes of its warp. -/

section
variable {s : State} {w act : Nat} {target : Va} {g : Handler}

theorem leaveHandler_resumes (hg : (s.warp w).handlers = [g]) {u v : Strand} {n : Nat}
    (hu : (s.warp w).strand g.entry = some u) (hv : actStrand u g.trec act target = some (v, n)) :
    s.leaveHandler w act target = (s.leftReserve w { ((s.warp w).setStrand g.entry (some v)) with
      handlers := [], lclk := (s.warp w).lclk + BitVec.ofNat 64 n }).resumeEngines w := by
  unfold State.leaveHandler
  simp only [hg, hu, hv]
  rfl

theorem leftReserve_warp (hw : w < s.warps.length) (x : Warp) : (s.leftReserve w x).warp w = x :=
  (State.warp_setWarp ..).trans (if_pos ⟨rfl, hw⟩)

theorem leaveHandler_kills {rest : List Handler} (hw : w < s.warps.length) (hg : (s.warp w).handlers = g :: rest)
    (hu : rest = [] → ((s.warp w).strand g.entry).isSome = true) : s.leaveHandler w 3 target =
      ((s.leftReserve w { s.warp w with handlers := rest }).reportTrap w g.trec).killLaunch (s.block (s.warp w).blk).launch := by
  have hact : s.leaveHandler w 3 target = (s.leftReserve w { s.warp w with handlers := rest }).actThree w g.trec := by
    unfold State.leaveHandler
    simp only [hg]
    cases rest with
    | cons o more => rfl
    | nil =>
      obtain ⟨u, hu⟩ := Option.isSome_iff_exists.mp (hu rfl)
      simp only [hu]
      rfl
  rw [hact]
  unfold State.actThree
  rw [leftReserve_warp hw]
  rfl

/-- The engines that go on change of the warp only ctl.mprog. -/
theorem resumed_warp {α : Type} {f : Warp → α} (hf : ∀ (x : Warp) m, f { x with mprog := m } = f x) (hw : w < s.warps.length)
    (x : Warp) : f (((s.leftReserve w x).resumeEngines w).warp w) = f x := by
  obtain ⟨m, hwarps, -⟩ := Laws.resume_parts (s.leftReserve w x) w
  rw [warp_of_warps hwarps, State.warp_setWarp, if_pos ⟨rfl, (List.length_set (as := s.warps)).symm ▸ hw⟩, hf,
    leftReserve_warp hw]

theorem resumed_rest (s : State) (w : Nat) (x : Warp) :
    let t := (s.leftReserve w x).resumeEngines w
    (t.quarter (s.quarterOf w)).owner = none ∧ t.mem = s.mem ∧ t.blocks = s.blocks :=
  ⟨congrArg Quarter.owner ((State.quarter_setQuarter ..).trans (if_pos rfl)), rfl, rfl⟩

end

/-! What action 3 kills. -/

/-- A handler that is left takes nothing from what a kill is about. -/
theorem leftReserve_fades {p : Nat → Prop} (s : State) (w : Nat) {g : Handler} {rest : List Handler}
    (hg : (s.warp w).handlers = g :: rest) : Fades p s (s.leftReserve w { s.warp w with handlers := rest }) := by
  let u := s.setQuarter (s.quarterOf w) { s.quarter (s.quarterOf w) with owner := none, rv := [], rs := [] }
  have hfree : Fades p s u := Fades.stored (Stored.fields rfl rfl rfl fun _ => rfl)
  refine hfree.trans (Fades.setWarp u w { s.warp w with handlers := rest } id fun hcalm => ?_)
  rw [State.warp_setQuarter] at hcalm
  unfold Warp.mustEnd at hcalm ⊢
  rw [hg, List.any_cons] at hcalm
  obtain ⟨hstrands, hhandlers⟩ := Bool.or_eq_false_iff.mp hcalm
  exact Bool.or_eq_false_iff.mpr ⟨hstrands, (Bool.or_eq_false_iff.mp hhandlers).2⟩

/-- A report of a trap to system software, and the message to the context's host. -/
theorem reportTrap_eq (s : State) (w : Nat) (r : TrapRec) :
    ∃ d p m, s.reportTrap w r = ((s.noted (.trap w r)).send d p m).2 := ⟨_, _, _, rfl⟩

theorem reportTrap_leaves (s : State) (w : Nat) (r : TrapRec) : Stored s (s.reportTrap w r) ∧
    (s.reportTrap w r).launches = s.launches ∧ Report.trap w r ∈ (s.reportTrap w r).sys.reports := by
  obtain ⟨d, p, m, h⟩ := reportTrap_eq s w r
  rw [h]
  refine ⟨(noted_stored ..).trans (Stored.send ..), send_launches .., ?_⟩
  rw [send_reports]
  exact List.mem_append_right _ (List.mem_singleton.mpr rfl)

/-- Action 3 kills the launch, with the trap reported (R294, R304). -/
theorem reported_kill {s v : State} {w l : Nat} {x : Launch} (r : TrapRec) (hv : Fades (fun _ => False) s v)
    (hlaunches : v.launches = s.launches) (hx : s.launches[l]? = some x) (hrun : x.phase = .running) :
    let t := (v.reportTrap w r).killLaunch l
    Killed s t l ∧ Report.trap w r ∈ t.sys.reports := by
  obtain ⟨hstored, hkept, hreport⟩ := reportTrap_leaves v w r
  have hkill : Killed (v.reportTrap w r) ((v.reportTrap w r).killLaunch l) l :=
    killLaunch_killed (by rw [hkept, hlaunches]; exact hx) (.inr hrun)
  exact ⟨hkill.before (hv.trans (Fades.stored hstored)) fun _ _ => id, (killLaunch_reported _ l).reports hreport⟩

/-! The meaning. -/

section
variable {s : State} {a b : BitVec 7}

theorem eretBody_outside (h : s.inHandler = false) : eretBody a b s = trapE s (.prot, 11) := by
  unfold eretBody
  rw [h]
  rfl

theorem eretBody_noAction (h : s.inHandler = true) (ha : 4 ≤ (s.rdS a.toNat).toNat) : eretBody a b s = trapE s (.illop, 0) := by
  have hhigh : fieldOf (s.rdS a.toNat) 2 62 ≠ 0 := by
    have := (s.rdS a.toNat).isLt
    unfold fieldOf field
    omega
  unfold eretBody
  rw [h]
  exact if_pos hhigh

theorem eretBody_misaligned (h : s.inHandler = true) (ha : (s.rdS a.toNat).toNat = 2) (hb : (s.rdS b.toNat).toNat % 4 ≠ 0) :
    eretBody a b s = trapE s eAlign := by
  obtain ⟨hlow, hhigh⟩ := action_fields ha (by decide)
  have hbits : ¬ fieldOf (s.rdS b.toNat) 0 2 = 0 := by
    unfold fieldOf field
    omega
  unfold eretBody
  rw [h]
  dsimp only
  rw [hlow, hhigh]
  simp [hbits]

theorem eretBody_leaves {act : Nat} (h : s.inHandler = true) (ha : (s.rdS a.toNat).toNat = act) (hact : act < 4)
    (hb : act = 2 → (s.rdS b.toNat).toNat % 4 = 0) :
    eretBody a b s = .error (.done (s.leaveHandler s.issue.warp act ((s.rdS b.toNat).setWidth 57))) := by
  obtain ⟨hlow, hhigh⟩ := action_fields ha hact
  have hbits : act = 2 → fieldOf (s.rdS b.toNat) 0 2 = 0 := fun h2 => by
    have := hb h2
    unfold fieldOf field
    omega
  unfold eretBody
  rw [h]
  dsimp only
  rw [hlow, hhigh, if_neg (by decide), if_neg (by decide)]
  exact if_neg (by simpa using hbits)

end

/-- ERET with one of the four actions leaves the handler. -/
theorem eret_leaves {s : State} {a b : BitVec 7} {act : Nat} (h : ready (.eret a b) s = true) (hin : s.inHandler = true)
    (ha : (s.rdS a.toNat).toNat = act) (hact : act < 4) (hb : act = 2 → (s.rdS b.toNat).toNat % 4 = 0) :
    exec (.eret a b) s = .next ((s.atInstr (.eret a b)).leaveHandler s.issue.warp act ((s.rdS b.toNat).setWidth 57)) := by
  have hr : Runs (.eret a b) _ (eretBody a b) := runs (fun _ => rfl) rfl rfl rfl
  exact Laws.settle_done hr h (eretBody_leaves (s := s.atInstr (.eret a b)) hin ha hact hb)

/-- Settles O36: ERET's meaning is settled by what leaves the handler. Actions 0 to 2 give the trapped strand another PC and
log; action 3 reports the trap and kills the launch. -/
theorem eretTakesItsAction : Obligations.EretTakesItsAction := by
  unfold Obligations.EretTakesItsAction
  intro a b
  have hr : Runs (.eret a b) _ (eretBody a b) := runs (fun _ => rfl) rfl rfl rfl
  refine ⟨?_, ?_, ?_, ?_, ?_⟩
  · intro s g u act h hin hg hu ha hact hb
    let r := s.atInstr (.eret a b)
    obtain ⟨v, n, hv, hpc, hmask, hstack, hlog, hkept⟩ := actStrand_resumes u g.trec hact ((s.rdS b.toNat).setWidth 57)
    obtain ⟨howner, hmem, hblocks⟩ := resumed_rest r s.issue.warp
      { ((r.warp s.issue.warp).setStrand g.entry (some v)) with
        handlers := [], lclk := (r.warp s.issue.warp).lclk + BitVec.ofNat 64 n }
    have hlen : g.entry < s.cw.strands.length := s.cw.strand_in_list g.entry (by rw [hu]; rfl)
    have hstrand : (s.cw.setStrand g.entry (some v)).strand g.entry = some v :=
      (Warp.strand_setStrand ..).trans (if_pos ⟨rfl, hlen⟩)
    refine ⟨_, v, (eret_leaves h hin ha (by omega) hb).trans
      (congrArg _ (leaveHandler_resumes (s := r) (w := s.issue.warp) hg hu hv)), ?_, ?_, hpc, hmask, hstack, hlog, hkept, howner,
      hmem, hblocks, ?_, ?_, ?_, ?_⟩
    · exact resumed_warp (f := Warp.handlers) (fun _ _ => rfl) (s := r) (ready_list h) _
    · exact (resumed_warp (f := (Warp.strand · g.entry)) (fun _ _ => rfl) (s := r) (ready_list h) _).trans hstrand
    · exact resumed_warp (f := Warp.vregs) (fun _ _ => rfl) (s := r) (ready_list h) _
    · exact resumed_warp (f := Warp.sregs) (fun _ _ => rfl) (s := r) (ready_list h) _
    · exact resumed_warp (f := Warp.kregs) (fun _ _ => rfl) (s := r) (ready_list h) _
    · exact resumed_warp (f := Warp.trapv) (fun _ _ => rfl) (s := r) (ready_list h) _
  · intro s g rest x h hin ha hg hu
    let r := s.atInstr (.eret a b)
    have hexec := (eret_leaves h hin ha (by decide) fun h => absurd h (by decide)).trans
      (congrArg _ (leaveHandler_kills (s := r) (w := s.issue.warp) (ready_list h) hg hu))
    refine ⟨hexec, fun hx hrun => ⟨_, hexec, ?_⟩⟩
    have hnoted : Fades (fun _ => False) s r := Fades.stored (Stored.fields rfl rfl rfl fun _ => rfl)
    exact reported_kill g.trec (hnoted.trans (leftReserve_fades r s.issue.warp hg)) rfl hx hrun
  · exact Laws.traps_when hr (by decide) fun s _ hp => eretBody_outside hp
  · exact Laws.traps_when hr (by decide) fun s _ ⟨hin, ha⟩ => eretBody_noAction hin ha
  · exact Laws.traps_when hr (by decide) fun s _ ⟨hin, ha, hb⟩ => eretBody_misaligned hin ha hb

end Sys2Proof.Machine
end

section
/-! The waits and LCLK (R297, R307, R308, R344, R345, R375, R408, R409). -/

namespace Sys2Proof.Machine

open Sys2Proof

/-! The meanings where nothing is to be waited for, and where something is. -/

theorem waitBody_goes {imm : BitVec 14} {s : State} (hw : s.cs.wait = none) (himm : imm.toNat < 4)
    (hops : imm.getLsbD 1 = true → (s.opsOf s.issue.warp).any (fun o => o.entry = s.issue.entry && o.writesRows) = false) :
    waitBody imm s = .ok s := by
  have hpause : fieldOf imm 2 12 = 0 := by
    unfold fieldOf field
    omega
  have hboard : (imm.getLsbD 1 && (s.opsOf s.issue.warp).any (fun o => o.entry = s.issue.entry && o.writesRows)) = false := by
    cases hb : imm.getLsbD 1 with
    | false => rfl
    | true => exact hops hb
  unfold waitBody
  simp only [hw, hboard, hpause, Bool.false_eq_true, if_false, if_true]

theorem waitBody_pauses {imm : BitVec 14} {s : State} (hw : s.cs.wait = none) (himm : 4 ≤ imm.toNat) (h1 : imm.getLsbD 1 = false) :
    waitBody imm s = .error (.wait .pause (s.clock + imm.toNat / 4) s) := by
  have hpause : fieldOf imm 2 12 = imm.toNat / 4 := by
    have := imm.isLt
    unfold fieldOf field
    omega
  have hne : imm.toNat / 4 ≠ 0 := by omega
  unfold waitBody
  simp only [hw, h1, hpause, hne, Bool.false_and, Bool.false_eq_true, if_false]

theorem yieldBody_goes {imm : BitVec 21} {s : State} (h : s.copiesOut s.issue.warp = false) :
    yieldBody imm s = .ok (s.jump (s.target 21 imm.toNat)) := by
  unfold yieldBody
  rw [h]
  rfl

theorem yieldBody_waits {imm : BitVec 21} {s : State} (h : s.copiesOut s.issue.warp = true) :
    yieldBody imm s = .error (.wait .yield 0 s) := by
  unfold yieldBody
  rw [h]
  rfl

/-! LCLK (R308). -/

/-- The warp whose clock is advanced by n, with the open region of its strand, which counts what is added. -/
def State.clockOn (s : State) (n : DWord) : Warp :=
  { s.cw.setRunner s.issue.entry { s.cs with region := s.cs.region.map (fun r => { r with ran := r.ran + n.toNat }) } with
    lclk := s.cw.lclk + n }

theorem clockOn_moved {s : State} (h : (s.cw.runner s.issue.entry).isSome = true) (n : DWord) :
    Moved s.issue.entry s.cw (s.clockOn n) := by
  obtain ⟨t, ht⟩ := Option.isSome_iff_exists.mp h
  have hcs : s.cs = t := by
    unfold State.cs
    rw [ht]
    rfl
  have hheld : Strand.held { s.cs with region := s.cs.region.map (fun r => { r with ran := r.ran + n.toNat }) } = t.held := by
    rw [hcs]
    rfl
  exact (Moved.setRunner _ _ t _ ht hheld).trans (Moved.lclk _ _ _)

theorem lclkBody_eq {d a : BitVec 7} {s : State} (hw : (s.wrS d.toNat s.cw.lclk).issue.warp < (s.wrS d.toNat s.cw.lclk).warps.length) :
    let u := s.wrS d.toNat s.cw.lclk
    lclkBody d a s = .ok (u.putW (u.clockOn ((lowWord (s.rdS a.toNat)).setWidth 64))) := by
  dsimp only
  unfold lclkBody State.clockOn State.putS
  dsimp only
  rw [State.cw_putW _ _ hw, State.putW_putW, Warp.setRunner_lclk]

/-- LCLK writes the clock that it finds, and advances it. -/
theorem lclk_reads {d a : BitVec 7} {s : State} (h : ready (.lclk d a) s = true) :
    ∃ t, exec (.lclk d a) s = .next t ∧ t.regS d.toNat = s.cw.lclk ∧
      (s.inHandler = true → t.cw.lclk = s.cw.lclk + ((s.rdS a.toNat).setWidth 32).setWidth 64) ∧
      (s.inHandler = false → s.ranBefore = false → s.cw.missGroup s.issue.entry = [] →
        t.cw.lclk = s.cw.lclk + ((s.rdS a.toNat).setWidth 32).setWidth 64 + 1) := by
  have hr : Runs (.lclk d a) _ (lclkBody d a) := runs (fun _ => rfl) rfl rfl rfl
  have hd : d.toNat < 64 := ready_sdst hr.info h (by decide) (.inl rfl) (dField d a 0)
  let r := s.atInstr (.lclk d a)
  let n : DWord := (lowWord (s.rdS a.toNat)).setWidth 64
  obtain ⟨hwrote, hreg, -, -⟩ := wrS_spec r d.toNat s.cw.lclk (ready_list h) hd
  let u := r.wrS d.toNat s.cw.lclk
  have hissue : u.issue = r.issue := hwrote.issue
  have hu : u.issue.warp < u.warps.length := by
    rw [hissue, hwrote.warps]
    exact ready_list h
  have hrun : (u.cw.runner u.issue.entry).isSome = true := by
    unfold Warp.runner Warp.strand
    rw [hwrote.handlers, hwrote.strandsEq, hissue]
    exact (s.issueOk_iff.mp (ready_issueOk h)).2.2.2
  have hreads := (clockOn_moved hrun n).reads hu
  have hv : (u.putW (u.clockOn n)).issue.warp < (u.putW (u.clockOn n)).warps.length := (List.length_set (as := u.warps)).symm ▸ hu
  have hclock : (u.putW (u.clockOn n)).cw.lclk = s.cw.lclk + n := by
    rw [State.cw_putW _ _ hu]
    exact congrArg (· + n) hwrote.clock
  have hcount : (u.putW (u.clockOn n)).issue.count = 1 := congrArg Issue.count hissue
  have hentry : r.issue.entry = (u.putW (u.clockOn n)).issue.entry := congrArg Issue.entry hissue.symm
  have hstays := fun c => (retire_stays r (u.putW (u.clockOn n)) c hv hcount hentry).1
  have hlclk := fun c => retire_lclk r (u.putW (u.clockOn n)) c hv hcount
  refine ⟨_, hr.ok h (lclkBody_eq (s := r) hu), ?_, fun hin => ?_, fun hin hran hmiss => ?_⟩
  · exact ((hstays _).reads.regS _).trans ((hreads.regS _).trans ((hreg _ hd).trans (if_pos rfl)))
  · exact ((hlclk _).1 hin).trans hclock
  · exact ((hlclk _).2 hin hran hmiss).trans (congrArg (· + 1) hclock)

/-- Settles O28: each meaning goes on where nothing is to be waited for, is settled by its barriers, or waits. -/
theorem waitsEndAtOnceOrStall : Obligations.WaitsEndAtOnceOrStall := by
  unfold Obligations.WaitsEndAtOnceOrStall
  have hrWait : ∀ imm, Runs (.wait imm) _ (waitBody imm) := fun imm => runs (fun _ => rfl) rfl rfl rfl
  have hrYield : ∀ imm, Runs (.yield imm) _ (yieldBody imm) := fun imm => runs (fun _ => rfl) rfl rfl rfl
  refine ⟨⟨?_, ?_, ?_, ?_, ?_⟩, ?_, ?_, ?_, ?_⟩
  · intro imm s h hwait himm hops
    exact Laws.goes_of_body (hrWait imm) none s h (waitBody_goes (s := s.atInstr (.wait imm)) hwait himm hops)
  · intro imm s h hout
    exact Laws.goes_of_body (hrYield imm) (some _) s h (yieldBody_goes (s := s.atInstr (.yield imm)) hout)
  · intro s h
    have hr : Runs .idem _ idemBody := runs (fun _ => rfl) rfl rfl rfl
    exact hr.ok h rfl
  · exact fun d a s h => lclk_reads h
  · intro a b s c s1 h ha hb hload hc
    obtain ⟨info, hr⟩ := runs_mwait a b
    exact hr.ok h (mwaitBody_ends (s := s.atInstr (.mwait a b)) ha hb hload hc)
  · intro imm s h
    have hr : Runs (.bar imm) _ (barBody .bar) := runs (fun _ => rfl) rfl rfl rfl
    exact Laws.settle_done hr h rfl
  · intro imm s h
    have hr : Runs (.barg imm) _ (barBody .barg) := runs (fun _ => rfl) rfl rfl rfl
    exact Laws.settle_done hr h rfl
  · intro imm s h hc hwait himm h1
    exact stops_waiting (hrWait imm) rfl h hc (Apart.same _) (waitBody_pauses (s := s.atInstr (.wait imm)) hwait himm h1)
  · intro imm s h hc hout
    exact stops_waiting (hrYield imm) rfl h hc (Apart.same _) (yieldBody_waits (s := s.atInstr (.yield imm)) hout)

end Sys2Proof.Machine
end

section
/-! What resets and machine checks leave of kills and reports (R290, R332, R334). -/

namespace Sys2Proof.Machine

open Sys2Proof

/-! A die that is cleared. -/

/-- An element of a list that is changed everywhere is changed, or stands outside the list. -/
theorem nth_map_or {α : Type} (g : α → α) (l : List α) (n : Nat) (d : α) :
    nth (l.map g) n d = g (nth l n d) ∨ nth (l.map g) n d = nth l n d := by
  unfold nth
  rw [List.getElem?_map]
  cases l[n]? with
  | none => exact .inr rfl
  | some x => exact .inl rfl

theorem alGet_filter {α : Type} (l : List (Nat × α)) (p : Nat → Bool) (k : Nat) :
    alGet (l.filter (fun e => p e.1)) k = if p k = true then alGet l k else none := by
  induction l with
  | nil => simp [alGet]
  | cons e l ih =>
    obtain ⟨i, x⟩ := e
    by_cases hi : i = k
    · subst hi
      by_cases hp : p i = true
      · simp [hp, alGet]
      · simpa [List.filter_cons, hp] using ih
    · by_cases hp : p i = true
      · simpa [List.filter_cons, hp, alGet, hi] using ih
      · simpa [List.filter_cons, hp, alGet, hi] using ih

/-- What a reset of die d makes of a block, and of a warp whose block stands on it. -/
def Block.cleared (d : Nat) (b : Block) : Block :=
  if dieOf b.core = d then { b with resid := .gone, scratch := [], acc := [], slots := [], savedOps := [], tasks := [] } else b
def State.clearedWarp (s : State) (d : Nat) (x : Warp) : Warp :=
  if dieOf (s.block x.blk).core = d then
    { x with phase := .gone, handlers := [], strands := [none, none, none, none], stopped := none, engFaults := [], lanes := 0,
             task := none, resv := none }
  else x

section
variable (s : State) (d : Nat)

theorem clearDie_block (b : Nat) : (s.clearDie d).block b = s.block b ∨
    (((s.clearDie d).block b).resid = .gone ∧ ((s.clearDie d).block b).acc = []) := by
  have h : (s.clearDie d).block b = (s.block b).cleared d ∨ (s.clearDie d).block b = s.block b :=
    nth_map_or (Block.cleared d) s.blocks b _
  refine h.elim (fun hmap => ?_) .inl
  rw [hmap]
  unfold Block.cleared
  split
  · exact .inr ⟨rfl, rfl⟩
  · exact .inl rfl

theorem clearDie_warp (w : Nat) : (s.clearDie d).warp w = s.warp w ∨ ((s.clearDie d).warp w).phase = .gone := by
  have h : (s.clearDie d).warp w = s.clearedWarp d (s.warp w) ∨ (s.clearDie d).warp w = s.warp w :=
    nth_map_or (s.clearedWarp d) s.warps w _
  refine h.elim (fun hmap => ?_) .inl
  rw [hmap]
  unfold State.clearedWarp
  split
  · exact .inr rfl
  · exact .inl rfl

theorem clearDie_core (c : Nat) : (s.clearDie d).core c = s.core c ∨ (s.clearDie d).core c = Core.empty := by
  have h : (s.clearDie d).core c = (if decide (dieOf c ≠ d) = true then alGet s.cores c else none).getD Core.empty :=
    congrArg (·.getD Core.empty) (alGet_filter s.cores (fun k => decide (dieOf k ≠ d)) c)
  rw [h]
  split
  · exact .inl rfl
  · exact .inr rfl

theorem clearDie_die (c : Nat) : (s.clearDie d).die c = s.die c ∨ ((s.clearDie d).die c).queues = Die.reset.queues := by
  unfold State.clearDie
  rw [State.die_setDie]
  split
  · exact .inr rfl
  · exact .inl rfl

/-- Nothing is enabled on a die that has been cleared. -/
theorem clearDie_ctxs : ((s.clearDie d).die d).ctxs = [] := by
  unfold State.clearDie
  rw [State.die_setDie]
  split
  · rfl
  · next h => exact congrArg Die.ctxs (die_outside (s := s) fun hd => h ⟨rfl, hd⟩)

theorem clearDie_launches (l : Nat) {x : Launch} (hx : s.launches[l]? = some x) (hk : x.phase = .killed) :
    (s.clearDie d).launches[l]? = some x := by
  unfold State.clearDie State.setDie
  dsimp only
  rw [List.getElem?_map, hx]
  simp [hk]

theorem Core.empty_queue (q : Nat) : Core.empty.queue q = [] := by
  have hempty : ∀ (ls : List (List EngOp)) (n : Nat), (∀ r ∈ ls, r = []) → nth ls n [] = [] := by
    intro ls n h
    unfold nth
    cases hn : ls[n]? with
    | none => rfl
    | some r => exact h r (List.mem_of_getElem? hn)
  unfold Core.queue Core.empty
  split
  · exact hempty _ _ (by simp)
  · exact hempty _ _ (by simp)

end

/-- A reset of a die keeps what a kill has done. -/
theorem Killed.cleared {s t : State} {l : Nat} (h : Killed s t l) (d : Nat) : Killed s (t.clearDie d) l where
  launch := by
    obtain ⟨x, hx, hphase, hstatus⟩ := h.launch
    exact ⟨x, clearDie_launches t d l hx hphase, hphase, hstatus⟩
  blocks b hb := by
    obtain hsame | ⟨hgone, -⟩ := clearDie_block t d b
    · rw [hsame]
      exact h.blocks b hb
    · exact .inl hgone
  left b hb he := by
    obtain ⟨hacc, hwarps⟩ := h.left b hb he
    refine ⟨?_, fun w hw hlen => ?_⟩
    · obtain hsame | ⟨-, hnone⟩ := clearDie_block t d b
      · rw [hsame]
        exact hacc
      · exact hnone
    · obtain hsame | hgone := clearDie_warp t d w
      · rw [hsame]
        exact hwarps w hw hlen
      · exact hgone
  ops b hb c q o ho := by
    obtain hsame | hempty := clearDie_core t d c
    · rw [hsame] at ho
      exact h.ops b hb c q o ho
    · rw [hempty, Core.empty_queue] at ho
      exact absurd ho List.not_mem_nil
  queues c q hq := by
    obtain hsame | hreset := clearDie_die t d c
    · rw [hsame] at hq
      exact h.queues c q hq
    · rw [hreset] at hq
      rw [List.eq_of_mem_replicate (show q ∈ List.replicate 64 [] from hq)]
      exact List.not_mem_nil

/-! A die that boots again. -/

/-- A boot, with an image that is accepted or not, is a reset and then a write of the die. -/
theorem bootDie_leaves (s : State) (d : Nat) (m : Image) : ∃ x, s.bootDie d m = (s.clearDie d).setDie d x ∧
    x.ctxs = ((s.clearDie d).die d).ctxs ∧ x.queues = ((s.clearDie d).die d).queues := by
  unfold State.bootDie
  dsimp only
  split
  · exact ⟨_, rfl, rfl, rfl⟩
  · exact ⟨_, rfl, rfl, rfl⟩

theorem setDie_ctxs (s : State) (d : Nat) {x : Die} (h : x.ctxs = (s.die d).ctxs) : ((s.setDie d x).die d).ctxs = (s.die d).ctxs :=
  (Reported.setDie s d h).ctxs d

theorem rebootDie_ctxs (s : State) (d : Nat) : ((s.rebootDie d).die d).ctxs = [] := by
  unfold State.rebootDie
  split
  · next m _ =>
    obtain ⟨x, hboot, hctxs, -⟩ := bootDie_leaves s d m
    rw [hboot, setDie_ctxs _ d hctxs]
    exact clearDie_ctxs s d
  · exact clearDie_ctxs s d

theorem rebootDie_reports (s : State) (d : Nat) : (s.rebootDie d).sys = s.sys := by
  unfold State.rebootDie
  split
  · next m _ =>
    obtain ⟨x, hboot, -, -⟩ := bootDie_leaves s d m
    rw [hboot]
    rfl
  · rfl

theorem Killed.rebooted {s t : State} {l : Nat} (h : Killed s t l) (d : Nat) : Killed s (t.rebootDie d) l := by
  unfold State.rebootDie
  split
  · next m _ =>
    obtain ⟨x, hboot, -, hqueues⟩ := bootDie_leaves t d m
    rw [hboot]
    exact (h.cleared d).spared (Stored.setDie _ d hqueues).toSpared rfl
  · exact h.cleared d

/-! Machine checks (R290). -/

/-- A machine check after its kills: its report, and the message to the context's host. -/
theorem mchk_eq (s : State) (d c : Nat) : let k := (s.launchesOf d c).foldl State.killLaunch s
    ∃ m : Msg, m.kind = 0x0F ∧ m.ctx = BitVec.ofNat 6 c ∧ m.opnds = [BitVec.ofNat 64 (Cause.num .mchk)] ∧
      m.conn = ((k.die d).ctx c).hconn ∧
      s.mchk d c = ((k.noted (.mchk d c)).send d ((k.die d).ctx c).host m).2 := ⟨_, rfl, rfl, rfl, rfl, rfl⟩

theorem killLaunches_reported (ls : List Nat) (s : State) : Reported s (ls.foldl State.killLaunch s) :=
  Reported.foldl killLaunch_reported ls s

/-- All that a machine check does after its kills spares them. -/
theorem mchk_spares (s : State) (d c : Nat) : let k := (s.launchesOf d c).foldl State.killLaunch s
    Stored k (s.mchk d c) ∧ (s.mchk d c).launches = k.launches := by
  obtain ⟨m, -, -, -, -, hm⟩ := mchk_eq s d c
  rw [hm]
  exact ⟨(noted_stored _ _).trans (Stored.send ..), send_launches ..⟩

theorem mchk_reported (s : State) (d c : Nat) : Reported s (s.mchk d c) := by
  obtain ⟨m, -, -, -, -, hm⟩ := mchk_eq s d c
  rw [hm]
  exact ((killLaunches_reported _ s).trans (noted_reported _ _)).trans (Reported.send ..)

theorem mchk_killed {s : State} {d c l : Nat} (h : s.liveLaunch d c l) : Killed s (s.mchk d c) l := by
  obtain ⟨hstored, hlaunches⟩ := mchk_spares s d c
  exact (killLaunchesOf_killed h).spared hstored.toSpared hlaunches

/-- A message that is sent stands among those of its connection until it is acknowledged. -/
theorem send_unacked {s : State} {d : Nat} (hd : d < s.dies.length) (p : BitVec 128) (m : Msg) :
    ∃ c ∈ ((s.send d p m).2.die d).tx, c.peer = p ∧ c.conn = m.conn ∧
      ∃ q ∈ c.unacked, q.kind = m.kind ∧ q.ctx = m.ctx ∧ q.opnds = m.opnds := by
  obtain ⟨hconn, -, hpeer⟩ := txOf_keys (s.die d) m.conn m.cls p
  unfold State.send
  rw [route_die, State.die_setDie, if_pos ⟨rfl, hd⟩]
  exact ⟨_, List.mem_cons_self .., hpeer, hconn, _, List.mem_append_right _ (List.mem_singleton.mpr rfl), rfl, rfl, rfl⟩

/-- The message of a machine check to its context's host. -/
theorem mchk_tells {s : State} {d : Nat} (hd : d < s.dies.length) (c : Nat) :
    ∃ t ∈ ((s.mchk d c).die d).tx, t.peer = ((s.die d).ctx c).host ∧ t.conn = ((s.die d).ctx c).hconn ∧
      ∃ m ∈ t.unacked, m.kind = 0x0F ∧ m.ctx = BitVec.ofNat 6 c ∧ m.opnds = [BitVec.ofNat 64 (Cause.num .mchk)] := by
  have hk := killLaunches_reported (s.launchesOf d c) s
  obtain ⟨m, hkind, hctx, hopnds, hconn, hm⟩ := mchk_eq s d c
  have hd' : d < ((s.launchesOf d c).foldl State.killLaunch s).dies.length := by
    rw [hk.length]
    exact hd
  rw [ctx_of_ctxs (hk.ctxs d)] at hm hconn
  obtain ⟨t, ht, hpeer, htconn, q, hq, hqkind, hqctx, hqopnds⟩ :=
    send_unacked (s := ((s.launchesOf d c).foldl State.killLaunch s).noted (.mchk d c)) hd' ((s.die d).ctx c).host m
  rw [hm]
  exact ⟨t, ht, hpeer, htconn.trans hconn, q, hq, hqkind.trans hkind, hqctx.trans hctx, hqopnds.trans hopnds⟩

end Sys2Proof.Machine
end

section
/-! A die that gets too hot (R334): a machine check of each enabled context, one after the other, and then a boot. -/

namespace Sys2Proof.Machine

open Sys2Proof

/-- Kills of other launches keep the launch and its blocks. -/
theorem killLaunches_others {ks : List Nat} {l : Nat} (hl : l ∉ ks) (s : State) :
    Fades (fun b => (s.block b).launch ≠ l) s (ks.foldl State.killLaunch s) ∧
      (ks.foldl State.killLaunch s).launches[l]? = s.launches[l]? := by
  induction ks generalizing s with
  | nil => exact ⟨Fades.same s, rfl⟩
  | cons k ks ih =>
    obtain ⟨hk, hks⟩ := List.ne_and_not_mem_of_not_mem_cons hl
    have hstep := killLaunch_fades s k
    obtain ⟨hrest, hlaunch⟩ := ih hks (s.killLaunch k)
    refine ⟨Fades.trans (hstep.mono fun b hb => ?_) (hrest.mono fun b hb => ?_), hlaunch.trans (killLaunch_others s hk)⟩
    · rw [(mem_blocksOf.mp hb).2.1]
      exact Ne.symm hk
    · rwa [(hstep.blocks b).1] at hb

theorem mchk_others {s : State} {d c l : Nat} (hl : l ∉ s.launchesOf d c) :
    Fades (fun b => (s.block b).launch ≠ l) s (s.mchk d c) ∧ (s.mchk d c).launches[l]? = s.launches[l]? := by
  obtain ⟨hkills, hlaunch⟩ := killLaunches_others hl s
  obtain ⟨hstored, hlaunches⟩ := mchk_spares s d c
  exact ⟨hkills.trans (Fades.stored hstored), (congrArg (·[l]?) hlaunches).trans hlaunch⟩

theorem mchk_blocks (s : State) (d c b : Nat) : ((s.mchk d c).block b).launch = (s.block b).launch := by
  have hkills : Fades (fun _ => True) s ((s.launchesOf d c).foldl State.killLaunch s) :=
    Fades.foldl _ s fun s l _ => (killLaunch_fades s l).mono fun _ _ => trivial
  exact ((hkills.trans (Fades.stored (mchk_spares s d c).1)).blocks b).1

/-- Later machine checks keep what a kill has done. -/
theorem Killed.mchks {s t : State} {l : Nat} (h : Killed s t l) (hb : ∀ b, (t.block b).launch = (s.block b).launch) (d : Nat)
    (cs : List Nat) : Killed s (cs.foldl (fun s c => s.mchk d c) t) l := by
  induction cs generalizing t with
  | nil => exact h
  | cons c cs ih =>
    obtain ⟨hstored, hlaunches⟩ := mchk_spares t d c
    exact ih ((h.killLaunches hb (t.launchesOf d c)).spared hstored.toSpared hlaunches) fun b => (mchk_blocks t d c b).trans (hb b)

/-- Machine checks of a list of contexts kill the launches of each. -/
theorem mchks_killed {cs : List Nat} {s : State} {d ctx l : Nat} (hmem : ctx ∈ cs) (h : s.liveLaunch d ctx l) :
    Killed s (cs.foldl (fun s c => s.mchk d c) s) l := by
  induction cs generalizing s with
  | nil => exact absurd hmem List.not_mem_nil
  | cons c cs ih =>
    by_cases hc : c = ctx
    · subst hc
      exact (mchk_killed h).mchks (mchk_blocks s d c) d cs
    · obtain ⟨x, hx, hdie, hctx, hphase⟩ := h
      have hl : l ∉ s.launchesOf d c := by
        intro hin
        have := (List.mem_filter.mp hin).2
        simp only [hx, hdie, hctx, Bool.and_eq_true, decide_eq_true_eq] at this
        exact hc this.2.symm
      obtain ⟨hfades, hlaunch⟩ := mchk_others hl
      refine Killed.before hfades (fun b hb hne => hne hb) (ih ((List.mem_cons.mp hmem).resolve_left (Ne.symm hc)) ?_)
      exact ⟨x, hlaunch.trans hx, hdie, hctx, hphase⟩

theorem mchks_reports {cs : List Nat} {ctx : Nat} (hmem : ctx ∈ cs) (d : Nat) (s : State) :
    Report.mchk d ctx ∈ (cs.foldl (fun s c => s.mchk d c) s).sys.reports := by
  induction cs generalizing s with
  | nil => exact absurd hmem List.not_mem_nil
  | cons c cs ih =>
    obtain rfl | hrest := List.mem_cons.mp hmem
    · exact (Reported.foldl (fun s c => mchk_reported s d c) cs _).reports (mchk_reports s d ctx)
    · exact ih hrest _

theorem alGet_mem {α : Type} {l : List (Nat × α)} {k : Nat} {x : α} (h : alGet l k = some x) : (k, x) ∈ l := by
  induction l with
  | nil => cases h
  | cons e l ih =>
    obtain ⟨i, y⟩ := e
    unfold alGet at h
    split at h
    · next hi =>
      cases h
      rw [hi]
      exact List.mem_cons_self ..
    · exact List.mem_cons_of_mem _ (ih h)

/-- The contexts of a die that are enabled. -/
def Die.enabledCtxs (d : Die) : List Nat := (d.ctxs.filter (fun c => c.2.enabled)).map Prod.fst

theorem mem_enabledCtxs {d : Die} {c : Nat} (h : (d.ctx c).enabled = true) : c ∈ d.enabledCtxs := by
  unfold Die.ctx at h
  cases hc : alGet d.ctxs c with
  | none =>
    rw [hc] at h
    cases h
  | some x =>
    rw [hc] at h
    exact List.mem_map.mpr ⟨(c, x), List.mem_filter.mpr ⟨alGet_mem hc, h⟩, rfl⟩

theorem ctx_disabled {d : Die} (h : d.ctxs = []) (c : Nat) : (d.ctx c).enabled = false := by
  unfold Die.ctx
  rw [h]
  rfl

/-- What a die that gets too hot leaves (R334). -/
theorem overtemperature_ends (s : State) (d : Nat) :
    let t := ((s.die d).enabledCtxs.foldl (fun s c => s.mchk d c) s).rebootDie d
    (∀ ctx, ((s.die d).ctx ctx).enabled = true → Report.mchk d ctx ∈ t.sys.reports ∧ ∀ l, s.liveLaunch d ctx l → Killed s t l) ∧
      ∀ c, ((t.die d).ctx c).enabled = false := by
  refine ⟨fun ctx hctx => ⟨?_, fun l hl => ?_⟩, ctx_disabled (rebootDie_ctxs _ d)⟩
  · rw [rebootDie_reports]
    exact mchks_reports (mem_enabledCtxs hctx) d s
  · exact (mchks_killed (mem_enabledCtxs hctx) hl).rebooted d

end Sys2Proof.Machine
end

section
/-! The end of a launch (R280, R281). -/

namespace Sys2Proof.Machine

open Sys2Proof

theorem dropBlock_resid (s : State) (c b : Nat) : ((s.dropBlock c).block b).resid =
    if b = c ∧ c < s.blocks.length then .gone else (s.block b).resid := by
  have hwarps : Fades (fun _ => False) s ((s.block c).warps.foldl State.dropWarp s) :=
    Fades.foldl _ s fun s w _ => dropWarp_fades s w
  unfold State.dropBlock
  dsimp only
  rw [Laws.setBlock_block, hwarps.length]
  split
  · rfl
  · rw [hwarps.others b not_false]

/-- Blocks that leave their cores, one after the other, have all left. -/
theorem dropBlocks_gone {bs : List Nat} {s : State} {b : Nat} (hb : b < s.blocks.length)
    (h : b ∈ bs ∨ (s.block b).resid = .gone) : ((bs.foldl State.dropBlock s).block b).resid = .gone := by
  induction bs generalizing s with
  | nil => exact h.resolve_left List.not_mem_nil
  | cons c bs ih =>
    refine ih (by rw [(dropBlock_fades s c).length]; exact hb) ?_
    rw [dropBlock_resid]
    by_cases hc : b = c
    · exact .inr (if_pos ⟨hc, hc ▸ hb⟩)
    · refine h.imp (fun hmem => (List.mem_cons.mp hmem).resolve_left hc) fun hgone => ?_
      rw [if_neg fun hbc => hc hbc.1]
      exact hgone

/-- A launch that is finished is done with status 1, and its blocks have left their cores. -/
theorem finishLaunch_ends {s : State} {l : Nat} {x : Launch} (hx : s.launches[l]? = some x) :
    ∃ y, (s.finishLaunch l x).launches[l]? = some y ∧ y.phase = .done ∧ y.status = 1 ∧
      ∀ b ∈ s.blocksOf l, ((s.finishLaunch l x).block b).resid = .gone := by
  let u := (s.blocksOf l).foldl State.dropBlock s
  let z : Launch := { x with phase := .done, reqs := [], resp := [] }
  let v := (u.dropLaunch l).setLaunch l z
  have hu : u.launches = s.launches := foldl_launches dropBlock_launches _ s
  obtain ⟨hlen, -⟩ := List.getElem?_eq_some_iff.mp hx
  have hv : v.launches[l]? = some z := List.getElem?_set_self (l := u.launches) (hu ▸ hlen)
  obtain ⟨hstored, -, hstatus⟩ := putStatus_stored v l 1
  obtain ⟨hspared, hlaunches, -⟩ := dropLeaves_keeps (v.putStatus l 1) x.die x.ctx
  obtain ⟨y, hy, hphase, hcode⟩ := hstatus z hv
  refine ⟨y, (congrArg (·[l]?) hlaunches).trans hy, hphase, hcode, fun b hb => ?_⟩
  have hblock : (s.finishLaunch l x).block b = u.block b :=
    congrArg (nth · b _) (hspared.blocks.trans hstored.blocks)
  rw [hblock]
  exact dropBlocks_gone (mem_blocksOf.mp hb).1 (.inl hb)

/-! What comes before: the stores of the launch and its token. -/

/-- What spares the blocks and the launches. -/
structure LaunchesKept (s t : State) : Prop where
  blocks : t.blocks = s.blocks
  launches : t.launches = s.launches

theorem LaunchesKept.trans {s t u : State} (h : LaunchesKept s t) (k : LaunchesKept t u) : LaunchesKept s u :=
  ⟨k.blocks.trans h.blocks, k.launches.trans h.launches⟩

theorem LaunchesKept.aside {s t : State} (h : t.aside = s.aside) : LaunchesKept s t :=
  ⟨(Laws.aside_fields h).1, (Laws.aside_fields h).2.2⟩

theorem homeRead_launchesKept (s : State) {w : Who} (hf : w.fab = true) (va n : Nat) (t : Trans) (b : Bool) :
    LaunchesKept s (s.homeRead w va n t b).2 := by
  have htouch : LaunchesKept s (s.touch w va t b) := ⟨(Stored.touch s hf va t b).blocks, touch_launches ..⟩
  unfold State.homeRead
  dsimp only
  split <;> exact htouch

/-- An atomic operation of the fabric keeps blocks and launches. -/
theorem ioAdd_launchesKept {s t : State} {w : Who} (hf : w.fab = true) {rs : List HostResp} {p x n : Nat}
    (h : s.ioAdd w rs p x = .ok (n, t)) : LaunchesKept s t := by
  unfold State.ioAdd State.ioAtomic at h
  split at h
  · cases h
    exact ⟨rfl, rfl⟩
  · cases h
  · split at h
    · cases h
    · next tr _ =>
      split at h
      · cases h
      · cases h
        exact (homeRead_launchesKept s hf ..).trans ⟨(Stored.homeWrite _ hf ..).blocks, homeWrite_launches ..⟩

/-- The stores of a launch that ends, at system scope (R280). -/
def State.storesDone (s : State) (x : Launch) : State :=
  s.cores.foldl (fun t c => if dieOf c.1 = x.die then
    t.cleanLines c.1 (fun k => k.asid = ((s.die x.die).ctx x.ctx).asid && k.dirty ≠ 0) else t) s

theorem storesDone_kept (s : State) (x : Launch) : LaunchesKept s (s.storesDone x) :=
  LaunchesKept.aside (foldl_aside _ _ s fun t c => by
    split
    · exact cleanLines_aside ..
    · rfl)

theorem LaunchesKept.blocksOf {s t : State} (h : LaunchesKept s t) (l : Nat) : t.blocksOf l = s.blocksOf l := by
  unfold State.blocksOf State.block
  rw [h.blocks]

theorem finishLaunch_kept {s v : State} (h : LaunchesKept s v) {l : Nat} {x : Launch} (hx : s.launches[l]? = some x) :
    ∃ y, (v.finishLaunch l x).launches[l]? = some y ∧ y.phase = .done ∧ y.status = 1 ∧
      ∀ b ∈ s.blocksOf l, ((v.finishLaunch l x).block b).resid = .gone := by
  rw [← h.blocksOf l]
  exact finishLaunch_ends (by rw [h.launches]; exact hx)

section
variable {s : State} {l : Nat} {x : Launch} (hx : s.launches[l]? = some x) (hend : s.launchEnded l x = true)
  (hans : answeredAll x.reqs x.resp = true)
include hx hend hans

theorem launchCompletion_plain (htok : recBytes x.record 96 8 = 0) :
    exec (.launchCompletion l) s = .next ((s.storesDone x).finishLaunch l x) := by
  show execLaunchCompletion l s = _
  unfold execLaunchCompletion
  simp only [hx, hend, hans, htok, Bool.not_true, Bool.or_self, Bool.false_eq_true, if_false, if_true]
  rfl

theorem launchCompletion_token (htok : recBytes x.record 96 8 ≠ 0) {n : Nat} {v : State}
    (hadd : (s.storesDone x).ioAdd (whoFab (s.storesDone x) x.die x.ctx) x.resp (recBytes x.record 96 8) 1 = .ok (n, v)) :
    exec (.launchCompletion l) s = .next (v.finishLaunch l x) := by
  unfold State.storesDone at hadd
  show execLaunchCompletion l s = _
  unfold execLaunchCompletion
  simp only [hx, hend, hans, htok, hadd, Bool.not_true, Bool.or_self, Bool.false_eq_true, if_false]

end

/-! The launch unit's other steps. -/

theorem admission_serves {s u : State} {die core q0 q l : Nat} (hheld : (s.die die).holdAdm = false)
    (hlive : (s.die die).inReset = false) (hpick : s.pick die [0, 1, 2, 3] = (.record q l, u)) :
    exec (.admission die core q0) s = .next (u.serveHead die q l core (q0 % 4)) := by
  show execAdmission die core q0 s = _
  unfold execAdmission
  simp only [hheld, hlive, Bool.or_self, Bool.false_eq_true, if_false, hpick]

theorem admission_held {s : State} {die : Nat} (hheld : (s.die die).holdAdm = true) (core q0 : Nat) :
    exec (.admission die core q0) s = .next s := by
  show execAdmission die core q0 s = _
  unfold execAdmission
  rw [hheld]
  rfl

theorem killRequest_kills {s : State} {d ctx l : Nat} (h : s.liveLaunch d ctx l) :
    ∃ t, exec (.killRequest l) s = .next t ∧ Killed s t l := by
  obtain ⟨x, hx, -, -, hphase⟩ := h
  have hexec : exec (.killRequest l) s = .next ((s.killLaunch l).dropLeaves x.die x.ctx) := by
    show execKillRequest l s = _
    unfold execKillRequest
    simp only [hx]
  obtain ⟨hspared, hlaunches, -⟩ := dropLeaves_keeps (s.killLaunch l) x.die x.ctx
  exact ⟨_, hexec, (killLaunch_killed hx hphase).spared hspared hlaunches⟩

/-! Pre-emption, resumption and migration (R300 to R303). -/

theorem preEmptionRequest_stops {s : State} {b : Nat} (h : (s.block b).resid = .resident) :
    exec (.preEmptionRequest [b]) s = .next ((s.beginSave b).endLoad (s.block b).launch) :=
  congrArg Host.Outcome.next (if_pos h)

theorem saveComplete_ends {s : State} {b : Nat} (h : (s.block b).resid = .saving) (hdone : s.saveDone b = true) :
    exec (.preEmptionSaveComplete b) s =
      .next (if (s.launchOf b).phase = .killed then s.endKill b else s.endSave b) := by
  refine congrArg Host.Outcome.next (if_pos ?_)
  rw [h, hdone]
  rfl

theorem resumption_resumes {s u v : State} {b core q0 : Nat} (h : (s.block b).resid = .saved)
    (hdie : dieOf core = (s.launchOf b).die) (hlive : (s.die (s.launchOf b).die).inReset = false)
    (hpick : s.pick (s.launchOf b).die [0, 1, 2, 3] = (.resume (s.block b).launch, u))
    (hsaving : (u.comrades b).any (fun c => (u.block c).resid = .saving) = false)
    (hall : u.resumeAll (s.launchOf b).die core (q0 % 4)
      (b :: (u.comrades b).filter (fun c => c ≠ b && (u.block c).resid = .saved)) = some v) :
    exec (.resumption b core q0) s = .next v := by
  show execResumption b core q0 s = _
  unfold execResumption
  simp only [h, hdie, hlive, hpick, hsaving, hall, ne_eq, not_true_eq_false, decide_false, Bool.or_self, Bool.false_eq_true,
    if_false, Option.getD_some]

theorem blockMigration_moves {s : State} {b core q0 : Nat} (h : (s.block b).resid = .resident)
    (hflag : recFlag (s.recOf b) 5 = true) (hcore : core ≠ (s.block b).core) (hdie : dieOf core = dieOf (s.block b).core)
    (hmates : ∀ c ∈ s.gangMates b, clusterOf (s.block c).core = clusterOf core ∧ (s.block c).core ≠ core)
    (hdone : (s.beginSave b).saveDone b = true)
    (hfits : (((s.beginSave b).endSave b).roomOf core []).fits (((s.beginSave b).endSave b).blockNeed b) (q0 % 4) = true)
    (hfree : ((s.beginSave b).endSave b).reservesFree b core (q0 % 4) = true) :
    exec (.blockMigration b core q0) s = .next (((s.beginSave b).endSave b).resumeBlock b core (q0 % 4)) := by
  have hgang : (s.gangMates b).any (fun c => clusterOf (s.block c).core ≠ clusterOf core || (s.block c).core = core) = false := by
    rw [List.any_eq_false]
    intro c hc
    obtain ⟨hcluster, hother⟩ := hmates c hc
    simp [hcluster, hother]
  show execBlockMigration b core q0 s = _
  unfold execBlockMigration
  simp only [h, hflag, hcore, hdie, hgang, hdone, hfits, hfree, ne_eq, not_true_eq_false, decide_false, Bool.not_true,
    Bool.or_self, Bool.false_eq_true, if_false, Bool.and_self, if_true]

/-! Keys and boot (R331, R332). -/

theorem loadKey_loads {s : State} {slot : Nat} (hslot : slot < 4096) (key : BitVec 512) : ∃ t, exec (.loadKey slot key) s = .next t ∧
    t.keyMat slot = some key ∧ (∀ k, k ≠ slot → t.keyMat k = s.keyMat k) ∧ t.mem = s.mem ∧ t.warps = s.warps := by
  have hexec : exec (.loadKey slot key) s = .next { s with keySlots := alSet s.keySlots slot key } :=
    congrArg Host.Outcome.next (if_pos hslot)
  exact ⟨_, hexec, (alGet_alSet ..).trans (if_pos rfl), fun k hk => (alGet_alSet ..).trans (if_neg hk), rfl, rfl⟩

theorem foldl_keySlots {α : Type} {f : State → α → State} (hf : ∀ s a, (f s a).keySlots = s.keySlots) (l : List α) (s : State) :
    (l.foldl f s).keySlots = s.keySlots := by
  induction l generalizing s with
  | nil => rfl
  | cons a l ih => exact (ih _).trans (hf s a)

theorem physWriteKey_keySlots (s : State) (k pa : Nat) (bs : List Byte) : (s.physWriteKey k pa bs).keySlots = s.keySlots := by
  unfold State.physWriteKey State.physWrite
  split
  · dsimp only
    split
    · split <;> rfl
    · rfl
  · rfl

theorem removeLines_keySlots (s : State) (c : Nat) (p : L1Line → Bool) : (s.removeLines c p).keySlots = s.keySlots := by
  unfold State.removeLines
  dsimp only
  split
  · exact foldl_keySlots (fun t l => foldl_keySlots (fun t i => physWriteKey_keySlots t ..) _ t) _ _
  · rfl

/-- The state in which no line of L1 is held under a key ID. -/
def State.keyFlushed (s : State) (slot : Nat) : State :=
  s.cores.foldl (fun s c => s.removeLines c.1 (fun l => l.key.toNat = slot)) s

theorem keyFlushed_keeps (s : State) (slot : Nat) :
    (s.keyFlushed slot).keySlots = s.keySlots ∧ (s.keyFlushed slot).warps = s.warps :=
  ⟨foldl_keySlots (fun _ _ => removeLines_keySlots ..) _ s,
    (Apart.aside (foldl_aside _ _ s fun _ _ => removeLines_aside ..)).warps⟩

theorem clearKey_clears (s : State) (slot : Nat) : ∃ t, exec (.clearKey slot) s = .next t ∧ t.keyMat slot = none ∧
    (∀ k, k ≠ slot → t.keyMat k = s.keyMat k) ∧ t.warps = s.warps := by
  obtain ⟨hkeys, hwarps⟩ := keyFlushed_keeps s slot
  let t : State := { s.keyFlushed slot with keySlots := alErase (s.keyFlushed slot).keySlots slot }
  refine ⟨t, rfl, (alGet_alErase ..).trans (if_pos rfl), fun k hk => ?_, hwarps⟩
  exact ((alGet_alErase ..).trans (if_neg hk)).trans (congrArg (alGet · k) hkeys)

theorem accepts_iff (x : Die) (m : Image) : x.accepts m = true ↔
    sha3 m.pubkey = x.fuse ∧ Mldsa.verify m.pubkey (signedBytes m) m.signature = true ∧ x.rollback ≤ m.version := by
  unfold Die.accepts
  simp only [Bool.and_eq_true, decide_eq_true_eq, and_assoc]

theorem clearDie_length (s : State) (d : Nat) : (s.clearDie d).dies.length = s.dies.length := List.length_set

/-- What the boot ROM checks an image against outlasts a reset. -/
theorem clearDie_rom {s : State} {d : Nat} (hd : d < s.dies.length) :
    ((s.clearDie d).die d).fuse = (s.die d).fuse ∧ ((s.clearDie d).die d).rollback = (s.die d).rollback := by
  unfold State.clearDie
  rw [State.die_setDie, if_pos ⟨rfl, hd⟩]
  exact ⟨rfl, rfl⟩

theorem bootDie_accepts {s : State} {d : Nat} (hd : d < s.dies.length) (m : Image) :
    ({ (s.clearDie d).die d with image := some m } : Die).accepts m = true ↔ sha3 m.pubkey = (s.die d).fuse ∧
      Mldsa.verify m.pubkey (signedBytes m) m.signature = true ∧ (s.die d).rollback ≤ m.version := by
  obtain ⟨hfuse, hrollback⟩ := clearDie_rom hd
  rw [accepts_iff]
  dsimp only
  rw [hfuse, hrollback]

theorem bootDie_boots {s : State} {d : Nat} {m : Image}
    (h : ({ (s.clearDie d).die d with image := some m } : Die).accepts m = true) :
    s.bootDie d m = (s.clearDie d).setDie d { (s.clearDie d).die d with
      image := some m, inReset := false, fwVersion := m.version, meas := measure m.stages } := by
  unfold State.bootDie
  dsimp only
  rw [if_pos h]

theorem bootDie_holds {s : State} {d : Nat} {m : Image} (hd : d < s.dies.length)
    (h : ¬ ({ (s.clearDie d).die d with image := some m } : Die).accepts m = true) :
    ((s.bootDie d m).die d).inReset = true := by
  unfold State.bootDie
  dsimp only
  rw [if_neg h, State.die_setDie, if_pos ⟨rfl, by rw [clearDie_length]; exact hd⟩]

theorem firmwareLoad_boots {s : State} {d : Nat} (m : Image) (h : ∀ c ∈ (s.die d).ctxs, c.2.enabled = false) :
    exec (.firmwareLoad d m) s = exec (.dieReset d m) s :=
  congrArg Host.Outcome.next (if_pos (List.all_eq_true.mpr fun c hc => by rw [h c hc]; rfl))

theorem firmwareLoad_refused {s : State} {d : Nat} (m : Image) (h : ∃ c ∈ (s.die d).ctxs, c.2.enabled = true) :
    exec (.firmwareLoad d m) s = .next s := by
  obtain ⟨c, hc, hon⟩ := h
  refine congrArg Host.Outcome.next (if_neg fun hall => ?_)
  have := List.all_eq_true.mp hall c hc
  rw [hon] at this
  cases this

/-- Settles O58: each event's meaning under the clause's conditions, with what kills, machine checks, resets and the end of a
launch leave. -/
theorem dieAndPackageEventsHappen : Obligations.DieAndPackageEventsHappen := by
  unfold Obligations.DieAndPackageEventsHappen
  refine ⟨?_, ?_, ?_, ?_, ?_, ?_, ?_, ?_, ?_, ?_, ?_, ?_, ?_, ?_, ?_, ?_, ?_⟩
  · exact fun s die core q0 q l u hheld hlive hpick => admission_serves hheld hlive hpick
  · exact fun s die core q0 hheld => admission_held hheld core q0
  · intro s l x hx hend hans
    refine ⟨fun htok => ?_, fun n v htok hadd => ?_⟩
    · obtain ⟨y, hy⟩ := finishLaunch_kept (storesDone_kept s x) hx
      exact ⟨_, y, launchCompletion_plain hx hend hans htok, rfl, hy⟩
    · obtain ⟨y, hy⟩ := finishLaunch_kept ((storesDone_kept s x).trans (ioAdd_launchesKept rfl hadd)) hx
      exact ⟨_, y, launchCompletion_token hx hend hans htok hadd, rfl, hy⟩
  · exact fun s d ctx l h => killRequest_kills h
  · exact fun s b h => preEmptionRequest_stops h
  · intro s b h hdone
    exact ⟨fun hk => (saveComplete_ends h hdone).trans (congrArg _ (if_neg hk)),
      fun hk => (saveComplete_ends h hdone).trans (congrArg _ (if_pos hk))⟩
  · exact fun s b core q0 u v h hdie hlive hpick hsaving hall => resumption_resumes h hdie hlive hpick hsaving hall
  · exact fun s b core q0 h hflag hcore hdie hmates hdone hfits hfree =>
      blockMigration_moves h hflag hcore hdie hmates hdone hfits hfree
  · exact fun s d ctx => ⟨_, rfl, fun l h => mchk_killed h, mchk_reports s d ctx, fun hd => mchk_tells hd ctx⟩
  · exact fun s d => ⟨_, rfl, rfl, overtemperature_ends s d⟩
  · exact fun s slot key hslot => loadKey_loads hslot key
  · exact fun s slot => clearKey_clears s slot
  · intro s n
    show execSetPowerCap n s = _
    unfold execSetPowerCap
    simp only [Bool.and_eq_true, decide_eq_true_eq]
  · intro s d m
    refine ⟨fun hgood hd => ?_, fun hbad hd => ⟨_, rfl, ?_⟩, firmwareLoad_boots m, firmwareLoad_refused m⟩
    · exact congrArg Host.Outcome.next (bootDie_boots ((bootDie_accepts hd m).mpr hgood))
    · exact bootDie_holds hd fun h => hbad ((bootDie_accepts hd m).mp h)
  · exact fun s d nonce => rfl
  · exact fun s d => ⟨rfl, rfl⟩
  · exact fun s d key => rfl

end Sys2Proof.Machine
end
